-- ==== Sys2Proof/Word.lean ====
section
/-! DEFINITION. Word.lean: the words of the machine (R57, R80, R82). -/

namespace Sys2Proof

/-- One byte. -/
abbrev Byte := BitVec 8
/-- A 32-bit word: a scalar register, a lane, an accumulator element. -/
abbrev Word := BitVec 32
/-- A 64-bit word: an address register, a 64-bit device register. -/
abbrev Word64 := BitVec 64

end Sys2Proof
end

