-- ==== Sys2Proof/Syntax.lean ====
section
/-! DEFINITION. Syntax.lean: the commands of the module, one constructor per row of spec/opcode_table.json. -/

namespace Sys2Proof

/-- Reset kinds of R10. -/
inductive ResetKind where
  | p | m | f | t
  deriving DecidableEq, Repr

/-- Every register of the register index (R497) and of the standard error group (R498), under its own name. -/
inductive RegId where
  | FAB_CL_STATUS | FAB_CL_ASSIGN | FAB_CL_CTL | FAB_CL_STEP
  | FAB_CL_BUSY | FAB_SITE_FAULT | FAB_ROW_MAP | DCK_CTL
  | DCK_STALL_LIMIT | DCK_ISO_DROP | DCK_EDGE_DROP | DCK_BRIDGE_STATUS
  | PLC_CTL | PLC_BAL_PERIOD | PLC_BAL_HOLD | PLC_MEASURE
  | PLC_REBAL_GAIN | PLC_SLOW_LIMIT | PLC_MOVES | PLC_STEALS
  | PLC_TEN_CTL | PLC_TEN_BAL | PLC_TEN_FOREIGN | PLC_TEN_SLOWDOWN
  | PLC_TEN_CLUSTERS | PLC_ROUTE | WGT_SWAP_TIMEOUT | WGT_STAGED
  | WGT_TEN_BERTH | WGT_TEN_BERTH_BYTES | WGT_MISS_POLICY | WGT_LAYER_DEADLINE
  | WGT_TEN_WINDOW | WGT_TEN_VERSION | WGT_TEN_FRONT_STEP | WGT_TEN_MISSES
  | WGT_TEN_LEAN_STEPS | WGT_TEN_TOLL_CYCLES | WGT_TEN_STATUS | WBL_CTL
  | WBL_AGE_STEP | WBL_AGE_LIMIT | WBL_URGENT_MARGIN | WBL_FREE
  | WBL_PEEK_SEL | WBL_PEEK_DATA | WBL_TEN_LIMITS | WBL_TEN_BUDGET
  | WBL_TEN_PREFILL | WBL_TEN_KV | WBL_TEN_RAGGED | WBL_TEN_RESULT
  | WBL_TEN_CTL | WBL_TEN_GROUP | WBL_TEN_ACTION | WBL_TEN_COUNTS
  | WBL_TEN_TOKENS | WBL_TEN_STEP | WBL_TEN_WAITS | CVN_STALL_LIMIT
  | CVN_RING_BASE | CVN_RING_CFG | CVN_RING_PTRS | CVN_RING_STATE
  | CVN_RING_CONSUME | CVN_TEN_STATUS | LRN_CTL | LRN_TEN_BATCH
  | LRN_TEN_SLOT | LRN_TEN_LIMITS | LRN_TEN_WAIT | LRN_TEN_MIN
  | LRN_TEN_SCHED_VA | LRN_TEN_SCHED_CTL | LRN_TEN_SCHED_LEN | LRN_TEN_LAG
  | LRN_TEN_GRAD_ADDR | LRN_TEN_GRAD_LEN | LRN_TEN_STEP | LRN_TEN_SEQS
  | LRN_TEN_ROWS | LRN_TEN_DROPS | LRN_TEN_IDLE | MEM_CTL
  | MEM_CH_CTL | MEM_CH_UE_LIMIT | MEM_PATROL | MEM_SKEW_LIMIT
  | MEM_SKEW_WINDOW | MEM_SKEW_MIN | MEM_MIG_STALL | MEM_MIG_MAX
  | MEM_CH_STATUS | MEM_TEN_BUCKET | MEM_TEN_BYTES | MEM_TEN_THROTTLE
  | MEM_TEN_KEYS | HLD_SCRUB_PERIOD | HLD_RETIRE_CE | HLD_FREE_BANKS
  | HLD_MAP_SEL | HLD_MAP_DATA | HLD_BANK_SEL | HLD_BANK_INFO
  | HLD_TEN_EXT | HLD_TEN_EXT_RUN | XLT_POOL_FREE | XLT_TEN_ROOT
  | XLT_TEN_ALLOC_REQ | XLT_TEN_ALLOC_RESULT | XLT_TEN_FREE | XLT_TEN_INVAL
  | XLT_TEN_INVAL_DONE | XLT_TEN_FRAMES | XLT_TEN_FAULT | RNG_CTL
  | RNG_SELFTEST_PERIOD | RNG_KAT_KEY | RNG_KAT_CTR | RNG_KAT_CTL
  | RNG_KAT_OUT | RNG_ENTROPY_STATUS | VIA_DISC_STATUS | VIA_DISC_CTL
  | VIA_ROUTE_CTL | VIA_ISO_DROP | VIA_DETOURS | VIA_LOST
  | VIA_JOB | VIA_PORT_CTL | VIA_PORT_STATUS | VIA_PORT_PEER
  | VIA_PORT_LANES | VIA_PORT_SPARE_USE | VIA_PORT_LANE_ERR_LIMIT | VIA_PORT_TX_FLITS
  | VIA_PORT_RX_FLITS | VIA_PORT_REPLAYS | VIA_PORT_RETRAINS | VIA_PORT_FEC
  | SYN_CTL | SYN_BARRIERS_FREE | SYN_GROUP_OPS | SYN_TEN_BARRIERS
  | SYN_TEN_PENDING | COL_CTL | COL_TIMEOUT | COL_INSTANCES
  | COL_CRC_FAILS | COL_TEN_LIMITS | COL_TEN_ACTIVE | COL_TEN_SLOWEST
  | COL_TEN_WAIT_NS | COL_TEN_BYTES | COL_TEN_INSTANCES | HIF_HCP_REQ
  | HIF_HCP_VER | HIF_LINK_STATUS | HIF_LTR | HIF_NMI_STATUS
  | HIF_VF_NOTICE | HIF_TX_BYTES | HIF_RX_BYTES | HIF_ID
  | QUE_RING_SEL | QUE_RING_BASE | QUE_RING_CFG | QUE_RING_PTRS
  | QUE_RING_INFO | QUE_AGE_STEP | QUE_AGE_LIMIT | QUE_PREEMPT
  | QUE_TEN_CMD | QUE_TEN_STATE | QUE_TEN_CMD_ABORT | QUE_TEN_KILLS
  | TEN_CMD | TEN_CMD_STATUS | TEN_SCRUB_SHARE | TEN_GRANT
  | TEN_HOLD | TEN_DRAM | TEN_RINGS | TEN_LAT_TOL
  | TEN_STATUS | TEN_VIOLATION | LDG_CTL | LDG_RING
  | LDG_MEASURED | LDG_BACKLOG | LDG_COEF | PMC_CTL
  | PMC_SEL | PMC_CNT | DMA_TIMEOUT | DMA_CH_CFG
  | DMA_CH_CTL | DMA_CH_STATUS | DMA_CH_DONE | DMA_CH_ERR_ADDR
  | DMA_CH_ERR_INFO | DMA_CH_BYTES | DMA_TEN_LIMITS | ERR_STATUS
  | ERR_FIRST_INFO0 | ERR_FIRST_INFO1 | ERR_COUNT | ERR_CLASS_WINDOW
  | ERR_CLASS_THRESH | ERR_SEVERE | ERR_INT_EN | ERR_VECTOR
  | ERR_SEVERE_VECTOR | ERR_ALIVE_STOP | ERR_INJECT_INV | ERR_CLEAR
  | INT_CTL | INT_SCRUB_PERIOD | INT_SEVERE_SUMMARY | INT_STATUS_SUMMARY
  | INT_FAB_SEVERE | INT_EPOCH_OPEN | INT_EPOCH_LAST | INT_EPOCHS
  | INT_SIG_COUNT | INT_SIG_SEL | INT_SIG_DATA | INT_TWIN
  | ALV_CTL | ALV_STATUS | ALV_STOPS | CKP_TIMEOUT
  | CKP_TEN_BUDDY | CKP_TEN_AREA | CKP_TEN_AREA_BYTES | CKP_TEN_STATUS
  | CKP_TEN_GEN | CKP_TEN_SENT_GEN | CKP_TEN_SENT_STEP | CKP_TEN_HELD_GEN
  | CKP_TEN_HELD_STEP | CKP_TEN_HELD_MODULE | CKP_TEN_BYTES | CKP_TEN_DISCARDS
  | CKP_TEN_ALIAS | CLK_CTL | CLK_STATUS | CLK_MON
  | PWR_CTL | PWR_LAT_TOL | PWR_IDLE_DWELL | PWR_CAP
  | PWR_THERMAL | PWR_STATUS | PWR_ENTRIES | RTC_SECONDS
  | RTC_FRAC | RTC_SET_SECONDS | RTC_SET_FRAC | RTC_CTL
  | RTC_STATUS | GLB_ID | GLB_SERIAL | GLB_CTL
  | GLB_STATUS | GLB_MODULE | GLB_RESET_CAUSE | SBD_ADDR
  | SBD_CTL | SBD_EVENTS | SBD_LOCAL_STATUS | PMC_EN
  deriving DecidableEq, Repr

/-- A function of the PCIe endpoint: 0 is the physical function, 1 to 127 the virtual functions (R340). -/
abbrev Func := Fin 128
/-- A tenancy number; 0 is the house context (R22, R23). -/
abbrev Ten := Fin 101
/-- A physical cluster number die·25 + cy·5 + cx (chapter About this manual). -/
abbrev Cluster := Fin 100

/-- A logical tile: its cluster and its logical row and column within the cluster (R30, R31). -/
structure TileId where
  cl : Cluster
  row : Fin 16
  col : Fin 16
  deriving DecidableEq, Repr

/-- The fields of an instruction word other than its opcode (R82). -/
structure Fields where
  d : BitVec 6
  a : BitVec 6
  b : BitVec 6
  mod : BitVec 6
  imm : Word
  deriving DecidableEq, Repr

/-- How a tile fault was found; the codes of FAB_SITE_FAULT.KIND (R53). -/
inductive SiteFault where
  | bayParity | arrayCheck | coreCheck | selftest | bypass | pfDeclared
  deriving DecidableEq, Repr

/-- The blocks that hold a standard error group (R498); each FAB cluster window holds its own (R53). -/
inductive Block where
  | glb | clk | pwr | rtc | sbd | ten | ldg | pmc | alv | int | ckp | via | col | mem | hld | xlt | wgt | wbl
  | cvn | lrn | rng | dma | que | plc | syn | dck | hif
  | fab (c : Cluster)
  deriving DecidableEq, Repr

/-- A packet of the viaduct link protocol as its header and payload carry it (R301). -/
structure Packet where
  dst : BitVec 13
  src : BitVec 13
  jobId : BitVec 24
  kind : Byte
  hops : Byte
  flags : Byte
  /-- Bytes 16–31 of the header: the kind-specific part. -/
  spec : BitVec 128
  payload : List Byte
  deriving DecidableEq, Repr

/-- A command of the module: one row of the table of operations and events. -/
inductive Instr where
  /-- R95: A tile issues NOP and does nothing for one tile cycle. -/
  | nop (t : TileId) (op : Byte) (w : Fields)
  /-- R95: HALT with code 0 acts as CMT.STEP and stops the tile for the rest of the route; a non-zero code kills the step and ends the route's command ABORTED. -/
  | halt (t : TileId) (w : Fields)
  /-- R95: Unconditional relative branch, checked against the code range when taken. -/
  | br (t : TileId) (w : Fields)
  /-- R95: Conditional relative branch on a signed or unsigned comparison of two scalar registers. -/
  | bCc (t : TileId) (w : Fields)
  /-- R95: Writes the return index to a scalar register and branches. -/
  | call (t : TileId) (w : Fields)
  /-- R95: Jumps to the instruction index held in a scalar register. -/
  | jr (t : TileId) (w : Fields)
  /-- R96: Pushes a hardware loop level, or skips the body when the count is zero, halting with LOOP_RANGE on misuse. -/
  | loop (t : TileId) (w : Fields)
  /-- R97: 32-bit scalar operation selected by mod on two scalar registers. -/
  | alu (t : TileId) (w : Fields)
  /-- R97: 32-bit scalar operation selected by mod on a scalar register and the immediate. -/
  | alui (t : TileId) (w : Fields)
  /-- R97: Writes the immediate to a scalar register. -/
  | movi (t : TileId) (w : Fields)
  /-- R97: MUL, MULH or MULHU forms the low or high 32 bits of a product. -/
  | mul (t : TileId) (w : Fields)
  /-- R98: DIV, DIVU, REM or REMU forms a quotient or remainder with the defined division-by-zero results. -/
  | div (t : TileId) (w : Fields)
  /-- R98: Adds a sign-extended scalar to an address register. -/
  | aadd (t : TileId) (w : Fields)
  /-- R98: Adds the sign-extended immediate to an address register. -/
  | aaddi (t : TileId) (w : Fields)
  /-- R98: Builds an address register from two scalar registers. -/
  | aset (t : TileId) (w : Fields)
  /-- R98: Reads the low 32 bits of an address register into a scalar register. -/
  | alo (t : TileId) (w : Fields)
  /-- R98: Reads the high 32 bits of an address register into a scalar register. -/
  | ahi (t : TileId) (w : Fields)
  /-- R81: Reads a listed special register into a scalar register, latching CYCLE_HI on a CYCLE_LO read. -/
  | srd (t : TileId) (w : Fields)
  /-- R98: Copies a predicate register into a scalar register. -/
  | ptos (t : TileId) (w : Fields)
  /-- R98: Copies a scalar register into a predicate register. -/
  | stop (t : TileId) (w : Fields)
  /-- R99: Loads an extended byte, half-word or word from the bay into a scalar register. -/
  | ld (t : TileId) (w : Fields)
  /-- R99: Stores the low bits of a scalar register into the bay. -/
  | st (t : TileId) (w : Fields)
  /-- R99: Loads 8 bay bytes into an address register. -/
  | lda (t : TileId) (w : Fields)
  /-- R99: Stores an address register into 8 bay bytes. -/
  | sta (t : TileId) (w : Fields)
  /-- R99: Loads 128 bay bytes into the predicated lanes of a vector register. -/
  | ldv (t : TileId) (w : Fields)
  /-- R99: Stores the predicated lanes of a vector register into 128 bay bytes. -/
  | stv (t : TileId) (w : Fields)
  /-- R100: Issues an asynchronous Hold-to-bay transfer on a tag, checked against the Hold grant. -/
  | hld (t : TileId) (w : Fields)
  /-- R100: Issues an asynchronous bay-to-Hold transfer, staged when its destination is a committed buffer. -/
  | hst (t : TileId) (w : Fields)
  /-- R100: Issues an asynchronous translated memory-to-bay transfer. -/
  | xld (t : TileId) (w : Fields)
  /-- R100: Issues an asynchronous bay-to-translated-memory transfer, staged when its destination is a committed buffer. -/
  | xst (t : TileId) (w : Fields)
  /-- R100: Waits until no transfer is outstanding on any tag of the mask. -/
  | waitt (t : TileId) (w : Fields)
  /-- R100: An outstanding tile transfer completes, with data in the bay or source bytes read and staged or applied. -/
  | transferComplete (t : TileId) (tag : BitVec 4)
  /-- R101: When every tile of a broadcast mask has issued the same broadcast, the row lane performs the transfer once to every tile in the mask. -/
  | hldBcastRendezvous (c : Cluster) (row : Fin 16) (mask : BitVec 16)
  /-- R103: Sends 1 to 64 flits from the bay on a port and channel. -/
  | send (t : TileId) (w : Fields)
  /-- R103: Sends the 128 bytes of a vector register as 2 flits. -/
  | sendv (t : TileId) (w : Fields)
  /-- R104: Receives one packet into the bay, or latches a checked front marker, writing a status word. -/
  | recv (t : TileId) (w : Fields)
  /-- R104: Receives one 2-flit packet into a vector register, or latches a checked front marker. -/
  | recvv (t : TileId) (w : Fields)
  /-- R104: Forwards the latched front marker with a new LAYER. -/
  | mark (t : TileId) (w : Fields)
  /-- R105: Arrives at, arrives and waits at, or waits on a route barrier. -/
  | bar (t : TileId) (w : Fields)
  /-- R105: The last participant arrives, the phase completes and waiting tiles resume. -/
  | barrierPhaseComplete (route : Fin 256) (barrier : BitVec 12)
  /-- R106: Sends an increment to a flag counter of a named tile, ordered after the sender's earlier packets. -/
  | flag (t : TileId) (w : Fields)
  /-- R106: Waits until a flag counter reaches the amount, then subtracts it. -/
  | flagw (t : TileId) (w : Fields)
  /-- R89: Waits for the tile's transfers and publishes its staged stores, or acts as a fence without MIDSTEP_CMT. -/
  | cmt (t : TileId) (w : Fields)
  /-- R90: Waits as CMT does and marks the tile as arrived at the step boundary. -/
  | cmtStep (t : TileId) (w : Fields)
  /-- R90: When every tile of a cluster has arrived, the module publishes staged stores, saves changed bay blocks, flips selectors and sets FAB_CL_STEP and AT_BOUNDARY. -/
  | clusterCommit (c : Cluster)
  /-- R90: With no pending drain, move, repair, stop or hold, the module zeroes scratch and starts every tile at STEP_ENTRY for the next step. -/
  | clusterRelease (c : Cluster)
  /-- R92: The module kills a route's uncommitted step on this module, discarding staged stores and packets and restoring bays and registers. -/
  | stepKill (route : Fin 256)
  /-- R117: Loads a weight block, and optionally channel scales, into the shadow set from the bay or Hold, and sets the shadow tag. -/
  | wld (t : TileId) (w : Fields)
  /-- R118: Swaps active and shadow weight sets, checking the marker version in the MARKER form. -/
  | wflip (t : TileId) (w : Fields)
  /-- R119: Reads the weight set tags, or asks the WGT block for a layer's version and berth in this step. -/
  | vers (t : TileId) (w : Fields)
  /-- R163: A layer becomes readable at version(n), staged or decided LEAN or BROKEN, and waiting VERS results are delivered. -/
  | tollRelease (route : Fin 256) (stage : Fin 64) (layer : BitVec 16)
  /-- R120: Runs the array in MAC, L1, L2, MINPLUS, MAXPLUS or CMPMAX mode into an accumulator bank. -/
  | mma (t : TileId) (w : Fields)
  /-- R123: Starts, accumulates or finishes per-row absolute-maximum token scales. -/
  | qscan (t : TileId) (w : Fields)
  /-- R124: Quantises FP32 rows by the token scales into token-block layout. -/
  | qcvt (t : TileId) (w : Fields)
  /-- R126: Moves token scales from a vector register, or token or channel scales to a vector register. -/
  | tsmv (t : TileId) (w : Fields)
  /-- R125: Converts an accumulator bank to the destination format, scaled or not, into the bay. -/
  | adrain (t : TileId) (w : Fields)
  /-- R126: Reads, and optionally clears, the sticky arithmetic flags. -/
  | afl (t : TileId) (w : Fields)
  /-- R128: FP32 lane-wise add, subtract, multiply, minimum, maximum or divide. -/
  | vfop (t : TileId) (w : Fields)
  /-- R128: FP32 fused multiply-add, multiply-subtract or negated multiply-add with one rounding. -/
  | vfma (t : TileId) (w : Fields)
  /-- R128: INT32 lane-wise ALU operation. -/
  | viop (t : TileId) (w : Fields)
  /-- R130: FP32 elementary function per lane. -/
  | vfun (t : TileId) (w : Fields)
  /-- R128: Lane-wise FP32 or INT32 comparison into a predicate register. -/
  | vcmp (t : TileId) (w : Fields)
  /-- R128: Selects lanes from two vector registers by a predicate. -/
  | vsel (t : TileId) (w : Fields)
  /-- R129: Converts, packs, unpacks or forms uniform values per variant. -/
  | vcvt (t : TileId) (w : Fields)
  /-- R131: Reduces the predicated lanes into a scalar register. -/
  | vred (t : TileId) (w : Fields)
  /-- R128: Sets every lane to a scalar register's value. -/
  | vsplat (t : TileId) (w : Fields)
  /-- R128: Reads one lane into a scalar register. -/
  | vget (t : TileId) (w : Fields)
  /-- R128: Writes a scalar into one lane. -/
  | vput (t : TileId) (w : Fields)
  /-- R128: Permutes lanes by an index vector. -/
  | vperm (t : TileId) (w : Fields)
  /-- R128: Writes an ascending sequence into the lanes. -/
  | viota (t : TileId) (w : Fields)
  /-- R132: Draws raw 32-bit random words from eight consecutive blocks. -/
  | rnu (t : TileId) (w : Fields)
  /-- R281: Draws a Bernoulli mask into a vector or predicate register. -/
  | rnb (t : TileId) (w : Fields)
  /-- R29: A depot line fill for an instruction-cache miss is delivered to every tile of the span. -/
  | icacheMissFill (t : TileId) (line : BitVec 12)
  /-- R409: A bay parity, array, core, self-test or bypass fault is recorded and opens a recovery epoch for the occupying routes. -/
  | tileFault (c : Cluster) (row : Fin 16) (offset : Fin 17) (kind : SiteFault)
  /-- R48: The spare has powered up and its self-test begins. -/
  | repairSparePowered (c : Cluster)
  /-- R48: The spare passes self-test and the bay shift and refill start. -/
  | repairSelftestDone (c : Cluster)
  /-- R48: The east shift of the row's bays completes. -/
  | repairBayShiftDone (c : Cluster)
  /-- R48: The failed tile's bay refill ends, the cluster becomes ACTIVE and the epoch closes. -/
  | repairRefillDone (c : Cluster)
  /-- R48: The repair record is written to the configuration EEPROM off the critical path. -/
  | repairRecordAppend (c : Cluster)
  /-- R54: FAB_CL_CTL.RETIRE retires the cluster at its next step boundary and Waymaster replaces it. -/
  | retire (c : Cluster)
  /-- R53: FAB_CL_CTL.CLEAR_FIELD_REPAIR erases the cluster's field repair records from the next P reset. -/
  | clearFieldRepair (c : Cluster)
  /-- R54: FAB_CL_CTL.FAIL_SITE declares a site failed, repairing at once, opening an epoch, deferring or being ignored by cluster state. -/
  | failSite (c : Cluster) (row : BitVec 4) (offset : BitVec 5)
  /-- R39: A Deck packet reaches its destination router and is delivered or discarded by the tenancy check. -/
  | deckPacketArrive (n : Nat)
  /-- R42: A destination router grants its X receive buffer reservation to a source in round-robin order. -/
  | xReservationGrant (t : TileId) (vc : BitVec 4)
  /-- R42: A source router injects the next segment of an X packet once credits for all its flits are granted. -/
  | xSegmentInject (t : TileId) (vc : BitVec 4)
  /-- R44: A die-bridge channel fails and its traffic is rerouted or discarded. -/
  | bridgeChannelFail (edge : Fin 4) (ch : Fin 40)
  /-- R56: A stream has waited for credits longer than DCK_STALL_LIMIT and STALL is raised. -/
  | dckStallExpire (t : TileId)
  /-- R141: Checks and copies a route image, assigns clusters, writes depots and places buffers. -/
  | routeLoad (id : Nat)
  /-- R142: Starts a LOADED route or resumes a STOPPED one and stays in execution while it runs. -/
  | routeStart (id : Nat)
  /-- R143: Stops a route by drain or kill, optionally unloading it. -/
  | routeStop (id : Nat)
  /-- R145: After PLC_MEASURE committed steps a stage's cost is re-measured and the allocation may be changed. -/
  | plcRemeasure (route : Fin 256) (stage : Fin 64)
  /-- R153: Every PLC_BAL_PERIOD Waymaster evaluates caravan fill and backlog and may move a cluster between generation and learning. -/
  | balancePeriod
  /-- R151: Waymaster sets a cluster DRAINING to move it at its next step boundary. -/
  | clusterMoveStart (c : Cluster) (route : Fin 256) (stage : Fin 64)
  /-- R151: At the boundary the cluster's assignment is rewritten and its depot and bays are formed. -/
  | clusterMoveReassign (c : Cluster)
  /-- R151: The refill ends and the moved cluster becomes ACTIVE and joins its stage. -/
  | clusterMoveComplete (c : Cluster)
  /-- R149: After a span's origin tile receives an item packet, the dispenser sends the next one. -/
  | itemDispense (t : TileId)
  /-- R231: The learner sequencer sends the next schedule operation packet to a span. -/
  | schedOpDispense (t : TileId)
  /-- R170: Replaces the tenancy's weight record and stages resident layers into berths. -/
  | weightLoad (id : Nat)
  /-- R173: Accepts a swap to the successor version, travelling at once or queued. -/
  | weightSwap (id : Nat)
  /-- R171: Copies every layer's lean slice and sets its lean tag. -/
  | leanBuild (id : Nat)
  /-- R172: Loads a shared base into house DRAM and optionally Hold. -/
  | baseShareLoad (id : Nat)
  /-- R172: Maps a shared base read-only into a tenancy. -/
  | baseShareGrant (id : Nat)
  /-- R172: Removes a tenancy's mappings of a shared base. -/
  | baseShareRevoke (id : Nat)
  /-- R172: Scrubs and releases a shared base. -/
  | baseShareFree (id : Nat)
  /-- R174: A swap's staging of one layer's slice into a berth completes. -/
  | layerStaged (ten : Ten) (queued : Bool) (layer : BitVec 10)
  /-- R165: A streamed layer's fetch into a berth completes. -/
  | streamFetchComplete (ten : Ten) (layer : BitVec 10)
  /-- R175: The PRESTAGE condition is met and S is fixed, or a group proposal is sent. -/
  | swapFrontFix (ten : Ten)
  /-- R176: Every resident layer is staged and every layer-carrying stage has committed S, so the travelling version becomes active. -/
  | swapComplete (ten : Ten)
  /-- R179: S is not known within WGT_SWAP_TIMEOUT of the proposal and SWAP_WAIT is raised. -/
  | swapTimeout (ten : Ten)
  /-- R166: A streamed layer's deadline expires before staging, counting a miss and deciding WAIT or LEAN. -/
  | layerDeadlineExpire (route : Fin 256) (stage : Fin 64) (layer : BitVec 10)
  /-- R190: The engine takes a waybill submission, checks it and accepts or refuses it. -/
  | waybillSubmit (ring : BitVec 15)
  /-- R196: The engine chooses the entries of the next step, writes the ragged slot and releases the head stage. -/
  | stepBuild (ten : Ten)
  /-- R201: When every stage has committed step n, the engine checks results, appends tokens and writes records. -/
  | stepProcess (ten : Ten)
  /-- R205: A waybill ended outside a step gets its sequence-end record and completion once the ring has room. -/
  | seqendDeferredWrite (waybill : BitVec 14)
  /-- R192: WBL_TEN_ACTION requests a pause that keeps the KV pages. -/
  | pauseKeep (f : Func) (ten : Ten) (waybill : BitVec 14)
  /-- R192: WBL_TEN_ACTION requests a pause that releases the KV pages. -/
  | pauseDrop (f : Func) (ten : Ten) (waybill : BitVec 14)
  /-- R192: WBL_TEN_ACTION requests that the waybill end as ERROR with CAUSE ABORT. -/
  | abort (f : Func) (ten : Ten) (waybill : BitVec 14)
  /-- R208: A follower receives a ragged slot, writes it, maps pages and releases its head stage. -/
  | slotReceive (ten : Ten) (slot : List Byte)
  /-- R188: A write latches the named waybill entry into WBL_PEEK_DATA. -/
  | wblPeekSel (value : Word)
  /-- R214: Setting ENABLE in CVN_RING_CFG reads the ring configuration and zeroes its pointers. -/
  | caravanRingEnable (f : Func) (k : BitVec 10)
  /-- R217: A CVN_RING_CONSUME write moves RELEASE of a ring with LEARN_EN clear. -/
  | caravanRingConsume (f : Func) (k : BitVec 10) (slot : Word)
  /-- R224: The module takes a reward entry, checks it and writes the reward into a sequence-end record. -/
  | rewardEntry (ring : BitVec 15)
  /-- R218: RELEASE has not advanced for CVN_STALL_LIMIT while records wait, and STALL is raised. -/
  | caravanStallExpire (k : BitVec 10)
  /-- R226: The sequencer gathers ready sequences into a batch slot. -/
  | batchBuild (ten : Ten)
  /-- R226: LRN_TEN_WAIT passes since the first ready sequence and a build starts. -/
  | batchWaitExpire (ten : Ten)
  /-- R234: Once step n-1 is committed and batch n built, gradient areas are zeroed and the scheduled route is released. -/
  | learnStepHoldRelease (ten : Ten)
  /-- R247: The DRAM patrol scrub reads and corrects every unit once per period. -/
  | memPatrolExpire
  /-- R248: MEM_CH_CTL.MAP_OUT starts the map-out of a channel, refused beyond four per stack. -/
  | mapOut (ch : Fin 384)
  /-- R249: The patch copy ends and the channel becomes MAPPED_OUT. -/
  | mapOutComplete (ch : Fin 384)
  /-- R260: The Hold patrol corrects every bank once per HLD_SCRUB_PERIOD. -/
  | holdPatrolExpire
  /-- R257: A write latches a Hold map entry into HLD_MAP_DATA. -/
  | hldMapSel (value : Word)
  /-- R260: A write latches a bank's state into HLD_BANK_INFO. -/
  | hldBankSel (value : Word)
  /-- R253: At the end of MEM_SKEW_WINDOW each tracked buffer's skew is computed and migration may be requested. -/
  | skewWindowEnd
  /-- R254: Waymaster starts migrating a buffer under a fresh key slot. -/
  | migrationStart (route : Fin 256) (buffer : BitVec 10)
  /-- R254: A copy pass ends; the final pass rewrites leaves and frees the old frames, or the migration is abandoned. -/
  | migrationPassDone (route : Fin 256) (buffer : BitVec 10) (tooLong : Bool)
  /-- R266: A write requests frames from the page pool for the tenancy. -/
  | xltAllocReq (f : Func) (ten : Ten) (value : Word)
  /-- R269: A write frees a range of frames after checking each ownership tag. -/
  | xltFree (f : Func) (ten : Ten) (value : Word64)
  /-- R270: A freed frame's zeroing ends and it returns to the pool. -/
  | frameScrubDone (frame : BitVec 23)
  /-- R264: A write invalidates cached translations of a range and advances XLT_TEN_INVAL_DONE. -/
  | xltInval (f : Func) (ten : Ten) (value : Word64)
  /-- R263: A paired write sets the tenancy's translation root and enable. -/
  | xltTenRootWrite (f : Func) (ten : Ten) (value : Word64)
  /-- R285: The entropy source fails a health test; keys, migrations and creations wait. -/
  | entropyTestFail
  /-- R286: The tile generators run their known-answer test once per period. -/
  | rngSelftestPeriod (bad : List TileId)
  /-- R277: RNG_KAT_CTL.GO runs Philox on the given key and counter in the reference core. -/
  | katGo (value : Word)
  /-- R277: The reference core result is written to RNG_KAT_OUT and DONE is set. -/
  | katDone
  /-- R294: A viaduct flit is received and checked by CRC and sequence. -/
  | flitReceive (p : Fin 6) (fecOk : Bool) (flit : BitVec 2048)
  /-- R295: The sync mark is absent at the frame boundary; the frame is discarded, NAK sent and HUNT entered. -/
  | syncMarkMiss (p : Fin 6)
  /-- R296: A NAK makes the transmitter replay from the flit after its ACK. -/
  | nakReceive (p : Fin 6) (ack : BitVec 16)
  /-- R290: A lane exceeds its error limit or loses lock and is failed at the next retrain. -/
  | laneFail (p : Fin 6) (lane : Fin 44)
  /-- R300: A retrain begins after failed frames, the replay limit, a failed lane or a write. -/
  | retrainStart (p : Fin 6)
  /-- R300: The retrain ends, lane maps and ACKs are exchanged and replay starts, or the port goes DOWN. -/
  | retrainComplete (p : Fin 6) (ok : Bool) (peerAck : BitVec 16)
  /-- R298: Both ends train and adopt the highest common VLP version. -/
  | linkUp (p : Fin 6) (peerMax : BitVec 8)
  /-- R305: A port goes DOWN and its unacknowledged packets are resent on a new route. -/
  | portDown (p : Fin 6)
  /-- R300: VIA_PORT_CTL.RETRAIN starts a retrain of the port. -/
  | retrain (p : Fin 6)
  /-- R297: VIA_PORT_CTL.DISABLE disables or re-enables a port. -/
  | portDisable (p : Fin 6) (value : Bool)
  /-- R303: A module forwards a packet not addressed to it in dimension order or by detour. -/
  | packetForward (p : Fin 6)
  /-- R308: A packet addressed to this module is filtered by job and delivered to the registered tenancy. -/
  | packetDeliver (p : Fin 6)
  /-- R306: A paired write registers a tenancy to a job, discarded on a duplicate JOB_ID. -/
  | viaJobWrite (ten : Ten) (value : Word64)
  /-- R309: A LINK flit carrying a coordinate sets this module's coordinate or marks a conflict or miswire. -/
  | discoveryLinkFlit (p : Fin 6) (peerPort : Fin 6) (x : BitVec 4) (y : BitVec 4) (z : BitVec 5) (dims : BitVec 13)
  /-- R314: A sync-plane message is received, checked, forwarded and combined. -/
  | syncMessageReceive (p : Fin 6) (laneA : BitVec 256) (laneB : BitVec 256)
  /-- R313: A group operation holds every value of its last stage and completes at this member. -/
  | groupOpComplete (n : Nat)
  /-- R329: Issues a one-off collective instance, granting receive space and joining an ARRIVE. -/
  | collectiveOnce (id : Nat)
  /-- R330: Binds a collective to a route barrier so each phase starts an instance. -/
  | collectiveBind (id : Nat)
  /-- R330: Frees a bound slot once no instance is in flight. -/
  | collectiveUnbind (id : Nat)
  /-- R330: A completed phase of the trigger barrier starts the bound instance of that step. -/
  | boundInstanceStart (ten : Ten) (slot : BitVec 8) (step : Word64)
  /-- R332: A collective chunk is verified, combined or discarded as a duplicate or stray. -/
  | chunkReceive (pkt : Packet)
  /-- R334: A peer requests a chunk again and the producer serves it from source or retention. -/
  | resendRequest (pkt : Packet)
  /-- R333: Every destination byte is written and visible, and the instance completes or notifies its stage. -/
  | instanceComplete (n : Nat)
  /-- R335: An instance exceeds COL_TIMEOUT and WAIT is raised naming the late rank. -/
  | colTimeoutExpire (n : Nat)
  /-- R347: A doorbell write moves a ring's TAIL or HEAD, or puts the ring into ERROR. -/
  | doorbell (f : Func) (ring : BitVec 15) (bytes : Bool) (value : Word64)
  /-- R345: Setting ENABLE in QUE_RING_CFG allocates and types the ring. -/
  | ringEnable (f : Func) (value : Word64)
  /-- R345: Clearing ENABLE frees the ring, abandoning untaken entries. -/
  | ringDisable (f : Func) (value : Word64)
  /-- R352: A write of HIF_HCP_REQ negotiates the function's host command protocol version. -/
  | hcpReq (f : Func) (value : Word)
  /-- R358: The module takes a command entry once its completion ring has room and a slot is free. -/
  | commandTake (ring : BitVec 15)
  /-- R358: A command completes and its completion record is posted. -/
  | commandComplete (id : Nat)
  /-- R359: A command killed before its commit point is re-queued, with a KILLED notice where there is room. -/
  | commandKill (id : Nat)
  /-- R358: Completes when every earlier command of its ring or tenancy has completed. -/
  | fence (id : Nat)
  /-- R358: Completes at once with the calendar microseconds. -/
  | timestamp (id : Nat)
  /-- R360: A write aborts the first command of a ring matching a TAG. -/
  | queTenCmdAbort (f : Func) (ten : Ten) (value : Word64)
  /-- R361: QUE_PREEMPT SUSPEND stops a tenancy's rings and kills or drains its work. -/
  | suspend (ten : Ten) (drain : Bool)
  /-- R361: QUE_PREEMPT RESUME restarts a suspended tenancy's rings and routes. -/
  | resume (ten : Ten)
  /-- R362: An FLR of a virtual function resets its tenancy's commands, routes, rings and HCP version. -/
  | functionLevelReset (f : Func)
  /-- R351: A write of HIF_LTR sends an LTR message. -/
  | hifLtrWrite (value : Word)
  /-- R370: TEN_CMD CREATE checks and creates a tenancy, assigning clusters, banks and a key. -/
  | create (ten : Ten)
  /-- R371: TEN_CMD DESTROY applies a T reset and releases and scrubs every resource of the tenancy. -/
  | destroy (ten : Ten)
  /-- R499: TEN_CMD RESET applies a T reset to an ACTIVE tenancy. -/
  | tenancyReset (ten : Ten)
  /-- R369: A paired write to a grant register raises or lowers the tenancy's grant. -/
  | tenGrantWrite (reg : RegId) (ten : Ten) (value : Word64)
  /-- R369: As clusters or banks become free, the module grows or shrinks a pending grant toward its value. -/
  | grantPendingFill (ten : Ten)
  /-- R372: Teardown scrubbing ends, frames return to the pool and the tenancy becomes FREE. -/
  | teardownScrubDone (ten : Ten)
  /-- R376: At an interval boundary the module writes one ledger record per tenancy and the house. -/
  | ledgerIntervalEnd
  /-- R379: Waiting ledger records are written once the ledger ring has room. -/
  | ledgerRecordWrite
  /-- R388: A ferry channel takes a descriptor, checks it and starts to move bytes. -/
  | ferryDescriptor (ch : BitVec 9)
  /-- R390: Every byte of a descriptor is visible and its completion is posted. -/
  | ferryDescriptorComplete (ch : BitVec 9)
  /-- R391: DMA_CH_CTL PAUSE stops issue and enters PAUSED when issued requests complete. -/
  | pause (f : Func) (ch : BitVec 9)
  /-- R391: DMA_CH_CTL DRAIN completes the current descriptor and pauses. -/
  | drain (f : Func) (ch : BitVec 9)
  /-- R391: DMA_CH_CTL RESUME continues a paused descriptor at DMA_CH_DONE. -/
  | dmaResume (f : Func) (ch : BitVec 9)
  /-- R393: DMA_CH_CTL RETRY continues a halted descriptor from DMA_CH_DONE. -/
  | retry (f : Func) (ch : BitVec 9)
  /-- R393: DMA_CH_CTL SKIP abandons a halted descriptor and goes on. -/
  | skip (f : Func) (ch : BitVec 9)
  /-- R394: A MEMORY WRITE packet is written at the remote end and acknowledged. -/
  | remoteWrite (pkt : Packet)
  /-- R394: A MEMORY READ_REQ is served with READ_DATA. -/
  | remoteReadReq (pkt : Packet)
  /-- R394: READ_DATA arrives for a remote-source ferry and is written locally. -/
  | remoteReadData (pkt : Packet)
  /-- R394: An ACK confirms a remote chunk is visible. -/
  | remoteAck (pkt : Packet)
  /-- R394: A NAK carries a remote failure and halts the requesting channel. -/
  | remoteNak (pkt : Packet)
  /-- R395: A remote chunk waits past DMA_TIMEOUT and the channel halts with BUS_ERROR. -/
  | dmaTimeoutExpire (ch : BitVec 9)
  /-- R403: A kind's rate-classifier window closes. -/
  | errClassWindowExpire (b : Block) (kind : Fin 32)
  /-- R403: A W1C write clearing ERR_SEVERE bits closes those kinds' windows. -/
  | errSevereClear (b : Block) (value : Word)
  /-- R405: A write unfreezes the first-error record and/or zeroes the count. -/
  | errClear (b : Block) (value : Word)
  /-- R415: A write arms inverted check bits for the next check of each set kind. -/
  | errInjectInv (b : Block) (value : Word)
  /-- R401: Once per INT_SCRUB_PERIOD every PW register and on-module complement table is checked. -/
  | complementScrub
  /-- R407: ALV_CTL.FORCE_STOP stops or, when cleared, allows the restart of the alive pin. -/
  | forceStop (value : Bool)
  /-- R412: A write enables twin execution for a tenancy with no loaded route, or is refused. -/
  | intTwinWrite (ten : Ten) (value : Word)
  /-- R421: INT_SIG_SEL.POP removes the oldest live signature. -/
  | sigPop (value : Word)
  /-- R417: Runs a TPK 3 pattern pack on idle targets and writes FSR 1 signatures. -/
  | patternRun (id : Nat)
  /-- R431: Arms one buddy capture at a route boundary. -/
  | ckptBuddyOnce (id : Nat)
  /-- R431: Arms periodic buddy captures every PERIOD steps. -/
  | ckptBuddyPeriodic (id : Nat)
  /-- R431: Disarms the armed capture mode. -/
  | ckptBuddyStop (id : Nat)
  /-- R436: Captures a slot image to a durable destination. -/
  | ckptDurable (id : Nat)
  /-- R437: Restores shards from a buddy or durable copy and sets the route's committed step. -/
  | ckptRestore (id : Nat)
  /-- R432: At the captured step boundary the route is held, write tracking is armed and the route is released. -/
  | captureHold (ten : Ten)
  /-- R430: A CHECKPOINT SHARD_DATA packet is written into the buddy slot and hashed. -/
  | shardData (pkt : Packet)
  /-- R430: A CHECKPOINT MANIFEST packet is written, validated and acknowledged, setting the held values. -/
  | manifest (pkt : Packet)
  /-- R433: The buddy's acknowledgement of the manifest completes the capture. -/
  | ckpAck (ten : Ten)
  /-- R434: A NAK from the buddy fails the capture. -/
  | ckpNak (ten : Ten)
  /-- R437: A holder serves a CHECKPOINT READ_REQ from its buddy area. -/
  | readReq (pkt : Packet)
  /-- R438: CHECKPOINT READ_DATA is copied into staging and verified during a restore. -/
  | readData (pkt : Packet)
  /-- R438: When every shard verifies, the restore installs them and completes. -/
  | restoreInstall (ten : Ten)
  /-- R434: No acknowledgement arrives within CKP_TIMEOUT and the capture fails. -/
  | ckpTimeoutExpire (ten : Ten)
  /-- R452: At the end of each 1,024-cycle window the crystal count qualifies or fails the crystal. -/
  | clockMonitorWindow (count : BitVec 16)
  /-- R473: The root PLL loses lock and the module acts as for a crystal failure. -/
  | pllUnlock
  /-- R455: CLK_CTL.HOLD_EXIT leaves HOLD, ungates the dies, re-runs work and retrains ports. -/
  | holdExit
  /-- R456: CLK_CTL.RESELECT returns to the crystal if it is qualified. -/
  | reselect
  /-- R458: Every 1 ms the module chooses the tile clock step by power and temperature. -/
  | tileStepEval (watts : BitVec 16) (hottest : BitVec 8)
  /-- R459: A die sensor reaches 110 °C and the module power-gates its dies until a P reset. -/
  | thermalTrip
  /-- R461: The fabric has been idle for PWR_IDLE_DWELL and the module enters the deepest permitted state. -/
  | idleDwellExpire
  /-- R462: A power-state entry completes after saving state. -/
  | powerStateEntryDone
  /-- R464: A doorbell, access, request, link traffic, sideband wake or deadline ends a low-power state. -/
  | wakeEvent
  /-- R464: PWR_CTL.FORCE_S0 ends any state other than S0. -/
  | forceS0
  /-- R462: The exit to S0 completes with saved state restored. -/
  | powerStateExitDone
  /-- R467: RTC_CTL.LOAD loads the set calendar values at the next tick and closes ledger intervals. -/
  | rtcLoad
  /-- R466: A 32.768 kHz tick advances the calendar. -/
  | rtcTick
  /-- R468: The calendar crystal gives no edge for 1 ms and the calendar runs from the timebase. -/
  | rtcOscFail
  /-- R469: The 48 V input reaches 40 V and start-up begins. -/
  | powerOn
  /-- R469: EEPROM trims are loaded and the regulators are sequenced. -/
  | trimsLoaded
  /-- R469: Every rail is in regulation and crystal qualification begins. -/
  | railsRegulated
  /-- R470: No crystal qualifies within 64 windows and the module continues on the internal oscillator. -/
  | crystalQualifyTimeout
  /-- R470: DRAM training ends; failing channels are retried or mapped out. -/
  | dramTrainingDone (failing : List (Fin 384))
  /-- R469: Memories are zeroed, the pool is formed and READY is set. -/
  | startupZeroingDone
  /-- R476: A rail leaves regulation and RAIL is raised as severe. -/
  | railFault
  /-- R471: GLB_CTL.RESET with the key starts an M reset. -/
  | reset (value : Word)
  /-- R490: The rising edge of RESET_N after a low pulse starts an M reset. -/
  | resetN
  /-- R491: PERST_N asserted after start-up performs a physical-function FLR, an M reset. -/
  | perstN
  /-- R489: Input below 38 V shuts down every rail except standby until the input returns. -/
  | undervoltage
  /-- R483: Sideband ASSIGN at 0x5B sets the module's address and raises ASSIGN_OUT. The PEC byte of a write transaction is
  optional (R480). -/
  | assign (assignIn : Bool) (value : Byte) (pec : Option Byte := none)
  /-- R483: Sideband UNASSIGN returns the module to unassigned. -/
  | unassign (pec : Option Byte := none)
  /-- R478: Sideband POINTER sets the register pointer. -/
  | pointer (value : Word) (pec : Option Byte := none)
  /-- R479: Sideband READ returns 8 bytes at the pointer and advances it. -/
  | read
  /-- R479: Sideband WRITE writes 8 bytes at the pointer and advances it. -/
  | write (value : Word64) (pec : Option Byte)
  /-- R478: Sideband STATUS returns the status byte and clears LAST_ERR. -/
  | status
  /-- R478: Sideband WAKE ends any power state other than S0. -/
  | wake
  /-- R482: A Read Byte at 0x0C returns the alerting module's address and releases SB_ALERT_N. -/
  | alertResponse
  /-- R485: SDA held low for 35 ms releases SDA and resets the sideband state machine. -/
  | stuckSda
  /-- R485: SCL held low for 35 ms resets the sideband state machine. -/
  | sclTimeout
  /-- R481: The I/O die refreshes its sideband register mirrors within 1 ms. -/
  | mirrorRefresh
  /-- R487: Every 1 ms the I/O die polls input energy and power over the local bus. -/
  | localBusPoll (ok : Bool) (energy : Word64) (watts : BitVec 16)
  /-- R8: A read of an RS register's low word, or a 64-bit read, latches the whole value for the function. -/
  | snapshotRead (f : Func) (reg : RegId) (i : Nat) (j : Nat) (wide : Bool)
  /-- R7: A write to a register with no row of its own stores, ignores, clears or is counted in PAIR per its access code. -/
  | registerWrite (f : Func) (reg : RegId) (i : Nat) (j : Nat) (high : Bool) (wide : Bool) (value : Word64)
  /-- R295: In HUNT, a sync-mark candidate is accepted when the CRC of the first flit after it passes, and the receiver returns to LOCKED. -/
  | syncMarkAccept (p : Fin 6)
  /-- R295: An interval of 16,400 bytes ends in HUNT without an accepted frame, counting a failed frame and starting a retrain at the third in a row. -/
  | failedFrame (p : Fin 6)
  /-- R300: A port receives its peer's retrain signal and enters retrain within 1 µs. -/
  | retrainSignal (p : Fin 6)
  /-- R365: The PCIe link goes down and LINK_DOWN is raised in the HIF group. -/
  | pcieLinkDown
  /-- R365: A PCIe request of the module times out, the access fails with BUS_ERROR and CPL_TIMEOUT is raised. -/
  | cplTimeout (id : Nat)
  /-- R340: A function-level reset of the physical function performs an M reset, recorded in GLB_RESET_CAUSE.PF_FLR. -/
  | pfFlr
  /-- R469: Release of PERST_N lets the PCIe controller train, with configuration-ready within 100 ms. -/
  | perstNRelease
  /-- R285: The entropy source passes its tests again and issues the keys that waiting creations and deferred migrations need. -/
  | entropyHealthy
  /-- R407: A write of ERR_ALIVE_STOP stops the alive pin when a bit is set for an already-severe kind, and restarts it when the last such bit is cleared. -/
  | errAliveStop (b : Block) (value : Word)
  /-- R478: A sideband transaction with an unlisted command code is NACKed at the command byte and raises BAD_COMMAND. -/
  | badCommand (code : Byte)
  /-- R485: The controller's nine-clock bus clear makes the module release SB_SDA at a byte boundary, and the following STOP resets its state machine. -/
  | busClear
  deriving DecidableEq, Repr

end Sys2Proof
end

