-- ==== Sys2Proof/Machine/Store.lean ====
section
/-! DEFINITION. Machine/Store.lean: the sparse tables in which the state holds registers, queues and memories.
A table lists only the keys whose value differs from what an unlisted key reads as, in rising key order, so that
equal contents are equal data. -/

namespace Sys2Proof.Machine

/-- A sparse table: key and value pairs. -/
abbrev Map (α : Type) := List (Nat × α)

variable {α : Type}

/-- The value listed for key `k`. -/
def Map.get? (m : Map α) (k : Nat) : Option α :=
  match m with
  | [] => none
  | (k', v) :: rest => if k' = k then some v else Map.get? rest k

/-- The value of key `k`, where an unlisted key reads as `d`. -/
def Map.get (d : α) (m : Map α) (k : Nat) : α := (Map.get? m k).getD d

/-- List `v` for `k`, in place or before the first larger key. -/
def Map.insert (m : Map α) (k : Nat) (v : α) : Map α :=
  match m with
  | [] => [(k, v)]
  | (k', v') :: rest =>
    if k < k' then (k, v) :: (k', v') :: rest
    else if k = k' then (k, v) :: rest
    else (k', v') :: Map.insert rest k v

/-- Unlist `k`. -/
def Map.erase (m : Map α) (k : Nat) : Map α := m.filter (fun p => p.1 ≠ k)

/-- Give key `k` the value `v`, where an unlisted key reads as `d`. -/
def Map.set [DecidableEq α] (d : α) (m : Map α) (k : Nat) (v : α) : Map α :=
  if v = d then Map.erase m k else Map.insert m k v

/-- Keys strictly rising. -/
def Map.sorted (m : Map α) : Bool :=
  match m with
  | [] => true
  | [_] => true
  | a :: b :: rest => decide (a.1 < b.1) && Map.sorted (b :: rest)

/-- The canonical form: keys strictly rising and no entry equal to what an unlisted key reads as. -/
def Map.wf [DecidableEq α] (d : α) (m : Map α) : Bool :=
  Map.sorted m && m.all (fun p => decide (p.2 ≠ d))

/-- A memory of bytes; a byte that is not listed reads as zero (R25, R469: memories are zeroed before use). -/
abbrev Mem := Map Byte

/-- The canonical form of a memory: addresses strictly rising, no byte equal to what an unlisted one reads as. -/
abbrev Mem.wf (m : Mem) : Bool := Map.wf (0 : Byte) m

/-- The byte at address `a`. [log 10 DESIGN CHOICE] -/
def Mem.byte (m : Mem) (a : Nat) : Byte := Map.get 0 m a

/-- Write one byte. -/
def Mem.setByte (m : Mem) (a : Nat) (v : Byte) : Mem := Map.set 0 m a v

/-- The `n` bytes from address `a` upward, lowest address first. -/
def Mem.bytes (m : Mem) (a : Nat) : Nat → List Byte
  | 0 => []
  | n + 1 => Mem.byte m a :: Mem.bytes m (a + 1) n

/-- Write a list of bytes from address `a` upward. -/
def Mem.setBytes (m : Mem) (a : Nat) : List Byte → Mem
  | [] => m
  | b :: bs => Mem.setBytes (Mem.setByte m a b) (a + 1) bs

/-- The little-endian number that a list of bytes spells (R4). -/
def leNat : List Byte → Nat
  | [] => 0
  | b :: bs => b.toNat + 256 * leNat bs

/-- The `n` low bytes of a number, least significant first (R4). -/
def leBytes : Nat → Nat → List Byte
  | 0, _ => []
  | n + 1, v => BitVec.ofNat 8 v :: leBytes n (v / 256)

/-- The `n`-byte little-endian value at address `a`. -/
def Mem.read (m : Mem) (a n : Nat) : Nat := leNat (Mem.bytes m a n)

/-- Store the `n` low bytes of `v` at address `a`, little-endian. -/
def Mem.write (m : Mem) (a n v : Nat) : Mem := Mem.setBytes m a (leBytes n v)

/-- Make the bytes from `a` to `a + n − 1` read as zero. -/
def Mem.zero (m : Mem) (a n : Nat) : Mem := m.filter (fun p => p.1 < a ∨ a + n ≤ p.1)

/-- Bits `lo + w − 1` down to `lo` of a number. -/
def bitsAt (v lo w : Nat) : Nat := v / 2 ^ lo % 2 ^ w

/-- Replace bits `lo + w − 1` down to `lo` of a number by `x`. -/
def putBits (v lo w x : Nat) : Nat := v - bitsAt v lo w * 2 ^ lo + (x % 2 ^ w) * 2 ^ lo

/-- Add to a counter that saturates at `top`. -/
def satAdd (top a b : Nat) : Nat := min top (a + b)

end Sys2Proof.Machine
end

