-- ==== Sys2Proof/Config.lean ====
section
/-! DEFINITION. Config.lean: what an implementation fixes, and the free values. Each is opaque: nothing in Lean can
see its value, so a statement about the model holds whatever it is. -/

namespace Sys2Proof

/-- A value that the manual leaves open, drawn fresh each time by the state's counter of free values. [log 4 DESIGN CHOICE] -/
opaque Config.freeWord : Nat → Word
/-- A 64-bit value that the manual leaves open, drawn by the state's counter of free values. -/
opaque Config.freeWord64 : Nat → Word64
/-- The result of a VFUN elementary function that the manual bounds in accuracy only (R130: a fixed result for
each input, identical in every tile and module); the first argument is the function code. [log 18 DESIGN CHOICE] -/
opaque Config.vfun : Nat → Word → Word
/-- The sign of a minimum or maximum of two zeros of opposite sign: the manual calls MIN and MAX exact and orders no
signed zeros (R59, R60); one fixed choice, as R74 requires. [log 17 DESIGN CHOICE] -/
opaque Config.mixedZeroNeg : Bool
/-- What a byte of host memory that the module has not written holds; host memory lies outside the module. [log 9 DESIGN CHOICE] -/
opaque Config.hostByte : Nat → Byte
/-- The key the entropy source issues at its n-th issue (R285). No register reveals it. -/
opaque Config.key : Nat → Word
/-- The module serial number (GLB_SERIAL, factory data). [log 158 DESIGN CHOICE] -/
opaque Config.serial : Word64
/-- The silicon stepping (GLB_ID). -/
opaque Config.stepping : BitVec 16

/-- A word that undefined behaviour leaves in a register (R2), by the counter of free values, the tile and the register. -/
opaque Config.undefinedWord : Nat → Nat → Nat → Word
/-- A byte that undefined behaviour leaves in a memory of its tenancy (R2), by the counter of free values and the address. -/
opaque Config.undefinedByte : Nat → Nat → Byte
/-- Byte `i` of the payload of a LINK flit that says `what`: the manual does not lay it out (R294). [log 88 DESIGN CHOICE] -/
opaque Config.linkByte (what : List Nat) (i : Nat) : Byte
/-- Symbol `i` of the alignment marker of a logical lane: the manual does not give the pattern (R292). [log 197 DESIGN CHOICE] -/
opaque Config.alignmentMarker (lane i : Nat) : Nat
/-- A choice that the manual leaves open, as a truth value. -/
opaque Config.freeBool : Nat → Bool
/-- A choice among things that the manual leaves open (which free frame, which free bank), or a measured amount. -/
opaque Config.freeNat : Nat → Nat

end Sys2Proof
end

