-- ==== Sys2Proof/Machine/Float.lean ====
section
/-! DEFINITION. Machine/Float.lean: the number formats and the one rounding rule (R57 to R63, R73, R75).
Values are exact rationals until the single narrowing of R62. -/

namespace Sys2Proof.Machine

/-- The stored formats of R57, with the codes of R116. -/
inductive Fmt where
  | int8 | int4 | e4m3 | e5m2 | bf16 | fp16 | fp32 | int32
  deriving DecidableEq, Repr

/-- Format codes of R116; codes above 7 name no format. -/
def Fmt.ofCode : Nat → Option Fmt
  | 0 => some .int8 | 1 => some .int4 | 2 => some .e4m3 | 3 => some .e5m2
  | 4 => some .bf16 | 5 => some .fp16 | 6 => some .fp32 | 7 => some .int32
  | _ => none

/-- Width in bits (R57). -/
def Fmt.bits : Fmt → Nat
  | .int8 => 8 | .int4 => 4 | .e4m3 => 8 | .e5m2 => 8 | .bf16 => 16 | .fp16 => 16 | .fp32 => 32 | .int32 => 32

/-- The integer formats. -/
def Fmt.isInt : Fmt → Bool
  | .int8 | .int4 | .int32 => true
  | _ => false

/-- Fraction bits of a float format (R57). -/
def Fmt.frac : Fmt → Nat
  | .e4m3 => 3 | .e5m2 => 2 | .fp16 => 10 | .bf16 => 7 | .fp32 => 23 | _ => 0

/-- Exponent bits of a float format (R57). -/
def Fmt.expBits : Fmt → Nat
  | .e4m3 => 4 | .e5m2 => 5 | .fp16 => 5 | .bf16 => 8 | .fp32 => 8 | _ => 0

/-- Exponent bias (R57). -/
def Fmt.bias : Fmt → Nat
  | .e4m3 => 7 | .e5m2 => 15 | .fp16 => 15 | .bf16 => 127 | .fp32 => 127 | _ => 0

/-- Magnitude bits of the largest finite value (R58). -/
def Fmt.maxBits : Fmt → Nat
  | .e4m3 => 0x7E | .e5m2 => 0x7B | .fp16 => 0x7BFF | .bf16 => 0x7F7F | .fp32 => 0x7F7FFFFF | _ => 0

/-- The canonical NaN (R58). -/
def Fmt.nanBits : Fmt → Nat
  | .e4m3 => 0x7F | .e5m2 => 0x7E | .fp16 => 0x7E00 | .bf16 => 0x7FC0 | .fp32 => 0x7FC00000 | _ => 0

/-- Magnitude bits of infinity, for the formats whose overflow goes there (R58, R63). -/
def Fmt.infBits : Fmt → Nat
  | .e5m2 => 0x7C | .fp16 => 0x7C00 | .bf16 => 0x7F80 | .fp32 => 0x7F800000 | _ => 0

/-- Largest quantised magnitude Q of a quantisation target (chapter Number formats). -/
def Fmt.q : Fmt → Nat
  | .int8 => 127 | .int4 => 7 | .e4m3 => 448 | .e5m2 => 57344 | _ => 0

/-- An exact value: a NaN, a signed infinity, or a signed rational `n / d`; the sign of zero is kept. -/
inductive Ex where
  | nan
  | inf (neg : Bool)
  | fin (neg : Bool) (n d : Nat)
  deriving DecidableEq, Repr

/-- The three arithmetic flags of R75. -/
structure AFlags where
  sat : Bool
  ovf : Bool
  inv : Bool
  deriving DecidableEq, Repr

/-- No flag raised. -/
def AFlags.none : AFlags := ⟨false, false, false⟩

/-- The flags are sticky: setting joins (R75). -/
def AFlags.join (a b : AFlags) : AFlags := ⟨a.sat || b.sat, a.ovf || b.ovf, a.inv || b.inv⟩

/-- A magnitude with a sign. -/
def sgn (neg : Bool) (n : Nat) : Int := if neg then -(n : Int) else (n : Int)

/-- An integer as an exact value. -/
def Ex.ofInt (i : Int) : Ex := .fin (decide (i < 0)) i.natAbs 1

/-- The signed numerator of a finite value. -/
def Ex.num : Ex → Int
  | .fin neg n _ => sgn neg n
  | _ => 0

/-- The value that the bits of a format encode (R57, R58). -/
def Fmt.decode (f : Fmt) (v : Nat) : Ex :=
  if f.isInt then Ex.ofInt (BitVec.ofNat f.bits v).toInt
  else
    let neg := bitsAt v (f.bits - 1) 1 = 1
    let e := bitsAt v f.frac f.expBits
    let m := bitsAt v 0 f.frac
    let top := 2 ^ f.expBits - 1
    if e = top ∧ f ≠ .e4m3 then (if m = 0 then .inf neg else .nan)
    else if f = .e4m3 ∧ e = top ∧ m = 7 then .nan
    else
      let mant := if e = 0 then m else m + 2 ^ f.frac
      let sh := (if e = 0 then 1 else e)
      .fin neg (mant * 2 ^ sh) (2 ^ (f.bias + f.frac))

/-- The largest `e` with `2^e ≤ n / d`, for positive `n` and `d`. -/
def floorLog2 (n d : Nat) : Int :=
  let e : Int := (Nat.log2 n : Int) - Nat.log2 d
  if 0 ≤ e then (if d * 2 ^ e.toNat ≤ n then e else e - 1)
  else (if d ≤ n * 2 ^ (-e).toNat then e else e - 1)

/-- Round `n / d` to the nearest integer, ties away from zero (R62), on magnitudes. -/
def roundHalfUp (n d : Nat) : Nat := (2 * n + d) / (2 * d)

/-- `n / (d · 2^q)` as numerator and denominator. -/
def scaleBy (n d : Nat) (q : Int) : Nat × Nat :=
  if 0 ≤ q then (n, d * 2 ^ q.toNat) else (n * 2 ^ (-q).toNat, d)

/-- The magnitude bits nearest to `n / d` with no limit on the exponent: R62 at the precision of the format. -/
def Fmt.roundMag (f : Fmt) (n d : Nat) : Nat :=
  let e := max (floorLog2 n d) (1 - (f.bias : Int))
  let s := scaleBy n d (e - f.frac)
  (e + f.bias - 1).toNat * 2 ^ f.frac + roundHalfUp s.1 s.2

/-- Attach the sign bit. -/
def Fmt.signed (f : Fmt) (neg : Bool) (mag : Nat) : Nat := if neg then mag + 2 ^ (f.bits - 1) else mag

/-- Narrow an exact value into a float format by R62 and R63, with the flags of R75. -/
def Fmt.encodeFloat (f : Fmt) : Ex → Nat × AFlags
  | .nan => (f.nanBits, ⟨false, false, true⟩)
  | .inf neg =>
    if f = .e4m3 ∨ f = .e5m2 then (f.signed neg f.maxBits, ⟨true, false, false⟩)
    else (f.signed neg f.infBits, .none)
  | .fin neg n d =>
    if n = 0 then (f.signed neg 0, .none)
    else
      let mag := f.roundMag n d
      if mag ≤ f.maxBits then (f.signed neg mag, .none)
      else if f = .e4m3 ∨ f = .e5m2 then (f.signed neg f.maxBits, ⟨true, false, false⟩)
      else (f.signed neg f.infBits, ⟨false, true, false⟩)

/-- Lower and upper limits of an integer target (R63): INT8 and INT4 saturate symmetrically. -/
def Fmt.intLimits : Fmt → Int × Int
  | .int8 => (-127, 127)
  | .int4 => (-7, 7)
  | _ => (-2147483648, 2147483647)

/-- Narrow an exact value into an integer format by R62 and R63. -/
def Fmt.encodeInt (f : Fmt) : Ex → Nat × AFlags
  | .nan => (0, ⟨false, false, true⟩)
  | .inf neg =>
    ((BitVec.ofInt f.bits (if neg then f.intLimits.1 else f.intLimits.2)).toNat, ⟨true, false, false⟩)
  | .fin neg n d =>
    let r : Int := if neg then -(roundHalfUp n d : Int) else roundHalfUp n d
    if r < f.intLimits.1 then ((BitVec.ofInt f.bits f.intLimits.1).toNat, ⟨true, false, false⟩)
    else if f.intLimits.2 < r then ((BitVec.ofInt f.bits f.intLimits.2).toNat, ⟨true, false, false⟩)
    else ((BitVec.ofInt f.bits r).toNat, .none)

/-- `convert` of R63: narrow an exact value into any format. -/
def Fmt.encode (f : Fmt) (x : Ex) : Nat × AFlags := if f.isInt then f.encodeInt x else f.encodeFloat x

/-- Negation keeps NaN a NaN and flips every other sign. -/
def Ex.neg : Ex → Ex
  | .nan => .nan
  | .inf b => .inf (!b)
  | .fin b n d => .fin (!b) n d

/-- Absolute value. -/
def Ex.abs : Ex → Ex
  | .nan => .nan
  | .inf _ => .inf false
  | .fin _ n d => .fin false n d

/-- A NaN operand. -/
def Ex.isNaN : Ex → Bool
  | .nan => true
  | _ => false

/-- Neither a NaN nor an infinity. -/
def Ex.isFinite : Ex → Bool
  | .fin .. => true
  | _ => false

/-- A zero of either sign. -/
def Ex.isZero : Ex → Bool
  | .fin _ 0 _ => true
  | _ => false

/-- The sign of a value other than a NaN. -/
def Ex.isNeg : Ex → Bool
  | .nan => false
  | .inf b => b
  | .fin b _ _ => b

/-- Exact sum (R59, R60): ∞ − ∞ is a NaN, and a zero sum of operands of opposite sign is +0. -/
def Ex.add : Ex → Ex → Ex
  | .nan, _ => .nan
  | _, .nan => .nan
  | .inf a, .inf b => if a = b then .inf a else .nan
  | .inf a, .fin .. => .inf a
  | .fin .., .inf b => .inf b
  | .fin a n d, .fin b m e =>
    let x : Int := sgn a (n * e) + sgn b (m * d)
    if x = 0 then .fin (a && b) 0 1 else .fin (decide (x < 0)) x.natAbs (d * e)

/-- Exact difference. -/
def Ex.sub (x y : Ex) : Ex := Ex.add x y.neg

/-- Exact product (R59): 0 × ∞ is a NaN. -/
def Ex.mul : Ex → Ex → Ex
  | .nan, _ => .nan
  | _, .nan => .nan
  | .inf a, .inf b => .inf (a != b)
  | .inf a, .fin b n _ => if n = 0 then .nan else .inf (a != b)
  | .fin a n _, .inf b => if n = 0 then .nan else .inf (a != b)
  | .fin a n d, .fin b m e => .fin (a != b) (n * m) (d * e)

/-- Exact quotient: 0 ÷ 0 and ∞ ÷ ∞ are invalid (R59); a non-zero value over zero is an infinity. -/
def Ex.div : Ex → Ex → Ex
  | .nan, _ => .nan
  | _, .nan => .nan
  | .inf _, .inf _ => .nan
  | .inf a, .fin b _ _ => .inf (a != b)
  | .fin a _ _, .inf b => .fin (a != b) 0 1
  | .fin a n d, .fin b m e =>
    if m = 0 then (if n = 0 then .nan else .inf (a != b)) else .fin (a != b) (n * e) (d * m)

/-- Strictly less, on values that are not NaN. -/
def Ex.lt : Ex → Ex → Bool
  | .nan, _ => false
  | _, .nan => false
  | .inf a, .inf b => a && !b
  | .inf a, .fin .. => a
  | .fin .., .inf b => !b
  | .fin a n d, .fin b m e =>
    decide (sgn a (n * e) < sgn b (m * d))

/-- Numerically equal, on values that are not NaN. -/
def Ex.eq (x y : Ex) : Bool := !x.isNaN && !y.isNaN && !Ex.lt x y && !Ex.lt y x

/-- Two zeros of opposite sign. -/
def Ex.mixedZeros (x y : Ex) : Bool := x.isZero && y.isZero && (x.isNeg != y.isNeg)

/-- Maximum (R59): a NaN operand gives a NaN. -/
def Ex.max (x y : Ex) : Ex :=
  if x.isNaN || y.isNaN then .nan
  else if Ex.mixedZeros x y then .fin Config.mixedZeroNeg 0 1
  else if Ex.lt x y then y else x

/-- Minimum (R59): a NaN operand gives a NaN. -/
def Ex.min (x y : Ex) : Ex :=
  if x.isNaN || y.isNaN then .nan
  else if Ex.mixedZeros x y then .fin Config.mixedZeroNeg 0 1
  else if Ex.lt y x then y else x

/-- FP32 value of a word. -/
def f32 (w : Word) : Ex := Fmt.fp32.decode w.toNat

/-- Narrow to FP32. -/
def toF32 (x : Ex) : Word × AFlags := let r := Fmt.fp32.encodeFloat x; (BitVec.ofNat 32 r.1, r.2)

/-- Integer square root by Newton iteration from above, `fuel` rounds. -/
def isqrtGo (n : Nat) : Nat → Nat → Nat
  | 0, x => x
  | fuel + 1, x => let y := (x + n / x) / 2; if y < x then isqrtGo n fuel y else x

/-- `⌊√n⌋`. -/
def isqrt (n : Nat) : Nat := if n = 0 then 0 else isqrtGo n (2 * (Nat.log2 n + 2)) (2 ^ ((Nat.log2 n) / 2 + 1))

/-- FP32 square root, rounded once by R62; −0 gives −0 and a negative input gives NaN (R130). -/
def sqrtF32 (x : Ex) : Word × AFlags :=
  match x with
  | .nan => toF32 .nan
  | .inf neg => if neg then toF32 .nan else toF32 (.inf false)
  | .fin neg n d =>
    if n = 0 then toF32 (.fin neg 0 1)
    else if neg then toF32 .nan
    else
      let e := floorLog2 n d / 2
      let s := scaleBy (4 * n) d (2 * (e - 23))
      let k := (isqrt (s.1 / s.2) + 1) / 2
      (BitVec.ofNat 32 ((e + 126).toNat * 2 ^ 23 + k), .none)

/-- One step of the pairwise tree of R73: neighbours are joined and an unpaired value moves up unchanged. -/
def treeLevel {α : Type} (op : α → α → α) : List α → List α
  | a :: b :: rest => op a b :: treeLevel op rest
  | rest => rest

/-- The pairwise tree of R73 over list positions; `fuel` is the list length. -/
def treeFold {α : Type} (op : α → α → α) (dflt : α) : Nat → List α → α
  | _, [] => dflt
  | _, [a] => a
  | 0, a :: _ => a
  | fuel + 1, xs => treeFold op dflt fuel (treeLevel op xs)

/-- Clamp to the INT32 limits, with SAT when it saturates (R65). -/
def sat32 (x : Int) : Word × AFlags :=
  if x < -2147483648 then (BitVec.ofInt 32 (-2147483648), ⟨true, false, false⟩)
  else if 2147483647 < x then (BitVec.ofInt 32 2147483647, ⟨true, false, false⟩)
  else (BitVec.ofInt 32 x, .none)

end Sys2Proof.Machine
end

