-- ==== Sys2Proof/Machine/Kinds.lean ====
section
/-! DEFINITION. Machine/Kinds.lean: the error kinds of every block, with their bit numbers as the owning chapters list
them (R55, R56, R158, R184, R212, R241, R243, R273, R274, R276, R287, R319, R321, R339, R365, R367, R384, R385, R398,
R425, R447, R473 to R476, R496), and which of them are refusal kinds (R406). -/

namespace Sys2Proof.Machine

/-- An error kind: its block, its bit number and whether R406 lists it as a refusal kind. -/
structure Kind where
  block : Block
  bit : Nat
  refusal : Bool
  deriving DecidableEq, Repr

namespace Kind

/-! FAB -/
def FAB_BAY_PARITY (c : Cluster) : Kind := ⟨.fab c, 0, false⟩
def FAB_ARRAY_CHECK (c : Cluster) : Kind := ⟨.fab c, 1, false⟩
def FAB_CORE_CHECK (c : Cluster) : Kind := ⟨.fab c, 2, false⟩
def FAB_ICACHE_PARITY (c : Cluster) : Kind := ⟨.fab c, 3, false⟩
def FAB_DEPOT_CE (c : Cluster) : Kind := ⟨.fab c, 4, false⟩
def FAB_DEPOT_UE (c : Cluster) : Kind := ⟨.fab c, 5, false⟩
def FAB_PAIR (c : Cluster) : Kind := ⟨.fab c, 6, false⟩
def FAB_SELFTEST (c : Cluster) : Kind := ⟨.fab c, 7, false⟩
def FAB_BYPASS (c : Cluster) : Kind := ⟨.fab c, 8, false⟩
/-! DCK -/
def DCK_PARITY : Kind := ⟨.dck, 0, false⟩
def DCK_ISOLATION : Kind := ⟨.dck, 1, false⟩
def DCK_EDGE : Kind := ⟨.dck, 2, true⟩
def DCK_ADDRESS : Kind := ⟨.dck, 3, true⟩
def DCK_PAIR : Kind := ⟨.dck, 4, false⟩
def DCK_CREDIT : Kind := ⟨.dck, 5, false⟩
def DCK_BRIDGE : Kind := ⟨.dck, 6, false⟩
def DCK_STALL : Kind := ⟨.dck, 7, true⟩
/-! PLC -/
def PLC_ASSIGN_REWRITE : Kind := ⟨.plc, 0, false⟩
def PLC_SLOW : Kind := ⟨.plc, 1, true⟩
def PLC_MOVE_FAIL : Kind := ⟨.plc, 2, false⟩
/-! WGT -/
def WGT_SOURCE_UE : Kind := ⟨.wgt, 0, false⟩
def WGT_HOLD_UE : Kind := ⟨.wgt, 1, false⟩
def WGT_MISS : Kind := ⟨.wgt, 2, true⟩
def WGT_LEAN_UNAVAIL : Kind := ⟨.wgt, 3, true⟩
def WGT_SWAP_WAIT : Kind := ⟨.wgt, 4, true⟩
def WGT_MARKER_RETRY : Kind := ⟨.wgt, 5, false⟩
/-! WBL -/
def WBL_PAIR : Kind := ⟨.wbl, 0, true⟩
def WBL_REFUSED : Kind := ⟨.wbl, 1, true⟩
def WBL_KV_WAIT : Kind := ⟨.wbl, 2, true⟩
def WBL_CVN_WAIT : Kind := ⟨.wbl, 3, true⟩
def WBL_EVICT : Kind := ⟨.wbl, 4, true⟩
def WBL_DEADLINE : Kind := ⟨.wbl, 5, true⟩
def WBL_RESULT : Kind := ⟨.wbl, 6, true⟩
def WBL_FOLLOW : Kind := ⟨.wbl, 7, true⟩
def WBL_ISOLATION : Kind := ⟨.wbl, 8, true⟩
/-! CVN -/
def CVN_WRITE_FAULT : Kind := ⟨.cvn, 0, true⟩
def CVN_REWARD_REJECT : Kind := ⟨.cvn, 1, true⟩
def CVN_ISOLATION : Kind := ⟨.cvn, 2, true⟩
def CVN_STALL : Kind := ⟨.cvn, 3, true⟩
def CVN_CONFIG : Kind := ⟨.cvn, 4, true⟩
/-! LRN -/
def LRN_BAD_RECORD : Kind := ⟨.lrn, 0, true⟩
def LRN_LAG_DROP : Kind := ⟨.lrn, 1, true⟩
def LRN_GATHER_FAULT : Kind := ⟨.lrn, 2, true⟩
/-! MEM -/
def MEM_CE : Kind := ⟨.mem, 0, false⟩
def MEM_UE : Kind := ⟨.mem, 1, false⟩
def MEM_MAPOUT : Kind := ⟨.mem, 2, false⟩
def MEM_MAPOUT_WAIT : Kind := ⟨.mem, 3, false⟩
def MEM_MAPOUT_LIMIT : Kind := ⟨.mem, 4, false⟩
def MEM_SKEW : Kind := ⟨.mem, 5, true⟩
def MEM_MIG_ABORT : Kind := ⟨.mem, 6, true⟩
def MEM_TRAIN_FAIL : Kind := ⟨.mem, 7, false⟩
/-! HLD -/
def HLD_CE : Kind := ⟨.hld, 0, false⟩
def HLD_UE : Kind := ⟨.hld, 1, false⟩
def HLD_RETIRE : Kind := ⟨.hld, 2, false⟩
def HLD_NO_SPARE : Kind := ⟨.hld, 3, false⟩
def HLD_PAIR : Kind := ⟨.hld, 4, false⟩
def HLD_ISOLATION : Kind := ⟨.hld, 5, true⟩
/-! XLT -/
def XLT_PAIR : Kind := ⟨.xlt, 0, true⟩
def XLT_ISOLATION : Kind := ⟨.xlt, 1, true⟩
def XLT_FOREIGN_FREE : Kind := ⟨.xlt, 2, true⟩
def XLT_UNOWNED_FREE : Kind := ⟨.xlt, 3, true⟩
def XLT_QUARANTINE : Kind := ⟨.xlt, 4, false⟩
def XLT_BAD_FREE : Kind := ⟨.xlt, 5, true⟩
/-! RNG -/
def RNG_SELFTEST : Kind := ⟨.rng, 0, false⟩
def RNG_ENTROPY : Kind := ⟨.rng, 1, false⟩
/-! SYN -/
def SYN_JOB_MISMATCH : Kind := ⟨.syn, 0, true⟩
def SYN_SYNC_LANE : Kind := ⟨.syn, 1, false⟩
def SYN_TUNNEL : Kind := ⟨.syn, 2, false⟩
def SYN_GROUP_CUT : Kind := ⟨.syn, 3, true⟩
def SYN_CRC : Kind := ⟨.syn, 4, false⟩
def SYN_EXHAUSTED : Kind := ⟨.syn, 5, true⟩
/-! COL -/
def COL_CRC : Kind := ⟨.col, 0, false⟩
def COL_FAIL : Kind := ⟨.col, 1, true⟩
def COL_DIGEST : Kind := ⟨.col, 2, true⟩
def COL_WAIT : Kind := ⟨.col, 3, true⟩
def COL_RESEND_LOST : Kind := ⟨.col, 4, true⟩
def COL_STRAY : Kind := ⟨.col, 5, true⟩
/-! HIF -/
def HIF_UR : Kind := ⟨.hif, 0, true⟩
def HIF_POISON : Kind := ⟨.hif, 1, false⟩
def HIF_CPL_TIMEOUT : Kind := ⟨.hif, 2, false⟩
def HIF_LINK_DOWN : Kind := ⟨.hif, 3, false⟩
def HIF_CORRECTED : Kind := ⟨.hif, 4, false⟩
def HIF_ISOLATION : Kind := ⟨.hif, 5, true⟩
/-! QUE -/
def QUE_DOORBELL : Kind := ⟨.que, 0, true⟩
def QUE_RING_ERROR : Kind := ⟨.que, 1, true⟩
def QUE_CONFIG : Kind := ⟨.que, 2, true⟩
def QUE_ISOLATION : Kind := ⟨.que, 3, true⟩
/-! DMA -/
def DMA_HALT : Kind := ⟨.dma, 0, true⟩
def DMA_CONFIG : Kind := ⟨.dma, 1, true⟩
def DMA_REMOTE_TIMEOUT : Kind := ⟨.dma, 2, true⟩
/-! INT -/
def INT_PATH_PARITY : Kind := ⟨.int, 0, false⟩
def INT_EPOCH : Kind := ⟨.int, 1, false⟩
def INT_EPOCH_RESTART : Kind := ⟨.int, 2, false⟩
def INT_DOUBLE_FAULT : Kind := ⟨.int, 3, false⟩
def INT_TWIN_MISMATCH : Kind := ⟨.int, 4, true⟩
def INT_PATTERN_FAIL : Kind := ⟨.int, 5, false⟩
def INT_SIG_LOST : Kind := ⟨.int, 6, false⟩
def INT_CONFIG : Kind := ⟨.int, 7, true⟩
/-! CKP -/
def CKP_BUDDY_LOST : Kind := ⟨.ckp, 0, false⟩
def CKP_PAIR : Kind := ⟨.ckp, 1, false⟩
/-! CLK -/
def CLK_CRYSTAL_FAIL : Kind := ⟨.clk, 0, false⟩
def CLK_PLL_UNLOCK : Kind := ⟨.clk, 1, false⟩
def CLK_RESELECT_REFUSED : Kind := ⟨.clk, 2, true⟩
/-! PWR -/
def PWR_CAP : Kind := ⟨.pwr, 0, true⟩
def PWR_THERMAL : Kind := ⟨.pwr, 1, false⟩
def PWR_TRIP : Kind := ⟨.pwr, 2, false⟩
def PWR_INPUT_MONITOR : Kind := ⟨.pwr, 3, false⟩
/-! SBD -/
def SBD_PEC : Kind := ⟨.sbd, 0, false⟩
def SBD_STUCK_SDA : Kind := ⟨.sbd, 1, false⟩
def SBD_TIMEOUT : Kind := ⟨.sbd, 2, false⟩
def SBD_BAD_COMMAND : Kind := ⟨.sbd, 3, false⟩
def SBD_LOCAL_BUS : Kind := ⟨.sbd, 4, false⟩
def SBD_ASSIGN_REFUSED : Kind := ⟨.sbd, 5, false⟩
/-! VIA -/
def VIA_LANE_SPARED : Kind := ⟨.via, 0, false⟩
def VIA_DEGRADED : Kind := ⟨.via, 1, false⟩
def VIA_RETRAIN : Kind := ⟨.via, 2, false⟩
def VIA_PORT_DOWN : Kind := ⟨.via, 3, false⟩
def VIA_VERSION : Kind := ⟨.via, 4, false⟩
def VIA_MISWIRE : Kind := ⟨.via, 5, false⟩
def VIA_DISC_CONFLICT : Kind := ⟨.via, 6, false⟩
def VIA_JOB_FILTER : Kind := ⟨.via, 7, true⟩
def VIA_HOP_LIMIT : Kind := ⟨.via, 8, false⟩
def VIA_JOB_DUP : Kind := ⟨.via, 9, true⟩
def VIA_PAIR : Kind := ⟨.via, 10, false⟩
def VIA_CREDIT : Kind := ⟨.via, 11, false⟩
/-! TEN -/
def TEN_PAIR : Kind := ⟨.ten, 0, true⟩
def TEN_VIOLATION : Kind := ⟨.ten, 1, true⟩
def TEN_GRANT_REFUSED : Kind := ⟨.ten, 2, true⟩
/-! LDG -/
def LDG_BACKLOG : Kind := ⟨.ldg, 0, true⟩
def LDG_MONITOR : Kind := ⟨.ldg, 1, false⟩
def LDG_RING : Kind := ⟨.ldg, 2, true⟩
/-! RTC -/
def RTC_BATTERY_LOST : Kind := ⟨.rtc, 0, false⟩
def RTC_OSC_FAIL : Kind := ⟨.rtc, 1, false⟩
/-! GLB -/
def GLB_EEPROM : Kind := ⟨.glb, 0, false⟩
def GLB_RAIL : Kind := ⟨.glb, 1, false⟩

end Kind

end Sys2Proof.Machine

namespace Sys2Proof

/-- The refusal kinds of a block, by bit (R406). -/
def Block.refusals : Block → List Nat
  | .dck => [2, 3, 7]
  | .plc => [1]
  | .wgt => [2, 3, 4]
  | .wbl => [0, 1, 2, 3, 4, 5, 6, 7, 8]
  | .cvn => [0, 1, 2, 3, 4]
  | .lrn => [0, 1, 2]
  | .mem => [5, 6]
  | .hld => [5]
  | .xlt => [0, 1, 2, 3, 5]
  | .syn => [0, 3, 5]
  | .col => [1, 2, 3, 4, 5]
  | .hif => [0, 5]
  | .que => [0, 1, 2, 3]
  | .dma => [0, 1, 2]
  | .int => [4, 7]
  | .clk => [2]
  | .pwr => [0]
  | .via => [7, 9]
  | .ten => [0, 1, 2]
  | .ldg => [0, 2]
  | _ => []

end Sys2Proof
end

