-- ==== Sys2Proof/Machine/Registers.lean ====
section
/-! DEFINITION. Machine/Registers.lean: the register tables of the manual as data (R5 to R10, R497, R498).
One `Field` per named field of each register's bit table, with its access code (R7), its reset value and the
reset kinds that give it that value (R10). Reserved bits are in no field and so read as zero (R6).
A row is taken from the register's own table in the chapter that owns the block (R13). -/

namespace Sys2Proof.Machine

/-- Access codes of R7. -/
inductive Access where
  | rw | ro | w1c | wo | rs | pw
  deriving DecidableEq, Repr

/-- One named field of a register: bits `hi` down to `lo`, its access code, its reset value and the reset kinds
(P, M, F, T of R10) that put it there. -/
structure Field where
  reg : RegId
  hi : Nat
  lo : Nat
  access : Access
  reset : Nat
  kinds : List ResetKind
  deriving DecidableEq, Repr

namespace Fld

abbrev PM : List ResetKind := [.p, .m]
abbrev P : List ResetKind := [.p]
abbrev PMT : List ResetKind := [.p, .m, .t]
abbrev PMF : List ResetKind := [.p, .m, .f]
abbrev PMFT : List ResetKind := [.p, .m, .f, .t]
abbrev NONE : List ResetKind := []

/-! FAB registers (chapter Tiles, clusters, spans and the Deck). -/
def FAB_CL_STATUS_STATE : Field := ⟨.FAB_CL_STATUS, 27, 24, .ro, 0x0, PM⟩
def FAB_CL_STATUS_SPAN_SHAPE : Field := ⟨.FAB_CL_STATUS, 19, 16, .ro, 0x0, PM⟩
def FAB_CL_STATUS_ROLE : Field := ⟨.FAB_CL_STATUS, 15, 14, .ro, 0x0, PM⟩
def FAB_CL_STATUS_AT_BOUNDARY : Field := ⟨.FAB_CL_STATUS, 13, 13, .ro, 0x1, PM⟩
def FAB_CL_STATUS_SPARES_LEFT : Field := ⟨.FAB_CL_STATUS, 12, 8, .ro, 0x10, PM⟩
def FAB_CL_STATUS_TENANCY : Field := ⟨.FAB_CL_STATUS, 6, 0, .ro, 0x0, PM⟩
def FAB_CL_ASSIGN_ASSIGN_N : Field := ⟨.FAB_CL_ASSIGN, 63, 32, .ro, 0xffffffff, PM⟩
def FAB_CL_ASSIGN_LOGICAL : Field := ⟨.FAB_CL_ASSIGN, 14, 8, .ro, 0x0, PM⟩
def FAB_CL_ASSIGN_VALID : Field := ⟨.FAB_CL_ASSIGN, 7, 7, .ro, 0x0, PM⟩
def FAB_CL_ASSIGN_TENANCY : Field := ⟨.FAB_CL_ASSIGN, 6, 0, .ro, 0x0, PM⟩
def FAB_CL_CTL_RETIRE : Field := ⟨.FAB_CL_CTL, 31, 31, .wo, 0x0, NONE⟩
def FAB_CL_CTL_CLEAR_FIELD_REPAIR : Field := ⟨.FAB_CL_CTL, 30, 30, .wo, 0x0, NONE⟩
def FAB_CL_CTL_FAIL_SITE : Field := ⟨.FAB_CL_CTL, 29, 29, .wo, 0x0, NONE⟩
def FAB_CL_CTL_FAIL_OFFSET : Field := ⟨.FAB_CL_CTL, 12, 8, .wo, 0x0, NONE⟩
def FAB_CL_CTL_FAIL_ROW : Field := ⟨.FAB_CL_CTL, 3, 0, .wo, 0x0, NONE⟩
def FAB_CL_STEP_STEP : Field := ⟨.FAB_CL_STEP, 63, 0, .rs, 0x0, PMT⟩
def FAB_CL_BUSY_BUSY : Field := ⟨.FAB_CL_BUSY, 63, 0, .rs, 0x0, PM⟩
def FAB_SITE_FAULT_VALID : Field := ⟨.FAB_SITE_FAULT, 31, 31, .w1c, 0x0, PM⟩
def FAB_SITE_FAULT_KIND : Field := ⟨.FAB_SITE_FAULT, 27, 24, .ro, 0x0, PM⟩
def FAB_SITE_FAULT_OFFSET : Field := ⟨.FAB_SITE_FAULT, 20, 16, .ro, 0x0, PM⟩
def FAB_SITE_FAULT_ROW : Field := ⟨.FAB_SITE_FAULT, 3, 0, .ro, 0x0, PM⟩
def FAB_ROW_MAP_MAP_N : Field := ⟨.FAB_ROW_MAP, 63, 32, .ro, 0xffffe0ef, PM⟩
def FAB_ROW_MAP_RETIRED_BY_ROW : Field := ⟨.FAB_ROW_MAP, 15, 15, .ro, 0x0, PM⟩
def FAB_ROW_MAP_SPARE_BAD : Field := ⟨.FAB_ROW_MAP, 14, 14, .ro, 0x0, PM⟩
def FAB_ROW_MAP_FACTORY : Field := ⟨.FAB_ROW_MAP, 13, 13, .ro, 0x0, PM⟩
def FAB_ROW_MAP_SECOND_AT : Field := ⟨.FAB_ROW_MAP, 12, 8, .ro, 0x1f, PM⟩
def FAB_ROW_MAP_SHIFT_AT : Field := ⟨.FAB_ROW_MAP, 4, 0, .ro, 0x10, PM⟩
/-! DCK registers (chapter Tiles, clusters, spans and the Deck). -/
def DCK_CTL_REROUTE_EN : Field := ⟨.DCK_CTL, 0, 0, .rw, 0x1, PM⟩
def DCK_STALL_LIMIT_LIMIT : Field := ⟨.DCK_STALL_LIMIT, 31, 0, .rw, 0xf4240, PM⟩
def DCK_ISO_DROP_COUNT : Field := ⟨.DCK_ISO_DROP, 63, 0, .rs, 0x0, PM⟩
def DCK_EDGE_DROP_COUNT : Field := ⟨.DCK_EDGE_DROP, 63, 0, .rs, 0x0, PM⟩
def DCK_BRIDGE_STATUS_CH_OK : Field := ⟨.DCK_BRIDGE_STATUS, 39, 0, .ro, 0xffffffffff, PM⟩
/-! PLC registers (chapter Routes). -/
def PLC_CTL_DEFRAG_EN : Field := ⟨.PLC_CTL, 2, 2, .rw, 0x1, PM⟩
def PLC_CTL_STEAL_EN : Field := ⟨.PLC_CTL, 1, 1, .rw, 0x1, PM⟩
def PLC_CTL_BAL_EN : Field := ⟨.PLC_CTL, 0, 0, .rw, 0x1, PM⟩
def PLC_BAL_PERIOD_PERIOD : Field := ⟨.PLC_BAL_PERIOD, 31, 0, .rw, 0x2710, PM⟩
def PLC_BAL_HOLD_HOLD : Field := ⟨.PLC_BAL_HOLD, 7, 0, .rw, 0x3, PM⟩
def PLC_MEASURE_STEPS : Field := ⟨.PLC_MEASURE, 15, 0, .rw, 0x10, PM⟩
def PLC_REBAL_GAIN_GAIN : Field := ⟨.PLC_REBAL_GAIN, 9, 0, .rw, 0x64, PM⟩
def PLC_SLOW_LIMIT_LIMIT : Field := ⟨.PLC_SLOW_LIMIT, 15, 0, .rw, 0xc8, PM⟩
def PLC_MOVES_COUNT : Field := ⟨.PLC_MOVES, 63, 0, .rs, 0x0, PM⟩
def PLC_STEALS_COUNT : Field := ⟨.PLC_STEALS, 63, 0, .rs, 0x0, PM⟩
def PLC_TEN_CTL_MIGRATE_OK : Field := ⟨.PLC_TEN_CTL, 3, 3, .rw, 0x0, PMT⟩
def PLC_TEN_CTL_DEFRAG_OK : Field := ⟨.PLC_TEN_CTL, 2, 2, .rw, 0x1, PMT⟩
def PLC_TEN_CTL_STEAL_EN : Field := ⟨.PLC_TEN_CTL, 1, 1, .rw, 0x1, PMT⟩
def PLC_TEN_CTL_BAL_EN : Field := ⟨.PLC_TEN_CTL, 0, 0, .rw, 0x1, PMT⟩
def PLC_TEN_BAL_BACKLOG_MIN : Field := ⟨.PLC_TEN_BAL, 47, 32, .rw, 0x40, PMT⟩
def PLC_TEN_BAL_BAL_HIGH : Field := ⟨.PLC_TEN_BAL, 25, 16, .rw, 0x2ee, PMT⟩
def PLC_TEN_BAL_BAL_LOW : Field := ⟨.PLC_TEN_BAL, 9, 0, .rw, 0xfa, PMT⟩
def PLC_TEN_FOREIGN_F : Field := ⟨.PLC_TEN_FOREIGN, 63, 0, .rs, 0x0, PMT⟩
def PLC_TEN_SLOWDOWN_BAL_BLOCKED : Field := ⟨.PLC_TEN_SLOWDOWN, 31, 16, .ro, 0x0, PMT⟩
def PLC_TEN_SLOWDOWN_SLOWDOWN : Field := ⟨.PLC_TEN_SLOWDOWN, 15, 0, .ro, 0x0, PMT⟩
def PLC_TEN_CLUSTERS_IDLE : Field := ⟨.PLC_TEN_CLUSTERS, 30, 24, .ro, 0x0, PMT⟩
def PLC_TEN_CLUSTERS_LEARNING : Field := ⟨.PLC_TEN_CLUSTERS, 22, 16, .ro, 0x0, PMT⟩
def PLC_TEN_CLUSTERS_GENERATION : Field := ⟨.PLC_TEN_CLUSTERS, 14, 8, .ro, 0x0, PMT⟩
def PLC_TEN_CLUSTERS_GRANTED : Field := ⟨.PLC_TEN_CLUSTERS, 6, 0, .ro, 0x0, PMT⟩
def PLC_ROUTE_CLUSTERS : Field := ⟨.PLC_ROUTE, 38, 32, .ro, 0x0, PM⟩
def PLC_ROUTE_ROUTE_ID : Field := ⟨.PLC_ROUTE, 31, 16, .ro, 0x0, PM⟩
def PLC_ROUTE_ROLE : Field := ⟨.PLC_ROUTE, 13, 12, .ro, 0x0, PM⟩
def PLC_ROUTE_STATE : Field := ⟨.PLC_ROUTE, 11, 8, .ro, 0x0, PMT⟩
def PLC_ROUTE_TENANCY : Field := ⟨.PLC_ROUTE, 6, 0, .ro, 0x0, PM⟩
/-! WGT registers (chapter Weights). -/
def WGT_SWAP_TIMEOUT_TIMEOUT : Field := ⟨.WGT_SWAP_TIMEOUT, 31, 0, .rw, 0x2710, PM⟩
def WGT_STAGED_BYTES : Field := ⟨.WGT_STAGED, 63, 0, .rs, 0x0, PM⟩
def WGT_TEN_BERTH_COUNT : Field := ⟨.WGT_TEN_BERTH, 43, 32, .rw, 0x0, PMT⟩
def WGT_TEN_BERTH_BASE : Field := ⟨.WGT_TEN_BERTH, 31, 0, .rw, 0x0, PMT⟩
def WGT_TEN_BERTH_BYTES_BYTES : Field := ⟨.WGT_TEN_BERTH_BYTES, 31, 0, .rw, 0x0, PMT⟩
def WGT_MISS_POLICY_POLICY : Field := ⟨.WGT_MISS_POLICY, 0, 0, .rw, 0x0, PMT⟩
def WGT_LAYER_DEADLINE_CYCLES : Field := ⟨.WGT_LAYER_DEADLINE, 31, 0, .rw, 0x3a98, PMT⟩
def WGT_TEN_WINDOW_LEAD : Field := ⟨.WGT_TEN_WINDOW, 23, 16, .rw, 0x2, PMT⟩
def WGT_TEN_WINDOW_PRESTAGE : Field := ⟨.WGT_TEN_WINDOW, 15, 8, .rw, 0x4, PMT⟩
def WGT_TEN_WINDOW_DEPTH : Field := ⟨.WGT_TEN_WINDOW, 7, 0, .rw, 0x4, PMT⟩
def WGT_TEN_VERSION_SWAPS : Field := ⟨.WGT_TEN_VERSION, 51, 50, .ro, 0x0, PMT⟩
def WGT_TEN_VERSION_FIXED : Field := ⟨.WGT_TEN_VERSION, 49, 49, .ro, 0x0, PMT⟩
def WGT_TEN_VERSION_LOADED : Field := ⟨.WGT_TEN_VERSION, 48, 48, .ro, 0x0, PMT⟩
def WGT_TEN_VERSION_QUEUED : Field := ⟨.WGT_TEN_VERSION, 47, 32, .ro, 0x0, PMT⟩
def WGT_TEN_VERSION_TRAVEL : Field := ⟨.WGT_TEN_VERSION, 31, 16, .ro, 0x0, PMT⟩
def WGT_TEN_VERSION_ACTIVE : Field := ⟨.WGT_TEN_VERSION, 15, 0, .ro, 0x0, PMT⟩
def WGT_TEN_FRONT_STEP_S : Field := ⟨.WGT_TEN_FRONT_STEP, 63, 0, .rs, 0x0, PMT⟩
def WGT_TEN_MISSES_COUNT : Field := ⟨.WGT_TEN_MISSES, 63, 0, .rs, 0x0, PMT⟩
def WGT_TEN_LEAN_STEPS_COUNT : Field := ⟨.WGT_TEN_LEAN_STEPS, 63, 0, .rs, 0x0, PMT⟩
def WGT_TEN_TOLL_CYCLES_CYCLES : Field := ⟨.WGT_TEN_TOLL_CYCLES, 63, 0, .rs, 0x0, PMT⟩
def WGT_TEN_STATUS_FREE_BERTHS : Field := ⟨.WGT_TEN_STATUS, 27, 16, .ro, 0x0, PMT⟩
def WGT_TEN_STATUS_LAYERS : Field := ⟨.WGT_TEN_STATUS, 10, 0, .ro, 0x0, PMT⟩
/-! WBL registers (chapter Generation). -/
def WBL_CTL_SCHED_HOLD : Field := ⟨.WBL_CTL, 0, 0, .rw, 0x0, PM⟩
def WBL_AGE_STEP_STEP : Field := ⟨.WBL_AGE_STEP, 31, 0, .rw, 0x7d0, PM⟩
def WBL_AGE_LIMIT_LIMIT : Field := ⟨.WBL_AGE_LIMIT, 31, 0, .rw, 0x186a0, PM⟩
def WBL_URGENT_MARGIN_MARGIN : Field := ⟨.WBL_URGENT_MARGIN, 31, 0, .rw, 0x2710, PM⟩
def WBL_FREE_FREE : Field := ⟨.WBL_FREE, 14, 0, .ro, 0x4000, PM⟩
def WBL_PEEK_SEL_WAYBILL : Field := ⟨.WBL_PEEK_SEL, 13, 0, .rw, 0x0, PM⟩
def WBL_PEEK_DATA_DATA : Field := ⟨.WBL_PEEK_DATA, 63, 0, .ro, 0x0, PM⟩
def WBL_TEN_LIMITS_URGENT_SLOTS : Field := ⟨.WBL_TEN_LIMITS, 23, 16, .rw, 0x40, PMT⟩
def WBL_TEN_LIMITS_MAX_WAYBILLS : Field := ⟨.WBL_TEN_LIMITS, 14, 0, .rw, 0x0, PMT⟩
def WBL_TEN_BUDGET_SEQS : Field := ⟨.WBL_TEN_BUDGET, 25, 16, .rw, 0x100, PMT⟩
def WBL_TEN_BUDGET_TOKENS : Field := ⟨.WBL_TEN_BUDGET, 13, 0, .rw, 0x200, PMT⟩
def WBL_TEN_PREFILL_CHUNK : Field := ⟨.WBL_TEN_PREFILL, 31, 16, .rw, 0x100, PMT⟩
def WBL_TEN_PREFILL_PREFILL_MAX : Field := ⟨.WBL_TEN_PREFILL, 15, 0, .rw, 0x100, PMT⟩
def WBL_TEN_KV_HEADS : Field := ⟨.WBL_TEN_KV, 28, 24, .rw, 0x1, PMT⟩
def WBL_TEN_KV_PAGES_LOG2 : Field := ⟨.WBL_TEN_KV, 19, 16, .rw, 0x5, PMT⟩
def WBL_TEN_KV_SLOTS : Field := ⟨.WBL_TEN_KV, 11, 0, .rw, 0x0, PMT⟩
def WBL_TEN_RAGGED_VA : Field := ⟨.WBL_TEN_RAGGED, 47, 0, .rw, 0x0, PMT⟩
def WBL_TEN_RESULT_VA : Field := ⟨.WBL_TEN_RESULT, 47, 0, .rw, 0x0, PMT⟩
def WBL_TEN_CTL_DEPTH : Field := ⟨.WBL_TEN_CTL, 15, 8, .rw, 0x4, PMT⟩
def WBL_TEN_CTL_EVICT_EN : Field := ⟨.WBL_TEN_CTL, 0, 0, .rw, 0x0, PMT⟩
def WBL_TEN_GROUP_LEADER : Field := ⟨.WBL_TEN_GROUP, 32, 32, .rw, 0x1, PMT⟩
def WBL_TEN_GROUP_GROUP : Field := ⟨.WBL_TEN_GROUP, 31, 0, .rw, 0x0, PMT⟩
def WBL_TEN_ACTION_ACTION : Field := ⟨.WBL_TEN_ACTION, 31, 30, .wo, 0x0, NONE⟩
def WBL_TEN_ACTION_WAYBILL : Field := ⟨.WBL_TEN_ACTION, 13, 0, .wo, 0x0, NONE⟩
def WBL_TEN_COUNTS_URGENT : Field := ⟨.WBL_TEN_COUNTS, 39, 32, .ro, 0x0, PMT⟩
def WBL_TEN_COUNTS_ACTIVE : Field := ⟨.WBL_TEN_COUNTS, 30, 16, .ro, 0x0, PMT⟩
def WBL_TEN_COUNTS_QUEUED : Field := ⟨.WBL_TEN_COUNTS, 14, 0, .ro, 0x0, PMT⟩
def WBL_TEN_TOKENS_COUNT : Field := ⟨.WBL_TEN_TOKENS, 63, 0, .rs, 0x0, PMT⟩
def WBL_TEN_STEP_STEP : Field := ⟨.WBL_TEN_STEP, 63, 0, .rs, 0x0, PMT⟩
def WBL_TEN_WAITS_DEADLINE_MISS : Field := ⟨.WBL_TEN_WAITS, 63, 48, .ro, 0x0, PMT⟩
def WBL_TEN_WAITS_EVICTIONS : Field := ⟨.WBL_TEN_WAITS, 47, 32, .ro, 0x0, PMT⟩
def WBL_TEN_WAITS_CVN_WAIT : Field := ⟨.WBL_TEN_WAITS, 31, 16, .ro, 0x0, PMT⟩
def WBL_TEN_WAITS_KV_WAIT : Field := ⟨.WBL_TEN_WAITS, 15, 0, .ro, 0x0, PMT⟩
/-! CVN registers (chapter Experience). -/
def CVN_STALL_LIMIT_LIMIT : Field := ⟨.CVN_STALL_LIMIT, 31, 0, .rw, 0x186a0, PM⟩
def CVN_RING_BASE_VA : Field := ⟨.CVN_RING_BASE, 47, 0, .rw, 0x0, PMT⟩
def CVN_RING_CFG_RING : Field := ⟨.CVN_RING_CFG, 47, 33, .ro, 0x0, PM⟩
def CVN_RING_CFG_ENABLE : Field := ⟨.CVN_RING_CFG, 31, 31, .rw, 0x0, PMT⟩
def CVN_RING_CFG_TENANCY : Field := ⟨.CVN_RING_CFG, 30, 24, .ro, 0x0, PM⟩
def CVN_RING_CFG_LEARN_EN : Field := ⟨.CVN_RING_CFG, 9, 9, .rw, 0x1, PMT⟩
def CVN_RING_CFG_REWARD_MODE : Field := ⟨.CVN_RING_CFG, 8, 8, .rw, 0x0, PMT⟩
def CVN_RING_CFG_SIZE_LOG2 : Field := ⟨.CVN_RING_CFG, 4, 0, .rw, 0x10, PMT⟩
def CVN_RING_PTRS_RELEASE : Field := ⟨.CVN_RING_PTRS, 63, 32, .rs, 0x0, PMT⟩
def CVN_RING_PTRS_WRITE : Field := ⟨.CVN_RING_PTRS, 31, 0, .rs, 0x0, PMT⟩
def CVN_RING_STATE_RESERVED : Field := ⟨.CVN_RING_STATE, 63, 32, .ro, 0x0, PMT⟩
def CVN_RING_STATE_PINS : Field := ⟨.CVN_RING_STATE, 31, 16, .ro, 0x0, PMT⟩
def CVN_RING_STATE_FAULT : Field := ⟨.CVN_RING_STATE, 0, 0, .ro, 0x0, PMT⟩
def CVN_RING_CONSUME_SLOT : Field := ⟨.CVN_RING_CONSUME, 31, 0, .wo, 0x0, NONE⟩
def CVN_TEN_STATUS_REJECTS : Field := ⟨.CVN_TEN_STATUS, 47, 32, .ro, 0x0, PMT⟩
def CVN_TEN_STATUS_FILL : Field := ⟨.CVN_TEN_STATUS, 9, 0, .ro, 0x0, PMT⟩
/-! LRN registers (chapter Experience). -/
def LRN_CTL_BUILD_HOLD : Field := ⟨.LRN_CTL, 0, 0, .rw, 0x0, PM⟩
def LRN_TEN_BATCH_VA : Field := ⟨.LRN_TEN_BATCH, 47, 0, .rw, 0x0, PMT⟩
def LRN_TEN_SLOT_SLOT_LOG2 : Field := ⟨.LRN_TEN_SLOT, 12, 8, .rw, 0x18, PMT⟩
def LRN_TEN_SLOT_DEPTH : Field := ⟨.LRN_TEN_SLOT, 3, 0, .rw, 0x2, PMT⟩
def LRN_TEN_LIMITS_BATCH_TOKENS : Field := ⟨.LRN_TEN_LIMITS, 54, 32, .rw, 0x40000, PMT⟩
def LRN_TEN_LIMITS_BATCH_SEQS : Field := ⟨.LRN_TEN_LIMITS, 25, 16, .rw, 0x100, PMT⟩
def LRN_TEN_LIMITS_MB_TOKENS : Field := ⟨.LRN_TEN_LIMITS, 15, 0, .rw, 0x1000, PMT⟩
def LRN_TEN_WAIT_WAIT : Field := ⟨.LRN_TEN_WAIT, 31, 0, .rw, 0x3e8, PMT⟩
def LRN_TEN_MIN_MIN_TOKENS : Field := ⟨.LRN_TEN_MIN, 22, 0, .rw, 0x1, PMT⟩
def LRN_TEN_SCHED_VA_VA : Field := ⟨.LRN_TEN_SCHED_VA, 47, 0, .rw, 0x0, PMT⟩
def LRN_TEN_SCHED_CTL_CHUNKS : Field := ⟨.LRN_TEN_SCHED_CTL, 23, 16, .rw, 0x1, PMT⟩
def LRN_TEN_SCHED_CTL_REF_EN : Field := ⟨.LRN_TEN_SCHED_CTL, 1, 1, .rw, 0x0, PMT⟩
def LRN_TEN_SCHED_CTL_MODE : Field := ⟨.LRN_TEN_SCHED_CTL, 0, 0, .rw, 0x0, PMT⟩
def LRN_TEN_SCHED_LEN_ENTRIES : Field := ⟨.LRN_TEN_SCHED_LEN, 20, 0, .rw, 0x0, PMT⟩
def LRN_TEN_LAG_ACTION : Field := ⟨.LRN_TEN_LAG, 16, 16, .rw, 0x0, PMT⟩
def LRN_TEN_LAG_MAX_LAG : Field := ⟨.LRN_TEN_LAG, 15, 0, .rw, 0x0, PMT⟩
def LRN_TEN_GRAD_ADDR_TIER : Field := ⟨.LRN_TEN_GRAD_ADDR, 63, 63, .rw, 0x0, PMT⟩
def LRN_TEN_GRAD_ADDR_ADDR : Field := ⟨.LRN_TEN_GRAD_ADDR, 47, 0, .rw, 0x0, PMT⟩
def LRN_TEN_GRAD_LEN_ZERO_EN : Field := ⟨.LRN_TEN_GRAD_LEN, 63, 63, .rw, 0x0, PMT⟩
def LRN_TEN_GRAD_LEN_BYTES : Field := ⟨.LRN_TEN_GRAD_LEN, 39, 0, .rw, 0x0, PMT⟩
def LRN_TEN_STEP_STEP : Field := ⟨.LRN_TEN_STEP, 63, 0, .rs, 0x0, PMT⟩
def LRN_TEN_SEQS_COUNT : Field := ⟨.LRN_TEN_SEQS, 63, 0, .rs, 0x0, PMT⟩
def LRN_TEN_ROWS_COUNT : Field := ⟨.LRN_TEN_ROWS, 63, 0, .rs, 0x0, PMT⟩
def LRN_TEN_DROPS_GATHER_FAULTS : Field := ⟨.LRN_TEN_DROPS, 63, 48, .ro, 0x0, PMT⟩
def LRN_TEN_DROPS_BAD_RECORDS : Field := ⟨.LRN_TEN_DROPS, 47, 32, .ro, 0x0, PMT⟩
def LRN_TEN_DROPS_ERROR_ENDS : Field := ⟨.LRN_TEN_DROPS, 31, 16, .ro, 0x0, PMT⟩
def LRN_TEN_DROPS_LAG_DROPS : Field := ⟨.LRN_TEN_DROPS, 15, 0, .ro, 0x0, PMT⟩
def LRN_TEN_IDLE_US : Field := ⟨.LRN_TEN_IDLE, 63, 0, .rs, 0x0, PMT⟩
/-! MEM registers (chapter Memory). -/
def MEM_CTL_BORROW_EN : Field := ⟨.MEM_CTL, 1, 1, .rw, 0x1, PM⟩
def MEM_CTL_PATROL_EN : Field := ⟨.MEM_CTL, 0, 0, .rw, 0x1, PM⟩
def MEM_CH_CTL_MAP_OUT : Field := ⟨.MEM_CH_CTL, 31, 31, .wo, 0x0, NONE⟩
def MEM_CH_CTL_CHANNEL : Field := ⟨.MEM_CH_CTL, 8, 0, .wo, 0x0, NONE⟩
def MEM_CH_UE_LIMIT_LIMIT : Field := ⟨.MEM_CH_UE_LIMIT, 15, 0, .rw, 0x10, PM⟩
def MEM_PATROL_HOURS : Field := ⟨.MEM_PATROL, 15, 0, .rw, 0x18, PM⟩
def MEM_SKEW_LIMIT_LIMIT : Field := ⟨.MEM_SKEW_LIMIT, 8, 0, .rw, 0x8, PM⟩
def MEM_SKEW_WINDOW_US : Field := ⟨.MEM_SKEW_WINDOW, 31, 0, .rw, 0x186a0, PM⟩
def MEM_SKEW_MIN_MIB : Field := ⟨.MEM_SKEW_MIN, 31, 0, .rw, 0x40, PM⟩
def MEM_MIG_STALL_US : Field := ⟨.MEM_MIG_STALL, 31, 0, .rw, 0x32, PM⟩
def MEM_MIG_MAX_MIB : Field := ⟨.MEM_MIG_MAX, 31, 0, .rw, 0x400, PM⟩
def MEM_CH_STATUS_UE : Field := ⟨.MEM_CH_STATUS, 47, 32, .ro, 0x0, P⟩
def MEM_CH_STATUS_STATE : Field := ⟨.MEM_CH_STATUS, 31, 24, .ro, 0x0, PM⟩
def MEM_CH_STATUS_CE : Field := ⟨.MEM_CH_STATUS, 15, 0, .ro, 0x0, P⟩
def MEM_TEN_BUCKET_BURST : Field := ⟨.MEM_TEN_BUCKET, 47, 32, .rw, 0x40, PMT⟩
def MEM_TEN_BUCKET_SHARE : Field := ⟨.MEM_TEN_BUCKET, 9, 0, .rw, 0x0, PMT⟩
def MEM_TEN_BYTES_BYTES : Field := ⟨.MEM_TEN_BYTES, 63, 0, .rs, 0x0, PMT⟩
def MEM_TEN_THROTTLE_NS : Field := ⟨.MEM_TEN_THROTTLE, 63, 0, .rs, 0x0, PMT⟩
def MEM_TEN_KEYS_MIGRATIONS : Field := ⟨.MEM_TEN_KEYS, 31, 16, .ro, 0x0, PMT⟩
def MEM_TEN_KEYS_IN_USE : Field := ⟨.MEM_TEN_KEYS, 7, 4, .ro, 0x0, PMT⟩
def MEM_TEN_KEYS_CURRENT : Field := ⟨.MEM_TEN_KEYS, 1, 0, .ro, 0x0, PMT⟩
/-! HLD registers (chapter Memory). -/
def HLD_SCRUB_PERIOD_SECONDS : Field := ⟨.HLD_SCRUB_PERIOD, 31, 0, .rw, 0xe10, PM⟩
def HLD_RETIRE_CE_LIMIT : Field := ⟨.HLD_RETIRE_CE, 15, 0, .rw, 0x10, PM⟩
def HLD_FREE_BANKS_FREE : Field := ⟨.HLD_FREE_BANKS, 63, 0, .ro, 0x2000200020002000, PM⟩
def HLD_MAP_SEL_ENTRY : Field := ⟨.HLD_MAP_SEL, 15, 0, .rw, 0x0, PM⟩
def HLD_MAP_DATA_ENTRY_N : Field := ⟨.HLD_MAP_DATA, 31, 16, .ro, 0xffff, PM⟩
def HLD_MAP_DATA_VALID : Field := ⟨.HLD_MAP_DATA, 15, 15, .ro, 0x0, PM⟩
def HLD_MAP_DATA_BANK : Field := ⟨.HLD_MAP_DATA, 14, 0, .ro, 0x0, PM⟩
def HLD_BANK_SEL_BANK : Field := ⟨.HLD_BANK_SEL, 14, 0, .rw, 0x0, PM⟩
def HLD_BANK_INFO_STATE : Field := ⟨.HLD_BANK_INFO, 31, 30, .ro, 0x0, PM⟩
def HLD_BANK_INFO_CE : Field := ⟨.HLD_BANK_INFO, 29, 16, .ro, 0x0, PM⟩
def HLD_BANK_INFO_ENTRY : Field := ⟨.HLD_BANK_INFO, 15, 0, .ro, 0x0, PM⟩
def HLD_TEN_EXT_EXT_N : Field := ⟨.HLD_TEN_EXT, 63, 32, .ro, 0xffffffff, PM⟩
def HLD_TEN_EXT_COUNT : Field := ⟨.HLD_TEN_EXT, 31, 16, .ro, 0x0, PM⟩
def HLD_TEN_EXT_TBANK_FIRST : Field := ⟨.HLD_TEN_EXT, 15, 0, .ro, 0x0, PM⟩
def HLD_TEN_EXT_RUN_RUN_N : Field := ⟨.HLD_TEN_EXT_RUN, 63, 32, .ro, 0xffffffff, PM⟩
def HLD_TEN_EXT_RUN_VALID : Field := ⟨.HLD_TEN_EXT_RUN, 17, 17, .ro, 0x0, PM⟩
def HLD_TEN_EXT_RUN_READ_ONLY : Field := ⟨.HLD_TEN_EXT_RUN, 16, 16, .ro, 0x0, PM⟩
def HLD_TEN_EXT_RUN_TABLE_FIRST : Field := ⟨.HLD_TEN_EXT_RUN, 15, 0, .ro, 0x0, PM⟩
/-! XLT registers (chapter Memory). -/
def XLT_POOL_FREE_FRAMES : Field := ⟨.XLT_POOL_FREE, 22, 0, .ro, 0x0, PM⟩
def XLT_TEN_ROOT_ROOT_N : Field := ⟨.XLT_TEN_ROOT, 63, 32, .pw, 0xffffffff, PMT⟩
def XLT_TEN_ROOT_ENABLE : Field := ⟨.XLT_TEN_ROOT, 31, 31, .pw, 0x0, PMT⟩
def XLT_TEN_ROOT_FRAME : Field := ⟨.XLT_TEN_ROOT, 22, 0, .pw, 0x0, PMT⟩
def XLT_TEN_ALLOC_REQ_DIE : Field := ⟨.XLT_TEN_ALLOC_REQ, 4, 3, .wo, 0x0, NONE⟩
def XLT_TEN_ALLOC_REQ_NEAR : Field := ⟨.XLT_TEN_ALLOC_REQ, 2, 2, .wo, 0x0, NONE⟩
def XLT_TEN_ALLOC_REQ_SIZE : Field := ⟨.XLT_TEN_ALLOC_REQ, 1, 0, .wo, 0x0, NONE⟩
def XLT_TEN_ALLOC_RESULT_VALID : Field := ⟨.XLT_TEN_ALLOC_RESULT, 63, 63, .ro, 0x0, PMT⟩
def XLT_TEN_ALLOC_RESULT_FAIL : Field := ⟨.XLT_TEN_ALLOC_RESULT, 62, 62, .ro, 0x0, PMT⟩
def XLT_TEN_ALLOC_RESULT_FRAME : Field := ⟨.XLT_TEN_ALLOC_RESULT, 22, 0, .ro, 0x0, PMT⟩
def XLT_TEN_FREE_SIZE : Field := ⟨.XLT_TEN_FREE, 24, 23, .wo, 0x0, NONE⟩
def XLT_TEN_FREE_FRAME : Field := ⟨.XLT_TEN_FREE, 22, 0, .wo, 0x0, NONE⟩
def XLT_TEN_INVAL_COUNT : Field := ⟨.XLT_TEN_INVAL, 63, 48, .wo, 0x0, NONE⟩
def XLT_TEN_INVAL_VA : Field := ⟨.XLT_TEN_INVAL, 47, 16, .wo, 0x0, NONE⟩
def XLT_TEN_INVAL_DONE_COUNT : Field := ⟨.XLT_TEN_INVAL_DONE, 31, 0, .ro, 0x0, PMT⟩
def XLT_TEN_FRAMES_FRAMES : Field := ⟨.XLT_TEN_FRAMES, 22, 0, .ro, 0x0, PM⟩
def XLT_TEN_FAULT_KIND : Field := ⟨.XLT_TEN_FAULT, 63, 60, .ro, 0x0, PMT⟩
def XLT_TEN_FAULT_VA : Field := ⟨.XLT_TEN_FAULT, 47, 0, .ro, 0x0, PMT⟩
/-! RNG registers (chapter Random). -/
def RNG_CTL_SELFTEST_EN : Field := ⟨.RNG_CTL, 0, 0, .rw, 0x1, PM⟩
def RNG_SELFTEST_PERIOD_MS : Field := ⟨.RNG_SELFTEST_PERIOD, 31, 0, .rw, 0x3e8, PM⟩
def RNG_KAT_KEY_K1 : Field := ⟨.RNG_KAT_KEY, 63, 32, .rw, 0x0, PM⟩
def RNG_KAT_KEY_K0 : Field := ⟨.RNG_KAT_KEY, 31, 0, .rw, 0x0, PM⟩
def RNG_KAT_CTR_HIGH : Field := ⟨.RNG_KAT_CTR, 63, 32, .rw, 0x0, PM⟩
def RNG_KAT_CTR_LOW : Field := ⟨.RNG_KAT_CTR, 31, 0, .rw, 0x0, PM⟩
def RNG_KAT_CTL_GO : Field := ⟨.RNG_KAT_CTL, 31, 31, .wo, 0x0, NONE⟩
def RNG_KAT_CTL_DONE : Field := ⟨.RNG_KAT_CTL, 0, 0, .ro, 0x0, PM⟩
def RNG_KAT_OUT_HIGH : Field := ⟨.RNG_KAT_OUT, 63, 32, .ro, 0x0, PM⟩
def RNG_KAT_OUT_LOW : Field := ⟨.RNG_KAT_OUT, 31, 0, .ro, 0x0, PM⟩
def RNG_ENTROPY_STATUS_FAILS : Field := ⟨.RNG_ENTROPY_STATUS, 31, 16, .ro, 0x0, P⟩
def RNG_ENTROPY_STATUS_HEALTHY : Field := ⟨.RNG_ENTROPY_STATUS, 0, 0, .ro, 0x0, PM⟩
/-! VIA registers (chapter Viaduct). -/
def VIA_DISC_STATUS_DONE : Field := ⟨.VIA_DISC_STATUS, 31, 31, .ro, 0x0, PM⟩
def VIA_DISC_STATUS_CONFLICT : Field := ⟨.VIA_DISC_STATUS, 30, 30, .ro, 0x0, PM⟩
def VIA_DISC_STATUS_Z : Field := ⟨.VIA_DISC_STATUS, 28, 24, .ro, 0x0, PM⟩
def VIA_DISC_STATUS_Y : Field := ⟨.VIA_DISC_STATUS, 23, 20, .ro, 0x0, PM⟩
def VIA_DISC_STATUS_X : Field := ⟨.VIA_DISC_STATUS, 19, 16, .ro, 0x0, PM⟩
def VIA_DISC_STATUS_MODULE : Field := ⟨.VIA_DISC_STATUS, 12, 0, .ro, 0x0, PM⟩
def VIA_DISC_CTL_ORIGIN : Field := ⟨.VIA_DISC_CTL, 31, 31, .rw, 0x0, PM⟩
def VIA_DISC_CTL_DIM_Z_M1 : Field := ⟨.VIA_DISC_CTL, 12, 8, .rw, 0x1f, PM⟩
def VIA_DISC_CTL_DIM_Y_M1 : Field := ⟨.VIA_DISC_CTL, 7, 4, .rw, 0xf, PM⟩
def VIA_DISC_CTL_DIM_X_M1 : Field := ⟨.VIA_DISC_CTL, 3, 0, .rw, 0xf, PM⟩
def VIA_ROUTE_CTL_HOP_LIMIT : Field := ⟨.VIA_ROUTE_CTL, 15, 8, .rw, 0x40, PM⟩
def VIA_ROUTE_CTL_DETOUR_EN : Field := ⟨.VIA_ROUTE_CTL, 0, 0, .rw, 0x1, PM⟩
def VIA_ISO_DROP_COUNT : Field := ⟨.VIA_ISO_DROP, 63, 0, .rs, 0x0, PM⟩
def VIA_DETOURS_COUNT : Field := ⟨.VIA_DETOURS, 63, 0, .rs, 0x0, PM⟩
def VIA_LOST_COUNT : Field := ⟨.VIA_LOST, 63, 0, .rs, 0x0, PM⟩
def VIA_JOB_JOB_N : Field := ⟨.VIA_JOB, 63, 32, .pw, 0xffffffff, PMT⟩
def VIA_JOB_VALID : Field := ⟨.VIA_JOB, 31, 31, .pw, 0x0, PMT⟩
def VIA_JOB_JOB_ID : Field := ⟨.VIA_JOB, 23, 0, .pw, 0x0, PMT⟩
def VIA_PORT_CTL_DISABLE : Field := ⟨.VIA_PORT_CTL, 31, 31, .rw, 0x0, PM⟩
def VIA_PORT_CTL_RETRAIN : Field := ⟨.VIA_PORT_CTL, 30, 30, .wo, 0x0, NONE⟩
def VIA_PORT_CTL_ALLOW_HALF : Field := ⟨.VIA_PORT_CTL, 29, 29, .rw, 0x1, PM⟩
def VIA_PORT_CTL_VLP_MAX : Field := ⟨.VIA_PORT_CTL, 1, 0, .rw, 0x0, PM⟩
def VIA_PORT_STATUS_STATE : Field := ⟨.VIA_PORT_STATUS, 31, 28, .ro, 0x0, PM⟩
def VIA_PORT_STATUS_VLP : Field := ⟨.VIA_PORT_STATUS, 27, 20, .ro, 0x0, PM⟩
def VIA_PORT_STATUS_DATA_LANES : Field := ⟨.VIA_PORT_STATUS, 19, 14, .ro, 0x0, PM⟩
def VIA_PORT_STATUS_SYNC_LANES : Field := ⟨.VIA_PORT_STATUS, 13, 12, .ro, 0x0, PM⟩
def VIA_PORT_STATUS_SPARES_LEFT : Field := ⟨.VIA_PORT_STATUS, 11, 10, .ro, 0x2, PM⟩
def VIA_PORT_STATUS_RETRAIN_FAILS : Field := ⟨.VIA_PORT_STATUS, 7, 0, .ro, 0x0, PM⟩
def VIA_PORT_PEER_VALID : Field := ⟨.VIA_PORT_PEER, 63, 63, .ro, 0x0, PM⟩
def VIA_PORT_PEER_MISWIRE : Field := ⟨.VIA_PORT_PEER, 62, 62, .ro, 0x0, PM⟩
def VIA_PORT_PEER_FUBOIN : Field := ⟨.VIA_PORT_PEER, 61, 61, .ro, 0x0, PM⟩
def VIA_PORT_PEER_PEER_MODULE : Field := ⟨.VIA_PORT_PEER, 60, 48, .ro, 0x0, PM⟩
def VIA_PORT_PEER_PEER_PORT : Field := ⟨.VIA_PORT_PEER, 34, 32, .ro, 0x0, PM⟩
def VIA_PORT_PEER_PEER_SERIAL : Field := ⟨.VIA_PORT_PEER, 31, 0, .ro, 0x0, PM⟩
def VIA_PORT_LANES_FAILED : Field := ⟨.VIA_PORT_LANES, 43, 0, .ro, 0x0, PM⟩
def VIA_PORT_SPARE_USE_FOR_43 : Field := ⟨.VIA_PORT_SPARE_USE, 15, 8, .ro, 0xff, PM⟩
def VIA_PORT_SPARE_USE_FOR_42 : Field := ⟨.VIA_PORT_SPARE_USE, 7, 0, .ro, 0xff, PM⟩
def VIA_PORT_LANE_ERR_LIMIT_LIMIT : Field := ⟨.VIA_PORT_LANE_ERR_LIMIT, 31, 0, .rw, 0x3e8, PM⟩
def VIA_PORT_TX_FLITS_COUNT : Field := ⟨.VIA_PORT_TX_FLITS, 63, 0, .rs, 0x0, PM⟩
def VIA_PORT_RX_FLITS_COUNT : Field := ⟨.VIA_PORT_RX_FLITS, 63, 0, .rs, 0x0, PM⟩
def VIA_PORT_REPLAYS_COUNT : Field := ⟨.VIA_PORT_REPLAYS, 63, 0, .rs, 0x0, PM⟩
def VIA_PORT_RETRAINS_COUNT : Field := ⟨.VIA_PORT_RETRAINS, 63, 0, .rs, 0x0, PM⟩
def VIA_PORT_FEC_UNCORRECTED : Field := ⟨.VIA_PORT_FEC, 63, 32, .rs, 0x0, PM⟩
def VIA_PORT_FEC_CORRECTED : Field := ⟨.VIA_PORT_FEC, 31, 0, .rs, 0x0, PM⟩
/-! SYN registers (chapter Viaduct). -/
def SYN_CTL_TUNNEL_EN : Field := ⟨.SYN_CTL, 0, 0, .rw, 0x1, PM⟩
def SYN_BARRIERS_FREE_FREE : Field := ⟨.SYN_BARRIERS_FREE, 63, 0, .ro, 0x1000100010001000, PM⟩
def SYN_GROUP_OPS_COUNT : Field := ⟨.SYN_GROUP_OPS, 63, 0, .rs, 0x0, PM⟩
def SYN_TEN_BARRIERS_LIMIT : Field := ⟨.SYN_TEN_BARRIERS, 46, 32, .rw, 0x0, PMT⟩
def SYN_TEN_BARRIERS_IN_USE : Field := ⟨.SYN_TEN_BARRIERS, 14, 0, .ro, 0x0, PMT⟩
def SYN_TEN_PENDING_OPS : Field := ⟨.SYN_TEN_PENDING, 15, 0, .ro, 0x0, PMT⟩
/-! COL registers (chapter Collective). -/
def COL_CTL_RESEND_EN : Field := ⟨.COL_CTL, 0, 0, .rw, 0x1, PM⟩
def COL_TIMEOUT_US : Field := ⟨.COL_TIMEOUT, 31, 0, .rw, 0x2710, PM⟩
def COL_INSTANCES_COUNT : Field := ⟨.COL_INSTANCES, 63, 0, .rs, 0x0, PM⟩
def COL_CRC_FAILS_COUNT : Field := ⟨.COL_CRC_FAILS, 63, 0, .rs, 0x0, PM⟩
def COL_TEN_LIMITS_BOUND_MAX : Field := ⟨.COL_TEN_LIMITS, 24, 16, .rw, 0x100, PMT⟩
def COL_TEN_LIMITS_INFLIGHT_MAX : Field := ⟨.COL_TEN_LIMITS, 8, 0, .rw, 0x40, PMT⟩
def COL_TEN_ACTIVE_BOUND : Field := ⟨.COL_TEN_ACTIVE, 24, 16, .ro, 0x0, PMT⟩
def COL_TEN_ACTIVE_INFLIGHT : Field := ⟨.COL_TEN_ACTIVE, 8, 0, .ro, 0x0, PMT⟩
def COL_TEN_SLOWEST_WAIT : Field := ⟨.COL_TEN_SLOWEST, 63, 32, .ro, 0x0, PMT⟩
def COL_TEN_SLOWEST_MODULE : Field := ⟨.COL_TEN_SLOWEST, 28, 16, .ro, 0x0, PMT⟩
def COL_TEN_SLOWEST_RANK : Field := ⟨.COL_TEN_SLOWEST, 12, 0, .ro, 0x0, PMT⟩
def COL_TEN_WAIT_NS_NS : Field := ⟨.COL_TEN_WAIT_NS, 63, 0, .rs, 0x0, PMT⟩
def COL_TEN_BYTES_BYTES : Field := ⟨.COL_TEN_BYTES, 63, 0, .rs, 0x0, PMT⟩
def COL_TEN_INSTANCES_COUNT : Field := ⟨.COL_TEN_INSTANCES, 63, 0, .rs, 0x0, PMT⟩
/-! HIF registers (chapter Host). -/
def HIF_HCP_REQ_MAJOR : Field := ⟨.HIF_HCP_REQ, 15, 8, .rw, 0x0, PMF⟩
def HIF_HCP_REQ_MINOR : Field := ⟨.HIF_HCP_REQ, 7, 0, .rw, 0x0, PMF⟩
def HIF_HCP_VER_REFUSED : Field := ⟨.HIF_HCP_VER, 17, 17, .ro, 0x0, PMF⟩
def HIF_HCP_VER_VALID : Field := ⟨.HIF_HCP_VER, 16, 16, .ro, 0x0, PMF⟩
def HIF_HCP_VER_MAJOR : Field := ⟨.HIF_HCP_VER, 15, 8, .ro, 0x0, PMF⟩
def HIF_HCP_VER_MINOR : Field := ⟨.HIF_HCP_VER, 7, 0, .ro, 0x0, PMF⟩
def HIF_LINK_STATUS_FLIT : Field := ⟨.HIF_LINK_STATUS, 10, 10, .ro, 0x0, PM⟩
def HIF_LINK_STATUS_WIDTH : Field := ⟨.HIF_LINK_STATUS, 9, 4, .ro, 0x0, PM⟩
def HIF_LINK_STATUS_RATE : Field := ⟨.HIF_LINK_STATUS, 3, 0, .ro, 0x0, PM⟩
def HIF_LTR_SCALE : Field := ⟨.HIF_LTR, 12, 10, .rw, 0x2, PM⟩
def HIF_LTR_VALUE : Field := ⟨.HIF_LTR, 9, 0, .rw, 0x64, PM⟩
def HIF_NMI_STATUS_SEVERE : Field := ⟨.HIF_NMI_STATUS, 1, 1, .w1c, 0x0, PM⟩
def HIF_NMI_STATUS_CLOCK : Field := ⟨.HIF_NMI_STATUS, 0, 0, .w1c, 0x0, PM⟩
def HIF_VF_NOTICE_GRANT : Field := ⟨.HIF_VF_NOTICE, 2, 2, .w1c, 0x0, PMFT⟩
def HIF_VF_NOTICE_RESUMED : Field := ⟨.HIF_VF_NOTICE, 1, 1, .w1c, 0x0, PMFT⟩
def HIF_VF_NOTICE_SUSPENDED : Field := ⟨.HIF_VF_NOTICE, 0, 0, .w1c, 0x0, PMFT⟩
def HIF_TX_BYTES_BYTES : Field := ⟨.HIF_TX_BYTES, 63, 0, .rs, 0x0, PMF⟩
def HIF_RX_BYTES_BYTES : Field := ⟨.HIF_RX_BYTES, 63, 0, .rs, 0x0, PMF⟩
def HIF_ID_ID : Field := ⟨.HIF_ID, 63, 0, .ro, 0x0, NONE⟩
/-! QUE registers (chapter Host). -/
def QUE_RING_SEL_RING : Field := ⟨.QUE_RING_SEL, 14, 0, .rw, 0x0, PMF⟩
def QUE_RING_BASE_VA : Field := ⟨.QUE_RING_BASE, 47, 0, .rw, 0x0, PMFT⟩
def QUE_RING_CFG_ENABLE : Field := ⟨.QUE_RING_CFG, 63, 63, .rw, 0x0, PMFT⟩
def QUE_RING_CFG_STATE : Field := ⟨.QUE_RING_CFG, 62, 61, .ro, 0x0, PMFT⟩
def QUE_RING_CFG_TYPE : Field := ⟨.QUE_RING_CFG, 60, 57, .rw, 0x0, PMFT⟩
def QUE_RING_CFG_SIZE_LOG2 : Field := ⟨.QUE_RING_CFG, 56, 52, .rw, 0x4, PMFT⟩
def QUE_RING_CFG_PAIR : Field := ⟨.QUE_RING_CFG, 51, 37, .rw, 0x0, PMFT⟩
def QUE_RING_CFG_PRIORITY : Field := ⟨.QUE_RING_CFG, 36, 34, .rw, 0x0, PMFT⟩
def QUE_RING_CFG_QUANTUM : Field := ⟨.QUE_RING_CFG, 31, 24, .rw, 0x8, PMFT⟩
def QUE_RING_CFG_VECTOR : Field := ⟨.QUE_RING_CFG, 10, 0, .rw, 0x0, PMFT⟩
def QUE_RING_PTRS_HEAD : Field := ⟨.QUE_RING_PTRS, 63, 32, .rs, 0x0, PMFT⟩
def QUE_RING_PTRS_TAIL : Field := ⟨.QUE_RING_PTRS, 31, 0, .rs, 0x0, PMFT⟩
def QUE_RING_INFO_CARAVAN : Field := ⟨.QUE_RING_INFO, 41, 32, .ro, 0x0, PMFT⟩
def QUE_RING_INFO_TENANCY : Field := ⟨.QUE_RING_INFO, 22, 16, .ro, 0x0, PM⟩
def QUE_RING_INFO_GLOBAL : Field := ⟨.QUE_RING_INFO, 14, 0, .ro, 0x0, PM⟩
def QUE_AGE_STEP_US : Field := ⟨.QUE_AGE_STEP, 31, 0, .rw, 0x7d0, PM⟩
def QUE_AGE_LIMIT_US : Field := ⟨.QUE_AGE_LIMIT, 31, 0, .rw, 0x186a0, PM⟩
def QUE_PREEMPT_ACTION : Field := ⟨.QUE_PREEMPT, 31, 30, .wo, 0x0, NONE⟩
def QUE_PREEMPT_MODE : Field := ⟨.QUE_PREEMPT, 8, 8, .wo, 0x0, NONE⟩
def QUE_PREEMPT_TENANCY : Field := ⟨.QUE_PREEMPT, 6, 0, .wo, 0x0, NONE⟩
def QUE_TEN_CMD_INFLIGHT : Field := ⟨.QUE_TEN_CMD, 31, 16, .ro, 0x0, PMT⟩
def QUE_TEN_CMD_MAX_INFLIGHT : Field := ⟨.QUE_TEN_CMD, 12, 0, .rw, 0x100, PMT⟩
def QUE_TEN_STATE_URGENT_SLOTS : Field := ⟨.QUE_TEN_STATE, 15, 8, .rw, 0x40, PMT⟩
def QUE_TEN_STATE_STATE : Field := ⟨.QUE_TEN_STATE, 1, 0, .ro, 0x0, PMT⟩
def QUE_TEN_CMD_ABORT_RING : Field := ⟨.QUE_TEN_CMD_ABORT, 46, 32, .wo, 0x0, NONE⟩
def QUE_TEN_CMD_ABORT_TAG : Field := ⟨.QUE_TEN_CMD_ABORT, 31, 0, .wo, 0x0, NONE⟩
def QUE_TEN_KILLS_COUNT : Field := ⟨.QUE_TEN_KILLS, 63, 0, .rs, 0x0, PMT⟩
/-! TEN registers (chapter Tenancies). -/
def TEN_CMD_ACTION : Field := ⟨.TEN_CMD, 31, 30, .wo, 0x0, NONE⟩
def TEN_CMD_TENANCY : Field := ⟨.TEN_CMD, 6, 0, .wo, 0x0, NONE⟩
def TEN_CMD_STATUS_BUSY : Field := ⟨.TEN_CMD_STATUS, 31, 31, .ro, 0x0, PM⟩
def TEN_CMD_STATUS_RESULT : Field := ⟨.TEN_CMD_STATUS, 11, 8, .ro, 0x0, PM⟩
def TEN_CMD_STATUS_TENANCY : Field := ⟨.TEN_CMD_STATUS, 6, 0, .ro, 0x0, PM⟩
def TEN_SCRUB_SHARE_SHARE : Field := ⟨.TEN_SCRUB_SHARE, 9, 0, .rw, 0xfa, PM⟩
def TEN_GRANT_GRANT_N : Field := ⟨.TEN_GRANT, 63, 32, .pw, 0xffffffff, PM⟩
def TEN_GRANT_VF : Field := ⟨.TEN_GRANT, 14, 8, .pw, 0x0, PM⟩
def TEN_GRANT_CLUSTERS : Field := ⟨.TEN_GRANT, 6, 0, .pw, 0x0, PM⟩
def TEN_HOLD_HOLD_N : Field := ⟨.TEN_HOLD, 63, 32, .pw, 0xffffffff, PM⟩
def TEN_HOLD_HOLD_BANKS : Field := ⟨.TEN_HOLD, 14, 0, .pw, 0x0, PM⟩
def TEN_DRAM_DRAM_N : Field := ⟨.TEN_DRAM, 63, 32, .pw, 0xffffffff, PM⟩
def TEN_DRAM_DRAM_FRAMES : Field := ⟨.TEN_DRAM, 22, 0, .pw, 0x0, PM⟩
def TEN_RINGS_RINGS_N : Field := ⟨.TEN_RINGS, 63, 32, .pw, 0xffffffff, PM⟩
def TEN_RINGS_RING_COUNT : Field := ⟨.TEN_RINGS, 30, 15, .pw, 0x0, PM⟩
def TEN_RINGS_RING_FIRST : Field := ⟨.TEN_RINGS, 14, 0, .pw, 0x0, PM⟩
def TEN_LAT_TOL_LAT_N : Field := ⟨.TEN_LAT_TOL, 63, 32, .pw, 0xffffffff, PM⟩
def TEN_LAT_TOL_LAT_TOL_US : Field := ⟨.TEN_LAT_TOL, 31, 0, .pw, 0x0, PM⟩
def TEN_STATUS_GRANT_PENDING : Field := ⟨.TEN_STATUS, 3, 3, .ro, 0x0, PM⟩
def TEN_STATUS_FROZEN : Field := ⟨.TEN_STATUS, 2, 2, .ro, 0x0, PM⟩
def TEN_STATUS_STATE : Field := ⟨.TEN_STATUS, 1, 0, .ro, 0x0, PM⟩
def TEN_VIOLATION_LAST_BLOCK : Field := ⟨.TEN_VIOLATION, 63, 56, .ro, 0x0, PM⟩
def TEN_VIOLATION_COUNT : Field := ⟨.TEN_VIOLATION, 31, 0, .ro, 0x0, PM⟩
/-! LDG registers (chapter Tenancies). -/
def LDG_CTL_INTERVAL : Field := ⟨.LDG_CTL, 11, 0, .rw, 0x3c, PM⟩
def LDG_RING_VALID : Field := ⟨.LDG_RING, 15, 15, .rw, 0x0, PM⟩
def LDG_RING_RING : Field := ⟨.LDG_RING, 14, 0, .rw, 0x0, PM⟩
def LDG_MEASURED_MJ : Field := ⟨.LDG_MEASURED, 63, 0, .rs, 0x0, P⟩
def LDG_BACKLOG_RECORDS : Field := ⟨.LDG_BACKLOG, 9, 0, .ro, 0x0, PM⟩
def LDG_COEF_VALUE : Field := ⟨.LDG_COEF, 31, 0, .ro, 0x0, PM⟩
/-! PMC registers (chapter Tenancies). -/
def PMC_CTL_FREEZE : Field := ⟨.PMC_CTL, 0, 0, .rw, 0x0, PM⟩
def PMC_SEL_OWNER : Field := ⟨.PMC_SEL, 31, 25, .rw, 0x0, PM⟩
def PMC_SEL_BAD : Field := ⟨.PMC_SEL, 24, 24, .ro, 0x0, PMFT⟩
def PMC_SEL_FILTER_EN : Field := ⟨.PMC_SEL, 23, 23, .rw, 0x0, PM⟩
def PMC_SEL_TENANCY : Field := ⟨.PMC_SEL, 22, 16, .rw, 0x0, PM⟩
def PMC_SEL_EVENT : Field := ⟨.PMC_SEL, 15, 0, .rw, 0x0, PMFT⟩
def PMC_CNT_COUNT : Field := ⟨.PMC_CNT, 63, 0, .rs, 0x0, PMFT⟩
/-! DMA registers (chapter Ferries). -/
def DMA_TIMEOUT_US : Field := ⟨.DMA_TIMEOUT, 31, 0, .rw, 0x2710, PM⟩
def DMA_CH_CFG_VALID : Field := ⟨.DMA_CH_CFG, 31, 31, .ro, 0x0, PMFT⟩
def DMA_CH_CFG_TENANCY : Field := ⟨.DMA_CH_CFG, 21, 15, .ro, 0x0, PMFT⟩
def DMA_CH_CFG_RING : Field := ⟨.DMA_CH_CFG, 14, 0, .ro, 0x0, PMFT⟩
def DMA_CH_CTL_ACTION : Field := ⟨.DMA_CH_CTL, 2, 0, .wo, 0x0, NONE⟩
def DMA_CH_STATUS_STATE : Field := ⟨.DMA_CH_STATUS, 2, 0, .ro, 0x0, PMFT⟩
def DMA_CH_DONE_BYTES : Field := ⟨.DMA_CH_DONE, 36, 0, .rs, 0x0, PMFT⟩
def DMA_CH_ERR_ADDR_ADDR : Field := ⟨.DMA_CH_ERR_ADDR, 47, 0, .ro, 0x0, PMFT⟩
def DMA_CH_ERR_INFO_STATUS : Field := ⟨.DMA_CH_ERR_INFO, 31, 24, .ro, 0x0, PMFT⟩
def DMA_CH_ERR_INFO_KIND : Field := ⟨.DMA_CH_ERR_INFO, 23, 20, .ro, 0x0, PMFT⟩
def DMA_CH_ERR_INFO_DIR : Field := ⟨.DMA_CH_ERR_INFO, 19, 19, .ro, 0x0, PMFT⟩
def DMA_CH_ERR_INFO_REMOTE : Field := ⟨.DMA_CH_ERR_INFO, 18, 18, .ro, 0x0, PMFT⟩
def DMA_CH_BYTES_BYTES : Field := ⟨.DMA_CH_BYTES, 63, 0, .rs, 0x0, PMFT⟩
def DMA_TEN_LIMITS_CHANNELS : Field := ⟨.DMA_TEN_LIMITS, 9, 0, .rw, 0x10, PMT⟩
/-! ERR registers (chapter Integrity). -/
def ERR_STATUS_KINDS : Field := ⟨.ERR_STATUS, 31, 0, .w1c, 0x0, PM⟩
def ERR_FIRST_INFO0_VALID : Field := ⟨.ERR_FIRST_INFO0, 63, 63, .ro, 0x0, PM⟩
def ERR_FIRST_INFO0_INJECTED : Field := ⟨.ERR_FIRST_INFO0, 62, 62, .ro, 0x0, PM⟩
def ERR_FIRST_INFO0_KIND : Field := ⟨.ERR_FIRST_INFO0, 60, 56, .ro, 0x0, PM⟩
def ERR_FIRST_INFO0_TENANCY : Field := ⟨.ERR_FIRST_INFO0, 54, 48, .ro, 0x0, PM⟩
def ERR_FIRST_INFO0_LOCATION : Field := ⟨.ERR_FIRST_INFO0, 47, 0, .ro, 0x0, PM⟩
def ERR_FIRST_INFO1_TIME : Field := ⟨.ERR_FIRST_INFO1, 63, 0, .ro, 0x0, PM⟩
def ERR_COUNT_OVERFLOW : Field := ⟨.ERR_COUNT, 31, 31, .ro, 0x0, PM⟩
def ERR_COUNT_COUNT : Field := ⟨.ERR_COUNT, 15, 0, .ro, 0x0, PM⟩
def ERR_CLASS_WINDOW_US : Field := ⟨.ERR_CLASS_WINDOW, 31, 0, .rw, 0xf4240, PM⟩
def ERR_CLASS_THRESH_N : Field := ⟨.ERR_CLASS_THRESH, 15, 0, .rw, 0x10, PM⟩
def ERR_SEVERE_KINDS : Field := ⟨.ERR_SEVERE, 31, 0, .w1c, 0x0, PM⟩
def ERR_INT_EN_KINDS : Field := ⟨.ERR_INT_EN, 31, 0, .rw, 0x0, PM⟩
def ERR_VECTOR_EN : Field := ⟨.ERR_VECTOR, 31, 31, .rw, 0x0, PM⟩
def ERR_VECTOR_VECTOR : Field := ⟨.ERR_VECTOR, 10, 0, .rw, 0x0, PM⟩
def ERR_SEVERE_VECTOR_EN : Field := ⟨.ERR_SEVERE_VECTOR, 31, 31, .rw, 0x1, PM⟩
def ERR_SEVERE_VECTOR_VECTOR : Field := ⟨.ERR_SEVERE_VECTOR, 10, 0, .rw, 0x7ff, PM⟩
def ERR_ALIVE_STOP_KINDS : Field := ⟨.ERR_ALIVE_STOP, 31, 0, .rw, 0x0, PM⟩
def ERR_INJECT_INV_KINDS : Field := ⟨.ERR_INJECT_INV, 31, 0, .rw, 0x0, PM⟩
def ERR_CLEAR_COUNT : Field := ⟨.ERR_CLEAR, 1, 1, .wo, 0x0, NONE⟩
def ERR_CLEAR_FIRST : Field := ⟨.ERR_CLEAR, 0, 0, .wo, 0x0, NONE⟩
/-! INT registers (chapter Integrity). -/
def INT_CTL_SCRUB_EN : Field := ⟨.INT_CTL, 0, 0, .rw, 0x1, PM⟩
def INT_SCRUB_PERIOD_MS : Field := ⟨.INT_SCRUB_PERIOD, 31, 0, .rw, 0x3e8, PM⟩
def INT_SEVERE_SUMMARY_FAB : Field := ⟨.INT_SEVERE_SUMMARY, 32, 32, .ro, 0x0, PM⟩
def INT_SEVERE_SUMMARY_BLOCKS : Field := ⟨.INT_SEVERE_SUMMARY, 26, 0, .ro, 0x0, PM⟩
def INT_STATUS_SUMMARY_FAB : Field := ⟨.INT_STATUS_SUMMARY, 32, 32, .ro, 0x0, PM⟩
def INT_STATUS_SUMMARY_BLOCKS : Field := ⟨.INT_STATUS_SUMMARY, 26, 0, .ro, 0x0, PM⟩
def INT_FAB_SEVERE_CLUSTERS : Field := ⟨.INT_FAB_SEVERE, 63, 0, .ro, 0x0, PM⟩
def INT_EPOCH_OPEN_OPEN : Field := ⟨.INT_EPOCH_OPEN, 8, 0, .ro, 0x0, PM⟩
def INT_EPOCH_LAST_STATUS : Field := ⟨.INT_EPOCH_LAST, 63, 56, .ro, 0x0, PM⟩
def INT_EPOCH_LAST_FAULTS : Field := ⟨.INT_EPOCH_LAST, 55, 54, .ro, 0x0, PM⟩
def INT_EPOCH_LAST_TENANCY : Field := ⟨.INT_EPOCH_LAST, 53, 47, .ro, 0x0, PM⟩
def INT_EPOCH_LAST_CLUSTER : Field := ⟨.INT_EPOCH_LAST, 46, 40, .ro, 0x0, PM⟩
def INT_EPOCH_LAST_ROUTE_ID : Field := ⟨.INT_EPOCH_LAST, 31, 16, .ro, 0x0, PM⟩
def INT_EPOCH_LAST_DURATION : Field := ⟨.INT_EPOCH_LAST, 15, 0, .ro, 0x0, PM⟩
def INT_EPOCHS_COUNT : Field := ⟨.INT_EPOCHS, 63, 0, .rs, 0x0, PM⟩
def INT_SIG_COUNT_LOST : Field := ⟨.INT_SIG_COUNT, 31, 16, .ro, 0x0, PM⟩
def INT_SIG_COUNT_HELD : Field := ⟨.INT_SIG_COUNT, 6, 0, .ro, 0x0, PM⟩
def INT_SIG_SEL_POP : Field := ⟨.INT_SIG_SEL, 31, 31, .wo, 0x0, NONE⟩
def INT_SIG_SEL_INDEX : Field := ⟨.INT_SIG_SEL, 5, 0, .rw, 0x0, PM⟩
def INT_SIG_DATA_DATA : Field := ⟨.INT_SIG_DATA, 63, 0, .ro, 0x0, PM⟩
def INT_TWIN_MISMATCHES : Field := ⟨.INT_TWIN, 31, 16, .ro, 0x0, PMT⟩
def INT_TWIN_EN : Field := ⟨.INT_TWIN, 0, 0, .rw, 0x0, PMT⟩
/-! ALV registers (chapter Integrity). -/
def ALV_CTL_FORCE_STOP : Field := ⟨.ALV_CTL, 0, 0, .rw, 0x0, PM⟩
def ALV_STATUS_RUNNING : Field := ⟨.ALV_STATUS, 31, 31, .ro, 0x0, PM⟩
def ALV_STATUS_LEVEL : Field := ⟨.ALV_STATUS, 30, 30, .ro, 0x0, PM⟩
def ALV_STATUS_FORCED : Field := ⟨.ALV_STATUS, 29, 29, .ro, 0x0, PM⟩
def ALV_STATUS_CLOCK : Field := ⟨.ALV_STATUS, 28, 28, .ro, 0x0, PM⟩
def ALV_STATUS_SEVERE : Field := ⟨.ALV_STATUS, 27, 27, .ro, 0x0, PM⟩
def ALV_STATUS_BLOCK : Field := ⟨.ALV_STATUS, 23, 16, .ro, 0x0, PM⟩
def ALV_STATUS_CLUSTER : Field := ⟨.ALV_STATUS, 14, 8, .ro, 0x0, PM⟩
def ALV_STATUS_KIND : Field := ⟨.ALV_STATUS, 4, 0, .ro, 0x0, PM⟩
def ALV_STOPS_COUNT : Field := ⟨.ALV_STOPS, 63, 0, .rs, 0x0, P⟩
/-! CKP registers (chapter Checkpoints). -/
def CKP_TIMEOUT_US : Field := ⟨.CKP_TIMEOUT, 31, 0, .rw, 0x186a0, PM⟩
def CKP_TEN_BUDDY_VALID : Field := ⟨.CKP_TEN_BUDDY, 31, 31, .rw, 0x0, PMT⟩
def CKP_TEN_BUDDY_MODULE : Field := ⟨.CKP_TEN_BUDDY, 12, 0, .rw, 0x0, PMT⟩
def CKP_TEN_AREA_VA : Field := ⟨.CKP_TEN_AREA, 47, 0, .rw, 0x0, PMT⟩
def CKP_TEN_AREA_BYTES_SLOT_BYTES : Field := ⟨.CKP_TEN_AREA_BYTES, 39, 0, .rw, 0x0, PMT⟩
def CKP_TEN_STATUS_FAILED : Field := ⟨.CKP_TEN_STATUS, 63, 48, .ro, 0x0, PMT⟩
def CKP_TEN_STATUS_SKIPPED : Field := ⟨.CKP_TEN_STATUS, 47, 32, .ro, 0x0, PMT⟩
def CKP_TEN_STATUS_NEXT_SLOT : Field := ⟨.CKP_TEN_STATUS, 3, 3, .ro, 0x0, PMT⟩
def CKP_TEN_STATUS_PERIODIC : Field := ⟨.CKP_TEN_STATUS, 2, 2, .ro, 0x0, PMT⟩
def CKP_TEN_STATUS_STATE : Field := ⟨.CKP_TEN_STATUS, 1, 0, .ro, 0x0, PMT⟩
def CKP_TEN_GEN_VALUE : Field := ⟨.CKP_TEN_GEN, 63, 0, .rs, 0x0, PMT⟩
def CKP_TEN_SENT_GEN_VALUE : Field := ⟨.CKP_TEN_SENT_GEN, 63, 0, .rs, 0x0, PMT⟩
def CKP_TEN_SENT_STEP_VALUE : Field := ⟨.CKP_TEN_SENT_STEP, 63, 0, .rs, 0x0, PMT⟩
def CKP_TEN_HELD_GEN_VALUE : Field := ⟨.CKP_TEN_HELD_GEN, 63, 0, .rs, 0x0, PMT⟩
def CKP_TEN_HELD_STEP_VALUE : Field := ⟨.CKP_TEN_HELD_STEP, 63, 0, .rs, 0x0, PMT⟩
def CKP_TEN_HELD_MODULE_VALID : Field := ⟨.CKP_TEN_HELD_MODULE, 31, 31, .ro, 0x0, PMT⟩
def CKP_TEN_HELD_MODULE_MODULE : Field := ⟨.CKP_TEN_HELD_MODULE, 12, 0, .ro, 0x0, PMT⟩
def CKP_TEN_BYTES_COUNT : Field := ⟨.CKP_TEN_BYTES, 63, 0, .rs, 0x0, PMT⟩
def CKP_TEN_DISCARDS_COUNT : Field := ⟨.CKP_TEN_DISCARDS, 63, 0, .rs, 0x0, PMT⟩
def CKP_TEN_ALIAS_VALID : Field := ⟨.CKP_TEN_ALIAS, 63, 63, .rw, 0x0, PMT⟩
def CKP_TEN_ALIAS_TO : Field := ⟨.CKP_TEN_ALIAS, 44, 32, .rw, 0x0, PMT⟩
def CKP_TEN_ALIAS_FROM : Field := ⟨.CKP_TEN_ALIAS, 12, 0, .rw, 0x0, PMT⟩
/-! CLK registers (chapter Clocks). -/
def CLK_CTL_HOLD_EXIT : Field := ⟨.CLK_CTL, 2, 2, .wo, 0x0, NONE⟩
def CLK_CTL_RESELECT : Field := ⟨.CLK_CTL, 1, 1, .wo, 0x0, NONE⟩
def CLK_CTL_FAIL_POLICY : Field := ⟨.CLK_CTL, 0, 0, .rw, 0x0, PM⟩
def CLK_STATUS_TILE_STEP : Field := ⟨.CLK_STATUS, 5, 4, .ro, 0x0, PM⟩
def CLK_STATUS_HELD : Field := ⟨.CLK_STATUS, 3, 3, .ro, 0x0, PM⟩
def CLK_STATUS_PLL_LOCK : Field := ⟨.CLK_STATUS, 2, 2, .ro, 0x0, PM⟩
def CLK_STATUS_CRYSTAL_OK : Field := ⟨.CLK_STATUS, 1, 1, .ro, 0x0, PM⟩
def CLK_STATUS_SOURCE : Field := ⟨.CLK_STATUS, 0, 0, .ro, 0x1, PM⟩
def CLK_MON_GOOD_RUN : Field := ⟨.CLK_MON, 23, 16, .ro, 0x0, PM⟩
def CLK_MON_COUNT : Field := ⟨.CLK_MON, 10, 0, .ro, 0x0, PM⟩
/-! PWR registers (chapter Clocks). -/
def PWR_CTL_FORCE_S0 : Field := ⟨.PWR_CTL, 31, 31, .wo, 0x0, NONE⟩
def PWR_CTL_MAX_STATE : Field := ⟨.PWR_CTL, 6, 4, .rw, 0x4, PM⟩
def PWR_CTL_TILE_STEP_MAX : Field := ⟨.PWR_CTL, 1, 0, .rw, 0x0, PM⟩
def PWR_LAT_TOL_US : Field := ⟨.PWR_LAT_TOL, 31, 0, .rw, 0x2, PM⟩
def PWR_IDLE_DWELL_US : Field := ⟨.PWR_IDLE_DWELL, 31, 0, .rw, 0x32, PM⟩
def PWR_CAP_WATTS : Field := ⟨.PWR_CAP, 10, 0, .rw, 0x6a4, PM⟩
def PWR_THERMAL_HOTTEST_C : Field := ⟨.PWR_THERMAL, 23, 16, .ro, 0x0, PM⟩
def PWR_THERMAL_THROTTLE_C : Field := ⟨.PWR_THERMAL, 7, 0, .rw, 0x5f, PM⟩
def PWR_STATUS_INPUT_W : Field := ⟨.PWR_STATUS, 31, 16, .ro, 0x0, PM⟩
def PWR_STATUS_LIMIT : Field := ⟨.PWR_STATUS, 7, 4, .ro, 0x0, PM⟩
def PWR_STATUS_ENTERING : Field := ⟨.PWR_STATUS, 3, 3, .ro, 0x0, PM⟩
def PWR_STATUS_STATE : Field := ⟨.PWR_STATUS, 2, 0, .ro, 0x0, PM⟩
def PWR_ENTRIES_COUNT : Field := ⟨.PWR_ENTRIES, 63, 0, .rs, 0x0, PM⟩
/-! RTC registers (chapter Clocks). -/
def RTC_SECONDS_SECONDS : Field := ⟨.RTC_SECONDS, 63, 0, .rs, 0x0, P⟩
def RTC_FRAC_FRAC : Field := ⟨.RTC_FRAC, 14, 0, .ro, 0x0, P⟩
def RTC_SET_SECONDS_SECONDS : Field := ⟨.RTC_SET_SECONDS, 63, 0, .rw, 0x0, P⟩
def RTC_SET_FRAC_FRAC : Field := ⟨.RTC_SET_FRAC, 14, 0, .rw, 0x0, P⟩
def RTC_CTL_LOAD : Field := ⟨.RTC_CTL, 0, 0, .wo, 0x0, NONE⟩
def RTC_STATUS_ON_BATTERY : Field := ⟨.RTC_STATUS, 2, 2, .ro, 0x0, NONE⟩
def RTC_STATUS_OSC_FAIL : Field := ⟨.RTC_STATUS, 1, 1, .ro, 0x0, P⟩
def RTC_STATUS_VALID : Field := ⟨.RTC_STATUS, 0, 0, .ro, 0x0, NONE⟩
/-! GLB registers (chapter Clocks). -/
def GLB_ID_VENDOR : Field := ⟨.GLB_ID, 63, 48, .ro, 0x0, NONE⟩
def GLB_ID_PART : Field := ⟨.GLB_ID, 47, 32, .ro, 0x0, NONE⟩
def GLB_ID_STEPPING : Field := ⟨.GLB_ID, 31, 16, .ro, 0x0, NONE⟩
def GLB_SERIAL_SERIAL : Field := ⟨.GLB_SERIAL, 63, 0, .ro, 0x0, NONE⟩
def GLB_CTL_KEY : Field := ⟨.GLB_CTL, 31, 16, .wo, 0x0, NONE⟩
def GLB_CTL_RESET : Field := ⟨.GLB_CTL, 0, 0, .wo, 0x0, NONE⟩
def GLB_STATUS_READY : Field := ⟨.GLB_STATUS, 31, 31, .ro, 0x0, PM⟩
def GLB_STATUS_TEST_MODE : Field := ⟨.GLB_STATUS, 30, 30, .ro, 0x0, P⟩
def GLB_STATUS_PHASE : Field := ⟨.GLB_STATUS, 2, 0, .ro, 0x0, PM⟩
def GLB_MODULE_VALID : Field := ⟨.GLB_MODULE, 31, 31, .ro, 0x0, PM⟩
def GLB_MODULE_MODULE : Field := ⟨.GLB_MODULE, 12, 0, .ro, 0x0, PM⟩
def GLB_RESET_CAUSE_PF_FLR : Field := ⟨.GLB_RESET_CAUSE, 3, 3, .ro, 0x0, P⟩
def GLB_RESET_CAUSE_REGISTER : Field := ⟨.GLB_RESET_CAUSE, 2, 2, .ro, 0x0, P⟩
def GLB_RESET_CAUSE_PIN : Field := ⟨.GLB_RESET_CAUSE, 1, 1, .ro, 0x0, P⟩
def GLB_RESET_CAUSE_POWER_ON : Field := ⟨.GLB_RESET_CAUSE, 0, 0, .ro, 0x1, P⟩
/-! SBD registers (chapter Sideband). -/
def SBD_ADDR_ASSIGNED : Field := ⟨.SBD_ADDR, 7, 7, .ro, 0x0, P⟩
def SBD_ADDR_ADDRESS : Field := ⟨.SBD_ADDR, 6, 0, .ro, 0x5b, P⟩
def SBD_CTL_ALERT_EN : Field := ⟨.SBD_CTL, 2, 2, .rw, 0x1, PM⟩
def SBD_CTL_PEC_REQUIRED : Field := ⟨.SBD_CTL, 1, 1, .rw, 0x1, PM⟩
def SBD_CTL_WRITE_EN : Field := ⟨.SBD_CTL, 0, 0, .rw, 0x1, PM⟩
def SBD_EVENTS_PEC_FAILS : Field := ⟨.SBD_EVENTS, 63, 48, .ro, 0x0, PM⟩
def SBD_EVENTS_BAD_COMMANDS : Field := ⟨.SBD_EVENTS, 47, 32, .ro, 0x0, PM⟩
def SBD_EVENTS_TIMEOUTS : Field := ⟨.SBD_EVENTS, 31, 16, .ro, 0x0, PM⟩
def SBD_EVENTS_STUCK_RELEASES : Field := ⟨.SBD_EVENTS, 15, 0, .ro, 0x0, PM⟩
def SBD_LOCAL_STATUS_RETRIES : Field := ⟨.SBD_LOCAL_STATUS, 31, 16, .ro, 0x0, P⟩
def SBD_LOCAL_STATUS_FRONT_END_OK : Field := ⟨.SBD_LOCAL_STATUS, 15, 15, .ro, 0x0, P⟩
def SBD_LOCAL_STATUS_DEVICE : Field := ⟨.SBD_LOCAL_STATUS, 6, 0, .ro, 0x0, P⟩
/-! PMC registers (chapter Tenancies). -/
def PMC_EN_ENABLE : Field := ⟨.PMC_EN, 0, 0, .rw, 0x0, PMFT⟩

end Fld

end Sys2Proof.Machine

namespace Sys2Proof

open Machine

/-- The fields of each register, high bits first. -/
def RegId.fields : RegId → List Field
  | .FAB_CL_STATUS => [Fld.FAB_CL_STATUS_STATE, Fld.FAB_CL_STATUS_SPAN_SHAPE, Fld.FAB_CL_STATUS_ROLE, Fld.FAB_CL_STATUS_AT_BOUNDARY, Fld.FAB_CL_STATUS_SPARES_LEFT, Fld.FAB_CL_STATUS_TENANCY]
  | .FAB_CL_ASSIGN => [Fld.FAB_CL_ASSIGN_ASSIGN_N, Fld.FAB_CL_ASSIGN_LOGICAL, Fld.FAB_CL_ASSIGN_VALID, Fld.FAB_CL_ASSIGN_TENANCY]
  | .FAB_CL_CTL => [Fld.FAB_CL_CTL_RETIRE, Fld.FAB_CL_CTL_CLEAR_FIELD_REPAIR, Fld.FAB_CL_CTL_FAIL_SITE, Fld.FAB_CL_CTL_FAIL_OFFSET, Fld.FAB_CL_CTL_FAIL_ROW]
  | .FAB_CL_STEP => [Fld.FAB_CL_STEP_STEP]
  | .FAB_CL_BUSY => [Fld.FAB_CL_BUSY_BUSY]
  | .FAB_SITE_FAULT => [Fld.FAB_SITE_FAULT_VALID, Fld.FAB_SITE_FAULT_KIND, Fld.FAB_SITE_FAULT_OFFSET, Fld.FAB_SITE_FAULT_ROW]
  | .FAB_ROW_MAP => [Fld.FAB_ROW_MAP_MAP_N, Fld.FAB_ROW_MAP_RETIRED_BY_ROW, Fld.FAB_ROW_MAP_SPARE_BAD, Fld.FAB_ROW_MAP_FACTORY, Fld.FAB_ROW_MAP_SECOND_AT, Fld.FAB_ROW_MAP_SHIFT_AT]
  | .DCK_CTL => [Fld.DCK_CTL_REROUTE_EN]
  | .DCK_STALL_LIMIT => [Fld.DCK_STALL_LIMIT_LIMIT]
  | .DCK_ISO_DROP => [Fld.DCK_ISO_DROP_COUNT]
  | .DCK_EDGE_DROP => [Fld.DCK_EDGE_DROP_COUNT]
  | .DCK_BRIDGE_STATUS => [Fld.DCK_BRIDGE_STATUS_CH_OK]
  | .PLC_CTL => [Fld.PLC_CTL_DEFRAG_EN, Fld.PLC_CTL_STEAL_EN, Fld.PLC_CTL_BAL_EN]
  | .PLC_BAL_PERIOD => [Fld.PLC_BAL_PERIOD_PERIOD]
  | .PLC_BAL_HOLD => [Fld.PLC_BAL_HOLD_HOLD]
  | .PLC_MEASURE => [Fld.PLC_MEASURE_STEPS]
  | .PLC_REBAL_GAIN => [Fld.PLC_REBAL_GAIN_GAIN]
  | .PLC_SLOW_LIMIT => [Fld.PLC_SLOW_LIMIT_LIMIT]
  | .PLC_MOVES => [Fld.PLC_MOVES_COUNT]
  | .PLC_STEALS => [Fld.PLC_STEALS_COUNT]
  | .PLC_TEN_CTL => [Fld.PLC_TEN_CTL_MIGRATE_OK, Fld.PLC_TEN_CTL_DEFRAG_OK, Fld.PLC_TEN_CTL_STEAL_EN, Fld.PLC_TEN_CTL_BAL_EN]
  | .PLC_TEN_BAL => [Fld.PLC_TEN_BAL_BACKLOG_MIN, Fld.PLC_TEN_BAL_BAL_HIGH, Fld.PLC_TEN_BAL_BAL_LOW]
  | .PLC_TEN_FOREIGN => [Fld.PLC_TEN_FOREIGN_F]
  | .PLC_TEN_SLOWDOWN => [Fld.PLC_TEN_SLOWDOWN_BAL_BLOCKED, Fld.PLC_TEN_SLOWDOWN_SLOWDOWN]
  | .PLC_TEN_CLUSTERS => [Fld.PLC_TEN_CLUSTERS_IDLE, Fld.PLC_TEN_CLUSTERS_LEARNING, Fld.PLC_TEN_CLUSTERS_GENERATION, Fld.PLC_TEN_CLUSTERS_GRANTED]
  | .PLC_ROUTE => [Fld.PLC_ROUTE_CLUSTERS, Fld.PLC_ROUTE_ROUTE_ID, Fld.PLC_ROUTE_ROLE, Fld.PLC_ROUTE_STATE, Fld.PLC_ROUTE_TENANCY]
  | .WGT_SWAP_TIMEOUT => [Fld.WGT_SWAP_TIMEOUT_TIMEOUT]
  | .WGT_STAGED => [Fld.WGT_STAGED_BYTES]
  | .WGT_TEN_BERTH => [Fld.WGT_TEN_BERTH_COUNT, Fld.WGT_TEN_BERTH_BASE]
  | .WGT_TEN_BERTH_BYTES => [Fld.WGT_TEN_BERTH_BYTES_BYTES]
  | .WGT_MISS_POLICY => [Fld.WGT_MISS_POLICY_POLICY]
  | .WGT_LAYER_DEADLINE => [Fld.WGT_LAYER_DEADLINE_CYCLES]
  | .WGT_TEN_WINDOW => [Fld.WGT_TEN_WINDOW_LEAD, Fld.WGT_TEN_WINDOW_PRESTAGE, Fld.WGT_TEN_WINDOW_DEPTH]
  | .WGT_TEN_VERSION => [Fld.WGT_TEN_VERSION_SWAPS, Fld.WGT_TEN_VERSION_FIXED, Fld.WGT_TEN_VERSION_LOADED, Fld.WGT_TEN_VERSION_QUEUED, Fld.WGT_TEN_VERSION_TRAVEL, Fld.WGT_TEN_VERSION_ACTIVE]
  | .WGT_TEN_FRONT_STEP => [Fld.WGT_TEN_FRONT_STEP_S]
  | .WGT_TEN_MISSES => [Fld.WGT_TEN_MISSES_COUNT]
  | .WGT_TEN_LEAN_STEPS => [Fld.WGT_TEN_LEAN_STEPS_COUNT]
  | .WGT_TEN_TOLL_CYCLES => [Fld.WGT_TEN_TOLL_CYCLES_CYCLES]
  | .WGT_TEN_STATUS => [Fld.WGT_TEN_STATUS_FREE_BERTHS, Fld.WGT_TEN_STATUS_LAYERS]
  | .WBL_CTL => [Fld.WBL_CTL_SCHED_HOLD]
  | .WBL_AGE_STEP => [Fld.WBL_AGE_STEP_STEP]
  | .WBL_AGE_LIMIT => [Fld.WBL_AGE_LIMIT_LIMIT]
  | .WBL_URGENT_MARGIN => [Fld.WBL_URGENT_MARGIN_MARGIN]
  | .WBL_FREE => [Fld.WBL_FREE_FREE]
  | .WBL_PEEK_SEL => [Fld.WBL_PEEK_SEL_WAYBILL]
  | .WBL_PEEK_DATA => [Fld.WBL_PEEK_DATA_DATA]
  | .WBL_TEN_LIMITS => [Fld.WBL_TEN_LIMITS_URGENT_SLOTS, Fld.WBL_TEN_LIMITS_MAX_WAYBILLS]
  | .WBL_TEN_BUDGET => [Fld.WBL_TEN_BUDGET_SEQS, Fld.WBL_TEN_BUDGET_TOKENS]
  | .WBL_TEN_PREFILL => [Fld.WBL_TEN_PREFILL_CHUNK, Fld.WBL_TEN_PREFILL_PREFILL_MAX]
  | .WBL_TEN_KV => [Fld.WBL_TEN_KV_HEADS, Fld.WBL_TEN_KV_PAGES_LOG2, Fld.WBL_TEN_KV_SLOTS]
  | .WBL_TEN_RAGGED => [Fld.WBL_TEN_RAGGED_VA]
  | .WBL_TEN_RESULT => [Fld.WBL_TEN_RESULT_VA]
  | .WBL_TEN_CTL => [Fld.WBL_TEN_CTL_DEPTH, Fld.WBL_TEN_CTL_EVICT_EN]
  | .WBL_TEN_GROUP => [Fld.WBL_TEN_GROUP_LEADER, Fld.WBL_TEN_GROUP_GROUP]
  | .WBL_TEN_ACTION => [Fld.WBL_TEN_ACTION_ACTION, Fld.WBL_TEN_ACTION_WAYBILL]
  | .WBL_TEN_COUNTS => [Fld.WBL_TEN_COUNTS_URGENT, Fld.WBL_TEN_COUNTS_ACTIVE, Fld.WBL_TEN_COUNTS_QUEUED]
  | .WBL_TEN_TOKENS => [Fld.WBL_TEN_TOKENS_COUNT]
  | .WBL_TEN_STEP => [Fld.WBL_TEN_STEP_STEP]
  | .WBL_TEN_WAITS => [Fld.WBL_TEN_WAITS_DEADLINE_MISS, Fld.WBL_TEN_WAITS_EVICTIONS, Fld.WBL_TEN_WAITS_CVN_WAIT, Fld.WBL_TEN_WAITS_KV_WAIT]
  | .CVN_STALL_LIMIT => [Fld.CVN_STALL_LIMIT_LIMIT]
  | .CVN_RING_BASE => [Fld.CVN_RING_BASE_VA]
  | .CVN_RING_CFG => [Fld.CVN_RING_CFG_RING, Fld.CVN_RING_CFG_ENABLE, Fld.CVN_RING_CFG_TENANCY, Fld.CVN_RING_CFG_LEARN_EN, Fld.CVN_RING_CFG_REWARD_MODE, Fld.CVN_RING_CFG_SIZE_LOG2]
  | .CVN_RING_PTRS => [Fld.CVN_RING_PTRS_RELEASE, Fld.CVN_RING_PTRS_WRITE]
  | .CVN_RING_STATE => [Fld.CVN_RING_STATE_RESERVED, Fld.CVN_RING_STATE_PINS, Fld.CVN_RING_STATE_FAULT]
  | .CVN_RING_CONSUME => [Fld.CVN_RING_CONSUME_SLOT]
  | .CVN_TEN_STATUS => [Fld.CVN_TEN_STATUS_REJECTS, Fld.CVN_TEN_STATUS_FILL]
  | .LRN_CTL => [Fld.LRN_CTL_BUILD_HOLD]
  | .LRN_TEN_BATCH => [Fld.LRN_TEN_BATCH_VA]
  | .LRN_TEN_SLOT => [Fld.LRN_TEN_SLOT_SLOT_LOG2, Fld.LRN_TEN_SLOT_DEPTH]
  | .LRN_TEN_LIMITS => [Fld.LRN_TEN_LIMITS_BATCH_TOKENS, Fld.LRN_TEN_LIMITS_BATCH_SEQS, Fld.LRN_TEN_LIMITS_MB_TOKENS]
  | .LRN_TEN_WAIT => [Fld.LRN_TEN_WAIT_WAIT]
  | .LRN_TEN_MIN => [Fld.LRN_TEN_MIN_MIN_TOKENS]
  | .LRN_TEN_SCHED_VA => [Fld.LRN_TEN_SCHED_VA_VA]
  | .LRN_TEN_SCHED_CTL => [Fld.LRN_TEN_SCHED_CTL_CHUNKS, Fld.LRN_TEN_SCHED_CTL_REF_EN, Fld.LRN_TEN_SCHED_CTL_MODE]
  | .LRN_TEN_SCHED_LEN => [Fld.LRN_TEN_SCHED_LEN_ENTRIES]
  | .LRN_TEN_LAG => [Fld.LRN_TEN_LAG_ACTION, Fld.LRN_TEN_LAG_MAX_LAG]
  | .LRN_TEN_GRAD_ADDR => [Fld.LRN_TEN_GRAD_ADDR_TIER, Fld.LRN_TEN_GRAD_ADDR_ADDR]
  | .LRN_TEN_GRAD_LEN => [Fld.LRN_TEN_GRAD_LEN_ZERO_EN, Fld.LRN_TEN_GRAD_LEN_BYTES]
  | .LRN_TEN_STEP => [Fld.LRN_TEN_STEP_STEP]
  | .LRN_TEN_SEQS => [Fld.LRN_TEN_SEQS_COUNT]
  | .LRN_TEN_ROWS => [Fld.LRN_TEN_ROWS_COUNT]
  | .LRN_TEN_DROPS => [Fld.LRN_TEN_DROPS_GATHER_FAULTS, Fld.LRN_TEN_DROPS_BAD_RECORDS, Fld.LRN_TEN_DROPS_ERROR_ENDS, Fld.LRN_TEN_DROPS_LAG_DROPS]
  | .LRN_TEN_IDLE => [Fld.LRN_TEN_IDLE_US]
  | .MEM_CTL => [Fld.MEM_CTL_BORROW_EN, Fld.MEM_CTL_PATROL_EN]
  | .MEM_CH_CTL => [Fld.MEM_CH_CTL_MAP_OUT, Fld.MEM_CH_CTL_CHANNEL]
  | .MEM_CH_UE_LIMIT => [Fld.MEM_CH_UE_LIMIT_LIMIT]
  | .MEM_PATROL => [Fld.MEM_PATROL_HOURS]
  | .MEM_SKEW_LIMIT => [Fld.MEM_SKEW_LIMIT_LIMIT]
  | .MEM_SKEW_WINDOW => [Fld.MEM_SKEW_WINDOW_US]
  | .MEM_SKEW_MIN => [Fld.MEM_SKEW_MIN_MIB]
  | .MEM_MIG_STALL => [Fld.MEM_MIG_STALL_US]
  | .MEM_MIG_MAX => [Fld.MEM_MIG_MAX_MIB]
  | .MEM_CH_STATUS => [Fld.MEM_CH_STATUS_UE, Fld.MEM_CH_STATUS_STATE, Fld.MEM_CH_STATUS_CE]
  | .MEM_TEN_BUCKET => [Fld.MEM_TEN_BUCKET_BURST, Fld.MEM_TEN_BUCKET_SHARE]
  | .MEM_TEN_BYTES => [Fld.MEM_TEN_BYTES_BYTES]
  | .MEM_TEN_THROTTLE => [Fld.MEM_TEN_THROTTLE_NS]
  | .MEM_TEN_KEYS => [Fld.MEM_TEN_KEYS_MIGRATIONS, Fld.MEM_TEN_KEYS_IN_USE, Fld.MEM_TEN_KEYS_CURRENT]
  | .HLD_SCRUB_PERIOD => [Fld.HLD_SCRUB_PERIOD_SECONDS]
  | .HLD_RETIRE_CE => [Fld.HLD_RETIRE_CE_LIMIT]
  | .HLD_FREE_BANKS => [Fld.HLD_FREE_BANKS_FREE]
  | .HLD_MAP_SEL => [Fld.HLD_MAP_SEL_ENTRY]
  | .HLD_MAP_DATA => [Fld.HLD_MAP_DATA_ENTRY_N, Fld.HLD_MAP_DATA_VALID, Fld.HLD_MAP_DATA_BANK]
  | .HLD_BANK_SEL => [Fld.HLD_BANK_SEL_BANK]
  | .HLD_BANK_INFO => [Fld.HLD_BANK_INFO_STATE, Fld.HLD_BANK_INFO_CE, Fld.HLD_BANK_INFO_ENTRY]
  | .HLD_TEN_EXT => [Fld.HLD_TEN_EXT_EXT_N, Fld.HLD_TEN_EXT_COUNT, Fld.HLD_TEN_EXT_TBANK_FIRST]
  | .HLD_TEN_EXT_RUN => [Fld.HLD_TEN_EXT_RUN_RUN_N, Fld.HLD_TEN_EXT_RUN_VALID, Fld.HLD_TEN_EXT_RUN_READ_ONLY, Fld.HLD_TEN_EXT_RUN_TABLE_FIRST]
  | .XLT_POOL_FREE => [Fld.XLT_POOL_FREE_FRAMES]
  | .XLT_TEN_ROOT => [Fld.XLT_TEN_ROOT_ROOT_N, Fld.XLT_TEN_ROOT_ENABLE, Fld.XLT_TEN_ROOT_FRAME]
  | .XLT_TEN_ALLOC_REQ => [Fld.XLT_TEN_ALLOC_REQ_DIE, Fld.XLT_TEN_ALLOC_REQ_NEAR, Fld.XLT_TEN_ALLOC_REQ_SIZE]
  | .XLT_TEN_ALLOC_RESULT => [Fld.XLT_TEN_ALLOC_RESULT_VALID, Fld.XLT_TEN_ALLOC_RESULT_FAIL, Fld.XLT_TEN_ALLOC_RESULT_FRAME]
  | .XLT_TEN_FREE => [Fld.XLT_TEN_FREE_SIZE, Fld.XLT_TEN_FREE_FRAME]
  | .XLT_TEN_INVAL => [Fld.XLT_TEN_INVAL_COUNT, Fld.XLT_TEN_INVAL_VA]
  | .XLT_TEN_INVAL_DONE => [Fld.XLT_TEN_INVAL_DONE_COUNT]
  | .XLT_TEN_FRAMES => [Fld.XLT_TEN_FRAMES_FRAMES]
  | .XLT_TEN_FAULT => [Fld.XLT_TEN_FAULT_KIND, Fld.XLT_TEN_FAULT_VA]
  | .RNG_CTL => [Fld.RNG_CTL_SELFTEST_EN]
  | .RNG_SELFTEST_PERIOD => [Fld.RNG_SELFTEST_PERIOD_MS]
  | .RNG_KAT_KEY => [Fld.RNG_KAT_KEY_K1, Fld.RNG_KAT_KEY_K0]
  | .RNG_KAT_CTR => [Fld.RNG_KAT_CTR_HIGH, Fld.RNG_KAT_CTR_LOW]
  | .RNG_KAT_CTL => [Fld.RNG_KAT_CTL_GO, Fld.RNG_KAT_CTL_DONE]
  | .RNG_KAT_OUT => [Fld.RNG_KAT_OUT_HIGH, Fld.RNG_KAT_OUT_LOW]
  | .RNG_ENTROPY_STATUS => [Fld.RNG_ENTROPY_STATUS_FAILS, Fld.RNG_ENTROPY_STATUS_HEALTHY]
  | .VIA_DISC_STATUS => [Fld.VIA_DISC_STATUS_DONE, Fld.VIA_DISC_STATUS_CONFLICT, Fld.VIA_DISC_STATUS_Z, Fld.VIA_DISC_STATUS_Y, Fld.VIA_DISC_STATUS_X, Fld.VIA_DISC_STATUS_MODULE]
  | .VIA_DISC_CTL => [Fld.VIA_DISC_CTL_ORIGIN, Fld.VIA_DISC_CTL_DIM_Z_M1, Fld.VIA_DISC_CTL_DIM_Y_M1, Fld.VIA_DISC_CTL_DIM_X_M1]
  | .VIA_ROUTE_CTL => [Fld.VIA_ROUTE_CTL_HOP_LIMIT, Fld.VIA_ROUTE_CTL_DETOUR_EN]
  | .VIA_ISO_DROP => [Fld.VIA_ISO_DROP_COUNT]
  | .VIA_DETOURS => [Fld.VIA_DETOURS_COUNT]
  | .VIA_LOST => [Fld.VIA_LOST_COUNT]
  | .VIA_JOB => [Fld.VIA_JOB_JOB_N, Fld.VIA_JOB_VALID, Fld.VIA_JOB_JOB_ID]
  | .VIA_PORT_CTL => [Fld.VIA_PORT_CTL_DISABLE, Fld.VIA_PORT_CTL_RETRAIN, Fld.VIA_PORT_CTL_ALLOW_HALF, Fld.VIA_PORT_CTL_VLP_MAX]
  | .VIA_PORT_STATUS => [Fld.VIA_PORT_STATUS_STATE, Fld.VIA_PORT_STATUS_VLP, Fld.VIA_PORT_STATUS_DATA_LANES, Fld.VIA_PORT_STATUS_SYNC_LANES, Fld.VIA_PORT_STATUS_SPARES_LEFT, Fld.VIA_PORT_STATUS_RETRAIN_FAILS]
  | .VIA_PORT_PEER => [Fld.VIA_PORT_PEER_VALID, Fld.VIA_PORT_PEER_MISWIRE, Fld.VIA_PORT_PEER_FUBOIN, Fld.VIA_PORT_PEER_PEER_MODULE, Fld.VIA_PORT_PEER_PEER_PORT, Fld.VIA_PORT_PEER_PEER_SERIAL]
  | .VIA_PORT_LANES => [Fld.VIA_PORT_LANES_FAILED]
  | .VIA_PORT_SPARE_USE => [Fld.VIA_PORT_SPARE_USE_FOR_43, Fld.VIA_PORT_SPARE_USE_FOR_42]
  | .VIA_PORT_LANE_ERR_LIMIT => [Fld.VIA_PORT_LANE_ERR_LIMIT_LIMIT]
  | .VIA_PORT_TX_FLITS => [Fld.VIA_PORT_TX_FLITS_COUNT]
  | .VIA_PORT_RX_FLITS => [Fld.VIA_PORT_RX_FLITS_COUNT]
  | .VIA_PORT_REPLAYS => [Fld.VIA_PORT_REPLAYS_COUNT]
  | .VIA_PORT_RETRAINS => [Fld.VIA_PORT_RETRAINS_COUNT]
  | .VIA_PORT_FEC => [Fld.VIA_PORT_FEC_UNCORRECTED, Fld.VIA_PORT_FEC_CORRECTED]
  | .SYN_CTL => [Fld.SYN_CTL_TUNNEL_EN]
  | .SYN_BARRIERS_FREE => [Fld.SYN_BARRIERS_FREE_FREE]
  | .SYN_GROUP_OPS => [Fld.SYN_GROUP_OPS_COUNT]
  | .SYN_TEN_BARRIERS => [Fld.SYN_TEN_BARRIERS_LIMIT, Fld.SYN_TEN_BARRIERS_IN_USE]
  | .SYN_TEN_PENDING => [Fld.SYN_TEN_PENDING_OPS]
  | .COL_CTL => [Fld.COL_CTL_RESEND_EN]
  | .COL_TIMEOUT => [Fld.COL_TIMEOUT_US]
  | .COL_INSTANCES => [Fld.COL_INSTANCES_COUNT]
  | .COL_CRC_FAILS => [Fld.COL_CRC_FAILS_COUNT]
  | .COL_TEN_LIMITS => [Fld.COL_TEN_LIMITS_BOUND_MAX, Fld.COL_TEN_LIMITS_INFLIGHT_MAX]
  | .COL_TEN_ACTIVE => [Fld.COL_TEN_ACTIVE_BOUND, Fld.COL_TEN_ACTIVE_INFLIGHT]
  | .COL_TEN_SLOWEST => [Fld.COL_TEN_SLOWEST_WAIT, Fld.COL_TEN_SLOWEST_MODULE, Fld.COL_TEN_SLOWEST_RANK]
  | .COL_TEN_WAIT_NS => [Fld.COL_TEN_WAIT_NS_NS]
  | .COL_TEN_BYTES => [Fld.COL_TEN_BYTES_BYTES]
  | .COL_TEN_INSTANCES => [Fld.COL_TEN_INSTANCES_COUNT]
  | .HIF_HCP_REQ => [Fld.HIF_HCP_REQ_MAJOR, Fld.HIF_HCP_REQ_MINOR]
  | .HIF_HCP_VER => [Fld.HIF_HCP_VER_REFUSED, Fld.HIF_HCP_VER_VALID, Fld.HIF_HCP_VER_MAJOR, Fld.HIF_HCP_VER_MINOR]
  | .HIF_LINK_STATUS => [Fld.HIF_LINK_STATUS_FLIT, Fld.HIF_LINK_STATUS_WIDTH, Fld.HIF_LINK_STATUS_RATE]
  | .HIF_LTR => [Fld.HIF_LTR_SCALE, Fld.HIF_LTR_VALUE]
  | .HIF_NMI_STATUS => [Fld.HIF_NMI_STATUS_SEVERE, Fld.HIF_NMI_STATUS_CLOCK]
  | .HIF_VF_NOTICE => [Fld.HIF_VF_NOTICE_GRANT, Fld.HIF_VF_NOTICE_RESUMED, Fld.HIF_VF_NOTICE_SUSPENDED]
  | .HIF_TX_BYTES => [Fld.HIF_TX_BYTES_BYTES]
  | .HIF_RX_BYTES => [Fld.HIF_RX_BYTES_BYTES]
  | .HIF_ID => [Fld.HIF_ID_ID]
  | .QUE_RING_SEL => [Fld.QUE_RING_SEL_RING]
  | .QUE_RING_BASE => [Fld.QUE_RING_BASE_VA]
  | .QUE_RING_CFG => [Fld.QUE_RING_CFG_ENABLE, Fld.QUE_RING_CFG_STATE, Fld.QUE_RING_CFG_TYPE, Fld.QUE_RING_CFG_SIZE_LOG2, Fld.QUE_RING_CFG_PAIR, Fld.QUE_RING_CFG_PRIORITY, Fld.QUE_RING_CFG_QUANTUM, Fld.QUE_RING_CFG_VECTOR]
  | .QUE_RING_PTRS => [Fld.QUE_RING_PTRS_HEAD, Fld.QUE_RING_PTRS_TAIL]
  | .QUE_RING_INFO => [Fld.QUE_RING_INFO_CARAVAN, Fld.QUE_RING_INFO_TENANCY, Fld.QUE_RING_INFO_GLOBAL]
  | .QUE_AGE_STEP => [Fld.QUE_AGE_STEP_US]
  | .QUE_AGE_LIMIT => [Fld.QUE_AGE_LIMIT_US]
  | .QUE_PREEMPT => [Fld.QUE_PREEMPT_ACTION, Fld.QUE_PREEMPT_MODE, Fld.QUE_PREEMPT_TENANCY]
  | .QUE_TEN_CMD => [Fld.QUE_TEN_CMD_INFLIGHT, Fld.QUE_TEN_CMD_MAX_INFLIGHT]
  | .QUE_TEN_STATE => [Fld.QUE_TEN_STATE_URGENT_SLOTS, Fld.QUE_TEN_STATE_STATE]
  | .QUE_TEN_CMD_ABORT => [Fld.QUE_TEN_CMD_ABORT_RING, Fld.QUE_TEN_CMD_ABORT_TAG]
  | .QUE_TEN_KILLS => [Fld.QUE_TEN_KILLS_COUNT]
  | .TEN_CMD => [Fld.TEN_CMD_ACTION, Fld.TEN_CMD_TENANCY]
  | .TEN_CMD_STATUS => [Fld.TEN_CMD_STATUS_BUSY, Fld.TEN_CMD_STATUS_RESULT, Fld.TEN_CMD_STATUS_TENANCY]
  | .TEN_SCRUB_SHARE => [Fld.TEN_SCRUB_SHARE_SHARE]
  | .TEN_GRANT => [Fld.TEN_GRANT_GRANT_N, Fld.TEN_GRANT_VF, Fld.TEN_GRANT_CLUSTERS]
  | .TEN_HOLD => [Fld.TEN_HOLD_HOLD_N, Fld.TEN_HOLD_HOLD_BANKS]
  | .TEN_DRAM => [Fld.TEN_DRAM_DRAM_N, Fld.TEN_DRAM_DRAM_FRAMES]
  | .TEN_RINGS => [Fld.TEN_RINGS_RINGS_N, Fld.TEN_RINGS_RING_COUNT, Fld.TEN_RINGS_RING_FIRST]
  | .TEN_LAT_TOL => [Fld.TEN_LAT_TOL_LAT_N, Fld.TEN_LAT_TOL_LAT_TOL_US]
  | .TEN_STATUS => [Fld.TEN_STATUS_GRANT_PENDING, Fld.TEN_STATUS_FROZEN, Fld.TEN_STATUS_STATE]
  | .TEN_VIOLATION => [Fld.TEN_VIOLATION_LAST_BLOCK, Fld.TEN_VIOLATION_COUNT]
  | .LDG_CTL => [Fld.LDG_CTL_INTERVAL]
  | .LDG_RING => [Fld.LDG_RING_VALID, Fld.LDG_RING_RING]
  | .LDG_MEASURED => [Fld.LDG_MEASURED_MJ]
  | .LDG_BACKLOG => [Fld.LDG_BACKLOG_RECORDS]
  | .LDG_COEF => [Fld.LDG_COEF_VALUE]
  | .PMC_CTL => [Fld.PMC_CTL_FREEZE]
  | .PMC_SEL => [Fld.PMC_SEL_OWNER, Fld.PMC_SEL_BAD, Fld.PMC_SEL_FILTER_EN, Fld.PMC_SEL_TENANCY, Fld.PMC_SEL_EVENT]
  | .PMC_CNT => [Fld.PMC_CNT_COUNT]
  | .DMA_TIMEOUT => [Fld.DMA_TIMEOUT_US]
  | .DMA_CH_CFG => [Fld.DMA_CH_CFG_VALID, Fld.DMA_CH_CFG_TENANCY, Fld.DMA_CH_CFG_RING]
  | .DMA_CH_CTL => [Fld.DMA_CH_CTL_ACTION]
  | .DMA_CH_STATUS => [Fld.DMA_CH_STATUS_STATE]
  | .DMA_CH_DONE => [Fld.DMA_CH_DONE_BYTES]
  | .DMA_CH_ERR_ADDR => [Fld.DMA_CH_ERR_ADDR_ADDR]
  | .DMA_CH_ERR_INFO => [Fld.DMA_CH_ERR_INFO_STATUS, Fld.DMA_CH_ERR_INFO_KIND, Fld.DMA_CH_ERR_INFO_DIR, Fld.DMA_CH_ERR_INFO_REMOTE]
  | .DMA_CH_BYTES => [Fld.DMA_CH_BYTES_BYTES]
  | .DMA_TEN_LIMITS => [Fld.DMA_TEN_LIMITS_CHANNELS]
  | .ERR_STATUS => [Fld.ERR_STATUS_KINDS]
  | .ERR_FIRST_INFO0 => [Fld.ERR_FIRST_INFO0_VALID, Fld.ERR_FIRST_INFO0_INJECTED, Fld.ERR_FIRST_INFO0_KIND, Fld.ERR_FIRST_INFO0_TENANCY, Fld.ERR_FIRST_INFO0_LOCATION]
  | .ERR_FIRST_INFO1 => [Fld.ERR_FIRST_INFO1_TIME]
  | .ERR_COUNT => [Fld.ERR_COUNT_OVERFLOW, Fld.ERR_COUNT_COUNT]
  | .ERR_CLASS_WINDOW => [Fld.ERR_CLASS_WINDOW_US]
  | .ERR_CLASS_THRESH => [Fld.ERR_CLASS_THRESH_N]
  | .ERR_SEVERE => [Fld.ERR_SEVERE_KINDS]
  | .ERR_INT_EN => [Fld.ERR_INT_EN_KINDS]
  | .ERR_VECTOR => [Fld.ERR_VECTOR_EN, Fld.ERR_VECTOR_VECTOR]
  | .ERR_SEVERE_VECTOR => [Fld.ERR_SEVERE_VECTOR_EN, Fld.ERR_SEVERE_VECTOR_VECTOR]
  | .ERR_ALIVE_STOP => [Fld.ERR_ALIVE_STOP_KINDS]
  | .ERR_INJECT_INV => [Fld.ERR_INJECT_INV_KINDS]
  | .ERR_CLEAR => [Fld.ERR_CLEAR_COUNT, Fld.ERR_CLEAR_FIRST]
  | .INT_CTL => [Fld.INT_CTL_SCRUB_EN]
  | .INT_SCRUB_PERIOD => [Fld.INT_SCRUB_PERIOD_MS]
  | .INT_SEVERE_SUMMARY => [Fld.INT_SEVERE_SUMMARY_FAB, Fld.INT_SEVERE_SUMMARY_BLOCKS]
  | .INT_STATUS_SUMMARY => [Fld.INT_STATUS_SUMMARY_FAB, Fld.INT_STATUS_SUMMARY_BLOCKS]
  | .INT_FAB_SEVERE => [Fld.INT_FAB_SEVERE_CLUSTERS]
  | .INT_EPOCH_OPEN => [Fld.INT_EPOCH_OPEN_OPEN]
  | .INT_EPOCH_LAST => [Fld.INT_EPOCH_LAST_STATUS, Fld.INT_EPOCH_LAST_FAULTS, Fld.INT_EPOCH_LAST_TENANCY, Fld.INT_EPOCH_LAST_CLUSTER, Fld.INT_EPOCH_LAST_ROUTE_ID, Fld.INT_EPOCH_LAST_DURATION]
  | .INT_EPOCHS => [Fld.INT_EPOCHS_COUNT]
  | .INT_SIG_COUNT => [Fld.INT_SIG_COUNT_LOST, Fld.INT_SIG_COUNT_HELD]
  | .INT_SIG_SEL => [Fld.INT_SIG_SEL_POP, Fld.INT_SIG_SEL_INDEX]
  | .INT_SIG_DATA => [Fld.INT_SIG_DATA_DATA]
  | .INT_TWIN => [Fld.INT_TWIN_MISMATCHES, Fld.INT_TWIN_EN]
  | .ALV_CTL => [Fld.ALV_CTL_FORCE_STOP]
  | .ALV_STATUS => [Fld.ALV_STATUS_RUNNING, Fld.ALV_STATUS_LEVEL, Fld.ALV_STATUS_FORCED, Fld.ALV_STATUS_CLOCK, Fld.ALV_STATUS_SEVERE, Fld.ALV_STATUS_BLOCK, Fld.ALV_STATUS_CLUSTER, Fld.ALV_STATUS_KIND]
  | .ALV_STOPS => [Fld.ALV_STOPS_COUNT]
  | .CKP_TIMEOUT => [Fld.CKP_TIMEOUT_US]
  | .CKP_TEN_BUDDY => [Fld.CKP_TEN_BUDDY_VALID, Fld.CKP_TEN_BUDDY_MODULE]
  | .CKP_TEN_AREA => [Fld.CKP_TEN_AREA_VA]
  | .CKP_TEN_AREA_BYTES => [Fld.CKP_TEN_AREA_BYTES_SLOT_BYTES]
  | .CKP_TEN_STATUS => [Fld.CKP_TEN_STATUS_FAILED, Fld.CKP_TEN_STATUS_SKIPPED, Fld.CKP_TEN_STATUS_NEXT_SLOT, Fld.CKP_TEN_STATUS_PERIODIC, Fld.CKP_TEN_STATUS_STATE]
  | .CKP_TEN_GEN => [Fld.CKP_TEN_GEN_VALUE]
  | .CKP_TEN_SENT_GEN => [Fld.CKP_TEN_SENT_GEN_VALUE]
  | .CKP_TEN_SENT_STEP => [Fld.CKP_TEN_SENT_STEP_VALUE]
  | .CKP_TEN_HELD_GEN => [Fld.CKP_TEN_HELD_GEN_VALUE]
  | .CKP_TEN_HELD_STEP => [Fld.CKP_TEN_HELD_STEP_VALUE]
  | .CKP_TEN_HELD_MODULE => [Fld.CKP_TEN_HELD_MODULE_VALID, Fld.CKP_TEN_HELD_MODULE_MODULE]
  | .CKP_TEN_BYTES => [Fld.CKP_TEN_BYTES_COUNT]
  | .CKP_TEN_DISCARDS => [Fld.CKP_TEN_DISCARDS_COUNT]
  | .CKP_TEN_ALIAS => [Fld.CKP_TEN_ALIAS_VALID, Fld.CKP_TEN_ALIAS_TO, Fld.CKP_TEN_ALIAS_FROM]
  | .CLK_CTL => [Fld.CLK_CTL_HOLD_EXIT, Fld.CLK_CTL_RESELECT, Fld.CLK_CTL_FAIL_POLICY]
  | .CLK_STATUS => [Fld.CLK_STATUS_TILE_STEP, Fld.CLK_STATUS_HELD, Fld.CLK_STATUS_PLL_LOCK, Fld.CLK_STATUS_CRYSTAL_OK, Fld.CLK_STATUS_SOURCE]
  | .CLK_MON => [Fld.CLK_MON_GOOD_RUN, Fld.CLK_MON_COUNT]
  | .PWR_CTL => [Fld.PWR_CTL_FORCE_S0, Fld.PWR_CTL_MAX_STATE, Fld.PWR_CTL_TILE_STEP_MAX]
  | .PWR_LAT_TOL => [Fld.PWR_LAT_TOL_US]
  | .PWR_IDLE_DWELL => [Fld.PWR_IDLE_DWELL_US]
  | .PWR_CAP => [Fld.PWR_CAP_WATTS]
  | .PWR_THERMAL => [Fld.PWR_THERMAL_HOTTEST_C, Fld.PWR_THERMAL_THROTTLE_C]
  | .PWR_STATUS => [Fld.PWR_STATUS_INPUT_W, Fld.PWR_STATUS_LIMIT, Fld.PWR_STATUS_ENTERING, Fld.PWR_STATUS_STATE]
  | .PWR_ENTRIES => [Fld.PWR_ENTRIES_COUNT]
  | .RTC_SECONDS => [Fld.RTC_SECONDS_SECONDS]
  | .RTC_FRAC => [Fld.RTC_FRAC_FRAC]
  | .RTC_SET_SECONDS => [Fld.RTC_SET_SECONDS_SECONDS]
  | .RTC_SET_FRAC => [Fld.RTC_SET_FRAC_FRAC]
  | .RTC_CTL => [Fld.RTC_CTL_LOAD]
  | .RTC_STATUS => [Fld.RTC_STATUS_ON_BATTERY, Fld.RTC_STATUS_OSC_FAIL, Fld.RTC_STATUS_VALID]
  | .GLB_ID => [Fld.GLB_ID_VENDOR, Fld.GLB_ID_PART, Fld.GLB_ID_STEPPING]
  | .GLB_SERIAL => [Fld.GLB_SERIAL_SERIAL]
  | .GLB_CTL => [Fld.GLB_CTL_KEY, Fld.GLB_CTL_RESET]
  | .GLB_STATUS => [Fld.GLB_STATUS_READY, Fld.GLB_STATUS_TEST_MODE, Fld.GLB_STATUS_PHASE]
  | .GLB_MODULE => [Fld.GLB_MODULE_VALID, Fld.GLB_MODULE_MODULE]
  | .GLB_RESET_CAUSE => [Fld.GLB_RESET_CAUSE_PF_FLR, Fld.GLB_RESET_CAUSE_REGISTER, Fld.GLB_RESET_CAUSE_PIN, Fld.GLB_RESET_CAUSE_POWER_ON]
  | .SBD_ADDR => [Fld.SBD_ADDR_ASSIGNED, Fld.SBD_ADDR_ADDRESS]
  | .SBD_CTL => [Fld.SBD_CTL_ALERT_EN, Fld.SBD_CTL_PEC_REQUIRED, Fld.SBD_CTL_WRITE_EN]
  | .SBD_EVENTS => [Fld.SBD_EVENTS_PEC_FAILS, Fld.SBD_EVENTS_BAD_COMMANDS, Fld.SBD_EVENTS_TIMEOUTS, Fld.SBD_EVENTS_STUCK_RELEASES]
  | .SBD_LOCAL_STATUS => [Fld.SBD_LOCAL_STATUS_RETRIES, Fld.SBD_LOCAL_STATUS_FRONT_END_OK, Fld.SBD_LOCAL_STATUS_DEVICE]
  | .PMC_EN => [Fld.PMC_EN_ENABLE]

/-- Width of each register in bits: 64 when its table names a bit above 31, else 32. -/
def RegId.width : RegId → Nat
  | .FAB_CL_ASSIGN | .FAB_CL_STEP | .FAB_CL_BUSY | .FAB_ROW_MAP => 64
  | .DCK_ISO_DROP | .DCK_EDGE_DROP | .DCK_BRIDGE_STATUS | .PLC_MOVES => 64
  | .PLC_STEALS | .PLC_TEN_BAL | .PLC_TEN_FOREIGN | .PLC_ROUTE => 64
  | .WGT_STAGED | .WGT_TEN_BERTH | .WGT_TEN_VERSION | .WGT_TEN_FRONT_STEP => 64
  | .WGT_TEN_MISSES | .WGT_TEN_LEAN_STEPS | .WGT_TEN_TOLL_CYCLES | .WBL_PEEK_DATA => 64
  | .WBL_TEN_RAGGED | .WBL_TEN_RESULT | .WBL_TEN_GROUP | .WBL_TEN_COUNTS => 64
  | .WBL_TEN_TOKENS | .WBL_TEN_STEP | .WBL_TEN_WAITS | .CVN_RING_BASE => 64
  | .CVN_RING_CFG | .CVN_RING_PTRS | .CVN_RING_STATE | .CVN_TEN_STATUS => 64
  | .LRN_TEN_BATCH | .LRN_TEN_LIMITS | .LRN_TEN_SCHED_VA | .LRN_TEN_GRAD_ADDR => 64
  | .LRN_TEN_GRAD_LEN | .LRN_TEN_STEP | .LRN_TEN_SEQS | .LRN_TEN_ROWS => 64
  | .LRN_TEN_DROPS | .LRN_TEN_IDLE | .MEM_CH_STATUS | .MEM_TEN_BUCKET => 64
  | .MEM_TEN_BYTES | .MEM_TEN_THROTTLE | .HLD_FREE_BANKS | .HLD_TEN_EXT => 64
  | .HLD_TEN_EXT_RUN | .XLT_TEN_ROOT | .XLT_TEN_ALLOC_RESULT | .XLT_TEN_INVAL => 64
  | .XLT_TEN_FAULT | .RNG_KAT_KEY | .RNG_KAT_CTR | .RNG_KAT_OUT => 64
  | .VIA_ISO_DROP | .VIA_DETOURS | .VIA_LOST | .VIA_JOB => 64
  | .VIA_PORT_PEER | .VIA_PORT_LANES | .VIA_PORT_TX_FLITS | .VIA_PORT_RX_FLITS => 64
  | .VIA_PORT_REPLAYS | .VIA_PORT_RETRAINS | .VIA_PORT_FEC | .SYN_BARRIERS_FREE => 64
  | .SYN_GROUP_OPS | .SYN_TEN_BARRIERS | .COL_INSTANCES | .COL_CRC_FAILS => 64
  | .COL_TEN_SLOWEST | .COL_TEN_WAIT_NS | .COL_TEN_BYTES | .COL_TEN_INSTANCES => 64
  | .HIF_TX_BYTES | .HIF_RX_BYTES | .HIF_ID | .QUE_RING_BASE => 64
  | .QUE_RING_CFG | .QUE_RING_PTRS | .QUE_RING_INFO | .QUE_TEN_CMD_ABORT => 64
  | .QUE_TEN_KILLS | .TEN_GRANT | .TEN_HOLD | .TEN_DRAM => 64
  | .TEN_RINGS | .TEN_LAT_TOL | .TEN_VIOLATION | .LDG_MEASURED => 64
  | .PMC_CNT | .DMA_CH_DONE | .DMA_CH_ERR_ADDR | .DMA_CH_BYTES => 64
  | .ERR_FIRST_INFO0 | .ERR_FIRST_INFO1 | .INT_SEVERE_SUMMARY | .INT_STATUS_SUMMARY => 64
  | .INT_FAB_SEVERE | .INT_EPOCH_LAST | .INT_EPOCHS | .INT_SIG_DATA => 64
  | .ALV_STOPS | .CKP_TEN_AREA | .CKP_TEN_AREA_BYTES | .CKP_TEN_STATUS => 64
  | .CKP_TEN_GEN | .CKP_TEN_SENT_GEN | .CKP_TEN_SENT_STEP | .CKP_TEN_HELD_GEN => 64
  | .CKP_TEN_HELD_STEP | .CKP_TEN_BYTES | .CKP_TEN_DISCARDS | .CKP_TEN_ALIAS => 64
  | .PWR_ENTRIES | .RTC_SECONDS | .RTC_SET_SECONDS | .GLB_ID => 64
  | .GLB_SERIAL | .SBD_EVENTS => 64
  | .FAB_CL_STATUS | .FAB_CL_CTL | .FAB_SITE_FAULT | .DCK_CTL => 32
  | .DCK_STALL_LIMIT | .PLC_CTL | .PLC_BAL_PERIOD | .PLC_BAL_HOLD => 32
  | .PLC_MEASURE | .PLC_REBAL_GAIN | .PLC_SLOW_LIMIT | .PLC_TEN_CTL => 32
  | .PLC_TEN_SLOWDOWN | .PLC_TEN_CLUSTERS | .WGT_SWAP_TIMEOUT | .WGT_TEN_BERTH_BYTES => 32
  | .WGT_MISS_POLICY | .WGT_LAYER_DEADLINE | .WGT_TEN_WINDOW | .WGT_TEN_STATUS => 32
  | .WBL_CTL | .WBL_AGE_STEP | .WBL_AGE_LIMIT | .WBL_URGENT_MARGIN => 32
  | .WBL_FREE | .WBL_PEEK_SEL | .WBL_TEN_LIMITS | .WBL_TEN_BUDGET => 32
  | .WBL_TEN_PREFILL | .WBL_TEN_KV | .WBL_TEN_CTL | .WBL_TEN_ACTION => 32
  | .CVN_STALL_LIMIT | .CVN_RING_CONSUME | .LRN_CTL | .LRN_TEN_SLOT => 32
  | .LRN_TEN_WAIT | .LRN_TEN_MIN | .LRN_TEN_SCHED_CTL | .LRN_TEN_SCHED_LEN => 32
  | .LRN_TEN_LAG | .MEM_CTL | .MEM_CH_CTL | .MEM_CH_UE_LIMIT => 32
  | .MEM_PATROL | .MEM_SKEW_LIMIT | .MEM_SKEW_WINDOW | .MEM_SKEW_MIN => 32
  | .MEM_MIG_STALL | .MEM_MIG_MAX | .MEM_TEN_KEYS | .HLD_SCRUB_PERIOD => 32
  | .HLD_RETIRE_CE | .HLD_MAP_SEL | .HLD_MAP_DATA | .HLD_BANK_SEL => 32
  | .HLD_BANK_INFO | .XLT_POOL_FREE | .XLT_TEN_ALLOC_REQ | .XLT_TEN_FREE => 32
  | .XLT_TEN_INVAL_DONE | .XLT_TEN_FRAMES | .RNG_CTL | .RNG_SELFTEST_PERIOD => 32
  | .RNG_KAT_CTL | .RNG_ENTROPY_STATUS | .VIA_DISC_STATUS | .VIA_DISC_CTL => 32
  | .VIA_ROUTE_CTL | .VIA_PORT_CTL | .VIA_PORT_STATUS | .VIA_PORT_SPARE_USE => 32
  | .VIA_PORT_LANE_ERR_LIMIT | .SYN_CTL | .SYN_TEN_PENDING | .COL_CTL => 32
  | .COL_TIMEOUT | .COL_TEN_LIMITS | .COL_TEN_ACTIVE | .HIF_HCP_REQ => 32
  | .HIF_HCP_VER | .HIF_LINK_STATUS | .HIF_LTR | .HIF_NMI_STATUS => 32
  | .HIF_VF_NOTICE | .QUE_RING_SEL | .QUE_AGE_STEP | .QUE_AGE_LIMIT => 32
  | .QUE_PREEMPT | .QUE_TEN_CMD | .QUE_TEN_STATE | .TEN_CMD => 32
  | .TEN_CMD_STATUS | .TEN_SCRUB_SHARE | .TEN_STATUS | .LDG_CTL => 32
  | .LDG_RING | .LDG_BACKLOG | .LDG_COEF | .PMC_CTL => 32
  | .PMC_SEL | .DMA_TIMEOUT | .DMA_CH_CFG | .DMA_CH_CTL => 32
  | .DMA_CH_STATUS | .DMA_CH_ERR_INFO | .DMA_TEN_LIMITS | .ERR_STATUS => 32
  | .ERR_COUNT | .ERR_CLASS_WINDOW | .ERR_CLASS_THRESH | .ERR_SEVERE => 32
  | .ERR_INT_EN | .ERR_VECTOR | .ERR_SEVERE_VECTOR | .ERR_ALIVE_STOP => 32
  | .ERR_INJECT_INV | .ERR_CLEAR | .INT_CTL | .INT_SCRUB_PERIOD => 32
  | .INT_EPOCH_OPEN | .INT_SIG_COUNT | .INT_SIG_SEL | .INT_TWIN => 32
  | .ALV_CTL | .ALV_STATUS | .CKP_TIMEOUT | .CKP_TEN_BUDDY => 32
  | .CKP_TEN_HELD_MODULE | .CLK_CTL | .CLK_STATUS | .CLK_MON => 32
  | .PWR_CTL | .PWR_LAT_TOL | .PWR_IDLE_DWELL | .PWR_CAP => 32
  | .PWR_THERMAL | .PWR_STATUS | .RTC_FRAC | .RTC_SET_FRAC => 32
  | .RTC_CTL | .RTC_STATUS | .GLB_CTL | .GLB_STATUS => 32
  | .GLB_MODULE | .GLB_RESET_CAUSE | .SBD_ADDR | .SBD_CTL => 32
  | .SBD_LOCAL_STATUS | .PMC_EN => 32

/-- Byte offset of the register in physical function BAR0 (R497): `i` and `j` are its indices in the order the
register is written, a FAB cluster counting as the first index. The error group is placed by `errBase`. -/
def RegId.offset : RegId → Nat → Nat → Nat
  | .FAB_CL_STATUS, i, _ => 0x200000 + 0x4000 * i
  | .FAB_CL_ASSIGN, i, _ => 0x200008 + 0x4000 * i
  | .FAB_CL_CTL, i, _ => 0x200010 + 0x4000 * i
  | .FAB_CL_STEP, i, _ => 0x200018 + 0x4000 * i
  | .FAB_CL_BUSY, i, _ => 0x200020 + 0x4000 * i
  | .FAB_SITE_FAULT, i, _ => 0x200028 + 0x4000 * i
  | .FAB_ROW_MAP, i, j => 0x200100 + 0x4000 * i + 0x8 * j
  | .DCK_CTL, _, _ => 0x190000
  | .DCK_STALL_LIMIT, _, _ => 0x190008
  | .DCK_ISO_DROP, _, _ => 0x190020
  | .DCK_EDGE_DROP, _, _ => 0x190028
  | .DCK_BRIDGE_STATUS, i, _ => 0x190100 + 0x8 * i
  | .PLC_CTL, _, _ => 0x170000
  | .PLC_BAL_PERIOD, _, _ => 0x170008
  | .PLC_BAL_HOLD, _, _ => 0x17000c
  | .PLC_MEASURE, _, _ => 0x170010
  | .PLC_REBAL_GAIN, _, _ => 0x170014
  | .PLC_SLOW_LIMIT, _, _ => 0x170018
  | .PLC_MOVES, _, _ => 0x170020
  | .PLC_STEALS, _, _ => 0x170028
  | .PLC_TEN_CTL, i, _ => 0x171000 + 0x40 * i
  | .PLC_TEN_BAL, i, _ => 0x171008 + 0x40 * i
  | .PLC_TEN_FOREIGN, i, _ => 0x171010 + 0x40 * i
  | .PLC_TEN_SLOWDOWN, i, _ => 0x171018 + 0x40 * i
  | .PLC_TEN_CLUSTERS, i, _ => 0x171020 + 0x40 * i
  | .PLC_ROUTE, i, _ => 0x174000 + 0x10 * i
  | .WGT_SWAP_TIMEOUT, _, _ => 0x100008
  | .WGT_STAGED, _, _ => 0x100010
  | .WGT_TEN_BERTH, i, _ => 0x101000 + 0x80 * i
  | .WGT_TEN_BERTH_BYTES, i, _ => 0x101008 + 0x80 * i
  | .WGT_MISS_POLICY, i, _ => 0x101010 + 0x80 * i
  | .WGT_LAYER_DEADLINE, i, _ => 0x101014 + 0x80 * i
  | .WGT_TEN_WINDOW, i, _ => 0x101018 + 0x80 * i
  | .WGT_TEN_VERSION, i, _ => 0x101020 + 0x80 * i
  | .WGT_TEN_FRONT_STEP, i, _ => 0x101028 + 0x80 * i
  | .WGT_TEN_MISSES, i, _ => 0x101030 + 0x80 * i
  | .WGT_TEN_LEAN_STEPS, i, _ => 0x101038 + 0x80 * i
  | .WGT_TEN_TOLL_CYCLES, i, _ => 0x101040 + 0x80 * i
  | .WGT_TEN_STATUS, i, _ => 0x101048 + 0x80 * i
  | .WBL_CTL, _, _ => 0x110000
  | .WBL_AGE_STEP, _, _ => 0x110008
  | .WBL_AGE_LIMIT, _, _ => 0x11000c
  | .WBL_URGENT_MARGIN, _, _ => 0x110010
  | .WBL_FREE, _, _ => 0x110018
  | .WBL_PEEK_SEL, _, _ => 0x110020
  | .WBL_PEEK_DATA, i, _ => 0x110040 + 0x8 * i
  | .WBL_TEN_LIMITS, i, _ => 0x111000 + 0x80 * i
  | .WBL_TEN_BUDGET, i, _ => 0x111008 + 0x80 * i
  | .WBL_TEN_PREFILL, i, _ => 0x11100c + 0x80 * i
  | .WBL_TEN_KV, i, _ => 0x111010 + 0x80 * i
  | .WBL_TEN_RAGGED, i, _ => 0x111018 + 0x80 * i
  | .WBL_TEN_RESULT, i, _ => 0x111020 + 0x80 * i
  | .WBL_TEN_CTL, i, _ => 0x111028 + 0x80 * i
  | .WBL_TEN_GROUP, i, _ => 0x111030 + 0x80 * i
  | .WBL_TEN_ACTION, i, _ => 0x111038 + 0x80 * i
  | .WBL_TEN_COUNTS, i, _ => 0x111040 + 0x80 * i
  | .WBL_TEN_TOKENS, i, _ => 0x111048 + 0x80 * i
  | .WBL_TEN_STEP, i, _ => 0x111050 + 0x80 * i
  | .WBL_TEN_WAITS, i, _ => 0x111058 + 0x80 * i
  | .CVN_STALL_LIMIT, _, _ => 0x120008
  | .CVN_RING_BASE, i, _ => 0x121000 + 0x20 * i
  | .CVN_RING_CFG, i, _ => 0x121008 + 0x20 * i
  | .CVN_RING_PTRS, i, _ => 0x121010 + 0x20 * i
  | .CVN_RING_STATE, i, _ => 0x121018 + 0x20 * i
  | .CVN_RING_CONSUME, i, _ => 0x129000 + 0x8 * i
  | .CVN_TEN_STATUS, i, _ => 0x12b000 + 0x8 * i
  | .LRN_CTL, _, _ => 0x130000
  | .LRN_TEN_BATCH, i, _ => 0x131000 + 0x100 * i
  | .LRN_TEN_SLOT, i, _ => 0x131008 + 0x100 * i
  | .LRN_TEN_LIMITS, i, _ => 0x131010 + 0x100 * i
  | .LRN_TEN_WAIT, i, _ => 0x131018 + 0x100 * i
  | .LRN_TEN_MIN, i, _ => 0x13101c + 0x100 * i
  | .LRN_TEN_SCHED_VA, i, _ => 0x131020 + 0x100 * i
  | .LRN_TEN_SCHED_CTL, i, _ => 0x131028 + 0x100 * i
  | .LRN_TEN_SCHED_LEN, i, _ => 0x13102c + 0x100 * i
  | .LRN_TEN_LAG, i, _ => 0x131030 + 0x100 * i
  | .LRN_TEN_GRAD_ADDR, i, j => 0x131040 + 0x100 * i + 0x10 * j
  | .LRN_TEN_GRAD_LEN, i, j => 0x131048 + 0x100 * i + 0x10 * j
  | .LRN_TEN_STEP, i, _ => 0x131080 + 0x100 * i
  | .LRN_TEN_SEQS, i, _ => 0x131088 + 0x100 * i
  | .LRN_TEN_ROWS, i, _ => 0x131090 + 0x100 * i
  | .LRN_TEN_DROPS, i, _ => 0x131098 + 0x100 * i
  | .LRN_TEN_IDLE, i, _ => 0x1310a0 + 0x100 * i
  | .MEM_CTL, _, _ => 0xd0000
  | .MEM_CH_CTL, _, _ => 0xd0008
  | .MEM_CH_UE_LIMIT, _, _ => 0xd000c
  | .MEM_PATROL, _, _ => 0xd0010
  | .MEM_SKEW_LIMIT, _, _ => 0xd0018
  | .MEM_SKEW_WINDOW, _, _ => 0xd001c
  | .MEM_SKEW_MIN, _, _ => 0xd0020
  | .MEM_MIG_STALL, _, _ => 0xd0024
  | .MEM_MIG_MAX, _, _ => 0xd0028
  | .MEM_CH_STATUS, i, _ => 0xd1000 + 0x8 * i
  | .MEM_TEN_BUCKET, i, _ => 0xd2000 + 0x20 * i
  | .MEM_TEN_BYTES, i, _ => 0xd2008 + 0x20 * i
  | .MEM_TEN_THROTTLE, i, _ => 0xd2010 + 0x20 * i
  | .MEM_TEN_KEYS, i, _ => 0xd2018 + 0x20 * i
  | .HLD_SCRUB_PERIOD, _, _ => 0xe0000
  | .HLD_RETIRE_CE, _, _ => 0xe0004
  | .HLD_FREE_BANKS, _, _ => 0xe0008
  | .HLD_MAP_SEL, _, _ => 0xe0010
  | .HLD_MAP_DATA, _, _ => 0xe0018
  | .HLD_BANK_SEL, _, _ => 0xe0020
  | .HLD_BANK_INFO, _, _ => 0xe0028
  | .HLD_TEN_EXT, i, j => 0xe1000 + 0x100 * i + 0x10 * j
  | .HLD_TEN_EXT_RUN, i, j => 0xe1008 + 0x100 * i + 0x10 * j
  | .XLT_POOL_FREE, _, _ => 0xf0000
  | .XLT_TEN_ROOT, i, _ => 0xf1000 + 0x40 * i
  | .XLT_TEN_ALLOC_REQ, i, _ => 0xf1008 + 0x40 * i
  | .XLT_TEN_ALLOC_RESULT, i, _ => 0xf1010 + 0x40 * i
  | .XLT_TEN_FREE, i, _ => 0xf1018 + 0x40 * i
  | .XLT_TEN_INVAL, i, _ => 0xf1020 + 0x40 * i
  | .XLT_TEN_INVAL_DONE, i, _ => 0xf1028 + 0x40 * i
  | .XLT_TEN_FRAMES, i, _ => 0xf102c + 0x40 * i
  | .XLT_TEN_FAULT, i, _ => 0xf1030 + 0x40 * i
  | .RNG_CTL, _, _ => 0x140000
  | .RNG_SELFTEST_PERIOD, _, _ => 0x140004
  | .RNG_KAT_KEY, _, _ => 0x140010
  | .RNG_KAT_CTR, i, _ => 0x140018 + 0x8 * i
  | .RNG_KAT_CTL, _, _ => 0x140028
  | .RNG_KAT_OUT, i, _ => 0x140030 + 0x8 * i
  | .RNG_ENTROPY_STATUS, _, _ => 0x140040
  | .VIA_DISC_STATUS, _, _ => 0xb0000
  | .VIA_DISC_CTL, _, _ => 0xb0008
  | .VIA_ROUTE_CTL, _, _ => 0xb0010
  | .VIA_ISO_DROP, _, _ => 0xb0020
  | .VIA_DETOURS, _, _ => 0xb0028
  | .VIA_LOST, _, _ => 0xb0030
  | .VIA_JOB, i, _ => 0xb0400 + 0x8 * i
  | .VIA_PORT_CTL, i, _ => 0xb1000 + 0x1000 * i
  | .VIA_PORT_STATUS, i, _ => 0xb1008 + 0x1000 * i
  | .VIA_PORT_PEER, i, _ => 0xb1010 + 0x1000 * i
  | .VIA_PORT_LANES, i, _ => 0xb1018 + 0x1000 * i
  | .VIA_PORT_SPARE_USE, i, _ => 0xb1020 + 0x1000 * i
  | .VIA_PORT_LANE_ERR_LIMIT, i, _ => 0xb1028 + 0x1000 * i
  | .VIA_PORT_TX_FLITS, i, _ => 0xb1030 + 0x1000 * i
  | .VIA_PORT_RX_FLITS, i, _ => 0xb1038 + 0x1000 * i
  | .VIA_PORT_REPLAYS, i, _ => 0xb1040 + 0x1000 * i
  | .VIA_PORT_RETRAINS, i, _ => 0xb1048 + 0x1000 * i
  | .VIA_PORT_FEC, i, _ => 0xb1050 + 0x1000 * i
  | .SYN_CTL, _, _ => 0x180000
  | .SYN_BARRIERS_FREE, _, _ => 0x180008
  | .SYN_GROUP_OPS, _, _ => 0x180010
  | .SYN_TEN_BARRIERS, i, _ => 0x181000 + 0x8 * i
  | .SYN_TEN_PENDING, i, _ => 0x182000 + 0x8 * i
  | .COL_CTL, _, _ => 0xc0000
  | .COL_TIMEOUT, _, _ => 0xc0008
  | .COL_INSTANCES, _, _ => 0xc0010
  | .COL_CRC_FAILS, _, _ => 0xc0018
  | .COL_TEN_LIMITS, i, _ => 0xc1000 + 0x40 * i
  | .COL_TEN_ACTIVE, i, _ => 0xc1008 + 0x40 * i
  | .COL_TEN_SLOWEST, i, _ => 0xc1010 + 0x40 * i
  | .COL_TEN_WAIT_NS, i, _ => 0xc1018 + 0x40 * i
  | .COL_TEN_BYTES, i, _ => 0xc1020 + 0x40 * i
  | .COL_TEN_INSTANCES, i, _ => 0xc1028 + 0x40 * i
  | .HIF_HCP_REQ, _, _ => 0x1a0000
  | .HIF_HCP_VER, _, _ => 0x1a0004
  | .HIF_LINK_STATUS, _, _ => 0x1a0008
  | .HIF_LTR, _, _ => 0x1a0010
  | .HIF_NMI_STATUS, _, _ => 0x1a0018
  | .HIF_VF_NOTICE, _, _ => 0x1a0020
  | .HIF_TX_BYTES, _, _ => 0x1a0030
  | .HIF_RX_BYTES, _, _ => 0x1a0038
  | .HIF_ID, _, _ => 0x1a0040
  | .QUE_RING_SEL, _, _ => 0x160000
  | .QUE_RING_BASE, _, _ => 0x160008
  | .QUE_RING_CFG, _, _ => 0x160010
  | .QUE_RING_PTRS, _, _ => 0x160018
  | .QUE_RING_INFO, _, _ => 0x160020
  | .QUE_AGE_STEP, _, _ => 0x160028
  | .QUE_AGE_LIMIT, _, _ => 0x16002c
  | .QUE_PREEMPT, _, _ => 0x160030
  | .QUE_TEN_CMD, i, _ => 0x161000 + 0x20 * i
  | .QUE_TEN_STATE, i, _ => 0x161008 + 0x20 * i
  | .QUE_TEN_CMD_ABORT, i, _ => 0x161010 + 0x20 * i
  | .QUE_TEN_KILLS, i, _ => 0x161018 + 0x20 * i
  | .TEN_CMD, _, _ => 0x50000
  | .TEN_CMD_STATUS, _, _ => 0x50008
  | .TEN_SCRUB_SHARE, _, _ => 0x50010
  | .TEN_GRANT, i, _ => 0x51000 + 0x40 * i
  | .TEN_HOLD, i, _ => 0x51008 + 0x40 * i
  | .TEN_DRAM, i, _ => 0x51010 + 0x40 * i
  | .TEN_RINGS, i, _ => 0x51018 + 0x40 * i
  | .TEN_LAT_TOL, i, _ => 0x51020 + 0x40 * i
  | .TEN_STATUS, i, _ => 0x51028 + 0x40 * i
  | .TEN_VIOLATION, i, _ => 0x51030 + 0x40 * i
  | .LDG_CTL, _, _ => 0x60000
  | .LDG_RING, _, _ => 0x60008
  | .LDG_MEASURED, _, _ => 0x60010
  | .LDG_BACKLOG, _, _ => 0x60018
  | .LDG_COEF, i, _ => 0x60100 + 0x8 * i
  | .PMC_CTL, _, _ => 0x70000
  | .PMC_SEL, i, _ => 0x71000 + 0x10 * i
  | .PMC_CNT, i, _ => 0x71008 + 0x10 * i
  | .DMA_TIMEOUT, _, _ => 0x150000
  | .DMA_CH_CFG, i, _ => 0x151000 + 0x40 * i
  | .DMA_CH_CTL, i, _ => 0x151008 + 0x40 * i
  | .DMA_CH_STATUS, i, _ => 0x151010 + 0x40 * i
  | .DMA_CH_DONE, i, _ => 0x151018 + 0x40 * i
  | .DMA_CH_ERR_ADDR, i, _ => 0x151020 + 0x40 * i
  | .DMA_CH_ERR_INFO, i, _ => 0x151028 + 0x40 * i
  | .DMA_CH_BYTES, i, _ => 0x151030 + 0x40 * i
  | .DMA_TEN_LIMITS, i, _ => 0x15a000 + 0x8 * i
  | .ERR_STATUS, _, _ => 0xf00
  | .ERR_FIRST_INFO0, _, _ => 0xf08
  | .ERR_FIRST_INFO1, _, _ => 0xf10
  | .ERR_COUNT, _, _ => 0xf18
  | .ERR_CLASS_WINDOW, _, _ => 0xf20
  | .ERR_CLASS_THRESH, _, _ => 0xf24
  | .ERR_SEVERE, _, _ => 0xf28
  | .ERR_INT_EN, _, _ => 0xf30
  | .ERR_VECTOR, _, _ => 0xf34
  | .ERR_SEVERE_VECTOR, _, _ => 0xf38
  | .ERR_ALIVE_STOP, _, _ => 0xf3c
  | .ERR_INJECT_INV, _, _ => 0xf40
  | .ERR_CLEAR, _, _ => 0xf48
  | .INT_CTL, _, _ => 0x90000
  | .INT_SCRUB_PERIOD, _, _ => 0x90004
  | .INT_SEVERE_SUMMARY, _, _ => 0x90008
  | .INT_STATUS_SUMMARY, _, _ => 0x90010
  | .INT_FAB_SEVERE, i, _ => 0x90018 + 0x8 * i
  | .INT_EPOCH_OPEN, _, _ => 0x90028
  | .INT_EPOCH_LAST, _, _ => 0x90030
  | .INT_EPOCHS, _, _ => 0x90038
  | .INT_SIG_COUNT, _, _ => 0x90040
  | .INT_SIG_SEL, _, _ => 0x90048
  | .INT_SIG_DATA, i, _ => 0x90080 + 0x8 * i
  | .INT_TWIN, i, _ => 0x91000 + 0x8 * i
  | .ALV_CTL, _, _ => 0x80000
  | .ALV_STATUS, _, _ => 0x80008
  | .ALV_STOPS, _, _ => 0x80010
  | .CKP_TIMEOUT, _, _ => 0xa0000
  | .CKP_TEN_BUDDY, i, _ => 0xa1000 + 0x100 * i
  | .CKP_TEN_AREA, i, _ => 0xa1008 + 0x100 * i
  | .CKP_TEN_AREA_BYTES, i, _ => 0xa1010 + 0x100 * i
  | .CKP_TEN_STATUS, i, _ => 0xa1018 + 0x100 * i
  | .CKP_TEN_GEN, i, _ => 0xa1020 + 0x100 * i
  | .CKP_TEN_SENT_GEN, i, _ => 0xa1028 + 0x100 * i
  | .CKP_TEN_SENT_STEP, i, _ => 0xa1030 + 0x100 * i
  | .CKP_TEN_HELD_GEN, i, _ => 0xa1038 + 0x100 * i
  | .CKP_TEN_HELD_STEP, i, _ => 0xa1040 + 0x100 * i
  | .CKP_TEN_HELD_MODULE, i, _ => 0xa1048 + 0x100 * i
  | .CKP_TEN_BYTES, i, _ => 0xa1050 + 0x100 * i
  | .CKP_TEN_DISCARDS, i, _ => 0xa1058 + 0x100 * i
  | .CKP_TEN_ALIAS, i, j => 0xa1080 + 0x100 * i + 0x8 * j
  | .CLK_CTL, _, _ => 0x10000
  | .CLK_STATUS, _, _ => 0x10008
  | .CLK_MON, _, _ => 0x10010
  | .PWR_CTL, _, _ => 0x20000
  | .PWR_LAT_TOL, _, _ => 0x20008
  | .PWR_IDLE_DWELL, _, _ => 0x2000c
  | .PWR_CAP, _, _ => 0x20010
  | .PWR_THERMAL, _, _ => 0x20014
  | .PWR_STATUS, _, _ => 0x20018
  | .PWR_ENTRIES, _, _ => 0x20020
  | .RTC_SECONDS, _, _ => 0x30000
  | .RTC_FRAC, _, _ => 0x30008
  | .RTC_SET_SECONDS, _, _ => 0x30010
  | .RTC_SET_FRAC, _, _ => 0x30018
  | .RTC_CTL, _, _ => 0x30020
  | .RTC_STATUS, _, _ => 0x30028
  | .GLB_ID, _, _ => 0x0
  | .GLB_SERIAL, _, _ => 0x8
  | .GLB_CTL, _, _ => 0x10
  | .GLB_STATUS, _, _ => 0x18
  | .GLB_MODULE, _, _ => 0x20
  | .GLB_RESET_CAUSE, _, _ => 0x28
  | .SBD_ADDR, _, _ => 0x40000
  | .SBD_CTL, _, _ => 0x40008
  | .SBD_EVENTS, _, _ => 0x40010
  | .SBD_LOCAL_STATUS, _, _ => 0x40018
  | .PMC_EN, i, _ => 0x72000 + 0x4 * i

/-! Who owns an indexed register. -/

/-- What the first index of a register names, for the resets that reach one tenancy or one function (R10). -/
inductive Owner where
  | tenancy | route | ring | func | caravan | channel | cluster | counter | whole
  deriving DecidableEq, Repr

/-- What the first index of each register names. -/
def RegId.owner : RegId → Owner
  | .FAB_CL_STATUS | .FAB_CL_ASSIGN | .FAB_CL_CTL | .FAB_CL_STEP | .FAB_CL_BUSY
  | .FAB_SITE_FAULT | .FAB_ROW_MAP => .cluster
  | .PLC_TEN_CTL | .PLC_TEN_BAL | .PLC_TEN_FOREIGN | .PLC_TEN_SLOWDOWN | .PLC_TEN_CLUSTERS
  | .WGT_TEN_BERTH | .WGT_TEN_BERTH_BYTES | .WGT_MISS_POLICY | .WGT_LAYER_DEADLINE | .WGT_TEN_WINDOW
  | .WGT_TEN_VERSION | .WGT_TEN_FRONT_STEP | .WGT_TEN_MISSES | .WGT_TEN_LEAN_STEPS | .WGT_TEN_TOLL_CYCLES
  | .WGT_TEN_STATUS | .WBL_TEN_LIMITS | .WBL_TEN_BUDGET | .WBL_TEN_PREFILL | .WBL_TEN_KV
  | .WBL_TEN_RAGGED | .WBL_TEN_RESULT | .WBL_TEN_CTL | .WBL_TEN_GROUP | .WBL_TEN_ACTION
  | .WBL_TEN_COUNTS | .WBL_TEN_TOKENS | .WBL_TEN_STEP | .WBL_TEN_WAITS | .CVN_TEN_STATUS
  | .LRN_TEN_BATCH | .LRN_TEN_SLOT | .LRN_TEN_LIMITS | .LRN_TEN_WAIT | .LRN_TEN_MIN
  | .LRN_TEN_SCHED_VA | .LRN_TEN_SCHED_CTL | .LRN_TEN_SCHED_LEN | .LRN_TEN_LAG | .LRN_TEN_GRAD_ADDR
  | .LRN_TEN_GRAD_LEN | .LRN_TEN_STEP | .LRN_TEN_SEQS | .LRN_TEN_ROWS | .LRN_TEN_DROPS
  | .LRN_TEN_IDLE | .MEM_TEN_BUCKET | .MEM_TEN_BYTES | .MEM_TEN_THROTTLE | .MEM_TEN_KEYS
  | .HLD_TEN_EXT | .HLD_TEN_EXT_RUN | .XLT_TEN_ROOT | .XLT_TEN_ALLOC_REQ | .XLT_TEN_ALLOC_RESULT
  | .XLT_TEN_FREE | .XLT_TEN_INVAL | .XLT_TEN_INVAL_DONE | .XLT_TEN_FRAMES | .XLT_TEN_FAULT
  | .VIA_JOB | .SYN_TEN_BARRIERS | .SYN_TEN_PENDING | .COL_TEN_LIMITS | .COL_TEN_ACTIVE
  | .COL_TEN_SLOWEST | .COL_TEN_WAIT_NS | .COL_TEN_BYTES | .COL_TEN_INSTANCES | .QUE_TEN_CMD
  | .QUE_TEN_STATE | .QUE_TEN_CMD_ABORT | .QUE_TEN_KILLS | .TEN_GRANT | .TEN_HOLD
  | .TEN_DRAM | .TEN_RINGS | .TEN_LAT_TOL | .TEN_STATUS | .TEN_VIOLATION
  | .DMA_TEN_LIMITS | .INT_TWIN | .CKP_TEN_BUDDY | .CKP_TEN_AREA | .CKP_TEN_AREA_BYTES
  | .CKP_TEN_STATUS | .CKP_TEN_GEN | .CKP_TEN_SENT_GEN | .CKP_TEN_SENT_STEP | .CKP_TEN_HELD_GEN
  | .CKP_TEN_HELD_STEP | .CKP_TEN_HELD_MODULE | .CKP_TEN_BYTES | .CKP_TEN_DISCARDS | .CKP_TEN_ALIAS => .tenancy
  | .PLC_ROUTE => .route
  | .CVN_RING_BASE | .CVN_RING_CFG | .CVN_RING_PTRS | .CVN_RING_STATE | .CVN_RING_CONSUME => .caravan
  | .HIF_HCP_REQ | .HIF_HCP_VER | .HIF_LINK_STATUS | .HIF_LTR | .HIF_NMI_STATUS
  | .HIF_VF_NOTICE | .HIF_TX_BYTES | .HIF_RX_BYTES | .HIF_ID | .QUE_RING_SEL => .func
  | .QUE_RING_BASE | .QUE_RING_CFG | .QUE_RING_PTRS | .QUE_RING_INFO => .ring
  | .PMC_SEL | .PMC_CNT | .PMC_EN => .counter
  | .DMA_CH_CFG | .DMA_CH_CTL | .DMA_CH_STATUS | .DMA_CH_DONE | .DMA_CH_ERR_ADDR
  | .DMA_CH_ERR_INFO | .DMA_CH_BYTES => .channel
  | _ => .whole

end Sys2Proof
end

