-- ==== Sys2Proof/Machine/State.lean ====
section
/-! DEFINITION. Machine/State.lean: everything the manual gives the module, as plain data, and its reset. -/

namespace Sys2Proof.Machine

/-! ## Faults and refusals -/

/-- Why a step stops: never. Every command of this module has a next state. -/
inductive Fault where
  deriving DecidableEq, Repr

/-- The cases of tile programs that the manual calls undefined within their tenancy (R2). The instruction's effect is then
that of `Module.undefined`. -/
inductive Misuse where
  /-- R27, R52, R109, R134: a bay address, or a bay range, of 0x1_0000 or above. -/
  | bayRange
  /-- R109: a transfer length above 65,536 or a SEND length above 4,096. -/
  | lengthRange
  /-- R33, R52: c0 used in a 1×1 span or towards a tile outside the span. -/
  | spanChannel
  deriving DecidableEq, Repr

/-- Why a step has no meaning. -/
inductive Refusal where
  /-- An instruction with no meaning yet, rejected by its mnemonic. Raised by Dispatch only. Safe. -/
  | notModelled (mnemonic : String)
  deriving DecidableEq, Repr

/-! ## Tiles (R80, R110) -/

/-- One level of the hardware loop stack (R96). -/
structure Loop where
  start : Nat
  stop : Nat
  count : Word
  deriving DecidableEq, Repr

/-- A front marker as latched (R45, R104). -/
structure Marker where
  version : BitVec 16
  step : Word64
  layer : BitVec 16
  deriving DecidableEq, Repr

/-- The kinds of tile transfer (R100, R101, R117). -/
inductive XferKind where
  | hld | hst | xld | xst
  /-- A WLD from Hold: its data go to the weight set `set`. -/
  | wld (scales : Bool) (set : Bool) (tag : BitVec 16)
  deriving DecidableEq, Repr

/-- An outstanding transfer of a tile. `bcast` is the delivery mask of a broadcast, none for a tile's own. -/
structure Transfer where
  kind : XferKind
  tag : BitVec 4
  bay : Nat
  addr : Nat
  len : Nat
  bcast : Option (BitVec 16)
  deriving DecidableEq, Repr

/-- A store held back until the step commits (R87): its address space, address and bytes. -/
structure Staged where
  hold : Bool
  addr : Nat
  data : List Byte
  deriving DecidableEq, Repr

/-- What a tile's control core is doing. -/
inductive CoreState where
  /-- Ready to issue. -/
  | ready
  /-- The instruction with this opcode and these fields has issued and waits (R100, R104 to R106, R163). -/
  | waiting (opcode : Byte) (w : Fields)
  /-- Arrived at the step boundary (R90). -/
  | arrived
  /-- Stopped for the rest of the route by HALT 0 (R95). -/
  | halted
  deriving DecidableEq, Repr

/-- Packet kinds on the Deck (R36). -/
inductive DeckKind where
  | data | marker | flag | control
  deriving DecidableEq, Repr

/-- A Deck packet: its place in the order of sending, its source and destination tiles, the port of the receiver it arrives at
(0 N, 1 E, 2 S, 3 W, 4 X), channel, kind, tenancy stamp and payload bytes; `last` says that this segment is the packet's
last (R42). -/
structure DeckPkt where
  seq : Nat
  src : TileId
  dst : TileId
  port : Nat
  vc : BitVec 4
  kind : DeckKind
  ten : Ten
  data : List Byte
  last : Bool
  deriving DecidableEq, Repr

/-- A packet in a tile's receive buffers, whole and ready for RECV (R104). -/
structure RecvPkt where
  port : Nat
  vc : BitVec 4
  src : TileId
  kind : DeckKind
  data : List Byte
  deriving DecidableEq, Repr

/-- One weight set (R110): 256 entries, 16 channel scales, a version tag. -/
structure WeightSet where
  entries : Mem
  scales : Map Word
  tag : BitVec 16
  deriving DecidableEq, Repr

/-- The state of one tile. -/
structure Tile where
  s : Map Word
  a : Map Word64
  /-- Lane `l` of vector register `r` is at key `32·r + l`. -/
  v : Map Word
  p : Map Word
  /-- Active loops, innermost first (R96). -/
  loops : List Loop
  flags : Map (BitVec 16)
  marker : Option Marker
  pc : Nat
  core : CoreState
  entryKind : Nat
  /-- The latched high half of CYCLE (R81). -/
  cycleHi : Word
  set0 : WeightSet
  set1 : WeightSet
  /-- Which set is active (R110). -/
  active : Bool
  acc0 : Map Word
  acc1 : Map Word
  /-- The bank holds FP32 values, not INT32 ones: the accumulator type of its last writer (R64). -/
  float0 : Bool
  float1 : Bool
  ts : Map Word
  aflags : AFlags
  bay : Mem
  /-- The tile has executed HALT 0 in this step (R95); it stops at the cluster commit. -/
  haltReq : Bool
  /-- Outstanding transfers, oldest first (R100). -/
  xfers : List Transfer
  /-- Stores staged since the last publication, oldest first, and the bytes staged in this step (R87). -/
  staged : List Staged
  stagedBytes : Nat
  /-- The tile has executed a plain CMT of a MIDSTEP_CMT program in this step (R94). -/
  midCmt : Bool
  /-- The 128-byte blocks of the bay written in this step (R91). -/
  dirty : List Nat
  /-- The two saved copies of the bay and the selector of each block (R91). -/
  save0 : Mem
  save1 : Mem
  sel : Map Bool
  /-- Receive buffers, oldest first (R42, R104). -/
  recv : List RecvPkt
  /-- X packets waiting in the send buffer for a reservation or credits (R42). -/
  sendX : List DeckPkt
  /-- Segments of X packets that have arrived and wait for their last one. -/
  partialX : List DeckPkt
  /-- Instruction-cache lines held (R29). -/
  icache : List Nat
  /-- One more than the phase of each barrier in which the tile last arrived (R105); 0: not since the route started. -/
  barPhase : Map Nat
  /-- The CRC-32C register of the step's stores, sends, flags and barrier arrivals, where the tenancy runs twins (R413). -/
  digest : Word
  deriving DecidableEq, Repr

/-- A weight set at reset (R110). -/
def WeightSet.reset : WeightSet := ⟨[], [], 0⟩

/-- A tile with every register, predicate, bay byte and array value zero (R92, R110). -/
def Tile.reset : Tile where
  s := []
  a := []
  v := []
  p := []
  loops := []
  flags := []
  marker := none
  pc := 0
  core := .ready
  entryKind := 0
  cycleHi := 0
  set0 := .reset
  set1 := .reset
  active := false
  acc0 := []
  acc1 := []
  float0 := false
  float1 := false
  ts := []
  aflags := .none
  bay := []
  haltReq := false
  xfers := []
  staged := []
  stagedBytes := 0
  midCmt := false
  dirty := []
  save0 := []
  save1 := []
  sel := []
  recv := []
  sendX := []
  partialX := []
  icache := []
  barPhase := []
  digest := 0xFFFFFFFF


/-! ## Host interface (R343 to R363) -/

/-- What a LINK flit says: the version a port offers and its VLP_MAX (R298); the module's coordinate, the dimensions and the
port's number (R309, R310); the lane map and the last ACK after a retrain (R300). -/
inductive LinkInfo where
  | offer (vlp vlpMax : Nat)
  | coordinate (x y z dims port : Nat)
  | lanes (map : List Nat) (ack : Nat)
  deriving DecidableEq, Repr

/-- A message that leaves the module: an interrupt, an LTR message, a viaduct packet, a link frame, a sync-plane
message or a level on the sideband. -/
inductive OutMsg where
  | msix (f : Func) (vec : Nat)
  | ltr (value : Option (BitVec 13))
  /-- The 16-byte sync mark that opens a frame of a port's stream; the next 64 flits of the port are its flits (R293). -/
  | mark (port : Nat) (bytes : List Byte)
  /-- The 256 bytes of a flit (R294). -/
  | flit (port : Nat) (bytes : List Byte)
  /-- A LINK flit: what it says, and its 256 bytes, whose payload the manual does not lay out (R294). -/
  | link (port : Nat) (info : LinkInfo) (bytes : List Byte)
  /-- The signal of a retrain to the peer (R300). -/
  | retrain (port : Nat)
  /-- A sync-plane message on both sync lanes of a port (R314). -/
  | sync (port : Nat) (msg : List Byte)
  /-- A request to send a sync message again (R314). -/
  | syncResend (port : Nat)
  /-- The answer to a sideband read (R478, R482), or a byte that is not acknowledged. -/
  | side (data : List Byte) (pec : Byte)
  | sideNack
  deriving DecidableEq, Repr

/-- A packet in a port's transmitter (R296): the packet as it came and its input port, or none for a TUNNEL message; its
VC; the SEQ of its first flit once sent; for each flit its replays and its payload; the flits acknowledged; and whether it
ends in an ABORT flit (R305). -/
structure TxPkt where
  body : Option (Packet × Option Nat)
  vc : Nat
  first : BitVec 16
  flits : List (Nat × List Byte)
  acked : Nat
  abort : Bool
  deriving DecidableEq, Repr

/-- What the module keeps for a viaduct port beside its registers (R290 to R305). -/
structure Port where
  /-- The receiver is in HUNT (R295). -/
  hunt : Bool
  failedFrames : Nat
  /-- The SEQ expected next; flits are discarded until it arrives where `dropping` (R296). -/
  rxNext : BitVec 16
  dropping : Bool
  /-- Payload of the packet that is arriving on each VC. -/
  partials : Map (List Byte)
  /-- Whole packets that wait, with their VC, oldest first. -/
  rxq : List (Nat × Packet)
  txNext : BitVec 16
  /-- The replay buffer, and the packets that wait for room in it, oldest first. -/
  replay : List TxPkt
  waitq : List TxPkt
  /-- Lanes failed since the last retrain, and whether a retrain is due for them (R290). -/
  newFail : List Nat
  due : Bool
  /-- The peer's coordinate disagrees: no tenancy packets (R310). -/
  conflict : Bool
  /-- Flits sent in the frame that is open (R293). -/
  frameAt : Nat
  /-- The JOB_ID that VCs 1 to 4 served last (R302). -/
  lastJob : Nat
  /-- Sync-plane messages, with their tenancy, held back until the port carries them (R300, R315, R317). -/
  syncHeld : List (Nat × List Byte)
  deriving DecidableEq, Repr

/-- A port with nothing in progress. -/
def Port.reset : Port where
  hunt := false
  failedFrames := 0
  rxNext := 0
  dropping := false
  partials := []
  rxq := []
  txNext := 0
  replay := []
  waitq := []
  newFail := []
  due := false
  conflict := false
  frameAt := 0
  lastJob := 0
  syncHeld := []

/-- What the module keeps for an enabled ring beside its context registers. -/
structure Ring where
  /-- Calendar microseconds of the later of the two moments of R350. -/
  lastServed : Nat
  /-- The INDEX of a doorbell with ARM (R347). -/
  arm : Option Word
  /-- Completions reserved on a COMPLETION ring (R348). -/
  reserved : Nat
  /-- Entries taken in the current round (R350). -/
  served : Nat
  /-- Indexes of entries not yet taken that an abort has named (R360). -/
  aborted : List Nat
  deriving DecidableEq, Repr

/-- How far a command has come (R358, R359). -/
inductive CmdPhase where
  /-- Killed and waiting ahead of the ring's entries. -/
  | requeued
  /-- Taken, and not started. -/
  | taken
  /-- Started, before its commit point. -/
  | started
  /-- Past its commit point. -/
  | committed
  /-- Ended with a status and a DETAIL; the completion is not posted yet. -/
  | done (status : Nat) (detail : Nat)
  deriving DecidableEq, Repr

/-- A command taken from a ring (R354, R358). -/
structure Cmd where
  func : Func
  ring : Nat
  ten : Ten
  /-- Order of taking, module-wide. -/
  seq : Nat
  /-- The completion ring that holds its reservation; none once that ring has been disabled. -/
  comp : Option Nat
  desc : List Byte
  phase : CmdPhase
  kills : Nat
  /-- Bus errors that the next read of a source image by this command meets, at most two (R181). -/
  srcErrs : Nat
  deriving DecidableEq, Repr

/-! ## Memory tiers (R244 to R276) -/

/-- What ECC finds in a stored unit at its next check. -/
inductive Ecc where
  | corrected | uncorrectable
  deriving DecidableEq, Repr

/-- State of a Hold bank (HLD_BANK_INFO, R260). -/
structure Bank where
  /-- 0 FREE, 1 IN_USE, 2 RETIRED. -/
  state : Nat
  ce : Nat
  ue : Nat
  entry : BitVec 16
  /-- The bank keeps state saved by a power state (R462). -/
  saved : Bool
  deriving DecidableEq, Repr

def Bank.reset : Bank := ⟨0, 0, 0, 0, false⟩

/-- A leaf page under migration: virtual address, level, address of its entry, old and target first frame (R254). -/
structure MigPage where
  va : Nat
  level : Nat
  entry : Nat
  old : Nat
  target : Nat
  deriving DecidableEq, Repr

/-- A migration in progress (R254): the tenancy and its key slot for the target frames, the passes begun, and the leaf
pages of the buffer. -/
structure Migration where
  ten : Ten
  slot : Nat
  passes : Nat
  pages : List MigPage
  deriving DecidableEq, Repr

/-- A tracking slot of the skew monitor (R253): the buffer it follows, its bytes on each channel in this window, and the
request for migration; `deferred` waits for the next window. -/
structure SkewSlot where
  ten : Ten
  route : Nat
  buffer : Nat
  addr : Nat
  bytes : Nat
  counts : Map Nat
  wanted : Bool
  deferred : Bool
  deriving DecidableEq, Repr

/-! ## Generation (R185 to R211) -/

/-- A waybill in the table: its 64-byte entry (R188) and the engine's own records of it. -/
structure Waybill where
  image : List Byte
  ten : Ten
  /-- The waybill ring of the submission, its completion ring, and the index of the submission in the ring. -/
  ring : Nat
  comp : Nat
  index : Nat
  /-- Calendar microseconds from which the wait runs (R195). -/
  since : Nat
  /-- It qualified as urgent when last looked at (R195). -/
  qualifies : Bool
  /-- The deadline has been missed and counted. -/
  missed : Bool
  /-- E: the number of leading positions whose KV is valid. -/
  e : Nat
  /-- Pages that the engine has mapped for the window: virtual address and frame. -/
  pages : List (Nat × Nat)
  /-- The pending action: 1 PAUSE_KEEP, 2 PAUSE_DROP, 3 ABORT (R192). -/
  action : Option Nat
  /-- The step in flight that carries the waybill (R194). -/
  step : Option Word64
  /-- Caravan slots reserved for that step (R197). -/
  reserved : Nat
  /-- The token records written under this waybill: position of the first, its version, version of the last, and the OR of
  the flags (R221). -/
  firstPos : Option Nat
  oldest : BitVec 16
  last : BitVec 16
  flagsOr : Nat
  /-- Status of a write fault on its caravan ring: the waybill ends when the engine next builds a step (R219). -/
  ringFault : Option Nat
  /-- The status of an ending outside the processing of a step, whose sequence-end record waits for room (R205). -/
  ending : Option Nat
  /-- WGT_TEN_VERSION.ACTIVE at that ending (R221). -/
  endVersion : BitVec 16
  deriving DecidableEq, Repr

/-- An entry of a ragged slot as R199 lays it out. -/
abbrev RagEntry := List Byte

/-- A ragged slot of an unprocessed step (R198, R199). -/
structure GenSlot where
  step : Word64
  entries : List RagEntry
  /-- A follower has mapped every page of the slot; a leader's slot is ready once written (R208). -/
  ready : Bool
  /-- This module has contributed its LEAN indication to the group, and the combined indication (R167). -/
  sent : Bool
  lean : Option Bool
  deriving DecidableEq, Repr

/-- What a generation route keeps of the WBL registers from its ROUTE_START (R211). -/
structure GenCfg where
  ragged : Nat
  result : Nat
  depth : Nat
  group : Nat
  leader : Bool
  deriving DecidableEq, Repr

/-! ## Experience and learning (R213 to R236) -/

/-- A sequence whose sequence-end record is in a caravan ring and is not released: the slot of the record, the pinned slot,
the module's copies of WAYBILL, STATUS, CAUSE, LENGTH and OLDEST_VERSION (R217, R222, R225), and the learning step whose
batch has taken it. -/
structure CSeq where
  endSlot : Nat
  pin : Option Nat
  waybill : Nat
  status : Nat
  cause : Nat
  length : Nat
  oldest : BitVec 16
  batch : Option Word64
  deriving DecidableEq, Repr

/-- A caravan ring since its ENABLE was set (R213, R214). -/
structure Caravan where
  base : Nat
  sizeLog2 : Nat
  learn : Bool
  /-- REWARD_MODE is NONE. -/
  unrewarded : Bool
  /-- WRITE, with the records that the pointer block does not show yet (R215). -/
  write : Nat
  /-- Pins of live waybills: waybill and slot (R217). -/
  pins : List (Nat × Nat)
  seqs : List CSeq
  /-- Something has waited for room since RELEASE last advanced (R218). -/
  starved : Bool
  deriving DecidableEq, Repr

/-- A batch slot that is built and whose step is not committed (R226). -/
structure Batch where
  step : Word64
  seqs : Nat
  rows : Nat
  /-- Micro-batches: the first row and the number of rows of each (R227). -/
  micro : List (Nat × Nat)
  /-- The gradient areas have been zeroed for the present run of the step (R234, R235). -/
  zeroed : Bool
  deriving DecidableEq, Repr

/-- What a scheduled route keeps of the LRN registers from its ROUTE_START (R242). -/
structure LearnCfg where
  batch : Nat
  slotLog2 : Nat
  depth : Nat
  chunks : Nat
  refEn : Bool
  /-- The schedule table of TABLE mode: OP and stage of each entry (R233). -/
  table : Option (List (Nat × Nat))
  /-- Gradient areas to zero: Hold or virtual, address, bytes. -/
  grads : List (Bool × Nat × Nat)
  deriving DecidableEq, Repr

/-! ## Routes and clusters (R85, R135 to R153) -/

/-- What the module keeps of a program header (R85, R108). -/
structure Prog where
  skq2 : Bool
  midCmt : Bool
  codeLen : Nat
  entry : Nat
  stepEntry : Nat
  scratchBase : Nat
  scratchLen : Nat
  stageLen : Nat
  deriving DecidableEq, Repr

/-- A program with no code. -/
def Prog.empty : Prog := ⟨false, false, 0, 0, 0, 0, 0, 0⟩

/-- A stage of a loaded route (R136). -/
structure Stage where
  prog : Prog
  /-- The module's own copy of the program, header and code (R141). -/
  code : List Byte
  costHint : Nat
  /-- Cost of R145, once PLC_MEASURE steps have run. -/
  measured : Option Nat
  /-- Busy tile-cycles of the stage's clusters in each of its last steps, by step (R145). -/
  busyLog : Map Nat
  /-- The highest step that a cluster of the stage has committed (R151). -/
  top : Option Word64
  shape : Nat
  kind : Nat
  minCl : Nat
  maxCl : Nat
  branch : Nat
  layerFirst : Nat
  layerCount : Nat
  items : Nat
  deriving DecidableEq, Repr

/-- A buffer of a loaded route (R137). -/
structure Buffer where
  addr : Nat
  bytes : Nat
  cls : Nat
  tier : Nat
  stage : Nat
  migrateOk : Bool
  bayFirst : Nat
  bayCount : Nat
  deriving DecidableEq, Repr

/-- A route barrier (R105, R139): the clusters whose spans count; where they are to change, the clusters that have yet to
reach a boundary before they do; the participants that have arrived in the current phase, as cluster·256 + span; and the
number of phases completed. -/
structure Barrier where
  stageMask : Nat
  group : Nat
  members : List Nat
  due : Option (List Nat)
  /-- The die that holds the hardware barrier (R311). -/
  die : Nat
  arrived : List Nat
  phase : Nat
  /-- Every local participant has arrived and the group operation is in progress (R313). -/
  inGroup : Bool
  deriving DecidableEq, Repr

/-- The division of a stage's items for one step (R149): for each LOGICAL number its first item and how many; and the shares
of clusters that left the stage before the step, by pass, which the others take over. -/
structure Division where
  stage : Nat
  step : Word64
  shares : List (Nat × Nat × Nat)
  orphans : List (Nat × Nat × Nat)
  deriving DecidableEq, Repr

/-- States of PLC_ROUTE.STATE. -/
inductive RouteState where
  | loaded | running | stopping | stopped
  deriving DecidableEq, Repr

/-- A loaded route. -/
structure Route where
  ten : Ten
  routeId : Nat
  learning : Bool
  steal : Bool
  partner : Nat
  seed : Word64
  firstStep : Word64
  state : RouteState
  stages : List Stage
  buffers : List Buffer
  edges : List (Nat × Nat × Nat)
  /-- The allocation that cluster moves are carrying out (R145). -/
  alloc : Option (List Nat)
  barriers : List Barrier
  /-- Frames of the route area, staging, save areas and buffer pages. -/
  area : List Nat
  /-- Frames of buffer pages that the module allocated and mapped. -/
  pages : List Nat
  /-- The ROUTE_START command in execution. -/
  startCmd : Option Nat
  /-- The ROUTE_STOP commands in execution, and whether one unloads. -/
  stopCmds : List Nat
  stopUnload : Bool
  /-- ROUTE_START commands that wait for the stop to take effect (R142). -/
  waiting : List Nat
  /-- Stopped by a suspension, to resume at RESUME (R361). -/
  suspended : Bool
  /-- The pages of a migration in progress, by buffer number. -/
  migrations : Map Migration
  divisions : List Division
  /-- The highest step into which a cluster of each stage has been released (R175). -/
  entered : Map Word64
  /-- Generation: the settings of the ROUTE_START, the slots of the unprocessed steps, oldest first, and the next step to
  build (R198). -/
  gen : GenCfg
  slots : List GenSlot
  nextBuild : Word64
  /-- Learning: the settings of the ROUTE_START, and the batches of the uncommitted steps, oldest first (R226). -/
  learn : Option LearnCfg
  batches : List Batch
  /-- The ring that supplied the last sequence of the last batch (R226). -/
  lastRing : Nat
  deriving DecidableEq, Repr

/-- The steps of a row repair (R48). -/
inductive RepairPhase where
  /-- The cluster is drained and the row map is written; the spare powers up. -/
  | poweringUp
  | selfTest
  | shifting
  /-- The shift is done and the refill goes on. -/
  | refilling
  deriving DecidableEq, Repr

/-- A repair in progress: the failed row and offset of each row being repaired. -/
structure Repair where
  phase : RepairPhase
  rows : List (Nat × Nat)
  deriving DecidableEq, Repr

/-- A move of a cluster (R151): the route and stage it goes to; none where it goes to the idle pool. -/
structure Move where
  ten : Ten
  dest : Option (Nat × Nat)
  /-- The physical cluster that takes over the cluster's LOGICAL number (R147); none: the cluster itself moves. -/
  target : Option Nat
  /-- The LOGICAL number to take; none: the lowest unused one (R147). -/
  logical : Option Nat
  /-- Boundary contents of the bays that the save area carries over with the LOGICAL number, by tile (R91, R137). -/
  save : Map Mem
  /-- The cluster has been reassigned and its refill goes on. -/
  reassigned : Bool
  /-- A swap front is inside the pipeline before the stage: the removal waits until it has passed (R152). -/
  held : Bool
  deriving DecidableEq, Repr

/-- What the module keeps for a cluster beside its FAB registers. -/
structure Cl where
  route : Option Nat
  stage : Nat
  /-- The step being executed, or the next one to execute at a boundary. -/
  step : Word64
  /-- The first step that the cluster runs of its stage (R151). -/
  joined : Word64
  /-- The cluster has committed a step of its route, or has joined a stage that had (R79). -/
  committedAny : Bool
  /-- The resumption kind of the next release: 0, 1 or 2 (R79). -/
  nextKind : Nat
  depot : Mem
  depotEcc : Map Ecc
  /-- Lines marked bad by an uncorrectable error (R29). -/
  badLines : List Nat
  /-- The first item of the cluster's share not yet sent, and how many are left (R149). -/
  nextItem : Nat
  itemsLeft : Nat
  /-- The pass of a paged stage (R202), and the spans that have been sent the end of it. -/
  pass : Nat
  ended : List Nat
  /-- Next schedule operation of each span (R231), by span number. -/
  sched : Map Nat
  move : Option Move
  repair : Option Repair
  /-- Fault declarations that wait for a boundary or for the running repair (R50, R54). -/
  faults : List (Nat × Nat)
  retirePending : Bool
  /-- Waymaster's own record of FAB_CL_ASSIGN (R158), and whether it has rewritten the entry once. -/
  assignRecord : Word64
  rewritten : Bool
  /-- The cluster of which this one is the twin (R412). -/
  twinOf : Option Nat
  /-- The twin's digest of this step disagrees (R413): a latent fault of the hardware. -/
  digestBad : Bool
  mismatched : Bool
  /-- Repair records to append to the configuration EEPROM: row and offset (R48). -/
  toRecord : List (Nat × Nat)
  deriving DecidableEq, Repr

def Cl.reset : Cl where
  route := none
  stage := 0
  step := 0
  joined := 0
  committedAny := false
  nextKind := 0
  depot := []
  depotEcc := []
  badLines := []
  nextItem := 0
  itemsLeft := 0
  pass := 0
  ended := []
  sched := []
  move := none
  repair := none
  faults := []
  retirePending := false
  assignRecord := 0xFFFFFFFF00000000#64
  rewritten := false
  twinOf := none
  digestBad := false
  mismatched := false
  toRecord := []

/-- A recovery epoch (R409). -/
structure Epoch where
  routes : List Nat
  ten : Ten
  cluster : Nat
  faults : Nat
  restarted : Bool
  /-- Clusters whose repair the epoch waits for. -/
  clusters : List Nat
  deriving DecidableEq, Repr

/-! ## Weights (R160 to R181) -/

/-- An entry of the weight record's copy of the layer table (R160); `leanAddr` is none where the layer has no lean copy. -/
structure Layer where
  offset : Nat
  bytes : Nat
  leanOff : Nat
  leanAddr : Option Nat
  leanBytes : Nat
  streamed : Bool
  deriving DecidableEq, Repr

/-- A travelling or queued swap (R162, R173 to R178). -/
structure WSwap where
  cmd : Nat
  version : BitVec 16
  source : Nat
  group : Nat
  /-- The front step S, once fixed. -/
  front : Option Word64
  /-- The proposal P sent to the group (R178). -/
  proposal : Option Word64
  /-- Resident layers staged, or BROKEN at this version. -/
  staged : List Nat
  /-- The route was killed or resumed since S was fixed: released clusters latch the marker themselves (R180). -/
  rerun : Bool
  deriving DecidableEq, Repr

/-- What a berth holds; `ready` is false while the slice waits to be staged again (R181). -/
structure Berth where
  layer : Nat
  version : BitVec 16
  ready : Bool
  deriving DecidableEq, Repr

/-- The WGT settings of a tenancy that change at a step boundary (R183): WGT_MISS_POLICY, WGT_LAYER_DEADLINE, and the fields of
WGT_TEN_WINDOW. -/
structure WSettings where
  lean : Bool
  deadline : Nat
  lead : Nat
  prestage : Nat
  depth : Nat
  deriving DecidableEq, Repr

/-- The weight record of a tenancy (R162), with the berths as WEIGHT_LOAD read them. -/
structure WRecord where
  layers : List Layer
  active : BitVec 16
  source : Nat
  travel : Option WSwap
  queued : Option WSwap
  /-- Lean tags of the layers whose lean copy is valid (R168). -/
  lean : Map (BitVec 16)
  base : Nat
  size : Nat
  count : Nat
  /-- Occupied berths. -/
  berths : Map Berth
  broken : List (Nat × BitVec 16)
  /-- Resident layers to stage again at a version (R174, R181). -/
  restage : List (Nat × BitVec 16)
  /-- The settings in force while a generation route runs (R183). -/
  settings : WSettings
  /-- Decisions of R166, by stage (64·route + stage), layer and step: LEAN decided, and deadlines that have expired. -/
  decided : List (Nat × Nat × Word64)
  missed : List (Nat × Nat × Word64)
  /-- VERS results given in a step, by stage, layer and step (R163). -/
  answers : List (Nat × Nat × Word64 × Word)
  /-- Layers that the tiles of each cluster have asked for in its step, newest first. -/
  asked : Map (List Nat)
  /-- Steps whose waybills end with DATA_ERROR (R181), and steps with a layer run from its lean copy (R167). -/
  badSteps : List Word64
  leanSteps : List Word64
  /-- Front steps passed and the version in force before each, kept while a step before one of them is unprocessed. -/
  past : List (Word64 × BitVec 16)
  deriving DecidableEq, Repr

/-- A shared base (R172): its byte count, its DRAM frames, and its run of Hold map entries. -/
structure SharedBase where
  bytes : Nat
  frames : List Nat
  hold : Option (Nat × Nat)
  deriving DecidableEq, Repr

/-! ## Group operations (R313) -/

/-- A group operation at this member: 1 ARRIVE, 2 MAX64, 3 OR64. `own` is this module's contribution once made; `value` the
combination of the stages passed; `got` the values of the line of each stage, by 64·stage + position. -/
structure GroupOp where
  ten : Ten
  group : Nat
  op : Nat
  name : Nat
  phase : Nat
  own : Option Word64
  stage : Nat
  value : Word64
  got : Map Word64
  deriving DecidableEq, Repr

/-! ## Collectives (R322 to R336) -/

/-- The operands of a collective (R326). `sizes` holds SEND_OFF, SEND_COUNT, RECV_OFF and RECV_COUNT of each peer. -/
structure ColSpec where
  ten : Nat
  op : Nat
  reduce : Nat
  format : Nat
  axes : Nat
  group : Nat
  name : Nat
  count : Nat
  srcHold : Bool
  src : Nat
  dstHold : Bool
  dst : Nat
  sizes : List (Nat × Nat × Nat × Nat)
  deriving DecidableEq, Repr

/-- A chunk of a contribution (R331): the ranks that its data hold, its offset in the block or run, the data. -/
structure Chunk where
  first : Nat
  last : Nat
  offset : Nat
  data : List Byte
  deriving DecidableEq, Repr

/-- An instance at this member: the ONCE command or the bound slot, its INSTANCE, whether it has started here and has sent,
the chunks it holds, the chunks it has asked for again, the LATE_RANK seen last, and its receive space. -/
structure Inst where
  ten : Ten
  cmd : Option Nat
  slot : Option Nat
  step : Word64
  spec : ColSpec
  started : Bool
  sent : Bool
  got : List Chunk
  asked : List (Nat × Nat × Nat)
  late : Option Nat
  frames : List Nat
  deriving DecidableEq, Repr

/-- A bound slot (R330): the BIND command until every member has bound, the route and the trigger, the phases that have
completed and are to start an instance, the step last started in this run and the highest ever, the UNBIND that waits, its
receive space and retention, and the source contents of the last two steps. -/
structure BoundSlot where
  spec : ColSpec
  cmd : Option Nat
  route : Nat
  trigger : Nat
  stage : Nat
  flag : Nat
  due : List Word64
  last : Option Word64
  high : Option Word64
  unbind : Option Nat
  frames : List Nat
  retained : List (Word64 × List Byte)
  deriving DecidableEq, Repr

/-! ## Ferries, checkpoints, the ledger (R379, R386 to R438) -/

/-- What the module keeps for a ferry channel: the descriptor in execution; whether a completion is reserved for it; a DRAIN in
force; the remote chunks that are issued and unacknowledged, and those acknowledged; the next chunk to issue. -/
structure Ferry where
  entry : Option (List Byte)
  paid : Bool
  draining : Bool
  opened : List Nat
  acked : List Nat
  next : Nat
  deriving DecidableEq, Repr

/-- A capture that has been released: its generation, step, slot, and the frames of its virtual shards (R432, R433). -/
structure Sending where
  gen : Word64
  step : Word64
  slot : Bool
  frames : List Nat
  cmd : Option Nat
  deriving DecidableEq, Repr

/-- An armed capture (R431): the command of ONCE and of CKPT_DURABLE until its release; the destination of a durable one; the
route; the period, 0 for one capture; the next step whose boundary is captured; the shards, Hold or virtual, address and
bytes; and the capture that is being sent. -/
structure Capture where
  cmd : Option Nat
  dest : Option Nat
  routeId : Nat
  period : Nat
  due : Option Word64
  shards : List (Bool × Nat × Nat)
  sending : Option Sending
  deriving DecidableEq, Repr

/-- A restore in progress (R437, R438): the command, the holder and its slots' manifests as they arrive, the generation asked
for; once a manifest is chosen its slot, the staging pages of its virtual shards and staging banks of its Hold shards (old
and new), and the parts of the shards received: shard, offset, bytes. -/
structure Restore where
  cmd : Nat
  holder : Nat
  want : Word64
  heads : List (Bool × Nat × List Byte)
  chosen : Option (Bool × List Byte)
  pages : List MigPage
  banks : List (Nat × Nat)
  parts : List (Nat × Nat × List Byte)
  deriving DecidableEq, Repr

/-- A ledger record before it is laid out (R376), or the totals of a carry (R379): its tenancy, FLAGS, START, the counts
SECONDS, CLUSTER_MS, BUSY, DRAM, HOLD, LINK, HOST, MODELLED and RECONCILED in that order, and SLOWDOWN. -/
structure LedgerRow where
  ten : Nat
  partly : Bool
  final : Bool
  merged : Bool
  unreconciled : Bool
  start : Nat
  counts : List Nat
  slowdown : Nat
  deriving DecidableEq, Repr

/-- An open ledger interval of a tenancy (R376): its start, PARTIAL, and the remainders of its byte counts. -/
structure Ledger where
  start : Nat
  partly : Bool
  busy : Nat
  dram : Nat
  hold : Nat
  link : Nat
  host : Nat
  deriving DecidableEq, Repr

/-- What the I/O die keeps of start-up, clocks, power and the calendar (R448 to R472, R487, R489). [log 8 DESIGN CHOICE] -/
structure Board where
  /-- Start-up: 0 no input; 1 input present; 2 trims loaded; 3 rails in regulation; 4 training DRAM; 5 zeroing; 6 done; 7 a rail
  has failed to regulate. -/
  boot : Nat
  /-- The configuration EEPROM does not answer or fails its CRC; a rail does not regulate: latent faults (R470). -/
  eepromBad : Bool
  railBad : Bool
  /-- Both supplies of the calendar have been below its holding voltage: a latent condition (R468). -/
  calendarLost : Bool
  /-- TEST_EN is high (R416). -/
  testEn : Bool
  /-- PERST_N is asserted (R490, R491). -/
  perst : Bool
  /-- RESET_N is held low since power-on: a latent condition, which holds start-up at step 6 (R490). -/
  resetLow : Bool
  /-- REFCLK is missing: a latent condition (R492). -/
  refclkLost : Bool
  /-- The level of REFCLK_MODE, and what the last P reset sampled: a separate reference with independent spread, else the common
  clock (R492). -/
  refMode : Bool
  separateRef : Bool
  /-- The multiplexer selects the internal oscillator (R449), which CLK_STATUS.SOURCE reports. -/
  internalRef : Bool
  /-- A health test of the entropy source fails (R285), which RNG_ENTROPY_STATUS.HEALTHY reports from start-up on. -/
  entropyBad : Bool
  /-- Windows since qualification started, up to 64, and consecutive failing windows (R452, R470). -/
  windows : Nat
  badRun : Nat
  /-- A thermal trip is in force (R459). -/
  tripped : Bool
  /-- Channels and how often their training was retried (R470). -/
  retries : Map Nat
  /-- Evaluations in a row at which the tile step could rise (R458). -/
  cool : Nat
  /-- The power state being entered, and whether an exit is in progress (R461 to R464). -/
  target : Option Nat
  leaving : Bool
  /-- Whether the state entered had saved tiles in Hold banks (R462). -/
  savedTiles : Bool
  /-- A LOAD waits for the next tick (R467). -/
  rtcLoad : Bool
  /-- Consecutive failed polls of the input monitor (R487). -/
  pollFails : Nat
  /-- A fall of the tile step that waits for the exit from a power state, and whether power and temperature call for it
  (R458, R472). -/
  stepDown : Option (Bool × Bool)
  deriving DecidableEq, Repr

def Board.reset : Board := ⟨0, false, false, false, false, true, false, false, false, false, true, false, 0, 0, false, [], 0, none, false, false, false, 0, none⟩

/-- The sideband (R477 to R485). -/
structure Side where
  pointer : Nat
  lastErr : Bool
  assignOut : Bool
  /-- The mirrors, by `regKey`, and writes that have not taken effect (R481). -/
  mirror : Map Word64
  writes : List (Nat × Word64)
  /-- Kinds that have become severe, and that number when SB_ALERT_N was released (R482). -/
  severeRises : Nat
  alertAt : Option Nat
  deriving DecidableEq, Repr

def Side.reset : Side := ⟨0, false, false, [], [], 0, none⟩

/-- The X receive buffer reservation of a destination tile and channel (R42): the source that holds it. -/
structure XRes where
  holder : Option Nat
  /-- The source served last, for the round-robin order. -/
  last : Nat
  deriving DecidableEq, Repr

/-! ## The module -/

/-- The outputs that follow the error groups: the INT summary registers, and the alive pin as ALV_STATUS and
ALV_STOPS report it (R407, R408). -/
structure Pins where
  severeSum : Word64
  statusSum : Word64
  fab0 : Word64
  fab1 : Word64
  running : Bool
  level : Bool
  forced : Bool
  clock : Bool
  severe : Bool
  block : Nat
  cluster : Nat
  kind : Nat
  stops : Word64
  deriving DecidableEq, Repr

def Pins.reset : Pins := ⟨0, 0, 0, 0, false, false, false, false, false, 0, 0, 0, 0⟩

/-- The whole module but the queue of commands. -/
structure Module where
  /-- Register values written since the P reset, by `regKey`; an unlisted register has its reset value. -/
  regs : Map Word64
  /-- Snapshot latches (R8), by function and register. -/
  latches : Map Word64
  /-- How many free values have been drawn. The model's own. -/
  freeIx : Nat
  /-- Open class windows and the events counted in each (R403), by group and kind. -/
  errWin : Map Nat
  /-- Messages that have left the module, newest first. -/
  out : List OutMsg
  /-- Live signatures, oldest first (R421). -/
  sigs : List (List Byte)
  /-- The alive pin is driven: start-up has ended (R407). -/
  aliveDriven : Bool
  /-- The clock event under HOLD has stopped the pin (R407). -/
  aliveHold : Bool
  pins : Pins
  -- host interface
  rings : Map Ring
  /-- The tenancy served last at each consumer of ring entries, by ring type (R350). -/
  turns : Map Nat
  cmds : Map Cmd
  nextSeq : Nat
  /-- Host memory bytes that the module has written; the rest are `Config.hostByte`. -/
  hostMem : Map Byte
  -- memory tiers
  dram : Mem
  /-- Latent errors of 64-byte DRAM units (R247): what ECC finds at the next read or scrub. -/
  dramEcc : Map Ecc
  /-- Poisoned 64-byte units (R247). -/
  poison : Map Bool
  /-- Ownership tag in bits [15:0] and its complement in [31:16], by frame (R265). -/
  tags : Map Word
  /-- The next stack of a request without NEAR (R266). -/
  nextStack : Nat
  /-- Key issued to each key slot: one more than its issue number, by 4·tenancy + slot (R245, R254). -/
  keys : Map Nat
  nextKey : Nat
  /-- The next of the three stacks beside a die for pages placed beside it, by die (R148). -/
  nextNear : Map Nat
  /-- Patch frames withdrawn, by channel (R249). -/
  patches : Map (List Nat)
  /-- m of R249 by channel that is or is being mapped out: the mapped-out channels of its stack, itself included. -/
  mapOrder : Map Nat
  /-- Patch frames still to be withdrawn, by stack (R249). -/
  patchDue : Map Nat
  /-- Translation caches (R264): the leaf entry of a 64 KiB page, by cache, tenancy and page. -/
  xcache : Map Word64
  /-- Bytes left in the token bucket of a tenancy on a channel when it last served, by 512·tenancy + channel (R251). -/
  tokens : Map Nat
  /-- The skew monitor's slots (R253). -/
  skew : List SkewSlot
  hold : Mem
  /-- Latent errors of 8-byte Hold words (R260). -/
  holdEcc : Map Ecc
  holdPoison : Map Bool
  /-- Hold map entries as HLD_MAP_DATA lays them out (R257). -/
  holdMap : Map Word
  banks : Map Bank
  /-- Shared bases that are loaded, by number, and their grants: 8·tenancy + base, with the virtual address (R172). -/
  bases : Map SharedBase
  baseGrants : Map Nat
  /-- Blocks whose next transfer fails its path parity (R400): a latent fault. -/
  pathErr : List Block
  -- fabric
  tiles : Map Tile
  cls : Map Cl
  routes : Map Route
  deck : List DeckPkt
  /-- Deck packets sent so far. -/
  deckSeq : Nat
  xres : Map XRes
  epochs : List Epoch
  /-- Row maps of the factory and field repair records of the configuration EEPROM, by 16·cluster + row (R51). -/
  repairRecords : Map Word
  /-- Clusters whose field repair records the next P reset erases (R53). -/
  eraseRecords : List Nat
  /-- Row maps that will disagree with their complement as they are next loaded, and how often, by 16·cluster + row: a latent
  fault (R51). -/
  mapFaults : Map Nat
  /-- Tiles whose generator failed the self-test while their cluster was inside a step: they are faults at its next boundary
  (R286). -/
  rngBad : List TileId
  /-- The counters of R153, by tenancy. -/
  balHi : Map Nat
  balLo : Map Nat
  weights : Map WRecord
  groupOps : List GroupOp
  /-- The waybill table (R188). -/
  waybills : Map Waybill
  /-- Page lists kept by PAUSE_KEEP, and at a follower, by tenancy and window base: virtual address and frame (R206, R208). -/
  kept : List (Ten × Nat × List (Nat × Nat))
  /-- RELEASE notices that the next slot of a tenancy carries: waybill, window base and exponent (R208). -/
  notices : List (Ten × Nat × Nat × Nat)
  caravans : Map Caravan
  /-- Tenancies for which the wait of R226 has run out since the first ready sequence appeared. -/
  batchDue : List Ten
  /-- The key and the counter that a GO latched, until DONE (RNG_KAT_CTL). -/
  kat : Option (Word64 × Word64 × Word64)
  ports : Map Port
  /-- Packets that have passed the filter of R308 and wait to act, oldest first. -/
  inbox : List (Ten × Packet)
  /-- Collective instances, and bound slots by 256·tenancy + slot. -/
  insts : List Inst
  slots : Map BoundSlot
  /-- RESUME written while the tenancy is SUSPENDING (R361). -/
  resumeDue : List Ten
  ferries : Map Ferry
  /-- Captures armed or running, and restores, by tenancy. -/
  captures : Map Capture
  restores : Map Restore
  /-- Bytes of each shard received into the slots of the buddy area, by 2·tenancy + slot (R430). -/
  held : Map (List Nat)
  /-- Creations that wait for the entropy source (R285, R370), and teardowns whose scrub runs (R372). -/
  creating : Option Ten
  scrubbing : List Ten
  /-- The virtual function bound to each tenancy at its creation (R369). -/
  vfs : Map Nat
  /-- The ledger: open intervals by tenancy, the measured energy at their start, the interval length in force, records that wait,
  oldest first, and carries by tenancy. -/
  ledgers : Map Ledger
  ledgerEnergy : Nat
  ledgerLen : Nat
  ledgerQueue : List LedgerRow
  ledgerCarry : Map LedgerRow
  board : Board
  side : Side
  deriving DecidableEq, Repr

/-- The state of the machine: the module and the commands that wait, first in, first out. -/
structure State where
  mod : Module
  pending : List Instr
  deriving DecidableEq, Repr

/-- The module right after a P reset: every register at its reset value, every memory zero, nothing in progress. -/
def Module.reset : Module where
  regs := []
  latches := []
  freeIx := 0
  errWin := []
  out := []
  sigs := []
  aliveDriven := false
  aliveHold := false
  pins := .reset
  rings := []
  turns := []
  cmds := []
  nextSeq := 0
  hostMem := []
  dram := []
  dramEcc := []
  poison := []
  tags := []
  nextStack := 0
  keys := []
  nextKey := 0
  nextNear := []
  patches := []
  mapOrder := []
  patchDue := []
  xcache := []
  tokens := []
  skew := []
  hold := []
  holdEcc := []
  holdPoison := []
  holdMap := []
  banks := []
  bases := []
  baseGrants := []
  pathErr := []
  tiles := []
  cls := []
  routes := []
  deck := []
  deckSeq := 0
  xres := []
  epochs := []
  repairRecords := []
  eraseRecords := []
  mapFaults := []
  rngBad := []
  balHi := []
  balLo := []
  weights := []
  groupOps := []
  waybills := []
  kept := []
  notices := []
  caravans := []
  batchDue := []
  kat := none
  ports := []
  inbox := []
  insts := []
  slots := []
  resumeDue := []
  ferries := []
  captures := []
  restores := []
  held := []
  creating := none
  scrubbing := []
  vfs := []
  ledgers := []
  ledgerEnergy := 0
  ledgerLen := 60
  ledgerQueue := []
  ledgerCarry := []
  board := .reset
  side := .reset

/-- The machine right after reset: no command waits. -/
def State.reset : State := ⟨Module.reset, []⟩

end Sys2Proof.Machine
end

