-- ==== Sys2Proof/Machine/Ops.lean ====
section
/-! DEFINITION. Machine/Ops.lean: the named operations over registers, error groups, interrupts and resets that every
command uses (R6 to R11, R374, R400 to R408, R421), and the shape of a meaning. -/

namespace Sys2Proof.Machine

/-! ## Registers -/

/-- The key of a register in the register file: its position and its two indices. -/
def regKey (r : RegId) (i j : Nat) : Nat := r.ctorIdx * 2 ^ 40 + i * 2 ^ 16 + j

/-- Coefficients that the configuration EEPROM loads (LDG_COEF). -/
def ldgCoef : Nat → Nat
  | 0 => 21354 | 1 => 11200 | 2 => 1172 | 3 => 16000 | 4 => 40000 | 5 => 600 | _ => 0

end Sys2Proof.Machine

namespace Sys2Proof

open Machine

/-- The reset value of a register (R10): every field at the value its table gives. [log 2 DESIGN CHOICE] -/
def RegId.resetValue (r : RegId) (i : Nat) : Word64 :=
  match r with
  | .LDG_COEF => BitVec.ofNat 64 (ldgCoef i)
  | .GLB_SERIAL => Config.serial
  | .GLB_ID | .HIF_ID => BitVec.ofNat 64 (0x5253 * 2 ^ 48 + 0x3160 * 2 ^ 32) ||| (Config.stepping.setWidth 64 <<< 16)
  | r => BitVec.ofNat 64 (r.fields.foldl (fun acc f => acc + f.reset % 2 ^ (f.hi + 1 - f.lo) * 2 ^ f.lo) 0)

end Sys2Proof

namespace Sys2Proof.Machine

/-- The stored value of a register. -/
def Module.reg (m : Module) (r : RegId) (i : Nat := 0) (j : Nat := 0) : Word64 :=
  (Map.get? m.regs (regKey r i j)).getD (r.resetValue i)

/-- Store a whole register. -/
def Module.setReg (m : Module) (r : RegId) (i j : Nat) (v : Word64) : Module :=
  { m with regs := Map.insert m.regs (regKey r i j) v }

/-- Width of a field in bits. -/
def Field.width (f : Field) : Nat := f.hi + 1 - f.lo

/-- The value of a field. -/
def Module.fld (m : Module) (f : Field) (i : Nat := 0) (j : Nat := 0) : Nat :=
  bitsAt (m.reg f.reg i j).toNat f.lo f.width

/-- A one-bit field as a truth value. -/
def Module.flag (m : Module) (f : Field) (i : Nat := 0) (j : Nat := 0) : Bool := m.fld f i j == 1

/-- Store a field, leaving the register's other bits. -/
def Module.setFld (m : Module) (f : Field) (i j : Nat) (v : Nat) : Module :=
  m.setReg f.reg i j (BitVec.ofNat 64 (putBits (m.reg f.reg i j).toNat f.lo f.width v))

/-- Store a one-bit field. -/
def Module.setFlag (m : Module) (f : Field) (i j : Nat) (v : Bool) : Module := m.setFld f i j (if v then 1 else 0)

/-- Add to a counter field, which saturates at the largest value of its width. -/
def Module.addFld (m : Module) (f : Field) (i j : Nat) (n : Nat := 1) : Module :=
  m.setFld f i j (satAdd (2 ^ f.width - 1) (m.fld f i j) n)

/-- Take away from a counter field, which stops at zero. -/
def Module.subFld (m : Module) (f : Field) (i j : Nat) (n : Nat := 1) : Module :=
  m.setFld f i j (m.fld f i j - n)

/-- A value and its complement in one 64-bit register or table word (R7, R11). -/
def pairWord (v : Nat) : Word64 :=
  BitVec.ofNat 64 (v % 2 ^ 32 + (2 ^ 32 - 1 - v % 2 ^ 32) * 2 ^ 32)

/-- The complement half agrees with the value (R11). -/
def pairOk (w : Word64) : Bool := w == pairWord w.toNat

end Sys2Proof.Machine

namespace Sys2Proof

open Machine

/-- The bits of a register that carry an access code, as a mask. -/
def RegId.maskOf (r : RegId) (a : Access) : Nat :=
  (r.fields.filter (fun f => f.access == a)).foldl (fun acc f => acc ||| (2 ^ f.width - 1) * 2 ^ f.lo) 0

/-- What a PW register stores of an accepted write: the fields of the value half with their complement. Reserved bits of the
value read as zero (R6), and those of the complement half as ones, so that the pair agrees (R7). [log 79 DEDUCED] -/
def RegId.pairValue (r : RegId) (v : Word64) : Word64 := pairWord (v.toNat % 2 ^ 32 &&& r.maskOf .pw)

end Sys2Proof

namespace Sys2Proof.Machine

/-! ## Free values -/

/-- Advance the counter of free values. -/
def Module.drawn (m : Module) : Module := { m with freeIx := m.freeIx + 1 }

/-- The next free 64-bit value. -/
def Module.free64 (m : Module) : Word64 := Config.freeWord64 m.freeIx

/-! ## Calendar (R466) -/

/-- Calendar microseconds: seconds and the fraction, rounded by R62. [log 5 DESIGN CHOICE] -/
def Module.calendarUs (m : Module) : Nat :=
  m.fld Fld.RTC_SECONDS_SECONDS * 1000000 + roundHalfUp (m.fld Fld.RTC_FRAC_FRAC * 1000000) 32768

/-! ## Clocks and power states -/

/-- The dies are clocked and powered: from step 6 of start-up on, no HOLD, no thermal trip (R453, R459, R469). -/
def Module.clocked (m : Module) : Bool :=
  decide (4 ≤ m.board.boot) && decide (m.board.boot ≤ 6) && !m.flag Fld.CLK_STATUS_HELD && !m.board.tripped

/-- The fabric may start steps: it is clocked and in S0 (R460). -/
def Module.awake (m : Module) : Bool := m.clocked && m.fld Fld.PWR_STATUS_STATE == 0

/-! ## Functions and tenancies -/

/-- The house context. -/
def house : Ten := 0

/-- The tenancy is not FREE (TEN_STATUS). -/
def Module.exists? (m : Module) (t : Ten) : Bool := m.fld Fld.TEN_STATUS_STATE t.val != 0

/-- The tenancy is ACTIVE. -/
def Module.active (m : Module) (t : Ten) : Bool := m.fld Fld.TEN_STATUS_STATE t.val == 2

/-- The tenancy bound to a function at its creation: the house context for the physical function (R340, R369). -/
def Module.tenOf (m : Module) (f : Func) : Option Ten :=
  if f = 0 then some house
  else (List.finRange 101).find? (fun t => t != house && m.active t && Map.get? m.vfs t.val == some f.val)

/-- The function of a tenancy. -/
def Module.funcOf (m : Module) (t : Ten) : Func :=
  if t = house then 0 else Fin.ofNat 128 (Map.get 0 m.vfs t.val)

/-- A global ring number lies in the range of the tenancy (R343). -/
def Module.inRange (m : Module) (t : Ten) (g : Nat) : Bool :=
  m.exists? t && m.fld Fld.TEN_RINGS_RING_FIRST t.val ≤ g
    && g < m.fld Fld.TEN_RINGS_RING_FIRST t.val + m.fld Fld.TEN_RINGS_RING_COUNT t.val

/-- The tenancy whose range holds the ring; the house context where none does (R343). -/
def Module.ringOwner (m : Module) (g : Nat) : Ten :=
  ((List.finRange 101).find? (fun t => t != house && m.inRange t g)).getD house

/-! ## Counters (R380) -/

/-- Count an event of a tenancy, or of the house, in every counter that takes it (R380). -/
def Module.count (m : Module) (ev ten n : Nat) : Module :=
  if m.flag Fld.PMC_CTL_FREEZE then m
  else
    (List.range 256).foldl (fun m i =>
      let owner := m.fld Fld.PMC_SEL_OWNER i
      if (m.reg .PMC_EN i).getLsbD 0 && m.fld Fld.PMC_SEL_EVENT i == ev
          && (if owner == 0 then !m.flag Fld.PMC_SEL_FILTER_EN i || m.fld Fld.PMC_SEL_TENANCY i == ten
              else owner == ten) then
        m.addFld Fld.PMC_CNT_COUNT i 0 n
      else m) m

/-- Add to the open ledger interval of a tenancy, or of the house (R376). [log 134 DEDUCED] -/
def Module.bill (m : Module) (ten : Nat) (f : Ledger → Ledger) : Module :=
  match Map.get? m.ledgers ten with
  | some l => { m with ledgers := Map.insert m.ledgers ten (f l) }
  | none => m

/-! ## Interrupts and other messages (R351) -/

/-- Send a message. -/
def Module.send (m : Module) (x : OutMsg) : Module := { m with out := x :: m.out }

/-- Send a vector of the physical function; vector 2,047 takes the non-maskable path (R351). -/
def Module.pfVector (m : Module) (vec : Nat) : Module :=
  let m := m.send (.msix 0 vec)
  if vec = 2047 then m.setFlag Fld.HIF_NMI_STATUS_SEVERE 0 0 true else m

/-- Post a notice to the function of a tenancy and send its vector 31 (R351). -/
def Module.notice (m : Module) (t : Ten) (f : Field) : Module :=
  if t = house then m else (m.setFlag f (m.funcOf t).val 0 true).send (.msix (m.funcOf t) 31)

/-! ## The standard error group (R402 to R406) -/

end Sys2Proof.Machine

namespace Sys2Proof

open Machine

/-- Base bits [23:16] of a block. -/
def Block.base : Block → Nat
  | .fab _ => 0x20
  | b => b.ctorIdx

/-- The index of a block's error group: its base bits, and 32 + c for the window of cluster c. -/
def Block.group : Block → Nat
  | .fab c => 32 + c.val
  | b => b.ctorIdx

end Sys2Proof

namespace Sys2Proof.Machine

/-- Key of the class window of a kind. -/
def winKey (g k : Nat) : Nat := g * 32 + k

/-- Set one bit of a register. -/
def setBit (w : Word64) (k : Nat) : Word64 := w ||| BitVec.ofNat 64 (2 ^ k)

/-- The kinds that are severe at every event, whatever the threshold holds (R474, R476). -/
def Kind.alwaysSevere (k : Kind) : Bool := k == Kind.PWR_TRIP || k == Kind.GLB_RAIL

/-- Zero-extend to bytes. -/
def byteOf (n : Nat) : Byte := BitVec.ofNat 8 n

/-- A live signature in format FSR 1 (R420, R421). DETAIL is block-specific, and the manual lays it out nowhere: its
bytes are free values. [log 138 DESIGN CHOICE] -/
def Module.liveSig (m : Module) (k : Kind) (loc site : Nat) : List Byte :=
  let body := leBytes 4 0x31525346 ++ [0, 2] ++ leBytes 2 128 ++ leBytes 8 (m.reg .GLB_SERIAL).toNat
    ++ leBytes 8 (m.fld Fld.RTC_SECONDS_SECONDS) ++ leBytes 2 (m.fld Fld.GLB_MODULE_MODULE)
    ++ [byteOf k.block.base, byteOf k.bit] ++ leBytes 8 loc ++ leBytes 4 0xFFFFFFFF ++ leBytes 8 0
    ++ leBytes 4 site
    ++ (List.range 68).map (fun i => byteOf (Config.freeNat (m.freeIx * 128 + i))) ++ leBytes 4 0
  body ++ leBytes 4 (crc32c body)

/-- Place a live signature in the buffer of 64, or refuse it (R421). A refused one raises SIG_LOST, whose own event
this does not record; `raise` does. -/
def Module.pushSig (m : Module) (sig : List Byte) : Module :=
  if m.sigs.length < 64 then
    ({ m with sigs := m.sigs ++ [sig] }).setFld Fld.INT_SIG_COUNT_HELD 0 0 (m.sigs.length + 1)
  else m.addFld Fld.INT_SIG_COUNT_LOST 0 0

/-- A kind becomes severe: its bit rises, and on the rise the severe vector is sent (R403, R404). -/
def Module.makeSevere (m : Module) (k : Kind) : Module :=
  let g := k.block.group
  let old := m.reg .ERR_SEVERE g
  let m := m.setReg .ERR_SEVERE g 0 (setBit old k.bit)
  if old.getLsbD k.bit then m
  else
  let m := { m with side := { m.side with severeRises := m.side.severeRises + 1 } }
  if m.flag Fld.ERR_SEVERE_VECTOR_EN g then m.pfVector (m.fld Fld.ERR_SEVERE_VECTOR_VECTOR g) else m

/-- The rate classifier of a fault kind (R403): the window opens at its first event, and the threshold makes the kind
severe. A threshold of 0 disables severity. -/
def Module.classify (m : Module) (k : Kind) : Module :=
  if k.refusal then m
  else
    let key := winKey k.block.group k.bit
    let n := ((Map.get? m.errWin key).getD 0) + 1
    let m := { m with errWin := Map.insert m.errWin key n }
    let thresh := m.fld Fld.ERR_CLASS_THRESH_N k.block.group
    if k.alwaysSevere || (thresh != 0 && thresh ≤ n) then m.makeSevere k else m

/-- Freeze the first-error record of the group (R402). The time is a measured one: a free value. [log 135 DEDUCED] -/
def Module.latchFirst (m : Module) (k : Kind) (ten loc : Nat) (injected : Bool) : Module :=
  let g := k.block.group
  let m := m.setFlag Fld.ERR_FIRST_INFO0_VALID g 0 true
  let m := m.setFlag Fld.ERR_FIRST_INFO0_INJECTED g 0 injected
  let m := m.setFld Fld.ERR_FIRST_INFO0_KIND g 0 k.bit
  let m := m.setFld Fld.ERR_FIRST_INFO0_TENANCY g 0 ten
  let m := m.setFld Fld.ERR_FIRST_INFO0_LOCATION g 0 loc
  (m.setFld Fld.ERR_FIRST_INFO1_TIME g 0 m.free64.toNat).drawn

/-- Count an event of a group; the count stands at its largest value with OVERFLOW (R402). -/
def Module.countEvent (m : Module) (g : Nat) : Module :=
  if m.fld Fld.ERR_COUNT_COUNT g = 65535 then m.setFlag Fld.ERR_COUNT_OVERFLOW g 0 true
  else m.setFld Fld.ERR_COUNT_COUNT g 0 (m.fld Fld.ERR_COUNT_COUNT g + 1)

/-- Steps 1 to 3 of R402, and the interrupt of R404 on the rise of the status bit. -/
def Module.record (m : Module) (k : Kind) (ten loc site : Nat) (injected : Bool) : Module :=
  let g := k.block.group
  let old := m.reg .ERR_STATUS g
  let m := m.setReg .ERR_STATUS g 0 (setBit old k.bit)
  let fresh := !m.flag Fld.ERR_FIRST_INFO0_VALID g
  let m := if fresh then m.latchFirst k ten loc injected else m
  let m := if fresh && !k.refusal then (m.pushSig (m.liveSig k loc site)).drawn else m
  let m := m.countEvent g
  if !old.getLsbD k.bit && (m.reg .ERR_INT_EN g).getLsbD k.bit && m.flag Fld.ERR_VECTOR_EN g then
    m.pfVector (m.fld Fld.ERR_VECTOR_VECTOR g)
  else m

/-- Record one event of a kind: the whole of R402 with the classifier and the severe interrupt. -/
def Module.raise1 (m : Module) (k : Kind) (ten loc : Nat) (site : Nat := 0) : Module :=
  (m.record k ten loc site false).classify k

/-- An event of the kind would freeze a first-error record, and the full buffer refuse its live signature (R421). -/
def Module.refusesSig (m : Module) (k : Kind) : Bool :=
  !m.flag Fld.ERR_FIRST_INFO0_VALID k.block.group && !k.refusal && decide (64 ≤ m.sigs.length)

/-- SIG_LOST (R421); where it freezes the first-error record of INT itself, its own signature is refused in its turn. -/
def Module.raiseLost (m : Module) : Module :=
  let again := m.refusesSig Kind.INT_SIG_LOST
  let m := m.raise1 Kind.INT_SIG_LOST 0 0
  if again then m.raise1 Kind.INT_SIG_LOST 0 0 else m

/-- Record one event of a kind; a live signature that the full buffer refuses raises SIG_LOST in its turn (R421). -/
def Module.raise (m : Module) (k : Kind) (ten loc : Nat) (site : Nat := 0) : Module :=
  let lost := m.refusesSig k
  let m := m.raise1 k ten loc site
  if lost then m.raiseLost else m

/-- The next check of a kind whose ERR_INJECT_INV bit is set receives inverted check bits (R415): the event is recorded with
INJECTED, the bit clears itself, and nothing else happens. [log 141 DEDUCED] -/
def Module.probe (m : Module) (k : Kind) (ten loc : Nat) : Module :=
  let g := k.block.group
  let w := m.reg .ERR_INJECT_INV g
  if w.getLsbD k.bit then
    let lost := m.refusesSig k
    let m := (m.record k ten loc 0 true).setReg .ERR_INJECT_INV g 0 (w &&& ~~~ BitVec.ofNat 64 (2 ^ k.bit))
    if lost then m.raiseLost else m
  else m

/-- A refusal counted in TEN_VIOLATION (R374). -/
def Module.violation (m : Module) (ten : Nat) (b : Block) : Module :=
  let m := m.addFld Fld.TEN_VIOLATION_COUNT ten 0
  let m := m.setFld Fld.TEN_VIOLATION_LAST_BLOCK ten 0 b.base
  m.raise Kind.TEN_VIOLATION ten b.base

/-- The PAIR kind of a block that has one. -/
def Block.pairKind : Block → Option Kind
  | .fab c => some (Kind.FAB_PAIR c)
  | .dck => some Kind.DCK_PAIR
  | .wbl => some Kind.WBL_PAIR
  | .hld => some Kind.HLD_PAIR
  | .xlt => some Kind.XLT_PAIR
  | .ckp => some Kind.CKP_PAIR
  | .via => some Kind.VIA_PAIR
  | .ten => some Kind.TEN_PAIR
  | _ => none

/-- A 64-bit write of a PW register: accepted only with the complement in the upper half, else discarded and counted in
PAIR (R7). [log 79 DEDUCED] -/
def Module.writePair (m : Module) (r : RegId) (k : Kind) (ten i j : Nat) (v : Word64) : Module :=
  if pairOk v then m.setReg r i j (r.pairValue v) else m.raise k ten i

/-! ## The tenancy entry (R368) -/

/-- The five grant registers. -/
abbrev grantRegs : List RegId := [.TEN_GRANT, .TEN_HOLD, .TEN_DRAM, .TEN_RINGS, .TEN_LAT_TOL]

/-- The entry agrees with its complements. -/
def Module.entryOk (m : Module) (t : Ten) : Bool := grantRegs.all (fun r => pairOk (m.reg r t.val))

/-- Check the entry before a use: a disagreement refuses the use, raises PAIR and freezes the tenancy. -/
def Module.useEntry (m : Module) (t : Ten) : Bool × Module :=
  if t = house then (true, m)
  else if m.entryOk t then (true, m.probe Kind.TEN_PAIR t.val t.val)
  else (false, (m.setFlag Fld.TEN_STATUS_FROZEN t.val 0 true).raise Kind.TEN_PAIR t.val t.val)

/-! ## Outputs that follow the error groups (R404, R407, R408) -/

/-- Groups in which a register of the error group is not zero. -/
def Module.groupsWith (m : Module) (r : RegId) : List Nat :=
  (m.regs.filter (fun p => decide (p.1 / 2 ^ 40 = r.ctorIdx) && p.2 != 0)).map (fun p => p.1 / 2 ^ 16 % 2 ^ 24)

/-- The summary word of a list of groups: bit b for block b, bit 32 for any cluster window. -/
def summaryOf (gs : List Nat) : Word64 :=
  gs.foldl (fun w g => setBit w (if g < 32 then g else 32)) 0

/-- The cluster bits 64·i to 64·i + 63 of a list of groups. -/
def fabSummary (gs : List Nat) (i : Nat) : Word64 :=
  gs.foldl (fun w g => if 32 ≤ g ∧ (g - 32) / 64 = i then setBit w ((g - 32) % 64) else w) 0

/-- The refusal kinds of a group, as a mask. -/
def refusalMask (g : Nat) : Word64 :=
  (([Block.glb, .clk, .pwr, .rtc, .sbd, .ten, .ldg, .pmc, .alv, .int, .ckp, .via, .col, .mem, .hld, .xlt, .wgt, .wbl,
    .cvn, .lrn, .rng, .dma, .que, .plc, .syn, .dck, .hif].find? (fun b => b.ctorIdx == g)).map
      (fun b => b.refusals.foldl setBit 0)).getD 0

/-- TRIP stops the pin whatever ERR_ALIVE_STOP holds (R459). -/
def Module.tripStop (m : Module) (g : Nat) : Word64 :=
  if m.board.tripped && g == Block.pwr.group then BitVec.ofNat 64 (2 ^ Kind.PWR_TRIP.bit) else 0

/-- The severe fault kinds of a group whose ERR_ALIVE_STOP bit is set. -/
def Module.stopMask (m : Module) (g : Nat) : Word64 :=
  m.reg .ERR_SEVERE g &&& (m.reg .ERR_ALIVE_STOP g ||| m.tripStop g) &&& ~~~ refusalMask g

/-- The group and kind of the first severe stopping source, in ascending group order. -/
def Module.severeStop (m : Module) : Option (Nat × Nat) :=
  ((m.groupsWith .ERR_SEVERE).find? (fun g => m.stopMask g != 0)).map (fun g =>
    (g, ((List.range 32).find? (fun k => (m.stopMask g).getLsbD k)).getD 0))

/-- Some source stops the alive pin (R407). -/
def Module.aliveStopped (m : Module) : Bool :=
  m.severeStop.isSome || m.aliveHold || m.flag Fld.ALV_CTL_FORCE_STOP

/-- The alive pin toggles: start-up has ended and no source stops it (R407, R408). -/
def Module.aliveRuns (m : Module) : Bool := m.aliveDriven && !m.aliveStopped

/-- The outputs as they follow from the error groups and the stopping sources. A stop records its first source and
counts; the level at which the pin stops is a free value. [log 136 DEDUCED] -/
def Module.nextPins (m : Module) : Pins :=
  let sev := m.groupsWith .ERR_SEVERE
  let stat := m.groupsWith .ERR_STATUS
  let p := m.pins
  let stopsNow := p.running && !m.aliveRuns && m.aliveDriven
  let src := m.severeStop
  { severeSum := summaryOf sev
    statusSum := summaryOf stat
    fab0 := fabSummary sev 0
    fab1 := fabSummary sev 1
    running := m.aliveRuns
    level := if stopsNow then (Config.freeWord p.stops.toNat).getLsbD 0 else m.aliveDriven && p.level
    forced := if stopsNow then src.isNone && !m.aliveHold else !m.aliveRuns && p.forced
    clock := if stopsNow then src.isNone && m.aliveHold else !m.aliveRuns && p.clock
    severe := if stopsNow then src.isSome else !m.aliveRuns && p.severe
    block := if stopsNow then (src.map (fun x => if x.1 < 32 then x.1 else 0x20)).getD 8 else p.block
    cluster := if stopsNow then (src.map (fun x => x.1 - 32)).getD 0 else p.cluster
    kind := if stopsNow then (src.map (·.2)).getD 0 else p.kind
    stops := if stopsNow then p.stops + 1 else p.stops }

/-- Bring the outputs in line with the error groups. -/
def Module.settle (m : Module) : Module := { m with pins := m.nextPins }

/-! ## The shape of a meaning -/

/-- Run a command on the module, leave the queue alone, and bring the outputs in line. Every command goes to a next
state. [log 162 DESIGN CHOICE] -/
def State.run (s : State) (f : Module → Module) : Host.Outcome State Fault Refusal :=
  .next { s with mod := (f s.mod).settle }

/-- Apply a change where a condition holds. -/
def Module.when (m : Module) (b : Bool) (f : Module → Module) : Module := if b then f m else m

/-! ## Resets of registers (R10) -/

end Sys2Proof.Machine

namespace Sys2Proof

open Machine

/-- The value a register takes at a reset of a kind: the fields that list the kind go to their reset values. -/
def RegId.afterReset (r : RegId) (k : ResetKind) (i : Nat) (v : Word64) : Word64 :=
  BitVec.ofNat 64 (r.fields.foldl
    (fun acc f => if f.kinds.contains k then putBits acc f.lo f.width (bitsAt (r.resetValue i).toNat f.lo f.width)
      else acc) v.toNat)

end Sys2Proof

namespace Sys2Proof.Machine

/-- Reset every register for which `sel` holds. -/
def Module.resetRegs (m : Module) (k : ResetKind) (sel : RegId → Nat → Bool) : Module :=
  { m with regs := m.regs.map (fun p =>
      let r := RegId.ofNat (p.1 / 2 ^ 40)
      let i := p.1 / 2 ^ 16 % 2 ^ 24
      if sel r i then
        (p.1, r.afterReset k i p.2)
      else p) }

end Sys2Proof.Machine
end

