-- ==== Sys2Proof/Machine/MemOps.lean ====
section
/-! DEFINITION. Machine/MemOps.lean: the operations over the memory tiers that every block shares: host memory, the page
pool and its ownership tags (R265 to R270), the page-table walk (R261 to R264), DRAM with its ECC and poison (R247), the
Hold with its extents, map and ECC (R255 to R260). -/

namespace Sys2Proof.Machine

/-! ## Failures of an access -/

/-- Why an access fails: a status of R357, the KIND of R263 and the address to report. -/
structure Fail where
  status : Nat
  kind : Nat
  addr : Nat
  deriving DecidableEq, Repr

/-- Status codes of R357. -/
abbrev st.ok : Nat := 0x00
abbrev st.killed : Nat := 0x01
abbrev st.busError : Nat := 0x02
abbrev st.translation : Nat := 0x03
abbrev st.isolation : Nat := 0x04
abbrev st.data : Nat := 0x05
abbrev st.deadline : Nat := 0x06
abbrev st.doubleFault : Nat := 0x07
abbrev st.version : Nat := 0x08
abbrev st.check : Nat := 0x09
abbrev st.resource : Nat := 0x0A
abbrev st.aborted : Nat := 0x0B
abbrev st.unsupported : Nat := 0x0C

/-! ## Host memory -/

/-- A byte of host memory. -/
def Module.hostByte (m : Module) (a : Nat) : Byte := (Map.get? m.hostMem a).getD (Config.hostByte a)

/-- `n` bytes of host memory. -/
def Module.hostBytes (m : Module) (a : Nat) : Nat → List Byte
  | 0 => []
  | n + 1 => m.hostByte a :: m.hostBytes (a + 1) n

/-- Write bytes of host memory. -/
def Module.setHost (m : Module) (a : Nat) : List Byte → Module
  | [] => m
  | b :: bs => ({ m with hostMem := Map.insert m.hostMem a b }).setHost (a + 1) bs

/-! ## DRAM units (R247) -/

/-- Bytes of a frame (R244). -/
abbrev frameBytes : Nat := 65536
/-- Frames of the DRAM tier (R244). -/
abbrev dramFrames : Nat := 6291456
/-- Frames that are never in the pool: the power-save region of R463 and the 24 MiB of the ownership tags (R265). [log 73 DESIGN CHOICE] -/
abbrev houseFrames : Nat := 32768 + 384

/-- The channel that holds a byte of a frame (R245), for the key of the frame. Philox comes from `philoxKey`. -/
def channelAt (w0 w1 frame off : Nat) : Nat :=
  let g := off / 256 % 256
  let i := g / 32
  let j := g % 32
  let kc := if i < 6 then bitsAt w0 (5 * i) 5 else bitsAt w1 (5 * (i - 6)) 5
  32 * (frame % 12) + (j ^^^ kc)

/-- The offset of a byte of a frame within its channel (R245). -/
def chanOffset (frame off : Nat) : Nat := frame / 12 * 2048 + off / 256 % 256 / 32 * 256 + off % 256

/-- Units of 64 bytes that a range touches. -/
def unitsOf (a n : Nat) : List Nat :=
  if n = 0 then [] else (List.range ((a + n - 1) / 64 - a / 64 + 1)).map (fun k => a / 64 + k)

/-- The unit is poisoned. -/
def Module.poisoned (m : Module) (u : Nat) : Bool := Map.get false m.poison u

/-! ## Philox-4×32-10 (R277) -/

/-- One round of Philox-4×32. -/
def philoxRound (k0 k1 : Word) (c : Word × Word × Word × Word) : Word × Word × Word × Word :=
  let p0 := 0xD2511F53 * c.1.toNat
  let p1 := 0xCD9E8D57 * c.2.2.1.toNat
  (BitVec.ofNat 32 (p1 / 2 ^ 32) ^^^ c.2.1 ^^^ k0, BitVec.ofNat 32 p1,
   BitVec.ofNat 32 (p0 / 2 ^ 32) ^^^ c.2.2.2 ^^^ k1, BitVec.ofNat 32 p0)

/-- `n` rounds with the Weyl increments of the key. -/
def philoxRounds : Nat → Word → Word → Word × Word × Word × Word → Word × Word × Word × Word
  | 0, _, _, c => c
  | n + 1, k0, k1, c => philoxRounds n (k0 + 0x9E3779B9) (k1 + 0xBB67AE85) (philoxRound k0 k1 c)

/-- Philox-4×32-10 of R277: ten rounds of the counter under the key. -/
def philox (k0 k1 : Word) (c0 c1 c2 c3 : Word) : Word × Word × Word × Word :=
  philoxRounds 10 k0 k1 (c0, c1, c2, c3)

/-! ## Ownership tags (R265) -/

/-- The tag of a free frame with its complement. -/
def freeTag : Word := 0xFFFF0000#32

/-- Bits [15:0] and their complement. -/
def tagWord (v : Nat) : Word := BitVec.ofNat 32 (v % 65536 + (65535 - v % 65536) * 65536)

/-- The stored tag of a frame. -/
def Module.tag (m : Module) (f : Nat) : Word := Map.get freeTag m.tags f

/-- Store a tag with its complement. -/
def Module.setTag (m : Module) (f v : Nat) : Module := { m with tags := Map.set freeTag m.tags f (tagWord v) }

/-- The tag's complement agrees. -/
def tagOk (w : Word) : Bool := w == tagWord w.toNat

def tagAlloc (w : Word) : Bool := w.getLsbD 15
def tagScrub (w : Word) : Bool := w.getLsbD 14
def tagKey (w : Word) : Nat := bitsAt w.toNat 12 2
def tagBase (w : Word) : Option Nat := if w.getLsbD 11 then some (bitsAt w.toNat 8 3) else none
def tagQuar (w : Word) : Bool := w.getLsbD 7
def tagTen (w : Word) : Nat := bitsAt w.toNat 0 7

/-- The key of the owner of a frame, for the placement of R245; issue 0 where the slot was never loaded. -/
def Module.frameKey (m : Module) (f : Nat) : Word :=
  Config.key (Map.get 0 m.keys (4 * tagTen (m.tag f) + tagKey (m.tag f)))

/-- The channel on which R245 places a DRAM physical address. -/
def Module.placedOn (m : Module) (pa : Nat) : Nat :=
  let f := pa / frameBytes
  let w := philox (m.frameKey f) 0x4D454D4B#32 (BitVec.ofNat 32 f) 0 0 0
  channelAt w.1.toNat w.2.1.toNat f (pa % frameBytes)

/-- m of R249 of a channel that is MAPPED_OUT; none while it serves its granules itself. -/
def Module.mappedAs (m : Module) (ch : Nat) : Option Nat :=
  if m.fld Fld.MEM_CH_STATUS_STATE ch = 2 then Map.get? m.mapOrder ch else none

/-- The usable granules of a patch frame, ascending: those on none of the first `k` mapped-out channels of its stack (R249). -/
def Module.usableGranules (m : Module) (f k : Nat) : List Nat :=
  (List.range 256).filter (fun g => !((Map.get? m.mapOrder (m.placedOn (f * frameBytes + g * 256))).any (fun j => decide (j ≤ k))))

/-- Where the granule of an address stands that the map-out of its channel, as the `k`-th of its stack, has moved to a patch
frame (R249). -/
def Module.patchedTo (m : Module) (ch k pa : Nat) : Option Nat :=
  let f := pa / frameBytes / 12
  let i := pa % frameBytes / 256 / 32
  ((Map.get? m.patches ch).bind (fun fs => fs[f / (32 - k)]?)).map (fun p =>
    p * frameBytes + ((m.usableGranules p k)[8 * (f % (32 - k)) + i]?.getD 0) * 256 + pa % 256)

/-- The place of a byte after every redirection (R249): a granule of a patch frame on a channel mapped out later is redirected
again. `fuel` bounds the channels of a stack. -/
def Module.redirected (m : Module) : Nat → Nat → Nat
  | 0, pa => pa
  | fuel + 1, pa =>
    let ch := m.placedOn pa
    match (m.mappedAs ch).bind (fun k => m.patchedTo ch k pa) with
    | some q => m.redirected fuel q
    | none => pa

/-- The channel that serves a DRAM physical address (R245, R249). -/
def Module.channelOf (m : Module) (pa : Nat) : Nat := m.placedOn (m.redirected 32 pa)

/-- The channel of a DRAM physical address and the offset within it (R245, R249). -/
def Module.placeOf (m : Module) (pa : Nat) : Nat × Nat :=
  let q := m.redirected 32 pa
  (m.placedOn q, chanOffset (q / frameBytes) (q % frameBytes))

/-- A frame can be handed out: in the pool, free, scrubbed, not withdrawn as a patch frame (R265, R249). -/
def Module.frameFree (m : Module) (f : Nat) : Bool :=
  f + houseFrames < dramFrames && m.tag f == freeTag && m.patches.all (fun p => !p.2.contains f)

/-- Quarantine a frame (R263, R269): its tag says so and it leaves the pool for good. -/
def Module.quarantine (m : Module) (f : Nat) : Module :=
  ((m.when (m.frameFree f) (fun m => m.subFld Fld.XLT_POOL_FREE_FRAMES 0 0)).setTag f 0x0080).raise Kind.XLT_QUARANTINE 0 f

/-- The stack takes no allocations: a channel of it is being mapped out (R249). -/
def Module.stackBusy (m : Module) (stack : Nat) : Bool :=
  (List.range 32).any (fun k => m.fld Fld.MEM_CH_STATUS_STATE (32 * stack + k) == 1)

/-- The lowest number from `a` upward, in steps of `d`, for which `ok` holds. -/
def firstFrom (ok : Nat → Bool) (d : Nat) : Nat → Nat → Option Nat
  | 0, _ => none
  | n + 1, a => if ok a then some a else firstFrom ok d n (a + d)

/-- A choice the manual leaves open: the free value where it qualifies, else the lowest that does. [log 75 DESIGN CHOICE] -/
def pick (ok : Nat → Bool) (x d n a : Nat) : Option Nat := if ok x then some x else firstFrom ok d n a

/-- Every frame of a run is free. -/
def Module.runFree (m : Module) (f n : Nat) : Bool := (List.range n).all (fun k => m.frameFree (f + k))

/-- Frames that the tenancy may still be charged (R266, R369). -/
def Module.quotaLeft (m : Module) (ten : Nat) : Nat :=
  if pairOk (m.reg .TEN_DRAM ten) then m.fld Fld.TEN_DRAM_DRAM_FRAMES ten - m.fld Fld.XLT_TEN_FRAMES_FRAMES ten else 0

/-- Tag a run of frames with the tenancy and its current key slot and charge it (R266). -/
def Module.takeRun (m : Module) (ten f n : Nat) : Module :=
  let m := (List.range n).foldl (fun m k =>
    m.setTag (f + k) (0x8000 + 0x1000 * m.fld Fld.MEM_TEN_KEYS_CURRENT ten + ten)) m
  let m := m.addFld Fld.XLT_TEN_FRAMES_FRAMES ten 0 n
  let m := m.setFld Fld.MEM_TEN_KEYS_IN_USE ten 0
    (m.fld Fld.MEM_TEN_KEYS_IN_USE ten ||| 2 ^ m.fld Fld.MEM_TEN_KEYS_CURRENT ten)
  m.subFld Fld.XLT_POOL_FREE_FRAMES 0 0 n

/-- A frame of the next stack in rotation, over the three beside a die or over all twelve, that qualifies (R148, R266). Which
free frame of the stack is taken is a free value. -/
def Module.pickFrame (m : Module) (near : Option Nat) : Option Nat :=
  let x := Config.freeNat m.freeIx % dramFrames
  let on := fun (s : Nat) => pick (fun f => m.frameFree f && !m.stackBusy s && f % 12 == s) x 12 524288 s
  match near with
  | some die => (List.range 3).findSome? (fun k => on (3 * die + (Map.get 0 m.nextNear die + k) % 3))
  | none => (List.range 12).findSome? (fun k => on ((m.nextStack + k) % 12))

/-- The rotation goes on after a frame has been taken (R148, R266). -/
def Module.rotate (m : Module) (near : Option Nat) (f : Nat) : Module :=
  match near with
  | some die => { m with nextNear := Map.insert m.nextNear die ((f + 1) % 3) }
  | none => { m with nextStack := (f + 1) % 12 }

/-- Allocate one 64 KiB frame for a tenancy's quota (R266). -/
def Module.allocFrame (m : Module) (ten : Nat) (near : Option Nat := none) : Option (Nat × Module) :=
  if m.quotaLeft ten = 0 then none
  else
    (m.pickFrame near).map (fun f =>
      (f, ((m.takeRun ten f 1).rotate near f).drawn))

/-- Allocate `n` single frames, or none of them. -/
def Module.allocFrames (m : Module) (ten : Nat) : Nat → Option (List Nat × Module)
  | 0 => some ([], m)
  | n + 1 => do
    let (f, m) ← m.allocFrame ten
    let (fs, m) ← m.allocFrames ten n
    return (f :: fs, m)

/-- Allocate an aligned run of `n` frames (R266: 2 MiB and 1 GiB requests). -/
def Module.allocRun (m : Module) (ten n : Nat) : Option (Nat × Module) :=
  if m.quotaLeft ten < n ∨ (List.range 12).any m.stackBusy then none
  else
    let x := Config.freeNat m.freeIx % (dramFrames / n) * n
    (pick (fun f => m.runFree f n) x n (dramFrames / n) 0).map (fun f => (f, (m.takeRun ten f n).drawn))

/-- Channels of a stack that are not ACTIVE. -/
def Module.mappedOut (m : Module) (stack : Nat) : Nat :=
  ((List.range 32).filter (fun k => m.fld Fld.MEM_CH_STATUS_STATE (32 * stack + k) != 0)).length

/-- Withdraw free frames of a stack as patch frames of a channel, from a free place upward; answers how many are short
(R249). -/
def Module.withdraw (m : Module) (ch need : Nat) : Nat × Module :=
  let stack := ch / 32
  let x := Config.freeNat m.freeIx % 524288
  let fs := (((List.range 524288).map (fun k => 12 * ((x + k) % 524288) + stack)).filter m.frameFree).take need
  let old := (Map.get? m.patches ch).getD []
  let m := { m with patches := Map.insert m.patches ch (old ++ fs) }
  (need - fs.length, m.drawn.subFld Fld.XLT_POOL_FREE_FRAMES 0 0 fs.length)

/-- Patch frames of a map-out, with `k` the channels of the stack mapped out including this one (R249). -/
def patchFrames (k : Nat) : Nat := (524288 + (32 - k) - 1) / (32 - k)

/-- The channel joins the mapped-out ones of its stack, and its patch frames are withdrawn; answers how many are short (R249). -/
def Module.formPatches (m : Module) (ch : Nat) : Nat × Module :=
  let k := m.mappedOut (ch / 32)
  ({ m with mapOrder := Map.insert m.mapOrder ch k } : Module).withdraw ch (patchFrames k)

/-- Key of the patch frames that a channel still lacks. -/
def patchKey (ch : Nat) : Nat := ch * 12 + ch / 32

/-- Begin the map-out of a channel (R248, R249): it enters MAPPING_OUT and its patch frames are withdrawn; refused where the
stack already has four channels mapped out. [log 76 DESIGN CHOICE] -/
def Module.mapOut (m : Module) (ch : Nat) : Module :=
  if m.fld Fld.MEM_CH_STATUS_STATE ch ≠ 0 then m
  else if 4 ≤ m.mappedOut (ch / 32) then m.raise Kind.MEM_MAPOUT_LIMIT 0 ch
  else
    let m := m.setFld Fld.MEM_CH_STATUS_STATE ch 0 1
    let (short, m) := m.formPatches ch
    if short = 0 then m
    else ({ m with patchDue := Map.set 0 m.patchDue (patchKey ch) short }).raise Kind.MEM_MAPOUT_WAIT 0 ch

/-- What a read of one DRAM unit finds: a corrected error is counted and removed, an uncorrectable one poisons the unit,
raises UE, and at MEM_CH_UE_LIMIT maps the channel out (R247, R248). -/
def Module.readUnit (m : Module) (ten u : Nat) (ch : Nat) : Module :=
  let m := (m.probe Kind.MEM_CE ten ch).probe Kind.MEM_UE ten ch
  match Map.get? m.dramEcc u with
  | none => m
  | some .corrected =>
    let m := { m with dramEcc := Map.erase m.dramEcc u }
    (m.addFld Fld.MEM_CH_STATUS_CE ch 0).raise Kind.MEM_CE ten ch
  | some .uncorrectable =>
    let m := { m with dramEcc := Map.erase m.dramEcc u, poison := Map.set false m.poison u true }
    let m := (m.addFld Fld.MEM_CH_STATUS_UE ch 0).raise Kind.MEM_UE ten ch
    let limit := m.fld Fld.MEM_CH_UE_LIMIT_LIMIT
    if limit ≠ 0 ∧ limit ≤ m.fld Fld.MEM_CH_STATUS_UE ch then m.mapOut ch else m

/-- Key slots of a tenancy that hold frames, as IN_USE shows them (R254). -/
def Module.mirrorKeys (m : Module) (ten : Nat) : Module :=
  let used := fun (k : Nat) => m.tags.any (fun p => tagAlloc p.2 && tagTen p.2 == ten && tagKey p.2 == k)
  m.setFld Fld.MEM_TEN_KEYS_IN_USE ten 0 (((List.range 4).filter used).map (fun k => 2 ^ k)).sum

/-- Drop the cached translations that lead to a frame, in every cache (R264, R270). -/
def Module.uncacheFrame (m : Module) (f : Nat) : Module :=
  { m with xcache := m.xcache.filter (fun p => decide (p.2.toNat / 2 ^ 16 % 2 ^ 32 ≠ f) || p.2.getLsbD 4) }

/-- Drop the cached translations of `n` pages of a tenancy from page `page` on, in every cache (R264). -/
def Module.uncachePages (m : Module) (ten page n : Nat) : Module :=
  { m with xcache := m.xcache.filter (fun p =>
      !(p.1 / 2 ^ 32 % 256 == ten && decide (page ≤ p.1 % 2 ^ 32) && decide (p.1 % 2 ^ 32 < page + n))) }

/-- The first steps of a free (R270): SCRUB set and ALLOC clear, translations invalidated, the charge released. Zeroing
and the return to the pool are `scrubFrame`. -/
def Module.freeFrame (m : Module) (f : Nat) : Module :=
  let w := m.tag f
  let m := m.setTag f (0x4000 + (w.toNat % 0x4000))
  let m := (m.subFld Fld.XLT_TEN_FRAMES_FRAMES (tagTen w) 0).mirrorKeys (tagTen w)
  m.uncacheFrame f

/-- The end of a free: the frame is zeroed, its units hold no error, and it is free (R270). The house record bears the
scrub (R376). -/
def Module.zeroFrame (m : Module) (f : Nat) : Module :=
  { m.bill 0 (fun l => { l with dram := l.dram + frameBytes }) with
    dram := Mem.zero m.dram (f * frameBytes) frameBytes
    dramEcc := m.dramEcc.filter (fun p => p.1 / 1024 ≠ f)
    poison := m.poison.filter (fun p => p.1 / 1024 ≠ f)
    tags := Map.erase m.tags f }

/-- A frame returns to the pool, or to the patch set that waits for frames of its stack (R249, R270). -/
def Module.scrubFrame (m : Module) (f : Nat) : Module :=
  let m := m.zeroFrame f
  match m.patchDue.find? (fun p => p.1 % 12 == f % 12 && p.2 != 0) with
  | some p =>
    { m with
      patches := Map.insert m.patches (p.1 / 12) ((Map.get? m.patches (p.1 / 12)).getD [] ++ [f])
      patchDue := Map.set 0 m.patchDue p.1 (p.2 - 1) }
  | none => m.addFld Fld.XLT_POOL_FREE_FRAMES 0 0

/-- The frame is allocated to the tenancy and is no base frame (R265, R268, R269). -/
def Module.ownsFrame (m : Module) (ten f : Nat) : Bool :=
  tagOk (m.tag f) && tagAlloc (m.tag f) && tagTen (m.tag f) == ten && (tagBase (m.tag f)).isNone

/-- The frame holds a loaded base of the house. -/
def Module.baseFrame (m : Module) (b f : Nat) : Bool :=
  tagOk (m.tag f) && tagAlloc (m.tag f) && tagBase (m.tag f) == some b

/-- Free at once, with their zeroing, the frames of a list that are still the tenancy's own (the module's own releases: R25,
R143, R210, R371): the ownership tag decides (R268). -/
def Module.releaseFrames (m : Module) (ten : Nat) (fs : List Nat) : Module :=
  fs.foldl (fun m f => if m.ownsFrame ten f then (m.freeFrame f).scrubFrame f else m) m

/-- Free the frames of a shared base (R172). -/
def Module.releaseBaseFrames (m : Module) (b : Nat) (fs : List Nat) : Module :=
  fs.foldl (fun m f => if m.baseFrame b f then (m.freeFrame f).scrubFrame f else m) m

/-! ## The page-table walk (R261 to R264) -/

/-- Where an address leads: a DRAM physical address, or a host bus address reached through the tenancy's function. -/
inductive Loc where
  | dram (pa : Nat)
  | host (pa : Nat)
  deriving DecidableEq, Repr

/-- What the finding of a walk does beside its status (R263). -/
inductive Finding where
  | plain
  /-- PAIR is raised. -/
  | pair
  /-- A tag disagrees: PAIR is raised and the frame is quarantined. -/
  | badTag (frame : Nat)
  /-- The walk reached a foreign frame: counted and ISOLATION raised. -/
  | foreign (frame : Nat)
  deriving DecidableEq, Repr

/-- A failed walk: status, KIND and finding. -/
structure WalkFail where
  status : Nat
  kind : Nat
  finding : Finding
  deriving DecidableEq, Repr

/-- Entry fields (R261). -/
def entValid (e : Nat) : Bool := bitsAt e 0 1 == 1
def entLeaf (e : Nat) : Bool := bitsAt e 1 1 == 1
def entRead (e : Nat) : Bool := bitsAt e 2 1 == 1
def entWrite (e : Nat) : Bool := bitsAt e 3 1 == 1
def entHost (e : Nat) : Bool := bitsAt e 4 1 == 1
def entAddr (e : Nat) : Nat := e / 512 * 512

/-- Shift and index width of a level (R262). -/
def levelShift : Nat → Nat × Nat
  | 0 => (36, 12)
  | 1 => (30, 6)
  | 2 => (21, 9)
  | _ => (16, 5)

/-- The tenancy holds a grant of a shared base (R172). -/
def Module.hasBase (m : Module) (ten base : Nat) : Bool := (Map.get? m.baseGrants (8 * ten + base)).isSome

/-- The check of a table frame against its tag (R263). -/
def Module.checkTable (m : Module) (ten f : Nat) : Option WalkFail :=
  let w := m.tag f
  if !tagOk w then some ⟨st.data, 4, .badTag f⟩
  else if !tagAlloc w then some ⟨st.translation, 5, .plain⟩
  else if tagTen w = ten ∧ (tagBase w).isNone then none
  else some ⟨st.isolation, 6, .foreign f⟩

/-- The check of a leaf frame against its tag (R263): the tenancy's own frame, or a granted base frame for a read. -/
def Module.checkLeaf (m : Module) (ten f : Nat) (write : Bool) : Option WalkFail :=
  let w := m.tag f
  if !tagOk w then some ⟨st.data, 4, .badTag f⟩
  else if !tagAlloc w then some ⟨st.translation, 5, .plain⟩
  else
    match tagBase w with
    | some b =>
      if m.hasBase ten b then (if write then some ⟨st.translation, 2, .plain⟩ else none)
      else some ⟨st.isolation, 6, .foreign f⟩
    | none => if tagTen w = ten then none else some ⟨st.isolation, 6, .foreign f⟩

/-- The final check of a leaf entry at a level: format, permission, tag (R262, R263). `va` selects the byte. -/
def Module.leafLoc (m : Module) (ten e lvl va : Nat) (write : Bool) : Except WalkFail Loc :=
  let size := 2 ^ (levelShift lvl).1
  let off := va % size
  if lvl = 0 ∨ entAddr e % size ≠ 0 then .error ⟨st.translation, 3, .plain⟩
  else if !entHost e && dramFrames * frameBytes ≤ entAddr e then .error ⟨st.translation, 3, .plain⟩
  else if (if write then !entWrite e else !entRead e) then .error ⟨st.translation, 2, .plain⟩
  else if entHost e then .ok (.host (entAddr e + off))
  else
    match m.checkLeaf ten ((entAddr e + off) / frameBytes) write with
    | some w => .error w
    | none => .ok (.dram (entAddr e + off))

/-- The address of the entry for a virtual address in a table of a level (R262). -/
def entryAt (table lvl va : Nat) : Nat := table + 16 * bitsAt va (levelShift lvl).1 (levelShift lvl).2

/-- The walk below a table at DRAM address `table`, from level `4 − n` on. The frame checked is the one in which the entry lies,
which in a table that a pointer misplaces can be the next one. Where several findings hold at once, the order is: the table
frame's tag, the complement, VALID, the format, the permission, the leaf frame's tag. The manual gives none. [log 163 DESIGN CHOICE] -/
def Module.walkFrom (m : Module) (ten va : Nat) (write : Bool) : Nat → Nat → Except WalkFail Loc
  | 0, _ => .error ⟨st.translation, 3, .plain⟩
  | n + 1, table =>
    let lvl := 3 - n
    let ea := entryAt table lvl va
    match m.checkTable ten (ea / frameBytes) with
    | some w => .error w
    | none =>
      let e := Mem.read m.dram ea 8
      if Mem.read m.dram (ea + 8) 8 ≠ 2 ^ 64 - 1 - e then .error ⟨st.translation, 4, .pair⟩
      else if !entValid e then .error ⟨st.translation, 1, .plain⟩
      else if entLeaf e then m.leafLoc ten e lvl va write
      else if lvl = 3 ∨ bitsAt e 39 25 ≠ 0 ∨ bitsAt e 2 7 ≠ 0 then .error ⟨st.translation, 3, .plain⟩
      else m.walkFrom ten va write n (entAddr e)

/-- The walk of a virtual address (R262, R263). A house virtual address is a host bus address. -/
def Module.walk (m : Module) (ten va : Nat) (write : Bool) : Except WalkFail Loc :=
  if ten = 0 then .ok (.host va)
  else if 2 ^ 48 ≤ va then .error ⟨st.translation, 3, .plain⟩
  else if !pairOk (m.reg .XLT_TEN_ROOT ten) then .error ⟨st.translation, 4, .pair⟩
  else if !m.flag Fld.XLT_TEN_ROOT_ENABLE ten then .error ⟨st.translation, 1, .plain⟩
  else m.walkFrom ten va write 4 (m.fld Fld.XLT_TEN_ROOT_FRAME ten * frameBytes)

/-- The entries that the walk of an address reads below a table: each address, down to the leaf or the entry that ends it. -/
def Module.entriesRead (m : Module) (ten va : Nat) : Nat → Nat → List Nat
  | 0, _ => []
  | n + 1, table =>
    let lvl := 3 - n
    let ea := entryAt table lvl va
    let e := Mem.read m.dram ea 8
    if (m.checkTable ten (ea / frameBytes)).isSome then []
    else if !entValid e || entLeaf e || lvl = 3 then [ea]
    else ea :: m.entriesRead ten va n (entAddr e)

/-- Read the page-table entries of a walk from DRAM (R247): their errors are found as at every read; an entry in a poisoned unit
fails the walk with DATA_ERROR. -/
def Module.readEntries (m : Module) (ten va : Nat) : Bool × Module :=
  if ten = 0 || !pairOk (m.reg .XLT_TEN_ROOT ten) || !m.flag Fld.XLT_TEN_ROOT_ENABLE ten then (true, m)
  else
    let us := (m.entriesRead ten va 4 (m.fld Fld.XLT_TEN_ROOT_FRAME ten * frameBytes)).map (· / 64)
    let m := us.foldl (fun m u => m.readUnit ten u (m.channelOf (u * 64))) m
    (us.all (fun u => !m.poisoned u), m)

/-- The translation cache of a block (R264): one for each cluster, and those of the DMA, waybill, caravan and weight blocks. The
manual gives the other blocks none, so they walk. -/
def cacheOf : Block → Option Nat
  | .fab c => some (32 + c.val)
  | .dma => some Block.dma.group
  | .wbl => some Block.wbl.group
  | .cvn => some Block.cvn.group
  | .wgt => some Block.wgt.group
  | _ => none

/-- Key of a cached translation. -/
def cacheKey (cache ten va : Nat) : Nat := cache * 2 ^ 40 + ten * 2 ^ 32 + va / frameBytes

/-- Entries of a cluster's cache (R264). -/
abbrev cacheEntries : Nat := 512

/-- Put a translation into a block's cache. A cluster's full cache drops a line first; which one is free. [log 77 DESIGN CHOICE] -/
def Module.fillCache (m : Module) (b : Block) (ten va : Nat) (e : Word64) : Module :=
  match cacheOf b with
  | none => m
  | some k =>
    let lines := (m.xcache.filter (fun p => p.1 / 2 ^ 40 == k)).map (·.1)
    let kept := if 32 ≤ k && decide (cacheEntries ≤ lines.length) && !lines.contains (cacheKey k ten va)
      then Map.erase m.xcache (lines.getD (Config.freeNat m.freeIx % lines.length) 0) else m.xcache
    ({ m with xcache := Map.insert kept (cacheKey k ten va) e } : Module).drawn

/-- A translation that the block's cache still holds (R264), where the free choice says that the access hits it: the caches
other than the clusters' have no stated size, so a line may have left any of them. [log 77 DESIGN CHOICE] -/
def Module.cached (m : Module) (b : Block) (ten va : Nat) (write : Bool) : Option Loc :=
  match (cacheOf b).bind (fun k => Map.get? m.xcache (cacheKey k ten va)) with
  | none => none
  | some e =>
    let e := e.toNat
    if Config.freeBool m.freeIx && (if write then entWrite e else entRead e) then
      some (if entHost e then .host (entAddr e + va % frameBytes) else .dram (entAddr e + va % frameBytes))
    else none

/-- The actions of a finding (R263): XLT_TEN_FAULT on every finding, and what its row names. -/
def Module.recordWalk (m : Module) (ten va : Nat) (w : WalkFail) : Module :=
  let m := m.setFld Fld.XLT_TEN_FAULT_KIND ten 0 w.kind
  let m := m.setFld Fld.XLT_TEN_FAULT_VA ten 0 va
  match w.finding with
  | .plain => m
  | .pair => m.raise Kind.XLT_PAIR ten va
  | .badTag f => (m.raise Kind.XLT_PAIR ten f).quarantine f
  | .foreign f => (m.violation ten .xlt).raise Kind.XLT_ISOLATION ten f

/-- The leaf entry that a successful walk leaves in the caches, for its own 64 KiB page. -/
def cacheEntry (l : Loc) (write : Bool) : Word64 :=
  BitVec.ofNat 64 (match l with
    | .dram pa => pa / frameBytes * frameBytes + (if write then 8 else 4) + 3
    | .host pa => pa / frameBytes * frameBytes + (if write then 8 else 4) + 16 + 3)

/-- Translate one address of a tenancy: through the caches or by a walk, recording every finding. -/
def Module.translate (m : Module) (b : Block) (ten va : Nat) (write : Bool) : Except Fail Loc × Module :=
  match m.cached b ten va write with
  | some l => (.ok l, m.drawn)
  | none =>
    let m := if ten = 0 then m else m.probe Kind.XLT_PAIR ten va
    let m := if ten = 0 then m else m.count 0x0F01 ten 1
    match m.readEntries ten va with
    | (false, m) => (.error ⟨st.data, 0, va⟩, m)
    | (true, m) =>
      match m.walk ten va write with
      | .ok l => (.ok l, if ten = 0 then m else m.fillCache b ten va (cacheEntry l write))
      | .error w => (.error ⟨w.status, w.kind, va⟩, m.recordWalk ten va w)

/-- Cut a range at the 64 KiB pages: address and length of each piece. `fuel` bounds the pieces. -/
def pieces : Nat → Nat → Nat → List (Nat × Nat)
  | 0, _, _ => []
  | fuel + 1, a, n =>
    if n = 0 then []
    else
      let k := min n (frameBytes - a % frameBytes)
      (a, k) :: pieces fuel (a + k) (n - k)

/-- The pieces of a range. -/
def piecesOf (a n : Nat) : List (Nat × Nat) := pieces (n / frameBytes + 2) a n

/-- Translate every piece of a range for a block; the first failure ends it. -/
def Module.translateAll (m : Module) (b : Block) (ten : Nat) (write : Bool) :
    List (Nat × Nat) → Except Fail (List (Loc × Nat)) × Module
  | [] => (.ok [], m)
  | (a, n) :: rest =>
    match m.translate b ten a write with
    | (.error e, m) => (.error e, m)
    | (.ok l, m) =>
      match m.translateAll b ten write rest with
      | (.error e, m) => (.error e, m)
      | (.ok ls, m) => (.ok ((l, n) :: ls), m)

/-! ## Entering and removing mappings (R141, R186, R254, R267) -/

/-- Store a page-table entry with its complement (R261). -/
def Module.writeEntry (m : Module) (ea e : Nat) : Module :=
  { m with dram := Mem.write (Mem.write m.dram ea 8 e) (ea + 8) 8 (2 ^ 64 - 1 - e) }

/-- A table of `n` entries, none valid, in a fresh frame. -/
def Module.emptyTable (m : Module) (f n : Nat) : Module :=
  (List.range n).foldl (fun m k => m.writeEntry (f * frameBytes + 16 * k) 0) m

/-- Enter a 64 KiB leaf below a table at DRAM address `table`, from level `4 − n` on; a missing table takes a frame of the
tenancy's quota. -/
def Module.enterLeaf (m : Module) (ten va leaf : Nat) : Nat → Nat → Option Module
  | 0, _ => none
  | n + 1, table =>
    let lvl := 3 - n
    let ea := entryAt table lvl va
    let e := Mem.read m.dram ea 8
    if (m.checkTable ten (ea / frameBytes)).isSome || Mem.read m.dram (ea + 8) 8 != 2 ^ 64 - 1 - e then none
    else if lvl = 3 then some (m.writeEntry ea leaf)
    else if !entValid e then
      match m.allocFrame ten with
      | none => none
      | some (f, m) =>
        ((m.emptyTable f (2 ^ (levelShift (lvl + 1)).2)).writeEntry ea (f * frameBytes + 1)).enterLeaf ten va leaf n
          (f * frameBytes)
    else if entLeaf e then none
    else m.enterLeaf ten va leaf n (entAddr e)

/-- Point the 64 KiB page of an address at a frame, for reading and writing, and forget its cached translation. -/
def Module.mapTo (m : Module) (ten va f : Nat) : Option Module :=
  if !m.flag Fld.XLT_TEN_ROOT_ENABLE ten || !pairOk (m.reg .XLT_TEN_ROOT ten) then none
  else
    (m.enterLeaf ten va (f * frameBytes + 15) 4 (m.fld Fld.XLT_TEN_ROOT_FRAME ten * frameBytes)).map (fun m =>
      m.uncachePages ten (va / frameBytes) 1)

/-- Allocate a frame and map the page of an address to it. -/
def Module.mapPage (m : Module) (ten va : Nat) (near : Option Nat := none) : Option (Nat × Module) :=
  match m.allocFrame ten near with
  | none => none
  | some (f, m) => (m.mapTo ten va f).map (fun m => (f, m))

/-- The entry that maps the page of an address as a 64 KiB leaf: its address. -/
def Module.leafEntry (m : Module) (ten va : Nat) : Nat → Nat → Option Nat
  | 0, _ => none
  | n + 1, table =>
    let lvl := 3 - n
    let ea := entryAt table lvl va
    let e := Mem.read m.dram ea 8
    if (m.checkTable ten (ea / frameBytes)).isSome || Mem.read m.dram (ea + 8) 8 != 2 ^ 64 - 1 - e || !entValid e
    then none
    else if lvl = 3 then some ea
    else if entLeaf e then none
    else m.leafEntry ten va n (entAddr e)

/-- Remove the mapping of the page of an address. -/
def Module.unmapPage (m : Module) (ten va : Nat) : Module :=
  let m := m.uncachePages ten (va / frameBytes) 1
  match m.leafEntry ten va 4 (m.fld Fld.XLT_TEN_ROOT_FRAME ten * frameBytes) with
  | some ea => m.writeEntry ea 0
  | none => m

/-! ## Reads and writes of memory by location -/

/-- A tenancy's access takes its bytes on a channel from its bucket (R251, R252). How much the bucket has filled since it last
served is free, up to BURST; from an empty one the request waits, a free time that MEM_TEN_THROTTLE counts, unless borrowed
service, which takes no tokens, serves it. A bucket with fewer tokens than the request is left empty. [log 81 DESIGN CHOICE] -/
def Module.takeTokens (m : Module) (ten ch n : Nat) : Module :=
  let key := 512 * ten + ch
  let full := m.fld Fld.MEM_TEN_BUCKET_BURST ten * 1024
  let held := Map.get 0 m.tokens key
  let level := if full ≤ held then full else min full (held + Config.freeNat m.freeIx)
  let m := m.drawn
  let borrowed := m.flag Fld.MEM_CTL_BORROW_EN && Config.freeBool m.freeIx
  let wait := if level = 0 && !borrowed then Config.freeNat m.freeIx else 0
  let left := if level ≠ 0 then level - n else if borrowed then 0 else Config.freeNat m.freeIx % (full + 1)
  let m := ((m.addFld Fld.MEM_TEN_THROTTLE_NS ten 0 wait).count 0x0D02 ten wait).drawn
  { m with tokens := Map.set 0 m.tokens key left }

/-- The bytes of a DRAM range on each granule: address and length of each part. -/
def granulesOf (a n : Nat) : List (Nat × Nat) :=
  if n = 0 then []
  else (List.range ((a + n - 1) / 256 - a / 256 + 1)).map (fun k =>
    let g := a / 256 + k
    (max a (g * 256), min (a + n) (g * 256 + 256) - max a (g * 256)))

/-- Count bytes of a tenancy's DRAM traffic, and its 64-byte units in the counters (R251, R380). -/
def Module.countDram (m : Module) (ten a n : Nat) : Module :=
  let m := m.bill ten (fun l => { l with dram := l.dram + n })
  if ten = 0 then m
  else
    let old := m.fld Fld.MEM_TEN_BYTES_BYTES ten
    let m := (granulesOf a n).foldl (fun m g => m.takeTokens ten (m.channelOf g.1) g.2) m
    (m.addFld Fld.MEM_TEN_BYTES_BYTES ten 0 n).count 0x0D01 ten ((old + n) / 64 - old / 64)

/-- Read a piece: DRAM units are checked by ECC, and a poisoned unit fails with DATA_ERROR (R247). -/
def Module.readLoc (m : Module) (ten : Nat) : Loc × Nat → Except Fail (List Byte) × Module
  | (.host pa, n) =>
    let m := m.bill ten (fun l => { l with host := l.host + n })
    (.ok (m.hostBytes pa n), m.addFld Fld.HIF_RX_BYTES_BYTES (if h : ten < 101 then (m.funcOf ⟨ten, h⟩).val else 0) 0 n)
  | (.dram pa, n) =>
    let m := (unitsOf pa n).foldl (fun m u => m.readUnit ten u (m.channelOf (u * 64))) m
    let m := m.countDram ten pa n
    match (unitsOf pa n).find? m.poisoned with
    | some _ => (.error ⟨st.data, 0, pa⟩, m)
    | none => (.ok (Mem.bytes m.dram pa n), m)

/-- Read every piece. -/
def Module.readLocs (m : Module) (ten : Nat) : List (Loc × Nat) → Except Fail (List Byte) × Module
  | [] => (.ok [], m)
  | l :: rest =>
    match m.readLoc ten l with
    | (.error e, m) => (.error e, m)
    | (.ok bs, m) =>
      match m.readLocs ten rest with
      | (.error e, m) => (.error e, m)
      | (.ok bs', m) => (.ok (bs ++ bs'), m)

/-- Write a piece. A write of a whole unit clears its poison; a partial write leaves it (R247). -/
def Module.writeLoc (m : Module) (ten : Nat) (l : Loc) (bs : List Byte) : Module :=
  match l with
  | .host pa =>
    ((m.setHost pa bs).bill ten (fun l => { l with host := l.host + bs.length })).addFld Fld.HIF_TX_BYTES_BYTES (if h : ten < 101 then (m.funcOf ⟨ten, h⟩).val else 0) 0 bs.length
  | .dram pa =>
    let whole := (unitsOf pa bs.length).filter (fun u => pa ≤ u * 64 && u * 64 + 64 ≤ pa + bs.length)
    let m := m.countDram ten pa bs.length
    { m with
      dram := Mem.setBytes m.dram pa bs
      dramEcc := m.dramEcc.filter (fun p => !whole.contains p.1)
      poison := m.poison.filter (fun p => !whole.contains p.1) }

/-- Write every piece. -/
def Module.writeLocs (m : Module) (ten : Nat) : List (Loc × Nat) → List Byte → Module
  | [], _ => m
  | (l, n) :: rest, bs => (m.writeLoc ten l (bs.take n)).writeLocs ten rest (bs.drop n)

/-- A latent parity error on the path of a block (R400): the data are discarded, PATH_PARITY is raised with the block,
and the access fails as an uncorrectable error does. -/
def Module.pathCheck (m : Module) (b : Block) (ten : Nat) : Bool × Module :=
  let m := m.probe Kind.INT_PATH_PARITY ten b.base
  if m.pathErr.contains b then
    (true, ({ m with pathErr := m.pathErr.erase b }).raise Kind.INT_PATH_PARITY ten b.base)
  else (false, m)

/-- Bytes of a range on each channel, added to the counts of a slot: the part of the pieces that the buffer holds. -/
def Module.skewAdd (m : Module) (x : SkewSlot) (va : Nat) : List (Loc × Nat) → SkewSlot
  | [] => x
  | (.host _, n) :: rest => m.skewAdd x (va + n) rest
  | (.dram pa, n) :: rest =>
    let lo := max va x.addr
    let hi := min (va + n) (x.addr + x.bytes)
    let a := pa + (lo - va)
    let b := pa + (hi - va)
    let counts := (granulesOf a (b - a)).foldl (fun c g =>
      let ch := m.channelOf g.1
      Map.set 0 c ch (Map.get 0 c ch + g.2)) x.counts
    m.skewAdd { x with counts := counts } (va + n) rest

/-- The skew monitor counts an access of a tenancy (R253). -/
def Module.countSkew (m : Module) (ten va n : Nat) (ls : List (Loc × Nat)) : Module :=
  if m.skew.isEmpty || m.fld Fld.MEM_SKEW_WINDOW_US = 0 then m
  else { m with skew := m.skew.map (fun x =>
    if x.ten.val == ten && decide (va < x.addr + x.bytes) && decide (x.addr < va + n) then m.skewAdd x va ls else x) }

/-- Read `n` bytes at a virtual address of a tenancy for a block. [log 74 DESIGN CHOICE] -/
def Module.readVA (m : Module) (b : Block) (ten va n : Nat) : Except Fail (List Byte) × Module :=
  match m.translateAll b ten false (piecesOf va n) with
  | (.error e, m) => (.error e, m)
  | (.ok ls, m) =>
    match m.pathCheck b ten with
    | (true, m) => (.error ⟨st.data, 0, va⟩, m)
    | (false, m) => (m.countSkew ten va n ls).readLocs ten ls

/-- Write bytes at a virtual address of a tenancy for a block: every piece translates before any byte is written. -/
def Module.writeVA (m : Module) (b : Block) (ten va : Nat) (bs : List Byte) : Except Fail Unit × Module :=
  match m.translateAll b ten true (piecesOf va bs.length) with
  | (.error e, m) => (.error e, m)
  | (.ok ls, m) => (.ok (), (m.countSkew ten va bs.length ls).writeLocs ten ls bs)

/-- The range is mapped for the access: nothing is read. -/
def Module.mapped (m : Module) (b : Block) (ten va n : Nat) (write : Bool) : Except Fail Unit × Module :=
  match m.translateAll b ten write (piecesOf va n) with
  | (.error e, m) => (.error e, m)
  | (.ok _, m) => (.ok (), m)

/-! ## The Hold (R255 to R260) -/

/-- Bytes of a Hold bank. -/
abbrev bankBytes : Nat := 65536

/-- The cluster whose slice holds a physical bank (R255). -/
def sliceOf (p : Nat) : Nat :=
  let b := p % 8192
  p / 8192 * 25 + (if b < 17 * 328 then b / 328 else 17 + (b - 17 * 328) / 327)

/-- Both registers of an extent agree with their complements (R258). -/
def Module.extentOk (m : Module) (ten x : Nat) : Bool := pairOk (m.reg .HLD_TEN_EXT ten x) && pairOk (m.reg .HLD_TEN_EXT_RUN ten x)

/-- The extent of a tenancy that holds a bank index, among those whose complements agree (R257, R258). -/
def Module.extentOf (m : Module) (ten b : Nat) : Option Nat :=
  (List.range 9).find? (fun x =>
    m.extentOk ten x
      && m.flag Fld.HLD_TEN_EXT_RUN_VALID ten x
      && m.fld Fld.HLD_TEN_EXT_TBANK_FIRST ten x ≤ b
      && b < m.fld Fld.HLD_TEN_EXT_TBANK_FIRST ten x + m.fld Fld.HLD_TEN_EXT_COUNT ten x)

/-- The Hold map entry of a tenancy bank index in an extent (R257). -/
def Module.holdEntry (m : Module) (ten x b : Nat) : Nat :=
  m.fld Fld.HLD_TEN_EXT_RUN_TABLE_FIRST ten x + (b - m.fld Fld.HLD_TEN_EXT_TBANK_FIRST ten x)

/-- An unused Hold map entry. -/
def holdMapFree : Word := 0xFFFF0000#32

/-- The stored Hold map entry. -/
def Module.mapEntry (m : Module) (e : Nat) : Word := Map.get holdMapFree m.holdMap e

/-- Why a Hold access fails. -/
inductive HoldFail where
  | isolation
  | pair
  deriving DecidableEq, Repr

/-- The physical address of a byte of a tenancy Hold address (R257, R258). A house Hold address names the physical bank. -/
def Module.holdByteLoc (m : Module) (ten h : Nat) (write : Bool) : Except HoldFail Nat :=
  if ten = 0 then (if h < 32768 * bankBytes then .ok h else .error .isolation)
  else
    match m.extentOf ten (h / bankBytes) with
    | none => .error (if (List.range 9).all (fun x => m.extentOk ten x) then .isolation else .pair)
    | some x =>
      if write && m.flag Fld.HLD_TEN_EXT_RUN_READ_ONLY ten x then .error .isolation
      else
        let w := m.mapEntry (m.holdEntry ten x (h / bankBytes))
        if w != tagWord w.toNat then .error .pair
        else if !w.getLsbD 15 then .error .isolation
        else .ok (bitsAt w.toNat 0 15 * bankBytes + h % bankBytes)

/-- Every bank of a Hold range, as physical address and length of each piece, or the first failure. -/
def Module.holdPieces (m : Module) (ten : Nat) (write : Bool) :
    List (Nat × Nat) → Except HoldFail (List (Nat × Nat))
  | [] => .ok []
  | (h, n) :: rest =>
    match m.holdByteLoc ten h write with
    | .error e => .error e
    | .ok p =>
      match m.holdPieces ten write rest with
      | .error e => .error e
      | .ok ps => .ok ((p, n) :: ps)

/-- The check of a whole Hold range (R258): a range past 2^32 leaves the grant. -/
def Module.holdRange (m : Module) (ten h n : Nat) (write : Bool) : Except HoldFail (List (Nat × Nat)) :=
  if 2 ^ 32 < h + n then .error .isolation else m.holdPieces ten write (piecesOf h n)

/-- What a failed check does: ISOLATION and a violation, or PAIR (R102, R258). -/
def Module.holdRefuse (m : Module) (ten h : Nat) : HoldFail → Fail × Module
  | .isolation => (⟨st.isolation, 0, h⟩, (m.violation ten .hld).raise Kind.HLD_ISOLATION ten h)
  | .pair => (⟨st.data, 0, h⟩, m.raise Kind.HLD_PAIR ten h)

/-- Words of 8 bytes that a range touches. -/
def wordsOf (a n : Nat) : List Nat :=
  if n = 0 then [] else (List.range ((a + n - 1) / 8 - a / 8 + 1)).map (fun k => a / 8 + k)

/-- What ECC finds at a read of a Hold word (R260). [log 53 DESIGN CHOICE] -/
def Module.readHoldWord (m : Module) (ten u : Nat) : Module :=
  let bank := u * 8 / bankBytes
  let m := (m.probe Kind.HLD_CE ten bank).probe Kind.HLD_UE ten bank
  match Map.get? m.holdEcc u with
  | none => m
  | some .corrected =>
    let b := Map.get .reset m.banks bank
    ({ m with
        holdEcc := Map.erase m.holdEcc u
        banks := Map.set .reset m.banks bank { b with ce := min 16383 (b.ce + 1) } }).raise Kind.HLD_CE ten bank
  | some .uncorrectable =>
    let b := Map.get .reset m.banks bank
    ({ m with
        holdEcc := Map.erase m.holdEcc u
        holdPoison := Map.set false m.holdPoison u true
        banks := Map.set .reset m.banks bank { b with ue := b.ue + 1 } }).raise Kind.HLD_UE ten bank

/-- Free banks of a die, as HLD_FREE_BANKS holds them. -/
def Module.freeBanks (m : Module) (die : Nat) : Nat := bitsAt (m.reg .HLD_FREE_BANKS).toNat (16 * die) 16

/-- Free banks anywhere. -/
def Module.freeBanksAll (m : Module) : Nat := m.freeBanks 0 + m.freeBanks 1 + m.freeBanks 2 + m.freeBanks 3

/-- Change the count of free banks of the die of a bank. -/
def Module.countBank (m : Module) (p : Nat) (free : Bool) : Module :=
  let lo := 16 * (p / 8192)
  let v := (m.reg .HLD_FREE_BANKS).toNat
  let c := bitsAt v lo 16
  m.setReg .HLD_FREE_BANKS 0 0 (BitVec.ofNat 64 (putBits v lo 16 (if free then c + 1 else c - 1)))

/-- The state of a bank. -/
def Module.bank (m : Module) (p : Nat) : Bank := Map.get .reset m.banks p

/-- A bank can be taken. -/
def Module.bankFree (m : Module) (p : Nat) : Bool := p < 32768 && (m.bank p).state == 0 && !(m.bank p).saved

/-- A free bank that qualifies: which one is a free value. -/
def Module.pickBank (m : Module) (ok : Nat → Bool) : Option Nat :=
  pick (fun p => m.bankFree p && ok p) (Config.freeNat m.freeIx % 32768) 1 32768 0

/-- Give a bank to a Hold map entry. -/
def Module.takeBank (m : Module) (p e : Nat) : Module :=
  let m := { m with
    banks := Map.set .reset m.banks p { m.bank p with state := 1, entry := BitVec.ofNat 16 e }
    holdMap := Map.set holdMapFree m.holdMap e (tagWord (0x8000 + p)) }
  m.countBank p false

/-- Zero a bank and make it free (R25); the house record bears the scrub (R376). -/
def Module.releaseBank (m : Module) (p : Nat) : Module :=
  let m := m.bill 0 (fun l => { l with hold := l.hold + bankBytes })
  let m := { m with
    hold := Mem.zero m.hold (p * bankBytes) bankBytes
    holdEcc := m.holdEcc.filter (fun q => q.1 * 8 / bankBytes ≠ p)
    holdPoison := m.holdPoison.filter (fun q => q.1 * 8 / bankBytes ≠ p)
    banks := Map.set .reset m.banks p { m.bank p with state := 0, entry := 0, saved := false } }
  m.countBank p true

/-- Copy a bank with correction; uncorrectable words are copied as poisoned (R259, R260). -/
def Module.copyBank (m : Module) (p q : Nat) : Module :=
  let shift := fun (k : Nat) => k - p * (bankBytes / 8) + q * (bankBytes / 8)
  let ins := fun (m : Mem) (x : Nat × Byte) => Mem.setByte m (x.1 - p * bankBytes + q * bankBytes) x.2
  let src := m.hold.filter (fun x => x.1 / bankBytes = p)
  let bad := m.holdPoison.filter (fun x => x.1 * 8 / bankBytes = p)
  let ue := m.holdEcc.filter (fun x => x.1 * 8 / bankBytes = p ∧ x.2 = .uncorrectable)
  { m with
    hold := src.foldl ins (Mem.zero m.hold (q * bankBytes) bankBytes)
    holdEcc := m.holdEcc.filter (fun x => x.1 * 8 / bankBytes ≠ q)
    holdPoison := (bad.map (·.1) ++ ue.map (·.1)).foldl (fun a k => Map.set false a (shift k) true)
      (m.holdPoison.filter (fun x => x.1 * 8 / bankBytes ≠ q)) }

/-- Retire a bank (R260): copy it to a free bank of its slice, else of its die, else anywhere, rewrite its map entry and
mark it RETIRED; with no free bank anywhere, raise NO_SPARE. -/
def Module.retireBank (m : Module) (p : Nat) : Module :=
  let b := m.bank p
  if b.state = 0 then
    -- a free bank holds no contents
    ((({ m with banks := Map.set .reset m.banks p { b with state := 2 } }).countBank p false).raise Kind.HLD_RETIRE 0 p)
  else
  let dest := (m.pickBank (fun q => sliceOf q == sliceOf p)).orElse (fun _ =>
    (m.pickBank (fun q => q / 8192 == p / 8192)).orElse (fun _ => m.pickBank (fun _ => true)))
  match dest with
  | none => m.raise Kind.HLD_NO_SPARE 0 p
  | some q =>
    let m := (m.drawn.copyBank p q).takeBank q b.entry.toNat
    let m := { m with
      hold := Mem.zero m.hold (p * bankBytes) bankBytes
      holdEcc := m.holdEcc.filter (fun x => x.1 * 8 / bankBytes ≠ p)
      holdPoison := m.holdPoison.filter (fun x => x.1 * 8 / bankBytes ≠ p)
      banks := Map.set .reset m.banks p { b with state := 2, entry := 0 } }
    m.raise Kind.HLD_RETIRE 0 p

/-- Retire the bank if its errors reach a limit of R260. -/
def Module.checkBank (m : Module) (p : Nat) : Module :=
  let b := m.bank p
  if b.state ≠ 2 ∧ (m.fld Fld.HLD_RETIRE_CE_LIMIT < b.ce ∨ 2 ≤ b.ue) then m.retireBank p else m

/-- Read physical Hold pieces; a poisoned word gives DATA_ERROR. -/
def Module.readHoldLocs (m : Module) (ten : Nat) : List (Nat × Nat) → Except Fail (List Byte) × Module
  | [] => (.ok [], m)
  | (p, n) :: rest =>
    let m := (wordsOf p n).foldl (fun m u => m.readHoldWord ten u) m
    let bad := (wordsOf p n).any (fun u => Map.get false m.holdPoison u)
    let bs := Mem.bytes m.hold p n
    if bad then (.error ⟨st.data, 0, p⟩, ((m.checkBank (p / bankBytes)).readHoldLocs ten rest).2)
    else
      match (m.checkBank (p / bankBytes)).readHoldLocs ten rest with
      | (.error e, m) => (.error e, m)
      | (.ok bs', m) => (.ok (bs ++ bs'), m)

/-- Write physical Hold pieces; a whole word rewritten is no longer poisoned (R260). -/
def Module.writeHoldLocs (m : Module) : List (Nat × Nat) → List Byte → Module
  | [], _ => m
  | (p, n) :: rest, bs =>
    let whole := (wordsOf p n).filter (fun u => p ≤ u * 8 && u * 8 + 8 ≤ p + n)
    ({ m with
        hold := Mem.setBytes m.hold p (bs.take n)
        holdEcc := m.holdEcc.filter (fun x => !whole.contains x.1)
        holdPoison := m.holdPoison.filter (fun x => !whole.contains x.1) }).writeHoldLocs rest (bs.drop n)

/-- Count a tenancy's Hold traffic in units of 64 bytes (R380). [log 81 DESIGN CHOICE] -/
def Module.countHold (m : Module) (ten n : Nat) : Module :=
  let m := m.bill ten (fun l => { l with hold := l.hold + n })
  if ten = 0 then m else m.count 0x0E01 ten (n / 64)

/-- Read a range of a tenancy's Hold addresses (R258). -/
def Module.readHold (m : Module) (b : Block) (ten h n : Nat) : Except Fail (List Byte) × Module :=
  let m := m.probe Kind.HLD_PAIR ten h
  match m.holdRange ten h n false with
  | .error e => let r := m.holdRefuse ten h e; (.error r.1, r.2)
  | .ok ps =>
    match m.pathCheck b ten with
    | (true, m) => (.error ⟨st.data, 0, h⟩, m)
    | (false, m) => (m.countHold ten n).readHoldLocs ten ps

/-- Write a range of a tenancy's Hold addresses (R258). -/
def Module.writeHold (m : Module) (ten h : Nat) (bs : List Byte) : Except Fail Unit × Module :=
  let m := m.probe Kind.HLD_PAIR ten h
  match m.holdRange ten h bs.length true with
  | .error e => let r := m.holdRefuse ten h e; (.error r.1, r.2)
  | .ok ps => (.ok (), (m.countHold ten bs.length).writeHoldLocs ps bs)

/-- The addresses of a Hold range whose words hold uncorrectable errors; none where the range fails its check. -/
def Module.badHold (m : Module) (ten h n : Nat) : Option (List Nat) :=
  match m.holdRange ten h n false with
  | .error _ => none
  | .ok ps => some (((piecesOf h n).zip ps).flatMap (fun x =>
      ((List.range x.2.2).filter (fun k => Map.get false m.holdPoison ((x.2.1 + k) / 8))).map (fun k => x.1.1 + k)))

/-- The bytes of a Hold range as read where ECC cannot correct them (R181): the bytes of a poisoned word are free. -/
def Module.holdAsRead (m : Module) (ten h n : Nat) : List Byte × Module :=
  match m.holdRange ten h n false with
  | .error _ => (List.replicate n 0, m)
  | .ok ps =>
    (ps.flatMap (fun p => (List.range p.2).map (fun k =>
      if Map.get false m.holdPoison ((p.1 + k) / 8) then byteOf (Config.freeNat (m.freeIx * 65536 + p.1 + k))
      else Mem.byte m.hold (p.1 + k))), m.drawn)

end Sys2Proof.Machine
end

