-- ==== Sys2Proof/Machine/HostOps.lean ====
section
/-! DEFINITION. Machine/HostOps.lean: the operations over rings, completions and commands in execution that every
chapter shares (R343 to R360). -/

namespace Sys2Proof.Machine

/-! ## Ring contexts -/

/-- Type codes of R344. -/
abbrev ringType.command : Nat := 1
abbrev ringType.completion : Nat := 2
abbrev ringType.waybill : Nat := 3
abbrev ringType.caravan : Nat := 4
abbrev ringType.reward : Nat := 5
abbrev ringType.ferry : Nat := 6
abbrev ringType.ledger : Nat := 7

/-- Entry size by type (R344). -/
def entrySize : Nat → Nat
  | 1 | 3 | 6 | 7 => 64
  | 2 | 5 => 16
  | _ => 0

/-- Entries of this type are written by the host (R344). -/
def hostProduced (ty : Nat) : Bool := ty == 1 || ty == 3 || ty == 5 || ty == 6

def Module.ringEnabled (m : Module) (g : Nat) : Bool := m.flag Fld.QUE_RING_CFG_ENABLE g
def Module.ringType (m : Module) (g : Nat) : Nat := m.fld Fld.QUE_RING_CFG_TYPE g
def Module.ringState (m : Module) (g : Nat) : Nat := m.fld Fld.QUE_RING_CFG_STATE g
def Module.ringSize (m : Module) (g : Nat) : Nat := 2 ^ m.fld Fld.QUE_RING_CFG_SIZE_LOG2 g
def Module.ringHead (m : Module) (g : Nat) : Nat := m.fld Fld.QUE_RING_PTRS_HEAD g
def Module.ringTail (m : Module) (g : Nat) : Nat := m.fld Fld.QUE_RING_PTRS_TAIL g
def Module.ringBase (m : Module) (g : Nat) : Nat := m.fld Fld.QUE_RING_BASE_VA g

/-- Difference of two free-running 32-bit counts (R347). -/
def diff32 (a b : Nat) : Nat := (a + 2 ^ 32 - b) % 2 ^ 32

/-- The global number of a ring that a function names (R343). -/
def Module.globalRing (m : Module) (t : Ten) (i : Nat) : Nat :=
  if t = house then i else m.fld Fld.TEN_RINGS_RING_FIRST t.val + i

/-- The number by which the ring's own function names it (R343). -/
def Module.localRing (m : Module) (g : Nat) : Nat :=
  let t := m.ringOwner g
  if t = house then g else g - m.fld Fld.TEN_RINGS_RING_FIRST t.val

/-- The completion ring paired with a ring: PAIR is in the function's numbering in the register, and the ring context names
the global ring (R343, QUE_RING_CFG). -/
def Module.pairOf (m : Module) (g : Nat) : Nat := m.globalRing (m.ringOwner g) (m.fld Fld.QUE_RING_CFG_PAIR g)

/-- What the module keeps for a ring. -/
def Module.ring (m : Module) (g : Nat) : Ring := (Map.get? m.rings g).getD ⟨0, none, 0, 0, []⟩

def Module.setRing (m : Module) (g : Nat) (r : Ring) : Module := { m with rings := Map.insert m.rings g r }

/-- The address of entry `e` of a ring (R344). -/
def Module.entryVA (m : Module) (g e : Nat) : Nat :=
  m.ringBase g + entrySize (m.ringType g) * (e % m.ringSize g)

/-- The address of the pointer block (R344). -/
def Module.pointerVA (m : Module) (g : Nat) : Nat := m.ringBase g + m.ringSize g * entrySize (m.ringType g)

/-- Put a ring into ERROR (R347, R349). -/
def Module.ringFail (m : Module) (g : Nat) : Module :=
  (m.setFld Fld.QUE_RING_CFG_STATE g 0 2).raise Kind.QUE_RING_ERROR (m.ringOwner g).val g

/-- Write bytes 0 to 3 of the pointer block, then act; a fault puts the ring into ERROR and nothing else has an effect (R346,
R349). -/
def Module.writePointer (m : Module) (g v : Nat) (act : Module → Module) : Bool × Module :=
  match m.writeVA .que (m.ringOwner g).val (m.pointerVA g) (leBytes 4 v) with
  | (.ok _, m) => (true, act m)
  | (.error _, m) => (false, m.ringFail g)

/-- The interrupt that an armed COMPLETION ring owes, once TAIL differs from the armed INDEX (R347). -/
def Module.fireArm (m : Module) (g : Nat) : Module :=
  let r := m.ring g
  match r.arm with
  | none => m
  | some idx =>
    if m.ringTail g = idx.toNat then m
    else
      let vec := m.fld Fld.QUE_RING_CFG_VECTOR g
      let m := m.setRing g { r with arm := none }
      if m.ringOwner g = house then m.pfVector vec else m.send (.msix (m.funcOf (m.ringOwner g)) vec)

/-- Free entries of a module-produced ring beyond those reserved (R348). -/
def Module.ringRoom (m : Module) (g : Nat) : Nat :=
  m.ringSize g - diff32 (m.ringTail g) (m.ringHead g) - (m.ring g).reserved

/-- Write one entry of a module-produced ring at TAIL, publish TAIL, then the interrupt that is due (R346). A fault
puts the ring into ERROR (R349). -/
def Module.postEntry (m : Module) (g : Nat) (bs : List Byte) : Module :=
  match m.writeVA .que (m.ringOwner g).val (m.entryVA g (m.ringTail g)) bs with
  | (.error _, m) => m.ringFail g
  | (.ok _, m) =>
    (m.writePointer g (m.ringTail g + 1) (fun m => (m.setFld Fld.QUE_RING_PTRS_TAIL g 0 (m.ringTail g + 1)).fireArm g)).2

/-- Reserve or release completions on a completion ring (R348). -/
def Module.reserve (m : Module) (g n : Nat) : Module :=
  m.setRing g { m.ring g with reserved := (m.ring g).reserved + n }
def Module.unreserve (m : Module) (g n : Nat) : Module :=
  m.setRing g { m.ring g with reserved := (m.ring g).reserved - n }

/-- Entries that wait in a host-produced ring (R346). -/
def Module.ringPending (m : Module) (g : Nat) : Nat := diff32 (m.ringTail g) (m.ringHead g)

/-- Read the entry at HEAD; a fault puts the ring into ERROR and the entry is not taken (R349). -/
def Module.readEntry (m : Module) (g : Nat) : Option (List Byte) × Module :=
  match m.readVA .que (m.ringOwner g).val (m.entryVA g (m.ringHead g)) (entrySize (m.ringType g)) with
  | (.ok bs, m) => (some bs, m)
  | (.error _, m) => (none, m.ringFail g)

/-- Advance HEAD past an entry taken, and the time of service of R350; where the pointer block cannot be written, the entry is
not taken (R349). -/
def Module.advanceHead (m : Module) (g : Nat) : Bool × Module :=
  m.writePointer g (m.ringHead g + 1) fun m =>
    let m := m.setFld Fld.QUE_RING_PTRS_HEAD g 0 (m.ringHead g + 1)
    let r := m.ring g
    let m := m.setRing g { r with lastServed := m.calendarUs, served := r.served + 1 }
    { m with turns := Map.insert m.turns (m.ringType g) (m.ringOwner g).val }

/-! ## The ring to serve next (R350) -/

/-- The command is in execution, or waits with its completion. -/
def Cmd.live (c : Cmd) : Bool := c.phase != .requeued

/-- The priority of a ring: read as 0 under HCP 3.1 and older (R353). -/
def Module.hcp (m : Module) (f : Func) : Nat × Nat :=
  (m.fld Fld.HIF_HCP_VER_MAJOR f.val, m.fld Fld.HIF_HCP_VER_MINOR f.val)

/-- A function has a version in force. -/
def Module.hcpValid (m : Module) (f : Func) : Bool := m.flag Fld.HIF_HCP_VER_VALID f.val

/-- The version is at least `maj.min`. -/
def Module.hcpAtLeast (m : Module) (f : Func) (maj min : Nat) : Bool :=
  let v := m.hcp f
  decide (maj < v.1) || (v.1 == maj && decide (min ≤ v.2))

def Module.ringWait (m : Module) (g : Nat) : Nat := m.calendarUs - (m.ring g).lastServed

def Module.ringEff (m : Module) (g : Nat) : Nat :=
  let prio := if m.hcpAtLeast (m.funcOf (m.ringOwner g)) 3 2 then m.fld Fld.QUE_RING_CFG_PRIORITY g else 0
  min 7 (prio + m.ringWait g / max 1 (m.fld Fld.QUE_AGE_STEP_US))

def Module.ringUrgent (m : Module) (g : Nat) : Bool :=
  m.fld Fld.QUE_AGE_LIMIT_US != 0 && decide (m.fld Fld.QUE_AGE_LIMIT_US ≤ m.ringWait g)

/-- The tenancy takes entries: it is RUNNING and not frozen (R361, R368). -/
def Module.takes (m : Module) (t : Ten) : Bool :=
  t == house || (m.active t && m.fld Fld.QUE_TEN_STATE_STATE t.val == 0 && !m.flag Fld.TEN_STATUS_FROZEN t.val)

/-- Commands of a tenancy in execution, as QUE_TEN_CMD.INFLIGHT counts them. [log 106 DEDUCED] -/
def Module.inflight (m : Module) (t : Ten) : Nat := (m.cmds.filter (fun p => p.2.ten == t && p.2.live)).length

/-- A command slot is free: 4,096 in the module and MAX_INFLIGHT of the tenancy (R358). -/
def Module.slotFree (m : Module) (t : Ten) : Bool :=
  decide ((m.cmds.filter (fun p => p.2.live)).length < 4096)
    && (t == house || decide (m.inflight t < m.fld Fld.QUE_TEN_CMD_MAX_INFLIGHT t.val))

/-- The consumer of a ring's entries has capacity for it: a command slot, or the ring's own ferry channel (R358, R386). -/
def Module.ringRoomFor (m : Module) (ty g : Nat) : Bool :=
  if ty = ringType.command then m.slotFree (m.ringOwner g)
  else if ty = ringType.ferry then
    (m.ferries.filter (fun p => m.flag Fld.DMA_CH_CFG_VALID p.1 && m.fld Fld.DMA_CH_CFG_RING p.1 == g)).all (fun p =>
      p.2.entry.isNone && decide (m.fld Fld.DMA_CH_STATUS_STATE p.1 ≤ 1))
  else true

/-- A ring has entries that the module may take now: enabled, not in ERROR, its completion ring fit, entries pending, and room
at its consumer. -/
def Module.ringReady (m : Module) (ty g need : Nat) : Bool :=
  m.ringEnabled g && m.ringRoomFor ty g && m.ringType g == ty && m.ringState g != 2 && m.takes (m.ringOwner g)
    && m.ringPending g != 0
    && (need == 0 || (m.ringEnabled (m.pairOf g) && m.ringState (m.pairOf g) != 2
          && decide (need ≤ m.ringRoom (m.pairOf g))))

/-- The rings listed for a tenancy that are ready for a consumer. -/
def Module.readyRings (m : Module) (ty need : Nat) (t : Ten) : List Nat :=
  (m.rings.map (·.1)).filter (fun g => m.ringOwner g == t && m.ringReady ty g need)

/-- The urgent rings, at most URGENT_SLOTS, those with the longest wait, the lower number among equals (R350). [log 191 DESIGN
CHOICE] -/
def Module.urgentRings (m : Module) (t : Ten) (gs : List Nat) : List Nat :=
  let us := gs.filter m.ringUrgent
  let slots := if t = house then us.length else m.fld Fld.QUE_TEN_STATE_URGENT_SLOTS t.val
  us.filter (fun g => (us.filter (fun h =>
    decide (m.ringWait g < m.ringWait h) || (m.ringWait g == m.ringWait h && decide (h < g)))).length < slots)

/-- The set within which deficit round robin serves: the urgent rings, else the rings of the highest effective
priority (R350). -/
def Module.servedSet (m : Module) (ty need : Nat) (t : Ten) : List Nat :=
  let gs := m.readyRings ty need t
  let us := m.urgentRings t gs
  if !us.isEmpty then us
  else
    let top := gs.foldl (fun a g => max a (m.ringEff g)) 0
    gs.filter (fun g => m.ringEff g == top)

/-- Entries of a ring per round (R350). -/
def Module.ringQuantum (m : Module) (g : Nat) : Nat := max 1 (m.fld Fld.QUE_RING_CFG_QUANTUM g)

/-- The tenancy whose turn it is at a consumer: of those with a ring ready, the next above the one served last, round robin by
tenancy number (R350). -/
def Module.turnOf (m : Module) (ty need : Nat) : Option Ten :=
  let ts := ((m.rings.map (·.1)).filter (fun g => m.ringReady ty g need)).map m.ringOwner
  let dist := fun (t : Ten) => (t.val + 100 - Map.get 0 m.turns ty) % 101
  ts.foldl (fun (a : Option Ten) t =>
    match a with
    | none => some t
    | some b => if dist t < dist b then some t else some b) none

/-- It is a ring's turn: its tenancy's, and within the tenancy deficit round robin in ascending ring number within the served
set: the first ring that has not used its quantum of the round; where all have, a new round starts at the lowest (R350). -/
def Module.mayServe (m : Module) (ty need g : Nat) : Bool :=
  let set := m.servedSet ty need (m.ringOwner g)
  m.turnOf ty need == some (m.ringOwner g) && match set.find? (fun h => decide ((m.ring h).served < m.ringQuantum h)) with
  | some h => h == g
  | none => set.head? == some g

/-- Start a new round where every ring of the served set has used its quantum. -/
def Module.newRound (m : Module) (ty need : Nat) (t : Ten) : Module :=
  let set := m.servedSet ty need t
  if set.all (fun h => decide (m.ringQuantum h ≤ (m.ring h).served)) then
    set.foldl (fun m h => m.setRing h { m.ring h with served := 0 }) m
  else m

/-- Take the next entry of a host-produced ring, where it is that ring's turn: its index in the ring and its bytes. -/
def Module.takeEntry (m : Module) (ty need g : Nat) : Option (Nat × List Byte) × Module :=
  if m.mayServe ty need g then
    let m := m.newRound ty need (m.ringOwner g)
    let index := m.ringHead g
    match m.readEntry g with
    | (some bs, m) =>
      match m.advanceHead g with
      | (true, m) => (some (index, bs), m)
      | (false, m) => (none, m)
    | (none, m) => (none, m)
  else (none, m)

/-! ## Register windows of the functions (R341, R342) -/

/-- A function may act on a tenancy's entries: the physical function on every one, a virtual function on its own. -/
def Module.mayAct (m : Module) (f : Func) (t : Ten) : Bool := f == 0 || m.tenOf f == some t

/-- A write to a tenancy's entry: one that a virtual function addresses to another tenancy's is ignored, raises ISOLATION
in the HIF group and is counted (R342). [log 125 DEDUCED] -/
def Module.guardTen (m : Module) (f : Func) (t : Ten) (act : Module → Module) : Module :=
  if m.mayAct f t then act m
  else
    match m.tenOf f with
    | some u => (m.violation u.val .hif).raise Kind.HIF_ISOLATION u.val t.val
    | none => m

/-! ## Commands in execution (R354 to R359) -/

def Module.cmd (m : Module) (id : Nat) : Option Cmd := Map.get? m.cmds id

def Module.setCmd (m : Module) (id : Nat) (c : Cmd) : Module := { m with cmds := Map.insert m.cmds id c }

/-- An operand of a command descriptor. -/
def Cmd.field (c : Cmd) (o n : Nat) : Nat := fieldAt c.desc o n

/-- The opcode of a command. -/
def Cmd.op (c : Cmd) : Nat := c.field 0 1

/-- The command has started and has not ended. -/
def Cmd.inExec (c : Cmd) : Bool := c.phase == .started || c.phase == .committed

/-- Keep INFLIGHT in line. -/
def Module.countInflight (m : Module) (t : Ten) : Module :=
  if t = house then m else m.setFld Fld.QUE_TEN_CMD_INFLIGHT t.val 0 (m.inflight t)

/-- End a command with a status and a DETAIL; its completion is posted by COMMAND_COMPLETE (R358). DETAIL is zero in OK
completions under HCP 3.0 and older (R353). -/
def Module.finish (m : Module) (id status : Nat) (detail : Nat := 0) : Module :=
  match m.cmd id with
  | none => m
  | some c =>
    let detail := if status = st.ok ∧ !m.hcpAtLeast c.func 3 1 then 0 else detail
    m.setCmd id { c with phase := .done status detail }

/-- The DETAIL of a failed access (R356). -/
def Fail.detail (e : Fail) : Nat :=
  if e.status = st.translation ∨ e.status = st.busError then e.kind * 2 ^ 60 + e.addr % 2 ^ 48 else 0

/-- End a command with a failed access. -/
def Module.finishFail (m : Module) (id : Nat) (e : Fail) : Module := m.finish id e.status e.detail

/-- Pass the commit point of a command (R359). -/
def Module.commitCmd (m : Module) (id : Nat) : Module :=
  match m.cmd id with
  | none => m
  | some c => m.setCmd id { c with phase := .committed }

/-- A 16-byte completion record (R356). -/
def completionRecord (tag status opcode ring detail : Nat) : List Byte :=
  leBytes 4 tag ++ [byteOf status, byteOf opcode] ++ leBytes 2 (ring % 32768) ++ leBytes 8 detail

/-- Forget a command that ends with no completion, and release its reservation (R348, R362). -/
def Module.dropCmd (m : Module) (id : Nat) : Module :=
  match m.cmd id with
  | none => m
  | some c =>
    let m := { m with cmds := Map.erase m.cmds id }
    (match c.comp with
      | some g => m.unreserve g 1
      | none => m).countInflight c.ten

/-- Kill a command before its commit point (R359): re-queue it, count the kill, and post a KILLED record where the ring
has room beyond its reservations. [log 117 DEDUCED] -/
def Module.killCmd (m : Module) (id : Nat) : Module :=
  match m.cmd id with
  | none => m
  | some c =>
    let kills := min 65535 (c.kills + 1)
    let m := m.setCmd id { c with phase := .requeued, kills := kills }
    let m := if c.ten = house then m else m.addFld Fld.QUE_TEN_KILLS_COUNT c.ten.val 0
    let m := m.countInflight c.ten
    match c.comp with
    | none => m
    | some g =>
      if 0 < m.ringRoom g && m.ringState g != 2 then
        m.postEntry g (completionRecord (c.field 4 4) st.killed c.op (m.localRing c.ring) kills)
      else m

/-- An earlier command of the same ring, in the order of taking. -/
def Cmd.before (a b : Cmd) : Bool := a.ring == b.ring && decide (a.seq < b.seq)

/-- A command has ended. -/
def Cmd.ended (c : Cmd) : Bool :=
  match c.phase with
  | .done .. => true
  | _ => false

/-- A command may start (R358, R354): every earlier command of its ring has started, no earlier FENCE of the ring is
open, under ORDERED every earlier one has ended, and the tenancy is running. -/
def Module.canStart (m : Module) (c : Cmd) : Bool :=
  m.takes c.ten && m.cmds.all (fun p =>
    !p.2.before c || p.2.ended
      || (p.2.inExec && p.2.op != 0x40 && !(bitsAt (c.field 1 1) 1 1 == 1)))

/-- The operand bytes that a command names, from a byte to a byte (R354, R417, R431, R436, R437); none: a reserved opcode. -/
def namedBytes : Nat → Option (List (Nat × Nat))
  | 0x01 => some [(8, 19)]
  | 0x02 => some [(8, 9)]
  | 0x03 => some [(8, 11)]
  | 0x10 => some [(8, 27)]
  | 0x11 => some [(8, 17), (20, 23)]
  | 0x12 => some [(8, 17)]
  | 0x13 => some [(8, 31)]
  | 0x20 => some [(8, 8), (10, 25), (32, 39)]
  | 0x21 => some [(8, 8), (10, 13), (16, 31)]
  | 0x22 => some [(10, 11), (16, 25), (32, 55)]
  | 0x30 => some [(8, 57)]
  | 0x40 => some [(8, 8)]
  | 0x41 => some []
  | 0x50 => some [(8, 35)]
  | _ => none

/-- Byte offsets of the virtual addresses of a command. -/
def vaFields : Nat → List Nat
  | 0x01 | 0x11 | 0x12 => [8]
  | 0x10 => [8, 16]
  | 0x13 => [16]
  | 0x20 => [16]
  | 0x21 => [16]
  | 0x22 => [16, 40]
  | 0x30 => [32, 40, 48]
  | _ => []

/-- Reserved bits within named bytes: byte offset, bytes, first reserved bit. -/
def reservedBits : Nat → List (Nat × Nat × Nat)
  | 0x21 => [(12, 2, 13)]
  | 0x30 => [(12, 1, 5), (13, 1, 6), (30, 2, 12)]
  | 0x50 => [(20, 1, 5), (21, 1, 1)]
  | _ => []

/-- A non-zero reserved byte or bit, or a reserved opcode (R354, R355). -/
def Cmd.malformed (c : Cmd) : Bool :=
  match namedBytes c.op with
  | none => true
  | some rs =>
    4 ≤ c.field 1 1 || c.field 2 2 != 0
      || (List.range 56).any (fun i => !rs.any (fun r => decide (r.1 ≤ i + 8) && decide (i + 8 ≤ r.2)) && c.field (i + 8) 1 != 0)
      || (vaFields c.op).any (fun o => c.field o 8 / 2 ^ 48 != 0)
      || (reservedBits c.op).any (fun r => c.field r.1 r.2.1 / 2 ^ r.2.2 != 0)

/-- The opcode or the mode is absent from the negotiated version (R353). -/
def Module.absent (m : Module) (c : Cmd) : Bool :=
  let bound := c.op == 0x30 && (c.field 8 1 == 1 || c.field 8 1 == 2)
  !m.hcpAtLeast c.func 3 2 && bound
    || !m.hcpAtLeast c.func 3 1 && c.op == 0x12
    || !m.hcpAtLeast c.func 3 0 && (c.op == 0x13 || c.op == 0x20 || c.op == 0x50
        || (c.op == 0x30 && c.field 9 1 == 4) || (c.op == 0x11 && c.field 20 4 != 0))

/-- The status that the header earns before any operand is checked (R355). -/
def Module.headerStatus (m : Module) (c : Cmd) : Option Nat :=
  if c.malformed then some st.check
  else if (c.op == 0x13 || c.op == 0x50) && c.func != 0 then some st.isolation
  else if m.absent c then some st.unsupported
  else none

/-- End a command whose header fails. -/
def Module.refuseHeader (m : Module) (id : Nat) (c : Cmd) (status : Nat) : Module :=
  (if status = st.isolation then m.violation c.ten.val .que else m).finish id status

/-- Run a command row: the command has been taken and may start now, and its opcode is the row's. It is then started. [log 114 DEDUCED] -/
def Module.withCmd (m : Module) (id op : Nat) (f : Cmd → Module → Module) : Module :=
  match m.cmd id with
  | some c =>
    if c.phase == .taken && c.op == op && m.canStart c then
      match m.headerStatus c with
      | some status => m.refuseHeader id c status
      | none =>
      f { c with phase := .started } (m.setCmd id { c with phase := .started })
    else m
  | none => m

end Sys2Proof.Machine
end

