-- ==== Sys2Proof/Machine/RouteOps.lean ====
section
/-! DEFINITION. Machine/RouteOps.lean: access to tiles, clusters and loaded routes (R30 to R33, R78, R136 to R147), and
the registers that mirror them. -/

namespace Sys2Proof.Machine

/-! ## Tiles and spans -/

/-- Number of a tile: cluster·256 + row·16 + column. -/
def tileKey (t : TileId) : Nat := t.cl.val * 256 + t.row.val * 16 + t.col.val

/-- The tile with a number. -/
def tileOfKey (k : Nat) : TileId := ⟨Fin.ofNat 100 (k / 256), Fin.ofNat 16 (k / 16), Fin.ofNat 16 k⟩

def Module.tileAt (m : Module) (k : Nat) : Tile := (Map.get? m.tiles k).getD .reset
def Module.tile (m : Module) (t : TileId) : Tile := m.tileAt (tileKey t)
def Module.setTileAt (m : Module) (k : Nat) (x : Tile) : Module := { m with tiles := Map.insert m.tiles k x }
def Module.setTile (m : Module) (t : TileId) (x : Tile) : Module := m.setTileAt (tileKey t) x

/-- Change every tile of a cluster. -/
def Module.mapTiles (m : Module) (c : Nat) (f : Tile → Tile) : Module :=
  (List.range 256).foldl (fun m k => m.setTileAt (c * 256 + k) (f (m.tileAt (c * 256 + k)))) m

/-- Side of the spans of a cluster (R32). -/
def Module.spanSide (m : Module) (c : Nat) : Nat := 2 ^ min 4 (m.fld Fld.FAB_CL_STATUS_SPAN_SHAPE c)

/-- The origin tile of the span that holds a tile (R32, R78). -/
def Module.origin (m : Module) (t : TileId) : TileId :=
  let s := m.spanSide t.cl.val
  ⟨t.cl, Fin.ofNat 16 (t.row.val / s * s), Fin.ofNat 16 (t.col.val / s * s)⟩

/-- The tiles of the span of a tile, in row-major order. -/
def Module.spanTiles (m : Module) (t : TileId) : List TileId :=
  let s := m.spanSide t.cl.val
  let o := m.origin t
  (List.range s).flatMap (fun i => (List.range s).map (fun j =>
    ⟨t.cl, Fin.ofNat 16 (o.row.val + i), Fin.ofNat 16 (o.col.val + j)⟩))

/-- Span number in the cluster, in row-major order of span origins (R81). -/
def Module.spanIdx (m : Module) (t : TileId) : Nat :=
  let s := m.spanSide t.cl.val
  t.row.val / s * (16 / s) + t.col.val / s

/-- Change every tile of the span of a tile. -/
def Module.mapSpan (m : Module) (t : TileId) (f : TileId → Tile → Tile) : Module :=
  (m.spanTiles t).foldl (fun m u => m.setTile u (f u (m.tile u))) m

/-! ## Clusters and routes -/

def Module.cl (m : Module) (c : Nat) : Cl := (Map.get? m.cls c).getD .reset
def Module.setCl (m : Module) (c : Nat) (x : Cl) : Module := { m with cls := Map.insert m.cls c x }

def Module.route (m : Module) (n : Nat) : Option Route := Map.get? m.routes n

/-- Change a loaded route. -/
def Module.setRoute (m : Module) (n : Nat) (f : Route → Route) : Module :=
  match m.route n with
  | none => m
  | some r => { m with routes := Map.insert m.routes n (f r) }

/-- Change one stage of a loaded route. -/
def Module.setStage (m : Module) (n i : Nat) (f : Stage → Stage) : Module :=
  m.setRoute n (fun r => { r with stages := r.stages.modify i f })

/-- The clusters that carry a route, primaries only, in ascending number. -/
def Module.clustersOf (m : Module) (n : Nat) : List Nat :=
  (List.range 100).filter (fun c => (m.cl c).route == some n && (m.cl c).twinOf.isNone)

/-- The step being executed on the cluster is released: the cluster is not at a boundary (R90). -/
def Module.released (m : Module) (c : Nat) : Bool := !m.flag Fld.FAB_CL_STATUS_AT_BOUNDARY c

/-- The clusters of one stage of a route. -/
def Module.stageClusters (m : Module) (n i : Nat) : List Nat :=
  (m.clustersOf n).filter (fun c => (m.cl c).stage == i)

/-- The twin of a cluster, if it has one (R412). -/
def Module.twinOf (m : Module) (c : Nat) : Option Nat := (List.range 100).find? (fun d => (m.cl d).twinOf == some c)

/-- The route and stage that a cluster carries. -/
def Module.stageOf (m : Module) (c : Nat) : Option (Nat × Route × Stage) :=
  match (m.cl c).route with
  | none => none
  | some n =>
    match m.route n with
    | none => none
    | some r =>
      match r.stages[(m.cl c).stage]? with
      | none => none
      | some sg => some (n, r, sg)

/-- The loaded route of a tenancy with a ROUTE_ID. -/
def Module.routeById (m : Module) (t : Ten) (id : Nat) : Option Nat :=
  (m.routes.find? (fun p => p.2.ten == t && p.2.routeId == id)).map (·.1)

/-- The routes of a tenancy. -/
def Module.routesOf (m : Module) (t : Ten) : List Nat := (m.routes.filter (fun p => p.2.ten == t)).map (·.1)

/-- Code of PLC_ROUTE.STATE. -/
def RouteState.code : RouteState → Nat
  | .loaded => 1 | .running => 2 | .stopping => 3 | .stopped => 4

/-- Keep PLC_ROUTE in line with a route. -/
def Module.mirrorRoute (m : Module) (n : Nat) : Module :=
  m.setReg .PLC_ROUTE n 0 (BitVec.ofNat 64 (match m.route n with
    | none => 0
    | some r => (m.clustersOf n).length * 2 ^ 32 + r.routeId * 2 ^ 16 + (if r.learning then 2 else 1) * 2 ^ 12
        + r.state.code * 2 ^ 8 + r.ten.val))

/-- Clusters assigned to a tenancy (FAB_CL_ASSIGN). -/
def Module.assigned (m : Module) (t : Ten) : List Nat :=
  (List.range 100).filter (fun c => m.flag Fld.FAB_CL_ASSIGN_VALID c && m.fld Fld.FAB_CL_ASSIGN_TENANCY c == t.val)

/-- The cluster carries a route of the given role. -/
def Module.carries (m : Module) (learning : Bool) (c : Nat) : Bool :=
  match m.stageOf c with
  | some (_, r, _) => r.learning == learning
  | none => false

/-- Keep PLC_TEN_CLUSTERS in line. -/
def Module.mirrorTen (m : Module) (t : Ten) : Module :=
  let cs := m.assigned t
  let m := m.setFld Fld.PLC_TEN_CLUSTERS_IDLE t.val 0 (cs.filter (fun c => (m.cl c).route.isNone)).length
  let m := m.setFld Fld.PLC_TEN_CLUSTERS_LEARNING t.val 0 (cs.filter (m.carries true)).length
  let m := m.setFld Fld.PLC_TEN_CLUSTERS_GENERATION t.val 0 (cs.filter (m.carries false)).length
  m.setFld Fld.PLC_TEN_CLUSTERS_GRANTED t.val 0 (m.fld Fld.TEN_GRANT_CLUSTERS t.val)

/-- The state of a cluster that neither repairs nor is retired. -/
def Module.setClState (m : Module) (c v : Nat) : Module :=
  if m.fld Fld.FAB_CL_STATUS_STATE c = 3 ∨ m.fld Fld.FAB_CL_STATUS_STATE c = 5 then m
  else m.setFld Fld.FAB_CL_STATUS_STATE c 0 v

/-- Zero the bays and the depot of a cluster (R25, R143, R151); its instruction caches are invalidated (R29). -/
def Module.wipeCluster (m : Module) (c : Nat) : Module :=
  let m := m.mapTiles c (fun _ => .reset)
  m.setCl c { m.cl c with depot := [], depotEcc := [], badLines := [] }

/-- A cluster leaves its route and goes to the tenancy's idle pool, wiped (R143). -/
def Module.idleCluster (m : Module) (c : Nat) : Module :=
  let m := m.wipeCluster c
  let cl := m.cl c
  let m := m.setCl c { cl with
    route := none, stage := 0, step := 0, joined := 0, committedAny := false, nextKind := 0, itemsLeft := 0, pass := 0, ended := [],
    sched := [], move := none, twinOf := none, digestBad := false, mismatched := false }
  let m := m.setFld Fld.FAB_CL_STATUS_SPAN_SHAPE c 0 0
  let m := m.setFld Fld.FAB_CL_STATUS_ROLE c 0 0
  let m := m.setFlag Fld.FAB_CL_STATUS_AT_BOUNDARY c 0 true
  let twin := m.twinOf c
  let m := m.setClState c 0
  match twin with
  | some d => (m.setCl d { m.cl d with twinOf := none, route := none }).setClState d 0
  | none => m

/-- Write FAB_CL_ASSIGN with its complement, keep Waymaster's record of it, and the copy in FAB_CL_STATUS. -/
def Module.setAssign (m : Module) (c : Nat) (valid : Bool) (ten logical : Nat) : Module :=
  let w := pairWord (logical * 256 + (if valid then 128 else 0) + ten)
  let m := m.setReg .FAB_CL_ASSIGN c 0 w
  let m := m.setFld Fld.FAB_CL_STATUS_TENANCY c 0 ten
  m.setCl c { m.cl c with assignRecord := w, rewritten := false }

/-- A generation stage that deals pages (R202). [log 59 DEDUCED] -/
def pagedStage (r : Route) (sg : Stage) : Bool := !r.learning && sg.kind == 1 && sg.items == 0xFFFFFFFF

/-- A learning stage that runs the schedule (R231). -/
def scheduledStage (r : Route) (sg : Stage) : Bool :=
  r.learning && (sg.kind == 6 || sg.kind == 7) && sg.items == 0xFFFFFFFE

/-- The lowest step that some cluster of a stage has not committed; every step before it is committed. -/
def Module.lowestStep (m : Module) (n i : Nat) : Nat :=
  ((m.stageClusters n i).map (fun c => (m.cl c).step.toNat)).foldl min (2 ^ 64)

/-- Keep the last `keep` of the steps below `low` in a measurement. -/
def trimLog (keep low : Nat) (log : Map Nat) : Map Nat := log.drop ((log.filter (fun p => p.1 < low)).length - keep)

/-- Add busy tile-cycles to the measurement of a stage (R145) and to the counters (R380). -/
def Module.countBusy (m : Module) (ten n i : Nat) (step : Word64) (busy : Nat) : Module :=
  let keep := m.fld Fld.PLC_MEASURE_STEPS
  let low := m.lowestStep n i
  let m := m.setStage n i (fun s => { s with
    busyLog := trimLog keep low (Map.insert s.busyLog step.toNat (Map.get 0 s.busyLog step.toNat + busy)) })
  m.count 0x2001 ten busy

/-- A relocation has reserved the cluster (R151). -/
def Module.targeted (m : Module) (c : Nat) : Bool :=
  m.cls.any (fun p =>
    match p.2.move with
    | some mv => mv.target == some c
    | none => false)

/-- The cluster carries no route, moves nowhere, and no relocation has reserved it. -/
def Module.isIdle (m : Module) (c : Nat) : Bool :=
  (m.cl c).route.isNone && (m.cl c).move.isNone && m.fld Fld.FAB_CL_STATUS_STATE c == 0 && !m.targeted c

/-- The state that a cluster has when no move keeps it DRAINING: ACTIVE under a running route, else IDLE. -/
def Module.restState (m : Module) (c : Nat) : Module :=
  m.setClState c (match m.stageOf c with
    | some (_, r, _) => if r.state == .running || r.state == .stopping then 1 else 0
    | none => 0)

/-- Unassigned, idle, unretired clusters of the module (R369, R370). -/
def Module.freeClusters (m : Module) : List Nat :=
  (List.range 100).filter (fun c => !m.flag Fld.FAB_CL_ASSIGN_VALID c && m.fld Fld.FAB_CL_STATUS_STATE c == 0
    && (m.cl c).move.isNone)

/-- The cluster of a tenancy with a logical number (R41). [log 37 DEDUCED] -/
def Module.clusterOf (m : Module) (t : Ten) (logical : Nat) : Option Nat :=
  (m.assigned t).find? (fun c =>
    m.fld Fld.FAB_CL_ASSIGN_LOGICAL c == logical && (m.cl c).twinOf.isNone && pairOk (m.reg .FAB_CL_ASSIGN c))

/-- A cluster other than `c` carries a route, or is reserved, under a LOGICAL number of the tenancy. -/
def Module.logicalUsed (m : Module) (t : Ten) (c l : Nat) : Bool :=
  (m.assigned t).any (fun d => d != c && (m.cl d).route.isSome && (m.cl d).twinOf.isNone
    && m.fld Fld.FAB_CL_ASSIGN_LOGICAL d == l)
  || (List.range 100).any (fun d => d != c &&
    match (m.cl d).move with
    | some mv => mv.ten == t && mv.logical == some l
    | none => false)

/-- The lowest LOGICAL number that the tenancy is not using, for a cluster that joins a stage (R147). -/
def Module.freeLogical (m : Module) (t : Ten) (c : Nat) : Nat :=
  ((List.range 101).find? (fun l => !m.logicalUsed t c l)).getD 100

/-- The lowest number that no cluster of the tenancy has. -/
def Module.unheldLogical (m : Module) (t : Ten) : Nat :=
  ((List.range 101).find? (fun l => (m.clusterOf t l).isNone)).getD 100

/-- Give a cluster a LOGICAL number of the tenancy; an idle cluster that has it takes the cluster's old one, so that the
numbers stay distinct. -/
def Module.takeLogical (m : Module) (t : Ten) (c l : Nat) : Module :=
  let mine := m.flag Fld.FAB_CL_ASSIGN_VALID c && m.fld Fld.FAB_CL_ASSIGN_TENANCY c == t.val
  let old := m.fld Fld.FAB_CL_ASSIGN_LOGICAL c
  let holder := (m.assigned t).find? (fun d => d != c && m.fld Fld.FAB_CL_ASSIGN_LOGICAL d == l && (m.cl d).route.isNone)
  let m := m.setAssign c true t.val l
  match holder with
  | none => m
  | some d => m.setAssign d true t.val (if mine then old else m.unheldLogical t)

/-! ## The skew monitor and migration (R253, R254) -/

/-- DRAM-tier buffers of running routes: route, tenancy, buffer number and buffer. -/
def Module.skewBuffers (m : Module) : List (Nat × Ten × Nat × Buffer) :=
  (m.routes.filter (fun p => p.2.state == .running || p.2.state == .stopping)).flatMap (fun p =>
    ((List.range p.2.buffers.length).filterMap (fun i =>
      (p.2.buffers[i]?).bind (fun b => if 2 ≤ b.tier then some (p.1, p.2.ten, i, b) else none))))

/-- Insert a buffer in the order of descending size. -/
def insertBuffer (x : Nat × Ten × Nat × Buffer) : List (Nat × Ten × Nat × Buffer) → List (Nat × Ten × Nat × Buffer)
  | [] => [x]
  | y :: ys => if y.2.2.2.bytes < x.2.2.2.bytes then x :: y :: ys else y :: insertBuffer x ys

/-- Assign the 1,024 tracking slots, largest buffer first; a buffer that keeps its slot keeps its counts (R253). -/
def Module.assignSkew (m : Module) : Module :=
  let bs := (m.skewBuffers.foldl (fun a x => insertBuffer x a) []).take 1024
  { m with skew := bs.map (fun x =>
    match m.skew.find? (fun y => y.route == x.1 && y.buffer == x.2.2.1 && y.ten == x.2.1 && y.addr == x.2.2.2.addr) with
    | some y => y
    | none => ⟨x.2.1, x.1, x.2.2.1, x.2.2.2.addr, x.2.2.2.bytes, [], false, false⟩) }

/-- Abandon a migration: its target frames are freed, uncharged as they were, and MIG_ABORT is raised (R254). -/
def Module.abandonMigration (m : Module) (n b : Nat) : Module :=
  match (m.route n).bind (fun r => Map.get? r.migrations b) with
  | none => m
  | some g =>
    let size := fun (p : MigPage) => 2 ^ (levelShift p.level).1 / frameBytes
    let m := g.pages.foldl (fun m p => (List.range (size p)).foldl (fun m k =>
      if m.ownsFrame g.ten.val (p.target + k) then m.scrubFrame (p.target + k) else m) m) m
    let m := m.setRoute n (fun r => { r with migrations := Map.erase r.migrations b })
    (m.mirrorKeys g.ten.val).raise Kind.MEM_MIG_ABORT g.ten.val n

/-- Abandon every migration of a route. -/
def Module.abandonAll (m : Module) (n : Nat) : Module :=
  match m.route n with
  | none => m
  | some r => r.migrations.foldl (fun m p => m.abandonMigration n p.1) m

/-! ## Suspension (R361, R392) -/

abbrev chIdle : Nat := 0
abbrev chRunning : Nat := 1
abbrev chPausing : Nat := 2
abbrev chPaused : Nat := 3
abbrev chHalted : Nat := 4

/-- Ferry channels of a tenancy. -/
def Module.channelsOf (m : Module) (t : Ten) : List Nat :=
  (m.ferries.map (·.1)).filter (fun c => m.flag Fld.DMA_CH_CFG_VALID c && m.fld Fld.DMA_CH_CFG_TENANCY c == t.val)

def Module.chState (m : Module) (c : Nat) : Nat := m.fld Fld.DMA_CH_STATUS_STATE c
def Module.setChState (m : Module) (c v : Nat) : Module := m.setFld Fld.DMA_CH_STATUS_STATE c 0 v

/-- A tenancy resumes: its routes go on at their lowest uncommitted steps with ENTRY_KIND 2, its paused channels go on, and
RESUMED is posted. -/
def Module.resumeTen (m : Module) (t : Ten) : Module :=
  let m := { m with resumeDue := m.resumeDue.filter (· != t) }
  let m := m.setFld Fld.QUE_TEN_STATE_STATE t.val 0 0
  let m := (m.routesOf t).foldl (fun m n => (m.clustersOf n).foldl (fun m c =>
    let cl := m.cl c
    if cl.committedAny && !m.released c then m.setCl c { cl with nextKind := 2 } else m) m) m
  let m := (m.channelsOf t).foldl (fun m c =>
    if m.chState c == chPaused then
      m.setChState c (if ((Map.get? m.ferries c).bind (·.entry)).isSome then chRunning else chIdle)
    else m) m
  m.notice t Fld.HIF_VF_NOTICE_RESUMED

/-- A SUSPENDING tenancy is SUSPENDED once no command past its commit point remains, its clusters are at boundaries, and its
channels are PAUSED or HALTED. A RESUME that waited takes effect. -/
def Module.checkSuspended (m : Module) (t : Ten) : Module :=
  if t = house || m.fld Fld.QUE_TEN_STATE_STATE t.val != 1 then m
  else if m.cmds.any (fun p => p.2.ten == t && p.2.op != 0x02 && (p.2.phase == .committed || p.2.ended))
      || (m.routesOf t).any (fun n => (m.clustersOf n).any m.released)
      || (m.channelsOf t).any (fun c => m.chState c != chPaused && m.chState c != chHalted) then m
  else
    let m := (m.setFld Fld.QUE_TEN_STATE_STATE t.val 0 2).notice t Fld.HIF_VF_NOTICE_SUSPENDED
    if m.resumeDue.contains t then m.resumeTen t else m

/-- Key of a barrier participant. -/
def Module.participant (m : Module) (t : TileId) : Nat := t.cl.val * 256 + m.spanIdx t

/-- The spans of a cluster as barrier participants. -/
def Module.spanKeys (m : Module) (c : Nat) : List Nat :=
  (List.range ((16 / m.spanSide c) * (16 / m.spanSide c))).map (fun i => c * 256 + i)

/-- The participants of a barrier on this module (R139): every span of the clusters that count. The spans of a twin arrive with
those of its primary (R413). [log 165 DEDUCED] -/
def Module.participants (m : Module) (b : Barrier) : List Nat :=
  b.members.flatMap (fun c => m.spanKeys c ++
    (match m.twinOf c with
     | some d => m.spanKeys d
     | none => []))

/-- The clusters of a route whose stage is in the mask of a barrier. -/
def Module.maskClusters (m : Module) (n : Nat) (b : Barrier) : List Nat :=
  (m.clustersOf n).filter (fun c => bitsAt b.stageMask (m.cl c).stage 1 == 1)

/-- A barrier whose clusters are no longer those of its stages changes its participants once every participating cluster has
reached its next boundary (R139). [log 166 DEDUCED] -/
def Module.recountBarrier (m : Module) (n : Nat) (b : Barrier) : Barrier :=
  let now := m.maskClusters n b
  if now == b.members then { b with due := none }
  else
    let wait := match b.due with
      | some l => l.filter m.released
      | none => (now ++ b.members.filter (fun c => !now.contains c)).filter m.released
    if wait.isEmpty then { b with members := now, due := none } else { b with due := some wait }

/-- Bring the barriers of a route in line with its clusters. -/
def Module.recountBarriers (m : Module) (n : Nat) : Module :=
  m.setRoute n (fun r => { r with barriers := r.barriers.map (m.recountBarrier n) })

/-- A cluster has reached a boundary: the changes of barriers that waited for it come nearer (R139). -/
def Module.atBoundary (m : Module) (n c : Nat) : Module :=
  m.setRoute n (fun r => { r with barriers := r.barriers.map (fun b =>
    match b.due with
    | none => b
    | some l =>
      let l := l.erase c
      if l.isEmpty then { b with members := m.maskClusters n b, due := none } else { b with due := some l }) })

/-- A route has gained or lost clusters. -/
def Module.changedRoute (m : Module) (n : Nat) : Module := (m.recountBarriers n).mirrorRoute n

end Sys2Proof.Machine
end

