-- ==== Sys2Proof/Machine/PortOps.lean ====
section
/-! DEFINITION. Machine/PortOps.lean: the ports of the viaduct: states, flits, frames, the transmitter with its credits and
replay buffer, and the start of a retrain (R290 to R302). -/

namespace Sys2Proof.Machine

/-! ## Ports -/

def Module.port (m : Module) (p : Nat) : Port := (Map.get? m.ports p).getD .reset

def Module.setPort (m : Module) (p : Nat) (x : Port) : Module := { m with ports := Map.insert m.ports p x }

/-- VIA_PORT_STATUS.STATE codes. -/
abbrev portState.down : Nat := 0
abbrev portState.training : Nat := 1
abbrev portState.up : Nat := 2
abbrev portState.half : Nat := 3
abbrev portState.disabled : Nat := 4
abbrev portState.held : Nat := 5

def Module.portStateOf (m : Module) (p : Nat) : Nat := m.fld Fld.VIA_PORT_STATUS_STATE p
def Module.setPortState (m : Module) (p v : Nat) : Module := m.setFld Fld.VIA_PORT_STATUS_STATE p 0 v

/-- The port is UP or HALF. -/
def Module.linkUp (m : Module) (p : Nat) : Bool := m.portStateOf p == portState.up || m.portStateOf p == portState.half

/-! ## Flits (R294) -/

/-- CRC-32 of R294. -/
def crc32 (bs : List Byte) : Nat := crcBytes 0xEDB88320 0xFFFFFFFF bs ^^^ 0xFFFFFFFF

/-- The 256 bytes of a flit. -/
def flitBytes (seq ack kind flags : Nat) (payload : List Byte) : List Byte :=
  let b := leBytes 2 seq ++ leBytes 2 ack ++ [byteOf kind, byteOf flags] ++ leBytes 2 payload.length ++ payload
    ++ List.replicate (244 - payload.length) 0
  b ++ leBytes 4 (crc32 b)

/-- Payload bytes of a flit. -/
abbrev flitPayload : Nat := 244

/-- Cut bytes into flit payloads. -/
def cutFlits : Nat → List Byte → List (Nat × List Byte)
  | 0, _ => []
  | n + 1, bs =>
    if bs.length ≤ flitPayload then [(0, bs)] else (0, bs.take flitPayload) :: cutFlits n (bs.drop flitPayload)

/-- The bytes of a packet: header and payload (R301). -/
def packetBytes (k : Packet) : List Byte :=
  leBytes 2 k.dst.toNat ++ leBytes 2 k.src.toNat ++ leBytes 3 k.jobId.toNat ++ [k.kind, k.hops, k.flags, 0, 0]
    ++ leBytes 4 k.payload.length ++ leBytes 16 k.spec.toNat ++ k.payload

/-- The packet that bytes spell. -/
def packetOf (b : List Byte) : Packet where
  dst := BitVec.ofNat 13 (fieldAt b 0 2)
  src := BitVec.ofNat 13 (fieldAt b 2 2)
  jobId := BitVec.ofNat 24 (fieldAt b 4 3)
  kind := byteOf (fieldAt b 7 1)
  hops := byteOf (fieldAt b 8 1)
  flags := byteOf (fieldAt b 9 1)
  spec := BitVec.ofNat 128 (fieldAt b 16 16)
  payload := (b.drop 32).take (fieldAt b 12 4)

/-- FLAGS of flit `i` of a packet; a TUNNEL flit has its VC alone. -/
def TxPkt.flagsAt (x : TxPkt) (i : Nat) : Nat :=
  if x.body.isNone then x.vc
  else x.vc + (if i = 0 then 8 else 0) + (if i + 1 = x.flits.length then 16 + (if x.abort then 32 else 0) else 0)

/-- SEQ of the last flit received in order. -/
def Port.lastIn (x : Port) : Nat := (x.rxNext - 1).toNat

/-! ## Frames (R293) -/

/-- The sync mark: four words, each little-endian. -/
def syncMark : List Byte := [0x56414455, 0x43542D33, 0xA9BEBBDD, 0x5CABD2CC].flatMap (leBytes 4)

/-- A frame: the mark and its flits. -/
def frameOf (flits : List (List Byte)) : List Byte := syncMark ++ flits.flatten

/-- Flits of a frame. -/
abbrev frameFlits : Nat := 64

/-- Put a flit into the port's stream: the first of every 64 follows a sync mark. [log 186 DESIGN CHOICE] -/
def Module.putFlit (m : Module) (p : Nat) (x : OutMsg) : Module :=
  let q := m.port p
  let m := if q.frameAt = 0 then m.send (.mark p syncMark) else m
  (m.setPort p { q with frameAt := (q.frameAt + 1) % frameFlits }).send x

/-- Send an IDLE flit, which carries the last ACK. [log 186 DESIGN CHOICE] -/
def Module.sendIdle (m : Module) (p : Nat) : Module := m.putFlit p (.flit p (flitBytes 0 (m.port p).lastIn 0 0 []))

/-- What a LINK flit says, as numbers. -/
def LinkInfo.words : LinkInfo → List Nat
  | .offer v k => [0, v, k]
  | .coordinate x y z d k => [1, x, y, z, d, k]
  | .lanes ls a => 2 :: a :: ls

/-- Send a LINK flit; its payload is free. [log 88 DESIGN CHOICE] -/
def Module.sendLinkFlit (m : Module) (p : Nat) (info : LinkInfo) : Module :=
  m.putFlit p (.link p info (flitBytes 0 (m.port p).lastIn 3 0
    ((List.range flitPayload).map (fun i => Config.linkByte info.words i))))

/-! ## The transmitter (R296, R302) -/

/-- Send the flits of a packet from number `from_` on. -/
def Module.emitFlits (m : Module) (p from_ : Nat) (x : TxPkt) : Module :=
  let kind := if x.body.isSome then 1 else 4
  (List.range x.flits.length).foldl (fun m i =>
    if i < from_ then m
    else
      m.putFlit p (.flit p (flitBytes ((x.first + BitVec.ofNat 16 i).toNat) (m.port p).lastIn kind (x.flagsAt i)
        ((x.flits[i]?.map (·.2)).getD [])))) m

/-- Flits of the replay buffer (R296). -/
def Port.held (x : Port) : Nat := (x.replay.map (fun (k : TxPkt) => k.flits.length)).sum

/-- Room of the replay buffer. -/
abbrev replayFlits : Nat := 8192

/-- Credits of each link VC in flits (R302). [log 84 DEDUCED] -/
def vcCredits (vc : Nat) : Nat := [32, 256, 256, 64, 64, 16].getD vc 0

/-- Flits of a VC that the peer has not acknowledged: a flit gives its credit back with its acknowledgement. [log 187 DESIGN
CHOICE] -/
def Port.onWire (x : Port) (vc : Nat) : Nat :=
  ((x.replay.filter (fun (k : TxPkt) => k.vc == vc)).map (fun (k : TxPkt) => k.flits.length - k.acked)).sum

/-- The JOB_ID of a packet. -/
def TxPkt.job (x : TxPkt) : Nat := (x.body.map (fun b => b.1.jobId.toNat)).getD 0

/-- The oldest packet of each VC and job that waits: those behind it keep their order (R305). -/
def Port.heads (x : Port) : List TxPkt :=
  x.waitq.foldl (fun (hs : List TxPkt) k => if hs.any (fun h => h.vc == k.vc && h.job == k.job) then hs else hs ++ [k]) []

/-- The next packet that the port sends: VC 5 first, then VC 0, then VCs 1 to 4 in round-robin order by JOB_ID; a packet
waits for the credits of all its flits (R302). [log 187 DESIGN CHOICE] -/
def Port.nextTx (x : Port) : Option TxPkt :=
  let ready := x.heads.filter (fun k => decide (x.onWire k.vc + k.flits.length ≤ vcCredits k.vc))
  let turn := fun (k : TxPkt) => (k.job + 2 ^ 24 - 1 - x.lastJob) % 2 ^ 24
  match ready.find? (fun k => k.vc == 5), ready.find? (fun k => k.vc == 0) with
  | some k, _ => some k
  | none, some k => some k
  | none, none => ready.foldl (fun (a : Option TxPkt) k =>
      match a with
      | none => some k
      | some b => if turn k < turn b then some k else some b) none

/-- Send a packet that waits: it takes SEQ numbers and a place in the replay buffer (R296). -/
def Module.startTx (m : Module) (p : Nat) (x : TxPkt) : Module :=
  let q := m.port p
  let y := { x with first := q.txNext }
  let m := m.setPort p { q with
    txNext := q.txNext + BitVec.ofNat 16 x.flits.length, replay := q.replay ++ [y], waitq := q.waitq.erase x
    lastJob := if x.vc == 5 || x.vc == 0 then q.lastJob else x.job }
  let m := if x.body.isSome then m.addFld Fld.VIA_PORT_TX_FLITS_COUNT p 0 x.flits.length else m
  m.emitFlits p 0 y

/-- Send what waits, as far as credits go; a full replay buffer stalls the transmitter (R296, R302). -/
def Module.pumpTx (m : Module) (p : Nat) : Nat → Module
  | 0 => m
  | n + 1 =>
    if !m.linkUp p then m
    else
      match (m.port p).nextTx with
      | none => m
      | some x => if replayFlits < (m.port p).held + x.flits.length then m else (m.startTx p x).pumpTx p n

/-- Send what waits in a port. -/
def Module.drainTx (m : Module) (p : Nat) : Module := m.pumpTx p (m.port p).waitq.length

/-- Queue a packet on a port: it waits in training, and for its turn, for credits and for room (R296, R300, R302). -/
def Module.sendTx (m : Module) (p : Nat) (x : TxPkt) : Module :=
  (m.setPort p { m.port p with waitq := (m.port p).waitq ++ [x] }).drainTx p

/-! ## Acknowledgement and replay (R296) -/

/-- Acknowledge `n` flits from the front of the replay buffer: a packet is released when its LAST flit is. -/
def ackTx : Nat → List TxPkt → List TxPkt
  | _, [] => []
  | n, x :: xs => if x.flits.length ≤ n then ackTx (n - x.flits.length) xs else { x with acked := max x.acked n } :: xs

/-- An ACK: every flit up to it is acknowledged; one that names no flit of the buffer changes nothing. -/
def Module.releaseAcked (m : Module) (p : Nat) (ack : BitVec 16) : Module :=
  let q := m.port p
  match q.replay.head? with
  | none => m
  | some (x : TxPkt) =>
    let n := (ack + 1 - x.first).toNat
    if q.held < n then m
    else m.setPort p { q with replay := ackTx n q.replay }

/-- An ACK, and what waited for its room and credits is sent. -/
def Module.ackPort (m : Module) (p : Nat) (ack : BitVec 16) : Module := (m.releaseAcked p ack).drainTx p

/-- Resend every flit that is not acknowledged, in the original order; `fresh` clears the replay counts (R300). -/
def Module.replayPort (m : Module) (p : Nat) (fresh : Bool) : Module :=
  let q := m.port p
  let step := fun (x : TxPkt) => { x with flits := x.flits.mapIdx (fun i (y : Nat × List Byte) =>
    if i < x.acked then y else (if fresh then 0 else y.1 + 1, y.2)) }
  let n := (q.replay.map (fun (x : TxPkt) => x.flits.length - x.acked)).sum
  let m := m.setPort p { q with replay := q.replay.map step }
  let m := m.addFld Fld.VIA_PORT_REPLAYS_COUNT p 0 n
  let m := if n = 0 then m else m.count 0x0B02 0 n
  q.replay.foldl (fun m x => m.emitFlits p x.acked x) m

/-- A flit has been replayed 8 times without acknowledgement. [log 87 DEDUCED] -/
def Port.exhausted (x : Port) : Bool :=
  x.replay.any (fun (k : TxPkt) => (k.flits.drop k.acked).any (fun y => decide (8 ≤ y.1)))

/-- Send NAK with the last flit received in order, and discard until its successor arrives (R296). -/
def Module.sendNak (m : Module) (p : Nat) : Module :=
  let q := m.port p
  (m.setPort p { q with dropping := true }).putFlit p (.flit p (flitBytes 0 q.lastIn 2 0 []))

/-! ## Retrain (R300) -/

/-- A retrain starts: the port stops sending and signals the peer. -/
def Module.startRetrain (m : Module) (p : Nat) : Module :=
  if !m.linkUp p then m
  else
    let m := m.setPort p { m.port p with due := false, failedFrames := 0 }
    let m := (m.setPortState p portState.training).addFld Fld.VIA_PORT_RETRAINS_COUNT p 0
    ((m.count 0x0B03 0 1).raise Kind.VIA_RETRAIN 0 p).send (.retrain p)

/-- NAK received: replay from the flit after its ACK, or a retrain after eight replays (R296). -/
def Module.nakPort (m : Module) (p : Nat) (ack : BitVec 16) : Module :=
  let m := m.releaseAcked p ack
  if (m.port p).exhausted then m.startRetrain p else (m.replayPort p false).drainTx p

end Sys2Proof.Machine
end

