-- ==== Sys2Proof/Machine/SyncOps.lean ====
section
/-! DEFINITION. Machine/SyncOps.lean: torus coordinates and group boxes (R302, R309, R312), and the group operations of the
sync plane (R313, R314). -/

namespace Sys2Proof.Machine

/-! ## Coordinates and boxes (R309, R312) -/

/-- The size of a dimension: 0 X, 1 Y, 2 Z. -/
def Module.dim (m : Module) (d : Nat) : Nat :=
  1 + match d with
    | 0 => m.fld Fld.VIA_DISC_CTL_DIM_X_M1
    | 1 => m.fld Fld.VIA_DISC_CTL_DIM_Y_M1
    | _ => m.fld Fld.VIA_DISC_CTL_DIM_Z_M1

/-- The module's own coordinate. -/
def Module.coord (m : Module) (d : Nat) : Nat :=
  match d with
  | 0 => m.fld Fld.VIA_DISC_STATUS_X
  | 1 => m.fld Fld.VIA_DISC_STATUS_Y
  | _ => m.fld Fld.VIA_DISC_STATUS_Z

/-- The coordinate of a module number: 0 X, 1 Y, 2 Z (R309). -/
def numCoord (n d : Nat) : Nat :=
  match d with
  | 0 => bitsAt n 0 4
  | 1 => bitsAt n 4 4
  | _ => bitsAt n 8 5

/-- The physical module that acts at a job position of a tenancy (R441). -/
def Module.aliasTo (m : Module) (ten dst : Nat) : Nat :=
  (((List.range 8).find? (fun i => m.flag Fld.CKP_TEN_ALIAS_VALID ten i && m.fld Fld.CKP_TEN_ALIAS_FROM ten i == dst)).map
    (fun i => m.fld Fld.CKP_TEN_ALIAS_TO ten i)).getD dst

/-- The job position at which this module acts for a tenancy: its own number, or the FROM of an alias that names it (R441). -/
def Module.positionOf (m : Module) (ten : Nat) : Nat :=
  let own := m.fld Fld.VIA_DISC_STATUS_MODULE
  (((List.range 8).find? (fun i => m.flag Fld.CKP_TEN_ALIAS_VALID ten i && m.fld Fld.CKP_TEN_ALIAS_TO ten i == own)).map
    (fun i => m.fld Fld.CKP_TEN_ALIAS_FROM ten i)).getD own

/-- A coordinate of that position. -/
def Module.coordOf (m : Module) (ten d : Nat) : Nat :=
  if m.positionOf ten = m.fld Fld.VIA_DISC_STATUS_MODULE then m.coord d else numCoord (m.positionOf ten) d

/-- LO of a dimension in a group value. -/
def boxLo (g d : Nat) : Nat :=
  match d with
  | 0 => bitsAt g 0 4
  | 1 => bitsAt g 8 4
  | _ => bitsAt g 16 5

/-- HI of a dimension in a group value. -/
def boxHi (g d : Nat) : Nat :=
  match d with
  | 0 => bitsAt g 4 4
  | 1 => bitsAt g 12 4
  | _ => bitsAt g 21 5

/-- Extent of a box in a dimension, whose range may wrap. -/
def Module.boxExt (m : Module) (g d : Nat) : Nat := (boxHi g d + m.dim d - boxLo g d) % m.dim d + 1

/-- Position of a coordinate on its line of the box. -/
def Module.linePosOf (m : Module) (g d c : Nat) : Nat := (c + m.dim d - boxLo g d) % m.dim d

/-- Position of this module on its line of the box. [log 55 DEDUCED] -/
def Module.linePos (m : Module) (ten g d : Nat) : Nat := m.linePosOf g d (m.coordOf ten d)

/-- A group value names a box that contains the module and fits the dimensions (R312). [log 56 DEDUCED] -/
def Module.groupOk (m : Module) (ten g : Nat) : Bool :=
  g == 0 || (bitsAt g 31 1 == 1 && bitsAt g 26 5 == 0 && [0, 1, 2].all (fun d =>
    decide (boxLo g d < m.dim d) && decide (boxHi g d < m.dim d) && decide (m.linePos ten g d < m.boxExt g d)))

/-! ## Jobs (R306, R308) -/

/-- The job of a tenancy, where its registration is valid and agrees with its complement. -/
def Module.jobOf (m : Module) (ten : Nat) : Option Nat :=
  if m.flag Fld.VIA_JOB_VALID ten && pairOk (m.reg .VIA_JOB ten) then some (m.fld Fld.VIA_JOB_JOB_ID ten) else none

/-- The tenancy registered to a job. -/
def Module.tenOfJob (m : Module) (job : Nat) : Option Ten :=
  (List.finRange 101).find? (fun t => t != house && m.jobOf t.val == some job)

/-! ## Ports -/

/-- A port carries packets: UP or HALF and not miswired (R297, R310). -/
def Module.portUp (m : Module) (p : Nat) : Bool :=
  (m.fld Fld.VIA_PORT_STATUS_STATE p == 2 || m.fld Fld.VIA_PORT_STATUS_STATE p == 3)
    && !m.flag Fld.VIA_PORT_PEER_MISWIRE p

/-- The port of a dimension in the + or the − direction. -/
def dirPort (d : Nat) (plus : Bool) : Nat := 2 * d + (if plus then 0 else 1)

/-! ## Routing (R303, R304) -/

/-- The next hop towards a module in dimension order: dimension, and whether in the + direction (R303). -/
def Module.hopTo (m : Module) (dst : Nat) : Option (Nat × Bool) :=
  ([0, 1, 2].map (fun d => (d, (numCoord dst d + m.dim d - m.coord d % m.dim d) % m.dim d))).find? (fun x => x.2 != 0)
    |>.map (fun x => (x.1, decide (2 * x.2 ≤ m.dim x.1)))

/-- The hop crosses the wrap link of its dimension. [log 85 DEDUCED] -/
def Module.wraps (m : Module) (d : Nat) (plus : Bool) : Bool :=
  if plus then m.coord d + 1 == m.dim d else m.coord d == 0

/-- A port can carry a packet: up, its dimension in use, and no conflict for a tenancy's packet (R304, R310). -/
def Module.usable (m : Module) (p : Nat) (houseKind : Bool) : Bool :=
  m.portUp p && m.dim (p / 2) != 1 && (houseKind || !(m.port p).conflict)

/-- The port that R303 or R304 gives towards a module, and whether it is a detour. [log 90 DEDUCED] -/
def Module.routePort (m : Module) (dst : Nat) (houseKind : Bool) : Option (Nat × Bool) :=
  match m.hopTo dst with
  | none => none
  | some (d, plus) =>
    let p := dirPort d plus
    if m.usable p houseKind then some (p, false)
    else if m.flag Fld.VIA_ROUTE_CTL_DETOUR_EN then
      (([d + 1, d + 2, d + 3].map (fun e => dirPort (e % 3) true)).find? (fun q => m.usable q houseKind)).map (fun q => (q, true))
    else none

/-- The port of a packet. -/
def Module.choosePort (m : Module) (k : Packet) : Option (Nat × Bool) := m.routePort k.dst.toNat (k.kind == 0)

/-! ## Messages (R314) -/

/-- The 32 bytes of a sync-plane message. -/
def syncBytes (job op stage group name phase origin : Nat) (value : Word64) : List Byte :=
  let b := leBytes 3 job ++ [byteOf (op + 16 * stage)] ++ leBytes 4 group ++ leBytes 4 name ++ leBytes 2 phase
    ++ leBytes 2 origin ++ leBytes 8 value.toNat ++ List.replicate 6 0
  b ++ leBytes 2 (crc16 b)

/-- The position that a hop of a tenancy's line reaches through a port. -/
def Module.nextOnLine (m : Module) (ten p : Nat) : Nat :=
  let d := p / 2
  let c := fun (k : Nat) =>
    if k = d then (m.coordOf ten k + (if p % 2 = 0 then 1 else m.dim k - 1)) % m.dim k else m.coordOf ten k
  c 2 * 256 + c 1 * 16 + c 0

/-- A hop of a tenancy's line that reaches, or leaves, a position another module acts at: it is tunnelled (R441). -/
def Module.aliasedHop (m : Module) (ten p : Nat) : Bool :=
  let next := m.nextOnLine ten p
  m.positionOf ten != m.fld Fld.VIA_DISC_STATUS_MODULE || m.aliasTo ten next != next

/-- Send a message in a TUNNEL flit on VC 5: it takes a SEQ and is replayed as DATA flits are (R294, R296, R314). -/
def Module.sendTunnel (m : Module) (ten p : Nat) (msg : List Byte) : Module :=
  (m.raise Kind.SYN_TUNNEL ten p).sendTx p ⟨none, 5, 0, [(0, msg)], 0, false⟩

/-- Hold a message back until the port carries it. -/
def Module.holdSync (m : Module) (ten p : Nat) (msg : List Byte) : Module :=
  m.setPort p { m.port p with syncHeld := (m.port p).syncHeld ++ [(ten, msg)] }

/-- A message cannot go: the group is cut, and the message waits for the path (R315). -/
def Module.cutSync (m : Module) (ten p : Nat) (msg : List Byte) : Module :=
  (m.holdSync ten p msg).raise Kind.SYN_GROUP_CUT ten p

/-- Send a message through a port: on the sync lanes, or by tunnel where the hop has none, runs VLP 2.2 or is aliased; an
aliased hop's tunnel takes the packet route to the module that acts there. A port that carries neither cuts the group
(R314, R315, R441). During a retrain and under HOLD the message waits (R317). [log 55 DEDUCED] -/
def Module.sendSync (m : Module) (ten p : Nat) (msg : List Byte) : Module :=
  if m.aliasedHop ten p then
    match m.routePort (m.aliasTo ten (m.nextOnLine ten p)) false with
    | some (q, _) => if m.flag Fld.SYN_CTL_TUNNEL_EN then m.sendTunnel ten q msg else m.cutSync ten p msg
    | none => m.cutSync ten p msg
  else if [portState.training, portState.held].contains (m.portStateOf p) then m.holdSync ten p msg
  else if !m.portUp p then m.cutSync ten p msg
  else if m.fld Fld.VIA_PORT_STATUS_VLP p == 0x30 && m.fld Fld.VIA_PORT_STATUS_SYNC_LANES p != 0 then m.send (.sync p msg)
  else if m.flag Fld.SYN_CTL_TUNNEL_EN then m.sendTunnel ten p msg
  else m.cutSync ten p msg

/-- A message that reaches this module travels in the + direction of its line, as its origin's position tells: the shorter
way round a ring. -/
def Module.travelsUp (m : Module) (ten g d origin : Nat) : Bool :=
  let n := m.boxExt g d
  let x := m.linePos ten g d
  if n = m.dim d then decide ((x + n - origin) % n ≤ n / 2) else decide (origin < x)

/-- A message from a position goes on in a direction: to the end of a segment; round a whole ring until the two
directions meet (R313). -/
def Module.goesOn (m : Module) (ten g d origin : Nat) (plus : Bool) : Bool :=
  let n := m.boxExt g d
  let x := m.linePos ten g d
  if n = m.dim d then
    if plus then decide ((x + n - origin) % n < n / 2) else decide ((origin + n - x) % n < (n - 1) / 2)
  else if plus then decide (x + 1 < n)
  else decide (0 < x)

/-! ## Group operations (R313) -/

/-- The first dimension from `k` on whose extent is above 1; 3 when there is none. -/
def Module.nextDim (m : Module) (g k : Nat) : Nat :=
  ([0, 1, 2].find? (fun d => decide (k ≤ d) && decide (1 < m.boxExt g d))).getD 3

/-- Two operations are one: same tenancy, box, kind, name and phase. -/
def GroupOp.same (a b : GroupOp) : Bool :=
  a.ten == b.ten && a.group == b.group && a.op == b.op && a.name == b.name && a.phase == b.phase

/-- Key of a line value. -/
def gotKey (d pos : Nat) : Nat := 64 * d + pos

/-- Join two values: nothing to join for ARRIVE, the larger for MAX64, the union for OR64. -/
def joinValue (op : Nat) (a b : Word64) : Word64 :=
  match op with
  | 2 => if a.toNat < b.toNat then b else a
  | 3 => a ||| b
  | _ => 0

/-- Send this member's value both ways along its line of the stage it enters; a tenancy without a registration reaches no
member (R307, R315). -/
def Module.sendStage (m : Module) (o : GroupOp) : Module :=
  if 3 ≤ o.stage then m
  else
    match m.jobOf o.ten.val with
    | none => m.raise Kind.SYN_GROUP_CUT o.ten.val 0
    | some job =>
      let msg := syncBytes job o.op o.stage o.group o.name o.phase (m.linePos o.ten.val o.group o.stage) o.value
      [true, false].foldl (fun m plus =>
        if m.goesOn o.ten.val o.group o.stage (m.linePos o.ten.val o.group o.stage) plus then
          m.sendSync o.ten.val (dirPort o.stage plus) msg
        else m) m

/-- The operation with this member's value on its line. -/
def Module.enterStage (m : Module) (o : GroupOp) (k : Nat) (v : Word64) : GroupOp :=
  let d := m.nextDim o.group k
  { o with stage := d, value := v
           got := if d < 3 then Map.insert o.got (gotKey d (m.linePos o.ten.val o.group d)) v else o.got }

/-- Replace the operation, or list it. -/
def Module.putOp (m : Module) (o : GroupOp) : Module :=
  if m.groupOps.any o.same then { m with groupOps := m.groupOps.map (fun x => if o.same x then o else x) }
  else { m with groupOps := m.groupOps ++ [o] }

/-- Keep SYN_TEN_PENDING in line. -/
def Module.countOps (m : Module) (t : Ten) : Module :=
  m.setFld Fld.SYN_TEN_PENDING_OPS t.val 0 (m.groupOps.filter (fun o => o.ten == t && o.own.isSome)).length

/-- This member holds every value of its line of the stage. -/
def Module.stageFull (m : Module) (o : GroupOp) : Bool :=
  (List.range (m.boxExt o.group o.stage)).all (fun p => (Map.get? o.got (gotKey o.stage p)).isSome)

/-- The combination of the line. -/
def Module.stageValue (m : Module) (o : GroupOp) : Word64 :=
  (List.range (m.boxExt o.group o.stage)).foldl (fun v p =>
    joinValue o.op v (Map.get 0 o.got (gotKey o.stage p))) o.value

/-- Pass every stage whose line is complete; the operation is done at stage 3. -/
def Module.advanceOp (m : Module) (o : GroupOp) : Nat → GroupOp × Module
  | 0 => (o, m)
  | n + 1 =>
    if o.own.isNone || 3 ≤ o.stage || !m.stageFull o then (o, m)
    else
      let o := m.enterStage o (o.stage + 1) (m.stageValue o)
      (m.sendStage o).advanceOp o n

/-- List an operation with every stage passed that its values allow. -/
def Module.pushOp (m : Module) (o : GroupOp) : Module :=
  let (o, m) := m.advanceOp o 4
  m.putOp o

/-- Contribute to a group operation: values that arrived early are kept. A second contribution changes nothing. -/
def Module.startGroup (m : Module) (t : Ten) (group op name phase : Nat) (v : Word64) : Module :=
  let fresh : GroupOp := ⟨t, group, op, name, phase, none, 0, 0, []⟩
  let o := (m.groupOps.find? fresh.same).getD fresh
  if o.own.isSome then m
  else
    let o := m.enterStage { o with own := some v } 0 v
    ((m.sendStage o).pushOp o).countOps t

end Sys2Proof.Machine
end

