-- ==== Sys2Proof/Machine/WeightOps.lean ====
section
/-! DEFINITION. Machine/WeightOps.lean: the weight record (R159 to R168): versions, berths, the streaming window, staging
with its errors (R174, R181), the swap front (R175), and the answers of VERS (R163). -/

namespace Sys2Proof.Machine

/-! ## The record (R162) -/

def Module.wrec (m : Module) (ten : Nat) : Option WRecord := Map.get? m.weights ten

/-- Keep WGT_TEN_VERSION, WGT_TEN_FRONT_STEP and WGT_TEN_STATUS in line with a record. -/
def Module.mirrorWeights (m : Module) (ten : Nat) : Module :=
  match m.wrec ten with
  | none => (m.setReg .WGT_TEN_VERSION ten 0 0).setReg .WGT_TEN_STATUS ten 0 0
  | some w =>
    let ver := fun (s : Option WSwap) => (s.map (fun x => x.version.toNat)).getD 0
    let front := w.travel.bind (fun x => x.front)
    let v := (if w.queued.isSome then 2 else if w.travel.isSome then 1 else 0) * 2 ^ 50
      + (if front.isSome then 1 else 0) * 2 ^ 49 + 2 ^ 48 + ver w.queued * 2 ^ 32 + ver w.travel * 2 ^ 16
      + w.active.toNat
    let m := m.setReg .WGT_TEN_VERSION ten 0 (BitVec.ofNat 64 v)
    let m := match front with
      | some s => m.setReg .WGT_TEN_FRONT_STEP ten 0 s
      | none => m
    m.setReg .WGT_TEN_STATUS ten 0 (BitVec.ofNat 64 ((w.count - w.berths.length) * 2 ^ 16 + w.layers.length))

/-- Store a record. -/
def Module.setWrec (m : Module) (ten : Nat) (w : WRecord) : Module :=
  ({ m with weights := Map.insert m.weights ten w }).mirrorWeights ten

/-- Remove a record. -/
def Module.dropWrec (m : Module) (ten : Nat) : Module :=
  ({ m with weights := Map.erase m.weights ten }).mirrorWeights ten

/-- Version b is newer than version a (R159). -/
def newer (a b : BitVec 16) : Bool := let d := (b - a).toNat; decide (1 ≤ d) && decide (d ≤ 32767)

/-- version(n) (R162). -/
def WRecord.version (w : WRecord) (n : Word64) : BitVec 16 :=
  match w.travel with
  | some s =>
    match s.front with
    | some f => if f ≤ n then s.version else w.active
    | none => w.active
  | none => w.active

/-- version(n) of a step that may lie before fronts that have passed. -/
def WRecord.versionAt (w : WRecord) (n : Word64) : BitVec 16 :=
  match w.past.find? (fun p => decide (n < p.1)) with
  | some p => p.2
  | none => w.version n

/-- The source image of a version (R177). -/
def WRecord.sourceOf (w : WRecord) (v : BitVec 16) : Nat :=
  match w.travel, w.queued with
  | some s, some q => if s.version = v then s.source else if q.version = v then q.source else w.source
  | some s, none => if s.version = v then s.source else w.source
  | _, _ => w.source

/-- Resident layers, ascending. -/
def WRecord.residents (w : WRecord) : List Nat :=
  (List.range w.layers.length).filter (fun l => match w.layers[l]? with | some x => !x.streamed | none => false)

/-- The layer is streamed. -/
def WRecord.isStreamed (w : WRecord) (l : Nat) : Bool := (w.layers[l]?.map (fun x => x.streamed)).getD false

/-- The berth of a layer at a version. -/
def WRecord.berthOf (w : WRecord) (l : Nat) (v : BitVec 16) : Option Nat :=
  (w.berths.find? (fun p => p.2.layer == l && p.2.version == v)).map (·.1)

/-- The layer at the version is in a berth, ready to read. -/
def WRecord.isReady (w : WRecord) (l : Nat) (v : BitVec 16) : Bool :=
  w.berths.any (fun p => p.2.layer == l && p.2.version == v && p.2.ready)

/-- The layer has no readable copy at the version (R181). -/
def WRecord.isBroken (w : WRecord) (l : Nat) (v : BitVec 16) : Bool := w.broken.contains (l, v)

/-- Free berths. -/
def WRecord.freeCount (w : WRecord) : Nat := w.count - w.berths.length

/-- The berth is free. -/
def WRecord.isFree (w : WRecord) (b : Nat) : Bool := b < w.count && (Map.get? w.berths b).isNone

/-- A free berth; which one is open (R174: "a free berth"). [log 47 DESIGN CHOICE] -/
def Module.pickBerth (m : Module) (w : WRecord) : Option Nat :=
  pick w.isFree (Config.freeNat m.freeIx % max 1 w.count) 1 w.count 0

/-- Tenancy Hold address of a berth (R161). -/
def WRecord.berthAddr (w : WRecord) (b : Nat) : Nat := w.base + b * w.size

/-! ## The generation route that reads the weights (R164, R175) -/

/-- A stage that carries layers. -/
def Stage.carriesLayers (s : Stage) : Bool := s.layerFirst != 0xFFFF && s.layerCount != 0

/-- A stage that carries a layer. -/
def Stage.carriesLayer (s : Stage) (l : Nat) : Bool :=
  s.carriesLayers && decide (s.layerFirst ≤ l) && decide (l < s.layerFirst + s.layerCount)

/-- The route is running, or its stop has not taken effect. -/
def Route.runs (r : Route) : Bool := r.state == .running || r.state == .stopping

/-- A generation route of the tenancy whose stages carry layers. -/
def Route.readsWeights (r : Route) (ten : Nat) : Bool := r.ten.val == ten && !r.learning && r.stages.any Stage.carriesLayers

/-- The generation routes of the tenancy that run stages with layers. -/
def Module.runningGens (m : Module) (ten : Nat) : List (Nat × Route) :=
  m.routes.filter (fun p => p.2.readsWeights ten && p.2.runs)

/-- The generation route of the tenancy whose stages carry layers: one that runs; with none, one that is STOPPED. -/
def Module.genRoute (m : Module) (ten : Nat) : Option (Nat × Route) :=
  (m.runningGens ten).head?.orElse (fun _ => m.routes.find? (fun p => p.2.readsWeights ten && p.2.state == .stopped))

/-- A generation route of the tenancy runs. -/
def Module.generating (m : Module) (ten : Nat) : Bool :=
  m.routes.any (fun p => p.2.ten.val == ten && !p.2.learning && p.2.runs)

/-! ## The settings (R183) -/

/-- The settings as the registers hold them; a DEPTH of 0 acts as 1. -/
def Module.wgtRegs (m : Module) (ten : Nat) : WSettings where
  lean := m.flag Fld.WGT_MISS_POLICY_POLICY ten
  deadline := m.fld Fld.WGT_LAYER_DEADLINE_CYCLES ten
  lead := m.fld Fld.WGT_TEN_WINDOW_LEAD ten
  prestage := m.fld Fld.WGT_TEN_WINDOW_PRESTAGE ten
  depth := max 1 (m.fld Fld.WGT_TEN_WINDOW_DEPTH ten)

/-- The settings in force: while a generation route runs, those of its last step boundary. [log 179 DEDUCED] -/
def Module.wgtNow (m : Module) (ten : Nat) (w : WRecord) : WSettings :=
  if m.generating ten then w.settings else m.wgtRegs ten

/-- A step boundary of the tenancy's generation route, or its start: the settings of the registers take effect. -/
def Module.takeSettings (m : Module) (ten : Nat) : Module :=
  match m.wrec ten with
  | none => m
  | some w => m.setWrec ten { w with settings := m.wgtRegs ten }

/-- A stage as the record names it. -/
def stageKey (n i : Nat) : Nat := 64 * n + i

/-- Numbers of the stages that carry layers. -/
def Route.carriers (r : Route) : List Nat :=
  (List.range r.stages.length).filter (fun i => (r.stages[i]?.map Stage.carriesLayers).getD false)

/-- The stage that carries a layer. -/
def Route.stageOfLayer (r : Route) (l : Nat) : Option Nat :=
  (List.range r.stages.length).find? (fun i => (r.stages[i]?.map (fun s => s.carriesLayer l)).getD false)

/-- The head stage: the lowest LAYER_FIRST (R175). [log 50 DEDUCED] -/
def Route.headStage (r : Route) : Option Nat :=
  r.carriers.foldl (fun a i =>
    match a with
    | none => some i
    | some j =>
      if ((r.stages[i]?.map (fun s => s.layerFirst)).getD 0) < ((r.stages[j]?.map (fun s => s.layerFirst)).getD 0) then some i
      else a) none

/-- Every cluster of a stage has committed the step before `s`. -/
def Module.stagePast (m : Module) (n i : Nat) (s : Word64) : Bool :=
  (m.stageClusters n i).all (fun c => decide (s ≤ (m.cl c).step))

/-- Every cluster of a stage has committed step `s`. -/
def Module.stageDone (m : Module) (n i : Nat) (s : Word64) : Bool :=
  (m.stageClusters n i).all (fun c => decide (s < (m.cl c).step))

/-! ## The streaming window (R165) -/

/-- Streamed layers of a stage, ascending. -/
def WRecord.streamedOf (w : WRecord) (s : Stage) : List Nat :=
  (List.range s.layerCount).map (· + s.layerFirst) |>.filter w.isStreamed

/-- Where a cluster stands: its step, and the layer its tiles last asked for in it. -/
def Module.weightPos (m : Module) (w : WRecord) (c : Nat) : Word64 × Option Nat :=
  ((m.cl c).step, if m.released c then (Map.get [] w.asked c).head? else none)

/-- The earlier of two places. -/
def posLt (a b : Word64 × Option Nat) : Bool :=
  decide (a.1 < b.1) || (a.1 == b.1 && (match a.2, b.2 with
    | none, some _ => true
    | some x, some y => decide (x < y)
    | _, none => false))

/-- The place of the cluster of a stage that is furthest behind. -/
def Module.stagePos (m : Module) (w : WRecord) (n i : Nat) : Option (Word64 × Option Nat) :=
  (m.stageClusters n i).foldl (fun a c =>
    let p := m.weightPos w c
    match a with
    | none => some p
    | some q => if posLt p q then some p else a) none

/-- The next uses of streamed layers by a stage, in the order in which it runs them, from its current layer on: at most
DEPTH of them. [log 48 DEDUCED] -/
def Module.window (m : Module) (ten : Nat) (w : WRecord) (n i : Nat) (s : Stage) : List (Nat × BitVec 16) :=
  match m.stagePos w n i with
  | none => []
  | some (step, cur) =>
    let ls := w.streamedOf s
    let first := ls.filter (fun l => match cur with | none => true | some x => decide (x ≤ l))
    let uses := first.map (fun l => (l, w.version step))
      ++ (List.range (m.wgtNow ten w).depth).flatMap (fun k => ls.map (fun l => (l, w.version (step + 1 + BitVec.ofNat 64 k))))
    uses.take (m.wgtNow ten w).depth

/-- The routes for which the streamer keeps windows: those that run; with none, the STOPPED one. [log 180 DESIGN CHOICE] -/
def Module.streamRoutes (m : Module) (ten : Nat) : List (Nat × Route) :=
  let rs := m.runningGens ten
  if rs.isEmpty then (m.genRoute ten).toList else rs

/-- The windows of every stage of the tenancy's generation routes. -/
def Module.windows (m : Module) (ten : Nat) (w : WRecord) : List (List (Nat × BitVec 16)) :=
  (m.streamRoutes ten).flatMap (fun p => p.2.carriers.map (fun i =>
    match p.2.stages[i]? with
    | some s => m.window ten w p.1 i s
    | none => []))

/-- The uses in the windows that no berth serves and that are not BROKEN: the streamer fetches each of them. -/
def Module.fetches (m : Module) (ten : Nat) (w : WRecord) : List (Nat × BitVec 16) :=
  ((m.windows ten w).flatten.filter (fun p => (w.berthOf p.1 p.2).isNone && !w.isBroken p.1 p.2)).eraseDups

/-! ## Freeing berths (R161, R165, R174) -/

/-- The swap has staged the layer. -/
def WSwap.hasStaged (x : Option WSwap) (l : Nat) : Bool := (x.map (fun s => s.staged.contains l)).getD false

/-- A resident layer's berth is needed no more: its version is no longer that of the record or of a swap; or the version is
replaced by that of a swap, and every running stage that carries the layer has committed step S − 1; or no running stage carries
it and the replacing slice is staged (R174). -/
def Module.berthOver (m : Module) (ten : Nat) (w : WRecord) (b : Berth) : Bool :=
  let of := fun (x : Option WSwap) => (x.map (fun s => s.version == b.version)).getD false
  let stages := (m.runningGens ten).filterMap (fun p => (p.2.stageOfLayer b.layer).map (fun i => (p.1, i)))
  if b.version == w.active then
    if stages.isEmpty then WSwap.hasStaged w.travel b.layer
    else
      match w.travel.bind (fun s => s.front) with
      | none => false
      | some s => stages.all (fun p => m.stagePast p.1 p.2 s)
  else if of w.travel then stages.isEmpty && WSwap.hasStaged w.queued b.layer
  else !of w.queued

/-- Free every berth that is needed no more. -/
def Module.trimBerths (m : Module) (ten : Nat) : Module :=
  match m.wrec ten with
  | none => m
  | some w =>
    let ws := m.windows ten w
    let keep := fun (p : Nat × Berth) =>
      if w.isStreamed p.2.layer then ws.any (fun u => u.contains (p.2.layer, p.2.version)) else !m.berthOver ten w p.2
    m.setWrec ten { w with berths := w.berths.filter keep }

/-! ## Staging (R174, R181) -/

/-- The command whose source image holds a version. -/
def WRecord.cmdOf (w : WRecord) (v : BitVec 16) : Option Nat :=
  ((w.travel.toList ++ w.queued.toList).find? (fun x => x.version == v)).map (·.cmd)

/-- The bus errors that the next read of a command's source meets. -/
def Module.srcErrs (m : Module) (src : Option Nat) : Nat := ((src.bind m.cmd).map (·.srcErrs)).getD 0

/-- They have been met. -/
def Module.clearSrcErrs (m : Module) (src : Option Nat) : Module :=
  match src, src.bind m.cmd with
  | some id, some c => m.setCmd id { c with srcErrs := 0 }
  | _, _ => m

/-- Read a range of the source of a command; an unreadable range is read again at once (R181). -/
def Module.readTwice (m : Module) (src : Option Nat) (ten va n : Nat) : Except Fail (List Byte) × Module :=
  let bus := m.srcErrs src
  let m := m.clearSrcErrs src
  let again := fun (m : Module) =>
    match m.readVA .wgt ten va n with
    | (.ok bs, m) => (.ok bs, m)
    | (.error e, m) => (.error e, m.raise Kind.WGT_SOURCE_UE ten va)
  if 2 ≤ bus then (.error ⟨st.busError, 0, va⟩, m.raise Kind.WGT_SOURCE_UE ten va)
  else if bus = 1 then again m
  else
    match m.readVA .wgt ten va n with
    | (.ok bs, m) => (.ok bs, m)
    | (.error _, m) => again m

/-- Copy a layer's slice from its version's source into a berth; answers whether it could be read and stored. -/
def Module.copySlice (m : Module) (src : Option Nat) (ten : Nat) (w : WRecord) (l : Nat) (v : BitVec 16) (b : Nat) : Bool × Module :=
  match w.layers[l]? with
  | none => (false, m)
  | some x =>
    match m.readTwice src ten (w.sourceOf v + x.offset) x.bytes with
    | (.error _, m) => (false, m)
    | (.ok bs, m) =>
      match m.writeHold ten (w.berthAddr b) bs with
      | (.error _, m) => (false, m)
      | (.ok _, m) => (true, m.addFld Fld.WGT_STAGED_BYTES 0 0 x.bytes)

/-- Stage a layer at a version into its own berth, or into a free one; a layer that cannot be read becomes BROKEN. Answers
none where no berth is free. -/
def Module.stageLayer (m : Module) (ten : Nat) (l : Nat) (v : BitVec 16) : Option Module :=
  match m.wrec ten with
  | none => none
  | some w =>
    let own := w.berthOf l v
    match own.orElse (fun _ => m.pickBerth w) with
    | none => none
    | some b =>
      let (ok, m) := (m.when own.isNone Module.drawn).copySlice (w.cmdOf v) ten w l v b
      some (m.setWrec ten (if ok then { w with berths := Map.insert w.berths b ⟨l, v, true⟩ }
        else { w with berths := Map.erase w.berths b, broken := w.broken ++ [(l, v)] }))

/-! ## Errors in a berth or lean copy (R181) -/

/-- The range touches a region. -/
def touches (a n lo len : Nat) : Bool := decide (a < lo + len) && decide (lo < a + n)

/-- The Hold address lies in a berth or lean copy of the tenancy's record. -/
def WRecord.covers (w : WRecord) (h : Nat) : Bool :=
  touches h 1 w.base (w.count * w.size)
    || w.layers.any (fun x => match x.leanAddr with | some la => touches h 1 la x.leanBytes | none => false)

/-- A tile read uncorrectable errors at these Hold addresses in a step: its waybills end with DATA_ERROR, the layer of a berth
that holds one of them is staged again, a lean copy that does is invalid (R181). -/
def Module.berthError (m : Module) (ten : Ten) (step : Word64) (bad : List Nat) : Module :=
  match m.wrec ten.val with
  | none => m
  | some w =>
    let hurt := fun (lo n : Nat) => bad.any (fun h => touches h 1 lo n)
    let hit := w.berths.filter (fun p => hurt (w.berthAddr p.1) w.size)
    let lost := (List.range w.layers.length).filter (fun l =>
      match w.layers[l]? with
      | some x => (match x.leanAddr with | some la => hurt la x.leanBytes | none => false)
      | none => false)
    let w := { w with
      berths := w.berths.map (fun p => if hit.contains p then (p.1, { p.2 with ready := false }) else p)
      restage := w.restage ++ (hit.filter (fun p => !w.isStreamed p.2.layer)).map (fun p => (p.2.layer, p.2.version))
      lean := w.lean.filter (fun p => !lost.contains p.1)
      badSteps := if w.badSteps.contains step then w.badSteps else w.badSteps ++ [step] }
    (m.setWrec ten.val w).raise Kind.WGT_HOLD_UE ten.val (bad.head?.getD 0)

/-! ## The swap front (R175, R178, R180) -/

/-- Change the travelling swap. -/
def Module.setTravel (m : Module) (ten : Nat) (f : WSwap → WSwap) : Module :=
  match m.wrec ten with
  | none => m
  | some w => m.setWrec ten { w with travel := w.travel.map f }

/-- The front step S is fixed; stages already past S − 1 free their berths (R174, R175). -/
def Module.fixFront (m : Module) (ten : Nat) (s : Word64) : Module :=
  (m.setTravel ten (fun x => { x with front := some s })).trimBerths ten

/-- The first PRESTAGE resident layers of the travelling swap are staged, or fewer layers are resident (R175). [log 49 DEDUCED] -/
def Module.prestaged (m : Module) (ten : Nat) (w : WRecord) (s : WSwap) : Bool :=
  let p := (m.wgtNow ten w).prestage
  decide (w.residents.length < p) || (w.residents.take p).all (fun l => s.staged.contains l)

/-- The first step that no head cluster has entered (R175). -/
def Route.nextHead (r : Route) (i : Nat) : Word64 :=
  match Map.get? r.entered i with
  | some n => n + 1
  | none => r.firstStep

/-- The marker that the release of a cluster into a step latches (R175, R180): at S in the head stage; after a kill or a
resumption, in every layer-carrying stage that has not committed S. [log 51 DEDUCED] -/
def Module.releaseMarker (m : Module) (n i : Nat) (step : Word64) : Option Marker :=
  match m.route n with
  | none => none
  | some r =>
    match m.wrec r.ten.val, r.stages[i]? with
    | some w, some sg =>
      match w.travel with
      | none => none
      | some x =>
        match x.front with
        | none => none
        | some s =>
          if !r.learning && sg.carriesLayers
              && ((r.headStage == some i && step == s) || (x.rerun && decide (s ≤ step) && !m.stageDone n i s)) then
            some ⟨x.version, s, BitVec.ofNat 16 sg.layerFirst⟩
          else none
    | _, _ => none

/-- The head stage of a module that has sent its proposal P is not released beyond P until S is known (R178). -/
def Module.proposalHolds (m : Module) (n i : Nat) (step : Word64) : Bool :=
  match m.route n with
  | none => false
  | some r =>
    match (m.wrec r.ten.val).bind (fun w => w.travel) with
    | none => false
    | some x =>
      match x.proposal, x.front with
      | some p, none => !r.learning && r.headStage == some i && decide (p < step)
      | _, _ => false

/-- A swap front has entered the pipeline of a route and has not passed a stage (R152). -/
def Module.frontInside (m : Module) (n i : Nat) : Bool :=
  match m.route n with
  | none => false
  | some r =>
    match ((m.wrec r.ten.val).bind (fun w => w.travel)).bind (fun x => x.front), r.headStage with
    | some s, some h =>
      !r.learning && (match Map.get? r.entered h with | some e => decide (s ≤ e) | none => false) && !m.stageDone n i s
    | _, _ => false

/-- What a kill or a resumption of a route does to the record: the clusters ask again, and later releases latch the marker
themselves (R180). -/
def Module.weightRerun (m : Module) (n : Nat) : Module :=
  match m.route n with
  | none => m
  | some r =>
    match m.wrec r.ten.val with
    | none => m
    | some w =>
      if r.learning then m
      else
        m.setWrec r.ten.val { w with
          asked := w.asked.filter (fun p => !(m.clustersOf n).contains p.1)
          answers := w.answers.filter (fun a => a.1 / 64 != n)
          travel := w.travel.map (fun x => { x with rerun := x.rerun || x.front.isSome }) }

/-- What a commit does to the record: berths that no step needs become free, and answers of finished steps are
forgotten (R165, R174). -/
def Module.weightCommit (m : Module) (n i : Nat) : Module :=
  match m.route n with
  | none => m
  | some r =>
    match m.wrec r.ten.val with
    | none => m
    | some w =>
      if r.learning then m
      else
        let open' := fun (a : Nat × Nat × Word64 × Word) => a.1 != stageKey n i || !m.stageDone n i a.2.2.1
        let openD := fun (a : Nat × Nat × Word64) => a.1 != stageKey n i || !m.stageDone n i a.2.2
        let w := { w with
          asked := w.asked.filter (fun p => m.released p.1)
          answers := w.answers.filter open'
          decided := w.decided.filter openD
          missed := w.missed.filter openD }
        ((m.setWrec r.ten.val w).takeSettings r.ten.val).trimBerths r.ten.val

/-- What the unloading of a generation route does to the record: answers and decisions of its steps, and the versions in force
before fronts that have passed, are forgotten (R162). -/
def Module.weightUnload (m : Module) (n : Nat) (r : Route) : Module :=
  match m.wrec r.ten.val with
  | none => m
  | some w =>
    if r.learning then m
    else
      let w := { w with
        answers := w.answers.filter (fun a => a.1 / 64 != n)
        decided := w.decided.filter (fun a => a.1 / 64 != n)
        missed := w.missed.filter (fun a => a.1 / 64 != n) }
      let w := if m.routes.any (fun p => p.2.ten == r.ten && !p.2.learning && p.2.state != .loaded) then w
        else { w with badSteps := [], leanSteps := [], past := [] }
      (m.setWrec r.ten.val w).trimBerths r.ten.val

/-! ## VERS with ROUTE (R119, R163) -/

/-- A VERS result. -/
def versWord (berth : Nat) (broken lean : Bool) (v : BitVec 16) : Word :=
  BitVec.ofNat 32 (berth * 2 ^ 20 + (if broken then 2 ^ 18 else 0) + (if lean then 2 ^ 17 else 0) + 2 ^ 16 + v.toNat)

/-- The result for a layer in a step of a stage; none while the toll waits. A layer beyond those of the record has no readable
copy. [log 52 DEDUCED] -/
def WRecord.versAnswer (w : WRecord) (key : Nat) (sg : Stage) (step : Word64) (l : Nat) : Option Word :=
  let v := w.version step
  if w.layers.length ≤ l then some (versWord 0xFFF true false v)
  else if !sg.carriesLayer l then some (versWord 0xFFF (w.isBroken l v) false v)
  else
    match w.answers.find? (fun a => a.1 == key && a.2.1 == l && a.2.2.1 == step) with
    | some a => some a.2.2.2
    | none =>
      if w.decided.contains (key, l, step) then some (versWord 0xFFF false true v)
      else if w.isReady l v then some (versWord ((w.berthOf l v).getD 0xFFF) false false v)
      else if w.isBroken l v then some (versWord 0xFFF true false v)
      else none

/-- A tile of a cluster asks for a layer in its step: the cluster's place moves, and a resident layer that is nowhere and
that no swap is staging is staged again (R165, R174). -/
def Module.askLayer (m : Module) (ten c key : Nat) (sg : Stage) (step : Word64) (l : Nat) : Module :=
  match m.wrec ten with
  | none => m
  | some w =>
    if !sg.carriesLayer l || w.layers.length ≤ l then m
    else
      let v := w.version step
      let old := Map.get [] w.asked c
      let staging := fun (s : Option WSwap) => (s.map (fun x => x.version == v && !x.staged.contains l)).getD false
      let lost := !w.isStreamed l && (w.berthOf l v).isNone && !w.isBroken l v && !staging w.travel && !staging w.queued
        && !w.restage.contains (l, v)
      let w := { w with
        asked := if old.head? = some l then w.asked else Map.insert w.asked c (l :: old)
        restage := if lost then w.restage ++ [(l, v)] else w.restage }
      let m := (m.setWrec ten w).trimBerths ten
      -- the answer given first in a step is the answer of every tile of the stage
      match m.wrec ten with
      | none => m
      | some w =>
        match w.versAnswer key sg step l with
        | none => m
        | some a =>
          if w.answers.any (fun x => x.1 == key && x.2.1 == l && x.2.2.1 == step) then m
          else m.setWrec ten { w with
            answers := w.answers ++ [(key, l, step, a)]
            badSteps := if a.getLsbD 18 && !w.badSteps.contains step then w.badSteps ++ [step] else w.badSteps }

end Sys2Proof.Machine
end

