-- ==== Sys2Proof/Machine/CaravanOps.lean ====
section
/-! DEFINITION. Machine/CaravanOps.lean: the operations over caravan rings: room and reservations, pins and RELEASE, the
writing of records and of the pointer block, and sequence-end records (R213 to R222, R225). -/

namespace Sys2Proof.Machine

def Module.caravan (m : Module) (k : Nat) : Option Caravan := Map.get? m.caravans k

/-- The caravan index of a ring of the tenancy that is enabled as a caravan ring (R214). -/
def Module.caravanOf (m : Module) (t : Ten) (g : Nat) : Option Nat :=
  if m.ringEnabled g && m.ringType g == ringType.caravan then
    let k := m.fld Fld.QUE_RING_INFO_CARAVAN g
    if m.flag Fld.CVN_RING_CFG_ENABLE k && m.fld Fld.CVN_RING_CFG_TENANCY k == t.val then some k else none
  else none

/-- N: the slots of a ring (R213). -/
def Caravan.slots (c : Caravan) : Nat := 2 ^ (c.sizeLog2 - 4)

/-- RELEASE of a ring. -/
def Module.released' (m : Module) (k : Nat) : Nat := m.fld Fld.CVN_RING_PTRS_RELEASE k

/-- The room of a ring in slots (R216). -/
def Module.cvnRoom (m : Module) (k : Nat) (c : Caravan) : Nat :=
  c.slots - diff32 c.write (m.released' k) - m.fld Fld.CVN_RING_STATE_RESERVED k

/-- The enabled caravan rings of a tenancy, by caravan index in ascending ring number. -/
def Module.caravansOf (m : Module) (t : Ten) : List (Nat × Caravan) :=
  let ks := m.caravans.filter (fun p =>
    m.flag Fld.CVN_RING_CFG_ENABLE p.1 && m.fld Fld.CVN_RING_CFG_TENANCY p.1 == t.val)
  ks.foldl (fun acc p =>
    let n := m.fld Fld.CVN_RING_CFG_RING p.1
    acc.takeWhile (fun q => decide (m.fld Fld.CVN_RING_CFG_RING q.1 < n)) ++ [p]
      ++ acc.dropWhile (fun q => decide (m.fld Fld.CVN_RING_CFG_RING q.1 < n))) []

/-- The caravan rings of a tenancy, those that R219 has disabled too. -/
def Module.caravansHeld (m : Module) (t : Ten) : List (Nat × Caravan) :=
  m.caravans.filter (fun p => m.fld Fld.CVN_RING_CFG_TENANCY p.1 == t.val)

/-- The fill f of a tenancy in permille (R216). -/
def Module.cvnFill (m : Module) (t : Ten) : Nat :=
  let cs := m.caravansOf t
  let used := (cs.map (fun p => diff32 p.2.write (m.released' p.1) + m.fld Fld.CVN_RING_STATE_RESERVED p.1)).sum
  1000 * used / max 1 (cs.map (fun p => p.2.slots)).sum

/-- Keep CVN_TEN_STATUS.FILL in line. -/
def Module.mirrorFill (m : Module) (t : Ten) : Module := m.setFld Fld.CVN_TEN_STATUS_FILL t.val 0 (m.cvnFill t)

/-- Every pinned slot of a ring (R217). -/
def Caravan.pinned (c : Caravan) : List Nat := c.pins.map (·.2) ++ c.seqs.filterMap (·.pin)

/-- Store a ring and bring PINS and RELEASE in line: on a LEARN_EN ring RELEASE is the lowest pinned slot, or WRITE (R217). -/
def Module.setCaravan (m : Module) (k : Nat) (c : Caravan) : Module :=
  let rel := m.released' k
  let far := c.pinned.foldl (fun a s => min a (diff32 s rel)) (diff32 c.write rel)
  let moved := c.learn && far != 0
  let m := if c.learn then
      (m.setFld Fld.CVN_RING_STATE_PINS k 0 c.pinned.length).setFld Fld.CVN_RING_PTRS_RELEASE k 0 (rel + far)
    else m
  { m with caravans := Map.insert m.caravans k { c with starved := c.starved && !moved } }

/-- Something waits for room on a ring (R218). [log 72 DEDUCED] -/
def Module.starve (m : Module) (k : Nat) : Module :=
  match m.caravan k with
  | none => m
  | some c => { m with caravans := Map.insert m.caravans k { c with starved := true } }

/-- Reserve, or return, slots of a ring (R197, R216). -/
def Module.cvnReserve (m : Module) (k n : Nat) : Module := m.addFld Fld.CVN_RING_STATE_RESERVED k 0 n
def Module.cvnReturn (m : Module) (k n : Nat) : Module := m.subFld Fld.CVN_RING_STATE_RESERVED k 0 n

/-- A live waybill names the ring. -/
def Waybill.names (w : Waybill) (ring : Nat) : Bool := fieldAt w.image 36 2 == ring

/-- A write to a ring faulted (R219): ENABLE clears, FAULT is set, WRITE_FAULT is raised, and every live waybill that names
the ring is to end with the status. -/
def Module.cvnFault (m : Module) (k status : Nat) : Module :=
  let t := m.fld Fld.CVN_RING_CFG_TENANCY k
  let g := m.fld Fld.CVN_RING_CFG_RING k
  let m := m.setFlag Fld.CVN_RING_CFG_ENABLE k 0 false
  let m := m.setFlag Fld.CVN_RING_STATE_FAULT k 0 true
  let m := { m with waybills := m.waybills.map (fun (p : Nat × Waybill) =>
    if p.2.ten.val == t && p.2.names g then (p.1, { p.2 with ringFault := some status }) else p) }
  (m.mirrorFill (Fin.ofNat 101 t)).raise Kind.CVN_WRITE_FAULT t k

/-- Write 16-byte slots from a slot index upward; each lies at BASE + 16·(s mod N) (R213). -/
def Module.writeSlots (m : Module) (ten : Nat) (c : Caravan) (s : Nat) : List (List Byte) → Except Fail Unit × Module
  | [] => (.ok (), m)
  | b :: bs =>
    match m.writeVA .cvn ten (c.base + 16 * (s % c.slots)) b with
    | (.error e, m) => (.error e, m)
    | (.ok _, m) => m.writeSlots ten c (s + 1) bs

/-- Append a record of one or two slots to an enabled ring; answers the slot where it starts. No record goes to a ring that
is disabled (R219). -/
def Module.cvnAppend (m : Module) (t : Ten) (k : Nat) (slots : List (List Byte)) : Option Nat × Module :=
  match m.caravan k with
  | none => (none, m)
  | some c =>
    if !m.flag Fld.CVN_RING_CFG_ENABLE k then (none, m)
    else
      match m.writeSlots t.val c c.write slots with
      | (.error e, m) => (none, m.cvnFault k e.status)
      | (.ok _, m) =>
        let m := { m with caravans := Map.insert m.caravans k { c with write := (c.write + slots.length) % 2 ^ 32 } }
        (some c.write, m.count 0x1201 t.val 1)

/-- Publish a ring: once its records are visible, the pointer block and CVN_RING_PTRS (R215). -/
def Module.cvnPublish (m : Module) (t : Ten) (k : Nat) : Module :=
  match m.caravan k with
  | none => m
  | some c =>
    if !m.flag Fld.CVN_RING_CFG_ENABLE k then m
    else
      let m := m.setCaravan k c
      let block := leBytes 4 c.write ++ leBytes 4 (m.released' k) ++ List.replicate 56 0
      match m.writeVA .cvn t.val (c.base + 2 ^ c.sizeLog2) block with
      | (.error e, m) => (m.cvnFault k e.status).mirrorFill t
      | (.ok _, m) => (m.setFld Fld.CVN_RING_PTRS_WRITE k 0 c.write).mirrorFill t

/-- A waybill's pin is created at the slot of its first token record on the ring (R217). -/
def Module.cvnPin (m : Module) (k id slot : Nat) : Module :=
  match m.caravan k with
  | none => m
  | some c =>
    if !c.learn || c.pins.any (fun p => p.1 == id) then m
    else m.setCaravan k { c with pins := c.pins ++ [(id, slot)] }

/-- A waybill's pin is removed: it pauses, or ends without a sequence-end record (R217). -/
def Module.cvnUnpin (m : Module) (k id : Nat) : Module :=
  match m.caravan k with
  | none => m
  | some c => m.setCaravan k { c with pins := c.pins.filter (fun p => p.1 != id) }

/-- A sequence leaves the module's records: consumed or released unconsumed (R217). -/
def Module.cvnRelease (m : Module) (k endSlot : Nat) : Module :=
  match m.caravan k with
  | none => m
  | some c => m.setCaravan k { c with seqs := c.seqs.filter (fun q => q.endSlot != endSlot) }

/-- Change the record of a sequence. -/
def Module.setSeq (m : Module) (k endSlot : Nat) (f : CSeq → CSeq) : Module :=
  match m.caravan k with
  | none => m
  | some c => { m with caravans := Map.insert m.caravans k { c with
      seqs := c.seqs.map (fun q => if q.endSlot == endSlot then f q else q) } }

/-- A sequence-end record is in the ring: the waybill's pin becomes the sequence's, or, on a LEARN_EN ring with a CAUSE
that is not STOP or LIMIT, the sequence is released at once and counted in ERROR_ENDS (R222, R225). -/
def Module.cvnEnded (m : Module) (t : Ten) (k : Nat) (q : CSeq) : Module :=
  match m.caravan k with
  | none => m
  | some c =>
    let pin := (c.pins.find? (fun p => p.1 == q.waybill)).map (·.2)
    let c := { c with pins := c.pins.filter (fun p => p.1 != q.waybill) }
    if c.learn && q.cause != 1 && q.cause != 2 then
      (m.setCaravan k c).addFld Fld.LRN_TEN_DROPS_ERROR_ENDS t.val 0
    else m.setCaravan k { c with seqs := c.seqs ++ [{ q with pin := if c.learn then pin else none }] }

/-- A sequence may be taken into a batch (R225): its record lies below WRITE, it is rewarded or needs no reward, it ended
by STOP or LIMIT, and no batch has it. -/
def CSeq.ready (q : CSeq) : Bool := q.status != 0 && (q.cause == 1 || q.cause == 2) && q.batch.isNone

/-- The ready sequences of a ring, ascending END_SLOT. -/
def Module.readySeqs (m : Module) (k : Nat) (c : Caravan) : List CSeq :=
  let rel := m.released' k
  (c.seqs.filter CSeq.ready).foldl (fun acc q =>
    acc.takeWhile (fun x => decide (diff32 x.endSlot rel < diff32 q.endSlot rel)) ++ [q]
      ++ acc.dropWhile (fun x => decide (diff32 x.endSlot rel < diff32 q.endSlot rel))) []

/-- Batches of a route are discarded: their sequences become ready again, and their pins stay (R238). -/
def Module.untakeSeqs (m : Module) (t : Ten) : Module :=
  (m.caravansHeld t).foldl (fun m p =>
    { m with caravans := Map.insert m.caravans p.1 { p.2 with seqs := p.2.seqs.map (fun q => { q with batch := none }) } }) m

end Sys2Proof.Machine
end

