-- ==== Sys2Proof/Machine/LinkOps.lean ====
section
/-! DEFINITION. Machine/LinkOps.lean: flits, the transmitters of the ports, routing, delivery and the filter by job
(R290 to R310). -/

namespace Sys2Proof.Machine

/-! ## Routing (R303, R304) -/

/-- A packet is discarded: no usable port, or its hop limit (R304). -/
def Module.losePacket (m : Module) (p : Nat) : Module :=
  (m.addFld Fld.VIA_LOST_COUNT 0 0).raise Kind.VIA_HOP_LIMIT 0 p

/-- The packet with the header of the hop through a port, and its VC: HOPS, WRAPPED and DETOUR (R302 to R304). -/
def Module.hopPacket (m : Module) (k : Packet) (came : Option Nat) (p : Nat) (detour : Bool) : Packet × Nat :=
  let d := p / 2
  let wrapped := (came.map (· / 2) == some d && k.flags.getLsbD 1) || m.wraps d (p % 2 == 0)
  let det := k.flags.getLsbD 0 || detour
  let flags := (if det then 1 else 0) + (if wrapped then 2 else 0)
  let vc := if k.kind == 0 then 0 else (if det then 3 else 1) + (if wrapped then 1 else 0)
  ({ k with hops := k.hops + 1, flags := byteOf flags }, vc)

/-- Queue a packet on a port. -/
def Module.sendHop (m : Module) (k : Packet) (came : Option Nat) (p : Nat) (detour : Bool) : Module :=
  let (k', vc) := m.hopPacket k came p detour
  m.sendTx p ⟨some (k, came), vc, 0, cutFlits 32 (packetBytes k'), 0, false⟩

/-- Send a packet on towards its destination (R303, R304). [log 83 DESIGN CHOICE] -/
def Module.forward (m : Module) (k : Packet) (came : Option Nat) : Module :=
  if m.fld Fld.VIA_ROUTE_CTL_HOP_LIMIT ≤ k.hops.toNat then m.losePacket (came.getD 0)
  else
    match m.choosePort k with
    | none => m.losePacket (came.getD 0)
    | some (p, detour) =>
      let m := if detour then m.addFld Fld.VIA_DETOURS_COUNT 0 0 else m
      let m := if came.isSome then m.bill 0 (fun l => { l with link := l.link + k.payload.length }) else m
      m.sendHop k came p detour

/-! ## Jobs and filtering (R307, R308) -/

/-- This module's number, once discovery has found it. -/
def Module.isSelf (m : Module) (dst : BitVec 13) : Bool :=
  m.flag Fld.VIA_DISC_STATUS_DONE && m.fld Fld.VIA_DISC_STATUS_MODULE == dst.toNat

/-- The entry that names a job, with a word on its complement (R11). -/
def Module.jobEntry (m : Module) (job : Nat) : Option (Ten × Bool) :=
  ((List.finRange 101).find? (fun t => t != house && m.flag Fld.VIA_JOB_VALID t.val && m.fld Fld.VIA_JOB_JOB_ID t.val == job)).map
    (fun t => (t, pairOk (m.reg .VIA_JOB t.val)))

/-- A packet is refused at delivery (R308). -/
def Module.filterDrop (m : Module) (p : Nat) : Module :=
  ((m.addFld Fld.VIA_ISO_DROP_COUNT 0 0).violation 0 .via).raise Kind.VIA_JOB_FILTER 0 p

/-- Deliver a packet addressed to this module: the filter of R308, then it waits to act on the tenancy found. House packets end here: the manual
gives them no effect of their own. [log 92 DEDUCED] -/
def Module.deliver (m : Module) (p : Nat) (k : Packet) : Module :=
  let job := k.jobId.toNat
  if (job = 0) != (k.kind == 0) then m.filterDrop p
  else if job = 0 then m
  else
    match m.jobEntry job with
    | none => m.filterDrop p
    | some (t, false) => (m.raise Kind.VIA_PAIR t.val p).filterDrop p
    | some (t, true) =>
      let m := m.probe Kind.VIA_PAIR t.val p
      ({ m with inbox := m.inbox ++ [(t, k)] } : Module).bill t.val (fun l => { l with link := l.link + k.payload.length })

/-- Take a delivered packet of a kind from those that wait, for the tenancy that delivery found (R308). -/
def Module.takeIn (m : Module) (k : Packet) (kind : Nat) (f : Ten → Module → Module) : Module :=
  match m.inbox.find? (fun e => e.2 == k && k.kind.toNat == kind) with
  | some e => f e.1 { m with inbox := m.inbox.erase e }
  | none => m

/-- The tenancy may send: it has a valid registration (R307). -/
def Module.maySend (m : Module) (ten : Nat) : Bool := (m.jobOf ten).isSome

/-- Send a packet of a tenancy: stamped with SRC and JOB_ID. A packet to this module is delivered here. A tenancy without a
valid registration sends nothing (R307); the caller ends the command that tried. -/
def Module.sendLink (m : Module) (ten dst kind : Nat) (spec : Nat) (payload : List Byte) : Module :=
  match m.jobOf ten with
  | none => m
  | some job =>
    let k : Packet := ⟨BitVec.ofNat 13 (m.aliasTo ten dst), BitVec.ofNat 13 (m.positionOf ten), BitVec.ofNat 24 job,
      byteOf kind, 0, 0, BitVec.ofNat 128 spec, payload⟩
    let m := m.bill ten (fun l => { l with link := l.link + payload.length })
    if m.isSelf k.dst then m.deliver 0 k else m.forward k none

/-! ## The end of a link (R305) -/

/-- The first flits of a packet that was cut off go on with an ABORT flit on its own route; at its destination they are
discarded. -/
def Module.abortPartial (m : Module) (p : Nat) (bs : List Byte) : Module :=
  let m := m.addFld Fld.VIA_LOST_COUNT 0 0
  let k := packetOf bs
  if bs.length < 32 || m.isSelf k.dst then m
  else
    match m.choosePort k with
    | none => m
    | some (q, detour) =>
      let (k', vc) := m.hopPacket k (some p) q detour
      let head := bs.take 8 ++ [k'.hops, k'.flags] ++ (bs.drop 10).take 22
      m.sendTx q ⟨some (k, some p), vc, 0, cutFlits 32 (head ++ bs.drop 32) ++ [(0, [0])], 0, true⟩

/-- A port stops carrying packets: the packets it had not delivered go whole on their new route, and the packets that were
arriving end with ABORT (R305). -/
def Module.closePort (m : Module) (p st : Nat) : Module :=
  let q := m.port p
  let m := m.setPortState p st
  let m := m.setFld Fld.VIA_PORT_STATUS_VLP p 0 0
  let m := m.setFld Fld.VIA_PORT_STATUS_DATA_LANES p 0 0
  let m := m.setFld Fld.VIA_PORT_STATUS_SYNC_LANES p 0 0
  let m := m.setPort p { Port.reset with rxq := q.rxq, newFail := q.newFail, syncHeld := q.syncHeld }
  let m := (q.replay ++ q.waitq).foldl (fun m (x : TxPkt) =>
    match x.body with
    | some (k, came) => if x.abort then m else m.forward k came
    | none =>
      -- a tunnelled message waits for the path (R315)
      let msg := ((x.flits.head?).map (·.2)).getD []
      m.holdSync (((m.tenOfJob (fieldAt msg 0 3)).map (·.val)).getD 0) p msg) m
  q.partials.foldl (fun m (x : Nat × List Byte) => m.abortPartial p x.2) m

/-! ## Group operations over a port (R313, R315, R317) -/

/-- Messages of the listed operations that go out through a port, those of passed stages included. -/
def Module.portMessages (m : Module) (p : Nat) : List (Nat × List Byte) :=
  m.groupOps.flatMap (fun o =>
    (List.range (m.boxExt o.group (p / 2))).filterMap (fun pos =>
      match Map.get? o.got (gotKey (p / 2) pos), m.jobOf o.ten.val with
      | some v, some job =>
        if m.goesOn o.ten.val o.group (p / 2) pos (p % 2 == 0) then
          some (o.ten.val, syncBytes job o.op (p / 2) o.group o.name o.phase pos v)
        else none
      | _, _ => none))

/-- Try again to send the messages held back for a port, as far as they qualify. -/
def Module.flushSync (m : Module) (p : Nat) (ok : Nat × List Byte → Bool) : Module :=
  let held := (m.port p).syncHeld
  (held.filter ok).foldl (fun m x => m.sendSync x.1 p x.2)
    (m.setPort p { m.port p with syncHeld := held.filter (fun x => !ok x) })

/-- Messages go out again after a retrain or when a link returns: those of the listed operations, and those that were held
back, of operations that have ended here too; a message held back for want of a tunnel tries its route again (R300, R315,
R317). [log 188 DESIGN CHOICE] -/
def Module.resendSync (m : Module) (p : Nat) : Module :=
  let live := m.portMessages p
  let m := m.setPort p { m.port p with syncHeld := (m.port p).syncHeld.filter (fun x => !live.contains x) }
  let m := (live.foldl (fun m x => m.sendSync x.1 p x.2) m)
  let m := m.flushSync p (fun x => !live.contains x)
  ((List.range 6).filter (· != p)).foldl (fun m q => m.flushSync q (fun x => m.aliasedHop x.1 q)) m

/-- An operation still needs a port: its line in a stage not passed goes through it. -/
def Module.opUses (m : Module) (o : GroupOp) (p : Nat) : Bool :=
  let d := p / 2
  let n := m.boxExt o.group d
  let x := m.linePos o.ten.val o.group d
  decide (o.stage ≤ d) && decide (1 < n) && (n == m.dim d || (if p % 2 = 0 then decide (x + 1 < n) else decide (0 < x)))

/-- Operations that a lost port cuts (R315). [log 101 DEDUCED] -/
def Module.cutOps (m : Module) (p : Nat) : Module :=
  m.groupOps.foldl (fun m o => if o.own.isSome && m.opUses o p then m.raise Kind.SYN_GROUP_CUT o.ten.val p else m) m

end Sys2Proof.Machine
end

