-- ==== Sys2Proof/Machine/FerryOps.lean ====
section
/-! DEFINITION. Machine/FerryOps.lean: the movement of bytes by a ferry channel, its halt, and its completions (R386 to
R394). -/

namespace Sys2Proof.Machine

/-- A channel with no descriptor. -/
def Ferry.idle : Ferry := ⟨none, false, false, [], [], 0⟩

def Module.ferry (m : Module) (c : Nat) : Ferry := (Map.get? m.ferries c).getD .idle
def Module.setFerry (m : Module) (c : Nat) (x : Ferry) : Module := { m with ferries := Map.insert m.ferries c x }

/-! ## The descriptor (R387) -/

def fd.fill (b : List Byte) : Bool := fieldAt b 0 1 == 1
def fd.flag (b : List Byte) (k : Nat) : Bool := bitsAt (fieldAt b 1 1) k 1 == 1
def fd.srcHold (b : List Byte) : Bool := fd.flag b 1
def fd.dstHold (b : List Byte) : Bool := fd.flag b 2
def fd.remoteSrc (b : List Byte) : Bool := fd.flag b 3
def fd.remoteDst (b : List Byte) : Bool := fd.flag b 4
def fd.remote (b : List Byte) : Bool := fd.remoteSrc b || fd.remoteDst b
def fd.module (b : List Byte) : Nat := bitsAt (fieldAt b 2 2) 0 13
def fd.src (b : List Byte) : Nat := fieldAt b 8 8
def fd.dst (b : List Byte) : Nat := fieldAt b 16 8
def fd.len (b : List Byte) : Nat := fieldAt b 24 8

/-- The checks of R388 on the descriptor itself; a FILL has its pattern in SRC. -/
def fd.ok (b : List Byte) : Bool :=
  let top := fun (hold : Bool) => if hold then 2 ^ 32 else 2 ^ 48
  decide (fieldAt b 0 1 ≤ 1) && decide (fieldAt b 1 1 < 32) && decide (fieldAt b 2 2 < 2 ^ 13)
    && (fd.remote b || fieldAt b 2 2 == 0) && zeroBytes b 32 32
    && decide (1 ≤ fd.len b) && decide (fd.len b ≤ 2 ^ 36)
    && !(fd.remoteSrc b && fd.remoteDst b) && !(fd.remoteSrc b && fd.fill b)
    && (fd.fill b || decide (fd.src b < top (fd.srcHold b))) && decide (fd.dst b < top (fd.dstHold b))

/-- KIND of R390 for a failed access. -/
def ferryKind (hold : Bool) (e : Fail) : Nat :=
  if e.status = st.busError then 7
  else if e.kind ≠ 0 then e.kind
  else if e.status = st.isolation then (if hold then 9 else 6)
  else 8

/-! ## Completions (R390) -/

def Module.chRing (m : Module) (c : Nat) : Nat := m.fld Fld.DMA_CH_CFG_RING c
def Module.chTen (m : Module) (c : Nat) : Ten := Fin.ofNat 101 (m.fld Fld.DMA_CH_CFG_TENANCY c)
def Module.chDone (m : Module) (c : Nat) : Nat := m.fld Fld.DMA_CH_DONE_BYTES c

/-- Post the completion of the descriptor, and arm the ring where it asks for an interrupt. -/
def Module.postFerry (m : Module) (c : Nat) (b : List Byte) (status detail : Nat) : Module :=
  let g := m.pairOf (m.chRing c)
  let m := if fd.flag b 0 then m.setRing g { m.ring g with arm := some (BitVec.ofNat 32 (m.ringTail g)) } else m
  (m.unreserve g 1).postEntry g (completionRecord (fieldAt b 4 4) status 0xFF (m.localRing (m.chRing c)) detail)

/-- FERRY_HALT (R393): the error is latched, the failing record is posted, HALT is raised, and the channel is HALTED. -/
def Module.haltFerry (m : Module) (c : Nat) (status kind : Nat) (write remote : Bool) (addr : Nat) : Module :=
  let x := m.ferry c
  match x.entry with
  | none => m
  | some b =>
    -- one record for each failure of the descriptor
    if m.chState c == chHalted then m
    else
    let dir := if write then 1 else 0
    let m := m.setFld Fld.DMA_CH_ERR_ADDR_ADDR c 0 addr
    let m := m.setReg .DMA_CH_ERR_INFO c 0 (BitVec.ofNat 64
      (status * 2 ^ 24 + kind * 2 ^ 20 + dir * 2 ^ 19 + (if remote then 2 ^ 18 else 0)))
    let m := m.setFerry c { x with paid := false, draining := false }
    let m := m.postFerry c b status (kind * 2 ^ 60 + dir * 2 ^ 59 + addr % 2 ^ 48)
    ((m.setChState c chHalted).raise Kind.DMA_HALT (m.chTen c).val c).checkSuspended (m.chTen c)

/-! ## Local movement (R389, R391) -/

/-- Bytes of the next piece from offset `o`: to the end of the source's unit, 64 bytes or a Hold word of 8, the next page boundary
of the destination, or the end. -/
def fd.piece (b : List Byte) (o : Nat) : Nat :=
  let unit := if fd.srcHold b then 8 else 64
  min (fd.len b - o) (min (unit - (fd.src b + o) % unit) (frameBytes - (fd.dst b + o) % frameBytes))

/-- Source and destination of a local COPY overlap: the destination bytes are undefined (R396), free values.
[log 193 DESIGN CHOICE] -/
def fd.overlaps (b : List Byte) : Bool :=
  !fd.fill b && !fd.remote b && fd.srcHold b == fd.dstHold b && decide (fd.src b < fd.dst b + fd.len b)
    && decide (fd.dst b < fd.src b + fd.len b)

/-- The bytes of a piece, from the pattern of a FILL or from the source. -/
def Module.ferryRead (m : Module) (t : Nat) (b : List Byte) (o n : Nat) : Except Fail (List Byte) × Module :=
  if fd.fill b then (.ok ((List.range n).map (fun i => (b.drop (8 + (fd.dst b + o + i) % 8)).headD 0)), m)
  else if fd.srcHold b then m.readHold .dma t (fd.src b + o) n
  else m.readVA .dma t (fd.src b + o) n

/-- Write bytes at the destination. -/
def Module.ferryWrite (m : Module) (t : Nat) (b : List Byte) (o : Nat) (bs : List Byte) : Except Fail Unit × Module :=
  if fd.dstHold b then m.writeHold t (fd.dst b + o) bs else m.writeVA .dma t (fd.dst b + o) bs

/-- Count bytes written by a channel (DMA_CH_DONE, DMA_CH_BYTES). -/
def Module.ferryMoved (m : Module) (c n : Nat) : Module :=
  (m.addFld Fld.DMA_CH_DONE_BYTES c 0 n).addFld Fld.DMA_CH_BYTES_BYTES c 0 n

/-- Move pieces until `stop` bytes of the descriptor are written; a failure halts the channel; the bytes of an overlapping COPY are free (R396). `fuel` bounds the pieces. [log 103 DEDUCED] -/
def Module.ferryRun (m : Module) (c stop : Nat) (b : List Byte) : Nat → Module
  | 0 => m
  | fuel + 1 =>
    let o := m.chDone c
    if stop ≤ o then m
    else
      let n := min (fd.piece b o) (stop - o)
      let t := (m.chTen c).val
      match m.ferryRead t b o n with
      | (.error e, m) => m.haltFerry c e.status (ferryKind (fd.srcHold b) e) false false (fd.src b + o)
      | (.ok bs, m) =>
        let free := fd.overlaps b
        let bs := if free then (List.range n).map (fun i => Config.undefinedByte m.freeIx (o + i)) else bs
        let m := if free then m.drawn else m
        match m.ferryWrite t b o bs with
        | (.error e, m) => m.haltFerry c e.status (ferryKind (fd.dstHold b) e) true false (fd.dst b + o)
        | (.ok _, m) => (m.ferryMoved c n).ferryRun c stop b fuel

/-! ## Remote movement (R394) -/

/-- Header bytes 16 to 31 of a MEMORY packet. -/
def memSpec (op status ch chunk : Nat) (hold : Bool) (addr : Nat) : Nat :=
  op + status * 2 ^ 8 + ch * 2 ^ 16 + chunk * 2 ^ 32 + (addr % 2 ^ 48 + (if hold then 2 ^ 63 else 0)) * 2 ^ 64

/-- Offset and length of chunk `k` of a descriptor. -/
def fd.chunk (b : List Byte) (k : Nat) : Nat × Nat := (4096 * k, min 4096 (fd.len b - 4096 * k))

/-- Issue one chunk: a WRITE with its data, or a READ_REQ whose payload is the number of bytes; a tenancy that has lost its
registration halts the channel (R307). -/
def Module.issueChunk (m : Module) (c : Nat) (b : List Byte) (k : Nat) : Module :=
  let (o, n) := fd.chunk b k
  let t := (m.chTen c).val
  if !m.maySend t then m.haltFerry c st.isolation 0 false false 0
  else if fd.remoteSrc b then
    let m := m.setFerry c { m.ferry c with opened := (m.ferry c).opened ++ [k], next := k + 1 }
    m.sendLink t (fd.module b) 1 (memSpec 1 0 c k (fd.srcHold b) (fd.src b + o)) (leBytes 4 n)
  else
    match m.ferryRead t b o n with
    | (.error e, m) => m.haltFerry c e.status (ferryKind (fd.srcHold b) e) false false (fd.src b + o)
    | (.ok bs, m) =>
      let m := m.setFerry c { m.ferry c with opened := (m.ferry c).opened ++ [k], next := k + 1 }
      m.sendLink t (fd.module b) 1 (memSpec 0 0 c k (fd.dstHold b) (fd.dst b + o)) bs

/-- Chunks of a descriptor. -/
def fd.chunks (b : List Byte) : Nat := (fd.len b + 4095) / 4096

/-- Issue chunks while the channel runs and fewer than 16 are outstanding; those acknowledged already are passed over. -/
def Module.issueChunks (m : Module) (c : Nat) (b : List Byte) : Nat → Module
  | 0 => m
  | fuel + 1 =>
    let x := m.ferry c
    if (m.chState c != chRunning && !x.draining) || 16 ≤ x.opened.length || fd.chunks b ≤ x.next then m
    else if x.acked.contains x.next || x.opened.contains x.next then
      (m.setFerry c { x with next := x.next + 1 }).issueChunks c b fuel
    else (m.issueChunk c b x.next).issueChunks c b fuel

/-- A chunk is visible at its destination: DONE counts its bytes. -/
def Module.chunkDone (m : Module) (c : Nat) (b : List Byte) (k : Nat) : Module :=
  let x := m.ferry c
  let m := m.setFerry c { x with opened := x.opened.filter (· != k), acked := x.acked ++ [k] }
  m.ferryMoved c (fd.chunk b k).2

/-- Let the channel go on: its completion is reserved where it is not yet, the descriptor is checked (R388), then bytes move. Locally, how many have moved when
the step ends is free; `all` moves every one. -/
def Module.driveFerry (m : Module) (c : Nat) (all : Bool) : Module :=
  let x := m.ferry c
  match x.entry with
  | none => m
  | some b =>
    let g := m.pairOf (m.chRing c)
    if !x.paid && (m.ringRoom g = 0 || !m.ringEnabled g || m.ringState g == 2) then m
    else
      let m := if x.paid then m else (m.reserve g 1).setFerry c { x with paid := true }
      if !fd.ok b then m.haltFerry c st.check 0 false false 0
      else if fd.remote b && !m.maySend (m.chTen c).val then m.haltFerry c st.isolation 0 false false 0
      else if fd.remote b then m.issueChunks c b (fd.chunks b + 16)
      else
        let stop := if all then fd.len b else min (fd.len b) (m.chDone c + Config.freeNat m.freeIx % (fd.len b + 1))
        m.drawn.ferryRun c stop b (fd.len b)

/-- Every byte of the descriptor has been written and is visible. -/
def Module.ferryOver (m : Module) (c : Nat) (b : List Byte) : Bool :=
  if fd.remote b then (m.ferry c).opened.isEmpty && decide (fd.chunks b ≤ (m.ferry c).acked.length)
  else decide (fd.len b ≤ m.chDone c)

/-- A channel that is PAUSING enters PAUSED once every request issued has completed (R391). -/
def Module.checkPaused (m : Module) (c : Nat) : Module :=
  let x := m.ferry c
  if m.chState c == chPausing && !x.draining && x.opened.isEmpty then
    (m.setChState c chPaused).checkSuspended (m.chTen c)
  else m

/-- PAUSE or DRAIN of a channel; ignored while HALTED (R391, R395). -/
def Module.pauseFerry (m : Module) (c : Nat) (drain : Bool) : Module :=
  let x := m.ferry c
  if m.chState c == chHalted || m.chState c == chPaused then m
  else
    ((m.setChState c chPausing).setFerry c { x with draining := drain && x.entry.isSome }).checkPaused c

/-- The channel's descriptor is abandoned with no completion, and the channel is freed (R392). -/
def Module.freeChannel (m : Module) (c : Nat) : Module :=
  let x := m.ferry c
  let m := if x.paid then m.unreserve (m.pairOf (m.chRing c)) 1 else m
  let m := { m with ferries := Map.erase m.ferries c }
  (m.setReg .DMA_CH_CFG c 0 0).setChState c chIdle

/-- The channel bound to a ring. -/
def Module.channelOfRing (m : Module) (g : Nat) : Option Nat :=
  (m.ferries.map (·.1)).find? (fun c => m.flag Fld.DMA_CH_CFG_VALID c && m.chRing c == g)

/-- Channels that no ring has. -/
def Module.freeChannel? (m : Module) : Option Nat := (List.range 512).find? (fun c => !m.flag Fld.DMA_CH_CFG_VALID c)

/-- Bind the lowest free channel to an enabled FERRY ring (R386). -/
def Module.bindChannel (m : Module) (t : Ten) (g c : Nat) : Module :=
  let m := m.setReg .DMA_CH_CFG c 0 (BitVec.ofNat 64 (2 ^ 31 + t.val * 2 ^ 15 + g))
  ((m.setChState c chIdle).setFld Fld.DMA_CH_DONE_BYTES c 0 0).setFerry c .idle

end Sys2Proof.Machine
end

