-- ==== Sys2Proof/Machine/RegOps.lean ====
section
/-! DEFINITION. Machine/RegOps.lean: what a write of a register does by the access codes of its fields (R6, R7). -/

namespace Sys2Proof.Machine

/-- The bits that a write covers: a whole register, or one 32-bit half of a 64-bit register. -/
def spanMask (r : RegId) (high wide : Bool) : Nat :=
  if wide || r.width = 32 then 2 ^ r.width - 1
  else if high then (2 ^ 32 - 1) * 2 ^ 32 else 2 ^ 32 - 1

/-- The value that a write places on the register's bits. -/
def spanValue (r : RegId) (high wide : Bool) (v : Nat) : Nat :=
  if r.width = 64 && high && !wide then v % 2 ^ 32 * 2 ^ 32 else v

/-- Replace the bits of a mask. -/
def merge (old v mask : Nat) : Nat := (old &&& (2 ^ 64 - 1 - mask)) ||| (v &&& mask)

/-- Store the RW bits and clear the W1C bits that the written value names, within a mask; the rest is ignored (R7). -/
def Module.storeFields (m : Module) (r : RegId) (i j : Nat) (mask v : Nat) : Module :=
  let old := (m.reg r i j).toNat
  let w := merge old v (r.maskOf .rw &&& mask)
  m.setReg r i j (BitVec.ofNat 64 (w &&& (2 ^ 64 - 1 - (v &&& r.maskOf .w1c &&& mask))))

end Sys2Proof.Machine
end

