-- ==== Sys2Proof/Machine/Rings.lean ====
section
/-! DEFINITION. Machine/Rings.lean: enabling and disabling rings, doorbells, HCP negotiation and LTR (R343 to R352). -/

namespace Sys2Proof.Machine

/-! ## The ring that a selector shows (R342, R343) -/

/-- The ring that the selector of a function shows: by global number, or by relative number within the tenancy's range. -/
def Module.selRing (m : Module) (f : Func) : Option Nat :=
  let i := m.fld Fld.QUE_RING_SEL_RING f.val
  match m.tenOf f with
  | none => none
  | some t =>
    if f = 0 then some i
    else if i < m.fld Fld.TEN_RINGS_RING_COUNT t.val then some (m.globalRing t i) else none

/-- The ring that a function may configure: not, from the physical function, one inside a tenancy's range (R343). -/
def Module.ownRing (m : Module) (f : Func) : Option Nat :=
  match m.selRing f with
  | none => none
  | some g => if f = 0 && m.ringOwner g != house then none else some g

/-! ## Freeing a ring (R345, R392) -/

/-- Free a ring: untaken entries are abandoned, commands already taken run on, a ferry's channel is freed. -/
def Module.disableRing (m : Module) (g : Nat) : Module :=
  if !m.ringEnabled g then m
  else
    let m := match m.channelOfRing g with
      | some c => m.freeChannel c
      | none => m
    let m := if m.ringType g = ringType.caravan then
        let k := m.fld Fld.QUE_RING_INFO_CARAVAN g
        (({ m with caravans := Map.erase m.caravans k }.setFlag Fld.CVN_RING_CFG_ENABLE k 0 false).setFld
          Fld.QUE_RING_INFO_CARAVAN g 0 0).mirrorFill (m.ringOwner g)
      else m
    let m := (m.setFlag Fld.QUE_RING_CFG_ENABLE g 0 false).setFld Fld.QUE_RING_CFG_STATE g 0 0
    { m with
      rings := Map.erase m.rings g
      cmds := m.cmds.map (fun p => if p.2.comp == some g then (p.1, { p.2 with comp := none }) else p) }

/-- Clearing ENABLE is refused while the ring is an enabled caravan ring or the PAIR of an enabled ring (R345). -/
def Module.mayDisable (m : Module) (g : Nat) : Bool :=
  !(m.ringType g == ringType.caravan && m.flag Fld.CVN_RING_CFG_ENABLE (m.fld Fld.QUE_RING_INFO_CARAVAN g))
    && !(m.rings.any (fun p => p.1 != g && m.ringEnabled p.1
      && (m.ringType p.1 == ringType.command || m.ringType p.1 == ringType.waybill || m.ringType p.1 == ringType.ferry)
      && m.pairOf p.1 == g))

/-! ## Enabling a ring (R345, R386) -/

/-- The lowest caravan index that no caravan ring holds. -/
def Module.freeCaravan (m : Module) : Option Nat :=
  (List.range 1024).find? (fun k => !(m.rings.any (fun p => m.ringEnabled p.1 && m.ringType p.1 == ringType.caravan
    && m.fld Fld.QUE_RING_INFO_CARAVAN p.1 == k)))

/-- The channel that a FERRY ring would be bound to (R386). -/
def Module.ferryFor (m : Module) (t : Ten) : Option Nat :=
  if t != house && m.fld Fld.DMA_TEN_LIMITS_CHANNELS t.val ≤ (m.channelsOf t).length then none else m.freeChannel?

/-- The context of a ring passes the checks of R345. -/
def Module.ringOk (m : Module) (f : Func) (t : Ten) (g : Nat) : Bool :=
  let ty := m.ringType g
  let log := m.fld Fld.QUE_RING_CFG_SIZE_LOG2 g
  let pair := m.pairOf g
  decide (1 ≤ ty) && decide (ty ≤ 7)
    && (ty == ringType.caravan || (decide (4 ≤ log) && decide (log ≤ 16) && m.ringBase g % (2 ^ log * entrySize ty) == 0))
    && (!(ty == ringType.command || ty == ringType.waybill || ty == ringType.ferry)
        || (m.ringEnabled pair && m.ringType pair == ringType.completion && m.ringOwner pair == t))
    && (f == 0 || decide (m.fld Fld.QUE_RING_CFG_VECTOR g < 32))
    && (ty != ringType.ledger || f == 0)
    && (ty != ringType.caravan || m.freeCaravan.isSome)
    && (ty != ringType.ferry || (m.ferryFor t).isSome)
    && m.hcpValid f && (ty != ringType.reward || m.hcpAtLeast f 3 0)

/-- Allocate the ring: pointers zero, the pointer block written, its caravan index or ferry channel taken. [log 102 DEDUCED] -/
def Module.openRing (m : Module) (t : Ten) (g : Nat) : Module :=
  let ty := m.ringType g
  let index := m.freeCaravan
  let m := (m.setFld Fld.QUE_RING_CFG_STATE g 0 1).setFlag Fld.QUE_RING_CFG_ENABLE g 0 true
  let m := (m.setReg .QUE_RING_PTRS g 0 0).setRing g ⟨m.calendarUs, none, 0, 0, []⟩
  if ty = ringType.caravan then
    match index with
    | none => m
    | some k =>
      let m := m.setFld Fld.QUE_RING_INFO_CARAVAN g 0 k
      (m.setFld Fld.CVN_RING_CFG_RING k 0 g).setFld Fld.CVN_RING_CFG_TENANCY k 0 t.val
  else
    let m := match m.ferryFor t with
      | some c => if ty = ringType.ferry then m.bindChannel t g c else m
      | none => m
    match m.writeVA .que t.val (m.pointerVA g) (List.replicate 64 0) with
    | (.ok _, m) => m
    | (.error _, m) => m.ringFail g

/-- ENABLE goes from 0 to 1 (R345). -/
def Module.enableRing (m : Module) (f : Func) (g : Nat) : Module :=
  let t := m.ringOwner g
  match m.useEntry t with
  | (false, m) => m
  | (true, m) => if m.ringOk f t g then m.openRing t g else m.raise Kind.QUE_CONFIG t.val g

/-- Bit 63 of QUE_RING_CFG. -/
abbrev enableBit : Nat := 2 ^ 63

/-- BASE, TYPE, SIZE_LOG2, PAIR and VECTOR of a ring. -/
def Module.ringShape (m : Module) (g : Nat) : List Nat :=
  [m.ringBase g, m.ringType g, m.fld Fld.QUE_RING_CFG_SIZE_LOG2 g, m.fld Fld.QUE_RING_CFG_PAIR g, m.fld Fld.QUE_RING_CFG_VECTOR g]

/-- The behaviour of an enabled ring is undefined: its pointers and STATE are free values (R364). [log 192 DESIGN CHOICE] -/
def Module.spoilRing (m : Module) (g : Nat) : Module :=
  let m := (m.setReg .QUE_RING_PTRS g 0 m.free64).drawn
  (m.setFld Fld.QUE_RING_CFG_STATE g 0 (1 + Config.freeNat m.freeIx % 2)).drawn

/-- A write to an enabled ring is done; where it changed the ring's shape, the ring and its pairs behave in an undefined
way (R364). -/
def Module.reshape (m : Module) (g : Nat) (store : Module → Module) : Module :=
  let pairs := (m.rings.map (·.1)).filter (fun h => m.ringEnabled h && (h == g || h == m.pairOf g || m.pairOf h == g))
  let n := store m
  if m.ringEnabled g && n.ringShape g != m.ringShape g then pairs.foldl (fun n h => n.spoilRing h) n else n

/-- A write of QUE_RING_CFG of the ring that a function's selector shows, within a mask. [log 123 DEDUCED] -/
def Module.writeRingCfg (m : Module) (f : Func) (mask v : Nat) : Module :=
  match m.ownRing f with
  | none => m
  | some g =>
    let was := m.ringEnabled g
    let on := if mask &&& enableBit = 0 then was else v &&& enableBit != 0
    let store := fun (m : Module) => m.storeFields .QUE_RING_CFG g 0 (mask &&& (enableBit - 1)) v
    if was && !on then
      if m.mayDisable g then store (m.disableRing g) else m.raise Kind.QUE_CONFIG (m.ringOwner g).val g
    else if !was && on then (store m).enableRing f g
    else m.reshape g store

/-- RING_ENABLE (R345): a whole write of QUE_RING_CFG. -/
def execRingEnable (f : Func) (value : Word64) (s : State) : Host.Outcome State Fault Refusal :=
  s.run fun m => m.writeRingCfg f (2 ^ 64 - 1) value.toNat

/-- RING_DISABLE (R345): a whole write of QUE_RING_CFG. -/
def execRingDisable (f : Func) (value : Word64) (s : State) : Host.Outcome State Fault Refusal :=
  s.run fun m => m.writeRingCfg f (2 ^ 64 - 1) value.toNat

/-! ## Doorbells (R347) -/

/-- A doorbell that is discarded. -/
def Module.badDoorbell (m : Module) (t : Ten) (g : Nat) : Module := m.raise Kind.QUE_DOORBELL t.val g

/-- A doorbell of an enabled ring in order. -/
def Module.ringBell (m : Module) (g index : Nat) (arm : Bool) : Module :=
  let idle := m.ringPending g == 0
  if hostProduced (m.ringType g) then
    if m.ringSize g < diff32 index (m.ringHead g) then m.ringFail g
    else
      let m := m.setFld Fld.QUE_RING_PTRS_TAIL g 0 index
      if idle && m.ringPending g != 0 then m.setRing g { m.ring g with lastServed := m.calendarUs } else m
  else if diff32 (m.ringTail g) (m.ringHead g) < diff32 index (m.ringHead g) then m.ringFail g
  else
    let m := m.setFld Fld.QUE_RING_PTRS_HEAD g 0 index
    if arm && m.ringType g == ringType.completion then
      (m.setRing g { m.ring g with arm := some (BitVec.ofNat 32 index) }).fireArm g
    else m

/-- DOORBELL (R347): a write of 8 bytes, or of the low 4 with ARM taken as 0. [log 119 DEDUCED] -/
def execDoorbell (f : Func) (ring : BitVec 15) (bytes : Bool) (value : Word64) (s : State) :
    Host.Outcome State Fault Refusal :=
  s.run fun m =>
    let i := ring.toNat
    match m.tenOf f with
    | none => m.badDoorbell house i
    | some t =>
      match m.useEntry t with
      | (false, m) => m
      | (true, m) =>
      if f != 0 && decide (m.fld Fld.TEN_RINGS_RING_COUNT t.val ≤ i) then
        ((m.badDoorbell t i).raise Kind.QUE_ISOLATION t.val i).violation t.val .que
      else
        let g := m.globalRing t i
        if !m.ringEnabled g || m.ringState g == 2 || (f == 0 && m.ringOwner g != house) then m.badDoorbell t g
        else m.ringBell g (bitsAt value.toNat 0 32) (bytes && value.getLsbD 32)

/-! ## HCP and LTR (R351, R352) -/

/-- Some ring of the function is enabled. -/
def Module.ringsOn (m : Module) (f : Func) : Bool :=
  m.rings.any (fun p => m.ringEnabled p.1 && m.funcOf (m.ringOwner p.1) == f)

/-- HCP_REQ (R352): HIF_HCP_VER is set; a request while a ring of the function is enabled is ignored. -/
def Module.hcpRequest (m : Module) (f : Func) (value : Word) : Module :=
  let major := bitsAt value.toNat 8 8
  let minor := bitsAt value.toNat 0 8
  let m := m.storeFields .HIF_HCP_REQ f.val 0 (2 ^ 32 - 1) value.toNat
  if m.ringsOn f then m
  else m.setReg .HIF_HCP_VER f.val 0 (BitVec.ofNat 64 (
    if major = 3 then 2 ^ 16 + 3 * 2 ^ 8 + min minor 2
    else if major = 2 ∧ 4 ≤ minor then 2 ^ 16 + 2 * 2 ^ 8 + 4
    else 2 ^ 17))

/-- HCP_REQ (R352). -/
def execHcpReq (f : Func) (value : Word) (s : State) : Host.Outcome State Fault Refusal :=
  s.run fun m => m.hcpRequest f value

/-- Send an LTR message (R351): HIF_LTR in S0 and S1, no requirement in S2 to S4. -/
def Module.sendLtr (m : Module) : Module :=
  m.send (.ltr (if m.fld Fld.PWR_STATUS_STATE ≤ 1 then some (BitVec.ofNat 13 (m.reg .HIF_LTR).toNat) else none))

/-- HIF_LTR_WRITE (R351). -/
def Module.writeLtr (m : Module) (value : Word) : Module :=
  (m.storeFields .HIF_LTR 0 0 (2 ^ 32 - 1) value.toNat).sendLtr

/-- HIF_LTR_WRITE (R351). -/
def execHifLtrWrite (value : Word) (s : State) : Host.Outcome State Fault Refusal :=
  s.run fun m => m.writeLtr value

/-- PCIE_LINK_DOWN (R365): the link is down, and shows no width or rate. -/
def execPcieLinkDown (s : State) : Host.Outcome State Fault Refusal :=
  s.run fun m => (m.setReg .HIF_LINK_STATUS 0 0 0).raise Kind.HIF_LINK_DOWN 0 0

/-- Lanes of a trained link: ×16, or a degraded width (R340). -/
def linkWidth (x : Nat) : Nat := [16, 8, 4, 2, 1].getD (x % 5) 16

/-- The PCIe controller can train: every domain runs, PERST_N is released and REFCLK is present (R469 step 6, R491, R492). -/
def Module.mayTrain (m : Module) : Bool := decide (4 ≤ m.board.boot) && !m.board.perst && !m.board.refclkLost

/-- The PCIe controller trains where it can (R340): the rate and width reached are free, FLIT mode is in use at 64 GT/s and may be
at 32 and 16. [log 122 DESIGN CHOICE] -/
def Module.trainLink (m : Module) : Module :=
  if !m.mayTrain then m
  else
  let rate := 1 + Config.freeNat m.freeIx % 6
  let m := m.drawn
  let width := linkWidth (Config.freeNat m.freeIx)
  let m := m.drawn
  let flit := decide (rate = 6) || (decide (4 ≤ rate) && Config.freeBool m.freeIx)
  m.drawn.setReg .HIF_LINK_STATUS 0 0 (BitVec.ofNat 64 ((if flit then 2 ^ 10 else 0) + width * 2 ^ 4 + rate))

/-- PERST_N_RELEASE (R340, R469). -/
def execPerstNRelease (s : State) : Host.Outcome State Fault Refusal :=
  s.run fun m => ({ m with board := { m.board with perst := false } } : Module).trainLink

end Sys2Proof.Machine
end

