-- ==== Sys2Proof/Machine/LedgerOps.lean ====
section
/-! DEFINITION. Machine/LedgerOps.lean: ledger records, the closing of intervals, and the buffer of records that wait
(R154, R376 to R379). -/

namespace Sys2Proof.Machine

/-! ## Records (R376) -/

/-- Largest values of the counts of a record: SECONDS, CLUSTER_MS, BUSY, DRAM, HOLD, LINK, HOST, MODELLED, RECONCILED. -/
def ledgerMax : List Nat :=
  [2 ^ 16 - 1, 2 ^ 32 - 1, 2 ^ 64 - 1, 2 ^ 48 - 1, 2 ^ 48 - 1, 2 ^ 48 - 1, 2 ^ 40 - 1, 2 ^ 40 - 1, 2 ^ 40 - 1]

/-- A count of a record, by its place in the list. -/
def LedgerRow.at (r : LedgerRow) (i : Nat) : Nat := r.counts.getD i 0

/-- FLAGS. -/
def LedgerRow.flags (r : LedgerRow) : Nat :=
  (if r.partly then 1 else 0) + (if r.final then 2 else 0) + (if r.merged then 4 else 0) + (if r.unreconciled then 8 else 0)

/-- The 64 bytes of a record. -/
def LedgerRow.bytes (r : LedgerRow) : List Byte :=
  let b := [byteOf (r.ten % 128), byteOf r.flags] ++ leBytes 2 (r.at 0) ++ leBytes 4 (r.at 1) ++ leBytes 8 r.start
    ++ leBytes 8 (r.at 2) ++ leBytes 6 (r.at 3) ++ leBytes 6 (r.at 4) ++ leBytes 6 (r.at 5) ++ leBytes 5 (r.at 6)
    ++ leBytes 5 (r.at 7) ++ leBytes 5 (r.at 8) ++ leBytes 2 r.slowdown ++ [0]
  b ++ leBytes 4 (crc32c b)

/-- Every count stays within its width. -/
def LedgerRow.fits (r : LedgerRow) : Bool := (List.range 9).all (fun i => decide (r.at i ≤ ledgerMax.getD i 0))

/-- Add a later interval to a record or a carry (R379): the SLOWDOWN is the later one's. -/
def LedgerRow.join (r x : LedgerRow) : LedgerRow :=
  { r with
    partly := r.partly || x.partly
    final := x.final
    merged := true
    unreconciled := r.unreconciled || x.unreconciled
    counts := (List.range 9).map (fun i => r.at i + x.at i)
    slowdown := x.slowdown }

/-! ## The buffer of 512 and the carries (R379) -/

/-- Keep LDG_BACKLOG in line. -/
def Module.setBacklog (m : Module) (q : List LedgerRow) : Module :=
  ({ m with ledgerQueue := q }).setFld Fld.LDG_BACKLOG_RECORDS 0 0 q.length

/-- Replace the newest waiting record of a tenancy. -/
def replaceNewest (ten : Nat) (r : LedgerRow) (q : List LedgerRow) : List LedgerRow :=
  let i := ((List.range q.length).filter (fun i => (q[i]?).any (fun x => x.ten == ten))).getLastD q.length
  q.set i r

/-- Add an interval to the carry of its tenancy, or begin one. [log 133 DEDUCED] -/
def Module.carry (m : Module) (r : LedgerRow) : Module :=
  let c := match Map.get? m.ledgerCarry r.ten with
    | some c => c.join r
    | none => { r with merged := true }
  { m with ledgerCarry := Map.insert m.ledgerCarry r.ten c }

/-- A closed interval joins the records that wait, or, with the buffer full, the newest of its tenancy where every field stays
within its width, or the tenancy's carry. -/
def Module.putRow (m : Module) (r : LedgerRow) : Module :=
  if (Map.get? m.ledgerCarry r.ten).isSome then (m.carry r).raise Kind.LDG_BACKLOG r.ten r.ten
  else if m.ledgerQueue.length < 512 then m.setBacklog (m.ledgerQueue ++ [r])
  else
    let m := match (m.ledgerQueue.filter (fun x => x.ten == r.ten)).getLast? with
      | none => m.carry r
      | some x => if (x.join r).fits then m.setBacklog (replaceNewest r.ten (x.join r) m.ledgerQueue) else m.carry r
    m.raise Kind.LDG_BACKLOG r.ten r.ten

/-- The next record of a carry, every field as large as its width lets it be, and what is left of the carry. -/
def LedgerRow.split (c : LedgerRow) : LedgerRow × Option LedgerRow :=
  let now := (List.range 9).map (fun i => min (c.at i) (ledgerMax.getD i 0))
  let rest := (List.range 9).map (fun i => c.at i - now.getD i 0)
  if rest.all (· == 0) then ({ c with counts := now }, none)
  else ({ c with counts := now, final := false }, some { c with counts := rest, start := c.start + now.getD 0 0 })

/-- Carries become records while the buffer has room. `fuel` bounds the records. -/
def Module.drainCarry (m : Module) : Nat → Module
  | 0 => m
  | fuel + 1 =>
    if 512 ≤ m.ledgerQueue.length then m
    else
      match m.ledgerCarry with
      | [] => m
      | (t, c) :: rest =>
        let (r, left) := c.split
        let m := m.setBacklog (m.ledgerQueue ++ [r])
        ({ m with ledgerCarry := match left with
          | some c => (t, c) :: rest
          | none => rest } : Module).drainCarry fuel

/-! ## Closing intervals (R154, R376, R377) -/

/-- MODELLED, in millijoules: each coefficient times its count (R377). Coefficients are femtojoules; CLUSTER is in milliwatts,
so that its product with CLUSTER_MS is microjoules. [log 131 DEDUCED] -/
def Module.modelled (m : Module) (counts : List Nat) : Nat :=
  let k := fun i => (m.reg .LDG_COEF i).toNat
  let c := fun i => counts.getD i 0
  let fj := k 0 * c 2 + 4096 * (k 1 * c 3 + k 2 * c 4 + k 3 * c 5 + k 4 * c 6) + k 5 * c 1 * 10 ^ 9
  roundHalfUp fj (10 ^ 12)

/-- The foreign-wait cycles of the interval, a measured amount not above the busy ones: a free value; and the slowdown of
R154. -/
def Module.slowdown (m : Module) (ten busy : Nat) : Nat × Module :=
  if ten = 0 then (0, m)
  else
    let f := Config.freeNat m.freeIx % (busy + 1)
    let s := if busy ≤ f then 65535 else min 65535 (1000 * f / (busy - f))
    let m := ((m.drawn.addFld Fld.PLC_TEN_FOREIGN_F ten 0 f).count 0x1701 ten f).setFld Fld.PLC_TEN_SLOWDOWN_SLOWDOWN ten 0 s
    (s, m.when (decide (m.fld Fld.PLC_SLOW_LIMIT_LIMIT < s)) (fun m => m.raise Kind.PLC_SLOW ten ten))

/-- The record of an open interval up to its RECONCILED. SECONDS and CLUSTER_MS are measured: free values. [log 130 DESIGN CHOICE] -/
def Module.ledgerRow (m : Module) (ten : Nat) (l : Ledger) (partly final : Bool) : LedgerRow × Module :=
  let secs := Config.freeNat m.freeIx % 65536
  let m := m.drawn
  let ms := Config.freeNat m.freeIx % 2 ^ 32
  let (s, m) := m.drawn.slowdown ten l.busy
  let counts := [secs, ms, l.busy, l.dram / 4096, l.hold / 4096, l.link / 4096, l.host / 4096]
  let e := m.modelled counts
  (⟨ten, partly || l.partly, final, false, false, l.start, counts ++ [e, e], s⟩, m)

/-- What stays open of an interval that ends: the remainders of its byte counts. -/
def Ledger.next (l : Ledger) (start : Nat) : Ledger :=
  ⟨start, false, 0, l.dram % 4096, l.hold % 4096, l.link % 4096, l.host % 4096⟩

/-- The input monitor has failed (R377, R487). -/
def Module.monitorBad (m : Module) : Bool := decide (3 ≤ m.board.pollFails)

/-- Measured input energy since the start of the interval. -/
def Module.ledgerInput (m : Module) : Nat := m.fld Fld.LDG_MEASURED_MJ - m.ledgerEnergy

/-- The records of some open intervals, MODELLED in each. -/
def Module.ledgerRows (m : Module) (partly final : Bool) : Map Ledger → List LedgerRow × Module
  | [] => ([], m)
  | (t, l) :: rest =>
    let (r, m) := m.ledgerRow t l partly final
    let (rs, m) := m.ledgerRows partly final rest
    (r :: rs, m)

/-- Give a record its RECONCILED. -/
def LedgerRow.reconcile (r : LedgerRow) (v : Nat) : LedgerRow := { r with counts := r.counts.set 8 v }

/-- RECONCILED of every record of an interval (R377): the house takes what the others leave of the input energy `e`. -/
def reconcileAll (e : Nat) (rs : List LedgerRow) : List LedgerRow :=
  let total := (rs.map (fun r => r.at 7)).sum
  let share := fun (r : LedgerRow) => if total = 0 then 0 else roundHalfUp (r.at 7 * e) total
  let others := ((rs.filter (fun r => r.ten != 0)).map share).sum
  rs.map (fun r => r.reconcile (if r.ten = 0 then e - others else share r))

/-- Close every open interval and open the next ones at a calendar second; the length in force is then LDG_CTL.INTERVAL. -/
def Module.closeLedger (m : Module) (partly : Bool) (start : Nat) : Module :=
  let (rs, m) := m.ledgerRows partly false m.ledgers
  let rs := if m.monitorBad then rs.map (fun r => { r with unreconciled := true }) else reconcileAll m.ledgerInput rs
  let m := if m.monitorBad && !rs.isEmpty then m.raise Kind.LDG_MONITOR 0 0 else m
  let m := rs.foldl (fun m r => m.putRow r) m
  { m with
    ledgers := m.ledgers.map (fun p => (p.1, p.2.next start))
    ledgerEnergy := m.fld Fld.LDG_MEASURED_MJ
    ledgerLen := max 1 (min 3600 (m.fld Fld.LDG_CTL_INTERVAL)) }

/-- Open the interval of a tenancy or of the house: its first record is PARTIAL (R378). -/
def Module.openLedger (m : Module) (ten : Nat) : Module :=
  { m with ledgers := Map.insert m.ledgers ten ⟨m.fld Fld.RTC_SECONDS_SECONDS, true, 0, 0, 0, 0, 0⟩ }

/-- The FINAL record of a tenancy (R371, R378): its share of the energy measured so far, among the intervals as they stand,
which the records of the interval's end no longer share. [log 132 DEDUCED] -/
def Module.finalLedger (m : Module) (ten : Nat) : Module :=
  match Map.get? m.ledgers ten with
  | none => m
  | some l =>
    let total := (m.ledgers.map (fun p => m.modelled [0, 0, p.2.busy, p.2.dram / 4096, p.2.hold / 4096, p.2.link / 4096,
      p.2.host / 4096])).sum
    let (r, m) := m.ledgerRow ten l false true
    let r := if m.monitorBad then { r with unreconciled := true }
      else r.reconcile (if total = 0 then 0 else roundHalfUp (r.at 7 * m.ledgerInput) (max total (r.at 7)))
    let m := if m.monitorBad then m.raise Kind.LDG_MONITOR ten 0 else m
    let used := if m.monitorBad then 0 else r.at 8
    ({ m with ledgers := Map.erase m.ledgers ten, ledgerEnergy := m.ledgerEnergy + used }).putRow r

/-! ## Writing records (R379) -/

/-- The ledger ring, where it can take a record. -/
def Module.ledgerRing (m : Module) : Option Nat :=
  let g := m.fld Fld.LDG_RING_RING
  if m.flag Fld.LDG_RING_VALID && m.ringEnabled g && m.ringType g == ringType.ledger && m.ringState g != 2
      && decide (0 < m.ringRoom g) then some g else none

/-- Write the records that wait, oldest first, while the ring has room. A write that faults leaves its record waiting.
`fuel` bounds the records. -/
def Module.writeLedger (m : Module) : Nat → Module
  | 0 => m
  | fuel + 1 =>
    match m.ledgerRing, m.ledgerQueue with
    | some g, r :: rest =>
      let m := m.postEntry g r.bytes
      if m.ringState g = 2 then m.raise Kind.LDG_RING 0 g
      else (m.setBacklog rest).writeLedger fuel
    | _, _ => m

end Sys2Proof.Machine
end

