-- ==== Sys2Proof/Machine/Calendar.lean ====
section
/-! DEFINITION. Machine/Calendar.lean: calendar time (R466 to R468). -/

namespace Sys2Proof.Machine

/-- Shift a stored start by the step of a calendar write: its age stays (R467). A start cannot lie before the calendar's zero. [log 150 DEDUCED] -/
def shiftStart (old new since : Nat) : Nat := since + new - old

/-- LOAD takes effect at a tick (R467): the intervals close at the old time, stored starts shift with the calendar, VALID is
set. -/
def Module.loadCalendar (m : Module) : Module :=
  let old := m.calendarUs
  let secs := m.fld Fld.RTC_SET_SECONDS_SECONDS
  let m := m.closeLedger true secs
  let m := (m.setFld Fld.RTC_SECONDS_SECONDS 0 0 secs).setFld Fld.RTC_FRAC_FRAC 0 0 (m.fld Fld.RTC_SET_FRAC_FRAC)
  let new := m.calendarUs
  { m.setFlag Fld.RTC_STATUS_VALID 0 0 true with
    board := { m.board with rtcLoad := false }
    waybills := m.waybills.map (fun p => (p.1, { p.2 with since := shiftStart old new p.2.since }))
    rings := m.rings.map (fun p => (p.1, { p.2 with lastServed := shiftStart old new p.2.lastServed })) }

/-- The calendar advances by one tick. -/
def Module.tick (m : Module) : Module :=
  let f := m.fld Fld.RTC_FRAC_FRAC
  if f < 32767 then m.setFld Fld.RTC_FRAC_FRAC 0 0 (f + 1)
  else (m.setFld Fld.RTC_FRAC_FRAC 0 0 0).setFld Fld.RTC_SECONDS_SECONDS 0 0 (m.fld Fld.RTC_SECONDS_SECONDS + 1)

/-- While OSC_FAIL is set the ticks come from the timebase; whether the crystal's edges have returned is a free value. [log 151 DESIGN CHOICE] -/
def Module.oscReturns (m : Module) : Module :=
  if m.flag Fld.RTC_STATUS_OSC_FAIL then m.drawn.setFlag Fld.RTC_STATUS_OSC_FAIL 0 0 (Config.freeBool m.freeIx) else m

/-- RTC_LOAD (R467): RTC_CTL.LOAD takes effect at the next tick. -/
def Module.rtcLoad (m : Module) : Module :=
  { m with board := { m.board with rtcLoad := true } }

/-- RTC_LOAD (R467). -/
def execRtcLoad (s : State) : Host.Outcome State Fault Refusal :=
  s.run fun m => m.rtcLoad

/-- RTC_TICK (R466 to R468). -/
def execRtcTick (s : State) : Host.Outcome State Fault Refusal :=
  s.run fun m =>
    let m := m.oscReturns
    if m.board.rtcLoad then m.loadCalendar else m.tick

/-- RTC_OSC_FAIL (R468): no edge for 1 ms. -/
def execRtcOscFail (s : State) : Host.Outcome State Fault Refusal :=
  s.run fun m => (m.setFlag Fld.RTC_STATUS_OSC_FAIL 0 0 true).raise Kind.RTC_OSC_FAIL 0 0

end Sys2Proof.Machine
end

