-- ==== Sys2Proof/Machine/CkpOps.lean ====
section
/-! DEFINITION. Machine/CkpOps.lean: captures and restores in progress: how they fail, stop and hold a route (R429 to R444). -/

namespace Sys2Proof.Machine

/-- Header bytes 16 to 31 of a CHECKPOINT packet (R430). -/
def ckpSpec (op : Nat) (slot : Bool) (shard gen offset : Nat) : Nat :=
  op + (if slot then 2 ^ 8 else 0) + shard % 2 ^ 16 * 2 ^ 16 + gen % 2 ^ 32 * 2 ^ 32 + offset % 2 ^ 64 * 2 ^ 64

/-- SHARD of the manifest. -/
abbrev shardManifest : Nat := 0xFFFF

/-- Send a CHECKPOINT packet. -/
def Module.sendCkp (m : Module) (t : Ten) (dst op : Nat) (slot : Bool) (shard gen offset : Nat) (bs : List Byte) : Module :=
  m.sendLink t.val dst 4 (ckpSpec op slot shard gen offset) bs

/-- The buddy of a tenancy (R429). -/
def Module.buddy (m : Module) (t : Ten) : Option Nat :=
  if m.flag Fld.CKP_TEN_BUDDY_VALID t.val then some (m.fld Fld.CKP_TEN_BUDDY_MODULE t.val) else none

/-- A usable port leads to a module of the tenancy's job, or it is this module (R303, R304). -/
def Module.reaches (m : Module) (t : Ten) (dst : Nat) : Bool :=
  let d := BitVec.ofNat 13 (m.aliasTo t.val dst)
  m.isSelf d || (m.routePort d.toNat false).isSome

def Module.capture (m : Module) (t : Ten) : Option Capture := Map.get? m.captures t.val
def Module.restore (m : Module) (t : Ten) : Option Restore := Map.get? m.restores t.val

/-- Keep STATE and PERIODIC of CKP_TEN_STATUS in line. -/
def Module.mirrorCkp (m : Module) (t : Ten) : Module :=
  let c := m.capture t
  let state := if (m.restore t).isSome then 3
    else match c with
      | none => 0
      | some c => if c.sending.isSome then 2 else if c.due.isSome then 1 else 0
  (m.setFld Fld.CKP_TEN_STATUS_STATE t.val 0 state).setFlag Fld.CKP_TEN_STATUS_PERIODIC t.val 0
    (match c with
      | some c => c.period != 0
      | none => false)

/-- Store a capture; one that is neither armed nor sending is over. -/
def Module.setCapture (m : Module) (t : Ten) (c : Capture) : Module :=
  let m := if c.due.isNone && c.sending.isNone then { m with captures := Map.erase m.captures t.val }
    else { m with captures := Map.insert m.captures t.val c }
  m.mirrorCkp t

/-- Forget the capture of a tenancy (R359, R444). -/
def Module.dropCapture (m : Module) (t : Ten) : Module :=
  ({ m with captures := Map.erase m.captures t.val }).mirrorCkp t

/-- A capture fails (R434): the command of ONCE ends, or a periodic one counts and goes on. -/
def Module.captureFail (m : Module) (t : Ten) (status : Nat) (lost : Bool) : Module :=
  match m.capture t with
  | none => m
  | some c =>
    let m := if lost then m.raise Kind.CKP_BUDDY_LOST t.val (m.fld Fld.CKP_TEN_BUDDY_MODULE t.val) else m
    let cmd := (c.sending.bind (·.cmd)).orElse (fun _ => c.cmd)
    let m := match cmd with
      | some id => m.finish id status
      | none => m.addFld Fld.CKP_TEN_STATUS_FAILED t.val 0
    m.setCapture t { c with sending := none, cmd := none, due := if c.period = 0 then none else c.due }

/-- A frame is freed while a capture sends a shard that holds it (R444). -/
def Module.captureFree (m : Module) (ten f : Nat) : Module :=
  match Map.get? m.captures ten with
  | none => m
  | some c =>
    if (c.sending.map (fun s => s.frames.contains f)).getD false then m.captureFail (Fin.ofNat 101 ten) st.translation false
    else m

/-- A route is unloaded: its periodic capture stops (R435), and a command that waits for its boundary ends ABORTED. -/
def Module.captureUnload (m : Module) (t : Ten) (routeId : Nat) : Module :=
  match m.capture t with
  | none => m
  | some c =>
    if c.routeId != routeId || c.due.isNone then m
    else
      let m := match c.cmd with
        | some id => m.finish id st.aborted
        | none => m
      m.setCapture t { c with due := none, cmd := none, period := 0 }

/-- A cluster that has committed the step of a capture waits at that boundary (R432). -/
def Module.captureHolds (m : Module) (n : Nat) (step : Word64) : Bool :=
  match m.route n with
  | none => false
  | some r =>
    match m.capture r.ten with
    | none => false
    | some c => c.routeId == r.routeId && (c.due.map (fun d => decide (d < step))).getD false

/-- The boundary of a periodic capture arrives while the previous capture is still sending: it is not taken (R434). -/
def Module.captureBoundary (m : Module) (n : Nat) : Module :=
  match m.route n with
  | none => m
  | some r =>
    match m.capture r.ten with
    | none => m
    | some c =>
      match c.due with
      | none => m
      | some d =>
        if c.routeId == r.routeId && c.sending.isSome && c.period != 0 && (m.clustersOf n).all (fun k => decide (d < (m.cl k).step)) then
          (m.addFld Fld.CKP_TEN_STATUS_SKIPPED r.ten.val 0).setCapture r.ten { c with due := some (d + BitVec.ofNat 64 c.period) }
        else m

/-- Give back the staging of a restore (R439, R444). -/
def Module.dropStaging (m : Module) (t : Ten) (x : Restore) : Module :=
  let size := fun (p : MigPage) => 2 ^ (levelShift p.level).1 / frameBytes
  let m := x.pages.foldl (fun m p => m.releaseFrames t.val ((List.range (size p)).map (fun k => p.target + k))) m
  x.banks.foldl (fun m b => m.releaseBank b.2) m

/-- Forget a restore and its staging. -/
def Module.dropRestore (m : Module) (t : Ten) : Module :=
  match m.restore t with
  | none => m
  | some x => ({ m.dropStaging t x with restores := Map.erase m.restores t.val }).mirrorCkp t

/-- A restore cannot proceed (R439). -/
def Module.restoreFail (m : Module) (t : Ten) (status : Nat) : Module :=
  match m.restore t with
  | none => m
  | some x => (m.dropRestore t).finish x.cmd status

/-- No usable port leads to the buddy of a capture, or to the holder of a restore (R434, R439). -/
def Module.checkBuddies (m : Module) : Module :=
  let m := m.captures.foldl (fun m p =>
    let t : Ten := Fin.ofNat 101 p.1
    if p.2.sending.isSome && !m.reaches t (m.fld Fld.CKP_TEN_BUDDY_MODULE p.1) then m.captureFail t st.busError true else m) m
  m.restores.foldl (fun m p =>
    let t : Ten := Fin.ofNat 101 p.1
    if p.2.holder < 2 ^ 13 && !m.reaches t p.2.holder then
      (m.raise Kind.CKP_BUDDY_LOST p.1 p.2.holder).restoreFail t st.busError
    else m) m

/-- What a killed or aborted command had begun before its commit point (R359, R435). -/
def Module.undoCkp (m : Module) (t : Ten) (id : Nat) : Module :=
  let m := if ((m.capture t).map (fun c => c.cmd == some id)).getD false then m.dropCapture t else m
  if ((m.restore t).map (fun x => x.cmd == id)).getD false then m.dropRestore t else m

end Sys2Proof.Machine
end

