-- ==== Sys2Proof/Machine/GenOps.lean ====
section
/-! DEFINITION. Machine/GenOps.lean: the waybill entry and its fields (R188, R189), the pages of a window (R185 to R187),
completions, endings, pauses and the freeing of an entry (R191, R193, R205 to R208). -/

namespace Sys2Proof.Machine

/-! ## The entry (R188) -/

/-- States of a waybill. -/
abbrev wst.free : Nat := 0
abbrev wst.queued : Nat := 1
abbrev wst.prefill : Nat := 2
abbrev wst.decode : Nat := 3
abbrev wst.paused : Nat := 4
abbrev wst.done : Nat := 5
abbrev wst.error : Nat := 6

/-- Causes of R191. -/
abbrev cause.none : Nat := 0
abbrev cause.stop : Nat := 1
abbrev cause.limit : Nat := 2
abbrev cause.deadline : Nat := 3
abbrev cause.abort : Nat := 4
abbrev cause.dataError : Nat := 5
abbrev cause.nonfinite : Nat := 6
abbrev cause.result : Nat := 7
abbrev cause.fault : Nat := 8
abbrev cause.hostPause : Nat := 9
abbrev cause.evicted : Nat := 10
abbrev cause.pair : Nat := 11

/-- The status that goes with a cause; FAULT reports its own (R191). -/
def causeStatus : Nat → Nat
  | 3 => st.deadline
  | 4 => st.aborted
  | 5 | 6 | 11 => st.data
  | 7 => st.check
  | 10 => st.resource
  | _ => st.ok

/-- Bits of an entry image: byte offset, bytes, low bit, width. -/
def imgBits (b : List Byte) (o n lo w : Nat) : Nat := bitsAt (fieldAt b o n) lo w

/-- Replace bits of an entry image. -/
def imgPut (b : List Byte) (o n lo w v : Nat) : List Byte := putAt b o (leBytes n (putBits (fieldAt b o n) lo w v))

/-- Set STATE and the complement of CRIT0. -/
def imgState (b : List Byte) (v : Nat) : List Byte :=
  putAt b 0 (leBytes 8 (pairWord (putBits (fieldAt b 0 4) 0 4 v)).toNat)

/-- Both critical words agree with their complements (R189). -/
def imgPairs (b : List Byte) : Bool :=
  pairOk (BitVec.ofNat 64 (fieldAt b 0 8)) && pairOk (BitVec.ofNat 64 (fieldAt b 8 8))

def Waybill.bits (w : Waybill) (o n lo k : Nat) : Nat := imgBits w.image o n lo k
def Waybill.put (w : Waybill) (o n lo k v : Nat) : Waybill := { w with image := imgPut w.image o n lo k v }
def Waybill.setState (w : Waybill) (v : Nat) : Waybill := { w with image := imgState w.image v }
def Waybill.state (w : Waybill) : Nat := w.bits 0 4 0 4
def Waybill.wlog2 (w : Waybill) : Nat := w.bits 0 4 16 6
/-- WBASE, the window base in units of 64 MiB. -/
def Waybill.wbase (w : Waybill) : Nat := w.bits 8 4 0 22
def Waybill.window (w : Waybill) : Nat := w.wbase * 2 ^ 26
def Waybill.length (w : Waybill) : Nat := w.bits 16 4 0 19
def Waybill.limit (w : Waybill) : Nat := w.bits 20 4 0 19
def Waybill.prompt (w : Waybill) : Nat := w.bits 24 4 0 19
def Waybill.recorded (w : Waybill) : Nat := w.bits 28 4 0 19
def Waybill.priority (w : Waybill) : Nat := w.bits 32 1 0 3
def Waybill.effective (w : Waybill) : Nat := w.bits 32 1 3 3
def Waybill.urgent (w : Waybill) : Bool := w.bits 32 1 6 1 == 1
def Waybill.draftEn (w : Waybill) : Bool := w.bits 33 1 0 1 == 1
def Waybill.stopEn (w : Waybill) : Bool := w.bits 33 1 1 1 == 1
def Waybill.hardDeadline (w : Waybill) : Bool := w.bits 33 1 2 1 == 1
def Waybill.kvKept (w : Waybill) : Bool := w.bits 33 1 3 1 == 1
def Waybill.draftMax (w : Waybill) : Nat := w.bits 34 1 0 3
def Waybill.pendingDrafts (w : Waybill) : Nat := w.bits 34 1 4 3
def Waybill.caravan (w : Waybill) : Nat := w.bits 36 2 0 15
def Waybill.startVersion (w : Waybill) : BitVec 16 := BitVec.ofNat 16 (fieldAt w.image 38 2)
def Waybill.deadline (w : Waybill) : Nat := fieldAt w.image 40 8
def Waybill.stopToken (w : Waybill) : Nat := w.bits 60 4 0 20

/-- QUEUED, PREFILL or DECODE, and not ended. -/
def Waybill.live (w : Waybill) : Bool :=
  (w.state == wst.queued || w.state == wst.prefill || w.state == wst.decode) && w.ending.isNone

def Module.waybill (m : Module) (id : Nat) : Option Waybill := Map.get? m.waybills id

/-- Keep WBL_TEN_COUNTS in line. -/
def Module.mirrorWaybills (m : Module) (t : Ten) : Module :=
  let ws := (m.waybills.map (·.2)).filter (fun w => w.ten == t && w.live)
  let m := m.setFld Fld.WBL_TEN_COUNTS_QUEUED t.val 0 (ws.filter (fun w => w.state == wst.queued)).length
  let m := m.setFld Fld.WBL_TEN_COUNTS_ACTIVE t.val 0 (ws.filter (fun w => w.state != wst.queued)).length
  m.setFld Fld.WBL_TEN_COUNTS_URGENT t.val 0 (min 255 (ws.filter Waybill.urgent).length)

/-- Store a waybill. -/
def Module.setWaybill (m : Module) (id : Nat) (w : Waybill) : Module :=
  ({ m with waybills := Map.insert m.waybills id w }).mirrorWaybills w.ten

/-! ## Pages of a window (R185, R187) -/

/-- The KV pages, and the translation pages of their scale bytes, that positions up to `q` need: addresses of 64 KiB pages,
for SLOTS slots of 2^P pages in a window of 2^k bytes. -/
def windowPages (base k slots p q : Nat) : List Nat :=
  let gs := List.range (q / 256 + 1)
  (List.range slots).flatMap (fun s =>
    gs.map (fun g => base + 2 ^ (k - 1) + (s * 2 ^ p + g) * 65536)
    ++ (gs.map (fun g => (base + 0x210000 + (s * 2 ^ p + g) * 2048) / 65536 * 65536)).foldl
        (fun a x => if a.contains x then a else a ++ [x]) [])

/-- Map the pages of a list that are not mapped yet, adding them to the engine's own list. Fails with none where the pool or
the quota cannot supply a page, and with the fault where translation reports one. -/
def Module.mapPages (m : Module) (ten : Nat) : List Nat → List (Nat × Nat) → Except (Option Fail) Unit × List (Nat × Nat) × Module
  | [], own => (.ok (), own, m)
  | va :: rest, own =>
    if own.any (fun p => p.1 == va) then m.mapPages ten rest own
    else
      match m.walk ten va true with
      | .ok _ => m.mapPages ten rest own
      | .error e =>
        if e.kind = 1 ∧ m.flag Fld.XLT_TEN_ROOT_ENABLE ten then
          match m.mapPage ten va with
          | some (f, m) => m.mapPages ten rest (own ++ [(va, f)])
          | none => (.error none, own, m)
        else (.error (some ⟨e.status, e.kind, va⟩), own, m.recordWalk ten va e)

/-- Unmap and free pages of the engine's own (R193, R206). -/
def Module.dropPages (m : Module) (ten : Nat) (pages : List (Nat × Nat)) : Module :=
  (pages.foldl (fun m p => m.unmapPage ten p.1) m).releaseFrames ten (pages.map (·.2))

/-- Take the page list kept for a window base, if there is one (R207). -/
def Module.takeKept (m : Module) (t : Ten) (base : Nat) : List (Nat × Nat) × Module :=
  let mine := fun (x : Ten × Nat × List (Nat × Nat)) => x.1 == t && x.2.1 == base
  ((m.kept.filter mine).flatMap (fun x => x.2.2), { m with kept := m.kept.filter (fun x => !mine x) })

/-- Keep a page list for a window base (R206). -/
def Module.keepPages (m : Module) (t : Ten) (base : Nat) (pages : List (Nat × Nat)) : Module :=
  if pages.isEmpty then m else { m with kept := m.kept ++ [(t, base, pages)] }

/-! ## Completions and the freeing of an entry (R191, R193) -/

/-- A waybill completion record (R191). -/
def waybillRecord (id status state length index cause : Nat) : List Byte :=
  leBytes 2 id ++ [byteOf status, byteOf state] ++ leBytes 4 length ++ leBytes 4 index ++ [byteOf cause, 0, 0, 0]

/-- Post a waybill completion and release its reservation (R346, R348). -/
def Module.postWaybill (m : Module) (g : Nat) (bs : List Byte) : Module :=
  let m := m.unreserve g 1
  if m.ringEnabled g && m.ringType g == ringType.completion && m.ringState g != 2 then m.postEntry g bs else m

/-- The GROUP of the generation route of a tenancy in force, 0 where it runs alone. -/
def Module.groupOf (m : Module) (t : Ten) : Nat :=
  ((m.routes.find? (fun p => p.2.ten == t && !p.2.learning && p.2.state != .loaded)).map (fun p => p.2.gen.group)).getD
    (m.fld Fld.WBL_TEN_GROUP_GROUP t.val)

/-- Release the pages of a waybill, and in a group place a RELEASE entry for it in the next slot (R208). [log 62 DEDUCED] -/
def Module.releaseWindow (m : Module) (id : Nat) (w : Waybill) : Module :=
  let m := m.dropPages w.ten.val w.pages
  if w.pages.isEmpty || m.groupOf w.ten == 0 then m
  else { m with notices := m.notices ++ [(w.ten, id, w.window, w.wlog2)] }

/-- Free an entry whose pages are dealt with. -/
def Module.freeWaybill (m : Module) (id : Nat) (t : Ten) : Module :=
  (({ m with waybills := Map.erase m.waybills id }).addFld Fld.WBL_FREE_FREE 0 0).mirrorWaybills t

/-- Post the completion of an ending and free the entry and its pages. -/
def Module.completeWaybill (m : Module) (id : Nat) (w : Waybill) (status state cause : Nat) : Module :=
  let m := m.postWaybill w.comp (waybillRecord id status state w.length w.index cause)
  (m.releaseWindow id w).freeWaybill id w.ten

/-- Return the room reserved for the waybill's step (R197). -/
def Module.returnRoom (m : Module) (w : Waybill) : Module :=
  match m.caravanOf w.ten w.caravan with
  | some k => m.cvnReturn k w.reserved
  | none => m

/-! ## The sequence-end record (R221, R222) -/

/-- ACTIVE of the tenancy's weight record, 0 without one. -/
def Module.activeVersion (m : Module) (ten : Nat) : BitVec 16 := ((m.wrec ten).map (fun w => w.active)).getD 0

/-- The two slots of a sequence-end record. -/
def seqEnd (id : Nat) (w : Waybill) (cause status : Nat) (version : BitVec 16) : List (List Byte) :=
  let last := if w.firstPos.isSome then w.last else version
  let oldest := if w.firstPos.isSome then w.oldest else version
  [leBytes 4 (cause + (w.flagsOr % 128) * 2 ^ 20 + 2 ^ 31) ++ leBytes 2 id ++ leBytes 2 last.toNat ++ leBytes 4 w.length
    ++ leBytes 4 w.prompt,
   leBytes 4 (w.wbase + w.wlog2 * 2 ^ 22) ++ leBytes 4 (w.firstPos.getD w.length) ++ leBytes 4 0
    ++ leBytes 2 oldest.toNat ++ [0, byteOf status]]

/-- The waybill ends without a sequence-end record: its pin is removed (R217). -/
def Module.unpin (m : Module) (id : Nat) (w : Waybill) : Module :=
  match (m.caravans.find? (fun p => m.fld Fld.CVN_RING_CFG_RING p.1 == w.caravan
      && m.fld Fld.CVN_RING_CFG_TENANCY p.1 == w.ten.val)).map (·.1) with
  | some k =>
    let m := m.cvnUnpin k id
    if m.flag Fld.CVN_RING_CFG_ENABLE k then m.cvnPublish w.ten k else m
  | none => m

/-- Write the sequence-end record of a waybill to its ring, if that is enabled (R205, R221, R222); where none can be written, its
pin is removed (R217). -/
def Module.writeSeqEnd (m : Module) (id : Nat) (w : Waybill) (cause : Nat) (version : BitVec 16) : Module :=
  match m.caravanOf w.ten w.caravan with
  | none => m.unpin id w
  | some k =>
    let none' := ((m.caravan k).map (fun c => c.unrewarded)).getD false || (cause != 1 && cause != 2)
    let status := if none' then 2 else 0
    match m.cvnAppend w.ten k (seqEnd id w cause status version) with
    | (none, m) => m.unpin id w
    | (some slot, m) =>
      let oldest := if w.firstPos.isSome then w.oldest else version
      m.cvnEnded w.ten k ⟨slot, none, id, status, cause, w.length, oldest, none⟩

/-- Record how a waybill ends in its entry. -/
def Waybill.ended (w : Waybill) (state c : Nat) : Waybill :=
  { w.setState state with image := putAt (w.setState state).image 35 [byteOf c] }

/-- A waybill ends while its step is processed: its sequence-end record uses the room reserved, then the completion is posted
and the entry freed (R205). The caller returns the room and publishes the ring. -/
def Module.endInStep (m : Module) (id : Nat) (w : Waybill) (state c status : Nat) (version : BitVec 16) : Module :=
  let w := w.ended state c
  (m.writeSeqEnd id w c version).completeWaybill id w status state c

/-- A waybill that ended outside a step gets its sequence-end record once its ring has room, then its completion; a ring that
is disabled gets no record (R205, R219). -/
def Module.settleEnding (m : Module) (id : Nat) : Module :=
  match m.waybill id with
  | none => m
  | some w =>
    match w.ending with
    | none => m
    | some status =>
      let c := w.bits 35 1 0 8
      match m.caravanOf w.ten w.caravan with
      | none => (m.unpin id w).completeWaybill id w status wst.error c
      | some k =>
        if ((m.caravan k).map (fun x => m.cvnRoom k x)).getD 0 < 2 then m.starve k
        else ((m.writeSeqEnd id w c w.endVersion).cvnPublish w.ten k).completeWaybill id w status wst.error c

/-- End a waybill as ERROR outside the processing of a step (R205): it is fed no further from here. -/
def Module.endOutside (m : Module) (id : Nat) (w : Waybill) (c status : Nat) : Module :=
  let w := { w.ended wst.error c with
    ending := some status, endVersion := m.activeVersion w.ten.val, action := none }
  (m.setWaybill id w).settleEnding id

/-- End a waybill with no record: a disagreeing pair (R189), or a write fault of its ring (R219). -/
def Module.endSilent (m : Module) (id : Nat) (w : Waybill) (c status : Nat) : Module :=
  let w := w.ended wst.error c
  (m.unpin id w).completeWaybill id w status wst.error c

/-- Check the critical words of a live entry as it is used; a disagreement ends the waybill (R189). -/
def Module.checkPairs (m : Module) (id : Nat) (w : Waybill) : Bool × Module :=
  let m := m.probe Kind.WBL_PAIR w.ten.val id
  if imgPairs w.image then (true, m)
  else (false, ((m.returnRoom w).endSilent id w cause.pair st.data).raise Kind.WBL_PAIR w.ten.val id)

/-! ## Pauses (R206) -/

/-- A pause takes effect: the summary is written, the pages are kept or released, the completion is posted and the entry
freed. A fault of the summary write ends the waybill as ERROR. -/
def Module.pauseWaybill (m : Module) (id : Nat) (w : Waybill) (keep : Bool) (c : Nat) : Module :=
  let w1 := (w.ended wst.paused c).put 34 1 4 3 0
  let w1 := w1.put 33 1 3 1 (if keep then 1 else 0)
  match m.writeVA .wbl w.ten.val (w.window + 0x200000) w1.image with
  | (.error e, m) => m.endOutside id w cause.fault e.status
  | (.ok _, m) =>
    let m := m.unpin id w
    let m := if keep then m.keepPages w.ten w.window w.pages else m.releaseWindow id w
    let m := m.postWaybill w.comp (waybillRecord id (causeStatus c) wst.paused w.length w.index c)
    m.freeWaybill id w.ten

/-- A pending or immediate action takes effect (R192). -/
def Module.applyAction (m : Module) (id : Nat) (w : Waybill) (a : Nat) : Module :=
  match a with
  | 1 => m.pauseWaybill id w true cause.hostPause
  | 2 => m.pauseWaybill id w false cause.hostPause
  | 3 => m.endOutside id w cause.abort st.aborted
  | _ => m

/-! ## Slots (R198, R199) -/

/-- Fields of a ragged entry. -/
def rag.waybill (e : RagEntry) : Nat := fieldAt e 0 2
def rag.kind (e : RagEntry) : Nat := fieldAt e 2 1
def rag.sample (e : RagEntry) : Bool := imgBits e 3 1 0 1 == 1
def rag.score (e : RagEntry) : Bool := imgBits e 3 1 1 1 == 1
def rag.pos (e : RagEntry) : Nat := fieldAt e 4 4
def rag.count (e : RagEntry) : Nat := fieldAt e 8 2
def rag.drafts (e : RagEntry) : Nat := fieldAt e 10 1
def rag.draftMax (e : RagEntry) : Nat := fieldAt e 11 1
def rag.window (e : RagEntry) : Nat := fieldAt e 16 8
def rag.scoreFrom (e : RagEntry) : Nat := fieldAt e 24 4
def rag.wlog2 (e : RagEntry) : Nat := fieldAt e 44 1

/-- Pages of an entry per slot: ⌈(POS + COUNT) ÷ 256⌉, none for RELEASE. -/
def rag.pages (e : RagEntry) : Nat := if rag.kind e = 3 then 0 else (rag.pos e + rag.count e + 255) / 256

/-- The bytes of a slot: header and entries (R199). -/
def slotBytes (step : Word64) (es : List RagEntry) : List Byte :=
  leBytes 8 step.toNat ++ leBytes 2 es.length ++ [0, 0] ++ leBytes 4 (es.map rag.count).sum ++ leBytes 4 (es.map rag.pages).sum
    ++ List.replicate 44 0 ++ es.flatten

/-- The slot of a step. -/
def Route.slotOf (r : Route) (step : Word64) : Option GenSlot := r.slots.find? (fun s => s.step == step)

/-- PAGES of the slot of a step. -/
def Route.slotPages (r : Route) (step : Word64) : Nat :=
  ((r.slotOf step).map (fun s => (s.entries.map rag.pages).sum)).getD 0

/-- The head stage of a generation route: the lowest LAYER_FIRST, or stage 0 where no stage carries layers. -/
def Route.head (r : Route) : Nat := r.headStage.getD 0

/-- The head stage and the paged stages wait for the slot of the step (R198, R202, R208). -/
def Route.slotHolds (r : Route) (i : Nat) (step : Word64) : Bool :=
  let paged := (r.stages[i]?.map (fun sg => pagedStage r sg)).getD false
  !r.learning && (r.head == i || paged) && decide (r.nextBuild ≤ step || (r.slotOf step).any (fun s => !s.ready))

/-- A waybill leaves a step that is discarded: its room is returned, it keeps its state, and a pending action takes effect (R192,
R198). -/
def Module.leaveStep (m : Module) (id : Nat) (w : Waybill) : Module :=
  let act := w.action
  let m := m.returnRoom w
  let w := { w with step := none, reserved := 0, action := none }
  let m := m.setWaybill id w
  match act with
  | none => m
  | some a =>
    match m.checkPairs id w with
    | (false, m) => m
    | (true, m) => m.applyAction id w a

/-- The slots of a route that is unloaded are discarded (R198). -/
def Module.dropSlots (m : Module) (r : Route) : Module :=
  let m := r.slots.foldl (fun m s =>
    (m.waybills.filter (fun p => p.2.ten == r.ten && p.2.step == some s.step)).foldl (fun m p => m.leaveStep p.1 p.2) m) m
  m.mirrorFill r.ten

end Sys2Proof.Machine
end

