-- ==== Sys2Proof/Machine/LearnOps.lean ====
section
/-! DEFINITION. Machine/LearnOps.lean: the settings and checks of a scheduled route (R231 to R236), the schedule of a stage
(R232, R233), the hold at the step boundary, the zeroing of gradient areas, and the consumption of a batch (R230, R234,
R235). -/

namespace Sys2Proof.Machine

/-! ## Scheduled routes (R231) -/

/-- The stage is scheduled. -/
def Route.isScheduled (r : Route) (i : Nat) : Bool := (r.stages[i]?.map (fun sg => scheduledStage r sg)).getD false

/-- Scheduled stages of a route, ascending. -/
def Route.scheduled (r : Route) : List Nat := (List.range r.stages.length).filter r.isScheduled

/-- The route is a scheduled route. -/
def Route.isLearner (r : Route) : Bool := !r.scheduled.isEmpty

/-- Kind of a stage. -/
def Route.kindOf (r : Route) (i : Nat) : Nat := (r.stages[i]?.map (fun sg => sg.kind)).getD 0
/-- BRANCH of a stage. -/
def Route.branchOf (r : Route) (i : Nat) : Nat := (r.stages[i]?.map (fun sg => sg.branch)).getD 0

/-- The pipeline ranks: scheduled LEARNER stages with BRANCH 0, ascending (R231). -/
def Route.ranks (r : Route) : List Nat := r.scheduled.filter (fun i => r.kindOf i == 6 && r.branchOf i == 0)

/-- Quotient rounded up; a divisor of 0 acts as 1. -/
def ceilDiv (a b : Nat) : Nat := (a + max 1 b - 1) / max 1 b

/-- Micro-batches of a batch, raised to a multiple of P where V > 1 (R232). -/
def raiseMicro (m p v : Nat) : Nat := if 1 < v then ceilDiv m p * max 1 p else m

/-! ## ROUTE_START of a scheduled route (R233, R236) -/

/-- The settings that a ROUTE_START puts in force (R242), but for the schedule table. -/
def Module.learnCfg (m : Module) (ten : Nat) (table : Option (List (Nat × Nat))) : LearnCfg where
  batch := m.fld Fld.LRN_TEN_BATCH_VA ten
  slotLog2 := m.fld Fld.LRN_TEN_SLOT_SLOT_LOG2 ten
  depth := m.fld Fld.LRN_TEN_SLOT_DEPTH ten
  chunks := m.fld Fld.LRN_TEN_SCHED_CTL_CHUNKS ten
  refEn := m.flag Fld.LRN_TEN_SCHED_CTL_REF_EN ten
  table := table
  grads := ((List.range 4).filter (fun a => m.flag Fld.LRN_TEN_GRAD_LEN_ZERO_EN ten a)).map (fun a =>
    (m.flag Fld.LRN_TEN_GRAD_ADDR_TIER ten a, m.fld Fld.LRN_TEN_GRAD_ADDR_ADDR ten a, m.fld Fld.LRN_TEN_GRAD_LEN_BYTES ten a))

/-- The register checks of R236. -/
def Module.learnOk (m : Module) (r : Route) : Bool :=
  let t := r.ten.val
  let log := m.fld Fld.LRN_TEN_SLOT_SLOT_LOG2 t
  let d := m.fld Fld.LRN_TEN_SLOT_DEPTH t
  let seqs := m.fld Fld.LRN_TEN_LIMITS_BATCH_SEQS t
  let rows := max (m.fld Fld.LRN_TEN_LIMITS_BATCH_TOKENS t) 262144
  let mb := m.fld Fld.LRN_TEN_LIMITS_MB_TOKENS t
  let v := m.fld Fld.LRN_TEN_SCHED_CTL_CHUNKS t
  let len := m.fld Fld.LRN_TEN_SCHED_LEN_ENTRIES t
  decide (24 ≤ log) && decide (log ≤ 28) && decide (2 ≤ d) && decide (d ≤ 8)
    && m.fld Fld.LRN_TEN_BATCH_VA t % 2 ^ log == 0 && decide (1 ≤ seqs) && decide (seqs ≤ 1023)
    && decide (0x20000 + 32 * rows ≤ 2 ^ log)
    && decide (raiseMicro (ceilDiv rows mb) r.ranks.length v ≤ 4096)
    && !r.ranks.isEmpty && decide (1 ≤ v) && decide (v ≤ 64)
    && (!m.flag Fld.LRN_TEN_SCHED_CTL_MODE t || (decide (1 ≤ len) && decide (len ≤ 1048576)))

/-- An entry of the schedule table is admitted (R233, R236). -/
def Route.entryOk (r : Route) (v : Nat) (e : Nat × Nat) : Bool :=
  r.isScheduled e.2 && decide (bitsAt e.1 29 3 < 4) && decide (bitsAt e.1 23 6 < v)

/-- The tenancy already runs a scheduled route. -/
def Module.runsLearner (m : Module) (n : Nat) (t : Ten) : Bool :=
  m.routes.any (fun p => p.1 != n && p.2.ten == t && p.2.isLearner && (p.2.state == .running || p.2.state == .stopping))

/-- The checks of R236 and the module's own copy of the schedule table; the first failure. -/
def Module.learnStart (m : Module) (n : Nat) (r : Route) : Except Fail LearnCfg × Module :=
  let t := r.ten.val
  if !m.learnOk r then (.error ⟨st.check, 0, 0⟩, m)
  else if !m.flag Fld.LRN_TEN_SCHED_CTL_MODE t then
    if m.runsLearner n r.ten then (.error ⟨st.resource, 0, 0⟩, m) else (.ok (m.learnCfg t none), m)
  else
    let len := m.fld Fld.LRN_TEN_SCHED_LEN_ENTRIES t
    match m.readVA .lrn t (m.fld Fld.LRN_TEN_SCHED_VA_VA t) (8 * len) with
    | (.error e, m) => (.error e, m)
    | (.ok bs, m) =>
      let table := (List.range len).map (fun i => (fieldAt bs (8 * i) 4, fieldAt bs (8 * i + 4) 2))
      if !table.all (r.entryOk (m.fld Fld.LRN_TEN_SCHED_CTL_CHUNKS t)) then (.error ⟨st.check, 0, 0⟩, m)
      else if m.runsLearner n r.ten then (.error ⟨st.resource, 0, 0⟩, m)
      else (.ok (m.learnCfg t (some table)), m)

/-! ## The schedule (R231 to R233) -/

/-- OP of an operation. -/
def opWord (kind chunk micro : Nat) : Nat := kind * 2 ^ 29 + chunk * 2 ^ 23 + micro

/-- Micro-batch and chunk of the k-th forward operation. -/
def fwdOp (p v k : Nat) : Nat × Nat := (k / (p * v) * p + k % p, k / p % v)
/-- Micro-batch and chunk of the k-th backward operation. -/
def bwdOp (p v k : Nat) : Nat × Nat := (k / (p * v) * p + k % p, v - 1 - k / p % v)

/-- A forward operation, with its REF before it where REF_EN is set. -/
def emitFwd (ref : Bool) (x : Nat × Nat) : List Nat :=
  (if ref then [opWord 2 x.2 x.1] else []) ++ [opWord 0 x.2 x.1]

/-- Operations that rank `s` runs before its first backward one. -/
def warmUp (p v mc s : Nat) : Nat :=
  if v = 1 then min (p - s - 1) mc else min ((p - s - 1) * 2 + (v - 1) * p) (mc * v)

/-- The operations of rank `s`, in order (R232). -/
def rankOps (p v mc s : Nat) (ref : Bool) : List Nat :=
  let warm := warmUp p v mc s
  let f := fun k => emitFwd ref (fwdOp p v k)
  let b := fun k => let x := bwdOp p v k; opWord 1 x.2 x.1
  (List.range warm).flatMap f
    ++ (List.range (mc * v - warm)).flatMap (fun i => f (warm + i) ++ [b i])
    ++ (List.range warm).map (fun i => b (mc * v - warm + i))

/-- The operations of a stage for a batch, without the end (R232, R233). -/
def Route.stageOps (r : Route) (cfg : LearnCfg) (b : Batch) (i : Nat) : List Nat :=
  match cfg.table with
  | some table =>
    (table.filter (fun e => e.2 == i && decide (bitsAt e.1 0 23 < b.micro.length))).map (·.1)
  | none =>
    let p := r.ranks.length
    let ops := fun s => rankOps p cfg.chunks b.micro.length s cfg.refEn
    if r.kindOf i = 7 then [opWord 3 0 0]
    else if r.branchOf i = 0 then ops ((r.ranks.takeWhile (fun j => j != i)).length)
    else (ops 0).filter (fun o => bitsAt o 23 6 == 0)

/-! ## The hold and the gradient areas (R234, R235) -/

/-- Make located pieces read as zero. -/
def Module.zeroLocs (m : Module) (ten : Nat) (ls : List (Loc × Nat)) : Module :=
  ls.foldl (fun m x =>
    match x.1 with
    | .host pa => m.writeLoc ten (.host pa) (List.replicate x.2 0)
    | .dram pa =>
      let m := m.countDram ten pa x.2
      let whole := fun (u : Nat) => decide (pa ≤ u * 64) && decide (u * 64 + 64 ≤ pa + x.2)
      { m with
        dram := Mem.zero m.dram pa x.2
        dramEcc := m.dramEcc.filter (fun p => !whole p.1)
        poison := m.poison.filter (fun p => !whole p.1) }) m

/-- Make Hold pieces read as zero. -/
def Module.zeroHold (m : Module) (ps : List (Nat × Nat)) : Module :=
  ps.foldl (fun m x =>
    let whole := fun (u : Nat) => decide (x.1 ≤ u * 8) && decide (u * 8 + 8 ≤ x.1 + x.2)
    { m with
      hold := Mem.zero m.hold x.1 x.2
      holdEcc := m.holdEcc.filter (fun p => !whole p.1)
      holdPoison := m.holdPoison.filter (fun p => !whole p.1) }) m

/-- Zero one gradient area; one that does not translate or that leaves the grant is left, its fault recorded. [log 70 DEDUCED] -/
def Module.zeroArea (m : Module) (ten : Nat) (a : Bool × Nat × Nat) : Module :=
  if a.1 then
    match m.holdRange ten a.2.1 a.2.2 true with
    | .error e => (m.holdRefuse ten a.2.1 e).2
    | .ok ps => (m.countHold ten a.2.2).zeroHold ps
  else
    match m.translateAll .lrn ten true (piecesOf a.2.1 a.2.2) with
    | (.error _, m) => m
    | (.ok ls, m) => m.zeroLocs ten ls

/-- Every cluster of a route has committed the step before `s`. -/
def Module.routePast (m : Module) (n : Nat) (s : Word64) : Bool := (m.clustersOf n).all (fun c => decide (s ≤ (m.cl c).step))

/-- A cluster of a scheduled route is held at its boundary (R234). -/
def Module.learnHolds (m : Module) (n : Nat) (r : Route) (step : Word64) : Bool :=
  r.isLearner && !(m.routePast n step && r.batches.any (fun b => b.step == step && b.zeroed))

/-- The uncommitted step runs again: its gradient areas are to be zeroed again (R235). -/
def Module.learnRerun (m : Module) (n : Nat) : Module :=
  m.setRoute n (fun r => { r with batches := r.batches.map (fun b => { b with zeroed := false }) })

/-! ## Consumption (R230) -/

/-- Remove the sequences of a batch, or of a list of them, from the rings of a tenancy, and publish those that are enabled. -/
def Module.dropSeqs (m : Module) (t : Ten) (gone : Nat → CSeq → Bool) : Module :=
  (m.caravansHeld t).foldl (fun m p =>
    match m.caravan p.1 with
    | none => m
    | some c =>
      let bad := c.seqs.any (gone p.1)
      if bad then (m.setCaravan p.1 { c with seqs := c.seqs.filter (fun q => !gone p.1 q) }).cvnPublish t p.1 else m) m

/-- BATCH_CONSUME (R230): every cluster has committed the step of the oldest batch. -/
def Module.consumeBatch (m : Module) (n : Nat) : Module :=
  match m.route n with
  | none => m
  | some r =>
    match r.batches.head? with
    | none => m
    | some b =>
      if !m.routePast n (b.step + 1) then m
      else
        let m := m.dropSeqs r.ten (fun _ q => q.batch == some b.step)
        let m := m.setFld Fld.LRN_TEN_SEQS_COUNT r.ten.val 0 (m.fld Fld.LRN_TEN_SEQS_COUNT r.ten.val + b.seqs)
        let m := m.setFld Fld.LRN_TEN_ROWS_COUNT r.ten.val 0 (m.fld Fld.LRN_TEN_ROWS_COUNT r.ten.val + b.rows)
        m.setRoute n (fun r => { r with batches := r.batches.tail })

end Sys2Proof.Machine
end

