-- ==== Sys2Proof/Machine/ColOps.lean ====
section
/-! DEFINITION. Machine/ColOps.lean: subgroups and ranks (R322, R323), contributions, chunks and the addition tree
(R324, R331, R73), and the lifetime of instances and bound slots (R328 to R336). -/

namespace Sys2Proof.Machine

/-! ## Subgroups and ranks (R322, R323) -/

def ColSpec.axis (c : ColSpec) (d : Nat) : Bool := bitsAt c.axes d 1 == 1

/-- Extent of the subgroup on an axis. -/
def Module.subExt (m : Module) (c : ColSpec) (d : Nat) : Nat :=
  if c.group != 0 && c.axis d then m.boxExt c.group d else 1

/-- Members of the subgroup. -/
def Module.subSize (m : Module) (c : ColSpec) : Nat := m.subExt c 0 * m.subExt c 1 * m.subExt c 2

/-- Offset of a coordinate on an axis. -/
def Module.subOff (m : Module) (c : ColSpec) (d coord : Nat) : Nat :=
  if c.group != 0 && c.axis d then m.linePosOf c.group d coord else 0

/-- Rank of the member at a coordinate. -/
def Module.rankAt (m : Module) (c : ColSpec) (x y z : Nat) : Nat :=
  m.subOff c 0 x + m.subExt c 0 * (m.subOff c 1 y + m.subExt c 1 * m.subOff c 2 z)

/-- This module's rank. -/
def Module.myRank (m : Module) (c : ColSpec) : Nat := m.rankAt c (m.coordOf c.ten 0) (m.coordOf c.ten 1) (m.coordOf c.ten 2)

/-- Coordinate of a rank on an axis. -/
def Module.rankCoord (m : Module) (c : ColSpec) (r d : Nat) : Nat :=
  let n0 := m.subExt c 0
  let n1 := m.subExt c 1
  let o := match d with
    | 0 => r % n0
    | 1 => r / n0 % n1
    | _ => r / n0 / n1
  if c.group != 0 && c.axis d then (boxLo c.group d + o) % m.dim d else m.coordOf c.ten d

/-- Module number of a rank. -/
def Module.rankModule (m : Module) (c : ColSpec) (r : Nat) : Nat :=
  m.rankCoord c r 2 * 256 + m.rankCoord c r 1 * 16 + m.rankCoord c r 0

/-- The rank of a module of the subgroup. -/
def Module.rankOf (m : Module) (c : ColSpec) (module : Nat) : Option Nat :=
  let r := m.rankAt c (numCoord module 0) (numCoord module 1) (numCoord module 2)
  if r < m.subSize c && m.rankModule c r == module then some r else none

/-- The box of the subgroup. -/
def Module.subBox (m : Module) (c : ColSpec) : Nat :=
  if c.group = 0 then 0
  else
    let lo := fun d => if c.axis d then boxLo c.group d else m.coordOf c.ten d
    let hi := fun d => if c.axis d then boxHi c.group d else m.coordOf c.ten d
    2 ^ 31 + lo 0 + hi 0 * 2 ^ 4 + lo 1 * 2 ^ 8 + hi 1 * 2 ^ 12 + lo 2 * 2 ^ 16 + hi 2 * 2 ^ 21

/-! ## Sizes (R324) -/

def ColSpec.fmt (c : ColSpec) : Fmt := (Fmt.ofCode c.format).getD .int8

/-- Bytes of a number of elements. -/
def ColSpec.bytesOf (c : ColSpec) (n : Nat) : Nat := n * c.fmt.bits / 8

def ColSpec.block (c : ColSpec) : Nat := c.bytesOf c.count

/-- The operation reduces. -/
def ColSpec.reduces (c : ColSpec) : Bool := c.op == 0 || c.op == 1

/-- Bytes of the source and of the destination, for a subgroup of `n`. -/
def ColSpec.srcBytes (c : ColSpec) (n : Nat) : Nat := if c.op == 0 || c.op == 2 then c.block else n * c.block
def ColSpec.dstBytes (c : ColSpec) (n : Nat) : Nat := if c.op == 0 || c.op == 1 then c.block else n * c.block

def ColSpec.size (c : ColSpec) (q : Nat) : Nat × Nat × Nat × Nat := c.sizes.getD q (0, 0, 0, 0)

/-- Start and length in the source of the contribution to rank `q`. -/
def ColSpec.part (c : ColSpec) (q : Nat) : Nat × Nat :=
  match c.op with
  | 0 | 2 => (0, c.block)
  | 1 | 3 => (q * c.block, c.block)
  | _ => (c.bytesOf (c.size q).1, c.bytesOf (c.size q).2.1)

/-- Start and length in the destination of what rank `q` sends, for the operations that move data. -/
def ColSpec.place (c : ColSpec) (q : Nat) : Nat × Nat :=
  match c.op with
  | 0 | 1 => (0, c.block)
  | 2 | 3 => (q * c.block, c.block)
  | _ => (c.bytesOf (c.size q).2.2.1, c.bytesOf (c.size q).2.2.2)

/-! ## Chunks (R331) -/

/-- Bytes of a chunk at most. -/
abbrev chunkBytes : Nat := 4096

/-- Cut a contribution of rank `r` into chunks. -/
def cutChunks (r : Nat) (bs : List Byte) : List Chunk :=
  (List.range ((bs.length + chunkBytes - 1) / chunkBytes)).map (fun k =>
    ⟨r, r, k * chunkBytes, (bs.drop (k * chunkBytes)).take chunkBytes⟩)

/-- DIGEST of R328: CRC-32C over OP, REDUCE, FORMAT, AXES, GROUP, NAME and COUNT. [log 95 DEDUCED] -/
def ColSpec.digest (c : ColSpec) : Nat :=
  crc32c ([byteOf c.op, byteOf c.reduce, byteOf c.format, byteOf c.axes] ++ leBytes 4 c.group ++ leBytes 4 c.name
    ++ leBytes 4 c.count)

/-- Header bytes 16 to 31 of a chunk. -/
def chunkHead (c : ColSpec) (step : Word64) (offset first last : Nat) : List Byte :=
  leBytes 4 c.name ++ leBytes 4 step.toNat ++ leBytes 4 offset ++ leBytes 2 first ++ leBytes 2 last

/-- The payload of a chunk packet: data and trailer. -/
def chunkPayload (c : ColSpec) (head data : List Byte) (late : Nat) : List Byte :=
  let t := leBytes 4 c.digest ++ leBytes 2 late ++ [0, 0]
  data ++ t ++ leBytes 4 (crc32c (data ++ head ++ t))

/-- Send one chunk to a rank. -/
def Module.sendChunk (m : Module) (t : Ten) (c : ColSpec) (step : Word64) (q : Nat) (k : Chunk) : Module :=
  let head := chunkHead c step k.offset k.first k.last
  let m := m.addFld Fld.COL_TEN_BYTES_BYTES t.val 0 k.data.length
  let m := m.count 0x0C01 t.val 1
  m.sendLink t.val (m.rankModule c q) 2 (leNat head) (chunkPayload c head k.data (m.myRank c))

/-- A request for chunks again carries no data; OFFSET 0xFFFF_FFFF asks for every chunk of the producer's contribution, and
0xFFFF_FFFE answers that it is lost. -/
abbrev offsetAll : Nat := 0xFFFFFFFF
abbrev offsetLost : Nat := 0xFFFFFFFE

/-- Send a request, or the answer that it cannot be served, to a rank. [log 96 DEDUCED] -/
def Module.sendAsk (m : Module) (t : Ten) (c : ColSpec) (step : Word64) (q offset first last : Nat) : Module :=
  let head := chunkHead c step offset first last
  m.sendLink t.val (m.rankModule c q) 2 (leNat head) (chunkPayload c head [] (m.myRank c))

/-! ## The addition tree (R73, R325) -/

/-- The operand that is the result of MAX or MIN: exact, so its own code; NaN is the canonical one (R59, R325). -/
def ColSpec.pick (c : ColSpec) (x y : Nat) (r : Ex) : Nat :=
  if r = .nan then (c.fmt.encode r).1
  else if r = c.fmt.decode x then x
  else if r = c.fmt.decode y then y
  else (c.fmt.encode r).1

/-- Combine two elements in the data's own format. -/
def ColSpec.join (c : ColSpec) (x y : Nat) : Nat :=
  let a := c.fmt.decode x
  let b := c.fmt.decode y
  match c.reduce with
  | 0 => (c.fmt.encode (a.add b)).1
  | 1 => c.pick x y (a.max b)
  | _ => c.pick x y (a.min b)

/-- Combine two runs of bytes element by element. -/
def ColSpec.joinBytes (c : ColSpec) (xs ys : List Byte) : List Byte :=
  let e := max 1 (c.fmt.bits / 8)
  (List.range (xs.length / e)).flatMap (fun i => leBytes e (c.join (fieldAt xs (i * e) e) (fieldAt ys (i * e) e)))

/-- Nodes of a level of the tree over `n` ranks. -/
def levelSize (n j : Nat) : Nat := (n + 2 ^ j - 1) / 2 ^ j

/-- The value of node `k` of level `j`: a partial sum that covers exactly its ranks, or the combination of its halves; an
unpaired node moves up unchanged. -/
def ColSpec.node (c : ColSpec) (n : Nat) (ks : List Chunk) : Nat → Nat → Option (List Byte)
  | j, k =>
    let lo := k * 2 ^ j
    let hi := min (n - 1) (lo + 2 ^ j - 1)
    match ks.find? (fun (x : Chunk) => x.first == lo && x.last == hi) with
    | some x => some x.data
    | none =>
      match j with
      | 0 => none
      | j' + 1 =>
        if 2 * k + 1 < levelSize n j' then
          match c.node n ks j' (2 * k), c.node n ks j' (2 * k + 1) with
          | some a, some b => some (c.joinBytes a b)
          | _, _ => none
        else c.node n ks j' (2 * k)

/-- The reduction over every rank of the chunks at an offset. -/
def ColSpec.reduceAt (c : ColSpec) (n : Nat) (ks : List Chunk) (offset : Nat) : Option (List Byte) :=
  c.node n (ks.filter (fun (x : Chunk) => x.offset == offset)) (Nat.log2 n + 1) 0

/-- Join results, or none where one lacks. -/
def allOrNone : List (Option (List Byte)) → Option (List Byte)
  | [] => some []
  | none :: _ => none
  | some a :: rest => (allOrNone rest).map (fun b => a ++ b)

/-- Offsets of the chunks of a run. -/
def offsetsOf (len : Nat) : List Nat := (List.range ((len + chunkBytes - 1) / chunkBytes)).map (fun k => k * chunkBytes)

/-- The bytes that a moving operation takes from rank `q`. -/
def ColSpec.runOf (c : ColSpec) (ks : List Chunk) (q : Nat) : Option (List Byte) :=
  allOrNone ((offsetsOf (c.place q).2).map (fun o =>
    (ks.find? (fun (x : Chunk) => x.first == q && x.last == q && x.offset == o)).map (·.data)))

/-- The destination, as start and bytes of each run, once every input is there (R333). -/
def ColSpec.result (c : ColSpec) (n : Nat) (ks : List Chunk) : Option (List (Nat × List Byte)) :=
  if c.reduces then (allOrNone ((offsetsOf c.block).map (c.reduceAt n ks))).map (fun b => [(0, b)])
  else
    (List.range n).foldr (fun q acc =>
      match acc, c.runOf ks q with
      | some rs, some b => some (if b.isEmpty then rs else ((c.place q).1, b) :: rs)
      | _, _ => none) (some [])

/-! ## Sources and destinations -/

/-- Read bytes of the source. -/
def Module.readSrc (m : Module) (t : Ten) (c : ColSpec) (off n : Nat) : Except Fail (List Byte) × Module :=
  if c.srcHold then m.readHold .col t.val (c.src + off) n else m.readVA .col t.val (c.src + off) n

/-- Write a run of the destination. -/
def Module.writeDst (m : Module) (t : Ten) (c : ColSpec) (off : Nat) (bs : List Byte) : Except Fail Unit × Module :=
  if c.dstHold then m.writeHold t.val (c.dst + off) bs else m.writeVA .col t.val (c.dst + off) bs

/-- Write every run; the first failure ends it. -/
def Module.writeRuns (m : Module) (t : Ten) (c : ColSpec) : List (Nat × List Byte) → Except Fail Unit × Module
  | [] => (.ok (), m)
  | (o, bs) :: rest =>
    match m.writeDst t c o bs with
    | (.ok _, m) => m.writeRuns t c rest
    | r => r

/-! ## Undefined data (R337) -/

/-- Source and destination overlap, other than in place under ALL_REDUCE. -/
def ColSpec.overlaps (c : ColSpec) (n : Nat) : Bool :=
  c.srcHold == c.dstHold && decide (c.src < c.dst + c.dstBytes n) && decide (c.dst < c.src + c.srcBytes n)
    && !(c.op == 0 && c.src == c.dst)

/-- The source of a started instance has been written: what this member contributes to itself is no longer there. -/
def Module.srcWritten (m : Module) (x : Inst) : Bool :=
  let r := m.myRank x.spec
  (x.got.filter (fun (k : Chunk) => k.first == r && k.last == r)).any (fun (k : Chunk) =>
    match (m.readSrc x.ten x.spec ((x.spec.part r).1 + k.offset) k.data.length).1 with
    | .ok bs => bs != k.data
    | .error _ => false)

/-- The data of an instance are undefined. -/
def Module.colUndefined (m : Module) (x : Inst) : Bool := x.spec.overlaps (m.subSize x.spec) || m.srcWritten x

/-- Runs with free bytes in place of theirs: the undefined data of R337. [log 190 DESIGN CHOICE] -/
def freeRuns (ix : Nat) (runs : List (Nat × List Byte)) : List (Nat × List Byte) :=
  runs.map (fun r => (r.1, (List.range r.2.length).map (fun i => Config.undefinedByte ix (r.1 + i))))

/-! ## Instances and slots -/

def slotKey (t : Ten) (k : Nat) : Nat := 256 * t.val + k

def Module.slot? (m : Module) (t : Ten) (k : Nat) : Option BoundSlot := Map.get? m.slots (slotKey t k)
def Module.putSlot (m : Module) (t : Ten) (k : Nat) (b : BoundSlot) : Module :=
  { m with slots := Map.insert m.slots (slotKey t k) b }

/-- Instances in flight: started, or of a ONCE command; what early chunks have brought of a bound instance is not one yet. -/
def Module.colsInflight (m : Module) : List Inst := m.insts.filter (fun (x : Inst) => x.started || x.cmd.isSome)

/-- Instances of a tenancy in flight. -/
def Module.inflightCols (m : Module) (t : Ten) : Nat := (m.colsInflight.filter (fun (x : Inst) => x.ten == t)).length

def Module.boundSlots (m : Module) (t : Ten) : Nat := (m.slots.filter (fun p => p.1 / 256 == t.val)).length

/-- Keep COL_TEN_ACTIVE in line. -/
def Module.mirrorCol (m : Module) (t : Ten) : Module :=
  (m.setFld Fld.COL_TEN_ACTIVE_INFLIGHT t.val 0 (m.inflightCols t)).setFld Fld.COL_TEN_ACTIVE_BOUND t.val 0 (m.boundSlots t)

/-- The same instance. -/
def Inst.same (a b : Inst) : Bool :=
  a.ten == b.ten && a.spec.group == b.spec.group && a.spec.axes == b.spec.axes && a.spec.name == b.spec.name && a.step == b.step

/-- Replace an instance, or list it. -/
def Module.putInst (m : Module) (x : Inst) : Module :=
  if m.insts.any x.same then { m with insts := m.insts.map (fun y => if x.same y then x else y) }
  else { m with insts := m.insts ++ [x] }

/-- Forget an instance; a ONCE instance gives its receive space back. -/
def Module.dropInst (m : Module) (x : Inst) : Module :=
  let m := { m with insts := m.insts.filter (fun y => !x.same y) }
  (m.releaseFrames x.ten.val x.frames).mirrorCol x.ten

/-- Free a bound slot and its space; the commands that wait on it end OK. -/
def Module.freeSlot (m : Module) (t : Ten) (k : Nat) : Module :=
  match m.slot? t k with
  | none => m
  | some b =>
    let m := { m with slots := Map.erase m.slots (slotKey t k) }
    let m := (m.releaseFrames t.val b.frames).mirrorCol t
    match b.unbind with
    | some id => m.finish id st.ok
    | none => m

/-- The UNBIND that waits completes once no instance of the slot is in flight (R330). -/
def Module.checkUnbind (m : Module) (t : Ten) (k : Nat) : Module :=
  match m.slot? t k with
  | none => m
  | some b =>
    if b.unbind.isSome && !m.insts.any (fun (x : Inst) => x.ten == t && x.slot == some k && x.started) then
      let m := { m with insts := m.insts.filter (fun (x : Inst) => !(x.ten == t && x.slot == some k)) }
      m.freeSlot t k
    else m

/-- Cancel every instance of a tenancy and unbind its slots; `abort` ends the ONCE commands ABORTED (R336). -/
def Module.cancelCols (m : Module) (t : Ten) (abort : Bool) : Module :=
  let mine := m.insts.filter (fun (x : Inst) => x.ten == t)
  mine.foldl (fun m x =>
    let m := m.dropInst x
    match x.cmd with
    | some id => if abort then m.finish id st.aborted else m
    | none => m) m

/-- Unbind every slot of a tenancy, or of one of its routes: instances are cancelled on this member (R330, R336). -/
def Module.unbindSlots (m : Module) (t : Ten) (route : Option Nat) : Module :=
  m.slots.foldl (fun m p =>
    let k := p.1 % 256
    if p.1 / 256 == t.val && (route.isNone || route == some p.2.route) then
      let xs := m.insts.filter (fun (x : Inst) => x.ten == t && x.slot == some k)
      let m := xs.foldl (fun m x => m.dropInst x) m
      let m := match p.2.cmd with
        | some id => m.finish id st.aborted
        | none => m
      m.freeSlot t k
    else m) m

/-- A step of a bound slot is not committed: some participant of its trigger has it, or an earlier step, to run. -/
def Module.stepOpen (m : Module) (b : BoundSlot) (step : Word64) : Bool :=
  match (m.route b.route).bind (fun r => r.barriers[b.trigger]?) with
  | none => true
  | some w => (m.clustersOf b.route).any (fun c =>
      bitsAt w.stageMask (m.cl c).stage 1 == 1 && decide ((m.cl c).step ≤ step))

/-- The destination of a bound slot lies in a SCRATCH buffer of its route (R334). -/
def Module.inScratch (m : Module) (b : BoundSlot) (n : Nat) : Bool :=
  match m.route b.route with
  | none => true
  | some r => r.buffers.any (fun (u : Buffer) => u.cls == 1 && decide (u.tier ≤ 1) == b.spec.dstHold && decide (u.addr ≤ b.spec.dst)
      && decide (b.spec.dst + b.spec.dstBytes n ≤ u.addr + u.bytes))

/-- After a kill the contents of a bound destination outside a SCRATCH buffer are undefined (R337). -/
def Module.loseDst (m : Module) (t : Ten) (b : BoundSlot) : Module :=
  let n := m.subSize b.spec
  if m.inScratch b n then m
  else (m.drawn.writeRuns t b.spec (freeRuns m.freeIx [(0, List.replicate (b.spec.dstBytes n) 0)])).2

/-- A kill cancels the instances of the killed steps; the re-run starts them again (R334). -/
def Module.colKill (m : Module) (n : Nat) : Module :=
  m.slots.foldl (fun m p =>
    let b := p.2
    let k := p.1 % 256
    let t : Ten := Fin.ofNat 101 (p.1 / 256)
    if b.route != n then m
    else
      let killed := fun (x : Inst) => x.ten == t && x.slot == some k && x.started && m.stepOpen b x.step
      let m := if m.insts.any killed then m.loseDst t b else m
      let m := { m with insts := m.insts.filter (fun (x : Inst) => !killed x) }
      let last := match b.last with
        | some s => if m.stepOpen b s then none else some s
        | none => none
      ((m.putSlot t k { b with due := b.due.filter (fun s => !m.stepOpen b s), last := last }).mirrorCol t).checkUnbind t k) m

/-! ## Running an instance -/

/-- Send this member's contributions to every other rank. [log 94 DEDUCED] -/
def Module.sendParts (m : Module) (x : Inst) (image : List Byte) : Module :=
  let c := x.spec
  let r := m.myRank c
  ((List.range (m.subSize c)).filter (· != r)).foldl (fun m q =>
    let (o, len) := c.part q
    (cutChunks r ((image.drop o).take len)).foldl (fun m k => m.sendChunk x.ten c x.step q k) m) m

/-- Start an instance: the source is read, retained under BIND, kept as the own input and sent (R329, R330). A failed read
answers its failure. -/
def Module.runInst (m : Module) (x : Inst) : Option Fail × Module :=
  let c := x.spec
  match m.readSrc x.ten c 0 (c.srcBytes (m.subSize c)) with
  | (.error e, m) => (some e, m)
  | (.ok image, m) =>
    let r := m.myRank c
    let (o, len) := c.part r
    let x := { x with started := true, sent := true, got := x.got ++ cutChunks r ((image.drop o).take len) }
    let m := (m.putInst x).mirrorCol x.ten
    let m := match x.cmd with
      | some id => m.commitCmd id
      | none => m
    let m := match x.slot with
      | none => m
      | some k =>
        match m.slot? x.ten k with
        | none => m
        | some b => m.putSlot x.ten k { b with
            retained := (b.retained.filter (fun (p : Word64 × List Byte) => p.1 != x.step && decide (x.step ≤ p.1 + 1))) ++ [(x.step, image)] }
    (none, m.sendParts x image)

/-- Record the slowest member of a completed instance (R335); WAIT is a measured time: a free value. [log 98 DESIGN CHOICE] -/
def Module.recordSlowest (m : Module) (x : Inst) : Nat × Module :=
  let late := x.late.getD (m.myRank x.spec)
  let wait := if x.late.isNone then 0 else (Config.freeWord m.freeIx).toNat
  let m := m.drawn
  let v := wait * 2 ^ 32 + m.rankModule x.spec late * 2 ^ 16 + late
  let m := m.setReg .COL_TEN_SLOWEST x.ten.val 0 (BitVec.ofNat 64 v)
  (v, m.addFld Fld.COL_TEN_WAIT_NS_NS x.ten.val 0 wait)

/-- Report an abort over the sync plane (R328). -/
def Module.reportAbort (m : Module) (x : Inst) (v : Word64) : Module :=
  m.startGroup x.ten (m.subBox x.spec) 3 x.spec.name (x.step.toNat % 65536) v

end Sys2Proof.Machine
end

