-- ==== Sys2Proof/Machine/RouteHooks.lean ====
section
/-! DEFINITION. Machine/RouteHooks.lean: what the engines beside the fabric do when a step commits, when a step is
killed, and when a route starts, stops or is unloaded. -/

namespace Sys2Proof.Machine

/-- A cluster of a stage has committed a step. -/
def Module.afterCommit (m : Module) (n stage : Nat) (_step : Word64) : Module :=
  ((m.weightCommit n stage).consumeBatch n).captureBoundary n
/-- The uncommitted steps of a route have been killed. -/
def Module.afterKill (m : Module) (n : Nat) : Module := ((m.weightRerun n).learnRerun n).colKill n
/-- A route has stopped. -/
def Module.afterStop (m : Module) (_n : Nat) : Module := m.assignSkew
/-- A route has been unloaded. -/
def Module.afterUnload (m : Module) (n : Nat) (r : Route) : Module :=
  let m := if r.isLearner then m.untakeSeqs r.ten else m
  (((m.dropSlots r).weightUnload n r).unbindSlots r.ten (some n)).captureUnload r.ten r.routeId

/-- The settings of the WBL registers that a ROUTE_START puts in force (R211). -/
def Module.genCfg (m : Module) (ten : Nat) : GenCfg where
  ragged := m.fld Fld.WBL_TEN_RAGGED_VA ten
  result := m.fld Fld.WBL_TEN_RESULT_VA ten
  depth := max 2 (min 64 (m.fld Fld.WBL_TEN_CTL_DEPTH ten))
  group := m.fld Fld.WBL_TEN_GROUP_GROUP ten
  leader := m.flag Fld.WBL_TEN_GROUP_LEADER ten

/-- A route starts or resumes. -/
def Module.afterStart (m : Module) (n : Nat) : Module :=
  let m := m.setRoute n (fun r => if r.learning then r else { r with gen := m.genCfg r.ten.val })
  let m := match m.route n with
    | some r => if r.learning then m else m.takeSettings r.ten.val
    | none => m
  (m.weightRerun n).assignSkew

/-- Every local participant of a group barrier has arrived: the module contributes to the group operation (R313). -/
def Module.startBarrierGroup (m : Module) (n i : Nat) : Module :=
  match m.route n with
  | none => m
  | some r =>
    match r.barriers[i]? with
    | none => m
    | some b =>
      (m.startGroup r.ten b.group 1 (r.routeId * 4096 + i) (b.phase % 65536) 0).setRoute n (fun r =>
        { r with barriers := r.barriers.modify i (fun b => { b with inGroup := true }) })

/-- A stage may not be released into a step yet: its slot or batch is not built (R196, R234), S is awaited (R178), a capture
is due at the boundary (R432), or the fabric is not in S0 (R460). -/
def Module.stageHeld (m : Module) (n i : Nat) (step : Word64) : Bool :=
  !m.awake || m.proposalHolds n i step || m.captureHolds n step
    || (match m.route n with
        | none => false
        | some r => r.slotHolds i step || m.learnHolds n r step)

/-- The occupied fraction of the tenancy's caravan rings in permille (R153). -/
def Module.caravanFill (m : Module) (ten : Nat) : Nat := m.fld Fld.CVN_TEN_STATUS_FILL ten
/-- The tenancy's waybills in QUEUED (R153). -/
def Module.queuedWaybills (m : Module) (ten : Nat) : Nat := m.fld Fld.WBL_TEN_COUNTS_QUEUED ten

/-- Items of a stage in a step (R149, R202): its ITEMS, or what the slot of a paged stage holds. -/
def Module.stageItems (m : Module) (n i : Nat) (step : Word64) (items : Nat) : Nat :=
  match m.route n with
  | none => items
  | some r =>
    if (r.stages[i]?.map (fun sg => pagedStage r sg)).getD false then
      m.fld Fld.WBL_TEN_KV_HEADS r.ten.val * r.slotPages step
    else items

/-- The checks of a ROUTE_START beside the state of the route (R236, R312), and the settings that it puts in force. -/
def Module.startCheck (m : Module) (n : Nat) : Option Fail × Module :=
  match m.route n with
  | none => (none, m)
  | some r =>
    let own := if r.learning then 0 else m.fld Fld.WBL_TEN_GROUP_GROUP r.ten.val
    if !(r.barriers.all (fun b => m.groupOk r.ten.val b.group) && m.groupOk r.ten.val own) then (some ⟨st.check, 0, 0⟩, m)
    else if !r.isLearner then (none, m)
    else
      match m.learnStart n r with
      | (.error e, m) => (some e, m)
      | (.ok cfg, m) => (none, m.setRoute n (fun r => { r with learn := some cfg }))

end Sys2Proof.Machine
end

