-- ==== Sys2Proof/Machine/FabricOps.lean ====
section
/-! DEFINITION. Machine/FabricOps.lean: the operations over tiles, clusters and routes that the tile instructions, the
commands and the recovery rules share: spans (R32), staging, publication and the cluster commit (R87 to R91, R500), the
kill of a step (R92, R93), the stop of a route (R143) and the halt of a tile (R107). -/

namespace Sys2Proof.Machine

/-! ## Starting and releasing -/

/-- Zero the scratch region of a bay (R90). -/
def zeroScratch (p : Prog) (bay : Mem) : Mem := Mem.zero bay (p.scratchBase * 128) (p.scratchLen * 128)

/-- A bay block lies in the scratch region. -/
def inScratch (p : Prog) (b : Nat) : Bool := decide (p.scratchBase ≤ b) && decide (b < p.scratchBase + p.scratchLen)

/-- Copy one 128-byte block from one memory to another. -/
def copyBlock (src dst : Mem) (b : Nat) : Mem := Mem.setBytes dst (b * 128) (Mem.bytes src (b * 128) 128)

/-- Restore a block written during the step from the copy that its selector names (R91, R92). -/
def Tile.restoreBlock (x : Tile) (b : Nat) : Tile :=
  { x with bay := copyBlock (if Map.get false x.sel b then x.save1 else x.save0) x.bay b }

/-- Save a block that changed into the copy its selector does not name, and flip the selector (R91). -/
def Tile.saveBlock (x : Tile) (b : Nat) : Tile :=
  if Map.get false x.sel b then { x with save0 := copyBlock x.bay x.save0 b, sel := Map.set false x.sel b false }
  else { x with save1 := copyBlock x.bay x.save1 b, sel := Map.set false x.sel b true }

/-- The registers, predicates, array state and loop state at their reset values; bay, save copies and instruction cache
stay (R92). -/
def Tile.clear (x : Tile) : Tile :=
  { Tile.reset with bay := x.bay, save0 := x.save0, save1 := x.save1, sel := x.sel, icache := x.icache, core := x.core }

/-- One tile at a kill (R92): outstanding work is gone, the bay is at its boundary contents with the scratch region
zero, the state is at reset. A tile that stopped in an earlier, committed step stays stopped. [log 26 DEDUCED] -/
def Tile.kill (p : Prog) (x : Tile) : Tile :=
  let y := (x.dirty.filter (fun b => !inScratch p b)).foldl Tile.restoreBlock x
  let y := y.clear
  { y with bay := zeroScratch p y.bay, core := if x.core == .halted then .halted else .ready }

/-- One tile at the release into a step (R79, R90): its scratch region is zeroed; where its state does not survive it is at
reset, but for the packets it has received or has yet to send; and it goes on at its entry point. A tile that stopped for the
rest of the route stays stopped. -/
def Tile.release (p : Prog) (kind : Nat) (x : Tile) : Tile :=
  let x := if kind = 1 then x
    else { x.clear with recv := x.recv, sendX := x.sendX, partialX := x.partialX, barPhase := x.barPhase }
  let x := { x with bay := zeroScratch p x.bay }
  if x.core == .halted then x
  else
    { x with
      pc := if kind = 0 then p.entry else p.stepEntry
      core := .ready
      entryKind := kind
      stagedBytes := 0
      midCmt := false
      dirty := []
      digest := Tile.reset.digest }

/-- One tile at route start (R91): its bay outside the scratch region is copied into the copy that every selector
names. -/
def Tile.start (x : Tile) (p : Prog) : Tile :=
  let bay := zeroScratch p x.bay
  { x.clear with bay := bay, save0 := bay, save1 := [], sel := [], core := .ready }

/-! ## The order of Deck packets (R37, R38) -/

/-- The packet `j` goes before `k`: their source sent it to the same destination earlier, on the same channel (R37) or, where
`k` is a FLAG, on any (R38). Segments of one packet go in the order in which they entered the Deck. -/
def DeckPkt.goesBefore (j k : DeckPkt) : Bool :=
  j.src == k.src && j.dst == k.dst && decide (j.seq < k.seq) && (k.kind == .flag || j.vc == k.vc)

/-- The packet at position `n` may arrive now: no packet that goes before it is in flight or in its source's send buffer, and
no earlier segment of the same packet is in flight. [log 29 DESIGN CHOICE] -/
def Module.mayArrive (m : Module) (n : Nat) (k : DeckPkt) : Bool :=
  !((m.deck ++ (m.tile k.src).sendX).any (fun j => j.goesBefore k)) && (m.deck.take n).all (fun j => j.seq != k.seq)

/-! ## Publication and the cluster commit -/

/-- Publish one staged store through the tenancy's translation or extents as they stand now; a failing one is written
nowhere (R500). -/
def Module.publish (m : Module) (k : Cluster) (ten : Nat) (x : Staged) : Option Fail × Module :=
  if x.hold then
    match m.writeHold ten x.addr x.data with
    | (.ok _, m) => (none, m)
    | (.error e, m) => (some e, m)
  else
    match m.writeVA (.fab k) ten x.addr x.data with
    | (.ok _, m) => (none, m)
    | (.error e, m) => (some e, m)

/-- Publish a list of staged stores in order; the first failure is kept (R500). [log 27 DEDUCED] -/
def Module.publishAll (m : Module) (k : Cluster) (ten : Nat) : List Staged → Option Fail × Module
  | [] => (none, m)
  | x :: rest =>
    let (e, m) := m.publish k ten x
    let (e', m) := m.publishAll k ten rest
    (e.orElse (fun _ => e'), m)

/-- Every tile of the cluster has arrived at the boundary (R90). -/
def Module.allArrived (m : Module) (c : Nat) : Bool :=
  (List.range 256).all (fun k =>
    match (m.tileAt (c * 256 + k)).core with
    | .arrived => true
    | .halted => true
    | _ => false)

/-- Every tile of the cluster has stopped for the rest of the route. -/
def Module.allHalted (m : Module) (c : Nat) : Bool :=
  (List.range 256).all (fun k => (m.tileAt (c * 256 + k)).core == .halted)

/-- Save the changed blocks of a tile and clear the step's records (R90, R91). -/
def Tile.commit (p : Prog) (x : Tile) : Tile :=
  let y := (x.dirty.filter (fun b => !inScratch p b)).foldl Tile.saveBlock x
  { y with
    staged := []
    stagedBytes := 0
    dirty := []
    midCmt := false
    haltReq := false
    core := if x.haltReq then .halted else x.core }

/-! ## Twin execution (R412, R413) -/

/-- The tenancy runs twins, and its tiles keep digests. -/
def Module.twinned (m : Module) (ten : Nat) : Bool := m.flag Fld.INT_TWIN_EN ten

/-- The tile belongs to a twin: what it sends and stores goes only into its digest. -/
def Module.isTwin (m : Module) (u : TileId) : Bool := (m.cl u.cl.val).twinOf.isSome

/-- The same tile of the twin of its cluster. -/
def Module.twinTile (m : Module) (u : TileId) : Option TileId := (m.twinOf u.cl.val).map (fun d => { u with cl := Fin.ofNat 100 d })

/-- A tile takes bytes into its digest. -/
def Tile.note (x : Tile) (bs : List Byte) : Tile := { x with digest := BitVec.ofNat 32 (crcBytes 0x82F63B78 x.digest.toNat bs) }

/-- What the digest takes of a store, a send, a FLAG and a barrier arrival. [log 167 DESIGN CHOICE] -/
def storeNote (hold : Bool) (a : Nat) (bs : List Byte) : List Byte := (if hold then 1 else 2) :: leBytes 8 a ++ bs
def sendNote (port vc : Nat) (dest : Word) (bs : List Byte) : List Byte :=
  [3, BitVec.ofNat 8 port, BitVec.ofNat 8 vc] ++ leBytes 4 dest.toNat ++ bs
def flagNote (dest : Word) (bs : List Byte) : List Byte := 4 :: leBytes 4 dest.toNat ++ bs
def barNote (i : Nat) : List Byte := 5 :: leBytes 2 i

/-- Take bytes into the digest of a tile, where its tenancy runs twins. -/
def Module.noteTile (m : Module) (ten : Nat) (u : TileId) (bs : List Byte) : Module :=
  if m.twinned ten then m.setTile u ((m.tile u).note bs) else m

/-- The cluster digest: the CRC-32C of the tile digests in logical order. -/
def Module.clusterDigest (m : Module) (c : Nat) : Nat :=
  crc32c ((List.range 256).flatMap (fun k => leBytes 4 ((m.tileAt (c * 256 + k)).digest.toNat ^^^ 0xFFFFFFFF)))

/-- The digests of a cluster and its twin agree; without a twin there is nothing to compare. -/
def Module.digestsAgree (m : Module) (c : Nat) : Bool :=
  match m.twinOf c with
  | none => true
  | some d => !(m.cl c).digestBad && m.clusterDigest c == m.clusterDigest d

/-- Every tile of the cluster, and of its twin, has arrived in the step being executed. -/
def Module.stepDone (m : Module) (c : Nat) : Bool :=
  m.released c && m.allArrived c &&
    (match m.twinOf c with
     | none => true
     | some d => m.allArrived d)

/-- The registers of a twin follow its primary's boundary and step (R412, R413). [log 30 DEDUCED] -/
def Module.mirrorTwin (m : Module) (c : Nat) : Module :=
  match m.twinOf c with
  | none => m
  | some d =>
    let m := m.setFlag Fld.FAB_CL_STATUS_AT_BOUNDARY d 0 (!m.released c)
    m.setFld Fld.FAB_CL_STEP_STEP d 0 (m.fld Fld.FAB_CL_STEP_STEP c)

/-- Count the busy tile-cycles of a cluster in a step, and its twin's (R145, R376, R414). They are measured amounts: free
values. -/
def Module.busyStep (m : Module) (ten c n i : Nat) (step : Word64) : Module :=
  let add := fun (m : Module) (d : Nat) =>
    let busy := Config.freeNat m.freeIx
    let m := (m.setFld Fld.FAB_CL_BUSY_BUSY d 0 (m.fld Fld.FAB_CL_BUSY_BUSY d + busy)).drawn
    (busy, m.bill ten (fun l => { l with busy := l.busy + busy }))
  let (busy, m) := add m c
  let m := m.countBusy ten n i step busy
  match m.twinOf c with
  | none => m
  | some d =>
    let (busy, m) := add m d
    m.count 0x2001 ten busy

/-- The higher of a stage's highest committed step and another (R151). -/
def Stage.reach (sg : Stage) (step : Word64) : Stage :=
  { sg with top := some (match sg.top with
      | none => step
      | some u => if u ≤ step then step else u) }

/-- The cluster commit of R90: publish, save, set FAB_CL_STEP and AT_BOUNDARY. Answers the first failure of a
publication. -/
def Module.commitCluster (m : Module) (c : Nat) : Option Fail × Module :=
  match m.stageOf c with
  | none => (none, m)
  | some (n, r, sg) =>
    let cl := m.cl c
    let staged := (List.range 256).flatMap (fun k => (m.tileAt (c * 256 + k)).staged)
    let (fail, m) := m.publishAll (Fin.ofNat 100 c) r.ten.val staged
    let m := m.mapTiles c (Tile.commit sg.prog)
    let m := match m.twinOf c with
      | some d => m.mapTiles d (Tile.commit sg.prog)
      | none => m
    let m := m.setFld Fld.FAB_CL_STEP_STEP c 0 cl.step.toNat
    let m := m.setFlag Fld.FAB_CL_STATUS_AT_BOUNDARY c 0 true
    let m := m.setStage n cl.stage (fun sg => sg.reach cl.step)
    let m := ((m.busyStep r.ten.val c n cl.stage cl.step).mirrorTwin c).atBoundary n c
    let m := m.setCl c { m.cl c with
      committedAny := true, nextKind := 1, step := cl.step + 1, mismatched := false, itemsLeft := 0 }
    let m := m.count 0x2002 r.ten.val 1
    (fail, m.afterCommit n cl.stage cl.step)

/-! ## Kill (R92, R93) -/

/-- The clusters of a route and their twins. -/
def Module.allClusters (m : Module) (n : Nat) : List Nat :=
  (List.range 100).filter (fun c => (m.cl c).route == some n)

/-- The kill of one cluster's uncommitted step. A cluster that waits at its boundary loses the state it held there too. -/
def Module.killCluster (m : Module) (c : Nat) : Module :=
  match m.stageOf c with
  | none => m
  | some (_, _, sg) =>
    let m := m.mapTiles c (Tile.kill sg.prog)
    let m := m.setFlag Fld.FAB_CL_STATUS_AT_BOUNDARY c 0 true
    let cl := m.cl c
    m.setCl c { cl with
      nextKind := if cl.committedAny then 2 else 0, itemsLeft := 0, pass := 0, ended := [], sched := [], digestBad := false }

/-- Commit every cluster of the route all of whose tiles have arrived (R93). The first failure of a publication is kept. -/
def Module.finishArrived (m : Module) (n : Nat) : Option Fail × Module :=
  (m.clustersOf n).foldl (fun (a : Option Fail × Module) c =>
    if a.2.stepDone c && a.2.digestsAgree c then
      let (e, m) := a.2.commitCluster c
      (a.1.orElse (fun _ => e), m)
    else a) (none, m)

/-- Discard a route's packets in flight, and free the receive buffers that they hold (R92). -/
def Module.dropPackets (m : Module) (cs : List Nat) : Module :=
  { m with
    deck := m.deck.filter (fun k => !cs.contains k.src.cl.val)
    xres := m.xres.map (fun (x : Nat × XRes) =>
      match x.2.holder with
      | some h => if cs.contains (h / 256) then (x.1, { x.2 with holder := none }) else x
      | none => x) }

/-- Kill the uncommitted steps of a running route on this module (R92): a cluster commit that has begun completes first
(R93), and the first failure of its publication is answered (R500). -/
def Module.killSteps (m : Module) (n : Nat) : Option Fail × Module :=
  match m.route n with
  | none => (none, m)
  | some r =>
    if r.state != .running && r.state != .stopping then (none, m)
    else
      let (fail, m) := m.finishArrived n
      let cs := m.allClusters n
      let m := (cs.foldl Module.killCluster m).dropPackets cs
      let m := m.setRoute n (fun r => { r with barriers := r.barriers.map (fun b => { b with arrived := [], inGroup := false }) })
      (fail, (m.recountBarriers n).afterKill n)

/-! ## Ending and stopping a route (R142, R143) -/

/-- End the ROUTE_START command of a route, if it is in execution. -/
def Module.endStart (m : Module) (n status : Nat) (detail : Nat := 0) : Module :=
  match m.route n with
  | none => m
  | some r =>
    match r.startCmd with
    | none => m
    | some id => (m.finish id status detail).setRoute n (fun r => { r with startCmd := none })

/-- One cluster at the start or resumption of its route (R91, R142). -/
def Module.startCluster (m : Module) (fresh : Bool) (c : Nat) : Module :=
  match m.stageOf c with
  | none => m
  | some (_, _, sg) =>
    let m := m.mapTiles c (fun x =>
      if fresh then x.start sg.prog else if x.core == .halted then x else { x.clear with core := .ready })
    let cl := m.cl c
    let m := m.setCl c { cl with nextKind := if !fresh && cl.committedAny then 2 else 0 }
    m.setClState c (if cl.move.any (fun mv => !mv.held) then 2 else 1)

/-- Start a LOADED route at FIRST_STEP, or resume a STOPPED one at its lowest uncommitted steps (R142). -/
def Module.startRoute (m : Module) (n id : Nat) : Module :=
  match m.route n with
  | none => m.finish id st.aborted
  | some r =>
    match m.startCheck n with
    | (some e, m) => m.finishFail id e
    | (none, m) =>
      let m := (m.allClusters n).foldl (fun m c => m.startCluster (r.state == .loaded) c) m
      let m := m.setRoute n (fun r => { r with state := .running, startCmd := some id, suspended := false })
      ((m.commitCmd id).mirrorRoute n).afterStart n

/-- A ROUTE_START begins on a loaded route that is not stopping: on a running one it ends OK at once (R142). -/
def Module.beginStart (m : Module) (n id : Nat) : Module :=
  if (m.route n).any (fun r => r.state == .running) then m.finish id st.ok else m.startRoute n id

/-- Free a route: its area, staging and save frames return, its clusters go to the idle pool with bays and depots zero,
and the buffers' own pages stay with the tenancy (R143). -/
def Module.unloadRoute (m : Module) (n : Nat) : Module :=
  match m.route n with
  | none => m
  | some r =>
    let cs := m.clustersOf n
    let m := m.abandonAll n
    let m := cs.foldl (fun m c => m.idleCluster c) m
    let m := (List.range 100).foldl (fun m c =>
      match (m.cl c).move with
      | some mv => if (mv.dest.map (·.1)) == some n then (m.setCl c { m.cl c with move := none, twinOf := none }).restState c
          else m
      | none => m) m
    let m := m.releaseFrames r.ten.val r.area
    let m := m.subFld Fld.SYN_TEN_BARRIERS_IN_USE r.ten.val 0 r.barriers.length
    let m := { m with routes := Map.erase m.routes n }
    ((m.afterUnload n r).mirrorRoute n).mirrorTen r.ten

/-- The stop of a route has taken effect: STOPPED, its clusters IDLE and still assigned, its moves cancelled, its commands
ended, UNLOAD applied, and each ROUTE_START that waited begins (R142, R143). -/
def Module.stopped (m : Module) (n : Nat) : Module :=
  match m.route n with
  | none => m
  | some r =>
    let m := (m.allClusters n).foldl (fun m c => (m.setCl c { m.cl c with move := none }).setClState c 0) m
    let m := m.endStart n st.ok
    let m := r.stopCmds.foldl (fun m id => m.finish id st.ok) m
    let m := m.setRoute n (fun r => { r with state := .stopped, stopCmds := [], stopUnload := false, waiting := [] })
    let m := m.afterStop n
    let m := m.mirrorRoute n
    if r.stopUnload then
      let m := r.waiting.foldl (fun m id => m.finish id st.aborted) m
      m.unloadRoute n
    else
      r.waiting.foldl (fun m id => m.beginStart n id) m

/-- Every cluster of a STOPPING route is at its boundary and no recovery epoch holds the route: the stop takes effect
(R143, R424). -/
def Module.checkStopped (m : Module) (n : Nat) : Module :=
  match m.route n with
  | none => m
  | some r =>
    if r.state == .stopping && (m.clustersOf n).all (fun c => !m.released c)
        && m.epochs.all (fun e => !e.routes.contains n) then m.stopped n else m

/-- The stop takes effect at once. -/
def Module.stopNow (m : Module) (n : Nat) : Module := (m.setRoute n (fun r => { r with state := .stopping })).stopped n

/-- Stop a route as ROUTE_STOP with KILL does, its command ending with a status (R143, R500). Where the status is OK, a failed
publication of a commit that had begun gives its own. -/
def Module.stopKill (m : Module) (n status : Nat) (detail : Nat := 0) : Module :=
  match m.route n with
  | none => m
  | some _ =>
    let m := if status = st.ok then m else m.endStart n status detail
    let (fail, m) := m.killSteps n
    let m := match fail with
      | some e => m.endStart n e.status e.detail
      | none => m
    (m.endStart n status detail).stopNow n

/-- Kill the uncommitted steps of a route (R92). A commit that had begun completes first; where its publication fails, the
route's command ends with that status and the route stops (R500). -/
def Module.killRoute (m : Module) (n : Nat) : Module :=
  match m.killSteps n with
  | (none, m) => m
  | (some e, m) => (m.endStart n e.status e.detail).stopNow n

/-- A failed access of a tile (R102): the step is killed and the route's command ends with the status. The route no
longer has a command in execution and is STOPPED. -/
def Module.failRoute (m : Module) (n : Nat) (e : Fail) : Module := m.stopKill n e.status e.detail

/-- The cluster commit with what follows it: a failed publication stops the route (R500), a stop that was waiting takes
effect (R143), a route all of whose tiles have stopped ends OK (R142). -/
def Module.commitBoundary (m : Module) (c : Nat) : Module :=
  match m.stageOf c with
  | none => m
  | some (n, r, _) =>
    let (fail, m) := m.commitCluster c
    Module.checkSuspended (t := r.ten) <|
    match fail with
    | some e => m.failRoute n e
    | none =>
      let m := if (m.clustersOf n).all (fun c => m.allHalted c) then m.stopNow n else m
      m.checkStopped n

/-- A front marker failed its check at a tile (R45, R180): the uncommitted steps of the route are killed and run again with
markers latched at their release, and MARKER_RETRY is raised. -/
def Module.markerFailed (m : Module) (ten : Ten) (c : Nat) : Module :=
  match (m.cl c).route with
  | none => m
  | some n => (m.killRoute n).raise Kind.WGT_MARKER_RETRY ten.val n

/-! ## Halts (R107) -/

/-- DETAIL of an ABORTED completion from a tile halt (R356). -/
def haltDetail (code cause logical row col pc : Nat) : Nat :=
  code % 65536 * 2 ^ 48 + cause % 256 * 2 ^ 40 + 2 ^ 39 + logical % 128 * 2 ^ 32 + row % 16 * 2 ^ 28
    + col % 16 * 2 ^ 24 + pc % 32768

/-- A tile halts: the step is killed and the route's command ends ABORTED with the cause, the tile and the index
(R95, R107). [log 14 DEDUCED] -/
def Module.haltTile (m : Module) (t : TileId) (cause : Nat) (code : Nat := 0) : Module :=
  match (m.cl t.cl.val).route with
  | none => m
  | some n =>
    let pc := (m.tile t).pc
    m.stopKill n st.aborted
      (haltDetail code cause (m.fld Fld.FAB_CL_ASSIGN_LOGICAL t.cl.val) t.row.val t.col.val pc)

/-! ## Undefined behaviour (R2) -/

/-- A tile of which nothing is known: its registers, predicates, array state, flag counters, bay and program counter hold free
values. -/
def Tile.undefined (x : Tile) (ix k : Nat) : Tile :=
  let w := Config.undefinedWord ix k
  let words := fun (lo n : Nat) => (List.range n).foldl (fun (a : Map Word) i => Map.set 0 a i (w (lo + i))) []
  let bytes := fun (lo n : Nat) => (List.range n).map (fun i => Config.undefinedByte ix (k * 131072 + lo + i))
  { x with
    s := words 0 32
    a := (List.range 16).foldl (fun (a : Map Word64) i => Map.set 0 a i (w (64 + 2 * i) ++ w (65 + 2 * i))) []
    p := words 96 8
    flags := (List.range 64).foldl (fun (a : Map (BitVec 16)) i => Map.set 0 a i ((w (128 + i)).setWidth 16)) []
    ts := words 192 16
    set0 := ⟨Mem.setBytes [] 0 (bytes 65536 256), words 208 16, (w 224).setWidth 16⟩
    set1 := ⟨Mem.setBytes [] 0 (bytes 65792 256), words 240 16, (w 225).setWidth 16⟩
    acc0 := words 256 256
    acc1 := words 512 256
    v := words 1024 512
    loops := []
    bay := Mem.setBytes [] 0 (bytes 0 65536)
    dirty := List.range 512
    pc := (w 226).toNat
    core := .ready }

/-- What a misuse case leaves (R2): the tiles of the tenancy's clusters, its DRAM frames and its own Hold banks hold free
values, and nothing else changes. [log 11 DESIGN CHOICE] -/
def Module.undefined (m : Module) (ten : Ten) : Module :=
  let ix := m.freeIx
  let frames := (m.tags.map (·.1)).filter (fun f => m.ownsFrame ten.val f)
  let own := fun (k : Nat) => bitsAt (m.mapEntry (m.holdEntry ten.val 0 (m.fld Fld.HLD_TEN_EXT_TBANK_FIRST ten.val 0 + k))).toNat 0 15
  let banks := if m.flag Fld.HLD_TEN_EXT_RUN_VALID ten.val 0
    then (List.range (m.fld Fld.HLD_TEN_EXT_COUNT ten.val 0)).map own else []
  let fill := fun (i size : Nat) (mem : Mem) (b : Nat) =>
    Mem.setBytes mem (b * size) ((List.range size).map (fun j => Config.undefinedByte i (b * size + j)))
  let m := (m.assigned ten).foldl (fun m c => (List.range 256).foldl (fun m k =>
    m.setTileAt (c * 256 + k) ((m.tileAt (c * 256 + k)).undefined ix (c * 256 + k))) m) m
  { m with
    freeIx := ix + 3
    dram := frames.foldl (fill (ix + 1) frameBytes) m.dram
    hold := banks.foldl (fill (ix + 2) bankBytes) m.hold }

/-- What an instruction leaves: its own effect, or, in a misuse case, that of undefined behaviour within its tenancy. -/
def Module.orUndefined (m : Module) (ten : Ten) : Except Misuse Module → Module
  | .ok m' => m'
  | .error _ => m.undefined ten

end Sys2Proof.Machine
end

