-- ==== Sys2Proof/Machine/Memory.lean ====
section
/-! DEFINITION. Machine/Memory.lean: patrols, map-out, the Hold's selectors, the skew monitor and migration (R247 to R254,
R257, R260). -/

namespace Sys2Proof.Machine

/-! ## DRAM (R247 to R250) -/

/-- MEM_PATROL_EXPIRE (R247): the patrol reads and corrects every unit; units with no latent error change nothing. -/
def execMemPatrolExpire (s : State) : Host.Outcome State Fault Refusal :=
  s.run fun m =>
    if m.flag Fld.MEM_CTL_PATROL_EN then
      (m.dramEcc.map (·.1)).foldl (fun m u => m.readUnit 0 u (m.channelOf (u * 64))) m
    else m

/-- MAP_OUT (R248, R249): the physical function writes MEM_CH_CTL with MAP_OUT. -/
def execMapOut (ch : Fin 384) (s : State) : Host.Outcome State Fault Refusal :=
  s.run fun m => m.mapOut ch.val

/-- MAP_OUT_COMPLETE (R249): every granule on the channel is read and copied, corrected, or, where a unit of it cannot be
corrected, as poisoned; the channel is MAPPED_OUT, its granules are redirected, and the pool resumes for its stack. It waits
while patch frames are short. -/
def execMapOutComplete (ch : Fin 384) (s : State) : Host.Outcome State Fault Refusal :=
  s.run fun m =>
    if m.fld Fld.MEM_CH_STATUS_STATE ch.val ≠ 1 ∨ Map.get 0 m.patchDue (patchKey ch.val) ≠ 0 then m
    else
      let onIt := fun (u : Nat) => m.channelOf (u * 64) == ch.val
      let m := ((m.dramEcc.map (·.1)).filter onIt).foldl (fun m u => m.readUnit 0 u ch.val) m
      let bad := (m.poison.map (·.1)).filter onIt
      let m := { m with poison := bad.foldl (fun a u => (List.range 4).foldl (fun a k => Map.set false a (u / 4 * 4 + k) true) a) m.poison }
      (m.setFld Fld.MEM_CH_STATUS_STATE ch.val 0 2).raise Kind.MEM_MAPOUT 0 ch.val

/-! ## The Hold (R257, R260) -/

/-- HOLD_PATROL_EXPIRE (R260): the patrol corrects every bank, retires those over their limits, and the counts of the next
pass start from zero. -/
def execHoldPatrolExpire (s : State) : Host.Outcome State Fault Refusal :=
  s.run fun m =>
    if m.fld Fld.HLD_SCRUB_PERIOD_SECONDS = 0 then m
    else
      let m := (m.holdEcc.map (·.1)).foldl (fun m u => m.readHoldWord 0 u) m
      let m := (m.banks.map (·.1)).foldl (fun m p => m.checkBank p) m
      (m.banks.map (·.1)).foldl (fun m p =>
        { m with banks := Map.set .reset m.banks p { m.bank p with ce := 0 } }) m

/-- A write of HLD_MAP_SEL latches the Hold map entry into HLD_MAP_DATA. -/
def Module.selectMap (m : Module) (e : Nat) : Module :=
  (m.setFld Fld.HLD_MAP_SEL_ENTRY 0 0 e).setReg .HLD_MAP_DATA 0 0 (BitVec.ofNat 64 (m.mapEntry e).toNat)

/-- HLD_MAP_SEL (R257). -/
def execHldMapSel (value : Word) (s : State) : Host.Outcome State Fault Refusal :=
  s.run fun m => m.selectMap (value.toNat % 65536)

/-- A write of HLD_BANK_SEL latches the bank into HLD_BANK_INFO. -/
def Module.selectBank (m : Module) (p : Nat) : Module :=
  let b := m.bank p
  (m.setFld Fld.HLD_BANK_SEL_BANK 0 0 p).setReg .HLD_BANK_INFO 0 0
    (BitVec.ofNat 64 (b.state * 2 ^ 30 + b.ce % 16384 * 2 ^ 16 + b.entry.toNat))

/-- HLD_BANK_SEL (R260). -/
def execHldBankSel (value : Word) (s : State) : Host.Outcome State Fault Refusal :=
  s.run fun m => m.selectBank (value.toNat % 32768)

/-! ## Leaf pages -/

/-- The entry that maps an address: its level and address. -/
def Module.leafAt (m : Module) (ten va : Nat) : Nat → Nat → Option (Nat × Nat)
  | 0, _ => none
  | n + 1, table =>
    let lvl := 3 - n
    let ea := entryAt table lvl va
    let e := Mem.read m.dram ea 8
    if (m.checkTable ten (ea / frameBytes)).isSome || Mem.read m.dram (ea + 8) 8 != 2 ^ 64 - 1 - e || !entValid e
    then none
    else if entLeaf e then some (lvl, ea)
    else if lvl = 3 then none
    else m.leafAt ten va n (entAddr e)

/-- The entry that maps an address of a tenancy, from its root. -/
def Module.leafOf (m : Module) (ten va : Nat) : Option (Nat × Nat) :=
  m.leafAt ten va 4 (m.fld Fld.XLT_TEN_ROOT_FRAME ten * frameBytes)

/-- Frames of a leaf page of a level. -/
def leafFrames (lvl : Nat) : Nat := 2 ^ (levelShift lvl).1 / frameBytes

/-- The module may move a leaf page of the tenancy (R3, R268): every frame of it is the tenancy's own, by its tag. -/
def Module.ownsPage (m : Module) (ten f lvl : Nat) : Bool := (List.range (leafFrames lvl)).all (fun k => m.ownsFrame ten (f + k))

/-! ## The skew monitor (R253) -/

/-- Stacks that hold the frames of a buffer, whatever its pages permit. -/
def Module.stacksOf (m : Module) (x : SkewSlot) : List Nat :=
  let pages := if x.bytes = 0 then 0 else (x.addr + x.bytes - 1) / frameBytes - x.addr / frameBytes + 1
  (List.range pages).foldl (fun a k =>
    let va := (x.addr / frameBytes + k) * frameBytes
    match m.leafOf x.ten.val va with
    | none => a
    | some (lvl, ea) =>
      let e := Mem.read m.dram ea 8
      let s := (entAddr e + va % 2 ^ (levelShift lvl).1) / frameBytes % 12
      if entHost e || a.contains s then a else a ++ [s]) []

/-- Mapped-in channels of a list of stacks. -/
def Module.mappedIn (m : Module) (sts : List Nat) : Nat :=
  (sts.map (fun s => ((List.range 32).filter (fun k => m.fld Fld.MEM_CH_STATUS_STATE (32 * s + k) < 2)).length)).sum

/-- The skew of a slot over its window, where enough was moved. -/
def Module.skewOf (m : Module) (x : SkewSlot) : Option Nat :=
  let sum := (x.counts.map (·.2)).sum
  let top := (x.counts.map (·.2)).foldl max 0
  if sum = 0 ∨ sum < m.fld Fld.MEM_SKEW_MIN_MIB * 2 ^ 20 then none
  else some (top * m.mappedIn (m.stacksOf x) / sum)

/-- Migration of the slot's buffer is permitted (R148, R253). -/
def Module.mayMigrate (m : Module) (x : SkewSlot) : Bool :=
  m.flag Fld.PLC_TEN_CTL_MIGRATE_OK x.ten.val
    && ((m.route x.route).bind (fun r => r.buffers[x.buffer]?)).any (fun b => b.migrateOk)

/-- The end of a window for one slot: a finding raises SKEW and requests migration; a deferred request is made again. -/
def Module.windowEnd (m : Module) (x : SkewSlot) : SkewSlot × Module :=
  let isOver := (m.skewOf x).any (fun k => decide (m.fld Fld.MEM_SKEW_LIMIT_LIMIT < k))
  let m := m.when isOver (fun m => m.raise Kind.MEM_SKEW x.ten.val x.route)
  ({ x with counts := [], wanted := x.wanted || x.deferred || (isOver && m.mayMigrate x), deferred := false }, m)

/-- SKEW_WINDOW_END (R253). -/
def execSkewWindowEnd (s : State) : Host.Outcome State Fault Refusal :=
  s.run fun m =>
    if m.fld Fld.MEM_SKEW_WINDOW_US = 0 then m
    else
      m.skew.foldl (fun m x =>
        let (y, m) := m.windowEnd x
        { m with skew := m.skew.map (fun z => if z.route == x.route && z.buffer == x.buffer then y else z) }) m

/-! ## Migration (R254) -/

/-- A key slot of the tenancy that holds no frames, as the ownership tags have it. -/
def Module.emptySlot (m : Module) (ten : Nat) : Option Nat :=
  (List.range 4).find? (fun k => !m.tags.any (fun p =>
    (tagAlloc p.2 || tagScrub p.2) && (tagBase p.2).isNone && tagTen p.2 == ten && tagKey p.2 == k))

/-- Tag a run of target frames under a key slot: owned by the tenancy, not charged. -/
def Module.takeTarget (m : Module) (ten slot f n : Nat) : Module :=
  ((List.range n).foldl (fun m k => m.setTag (f + k) (0x8000 + 0x1000 * slot + ten)) m).subFld Fld.XLT_POOL_FREE_FRAMES 0 0 n

/-- Target frames for a leaf page, beside a die where the buffer's tier asks for one (R148). -/
def Module.pickTarget (m : Module) (ten slot lvl : Nat) (near : Option Nat) : Option (Nat × Module) :=
  let n := leafFrames lvl
  if n = 1 then (m.pickFrame near).map (fun f => (f, ((m.takeTarget ten slot f 1).rotate near f).drawn))
  else if (List.range 12).any m.stackBusy then none
  else
    let x := Config.freeNat m.freeIx % (dramFrames / n) * n
    (pick (fun f => m.runFree f n) x n (dramFrames / n) 0).map (fun f => (f, (m.takeTarget ten slot f n).drawn))

/-- Targets for every DRAM leaf page of a range whose frames are the tenancy's own, page by page; a page with a frame that is
not (a base frame, another tenancy's) stays where it is (R268). `fuel` bounds the pages. -/
def Module.planPages (m : Module) (ten slot stop : Nat) (near : Nat → Option Nat) :
    Nat → Nat → Option (List MigPage × Module)
  | 0, _ => some ([], m)
  | fuel + 1, va =>
    if stop ≤ va then some ([], m)
    else
      match m.leafOf ten va with
      | none => m.planPages ten slot stop near fuel ((va / frameBytes + 1) * frameBytes)
      | some (lvl, ea) =>
        let size := 2 ^ (levelShift lvl).1
        let base := va / size * size
        let e := Mem.read m.dram ea 8
        if entHost e || !m.ownsPage ten (entAddr e / frameBytes) lvl then m.planPages ten slot stop near fuel (base + size)
        else
          match m.pickTarget ten slot lvl (near fuel) with
          | none => none
          | some (f, m) =>
            (m.planPages ten slot stop near fuel (base + size)).map (fun r =>
              (⟨base, lvl, ea, entAddr e / frameBytes, f⟩ :: r.1, r.2))

/-- Read every unit of a leaf page, as a copy does: latent errors are found (R247). -/
def Module.scanPage (m : Module) (ten : Nat) (p : MigPage) : Module :=
  let lo := p.old * 1024
  let n := 2 ^ (levelShift p.level).1 / 64
  ((m.dramEcc.filter (fun x => decide (lo ≤ x.1) && decide (x.1 < lo + n))).map (·.1)).foldl
    (fun m u => m.readUnit ten u (m.channelOf (u * 64))) m

/-- Copy a leaf page to its target; poisoned units are written poisoned (R271). -/
def Module.copyPage (m : Module) (p : MigPage) : Module :=
  let size := 2 ^ (levelShift p.level).1
  let lo := p.old * frameBytes
  let dest := p.target * frameBytes
  let src := m.dram.filter (fun x => decide (lo ≤ x.1) && decide (x.1 < lo + size))
  let bad := m.poison.filter (fun x => decide (lo ≤ x.1 * 64) && decide (x.1 * 64 < lo + size))
  let there := fun (u : Nat) => decide (dest ≤ u * 64) && decide (u * 64 < dest + size)
  { m with
    dram := src.foldl (fun d x => Mem.setByte d (x.1 - lo + dest) x.2) (Mem.zero m.dram dest size)
    dramEcc := m.dramEcc.filter (fun x => !there x.1)
    poison := bad.foldl (fun a x => Map.set false a (x.1 - lo / 64 + dest / 64) true) (m.poison.filter (fun x => !there x.1)) }

/-- Bytes in migration, module-wide. -/
def Module.migrating (m : Module) : Nat :=
  (m.routes.map (fun p => (p.2.migrations.map (fun g =>
    (g.2.pages.map (fun x => 2 ^ (levelShift x.level).1)).sum)).sum)).sum

/-- Bytes of leaf pages, which move whole. -/
def pageBytes (ps : List MigPage) : Nat := (ps.map (fun x => 2 ^ (levelShift x.level).1)).sum

/-- Leaf pages fit beside those already in migration; MEM_MIG_MAX of 0 disables migration. -/
def Module.migFits (m : Module) (ps : List MigPage) : Bool :=
  decide (m.migrating + pageBytes ps ≤ m.fld Fld.MEM_MIG_MAX_MIB * 2 ^ 20) && m.fld Fld.MEM_MIG_MAX_MIB != 0

/-- Mark the request of a buffer as met, or as deferred to the next window. -/
def Module.requested (m : Module) (n b : Nat) (deferred : Bool) : Module :=
  { m with skew := m.skew.map (fun x =>
    if x.route == n && x.buffer == b then { x with wanted := false, deferred := deferred } else x) }

/-- MIGRATION_START (R254): a requested migration takes an empty key slot with a fresh key and target frames, and its first
pass begins; without a slot, frames or room under MEM_MIG_MAX it is deferred. -/
def execMigrationStart (route : Fin 256) (buffer : BitVec 10) (s : State) : Host.Outcome State Fault Refusal :=
  s.run fun m =>
    let n := route.val
    let bi := buffer.toNat
    if !m.skew.any (fun x => x.route == n && x.buffer == bi && x.wanted) then m
    else
      match m.route n with
      | none => m
      | some r =>
        match r.buffers[bi]?, m.emptySlot r.ten.val with
        | some b, some slot =>
          let cs := if b.stage = 0xFF then m.clustersOf n else m.stageClusters n b.stage
          let near := fun (k : Nat) => if b.tier = 3 then (cs[k % max 1 cs.length]?).map (· / 25) else none
          if !m.flag Fld.RNG_ENTROPY_STATUS_HEALTHY || (Map.get? r.migrations bi).isSome then m.requested n bi true
          else
            match m.planPages r.ten.val slot (b.addr + b.bytes) near (b.bytes / frameBytes + 2) b.addr with
            | none => m.requested n bi true
            | some (pages, m') =>
              if !m.migFits pages then m.requested n bi true
              else
              let m := { m' with keys := Map.set 0 m'.keys (4 * r.ten.val + slot) (m'.nextKey + 1), nextKey := m'.nextKey + 1 }
              let m := m.setRoute n (fun r => { r with
                migrations := Map.insert r.migrations bi ⟨r.ten, slot, 1, pages⟩ })
              let m := (m.mirrorKeys r.ten.val).requested n bi false
              pages.foldl (fun m p => m.scanPage r.ten.val p) m
        | _, _ => m.requested n bi true

/-- The page can still be moved: its entry lies in a table of the tenancy and still names the old frames, and the old and the
target frames are the tenancy's own, by their tags (R268, R272). -/
def Module.mayMove (m : Module) (ten : Nat) (p : MigPage) : Bool :=
  let e := Mem.read m.dram p.entry 8
  (m.checkTable ten (p.entry / frameBytes)).isNone && Mem.read m.dram (p.entry + 8) 8 == 2 ^ 64 - 1 - e
    && entValid e && entLeaf e && !entHost e && entAddr e / frameBytes == p.old
    && m.ownsPage ten p.old p.level && m.ownsPage ten p.target p.level

/-- The final pass of one leaf page: copied, its entry rewritten with the complement, its translations invalidated, the old
frames freed and the target frames charged (R254). A page whose entry the tenancy has changed meanwhile stays, and its target
frames return to the pool: the mapping of that page is undefined within the tenancy (R272). [log 80 DEDUCED] -/
def Module.movePage (m : Module) (ten : Nat) (p : MigPage) : Module :=
  let n := leafFrames p.level
  if !m.mayMove ten p then
    (List.range n).foldl (fun m k => if m.ownsFrame ten (p.target + k) then m.scrubFrame (p.target + k) else m) m
  else
  let m := (m.scanPage ten p).copyPage p
  let e := Mem.read m.dram p.entry 8
  let m := m.writeEntry p.entry (p.target * frameBytes + e % 512)
  let m := m.uncachePages ten (p.va / frameBytes) n
  let m := (List.range n).foldl (fun m k => m.freeFrame (p.old + k)) m
  m.addFld Fld.XLT_TEN_FRAMES_FRAMES ten 0 n

/-- MIGRATION_PASS_DONE (R254): the copy has caught up and the final pass completes; where it would take longer than
MEM_MIG_STALL a further pass follows, and after four the migration is abandoned. -/
def execMigrationPassDone (route : Fin 256) (buffer : BitVec 10) (tooLong : Bool) (s : State) :
    Host.Outcome State Fault Refusal :=
  s.run fun m =>
    let n := route.val
    let bi := buffer.toNat
    match (m.route n).bind (fun r => Map.get? r.migrations bi) with
    | none => m
    | some g =>
      if tooLong then
        if 4 ≤ g.passes then m.abandonMigration n bi
        else m.setRoute n (fun r => { r with migrations := Map.insert r.migrations bi { g with passes := g.passes + 1 } })
      else
        let m := g.pages.foldl (fun m p => m.movePage g.ten.val p) m
        let m := m.setRoute n (fun r => { r with migrations := Map.erase r.migrations bi })
        (m.mirrorKeys g.ten.val).addFld Fld.MEM_TEN_KEYS_MIGRATIONS g.ten.val 0

end Sys2Proof.Machine
end

