-- ==== Sys2Proof/Machine/Checkpoint.lean ====
section
/-! DEFINITION. Machine/Checkpoint.lean: the checkpoint commands, the CHECKPOINT packets, captures and restores (R426 to
R444). -/

namespace Sys2Proof.Machine

/-! ## Shards and manifests (R426 to R428) -/

/-- A shard: Hold or virtual, address, bytes. -/
abbrev Shard := Bool × Nat × Nat

/-- A shard table entry within R426. -/
def shardOf (b : List Byte) : Option Shard :=
  let hold := fieldAt b 0 8 / 2 ^ 63 == 1
  let a := fieldAt b 0 8 % 2 ^ 63
  let n := fieldAt b 8 8
  if a % frameBytes = 0 ∧ a < (if hold then 2 ^ 32 else 2 ^ 48) ∧ n % frameBytes = 0 ∧ frameBytes ≤ n ∧ n ≤ 2 ^ 36 then
    some (hold, a, n)
  else none

/-- No two shards overlap. -/
def shardsApart : List Shard → Bool
  | [] => true
  | s :: rest => rest.all (fun x => x.1 != s.1 || decide (s.2.1 + s.2.2 ≤ x.2.1) || decide (x.2.1 + x.2.2 ≤ s.2.1))
      && shardsApart rest

/-- Every entry of a table of `n`, or none. -/
def shardsOf (b : List Byte) (n : Nat) : Option (List Shard) :=
  (List.range n).foldr (fun i acc =>
    match shardOf ((b.drop (16 * i)).take 16), acc with
    | some s, some ss => some (s :: ss)
    | _, _ => none) (some [])

def shardBytes (ss : List Shard) : Nat := (ss.map (·.2.2)).sum

/-- A shard is mapped: Hold banks of the tenancy's extents, or frames of its own. -/
def Module.shardMapped (m : Module) (ten : Nat) (s : Shard) : Bool × Module :=
  if s.1 then
    (match m.holdRange ten s.2.1 s.2.2 false with
      | .ok _ => true
      | .error _ => false, m)
  else
    match m.translateAll .ckp ten false (piecesOf s.2.1 s.2.2) with
    | (.error _, m) => (false, m)
    | (.ok ls, m) => (ls.all (fun l =>
        match l.1 with
        | .host _ => false
        | .dram pa => (tagBase (m.tag (pa / frameBytes))).isNone), m)

def Module.shardsMapped (m : Module) (ten : Nat) : List Shard → Bool × Module
  | [] => (true, m)
  | s :: ss =>
    match m.shardMapped ten s with
    | (false, m) => (false, m)
    | (true, m) => m.shardsMapped ten ss

/-- Read a shard. -/
def Module.readShard (m : Module) (ten : Nat) (s : Shard) : Except Fail (List Byte) × Module :=
  if s.1 then m.readHold .ckp ten s.2.1 s.2.2 else m.readVA .ckp ten s.2.1 s.2.2

/-- Read every shard; the first failure ends it. -/
def Module.readShards (m : Module) (ten : Nat) : List Shard → Except Fail (List (List Byte)) × Module
  | [] => (.ok [], m)
  | s :: ss =>
    match m.readShard ten s with
    | (.error e, m) => (.error e, m)
    | (.ok b, m) =>
      match m.readShards ten ss with
      | (.error e, m) => (.error e, m)
      | (.ok bs, m) => (.ok (b :: bs), m)

/-- The frames that hold the virtual shards. -/
def Module.shardFrames (m : Module) (ten : Nat) (ss : List Shard) : List Nat :=
  (ss.filter (fun s => !s.1)).flatMap (fun s => (piecesOf s.2.1 s.2.2).filterMap (fun p =>
    match m.walk ten p.1 false with
    | .ok (.dram pa) => some (pa / frameBytes)
    | _ => none))

/-- The entries of a manifest (R427). -/
def manifestEntries (ss : List Shard) (datas : List (List Byte)) : List Byte :=
  (List.range ss.length).flatMap (fun i =>
    let s := ss.getD i (false, 0, 0)
    leBytes 8 (s.2.1 + (if s.1 then 2 ^ 63 else 0)) ++ leBytes 8 s.2.2 ++ sha256 (datas.getD i []))

/-- A manifest (R427). -/
def Module.manifest (m : Module) (t : Ten) (c : Capture) (gen : Nat) (step : Word64) (datas : List (List Byte)) : List Byte :=
  let version := ((m.wrec t.val).map (fun w => (w.version (step + 1)).toNat)).getD 0
  let head := leBytes 4 0x33504B43 ++ [0, 3] ++ leBytes 2 c.shards.length ++ leBytes 8 gen ++ leBytes 8 (2 ^ 64 - 1 - gen)
    ++ leBytes 8 step.toNat ++ leBytes 3 ((m.jobOf t.val).getD 0) ++ [byteOf t.val] ++ leBytes 2 (m.positionOf t.val)
    ++ leBytes 2 version ++ leBytes 8 (m.fld Fld.RTC_SECONDS_SECONDS) ++ leBytes 8 (shardBytes c.shards)
    ++ leBytes 2 c.routeId ++ List.replicate 6 0
  let entries := manifestEntries c.shards datas
  head ++ sha256 (head ++ entries) ++ List.replicate 32 0 ++ entries

def mf.shards (b : List Byte) : Nat := fieldAt b 6 2
def mf.gen (b : List Byte) : Nat := fieldAt b 8 8
def mf.step (b : List Byte) : Nat := fieldAt b 24 8
def mf.module (b : List Byte) : Nat := bitsAt (fieldAt b 36 2) 0 13
def mf.version (b : List Byte) : Nat := fieldAt b 38 2
/-- Bytes of a manifest. -/
def mf.size (b : List Byte) : Nat := 128 + 48 * mf.shards b
def mf.entry (b : List Byte) (i : Nat) : List Byte := (b.drop (128 + 48 * i)).take 48

/-- MAGIC, MINOR, MAJOR and the number of shards match R427. -/
def mf.known (b : List Byte) : Bool :=
  fieldAt b 0 4 == 0x33504B43 && fieldAt b 4 1 == 0 && fieldAt b 5 1 == 3 && decide (1 ≤ mf.shards b) && decide (mf.shards b ≤ 1024)

/-- GENERATION_N is the complement of GENERATION (R11). -/
def mf.paired (b : List Byte) : Bool := fieldAt b 16 8 == 2 ^ 64 - 1 - mf.gen b

/-- DIGEST verifies over the header and the entries, all of which are present. -/
def mf.digestOk (b : List Byte) : Bool :=
  decide (mf.size b ≤ b.length)
    && (b.drop 64).take 32 == sha256 (b.take 64 ++ (b.drop 128).take (48 * mf.shards b))

/-- Every field of a manifest but the shards' own contents. -/
def mf.ok (b : List Byte) : Bool := mf.known b && mf.paired b && mf.digestOk b

/-- The shards that a manifest lists. -/
def mf.list (b : List Byte) : Option (List Shard) := shardsOf ((List.range (mf.shards b)).flatMap (fun i => (mf.entry b i).take 16)) (mf.shards b)

/-- BYTES of each shard. -/
def mf.sizes (b : List Byte) : List Nat := (List.range (mf.shards b)).map (fun i => fieldAt (mf.entry b i) 8 8)

/-- Offset of shard `i` in a slot image (R428). -/
def shardOffset (sizes : List Nat) (i : Nat) : Nat := frameBytes + (sizes.take i).sum

/-- Cut a run of bytes into packets of up to 4,096 bytes: offset and bytes. -/
def cutPackets (bs : List Byte) : List (Nat × List Byte) :=
  (List.range ((bs.length + 4095) / 4096)).map (fun k => (4096 * k, (bs.drop (4096 * k)).take 4096))

/-! ## The commands (R431, R436) -/

/-- The checks of R431 on a capture: `room` is SLOT_BYTES or DEST_BYTES. The command's shards and route. -/
def Module.ckpCheck (m : Module) (c : Cmd) (room : Nat) : Except Fail (Nat × List Shard) × Module :=
  let n := c.field 24 2
  if n = 0 ∨ 1024 < n then (.error ⟨st.check, 0, 0⟩, m)
  else
    match m.routeById c.ten (c.field 10 2) with
    | none => (.error ⟨st.check, 0, 0⟩, m)
    | some r =>
      match m.readVA .ckp c.ten.val (c.field 16 8) (16 * n) with
      | (.error e, m) => (.error e, m)
      | (.ok b, m) =>
        match shardsOf b n with
        | none => (.error ⟨st.check, 0, 0⟩, m)
        | some ss =>
          if !shardsApart ss || decide (room < shardBytes ss + frameBytes) then (.error ⟨st.check, 0, 0⟩, m)
          else
            match m.shardsMapped c.ten.val ss with
            | (false, m) => (.error ⟨st.check, 0, 0⟩, m)
            | (true, m) =>
              if (m.buddy c.ten).isNone || (m.capture c.ten).isSome then (.error ⟨st.resource, 0, 0⟩, m)
              else (.ok (r, ss), m)

/-- The route's next boundary: the latest step that a cluster executes or is to execute next. [log 109 DEDUCED] -/
def Module.nextBoundary (m : Module) (n : Nat) : Word64 :=
  (m.clustersOf n).foldl (fun a c => if a < (m.cl c).step then (m.cl c).step else a) 0

/-- Arm a capture from a step on. -/
def Module.armCapture (m : Module) (c : Cmd) (n : Nat) (cmd dest : Option Nat) (period : Nat) (ss : List Shard) : Module :=
  let step := BitVec.ofNat 64 (c.field 32 8)
  let next := m.nextBoundary n
  m.setCapture c.ten ⟨cmd, dest, c.field 10 2, period, some (if step < next then next else step), ss, none⟩

/-- Run a checkpoint command of a mode: MODE 3 and above are checked by the ONCE row. -/
def Module.withMode (m : Module) (id mode : Nat) (f : Cmd → Module → Module) : Module :=
  if ((m.cmd id).map (fun c => c.field 8 1 == mode || (mode == 0 && decide (2 < c.field 8 1)))).getD false then
    m.withCmd id 0x20 (fun c m => if 2 < c.field 8 1 then m.finish id st.check else f c m)
  else m

/-- The tenancy may send to its buddy (R307). -/
def Module.ckpJob (m : Module) (c : Cmd) : Bool := m.maySend c.ten.val

/-- CKPT_BUDDY_ONCE (R431): the capture is armed; its commit point is the release of the hold (R435). -/
def execCkptBuddyOnce (id : Nat) (s : State) : Host.Outcome State Fault Refusal :=
  s.run fun m => m.withMode id 0 fun c m =>
    match m.ckpCheck c (m.fld Fld.CKP_TEN_AREA_BYTES_SLOT_BYTES c.ten.val) with
    | (.error e, m) => m.finishFail id e
    | (.ok (n, ss), m) =>
      if !m.ckpJob c then m.finish id st.isolation else m.armCapture c n (some id) none 0 ss

/-- CKPT_BUDDY_PERIODIC (R431, R435): armed, and complete at once. -/
def execCkptBuddyPeriodic (id : Nat) (s : State) : Host.Outcome State Fault Refusal :=
  s.run fun m => m.withMode id 1 fun c m =>
    let period := c.field 12 4
    if period = 0 then m.finish id st.check
    else
      match m.ckpCheck c (m.fld Fld.CKP_TEN_AREA_BYTES_SLOT_BYTES c.ten.val) with
      | (.error e, m) => m.finishFail id e
      | (.ok (n, ss), m) =>
        if !m.ckpJob c then m.finish id st.isolation else (m.armCapture c n none none period ss).finish id st.ok

/-- CKPT_BUDDY_STOP (R431, R435): what is armed is disarmed; a command that it served ends ABORTED. [log 110 DEDUCED] -/
def execCkptBuddyStop (id : Nat) (s : State) : Host.Outcome State Fault Refusal :=
  s.run fun m => m.withMode id 2 fun c m =>
    match m.capture c.ten with
    | none => m.finish id st.resource
    | some x =>
      if x.due.isNone then m.finish id st.resource
      else
        let m := match x.cmd with
          | some k => m.finish k st.aborted
          | none => m
        (m.setCapture c.ten { x with due := none, cmd := none, period := 0 }).finish id st.ok

/-- CKPT_DURABLE (R436): a capture into a durable destination is armed. -/
def execCkptDurable (id : Nat) (s : State) : Host.Outcome State Fault Refusal :=
  s.run fun m => m.withCmd id 0x22 fun c m =>
    let dest := c.field 40 8
    match m.ckpCheck c (c.field 48 8) with
    | (.error e, m) => m.finishFail id e
    | (.ok (n, ss), m) =>
      if dest % frameBytes ≠ 0 then m.finish id st.check
      else
        match m.mapped .ckp c.ten.val dest (shardBytes ss + frameBytes) true with
        | (.error e, m) => m.finish id st.translation e.detail
        | (.ok _, m) => m.armCapture c n (some id) (some dest) 0 ss

/-! ## The hold of a capture (R432, R433) -/

/-- Every cluster of the route has committed the step and is held, no recovery epoch holds the route (R444), and a scheduled
route has its next batch built and zeroed. -/
def Module.captureReady (m : Module) (n : Nat) (step : Word64) : Bool :=
  match m.route n with
  | none => false
  | some r =>
    (m.clustersOf n).all (fun c => decide (step < (m.cl c).step) && !m.released c)
      && m.epochs.all (fun e => !e.routes.contains n) && !m.learnHolds n r (step + 1)

/-- Send the pieces of a shard or of the manifest; the bytes are counted. -/
def Module.sendPieces (m : Module) (t : Ten) (dst op : Nat) (slot : Bool) (shard gen : Nat) (bs : List Byte) : Module :=
  let m := m.addFld Fld.CKP_TEN_BYTES_COUNT t.val 0 bs.length
  (cutPackets bs).foldl (fun m p => m.sendCkp t dst op slot shard gen p.1 p.2) m

/-- Send an image to the buddy: zero over the old manifest, every shard, then the manifest (R433). -/
def Module.sendImage (m : Module) (t : Ten) (dst : Nat) (slot : Bool) (gen : Nat) (datas : List (List Byte))
    (man : List Byte) : Module :=
  let m := m.sendPieces t dst 0 slot shardManifest gen (List.replicate 128 0)
  let m := (List.range datas.length).foldl (fun m i => m.sendPieces t dst 0 slot i gen (datas.getD i [])) m
  m.sendPieces t dst 1 slot shardManifest gen man

/-- Write a slot image: the shards, then the manifest (R436). -/
def Module.writeImage (m : Module) (t : Ten) (va : Nat) (datas : List (List Byte)) (man : List Byte) : Except Fail Unit × Module :=
  match m.writeVA .ckp t.val (va + frameBytes) datas.flatten with
  | (.error e, m) => (.error e, m)
  | (.ok _, m) => m.writeVA .ckp t.val va man

/-- A capture that cannot read or write its memory fails (R434, R444). -/
def Module.captureError (m : Module) (t : Ten) (e : Fail) : Module := m.captureFail t e.status false

/-- CAPTURE_HOLD (R432, R433, R435, R436): the route is held at the boundary of the step, the shards are taken as they stand,
and the route goes on. [log 107 DEDUCED] -/
def execCaptureHold (ten : Ten) (s : State) : Host.Outcome State Fault Refusal :=
  s.run fun m =>
    match m.capture ten with
    | none => m
    | some c =>
      match c.due, m.routeById ten c.routeId with
      | some step, some n =>
        if c.sending.isSome || !m.captureReady n step then m
        else
          let gen := (m.reg .CKP_TEN_GEN ten.val).toNat + 1
          let m := m.setReg .CKP_TEN_GEN ten.val 0 (BitVec.ofNat 64 gen)
          let next := if c.period = 0 then none else some (step + BitVec.ofNat 64 c.period)
          let m := m.setCapture ten { c with due := next, sending := some ⟨BitVec.ofNat 64 gen, step,
            m.flag Fld.CKP_TEN_STATUS_NEXT_SLOT ten.val, m.shardFrames ten.val c.shards, c.cmd⟩, cmd := none }
          match m.readShards ten.val c.shards with
          | (.error e, m) => m.captureError ten e
          | (.ok datas, m) =>
            let man := m.manifest ten c gen step datas
            let m := match c.cmd with
              | some id => m.commitCmd id
              | none => m
            match c.dest with
            | some va =>
              match m.writeImage ten va datas man with
              | (.error e, m) => m.captureError ten e
              | (.ok _, m) => (match c.cmd with
                  | some id => m.finish id st.ok
                  | none => m).dropCapture ten
            | none =>
              match m.buddy ten with
              | none => m.captureFail ten st.busError true
              | some b =>
                if !m.maySend ten.val then m.captureFail ten st.isolation false
                else if !m.reaches ten b then m.captureFail ten st.busError true
                else m.sendImage ten b (m.flag Fld.CKP_TEN_STATUS_NEXT_SLOT ten.val) gen datas man
      | _, _ => m

/-! ## CHECKPOINT packets (R429, R430) -/

def cp (k : Packet) (lo w : Nat) : Nat := bitsAt k.spec.toNat lo w
def cp.op (k : Packet) : Nat := cp k 0 8
def cp.slot (k : Packet) : Nat := cp k 8 8
def cp.shard (k : Packet) : Nat := cp k 16 16
def cp.gen (k : Packet) : Nat := cp k 32 32
def cp.offset (k : Packet) : Nat := cp k 64 64

/-- Discard a packet (R429). -/
def Module.ckpDiscard (m : Module) (t : Ten) : Module := m.addFld Fld.CKP_TEN_DISCARDS_COUNT t.val 0

/-- The packet comes from the module that CKP_TEN_BUDDY names. [log 113 DEDUCED] -/
def Module.fromBuddy (m : Module) (t : Ten) (k : Packet) : Bool := m.buddy t == some k.src.toNat

/-- Take a CHECKPOINT packet of an OP from the buddy; one from elsewhere is discarded. -/
def Module.takeCkp (m : Module) (k : Packet) (op : Nat) (f : Ten → Module → Module) : Module :=
  if cp.op k != op then m
  else m.takeIn k 4 fun t m => if m.fromBuddy t k && decide (cp.slot k ≤ 1) then f t m else m.ckpDiscard t

/-- The address of a slot of the tenancy's area. -/
def Module.slotVA (m : Module) (t : Ten) (slot : Nat) : Nat :=
  m.fld Fld.CKP_TEN_AREA_VA t.val + slot * m.fld Fld.CKP_TEN_AREA_BYTES_SLOT_BYTES t.val

def heldKey (t : Ten) (slot : Nat) : Nat := 2 * t.val + slot

/-- Answer a CHECKPOINT packet. -/
def Module.ckpAnswer (m : Module) (t : Ten) (k : Packet) (op : Nat) (bs : List Byte) : Module :=
  m.sendCkp t k.src.toNat op (cp.slot k == 1) (cp.shard k) (cp.gen k) (cp.offset k) bs

/-- SHARD_DATA (R430): the data go to the slot; a shard follows those received before it. [log 108 DEDUCED] -/
def execShardData (pkt : Packet) (s : State) : Host.Outcome State Fault Refusal :=
  s.run fun m => m.takeCkp pkt 0 fun t m =>
    let n := pkt.payload.length
    let slot := cp.slot pkt
    let head := cp.shard pkt == shardManifest
    let sizes := if head then [] else (Map.get? m.held (heldKey t slot)).getD []
    let i := cp.shard pkt
    let base := if head then 0 else shardOffset sizes i
    let stop := base + cp.offset pkt + n
    if 4096 < n || decide (m.fld Fld.CKP_TEN_AREA_BYTES_SLOT_BYTES t.val < stop)
        || (head && decide (frameBytes < stop)) || (!head && decide (sizes.length < i)) then m.ckpDiscard t
    else
      let size := max (sizes.getD i 0) (cp.offset pkt + n)
      let m := { m with held := Map.insert m.held (heldKey t slot) (if head then [] else sizes.take i ++ [size] ++ sizes.drop (i + 1)) }
      match m.writeVA .ckp t.val (m.slotVA t slot + base + cp.offset pkt) pkt.payload with
      | (.ok _, m) => m
      | (.error _, m) => m.ckpAnswer t pkt 5 []

/-- Read the manifest of a slot. -/
def Module.readManifest (m : Module) (t : Ten) (va : Nat) : Except Fail (List Byte) × Module :=
  match m.readVA .ckp t.val va 128 with
  | (.error e, m) => (.error e, m)
  | (.ok h, m) => if mf.known h then m.readVA .ckp t.val va (mf.size h) else (.ok h, m)

/-- Every shard of a slot image verifies. -/
def Module.shardsVerify (m : Module) (t : Ten) (va : Nat) (man : List Byte) : Bool × Module :=
  (List.range (mf.shards man)).foldl (fun (acc : Bool × Module) i =>
    if !acc.1 then acc
    else
      match acc.2.readVA .ckp t.val (va + shardOffset (mf.sizes man) i) ((mf.sizes man).getD i 0) with
      | (.error _, m) => (false, m)
      | (.ok b, m) => (sha256 b == (mf.entry man i).drop 16, m)) (true, m)

/-- The manifest of a slot is valid (R428); a generation that disagrees with its complement raises PAIR (R11). -/
def Module.slotValid (m : Module) (t : Ten) (slot : Nat) : Option (List Byte) × Module :=
  match m.readManifest t (m.slotVA t slot) with
  | (.error _, m) => (none, m)
  | (.ok man, m) =>
    if !mf.known man then (none, m)
    else if !mf.paired man then (none, m.raise Kind.CKP_PAIR t.val slot)
    else
      let m := m.probe Kind.CKP_PAIR t.val slot
      if !mf.digestOk man || decide (m.fld Fld.CKP_TEN_AREA_BYTES_SLOT_BYTES t.val < shardOffset (mf.sizes man) (mf.shards man)) then
        (none, m)
      else
        match m.shardsVerify t (m.slotVA t slot) man with
        | (true, m) => (some man, m)
        | (false, m) => (none, m)

/-- MANIFEST (R430): once all of it is written, it is validated and acknowledged, and the held values are set. -/
def execManifest (pkt : Packet) (s : State) : Host.Outcome State Fault Refusal :=
  s.run fun m => m.takeCkp pkt 1 fun t m =>
    let n := pkt.payload.length
    let slot := cp.slot pkt
    let stop := cp.offset pkt + n
    if 4096 < n || decide (frameBytes < stop) || decide (m.fld Fld.CKP_TEN_AREA_BYTES_SLOT_BYTES t.val < stop) then m.ckpDiscard t
    else
      match m.writeVA .ckp t.val (m.slotVA t slot + cp.offset pkt) pkt.payload with
      | (.error _, m) => m.ckpAnswer t pkt 5 []
      | (.ok _, m) =>
        match m.readVA .ckp t.val (m.slotVA t slot) 128 with
        | (.error _, m) => m.ckpAnswer t pkt 5 []
        | (.ok h, m) =>
          if mf.known h && decide (stop < mf.size h) then m
          else
            match m.slotValid t slot with
            | (none, m) => m.ckpAnswer t pkt 5 []
            | (some man, m) =>
              let m := m.setReg .CKP_TEN_HELD_GEN t.val 0 (BitVec.ofNat 64 (mf.gen man))
              let m := m.setReg .CKP_TEN_HELD_STEP t.val 0 (BitVec.ofNat 64 (mf.step man))
              let m := m.setReg .CKP_TEN_HELD_MODULE t.val 0 (BitVec.ofNat 64 (2 ^ 31 + mf.module man))
              m.ckpAnswer t pkt 2 []

/-- The oldest CHECKPOINT packet of an OP that waits for the tenancy. -/
def Module.ckpWaiting (m : Module) (t : Ten) (op : Nat) : Option Packet :=
  (m.inbox.find? (fun e => e.2.kind == 4 && e.1 == t && cp.op e.2 == op)).map (·.2)

/-- CKP_ACK (R433): the buddy has acknowledged the manifest: the capture succeeds, and the next one goes to the other slot. -/
def execCkpAck (ten : Ten) (s : State) : Host.Outcome State Fault Refusal :=
  s.run fun m =>
    match m.ckpWaiting ten 2 with
    | none => m
    | some k => m.takeCkp k 2 fun t m =>
      match m.capture t with
      | none => m
      | some c =>
        match c.sending with
        | none => m
        | some x =>
          if x.gen.toNat % 2 ^ 32 != cp.gen k then m
          else
            let m := m.setReg .CKP_TEN_SENT_GEN t.val 0 x.gen
            let m := m.setReg .CKP_TEN_SENT_STEP t.val 0 x.step
            let m := m.setFlag Fld.CKP_TEN_STATUS_NEXT_SLOT t.val 0 (!x.slot)
            let m := match x.cmd with
              | some id => m.finish id st.ok
              | none => m
            m.setCapture t { c with sending := none }

/-- READ_REQ (R437): the holder serves the requester that its CKP_TEN_BUDDY names, from its area. -/
def execReadReq (pkt : Packet) (s : State) : Host.Outcome State Fault Refusal :=
  s.run fun m => m.takeCkp pkt 3 fun t m =>
    let slot := cp.slot pkt
    let n := min 4096 (fieldAt pkt.payload 0 4)
    let head := cp.shard pkt == shardManifest
    match m.readManifest t (m.slotVA t slot) with
    | (.error _, m) => m.ckpAnswer t pkt 5 []
    | (.ok man, m) =>
      let sizes := if mf.known man then mf.sizes man else []
      let base := if head then 0 else shardOffset sizes (cp.shard pkt)
      let top := if head then frameBytes else base + sizes.getD (cp.shard pkt) 0
      let stop := base + cp.offset pkt + n
      if top < stop || m.fld Fld.CKP_TEN_AREA_BYTES_SLOT_BYTES t.val < stop then m.ckpDiscard t
      else
        match m.readVA .ckp t.val (m.slotVA t slot + base + cp.offset pkt) n with
        | (.error _, m) => m.ckpAnswer t pkt 5 []
        | (.ok b, m) => m.ckpAnswer t pkt 4 b

/-- CKP_TIMEOUT_EXPIRE (R434): no acknowledgement has come within CKP_TIMEOUT. -/
def execCkpTimeoutExpire (ten : Ten) (s : State) : Host.Outcome State Fault Refusal :=
  s.run fun m =>
    if m.fld Fld.CKP_TIMEOUT_US = 0 || !((m.capture ten).map (fun c => c.sending.isSome)).getD false then m
    else m.captureFail ten st.busError false

/-! ## Restoring (R437 to R439) -/

/-- Take staging pages for the leaf pages of a virtual range, of the same sizes, from the tenancy's quota. -/
def Module.stagePages (m : Module) (ten stop : Nat) : Nat → Nat → List MigPage → Option Nat × List MigPage × Module
  | 0, _, ps => (none, ps, m)
  | fuel + 1, va, ps =>
    if stop ≤ va then (none, ps, m)
    else
      match m.leafAt ten va 4 (m.fld Fld.XLT_TEN_ROOT_FRAME ten * frameBytes) with
      | none => (some st.translation, ps, m)
      | some (lvl, ea) =>
        let size := 2 ^ (levelShift lvl).1
        let base := va / size * size
        if ps.any (fun p => p.va == base) then m.stagePages ten stop fuel (base + size) ps
        else
          let got := if size / frameBytes = 1 then m.allocFrame ten else m.allocRun ten (size / frameBytes)
          match got with
          | none => (some st.resource, ps, m)
          | some (f, m) =>
            m.stagePages ten stop fuel (base + size) (ps ++ [⟨base, lvl, ea, entAddr (Mem.read m.dram ea 8) / frameBytes, f⟩])

/-- Take a staging bank for each bank of a Hold range. -/
def Module.stageBanks (m : Module) : List (Nat × Nat) → List (Nat × Nat) → Option Nat × List (Nat × Nat) × Module
  | [], bs => (none, bs, m)
  | p :: ps, bs =>
    let old := p.1 / bankBytes
    match m.pickBank (fun _ => true) with
    | none => (some st.resource, bs, m)
    | some q =>
      let m := ({ m.drawn with banks := Map.set .reset m.banks q { m.bank q with state := 1, entry := (m.bank old).entry } }).countBank q false
      m.stageBanks ps (bs ++ [(old, q)])

/-- The check of a shard's destination: its own frames, or banks of its extents (R439). -/
def Module.destCheck (m : Module) (t : Ten) (s : Shard) : Option Nat × Module :=
  if s.1 then
    match m.holdRange t.val s.2.1 s.2.2 true with
    | .ok _ => (none, m)
    | .error e => let r := m.holdRefuse t.val s.2.1 e; (some r.1.status, r.2)
  else
    match m.translateAll .ckp t.val false (piecesOf s.2.1 s.2.2) with
    | (.error e, m) => (some e.status, m)
    | (.ok ls, m) =>
      (if ls.all (fun l => match l.1 with
        | .host _ => false
        | .dram pa => (tagBase (m.tag (pa / frameBytes))).isNone) then none else some st.isolation, m)

/-- Stage one shard; answers the status of a failure. -/
def Module.stageShard (m : Module) (t : Ten) (s : Shard) : Option Nat × Module :=
  match m.destCheck t s, m.restore t with
  | (some e, m), _ => (some e, m)
  | (none, m), none => (none, m)
  | (none, m), some x =>
    if s.1 then
      match m.holdRange t.val s.2.1 s.2.2 true with
      | .error _ => (some st.isolation, m)
      | .ok ps =>
        let (e, bs, m) := m.stageBanks ps x.banks
        (e, { m with restores := Map.insert m.restores t.val { x with banks := bs } })
    else
      let (e, ps, m) := m.stagePages t.val (s.2.1 + s.2.2) (s.2.2 / frameBytes + 1) s.2.1 x.pages
      (e, { m with restores := Map.insert m.restores t.val { x with pages := ps } })

def Module.stageShards (m : Module) (t : Ten) : List Shard → Option Nat × Module
  | [] => (none, m)
  | s :: ss =>
    match m.stageShard t s with
    | (some e, m) => (some e, m)
    | (none, m) => m.stageShards t ss

/-- Ask the holder for bytes of a shard or of a manifest; a tenancy that has lost its registration ends the restore (R307). -/
def Module.askHolder (m : Module) (t : Ten) (holder : Nat) (slot : Bool) (shard gen lo n : Nat) : Module :=
  if !m.maySend t.val then m.restoreFail t st.isolation
  else (List.range ((n + 4095) / 4096)).foldl (fun m k =>
    m.sendCkp t holder 3 slot shard gen (lo + 4096 * k) (leBytes 4 (min 4096 (n - 4096 * k)))) m

/-- The manifests that may be restored: fields valid, and of the generation asked for. -/
def Restore.fit (x : Restore) : List (Bool × Nat × List Byte) :=
  x.heads.filter (fun h => mf.ok h.2.2 && (x.want == 0 || x.want.toNat == mf.gen h.2.2))

/-- The newest of them (R428). -/
def Restore.newest (x : Restore) : Option (Bool × List Byte) :=
  x.fit.foldl (fun a h =>
    match a with
    | none => some (h.1, h.2.2)
    | some b => if mf.gen b.2 < mf.gen h.2.2 then some (h.1, h.2.2) else a) none

/-- Choose the manifest, stage its shards, and ask for them (R437, R438). -/
def Module.chooseManifest (m : Module) (t : Ten) : Module :=
  match m.restore t with
  | none => m
  | some x =>
    match x.newest with
    | none => m.restoreFail t st.check
    | some (slot, man) =>
      match mf.list man with
      | none => m.restoreFail t st.check
      | some ss =>
        let m := { m with restores := Map.insert m.restores t.val { x with chosen := some (slot, man), parts := [] } }
        match m.stageShards t ss with
        | (some e, m) => m.restoreFail t e
        | (none, m) =>
          if 2 ^ 13 ≤ x.holder then m
          else (List.range ss.length).foldl (fun m i =>
            m.askHolder t x.holder slot i (mf.gen man) 0 ((mf.sizes man).getD i 0)) m

/-- Drop the manifest that was chosen, which has proved invalid, and choose again. [log 111 DEDUCED] -/
def Module.chooseAgain (m : Module) (t : Ten) : Module :=
  match m.restore t with
  | none => m
  | some x =>
    let slot := (x.chosen.map (·.1)).getD false
    let m := m.dropStaging t x
    let m := { m with restores := Map.insert m.restores t.val { x with
      heads := x.heads.filter (fun h => h.1 != slot), chosen := none, pages := [], banks := [], parts := [] } }
    m.chooseManifest t

/-- PAIR for a manifest whose generation disagrees with its complement (R439). -/
def Module.pairHead (m : Module) (t : Ten) (b : List Byte) : Module :=
  if mf.known b && !mf.paired b then m.raise Kind.CKP_PAIR t.val 0 else m.probe Kind.CKP_PAIR t.val 0

/-- Read the image of a durable checkpoint into the restore. -/
def Module.readDurable (m : Module) (t : Ten) (va : Nat) : Module :=
  match m.restore t with
  | none => m
  | some x =>
    match m.readManifest t va with
    | (.error e, m) => m.restoreFail t e.status
    | (.ok man, m) =>
      let m := m.pairHead t man
      let m := { m with restores := Map.insert m.restores t.val { x with heads := [(false, 0, man)] } }
      let m := m.chooseManifest t
      match (m.restore t).bind (fun y => y.chosen) with
      | none => m
      | some (_, man) =>
        (List.range (mf.shards man)).foldl (fun m i =>
          match m.restore t, m.readVA .ckp t.val (va + shardOffset (mf.sizes man) i) ((mf.sizes man).getD i 0) with
          | some y, (.ok b, m) => { m with restores := Map.insert m.restores t.val { y with parts := y.parts ++ [(i, 0, b)] } }
          | some _, (.error e, m) => m.restoreFail t e.status
          | none, _ => m) m

/-- A ferry of the tenancy is running. -/
def Module.ferryRuns (m : Module) (t : Ten) : Bool :=
  (m.channelsOf t).any (fun c => m.chState c == chRunning || m.chState c == chPausing)

/-- The route of a restore may be set: LOADED or STOPPED, with no ferry running (R438). -/
def Module.restorable (m : Module) (t : Ten) (routeId : Nat) : Option Nat :=
  match m.routeById t routeId with
  | none => none
  | some n =>
    match m.route n with
    | none => none
    | some r => if (r.state == .loaded || r.state == .stopped) && !m.ferryRuns t then some n else none

/-- CKPT_RESTORE (R437 to R439): a durable image is read here; a buddy's two manifests are asked for. -/
def execCkptRestore (id : Nat) (s : State) : Host.Outcome State Fault Refusal :=
  s.run fun m => m.withCmd id 0x21 fun c m =>
    let t := c.ten
    let src := c.field 8 1
    let want := BitVec.ofNat 64 (c.field 24 8)
    if 1 < src then m.finish id st.check
    else if (m.restore t).isSome || (m.restorable t (c.field 10 2)).isNone then m.finish id st.resource
    else if src = 1 then
      let m := ({ m with restores := Map.insert m.restores t.val ⟨id, 2 ^ 13, want, [], none, [], [], []⟩ }).mirrorCkp t
      m.readDurable t (c.field 16 8)
    else if !m.ckpJob c then m.finish id st.isolation
    else
      let holder := c.field 12 2
      if !m.reaches t holder then (m.raise Kind.CKP_BUDDY_LOST t.val holder).finish id st.busError
      else
        let x : Restore := ⟨id, holder, want, [(false, 128, []), (true, 128, [])], none, [], [], []⟩
        let m := ({ m with restores := Map.insert m.restores t.val x }).mirrorCkp t
        (m.askHolder t holder false shardManifest 0 0 128).askHolder t holder true shardManifest 0 0 128

/-- Every manifest that was asked for has arrived, or cannot. -/
def Restore.headsDone (x : Restore) : Bool := x.heads.all (fun h => decide (h.2.1 ≤ h.2.2.length))

/-- Bytes of a manifest arrive: once its header shows how long it is, the rest is asked for. -/
def Module.headData (m : Module) (t : Ten) (x : Restore) (k : Packet) : Module :=
  let slot := cp.slot k == 1
  match x.heads.find? (fun h => h.1 == slot) with
  | none => m
  | some h =>
    if cp.offset k != h.2.2.length || decide (h.2.1 ≤ h.2.2.length) then m
    else
      let b := h.2.2 ++ k.payload
      let more := h.2.1 == 128 && b.length == 128 && mf.known b
      let need := if more then mf.size b else if b.length == 128 then 128 else h.2.1
      let x := { x with heads := x.heads.map (fun g => if g.1 == slot then (slot, need, b) else g) }
      let m := { m with restores := Map.insert m.restores t.val x }
      let m := if more then m.askHolder t x.holder slot shardManifest 0 128 (need - 128) else m
      let m := if b.length = need then m.pairHead t b else m
      if x.headsDone then m.chooseManifest t else m

/-- READ_DATA (R437, R438): bytes of a manifest, or of a shard for the staging. -/
def execReadData (pkt : Packet) (s : State) : Host.Outcome State Fault Refusal :=
  s.run fun m =>
    if cp.op pkt != 4 then m
    else m.takeIn pkt 4 fun t m =>
      match m.restore t with
      | none => m.ckpDiscard t
      | some x =>
        if x.holder != pkt.src.toNat then m.ckpDiscard t
        else if cp.shard pkt = shardManifest then (if x.chosen.isNone then m.headData t x pkt else m)
        else
          match x.chosen with
          | none => m
          | some (slot, man) =>
            if (cp.slot pkt == 1) != slot || cp.gen pkt != mf.gen man % 2 ^ 32 then m
            else { m with restores := Map.insert m.restores t.val { x with
              parts := x.parts ++ [(cp.shard pkt, cp.offset pkt, pkt.payload)] } }

/-- CKP_NAK (R434): the buddy refuses: the capture fails. A holder's refusal rules out the manifest that was read. -/
def execCkpNak (ten : Ten) (s : State) : Host.Outcome State Fault Refusal :=
  s.run fun m =>
    match m.ckpWaiting ten 5 with
    | none => m
    | some k => m.takeIn k 4 fun t m =>
      if m.fromBuddy t k
          && (((m.capture t).bind (fun c => c.sending)).map (fun x => x.gen.toNat % 2 ^ 32 == cp.gen k)).getD false then
        m.captureFail t st.busError false
      else
        match m.restore t with
        | some x =>
          if x.holder == k.src.toNat then
            if x.chosen.isSome then m.chooseAgain t
            else
              let x := { x with heads := x.heads.filter (fun h => h.1 != (cp.slot k == 1)) }
              let m := { m with restores := Map.insert m.restores t.val x }
              if x.headsDone then m.chooseManifest t else m
          else m.ckpDiscard t
        | none => if m.fromBuddy t k then m else m.ckpDiscard t

/-- The contents of a shard from its parts, joined in order. -/
def joinParts (ps : List (Nat × List Byte)) : Nat → List Byte → List Byte
  | 0, acc => acc
  | fuel + 1, acc =>
    match ps.find? (fun p => p.1 == acc.length && !p.2.isEmpty) with
    | some p => joinParts ps fuel (acc ++ p.2)
    | none => acc

def Restore.data (x : Restore) (i : Nat) : List Byte :=
  let ps := (x.parts.filter (fun p => p.1 == i)).map (·.2)
  joinParts ps ps.length []

/-- Write a shard's bytes into its staging: the target frames, or the new banks. -/
def Module.fillStaging (m : Module) (t : Ten) (x : Restore) (s : Shard) (b : List Byte) : Module :=
  if s.1 then
    match m.holdRange t.val s.2.1 s.2.2 true with
    | .error _ => m
    | .ok ps => m.writeHoldLocs (ps.map (fun p =>
        (((x.banks.find? (fun q => q.1 == p.1 / bankBytes)).map (·.2)).getD 0 * bankBytes + p.1 % bankBytes, p.2))) b
  else
    (piecesOf s.2.1 s.2.2).foldl (fun m p =>
      match x.pages.find? (fun g => decide (g.va ≤ p.1) && decide (p.1 < g.va + 2 ^ (levelShift g.level).1)) with
      | some g => m.writeLoc t.val (.dram (g.target * frameBytes + (p.1 - g.va))) ((b.drop (p.1 - s.2.1)).take p.2)
      | none => m) m

/-- Install a staging page: its entry is rewritten with the complement, its translations invalidated, the old frames freed
(R254 step 4, R270). A page whose entry the tenancy has changed since it was staged stays as the tenancy left it, and its
staging frames are freed (R272). [log 80 DEDUCED] -/
def Module.installPage (m : Module) (ten : Nat) (p : MigPage) : Module :=
  let n := leafFrames p.level
  if !m.mayMove ten p then m.releaseFrames ten ((List.range n).map (fun k => p.target + k))
  else
    let e := Mem.read m.dram p.entry 8
    let m := m.writeEntry p.entry (p.target * frameBytes + e % 512)
    let m := m.uncachePages ten (p.va / frameBytes) n
    (List.range n).foldl (fun m k => m.freeFrame (p.old + k)) m

/-- Install a staging bank: the map entry is rewritten, and the old bank is zeroed and free (R259). -/
def Module.installBank (m : Module) (b : Nat × Nat) : Module :=
  let e := (m.bank b.1).entry.toNat
  ({ m with holdMap := Map.set holdMapFree m.holdMap e (tagWord (0x8000 + b.2)) }).releaseBank b.1

/-- The batch of a learning step as its slot in memory shows it (R227, R440). -/
def Module.batchFrom (m : Module) (t : Ten) (r : Route) (step : Word64) : Option Batch × Module :=
  let cfg := r.learn.getD (m.learnCfg t.val none)
  let slot := cfg.batch + step.toNat % max 1 cfg.depth * 2 ^ cfg.slotLog2
  match m.readVA .ckp t.val slot 64 with
  | (.error _, m) => (none, m)
  | (.ok h, m) =>
    if fieldAt h 0 8 ≠ step.toNat then (none, m)
    else
      match m.readVA .ckp t.val (slot + 0x10000) (16 * fieldAt h 10 2) with
      | (.error _, m) => (none, m)
      | (.ok es, m) => (some ⟨step, fieldAt h 8 2, fieldAt h 12 4,
          (List.range (fieldAt h 10 2)).map (fun i => (fieldAt es (16 * i) 4, fieldAt es (16 * i + 4) 4)), false⟩, m)

/-- The last committed step of every stage becomes STEP (R438): what the engines hold of later steps is discarded. -/
def Module.setCommitted (m : Module) (n : Nat) (step : Word64) : Module :=
  match m.route n with
  | none => m
  | some r =>
    let next := step + 1
    let m := (m.clustersOf n).foldl (fun m c =>
      let m := m.setCl c { m.cl c with step := next, committedAny := true, nextKind := 2 }
      (m.setReg .FAB_CL_STEP c 0 step).mirrorTwin c) m
    let m := (m.dropSlots r).setRoute n (fun r => { r with
      state := .stopped, slots := [], nextBuild := next, divisions := [], entered := []
      stages := r.stages.map (fun sg => { sg with top := some step, busyLog := [] }) })
    if !r.isLearner then m.mirrorRoute n
    else
      let kept := r.batches.filter (fun b => b.step == next)
      let m := (m.caravansOf r.ten).foldl (fun m p =>
        { m with caravans := Map.insert m.caravans p.1 { p.2 with seqs := p.2.seqs.map (fun q =>
          if q.batch == some next then q else { q with batch := none }) } }) m
      let (found, m) := if kept.isEmpty then m.batchFrom r.ten r next else (none, m)
      let bs := (kept ++ found.toList).map (fun b => { b with zeroed := false })
      (m.setRoute n (fun r => { r with batches := bs, nextBuild := if bs.isEmpty then next else next + 1 })).mirrorRoute n

/-- RESTORE_INSTALL (R438): every shard has arrived and verifies: they are installed at once. A manifest whose shards do not
verify is not valid (R428). [log 112 DEDUCED] -/
def execRestoreInstall (ten : Ten) (s : State) : Host.Outcome State Fault Refusal :=
  s.run fun m =>
    match m.restore ten with
    | none => m
    | some x =>
      match x.chosen with
      | none => m
      | some (_, man) =>
        let sizes := mf.sizes man
        let datas := (List.range sizes.length).map x.data
        if (List.range sizes.length).any (fun i => decide ((datas.getD i []).length < sizes.getD i 0)) then m
        else if (List.range sizes.length).any (fun i => sha256 (datas.getD i []) != (mf.entry man i).drop 16) then m.chooseAgain ten
        else
          match (m.cmd x.cmd).bind (fun c => m.restorable ten (c.field 10 2)), mf.list man with
          | some n, some ss =>
            let m := x.pages.foldl (fun m p => (m.scanPage ten.val p).copyPage p) m
            let m := (List.range ss.length).foldl (fun m i =>
              m.fillStaging ten x (ss.getD i (false, 0, 0)) (datas.getD i [])) m
            let m := x.pages.foldl (fun m p => m.installPage ten.val p) m
            let m := x.banks.foldl (fun m b => m.installBank b) m
            let step := BitVec.ofNat 64 (mf.step man)
            let m := m.setCommitted n step
            let m := m.setReg .CKP_TEN_GEN ten.val 0 (BitVec.ofNat 64 (mf.gen man))
            let m := ({ m with restores := Map.erase m.restores ten.val }).mirrorCkp ten
            m.finish x.cmd st.ok (mf.version man * 2 ^ 48 + step.toNat % 2 ^ 48)
          | _, _ => m.restoreFail ten st.resource

end Sys2Proof.Machine
end

