-- ==== Sys2Proof/Machine/Operands.lean ====
section
/-! DEFINITION. Machine/Operands.lean: the operand forms of the tile instructions (R82, R83), the register files with
their hard-wired registers (R80), and the issue and retirement of an instruction (R77, R78, R96, R107). -/

namespace Sys2Proof.Machine

/-! ## Register files (R80) -/

def Tile.sreg (x : Tile) (i : Nat) : Word := if i = 0 then 0 else Map.get 0 x.s i
def Tile.setS (x : Tile) (i : Nat) (v : Word) : Tile := if i = 0 then x else { x with s := Map.set 0 x.s i v }
def Tile.areg (x : Tile) (i : Nat) : Word64 := Map.get 0 x.a i
def Tile.setA (x : Tile) (i : Nat) (v : Word64) : Tile := { x with a := Map.set 0 x.a i v }
def Tile.preg (x : Tile) (i : Nat) : Word := if i = 0 then 0xFFFFFFFF#32 else Map.get 0 x.p i
def Tile.setP (x : Tile) (i : Nat) (v : Word) : Tile := if i = 0 then x else { x with p := Map.set 0 x.p i v }
/-- Lane `l` of vector register `i`. -/
def Tile.lane (x : Tile) (i l : Nat) : Word := Map.get 0 x.v (32 * i + l)
def Tile.setLane (x : Tile) (i l : Nat) (v : Word) : Tile := { x with v := Map.set 0 x.v (32 * i + l) v }
/-- Write the lanes of a vector register for which the mask holds. -/
def Tile.setLanes (x : Tile) (i : Nat) (mask : Word) (f : Nat → Word) : Tile :=
  (List.range 32).foldl (fun x l => if mask.getLsbD l then x.setLane i l (f l) else x) x

/-! ## Operand forms (R82, R83) -/

/-- The register file that an instruction names for a specifier; `none`: the field is not used. -/
inductive RF where
  | none | s | a | v | p
  deriving DecidableEq, Repr

/-- Registers of a file; a Skaesque 2 program sees fewer (R83, R108). -/
def RF.limit (skq2 : Bool) : RF → Nat
  | .none => 64
  | .s => if skq2 then 16 else 32
  | .a => if skq2 then 8 else 16
  | .v => 16
  | .p => 8

/-- The operand form of an instruction: the file of each specifier, the mod values listed for it, and the bits of imm
that it uses beside the third specifier. -/
structure Form where
  d : RF := .none
  a : RF := .none
  b : RF := .none
  c : RF := .none
  mods : List Nat := [0]
  imm : Nat := 0
  deriving DecidableEq, Repr

/-- The third specifier, imm[31:26]. -/
def spec3 (w : Fields) : Nat := bitsAt w.imm.toNat 26 6

/-- Bits of the immediate. -/
def immBits (w : Fields) (lo n : Nat) : Nat := bitsAt w.imm.toNat lo n

/-- Halt causes of R107. -/
abbrev cause.opcode : Nat := 1
abbrev cause.specifier : Nat := 2
abbrev cause.mod : Nat := 3
abbrev cause.unused : Nat := 4
abbrev cause.pcRange : Nat := 5
abbrev cause.loopRange : Nat := 6
abbrev cause.special : Nat := 7
abbrev cause.port : Nat := 8
abbrev cause.barrier : Nat := 9
abbrev cause.fallthrough : Nat := 10

/-- A specifier exceeds the range of its file. -/
def RF.bad (skq2 : Bool) (f : RF) (v : Nat) : Bool := f != .none && decide (f.limit skq2 ≤ v)

/-- A field that the form does not use is not zero. -/
def RF.unusedBad (f : RF) (v : Nat) : Bool := f == .none && v != 0

/-- Bits of imm that the form uses. -/
def Form.immMask (f : Form) : Nat := f.imm ||| (if f.c == .none then 0 else 0xFC000000)

/-- The first reason, in the order of the table of R107, for which a word of this form is illegal (R83). -/
def Form.illegal (f : Form) (skq2 : Bool) (w : Fields) : Option Nat :=
  if f.d.bad skq2 w.d.toNat || f.a.bad skq2 w.a.toNat || f.b.bad skq2 w.b.toNat || f.c.bad skq2 (spec3 w) then
    some cause.specifier
  else if !f.mods.contains w.mod.toNat then some cause.mod
  else if f.d.unusedBad w.d.toNat || f.a.unusedBad w.a.toNat || f.b.unusedBad w.b.toNat
      || w.imm.toNat &&& f.immMask != w.imm.toNat then some cause.unused
  else none

/-- The instruction word (R82). -/
def wordOf (op : Nat) (w : Fields) : Nat :=
  op * 2 ^ 56 + w.d.toNat * 2 ^ 50 + w.a.toNat * 2 ^ 44 + w.b.toNat * 2 ^ 38 + w.mod.toNat * 2 ^ 32 + w.imm.toNat

/-! ## Issue (R77, R78) -/

/-- What an issuing span knows: its route and stage, its origin tile, and the tile named. -/
structure Ctx where
  n : Nat
  r : Route
  sg : Stage
  o : TileId
  deriving DecidableEq, Repr

/-- The depot line of an instruction index: code follows the 64-byte header (R85). -/
def lineOf (pc : Nat) : Nat := (64 + 8 * pc) / 64

/-- The core may issue: it is ready, or waits on this very instruction. -/
def Tile.issues (x : Tile) (op : Byte) (w : Fields) : Bool :=
  match x.core with
  | .ready => true
  | .waiting op' w' => op' == op && w' == w
  | _ => false

/-- The span of a tile issues the instruction: its cluster is released in a step of a running route, its origin's core
may issue, the instruction cache holds the line of the program counter, and the depot holds this word there. Otherwise
the tile does not issue it, and the command has no effect. [log 3 DESIGN CHOICE] -/
def Module.issueCtx (m : Module) (t : TileId) (op : Byte) (w : Fields) : Option Ctx :=
  match m.stageOf t.cl.val with
  | none => none
  | some (n, r, sg) =>
    let o := m.origin t
    let x := m.tile o
    if m.clocked && m.released t.cl.val && (r.state == .running || r.state == .stopping) && x.issues op w
        && x.icache.contains (lineOf x.pc)
        && Mem.read (m.cl t.cl.val).depot (64 + 8 * x.pc) 8 == wordOf op.toNat w then
      some ⟨n, r, sg, o⟩
    else none

/-! ## Retirement (R96) -/

/-- The end check of R96 at index `pc`: the innermost loop's count falls; a finished loop is popped, and an outer loop's
check applies to the same index. -/
def loopEnd (pc : Nat) : List Loop → Nat × List Loop
  | [] => (pc + 1, [])
  | l :: rest =>
    if l.stop = pc then
      if l.count = 1 then loopEnd pc rest
      else (l.start, { l with count := l.count - 1 } :: rest)
    else (pc + 1, l :: rest)

/-- Move the control state of every tile of the span. -/
def Module.control (m : Module) (cx : Ctx) (pc : Nat) (loops : List Loop) : Module :=
  m.mapSpan cx.o (fun _ x => { x with pc := pc, loops := loops, core := .ready })

/-- Retire the instruction without a taken branch; passing the last instruction halts (R96, R107). [log 13 DEDUCED] -/
def Module.retire (m : Module) (cx : Ctx) : Module :=
  let x := m.tile cx.o
  let (pc, loops) := loopEnd x.pc x.loops
  let m := m.control cx pc loops
  if cx.sg.prog.codeLen ≤ pc then m.haltTile cx.o cause.fallthrough else m

/-- A branch target, in the code (R95). -/
def target (pc : Nat) (off : Word) (len : Nat) : Option Nat :=
  let x : Int := pc + off.toInt
  if x < 0 ∨ (len : Int) ≤ x then none else some x.toNat

/-- The index lies in the body of the loop. -/
def Loop.holds (l : Loop) (pc : Nat) : Bool := decide (l.start ≤ pc) && decide (pc ≤ l.stop)

/-- The loops that a taken branch to `pc` leaves active: one out of the innermost body ends every loop whose body the target
lies outside (R96). -/
def endLoops (pc : Nat) (ls : List Loop) : List Loop :=
  if ls.head?.any (fun l => l.holds pc) then ls else ls.filter (fun l => l.holds pc)

/-- The span waits on an instruction. -/
def Module.waitOn (m : Module) (cx : Ctx) (op : Byte) (w : Fields) : Module :=
  m.mapSpan cx.o (fun _ x => { x with core := .waiting op w })

/-- Change every tile of the span, each by its own registers, and retire. -/
def Module.each (m : Module) (cx : Ctx) (f : TileId → Tile → Tile) : Module := (m.mapSpan cx.o f).retire cx

/-- Change every tile of the span where none of them faults, and retire. -/
def Module.eachE (m : Module) (cx : Ctx) (f : TileId → Tile → Except Misuse Tile) : Except Misuse Module :=
  let go : Except Misuse Module := (m.spanTiles cx.o).foldlM (fun m u => do
    let x ← f u (m.tile u)
    return m.setTile u x) m
  match go with
  | .ok m => .ok (m.retire cx)
  | .error e => .error e

/-- Opcodes that read the bay, and those that use the array. -/
def readsBay (op : Byte) : Bool := [0x20, 0x22, 0x24, 0x29, 0x2B, 0x30, 0x40, 0x44, 0x48, 0x49, 0x4A].contains op.toNat
def usesArray (op : Byte) : Bool := [0x44, 0x48, 0x49, 0x4A, 0x4B].contains op.toNat

/-- The checks that an instruction of a tile makes (R55, R399): the control core's, the instruction cache line's, and those of
the bay and the array where it uses them. An armed injection fires at the next of its kind (R415). -/
def Module.probeTile (m : Module) (cx : Ctx) (op : Byte) : Module :=
  let c := cx.o.cl
  let m := (m.probe (Kind.FAB_CORE_CHECK c) cx.r.ten.val c.val).probe (Kind.FAB_ICACHE_PARITY c) cx.r.ten.val c.val
  let m := if readsBay op then m.probe (Kind.FAB_BAY_PARITY c) cx.r.ten.val c.val else m
  if usesArray op then m.probe (Kind.FAB_ARRAY_CHECK c) cx.r.ten.val c.val else m

/-- The meaning of a tile instruction: issue, the legality of its word (R83) as `bad` finds it for the program's version,
then its body. An illegal word halts the span (R107); a misuse case leaves what undefined behaviour leaves (R2). -/
def State.tileOpBy (s : State) (t : TileId) (op : Byte) (w : Fields) (bad : Bool → Option Nat)
    (body : Ctx → Module → Except Misuse Module) : Host.Outcome State Fault Refusal :=
  s.run fun m =>
    match m.issueCtx t op w with
    | none => m
    | some cx =>
      let m := m.probeTile cx op
      match bad cx.sg.prog.skq2 with
      | some k => m.haltTile cx.o k
      | none => m.orUndefined cx.r.ten (body cx m)

/-- The meaning of a tile instruction with one operand form. A word whose mod belongs to another row of the same opcode
(`others`) is that row's, and this one has no effect. -/
def State.tileOp (s : State) (t : TileId) (op : Byte) (w : Fields) (form : Form)
    (body : Ctx → Module → Except Misuse Module) (others : List Nat := []) : Host.Outcome State Fault Refusal :=
  if others.contains w.mod.toNat then s.run id else s.tileOpBy t op w (fun k => form.illegal k w) body

/-! ## Bay access (R27, R99) -/

/-- Read a range of a bay; a range that reaches 0x1_0000 is a misuse case (R27). -/
def Tile.bayRead (x : Tile) (a n : Nat) : Except Misuse (List Byte) :=
  if 0x10000 < a + n then .error .bayRange else .ok (Mem.bytes x.bay a n)

/-- Record the blocks of a range as written in this step (R91). -/
def markDirty (d : List Nat) (a n : Nat) : List Nat :=
  if n = 0 then d
  else
    (List.range ((a + n - 1) / 128 - a / 128 + 1)).foldl (fun d k =>
      if d.contains (a / 128 + k) then d else d ++ [a / 128 + k]) d

/-- Write a range of a bay; a range that reaches 0x1_0000 is a misuse case (R27). -/
def Tile.bayWrite (x : Tile) (a : Nat) (bs : List Byte) : Except Misuse Tile :=
  if 0x10000 < a + bs.length then .error .bayRange
  else .ok { x with bay := Mem.setBytes x.bay a bs, dirty := markDirty x.dirty a bs.length }

/-- A bay address: (s[a] + imm) modulo 2^32, without the bits below the access size (R99). -/
def Tile.bayAddr (x : Tile) (w : Fields) (size : Nat) : Nat :=
  (x.sreg w.a.toNat + w.imm).toNat / size * size

end Sys2Proof.Machine
end

