-- ==== Sys2Proof/Machine/MoveOps.lean ====
section
/-! DEFINITION. Machine/MoveOps.lean: the placement of buffers in the Hold (R148, R259), the joining of a stage by a
cluster (R151), the retirement and replacement of a cluster (R49, R54, R410), and the steps of a repair and of a recovery
epoch (R46 to R50, R409 to R411). -/

namespace Sys2Proof.Machine

/-! ## The choice of physical clusters (R138, R147) -/

/-- Two clusters of one die that touch; a die holds five rows of five (R30). -/
def adjacent (a b : Nat) : Bool :=
  let y := fun (c : Nat) => c % 25 / 5
  let x := fun (c : Nat) => c % 5
  a / 25 == b / 25 && ((y a == y b && (x a + 1 == x b || x b + 1 == x a)) || (x a == x b && (y a + 1 == y b || y b + 1 == y a)))

/-- The weight of the edges that join a stage to any of a list of stages (R138). -/
def edgeWeight (edges : List (Nat × Nat × Nat)) (i : Nat) (stages : List Nat) : Nat :=
  ((edges.filter (fun e => (e.1 == i && stages.contains e.2.1) || (e.2.1 == i && stages.contains e.1))).map (·.2.2)).sum

/-- How well a cluster suits a stage (R147): first, beside the stage's clusters on one die, or, for the first of `want`, on a die
of the pool with room for all; second, with stages joined by heavy edges on its die; third, beside the tenancy's clusters and
away from those of others. `placed` are the clusters chosen so far and their stages. [log 169 DEDUCED] -/
def Module.siteScore (m : Module) (t : Ten) (edges : List (Nat × Nat × Nat)) (placed : List (Nat × Nat)) (i want : Nat)
    (pool : List Nat) (c : Nat) : Nat :=
  let near := fun (d : Nat) => d / 25 == c / 25
  let mine := (placed.filter (fun p => p.2 == i)).map (·.1)
  let first := if mine.isEmpty then min want (pool.filter near).length
    else (if mine.any near then 256 else 0) + (mine.filter (adjacent c)).length
  let second := edgeWeight edges i ((placed.filter (fun p => near p.1 && p.2 != i)).map (·.2))
  let own := fun (d : Nat) => m.fld Fld.FAB_CL_ASSIGN_TENANCY d == t.val
  let beside := (List.range 100).filter (fun d => adjacent c d && m.flag Fld.FAB_CL_ASSIGN_VALID d)
  first * 2 ^ 40 + second * 2 ^ 20 + ((beside.filter own).length + 4 - (beside.filter (fun d => !own d)).length)

/-- The element with the highest score, the first of equals. -/
def bestOf (score : Nat → Nat) (l : List Nat) : Option Nat :=
  l.foldl (fun a c =>
    match a with
    | none => some c
    | some b => if score b < score c then some c else some b) none

/-- The cluster of a pool that suits a stage of a loaded route best. -/
def Module.siteFor (m : Module) (t : Ten) (n i : Nat) (pool : List Nat) : Option Nat :=
  match m.route n with
  | none => pool.head?
  | some r => bestOf (m.siteScore t r.edges ((m.clustersOf n).map (fun c => (c, (m.cl c).stage))) i 1 pool) pool

/-- The tenancy's idle clusters. -/
def Module.idlePool (m : Module) (t : Ten) : List Nat := (m.assigned t).filter m.isIdle

/-! ## Hold placement (R148, R259) -/

/-- Move the bank behind a tenancy bank index to a free bank that qualifies; without one it stays where it is. -/
def Module.placeBank (m : Module) (ten b : Nat) (ok : Nat → Bool) : Module :=
  match m.extentOf ten b with
  | none => if (List.range 9).all (fun x => m.extentOk ten x) then m else m.raise Kind.HLD_PAIR ten (b * bankBytes)
  | some x =>
    let e := m.holdEntry ten x b
    let w := m.mapEntry e
    let p := bitsAt w.toNat 0 15
    if !tagOk w then m.raise Kind.HLD_PAIR ten (b * bankBytes)
    else if !w.getLsbD 15 || ok p then m
    else
      match m.pickBank ok with
      | none => m
      | some q => ((m.drawn.copyBank p q).takeBank q e).releaseBank p

/-- Banks of a range of tenancy Hold addresses. -/
def banksOf (a n : Nat) : List Nat :=
  if n = 0 then [] else (List.range ((a + n - 1) / bankBytes - a / bankBytes + 1)).map (fun k => a / bankBytes + k)

/-- Place one Hold buffer over the slices of its stage's clusters: HOLD_LOCAL in equal parts, HOLD_ANY in any slice of
them with room. -/
def Module.placeHold (m : Module) (ten : Nat) (cs : List Nat) (b : Buffer) : Module :=
  let banks := banksOf b.addr b.bytes
  if cs.isEmpty then m
  else if b.tier = 0 then
    (List.range banks.length).foldl (fun m i =>
      let c := cs[i * cs.length / banks.length]?.getD 0
      m.placeBank ten (banks[i]?.getD 0) (fun p => sliceOf p == c)) m
  else banks.foldl (fun m k => m.placeBank ten k (fun p => cs.contains (sliceOf p))) m

/-- Clusters that a buffer is placed beside: those of its stage, or the whole route's. -/
def Module.bufferClusters (m : Module) (n : Nat) (b : Buffer) : List Nat :=
  if b.stage = 0xFF then m.clustersOf n else m.stageClusters n b.stage

/-- Place every Hold buffer of a route. -/
def Module.placeHolds (m : Module) (n : Nat) : Module :=
  match m.route n with
  | none => m
  | some r => (r.buffers.filter (fun b => b.tier < 2)).foldl (fun m b =>
      m.placeHold r.ten.val (m.bufferClusters n b) b) m

/-! ## Forming a cluster (R137, R151) -/

/-- Read a part of a buffer; answers whether its data are uncorrectable. Where the read fails, which the manual does not say, the
bytes are zero, as for a region without a backing copy. [log 170 DESIGN CHOICE] -/
def Module.readBuffer (m : Module) (ten : Nat) (b : Buffer) (off n : Nat) : Bool × List Byte × Module :=
  match if b.tier < 2 then m.readHold .plc ten (b.addr + off) n else m.readVA .plc ten (b.addr + off) n with
  | (.ok bs, m) => (false, bs, m)
  | (.error e, m) => (e.status == st.data, List.replicate n 0, m)

/-- Refill the bay of one tile from the BACKING buffers of its stage (R137); answers whether any of its data are uncorrectable. -/
def Module.backTile (m : Module) (r : Route) (i k : Nat) (base : Tile) : Bool × Module :=
  (r.buffers.filter (fun b => b.cls == 2 && b.stage == i)).foldl (fun (a : Bool × Module) b =>
    let (bad, bs, m) := a.2.readBuffer r.ten.val b (k % 256 * 128 * b.bayCount) (128 * b.bayCount)
    let x := m.tileAt k
    (a.1 || bad, m.setTileAt k { x with bay := Mem.setBytes x.bay (b.bayFirst * 128) bs })) (false, m.setTileAt k base)

/-- The bays of a cluster, as its save area holds them at a step boundary (R91). -/
def Module.saveOf (m : Module) (c : Nat) : Map Mem :=
  ((List.range 256).map (fun k => (k, (m.tileAt (c * 256 + k)).bay))).filter (fun p => !p.2.isEmpty)

/-- The bays of a cluster that joins a stage (R137, R151): zero; where it takes over a LOGICAL number, what the save area
carries; then refilled from BACKING. The save areas take them as boundary contents (R91). [log 38 DEDUCED] -/
def Module.formBays (m : Module) (r : Route) (i : Nat) (p : Prog) (c : Nat) (save : Map Mem) : Module :=
  let m := (List.range 256).foldl (fun m k =>
    (m.backTile r i (c * 256 + k) { Tile.reset with bay := Map.get [] save k }).2) m
  m.mapTiles c (fun x => x.start p)

/-- Write the depot and invalidate the instruction caches (R29). -/
def Module.writeDepot (m : Module) (c : Nat) (code : List Byte) : Module :=
  let m := m.setCl c { m.cl c with depot := Mem.setBytes [] 0 code, depotEcc := [], badLines := [] }
  m.mapTiles c (fun x => { x with icache := [] })

/-- Role code of FAB_CL_STATUS.ROLE. -/
def roleCode (learning : Bool) : Nat := if learning then 2 else 1

/-- A cluster takes its place in a stage of a loaded route: assignment, shape, role, depot, bays, and the step at which it
joins (R141, R151). At a load its bays are those of an idle cluster, zero; in a move they are formed. -/
def Module.joinStage (m : Module) (c n i logical : Nat) (twin : Option Nat) (save : Option (Map Mem)) :
    Module :=
  match m.route n with
  | none => m
  | some r =>
    match r.stages[i]? with
    | none => m
    | some sg =>
      let m := m.wipeCluster c
      let m := if twin.isSome then m.setAssign c true r.ten.val logical else m.takeLogical r.ten c logical
      let top := sg.top
      let step := (top.map (· + 1)).getD r.firstStep
      let m := m.writeDepot c sg.code
      let m := match save with
        | some save => m.formBays r i sg.prog c save
        | none => m
      let m := m.setFld Fld.FAB_CL_STATUS_SPAN_SHAPE c 0 sg.shape
      let m := m.setFld Fld.FAB_CL_STATUS_ROLE c 0 (roleCode r.learning)
      let m := m.setFlag Fld.FAB_CL_STATUS_AT_BOUNDARY c 0 true
      m.setCl c { m.cl c with
        route := some n, stage := i, step := step, joined := step, committedAny := top.isSome,
        nextKind := if top.isSome then 2 else 0, itemsLeft := 0, pass := 0, ended := [], sched := [], twinOf := twin, digestBad := false,
        mismatched := false }

/-! ## Row maps (R30, R46, R49) -/

/-- Store a row map with its complement (R11). -/
def Module.setRowMap (m : Module) (c r : Nat) (v : Nat) : Module := m.setReg .FAB_ROW_MAP c r (pairWord v)

def Module.shiftAt (m : Module) (c r : Nat) : Nat := m.fld Fld.FAB_ROW_MAP_SHIFT_AT c r
def Module.spareBad (m : Module) (c r : Nat) : Bool := m.flag Fld.FAB_ROW_MAP_SPARE_BAD c r

/-- Change fields in the low half of a row map. -/
def Module.editRowMap (m : Module) (c r lo w v : Nat) : Module :=
  m.setRowMap c r (putBits (bitsAt (m.reg .FAB_ROW_MAP c r).toNat 0 32) lo w v)

/-- The spare of a row is neither in use nor bad. -/
def Module.spareLeft (m : Module) (c r : Nat) : Bool := m.shiftAt c r == 16 && !m.spareBad c r

/-- Rows whose spare is still usable (FAB_CL_STATUS.SPARES_LEFT). -/
def Module.countSpares (m : Module) (c : Nat) : Module :=
  m.setFld Fld.FAB_CL_STATUS_SPARES_LEFT c 0 ((List.range 16).filter (fun r => m.spareLeft c r)).length

/-- Queue a row for the configuration EEPROM (R48). -/
def Module.toRecord (m : Module) (c r off : Nat) : Module :=
  m.setCl c { m.cl c with toRecord := (m.cl c).toRecord ++ [(r, off)] }

/-! ## Retirement and replacement (R49, R54, R410) -/

/-- The idle cluster that replaces another in a stage: one of the tenancy's, else an idle ungranted one of the module (R410). -/
def Module.replacement (m : Module) (t : Ten) (n i : Nat) : Option Nat :=
  (m.siteFor t n i (m.idlePool t)).orElse (fun _ => m.siteFor t n i m.freeClusters)

/-- Replace a cluster that has left a stage (R410): the replacement takes its LOGICAL number and joins as R151 states;
without one the stage goes on one short where it may, and otherwise the route stops with RESOURCE. -/
def Module.replaceCluster (m : Module) (t : Ten) (n i logical : Nat) (twin : Option Nat) (save : Map Mem) : Module :=
  match m.replacement t n i with
  | some d =>
    let m := m.setCl d { m.cl d with move := some ⟨t, some (n, i), none, some logical, save, false, false⟩, twinOf := twin }
    m.setClState d 2
  | none =>
    match m.route n with
    | none => m
    | some r =>
      match r.stages[i]? with
      | none => m
      | some sg =>
        if sg.items ≠ 0 ∧ sg.minCl ≤ (m.stageClusters n i).length then m.changedRoute n
        else m.stopKill n st.resource

/-- Waymaster abandons the move of a cluster that retires (R152). -/
def Module.abandonMove (m : Module) (c : Nat) : Module :=
  match (m.cl c).move with
  | none => m
  | some mv => (m.setCl c { m.cl c with move := none }).raise Kind.PLC_MOVE_FAIL mv.ten.val c

/-- A relocation to a cluster that retires is abandoned, and Waymaster chooses another idle cluster for it; without one the
cluster stays where it is (R152). -/
def Module.abandonTo (m : Module) (c : Nat) : Module :=
  (List.range 100).foldl (fun m d =>
    match (m.cl d).move with
    | some mv =>
      if mv.target == some c then
        let m := m.abandonMove d
        match mv.dest.bind (fun p => m.siteFor mv.ten p.1 p.2 ((m.idlePool mv.ten).filter (· != c))) with
        | some e => m.setCl d { m.cl d with move := some { mv with target := some e } }
        | none => m.restState d
      else m
    | none => m) m

/-- What has reached the tiles of a cluster, what is on its way to them and what they have sent goes with their LOGICAL number
from cluster `c`, whose tiles were `old`, to cluster `d` (R45). [log 171 DEDUCED] -/
def Module.retarget (m : Module) (c d : Nat) (old : Nat → Tile) : Module :=
  let site := fun (u : TileId) => if u.cl.val = c then { u with cl := Fin.ofNat 100 d } else u
  let go := fun (k : DeckPkt) => { k with src := site k.src, dst := site k.dst }
  let m := { m with
    deck := m.deck.map go
    tiles := m.tiles.map (fun p => (p.1, { p.2 with sendX := p.2.sendX.map go, partialX := p.2.partialX.map go }))
    xres := m.xres.foldl (fun (a : Map XRes) p =>
      Map.insert a (if p.1 / 4096 = c then d * 4096 + p.1 % 4096 else p.1)
        { p.2 with holder := p.2.holder.map (fun h => if h / 256 = c then d * 256 + h % 256 else h) }) [] }
  (List.range 256).foldl (fun m k =>
    let x := old k
    m.setTileAt (d * 256 + k) { m.tileAt (d * 256 + k) with
      recv := x.recv, partialX := x.partialX.map go, sendX := x.sendX.map go }) m

/-- The shares of a cluster that leaves its stage, in the divisions of steps that it will not run, go to the others (R149). -/
def Module.orphanShares (m : Module) (c : Nat) : Module :=
  match m.stageOf c with
  | none => m
  | some (n, _, sg) =>
    let l := m.fld Fld.FAB_CL_ASSIGN_LOGICAL c
    let cl := m.cl c
    m.setRoute n (fun r => { r with divisions := r.divisions.map (fun d =>
      if d.stage == cl.stage && decide (cl.step ≤ d.step) then
        let mine := (d.shares.filter (fun x => x.1 == l)).map (·.2)
        { d with
          shares := d.shares.map (fun x => if x.1 == l then (l, x.2.1, 0) else x)
          orphans := d.orphans ++ (List.range (max 1 sg.layerCount)).flatMap (fun pass => mine.map (fun x => (pass, x.1, x.2))) }
      else d) })

/-- Retire a cluster (R49, R54): STATE becomes RETIRED, it leaves its route and its tenancy, and Waymaster replaces it. -/
def Module.retireCluster (m : Module) (c : Nat) : Module :=
  let cl := m.cl c
  let logical := m.fld Fld.FAB_CL_ASSIGN_LOGICAL c
  let t : Ten := Fin.ofNat 101 (m.fld Fld.FAB_CL_ASSIGN_TENANCY c)
  let valid := m.flag Fld.FAB_CL_ASSIGN_VALID c
  let m := ((m.orphanShares c).abandonMove c).abandonTo c
  let twin := m.twinOf c
  let save := m.saveOf c
  let old := fun k => m.tileAt (c * 256 + k)
  let m := m.setFld Fld.FAB_CL_STATUS_STATE c 0 5
  let m := m.setFlag Fld.FAB_CL_STATUS_AT_BOUNDARY c 0 true
  let m := m.wipeCluster c
  let m := m.setAssign c false 0 0
  let m := m.setCl c { Cl.reset with
    assignRecord := (m.cl c).assignRecord, toRecord := (m.cl c).toRecord }
  let m := if valid then m.mirrorTen t else m
  match cl.route, cl.move with
  | none, some ⟨_, some (n, i), none, some l, save, false, _⟩ =>
    -- it was to replace another cluster: Waymaster chooses again
    m.replaceCluster t n i l cl.twinOf save
  | none, _ => m
  | some n, _ =>
    let m := m.replaceCluster t n cl.stage logical cl.twinOf save
    let heir := (List.range 100).find? (fun e =>
      match (m.cl e).move with
      | some mv => mv.dest == some (n, cl.stage) && mv.logical == some logical && mv.target.isNone
      | none => false)
    let m := match heir with
      | some e => m.retarget c e old
      | none => m
    -- the twin follows the cluster that takes the place of its primary
    let m := match twin, heir with
      | some d, some e => m.setCl d { m.cl d with twinOf := some e }
      | some d, none => m.idleCluster d
      | none, _ => m
    m.changedRoute n

/-- Check an assignment entry before its use (R11, R158): on a first disagreement Waymaster rewrites it from its own record; on a
second it does so again and retires the cluster, at its next boundary if it is inside a step. -/
def Module.checkAssign (m : Module) (c : Nat) : Module :=
  if pairOk (m.reg .FAB_CL_ASSIGN c) then m.probe (Kind.FAB_PAIR (Fin.ofNat 100 c)) 0 c
  else
    let m := m.raise (Kind.FAB_PAIR (Fin.ofNat 100 c)) 0 c
    let cl := m.cl c
    let m := m.setReg .FAB_CL_ASSIGN c 0 cl.assignRecord
    if !cl.rewritten then
      (m.setCl c { cl with rewritten := true }).raise Kind.PLC_ASSIGN_REWRITE (m.fld Fld.FAB_CL_ASSIGN_TENANCY c) c
    else if m.released c || m.fld Fld.FAB_CL_STATUS_STATE c == 3 then m.setCl c { cl with retirePending := true }
    else m.retireCluster c

/-! ## Epochs (R409 to R411) -/

/-- Keep INT_EPOCH_OPEN in line. -/
def Module.countEpochs (m : Module) : Module := m.setFld Fld.INT_EPOCH_OPEN_OPEN 0 0 m.epochs.length

/-- Write INT_EPOCH_LAST and count the epoch. Its duration is a measured amount: a free value. -/
def Module.recordEpoch (m : Module) (e : Epoch) (status : Nat) : Module :=
  let rid := ((e.routes.head?.bind m.route).map (fun (r : Route) => r.routeId)).getD 0
  let v := status * 2 ^ 56 + min 3 e.faults * 2 ^ 54 + e.ten.val * 2 ^ 47 + e.cluster * 2 ^ 40 + rid * 2 ^ 16
    + Config.freeNat m.freeIx % 65536
  let m := m.drawn.setReg .INT_EPOCH_LAST 0 0 (BitVec.ofNat 64 v)
  m.addFld Fld.INT_EPOCHS_COUNT 0 0

/-- The epoch that holds a route. -/
def Module.epochOf (m : Module) (n : Nat) : Option Epoch := m.epochs.find? (fun (e : Epoch) => e.routes.contains n)

/-- Replace or remove the epoch of a route. -/
def Module.setEpoch (m : Module) (n : Nat) (f : Epoch → Option Epoch) : Module :=
  ({ m with epochs := m.epochs.filterMap (fun (e : Epoch) => if e.routes.contains n then f e else some e) }).countEpochs

/-- An epoch ends with DOUBLE_FAULT (R411): its routes stop as with KILL, their commands end DOUBLE_FAULT. -/
def Module.doubleFault (m : Module) (n : Nat) : Module :=
  match m.epochOf n with
  | none => m
  | some e =>
    let m := m.recordEpoch e st.doubleFault
    let m := m.setEpoch n (fun _ => none)
    let m := e.routes.foldl (fun (m : Module) k => m.stopKill k st.doubleFault) m
    m.raise Kind.INT_DOUBLE_FAULT e.ten.val e.cluster

/-- The epoch of a route depends on the buddy that holds its tenancy's copy, and on a route to it (R410). [log 35 DEDUCED] -/
def Module.checkEpochBuddy (m : Module) (n : Nat) : Module :=
  match m.epochOf n with
  | none => m
  | some e =>
    match m.buddy e.ten with
    | some b => if m.reaches e.ten b then m else m.doubleFault n
    | none => m

/-- A port has gone: captures, restores and epochs that no usable port serves end (R410, R434, R439). -/
def Module.lostBuddies (m : Module) : Module :=
  (m.epochs.flatMap (fun (e : Epoch) => e.routes.take 1)).foldl (fun m n => m.checkEpochBuddy n) m.checkBuddies

/-- Close an epoch all of whose repairs are done: the routes resume at their lowest uncommitted step. A stop that waited
for the repair takes effect (R409, R424). -/
def Module.closeEpoch (m : Module) (n : Nat) : Module :=
  match m.epochOf n with
  | none => m
  | some e =>
    if !e.clusters.isEmpty then m
    else
      let m := m.recordEpoch e st.ok
      let m := m.setEpoch n (fun _ => none)
      e.routes.foldl (fun (m : Module) k => m.checkStopped k) m

/-- A cluster's repair no longer holds any epoch. -/
def Module.releaseEpochs (m : Module) (c : Nat) : Module :=
  let m := { m with epochs := m.epochs.map (fun (e : Epoch) => { e with clusters := e.clusters.filter (· != c) }) }
  (m.epochs.flatMap (fun (e : Epoch) => e.routes.take 1)).foldl (fun m n => m.closeEpoch n) m

/-! ## Repair (R46 to R50) -/

/-- Start, or widen, the repair of a row: REPAIR, caches invalidated, the row map written, the spare powering up. -/
def Module.beginRepair (m : Module) (c r off : Nat) : Module :=
  let cl := m.cl c
  let rows := match cl.repair with
    | some p => p.rows ++ [(r, off)]
    | none => [(r, off)]
  let m := m.setFld Fld.FAB_CL_STATUS_STATE c 0 3
  let m := m.mapTiles c (fun x => { x with icache := [] })
  let m := m.editRowMap c r 0 5 off
  m.setCl c { m.cl c with repair := some ⟨.poweringUp, rows⟩ }

/-- The route, primary or twin, that a cluster holds. -/
def Module.routeOn (m : Module) (c : Nat) : Option Nat := (m.cl c).route

/-- A second fault meets the epoch of a route (R410): it restarts once, with the clusters to repair besides; a fault after that
ends it. -/
def Module.restartEpoch (m : Module) (n : Nat) (e : Epoch) (more : List Nat) : Module :=
  if e.restarted then (m.setEpoch n (fun e => some { e with faults := e.faults + 1 })).doubleFault n
  else
    (m.setEpoch n (fun (e : Epoch) => some { e with
      faults := e.faults + 1, restarted := true, clusters := e.clusters ++ more.filter (fun c => !e.clusters.contains c) })).raise
        Kind.INT_EPOCH_RESTART e.ten.val (more.head?.getD e.cluster)

/-- The module met an uncorrectable error in data that it reads for the route: the route's epoch, if one is open, restarts
(R410). [log 195 DEDUCED] -/
def Module.epochData (m : Module) (n : Nat) : Module :=
  match m.epochOf n with
  | none => m
  | some e => m.restartEpoch n e []

/-- Open an epoch for the route on the cluster, or join its open one: the route's uncommitted steps are killed (R409). A
second fault restarts it once; a fault after that ends it (R410). A declaration on an IDLE cluster opens none (R54). [log 34 DEDUCED] -/
def Module.openEpoch (m : Module) (c : Nat) (declared : Bool) : Module :=
  match m.routeOn c with
  | none => m
  | some n =>
    match m.epochOf n with
    | none =>
      if declared && m.fld Fld.FAB_CL_STATUS_STATE c == 0 then m
      else
        let m := m.killRoute n
        let t := ((m.route n).map (·.ten)).getD 0
        let e : Epoch := { routes := [n], ten := t, cluster := c, faults := 1, restarted := false, clusters := [c] }
        ((({ m with epochs := m.epochs ++ [e] }).countEpochs).raise Kind.INT_EPOCH t.val c).checkEpochBuddy n
    | some e => m.restartEpoch n e [c]

/-- The cluster is retired during or after an epoch: it no longer holds it. -/
def Module.retireInEpoch (m : Module) (c : Nat) : Module := (m.retireCluster c).releaseEpochs c

/-- A second fault of a row: SECOND_AT and RETIRED_BY_ROW (R49). -/
def Module.markSecond (m : Module) (c r off : Nat) : Module :=
  (((m.editRowMap c r 8 5 off).editRowMap c r 15 1 1).toRecord c r off).countSpares c

/-- The spare of a row has failed (R49). -/
def Module.markSpareBad (m : Module) (c r : Nat) : Module :=
  ((m.editRowMap c r 14 1 1).toRecord c r 16).countSpares c

/-- A second fault of a row retires the cluster (R49). [log 32 DEDUCED] -/
def Module.secondFault (m : Module) (c r off : Nat) (declared : Bool) : Module :=
  ((m.markSecond c r off).openEpoch c declared).retireInEpoch c

/-- The fault strikes the spare that is being mapped in: it is the row's second, the epoch ends DOUBLE_FAULT and the cluster is
retired (R49). -/
def Module.spareFault (m : Module) (c r : Nat) : Module :=
  let m := (m.editRowMap c r 14 1 1).markSecond c r 16
  let m := match m.routeOn c with
    | some n => m.doubleFault n
    | none => m
  m.retireInEpoch c

/-- A declared or detected fault at a site takes its effect (R49, R50, R54, R410). -/
def Module.siteFault (m : Module) (c r off : Nat) (bypass declared : Bool) : Module :=
  let repairing := ((m.cl c).repair.map (fun p => p.rows.any (fun x => x.1 == r))).getD false
  if m.fld Fld.FAB_CL_STATUS_STATE c = 5 then m
  else if bypass then (m.openEpoch c declared).retireInEpoch c
  else if repairing && off == 16 then m.spareFault c r
  else if off ≠ 16 && m.shiftAt c r == off then m
  else if off == 16 && m.shiftAt c r == 16 then m.markSpareBad c r
  else if off ≠ 16 && m.spareLeft c r then (m.openEpoch c declared).beginRepair c r off
  else m.secondFault c r off declared

end Sys2Proof.Machine
end

