-- ==== Sys2Proof/Machine/Flags.lean ====
section
/-! DEFINITION. Machine/Flags.lean: the sticky arithmetic flags SAT, OVF and INV of a tile (R75) and the comparisons
that decide branches (R95, R97). -/

namespace Sys2Proof.Machine

/-- Join flags into a tile's sticky flags (R75). -/
def Tile.flag (x : Tile) (f : AFlags) : Tile := { x with aflags := x.aflags.join f }

/-- Join a list of flags. -/
def joinAll (fs : List AFlags) : AFlags := fs.foldl AFlags.join .none

/-- The flags as AFL reads them: [0] SAT, [1] OVF, [2] INV. -/
def AFlags.bits (f : AFlags) : Nat := f.sat.toNat + 2 * f.ovf.toNat + 4 * f.inv.toNat

/-- The conditions of B.cc in mod: EQ, NE, LT, GE (signed), LTU, GEU (R95). -/
def branchCond (cc : Nat) (x y : Word) : Bool :=
  match cc with
  | 0 => x == y
  | 1 => x != y
  | 2 => BitVec.slt x y
  | 3 => !BitVec.slt x y
  | 4 => BitVec.ult x y
  | _ => !BitVec.ult x y

/-- The scalar operations of ALU and ALUI by code (R97): arithmetic wraps, shift counts use bits [4:0] of the second
operand, comparisons give 1 or 0. -/
def aluOp (op : Nat) (x y : Word) : Word :=
  let sh := y.toNat % 32
  match op with
  | 0 => x + y
  | 1 => x - y
  | 2 => x &&& y
  | 3 => x ||| y
  | 4 => x ^^^ y
  | 5 => x <<< sh
  | 6 => x >>> sh
  | 7 => x.sshiftRight sh
  | 8 => if BitVec.slt y x then y else x
  | 9 => if BitVec.slt x y then y else x
  | 10 => if BitVec.ult y x then y else x
  | 11 => if BitVec.ult x y then y else x
  | 12 => if BitVec.slt x y then 1 else 0
  | 13 => if BitVec.ult x y then 1 else 0
  | 14 => if x = y then 1 else 0
  | _ => if x = y then 0 else 1

/-- MUL, MULH and MULHU: the low or the signed or unsigned high half of the product (R97). -/
def mulOp (op : Nat) (x y : Word) : Word :=
  match op with
  | 0 => x * y
  | 1 => BitVec.ofInt 32 (x.toInt * y.toInt / 2 ^ 32)
  | _ => BitVec.ofNat 32 (x.toNat * y.toNat / 2 ^ 32)

/-- DIV, DIVU, REM and REMU, rounded toward zero, with the results of R98 for a zero divisor and for −2^31 by −1. -/
def divOp (op : Nat) (x y : Word) : Word :=
  match op with
  | 3 => if y = 0 then 0xFFFFFFFF#32 else BitVec.ofInt 32 (Int.tdiv x.toInt y.toInt)
  | 4 => if y = 0 then 0xFFFFFFFF#32 else BitVec.ofNat 32 (x.toNat / y.toNat)
  | 5 => if y = 0 then x else BitVec.ofInt 32 (Int.tmod x.toInt y.toInt)
  | _ => if y = 0 then x else BitVec.ofNat 32 (x.toNat % y.toNat)

end Sys2Proof.Machine
end

