-- ==== Sys2Proof/Machine/TileControl.lean ====
section
/-! DEFINITION. Machine/TileControl.lean: control and loops (R95, R96) and the illegal opcodes (R83, R84, R107). -/

namespace Sys2Proof.Machine

/-- Opcodes that a table of the two Skaesque 3 chapters lists (R84). -/
def opcodeListed (op : Nat) : Bool :=
  [0x01, 0x02, 0x03, 0x04, 0x05, 0x06, 0x07, 0x10, 0x11, 0x12, 0x13, 0x18, 0x1C, 0x1D, 0x20, 0x21, 0x22, 0x23, 0x24,
   0x25, 0x28, 0x29, 0x2A, 0x2B, 0x2C, 0x30, 0x31, 0x32, 0x33, 0x34, 0x38, 0x39, 0x3A, 0x3B,
   0x40, 0x41, 0x42, 0x44, 0x48, 0x49, 0x4A, 0x4B, 0x4C, 0x80, 0x81, 0x82, 0x83, 0x84, 0x85, 0x86, 0x87, 0x88, 0x89,
   0x8A, 0x8B, 0x8C, 0xC0, 0xC1].contains op

/-- Form of NOP: no field is used (R95). -/
def formNop : Form := {}

/-- NOP (R95). The row also carries the decode of a reserved opcode, which halts with OPCODE (R83, R107): `op` is the
opcode byte of the word at the program counter. A byte that names another instruction is not this row's. -/
def execNop (t : TileId) (op : Byte) (w : Fields) (s : State) : Host.Outcome State Fault Refusal :=
  s.run fun m =>
    match m.issueCtx t op w with
    | none => m
    | some cx =>
      if op = 0x01 then
        match formNop.illegal cx.sg.prog.skq2 w with
        | some k => m.haltTile cx.o k
        | none => m.retire cx
      else if opcodeListed op.toNat then m
      else m.haltTile cx.o cause.opcode

/-- A span arrives at the step boundary (R90); `halt` for HALT 0, which also stops it for the rest of the route. The
program counter moves on. -/
def Module.arrive (m : Module) (cx : Ctx) (halt : Bool) : Module :=
  let x := m.tile cx.o
  let (pc, loops) := loopEnd x.pc x.loops
  m.mapSpan cx.o (fun _ x => { x with pc := pc, loops := loops, core := .arrived, haltReq := halt })

/-- Some tile of the span has a transfer outstanding (R89). -/
def Module.spanBusy (m : Module) (cx : Ctx) : Bool := (m.spanTiles cx.o).any (fun u => !(m.tile u).xfers.isEmpty)

/-- Form of HALT: imm[15:0] is the code (R95). -/
def formHalt : Form := { imm := 0xFFFF }

/-- HALT (R95): code 0 waits for transfers as CMT.STEP does, arrives, and stops the tile for the rest of the route; a
non-zero code kills the step and ends the route's command ABORTED with the code (R107). -/
def execHalt (t : TileId) (w : Fields) (s : State) : Host.Outcome State Fault Refusal :=
  s.tileOp t 0x02 w formHalt fun cx m =>
    let code := immBits w 0 16
    if code = 0 then .ok (if m.spanBusy cx then m.waitOn cx 0x02 w else m.arrive cx true)
    else .ok (m.haltTile cx.o 0 code)

/-- Take a branch to an index, which must lie in the code (R95); `loops` says which loops stay active. -/
def Module.branchTo (m : Module) (cx : Ctx) (pc : Option Nat) (ends : Bool) : Module :=
  match pc with
  | none => m.haltTile cx.o cause.pcRange
  | some pc =>
    let loops := (m.tile cx.o).loops
    m.control cx pc (if ends then endLoops pc loops else loops)

/-- Form of BR: the whole immediate (R95). -/
def formBr : Form := { imm := 0xFFFFFFFF }

/-- BR (R95): pc = pc + imm. -/
def execBr (t : TileId) (w : Fields) (s : State) : Host.Outcome State Fault Refusal :=
  s.tileOp t 0x03 w formBr fun cx m =>
    .ok (m.branchTo cx (target (m.tile cx.o).pc w.imm cx.sg.prog.codeLen) true)

/-- Form of B.cc (R95). -/
def formBCc : Form := { a := .s, b := .s, mods := [0, 1, 2, 3, 4, 5], imm := 0xFFFFFFFF }

/-- B.cc (R95): the origin tile's registers decide (R78). -/
def execBCc (t : TileId) (w : Fields) (s : State) : Host.Outcome State Fault Refusal :=
  s.tileOp t 0x04 w formBCc fun cx m =>
    let x := m.tile cx.o
    if branchCond w.mod.toNat (x.sreg w.a.toNat) (x.sreg w.b.toNat) then
      .ok (m.branchTo cx (target x.pc w.imm cx.sg.prog.codeLen) true)
    else .ok (m.retire cx)

/-- Form of CALL (R95). -/
def formCall : Form := { d := .s, imm := 0xFFFFFFFF }

/-- CALL (R95): s[d] = pc + 1 in every tile of the span, then pc = pc + imm. CALL never ends a loop (R96). A target
outside the code halts without executing the instruction (R107). -/
def execCall (t : TileId) (w : Fields) (s : State) : Host.Outcome State Fault Refusal :=
  s.tileOp t 0x05 w formCall fun cx m =>
    let pc := (m.tile cx.o).pc
    match target pc w.imm cx.sg.prog.codeLen with
    | none => .ok (m.haltTile cx.o cause.pcRange)
    | some pc' =>
      .ok ((m.mapSpan cx.o (fun _ x => x.setS w.d.toNat (BitVec.ofNat 32 (pc + 1)))).branchTo cx (some pc') false)

/-- Form of JR (R95). -/
def formJr : Form := { a := .s }

/-- JR (R95): pc = s[a] of the origin tile. JR never ends a loop (R96). -/
def execJr (t : TileId) (w : Fields) (s : State) : Host.Outcome State Fault Refusal :=
  s.tileOp t 0x06 w formJr fun cx m =>
    let pc := ((m.tile cx.o).sreg w.a.toNat).toNat
    .ok (m.branchTo cx (if pc < cx.sg.prog.codeLen then some pc else none) false)

/-- Form of LOOP: imm[31:16] count, imm[15:0] body (R95). -/
def formLoop : Form := { a := .s, imm := 0xFFFFFFFF }

/-- Loop levels of a program: three, or two for Skaesque 2 (R96, R108). -/
def loopLevels (p : Prog) : Nat := if p.skq2 then 2 else 3

/-- LOOP (R96): misuse halts with LOOP_RANGE, a zero count skips the body, else a level is pushed. -/
def execLoop (t : TileId) (w : Fields) (s : State) : Host.Outcome State Fault Refusal :=
  s.tileOp t 0x07 w formLoop fun cx m =>
    let x := m.tile cx.o
    let body := immBits w 0 16
    let n := x.sreg w.a.toNat + BitVec.ofNat 32 (immBits w 16 16)
    let past := match x.loops with
      | [] => false
      | l :: _ => decide (l.stop < x.pc + body)
    if body = 0 ∨ loopLevels cx.sg.prog ≤ x.loops.length ∨ past = true then .ok (m.haltTile cx.o cause.loopRange)
    else if n = 0 then
      let m := m.control cx (x.pc + body + 1) x.loops
      .ok (if cx.sg.prog.codeLen ≤ x.pc + body + 1 then m.haltTile cx.o cause.fallthrough else m)
    else
      let m := m.control cx (x.pc + 1) (⟨x.pc + 1, x.pc + body, n⟩ :: x.loops)
      .ok (if cx.sg.prog.codeLen ≤ x.pc + 1 then m.haltTile cx.o cause.fallthrough else m)

end Sys2Proof.Machine
end

