-- ==== Sys2Proof/Machine/TileStream.lean ====
section
/-! DEFINITION. Machine/TileStream.lean: streams, front markers and flag packets of tile programs (R33 to R45, R103,
R104, R106). -/

namespace Sys2Proof.Machine

/-! ## Ports and addresses -/

/-- The port on which a neighbour receives what is sent through a port: the opposite one. -/
def opposite (port : Nat) : Nat := (port + 2) % 4

/-- The neighbouring logical tile through N, E, S or W inside the cluster (R40). -/
def neighbour (u : TileId) (port : Nat) : Option TileId :=
  match port with
  | 0 => if u.row.val = 0 then none else some { u with row := Fin.ofNat 16 (u.row.val - 1) }
  | 1 => if u.col.val = 15 then none else some { u with col := Fin.ofNat 16 (u.col.val + 1) }
  | 2 => if u.row.val = 15 then none else some { u with row := Fin.ofNat 16 (u.row.val + 1) }
  | _ => if u.col.val = 0 then none else some { u with col := Fin.ofNat 16 (u.col.val - 1) }

/-- The tile that a tile address names within a tenancy (R41, R103). -/
def Module.tileAddr (m : Module) (ten : Ten) (w : Word) : Option TileId :=
  (m.clusterOf ten (bitsAt w.toNat 8 7)).map (fun c =>
    ⟨Fin.ofNat 100 c, Fin.ofNat 16 (bitsAt w.toNat 4 4), Fin.ofNat 16 (bitsAt w.toNat 0 4)⟩)

/-- Two tiles belong to one span. -/
def Module.sameSpan (m : Module) (u v : TileId) : Bool := u.cl == v.cl && m.origin u == m.origin v

/-- Flits of a packet of `n` bytes. -/
def flitsOf (n : Nat) : Nat := (n + 63) / 64

/-- Flits that a list of packets holds. -/
def flitSum (ks : List DeckPkt) : Nat := (ks.map (fun k => flitsOf k.data.length)).sum

/-- Flits in the send buffer of a port of a tile (R103). -/
def Module.sendBuffered (m : Module) (u : TileId) (port : Nat) : Nat :=
  if port = 4 then flitSum ((m.tile u).sendX.filter (fun k => k.kind != .flag))
  else flitSum (m.deck.filter (fun k => k.src == u && k.port == opposite port))

/-- A packet discarded at the edge of the cluster (R40). -/
def Module.dropEdge (m : Module) (ten c : Nat) : Module :=
  (m.addFld Fld.DCK_EDGE_DROP_COUNT 0 0).raise Kind.DCK_EDGE ten c

/-- A packet discarded for an unassigned logical cluster (R41). -/
def Module.dropAddress (m : Module) (ten c : Nat) : Module :=
  (m.addFld Fld.DCK_EDGE_DROP_COUNT 0 0).raise Kind.DCK_ADDRESS ten c

/-- Send a packet of a tile through a port: neighbour traffic enters the Deck, X traffic its send buffer (R40 to R42).
The source router stamps the tenancy (R36). A twin sends nothing (R413). -/
def Module.sendPacket (m : Module) (ten : Ten) (u : TileId) (port : Nat) (dest : Word) (vc : BitVec 4)
    (kind : DeckKind) (data : List Byte) : Module :=
  let m := m.noteTile ten.val u
    (if kind == .flag then flagNote dest data else sendNote port vc.toNat (if port = 4 then dest else 0) data)
  if m.isTwin u then m
  else if port = 4 then
    match m.tileAddr ten dest with
    | none => m.dropAddress ten.val u.cl.val
    | some v =>
      let k : DeckPkt := ⟨m.deckSeq, u, v, 4, vc, kind, ten, data, true⟩
      let x := m.tile u
      ({ m with deckSeq := m.deckSeq + 1 } : Module).setTile u { x with sendX := x.sendX ++ [k] }
  else
    match neighbour u port with
    | none => m.dropEdge ten.val u.cl.val
    | some v => { m with
        deck := m.deck ++ [⟨m.deckSeq, u, v, opposite port, vc, kind, ten, data, true⟩]
        deckSeq := m.deckSeq + 1 }

/-- c0 used in a 1×1 span or towards a tile outside the span: a misuse case (R33, R52). -/
def Module.spanMisuse (m : Module) (cx : Ctx) (u : TileId) (port : Nat) (dest : Word) (vc : Nat) : Bool :=
  vc == 0 && (m.spanSide u.cl.val == 1 ||
    (match (if port = 4 then m.tileAddr cx.r.ten dest else neighbour u port) with
     | some v => !m.sameSpan u v
     | none => true))

/-- The checks that SEND, SENDV, MARK and the receives share: the port and the channels of a Skaesque 2 program (R103,
R108). -/
def streamIllegal (skq2 : Bool) (w : Fields) : Option Nat :=
  if 5 ≤ w.mod.toNat % 8 then some cause.port
  else if skq2 && decide (8 ≤ immBits w 0 4) then some cause.mod
  else none

/-- The form that a word of SEND, SENDV or MARK has: on the ports N, E, S and W its third specifier is unused (R103). -/
def sendForm (f : Form) (w : Fields) : Form := if w.mod.toNat < 4 then { f with c := .none, imm := 0xF } else f

/-- The body of a sending instruction: what each tile of the span sends, if anything. A send buffer without room stalls
the span. -/
def Module.sendAll (m : Module) (cx : Ctx) (op : Byte) (w : Fields) (kind : DeckKind)
    (payload : Tile → Option (List Byte)) : Except Misuse Module :=
  let port := w.mod.toNat
  let vc := immBits w 0 4
  let us := m.spanTiles cx.o
  let dest := fun (u : TileId) => (m.tile u).sreg (spec3 w)
  if us.any (fun u => (payload (m.tile u)).isSome && m.spanMisuse cx u port (dest u) vc) then .error .spanChannel
  else if us.any (fun u =>
      match payload (m.tile u) with
      | some bs => decide (64 < m.sendBuffered u port + flitsOf bs.length)
      | none => false) then .ok (m.waitOn cx op w)
  else
    let m := us.foldl (fun m u =>
      match payload (m.tile u) with
      | some bs => m.sendPacket cx.r.ten u port (dest u) (BitVec.ofNat 4 vc) kind bs
      | none => m) m
    .ok (m.retire cx)

def formSend : Form := { a := .s, b := .s, c := .s, mods := List.range 8, imm := 0xF }

/-- The bay range that a tile's SEND reads: address bits [5:0] ignored, whole flits (R103). -/
def Tile.sendRange (x : Tile) (w : Fields) : Nat × Nat :=
  ((x.sreg w.a.toNat).toNat / 64 * 64, flitsOf (x.sreg w.b.toNat).toNat * 64)

/-- SEND (R103): 1 to 64 flits from the bay; a length of 0 sends nothing. -/
def execSend (t : TileId) (w : Fields) (s : State) : Host.Outcome State Fault Refusal :=
  s.tileOp t 0x30 w (sendForm formSend w) fun cx m =>
    match streamIllegal cx.sg.prog.skq2 w with
    | some k => .ok (m.haltTile cx.o k)
    | none =>
      let bad := (m.spanTiles cx.o).findSome? (fun u =>
        let x := m.tile u
        if 4096 < (x.sreg w.b.toNat).toNat then some Misuse.lengthRange
        else if 0x10000 < (x.sendRange w).1 + (x.sendRange w).2 then some Misuse.bayRange
        else none)
      match bad with
      | some f => .error f
      | none => m.sendAll cx 0x30 w .data (fun x =>
          let r := x.sendRange w
          if r.2 = 0 then none else some (Mem.bytes x.bay r.1 r.2))

/-- The 128 bytes of a vector register. -/
def Tile.vecBytes (x : Tile) (r : Nat) : List Byte := (List.range 32).flatMap (fun l => leBytes 4 (x.lane r l).toNat)

def formSendv : Form := { b := .v, c := .s, mods := List.range 8, imm := 0xF }

/-- SENDV (R103): the 128 bytes of v[b] as 2 flits. -/
def execSendv (t : TileId) (w : Fields) (s : State) : Host.Outcome State Fault Refusal :=
  s.tileOp t 0x31 w (sendForm formSendv w) fun cx m =>
    match streamIllegal cx.sg.prog.skq2 w with
    | some k => .ok (m.haltTile cx.o k)
    | none => m.sendAll cx 0x31 w .data (fun x => some (x.vecBytes w.b.toNat))

/-! ## Front markers -/

/-- A front marker on the Deck (chapter Tiles, clusters, spans and the Deck). -/
def markerBytes (version : Nat) (step layer : Nat) : List Byte :=
  leBytes 2 version ++ leBytes 2 (65535 - version % 65536) ++ leBytes 8 step ++ leBytes 2 layer ++ List.replicate 50 0

/-- The marker that a MARKER packet carries, where VERSION agrees with its complement (R45). -/
def readMarker (bs : List Byte) : Option Marker :=
  if fieldAt bs 2 2 = 65535 - fieldAt bs 0 2 then
    some ⟨BitVec.ofNat 16 (fieldAt bs 0 2), BitVec.ofNat 64 (fieldAt bs 4 8), BitVec.ofNat 16 (fieldAt bs 12 2)⟩
  else none

def formMark : Form := { b := .s, c := .s, mods := List.range 8, imm := 0xF }

/-- The kind of a packet that MARK sends: on c14 and c15 it travels as DATA (R36). -/
def markKind (w : Fields) : DeckKind := if 14 ≤ immBits w 0 4 then .data else .marker

/-- MARK (R104): sends the latched marker with LAYER from s[b][15:0], without clearing the latch; with none latched it
sends nothing. -/
def execMark (t : TileId) (w : Fields) (s : State) : Host.Outcome State Fault Refusal :=
  s.tileOp t 0x34 w (sendForm formMark w) fun cx m =>
    match streamIllegal cx.sg.prog.skq2 w with
    | some k => .ok (m.haltTile cx.o k)
    | none => m.sendAll cx 0x34 w (markKind w) (fun x =>
        x.marker.map (fun k => markerBytes k.version.toNat k.step.toNat ((x.sreg w.b.toNat).toNat % 65536)))

/-! ## Receiving (R104) -/

/-- The next packet of a tile on a port and channel. -/
def Tile.nextPacket (x : Tile) (port vc : Nat) : Option RecvPkt :=
  x.recv.find? (fun k => k.port == port && k.vc.toNat == vc)

/-- Discard markers that fail their check at the front of a port and channel, raising PAIR for each (R45, R104). -/
def Module.dropBadMarkers (m : Module) (ten : Ten) (u : TileId) (port vc : Nat) : Nat → Module
  | 0 => m
  | n + 1 =>
    match (m.tile u).nextPacket port vc with
    | some k =>
      if k.kind == .marker && (readMarker k.data).isNone then
        let x := m.tile u
        let m := m.setTile u { x with recv := x.recv.erase k }
        ((m.raise Kind.DCK_PAIR ten.val u.cl.val).markerFailed ten u.cl.val).dropBadMarkers ten u port vc n
      else if k.kind == .marker then m.probe Kind.DCK_PAIR ten.val u.cl.val
      else m
    | none => m

/-- Status words of a receive (R104). -/
def recvStatus (marker trunc empty : Bool) (low : Nat) : Word :=
  BitVec.ofNat 32 ((if marker then 2 ^ 31 else 0) + (if trunc then 2 ^ 30 else 0) + (if empty then 2 ^ 29 else 0)
    + low % 65536)

/-- What a tile does with its next packet: `put` takes the payload of a DATA packet and answers the tile and the bytes
written. -/
def Tile.takePacket (x : Tile) (port vc status : Nat) (put : Tile → List Byte → Except Misuse (Tile × Nat)) :
    Except Misuse Tile :=
  match x.nextPacket port vc with
  | none => .ok (x.setS status (recvStatus false false true 0))
  | some k =>
    let x := { x with recv := x.recv.erase k }
    if k.kind == .marker then
      match readMarker k.data with
      | some mr => .ok (({ x with marker := some mr } : Tile).setS status (recvStatus true false false mr.version.toNat))
      | none => .ok x
    else do
      let (x, n) ← put x k.data
      return x.setS status (recvStatus false (decide (n < k.data.length)) false n)

/-- The body of a receive: without POLL every tile of the span waits for a packet. -/
def Module.recvAll (m : Module) (cx : Ctx) (op : Byte) (w : Fields) (status : Nat)
    (put : Tile → List Byte → Except Misuse (Tile × Nat)) : Except Misuse Module :=
  let port := w.mod.toNat % 8
  let vc := immBits w 0 4
  let us := m.spanTiles cx.o
  let m := us.foldl (fun m u => m.dropBadMarkers cx.r.ten u port vc (m.tile u).recv.length) m
  if w.mod.toNat < 8 && us.any (fun u => ((m.tile u).nextPacket port vc).isNone) then .ok (m.waitOn cx op w)
  else m.eachE cx fun _ x => x.takePacket port vc status put

def formRecv : Form := { d := .s, a := .s, b := .s, mods := List.range 16, imm := 0xF }

/-- RECV (R104): one packet into the bay, or a checked front marker into the latch; the status word goes to s[d]. -/
def execRecv (t : TileId) (w : Fields) (s : State) : Host.Outcome State Fault Refusal :=
  s.tileOp t 0x32 w formRecv fun cx m =>
    match streamIllegal cx.sg.prog.skq2 w with
    | some k => .ok (m.haltTile cx.o k)
    | none => m.recvAll cx 0x32 w w.d.toNat (fun x bs => do
        let bs := bs.take (x.sreg w.b.toNat).toNat
        let y ← x.bayWrite (x.sreg w.a.toNat).toNat bs
        return (y, bs.length))

def formRecvv : Form := { d := .v, c := .s, mods := List.range 16, imm := 0xF }

/-- RECVV (R104): one 2-flit packet into v[d], or a checked front marker into the latch; the status word goes to
s[c]. A longer packet is truncated to 128 bytes. [log 28 DEDUCED] -/
def execRecvv (t : TileId) (w : Fields) (s : State) : Host.Outcome State Fault Refusal :=
  s.tileOp t 0x33 w formRecvv fun cx m =>
    match streamIllegal cx.sg.prog.skq2 w with
    | some k => .ok (m.haltTile cx.o k)
    | none => m.recvAll cx 0x33 w (spec3 w) (fun x bs =>
        let bs := bs.take 128
        .ok ((List.range (bs.length / 4)).foldl (fun x l => x.setLane w.d.toNat l
          (BitVec.ofNat 32 (fieldAt bs (4 * l) 4))) x, bs.length))

/-! ## Flags -/

def formFlag : Form := { a := .s, imm := 0x3FFFFF }

/-- FLAG (R106): each tile of the span sends an increment imm[21:6] to flag counter imm[5:0] of the tile at s[a], on c14 with
end-to-end credits (R36); its delivery follows R38. An unassigned logical cluster drops it (R41). FLAG does not wait for room
in a send buffer (R103). -/
def execFlag (t : TileId) (w : Fields) (s : State) : Host.Outcome State Fault Refusal :=
  s.tileOp t 0x39 w formFlag fun cx m =>
    let data := leBytes 2 (immBits w 6 16) ++ leBytes 2 (immBits w 0 6)
    .ok (((m.spanTiles cx.o).foldl (fun m u =>
      m.sendPacket cx.r.ten u 4 ((m.tile u).sreg w.a.toNat) 14 .flag data) m).retire cx)

end Sys2Proof.Machine
end

