-- ==== Sys2Proof/Machine/Deck.lean ====
section
/-! DEFINITION. Machine/Deck.lean: the arrival of Deck packets and the flow control of X traffic (R37 to R44, R56). -/

namespace Sys2Proof.Machine

/-- Key of an X receive buffer: destination tile and channel. -/
def xKey (v : TileId) (vc : BitVec 4) : Nat := tileKey v * 16 + vc.toNat

/-- The reservation record of a destination and channel. -/
def Module.xr (m : Module) (v : TileId) (vc : BitVec 4) : XRes := (Map.get? m.xres (xKey v vc)).getD ⟨none, 0⟩

def Module.setXr (m : Module) (v : TileId) (vc : BitVec 4) (r : XRes) : Module :=
  { m with xres := Map.insert m.xres (xKey v vc) r }

/-- Row of a logical tile on its die, 0 to 79. -/
def dieRow (u : TileId) : Nat := u.cl.val % 25 / 5 * 16 + u.row.val
/-- Column of a logical tile on its die, 0 to 79. -/
def dieCol (u : TileId) : Nat := u.cl.val % 5 * 16 + u.col.val

/-- The bridge channels that a packet crosses, as edge and channel (R43): east to west first in the source's row pair,
then north to south in the destination's column pair. -/
def bridges (u v : TileId) : List (Nat × Nat) :=
  let sd := u.cl.val / 25
  let dd := v.cl.val / 25
  (if sd % 2 ≠ dd % 2 then [(sd / 2, dieRow u / 2)] else [])
    ++ (if sd / 2 ≠ dd / 2 then [(2 + dd % 2, dieCol v / 2)] else [])

/-- A crossing is lost: its channel has failed and REROUTE_EN is 0 (R44). With REROUTE_EN the traffic moves to the next channel
of the edge; where that one has failed too, which the manual does not say, it is delivered all the same. [log 164 DESIGN CHOICE] -/
def Module.bridgeLost (m : Module) (k : DeckPkt) : Bool :=
  !m.flag Fld.DCK_CTL_REROUTE_EN &&
    (bridges k.src k.dst).any (fun e => !(m.reg .DCK_BRIDGE_STATUS e.1).getLsbD e.2)

/-- The route that sent a packet fails with DATA_ERROR (R44, R56). -/
def Module.failSender (m : Module) (k : DeckPkt) : Module :=
  match (m.cl k.src.cl.val).route with
  | some n => m.failRoute n ⟨st.data, 0, 0⟩
  | none => m

/-- Add to a flag counter, saturating at 65,535 (R106). -/
def Tile.addFlag (x : Tile) (f n : Nat) : Tile :=
  { x with flags := Map.set 0 x.flags f (BitVec.ofNat 16 (satAdd 65535 (Map.get 0 x.flags f).toNat n)) }

/-- Put a whole packet among those ready for RECV. -/
def Tile.accept (x : Tile) (k : DeckPkt) (data : List Byte) : Tile :=
  { x with recv := x.recv ++ [⟨k.port, k.vc, k.src, k.kind, data⟩] }

/-- A tile takes a packet: a flag adds to its counter, a segment joins the segments before it, a last segment completes the
packet (R42, R106). -/
def Tile.takeDeck (x : Tile) (k : DeckPkt) : Tile :=
  if k.kind == .flag then x.addFlag (fieldAt k.data 2 2) (fieldAt k.data 0 2)
  else if !k.last then { x with partialX := x.partialX ++ [k] }
  else
    let mine := fun (j : DeckPkt) => j.src == k.src && j.seq == k.seq
    ({ x with partialX := x.partialX.filter (fun j => !mine j) } : Tile).accept k
      ((x.partialX.filter mine).flatMap (·.data) ++ k.data)

/-- Deliver a packet to its tile, and to that tile's twin (R413). -/
def Module.deliverPacket (m : Module) (k : DeckPkt) : Module :=
  let m := m.setTile k.dst ((m.tile k.dst).takeDeck k)
  match m.twinTile k.dst with
  | some u => m.setTile u ((m.tile u).takeDeck k)
  | none => m

/-- The last segment of an X packet leaves the Deck: the reservation of its buffer is free again (R42). -/
def Module.leaveDeck (m : Module) (k : DeckPkt) : Module :=
  let r := m.xr k.dst k.vc
  if k.port = 4 && k.last && r.holder == some (tileKey k.src) then m.setXr k.dst k.vc { r with holder := none } else m

/-- The tile waits in a receive on port X and this channel. -/
def Tile.receives (x : Tile) (vc : BitVec 4) : Bool :=
  match x.core with
  | .waiting op w => (op == 0x32 || op == 0x33) && w.mod.toNat % 8 == 4 && immBits w 0 4 == vc.toNat
  | _ => false

/-- Flits of a channel that the destination's buffer holds or that are on their way to it (R42). A receive that waits
for the packet moves its flits out as they come. -/
def Module.xBuffered (m : Module) (v : TileId) (vc : BitVec 4) : Nat :=
  let x := m.tile v
  let ready := x.recv.filter (fun k => k.port == 4 && k.vc == vc)
  let flying := flitSum (m.deck.filter (fun k => k.dst == v && k.port == 4 && k.vc == vc))
  if x.receives vc && ready.isEmpty then flying
  else flying + flitSum (x.partialX.filter (fun k => k.vc == vc)) + (ready.map (fun k => flitsOf k.data.length)).sum

/-- DECK_PACKET_ARRIVE (R37 to R39, R44, R56): the packet at position `n` of those in flight reaches its destination
router. A parity error or a failed bridge discards it and fails its command; a tenancy mismatch discards it and counts;
otherwise it is delivered. More flits in an X receive buffer than it holds are a credit violation. -/
def execDeckPacketArrive (n : Nat) (s : State) : Host.Outcome State Fault Refusal :=
  s.run fun m =>
    match m.deck[n]? with
    | none => m
    | some k =>
      if !m.mayArrive n k then m
      else
        let m := (m.probe Kind.DCK_CREDIT k.ten.val k.src.cl.val).when (k.port = 4 && decide (16 < m.xBuffered k.dst k.vc))
          (fun m => m.raise Kind.DCK_CREDIT k.ten.val k.src.cl.val)
        let m := (({ m with deck := m.deck.eraseIdx n } : Module).leaveDeck k).probe Kind.DCK_PARITY k.ten.val k.src.cl.val
        if m.pathErr.contains .dck then
          ((({ m with pathErr := m.pathErr.erase .dck }).raise Kind.DCK_PARITY k.ten.val k.src.cl.val)).failSender k
        else if m.bridgeLost k then (m.raise Kind.DCK_BRIDGE k.ten.val k.src.cl.val).failSender k
        else
          let m := m.checkAssign k.dst.cl.val
          if m.flag Fld.FAB_CL_ASSIGN_VALID k.dst.cl.val && m.fld Fld.FAB_CL_ASSIGN_TENANCY k.dst.cl.val == k.ten.val
          then m.deliverPacket k
          else
            let m := m.addFld Fld.DCK_ISO_DROP_COUNT 0 0
            (m.raise Kind.DCK_ISOLATION k.ten.val k.dst.cl.val).violation k.ten.val .dck

/-- The packet for which a tile asks for the X receive buffer of a destination and channel: the first of its send buffer on the
channel, where that goes there. A FLAG asks once every packet that goes before it has been delivered (R38), and does not wait
for those to other tiles. [log 168 DESIGN CHOICE] -/
def Module.asking (m : Module) (x : Tile) (v : TileId) (vc : BitVec 4) : Option DeckPkt :=
  match x.sendX.find? (fun k => k.vc == vc && (k.kind != .flag || k.dst == v)) with
  | some k =>
    if k.dst == v && (k.kind != .flag || !((m.deck ++ x.sendX).any (fun j => j.goesBefore k))) then some k else none
  | none => none

/-- Tiles that ask for the X receive buffer of a destination and channel. -/
def Module.requesters (m : Module) (v : TileId) (vc : BitVec 4) : List Nat :=
  (m.tiles.filter (fun p => (m.asking p.2 v vc).isSome)).map (·.1)

/-- X_RESERVATION_GRANT (R42): the destination grants its buffer for the channel to one source at a time, in round-robin
order by source cluster and tile. -/
def execXReservationGrant (t : TileId) (vc : BitVec 4) (s : State) : Host.Outcome State Fault Refusal :=
  s.run fun m =>
    let r := m.xr t vc
    let rs := m.requesters t vc
    if r.holder.isSome then m
    else
      match (rs.find? (fun k => decide (r.last < k))).orElse (fun _ => rs.head?) with
      | none => m
      | some k => m.setXr t vc ⟨some k, k⟩

/-- X_SEGMENT_INJECT (R42): the source that holds the reservation injects the next segment, of up to 16 flits, once
the destination has credits for all of its flits. -/
def execXSegmentInject (t : TileId) (vc : BitVec 4) (s : State) : Host.Outcome State Fault Refusal :=
  s.run fun m =>
    let x := m.tile t
    match x.sendX.find? (fun k => k.vc == vc && (m.xr k.dst vc).holder == some (tileKey t)) with
    | none => m
    | some k =>
      let n := min 16 (flitsOf k.data.length)
      if 16 < m.xBuffered k.dst vc + n then m
      else
        let rest := k.data.drop (n * 64)
        let seg := { k with data := k.data.take (n * 64), last := rest.isEmpty }
        let left := if rest.isEmpty then x.sendX.filter (fun j => j.seq != k.seq)
          else x.sendX.map (fun j => if j.seq == k.seq then { j with data := rest } else j)
        let m := m.setTile t { x with sendX := left }
        { m with deck := m.deck ++ [seg] }

/-- BRIDGE_CHANNEL_FAIL (R44): the channel is marked failed and BRIDGE is raised. With REROUTE_EN its traffic moves to
the next channel; without it, the packets that would cross it are discarded as they arrive there. -/
def execBridgeChannelFail (edge : Fin 4) (ch : Fin 40) (s : State) : Host.Outcome State Fault Refusal :=
  s.run fun m =>
    let v := m.reg .DCK_BRIDGE_STATUS edge.val
    (m.setReg .DCK_BRIDGE_STATUS edge.val 0 (v &&& ~~~ BitVec.ofNat 64 (2 ^ ch.val))).raise Kind.DCK_BRIDGE 0
      (edge.val * 40 + ch.val)

/-- The tile has a stream that waits: a send for room or credits, or a receive that no tile feeds (R52). -/
def Tile.stalled (x : Tile) : Bool :=
  !x.sendX.isEmpty ||
    (match x.core with
     | .waiting op _ => op == 0x30 || op == 0x31 || op == 0x32 || op == 0x33 || op == 0x34
     | _ => false)

/-- DCK_STALL_EXPIRE (R52, R56): a stream of the tile has waited longer than DCK_STALL_LIMIT, and STALL is raised. A limit of
zero disables the check. -/
def execDckStallExpire (t : TileId) (s : State) : Host.Outcome State Fault Refusal :=
  s.run fun m =>
    if m.fld Fld.DCK_STALL_LIMIT_LIMIT = 0 || !(m.tile t).stalled then m
    else m.raise Kind.DCK_STALL (m.fld Fld.FAB_CL_ASSIGN_TENANCY t.cl.val) t.cl.val

end Sys2Proof.Machine
end

