-- ==== Sys2Proof/Machine/Links.lean ====
section
/-! DEFINITION. Machine/Links.lean: the commands of the viaduct ports: flits, framing, retrains, packets, jobs, discovery and
sync-plane messages (R288 to R317). -/

namespace Sys2Proof.Machine

/-! ## Lanes and spares (R290, R291) -/

/-- Failed lanes as VIA_PORT_LANES holds them. [log 86 DEDUCED] -/
def Module.failedLanes (m : Module) (p : Nat) : List Nat :=
  (List.range 44).filter (fun l => (m.reg .VIA_PORT_LANES p).getLsbD l)

/-- The lanes that carry logical data lanes 0 to n − 1, in ascending order of the lanes they stand for: the working data lanes,
each spare in the place of the lane it replaces. Symbol i of a codeword travels on logical lane i mod n (R292). -/
def logicalLanes (failed : List Nat) (use : List (Nat × Nat)) (n : Nat) : List Nat :=
  ((List.range 40).filterMap (fun l =>
    match use.find? (fun (x : Nat × Nat) => x.2 == l) with
    | some x => some x.1
    | none => if failed.contains l then none else some l)).take n

/-- The lane of symbol `i` of a codeword (R292). -/
def symbolLane (lanes : List Nat) (i : Nat) : Option Nat := lanes[i % lanes.length]?

/-- The spares of a port as pairs of spare and lane, and the data lanes in use: 40, or 20 where the spares cannot restore 40;
none where 20 do not work. -/
def laneMap (failed : List Nat) (allowHalf : Bool) : Option (Nat × List (Nat × Nat)) :=
  let spares := [42, 43].filter (fun l => !failed.contains l)
  let fd := (List.range 40).filter failed.contains
  let fs := [40, 41].filter failed.contains
  if fd.length ≤ spares.length then some (40, spares.zip (fd ++ fs))
  else
    let first := spares.zip fd
    let work := (List.range 40).filter (fun l => !failed.contains l || first.any (fun x => x.2 == l))
    if !allowHalf || work.length < 20 then none
    else
      let keep := first.filter (fun x => (work.take 20).contains x.2)
      let free := spares.filter (fun l => !keep.any (fun x => x.1 == l))
      some (20, keep ++ free.zip fs)

/-- The lane a spare serves, in the code of VIA_PORT_SPARE_USE. -/
def spareUse (use : List (Nat × Nat)) (l : Nat) : Nat := ((use.find? (fun x => x.1 == l)).map (·.2)).getD 0xFF

/-- Sync lanes that work: VLP 2.2 powers them down (R299). -/
def syncLanes (failed : List Nat) (use : List (Nat × Nat)) (vlp : Nat) : Nat :=
  if vlp = 0x22 then 0 else ([40, 41].filter (fun l => !failed.contains l || use.any (fun x => x.2 == l))).length

/-- A port goes DOWN: its packets take new routes, and group operations that need it are cut (R305, R315). -/
def Module.portFails (m : Module) (p : Nat) : Module :=
  (((m.closePort p portState.down).raise Kind.VIA_PORT_DOWN 0 p).cutOps p).lostBuddies

/-- The lanes that failed since the last retrain are failed, spares are assigned, the lane map and the last ACK go out in a
LINK flit, and the port is UP or HALF, or DOWN where too few lanes work (R290, R291, R300). -/
def Module.applyLanes (m : Module) (p vlp : Nat) : Module :=
  let old := m.failedLanes p
  let new := (m.port p).newFail
  let failed := (List.range 44).filter (fun l => old.contains l || new.contains l)
  let m := m.setPort p { m.port p with newFail := [], due := false, hunt := false, failedFrames := 0, frameAt := 0 }
  let m := m.setReg .VIA_PORT_LANES p 0 (failed.foldl setBit 0)
  -- half configuration is one of VLP 3.0 (R289)
  match laneMap failed (m.flag Fld.VIA_PORT_CTL_ALLOW_HALF p && vlp == 0x30) with
  | none => m.portFails p
  | some (n, use) =>
    let was42 := m.fld Fld.VIA_PORT_SPARE_USE_FOR_42 p
    let was43 := m.fld Fld.VIA_PORT_SPARE_USE_FOR_43 p
    let fresh := use.filter (fun x => if x.1 = 42 then x.2 != was42 else x.2 != was43)
    let wasHalf := m.fld Fld.VIA_PORT_STATUS_DATA_LANES p == 20
    let sync := syncLanes failed use vlp
    let lost := fun (bad : List Nat) (a b : Nat) => [40, 41].filter (fun l => bad.contains l && a != l && b != l)
    let before := lost old was42 was43
    let after := lost failed (spareUse use 42) (spareUse use 43)
    let m := m.setFld Fld.VIA_PORT_SPARE_USE_FOR_42 p 0 (spareUse use 42)
    let m := m.setFld Fld.VIA_PORT_SPARE_USE_FOR_43 p 0 (spareUse use 43)
    let m := m.setFld Fld.VIA_PORT_STATUS_VLP p 0 vlp
    let m := m.setFld Fld.VIA_PORT_STATUS_DATA_LANES p 0 n
    let m := m.setFld Fld.VIA_PORT_STATUS_SYNC_LANES p 0 sync
    let m := m.setFld Fld.VIA_PORT_STATUS_SPARES_LEFT p 0
      ([42, 43].filter (fun l => !failed.contains l && !use.any (fun x => x.1 == l))).length
    let m := m.setPortState p (if n = 40 then portState.up else portState.half)
    let m := fresh.foldl (fun m _ => m.raise Kind.VIA_LANE_SPARED 0 p) m
    let m := if n = 20 && !wasHalf then m.raise Kind.VIA_DEGRADED 0 p else m
    let m := if after.any (fun l => !before.contains l) then m.raise Kind.SYN_SYNC_LANE 0 p else m
    m.sendLinkFlit p (.lanes (logicalLanes failed use n) (m.port p).lastIn)

/-! ## Flits and framing (R294 to R296) -/

/-- Flits of a VC that wait in the receiver. -/
def Port.waiting (x : Port) (vc : Nat) : Nat :=
  let flits := fun (n : Nat) => (n + flitPayload - 1) / flitPayload
  flits ((Map.get? x.partials vc).getD []).length
    + ((x.rxq.filter (fun q => q.1 == vc)).map (fun q => flits (32 + q.2.payload.length))).sum

/-- A DATA flit in order joins its packet (R301); ABORT ends it (R305). -/
def Module.takeData (m : Module) (p flags : Nat) (bs : List Byte) : Module :=
  let vc := flags % 8
  let q := m.port p
  let m := m.addFld Fld.VIA_PORT_RX_FLITS_COUNT p 0
  let m := (m.probe Kind.VIA_CREDIT 0 p).when (vcCredits vc ≤ q.waiting vc) (fun m => m.raise Kind.VIA_CREDIT 0 p)
  let prior : Option (List Byte) := if bitsAt flags 3 1 = 1 then some [] else Map.get? q.partials vc
  match prior with
  | none => m
  | some a =>
    if bitsAt flags 5 1 = 1 then
      (m.setPort p { q with partials := Map.erase q.partials vc }).addFld Fld.VIA_LOST_COUNT 0 0
    else if bitsAt flags 4 1 = 1 then
      let k := packetOf (a ++ bs)
      -- a port whose peer's coordinate disagrees carries no tenancy packets (R310)
      m.setPort p { q with
        partials := Map.erase q.partials vc
        rxq := if q.conflict && k.kind != 0 then q.rxq else q.rxq ++ [(vc, k)] }
    else m.setPort p { q with partials := Map.insert q.partials vc (a ++ bs) }

/-! ## Sync-plane messages (R313 to R315) -/

/-- The CRC of a message passes. -/
def syncOk (b : List Byte) : Bool := fieldAt b 30 2 == crc16 (b.take 30)

/-- A step that a 16-bit PHASE names is after another. -/
def phaseAfter (phase : Nat) (last : Option Word64) : Bool :=
  match last with
  | none => true
  | some s =>
    let d := (phase + 65536 - s.toNat % 65536) % 65536
    decide (0 < d ∧ d < 32768)

/-- The bound slot that an abort names, and whether its instance is still to come here (R328). -/
def Module.abortSlot (m : Module) (o : GroupOp) : Option (Nat × Bool) :=
  (m.slots.find? (fun (p : Nat × BoundSlot) =>
    p.1 / 256 == o.ten.val && p.2.spec.name == o.name && m.subBox p.2.spec == o.group)).map
    (fun p => (p.1 % 256, phaseAfter o.phase p.2.last))

/-- Every member contributes to the abort of an instance: one that runs it, one to whose slot it is bound, and one that has
ended it already (R328). An OR64 of a box that a route of the tenancy generates in is a LEAN indication unless an instance or
a slot has its name. [log 189 DEDUCED] -/
def Module.joinAbort (m : Module) (o : GroupOp) : Module :=
  let mine := m.insts.any (fun (x : Inst) =>
    x.ten == o.ten && x.spec.name == o.name && m.subBox x.spec == o.group && x.step.toNat % 65536 == o.phase)
  let lean := (m.routesOf o.ten).any (fun n => match m.route n with
    | some (r : Route) => r.gen.group == o.group
    | none => false)
  if o.op == 3 && o.own.isNone && (mine || (m.abortSlot o).isSome || !lean) then
    m.startGroup o.ten o.group 3 o.name o.phase 0
  else m

/-- A message that has passed its CRC: forwarded along its line, combined, and the stages passed that it completes; for no
registered job it is discarded (R315). A tunnelled message may come by another line's port (R441). -/
def Module.takeSync (m : Module) (p : Nat) (tunnel : Bool) (b : List Byte) : Module :=
  let job := fieldAt b 0 3
  match m.jobEntry job with
  | none => m.raise Kind.SYN_JOB_MISMATCH 0 p
  | some (t, false) => (m.raise Kind.VIA_PAIR t.val p).raise Kind.SYN_JOB_MISMATCH 0 p
  | some (t, true) =>
    let d := bitsAt (fieldAt b 3 1) 4 2
    let group := fieldAt b 4 4
    let pos := fieldAt b 14 2
    let v := BitVec.ofNat 64 (fieldAt b 16 8)
    let fresh : GroupOp := ⟨t, group, bitsAt (fieldAt b 3 1) 0 4, fieldAt b 8 4, fieldAt b 12 2, none, 0, 0, []⟩
    let o := (m.groupOps.find? fresh.same).getD fresh
    if (d != p / 2 && !tunnel) || 3 ≤ d || !m.groupOk t.val group || group == 0 || (Map.get? o.got (gotKey d pos)).isSome then m
    else
      let o := { o with got := Map.insert o.got (gotKey d pos) v }
      -- a message that came from the + neighbour travels in the − direction
      let plus := if d = p / 2 then p % 2 == 1 else m.travelsUp t.val group d pos
      let m := if m.goesOn t.val group d pos plus then m.sendSync t.val (dirPort d plus) b else m
      (m.pushOp o).joinAbort o

/-- FLIT_RECEIVE (R294 to R296): a flit whose CRC fails, or that overlaps an uncorrectable codeword, is discarded with the
flits after it and answered by NAK. A good flit acknowledges; DATA and TUNNEL flits are taken in order. How many codewords
were corrected is a measured amount: a free value. [log 88 DESIGN CHOICE] -/
def execFlitReceive (p : Fin 6) (fecOk : Bool) (flit : BitVec 2048) (s : State) : Host.Outcome State Fault Refusal :=
  s.run fun m =>
    let p := p.val
    if !m.linkUp p || (m.port p).hunt then m
    else
      let m := (m.addFld Fld.VIA_PORT_FEC_CORRECTED p 0 (Config.freeWord m.freeIx).toNat).drawn
      let b := leBytes 256 flit.toNat
      if !fecOk then (m.addFld Fld.VIA_PORT_FEC_UNCORRECTED p 0).sendNak p
      else if fieldAt b 252 4 != crc32 (b.take 252) then m.sendNak p
      else
        let seq := BitVec.ofNat 16 (fieldAt b 0 2)
        let ack := BitVec.ofNat 16 (fieldAt b 2 2)
        let kind := fieldAt b 4 1
        let pay := (b.drop 8).take (fieldAt b 6 2)
        if kind = 2 then m.nakPort p ack
        else
          let m := m.ackPort p ack
          if kind != 1 && kind != 4 then m
          else
            let q := m.port p
            if seq != q.rxNext then m
            else
              let m := m.setPort p { q with rxNext := q.rxNext + 1, dropping := false }
              if m.flag Fld.VIA_PORT_PEER_MISWIRE p then m
              else
                -- the flit is acknowledged by the next flit that goes back
                let m := m.sendIdle p
                if kind = 1 then m.takeData p (fieldAt b 5 1) pay
                else if syncOk ((b.drop 8).take 32) then (m.probe Kind.SYN_CRC 0 p).takeSync p true ((b.drop 8).take 32)
                else (m.raise Kind.SYN_CRC 0 p).send (.syncResend p)

/-- SYNC_MARK_MISS (R295): the frame is discarded, NAK is sent, and the receiver enters HUNT. -/
def execSyncMarkMiss (p : Fin 6) (s : State) : Host.Outcome State Fault Refusal :=
  s.run fun m =>
    if !m.linkUp p.val || (m.port p.val).hunt then m
    else (m.setPort p.val { m.port p.val with hunt := true }).sendNak p.val

/-- SYNC_MARK_ACCEPT (R295): the candidate is accepted and the receiver is LOCKED. -/
def execSyncMarkAccept (p : Fin 6) (s : State) : Host.Outcome State Fault Refusal :=
  s.run fun m => m.setPort p.val { m.port p.val with hunt := false, failedFrames := 0 }

/-- FAILED_FRAME (R295): the third in a row starts a retrain. -/
def execFailedFrame (p : Fin 6) (s : State) : Host.Outcome State Fault Refusal :=
  s.run fun m =>
    let q := m.port p.val
    if !m.linkUp p.val || !q.hunt then m
    else if 2 ≤ q.failedFrames then m.startRetrain p.val
    else m.setPort p.val { q with failedFrames := q.failedFrames + 1 }

/-- NAK_RECEIVE (R296): replay from the flit after its ACK; after eight replays, a retrain. -/
def execNakReceive (p : Fin 6) (ack : BitVec 16) (s : State) : Host.Outcome State Fault Refusal :=
  s.run fun m => if m.linkUp p.val then m.nakPort p.val ack else m

/-! ## Lanes, retrains and port states (R290, R297 to R300) -/

/-- LANE_FAIL (R290): the failure is acted on at the next retrain, which it calls for. -/
def execLaneFail (p : Fin 6) (lane : Fin 44) (s : State) : Host.Outcome State Fault Refusal :=
  s.run fun m =>
    let q := m.port p.val
    if q.newFail.contains lane.val || (m.reg .VIA_PORT_LANES p.val).getLsbD lane.val then m
    else m.setPort p.val { q with newFail := q.newFail ++ [lane.val], due := true }

/-- RETRAIN_START (R300): the retrain that a failed lane calls for. -/
def execRetrainStart (p : Fin 6) (s : State) : Host.Outcome State Fault Refusal :=
  s.run fun m => if (m.port p.val).due then m.startRetrain p.val else m

/-- RETRAIN (R300, VIA_PORT_CTL.RETRAIN): a write starts a retrain. -/
def execRetrain (p : Fin 6) (s : State) : Host.Outcome State Fault Refusal :=
  s.run fun m => m.startRetrain p.val

/-- RETRAIN_SIGNAL (R300): the peer's signal; the port enters retrain. -/
def execRetrainSignal (p : Fin 6) (s : State) : Host.Outcome State Fault Refusal :=
  s.run fun m => m.startRetrain p.val

/-- RETRAIN_COMPLETE (R300): spares are assigned, the port replays from the flit after the peer's ACK, and sync messages are
sent again. A retrain that fails is tried again; the third failure in a row takes the port DOWN. -/
def execRetrainComplete (p : Fin 6) (ok : Bool) (peerAck : BitVec 16) (s : State) : Host.Outcome State Fault Refusal :=
  s.run fun m =>
    let p := p.val
    if m.portStateOf p != portState.training then m
    else if ok then
      let m := m.setFld Fld.VIA_PORT_STATUS_RETRAIN_FAILS p 0 0
      let m := m.applyLanes p (m.fld Fld.VIA_PORT_STATUS_VLP p)
      if m.linkUp p then (((m.releaseAcked p peerAck).replayPort p true).drainTx p).resendSync p else m
    else
      let fails := m.fld Fld.VIA_PORT_STATUS_RETRAIN_FAILS p + 1
      let m := m.setFld Fld.VIA_PORT_STATUS_RETRAIN_FAILS p 0 fails
      if 3 ≤ fails then m.portFails p
      else (m.setPortState p portState.up).startRetrain p

/-- The VLP version that VIA_PORT_CTL.VLP_MAX offers; its reserved values offer none (R298). [log 89 DEDUCED] -/
def vlpOffer (v : Nat) : Nat :=
  match v with
  | 0 => 0x30
  | 1 => 0x22
  | _ => 0

/-- Tell the peers the module's coordinate (R309). -/
def Module.announce (m : Module) (p : Nat) : Module :=
  if m.flag Fld.VIA_DISC_STATUS_DONE && m.linkUp p then
    m.sendLinkFlit p (.coordinate (m.coord 0) (m.coord 1) (m.coord 2) (bitsAt (m.reg .VIA_DISC_CTL).toNat 0 13) p)
  else m

/-- LINK_UP (R298): the ends exchange LINK flits with the versions they offer and adopt the highest common to both; none leaves
the port DOWN. Training at 112 and 224 Gb/s takes place within the command. [log 89 DEDUCED] -/
def execLinkUp (p : Fin 6) (peerMax : BitVec 8) (s : State) : Host.Outcome State Fault Refusal :=
  s.run fun m =>
    let p := p.val
    let mine := vlpOffer (m.fld Fld.VIA_PORT_CTL_VLP_MAX p)
    let vlp := if 0x30 ≤ mine && 0x30 ≤ peerMax.toNat then 0x30 else if 0x22 ≤ mine && 0x22 ≤ peerMax.toNat then 0x22 else 0
    if m.portStateOf p != portState.down then m
    else
      let q := m.port p
      let m := m.setPort p { Port.reset with rxq := q.rxq, newFail := q.newFail, syncHeld := q.syncHeld }
      let m := m.sendLinkFlit p (.offer mine (m.fld Fld.VIA_PORT_CTL_VLP_MAX p))
      if vlp = 0 then m.raise Kind.VIA_VERSION 0 p
      else
        let m := m.setFld Fld.VIA_PORT_STATUS_RETRAIN_FAILS p 0 0
        let m := m.applyLanes p vlp
        if m.linkUp p then ((m.announce p).drainTx p).resendSync p else m

/-- PORT_DOWN (R305). -/
def execPortDown (p : Fin 6) (s : State) : Host.Outcome State Fault Refusal :=
  s.run fun m =>
    if m.linkUp p.val || m.portStateOf p.val == portState.training then m.portFails p.val else m

/-- PORT_DISABLE (R297): DISABLE takes the port out of use; clearing it leaves the port DOWN until it links up. -/
def Module.disablePort (m : Module) (p : Fin 6) (value : Bool) : Module :=
  let p := p.val
  let m := m.setFlag Fld.VIA_PORT_CTL_DISABLE p 0 value
  if value then
    if m.portStateOf p == portState.disabled then m else ((m.closePort p portState.disabled).cutOps p).lostBuddies
  else if m.portStateOf p == portState.disabled then m.setPortState p portState.down
  else m

/-- PORT_DISABLE (R297). -/
def execPortDisable (p : Fin 6) (value : Bool) (s : State) : Host.Outcome State Fault Refusal :=
  s.run fun m => m.disablePort p value

/-! ## Packets (R302 to R308) -/

/-- Take the oldest packet of a port that qualifies. -/
def Module.popRx (m : Module) (p : Nat) (ok : Packet → Bool) : Option Packet × Module :=
  let q := m.port p
  match q.rxq.find? (fun x => ok x.2) with
  | none => (none, m)
  | some x => (some x.2, m.setPort p { q with rxq := q.rxq.erase x })

/-- PACKET_FORWARD (R303, R304): a packet for another module goes on in dimension order or by detour. -/
def execPacketForward (p : Fin 6) (s : State) : Host.Outcome State Fault Refusal :=
  s.run fun m =>
    match m.popRx p.val (fun k => !m.isSelf k.dst) with
    | (some k, m) => m.forward k (some p.val)
    | (none, m) => m

/-- PACKET_DELIVER (R308): a packet for this module is filtered by job and waits to act on its tenancy. -/
def execPacketDeliver (p : Fin 6) (s : State) : Host.Outcome State Fault Refusal :=
  s.run fun m =>
    match m.popRx p.val (fun k => m.isSelf k.dst) with
    | (some k, m) => m.deliver p.val k
    | (none, m) => m

/-- VIA_JOB_WRITE (R306): a write that disagrees with its complement, names job 0 or repeats a job of another tenancy is
discarded. Clearing a registration cancels the tenancy's collectives (R336). [log 93 DEDUCED] -/
def Module.writeJob (m : Module) (ten : Ten) (value : Word64) : Module :=
  let t := ten.val
  let valid := value.getLsbD 31
  let job := bitsAt value.toNat 0 24
  let dup := (List.finRange 101).any (fun u => u != ten && u != house && m.flag Fld.VIA_JOB_VALID u.val
    && m.fld Fld.VIA_JOB_JOB_ID u.val == job)
  if ten = house then m
  else if !pairOk value then m.raise Kind.VIA_PAIR t t
  else if valid && job = 0 then m
  else if valid && dup then m.raise Kind.VIA_JOB_DUP t t
  else
    let old := m.jobOf t
    let m := m.setReg .VIA_JOB t 0 (RegId.VIA_JOB.pairValue value)
    if old.isSome && m.jobOf t != old then m.cancelCols ten true else m

/-- VIA_JOB_WRITE (R306). -/
def execViaJobWrite (ten : Ten) (value : Word64) (s : State) : Host.Outcome State Fault Refusal :=
  s.run fun m => m.writeJob ten value

/-! ## Discovery (R309, R310) -/

/-- Take a coordinate and tell every peer (R309). -/
def Module.setCoord (m : Module) (x y z : Nat) : Module :=
  let n := z * 256 + y * 16 + x
  let m := m.setReg .VIA_DISC_STATUS 0 0 (BitVec.ofNat 64
    (2 ^ 31 + (m.fld Fld.VIA_DISC_STATUS_CONFLICT) * 2 ^ 30 + z * 2 ^ 24 + y * 2 ^ 20 + x * 2 ^ 16 + n))
  let m := m.setReg .GLB_MODULE 0 0 (BitVec.ofNat 64 (2 ^ 31 + n))
  (List.range 6).foldl (fun m p => m.announce p) m

/-- The coordinate one step from a peer's in the direction opposite to the port's. -/
def Module.stepFrom (m : Module) (p d c : Nat) : Nat :=
  if p / 2 != d then c
  else if p % 2 = 0 then (c + m.dim d - 1) % m.dim d
  else (c + 1) % m.dim d

/-- DISCOVERY_LINK_FLIT (R309, R310): a miswired port is marked and carries nothing; the first coordinate is taken, and a
second that disagrees is a conflict. What the flit says of the peer beyond these operands is a free value. [log 91 DEDUCED] -/
def execDiscoveryLinkFlit (p : Fin 6) (peerPort : Fin 6) (x : BitVec 4) (y : BitVec 4) (z : BitVec 5) (_dims : BitVec 13)
    (s : State) : Host.Outcome State Fault Refusal :=
  s.run fun m =>
    let p := p.val
    if !m.linkUp p then m
    else
      let module := z.toNat * 256 + y.toNat * 16 + x.toNat
      let mis := peerPort.val / 2 != p / 2 || peerPort.val == p
      let fub := m.fld Fld.VIA_PORT_STATUS_VLP p == 0x22 && Config.freeBool m.freeIx
      let m := m.setReg .VIA_PORT_PEER p 0 (BitVec.ofNat 64 (2 ^ 63 + (if mis then 2 ^ 62 else 0) + (if fub then 2 ^ 61 else 0)
        + module * 2 ^ 48 + peerPort.val * 2 ^ 32 + (Config.freeWord m.freeIx).toNat))
      let m := m.drawn
      if mis then m.raise Kind.VIA_MISWIRE 0 p
      else
        let cx := m.stepFrom p 0 x.toNat
        let cy := m.stepFrom p 1 y.toNat
        let cz := m.stepFrom p 2 z.toNat
        if !m.flag Fld.VIA_DISC_STATUS_DONE then m.setCoord cx cy cz
        else if m.coord 0 == cx && m.coord 1 == cy && m.coord 2 == cz then m
        else
          let m := m.setPort p { m.port p with conflict := true }
          (m.setFlag Fld.VIA_DISC_STATUS_CONFLICT 0 0 true).raise Kind.VIA_DISC_CONFLICT 0 p

/-- SYNC_MESSAGE_RECEIVE (R314): the first copy whose CRC passes is taken; where neither passes a resend is requested. -/
def execSyncMessageReceive (p : Fin 6) (laneA : BitVec 256) (laneB : BitVec 256) (s : State) :
    Host.Outcome State Fault Refusal :=
  s.run fun m =>
    let p := p.val
    if !m.portUp p || m.fld Fld.VIA_PORT_STATUS_SYNC_LANES p == 0 then m
    else
      let a := leBytes 32 laneA.toNat
      let b := leBytes 32 laneB.toNat
      if syncOk a then (m.probe Kind.SYN_CRC 0 p).takeSync p false a
      else if syncOk b then (m.probe Kind.SYN_CRC 0 p).takeSync p false b
      else (m.raise Kind.SYN_CRC 0 p).send (.syncResend p)

end Sys2Proof.Machine
end

