-- ==== Sys2Proof/Machine/TileSync.lean ====
section
/-! DEFINITION. Machine/TileSync.lean: barriers and flags (R105, R106) and plain commit and step commit (R89, R90, R94). -/

namespace Sys2Proof.Machine

/-- One more than the phase in which the tile last arrived at a barrier; 0 where it has not since the route started. -/
def Tile.lastPhase (x : Tile) (b : Nat) : Nat := Map.get 0 x.barPhase b

/-- Every participant of a barrier on this module has arrived. -/
def Module.barrierFull (m : Module) (b : Barrier) : Bool :=
  (m.participants b).all (fun p => b.arrived.contains p)

/-- Count the arrival of a span at a barrier, once in each phase (R105), and note the phase in its tiles. -/
def Module.arriveAt (m : Module) (cx : Ctx) (i : Nat) (b : Barrier) : Module :=
  let p := m.participant cx.o
  let m := m.setRoute cx.n (fun r => { r with barriers := r.barriers.modify i (fun b =>
    if b.arrived.contains p then b else { b with arrived := b.arrived ++ [p] }) })
  let m := (m.spanTiles cx.o).foldl (fun m u => m.noteTile cx.r.ten.val u (barNote i)) m
  m.mapSpan cx.o (fun _ x => { x with barPhase := Map.set 0 x.barPhase i (b.phase + 1) })

def formBar : Form := { a := .s, mods := [0, 1, 2], imm := 0xFFF }

/-- BAR (R105): ARRIVE_WAIT, ARRIVE or WAIT at barrier (s[a] + imm[11:0]) modulo 4,096 of the route. A barrier that the
route did not allocate, or whose stages do not include the tile's, halts with BARRIER. -/
def execBar (t : TileId) (w : Fields) (s : State) : Host.Outcome State Fault Refusal :=
  s.tileOp t 0x38 w formBar fun cx m =>
    let x := m.tile cx.o
    let i := ((x.sreg w.a.toNat).toNat + immBits w 0 12) % 4096
    match cx.r.barriers[i]? with
    | none => .ok (m.haltTile cx.o cause.barrier)
    | some b =>
      if bitsAt b.stageMask (m.cl t.cl.val).stage 1 = 0 then .ok (m.haltTile cx.o cause.barrier)
      else
        match w.mod.toNat with
        | 1 => .ok ((m.arriveAt cx i b).retire cx)
        | 2 =>
          -- the phase in which the tile last arrived has completed, or it never arrived
          if x.lastPhase i ≤ b.phase then .ok (m.retire cx) else .ok (m.waitOn cx 0x38 w)
        | _ =>
          match x.core with
          | .waiting .. =>
            if x.lastPhase i ≤ b.phase then .ok (m.retire cx) else .ok m
          | _ => .ok ((m.arriveAt cx i b).waitOn cx 0x38 w)

/-- The spans of a route that wait at a barrier in ARRIVE_WAIT or WAIT for a phase that has completed. -/
def Tile.waitsAt (x : Tile) (i phase : Nat) : Bool :=
  match x.core with
  | .waiting op w =>
    op == 0x38 && ((x.sreg w.a.toNat).toNat + immBits w 0 12) % 4096 == i && decide (x.lastPhase i ≤ phase)
  | _ => false

/-- Resume every span that waits for the phase just completed, twins included: it retires its BAR (R105, R413). -/
def Module.resumeBarrier (m : Module) (n i phase : Nat) : Module :=
  (m.allClusters n).foldl (fun m c =>
    match m.stageOf c with
    | none => m
    | some (_, r, sg) =>
      (List.range 256).foldl (fun m k =>
        let u := tileOfKey (c * 256 + k)
        if m.origin u == u && (m.tile u).waitsAt i phase then m.retire ⟨n, r, sg, u⟩ else m) m) m

/-- A completed phase of a trigger barrier calls for the bound instance of the step; a second phase in the same step ends the
route's command with CHECK_FAIL and kills the step (R330). -/
def Module.phaseHook (m : Module) (n i : Nat) (step : Word64) : Module :=
  let hit := m.slots.filter (fun p => p.2.route == n && p.2.trigger == i && p.2.cmd.isNone)
  if hit.any (fun (p : Nat × BoundSlot) => p.2.last == some step || p.2.due.contains step) then m.failRoute n ⟨st.check, 0, 0⟩
  else
    hit.foldl (fun m p => { m with slots := Map.insert m.slots p.1 { p.2 with due := p.2.due ++ [step] } }) m

/-- Complete the phase of a barrier: the next phase opens with no arrival, the waiting spans resume, and the collectives that
the barrier triggers are due, for the step in which the last participant arrived (R105, R330). -/
def Module.completePhase (m : Module) (n i : Nat) : Module :=
  match (m.route n).bind (fun r => r.barriers[i]?) with
  | none => m
  | some b =>
    let last := (b.arrived.getLast?.getD 0) / 256
    let step := (m.cl ((m.cl last).twinOf.getD last)).step
    let m := m.setRoute n (fun r => { r with barriers := r.barriers.modify i (fun b =>
      { b with arrived := [], phase := b.phase + 1, inGroup := false }) })
    (m.resumeBarrier n i (b.phase + 1)).phaseHook n i step

/-- BARRIER_PHASE_COMPLETE (R105): the last participant has arrived and the phase completes. A barrier of a group spans
modules: its local arrivals start the group operation, which completes it (R313). -/
def execBarrierPhaseComplete (route : Fin 256) (barrier : BitVec 12) (s : State) : Host.Outcome State Fault Refusal :=
  s.run fun m =>
    match (m.route route.val).bind (fun r => r.barriers[barrier.toNat]?) with
    | none => m
    | some b =>
      if !m.barrierFull b || b.arrived.isEmpty then m
      else if b.group = 0 then m.completePhase route.val barrier.toNat
      else if b.inGroup then m
      else m.startBarrierGroup route.val barrier.toNat

def formFlagw : Form := { d := .s, imm := 0x3FFFFF }

/-- FLAGW (R106): waits until the origin tile's counter holds the amount; every tile then subtracts it from its own
counter, which stops at 0, and writes the value from before. -/
def execFlagw (t : TileId) (w : Fields) (s : State) : Host.Outcome State Fault Refusal :=
  s.tileOp t 0x3A w formFlagw fun cx m =>
    let f := immBits w 0 6
    let amount := immBits w 6 16
    let value := fun (x : Tile) => (Map.get 0 x.flags f).toNat
    if value (m.tile cx.o) < amount then .ok (m.waitOn cx 0x3A w)
    else .ok (m.each cx (fun _ x =>
      { x with flags := Map.set 0 x.flags f (BitVec.ofNat 16 (value x - amount)) }.setS w.d.toNat
        (BitVec.ofNat 32 (value x))))

/-- CMT and CMT.STEP share opcode 0x3B; mod tells them apart. -/
def formCmt : Form := { mods := [0, 1] }

/-- CMT.STEP (R90): waits for the span's transfers, then arrives at the step boundary. -/
def Module.cmtStep (m : Module) (cx : Ctx) (w : Fields) : Module :=
  if m.spanBusy cx then m.waitOn cx 0x3B w
  else
    let x := m.tile cx.o
    let (pc, loops) := loopEnd x.pc x.loops
    m.mapSpan cx.o (fun _ x => { x with pc := pc, loops := loops, core := .arrived })

/-- CMT (R89, R94, R108): waits for the span's transfers; in a MIDSTEP_CMT program it then publishes every staged store
of its tiles, otherwise it is a fence. A Skaesque 2 program's CMT is a CMT.STEP. A failed publication ends the route's
command and stops the route (R500). -/
def execCmt (t : TileId) (w : Fields) (s : State) : Host.Outcome State Fault Refusal :=
  s.tileOp t 0x3B w formCmt fun cx m =>
    if w.mod.toNat = 1 then .ok m
    else if cx.sg.prog.skq2 then .ok (m.cmtStep cx w)
    else if m.spanBusy cx then .ok (m.waitOn cx 0x3B w)
    else if !cx.sg.prog.midCmt then .ok (m.retire cx)
    else
      let staged := (m.spanTiles cx.o).flatMap (fun u => (m.tile u).staged)
      let m := m.mapSpan cx.o (fun _ x => { x with staged := [], midCmt := true })
      match m.publishAll cx.o.cl cx.r.ten.val staged with
      | (some e, m) => .ok (m.failRoute cx.n e)
      | (none, m) => .ok (m.retire cx)

/-- CMT.STEP (R90). -/
def execCmtStep (t : TileId) (w : Fields) (s : State) : Host.Outcome State Fault Refusal :=
  s.tileOp t 0x3B w formCmt fun cx m =>
    if w.mod.toNat = 0 then .ok m else .ok (m.cmtStep cx w)

end Sys2Proof.Machine
end

