-- ==== Sys2Proof/Machine/Collectives.lean ====
section
/-! DEFINITION. Machine/Collectives.lean: the collective commands, the running of instances, chunks and resends
(R322 to R336), and the completion of group operations (R313). -/

namespace Sys2Proof.Machine

/-! ## The checks of R327 -/

/-- The operands of a COLLECTIVE descriptor (R354), without the size table. -/
def Cmd.colSpec (c : Cmd) : ColSpec where
  ten := c.ten.val
  op := c.field 9 1
  reduce := c.field 10 1
  format := c.field 11 1
  axes := bitsAt (c.field 12 1) 0 3
  group := c.field 16 4
  name := c.field 20 4
  count := c.field 24 4
  srcHold := bitsAt (c.field 12 1) 3 1 == 1
  src := bitsAt (c.field 32 8) 0 48
  dstHold := bitsAt (c.field 12 1) 4 1 == 1
  dst := bitsAt (c.field 40 8) 0 48
  sizes := []

/-- Bytes 12 to 15 of each entry of the size table (R324). -/
def sizeEntry (b : List Byte) (q : Nat) : Nat × Nat × Nat × Nat :=
  (fieldAt b (16 * q) 4, fieldAt b (16 * q + 4) 4, fieldAt b (16 * q + 8) 4, fieldAt b (16 * q + 12) 4)

/-- GROUP, AXES, OP, REDUCE, FORMAT and COUNT are valid and allowed (R322, R324, R325). -/
def Module.colOk (m : Module) (c : ColSpec) : Bool :=
  m.groupOk c.ten c.group && c.axes != 0 && decide (c.op ≤ 4) && decide (c.reduce ≤ 2) && (Fmt.ofCode c.format).isSome
    && !(c.reduces && c.format == 1) && decide (1 ≤ c.count) && decide (c.count ≤ 2 ^ 28)
    && !(c.format == 1 && c.count % 2 == 1)

/-- The size table stays within source and destination of `n` blocks, with even counts under INT4 (R325, R327). -/
def ColSpec.sizesOk (c : ColSpec) (n : Nat) : Bool :=
  c.sizes.all (fun s => decide (s.1 + s.2.1 ≤ n * c.count) && decide (s.2.2.1 + s.2.2.2 ≤ n * c.count)
    && !(c.format == 1 && (s.1 % 2 == 1 || s.2.1 % 2 == 1 || s.2.2.1 % 2 == 1 || s.2.2.2 % 2 == 1)))

/-- BIND names a loaded route, one of its barriers and a stage of it, and a slot of the tenancy (R326, R327). [log 99 DEDUCED] -/
def Module.bindOk (m : Module) (c : Cmd) : Bool :=
  decide (c.field 14 2 ≤ 255) &&
    match (m.routeById c.ten (c.field 28 2)).bind m.route with
    | none => false
    | some r => decide (bitsAt (c.field 30 2) 0 12 < r.barriers.length) && decide (c.field 56 2 < r.stages.length)

/-- A range of the source or destination: a Hold range in the extents, or a mapped virtual range (R327). -/
def Module.rangeOk (m : Module) (ten : Nat) (hold : Bool) (a n : Nat) (write : Bool) : Except Fail Unit × Module :=
  if hold then
    match m.holdRange ten a n write with
    | .ok _ => (.ok (), m)
    | .error e => let r := m.holdRefuse ten a e; (.error r.1, r.2)
  else m.mapped .col ten a n write

/-- The rows of R327 up to the resources: the operands as read, or the first failure. -/
def Module.colCheck (m : Module) (c : Cmd) (bind : Bool) : Except Fail ColSpec × Module :=
  let x := c.colSpec
  let t := c.ten.val
  let n := m.subSize x
  if !m.colOk x || (bind && !m.bindOk c) then (.error ⟨st.check, 0, 0⟩, m)
  else
    let sizes : Option Fail × List Byte × Module :=
      if x.op != 4 then (none, [], m)
      else
        match m.readVA .col t (bitsAt (c.field 48 8) 0 48) (16 * n) with
        | (.ok b, m) => (none, b, m)
        | (.error e, m) => (some e, [], m)
    let x := { x with sizes := if x.op == 4 && sizes.1.isNone then (List.range n).map (sizeEntry sizes.2.1) else [] }
    let m := sizes.2.2
    if !x.sizesOk n then (.error ⟨st.check, 0, 0⟩, m)
    else if x.group != 0 && !m.maySend t then (.error ⟨st.isolation, 0, 0⟩, m)
    else
      -- Hold ranges first, then virtual ranges, then the size table
      let checks := [(x.srcHold, x.src, x.srcBytes n, false), (x.dstHold, x.dst, x.dstBytes n, true)]
      let ordered := checks.filter (·.1) ++ checks.filter (fun k => !k.1)
      let (e, m) := ordered.foldl (fun (a : Option Fail × Module) (k : Bool × Nat × Nat × Bool) =>
        match a.1 with
        | some _ => a
        | none =>
          match a.2.rangeOk t k.1 k.2.1 k.2.2.1 k.2.2.2 with
          | (.ok _, m) => (none, m)
          | (.error e, m) => (some e, m)) (none, m)
      match e.orElse (fun _ => sizes.1) with
      | some e => (.error e, m)
      | none => (.ok x, m)

/-- Frames of the receive space of one instance: the larger of source and destination (R329, R330). -/
def Module.recvFrames (m : Module) (x : ColSpec) : Nat :=
  let n := m.subSize x
  (max (x.srcBytes n) (x.dstBytes n) + frameBytes - 1) / frameBytes

/-- Frames of the retention of a slot: twice the source (R330). -/
def Module.keepFrames (m : Module) (x : ColSpec) : Nat :=
  (2 * x.srcBytes (m.subSize x) + frameBytes - 1) / frameBytes

/-! ## Ending an instance (R330, R333) -/

/-- End an instance with a status: the ONCE command ends, or the route that it is bound to fails (R330). -/
def Module.endInst (m : Module) (x : Inst) (e : Fail) : Module :=
  let m := m.dropInst x
  let m := m.when (e.status == st.check) (fun m => m.raise Kind.COL_FAIL x.ten.val (m.myRank x.spec))
  match x.cmd, x.slot with
  | some id, _ => m.finishFail id e
  | none, some k =>
    match m.slot? x.ten k with
    | some b => (m.failRoute b.route e).checkUnbind x.ten k
    | none => m
  | none, none => m

/-- A check fails: the instance ends CHECK_FAIL here, and the abort is reported to the subgroup (R328, R332). -/
def Module.abortInst (m : Module) (x : Inst) : Module := (m.endInst x ⟨st.check, 0, 0⟩).reportAbort x 1

/-- Start an instance and send; a source that cannot be read ends it, and so does a registration that is gone (R307). -/
def Module.startInst (m : Module) (x : Inst) : Module :=
  if x.spec.group != 0 && !m.maySend x.ten.val then m.endInst x ⟨st.isolation, 0, 0⟩
  else match m.runInst x with
  | (none, m) => m
  | (some e, m) => m.endInst x e

/-! ## The commands -/

/-- COLLECTIVE with MODE ONCE (R326, R327, R329): receive space is granted, and the members meet in an ARRIVE before any
sends. -/
def execCollectiveOnce (id : Nat) (s : State) : Host.Outcome State Fault Refusal :=
  s.run fun m => m.withCmd id 0x30 fun c m =>
    let mode := c.field 8 1
    if mode == 1 || mode == 2 then m.setCmd id { c with phase := .taken }
    else if mode != 0 then m.finish id st.check
    else
      match m.colCheck c false with
      | (.error e, m) => m.finishFail id e
      | (.ok x, m) =>
        let i : Inst := ⟨c.ten, some id, none, 0, x, false, false, [], [], none, []⟩
        if m.fld Fld.COL_TEN_LIMITS_INFLIGHT_MAX c.ten.val ≤ m.inflightCols c.ten
            || decide (512 ≤ m.colsInflight.length) || m.colsInflight.any i.same then m.finish id st.resource
        else
          match m.allocFrames c.ten.val (m.recvFrames x) with
          | none => m.finish id st.resource
          | some (fs, m) =>
            let i := { i with frames := fs }
            let m := (m.putInst i).mirrorCol c.ten
            if m.subSize x = 1 then m.startInst i else m.startGroup c.ten (m.subBox x) 1 x.name 0 0

/-- COLLECTIVE with MODE BIND (R330): space for two instances and the retention are taken; the command completes once every
member has bound. -/
def execCollectiveBind (id : Nat) (s : State) : Host.Outcome State Fault Refusal :=
  s.run fun m => m.withCmd id 0x30 fun c m =>
    if c.field 8 1 != 1 then m.setCmd id { c with phase := .taken }
    else
      match m.colCheck c true with
      | (.error e, m) => m.finishFail id e
      | (.ok x, m) =>
        let k := c.field 14 2
        let same := m.slots.any (fun (p : Nat × BoundSlot) => p.1 / 256 == c.ten.val && p.2.spec.group == x.group
          && p.2.spec.axes == x.axes && p.2.spec.name == x.name)
        if m.fld Fld.COL_TEN_LIMITS_BOUND_MAX c.ten.val ≤ m.boundSlots c.ten || decide (4096 ≤ m.slots.length)
            || (m.slot? c.ten k).isSome || same then m.finish id st.resource
        else
          match m.allocFrames c.ten.val (2 * m.recvFrames x + m.keepFrames x) with
          | none => m.finish id st.resource
          | some (fs, m) =>
            let b : BoundSlot := ⟨x, some id, (m.routeById c.ten (c.field 28 2)).getD 0, bitsAt (c.field 30 2) 0 12,
              c.field 56 2, bitsAt (c.field 13 1) 0 6, [], none, none, none, fs, []⟩
            let m := m.commitCmd id
            if m.subSize x = 1 then ((m.putSlot c.ten k { b with cmd := none }).mirrorCol c.ten).finish id st.ok
            else ((m.putSlot c.ten k b).mirrorCol c.ten).startGroup c.ten (m.subBox x) 1 x.name 0 0

/-- COLLECTIVE with MODE UNBIND (R330): completes once no instance of the slot is in flight. [log 97 DEDUCED] -/
def execCollectiveUnbind (id : Nat) (s : State) : Host.Outcome State Fault Refusal :=
  s.run fun m => m.withCmd id 0x30 fun c m =>
    if c.field 8 1 != 2 then m.setCmd id { c with phase := .taken }
    else
      let k := c.field 14 2
      if 255 < k then m.finish id st.check
      else
        match m.slot? c.ten k with
        | none => m.finish id st.resource
        | some b =>
          if b.unbind.isSome || b.cmd.isSome then m.finish id st.resource
          else ((m.commitCmd id).putSlot c.ten k { b with unbind := some id }).checkUnbind c.ten k

/-- The instance of a bound slot and step, as it stands. -/
def Module.slotInst (m : Module) (t : Ten) (k : Nat) (b : BoundSlot) (step : Word64) : Inst :=
  let fresh : Inst := ⟨t, none, some k, step, b.spec, false, false, [], [], none, []⟩
  (m.insts.find? fresh.same).getD fresh

/-- BOUND_INSTANCE_START (R330, R334): the instance of a completed phase starts once its receive space is free. A re-run sends
its contribution again and asks every peer for its own. -/
def execBoundInstanceStart (ten : Ten) (slot : BitVec 8) (step : Word64) (s : State) : Host.Outcome State Fault Refusal :=
  s.run fun m =>
    let k := slot.toNat
    match m.slot? ten k with
    | none => m
    | some b =>
      let busy := m.insts.any (fun (x : Inst) => x.ten == ten && x.slot == some k && x.started
        && decide (x.step.toNat % 2 = step.toNat % 2))
      if !b.due.contains step || busy then m
      else
        let again := match b.high with
          | some h => decide (step ≤ h)
          | none => false
        let m := m.putSlot ten k { b with
          due := b.due.erase step, last := some step, high := if again then b.high else some step }
        let x := m.slotInst ten k b step
        let m := m.startInst x
        if again then
          ((List.range (m.subSize b.spec)).filter (· != m.myRank b.spec)).foldl (fun m q =>
            m.sendAsk ten b.spec step q offsetAll q q) m
        else m

/-! ## Chunks (R331, R332) -/

/-- A chunk packet in its parts. -/
structure ChunkPkt where
  name : Nat
  step : Nat
  offset : Nat
  first : Nat
  last : Nat
  data : List Byte
  digest : Nat
  late : Nat
  crcOk : Bool
  deriving DecidableEq, Repr

/-- Read a chunk packet. -/
def chunkOf (k : Packet) : ChunkPkt :=
  let head := leBytes 16 k.spec.toNat
  let n := k.payload.length - 12
  let t := k.payload.drop n
  ⟨fieldAt head 0 4, fieldAt head 4 4, fieldAt head 8 4, bitsAt (fieldAt head 12 2) 0 13, bitsAt (fieldAt head 14 2) 0 13,
    k.payload.take n, fieldAt t 0 4, bitsAt (fieldAt t 4 2) 0 13,
    decide (12 ≤ k.payload.length) && fieldAt t 8 4 == crc32c (k.payload.take n ++ head ++ t.take 8)⟩

/-- The packet is a chunk: it carries data. -/
def hasData (k : Packet) : Bool := decide (12 < k.payload.length)

/-- The instance that a chunk of a tenancy names: one in flight, or one of a bound slot whose trigger has not completed
here yet (R328, R330). -/
def Module.findInst (m : Module) (t : Ten) (src : Nat) (x : ChunkPkt) : Option Inst :=
  match m.insts.find? (fun (i : Inst) => i.ten == t && i.spec.name == x.name && i.step.toNat % 2 ^ 32 == x.step
      && (m.rankOf i.spec src).isSome) with
  | some i => some i
  | none =>
    (m.slots.find? (fun (p : Nat × BoundSlot) => p.1 / 256 == t.val && p.2.spec.name == x.name && p.2.cmd.isNone
      && (m.rankOf p.2.spec src).isSome
      && (match p.2.last with
          | some s => decide (s.toNat % 2 ^ 32 < x.step)
          | none => true))).map (fun p =>
        m.slotInst t (p.1 % 256) p.2 (BitVec.ofNat 64 x.step))

/-- The chunk has been received already. -/
def Inst.holds (i : Inst) (x : ChunkPkt) : Bool :=
  i.got.any (fun (k : Chunk) => k.first == x.first && k.last == x.last && k.offset == x.offset)

/-- A run of an ALL_TO_ALLV overflows what this member receives (R337). -/
def Inst.overflows (i : Inst) (x : ChunkPkt) : Bool :=
  i.spec.op == 4 && decide ((i.spec.place x.first).2 < x.offset + x.data.length)

/-- CHUNK_RECEIVE (R328, R332): no instance: STRAY. A CRC that fails asks for the chunk once more, and ends the instance when
it fails again. A DIGEST that disagrees ends it. A chunk held already is a duplicate. -/
def execChunkReceive (pkt : Packet) (s : State) : Host.Outcome State Fault Refusal :=
  s.run fun m =>
    if !hasData pkt && (chunkOf pkt).offset != offsetLost then m
    else
      m.takeIn pkt 2 fun t m =>
        let x := chunkOf pkt
        match m.findInst t pkt.src.toNat x with
        | none => m.raise Kind.COL_STRAY t.val pkt.src.toNat
        | some i =>
          if !hasData pkt then
            (m.raise Kind.COL_RESEND_LOST t.val pkt.src.toNat).endInst i ⟨st.aborted, 0, 0⟩
          else
            let m := m.probe Kind.COL_CRC t.val pkt.src.toNat
            if !x.crcOk then
              let m := (m.addFld Fld.COL_CRC_FAILS_COUNT 0 0).raise Kind.COL_CRC t.val pkt.src.toNat
              let key := (x.first, x.last, x.offset)
              if m.flag Fld.COL_CTL_RESEND_EN && !i.asked.contains key then
                (m.putInst { i with asked := i.asked ++ [key] }).sendAsk t i.spec i.step
                  ((m.rankOf i.spec pkt.src.toNat).getD 0) x.offset x.first x.last
              else m.abortInst i
            else if x.digest != i.spec.digest then (m.abortInst i).raise Kind.COL_DIGEST t.val pkt.src.toNat
            else if i.holds x then m
            else if i.overflows x then m.abortInst i
            else m.putInst { i with got := i.got ++ [⟨x.first, x.last, x.offset, x.data⟩], late := some x.late }

/-- The source contents that serve a request: the source itself under ONCE, the retention under BIND (R332, R334). None where
the step is too old. -/
def Module.serveImage (m : Module) (t : Ten) (i : Inst) : Option (List Byte) × Module :=
  match i.slot with
  | some k => (((m.slot? t k).bind (fun b => (b.retained.find? (fun p => p.1 == i.step)).map (·.2))), m)
  | none =>
    match m.readSrc t i.spec 0 (i.spec.srcBytes (m.subSize i.spec)) with
    | (.ok b, m) => (some b, m)
    | (.error _, m) => (none, m)

/-- The instance or bound slot that a request names, a finished instance of a slot included. -/
def Module.askedInst (m : Module) (t : Ten) (src : Nat) (x : ChunkPkt) : Option Inst :=
  match m.insts.find? (fun (i : Inst) => i.ten == t && i.spec.name == x.name && i.step.toNat % 2 ^ 32 == x.step
      && (m.rankOf i.spec src).isSome && (i.sent || i.slot.isSome)) with
  | some i => some i
  | none =>
    (m.slots.find? (fun (p : Nat × BoundSlot) => p.1 / 256 == t.val && p.2.spec.name == x.name
      && (m.rankOf p.2.spec src).isSome)).map (fun p =>
        let step := ((p.2.retained.find? (fun (y : Word64 × List Byte) => y.1.toNat % 2 ^ 32 == x.step)).map (·.1)).getD
          (BitVec.ofNat 64 x.step)
        m.slotInst t (p.1 % 256) p.2 step)

/-- RESEND_REQUEST (R332, R334): the producer sends the chunk, or every chunk, again; a step older than the retention cannot be
served. -/
def execResendRequest (pkt : Packet) (s : State) : Host.Outcome State Fault Refusal :=
  s.run fun m =>
    if hasData pkt || (chunkOf pkt).offset == offsetLost then m
    else
      m.takeIn pkt 2 fun t m =>
        let x := chunkOf pkt
        match m.askedInst t pkt.src.toNat x with
        | none => m.raise Kind.COL_STRAY t.val pkt.src.toNat
        | some i =>
          let c := i.spec
          let q := (m.rankOf c pkt.src.toNat).getD 0
          let r := m.myRank c
          let early := match (i.slot.bind (m.slot? t)).bind (·.last) with
            | some s => decide (s < i.step)
            | none => !i.sent
          match m.serveImage t i with
          | (some image, m) =>
            let (o, len) := c.part q
            let ks := cutChunks r ((image.drop o).take len)
            (if x.offset = offsetAll then ks else ks.filter (fun k => k.offset == x.offset)).foldl
              (fun m k => m.sendChunk t c i.step q k) m
          | (none, m) => if early then m else m.sendAsk t c i.step q offsetLost r r

/-! ## Completion (R333, R335) -/

/-- Add 1 to the notification flag of the origin tile of every span of a stage (R330). -/
def Module.notifyStage (m : Module) (n stage flag : Nat) : Module :=
  (m.stageClusters n stage).foldl (fun m c =>
    (List.range 256).foldl (fun m k =>
      let u := tileOfKey (c * 256 + k)
      if m.origin u == u then m.setTile u ((m.tile u).addFlag flag 1) else m) m) m

/-- INSTANCE_COMPLETE (R333): instance `n` of the list holds every input: the destination is written, with free bytes where
R337 calls the data undefined, the slowest member recorded, and the command completes or the stage is notified. -/
def execInstanceComplete (n : Nat) (s : State) : Host.Outcome State Fault Refusal :=
  s.run fun m =>
    match m.insts[n]? with
    | none => m
    | some i =>
      if !i.started then m
      else
        match i.spec.result (m.subSize i.spec) i.got with
        | none => m
        | some runs =>
          let bad := m.colUndefined i
          let runs := if bad then freeRuns m.freeIx runs else runs
          let m := if bad then m.drawn else m
          match m.writeRuns i.ten i.spec runs with
          | (.error e, m) => m.endInst i e
          | (.ok _, m) =>
            let (slow, m) := m.recordSlowest i
            let m := (m.addFld Fld.COL_INSTANCES_COUNT 0 0).addFld Fld.COL_TEN_INSTANCES_COUNT i.ten.val 0
            let m := m.dropInst i
            match i.cmd, i.slot with
            | some id, _ => m.finish id st.ok slow
            | none, some k =>
              match m.slot? i.ten k with
              | some b => (m.notifyStage b.route b.stage b.flag).checkUnbind i.ten k
              | none => m
            | none, none => m

/-- COL_TIMEOUT_EXPIRE (R335): WAIT names the last late rank; the instance keeps waiting. -/
def execColTimeoutExpire (n : Nat) (s : State) : Host.Outcome State Fault Refusal :=
  s.run fun m =>
    match m.insts[n]? with
    | none => m
    | some i =>
      if m.fld Fld.COL_TIMEOUT_US = 0 then m
      else m.raise Kind.COL_WAIT i.ten.val (i.late.getD (m.myRank i.spec))

/-! ## Completion of a group operation (R313) -/

/-- The barrier of a tenancy's route that a NAME and PHASE name, waiting in its group. -/
def Module.namedBarrier (m : Module) (o : GroupOp) : Option (Nat × Nat) :=
  (m.routesOf o.ten).findSome? (fun n =>
    (m.route n).bind (fun r =>
      (List.range r.barriers.length).findSome? (fun i =>
        (r.barriers[i]?).bind (fun b =>
          if b.inGroup && b.group == o.group && r.routeId * 4096 + i == o.name && b.phase % 65536 == o.phase
          then some (n, i) else none))))

/-- An ARRIVE completes: the phase of a barrier; the start of a ONCE instance; the end of a BIND (R105, R329, R330). -/
def Module.arriveDone (m : Module) (o : GroupOp) : Module :=
  match m.namedBarrier o with
  | some (n, i) => m.completePhase n i
  | none =>
    match m.insts.find? (fun (x : Inst) => x.ten == o.ten && x.cmd.isSome && !x.sent && x.spec.name == o.name
        && m.subBox x.spec == o.group) with
    | some x => m.startInst x
    | none =>
      match m.slots.find? (fun (p : Nat × BoundSlot) => p.1 / 256 == o.ten.val && p.2.cmd.isSome
          && p.2.spec.name == o.name && m.subBox p.2.spec == o.group) with
      | some (key, b) =>
        let m := { m with slots := Map.insert m.slots key { b with cmd := none } }
        match b.cmd with
        | some id => m.finish id st.ok
        | none => m
      | none => m

/-- An OR64 completes: the LEAN indication of a step (R167), or the abort of an instance (R328). -/
def Module.orDone (m : Module) (o : GroupOp) : Module :=
  match m.insts.find? (fun (x : Inst) => x.ten == o.ten && x.spec.name == o.name && m.subBox x.spec == o.group
      && x.step.toNat % 65536 == o.phase) with
  | some x => if o.value != 0 then m.endInst x ⟨st.aborted, 0, 0⟩ else m
  | none =>
    -- an abort of an instance that is still to come here ends it, and so its route's command (R328, R330)
    let m := match m.abortSlot o with
      | some (k, true) =>
        match m.slot? o.ten k with
        | some b => if o.value != 0 then m.failRoute b.route ⟨st.aborted, 0, 0⟩ else m
        | none => m
      | _ => m
    (m.routesOf o.ten).foldl (fun m n => m.setRoute n (fun r =>
      if r.gen.group != o.group then r
      else { r with slots := r.slots.map (fun (x : GenSlot) =>
        if x.sent && x.lean.isNone && x.step.toNat % 2 ^ 32 == o.name && x.step.toNat / 2 ^ 32 % 65536 == o.phase
        then { x with lean := some (o.value != 0) } else x) })) m

/-- A MAX64 completes: it fixes the front step of the swap (R178). -/
def Module.maxDone (m : Module) (o : GroupOp) : Module :=
  match (m.wrec o.ten.val).bind (·.travel) with
  | some (x : WSwap) =>
    if x.proposal.isSome && x.front.isNone && x.version.toNat == o.name && x.group == o.group
    then m.fixFront o.ten.val o.value else m
  | none => m

/-- GROUP_OP_COMPLETE (R313): operation `n` of the list holds every value of its last stage. -/
def execGroupOpComplete (n : Nat) (s : State) : Host.Outcome State Fault Refusal :=
  s.run fun m =>
    match m.groupOps[n]? with
    | none => m
    | some o =>
      let (o, m) := m.advanceOp o 4
      let m := m.putOp o
      if o.own.isNone || o.stage < 3 then m
      else
        let m := { m with groupOps := m.groupOps.filter (fun x => !o.same x) }
        let m := (m.addFld Fld.SYN_GROUP_OPS_COUNT 0 0).countOps o.ten
        match o.op with
        | 1 => m.arriveDone o
        | 2 => m.maxDone o
        | 3 => m.orDone o
        | _ => m

end Sys2Proof.Machine
end

