-- ==== Sys2Proof/Machine/Commands.lean ====
section
/-! DEFINITION. Machine/Commands.lean: taking, completing, killing and aborting commands, FENCE and TIMESTAMP, and
pre-emption (R354 to R363). -/

namespace Sys2Proof.Machine

/-! ## Taking (R348, R358) -/

/-- The killed command of a ring that goes first. -/
def Module.requeuedOf (m : Module) (g : Nat) : Option (Nat × Cmd) :=
  m.cmds.find? (fun p => p.2.ring == g && p.2.phase == .requeued)

/-- A command entry is taken: its completion is reserved; an entry that an abort has named ends ABORTED (R360). -/
def Module.takeNew (m : Module) (t : Ten) (g : Nat) : Module :=
  match m.takeEntry ringType.command 1 g with
  | (none, m) => m
  | (some (index, b), m) =>
    let pair := m.pairOf g
    let gone := (m.ring g).aborted.contains index
    let id := m.nextSeq
    let m := m.setRing g { m.ring g with aborted := (m.ring g).aborted.filter (· != index) }
    let m := m.reserve pair 1
    let m := { m with nextSeq := id + 1 }
    (m.setCmd id ⟨m.funcOf t, g, t, id, some pair, b, if gone then CmdPhase.done st.aborted 0 else CmdPhase.taken, 0, 0⟩).countInflight t

/-- COMMAND_TAKE (R348, R358): a killed command goes ahead of every entry not yet taken. -/
def execCommandTake (ring : BitVec 15) (s : State) : Host.Outcome State Fault Refusal :=
  s.run fun m =>
    let g := ring.toNat
    match m.requeuedOf g with
    | some (id, c) =>
      if m.takes c.ten && m.slotFree c.ten then (m.setCmd id { c with phase := .taken }).countInflight c.ten else m
    | none =>
      let t := m.ringOwner g
      if !m.slotFree t then m
      else
        match m.useEntry t with
        | (false, m) => m
        | (true, m) => m.takeNew t g

/-! ## Completing (R356, R358) -/

/-- Post the completion of a command that has ended. A ring that cannot be written keeps it waiting. [log 115 DEDUCED] -/
def Module.postDone (m : Module) (id : Nat) (c : Cmd) (status detail : Nat) : Module :=
  match c.comp with
  | none => (m.dropCmd id).checkSuspended c.ten
  | some g =>
    if m.ringState g == 2 then m
    else
      let m := if bitsAt (c.field 1 1) 0 1 = 1 then m.setRing g { m.ring g with arm := some (BitVec.ofNat 32 (m.ringTail g)) } else m
      let m := m.postEntry g (completionRecord (c.field 4 4) status c.op (m.localRing c.ring) detail)
      if m.ringState g == 2 then m
      else ((m.dropCmd id).count 0x1601 c.ten.val 1).checkSuspended c.ten

/-- A command whose header fails ends as soon as it may start (R355). -/
def Module.checkHeader (m : Module) (id : Nat) : Module :=
  match m.cmd id with
  | none => m
  | some c =>
    if c.phase == CmdPhase.taken && m.canStart c then
      match m.headerStatus c with
      | some status => m.refuseHeader id c status
      | none => m
    else m

/-- COMMAND_COMPLETE (R355, R356, R358): a command that has ended posts its completion. -/
def execCommandComplete (id : Nat) (s : State) : Host.Outcome State Fault Refusal :=
  s.run fun m =>
    let m := m.checkHeader id
    match m.cmd id with
    | none => m
    | some c =>
      match c.phase with
      | .done status detail => m.postDone id c status detail
      | _ => m

/-! ## Killing and aborting (R359, R360) -/

/-- What a command had begun before its commit point is undone. -/
def Module.undoCmd (m : Module) (id : Nat) (c : Cmd) : Module :=
  let m := match m.insts.find? (fun (x : Inst) => x.cmd == some id) with
    | some x => m.dropInst x
    | none => m
  m.undoCkp c.ten id

/-- A command that a kill acts on: taken or started, before its commit point, and no ROUTE_START (R359). -/
def Cmd.mayKill (c : Cmd) : Bool :=
  c.phase == .taken || (c.phase == .started && c.op != 0x02)

/-- COMMAND_KILL (R359): the command leaves no result, and is re-queued. -/
def execCommandKill (id : Nat) (s : State) : Host.Outcome State Fault Refusal :=
  s.run fun m =>
    match m.cmd id with
    | none => m
    | some c => if c.mayKill then (m.undoCmd id c).killCmd id else m

/-- The first untaken entry of a ring, from an index on, whose TAG matches. `fuel` bounds the entries. -/
def Module.findEntry (m : Module) (g tag stop : Nat) : Nat → Nat → Option Nat × Module
  | 0, _ => (none, m)
  | fuel + 1, e =>
    if e = stop then (none, m)
    else
      match m.readVA .que (m.ringOwner g).val (m.entryVA g e) 64 with
      | (.error _, m) => (none, m.ringFail g)
      | (.ok b, m) =>
        if fieldAt b 4 4 = tag && !(m.ring g).aborted.contains e then (some e, m)
        else m.findEntry g tag stop fuel ((e + 1) % 2 ^ 32)

/-- Abort the first command of a ring with a TAG (R360): those taken come first, then the entries not yet taken. [log 118 DEDUCED] -/
def Module.abortTag (m : Module) (g tag : Nat) : Module :=
  match m.cmds.find? (fun p => p.2.ring == g && p.2.field 4 4 == tag && !p.2.ended) with
  | some (id, c) =>
    if c.phase == .requeued then ((m.setCmd id { c with phase := .done st.aborted 0 }).countInflight c.ten)
    else if c.mayKill then (m.undoCmd id c).finish id st.aborted
    else m
  | none =>
    if !m.ringEnabled g || m.ringType g != ringType.command || m.ringState g == 2 then m
    else
      match m.findEntry g tag (m.ringTail g) (m.ringPending g) (m.ringHead g) with
      | (none, m) => m
      | (some e, m) => m.setRing g { m.ring g with aborted := (m.ring g).aborted ++ [e] }

/-- QUE_TEN_CMD_ABORT (R360). -/
def Module.abortWrite (m : Module) (f : Func) (ten : Ten) (value : Word64) : Module :=
  if ten = house then m
  else m.guardTen f ten fun m =>
    let i := bitsAt value.toNat 32 15
    let g := if f = 0 then i else m.globalRing ten i
    if m.ringOwner g == ten then m.abortTag g (bitsAt value.toNat 0 32) else m

/-- QUE_TEN_CMD_ABORT (R360). -/
def execQueTenCmdAbort (f : Func) (ten : Ten) (value : Word64) (s : State) : Host.Outcome State Fault Refusal :=
  s.run fun m => m.abortWrite f ten value

/-! ## FENCE and TIMESTAMP (R358) -/

/-- The commands that a FENCE waits for have completed. [log 116 DEDUCED] -/
def Module.fencePassed (m : Module) (c : Cmd) : Bool :=
  m.cmds.all (fun p => !(decide (p.2.seq < c.seq) && (if c.field 8 1 = 0 then p.2.ring == c.ring else p.2.ten == c.ten)))

/-- FENCE (R358): it commits at its start, and completes when every earlier command of its scope has. -/
def execFence (id : Nat) (s : State) : Host.Outcome State Fault Refusal :=
  s.run fun m =>
    let m := m.withCmd id 0x40 fun c m => if 1 < c.field 8 1 then m.finish id st.check else m.commitCmd id
    match m.cmd id with
    | none => m
    | some c => if c.op == 0x40 && c.phase == .committed && m.fencePassed c then m.finish id st.ok else m

/-- TIMESTAMP (R356, R358): completes as it starts, with the calendar in microseconds. -/
def execTimestamp (id : Nat) (s : State) : Host.Outcome State Fault Refusal :=
  s.run fun m => m.withCmd id 0x41 fun _ m => m.finish id st.ok m.calendarUs

/-! ## Pre-emption (R361, R94, R392) -/

/-- A tile of the route has executed a plain CMT in this step, so that the pre-emption waits for the boundary (R94). -/
def Module.midStep (m : Module) (n : Nat) : Bool :=
  (m.clustersOf n).any (fun c => m.released c && (List.range 256).any (fun k => (m.tileAt (c * 256 + k)).midCmt))

/-- SUSPEND of an ACTIVE tenancy (R361, R392): the tenancy takes no further entry, its uncommitted steps are killed or drain, its
commands before their commit points are re-queued, and its channels pause. [log 120 DEDUCED] -/
def Module.suspendTen (m : Module) (ten : Ten) (drain : Bool) : Module :=
  if ten = house || !m.active ten || m.fld Fld.QUE_TEN_STATE_STATE ten.val != 0 then m
  else
    let m := m.setFld Fld.QUE_TEN_STATE_STATE ten.val 0 1
    let m := if drain then m
      else (m.routesOf ten).foldl (fun m n => if m.midStep n then m else (m.killRoute n).checkStopped n) m
    let m := m.cmds.foldl (fun m p =>
      if p.2.ten == ten && p.2.mayKill then (m.undoCmd p.1 p.2).killCmd p.1 else m) m
    ((m.channelsOf ten).foldl (fun m c => m.pauseFerry c drain) m).checkSuspended ten

/-- RESUME (R361): at once, or once the tenancy is SUSPENDED. -/
def Module.askResume (m : Module) (ten : Ten) : Module :=
  match m.fld Fld.QUE_TEN_STATE_STATE ten.val with
  | 2 => m.resumeTen ten
  | 1 => if m.resumeDue.contains ten then m else { m with resumeDue := m.resumeDue ++ [ten] }
  | _ => m

/-- SUSPEND (R361). -/
def execSuspend (ten : Ten) (drain : Bool) (s : State) : Host.Outcome State Fault Refusal :=
  s.run fun m => m.suspendTen ten drain

/-- RESUME (R361). -/
def execResume (ten : Ten) (s : State) : Host.Outcome State Fault Refusal :=
  s.run fun m => m.askResume ten

/-! ## PCIe time-outs (R365) -/

/-- A command that reads a source image meets the bus error there (R181). -/
def Cmd.readsSource (c : Cmd) : Bool :=
  (c.op == 0x10 || c.op == 0x11 || c.op == 0x12) && (c.phase == .taken || c.inExec)

/-- The access of a command fails with BUS_ERROR; its address is that of the request, which the row does not name. A command
that reads a source image meets the error at its next slice (R181); the other commands named alone make no access. -/
def Module.busFail (m : Module) (id : Nat) (c : Cmd) : Module :=
  let e : Fail := ⟨st.busError, 7, Config.freeNat m.freeIx % 2 ^ 48⟩
  let m := m.drawn
  match c.op with
  | 0x02 =>
    match m.routes.find? (fun p => p.2.startCmd == some id) with
    | some (n, _) => m.failRoute n e
    | none => m
  | 0x03 | 0x40 | 0x41 => m
  | 0x30 =>
    match m.insts.find? (fun (x : Inst) => x.cmd == some id) with
    | some x => m.endInst x e
    | none => m
  | 0x20 | 0x22 =>
    if ((m.capture c.ten).map (fun x => x.cmd == some id || (x.sending.bind (·.cmd)) == some id)).getD false then
      m.captureFail c.ten st.busError false
    else m
  | 0x21 => m.restoreFail c.ten st.busError
  | _ => m.finishFail id e

/-- CPL_TIMEOUT (R365): a PCIe request of the module has timed out; the access that needed it fails. [log 121 DESIGN CHOICE] -/
def execCplTimeout (id : Nat) (s : State) : Host.Outcome State Fault Refusal :=
  s.run fun m =>
    match m.cmd id with
    | none => m.raise Kind.HIF_CPL_TIMEOUT 0 0
    | some c =>
      let m := m.raise Kind.HIF_CPL_TIMEOUT c.ten.val c.func.val
      if c.readsSource then m.setCmd id { c with srcErrs := min 2 (c.srcErrs + 1) }
      else if c.inExec then m.busFail id c else m

end Sys2Proof.Machine
end

