-- ==== Sys2Proof/Machine/ResetOps.lean ====
section
/-! DEFINITION. Machine/ResetOps.lean: what a T reset, an F reset and an M reset do to everything the module holds (R10, R362,
R371, R471). -/

namespace Sys2Proof.Machine

/-! ## The registers of a tenancy -/

/-- A register belongs to a tenancy, as its first index names a tenancy, ring, caravan ring, channel, counter, function or
cluster that is the tenancy's. -/
def Module.ownedBy (m : Module) (t : Ten) (r : RegId) (i : Nat) : Bool :=
  match r.owner with
  | .tenancy => i == t.val
  | .ring => m.inRange t i
  | .caravan => m.fld Fld.CVN_RING_CFG_TENANCY i == t.val
  | .channel => m.flag Fld.DMA_CH_CFG_VALID i && m.fld Fld.DMA_CH_CFG_TENANCY i == t.val
  | .counter => m.fld Fld.PMC_SEL_OWNER i == t.val
  | .func => (m.funcOf t).val == i
  | .cluster => m.flag Fld.FAB_CL_ASSIGN_VALID i && m.fld Fld.FAB_CL_ASSIGN_TENANCY i == t.val
  | .route => ((m.route i).map (fun x => x.ten == t)).getD false
  | .whole => false

/-- Registers of a tenancy take their reset values for a kind (R10). -/
def Module.resetTenRegs (m : Module) (t : Ten) (k : ResetKind) : Module :=
  let f := (m.funcOf t).val
  { m.resetRegs k (m.ownedBy t) with latches := m.latches.filter (fun p => p.1 / 2 ^ 64 ≠ f) }

/-! ## The engines of a tenancy -/

/-- One route of a tenancy at its reset (R157, R362, R424): killed and, at a T reset, unloaded. In a recovery epoch the stop
waits for the epoch's end. -/
def Module.resetRoute (m : Module) (unload : Bool) (n : Nat) : Module :=
  match m.route n with
  | none => m
  | some r =>
    let m := m.setRoute n (fun r => { r with stopCmds := [], waiting := [], startCmd := none, stopUnload := unload, suspended := false })
    if m.epochs.any (fun e => e.routes.contains n) then m.setRoute n (fun r => { r with state := .stopping })
    else
      let m := if r.state == .running || r.state == .stopping then m.stopKill n st.ok else m
      if unload then m.unloadRoute n else m

/-- The batches of a learner are discarded; the steps are built again (R238). -/
def Module.dropBatches (m : Module) (n : Nat) : Module :=
  m.setRoute n (fun r => { r with
    batches := [], lastRing := 0
    nextBuild := match r.batches.head? with
      | some b => b.step
      | none => r.nextBuild })

/-- The enabled rings of a tenancy. -/
def Module.enabledRings (m : Module) (t : Ten) : List Nat :=
  (m.rings.map (·.1)).filter (fun g => m.ringEnabled g && m.ringOwner g == t)

/-- Every waybill of a tenancy is freed, with no completion and no record; its pages stay mapped (R193). -/
def Module.dropWaybills (m : Module) (t : Ten) : Module :=
  let ids := (m.waybills.filter (fun p => p.2.ten == t)).map (·.1)
  let m := ids.foldl (fun m id => m.freeWaybill id t) m
  { m with kept := m.kept.filter (fun x => x.1 != t), notices := m.notices.filter (fun x => x.1 != t) }

/-- A T reset or an F reset of a tenancy (R10, R193, R238, R254, R271, R336, R362, R371, R381, R444): its commands end with no
completion, its routes are killed, its waybills freed, its rings disabled, its collectives, captures and restores dropped, and
its registers reset. [log 128 DEDUCED] -/
def Module.tenReset (m : Module) (t : Ten) (unload : Bool) : Module :=
  let m := (m.cmds.filter (fun p => p.2.ten == t)).foldl (fun m p => m.dropCmd p.1) m
  let m := m.dropCapture t
  let m := m.dropRestore t
  let m := m.cancelCols t false
  let m := m.unbindSlots t none
  let m := m.dropWaybills t
  let m := (m.routesOf t).foldl (fun m n => ((m.abandonAll n).dropBatches n).resetRoute unload n) m
  let m := (m.enabledRings t).foldl (fun m g => m.disableRing g) m
  let m := ({ m with groupOps := m.groupOps.filter (fun (o : GroupOp) => o.ten != t) } : Module).countOps t
  let m := { m with inbox := m.inbox.filter (fun (e : Ten × Packet) => e.1 != t) }
  let m := (List.range 6).foldl (fun m p =>
    m.setPort p { m.port p with syncHeld := (m.port p).syncHeld.filter (fun x => x.1 != t.val) }) m
  let m := { m with batchDue := m.batchDue.filter (· != t), resumeDue := m.resumeDue.filter (· != t) }
  let m := if unload then ({ m with balHi := Map.erase m.balHi t.val, balLo := Map.erase m.balLo t.val } : Module).dropWrec t.val
    else m
  let m := m.resetTenRegs t (if unload then .t else .f)
  (((m.mirrorTen t).mirrorFill t).mirrorWaybills t).checkSuspended t

/-! ## The whole module -/

/-- Key of the repair record of a retired bank. [log 159 DEDUCED] -/
def bankRecord (p : Nat) : Nat := 65536 + p

/-- The repair records with those of the retired banks (R260, R469). -/
def Module.allRecords (m : Module) : Map Word :=
  (m.banks.filter (fun p => p.2.state == 2)).foldl (fun a p => Map.insert a (bankRecord p.1) 0) m.repairRecords

/-- The repair records that a P reset keeps: not the field records of a cluster whose records are to be erased (R53). -/
def Module.keptRecords (m : Module) : Map Word :=
  m.allRecords.filter (fun p => !m.eraseRecords.contains (p.1 / 16) || p.2.getLsbD 13)

/-- Everything but registers and the I/O die after a P or an M reset: the memories will be zeroed, nothing is in progress, and
what the configuration EEPROM, the host and the outside hold stays. -/
def Module.blank (m : Module) : Module :=
  { Module.reset with
    freeIx := m.freeIx
    out := m.out
    hostMem := m.hostMem
    nextSeq := m.nextSeq
    nextKey := m.nextKey
    pathErr := m.pathErr
    mapFaults := m.mapFaults
    repairRecords := m.allRecords
    eraseRecords := m.eraseRecords
    ledgerEnergy := m.ledgerEnergy }

/-- Codes of GLB_STATUS.PHASE. -/
abbrev phase.power : Nat := 0
abbrev phase.clocks : Nat := 1
abbrev phase.memory : Nat := 2
abbrev phase.ready : Nat := 3
abbrev phase.failed : Nat := 7

def Module.setPhase (m : Module) (v : Nat) : Module := m.setFld Fld.GLB_STATUS_PHASE 0 0 v

/-- An M reset (R10, R459, R471, R495), with its cause: steps 6 to 10 of start-up follow, unless start-up has not come so far
or has failed. After a thermal trip the dies stay gated, and TRIP stays severe. [log 129 DEDUCED] -/
def Module.mReset (m : Module) (cause : Field) : Module :=
  let test := m.fld Fld.GLB_STATUS_TEST_MODE
  let b := m.board
  let boot := if 4 ≤ b.boot ∧ b.boot ≤ 6 then 4 else b.boot
  let old := m.fld Fld.GLB_STATUS_PHASE
  let m := { m.blank with
    regs := (m.resetRegs .m (fun _ _ => true)).regs
    pins := { Pins.reset with stops := m.pins.stops }
    side := { m.side with mirror := [], writes := [], alertAt := none }
    board := { b with boot := boot, retries := [], cool := 0, entropyBad := false, target := none, leaving := false, savedTiles := false, stepDown := none } }
  let m := m.setPhase (if boot = 4 then phase.memory else old)
  let m := m.setFld Fld.GLB_STATUS_TEST_MODE 0 0 test
  let m := (m.setReg .GLB_RESET_CAUSE 0 0 0).setFlag cause 0 0 true
  if b.tripped then m.raise Kind.PWR_TRIP 0 0 else m

end Sys2Proof.Machine
end

