-- ==== Sys2Proof/Machine/PowerOps.lean ====
section
/-! DEFINITION. Machine/PowerOps.lean: open work, the choice, entry and exit of power states, the tile clock step, and the clock
event (R375, R453 to R465, R472). -/

namespace Sys2Proof.Machine

/-! ## Open work and the idle fabric (R375, R461) -/

/-- The tenancy has open work (R375). -/
def Module.openWork (m : Module) (t : Ten) : Bool :=
  m.exists? t
    && ((m.enabledRings t).any (fun g => hostProduced (m.ringType g) && m.ringPending g != 0)
      || m.cmds.any (fun p => p.2.ten == t && p.2.live)
      || m.routes.any (fun p => p.2.ten == t && p.2.state == RouteState.running)
      || m.waybills.any (fun p => p.2.ten == t && p.2.live))

/-- The tenancies with open work. -/
def Module.busyTens (m : Module) : List Ten := (List.finRange 101).filter (fun t => t != house && m.openWork t)

/-- A swap is staging, or a layer waits for its fetch or its staging again (R164, R174, R181). -/
def WRecord.fetching (w : WRecord) : Bool :=
  !w.restage.isEmpty || w.berths.any (fun b => !b.2.ready)
    || (w.travel.map (fun s => w.residents.any (fun l => !s.staged.contains l))).getD false

/-- The fabric is idle (R461). -/
def Module.fabricIdle (m : Module) : Bool :=
  (List.range 100).all (fun c =>
      !m.released c && (m.cl c).move.isNone && (m.cl c).repair.isNone && m.fld Fld.FAB_CL_STATUS_STATE c != 4)
    && (List.range 512).all (fun c => m.chState c != 1)
    && m.colsInflight.isEmpty
    && m.weights.all (fun p => !p.2.fetching && ((m.fetches p.1 p.2).isEmpty || (m.pickBerth p.2).isNone))
    && m.captures.all (fun p => p.2.sending.isNone)
    && m.restores.isEmpty
    && m.routes.all (fun p => p.2.migrations.isEmpty)

/-! ## The choice of a state (R460 to R462) -/

/-- Exit latencies in microseconds. -/
def exitLatency : Nat → Nat
  | 0 => 0
  | 1 => 2
  | 2 => 80
  | 3 => 3000
  | _ => 45000

/-- L: the smaller of PWR_LAT_TOL and the smallest LAT_TOL_US among tenancies with open work. -/
def Module.latTol (m : Module) : Nat :=
  m.busyTens.foldl (fun l t => min l (if m.entryOk t then m.fld Fld.TEN_LAT_TOL_LAT_TOL_US t.val else 0)) (m.fld Fld.PWR_LAT_TOL_US)

/-- The entries whose tolerances make L are checked (R11): one that disagrees gives no tolerance. -/
def Module.checkTols (m : Module) : Module := m.busyTens.foldl (fun m t => (m.useEntry t).2) m

/-- Clusters at a boundary: their tiles' state is saved (R462). -/
def Module.toSave (m : Module) : List Nat :=
  (List.range 100).filter (fun c => m.flag Fld.FAB_CL_STATUS_AT_BOUNDARY c)

/-- Banks that a cluster's save takes: one for each tile's bay, and one for the contexts of each eight tiles. -/
abbrev saveBanks : Nat := 256 + 32

/-- The free banks suffice, or the tiles are saved already. -/
def Module.canSave (m : Module) : Bool :=
  m.board.savedTiles || decide (saveBanks * m.toSave.length ≤ m.freeBanksAll)

/-- The deepest permitted state. -/
def Module.chooseState (m : Module) : Nat :=
  let l := m.latTol
  let k := ((List.range 5).filter (fun k => decide (k ≤ m.fld Fld.PWR_CTL_MAX_STATE) && decide (exitLatency k ≤ l))).getLastD 0
  if 2 ≤ k && !m.canSave then 1 else k

/-- An exit to S0 starts. -/
def Module.startExit (m : Module) : Module :=
  ({ m with board := { m.board with target := none, leaving := true } } : Module).setFlag Fld.PWR_STATUS_ENTERING 0 0 true

/-- An entry starts, or goes on to another state. -/
def Module.startEntry (m : Module) (k : Nat) : Module :=
  ({ m with board := { m.board with target := some k } } : Module).setFlag Fld.PWR_STATUS_ENTERING 0 0 true

/-- An entry is reversed (R464). -/
def Module.reverseEntry (m : Module) : Module :=
  ({ m with board := { m.board with target := none } } : Module).setFlag Fld.PWR_STATUS_ENTERING 0 0 false

/-- Move towards the state that L permits: deeper at once, or back to S0. -/
def Module.towards (m : Module) (k : Nat) : Module :=
  let now := m.fld Fld.PWR_STATUS_STATE
  if m.board.leaving then m
  else
    match m.board.target with
    | some t => if k = t then m else if now < k then m.startEntry k else if now = k then m.reverseEntry else m.reverseEntry.startExit
    | none => if now < k then m.startEntry k else if k < now then m.startExit else m

/-- L has changed (R465): a state in force or being entered follows it. [log 147 DEDUCED] -/
def Module.latChanged (m : Module) : Module :=
  if m.clocked && (m.fld Fld.PWR_STATUS_STATE != 0 || m.board.target.isSome) then m.checkTols.towards m.chooseState else m

/-! ## Entry and exit (R462, R463, R465) -/

/-- Take a free bank to keep state of tiles; which one is a free value. [log 148 DESIGN CHOICE] -/
def Module.saveOne (m : Module) : Module :=
  match m.pickBank (fun _ => true) with
  | none => m
  | some p =>
    ({ m.drawn with banks := Map.set .reset m.banks p { m.bank p with saved := true } } : Module).countBank p false

/-- Take `n` banks. -/
def Module.saveMany (m : Module) : Nat → Module
  | 0 => m
  | n + 1 => m.saveOne.saveMany n

/-- The banks that kept state of tiles are zeroed and free again. -/
def Module.freeSaved (m : Module) : Module :=
  ((m.banks.filter (fun p => p.2.saved)).map (·.1)).foldl (fun m p => m.releaseBank p) m

/-- First byte of the power-save region, which holds the in-use banks in S4, each in the frame of its number (R463). -/
abbrev saveRegion : Nat := (dramFrames - 32768) * frameBytes

/-- Copy the in-use banks into the power-save region. -/
def Module.holdToDram (m : Module) : Module :=
  let used := fun (p : Nat) => (m.bank p).state == 1 || (m.bank p).saved
  let base := Mem.zero m.dram saveRegion (32768 * frameBytes)
  { m with dram := (m.hold.filter (fun x => used (x.1 / bankBytes))).foldl (fun d x => Mem.setByte d (saveRegion + x.1) x.2) base }

/-- Copy them back. -/
def Module.dramToHold (m : Module) : Module :=
  let used := fun (p : Nat) => (m.bank p).state == 1 || (m.bank p).saved
  let kept := m.dram.filter (fun x => decide (saveRegion ≤ x.1) && decide (x.1 < saveRegion + 32768 * bankBytes)
    && used ((x.1 - saveRegion) / bankBytes))
  { m with hold := kept.foldl (fun h x => Mem.setByte h (x.1 - saveRegion) x.2) m.hold }

/-- The state has changed: it is counted and reported (R465). -/
def Module.stateChanged (m : Module) (k : Nat) : Module :=
  (((m.setFld Fld.PWR_STATUS_STATE 0 0 k).setFlag Fld.PWR_STATUS_ENTERING 0 0 false).addFld Fld.PWR_ENTRIES_COUNT 0 0).sendLtr

/-- The end of an entry. -/
def Module.enterState (m : Module) (k : Nat) : Module :=
  let k := if 2 ≤ k && !m.canSave then 1 else k
  let m := { m with board := { m.board with target := none } }
  if k ≤ m.fld Fld.PWR_STATUS_STATE then m.setFlag Fld.PWR_STATUS_ENTERING 0 0 false
  else
    let m := if 2 ≤ k && !m.board.savedTiles then
        ({ m with board := { m.board with savedTiles := true } } : Module).saveMany (saveBanks * m.toSave.length)
      else m
    let m := if k = 4 then m.holdToDram else m
    m.stateChanged k

/-- What was saved is restored: every held cluster that has committed a step is released with ENTRY_KIND 1 (R462). [log 161 DEDUCED] -/
def Module.restoreTiles (m : Module) : Module :=
  if !m.board.savedTiles then m
  else
    let m := m.toSave.foldl (fun m c => if (m.cl c).committedAny then m.setCl c { m.cl c with nextKind := 1 } else m) m
    ({ m with board := { m.board with savedTiles := false } } : Module).freeSaved

/-! ## The tile clock step (R457, R458) -/

/-- LIMIT codes. -/
abbrev limit.cap : Nat := 1
abbrev limit.thermal : Nat := 2
abbrev limit.max : Nat := 3

/-- One step slower, for power or for temperature; a tile clock at its slowest step stays. -/
def Module.stepSlower (m : Module) (power hot : Bool) : Module :=
  let m := m.setFld Fld.PWR_STATUS_LIMIT 0 0 (if power then limit.cap else limit.thermal)
  let n := m.fld Fld.CLK_STATUS_TILE_STEP
  if 3 ≤ n then m
  else
    let m := m.setFld Fld.CLK_STATUS_TILE_STEP 0 0 (n + 1)
    let m := m.when power (fun m => m.raise Kind.PWR_CAP 0 0)
    m.when hot (fun m => m.raise Kind.PWR_THERMAL 0 0)

/-- A fall that has waited for the exit to S0 (R472). [log 144 DEDUCED] -/
def Module.pendingStep (m : Module) : Module :=
  match m.board.stepDown with
  | none => m
  | some (power, hot) => ({ m with board := { m.board with stepDown := none } } : Module).stepSlower power hot

/-- The state ends: S0 (R462). -/
def Module.exitState (m : Module) : Module :=
  let was := m.fld Fld.PWR_STATUS_STATE
  let m := { m with board := { m.board with target := none, leaving := false } }
  if was = 0 then m.setFlag Fld.PWR_STATUS_ENTERING 0 0 false
  else
    let m := if was = 4 then m.dramToHold else m
    (m.restoreTiles.stateChanged 0).pendingStep

/-- A wake (R464): an entry is reversed, a state other than S0 ends. Under HOLD and after a trip it does nothing (R459, R472). [log 149 DEDUCED] -/
def Module.wake (m : Module) : Module :=
  if !m.clocked then m
  else
    let m := if m.board.target.isSome then m.reverseEntry else m
    if m.fld Fld.PWR_STATUS_STATE = 0 || m.board.leaving then m else m.startExit

/-! ## The clock event (R453, R455) -/

/-- The multiplexer selects a reference (R449), and SOURCE reports it. -/
def Module.selectRef (m : Module) (internal : Bool) : Module :=
  ({ m with board := { m.board with internalRef := internal } } : Module).setFlag Fld.CLK_STATUS_SOURCE 0 0 internal

/-- Every port that is not disabled loses its link at once and enters HELD; the version in force is kept for the retrain. -/
def Module.holdPorts (m : Module) : Module :=
  let ps := (List.range 6).filter (fun p => m.portStateOf p != portState.disabled && m.portStateOf p != portState.held)
  let vlp := ps.map (fun p => (p, m.fld Fld.VIA_PORT_STATUS_VLP p))
  let m := ps.foldl (fun m p => m.setPortState p portState.held) m
  let m := ps.foldl (fun m p => m.closePort p portState.held) m
  let m := vlp.foldl (fun (m : Module) x => m.setFld Fld.VIA_PORT_STATUS_VLP x.1 0 x.2) m
  (ps.foldl (fun m p => m.cutOps p) m).lostBuddies

/-- HOLD: the transmitters are squelched, the alive pin stops, the dies are gated, the I/O die runs on the internal oscillator;
a power state ends as HOLD (R472). [log 146 DEDUCED] -/
def Module.enterHold (m : Module) : Module :=
  let m := m.holdPorts
  let m := ({ m with aliveHold := true } : Module).setFlag Fld.CLK_STATUS_HELD 0 0 true
  let m := m.selectRef true
  m.exitState

/-- The non-maskable clock event (R351, R453). -/
def Module.clockEvent (m : Module) : Module :=
  let m := (m.setFlag Fld.HIF_NMI_STATUS_CLOCK 0 0 true).send (.msix 0 2047)
  if m.flag Fld.CLK_CTL_FAIL_POLICY then m.enterHold else m.selectRef true

/-- A port leaves HELD: it retrains, or, without a link to retrain, it is DOWN. -/
def Module.unholdPort (m : Module) (p : Nat) : Module :=
  if m.portStateOf p != portState.held then m
  else if m.fld Fld.VIA_PORT_STATUS_VLP p = 0 then m.setPortState p portState.down
  else (m.setPortState p portState.up).startRetrain p

/-- HOLD is left (R455). -/
def Module.leaveHold (m : Module) : Module :=
  if !m.flag Fld.CLK_STATUS_HELD then m
  else
    let m := m.selectRef (!m.flag Fld.CLK_STATUS_CRYSTAL_OK)
    let m := ({ m with aliveHold := false } : Module).setFlag Fld.CLK_STATUS_HELD 0 0 false
    let m := m.busyTens.foldl (fun m t => (m.suspendTen t false).askResume t) m
    (List.range 6).foldl (fun m p => m.unholdPort p) m

end Sys2Proof.Machine
end

