-- ==== Sys2Proof/Machine/Clock.lean ====
section
/-! DEFINITION. Machine/Clock.lean: the clock monitor, the clock event, HOLD and RESELECT, and the tile clock step (R452 to R459,
R470, R473). -/

namespace Sys2Proof.Machine

/-- Windows of the monitor run: the rails are in regulation (R469). -/
def Module.monitorRuns (m : Module) : Bool := decide (3 ≤ m.board.boot) && decide (m.board.boot ≤ 6)

/-- Start-up goes on with training, at step 6. -/
def Module.startTraining (m : Module) (internal : Bool) : Module :=
  let m := (m.selectRef internal).setFlag Fld.CLK_STATUS_PLL_LOCK 0 0 true
  (({ m with board := { m.board with boot := 4 } } : Module).setPhase phase.memory).trainLink

/-- After an M reset, which leaves the crystal and the PLL as they were but gives CLK_STATUS and CLK_MON their reset values (R10,
R471), the registers report the reference and the lock again from the next window on. [log 129 DEDUCED] -/
def Module.reportClock (m : Module) : Module :=
  m.when (decide (4 ≤ m.board.boot)) (fun m =>
    (m.setFlag Fld.CLK_STATUS_SOURCE 0 0 m.board.internalRef).setFlag Fld.CLK_STATUS_PLL_LOCK 0 0 true)

/-- A qualifying window. -/
def Module.goodWindow (m : Module) : Module :=
  let m := m.addFld Fld.CLK_MON_GOOD_RUN 0 0
  if 16 ≤ m.fld Fld.CLK_MON_GOOD_RUN then m.setFlag Fld.CLK_STATUS_CRYSTAL_OK 0 0 true else m

/-- A failing window: the second in a row fails the crystal, which as the reference is the clock event. -/
def Module.badWindow (m : Module) : Module :=
  let n := min 2 (m.board.badRun + 1)
  let fails := m.board.badRun = 1
  let m := { m with board := { m.board with badRun := n } }
  if !fails then m
  else
    let m := (m.setFlag Fld.CLK_STATUS_CRYSTAL_OK 0 0 false).raise Kind.CLK_CRYSTAL_FAIL 0 0
    if m.board.internalRef then m else m.clockEvent

/-- CLOCK_MONITOR_WINDOW (R452, R453, R469). -/
def execClockMonitorWindow (count : BitVec 16) (s : State) : Host.Outcome State Fault Refusal :=
  s.run fun m =>
    if !m.monitorRuns then m
    else
      let n := count.toNat
      let m := m.reportClock.setFld Fld.CLK_MON_COUNT 0 0 (min 2047 n)
      let m := if 1004 ≤ n ∧ n ≤ 1044 then m.goodWindow else m.setFld Fld.CLK_MON_GOOD_RUN 0 0 0
      let m := if 973 ≤ n ∧ n ≤ 1075 then { m with board := { m.board with badRun := 0 } } else m.badWindow
      if m.board.boot ≠ 3 then m
      else
        let m := { m with board := { m.board with windows := min 64 (m.board.windows + 1) } }
        if m.flag Fld.CLK_STATUS_CRYSTAL_OK then m.startTraining false else m

/-- CRYSTAL_QUALIFY_TIMEOUT (R470): no crystal has qualified within 64 windows. -/
def execCrystalQualifyTimeout (s : State) : Host.Outcome State Fault Refusal :=
  s.run fun m =>
    if m.board.boot ≠ 3 || decide (m.board.windows < 64) then m
    else ((m.setFlag Fld.HIF_NMI_STATUS_CLOCK 0 0 true).raise Kind.CLK_CRYSTAL_FAIL 0 0).startTraining true

/-- PLL_UNLOCK (R473): as a crystal failure under the policy. The PLL locks again on the reference that is then selected. [log 145 DEDUCED] -/
def execPllUnlock (s : State) : Host.Outcome State Fault Refusal :=
  s.run fun m => if 4 ≤ m.board.boot then (m.raise Kind.CLK_PLL_UNLOCK 0 0).clockEvent else m

/-- HOLD_EXIT (R455). -/
def execHoldExit (s : State) : Host.Outcome State Fault Refusal :=
  s.run fun m => m.leaveHold

/-- RESELECT (R456): only the policy SWITCH selects by it. -/
def Module.reselect (m : Module) : Module :=
  if m.flag Fld.CLK_STATUS_HELD then m
  else if m.flag Fld.CLK_STATUS_CRYSTAL_OK then m.selectRef false
  else m.raise Kind.CLK_RESELECT_REFUSED 0 0

/-- RESELECT (R456). -/
def execReselect (s : State) : Host.Outcome State Fault Refusal :=
  s.run fun m => m.reselect

/-! ## The tile clock step (R457, R458) -/

/-- PWR_CAP as it acts. -/
def Module.powerCap (m : Module) : Nat := min 1700 (m.fld Fld.PWR_CAP_WATTS)

/-- The throttle point as it acts. -/
def Module.throttle (m : Module) : Nat := min 100 (m.fld Fld.PWR_THERMAL_THROTTLE_C)

/-- The step may rise, or follows TILE_STEP_MAX. [log 143 DEDUCED] -/
def Module.stepFaster (m : Module) : Module :=
  let n := m.fld Fld.CLK_STATUS_TILE_STEP
  let top := m.fld Fld.PWR_CTL_TILE_STEP_MAX
  let n' := if n < top then n + 1 else if 10 ≤ m.board.cool && top < n then n - 1 else n
  let m := m.setFld Fld.CLK_STATUS_TILE_STEP 0 0 n'
  if n' = 0 then m.setFld Fld.PWR_STATUS_LIMIT 0 0 0 else if n' ≤ top then m.setFld Fld.PWR_STATUS_LIMIT 0 0 limit.max else m

/-- TILE_STEP_EVAL (R458): the choice made every 1 ms, with the input power over the last 1 ms and the hottest die sensor. -/
def execTileStepEval (watts : BitVec 16) (hottest : BitVec 8) (s : State) : Host.Outcome State Fault Refusal :=
  s.run fun m =>
    let m := (m.setFld Fld.PWR_STATUS_INPUT_W 0 0 watts.toNat).setFld Fld.PWR_THERMAL_HOTTEST_C 0 0 hottest.toNat
    if !m.clocked || m.board.boot ≠ 6 then m
    else
      let power := decide (m.powerCap < watts.toNat)
      let hot := decide (m.throttle < hottest.toNat)
      let cool := decide (10 * watts.toNat < 9 * m.powerCap) && decide (hottest.toNat + 5 < m.throttle)
      let m := { m with board := { m.board with cool := if cool then min 10 (m.board.cool + 1) else 0 } }
      if power || hot then
        if m.fld Fld.PWR_STATUS_STATE = 0 then m.stepSlower power hot
        else { m with board := { m.board with stepDown := some (power, hot) } }
      else m.stepFaster

/-- THERMAL_TRIP (R459): the dies are power-gated, TRIP is severe, the alive pin stops; only a P reset ends it. -/
def execThermalTrip (s : State) : Host.Outcome State Fault Refusal :=
  s.run fun m => ({ m with board := { m.board with tripped := true } } : Module).raise Kind.PWR_TRIP 0 0

end Sys2Proof.Machine
end

