-- ==== Sys2Proof/Machine/Generation.lean ====
section
/-! DEFINITION. Machine/Generation.lean: the waybill engine: submissions, actions, the building and the processing of steps,
and followers (R185 to R211). -/

namespace Sys2Proof.Machine

/-! ## Submission (R190, R207) -/

/-- A reserved bit of an entry image is set (R188). -/
def imgReserved (b : List Byte) : Bool :=
  [(0, 4, 4, 4), (0, 4, 15, 1), (0, 4, 22, 10), (8, 4, 22, 10), (16, 4, 19, 13), (20, 4, 19, 13), (24, 4, 19, 13),
   (28, 4, 19, 13), (32, 1, 7, 1), (33, 1, 4, 4), (34, 1, 3, 1), (34, 1, 7, 1), (36, 2, 15, 1)].any
    (fun x => imgBits b x.1 x.2.1 x.2.2.1 x.2.2.2 != 0)

/-- Row 4 of R190: the form of a submission, and the window check of R187. -/
def Module.formOk (m : Module) (t : Ten) (w : Waybill) : Bool :=
  let k := w.wlog2
  let slots := m.fld Fld.WBL_TEN_KV_SLOTS t.val
  let p := m.fld Fld.WBL_TEN_KV_PAGES_LOG2 t.val
  (w.state == wst.queued || w.state == wst.paused) && decide (26 ≤ k) && decide (k ≤ 36)
    && w.wbase % 2 ^ (k - 26) == 0 && !imgReserved w.image
    && decide (w.length + 1 ≤ w.limit) && decide (w.limit ≤ 262144) && decide (1 ≤ w.prompt) && decide (w.prompt ≤ w.length)
    && !(w.draftEn && w.draftMax == 0)
    && decide (slots * 2 ^ (p + 16) ≤ 2 ^ (k - 1)) && decide (w.limit ≤ 2 ^ (p + 8))

/-- Row 5 of R190: the module's fields. -/
def fieldsOk (w : Waybill) : Bool :=
  if w.state = wst.queued then w.recorded == w.prompt && w.pendingDrafts == 0 && !w.kvKept
  else decide (w.prompt ≤ w.recorded) && decide (w.recorded ≤ w.length) && w.pendingDrafts == 0

/-- Waybills that a tenancy holds. -/
def Module.waybillsOf (m : Module) (t : Ten) : Nat := (m.waybills.filter (fun p => p.2.ten == t)).length

/-- The first row of R190 that a submission fails, as a status, with what the row does beside it. [log 57 DEDUCED] -/
def Module.submitFault (m : Module) (t : Ten) (w : Waybill) : Option Nat × Module :=
  if t = house ∨ !m.flag Fld.WBL_TEN_GROUP_LEADER t.val then (some st.resource, m)
  else
    let m := m.probe Kind.WBL_PAIR t.val 0
    if !imgPairs w.image then (some st.check, m.raise Kind.WBL_PAIR t.val 0)
    else if w.bits 0 4 8 7 ≠ t.val then
      (some st.isolation, (m.violation t.val .wbl).raise Kind.WBL_ISOLATION t.val (w.bits 0 4 8 7))
    else if !m.formOk t w || !fieldsOk w || (m.caravanOf t w.caravan).isNone then (some st.check, m)
    else if 16384 ≤ m.waybills.length ∨ m.fld Fld.WBL_TEN_LIMITS_MAX_WAYBILLS t.val ≤ m.waybillsOf t then
      (some st.resource, m)
    else (none, m)

/-- The lowest free waybill id. -/
def Module.freeId (m : Module) : Nat := ((List.range 16384).find? (fun i => (m.waybill i).isNone)).getD 0

/-- An accepted submission takes its entry: STATE QUEUED, EFFECTIVE from PRIORITY, AGE 0, and E and the page list as R194
and R207 say. -/
def Module.acceptWaybill (m : Module) (w : Waybill) : Module :=
  let kept := w.kvKept
  let (pages, m) := if w.state = wst.paused then m.takeKept w.ten w.window else ([], m)
  let id := m.freeId
  let w := (((w.setState wst.queued).put 32 1 3 3 w.priority).put 32 1 6 1 0).put 48 2 0 16 0
  let w := { w.put 35 1 0 8 0 with e := if kept then w.recorded - 1 else 0, pages := pages, since := m.calendarUs }
  let m := (m.subFld Fld.WBL_FREE_FREE 0 0).setWaybill id w
  m.postWaybill w.comp (waybillRecord id st.ok wst.queued w.length w.index cause.none)

/-- The waybill that an entry of a ring submits, before it is accepted. -/
def newWaybill (t : Ten) (g comp index : Nat) (bs : List Byte) : Waybill where
  image := bs
  ten := t
  ring := g
  comp := comp
  index := index
  since := 0
  qualifies := false
  missed := false
  e := 0
  pages := []
  action := none
  step := none
  reserved := 0
  firstPos := none
  oldest := 0
  last := 0
  flagsOr := 0
  ringFault := none
  ending := none
  endVersion := 0

/-- WAYBILL_SUBMIT (R190, R191, R207, R348). -/
def execWaybillSubmit (ring : BitVec 15) (s : State) : Host.Outcome State Fault Refusal :=
  s.run fun m =>
    let g := ring.toNat
    let t := m.ringOwner g
    match m.takeEntry ringType.waybill 2 g with
    | (none, m) => m
    | (some (index, bs), m) =>
      let comp := m.pairOf g
      let m := m.reserve comp 2
      let w := newWaybill t g comp index bs
      match m.submitFault t w with
      | (none, m) => m.acceptWaybill w
      | (some status, m) =>
        let m := (m.raise Kind.WBL_REFUSED t.val index).postWaybill comp
          (waybillRecord 0xFFFF status wst.free w.length index cause.none)
        m.unreserve comp 1

/-! ## Actions (R192) -/

/-- A write of WBL_TEN_ACTION. -/
def Module.actOn (m : Module) (t : Ten) (id a : Nat) : Module :=
  match m.waybill id with
  | none => m
  | some w =>
    if w.ten ≠ t then (m.violation t.val .wbl).raise Kind.WBL_ISOLATION t.val id
    else if !w.live then m
    else if w.step.isSome then
      if w.action = some 3 then m else m.setWaybill id { w with action := some a }
    else
      match m.checkPairs id w with
      | (false, m) => m
      | (true, m) => m.applyAction id w a

/-- PAUSE_KEEP (R192, R206). -/
def execPauseKeep (f : Func) (ten : Ten) (waybill : BitVec 14) (s : State) : Host.Outcome State Fault Refusal :=
  s.run fun m => m.guardTen f ten fun m => m.actOn ten waybill.toNat 1

/-- PAUSE_DROP (R192, R206). -/
def execPauseDrop (f : Func) (ten : Ten) (waybill : BitVec 14) (s : State) : Host.Outcome State Fault Refusal :=
  s.run fun m => m.guardTen f ten fun m => m.actOn ten waybill.toNat 2

/-- ABORT (R192, R205). -/
def execAbort (f : Func) (ten : Ten) (waybill : BitVec 14) (s : State) : Host.Outcome State Fault Refusal :=
  s.run fun m => m.guardTen f ten fun m => m.actOn ten waybill.toNat 3

/-- SEQEND_DEFERRED_WRITE (R205): the sequence-end record and the completion of a waybill that ended outside a step. -/
def execSeqendDeferredWrite (waybill : BitVec 14) (s : State) : Host.Outcome State Fault Refusal :=
  s.run fun m => m.settleEnding waybill.toNat

/-- WBL_PEEK_SEL: a write latches the entry into WBL_PEEK_DATA; a free entry reads as zero. -/
def Module.peekWaybill (m : Module) (id : Nat) : Module :=
  let b := ((m.waybill id).map (fun w => w.image)).getD (List.replicate 64 0)
  (List.range 8).foldl (fun m i => m.setReg .WBL_PEEK_DATA i 0 (BitVec.ofNat 64 (fieldAt b (8 * i) 8)))
    (m.setFld Fld.WBL_PEEK_SEL_WAYBILL 0 0 id)

/-- WBL_PEEK_SEL. -/
def execWblPeekSel (value : Word) (s : State) : Host.Outcome State Fault Refusal :=
  s.run fun m => m.peekWaybill (value.toNat % 16384)

/-! ## Priorities (R195) -/

/-- Insert by a rank that must not rise, keeping the order of equals. -/
def insertBy (key : Nat → Nat) (x : Nat) : List Nat → List Nat
  | [] => [x]
  | y :: ys => if key y < key x then x :: y :: ys else y :: insertBy key x ys

/-- Order by descending key; equals stay in the order given. -/
def sortBy (key : Nat → Nat) (xs : List Nat) : List Nat := xs.foldl (fun a x => insertBy key x a) []

/-- The waybills of a tenancy that no step in flight carries, in ascending id. -/
def Module.eligible (m : Module) (t : Ten) : List Nat :=
  (m.waybills.filter (fun p => p.2.ten == t && p.2.live && p.2.step.isNone)).map (·.1)

def Module.waitOf (m : Module) (id : Nat) : Nat :=
  match m.waybill id with
  | some w => m.calendarUs - w.since
  | none => 0

/-- The deadline rank of the urgent order: earlier deadlines first, 0 read as never. -/
def Waybill.deadlineKey (w : Waybill) : Nat := if w.deadline = 0 then 0 else 2 ^ 64 - w.deadline

/-- The waybill qualifies as urgent (R195). -/
def Module.qualifies (m : Module) (w : Waybill) : Bool :=
  let limit := m.fld Fld.WBL_AGE_LIMIT_LIMIT
  (limit != 0 && decide (limit ≤ m.calendarUs - w.since))
    || (w.deadline != 0 && decide (w.deadline ≤ m.calendarUs + m.fld Fld.WBL_URGENT_MARGIN_MARGIN))

/-- EFFECTIVE, AGE and the qualification of one waybill, and its deadline (R195). -/
def Module.recompute (m : Module) (id : Nat) : Module :=
  match m.waybill id with
  | none => m
  | some w =>
    let now := m.calendarUs
    let wait := now - w.since
    let w := w.put 32 1 3 3 (min 7 (w.priority + wait / max 1 (m.fld Fld.WBL_AGE_STEP_STEP)))
    let w := w.put 48 2 0 16 (min 65535 (wait / 32))
    let w := { w with qualifies := m.qualifies w }
    if w.deadline ≠ 0 ∧ w.deadline < now ∧ !w.missed then
      let w := { w with missed := true }
      let m := (m.addFld Fld.WBL_TEN_WAITS_DEADLINE_MISS w.ten.val 0).raise Kind.WBL_DEADLINE w.ten.val id
      if w.hardDeadline then m.endOutside id w cause.deadline st.deadline else m.setWaybill id w
    else m.setWaybill id w

/-- The live waybills of a tenancy, in ascending id. -/
def Module.liveIds (m : Module) (t : Ten) : List Nat := (m.waybills.filter (fun p => p.2.ten == t && p.2.live)).map (·.1)

/-- PRIORITY_RECOMPUTE (R195): levels, ages and deadlines of the waybills that are in no step in flight, then URGENT for at most
URGENT_SLOTS of the tenancy's qualifying waybills, and for no other. A waybill in flight qualifies as it did when last looked
at. -/
def Module.recomputeAll (m : Module) (t : Ten) : Module :=
  let m := (m.eligible t).foldl (fun m id => m.recompute id) m
  let ids := m.liveIds t
  let key := fun id => match m.waybill id with
    | some w => w.deadlineKey * 2 ^ 64 + m.waitOf id
    | none => 0
  let q := ids.filter (fun id => ((m.waybill id).map (fun w => w.qualifies)).getD false)
  let top := (sortBy key q).take (m.fld Fld.WBL_TEN_LIMITS_URGENT_SLOTS t.val)
  ids.foldl (fun m id =>
    match m.waybill id with
    | some w => m.setWaybill id (w.put 32 1 6 1 (if top.contains id then 1 else 0))
    | none => m) m

/-! ## The choice of entries (R196, R197) -/

/-- Rank under R196 by EFFECTIVE and wait alone. -/
def Module.levelKey (m : Module) (id : Nat) : Nat :=
  (((m.waybill id).map Waybill.effective).getD 0) * 2 ^ 64 + m.waitOf id

/-- Rank under R196. -/
def Module.serveKey (m : Module) (id : Nat) : Nat :=
  (if ((m.waybill id).map Waybill.urgent).getD false then 2 ^ 68 else 0) + m.levelKey id

/-- The victim of R197: not URGENT, no pending action, at least one page, ordering last by EFFECTIVE and wait; among equals
the one with the most pages, then the highest id. [log 58 DEDUCED] -/
def Module.evictVictim (m : Module) (t : Ten) (placing : Nat) : Option Nat :=
  let ok := fun id => match m.waybill id with
    | some w => id != placing && !w.urgent && w.action.isNone && !w.pages.isEmpty
    | none => false
  let pages := fun id => ((m.waybill id).map (fun w => w.pages.length)).getD 0
  ((m.eligible t).filter ok).foldl (fun a id =>
    match a with
    | none => some id
    | some b =>
      if m.levelKey id < m.levelKey b then some id
      else if m.levelKey id = m.levelKey b ∧ pages b ≤ pages id then some id
      else some b) none

/-- Evict a waybill: a pause with DROP and CAUSE EVICTED (R197, R206). -/
def Module.evict (m : Module) (t : Ten) (id : Nat) : Module :=
  match m.waybill id with
  | none => m
  | some w =>
    ((m.addFld Fld.WBL_TEN_WAITS_EVICTIONS t.val 0).raise Kind.WBL_EVICT t.val id).pauseWaybill id w false cause.evicted

/-- Map the pages of a window for positions up to `q` for a waybill. -/
def Module.mapWindow (m : Module) (id : Nat) (q : Nat) : Except (Option Fail) Unit × Module :=
  match m.waybill id with
  | none => (.error none, m)
  | some w =>
    let ten := w.ten.val
    let pages := windowPages w.window w.wlog2 (m.fld Fld.WBL_TEN_KV_SLOTS ten) (m.fld Fld.WBL_TEN_KV_PAGES_LOG2 ten) q
    let (r, own, m) := m.mapPages ten pages w.pages
    (r, m.setWaybill id { w with pages := own })

/-- pages_ready of R197: map, and where the pool is short and EVICT_EN permits, evict one victim and try once more. -/
def Module.pagesReady (m : Module) (t : Ten) (id q : Nat) : Except (Option Fail) Unit × Module :=
  match m.mapWindow id q with
  | (.error none, m) =>
    if !m.flag Fld.WBL_TEN_CTL_EVICT_EN t.val then (.error none, m)
    else
      match m.evictVictim t id with
      | none => (.error none, m)
      | some v => (m.evict t v).mapWindow id q
  | r => r

/-- What R194 and R196 feed of a waybill: first position, count, SAMPLE and SCORE. -/
structure Feed where
  pos : Nat
  count : Nat
  sample : Bool
  score : Bool
  deriving DecidableEq, Repr

/-- The run of positions of R194 for a count. -/
def Waybill.feed (w : Waybill) (c : Nat) : Feed :=
  if w.state = wst.decode then ⟨w.length - 1, c, true, false⟩
  else ⟨w.e, c, w.e + c == w.length, decide (max w.e (w.recorded - 1) + 1 < min (w.e + c + 1) w.length)⟩

/-- Slots of the records that processing could write, with the sequence-end record (R197, R201). [log 61 DEDUCED] -/
def Waybill.roomFor (w : Waybill) (f : Feed) : Nat :=
  (if f.score then min w.length (f.pos + f.count) - w.recorded else 0) + (if f.sample then 1 + w.pendingDrafts else 0) + 2

/-- A ragged entry (R199). -/
def Waybill.ragEntry (w : Waybill) (id : Nat) (f : Feed) (row pageBase : Nat) : RagEntry :=
  let p := w.pendingDrafts
  let decode := w.state == wst.decode
  leBytes 2 id
    ++ [byteOf (if decode then (if p = 0 then 1 else 2) else 0), byteOf ((if f.sample then 1 else 0) + (if f.score then 2 else 0))]
    ++ leBytes 4 f.pos ++ leBytes 2 f.count
    ++ [byteOf (if decode then p else 0), byteOf (if w.draftEn then w.draftMax else 0)]
    ++ leBytes 4 row ++ leBytes 8 w.window ++ leBytes 4 (w.recorded - 1) ++ leBytes 4 pageBase
    ++ leBytes 4 (fieldAt w.image 52 4) ++ leBytes 2 (fieldAt w.image 50 2) ++ leBytes 2 (w.bits 60 4 20 12)
    ++ leBytes 4 (fieldAt w.image 56 4) ++ [byteOf w.wlog2] ++ List.replicate 19 0

/-- A RELEASE entry (R208). -/
def releaseEntry (id window k row pageBase : Nat) : RagEntry :=
  leBytes 2 id ++ [3, 0] ++ leBytes 4 0 ++ leBytes 2 0 ++ [0, 0] ++ leBytes 4 row ++ leBytes 8 window ++ leBytes 4 0
    ++ leBytes 4 pageBase ++ List.replicate 12 0 ++ [byteOf k] ++ List.replicate 19 0

/-- The choice so far: entries, rows, pages per slot, prefill rows left, waybills chosen. -/
structure Choice where
  entries : List RagEntry
  rows : Nat
  pages : Nat
  pre : Nat
  ids : List Nat
  deriving DecidableEq, Repr

/-- Positions that the loop of R196 gives a waybill, 0 where it is passed by. -/
def Module.runLength (m : Module) (t : Ten) (w : Waybill) (ch : Choice) : Nat :=
  let tokens := m.fld Fld.WBL_TEN_BUDGET_TOKENS t.val
  if w.state = wst.decode then
    if tokens < ch.rows + (1 + w.pendingDrafts) then 0 else 1 + w.pendingDrafts
  else min (min (w.length - w.e) (m.fld Fld.WBL_TEN_PREFILL_CHUNK t.val)) (min (tokens - ch.rows) ch.pre)

/-- A waybill is passed over for want of pages or of caravan room (R197). -/
def Module.passOver (m : Module) (t : Ten) (id : Nat) (f : Field) (k : Kind) : Module :=
  ((m.addFld f t.val 0).raise k t.val id).count 0x1102 t.val 1

/-- Add one waybill to the choice, if pages and room are there (R196, R197). A translation fault of the mapping ends it
(R209). -/
def Module.chooseOne (m : Module) (t : Ten) (n : Word64) (ch : Choice) (id : Nat) : Choice × Module :=
  match m.waybill id with
  | none => (ch, m)
  | some w =>
    let c := m.runLength t w ch
    if !w.live || w.step.isSome || c = 0 || max 1 (m.fld Fld.WBL_TEN_BUDGET_SEQS t.val) ≤ ch.ids.length then (ch, m)
    else
      let f := w.feed c
      match m.pagesReady t id (f.pos + c - 1) with
      | (.error (some e), m) =>
        (ch, match m.waybill id with
          | some w => m.endOutside id w cause.fault e.status
          | none => m)
      | (.error none, m) => (ch, m.passOver t id Fld.WBL_TEN_WAITS_KV_WAIT Kind.WBL_KV_WAIT)
      | (.ok _, m) =>
        match m.waybill id with
        | none => (ch, m)
        | some w =>
          let need := w.roomFor f
          let room := match m.caravanOf t w.caravan with
            | some k => (m.caravan k).bind (fun x => if need ≤ m.cvnRoom k x then some k else none)
            | none => none
          match room with
          | none =>
            let m := match m.caravanOf t w.caravan with
              | some k => m.starve k
              | none => m
            (ch, m.passOver t id Fld.WBL_TEN_WAITS_CVN_WAIT Kind.WBL_CVN_WAIT)
          | some k =>
            let m := (m.cvnReserve k need).setWaybill id { w with step := some n, reserved := need }
            let e := w.ragEntry id f ch.rows ch.pages
            ({ ch with
                entries := ch.entries ++ [e], rows := ch.rows + c, pages := ch.pages + rag.pages e
                pre := if w.state = wst.decode then ch.pre else ch.pre - c, ids := ch.ids ++ [id] }, m)

/-- The loop of R196 over the waybills in the order of service. -/
def Module.choose (m : Module) (t : Ten) (n : Word64) : Choice × Module :=
  let ids := m.eligible t
  let decoding := ids.any (fun id => ((m.waybill id).map (fun w => w.state == wst.decode)).getD false)
  let pre := if decoding then m.fld Fld.WBL_TEN_PREFILL_PREFILL_MAX t.val else m.fld Fld.WBL_TEN_BUDGET_TOKENS t.val
  (sortBy m.serveKey ids).foldl (fun (x : Choice × Module) id => x.2.chooseOne t n x.1 id) (⟨[], 0, 0, pre, []⟩, m)

/-! ## The building of a step (R196 to R199, R208) -/

/-- The generation route that the engine serves for a tenancy: the lowest-numbered running one. [log 60 DEDUCED] -/
def Module.servedRoute (m : Module) (t : Ten) : Option (Nat × Route) :=
  m.routes.find? (fun p => p.2.ten == t && !p.2.learning && p.2.state == .running)

/-- Take the chosen waybills out of a step that is not built: room is returned, states are kept (R198). -/
def Module.unchoose (m : Module) (ids : List Nat) : Module :=
  ids.foldl (fun m id =>
    match m.waybill id with
    | some w => (m.returnRoom w).setWaybill id { w with step := none, reserved := 0 }
    | none => m) m

/-- Write a slot into the ragged ring (R198). [log 66 DEDUCED] -/
def Module.writeSlot (m : Module) (ten : Nat) (g : GenCfg) (step : Word64) (bs : List Byte) : Except Fail Unit × Module :=
  m.writeVA .wbl ten (g.ragged + 65536 * (step.toNat % g.depth)) bs

/-- Module numbers of the members of a box other than this module (R309, R312). -/
def Module.boxOthers (m : Module) (ten g : Nat) : List Nat :=
  let line := fun d => (List.range (m.boxExt g d)).map (fun k => (boxLo g d + k) % m.dim d)
  ((line 2).flatMap (fun z => (line 1).flatMap (fun y => (line 0).map (fun x => z * 256 + y * 16 + x)))).filter
    (fun v => v != m.positionOf ten)

/-- Payload bytes of the largest packet: 32 flits without the header (R301). -/
abbrev packetPayload : Nat := 32 * flitPayload - 32

/-- Header bytes 16 to 31 of a SLOT packet: the offset of its bytes in the slot, and the slot's length. [log 65 DESIGN CHOICE] -/
def slotSpec (offset len : Nat) : Nat := offset + len * 2 ^ 32

/-- A slot cut into the payloads of SLOT packets, with their headers. [log 65 DESIGN CHOICE] -/
def slotPieces (bs : List Byte) : List (Nat × List Byte) :=
  (List.range ((bs.length + packetPayload - 1) / packetPayload)).map (fun k =>
    (slotSpec (packetPayload * k) bs.length, (bs.drop (packetPayload * k)).take packetPayload))

/-- The leader sends the slot to its followers in SLOT packets under the job (R208, R301). -/
def Module.sendSlot (m : Module) (t : Ten) (g : GenCfg) (bs : List Byte) : Module :=
  if g.group = 0 then m
  else
    (m.boxOthers t.val g.group).foldl (fun m d =>
      (slotPieces bs).foldl (fun m x => m.sendLink t.val d 3 x.1 x.2) m) m

/-- Endings that are due when the engine builds a step: write faults of rings (R219) and disagreeing pairs (R189). -/
def Module.sweepWaybills (m : Module) (t : Ten) : Module :=
  (m.eligible t).foldl (fun m id =>
    match m.waybill id with
    | none => m
    | some w =>
      match w.ringFault with
      | some status => m.endSilent id w cause.fault status
      | none => (m.checkPairs id w).2) m

/-- Build step n on a leader. -/
def Module.buildStep (m : Module) (t : Ten) (n : Nat) (r : Route) : Module :=
  let step := r.nextBuild
  let m := (m.sweepWaybills t).recomputeAll t
  let (ch, m) := m.choose t step
  if ch.ids.isEmpty then m
  else
    let mine := fun (x : Ten × Nat × Nat × Nat) => x.1 == t
    let due := (m.notices.filter mine).take (1023 - ch.entries.length)
    let es := ch.entries ++ due.map (fun x => releaseEntry x.2.1 x.2.2.1 x.2.2.2 ch.rows ch.pages)
    let bs := slotBytes step es
    match m.writeSlot t.val r.gen step bs with
    | (.error e, m) => (m.unchoose ch.ids).failRoute n e
    | (.ok _, m) =>
      let m := { m with notices := m.notices.filter (fun x => !due.contains x) }
      let m := m.sendSlot t r.gen bs
      let m := m.setRoute n (fun r => { r with slots := r.slots ++ [⟨step, es, true, false, none⟩], nextBuild := step + 1 })
      m.setReg .WBL_TEN_STEP t.val 0 step

/-! ## Followers (R208) -/

/-- Map the pages that one entry needs in the follower's own window. -/
def Module.followEntry (m : Module) (t : Ten) (e : RagEntry) : Bool × Module :=
  if rag.kind e = 3 then
    let (pages, m) := m.takeKept t (rag.window e)
    (true, m.dropPages t.val pages)
  else
    let (pages, m) := m.takeKept t (rag.window e)
    let need := windowPages (rag.window e) (rag.wlog2 e) (m.fld Fld.WBL_TEN_KV_SLOTS t.val)
      (m.fld Fld.WBL_TEN_KV_PAGES_LOG2 t.val) (rag.pos e + rag.count e - 1)
    let (r, own, m) := m.mapPages t.val need pages
    let m := m.keepPages t (rag.window e) own
    (match r with | .ok _ => true | .error _ => false, m)

/-- Map the pages of every entry of the slot that waits; where one cannot be mapped the head stage stays held and FOLLOW is
raised. -/
def Module.followSlot (m : Module) (t : Ten) (n : Nat) : Module :=
  match (m.route n).bind (fun r => r.slots.find? (fun s => !s.ready)) with
  | none => m
  | some s =>
    let (ok, m) := s.entries.foldl (fun (x : Bool × Module) e => if x.1 then x.2.followEntry t e else x) (true, m)
    if ok then
      (m.setRoute n (fun r => { r with slots := r.slots.map (fun x => if x.step == s.step then { x with ready := true } else x) }))
    else m.raise Kind.WBL_FOLLOW t.val 0

/-- Entries of a slot image. -/
def slotEntries (bs : List Byte) : List RagEntry :=
  (List.range (min 1023 (fieldAt bs 8 2))).map (fun k => (bs.drop (64 + 64 * k)).take 64)

/-- The delivered SLOT packets of a tenancy from one module that together are a slot; none while one lacks (R208, R308). -/
def Module.slotPackets (m : Module) (t : Ten) (slot : List Byte) : Option (List (Ten × Packet)) :=
  let is := fun (x : Nat × List Byte) (e : Ten × Packet) =>
    e.1 == t && e.2.kind == 3 && e.2.spec.toNat == x.1 && e.2.payload == x.2
  match slotPieces slot with
  | [] => none
  | x :: xs =>
    (m.inbox.find? (is x)).bind (fun e =>
      (xs.foldr (fun y acc => (m.inbox.find? (fun f => is y f && f.2.src == e.2.src)).bind (fun f => acc.map (fun es => f :: es)))
        (some [])).map (fun es => e :: es))

/-- SLOT_RECEIVE (R208): a follower takes a slot whose packets have all been delivered to the tenancy, writes it into its own
ragged table, maps the pages and may then release its head stage. A write that faults stops the route (R198). While the route
does not run, holds as many slots as its depth, or lacks an earlier slot, the packets wait; a slot that it has had, or that
names a leader, is dropped. [log 65 DESIGN CHOICE] -/
def execSlotReceive (ten : Ten) (slot : List Byte) (s : State) : Host.Outcome State Fault Refusal :=
  s.run fun m =>
    match m.slotPackets ten slot, m.servedRoute ten with
    | none, _ => m
    | some _, none => m
    | some es, some (n, r) =>
      let step := BitVec.ofNat 64 (fieldAt slot 0 8)
      let taken : Module := { m with inbox := es.foldl (fun (b : List (Ten × Packet)) e => b.erase e) m.inbox }
      if r.gen.leader || decide (step < r.nextBuild) then taken
      else if step != r.nextBuild || decide (r.gen.depth ≤ r.slots.length) then m
      else
        let m := taken
        match m.writeSlot ten.val r.gen step slot with
        | (.error e, m) => m.failRoute n e
        | (.ok _, m) =>
          let m := m.setRoute n (fun r => { r with
            slots := r.slots ++ [⟨step, slotEntries slot, false, false, none⟩], nextBuild := step + 1 })
          (m.setReg .WBL_TEN_STEP ten.val 0 step).followSlot ten n

/-- STEP_BUILD (R195 to R199, R208): the leader builds the next step; a follower tries again to map the slot that waits. -/
def execStepBuild (ten : Ten) (s : State) : Host.Outcome State Fault Refusal :=
  s.run fun m =>
    match m.servedRoute ten with
    | none => m
    | some (n, r) =>
      if m.flag Fld.WBL_CTL_SCHED_HOLD then m
      else if !r.gen.leader then m.followSlot ten n
      else if r.gen.depth ≤ r.slots.length then m
      else (m.buildStep ten n r).mirrorFill ten

/-! ## Processing a step (R200, R201, R204, R205) -/

/-- An FP32 word that is NaN or greater than 0. -/
def badLogprob (x : Nat) : Bool :=
  decide (0x7F800000 < x % 2 ^ 31) || (decide (x < 2 ^ 31) && decide (0 < x))

/-- Flags of a token record, from bit 20 (R220). -/
abbrev rec.lean : Nat := 1
abbrev rec.mixed : Nat := 2
abbrev rec.forced : Nat := 4
abbrev rec.end' : Nat := 8
abbrev rec.trunc : Nat := 16
abbrev rec.err : Nat := 32
abbrev rec.drafted : Nat := 64

/-- A token record (R220). -/
def tokenRecord (id token flags : Nat) (version : BitVec 16) (pos lp : Nat) : List Byte :=
  leBytes 4 (token % 2 ^ 20 + flags * 2 ^ 20) ++ leBytes 2 id ++ leBytes 2 version.toNat ++ leBytes 4 pos ++ leBytes 4 lp

/-- What the processing of one entry works on: the waybill with its changes, whether a window access has faulted, and how it
ends: state, cause and status. -/
structure Work where
  w : Waybill
  ends : Option (Nat × Nat × Nat)
  deriving DecidableEq, Repr

/-- An access of the window failed: the waybill ends with CAUSE FAULT and the status, or DATA_ERROR (R191, R209). -/
def Work.failed (x : Work) (e : Fail) : Work :=
  { x with ends := some (wst.error, if e.status = st.data then cause.dataError else cause.fault, e.status) }

/-- Token and log-probability of a position, from the histories of the window (R185). -/
def Module.history (m : Module) (w : Waybill) (p : Nat) : Except Fail (Nat × Nat) × Module :=
  match m.readVA .wbl w.ten.val (w.window + 4 * p) 4 with
  | (.error e, m) => (.error e, m)
  | (.ok tok, m) =>
    match m.readVA .wbl w.ten.val (w.window + 0x100000 + 4 * p) 4 with
    | (.error e, m) => (.error e, m)
    | (.ok lp, m) => (.ok (leNat tok % 2 ^ 20, leNat lp), m)

/-- Write a token record of a waybill, pin its first, and keep what the sequence-end record needs (R204, R217, R221). -/
def Module.writeRecord (m : Module) (id : Nat) (w : Waybill) (flags token : Nat) (version : BitVec 16) (pos lp : Nat) :
    Waybill × Module :=
  match m.caravanOf w.ten w.caravan with
  | none => (w, m)
  | some k =>
    match m.cvnAppend w.ten k [tokenRecord id token flags version pos lp] with
    | (none, m) => (w, m)
    | (some slot, m) =>
      let m := if w.firstPos.isNone then m.cvnPin k id slot else m
      let m := (m.addFld Fld.WBL_TEN_TOKENS_COUNT w.ten.val 0).count 0x1101 w.ten.val 1
      ({ w with
          firstPos := some (w.firstPos.getD pos)
          oldest := if w.firstPos.isNone then version else w.oldest
          last := version, flagsOr := w.flagsOr ||| flags }, m)

/-- Flags common to the records of a step. -/
def stepFlags (w : Waybill) (lean : Bool) (version : BitVec 16) : Nat :=
  (if lean then rec.lean else 0) + (if w.startVersion = version then 0 else rec.mixed)

/-- The FORCED records of an entry, one for each position of a list (R201). [log 67 DEDUCED] -/
def Module.forcedRecords (m : Module) (id : Nat) (lean : Bool) (version : BitVec 16) : List Nat → Work → Work × Module
  | [], x => (x, m)
  | p :: ps, x =>
    match m.history x.w p with
    | (.error e, m) => (x.failed e, m)
    | (.ok (tok, lp), m) =>
      let flags := stepFlags x.w lean version + rec.forced + (if badLogprob lp then rec.err else 0)
      let (w, m) := m.writeRecord id x.w flags tok version p lp
      if badLogprob lp then ({ x with w := w, ends := some (wst.error, cause.nonfinite, st.data) }, m)
      else m.forcedRecords id lean version ps { x with w := w }

/-- The sampled records of an entry: positions L to L + ACCEPT, each at most until the waybill ends (R201). -/
def Module.sampledRecords (m : Module) (id : Nat) (lean : Bool) (version : BitVec 16) (l a : Nat) :
    List Nat → Work → Work × Module
  | [], x => (x, m)
  | p :: ps, x =>
    match m.history x.w p with
    | (.error e, m) => (x.failed e, m)
    | (.ok (tok, lp), m) =>
      let base := stepFlags x.w lean version + (if p < l + a then rec.drafted else 0)
      let verdict : Nat × Option (Nat × Nat × Nat) :=
        if badLogprob lp then (rec.err, some (wst.error, cause.nonfinite, st.data))
        else if x.w.stopEn && tok == x.w.stopToken then (rec.end', some (wst.done, cause.stop, st.ok))
        else if p + 1 = x.w.limit then (rec.end' + rec.trunc, some (wst.done, cause.limit, st.ok))
        else (0, none)
      let (w, m) := m.writeRecord id x.w (base + verdict.1) tok version p lp
      let w := { (w.put 16 4 0 19 (p + 1)).put 28 4 0 19 (p + 1) with e := p }
      match verdict.2 with
      | some e => ({ x with w := w, ends := some e }, m)
      | none => m.sampledRecords id lean version l a ps { x with w := w }

/-- Write tokens into the token history from a position on. -/
def Module.writeTokens (m : Module) (ten window p : Nat) (toks : List Nat) : Except Fail Unit × Module :=
  if toks.isEmpty then (.ok (), m)
  else m.writeVA .wbl ten (window + 4 * p) (toks.flatMap (fun t => leBytes 4 (t % 2 ^ 20)))

/-- The sampling result of an entry, or none where it fails its check (R200, R201). -/
def resultOk (bs head : List Byte) (step : Word64) (e : RagEntry) : Bool :=
  fieldAt head 0 8 == step.toNat && fieldAt bs 0 2 == rag.waybill e && decide (fieldAt bs 2 1 ≤ rag.drafts e)
    && decide (fieldAt bs 3 1 ≤ rag.draftMax e)

/-- Proposed drafts of a result. -/
def resultDrafts (bs : List Byte) (d : Nat) : List Nat := (List.range d).map (fun k => fieldAt bs (8 + 4 * k) 4)

/-- The sampled part of an entry (R201). -/
def Module.processSample (m : Module) (id : Nat) (lean : Bool) (version : BitVec 16) (r : List Byte) (x : Work) : Work × Module :=
  let l := x.w.length
  let a := fieldAt r 2 1
  match m.writeTokens x.w.ten.val x.w.window (l + a) [fieldAt r 4 4] with
  | (.error e, m) => (x.failed e, m)
  | (.ok _, m) =>
    let (x, m) := m.sampledRecords id lean version l a ((List.range (a + 1)).map (l + ·)) x
    if x.ends.isSome then (x, m)
    else
      let w := x.w.setState wst.decode
      let d := if w.draftEn then min (fieldAt r 3 1) (min w.draftMax (w.limit - 1 - w.length)) else 0
      match m.writeTokens w.ten.val w.window w.length (resultDrafts r d) with
      | (.error e, m) => ({ x with w := w }.failed e, m)
      | (.ok _, m) => ({ x with w := w.put 34 1 4 3 d }, m)

/-- One entry of a step at the module that writes records (R201). `r` is its result, none where there is none or it fails. -/
def Module.processEntry (m : Module) (id : Nat) (lean : Bool) (version : BitVec 16) (e : RagEntry) (r : Except Fail (Option (List Byte)))
    (w : Waybill) : Work × Module :=
  match (if rag.sample e then r else .ok (some [])) with
  | .error f => (Work.failed ⟨w, none⟩ f, m)
  | .ok none => (⟨w, some (wst.error, cause.result, st.check)⟩, m.raise Kind.WBL_RESULT w.ten.val id)
  | .ok (some r) =>
    let l := w.length
    let w := if w.e = 0 ∧ rag.pos e = 0 then w.put 38 2 0 16 version.toNat else w
    let w := { w with e := rag.pos e + rag.count e }
    let lo := max w.recorded (rag.scoreFrom e + 1)
    let hi := min l w.e
    let ps := if rag.score e then (List.range (hi - lo)).map (lo + ·) else []
    let (x, m) := m.forcedRecords id lean version ps ⟨w, none⟩
    if x.ends.isSome then (x, m)
    else
      let w := x.w.put 28 4 0 19 (max x.w.recorded (min l x.w.e))
      if !rag.sample e then ({ x with w := w.setState wst.prefill }, m)
      else m.processSample id lean version r { x with w := w }

/-- The result of entry `k` of a step; none where it fails its check. [log 63 DEDUCED] -/
def Module.readResult (m : Module) (ten : Nat) (g : GenCfg) (step : Word64) (k : Nat) (e : RagEntry) :
    Except Fail (Option (List Byte)) × Module :=
  if !rag.sample e then (.ok none, m)
  else
    let base := g.result + 65536 * (step.toNat % g.depth)
    match m.readVA .wbl ten base 8 with
    | (.error f, m) => (.error f, m)
    | (.ok head, m) =>
      match m.readVA .wbl ten (base + 64 + 64 * k) 64 with
      | (.error f, m) => (.error f, m)
      | (.ok bs, m) => (.ok (if resultOk bs head step e then some bs else none), m)

/-- After an entry: the ending, or the pending action, or the wait for the next step (R192, R194). -/
def Module.concludeEntry (m : Module) (id : Nat) (version : BitVec 16) (x : Work) : Module :=
  let w := { x.w with
    step := none, since := m.calendarUs, ringFault := (m.waybill id).bind (fun y => y.ringFault) }
  match x.ends with
  | some (state, c, status) =>
    let reserved := w.reserved
    let m := m.endInStep id { w with action := none } state c status version
    match m.caravanOf w.ten w.caravan with
    | some k => m.cvnReturn k reserved
    | none => m
  | none =>
    let m := m.returnRoom w
    let w := { w with reserved := 0, action := none }
    let m := m.setWaybill id w
    match x.w.action with
    | none => m
    | some a => m.applyAction id w a

/-- Entry `k` of a step on a leader. -/
def Module.leadEntry (m : Module) (t : Ten) (g : GenCfg) (step : Word64) (lean bad : Bool) (version : BitVec 16) (k : Nat)
    (e : RagEntry) : Module :=
  let id := rag.waybill e
  match m.waybill id with
  | none => m
  | some w =>
    if rag.kind e = 3 || w.step != some step || w.ten != t then m
    else
      match m.checkPairs id w with
      | (false, m) => m
      | (true, m) =>
        if bad then m.concludeEntry id version ⟨w, some (wst.error, cause.dataError, st.data)⟩
        else
          let (r, m) := m.readResult t.val g step k e
          let (x, m) := m.processEntry id lean version e r w
          m.concludeEntry id version x

/-- No log-probability at these positions of a follower's own window is NaN or greater than 0. -/
def Module.goodLogprobs (m : Module) (ten window : Nat) : List Nat → Bool × Module
  | [] => (true, m)
  | p :: ps =>
    match m.readVA .wbl ten (window + 0x100000 + 4 * p) 4 with
    | (.error _, m) => (false, m)
    | (.ok lp, m) => if badLogprob (leNat lp) then (false, m) else m.goodLogprobs ten window ps

/-- Entry `k` of a step on a follower: the processing of R201 on its own result area and window, as far as its slot tells it. The
token is written, and, unless a log-probability ends the entry, the drafts: of the proposed ones as many as LIMIT and STOP leave,
which are not in the slot, so a free number. [log 64 DEDUCED] -/
def Module.followResult (m : Module) (t : Ten) (g : GenCfg) (step : Word64) (k : Nat) (e : RagEntry) : Module :=
  if rag.kind e = 3 || !rag.sample e then m
  else
    match m.readResult t.val g step k e with
    | (.error _, m) => m
    | (.ok none, m) => m.raise Kind.WBL_RESULT t.val (rag.waybill e)
    | (.ok (some r), m) =>
      let l := rag.pos e + rag.count e - rag.drafts e
      let a := fieldAt r 2 1
      let scored := if rag.score e then (List.range (l - (rag.scoreFrom e + 1))).map (rag.scoreFrom e + 1 + ·) else []
      match m.goodLogprobs t.val (rag.window e) scored with
      | (false, m) => m
      | (true, m) =>
        match m.writeTokens t.val (rag.window e) (l + a) [fieldAt r 4 4] with
        | (.error _, m) => m
        | (.ok _, m) =>
          match m.goodLogprobs t.val (rag.window e) ((List.range (a + 1)).map (l + ·)) with
          | (false, m) => m
          | (true, m) =>
            let d := Config.freeNat m.freeIx % (min (fieldAt r 3 1) (rag.draftMax e) + 1)
            (m.drawn.writeTokens t.val (rag.window e) (l + a + 1) (resultDrafts r d)).2

/-- The enabled caravan rings that a list of waybills names. -/
def Module.ringsOf (m : Module) (t : Ten) (es : List RagEntry) : List Nat :=
  es.foldl (fun a e =>
    match (m.waybill (rag.waybill e)).bind (fun w => m.caravanOf t w.caravan) with
    | some k => if a.contains k then a else a ++ [k]
    | none => a) []

/-- The records of finished steps are forgotten by the weight record. -/
def Module.pruneSteps (m : Module) (ten : Nat) (next : Word64) : Module :=
  match m.wrec ten with
  | none => m
  | some w => m.setWrec ten { w with
      badSteps := w.badSteps.filter (fun s => decide (next ≤ s))
      leanSteps := w.leanSteps.filter (fun s => decide (next ≤ s))
      past := w.past.filter (fun p => decide (next < p.1)) }

/-- Process the oldest step of a route (R201). -/
def Module.processStep (m : Module) (t : Ten) (n : Nat) (r : Route) (s : GenSlot) : Module :=
  let version := ((m.wrec t.val).map (fun w => w.versionAt s.step)).getD 0
  let lean := s.lean.getD (((m.wrec t.val).map (fun w => w.leanSteps.contains s.step)).getD false)
  let bad := ((m.wrec t.val).map (fun w => w.badSteps.contains s.step)).getD false
  let rings := m.ringsOf t s.entries
  let m := (List.range s.entries.length).foldl (fun m k =>
    match s.entries[k]? with
    | none => m
    | some e =>
      if r.gen.leader then m.leadEntry t r.gen s.step lean bad version k e else m.followResult t r.gen s.step k e) m
  let m := rings.foldl (fun m k => m.cvnPublish t k) m
  let m := m.setRoute n (fun r => { r with slots := r.slots.filter (fun x => x.step != s.step) })
  (m.pruneSteps t.val (s.step + 1)).mirrorFill t

/-- Every cluster of the route has committed the step of its oldest unprocessed slot. -/
def Module.slotCommitted (m : Module) (n : Nat) (r : Route) : Bool :=
  r.slots.head?.any (fun s => (m.clustersOf n).all (fun c => decide (s.step < (m.cl c).step)))

/-- STEP_PROCESS (R201): the oldest unprocessed step of a generation route of the tenancy, once every stage of the route has
committed it. In a group the LEAN indications are combined first (R167). -/
def execStepProcess (ten : Ten) (s : State) : Host.Outcome State Fault Refusal :=
  s.run fun m =>
    match m.routes.find? (fun p => p.2.ten == ten && !p.2.learning && m.slotCommitted p.1 p.2) with
    | none => m
    | some (n, r) =>
      match r.slots.head? with
      | none => m
      | some sl =>
        if r.gen.group = 0 || sl.lean.isSome then m.processStep ten n r sl
        else if sl.sent then m
        else
          let own : Word64 := if ((m.wrec ten.val).map (fun w => w.leanSteps.contains sl.step)).getD false then 1 else 0
          let m := m.startGroup ten r.gen.group 3 (sl.step.toNat % 2 ^ 32) (sl.step.toNat / 2 ^ 32 % 65536) own
          m.setRoute n (fun r => { r with slots := r.slots.map (fun x => if x.step == sl.step then { x with sent := true } else x) })

end Sys2Proof.Machine
end

