-- ==== Sys2Proof/Machine/Experience.lean ====
section
/-! DEFINITION. Machine/Experience.lean: the rows of the caravan rings and of rewards (R213 to R224). -/

namespace Sys2Proof.Machine

/-- The ring that holds a caravan index. -/
def Module.allocated (m : Module) (k : Nat) : Bool :=
  let g := m.fld Fld.CVN_RING_CFG_RING k
  m.ringEnabled g && m.ringType g == ringType.caravan && m.fld Fld.QUE_RING_INFO_CARAVAN g == k

/-- A write to the entry of a caravan ring: a virtual function writes those of its own tenancy's rings (R240, R342). -/
def Module.guardRing (m : Module) (f : Func) (k : Nat) (act : Module → Module) : Module :=
  if m.allocated k then m.guardTen f (Fin.ofNat 101 (m.fld Fld.CVN_RING_CFG_TENANCY k)) act
  else if f = 0 then act m else m

/-- ENABLE changes from 0 to 1 (R214): the settings are read, the counts and pins clear; a bad size, a misaligned base or an
index that no ring holds leaves ENABLE at 0 and raises CONFIG. -/
def Module.enableCaravan (m : Module) (k : Nat) : Module :=
  let t := m.fld Fld.CVN_RING_CFG_TENANCY k
  let base := m.fld Fld.CVN_RING_BASE_VA k
  let size := m.fld Fld.CVN_RING_CFG_SIZE_LOG2 k
  if m.flag Fld.CVN_RING_CFG_ENABLE k then m
  else if !m.allocated k || decide (size < 16) || decide (30 < size) || base % 2 ^ size != 0 then m.raise Kind.CVN_CONFIG t k
  else
    let m := m.setFlag Fld.CVN_RING_CFG_ENABLE k 0 true
    let m := m.setReg .CVN_RING_PTRS k 0 0
    let m := m.setReg .CVN_RING_STATE k 0 0
    let c : Caravan := {
      base := base, sizeLog2 := size, learn := m.flag Fld.CVN_RING_CFG_LEARN_EN k,
      unrewarded := m.flag Fld.CVN_RING_CFG_REWARD_MODE k, write := 0, pins := [], seqs := [], starved := false }
    ({ m with caravans := Map.insert m.caravans k c }).mirrorFill (Fin.ofNat 101 t)

/-- CARAVAN_RING_ENABLE (R214). -/
def execCaravanRingEnable (f : Func) (k : BitVec 10) (s : State) : Host.Outcome State Fault Refusal :=
  s.run fun m => m.guardRing f k.toNat fun m => m.enableCaravan k.toNat

/-- A write of CVN_RING_CONSUME (R217). -/
def Module.consumeTo (m : Module) (k slot : Nat) : Module :=
  let t := m.fld Fld.CVN_RING_CFG_TENANCY k
  match m.caravan k with
  | none => m.raise Kind.CVN_CONFIG t k
  | some c =>
    let rel := m.released' k
    if !m.flag Fld.CVN_RING_CFG_ENABLE k || c.learn || decide (diff32 c.write rel < diff32 slot rel) then
      m.raise Kind.CVN_CONFIG t k
    else
      let gone := fun (q : CSeq) => decide (diff32 q.endSlot rel < diff32 slot rel)
      let moved := slot != rel
      let m := m.setFld Fld.CVN_RING_PTRS_RELEASE k 0 slot
      let m := { m with caravans := Map.insert m.caravans k { c with
        seqs := c.seqs.filter (fun q => !gone q), starved := c.starved && !moved } }
      m.cvnPublish (Fin.ofNat 101 t) k

/-- CARAVAN_RING_CONSUME (R217). -/
def execCaravanRingConsume (f : Func) (k : BitVec 10) (slot : Word) (s : State) : Host.Outcome State Fault Refusal :=
  s.run fun m => m.guardRing f k.toNat fun m => m.consumeTo k.toNat slot.toNat

/-- CARAVAN_STALL_EXPIRE (R218): RELEASE has not advanced for CVN_STALL_LIMIT while something waited for room. -/
def execCaravanStallExpire (k : BitVec 10) (s : State) : Host.Outcome State Fault Refusal :=
  s.run fun m =>
    match m.caravan k.toNat with
    | none => m
    | some c =>
      if m.fld Fld.CVN_STALL_LIMIT_LIMIT = 0 ∨ !c.starved ∨ !m.flag Fld.CVN_RING_CFG_ENABLE k.toNat then m
      else m.raise Kind.CVN_STALL (m.fld Fld.CVN_RING_CFG_TENANCY k.toNat) k.toNat

/-- A reward entry is dropped (R224). -/
def Module.rejectReward (m : Module) (t : Ten) (loc : Nat) : Module :=
  (m.addFld Fld.CVN_TEN_STATUS_REJECTS t.val 0).raise Kind.CVN_REWARD_REJECT t.val loc

/-- A reward for a pending sequence: REWARD and then STATUS are written into its record, and the sequence becomes ready
(R224). -/
def Module.giveReward (m : Module) (t : Ten) (k : Nat) (c : Caravan) (slot : Nat) (reward : List Byte) : Module :=
  let va := c.base + 16 * ((slot + 1) % c.slots)
  match m.writeVA .cvn t.val (va + 8) reward with
  | (.error e, m) => m.cvnFault k e.status
  | (.ok _, m) =>
    match m.writeVA .cvn t.val (va + 15) [1] with
    | (.error e, m) => m.cvnFault k e.status
    | (.ok _, m) => m.setSeq k slot (fun q => { q with status := 1 })

/-- The caravan index of a caravan ring that the tenancy holds, ENABLE of its caravan entry set or not. -/
def Module.heldCaravan (m : Module) (t : Ten) (g : Nat) : Option Nat :=
  let k := m.fld Fld.QUE_RING_INFO_CARAVAN g
  if m.ringEnabled g && m.ringType g == ringType.caravan && m.fld Fld.CVN_RING_CFG_RING k == g
    && m.fld Fld.CVN_RING_CFG_TENANCY k == t.val then some k else none

/-- REWARD_ENTRY (R223, R224). A caravan ring whose ENABLE is clear holds no record that a reward could complete.
[log 185 DEDUCED] -/
def execRewardEntry (ring : BitVec 15) (s : State) : Host.Outcome State Fault Refusal :=
  s.run fun m =>
    let t := m.ringOwner ring.toNat
    match m.takeEntry ringType.reward 0 ring.toNat with
    | (none, m) => m
    | (some (_, b), m) =>
      let g := imgBits b 0 2 0 15
      let slot := fieldAt b 4 4
      match m.heldCaravan t g with
      | none => (m.violation t.val .cvn).raise Kind.CVN_ISOLATION t.val g
      | some k =>
        match (m.caravanOf t g).bind m.caravan with
        | none => m.rejectReward t k
        | some c =>
          match c.seqs.find? (fun q => q.endSlot == slot) with
          | none => m.rejectReward t k
          | some q =>
            if q.waybill ≠ imgBits b 2 2 0 14 ∨ q.status ≠ 0 ∨ imgBits b 0 2 15 1 ≠ 0 ∨ imgBits b 2 2 14 2 ≠ 0
                ∨ fieldAt b 12 4 ≠ 0 then m.rejectReward t k
            else m.giveReward t k c slot ((b.drop 8).take 4)

end Sys2Proof.Machine
end

