-- ==== Sys2Proof/Machine/Fabric.lean ====
section
/-! DEFINITION. Machine/Fabric.lean: instruction-cache fills, tile faults, row repair and the cluster control register
(R28, R29, R46 to R55, R409 to R411). -/

namespace Sys2Proof.Machine

/-! ## Instruction caches (R28, R29) -/

/-- Lines of an instruction cache: 8 KiB of 64 bytes. -/
abbrev icacheLines : Nat := 128

/-- Put a line into an instruction cache; which line a full one drops is a free value. [log 23 DESIGN CHOICE] -/
def Tile.fillLine (x : Tile) (line pick : Nat) : Tile :=
  let kept := x.icache.erase line
  let kept := if icacheLines ≤ kept.length then kept.eraseIdx (pick % kept.length) else kept
  { x with icache := kept ++ [line] }

/-- What the depot's ECC finds in a line (R29): whether it can be delivered. [log 36 DESIGN CHOICE] -/
def Module.depotLine (m : Module) (c line ten : Nat) : Bool × Module :=
  let cl := m.cl c
  let k : Cluster := Fin.ofNat 100 c
  if cl.badLines.contains line then (false, m)
  else
    let m := (m.probe (Kind.FAB_DEPOT_CE k) ten c).probe (Kind.FAB_DEPOT_UE k) ten c
    match Map.get? cl.depotEcc line with
    | none => (true, m)
    | some .corrected =>
      (true, (m.setCl c { cl with depotEcc := Map.erase cl.depotEcc line }).raise (Kind.FAB_DEPOT_CE k) ten c)
    | some .uncorrectable =>
      (false, (m.setCl c { cl with
        depotEcc := Map.erase cl.depotEcc line, badLines := cl.badLines ++ [line] }).raise (Kind.FAB_DEPOT_UE k) ten c)

/-- ICACHE_MISS_FILL (R28, R29): the span asks for the line of its next instruction, or for a line it holds whose parity
failed; the fill is delivered to every tile of the span. -/
def execIcacheMissFill (t : TileId) (line : BitVec 12) (s : State) : Host.Outcome State Fault Refusal :=
  s.run fun m =>
    match m.stageOf t.cl.val with
    | none => m
    | some (n, r, _) =>
      let o := m.tile (m.origin t)
      let held := o.icache.contains line.toNat
      if !m.released t.cl.val || !(held || line.toNat == lineOf o.pc) then m
      else
        let m := m.when held (fun m => m.raise (Kind.FAB_ICACHE_PARITY t.cl) r.ten.val t.cl.val)
        match m.depotLine t.cl.val line.toNat r.ten.val with
        | (true, m) =>
          (m.mapSpan t (fun _ x => x.fillLine line.toNat (Config.freeNat m.freeIx))).drawn
        | (false, m) => m.failRoute n ⟨st.data, 0, 0⟩

/-! ## Tile faults (R409) -/

/-- FAB_SITE_FAULT.KIND. -/
def siteCode : SiteFault → Nat
  | .bayParity => 1 | .arrayCheck => 2 | .coreCheck => 3 | .selftest => 4 | .bypass => 5 | .pfDeclared => 6

/-- The FAB error kind of a site fault, if it has one (R55). -/
def siteKind (c : Cluster) : SiteFault → Option Kind
  | .bayParity => some (Kind.FAB_BAY_PARITY c)
  | .arrayCheck => some (Kind.FAB_ARRAY_CHECK c)
  | .coreCheck => some (Kind.FAB_CORE_CHECK c)
  | .selftest => some (Kind.FAB_SELFTEST c)
  | .bypass => some (Kind.FAB_BYPASS c)
  | .pfDeclared => none

/-- SITE of a signature: die, row and physical column on the die (R420). -/
def siteWord (c : Cluster) (row off : Nat) : Nat :=
  c.val / 25 * 2 ^ 30 + (c.val % 25 / 5 * 16 + row) * 2 ^ 23 + (c.val % 5 * 17 + off) * 2 ^ 16

/-- Record a site fault in FAB_SITE_FAULT. [log 31 DEDUCED] -/
def Module.noteSite (m : Module) (c : Cluster) (row off : Nat) (kind : SiteFault) : Module :=
  m.setReg .FAB_SITE_FAULT c.val 0 (BitVec.ofNat 64 (2 ^ 31 + siteCode kind * 2 ^ 24 + off * 2 ^ 16 + row))

/-- Record a site fault and, where its kind has one, raise its error kind. -/
def Module.recordSite (m : Module) (c : Cluster) (row off : Nat) (kind : SiteFault) : Module :=
  let m := m.noteSite c row off kind
  match siteKind c kind with
  | none => m
  | some k => m.raise k (m.fld Fld.FAB_CL_ASSIGN_TENANCY c.val) c.val (siteWord c row off)

/-- TILE_FAULT (R409 to R411): recorded, and answered by a repair, an epoch, or a retirement. -/
def execTileFault (c : Cluster) (row : Fin 16) (offset : Fin 17) (kind : SiteFault) (s : State) :
    Host.Outcome State Fault Refusal :=
  s.run fun m =>
    (m.recordSite c row.val offset.val kind).siteFault c.val row.val offset.val (kind == .bypass) false

/-! ## The self-test of the tile generators (R286) -/

/-- The physical offset of a logical column of a row (R30). -/
def Module.siteOffset (m : Module) (c r col : Nat) : Nat := if m.shiftAt c r ≤ col then col + 1 else col

/-- Tiles whose generator gave a wrong answer: each is a tile fault at the site it had before any of their repairs. -/
def Module.rngFaults (m : Module) (ts : List TileId) : Module :=
  (ts.map (fun t => (t, m.siteOffset t.cl.val t.row.val t.col.val))).foldl (fun m (x : TileId × Nat) =>
    let c := x.1.cl
    let r := x.1.row.val
    ((m.noteSite c r x.2 .selftest).raise Kind.RNG_SELFTEST (m.fld Fld.FAB_CL_ASSIGN_TENANCY c.val) c.val
      (siteWord c r x.2)).siteFault c.val r x.2 false false) m

/-- The tiles that failed the test while their cluster was inside a step are tile faults at its boundary. -/
def Module.rngBoundary (m : Module) (c : Nat) : Module :=
  ({ m with rngBad := m.rngBad.filter (fun t => t.cl.val != c) } : Module).rngFaults
    (m.rngBad.filter (fun t => t.cl.val == c))

/-! ## The steps of a repair (R48) -/

/-- Move a repair from one phase to the next. -/
def Module.repairStep (m : Module) (c : Nat) (p q : RepairPhase) : Module :=
  match (m.cl c).repair with
  | some r => if r.phase == p then m.setCl c { m.cl c with repair := some { r with phase := q } } else m
  | none => m

/-- REPAIR_SPARE_POWERED (R48): the self-test begins. -/
def execRepairSparePowered (c : Cluster) (s : State) : Host.Outcome State Fault Refusal :=
  s.run fun m => m.repairStep c.val .poweringUp .selfTest

/-- REPAIR_SELFTEST_DONE (R48, R49): the self-test has passed, and the bay shift and the refill start. A spare that is
marked bad by then fails it: SELFTEST is recorded, and the epoch ends DOUBLE_FAULT. -/
def execRepairSelftestDone (c : Cluster) (s : State) : Host.Outcome State Fault Refusal :=
  s.run fun m =>
    match (m.cl c.val).repair with
    | none => m
    | some p =>
      if p.phase != .selfTest then m
      else
        match p.rows.find? (fun x => m.spareBad c.val x.1) with
        | some x => (m.recordSite c x.1 16 .selftest).spareFault c.val x.1
        | none => ((m.probe (Kind.FAB_SELFTEST c) 0 c.val).probe (Kind.FAB_BYPASS c) 0 c.val).repairStep c.val .selfTest .shifting

/-- REPAIR_BAY_SHIFT_DONE (R48): the bays east of the failed column are in their new sites; the logical tiles keep their
contents. -/
def execRepairBayShiftDone (c : Cluster) (s : State) : Host.Outcome State Fault Refusal :=
  s.run fun m => m.repairStep c.val .shifting .refilling

/-- The bay of the failed logical tile is refilled from its backing copies (R48): the save area of its stage's step
boundary (R91); without one its BACKING buffers; else zero. Uncorrectable data there restart the epoch (R410). -/
def Module.refillTile (m : Module) (c row off : Nat) : Module :=
  let k := c * 256 + row * 16 + off
  match m.stageOf c with
  | none => m.setTileAt k .reset
  | some (n, r, sg) =>
    let x := m.tileAt k
    if r.state == .loaded then
      let (bad, m) := m.backTile r (m.cl c).stage k { Tile.reset with core := x.core }
      m.when bad (fun m => m.epochData n)
    else
      let y := (List.range 512).foldl Tile.restoreBlock { x with bay := [] }
      m.setTileAt k { x with bay := zeroScratch sg.prog y.bay }

/-- FAIL_SITE (R54): offsets 17 to 31 and a RETIRED cluster are ignored; on a cluster in REPAIR the declaration waits; a
declaration of a site already bypassed changes nothing. -/
def Module.failSite (m : Module) (c : Cluster) (row : BitVec 4) (offset : BitVec 5) : Module :=
  let state := m.fld Fld.FAB_CL_STATUS_STATE c.val
  let r := row.toNat
  let off := offset.toNat
  if 16 < off ∨ state = 5 then m
  else if state = 3 then m.setCl c.val { m.cl c.val with faults := (m.cl c.val).faults ++ [(r, off)] }
  else if m.shiftAt c.val r = off ∧ off ≠ 16 then m
  else if m.shiftAt c.val r = 16 ∧ off = 16 then m.markSpareBad c.val r
  else (m.recordSite c r off .pfDeclared).siteFault c.val r off false true

/-- After a repair every tile resumes with its state at reset, its bay at boundary contents (R47). -/
def Module.endRepair (m : Module) (c : Nat) (p : Repair) : Module :=
  let m := p.rows.foldl (fun m x => m.refillTile c x.1 x.2) m
  let m := m.mapTiles c (fun x => { x.clear with icache := [], recv := x.recv, sendX := x.sendX, partialX := x.partialX })
  let live : Bool := match m.stageOf c with
    | some (_, r, _) => r.state == .running || r.state == .stopping
    | none => false
  let state := if (m.cl c).move.any (fun mv => !mv.held) then 2 else if live then 1 else 0
  let m := m.setFld Fld.FAB_CL_STATUS_STATE c 0 state
  let cl := m.cl c
  let m := m.setCl c { cl with
    repair := none, nextKind := if cl.committedAny then 2 else 0, toRecord := cl.toRecord ++ p.rows, faults := [] }
  let m := m.countSpares c
  let m := m.releaseEpochs c
  cl.faults.foldl (fun m x => m.failSite (Fin.ofNat 100 c) (BitVec.ofNat 4 x.1) (BitVec.ofNat 5 x.2)) m

/-- REPAIR_REFILL_DONE (R47, R48, R50): the refill ends, the cluster leaves REPAIR, its epoch closes, and what waited for
the repair is applied. -/
def execRepairRefillDone (c : Cluster) (s : State) : Host.Outcome State Fault Refusal :=
  s.run fun m =>
    match (m.cl c.val).repair with
    | none => m
    | some p => if p.phase == .refilling then m.endRepair c.val p else m

/-- REPAIR_RECORD_APPEND (R48, R51): the row maps of the repaired rows go to the configuration EEPROM. [log 33 DESIGN CHOICE] -/
def execRepairRecordAppend (c : Cluster) (s : State) : Host.Outcome State Fault Refusal :=
  s.run fun m =>
    let cl := m.cl c.val
    let m := { m with repairRecords := cl.toRecord.foldl (fun (a : Map Word) (x : Nat × Nat) =>
      Map.insert a (16 * c.val + x.1) (BitVec.ofNat 32 (m.reg .FAB_ROW_MAP c.val x.1).toNat)) m.repairRecords }
    m.setCl c.val { cl with toRecord := [] }

/-! ## FAB_CL_CTL (R53, R54) -/

/-- RETIRE (R50, R54): at the cluster's next step boundary, after any repair. -/
def Module.askRetire (m : Module) (c : Cluster) : Module :=
  let state := m.fld Fld.FAB_CL_STATUS_STATE c.val
  if state = 5 then m
  else if state ≠ 3 ∧ !m.released c.val then m.retireCluster c.val
  else m.setCl c.val { m.cl c.val with retirePending := true }

/-- RETIRE (R50, R54). -/
def execRetire (c : Cluster) (s : State) : Host.Outcome State Fault Refusal :=
  s.run fun m => m.askRetire c

/-- CLEAR_FIELD_REPAIR (R53): the next P reset finds the cluster's field repair records erased. -/
def Module.eraseRepair (m : Module) (c : Cluster) : Module :=
  if m.eraseRecords.contains c.val then m else { m with eraseRecords := m.eraseRecords ++ [c.val] }

/-- CLEAR_FIELD_REPAIR (R53). -/
def execClearFieldRepair (c : Cluster) (s : State) : Host.Outcome State Fault Refusal :=
  s.run fun m => m.eraseRepair c

/-- FAIL_SITE (R54). -/
def execFailSite (c : Cluster) (row : BitVec 4) (offset : BitVec 5) (s : State) : Host.Outcome State Fault Refusal :=
  s.run fun m => m.failSite c row offset

end Sys2Proof.Machine
end

