-- ==== Sys2Proof/Machine/Ferries.lean ====
section
/-! DEFINITION. Machine/Ferries.lean: the commands of the ferry channels and the MEMORY packets (R386 to R395). -/

namespace Sys2Proof.Machine

/-- Fetch the channel's next descriptor: checked before it moves any byte (R388). -/
def Module.nextDescriptor (m : Module) (c : Nat) : Module :=
  match m.takeEntry ringType.ferry 1 (m.chRing c) with
  | (none, m) => m
  | (some (_, b), m) =>
    let m := m.reserve (m.pairOf (m.chRing c)) 1
    let m := m.setFld Fld.DMA_CH_DONE_BYTES c 0 0
    let m := (m.setFerry c { Ferry.idle with entry := some b, paid := true }).setChState c chRunning
    m.driveFerry c false

/-- FERRY_DESCRIPTOR (R386 to R389, R394): the channel takes its ring's next descriptor, or, where it waits for room for the
second completion of a failed one, goes on with that (R393). -/
def execFerryDescriptor (ch : BitVec 9) (s : State) : Host.Outcome State Fault Refusal :=
  s.run fun m =>
    let c := ch.toNat
    if !m.flag Fld.DMA_CH_CFG_VALID c then m
    else if (m.ferry c).entry.isSome then
      if m.chState c == chRunning && !(m.ferry c).paid then m.driveFerry c false else m
    else if m.chState c == chIdle || m.chState c == chRunning then m.nextDescriptor c
    else m

/-- FERRY_DESCRIPTOR_COMPLETE (R390, R391): every byte is visible; the completion is posted, and a DRAIN ends PAUSED. -/
def execFerryDescriptorComplete (ch : BitVec 9) (s : State) : Host.Outcome State Fault Refusal :=
  s.run fun m =>
    let c := ch.toNat
    match (m.ferry c).entry with
    | none => m
    | some b =>
      if m.chState c != chRunning && !(m.chState c == chPausing && (m.ferry c).draining) then m
      else
        let m := m.driveFerry c true
        if m.chState c == chHalted || !(m.ferry c).paid || !m.ferryOver c b then m
        else
          let drain := (m.ferry c).draining
          let m := m.postFerry c b st.ok (fd.len b)
          let m := m.setFerry c .idle
          if drain then (m.setChState c chPaused).checkSuspended (m.chTen c) else m.setChState c chIdle

/-- A write of DMA_CH_CTL: a virtual function reaches only its own tenancy's channels (R397). -/
def Module.guardCh (m : Module) (f : Func) (c : Nat) (act : Module → Module) : Module :=
  if !m.flag Fld.DMA_CH_CFG_VALID c then m else m.guardTen f (m.chTen c) act

/-- An action that the channel's state does not admit (R395). -/
def Module.chRefuse (m : Module) (c : Nat) : Module := m.raise Kind.DMA_CONFIG (m.chTen c).val c

/-- PAUSE (R391). -/
def execPause (f : Func) (ch : BitVec 9) (s : State) : Host.Outcome State Fault Refusal :=
  s.run fun m => m.guardCh f ch.toNat fun m => m.pauseFerry ch.toNat false

/-- DRAIN (R391). -/
def execDrain (f : Func) (ch : BitVec 9) (s : State) : Host.Outcome State Fault Refusal :=
  s.run fun m => m.guardCh f ch.toNat fun m => m.pauseFerry ch.toNat true

/-- The channel goes on at DMA_CH_DONE. -/
def Module.goOn (m : Module) (c : Nat) : Module :=
  let x := m.ferry c
  match x.entry with
  | none => m.setChState c chIdle
  | some _ => ((m.setChState c chRunning).setFerry c { x with next := 0 }).driveFerry c false

/-- DMA_RESUME (R391). -/
def Module.resumeCh (m : Module) (f : Func) (ch : BitVec 9) : Module :=
  m.guardCh f ch.toNat fun m =>
  if m.chState ch.toNat == chPaused then m.goOn ch.toNat else m.chRefuse ch.toNat

/-- DMA_RESUME (R391). -/
def execDmaResume (f : Func) (ch : BitVec 9) (s : State) : Host.Outcome State Fault Refusal :=
  s.run fun m => m.resumeCh f ch

/-- RETRY (R393): the failed descriptor goes on; its second completion needs room again. -/
def Module.retryCh (m : Module) (f : Func) (ch : BitVec 9) : Module :=
  m.guardCh f ch.toNat fun m =>
  if m.chState ch.toNat == chHalted then m.goOn ch.toNat else m.chRefuse ch.toNat

/-- RETRY (R393). -/
def execRetry (f : Func) (ch : BitVec 9) (s : State) : Host.Outcome State Fault Refusal :=
  s.run fun m => m.retryCh f ch

/-- SKIP (R393): the failed descriptor is abandoned. [log 105 DEDUCED] -/
def Module.skipCh (m : Module) (f : Func) (ch : BitVec 9) : Module :=
  m.guardCh f ch.toNat fun m =>
  if m.chState ch.toNat == chHalted then (m.setFerry ch.toNat .idle).setChState ch.toNat chIdle
  else m.chRefuse ch.toNat

/-- SKIP (R393). -/
def execSkip (f : Func) (ch : BitVec 9) (s : State) : Host.Outcome State Fault Refusal :=
  s.run fun m => m.skipCh f ch

/-! ## MEMORY packets (R394) -/

/-- The kind-specific header of a MEMORY packet. -/
def mp (k : Packet) (lo w : Nat) : Nat := bitsAt k.spec.toNat lo w
def mp.op (k : Packet) : Nat := mp k 0 8
def mp.status (k : Packet) : Nat := mp k 8 8
def mp.ch (k : Packet) : Nat := mp k 16 9
def mp.chunk (k : Packet) : Nat := mp k 32 32
def mp.addr (k : Packet) : Nat := mp k 64 48
def mp.hold (k : Packet) : Bool := mp k 127 1 == 1

/-- Answer a MEMORY packet to its sender. [log 104 DEDUCED] -/
def Module.memAnswer (m : Module) (t : Ten) (k : Packet) (op status : Nat) (bs : List Byte) : Module :=
  m.sendLink t.val k.src.toNat 1 (memSpec op status (mp.ch k) (mp.chunk k) (mp.hold k) (mp.addr k)) bs

/-- REMOTE_WRITE (R394): the bytes are written through this tenancy's translation, then acknowledged. -/
def execRemoteWrite (pkt : Packet) (s : State) : Host.Outcome State Fault Refusal :=
  s.run fun m => m.takeIn pkt 1 fun t m =>
    if mp.op pkt != 0 then m
    else
      let r := if mp.hold pkt then m.writeHold t.val (mp.addr pkt) pkt.payload else m.writeVA .dma t.val (mp.addr pkt) pkt.payload
      match r with
      | (.ok _, m) => m.memAnswer t pkt 3 st.ok []
      | (.error e, m) => m.memAnswer t pkt 4 e.status []

/-- REMOTE_READ_REQ (R394): the bytes are read and sent as READ_DATA. -/
def execRemoteReadReq (pkt : Packet) (s : State) : Host.Outcome State Fault Refusal :=
  s.run fun m => m.takeIn pkt 1 fun t m =>
    if mp.op pkt != 1 then m
    else
      let n := min 4096 (fieldAt pkt.payload 0 4)
      match if mp.hold pkt then m.readHold .dma t.val (mp.addr pkt) n else m.readVA .dma t.val (mp.addr pkt) n with
      | (.ok bs, m) => m.memAnswer t pkt 2 0 bs
      | (.error e, m) => m.memAnswer t pkt 4 e.status []

/-- An answer concerns an outstanding chunk of a channel of the tenancy: act on it; a duplicate is discarded. -/
def Module.onChunk (m : Module) (t : Ten) (k : Packet) (f : Nat → List Byte → Module → Module) : Module :=
  let c := mp.ch k
  match (m.ferry c).entry with
  | none => m
  | some b =>
    if m.flag Fld.DMA_CH_CFG_VALID c && m.chTen c == t && (m.ferry c).opened.contains (mp.chunk k) && fd.remote b then
      f c b m
    else m

/-- The channel issues further chunks, or its PAUSE takes effect. -/
def Module.afterChunk (m : Module) (c : Nat) (b : List Byte) : Module := (m.issueChunks c b (fd.chunks b + 16)).checkPaused c

/-- REMOTE_READ_DATA (R394): the data of a chunk are written here. -/
def execRemoteReadData (pkt : Packet) (s : State) : Host.Outcome State Fault Refusal :=
  s.run fun m => m.takeIn pkt 1 fun t m =>
    if mp.op pkt != 2 then m
    else m.onChunk t pkt fun c b m =>
      let (o, n) := fd.chunk b (mp.chunk pkt)
      match m.ferryWrite t.val b o (pkt.payload.take n) with
      | (.ok _, m) => (m.chunkDone c b (mp.chunk pkt)).afterChunk c b
      | (.error e, m) =>
        let x := m.ferry c
        let m := m.setFerry c { x with opened := x.opened.filter (· != mp.chunk pkt) }
        m.haltFerry c e.status (ferryKind (fd.dstHold b) e) true false (fd.dst b + o)

/-- REMOTE_ACK (R394): a chunk is visible at the remote end. -/
def execRemoteAck (pkt : Packet) (s : State) : Host.Outcome State Fault Refusal :=
  s.run fun m => m.takeIn pkt 1 fun t m =>
    if mp.op pkt != 3 then m
    else m.onChunk t pkt fun c b m =>
      if fd.remoteSrc b then m else (m.chunkDone c b (mp.chunk pkt)).afterChunk c b

/-- REMOTE_NAK (R393, R394): the remote failure halts the channel with the remote address. The packet carries no KIND: but for
BUS it is a free value. -/
def execRemoteNak (pkt : Packet) (s : State) : Host.Outcome State Fault Refusal :=
  s.run fun m => m.takeIn pkt 1 fun t m =>
    if mp.op pkt != 4 then m
    else m.onChunk t pkt fun c b m =>
      let x := m.ferry c
      let m := m.setFerry c { x with opened := x.opened.filter (· != mp.chunk pkt) }
      let kind := if mp.status pkt = st.busError then 7 else 1 + Config.freeNat m.freeIx % 9
      m.drawn.haltFerry c (mp.status pkt) kind (fd.remoteDst b) true (mp.addr pkt)

/-- DMA_TIMEOUT_EXPIRE (R395): a remote chunk has waited past DMA_TIMEOUT: the channel halts with BUS_ERROR. -/
def execDmaTimeoutExpire (ch : BitVec 9) (s : State) : Host.Outcome State Fault Refusal :=
  s.run fun m =>
    let c := ch.toNat
    match (m.ferry c).entry, (m.ferry c).opened with
    | some b, k :: _ =>
      if m.fld Fld.DMA_TIMEOUT_US = 0 || m.chState c == chHalted then m
      else
        let o := (fd.chunk b k).1
        let m := (m.setFerry c { m.ferry c with opened := [] }).raise Kind.DMA_REMOTE_TIMEOUT (m.chTen c).val c
        m.haltFerry c st.busError 7 (fd.remoteDst b) true (if fd.remoteSrc b then fd.src b + o else fd.dst b + o)
    | _, _ => m

end Sys2Proof.Machine
end

