-- ==== Sys2Proof/Machine/Random.lean ====
section
/-! DEFINITION. Machine/Random.lean: the entropy source, the self-test of the tile generators, and the reference core
(R277, R285, R286). -/

namespace Sys2Proof.Machine

/-- ENTROPY_TEST_FAIL (R285): while the test fails no key is issued, so migrations and creations wait. -/
def execEntropyTestFail (s : State) : Host.Outcome State Fault Refusal :=
  s.run fun m =>
    let m := { m with board := { m.board with entropyBad := true } }
    ((m.setFlag Fld.RNG_ENTROPY_STATUS_HEALTHY 0 0 false).addFld Fld.RNG_ENTROPY_STATUS_FAILS 0 0).raise
      Kind.RNG_ENTROPY 0 0

/-- The tile generators of a cluster can be tested: it is idle or at a step boundary (R286). -/
def Module.testable (m : Module) (c : Nat) : Bool := !m.released c

/-- RNG_SELFTEST_PERIOD (R286): the known-answer test of the generators, of which those of the tiles in `bad` answer wrongly.
Each is a tile fault, answered as R409 states, at once where its cluster is at a boundary or idle, else at its next boundary.
[log 100 DEDUCED] -/
def execRngSelftestPeriod (bad : List TileId) (s : State) : Host.Outcome State Fault Refusal :=
  s.run fun m =>
    if !m.flag Fld.RNG_CTL_SELFTEST_EN then m
    else
      let m := m.probe Kind.RNG_SELFTEST 0 0
      let all := m.rngBad ++ bad.filter (fun t => !m.rngBad.contains t)
      ({ m with rngBad := all.filter (fun t => !m.testable t.cl.val) } : Module).rngFaults
        (all.filter (fun t => m.testable t.cl.val))

/-- KAT_GO (R277, RNG_KAT_CTL): GO clears DONE and starts the reference core on the key and the counter. -/
def Module.katGo (m : Module) (value : Word) : Module :=
  if value.getLsbD 31 then
    { m.setFlag Fld.RNG_KAT_CTL_DONE 0 0 false with
      kat := some (m.reg .RNG_KAT_KEY, m.reg .RNG_KAT_CTR 0, m.reg .RNG_KAT_CTR 1) }
  else m

/-- KAT_GO (R277, RNG_KAT_CTL). -/
def execKatGo (value : Word) (s : State) : Host.Outcome State Fault Refusal :=
  s.run fun m => m.katGo value

/-- KAT_DONE (R277): the four output words, and DONE. -/
def execKatDone (s : State) : Host.Outcome State Fault Refusal :=
  s.run fun m =>
    match m.kat with
    | none => m
    | some (key, lo, hi) =>
      let w := fun (v : Word64) (i : Nat) => v.extractLsb' (32 * i) 32
      let (o0, o1, o2, o3) := philox (w key 0) (w key 1) (w lo 0) (w lo 1) (w hi 0) (w hi 1)
      let m := m.setReg .RNG_KAT_OUT 0 0 (o1 ++ o0)
      let m := m.setReg .RNG_KAT_OUT 1 0 (o3 ++ o2)
      ({ m with kat := none } : Module).setFlag Fld.RNG_KAT_CTL_DONE 0 0 true

end Sys2Proof.Machine
end

