-- ==== Sys2Proof/Machine/Integrity.lean ====
section
/-! DEFINITION. Machine/Integrity.lean: the commands on the error groups, the alive pin, the complement scrub, twin execution's
register, the signature buffer and pattern packs (R401 to R421). -/

namespace Sys2Proof.Machine

/-! ## The error groups (R403, R405, R407, R415) -/

/-- ERR_CLASS_WINDOW_EXPIRE (R403): the window of a kind closes. -/
def execErrClassWindowExpire (b : Block) (kind : Fin 32) (s : State) : Host.Outcome State Fault Refusal :=
  s.run fun m => { m with errWin := Map.erase m.errWin (winKey b.group kind.val) }

/-- Kinds that a write of ERR_SEVERE cannot clear: TRIP, while the trip is in force (R459). [log 137 DEDUCED] -/
def Module.stuckSevere (m : Module) (b : Block) : Nat :=
  if b == Block.pwr && m.board.tripped then 2 ^ Kind.PWR_TRIP.bit else 0

/-- Clear severe bits and close their windows (R403). -/
def Module.clearSevere (m : Module) (b : Block) (v : Nat) : Module :=
  let g := b.group
  let gone := (m.reg .ERR_SEVERE g).toNat &&& v &&& (2 ^ 32 - 1 - m.stuckSevere b)
  let m := m.setReg .ERR_SEVERE g 0 (BitVec.ofNat 64 ((m.reg .ERR_SEVERE g).toNat &&& (2 ^ 32 - 1 - gone)))
  { m with errWin := m.errWin.filter (fun p => !(p.1 / 32 == g && bitsAt gone (p.1 % 32) 1 == 1)) }

/-- ERR_SEVERE_CLEAR (R403). -/
def execErrSevereClear (b : Block) (value : Word) (s : State) : Host.Outcome State Fault Refusal :=
  s.run fun m => m.clearSevere b value.toNat

/-- ERR_CLEAR (R405): FIRST unfreezes the first-error record, COUNT zeroes COUNT and OVERFLOW. -/
def Module.clearErrors (m : Module) (b : Block) (value : Word) : Module :=
  let g := b.group
  let m := if value.getLsbD 0 then m.setFlag Fld.ERR_FIRST_INFO0_VALID g 0 false else m
  if value.getLsbD 1 then (m.setFld Fld.ERR_COUNT_COUNT g 0 0).setFlag Fld.ERR_COUNT_OVERFLOW g 0 false else m

/-- ERR_CLEAR (R405). -/
def execErrClear (b : Block) (value : Word) (s : State) : Host.Outcome State Fault Refusal :=
  s.run fun m => m.clearErrors b value

/-- ERR_INJECT_INV (R415): the next check of each set kind is armed. -/
def execErrInjectInv (b : Block) (value : Word) (s : State) : Host.Outcome State Fault Refusal :=
  s.run fun m => m.setReg .ERR_INJECT_INV b.group 0 (value.setWidth 64)

/-- ERR_ALIVE_STOP (R407, R408). -/
def execErrAliveStop (b : Block) (value : Word) (s : State) : Host.Outcome State Fault Refusal :=
  s.run fun m => m.setReg .ERR_ALIVE_STOP b.group 0 (value.setWidth 64)

/-- FORCE_STOP (R407). -/
def execForceStop (value : Bool) (s : State) : Host.Outcome State Fault Refusal :=
  s.run fun m => m.setFlag Fld.ALV_CTL_FORCE_STOP 0 0 value

/-! ## The complement scrub (R401) -/

/-- A PW register of a tenancy. -/
def Module.scrubReg (m : Module) (r : RegId) (k : Kind) (t : Nat) : Module :=
  if pairOk (m.reg r t) then m.probe k t t else m.raise k t t

/-- The Hold map and the extents. -/
def Module.scrubHold (m : Module) : Module :=
  let m := m.probe Kind.HLD_PAIR 0 0
  let m := (m.holdMap.filter (fun p => p.2 != tagWord p.2.toNat)).foldl (fun m p => m.raise Kind.HLD_PAIR 0 p.1) m
  (List.range 101).foldl (fun m t => (List.range 9).foldl (fun m x =>
    if pairOk (m.reg .HLD_TEN_EXT t x) && pairOk (m.reg .HLD_TEN_EXT_RUN t x) then m else m.raise Kind.HLD_PAIR t x) m) m

/-- The waybill critical words: a disagreement ends the waybill (R189). -/
def Module.scrubWaybills (m : Module) : Module :=
  (m.waybills.filter (fun p => p.2.live)).foldl (fun m p => (m.checkPairs p.1 p.2).2) m

/-- COMPLEMENT_SCRUB (R401): every PW register and every complement-carrying table on the module is checked. -/
def execComplementScrub (s : State) : Host.Outcome State Fault Refusal :=
  s.run fun m =>
    if !m.flag Fld.INT_CTL_SCRUB_EN then m
    else
      let m := (List.range 100).foldl (fun m c => m.checkAssign c) m
      let m := m.scrubHold
      let m := (List.finRange 101).foldl (fun m t =>
        if t = house then m
        else ((m.useEntry t).2.scrubReg .VIA_JOB Kind.VIA_PAIR t.val).scrubReg .XLT_TEN_ROOT Kind.XLT_PAIR t.val) m
      m.scrubWaybills

/-! ## Twin execution (R412) -/

/-- INT_TWIN_WRITE (R412): ignored with CONFIG while the tenancy has a loaded route. [log 142 DEDUCED] -/
def Module.writeTwin (m : Module) (ten : Ten) (value : Word) : Module :=
  if ten = house then m
  else if (m.routesOf ten).isEmpty then m.setFlag Fld.INT_TWIN_EN ten.val 0 (value.getLsbD 0)
  else m.raise Kind.INT_CONFIG ten.val ten.val

/-- INT_TWIN_WRITE (R412). -/
def execIntTwinWrite (ten : Ten) (value : Word) (s : State) : Host.Outcome State Fault Refusal :=
  s.run fun m => m.writeTwin ten value

/-! ## The signature buffer (R421) -/

/-- Latch the signature that INDEX selects into INT_SIG_DATA; where it holds none, the data stay. -/
def Module.latchSig (m : Module) : Module :=
  match m.sigs[m.fld Fld.INT_SIG_SEL_INDEX]? with
  | none => m
  | some b => (List.range 16).foldl (fun m i => m.setReg .INT_SIG_DATA i 0 (BitVec.ofNat 64 (fieldAt b (8 * i) 8))) m

/-- A write of INT_SIG_SEL: POP removes the oldest signature, then the selected one is latched. [log 139 DEDUCED] -/
def Module.writeSigSel (m : Module) (v : Nat) : Module :=
  let m := m.setFld Fld.INT_SIG_SEL_INDEX 0 0 (v % 64)
  let m := if bitsAt v 31 1 = 1 then
      ({ m with sigs := m.sigs.tail } : Module).setFld Fld.INT_SIG_COUNT_HELD 0 0 m.sigs.tail.length
    else m
  m.latchSig

/-- SIG_POP (R421). -/
def execSigPop (value : Word) (s : State) : Host.Outcome State Fault Refusal :=
  s.run fun m => m.writeSigSel value.toNat

end Sys2Proof.Machine
end

