-- ==== Sys2Proof/Machine/TileCommit.lean ====
section
/-! DEFINITION. Machine/TileCommit.lean: the cluster commit, the release into the next step and the kill of a step
(R87 to R93, R149, R175, R412 to R414, R500). -/

namespace Sys2Proof.Machine

/-- The twin's digest of the step disagrees with the primary's (R414): the step is killed, MISMATCHES rises and
TWIN_MISMATCH is raised; at a second disagreement of the same step the route's command ends with DATA_ERROR. -/
def Module.twinMismatch (m : Module) (c n : Nat) (ten : Ten) : Module :=
  let again := (m.cl c).mismatched
  let m := (m.addFld Fld.INT_TWIN_MISMATCHES ten.val 0).raise Kind.INT_TWIN_MISMATCH ten.val c
  if again then m.stopKill n st.data
  else
    let m := m.killRoute n
    m.setCl c { m.cl c with mismatched := true }

/-- The cluster is not released from the boundary that it comes to: a move, a stop, a suspension or a retirement drains it. -/
def Module.draining (m : Module) (c : Nat) (r : Route) : Bool :=
  m.fld Fld.FAB_CL_STATUS_STATE c == 2 || r.state == .stopping || !m.takes r.ten || (m.cl c).retirePending

/-- A packet in flight to a cluster may arrive now. -/
def Module.deckFor (m : Module) (c : Nat) : Bool :=
  (List.range m.deck.length).any (fun n => m.deck[n]?.any (fun k => k.dst.cl.val == c && m.mayArrive n k))

/-- A removal that waited for a swap front goes on once the front has passed (R152). -/
def Module.unhold (m : Module) (c : Nat) : Module :=
  match (m.cl c).move, (m.cl c).route with
  | some mv, some n =>
    if mv.held && !m.frontInside n (m.cl c).stage then
      (m.setCl c { m.cl c with move := some { mv with held := false } }).setClState c 2
    else m
  | _, _ => m

/-- CLUSTER_COMMIT (R90, R413, R414, R500): every tile of the cluster and of its twin has arrived. A drain first delivers what is
in flight to the cluster (R45); the digests of a twin pair are compared before anything is published. Faults that waited for
the boundary then take effect. -/
def execClusterCommit (c : Cluster) (s : State) : Host.Outcome State Fault Refusal :=
  s.run fun m =>
    match m.stageOf c.val with
    | none => m
    | some (n, r, _) =>
      if (m.cl c.val).twinOf.isSome || !m.stepDone c.val then m
      else
        let m := m.unhold c.val
        if m.draining c.val r && m.deckFor c.val then m
        else if !m.digestsAgree c.val then m.twinMismatch c.val n r.ten
        else
          let m := (m.commitBoundary c.val).rngBoundary c.val
          if (m.cl c.val).retirePending then m.retireCluster c.val else m

/-- Nothing holds the cluster at its boundary (R90, R152, R361, R409). -/
def Module.mayRelease (m : Module) (c : Nat) : Bool :=
  match m.stageOf c with
  | none => false
  | some (n, r, _) =>
    let cl := m.cl c
    !m.released c && r.state == .running && m.takes r.ten && cl.twinOf.isNone && cl.move.all (fun mv => mv.held)
      && cl.repair.isNone && !cl.retirePending && m.fld Fld.FAB_CL_STATUS_STATE c == 1 && (m.epochOf n).isNone
      && !m.stageHeld n cl.stage cl.step

/-- Shares of `n` items for a list of LOGICAL numbers in ascending order: contiguous, sizes differing by at most one, the
larger first (R149). -/
def divideItems (n : Nat) (ls : List Nat) : List (Nat × Nat × Nat) :=
  let q := n / ls.length
  let e := n % ls.length
  (List.range ls.length).map (fun i => (ls[i]?.getD 0, q * i + min i e, q + (if i < e then 1 else 0)))

/-- A cluster runs a step of its stage: it has joined by then and, where it is to leave, has committed the step or is in it. -/
def Module.runs (m : Module) (c : Nat) (step : Word64) : Bool :=
  let cl := m.cl c
  let leaves := cl.retirePending || cl.move.any (fun mv => !mv.reassigned && !mv.held)
  decide (cl.joined ≤ step) && (!leaves || decide (step < cl.step) || (m.released c && cl.step == step))

/-- LOGICAL numbers of the clusters that run a step of a stage, ascending. -/
def Module.runners (m : Module) (n i : Nat) (step : Word64) : List Nat :=
  (List.range 101).filter (fun l => (m.stageClusters n i).any (fun c =>
    m.fld Fld.FAB_CL_ASSIGN_LOGICAL c == l && m.runs c step))

/-- The division of a step, made when its first cluster is released and kept until every cluster has committed it. [log 40 DEDUCED] -/
def Module.divisionOf (m : Module) (n i : Nat) (r : Route) (sg : Stage) (step : Word64) : Division × Module :=
  match r.divisions.find? (fun d => d.stage == i && d.step == step) with
  | some d => (d, m)
  | none =>
    let d : Division := ⟨i, step, divideItems (m.stageItems n i step sg.items) (m.runners n i step), []⟩
    let live := fun (d : Division) => d.stage != i || (m.stageClusters n i).any (fun c => decide ((m.cl c).step ≤ d.step))
    (d, m.setRoute n (fun r => { r with divisions := r.divisions.filter live ++ [d] }))

/-- The share of a LOGICAL number: its first item and how many. -/
def Division.share (d : Division) (logical : Nat) : Nat × Nat :=
  ((d.shares.find? (fun x => x.1 == logical)).map (·.2)).getD (0, 0)

/-- Release a cluster into its next step (R90): scratch zeroed, every tile at STEP_ENTRY or ENTRY, the items shared out
(R149), and at the step behind a swap front the marker latched (R175). -/
def Module.releaseCluster (m : Module) (c : Nat) : Module :=
  match m.stageOf c with
  | none => m
  | some (n, r, sg) =>
    let cl := m.cl c
    let latch := fun (x : Tile) => match m.releaseMarker n cl.stage cl.step with
      | none => x
      | some mr => { x with marker := some mr }
    let go := fun (m : Module) (d : Nat) => m.mapTiles d (fun x => latch (x.release sg.prog cl.nextKind))
    let m := go m c
    let m := match m.twinOf c with
      | some d => go m d
      | none => m
    let m := m.setFlag Fld.FAB_CL_STATUS_AT_BOUNDARY c 0 false
    let (d, m) := m.divisionOf n cl.stage r sg cl.step
    let share := if scheduledStage r sg then (0, 0) else d.share (m.fld Fld.FAB_CL_ASSIGN_LOGICAL c)
    let m := m.setRoute n (fun r => { r with
      entered := Map.insert r.entered cl.stage (match Map.get? r.entered cl.stage with
        | some e => if e ≤ cl.step then cl.step else e
        | none => cl.step) })
    (m.setCl c { cl with nextItem := share.1, itemsLeft := share.2, pass := 0, ended := [], sched := [] }).mirrorTwin c

/-- CLUSTER_RELEASE (R90, R79, R149, R175): faults, retirements and removals that waited for the boundary come first. -/
def execClusterRelease (c : Cluster) (s : State) : Host.Outcome State Fault Refusal :=
  s.run fun m =>
    let m := if m.released c.val then m else (m.rngBoundary c.val).unhold c.val
    if (m.cl c.val).retirePending && !m.released c.val && m.fld Fld.FAB_CL_STATUS_STATE c.val != 3 then
      m.retireCluster c.val
    else if m.mayRelease c.val then
      match m.useEntry (Fin.ofNat 101 (m.fld Fld.FAB_CL_ASSIGN_TENANCY c.val)) with
      | (true, m) => m.releaseCluster c.val
      | (false, m) => m
    else m

/-- STEP_KILL (R92): the uncommitted steps of a route on this module are killed. -/
def execStepKill (route : Fin 256) (s : State) : Host.Outcome State Fault Refusal :=
  s.run fun m => m.killRoute route.val

end Sys2Proof.Machine
end

