-- ==== Sys2Proof/Machine/Waymaster.lean ====
section
/-! DEFINITION. Machine/Waymaster.lean: allocation, moves of clusters, balance and item dispensing (R144 to R153). -/

namespace Sys2Proof.Machine

/-! ## Allocation (R144, R145) -/

/-- The work of a stage: its measured cost, else its cost hint. -/
def Stage.work (sg : Stage) : Nat := sg.measured.getD sg.costHint

/-- `a/b > c/d` for positive denominators. -/
def ratioGt (a b c d : Nat) : Bool := decide (c * b < a * d)

/-- The stage that takes the next cluster: below its maximum, with the largest work per cluster, ties to the lower number
(R144). -/
def pickStage (ws : List Nat) (maxs al : List Nat) : Option Nat :=
  (List.range ws.length).foldl (fun best i =>
    if al.getD i 0 < maxs.getD i 0 then
      match best with
      | none => some i
      | some b => if ratioGt (ws.getD i 0) (al.getD i 1) (ws.getD b 0) (al.getD b 1) then some i else some b
    else best) none

/-- The loop of R144. -/
def allocRest (ws maxs : List Nat) : Nat → List Nat → List Nat
  | 0, al => al
  | k + 1, al =>
    match pickStage ws maxs al with
    | none => al
    | some i => allocRest ws maxs k (al.modify i (· + 1))

/-- Clusters for each stage (R144). -/
def allocate (c : Nat) (sgs : List Stage) : List Nat :=
  let mins := sgs.map (·.minCl)
  allocRest (sgs.map Stage.work) (sgs.map (·.maxCl)) (c - mins.sum) mins

/-- The largest work per cluster of an allocation, as a fraction. -/
def worstLoad (ws al : List Nat) : Nat × Nat :=
  (List.range ws.length).foldl (fun a i =>
    if ratioGt (ws.getD i 0) (al.getD i 1) a.1 a.2 then (ws.getD i 0, al.getD i 1) else a) (0, 1)

/-- The new allocation lowers the worst load by at least `gain` permille (R145). -/
def gains (gain : Nat) (old new : Nat × Nat) : Bool :=
  decide (new.1 * old.2 * 1000 ≤ old.1 * new.2 * (1000 - gain)) && ratioGt old.1 old.2 new.1 new.2

/-- The cluster of a stage with the highest LOGICAL number. -/
def Module.lastCluster (m : Module) (n i : Nat) : Option Nat :=
  (m.stageClusters n i).foldl (fun a c =>
    match a with
    | none => some c
    | some b => if m.fld Fld.FAB_CL_ASSIGN_LOGICAL b < m.fld Fld.FAB_CL_ASSIGN_LOGICAL c then some c else some b) none

/-- The tenancy has a move in progress. -/
def Module.moving (m : Module) (t : Ten) : Bool :=
  (List.range 100).any (fun c =>
    match (m.cl c).move with
    | some mv => mv.ten == t
    | none => false)

/-! ## Starting a move (R147, R151, R152) -/

/-- The clusters of a stage that stay in it: those that neither leave nor are about to retire. -/
def Module.staying (m : Module) (n i : Nat) : List Nat :=
  (m.stageClusters n i).filter (fun c => !(m.cl c).retirePending && (m.cl c).move.all (fun mv => mv.reassigned || mv.target.isSome))

/-- A cluster may leave its stage: the stage gives clusters up (R147), and more than its minimum stay (R152). -/
def Module.mayLeave (m : Module) (c : Nat) : Bool :=
  match m.stageOf c with
  | none => true
  | some (n, _, sg) => sg.items != 0 && decide (sg.minCl < (m.staying n (m.cl c).stage).length)

/-- A stage may take one more cluster. -/
def Module.mayTake (m : Module) (n i : Nat) : Bool :=
  match m.route n with
  | none => false
  | some r =>
    match r.stages[i]? with
    | none => false
    | some sg => sg.items != 0 && decide ((m.stageClusters n i).length < sg.maxCl)

/-- A swap front has entered the pipeline of the cluster's route and has not passed its stage (R152). -/
def Module.behindFront (m : Module) (c : Nat) : Bool := (m.cl c).route.any (fun n => m.frontInside n (m.cl c).stage)

/-- Decide a move: the cluster becomes DRAINING and commits its current step (R151). In REPAIR the move waits; behind a swap
front the removal waits, and the cluster goes on (R152). -/
def Module.startMove (m : Module) (c : Nat) (mv : Move) : Module :=
  let front := m.behindFront c
  let m := m.setCl c { m.cl c with move := some { mv with held := front } }
  if front then m.restState c else m.setClState c 2

/-- Relocate a cluster to an idle cluster of the tenancy, which is reserved and takes over its LOGICAL number, to keep the
tenancy contiguous (R147, R151). -/
def Module.relocate (m : Module) (c : Nat) (t : Ten) (n i : Nat) : Module :=
  match m.siteFor t n i (m.idlePool t) with
  | none => m
  | some d => m.startMove c ⟨t, some (n, i), some d, some (m.fld Fld.FAB_CL_ASSIGN_LOGICAL c), [], false, false⟩

/-! ## Allocation by moves (R145) -/

/-- The stages that a new allocation takes a cluster from and gives one to, among those whose number may change. -/
def moveBetween (sgs : List Stage) (cur new : List Nat) : Option (Nat × Nat) :=
  let free := (List.range sgs.length).filter (fun i => ((sgs[i]?).map (fun sg => sg.items != 0)).getD false)
  match free.find? (fun i => decide (new.getD i 0 < cur.getD i 0)),
        free.find? (fun i => decide (cur.getD i 0 < new.getD i 0)) with
  | some a, some b => some (a, b)
  | _, _ => none

/-- How many clusters each stage of a route has. -/
def Module.stageCounts (m : Module) (n : Nat) (r : Route) : List Nat :=
  (List.range r.stages.length).map (fun i => (m.stageClusters n i).length)

/-- Make the next change of the allocation that a route is moving to, one cluster at a time; with none left it is reached. -/
def Module.nextChange (m : Module) (n : Nat) : Module :=
  match m.route n with
  | none => m
  | some r =>
    match r.alloc with
    | none => m
    | some new =>
      if m.moving r.ten then m
      else
        match moveBetween r.stages (m.stageCounts n r) new with
        | none => m.setRoute n (fun r => { r with alloc := none })
        | some (a, b) =>
          match m.lastCluster n a with
          | none => m
          | some c => if m.mayLeave c then m.startMove c ⟨r.ten, some (n, b), none, none, [], false, false⟩ else m

/-- CLUSTER_MOVE_START (R145, R147, R151, R152): the cluster is to join the named stage, where the allocation that the route is
moving to asks for it. A cluster of that very stage is relocated, for contiguity. [log 41 DEDUCED] -/
def execClusterMoveStart (c : Cluster) (route : Fin 256) (stage : Fin 64) (s : State) :
    Host.Outcome State Fault Refusal :=
  s.run fun m =>
    match m.route route.val with
    | none => m
    | some r =>
      let m := m.checkAssign c.val
      let cl := m.cl c.val
      let mine := m.flag Fld.FAB_CL_ASSIGN_VALID c.val && m.fld Fld.FAB_CL_ASSIGN_TENANCY c.val == r.ten.val
      if !mine || cl.route != some route.val || cl.move.isSome || cl.twinOf.isSome || m.fld Fld.FAB_CL_STATUS_STATE c.val == 5
          || decide (r.stages.length ≤ stage.val) then m
      else if cl.stage == stage.val then
        if m.flag Fld.PLC_CTL_DEFRAG_EN && m.flag Fld.PLC_TEN_CTL_DEFRAG_OK r.ten.val then
          m.relocate c.val r.ten route.val stage.val
        else m
      else if (r.alloc.bind (fun new => moveBetween r.stages (m.stageCounts route.val r) new)) == some (cl.stage, stage.val)
          && !m.moving r.ten && m.mayLeave c.val && m.mayTake route.val stage.val then
        m.startMove c.val ⟨r.ten, some (route.val, stage.val), none, none, [], false, false⟩
      else m

/-! ## Carrying out a move (R151) -/

/-- The cluster joins the stage of its move and waits for the refill. One that takes over a LOGICAL number has what waits for that
number's tiles; what a cluster has sent it goes on sending (R45). -/
def Module.rejoin (m : Module) (c : Nat) (mv : Move) (n i : Nat) : Module :=
  let logical := mv.logical.getD (m.freeLogical mv.ten c)
  let twin := (m.cl c).twinOf
  let old := fun k => m.tileAt (c * 256 + k)
  let m := m.joinStage c n i logical twin (some mv.save)
  let m := (List.range 256).foldl (fun m k =>
    let x := old k
    m.setTileAt (c * 256 + k) { m.tileAt (c * 256 + k) with
      sendX := x.sendX
      recv := if mv.logical.isSome then x.recv else []
      partialX := if mv.logical.isSome then x.partialX else [] }) m
  let m := m.setClState c 2
  let m := m.setCl c { m.cl c with move := some { mv with target := none, save := [], reassigned := true } }
  m.placeHolds n

/-- A move that may no longer be made: it would leave its stage short, the stage that it goes to is full, or its target has gone
(R15, R151, R152). One that replaces a cluster is always made. -/
def Module.moveStale (m : Module) (c : Nat) (mv : Move) : Bool :=
  let short := match m.stageOf c with
    | some (n, _, sg) => mv.target.isNone && decide ((m.staying n (m.cl c).stage).length < sg.minCl)
    | none => false
  let full := match mv.dest with
    | some (n, i) => mv.logical.isNone && !m.mayTake n i
    | none => false
  let gone := mv.target.any (fun d => !((m.assigned mv.ten).contains d && (m.cl d).route.isNone && (m.cl d).move.isNone
    && m.fld Fld.FAB_CL_STATUS_STATE d == 0))
  short || full || gone

/-- Cancel a move that has not been carried out: the cluster stays where it is. -/
def Module.cancelMove (m : Module) (c : Nat) : Module := (m.setCl c { m.cl c with move := none }).restState c

/-- CLUSTER_MOVE_REASSIGN (R147, R151, R152): at the boundary the assignment is rewritten with its complement, the depot
written, the bays formed; the step of the source stage goes on without it. A relocation gives its LOGICAL number to the
target, with what waits for its tiles, and leaves the cluster idle. -/
def execClusterMoveReassign (c : Cluster) (s : State) : Host.Outcome State Fault Refusal :=
  s.run fun m =>
    match (m.cl c.val).move with
    | none => m
    | some mv =>
      if mv.reassigned || mv.held || m.released c.val || m.fld Fld.FAB_CL_STATUS_STATE c.val != 2 then m
      else if m.behindFront c.val then (m.setCl c.val { m.cl c.val with move := some { mv with held := true } }).restState c.val
      else if m.moveStale c.val mv then m.cancelMove c.val
      else
        let m := m.checkAssign c.val
        if (m.cl c.val).move != some mv then m
        else
          let from' := (m.cl c.val).route
          let old := m.tileAt
          let m := m.orphanShares c.val
          let m := match mv.dest, mv.target with
            | none, _ => m.idleCluster c.val
            | some (n, i), none => m.rejoin c.val mv n i
            | some (n, i), some d =>
              let save := m.saveOf c.val
              ((m.idleCluster c.val).retarget c.val d (fun k => old (c.val * 256 + k))).rejoin d { mv with save := save } n i
          let m := match from' with
            | some n => m.changedRoute n
            | none => m
          let m := match mv.dest with
            | some (n, _) => m.changedRoute n
            | none => m
          m.mirrorTen mv.ten

/-- CLUSTER_MOVE_COMPLETE (R47, R145, R151): the refill has ended; the cluster becomes ACTIVE, or IDLE where its route does not
run, and PLC_MOVES counts the move. The next change of an allocation follows. -/
def execClusterMoveComplete (c : Cluster) (s : State) : Host.Outcome State Fault Refusal :=
  s.run fun m =>
    match (m.cl c.val).move with
    | none => m
    | some mv =>
      if !mv.reassigned then m
      else
        let m := ((m.setCl c.val { m.cl c.val with move := none }).restState c.val).addFld Fld.PLC_MOVES_COUNT 0 0
        (m.routesOf mv.ten).foldl (fun m n => m.nextChange n) m

/-! ## Re-measurement (R145) -/

/-- The cost of a stage over the last `steps` steps that all its clusters have committed: the mean of the busy tile-cycles per
step over 256; none before there are so many. -/
def Module.measure (m : Module) (n i steps : Nat) (sg : Stage) : Option Nat :=
  let done := sg.busyLog.filter (fun p => decide (p.1 < m.lowestStep n i))
  if steps = 0 ∨ done.length < steps then none
  else some (((done.drop (done.length - steps)).map (·.2)).sum / steps / 256)

/-- PLC_REMEASURE (R144, R145): after PLC_MEASURE committed steps the stage's cost is measured; the allocation that follows is
applied, one cluster move at a time, where the worst load falls enough. [log 39 DEDUCED] -/
def execPlcRemeasure (route : Fin 256) (stage : Fin 64) (s : State) : Host.Outcome State Fault Refusal :=
  s.run fun m =>
    match (m.route route.val).bind (fun r => r.stages[stage.val]?) with
    | none => m
    | some sg =>
      match m.measure route.val stage.val (m.fld Fld.PLC_MEASURE_STEPS) sg with
      | none => m
      | some cost =>
        let m := m.setStage route.val stage.val (fun sg => { sg with measured := some cost })
        match m.route route.val with
        | none => m
        | some r =>
          let ws := r.stages.map Stage.work
          let new := allocate (m.clustersOf route.val).length r.stages
          if !gains (m.fld Fld.PLC_REBAL_GAIN_GAIN) (worstLoad ws (m.stageCounts route.val r)) (worstLoad ws new) then m
          else (m.setRoute route.val (fun r => { r with alloc := some new })).nextChange route.val

/-! ## Generate–learn balance (R153) -/

/-- The stage of a route to give a cluster to, or to take one from: ITEMS not zero, room, and the largest or smallest cost
per cluster. Where the manual is silent, of stages of equal cost the lower number is taken, and the cost hint stands in for a
stage that has not been measured. [log 175 DESIGN CHOICE] -/
def Module.balanceStage (m : Module) (n : Nat) (receive : Bool) : Option Nat :=
  match m.route n with
  | none => none
  | some r =>
    let num := fun i => (m.stageClusters n i).length
    let ok := fun i => match r.stages[i]? with
      | none => false
      | some sg => sg.items != 0 && (if receive then decide (num i < sg.maxCl) else decide (sg.minCl < num i))
    let w := fun i => ((r.stages[i]?).map Stage.work).getD 0
    ((List.range r.stages.length).filter ok).foldl (fun best i =>
      match best with
      | none => some i
      | some b =>
        let better := if receive then ratioGt (w i) (num i) (w b) (num b) else ratioGt (w b) (num b) (w i) (num i)
        if better then some i else some b) none

/-- Move one cluster to the receiving route: an idle one first, else the highest-LOGICAL one of the donor stage; without
either stage BAL_BLOCKED counts. -/
def Module.balanceMove (m : Module) (t : Ten) (giver taker : Nat) : Module :=
  if m.moving t then m
  else
    match m.balanceStage taker true with
    | none => m.addFld Fld.PLC_TEN_SLOWDOWN_BAL_BLOCKED t.val 0
    | some i =>
      match m.siteFor t taker i (m.idlePool t) with
      | some d => m.startMove d ⟨t, some (taker, i), none, none, [], false, false⟩
      | none =>
        match (m.balanceStage giver false).bind (m.lastCluster giver) with
        | none => m.addFld Fld.PLC_TEN_SLOWDOWN_BAL_BLOCKED t.val 0
        | some c =>
          if m.mayLeave c then
            m.startMove c ⟨t, some (taker, i), none, none, [], false, false⟩
          else m

/-- The pair of running routes that name each other: generation and learning. -/
def Module.partners (m : Module) (t : Ten) : Option (Nat × Nat) :=
  let gens := m.routes.filter (fun p => p.2.ten == t && !p.2.learning && p.2.state == .running)
  gens.findSome? (fun g =>
    (m.routes.find? (fun l => l.2.ten == t && l.2.learning && l.2.state == .running
      && l.2.partner == g.2.routeId && g.2.partner == l.2.routeId)).map (fun l => (g.1, l.1)))

/-- The evaluation of one tenancy. [log 44 DEDUCED] -/
def Module.balanceTen (m : Module) (t : Ten) : Module :=
  match m.partners t with
  | none => m
  | some (g, l) =>
    if !m.flag Fld.PLC_TEN_CTL_BAL_EN t.val then m
    else
      let f := m.caravanFill t.val
      let q := m.queuedWaybills t.val
      let hiAt := m.fld Fld.PLC_TEN_BAL_BAL_HIGH t.val
      let loAt := m.fld Fld.PLC_TEN_BAL_BAL_LOW t.val
      let hold := max 1 (m.fld Fld.PLC_BAL_HOLD_HOLD)
      let hi := Map.get 0 m.balHi t.val
      let lo := Map.get 0 m.balLo t.val
      let (hi, lo) :=
        if hiAt ≤ f then (hi + 1, 0)
        else if f ≤ loAt ∧ m.fld Fld.PLC_TEN_BAL_BACKLOG_MIN t.val ≤ q then (0, lo + 1)
        else (0, 0)
      let off := hiAt ≤ loAt
      let m := { m with
        balHi := Map.set 0 m.balHi t.val (if hold ≤ hi then 0 else hi)
        balLo := Map.set 0 m.balLo t.val (if hold ≤ lo then 0 else lo) }
      if off then m
      else if hold ≤ hi then m.balanceMove t g l
      else if hold ≤ lo then m.balanceMove t l g
      else m

/-- BALANCE_PERIOD (R153). -/
def execBalancePeriod (s : State) : Host.Outcome State Fault Refusal :=
  s.run fun m =>
    if m.fld Fld.PLC_BAL_PERIOD_PERIOD = 0 ∨ !m.flag Fld.PLC_CTL_BAL_EN then m
    else (List.finRange 101).foldl (fun m t => if t = house then m else m.balanceTen t) m

/-! ## Item dispensing (R149, R150) -/

/-- Bytes of an item packet. -/
def itemPacket (item : Nat) (step : Word64) : List Byte := leBytes 4 item ++ leBytes 8 step.toNat ++ List.replicate 52 0

/-- Items left in a cluster that runs the same step of the same stage and may be stolen from. -/
def Module.victims (m : Module) (c n i : Nat) (step : Word64) : List Nat :=
  (m.stageClusters n i).filter (fun d => d != c && m.released d && (m.cl d).step == step && (m.cl d).move.isNone
    && (m.cl d).itemsLeft != 0)

/-- Take over the share of a cluster that left the stage before the step (R149). -/
def Module.adopt (m : Module) (c n : Nat) : Module :=
  let cl := m.cl c
  match (m.route n).bind (fun r => r.divisions.find? (fun d => d.stage == cl.stage && d.step == cl.step)) with
  | none => m
  | some d =>
    match d.orphans.find? (fun x => x.1 == cl.pass) with
    | none => m
    | some x =>
      if cl.itemsLeft != 0 then m
      else
        (m.setCl c { cl with nextItem := x.2.1, itemsLeft := x.2.2 }).setRoute n (fun r => { r with
          divisions := r.divisions.map (fun e => if e == d then { e with orphans := e.orphans.erase x } else e) })

/-- The victim with the most items left, ties to the lower LOGICAL number. -/
def Module.victim (m : Module) (c n i : Nat) (step : Word64) : Option Nat :=
  (m.victims c n i step).foldl (fun a d =>
    match a with
    | none => some d
    | some b =>
      let x := (m.cl d).itemsLeft
      let y := (m.cl b).itemsLeft
      if y < x ∨ (x = y ∧ m.fld Fld.FAB_CL_ASSIGN_LOGICAL d < m.fld Fld.FAB_CL_ASSIGN_LOGICAL b) then some d
      else some b) none

/-- Refill an empty share by a steal, where the route, the tenancy and the module permit it (R150). -/
def Module.steal (m : Module) (c n : Nat) (r : Route) : Module :=
  let cl := m.cl c
  if cl.itemsLeft != 0 || !r.steal || !m.flag Fld.PLC_TEN_CTL_STEAL_EN r.ten.val || !m.flag Fld.PLC_CTL_STEAL_EN then m
  else
    match m.victim c n cl.stage cl.step with
    | none => m
    | some d =>
      let v := m.cl d
      let keep := v.itemsLeft - (v.itemsLeft + 1) / 2
      let m := m.setCl c { cl with nextItem := v.nextItem + keep, itemsLeft := v.itemsLeft - keep }
      (m.setCl d { v with itemsLeft := keep }).addFld Fld.PLC_STEALS_COUNT 0 0

/-- Deliver a packet of the module's own to every tile of a span, on port X, and to its twin (R413). -/
def Module.deliverAll (m : Module) (t : TileId) (vc : BitVec 4) (data : List Byte) : Module :=
  let put := fun (m : Module) (u : TileId) => m.mapSpan u (fun u x => { x with recv := x.recv ++ [⟨4, vc, u, .data, data⟩] })
  let m := put m t
  match m.twinTile t with
  | some u => put m u
  | none => m

/-- Every span of a cluster has been sent the end of the pass and has received it. -/
def Module.passDone (m : Module) (c : Nat) (step : Word64) (pass : Nat) : Bool :=
  let cl := m.cl c
  let side := 16 / m.spanSide c
  cl.step == step && cl.pass == pass && (List.range (side * side)).all (fun k => cl.ended.contains k
    && !((m.tileAt (c * 256 + k / side * m.spanSide c * 16 + k % side * m.spanSide c)).recv.any
      (fun j => j.port == 4 && j.vc == 13)))

/-- The next pass of a paged stage starts once every span of the stage has received the end of this one (R202). -/
def Module.nextPass (m : Module) (n i : Nat) (r : Route) (sg : Stage) (step : Word64) (pass : Nat) : Module :=
  let cs := (m.stageClusters n i).filter (fun c => m.runs c step)
  if pass + 1 < sg.layerCount && cs.all (fun c => m.passDone c step pass) then
    cs.foldl (fun m c =>
      let (d, m) := m.divisionOf n i r sg step
      let share := d.share (m.fld Fld.FAB_CL_ASSIGN_LOGICAL c)
      m.setCl c { m.cl c with pass := pass + 1, ended := [], nextItem := share.1, itemsLeft := share.2 }) m
  else m

/-- ITEM_DISPENSE (R149, R150, R202): the dispenser sends the next item to a span that has none queued ahead. A paged
stage deals its items once for each of its layers. -/
def execItemDispense (t : TileId) (s : State) : Host.Outcome State Fault Refusal :=
  s.run fun m =>
    let c := t.cl.val
    match m.stageOf c with
    | none => m
    | some (n, r, sg) =>
      let o := m.tile (m.origin t)
      let k := m.spanIdx t
      if sg.items = 0 ∨ scheduledStage r sg ∨ !m.released c
          ∨ o.recv.any (fun k => k.port == 4 && k.vc == 13) then m
      else
        let cl := m.cl c
        let m := if pagedStage r sg && cl.ended.contains k then m.nextPass n cl.stage r sg cl.step cl.pass else m
        if pagedStage r sg && (m.cl c).ended.contains k && (m.cl c).pass + 1 < sg.layerCount then m
        else
          let m := (m.adopt c n).steal c n r
          let cl := m.cl c
          if cl.itemsLeft = 0 then
            (m.setCl c { cl with ended := if cl.ended.contains k then cl.ended else cl.ended ++ [k] }).deliverAll t 13
              (itemPacket 0xFFFFFFFF cl.step)
          else
            (m.setCl c { cl with nextItem := cl.nextItem + 1, itemsLeft := cl.itemsLeft - 1 }).deliverAll t 13
              (itemPacket cl.nextItem cl.step)

end Sys2Proof.Machine
end

