-- ==== Sys2Proof/Machine/Learning.lean ====
section
/-! DEFINITION. Machine/Learning.lean: the learner stage sequencer: batches, the hold of a learning step and the dispensing
of schedule operations (R225 to R236). -/

namespace Sys2Proof.Machine

/-! ## The choice of sequences (R226) -/

/-- A running scheduled route of a tenancy. -/
def Module.learner (m : Module) (t : Ten) : Option (Nat × Route) :=
  m.routes.find? (fun p => p.2.ten == t && p.2.isLearner && p.2.state == .running)

/-- The LEARN_EN rings of a tenancy in the order of R226: from the one after the ring that supplied the last sequence. -/
def Module.learnRings (m : Module) (t : Ten) (last : Nat) : List Nat :=
  let ks := ((m.caravansOf t).filter (fun p => p.2.learn)).map (·.1)
  let later := fun k => decide (last < m.fld Fld.CVN_RING_CFG_RING k)
  ks.filter later ++ ks.filter (fun k => !later k)

/-- A sequence chosen for a batch, with its ring and its lag. -/
structure Pick where
  k : Nat
  q : CSeq
  lag : Nat
  deriving DecidableEq, Repr

/-- The choice of a batch so far. -/
structure Take where
  picks : List Pick
  rows : Nat
  done : Bool
  /-- Sequences dropped for lag: caravan index and END_SLOT. -/
  drops : List (Nat × Nat)
  deriving DecidableEq, Repr

/-- One sequence of the loop of R226. -/
def Module.takeOne (m : Module) (t : Ten) (k : Nat) (x : Take) (q : CSeq) : Take :=
  let maxLag := m.fld Fld.LRN_TEN_LAG_MAX_LAG t.val
  let lag := ((m.activeVersion t.val) - q.oldest).toNat
  if x.done then x
  else if x.picks.length = m.fld Fld.LRN_TEN_LIMITS_BATCH_SEQS t.val then { x with done := true }
  else if maxLag ≠ 0 ∧ maxLag < lag ∧ !m.flag Fld.LRN_TEN_LAG_ACTION t.val then { x with drops := x.drops ++ [(k, q.endSlot)] }
  else if !x.picks.isEmpty && decide (m.fld Fld.LRN_TEN_LIMITS_BATCH_TOKENS t.val < x.rows + q.length) then { x with done := true }
  else { x with picks := x.picks ++ [⟨k, q, lag⟩], rows := x.rows + q.length }

/-- The loop of R226 over the rings. -/
def Module.takeBatch (m : Module) (t : Ten) (last : Nat) : Take :=
  (m.learnRings t last).foldl (fun x k =>
    match m.caravan k with
    | none => x
    | some c => (m.readySeqs k c).foldl (fun x q => m.takeOne t k x q) x) ⟨[], 0, false, []⟩

/-- Ready rows of a tenancy. -/
def Module.readyRows (m : Module) (t : Ten) : Nat :=
  ((m.learnRings t 0).map (fun k => match m.caravan k with
    | none => 0
    | some c => ((m.readySeqs k c).map (fun q => q.length)).sum)).sum

/-- Some sequence is ready. -/
def Module.anyReady (m : Module) (t : Ten) : Bool :=
  (m.learnRings t 0).any (fun k => match m.caravan k with
    | none => false
    | some c => !(m.readySeqs k c).isEmpty)

/-! ## Gathering (R228, R229) -/

/-- Why a sequence is dropped from a batch: a read faulted, or its END copy or its records are bad. -/
inductive GatherFail where
  | fault | bad
  deriving DecidableEq, Repr

/-- Read the slots of a ring from a slot index upward. -/
def Module.readSlots (m : Module) (ten : Nat) (c : Caravan) (s : Nat) : Nat → Except Fail (List (List Byte)) × Module
  | 0 => (.ok [], m)
  | n + 1 =>
    match m.readVA .lrn ten (c.base + 16 * (s % c.slots)) 16 with
    | (.error e, m) => (.error e, m)
    | (.ok b, m) =>
      match m.readSlots ten c (s + 1) n with
      | (.error e, m) => (.error e, m)
      | (.ok bs, m) => (.ok (b :: bs), m)

/-- The token records of a waybill among a run of slots; the second slot of a sequence-end record is passed over. -/
def scanRecords (id : Nat) : List (List Byte) → List (List Byte)
  | [] => []
  | [b] => if imgBits b 0 4 31 1 = 0 ∧ imgBits b 4 2 0 14 = id then [b] else []
  | b :: b' :: rest =>
    if imgBits b 0 4 31 1 = 1 then scanRecords id rest
    else if imgBits b 4 2 0 14 = id then b :: scanRecords id (b' :: rest)
    else scanRecords id (b' :: rest)

/-- The fields of an END copy are in range (R229). -/
def endOk (e : List Byte) : Bool :=
  let len := imgBits e 8 4 0 19
  let prompt := imgBits e 12 4 0 19
  let first := imgBits e 20 4 0 19
  decide (len ≤ 262144) && decide (1 ≤ prompt) && decide (prompt ≤ len) && decide (prompt ≤ first) && decide (first ≤ len)

/-- A row: its 16 bytes and 16 zero bytes (R227). -/
def rowOf (b : List Byte) : List Byte := b ++ List.replicate 16 0

/-- A row formed from the histories: flag [27] PROMPT or [28] CARRIED (R228). -/
def historyRow (id tok flag p lp : Nat) : List Byte :=
  rowOf (leBytes 4 (tok % 2 ^ 20 + flag) ++ leBytes 2 id ++ leBytes 2 0 ++ leBytes 4 p ++ leBytes 4 lp)

/-- Rows from the histories of a window. -/
def historyRows (id first prompt : Nat) (toks lps : List Byte) : List (List Byte) :=
  (List.range first).map (fun p =>
    if p < prompt then historyRow id (fieldAt toks (4 * p) 4) (2 ^ 27) p 0
    else historyRow id (fieldAt toks (4 * p) 4) (2 ^ 28) p (fieldAt lps (4 * (p - prompt)) 4))

/-- The record of each position, exactly one for each (R228, R229). -/
def recordRows (recs : List (List Byte)) : List Nat → Option (List (List Byte))
  | [] => some []
  | p :: ps =>
    match recs.filter (fun b => fieldAt b 8 4 == p) with
    | [b] => (recordRows recs ps).map (fun bs => rowOf b :: bs)
    | _ => none

/-- Gather one sequence: its END copy and its rows (R228, R229). -/
def Module.gather (m : Module) (t : Ten) (c : Caravan) (q : CSeq) : Except GatherFail (List Byte × List (List Byte)) × Module :=
  match m.readSlots t.val c q.endSlot 2 with
  | (.error _, m) => (.error .fault, m)
  | (.ok ends, m) =>
    let e := ends.flatten
    if !endOk e then (.error .bad, m)
    else
      let len := imgBits e 8 4 0 19
      let prompt := imgBits e 12 4 0 19
      let first := imgBits e 20 4 0 19
      let window := imgBits e 16 4 0 22 * 2 ^ 26
      let id := imgBits e 4 2 0 14
      match m.readVA .lrn t.val window (4 * first) with
      | (.error _, m) => (.error .fault, m)
      | (.ok toks, m) =>
        match m.readVA .lrn t.val (window + 0x100000 + 4 * prompt) (4 * (first - prompt)) with
        | (.error _, m) => (.error .fault, m)
        | (.ok lps, m) =>
          let pin := q.pin.getD q.endSlot
          match m.readSlots t.val c pin (diff32 q.endSlot pin) with
          | (.error _, m) => (.error .fault, m)
          | (.ok slots, m) =>
            match recordRows (scanRecords id slots) ((List.range (len - first)).map (first + ·)) with
            | none => (.error .bad, m)
            | some recs => (.ok (e, historyRows id first prompt toks lps ++ recs), m)

/-- Gather every chosen sequence; those that fail are released unconsumed, counted and raised. -/
def Module.gatherAll (m : Module) (t : Ten) : List Pick → List (Pick × List Byte × List (List Byte)) × Module
  | [] => ([], m)
  | p :: ps =>
    match m.caravan p.k with
    | none => m.gatherAll t ps
    | some c =>
      match m.gather t c p.q with
      | (.ok x, m) =>
        let (rest, m) := m.gatherAll t ps
        ((p, x) :: rest, m)
      | (.error e, m) =>
        let m := (m.cvnRelease p.k p.q.endSlot).cvnPublish t p.k
        let m := match e with
          | .fault => (m.addFld Fld.LRN_TEN_DROPS_GATHER_FAULTS t.val 0).raise Kind.LRN_GATHER_FAULT t.val p.k
          | .bad => (m.addFld Fld.LRN_TEN_DROPS_BAD_RECORDS t.val 0).raise Kind.LRN_BAD_RECORD t.val p.k
        m.gatherAll t ps

/-! ## The batch slot (R227) -/

/-- First row of each sequence of a list of row counts. -/
def firstRows : Nat → List Nat → List Nat
  | _, [] => []
  | r, n :: ns => r :: firstRows (r + n) ns

/-- The sequence that holds a row. -/
def seqOfRow (firsts : List Nat) (r : Nat) : Nat := (firsts.takeWhile (fun f => decide (f ≤ r))).length - 1

/-- The micro-batches: first row and rows of each, padding included. [log 68 DEDUCED] -/
def microOf (rows mb count : Nat) : List (Nat × Nat) :=
  (List.range count).map (fun k => (k * mb, min mb (rows - k * mb)))

/-- A micro-batch entry. -/
def microEntry (firsts : List Nat) (x : Nat × Nat) : List Byte :=
  leBytes 4 x.1 ++ leBytes 4 x.2
    ++ (if x.2 = 0 then leBytes 2 0xFFFF ++ leBytes 2 0xFFFF
        else leBytes 2 (seqOfRow firsts x.1) ++ leBytes 2 (seqOfRow firsts (x.1 + x.2 - 1)))
    ++ List.replicate 4 0

/-- A sequence entry. -/
def Module.seqEntry (m : Module) (p : Pick) (e : List Byte) (row : Nat) : List Byte :=
  e ++ leBytes 4 row ++ leBytes 2 (m.fld Fld.CVN_RING_CFG_RING p.k) ++ [0, 0] ++ leBytes 4 p.q.endSlot ++ leBytes 2 p.lag
    ++ List.replicate 18 0

/-- The batch header. -/
def batchHeader (step : Word64) (seqs micro rows real mb : Nat) : List Byte :=
  leBytes 8 step.toNat ++ leBytes 2 seqs ++ leBytes 2 micro ++ leBytes 4 rows ++ leBytes 2 real ++ [0, 0] ++ leBytes 4 mb
    ++ List.replicate 40 0

/-- Write parts of a batch slot; the first fault ends it. -/
def Module.writeParts (m : Module) (ten : Nat) : List (Nat × List Byte) → Except Fail Unit × Module
  | [] => (.ok (), m)
  | (va, bs) :: rest =>
    match m.writeVA .lrn ten va bs with
    | (.error e, m) => (.error e, m)
    | (.ok _, m) => m.writeParts ten rest

/-- Rows of the sequences gathered. -/
def gatheredRows (xs : List (Pick × List Byte × List (List Byte))) : Nat := (xs.map (fun x => x.2.2.length)).sum

/-- The micro-batches of a batch that holds real rows, by the route's own schedule or the one of R232. -/
def Module.batchMicro (m : Module) (t : Ten) (r : Route) (cfg : LearnCfg) (rows : Nat) : List (Nat × Nat) :=
  let mb := max 1 (m.fld Fld.LRN_TEN_LIMITS_MB_TOKENS t.val)
  let real := ceilDiv rows mb
  microOf rows mb (if cfg.table.isSome then real else raiseMicro real r.ranks.length cfg.chunks)

/-- What is written into the batch slot: the header, the sequence entries, the micro-batch entries and the rows, each with its
address (R227). -/
def Module.batchParts (m : Module) (t : Ten) (r : Route) (cfg : LearnCfg) (xs : List (Pick × List Byte × List (List Byte))) :
    List (Nat × List Byte) :=
  let step := r.nextBuild
  let rows := gatheredRows xs
  let firsts := firstRows 0 (xs.map (fun x => x.2.2.length))
  let micro := m.batchMicro t r cfg rows
  let mb := m.fld Fld.LRN_TEN_LIMITS_MB_TOKENS t.val
  let slot := cfg.batch + step.toNat % cfg.depth * 2 ^ cfg.slotLog2
  [(slot, batchHeader step xs.length micro.length rows (ceilDiv rows mb) mb),
   (slot + 64, (List.range xs.length).flatMap (fun e => match xs[e]? with
      | some x => m.seqEntry x.1 x.2.1 (firsts.getD e 0)
      | none => [])),
   (slot + 0x10000, micro.flatMap (microEntry firsts)),
   (slot + 0x20000, (xs.flatMap (fun x => x.2.2)).flatten)]

/-- Build batch n from gathered sequences. -/
def Module.writeBatch (m : Module) (t : Ten) (n : Nat) (r : Route) (cfg : LearnCfg)
    (xs : List (Pick × List Byte × List (List Byte))) : Module :=
  let step := r.nextBuild
  let rows := gatheredRows xs
  let micro := m.batchMicro t r cfg rows
  match m.writeParts t.val (m.batchParts t r cfg xs) with
  | (.error _, m) => m
  | (.ok _, m) =>
    let m := xs.foldl (fun m x => m.setSeq x.1.k x.1.q.endSlot (fun q => { q with batch := some step })) m
    let last := (xs.getLast?.map (fun x => m.fld Fld.CVN_RING_CFG_RING x.1.k)).getD r.lastRing
    let m := m.setRoute n (fun r => { r with
      nextBuild := step + 1, lastRing := last, batches := r.batches ++ [⟨step, xs.length, rows, micro, false⟩] })
    let m := { m with batchDue := m.batchDue.filter (fun u => u != t) }
    (m.setReg .LRN_TEN_STEP t.val 0 step).count 0x1301 t.val rows

/-- Build a batch where the conditions of R226 hold. [log 69 DEDUCED] -/
def Module.buildBatch (m : Module) (t : Ten) : Module :=
  match m.learner t with
  | none => m
  | some (n, r) =>
    match r.learn with
    | none => m
    | some cfg =>
      if m.flag Fld.LRN_CTL_BUILD_HOLD || decide (cfg.depth ≤ r.batches.length)
          || !(decide (m.fld Fld.LRN_TEN_MIN_MIN_TOKENS t.val ≤ m.readyRows t) || m.batchDue.contains t) then m
      else
        let x := m.takeBatch t r.lastRing
        let m := x.drops.foldl (fun m d =>
          (((m.cvnRelease d.1 d.2).cvnPublish t d.1).addFld Fld.LRN_TEN_DROPS_LAG_DROPS t.val 0).raise
            Kind.LRN_LAG_DROP t.val d.1) m
        let (xs, m) := m.gatherAll t x.picks
        if !xs.isEmpty then m.writeBatch t n r cfg xs
        else if m.anyReady t then m
        else { m with batchDue := m.batchDue.filter (fun u => u != t) }

/-- BATCH_BUILD (R226 to R229). -/
def execBatchBuild (ten : Ten) (s : State) : Host.Outcome State Fault Refusal := s.run fun m => m.buildBatch ten

/-- BATCH_WAIT_EXPIRE (R226): WAIT µs have passed since the first ready sequence appeared. -/
def execBatchWaitExpire (ten : Ten) (s : State) : Host.Outcome State Fault Refusal :=
  s.run fun m =>
    if !m.anyReady ten then m
    else ({ m with batchDue := if m.batchDue.contains ten then m.batchDue else m.batchDue ++ [ten] }).buildBatch ten

/-! ## The hold (R234) -/

/-- LEARN_STEP_HOLD_RELEASE (R234): every cluster of the route has committed step n − 1 and batch n is built; the gradient
areas are zeroed and the hold ends. LRN_TEN_IDLE counts the time held, a measured amount. [log 71 DESIGN CHOICE] -/
def execLearnStepHoldRelease (ten : Ten) (s : State) : Host.Outcome State Fault Refusal :=
  s.run fun m =>
    match m.learner ten with
    | none => m
    | some (n, r) =>
      match r.learn, r.batches.head? with
      | some cfg, some b =>
        if b.zeroed || !m.routePast n b.step then m
        else
          let m := cfg.grads.foldl (fun m a => m.zeroArea ten.val a) m
          let idle := Config.freeNat m.freeIx
          let m := m.drawn.setFld Fld.LRN_TEN_IDLE_US ten.val 0 (m.fld Fld.LRN_TEN_IDLE_US ten.val + idle)
          m.setRoute n (fun r => { r with batches := r.batches.map (fun x => if x.step == b.step then { x with zeroed := true } else x) })
      | _, _ => m

/-! ## Dispensing (R231) -/

/-- The packet of a schedule operation. -/
def schedPacket (op : Nat) (step : Word64) (clusters rank row rows : Nat) : List Byte :=
  leBytes 4 op ++ leBytes 8 step.toNat ++ leBytes 2 clusters ++ leBytes 2 rank ++ leBytes 4 row ++ leBytes 4 rows
    ++ List.replicate 40 0

/-- ROW and ROWS of an operation. -/
def Batch.rowsOf (b : Batch) (op : Nat) : Nat × Nat :=
  if op = 0xFFFFFFFF ∨ bitsAt op 29 3 = 3 then (0, 0) else (b.micro[bitsAt op 0 23]?).getD (0, 0)

/-- SCHED_OP_DISPENSE (R231): the next operation of the schedule goes to a span that has none queued ahead. -/
def execSchedOpDispense (t : TileId) (s : State) : Host.Outcome State Fault Refusal :=
  s.run fun m =>
    let c := t.cl.val
    match m.stageOf c with
    | none => m
    | some (n, r, sg) =>
      let cl := m.cl c
      let o := m.tile (m.origin t)
      match r.learn, r.batches.find? (fun b => b.step == cl.step) with
      | some cfg, some b =>
        if !scheduledStage r sg || !m.released c || o.recv.any (fun k => k.port == 4 && k.vc == 13) then m
        else
          let k := m.spanIdx t
          let ops := r.stageOps cfg b cl.stage
          let i := Map.get 0 cl.sched k
          if ops.length < i then m
          else
            let op := ops.getD i 0xFFFFFFFF
            -- the clusters that run the step, as they were when its first one was released (R238)
            let ls := ((r.divisions.find? (fun d => d.stage == cl.stage && d.step == cl.step)).map
              (fun d => d.shares.map (·.1))).getD (m.runners n cl.stage cl.step)
            let rank := (ls.takeWhile (fun l => l != m.fld Fld.FAB_CL_ASSIGN_LOGICAL c)).length
            let x := b.rowsOf op
            (m.setCl c { cl with sched := Map.set 0 cl.sched k (i + 1) }).deliverAll t 13
              (schedPacket op cl.step ls.length rank x.1 x.2)
      | _, _ => m

end Sys2Proof.Machine
end

