-- ==== Sys2Proof/Machine/Patterns.lean ====
section
/-! DEFINITION. Machine/Patterns.lean: pattern packs and the failure signatures they write (R417 to R420). -/

namespace Sys2Proof.Machine

/-! ## The pack (R418) -/

/-- A pattern: its index, KIND, ARG and EXPECT. -/
structure Pattern where
  index : Nat
  kind : Nat
  arg : Nat
  expect : Nat
  deriving DecidableEq, Repr

/-- The entry of a pattern. -/
def packEntry (b : List Byte) (i : Nat) : List Byte := (b.drop (fieldAt b 12 4 + 32 * i)).take 32

/-- An entry is well-formed. -/
def entryGood (b : List Byte) (i : Nat) : Bool :=
  let e := packEntry b i
  let kind := fieldAt e 0 1
  let arg := fieldAt e 4 4
  let n := fieldAt e 8 4
  zeroBytes e 1 3 && zeroBytes e 24 8
    && (if kind = 0 then
          decide (64 ≤ n) && decide (arg + n ≤ b.length) && decide (1 ≤ fieldAt e 14 2)
            && decide (fieldAt e 12 2 + fieldAt e 14 2 ≤ 512) && decide (1 ≤ fieldAt e 20 4)
        else decide (kind ≤ 2) && n == 0)

/-- The format is that of R418: MAGIC, MAJOR, MINOR. -/
def packVersion (b : List Byte) : Bool := fieldAt b 0 4 == 0x334B5054 && fieldAt b 5 1 == 3 && fieldAt b 4 1 == 0

/-- The pack's CRC passes, and its header and entries are well-formed. -/
def packGood (b : List Byte) : Bool :=
  let n := fieldAt b 6 2
  let off := fieldAt b 12 4
  decide (64 ≤ b.length) && fieldAt b 60 4 == crc32c (putAt b 60 [0, 0, 0, 0]) && decide (1 ≤ n) && decide (n ≤ 4096)
    && fieldAt b 8 4 == b.length && off % 8 == 0 && decide (off + 32 * n ≤ b.length) && zeroBytes b 24 36
    && (List.range n).all (entryGood b)

/-- The patterns of a pack. -/
def packPatterns (b : List Byte) : List Pattern :=
  (List.range (fieldAt b 6 2)).map (fun i =>
    let e := packEntry b i
    ⟨i, fieldAt e 0 1, fieldAt e 4 4, fieldAt e 16 4⟩)

/-! ## Targets (R417, R419) -/

/-- What a pack is run on. -/
inductive Target where
  | cluster (c : Nat) (retired : Bool)
  | spare (c r : Nat)
  | bank (p : Nat)
  | frame (f : Nat)
  deriving DecidableEq, Repr

/-- The targets that TARGETS names. -/
def Module.targets (m : Module) (mask : Nat) : List Target :=
  let on := fun (k : Nat) (xs : List Target) => if bitsAt mask k 1 = 1 then xs else []
  let state := fun c => m.fld Fld.FAB_CL_STATUS_STATE c
  on 0 (((List.range 100).filter (fun c => state c == 0 && (m.cl c).route.isNone && (m.cl c).move.isNone)).map (fun c => .cluster c false))
    ++ on 1 ((List.range 100).flatMap (fun c => ((List.range 16).filter (fun r =>
        state c != 5 && m.shiftAt c r == 16 && !m.spareBad c r)).map (fun r => .spare c r)))
    ++ on 2 (((List.range 100).filter (fun c => state c == 5)).map (fun c => .cluster c true))
    ++ on 3 (((List.range 32768).filter m.bankFree).map .bank)
    ++ on 4 (((List.range dramFrames).filter m.frameFree).map .frame)

/-- The KIND of pattern that a target takes. -/
def Target.kind : Target → Nat
  | .cluster .. | .spare .. => 0
  | .bank _ => 1
  | .frame _ => 2

/-- A failing unit: its block, LOCATION and SITE, and the row and offset of a tile. -/
structure TestUnit where
  block : Nat
  loc : Nat
  site : Nat
  row : Nat
  off : Nat
  deriving DecidableEq, Repr

/-- The units of a target that can fail: every tile of a cluster, or the one spare, bank or frame. -/
def Module.unitsIn (m : Module) : Target → List TestUnit
  | .cluster c _ => (List.range 256).map (fun k =>
      let off := m.siteOffset c (k / 16) (k % 16)
      ⟨0x20, c, siteWord (Fin.ofNat 100 c) (k / 16) off, k / 16, off⟩)
  | .spare c r => [⟨0x20, c, siteWord (Fin.ofNat 100 c) r 16, r, 16⟩]
  | .bank p => [⟨Block.base .hld, p, 0, 0, 0⟩]
  | .frame f => [⟨Block.base .mem, f, 0, 0, 0⟩]

/-! ## Signatures (R420) -/

/-- A pattern's signature in format FSR 1. The kind bit, what a march expects, what was observed, which is not what was expected,
and DETAIL are the hardware's: free values. [log 140 DESIGN CHOICE] -/
def Module.patternSig (m : Module) (u : TestUnit) (p : Pattern) : List Byte :=
  let x := fun (k : Nat) => Config.freeNat (m.freeIx * 128 + k)
  let want := (if p.kind = 0 then p.expect else x 1) % 2 ^ 32
  let seen := if x 2 % 2 ^ 32 = want then want ^^^ 1 else x 2
  let body := leBytes 4 0x31525346 ++ [0, 2] ++ leBytes 2 128 ++ leBytes 8 (m.reg .GLB_SERIAL).toNat
    ++ leBytes 8 (m.fld Fld.RTC_SECONDS_SECONDS) ++ leBytes 2 (m.fld Fld.GLB_MODULE_MODULE)
    ++ [byteOf u.block, byteOf (x 0 % 32)] ++ leBytes 8 u.loc ++ leBytes 4 p.index
    ++ leBytes 4 want ++ leBytes 4 seen ++ leBytes 4 u.site
    ++ (List.range 68).map (fun i => byteOf (x (3 + i))) ++ leBytes 4 0
  body ++ leBytes 4 (crc32c body)

/-! ## Running (R419) -/

/-- What a run has found: targets tested, failing targets, signatures written. -/
structure Tally where
  tested : Nat
  failing : Nat
  written : Nat
  deriving DecidableEq, Repr

/-- Act on a failing unit (R419). -/
def Module.repairUnit (m : Module) (t : Target) (u : TestUnit) : Module :=
  match t with
  | .cluster c false => m.failSite (Fin.ofNat 100 c) (BitVec.ofNat 4 u.row) (BitVec.ofNat 5 u.off)
  | .cluster _ true => m
  | .spare c r => m.markSpareBad c r
  | .bank p => m.retireBank p
  | .frame f => m.quarantine f

/-- Write one signature, while fewer than SIG_MAX are written. -/
def Module.putSig (m : Module) (va max' : Nat) (u : TestUnit) (p : Pattern) (w : Nat) : Nat × Module :=
  if max' ≤ w then (w, m)
  else
    match m.writeVA .int 0 (va + 128 * w) (m.patternSig u p) with
    | (.ok _, m) => (w + 1, m.drawn)
    | (.error _, m) => (w, m.drawn)

/-- What a march leaves in a free bank or frame: the complement of its 32-bit pattern, which it writes last (R419).
[log 140 DESIGN CHOICE] -/
def Module.march (m : Module) (t : Target) (p : Pattern) : Module :=
  let bytes := fun (n : Nat) => (List.replicate (n / 4) (leBytes 4 (2 ^ 32 - 1 - p.arg))).flatten
  match t with
  | .bank b => { m with hold := Mem.setBytes m.hold (b * bankBytes) (bytes bankBytes) }
  | .frame f => { m with dram := Mem.setBytes m.dram (f * frameBytes) (bytes frameBytes) }
  | _ => m

/-- Run the patterns on one target. Which unit fails, and at which pattern, is the hardware's: free values. [log 140 DESIGN CHOICE] -/
def Module.runTarget (m : Module) (ps : List Pattern) (va max' : Nat) (repair : Bool) (a : Tally) (t : Target) : Tally × Module :=
  match ps.filter (fun p => p.kind == t.kind) with
  | [] => (a, m)
  | q :: qs =>
    let m := (q :: qs).foldl (fun m p => m.march t p) m
    let (bad, w, m) := (m.unitsIn t).foldl (fun (x : Bool × Nat × Module) u =>
      let (bad, w, m) := x
      let fails := Config.freeBool m.freeIx
      let p := (q :: qs).getD (Config.freeNat m.freeIx % (qs.length + 1)) q
      let m := m.drawn
      if !fails then (bad, w, m)
      else
        let (w, m) := m.putSig va max' u p w
        (true, w, if repair then m.repairUnit t u else m)) (false, a.written, m)
    let m := if bad then m.raise Kind.INT_PATTERN_FAIL 0 (((m.unitsIn t).head?.map (·.loc)).getD 0) else m
    (⟨a.tested + 1, a.failing + (if bad then 1 else 0), w⟩, m)

/-- Run the patterns on every target. -/
def Module.runTargets (m : Module) (ps : List Pattern) (va max' : Nat) (repair : Bool) (a : Tally) : List Target → Tally × Module
  | [] => (a, m)
  | t :: rest =>
    let (a, m) := m.runTarget ps va max' repair a t
    m.runTargets ps va max' repair a rest

/-- PATTERN_RUN (R417 to R419): the pack is read and checked, then run on its targets. -/
def execPatternRun (id : Nat) (s : State) : Host.Outcome State Fault Refusal :=
  s.run fun m => m.withCmd id 0x50 fun c m =>
    let m := m.commitCmd id
    let va := c.field 24 8
    let max' := c.field 32 4
    match m.readVA .int 0 (c.field 8 8) (c.field 16 4) with
    | (.error e, m) => m.finishFail id e
    | (.ok b, m) =>
      if !packVersion b then m.finish id st.unsupported
      else if !packGood b then m.finish id st.check
      else
        match m.mapped .int 0 va (128 * max') true with
        | (.error e, m) => m.finishFail id e
        | (.ok _, m) =>
          let all := m.targets (c.field 20 1)
          let ts := if c.field 22 2 = 0 then all else all.take (c.field 22 2)
          let (a, m) := m.runTargets (packPatterns b) va max' (c.field 21 1 == 1) ⟨0, 0, 0⟩ ts
          m.finish id st.ok (a.tested % 2 ^ 32 * 2 ^ 32 + min 65535 a.failing * 2 ^ 16 + min 65535 a.written)

end Sys2Proof.Machine
end

