-- ==== Sys2Proof/Machine/Power.lean ====
section
/-! DEFINITION. Machine/Power.lean: power states (R460 to R465, R472), and the sideband's writes, which wait for their block to be
awake (R481). -/

namespace Sys2Proof.Machine

/-! ## Writes through the mirrors (R309, R481) -/

/-- A write of VIA_DISC_CTL: ORIGIN makes the module the origin of the torus (R309). -/
def Module.writeDisc (m : Module) (mask v : Nat) : Module :=
  let m := m.storeFields .VIA_DISC_CTL 0 0 mask v
  if m.flag Fld.VIA_DISC_CTL_ORIGIN then m.setCoord 0 0 0 else m

/-- The block of a mirrored register is awake: the viaduct block sleeps in S3 and S4 (R481). -/
def Module.mirrorAwake (m : Module) (r : RegId) : Bool :=
  !(r == .VIA_DISC_CTL || r == .VIA_DISC_STATUS || r == .VIA_PORT_STATUS || r == .VIA_PORT_PEER)
    || decide (m.fld Fld.PWR_STATUS_STATE < 3)

/-- One sideband write takes effect. [log 156 DESIGN CHOICE] -/
def Module.sideStore (m : Module) (r : RegId) (v : Nat) : Module :=
  if r == .VIA_DISC_CTL then m.writeDisc (2 ^ 32 - 1) v else m.storeFields r 0 0 (2 ^ 32 - 1) v

/-- Sideband writes whose blocks are awake take effect, in order. -/
def Module.sideWrites (m : Module) : Module :=
  let ready := fun (p : Nat × Word64) => m.mirrorAwake (RegId.ofNat (p.1 / 2 ^ 40))
  let now := m.side.writes.filter ready
  let m := { m with side := { m.side with writes := m.side.writes.filter (fun p => !ready p) } }
  now.foldl (fun m p => m.sideStore (RegId.ofNat (p.1 / 2 ^ 40)) p.2.toNat) m

/-! ## The commands -/

/-- IDLE_DWELL_EXPIRE (R461). -/
def execIdleDwellExpire (s : State) : Host.Outcome State Fault Refusal :=
  s.run fun m =>
    if m.clocked && m.board.boot == 6 && m.fabricIdle then m.checkTols.towards m.chooseState else m

/-- POWER_STATE_ENTRY_DONE (R462, R465). -/
def execPowerStateEntryDone (s : State) : Host.Outcome State Fault Refusal :=
  s.run fun m =>
    match m.board.target with
    | some k => if m.clocked then m.enterState k else m
    | none => m

/-- WAKE_EVENT (R464). -/
def execWakeEvent (s : State) : Host.Outcome State Fault Refusal :=
  s.run fun m => m.wake

/-- FORCE_S0 (R464). -/
def execForceS0 (s : State) : Host.Outcome State Fault Refusal :=
  s.run fun m => m.wake

/-- POWER_STATE_EXIT_DONE (R462, R472, R481). -/
def execPowerStateExitDone (s : State) : Host.Outcome State Fault Refusal :=
  s.run fun m => if m.board.leaving && m.clocked then m.exitState.sideWrites else m

end Sys2Proof.Machine
end

