-- ==== Sys2Proof/Machine/Routes.lean ====
section
/-! DEFINITION. Machine/Routes.lean: the route image and the commands ROUTE_LOAD, ROUTE_START and ROUTE_STOP (R85, R86, R135
to R148, R157, R311). -/

namespace Sys2Proof.Machine

/-! ## The route image (R135 to R139) -/

/-- The header fields of a route image. -/
structure Image where
  bytes : List Byte
  learning : Bool
  steal : Bool
  stages : Nat
  buffers : Nat
  edges : Nat
  barriers : Nat
  stageOff : Nat
  bufferOff : Nat
  edgeOff : Nat
  barrierOff : Nat
  size : Nat
  routeId : Nat
  target : Nat
  deriving DecidableEq, Repr

/-- Read the header. -/
def Image.of (b : List Byte) : Image where
  bytes := b
  learning := fieldAt b 6 1 == 2
  steal := bitsAt (fieldAt b 7 1) 0 1 == 1
  stages := fieldAt b 8 2
  buffers := fieldAt b 10 2
  edges := fieldAt b 12 2
  barriers := fieldAt b 14 2
  stageOff := fieldAt b 32 4
  bufferOff := fieldAt b 36 4
  edgeOff := fieldAt b 40 4
  barrierOff := fieldAt b 44 4
  size := fieldAt b 48 4
  routeId := fieldAt b 52 2
  target := fieldAt b 56 2

/-- The bytes of one table entry. -/
def Image.entry (x : Image) (off size i : Nat) : List Byte := (x.bytes.drop (off + size * i)).take size

def Image.stage (x : Image) (i : Nat) : List Byte := x.entry x.stageOff 32 i
def Image.buffer (x : Image) (i : Nat) : List Byte := x.entry x.bufferOff 32 i
def Image.edge (x : Image) (i : Nat) : List Byte := x.entry x.edgeOff 8 i
def Image.barrier (x : Image) (i : Nat) : List Byte := x.entry x.barrierOff 16 i

/-- A table lies in the image at a multiple of 8. -/
def Image.tableOk (x : Image) (off size n : Nat) : Bool := off % 8 == 0 && decide (off + size * n ≤ x.size)

/-- The header is in range (R135). -/
def Image.headerOk (x : Image) : Bool :=
  let b := x.bytes
  (fieldAt b 6 1 == 1 || fieldAt b 6 1 == 2) && decide (fieldAt b 7 1 < 2)
    && decide (1 ≤ x.stages) && decide (x.stages ≤ 64) && decide (x.buffers ≤ 1024) && decide (x.edges ≤ 256)
    && decide (x.barriers ≤ 4096) && x.routeId != 0xFFFF && zeroBytes b 58 2
    && x.tableOk x.stageOff 32 x.stages && x.tableOk x.bufferOff 32 x.buffers
    && x.tableOk x.edgeOff 8 x.edges && x.tableOk x.barrierOff 16 x.barriers

/-- The largest allowed span shape with enough spans per cluster (R146). -/
def stageShape (shapes minSpans : Nat) : Option Nat :=
  [4, 3, 2, 1, 0].find? (fun c => bitsAt shapes c 1 == 1 && decide (minSpans ≤ 4 ^ (4 - c)))

/-- A stage entry is in range (R136, R146). -/
def stageOk (b : List Byte) : Bool :=
  let mn := fieldAt b 18 1
  let mx := fieldAt b 19 1
  let sp := fieldAt b 20 2
  decide (1 ≤ fieldAt b 12 4) && decide (fieldAt b 16 1 < 32) && decide (fieldAt b 17 1 < 8)
    && decide (1 ≤ mn) && decide (mn ≤ mx) && decide (mx ≤ 100) && decide (1 ≤ sp) && decide (sp ≤ 256)
    && decide (fieldAt b 22 2 < 16) && decide (fieldAt b 26 2 ≤ 1024)
    && (stageShape (fieldAt b 16 1) sp).isSome

/-- A buffer entry is in range (R137). BAY_FIRST, which only BACKING has, must be zero for the other classes too, which the manual
asks of BAY_COUNT alone. [log 176 DESIGN CHOICE] -/
def bufferOk (b : List Byte) (stages : Nat) : Bool :=
  let addr := fieldAt b 0 8
  let n := fieldAt b 8 8
  let cls := fieldAt b 16 1
  let tier := fieldAt b 17 1
  let stage := fieldAt b 18 1
  let first := fieldAt b 20 2
  let count := fieldAt b 22 2
  n % 4096 == 0 && decide (cls < 3) && decide (tier < 4) && (decide (stage < stages) || stage == 0xFF)
    && decide (fieldAt b 19 1 < 2) && zeroBytes b 24 8
    && decide (if tier < 2 then addr < 2 ^ 32 else addr + n ≤ 2 ^ 48)
    && (if cls = 2 then stage != 0xFF && decide (first < 512) && decide (1 ≤ count) && decide (first + count ≤ 512)
          && n == 32768 * count
        else first == 0 && count == 0)

/-- The route's own form of a buffer entry. -/
def bufferOf (b : List Byte) : Buffer where
  addr := fieldAt b 0 8
  bytes := fieldAt b 8 8
  cls := fieldAt b 16 1
  tier := fieldAt b 17 1
  stage := fieldAt b 18 1
  migrateOk := bitsAt (fieldAt b 19 1) 0 1 == 1
  bayFirst := fieldAt b 20 2
  bayCount := fieldAt b 22 2

/-- Two buffers of one tier family share bytes. -/
def buffersOverlap (a b : Buffer) : Bool :=
  decide (a.tier < 2) == decide (b.tier < 2) && decide (a.addr < b.addr + b.bytes) && decide (b.addr < a.addr + a.bytes)

/-- No two buffers of the list overlap within a tier family. -/
def disjoint : List Buffer → Bool
  | [] => true
  | b :: rest => rest.all (fun a => !buffersOverlap a b) && disjoint rest

/-- Row 7 of R141, but for the routes already loaded. -/
def Image.ok (x : Image) : Bool :=
  let stages := (List.range x.stages).map x.stage
  x.headerOk && stages.all stageOk
    && (List.range x.buffers).all (fun i => bufferOk (x.buffer i) x.stages)
    && (List.range x.edges).all (fun i =>
        let e := x.edge i
        decide (fieldAt e 0 2 < x.stages) && decide (fieldAt e 2 2 < x.stages) && fieldAt e 4 1 != 0 && zeroBytes e 5 3)
    && (List.range x.barriers).all (fun i =>
        let b := x.barrier i
        decide (fieldAt b 0 8 < 2 ^ x.stages) && zeroBytes b 12 4)
    && disjoint ((List.range x.buffers).map (fun i => bufferOf (x.buffer i)))
    && (x.learning || (stages.filter (fun b => fieldAt b 17 1 == 5)).length == 1)

/-! ## Programs (R85, R86) -/

/-- The program header. Of a Skaesque 2 header bytes 16 to 63 are ignored, and MIDSTEP_CMT does not exist (R108). -/
def progOf (b : List Byte) : Prog :=
  let old := fieldAt b 5 1 == 2
  { skq2 := old
    midCmt := !old && bitsAt (fieldAt b 6 2) 0 1 == 1
    codeLen := fieldAt b 8 4
    entry := fieldAt b 12 4
    stepEntry := if old then fieldAt b 12 4 else fieldAt b 16 4
    scratchBase := if old then 0 else fieldAt b 20 2
    scratchLen := if old then 0 else fieldAt b 22 2
    stageLen := if old then 2 ^ 20 else fieldAt b 24 4 }

/-- The first check of R86 and R141 that a program fails, as a status. -/
def progFault (b : List Byte) (size : Nat) : Option Nat :=
  let p := progOf b
  if !((fieldAt b 0 4 == 0x33514B53 && fieldAt b 5 1 == 3) || (fieldAt b 0 4 == 0x32514B53 && fieldAt b 5 1 == 2))
      || fieldAt b 4 1 != 0 then some st.unsupported
  else if size ≠ 64 + 8 * p.codeLen then some st.check
  else if !p.skq2 && fieldAt b 28 4 != crc32c ((b.drop 64).take (8 * p.codeLen)) then some st.check
  else if p.codeLen = 0 ∨ 32760 < p.codeLen ∨ p.codeLen ≤ p.entry ∨ p.codeLen ≤ p.stepEntry ∨ 2 ≤ fieldAt b 6 2
      ∨ 512 ≤ p.scratchBase ∨ 512 < p.scratchBase + p.scratchLen ∨ p.stageLen % 4096 ≠ 0 ∨ 2 ^ 24 < p.stageLen
      ∨ (!p.skq2 && !zeroBytes b 32 32) then some st.check
  else none

/-- The stage that an entry and its program make. -/
def stageFrom (e code : List Byte) : Stage where
  prog := progOf code
  code := code
  costHint := fieldAt e 12 4
  measured := none
  busyLog := []
  top := none
  shape := (stageShape (fieldAt e 16 1) (fieldAt e 20 2)).getD 0
  kind := fieldAt e 17 1
  minCl := fieldAt e 18 1
  maxCl := fieldAt e 19 1
  branch := fieldAt e 22 2
  layerFirst := fieldAt e 24 2
  layerCount := fieldAt e 26 2
  items := fieldAt e 28 4

/-- Rows 9 and 10 of R141: read and check the programs, in ascending stage order. -/
def Module.readPrograms (m : Module) (ten : Nat) (x : Image) : List Nat → Except Fail (List Stage) × Module
  | [] => (.ok [], m)
  | i :: rest =>
    let e := x.stage i
    let size := fieldAt e 8 4
    match m.mapped .plc ten (fieldAt e 0 8) size false with
    | (.error f, m) => (.error f, m)
    | (.ok _, m) =>
      match m.readVA .plc ten (fieldAt e 0 8) (max 64 (min size 262144)) with
      | (.error f, m) => (.error f, m)
      | (.ok code, m) =>
        match progFault code size with
        | some status => (.error ⟨status, 0, 0⟩, m)
        | none =>
          match m.readPrograms ten x rest with
          | (.error f, m) => (.error f, m)
          | (.ok sgs, m) => (.ok (stageFrom e (code.take size) :: sgs), m)

/-! ## Resources (row 11 of R141) -/

/-- A Hold buffer lies wholly in the private extent (R257). -/
def Module.inPrivate (m : Module) (ten : Nat) (b : Buffer) : Bool :=
  b.bytes == 0 ||
    (m.flag Fld.HLD_TEN_EXT_RUN_VALID ten 0
      && decide (m.fld Fld.HLD_TEN_EXT_TBANK_FIRST ten 0 * bankBytes ≤ b.addr)
      && decide (b.addr + b.bytes ≤
          (m.fld Fld.HLD_TEN_EXT_TBANK_FIRST ten 0 + m.fld Fld.HLD_TEN_EXT_COUNT ten 0) * bankBytes))

/-- The tenancy's idle clusters in ascending LOGICAL order. -/
def Module.idleClusters (m : Module) (t : Ten) : List Nat :=
  (List.range 101).flatMap (fun l => (m.idlePool t).filter (fun c => m.fld Fld.FAB_CL_ASSIGN_LOGICAL c == l))

/-- Frames of the staging and save areas of one cluster of a stage (R87, R91). -/
def Prog.frames (p : Prog) : Nat := p.stageLen / 256 + (512 - p.scratchLen)

/-- Frames of the route area: the image and every program. [log 22 DESIGN CHOICE] -/
def areaFrames (x : Image) (sgs : List Stage) : Nat :=
  (x.size + (sgs.map (fun s => s.code.length)).sum + frameBytes - 1) / frameBytes

/-- Map every page of a DRAM buffer that is not mapped yet; the frames it takes (R141, R148). [log 43 DEDUCED] -/
def Module.mapBuffer (m : Module) (ten : Nat) (dies : List Nat) (b : Buffer) : Option (List Nat × Module) :=
  let first := b.addr / frameBytes
  let pages := if b.bytes = 0 then 0 else (b.addr + b.bytes - 1) / frameBytes - first + 1
  (List.range pages).foldl (fun acc k =>
    match acc with
    | none => none
    | some (fs, m) =>
      let va := (first + k) * frameBytes
      match m.walk ten va false with
      | .error ⟨_, 1, _⟩ =>
        (m.mapPage ten va (if b.tier = 3 then dies[k % max 1 dies.length]? else none)).map (fun p => (fs ++ [p.1], p.2))
      | _ => some (fs, m)) (some ([], m))

/-- Map the pages of every DRAM buffer. -/
def Module.mapBuffers (m : Module) (ten : Nat) (dies : Buffer → List Nat) : List Buffer → Option (List Nat × Module)
  | [] => some ([], m)
  | b :: rest =>
    match m.mapBuffer ten (dies b) b with
    | none => none
    | some (fs, m) => (m.mapBuffers ten dies rest).map (fun p => (fs ++ p.1, p.2))

/-- Stage of each cluster, from an allocation. -/
def stagesOf (al : List Nat) : List Nat := (List.range al.length).flatMap (fun i => List.replicate (al.getD i 0) i)

/-- Physical clusters for an allocation, with their stages, chosen in the order of preference of R147. -/
def Module.placeStages (m : Module) (t : Ten) (edges : List (Nat × Nat × Nat)) (pool al : List Nat) : List (Nat × Nat) :=
  ((stagesOf al).foldl (fun (a : List (Nat × Nat) × List Nat) i =>
    match bestOf (m.siteScore t edges a.1 i (al.getD i 0) a.2) a.2 with
    | some c => (a.1 ++ [(c, i)], a.2.erase c)
    | none => a) ([], pool)).1

/-- Barriers that the die holds. -/
def Module.dieBarriers (m : Module) (die : Nat) : Nat :=
  (m.routes.map (fun p => (p.2.barriers.filter (fun b => b.die == die)).length)).sum

/-- The barriers of a route, each on the die of its lowest-numbered participating cluster (R311). -/
def barriersOf (x : Image) (placed : List (Nat × Nat)) : List Barrier :=
  (List.range x.barriers).map (fun i =>
    let b := x.barrier i
    let mask := fieldAt b 0 8
    let cs := (placed.filter (fun p => bitsAt mask p.2 1 == 1)).map (·.1)
    ⟨mask, fieldAt b 8 4, (List.range 100).filter (fun c => cs.contains c), none, (cs.foldl min 99) / 25, [], 0, false⟩)

/-- The barriers can be allocated (R311). -/
def Module.barriersFit (m : Module) (ten : Nat) (bs : List Barrier) : Bool :=
  decide (m.fld Fld.SYN_TEN_BARRIERS_IN_USE ten + bs.length ≤ m.fld Fld.SYN_TEN_BARRIERS_LIMIT ten)
    && (List.range 4).all (fun d =>
      decide (m.dieBarriers d + (bs.filter (fun b => b.die == d)).length ≤ 4096))

/-- Take a run of clusters, and their twins, into the route. Each cluster takes the lowest LOGICAL number that the tenancy is not
using (R147). -/
def Module.placeClusters (m : Module) (t : Ten) (n : Nat) (placed twins : List (Nat × Nat)) : Module :=
  let m := placed.foldl (fun m p => m.joinStage p.1 n p.2 (m.freeLogical t p.1) none none) m
  (List.range twins.length).foldl (fun m k =>
    match placed[k]?, twins[k]? with
    | some p, some q => m.joinStage q.1 n q.2 (m.fld Fld.FAB_CL_ASSIGN_LOGICAL p.1) (some p.1) none
    | _, _ => m) m

/-- The lowest free route number. -/
def Module.freeRoute (m : Module) : Nat := ((List.range 256).find? (fun n => (m.route n).isNone)).getD 0

/-- What a route needs before it can be installed: the clusters chosen for it, their twins, and its barriers. -/
structure Plan where
  placed : List (Nat × Nat)
  twins : List (Nat × Nat)
  barriers : List Barrier
  edges : List (Nat × Nat × Nat)
  deriving DecidableEq, Repr

/-- Choose the clusters of a route (R144, R147); none where the routes or the idle clusters do not suffice (row 11 of R141). -/
def Module.planRoute (m : Module) (t : Ten) (x : Image) (sgs : List Stage) : Option Plan :=
  let idle := m.idleClusters t
  let twin := m.flag Fld.INT_TWIN_EN t.val
  let have' := if twin then idle.length / 2 else idle.length
  let mins := (sgs.map (·.minCl)).sum
  if 16 ≤ (m.routesOf t).length ∨ 256 ≤ m.routes.length ∨ have' < mins ∨ have' < x.target then none
  else
    let al := allocate (if x.target = 0 then have' else x.target) sgs
    let edges := (List.range x.edges).map (fun i =>
      let e := x.edge i
      (fieldAt e 0 2, fieldAt e 2 2, fieldAt e 4 1))
    let placed := m.placeStages t edges idle al
    let rest := idle.filter (fun c => !placed.any (fun p => p.1 == c))
    some ⟨placed, if twin then (rest.zip (placed.map (·.2))).take placed.length else [], barriersOf x placed, edges⟩

/-- Install a checked route, or find that a resource is short (row 11 of R141). The first batch of a learning route has no batch
before it: which ring it starts from the manual does not say, and here the rings above number 0 come first. [log 177 DESIGN
CHOICE] -/
def Module.installRoute (m : Module) (t : Ten) (x : Image) (sgs : List Stage) (q : Plan) : Option Module :=
  let ten := t.val
  let bufs := (List.range x.buffers).map (fun i => bufferOf (x.buffer i))
  let frames := areaFrames x sgs + ((q.placed ++ q.twins).map (fun p => ((sgs[p.2]?).map (fun s => s.prog.frames)).getD 0)).sum
  let dies := fun (b : Buffer) => ((q.placed.filter (fun p => b.stage == 0xFF || p.2 == b.stage)).map (fun p => p.1 / 25))
  if !m.barriersFit ten q.barriers then none
  else
    match m.allocFrames ten frames with
    | none => none
    | some (area, m) =>
      match m.mapBuffers ten dies (bufs.filter (fun b => 2 ≤ b.tier)) with
      | none => none
      | some (pages, m) =>
        let n := m.freeRoute
        let r : Route := {
          ten := t, routeId := x.routeId, learning := x.learning, steal := x.steal,
          partner := fieldAt x.bytes 54 2, seed := BitVec.ofNat 64 (fieldAt x.bytes 16 8),
          firstStep := BitVec.ofNat 64 (fieldAt x.bytes 24 8), state := .loaded, stages := sgs, buffers := bufs,
          edges := q.edges, alloc := none,
          barriers := q.barriers, area := area, pages := pages, startCmd := none, stopCmds := [], stopUnload := false,
          waiting := [], suspended := false, migrations := [], divisions := [],
          entered := [], gen := ⟨0, 0, 4, 0, true⟩, slots := [],
          nextBuild := BitVec.ofNat 64 (fieldAt x.bytes 24 8), learn := none, batches := [], lastRing := 0 }
        let m := { m with routes := Map.insert m.routes n r }
        let m := m.addFld Fld.SYN_TEN_BARRIERS_IN_USE ten 0 q.barriers.length
        let m := m.placeClusters t n q.placed q.twins
        some (((m.placeHolds n).mirrorRoute n).mirrorTen t)

/-- ROUTE_LOAD after the image has been read: rows 7 to 11 of R141. A barrier that cannot be allocated raises EXHAUSTED (R321). -/
def Module.loadImage (m : Module) (id : Nat) (t : Ten) (x : Image) : Module :=
  let bufs := (List.range x.buffers).map (fun i => bufferOf (x.buffer i))
  if !x.ok || (m.routeById t x.routeId).isSome then m.finish id st.check
  else if bufs.any (fun b => decide (b.tier < 2) && !m.inPrivate t.val b) then
    (m.violation t.val .plc).finish id st.isolation
  else
    match m.readPrograms t.val x (List.range x.stages) with
    | (.error f, m) => m.finishFail id f
    | (.ok sgs, m) =>
      match m.planRoute t x sgs with
      | none => m.finish id st.resource
      | some q =>
        match m.installRoute t x sgs q with
        | some m => m.finish id st.ok
        | none =>
          (m.when (!m.barriersFit t.val q.barriers) (fun m => m.raise Kind.SYN_EXHAUSTED t.val 0)).finish id st.resource

/-- ROUTE_LOAD (R141): the checks in the order of its table; a failed load leaves no trace of the route. [log 42 DEDUCED] -/
def execRouteLoad (id : Nat) (s : State) : Host.Outcome State Fault Refusal :=
  s.run fun m => m.withCmd id 0x01 fun c m =>
    let va := c.field 8 8
    if c.ten = house then m.finish id st.resource
    else
      match m.readVA .plc c.ten.val va 64 with
      | (.error f, m) => m.finishFail id f
      | (.ok h, m) =>
        if fieldAt h 0 4 ≠ 0x33455452 ∨ fieldAt h 5 1 ≠ 3 ∨ fieldAt h 4 1 ≠ 0 then m.finish id st.unsupported
        else if c.field 16 4 ≠ fieldAt h 48 4 then m.finish id st.check
        else
          match m.readVA .plc c.ten.val va (fieldAt h 48 4) with
          | (.error f, m) => m.finishFail id f
          | (.ok b, m) =>
            if crc32c (zeroAt b 60 4) ≠ fieldAt b 60 4 then m.finish id st.check
            else m.loadImage id c.ten (Image.of b)

/-! ## ROUTE_START and ROUTE_STOP (R142, R143) -/

/-- ROUTE_START (R142). [log 45 DEDUCED] -/
def execRouteStart (id : Nat) (s : State) : Host.Outcome State Fault Refusal :=
  s.run fun m => m.withCmd id 0x02 fun c m =>
    match m.routeById c.ten (c.field 8 2) with
    | none => m.finish id st.aborted
    | some n =>
      match (m.route n).map (fun (r : Route) => r.state) with
      | some .stopping => (m.setRoute n (fun r => { r with waiting := r.waiting ++ [id] })).commitCmd id
      | _ => m.beginStart n id

/-- The pending moves of a route's clusters are cancelled (R143). -/
def Module.cancelMoves (m : Module) (n : Nat) : Module :=
  (m.allClusters n).foldl (fun m c =>
    match (m.cl c).move with
    | some mv => if mv.reassigned then m else m.cancelMove c
    | none => m) m

/-- Begin a stop: DRAIN lets the clusters commit their current step, KILL kills the uncommitted steps. -/
def Module.beginStop (m : Module) (n : Nat) (kill : Bool) : Module :=
  let m := m.setRoute n (fun r => { r with state := .stopping })
  let m := m.cancelMoves n
  if kill then m.stopKill n st.ok else (m.mirrorRoute n).checkStopped n

/-- ROUTE_STOP (R143): a MODE or UNLOAD out of range, or a route not loaded, fails with CHECK_FAIL. -/
def execRouteStop (id : Nat) (s : State) : Host.Outcome State Fault Refusal :=
  s.run fun m => m.withCmd id 0x03 fun c m =>
    let unload := c.field 11 1 == 1
    if 1 < c.field 10 1 ∨ 1 < c.field 11 1 then m.finish id st.check
    else
      match m.routeById c.ten (c.field 8 2) with
      | none => m.finish id st.check
      | some n =>
        match (m.route n).map (fun (r : Route) => r.state) with
        | some .loaded | some .stopped | none =>
          let m := m.finish id st.ok
          if unload then m.unloadRoute n else m
        | some _ =>
          let m := (m.setRoute n (fun r => { r with
            stopCmds := r.stopCmds ++ [id], stopUnload := r.stopUnload || unload })).commitCmd id
          m.beginStop n (c.field 10 1 == 1)

end Sys2Proof.Machine
end

