-- ==== Sys2Proof/Machine/Elementary.lean ====
section
/-! DEFINITION. Machine/Elementary.lean: the functions of VFUN whose accuracy alone the manual states (R74, R130). Each is
computed in fixed point with 256 fraction bits, far beyond FP32, and the result is a fixed choice by input among the FP32
values within two units in the last place of it. -/

namespace Sys2Proof.Machine

/-- One, the logarithm of 2 and π, with 256 fraction bits. -/
def fixOne : Int := 2 ^ 256
def fixLn2 : Int := 0xb17217f7d1cf79abc9e3b39803f2f6af40f343267298b62d8a0d175b8baafa2b
def fixPi : Int := 0x3243f6a8885a308d313198a2e03707344a4093822299f31d0082efa98ec4e6c89

/-- A product, and a quotient, in fixed point. -/
def fixMul (a b : Int) : Int := a * b / fixOne
def fixDiv (a b : Int) : Int := a * fixOne / b

/-- The terms of the exponential series from term `k` on, of value `t`. -/
def expSeries (r : Int) : Nat → Nat → Int → Int
  | 0, _, _ => 0
  | fuel + 1, k, t => t + expSeries r fuel (k + 1) (fixMul t r / (k + 1))

/-- e^x. -/
def fixExp (x : Int) : Int :=
  let n := x / fixLn2
  let v := expSeries (x - n * fixLn2) 70 0 fixOne
  if 0 ≤ n then v * 2 ^ n.toNat else v / 2 ^ (-n).toNat

/-- The terms of the series of the inverse hyperbolic tangent from the odd power `k` on, of value `t`. -/
def atanhSeries (z2 : Int) : Nat → Nat → Int → Int
  | 0, _, _ => 0
  | fuel + 1, k, t => t / k + atanhSeries z2 fuel (k + 2) (fixMul t z2)

/-- The natural logarithm of a positive rational. -/
def fixLog (n d : Nat) : Int :=
  let e := floorLog2 n d
  let m := if 0 ≤ e then (n : Int) * fixOne / (d * 2 ^ e.toNat) else (n : Int) * fixOne * 2 ^ (-e).toNat / d
  let z := fixDiv (m - fixOne) (m + fixOne)
  e * fixLn2 + 2 * atanhSeries (fixMul z z) 90 1 z

/-- The terms of the sine or cosine series from power `k` on, of value `t`. -/
def sinSeries (r2 : Int) : Nat → Nat → Int → Int
  | 0, _, _ => 0
  | fuel + 1, k, t => t + sinSeries r2 fuel (k + 2) (-(fixMul t r2) / ((k + 1) * (k + 2)))

/-- sin (x + q·π/2). -/
def fixSin (x : Int) (q : Int) : Int :=
  let k := (4 * x + fixPi) / (2 * fixPi)
  let r := x - k * fixPi / 2
  let r2 := fixMul r r
  match ((k + q) % 4).toNat with
  | 0 => sinSeries r2 50 1 r
  | 1 => sinSeries r2 50 0 fixOne
  | 2 => -sinSeries r2 50 1 r
  | _ => -sinSeries r2 50 0 fixOne

/-- The place of the unit in the last place of FP32 at a positive fixed-point value, as a power of two of its last bit. -/
def unitBits (v : Nat) : Nat := (max ((Nat.log2 v : Int) - 256) (-126) + 233).toNat

/-- Magnitude bits of the largest FP32 value not above a fixed-point value. -/
def floatFloor (v : Nat) : Nat :=
  min 0x7F800000 (v / 2 ^ unitBits v + ((Nat.log2 v : Int) - 256 + 126).toNat * 2 ^ 23)

/-- The FP32 value that the fixed choice `pick` names among those within two units in the last place of a fixed-point value and
not above `top`; past the largest finite value it is infinity, with OVF. -/
def twoUlp (pick : Word) (v : Int) (top : Nat) : Word × AFlags :=
  let mag := v.natAbs
  let gap := 2 ^ (unitBits mag + 1) + 1
  let lo := if mag < gap then 0 else floatFloor (mag - gap) + 1
  let hi := floatFloor (mag + gap)
  let k := min top (lo + pick.toNat % (hi - lo + 1))
  let neg := if v = 0 then pick.getLsbD 31 else decide (v < 0)
  (BitVec.ofNat 32 (k + (if neg then 2 ^ 31 else 0)), ⟨false, k == 0x7F800000, false⟩)

/-- A signed rational in fixed point. -/
def fixOf (neg : Bool) (n d : Nat) : Int :=
  let v : Int := (n : Int) * fixOne / d
  if neg then -v else v

/-- The FP32 value of 1, and infinity, as magnitude bits. -/
abbrev oneBits : Nat := 0x3F800000
abbrev infBits32 : Nat := 0x7F800000

/-- EXP, EXP2, LOG, LOG2, TANH and SIGMOID of a finite value, SIN and COS of one up to 2^16, to within 2 ulp (R130); a logarithm
is of a positive value. [log 18 DESIGN CHOICE] -/
def elementary (code : Nat) (x : Word) (neg : Bool) (n d : Nat) : Word × AFlags :=
  let pick := Config.vfun code x
  let v := fixOf neg n d
  -- beyond 256 every one of these has reached its limit
  let c := max (-256 * fixOne) (min (256 * fixOne) v)
  match code with
  | 0 => twoUlp pick (fixExp c) infBits32
  | 1 => twoUlp pick (fixExp (fixMul c fixLn2)) infBits32
  | 2 => twoUlp pick (fixLog n d) infBits32
  | 3 => twoUlp pick (fixDiv (fixLog n d) fixLn2) infBits32
  | 7 =>
    let t := fixExp (2 * (if neg then -c else c))
    let y := fixDiv (t - fixOne) (t + fixOne)
    twoUlp pick (if neg then -y else y) oneBits
  | 8 => twoUlp pick (fixDiv fixOne (fixOne + fixExp (-c))) oneBits
  | 9 => twoUlp pick (fixSin v 0) infBits32
  | _ => twoUlp pick (fixSin v 1) infBits32

end Sys2Proof.Machine
end

