-- ==== Sys2Proof/Machine/TileTransfer.lean ====
section
/-! DEFINITION. Machine/TileTransfer.lean: transfers between the bay and the Hold or translated memory (R100 to R102),
with the staging of stores into committed buffers (R87). -/

namespace Sys2Proof.Machine

/-- Drop bits [4:0]: transfers move whole 32-byte units (R100). -/
def unit32 (n : Nat) : Nat := n / 32 * 32

/-- The buffer is in the Hold (R137). -/
def Buffer.inHold (b : Buffer) : Bool := decide (b.tier ≤ 1)

/-- Some byte of a range lies in a COMMITTED buffer of the route (R87). -/
def Route.committed (r : Route) (hold : Bool) (a n : Nat) : Bool :=
  r.buffers.any (fun b => b.cls == 0 && b.inHold == hold && decide (b.addr < a + n) && decide (a < b.addr + b.bytes))

/-- A range lies wholly in a SCRATCH buffer of the route. -/
def Route.inScratch (r : Route) (hold : Bool) (a n : Nat) : Bool :=
  r.buffers.any (fun b => b.cls == 1 && b.inHold == hold && decide (b.addr ≤ a) && decide (a + n ≤ b.addr + b.bytes))

/-- A store to a range is staged until the step commits: all but those into SCRATCH buffers, so that a killed step leaves
nothing else (R16, R87). [log 172 DEDUCED] -/
def Route.staged (r : Route) (hold : Bool) (a n : Nat) : Bool := r.committed hold a n || !r.inScratch hold a n

/-- A broken range: a misuse case of R109. -/
def transferFault (bay len : Nat) : Option Misuse :=
  if 65536 < len then some .lengthRange else if 0x10000 < bay + len then some .bayRange else none

/-- Outstanding transfers that a tile may have (R100). -/
abbrev maxTransfers : Nat := 32

/-- Some tile of the span has no room for another transfer. -/
def Module.transfersFull (m : Module) (cx : Ctx) : Bool :=
  (m.spanTiles cx.o).any (fun u => decide (maxTransfers ≤ (m.tile u).xfers.length))

/-- The transfer that a tile issues by its own registers (R100). -/
def Tile.transfer (x : Tile) (kind : XferKind) (w : Fields) (addr : Nat) (bcast : Option (BitVec 16)) : Transfer :=
  { kind := kind
    tag := w.mod.setWidth 4
    bay := unit32 (x.sreg w.b.toNat).toNat
    addr := unit32 addr
    len := unit32 (x.sreg (spec3 w)).toNat
    bcast := bcast }

/-- What the digest takes of a store as it issues (R413). -/
def Tile.noteStore (x : Tile) (hold : Bool) (k : Transfer) : Tile :=
  if k.len = 0 then x else x.note (storeNote hold k.addr (Mem.bytes x.bay k.bay k.len))

/-- Put a transfer in a tile's engine; a length of 0 moves nothing (R100). -/
def Tile.issueTransfer (x : Tile) (k : Transfer) : Except Misuse Tile :=
  match transferFault k.bay k.len with
  | some f => .error f
  | none => .ok (if k.len = 0 then x else { x with xfers := x.xfers ++ [k] })

/-- The first failure of the address checks of a span's transfers (R102), recorded in the module. [log 24 DEDUCED] -/
def Module.checkTransfers (m : Module) (k : Cluster) (ten : Nat) (write hold : Bool) : List (Nat × Nat) → Option Fail × Module
  | [] => (none, m)
  | (a, n) :: rest =>
    if n = 0 then m.checkTransfers k ten write hold rest
    else if hold then
      match m.holdRange ten a n write with
      | .error e => let r := m.holdRefuse ten a e; (some r.1, r.2)
      | .ok _ => m.checkTransfers k ten write hold rest
    else
      match m.mapped (.fab k) ten a n write with
      | (.error e, m) => (some e, m)
      | (.ok _, m) => m.checkTransfers k ten write hold rest

/-- Issue the transfer of every tile of the span: a full engine stalls, an address outside the grant or the mappings
ends the route's command (R102). -/
def Module.issueTransfers (m : Module) (cx : Ctx) (op : Byte) (w : Fields) (kind : XferKind) (write hold : Bool)
    (addr : Tile → Nat) : Except Misuse Module :=
  if m.transfersFull cx then .ok (m.waitOn cx op w)
  else
    let ks := (m.spanTiles cx.o).map (fun u => (m.tile u).transfer kind w (addr (m.tile u)) none)
    match ks.findSome? (fun k => transferFault k.bay k.len) with
    | some f => .error f
    | none =>
      match m.checkTransfers cx.o.cl cx.r.ten.val write hold (ks.map (fun k => (k.addr, k.len))) with
      | (some e, m) => .ok (m.failRoute cx.n e)
      | (none, m) =>
        let digests := write && m.twinned cx.r.ten.val
        m.eachE cx fun _ x => do
          let k := x.transfer kind w (addr x) none
          let y ← x.issueTransfer k
          return if digests then y.noteStore hold k else y

/-- A tenancy Hold address register: bits [31:0] (R100). -/
def Tile.holdAddr (x : Tile) (w : Fields) : Nat := (x.areg w.a.toNat).toNat % 2 ^ 32

/-- A virtual address register. Bits above 47 make a translation fault (R100). -/
def Tile.virtAddr (x : Tile) (w : Fields) : Nat := (x.areg w.a.toNat).toNat

def formHld : Form := { a := .a, b := .s, c := .s, mods := List.range 32, imm := 0x03FFFC00 }

/-- Tiles of a span that the mask of a broadcast names join its rendezvous (R101). Their own lengths and ranges play no part but
for those of the lowest column, which the rendezvous checks. -/
def Module.joinBcast (m : Module) (cx : Ctx) (mask : BitVec 16) (k : Tile → Transfer) : Module :=
  m.each cx fun u x => if mask.getLsbD u.col.val then { x with xfers := x.xfers ++ [k x] } else x

/-- HLD (R100, R101): with BCAST clear each tile transfers for itself and the mask field must be zero; with BCAST set a
tile of the mask joins the rendezvous, and a tile outside it does nothing. -/
def execHld (t : TileId) (w : Fields) (s : State) : Host.Outcome State Fault Refusal :=
  s.tileOp t 0x28 w formHld fun cx m =>
    let mask := BitVec.ofNat 16 (immBits w 10 16)
    if !w.mod.getLsbD 4 then
      if mask ≠ 0 then .ok (m.haltTile cx.o cause.unused)
      else m.issueTransfers cx 0x28 w .hld false true (fun x => x.holdAddr w)
    else if m.transfersFull cx then .ok (m.waitOn cx 0x28 w)
    else .ok (m.joinBcast cx mask (fun x => x.transfer .hld w (x.holdAddr w) (some mask)))

def formStore : Form := { a := .a, b := .s, c := .s, mods := List.range 16 }

/-- HST (R100): bay to Hold, staged at completion unless the destination is a SCRATCH buffer (R87). -/
def execHst (t : TileId) (w : Fields) (s : State) : Host.Outcome State Fault Refusal :=
  s.tileOp t 0x29 w formStore fun cx m => m.issueTransfers cx 0x29 w .hst true true (fun x => x.holdAddr w)

/-- XLD (R100): translated memory to bay. -/
def execXld (t : TileId) (w : Fields) (s : State) : Host.Outcome State Fault Refusal :=
  s.tileOp t 0x2A w formStore fun cx m => m.issueTransfers cx 0x2A w .xld false false (fun x => x.virtAddr w)

/-- XST (R100): bay to translated memory, staged at completion unless the destination is a SCRATCH buffer (R87). -/
def execXst (t : TileId) (w : Fields) (s : State) : Host.Outcome State Fault Refusal :=
  s.tileOp t 0x2B w formStore fun cx m => m.issueTransfers cx 0x2B w .xst true false (fun x => x.virtAddr w)

/-- The transfer is a WLD from Hold, which is on no tag. -/
def Transfer.isWld (k : Transfer) : Bool :=
  match k.kind with
  | .wld .. => true
  | _ => false

/-- A transfer is outstanding on a tag of the mask. -/
def Tile.outstanding (x : Tile) (mask : Nat) : Bool :=
  x.xfers.any (fun k => !k.isWld && bitsAt mask k.tag.toNat 1 == 1)

def formWaitt : Form := { imm := 0xFFFF }

/-- WAITT (R100): waits until no transfer is outstanding on any tag in the mask, in any tile of the span. -/
def execWaitt (t : TileId) (w : Fields) (s : State) : Host.Outcome State Fault Refusal :=
  s.tileOp t 0x2C w formWaitt fun cx m =>
    if (m.spanTiles cx.o).any (fun u => (m.tile u).outstanding (immBits w 0 16)) then .ok (m.waitOn cx 0x2C w)
    else .ok (m.retire cx)

/-- Put loaded bytes into the bay. The range was checked at issue. -/
def Tile.deliver (x : Tile) (a : Nat) (bs : List Byte) : Tile :=
  { x with bay := Mem.setBytes x.bay a bs, dirty := markDirty x.dirty a bs.length }

/-- A store of a tile: staged, within STAGE_LEN of the step, or applied at once (R87); a twin's has no effect (R413). -/
def Module.applyStore (m : Module) (u : TileId) (n : Nat) (r : Route) (p : Prog) (hold : Bool) (a : Nat)
    (bs : List Byte) : Module :=
  let x := m.tile u
  if m.isTwin u then m
  else if r.staged hold a bs.length then
    if p.stageLen < x.stagedBytes + bs.length then m.failRoute n ⟨st.resource, 0, a⟩
    else m.setTile u { x with staged := x.staged ++ [⟨hold, a, bs⟩], stagedBytes := x.stagedBytes + bs.length }
  else if hold then
    match m.writeHold r.ten.val a bs with
    | (.ok _, m) => m
    | (.error e, m) => m.failRoute n e
  else
    match m.writeVA (.fab u.cl) r.ten.val a bs with
    | (.ok _, m) => m
    | (.error e, m) => m.failRoute n e

/-- Put a weight block into the weight set of a WLD (R112, R117): 256 bytes of values, and 16 words of channel scales
where it names them. -/
def Tile.loadWeights (x : Tile) (set scales : Bool) (tag : BitVec 16) (bs : List Byte) : Tile :=
  let old := if set then x.set1 else x.set0
  let ws : WeightSet :=
    { entries := Mem.setBytes [] 0 (bs.take 256)
      scales := if scales then
          (List.range 16).foldl (fun a i => Map.set 0 a i (BitVec.ofNat 32 (fieldAt bs (256 + 4 * i) 4))) old.scales
        else old.scales
      tag := tag }
  if set then { x with set1 := ws } else { x with set0 := ws }

/-- The data of a finished load: into the bay, or into a weight set for a WLD from Hold. -/
def Tile.takeLoad (x : Tile) (k : Transfer) (bs : List Byte) : Tile :=
  match k.kind with
  | .wld scales set tag => x.loadWeights set scales tag bs
  | _ => x.deliver k.bay bs

/-- The transfers of a tile that may complete next on a tag: the oldest on it, and a WLD from Hold, which is on no tag and
completes under tag 0. A broadcast completes by its rendezvous. [log 25 DESIGN CHOICE] -/
def Tile.oldest (x : Tile) (tag : BitVec 4) : List Transfer :=
  ((x.xfers.find? (fun k => k.tag == tag && !k.isWld)).toList
    ++ (if tag = 0 then (x.xfers.find? (fun k => k.isWld)).toList else [])).filter (fun k => k.bcast.isNone)

/-- A load of these tiles failed (R102); where the uncorrectable errors that it read from Hold lie in berths and lean copies, the
tiles receive the data as read and the step goes on (R181). A path parity error is one of the whole range (R400). Where some of
the errors lie outside, R102 applies beside what R181 does for the areas. [log 184 DESIGN CHOICE] -/
def Module.failLoad (m : Module) (n : Nat) (r : Route) (us : List (TileId × Transfer)) (e : Fail) : Module :=
  match us with
  | [] => m
  | (u, k) :: _ =>
    match m.wrec r.ten.val, if e.status = st.data && k.kind != .xld then m.badHold r.ten.val k.addr k.len else none with
    | some w, some bad =>
      let bad := if bad.isEmpty then (List.range k.len).map (k.addr + ·) else bad
      if bad.any w.covers then
        let (bs, m) := m.holdAsRead r.ten.val k.addr k.len
        let m := us.foldl (fun m u => m.setTile u.1 ((m.tile u.1).takeLoad u.2 bs)) m
        let m := m.berthError r.ten (m.cl u.cl.val).step bad
        if bad.all w.covers then m else m.failRoute n e
      else m.failRoute n e
    | _, _ => m.failRoute n e

/-- The parity of the bytes that a store takes from the bay, which the unit it goes to checks: an error there is a tile fault for
the bay (R400). [log 196 DEDUCED] -/
def Module.storePath (m : Module) (t : TileId) (ten : Nat) (hold : Bool) : Bool × Module :=
  let (bad, m) := m.pathCheck (if hold then .hld else .mem) ten
  if bad then
    let off := m.siteOffset t.cl.val t.row.val t.col.val
    (true, (m.noteSite t.cl t.row.val off .bayParity).siteFault t.cl.val t.row.val off false false)
  else (false, m)

/-- A transfer of a tile completes: a load puts its data into the bay or the weight set; a store reads its source bytes and is
staged or applied (R100). -/
def Module.completeTransfer (m : Module) (t : TileId) (n : Nat) (r : Route) (p : Prog) (k : Transfer) : Module :=
  let x := m.tile t
  let m := m.setTile t { x with xfers := x.xfers.erase k }
  let x := m.tile t
  let store := fun (hold : Bool) =>
    match m.storePath t r.ten.val hold with
    | (true, m) => m
    | (false, m) => m.applyStore t n r p hold k.addr (Mem.bytes x.bay k.bay k.len)
  match k.kind with
  | .hst => store true
  | .xst => store false
  | .xld =>
    match m.readVA (.fab t.cl) r.ten.val k.addr k.len with
    | (.ok bs, m) => m.setTile t (x.takeLoad k bs)
    | (.error e, m) => m.failLoad n r [(t, k)] e
  | _ =>
    match m.readHold (.fab t.cl) r.ten.val k.addr k.len with
    | (.ok bs, m) => m.setTile t (x.takeLoad k bs)
    | (.error e, m) => m.failLoad n r [(t, k)] e

/-- TRANSFER_COMPLETE (R100): the oldest transfer of the tile on the tag completes. Which of a tag-0 transfer and a WLD comes
first is open: a free value. -/
def execTransferComplete (t : TileId) (tag : BitVec 4) (s : State) : Host.Outcome State Fault Refusal :=
  s.run fun m =>
    match m.stageOf t.cl.val, (m.tile t).oldest tag with
    | some (n, r, sg), [k] => m.completeTransfer t n r sg.prog k
    | some (n, r, sg), k :: j :: _ =>
      m.drawn.completeTransfer t n r sg.prog (if Config.freeBool m.freeIx then k else j)
    | _, _ => m

/-- The broadcast of a tile with a mask and of a kind (HLD or WLD), if it is the oldest transfer on its tag (R100, R101,
R117). -/
def Tile.bcast (x : Tile) (mask : BitVec 16) (wld : Bool) : Option Transfer :=
  match x.xfers.find? (fun k => k.bcast == some mask && k.isWld == wld) with
  | some k => if x.xfers.find? (fun j => j.tag == k.tag && j.isWld == wld) == some k then some k else none
  | none => none

/-- The logical tiles of a row that a mask names (R35). -/
def maskTiles (c : Cluster) (row : Fin 16) (mask : BitVec 16) : List TileId :=
  ((List.finRange 16).filter (fun j => mask.getLsbD j.val)).map (fun j => ⟨c, row, j⟩)

/-- The kind of broadcast, HLD or WLD, for which every tile of the mask is ready. -/
def Module.bcastKind (m : Module) (us : List TileId) (mask : BitVec 16) : Option Bool :=
  [false, true].find? (fun wld => us.all (fun u => ((m.tile u).bcast mask wld).isSome))

/-- HLD_BCAST_RENDEZVOUS (R35, R101, R117): once every tile of the mask has issued a broadcast with the same mask, the row
lane performs the transfer once, at the address and length of the lowest column; every tile of the mask takes the data
at its own bay address or weight set. Where WLDs of one mask differ in SCALES, the manual is silent: the length is that of the
lowest column's WLD, and each tile takes scales from those bytes as its own SCALES says. [log 173 DESIGN CHOICE] -/
def execHldBcastRendezvous (c : Cluster) (row : Fin 16) (mask : BitVec 16) (s : State) :
    Host.Outcome State Fault Refusal :=
  s.run fun m =>
    let us := maskTiles c row mask
    match m.stageOf c.val, us, m.bcastKind us mask with
    | some (n, r, _), u0 :: _, some wld =>
      match (m.tile u0).bcast mask wld with
      | none => m
      | some k0 =>
        let ks := us.filterMap (fun u => ((m.tile u).bcast mask wld).map (fun k => (u, { k with len := k0.len })))
        if ks.any (fun u => (transferFault u.2.bay k0.len).isSome) then m.undefined r.ten
        else
          let m := us.foldl (fun m u =>
            let x := m.tile u
            match x.bcast mask wld with
            | some k => m.setTile u { x with xfers := x.xfers.erase k }
            | none => m) m
          if k0.len = 0 then m
          else
            match m.readHold (.fab c) r.ten.val k0.addr k0.len with
            | (.error e, m) => m.failLoad n r ((u0, k0) :: ks.drop 1) e
            | (.ok bs, m) => ks.foldl (fun m u => m.setTile u.1 ((m.tile u.1).takeLoad u.2 bs)) m
    | _, _, _ => m

end Sys2Proof.Machine
end

