-- ==== Sys2Proof/Machine/TileArray.lean ====
section
/-! DEFINITION. Machine/TileArray.lean: the array instructions (R64 to R71, R110 to R127, R133). -/

namespace Sys2Proof.Machine

/-- The halt causes that R127 adds. -/
abbrev cause.noMarker : Nat := 11
abbrev cause.format : Nat := 12

/-! ## Weight sets (R110, R117, R118) -/

/-- The active weight set. -/
def Tile.activeSet (x : Tile) : WeightSet := if x.active then x.set1 else x.set0
/-- The shadow weight set. -/
def Tile.shadowSet (x : Tile) : WeightSet := if x.active then x.set0 else x.set1

/-- Some tile of the span has a WLD that has not completed. -/
def Module.wldBusy (m : Module) (cx : Ctx) : Bool := (m.spanTiles cx.o).any (fun u => (m.tile u).xfers.any Transfer.isWld)

/-- The form of a WLD word: a bay source reads a scalar register and has no mask, a Hold source reads an address register
and has a mask only in a broadcast. -/
def formWld (w : Fields) : Form :=
  { a := if w.mod.getLsbD 0 then .a else .s, b := .s, mods := [0, 1, 3, 4, 5, 7]
    imm := if w.mod.getLsbD 1 then 0x03FFFC00 else 0 }

/-- The transfer of a WLD from Hold, into the shadow set of its tile. -/
def Tile.wldTransfer (x : Tile) (w : Fields) : Transfer :=
  let scales := w.mod.getLsbD 2
  { kind := .wld scales (!x.active) ((x.sreg w.b.toNat).setWidth 16)
    tag := 0, bay := 0, addr := x.holdAddr w, len := if scales then 320 else 256
    bcast := if w.mod.getLsbD 1 then some (BitVec.ofNat 16 (immBits w 10 16)) else none }

/-- WLD (R117): a weight block, and the channel scales with SCALES, from the bay at once, from Hold as a transfer, or from Hold by
the rendezvous of a broadcast. -/
def execWld (t : TileId) (w : Fields) (s : State) : Host.Outcome State Fault Refusal :=
  s.tileOp t 0x40 w (formWld w) fun cx m =>
    let scales := w.mod.getLsbD 2
    let mask := BitVec.ofNat 16 (immBits w 10 16)
    if m.wldBusy cx then .ok (m.waitOn cx 0x40 w)
    else if !w.mod.getLsbD 0 then
      m.eachE cx fun _ x => do
        let bs ← x.bayRead (x.sreg w.a.toNat).toNat (if scales then 320 else 256)
        return x.loadWeights (!x.active) scales ((x.sreg w.b.toNat).setWidth 16) bs
    else if w.mod.getLsbD 1 then .ok (m.joinBcast cx mask (fun x => x.wldTransfer w))
    else
      match m.checkTransfers cx.o.cl cx.r.ten.val false true
          ((m.spanTiles cx.o).map (fun u => let k := (m.tile u).wldTransfer w; (k.addr, k.len))) with
      | (some e, m) => .ok (m.failRoute cx.n e)
      | (none, m) => .ok (m.each cx (fun _ x => { x with xfers := x.xfers ++ [x.wldTransfer w] }))

/-- Exchange the roles of the two sets. -/
def Tile.flip (x : Tile) : Tile := { x with active := !x.active }

def formWflip : Form := { mods := [0, 1] }

/-- WFLIP (R118): PLAIN flips every tile; MARKER flips where every tile's shadow tag equals the marker's VERSION and clears
the latches, halts with NO_MARKER where the origin holds none, and otherwise ends the command with VERSION_MISMATCH. The marker is
the one that the origin holds. -/
def execWflip (t : TileId) (w : Fields) (s : State) : Host.Outcome State Fault Refusal :=
  s.tileOp t 0x41 w formWflip fun cx m =>
    if m.wldBusy cx then .ok (m.waitOn cx 0x41 w)
    else if w.mod.toNat = 1 then .ok (m.each cx (fun _ x => x.flip))
    else
      match (m.tile cx.o).marker with
      | none => .ok (m.haltTile cx.o cause.noMarker)
      | some mr =>
        if (m.spanTiles cx.o).all (fun u => mr.version == (m.tile u).shadowSet.tag) then
          .ok (m.each cx (fun _ x => { x.flip with marker := none }))
        else .ok (m.failRoute cx.n ⟨st.version, 0, 0⟩)

/-! ## Operands of MMA (R64, R112, R113) -/

/-- The pairings of R64: whether the accumulator is INT32. -/
def pairing : Fmt → Fmt → Option Bool
  | .int8, .int8 => some true
  | .int8, .int4 => some true
  | .int4, .int4 => some true
  | .e4m3, .e4m3 => some false
  | .e4m3, .e5m2 => some false
  | .e5m2, .e4m3 => some false
  | .e5m2, .e5m2 => some false
  | .bf16, .bf16 => some false
  | .fp16, .fp16 => some false
  | .fp32, .fp32 => some false
  | _, _ => none

/-- Reduction rows of a weight block (R112). -/
def ktOf : Fmt → Nat
  | .int4 => 32
  | .int8 | .e4m3 | .e5m2 => 16
  | .bf16 | .fp16 => 8
  | _ => 4

/-- The bits of element `k` of a packed row of bytes (R61, R113). -/
def elementBits (f : Fmt) (bs : List Byte) (k : Nat) : Nat :=
  if f = .int4 then bitsAt (fieldAt bs (k / 2) 1) (4 * (k % 2)) 4 else fieldAt bs (k * (f.bits / 8)) (f.bits / 8)

/-- The bits of the weight at reduction row `k`, column `j` (R112). -/
def weightBits (f : Fmt) (ws : WeightSet) (k j : Nat) : Nat :=
  let e := fun i => (Mem.byte ws.entries (16 * i + j)).toNat
  match f with
  | .int4 => bitsAt (e (k / 2)) (4 * (k % 2)) 4
  | .int8 | .e4m3 | .e5m2 => e k
  | .bf16 | .fp16 => e (2 * k) + 256 * e (2 * k + 1)
  | _ => e (4 * k) + 256 * e (4 * k + 1) + 65536 * e (4 * k + 2) + 16777216 * e (4 * k + 3)

/-- Bytes of a token row (R113). -/
def rowBytes (tok wgt : Fmt) : Nat := if tok = .int8 ∧ wgt = .int4 then 32 else 16

/-! ## MMA (R120, R65, R66) -/

/-- The identity of a mode (R120). -/
def mmaIdentity (mode : Nat) (int : Bool) : Word :=
  match mode with
  | 3 => if int then 0x7FFFFFFF#32 else 0x7F800000#32
  | 4 | 5 => if int then 0x80000000#32 else 0xFF800000#32
  | _ => 0

/-- One step of the reduction: exact, then rounded or clamped once (R65, R120). -/
def mmaStep (mode : Nat) (int : Bool) (x : Word) (a b : Ex) : Word × AFlags :=
  if int then
    let p := a.num
    let q := b.num
    let y := x.toInt
    sat32 (match mode with
      | 0 => y + p * q
      | 1 => y + (p - q).natAbs
      | 2 => y + (p - q) * (p - q)
      | 3 => min y (p + q)
      | _ => max y (p + q))
  else
    let y := f32 x
    toF32 (match mode with
      | 0 => y.add (a.mul b)
      | 1 => y.add (a.sub b).abs
      | 2 => y.add ((a.sub b).mul (a.sub b))
      | 3 => Ex.min y (a.add b)
      | _ => Ex.max y (a.add b))

/-- What an MMA word asks for. -/
structure Mma where
  mode : Nat
  bank : Bool
  zero : Bool
  tok : Fmt
  wgt : Fmt
  int : Bool
  deriving DecidableEq, Repr

/-- One tile adds its products to the partial sum of row `row` and column `j`, `k` ascending. -/
def Tile.addProducts (x : Tile) (q : Mma) (w : Fields) (row j : Nat) (acc : Word) : Word × AFlags :=
  let rb := rowBytes q.tok q.wgt
  let bs := Mem.bytes x.bay ((x.sreg w.a.toNat).toNat + rb * row) rb
  (List.range (ktOf q.wgt)).foldl (fun y k =>
    let r := mmaStep q.mode q.int y.1 (q.tok.decode (elementBits q.tok bs k))
      (q.wgt.decode (weightBits q.wgt x.activeSet k j))
    (r.1, y.2.join r.2)) (acc, .none)

/-- A bank of a tile. -/
def Tile.acc (x : Tile) (bank : Bool) (i j : Nat) : Word := Map.get 0 (if bank then x.acc1 else x.acc0) (16 * i + j)

/-- The partial sum passes down the span's rows in a column; the flags of each row's additions, in order (R114). [log 21 DEDUCED] -/
def passRows (q : Mma) (w : Fields) (row j : Nat) : List Tile → Word → Word × List AFlags
  | [], acc => (acc, [])
  | x :: rest, acc =>
    let r := x.addProducts q w row j acc
    let r' := passRows q w row j rest r.1
    (r'.1, r.2 :: r'.2)

/-- The home block of one tile: 256 results, and the flags that each row's tile raises for it. -/
def homeBlock (q : Mma) (w : Fields) (home : Tile) (r : Nat) (column : List Tile) : List (Nat × Word × List AFlags) :=
  (List.range 256).map (fun e =>
    let start := if q.zero then mmaIdentity q.mode q.int else home.acc q.bank (e / 16) (e % 16)
    (e, passRows q w (16 * r + e / 16) (e % 16) column start))

/-- Put results into a bank. -/
def Tile.setBank (x : Tile) (bank float : Bool) (vs : List (Nat × Word)) : Tile :=
  let put := fun (a : Map Word) => vs.foldl (fun a v => Map.set 0 a v.1 v.2) a
  if bank then { x with acc1 := put x.acc1, float1 := float } else { x with acc0 := put x.acc0, float0 := float }

/-- One column of a span: every home block, then the flags of every tile. -/
def Module.mmaColumn (m : Module) (q : Mma) (w : Fields) (us : List TileId) : Module :=
  let column := us.map m.tile
  let blocks := (List.range us.length).map (fun r => homeBlock q w ((column[r]?).getD .reset) r column)
  (List.range us.length).foldl (fun m r =>
    match us[r]?, blocks[r]? with
    | some u, some b =>
      let x := (m.tile u).setBank q.bank (!q.int) (b.map (fun v => (v.1, v.2.1)))
      let fs := joinAll (blocks.flatMap (fun b => b.map (fun v => (v.2.2[r]?).getD .none)))
      m.setTile u (x.flag fs)
    | _, _ => m) m

/-- The columns of a span, each from row 0 down. -/
def Module.spanColumns (m : Module) (cx : Ctx) : List (List TileId) :=
  let s := m.spanSide cx.o.cl.val
  (List.range s).map (fun j => (List.range s).map (fun i =>
    ⟨cx.o.cl, Fin.ofNat 16 (cx.o.row.val + i), Fin.ofNat 16 (cx.o.col.val + j)⟩))

/-- CMPMAX of one tile (R121): the running maximum and its index, element order ascending. -/
def Tile.cmpmax (x : Tile) (q : Mma) (w : Fields) : Tile :=
  let kt := ktOf q.wgt
  let base := (x.sreg w.a.toNat).toNat
  let nan := fun (v : Word) => !q.int && (f32 v).isNaN
  let gt := fun (v u : Word) => if q.int then BitVec.slt u v else Ex.lt (f32 u) (f32 v)
  let res := (List.range 256).map (fun e =>
    let i := e / 16
    let j := e % 16
    let bs := Mem.bytes x.bay (base + 256 * i + 16 * j) 16
    let start := if q.zero then (mmaIdentity 5 q.int, 0xFFFFFFFF#32) else (x.acc false i j, x.acc true i j)
    (e, (List.range kt).foldl (fun (y : (Word × Word) × AFlags) k =>
      let a := q.tok.decode (elementBits q.tok bs k)
      let b := q.wgt.decode (weightBits q.wgt x.activeSet k j)
      let v := if q.int then sat32 (a.num + b.num) else toF32 (a.add b)
      let take := !nan y.1.1 && (nan v.1 || gt v.1 y.1.1)
      let z := if take then (v.1, x.sreg w.b.toNat + BitVec.ofNat 32 (kt * j + k)) else y.1
      (z, (y.2.join v.2).join ⟨false, false, nan z.1⟩)) (start, AFlags.none)))
  let x := x.setBank false (!q.int) (res.map (fun v => (v.1, v.2.1.1)))
  let x := x.setBank true false (res.map (fun v => (v.1, v.2.1.2)))
  x.flag (joinAll (res.map (·.2.2)))

/-- The form of an MMA word; Skaesque 2 has modes 0 to 2 only (R133). -/
def formMma (skq2 : Bool) (w : Fields) : Form :=
  { a := .s, b := if w.mod.toNat % 8 = 5 then .s else .none, imm := 0xFF
    mods := (List.range 32).filter (fun v =>
      decide (v % 8 ≤ (if skq2 then 2 else 5)) && !(v % 8 == 5 && v / 8 % 2 == 1)) }

/-- The decoded request of an MMA word whose formats pair (R64, R121, R133). -/
def mmaOf (skq2 : Bool) (w : Fields) : Option Mma :=
  match Fmt.ofCode (immBits w 0 4), Fmt.ofCode (immBits w 4 4) with
  | some tok, some wgt =>
    if skq2 && (tok == .e5m2 || wgt == .e5m2) then none
    else if w.mod.toNat % 8 = 5 ∧ tok.bits ≠ wgt.bits then none
    else (pairing tok wgt).map (fun int => ⟨w.mod.toNat % 8, w.mod.getLsbD 3, w.mod.getLsbD 4, tok, wgt, int⟩)
  | _, _ => none

/-- MMA (R120, R121). A token block that reaches 0x1_0000 is a misuse case (R134). -/
def execMma (t : TileId) (w : Fields) (s : State) : Host.Outcome State Fault Refusal :=
  s.tileOpBy t 0x44 w (fun k => (formMma k w).illegal k w) fun cx m =>
    match mmaOf cx.sg.prog.skq2 w with
    | none => .ok (m.haltTile cx.o cause.format)
    | some q =>
      let side := m.spanSide cx.o.cl.val
      let len := if q.mode = 5 then 4096 else 16 * side * rowBytes q.tok q.wgt
      if (m.spanTiles cx.o).any (fun u => decide (0x10000 < ((m.tile u).sreg w.a.toNat).toNat + len)) then
        .error .bayRange
      else if q.mode = 5 then .ok (m.each cx (fun _ x => x.cmpmax q w))
      else .ok (((m.spanColumns cx).foldl (fun m us => m.mmaColumn q w us) m).retire cx)

/-! ## Quantisation and drain (R67 to R71, R123 to R125) -/

/-- The address of row `i`: (s[a] + s[b]·i) modulo 2^32. -/
def Tile.rowAddr (x : Tile) (w : Fields) (i : Nat) : Nat :=
  (x.sreg w.a.toNat + x.sreg w.b.toNat * BitVec.ofNat 32 i).toNat

/-- The FP32 elements of a row. -/
def Tile.rowWords (x : Tile) (w : Fields) (i n : Nat) : Except Misuse (List Word) := do
  let bs ← x.bayRead (x.rowAddr w i) (4 * n)
  return (List.range n).map (fun k => BitVec.ofNat 32 (fieldAt bs (4 * k) 4))

/-- The canonical FP32 NaN. -/
def nan32 : Word := 0x7FC00000#32

/-- max(start, |x|) over the elements of a row, NaN where an element is not finite (R67, R71). Where it meets a −0 and a +0 its
sign is that of every maximum of mixed zeros. [log 20 DEDUCED] [log 17 DESIGN CHOICE] -/
def absMax (start : Word) (xs : List Word) : Word :=
  if xs.any (fun v => !(f32 v).isFinite) then nan32
  else xs.foldl (fun a v => (toF32 (Ex.max (f32 a) (f32 v).abs)).1) start

/-- The quantisation targets. -/
def quantFmt (k : Nat) : Option Fmt :=
  match Fmt.ofCode k with
  | some .int8 => some .int8
  | some .int4 => some .int4
  | some .e4m3 => some .e4m3
  | some .e5m2 => some .e5m2
  | _ => none

/-- The legality of a QSCAN word (R116, R123, R133). -/
def qscanBad (skq2 : Bool) (w : Fields) : Option Nat :=
  let finish := w.mod.toNat == 2
  let form : Form := { a := if finish then .none else .s, b := if finish then .none else .s, mods := [0, 1, 2]
                       imm := if finish then 0xF else 0x03FF0000 }
  if skq2 then some cause.opcode
  else (form.illegal skq2 w).orElse (fun _ =>
    let n := immBits w 16 10
    if !finish && (n == 0 || decide (64 < n)) then some cause.unused
    else if finish && (quantFmt (immBits w 0 4)).isNone then some cause.format
    else none)

/-- QSCAN (R67, R71, R123): START and ACC take the absolute maximum of 16 rows, FINISH divides by Q. -/
def execQscan (t : TileId) (w : Fields) (s : State) : Host.Outcome State Fault Refusal :=
  s.tileOpBy t 0x48 w (fun k => qscanBad k w) fun cx m =>
    if w.mod.toNat = 2 then
      let q := ((quantFmt (immBits w 0 4)).map Fmt.q).getD 1
      .ok (m.each cx (fun _ x => { x with ts := (List.range 16).foldl (fun a i =>
        Map.set 0 a i (toF32 ((f32 (Map.get 0 a i)).div (.fin false q 1))).1) x.ts }))
    else
      let n := 32 * immBits w 16 10
      m.eachE cx fun _ x => do
        let ts ← (List.range 16).foldlM (fun a i => do
          let xs ← x.rowWords w i n
          return Map.set 0 a i (absMax (if w.mod.toNat = 0 then 0 else Map.get 0 x.ts i) xs)) x.ts
        return { x with ts := ts }

/-- Quantise one element (R68, R71). -/
def quantise (f : Fmt) (ts x : Word) : Nat × AFlags :=
  let inv : AFlags := ⟨false, false, !(f32 ts).isFinite⟩
  if (f32 ts).isNaN then (0, inv)
  else if (f32 ts).isZero && (f32 x).isFinite then (0, .none)
  else let r := f.encode ((f32 x).div (f32 ts)); (r.1, r.2.join inv)

/-- Pack elements of a format into bytes, lowest first (R61). -/
def packBytes (f : Fmt) (vs : List Nat) : List Byte :=
  if f = .int4 then
    (List.range (vs.length / 2)).map (fun k => byteOf (vs.getD (2 * k) 0 + 16 * vs.getD (2 * k + 1) 0))
  else vs.flatMap (fun v => leBytes (f.bits / 8) v)

/-- Elements of a chunk of QCVT (R124). -/
def chunkElems (f : Fmt) (wide : Bool) : Nat := (if wide then 32 else 16) * 8 / f.bits

/-- The legality of a QCVT word (R116, R124). -/
def qcvtBad (skq2 : Bool) (w : Fields) : Option Nat :=
  let form : Form := { a := .s, b := .s, c := .s, imm := 0x03FF001F }
  (form.illegal skq2 w).orElse (fun _ =>
    let n := immBits w 16 10
    if n = 0 ∨ 64 < n then some cause.unused
    else
      match quantFmt (immBits w 0 4) with
      | none => some cause.format
      | some f => if (32 * n) % chunkElems f (immBits w 4 1 == 1) ≠ 0 then some cause.unused else none)

/-- The chunks that QCVT writes for a row: address and bytes of each, and the flags raised. -/
def Tile.qcvtRow (x : Tile) (w : Fields) (f : Fmt) (i n : Nat) : Except Misuse (List (Nat × List Byte) × AFlags) := do
  let xs ← x.rowWords w i n
  let wd := if immBits w 4 1 = 1 then 32 else 16
  let e := chunkElems f (immBits w 4 1 == 1)
  let qs := xs.map (quantise f (Map.get 0 x.ts i))
  let dst := (x.sreg (spec3 w)).toNat
  return ((List.range (n / e)).map (fun k =>
    (dst + 16 * wd * k + wd * i, packBytes f (((qs.drop (e * k)).take e).map (·.1)))), joinAll (qs.map (·.2)))

/-- QCVT (R68, R71, R124). -/
def execQcvt (t : TileId) (w : Fields) (s : State) : Host.Outcome State Fault Refusal :=
  s.tileOpBy t 0x49 w (fun k => qcvtBad k w) fun cx m =>
    match quantFmt (immBits w 0 4) with
    | none => .ok (m.haltTile cx.o cause.format)
    | some f =>
      m.eachE cx fun _ x => do
        let rows ← (List.range 16).mapM (fun i => x.qcvtRow w f i (32 * immBits w 16 10))
        let y ← (rows.flatMap (·.1)).foldlM (fun (y : Tile) p => y.bayWrite p.1 p.2) x
        return y.flag (joinAll (rows.map (·.2)))

def formTsmv (w : Fields) : Form :=
  { d := if w.mod.toNat = 0 then .none else .v, a := if w.mod.toNat = 0 then .v else .none, mods := [0, 1, 2] }

/-- TSMV (R126): token scales from a vector register, or token or active channel scales into one. -/
def execTsmv (t : TileId) (w : Fields) (s : State) : Host.Outcome State Fault Refusal :=
  s.tileOp t 0x4A w (formTsmv w) fun cx m =>
    .ok (m.each cx (fun _ x =>
      if w.mod.toNat = 0 then
        { x with ts := (List.range 16).foldl (fun a i => Map.set 0 a i (x.lane w.a.toNat i)) x.ts }
      else
        let src := if w.mod.toNat = 1 then x.ts else x.activeSet.scales
        x.setLanes w.d.toNat 0xFFFFFFFF#32 (fun l => if l < 16 then Map.get 0 src l else 0)))

/-- The destinations of ADRAIN: INT32 only without scaling (R69, R125). -/
def drainFmt (k : Nat) (noscale : Bool) : Option Fmt :=
  match Fmt.ofCode k with
  | some .int32 => if noscale then some .int32 else none
  | some .int8 => none
  | some .int4 => none
  | x => x

/-- The element that ADRAIN writes, and its flags (R69, R71). With a NaN token scale it is the canonical NaN of the format, or 0
for INT32, scaled or not; with a zero one every finite product is +0. [log 174 DEDUCED] -/
def Tile.drainElem (x : Tile) (bank noscale : Bool) (f : Fmt) (i j : Nat) : Nat × AFlags :=
  let v := x.acc bank i j
  let a := if (if bank then x.float1 else x.float0) then f32 v else Ex.ofInt v.toInt
  let ts := f32 (Map.get 0 x.ts i)
  if ts.isNaN then (f.nanBits, ⟨false, false, true⟩)
  else if noscale then f.encode a
  else
    let p := (a.mul ts).mul (f32 (Map.get 0 x.activeSet.scales j))
    let p := if ts.isZero && p.isZero then .fin false 0 1 else p
    let r := f.encode p
    (r.1, r.2.join ⟨false, false, !ts.isFinite⟩)

def formAdrain : Form := { a := .s, b := .s, mods := [0, 1], imm := 0x1F }

/-- ADRAIN (R69, R71, R125): the home block of a bank, scaled or not, into the bay. -/
def execAdrain (t : TileId) (w : Fields) (s : State) : Host.Outcome State Fault Refusal :=
  s.tileOp t 0x4B w formAdrain fun cx m =>
    let noscale := immBits w 4 1 == 1
    match drainFmt (immBits w 0 4) noscale with
    | none => .ok (m.haltTile cx.o cause.format)
    | some f =>
      m.eachE cx fun _ x => do
        let rows := (List.range 16).map (fun i => (List.range 16).map (fun j =>
          x.drainElem (w.mod.getLsbD 0) noscale f i j))
        let y ← (List.range 16).foldlM (fun (y : Tile) i =>
          y.bayWrite (x.rowAddr w i) (packBytes f ((rows.getD i []).map (·.1)))) x
        return y.flag (joinAll (rows.flatMap (fun r => r.map (·.2))))

def formAfl : Form := { d := .s, mods := [0, 1] }

/-- AFL (R75, R126): reads the flags, and clears them with READ_CLEAR. -/
def execAfl (t : TileId) (w : Fields) (s : State) : Host.Outcome State Fault Refusal :=
  s.tileOp t 0x4C w formAfl fun cx m =>
    .ok (m.each cx (fun _ x =>
      let y := x.setS w.d.toNat (BitVec.ofNat 32 x.aflags.bits)
      if w.mod.toNat = 1 then { y with aflags := .none } else y))

end Sys2Proof.Machine
end

