-- ==== Sys2Proof/Machine/TileVector.lean ====
section
/-! DEFINITION. Machine/TileVector.lean: the vector instructions (R128 to R131) and the random instructions (R132, R278,
R281, R282). -/

namespace Sys2Proof.Machine

/-! ## Shapes of the vector forms (R128) -/

/-- The mod values of variants `vs` with any predicate register. -/
def vecMods (vs : List Nat) : List Nat := vs.flatMap (fun v => (List.range 8).map (fun p => 8 * v + p))

/-- The lanes that the predicate register of mod[2:0] includes. -/
def Tile.mask (x : Tile) (w : Fields) : Word := x.preg (w.mod.toNat % 8)

/-- The variant in mod[5:3]. -/
def variant (w : Fields) : Nat := w.mod.toNat / 8

/-- A form whose operation code in imm[7:0] must be listed: another code halts with MOD (R128). -/
def Form.withOps (f : Form) (ok : Nat → Bool) (w : Fields) : Form :=
  if ok (immBits w 0 8) then f else { f with mods := [] }

/-- Write the lanes under the mask with results that carry flags; the flags of the lanes written join the tile's. [log 15 DEDUCED] -/
def Tile.setLanesF (x : Tile) (d : Nat) (mask : Word) (f : Nat → Word × AFlags) : Tile :=
  (x.setLanes d mask (fun l => (f l).1)).flag
    (joinAll (((List.range 32).filter (fun l => mask.getLsbD l)).map (fun l => (f l).2)))

/-! ## Lane arithmetic -/

/-- The operations of VFOP (R128). [log 16 DEDUCED] -/
def vfopEx (op : Nat) (x y : Ex) : Ex :=
  match op with
  | 0 => x.add y
  | 1 => x.sub y
  | 2 => x.mul y
  | 3 => Ex.min x y
  | 4 => Ex.max x y
  | _ => x.div y

def formVfop : Form := { d := .v, a := .v, b := .v, mods := vecMods [0], imm := 0xFF }

/-- VFOP (R128): FP32 arithmetic by lanes, rounded once by R62. -/
def execVfop (t : TileId) (w : Fields) (s : State) : Host.Outcome State Fault Refusal :=
  s.tileOp t 0x80 w (formVfop.withOps (· < 6) w) fun cx m =>
    .ok (m.each cx (fun _ x => x.setLanesF w.d.toNat (x.mask w) (fun l =>
      toF32 (vfopEx (immBits w 0 8) (f32 (x.lane w.a.toNat l)) (f32 (x.lane w.b.toNat l))))))

def formVfma : Form := { d := .v, a := .v, b := .v, c := .v, mods := vecMods [0, 1, 2] }

/-- a·b + c, a·b − c or −a·b + c, exact (R128). -/
def vfmaEx (var : Nat) (a b c : Ex) : Ex :=
  match var with
  | 0 => (a.mul b).add c
  | 1 => (a.mul b).sub c
  | _ => ((a.mul b).neg).add c

/-- VFMA (R128): one rounding of the whole operation. -/
def execVfma (t : TileId) (w : Fields) (s : State) : Host.Outcome State Fault Refusal :=
  s.tileOp t 0x81 w formVfma fun cx m =>
    .ok (m.each cx (fun _ x => x.setLanesF w.d.toNat (x.mask w) (fun l =>
      toF32 (vfmaEx (variant w) (f32 (x.lane w.a.toNat l)) (f32 (x.lane w.b.toNat l)) (f32 (x.lane (spec3 w) l))))))

/-- VIOP (R128): the ALU operations of R97 by lanes. -/
def execViop (t : TileId) (w : Fields) (s : State) : Host.Outcome State Fault Refusal :=
  s.tileOp t 0x82 w (formVfop.withOps (· < 16) w) fun cx m =>
    .ok (m.each cx (fun _ x => x.setLanes w.d.toNat (x.mask w) (fun l =>
      aluOp (immBits w 0 8) (x.lane w.a.toNat l) (x.lane w.b.toNat l))))

/-! ## VFUN (R130) -/

/-- The exact value of FLOOR. -/
def Ex.floor : Ex → Ex
  | .fin neg n d => .fin neg (if neg then (n + d - 1) / d else n / d) 1
  | x => x

/-- A fixed choice, by input, among the FP32 values within one unit in the last place of an exact result: its rounded
value `mag`, or the neighbour on the side that `above` and `below` say the exact result lies on (R130: ≤ 1 ulp). -/
def oneUlp (code : Nat) (x : Word) (mag : Nat) (above below : Bool) : Nat :=
  let k := (Config.vfun code x).toNat % 3
  if k = 1 ∧ above ∧ mag + 1 < Fmt.fp32.infBits then mag + 1
  else if k = 2 ∧ below ∧ 0 < mag then mag - 1
  else mag

/-- RCP of a finite non-zero value (R130). -/
def rcpFin (x : Word) (neg : Bool) (n d : Nat) : Word × AFlags :=
  let r := toF32 (.fin false d n)
  if r.2.ovf then toF32 (.inf neg) |> fun y => (y.1, r.2)
  else
    let q := f32 r.1
    let exact := Ex.fin false d n
    let mag := oneUlp 4 x r.1.toNat (!Ex.lt exact q) (!Ex.lt q exact)
    (BitVec.ofNat 32 (Fmt.fp32.signed neg mag), .none)

/-- RSQRT of a positive finite value (R130). -/
def rsqrtFin (x : Word) (n d : Nat) : Word × AFlags :=
  let r := sqrtF32 (.fin false d n)
  let q := (f32 r.1).mul (f32 r.1)
  let exact := Ex.fin false d n
  (BitVec.ofNat 32 (oneUlp 6 x r.1.toNat (!Ex.lt exact q) (!Ex.lt q exact)), .none)

/-- Keep a free result between two limits (R130: the functions saturate to their limits). -/
def clampEx (lo hi : Ex) (v : Word) : Word × AFlags :=
  let y := f32 v
  if y.isNaN || Ex.lt y lo then toF32 lo else if Ex.lt hi y then toF32 hi else (v, .none)

/-- The result for a finite input of a function whose accuracy alone the manual states: within 2 ulp; beyond 2^16 SIN and COS
give a fixed value in [−1, 1]. -/
def vfunFree (code : Nat) (x : Word) (neg : Bool) (n d : Nat) : Word × AFlags :=
  let one := Ex.fin false 1 1
  if 9 ≤ code ∧ 65536 * d < n then clampEx one.neg one (Config.vfun code x) else elementary code x neg n d

/-- VFUN of one lane (R130): the special results of its table, and the functions' own limits at the infinities. -/
def vfun (code : Nat) (x : Word) : Word × AFlags :=
  let one := Ex.fin false 1 1
  match code, f32 x with
  | _, .nan => toF32 .nan
  | 5, e => sqrtF32 e
  | 11, e => toF32 e.abs
  | 12, e => toF32 e.neg
  | 13, e => toF32 e.floor
  | 0, .inf neg => toF32 (if neg then .fin false 0 1 else .inf false)
  | 1, .inf neg => toF32 (if neg then .fin false 0 1 else .inf false)
  | 4, .inf neg => toF32 (.fin neg 0 1)
  | 7, .inf neg => toF32 (if neg then one.neg else one)
  | 8, .inf neg => toF32 (if neg then .fin false 0 1 else one)
  | 9, .inf _ => toF32 .nan
  | 10, .inf _ => toF32 .nan
  | 6, .inf neg => toF32 (if neg then .nan else .fin false 0 1)
  | _, .inf neg => toF32 (if neg then .nan else .inf false)
  | 2, .fin neg n d => if n = 0 then toF32 (.inf true) else if neg then toF32 .nan else vfunFree 2 x neg n d
  | 3, .fin neg n d => if n = 0 then toF32 (.inf true) else if neg then toF32 .nan else vfunFree 3 x neg n d
  | 4, .fin neg n d => if n = 0 then toF32 (.inf neg) else rcpFin x neg n d
  | 6, .fin neg n d => if n = 0 then toF32 (.inf neg) else if neg then toF32 .nan else rsqrtFin x n d
  | k, .fin neg n d => vfunFree k x neg n d

def formVfun : Form := { d := .v, a := .v, mods := vecMods [0], imm := 0xFF }

/-- VFUN (R130). -/
def execVfun (t : TileId) (w : Fields) (s : State) : Host.Outcome State Fault Refusal :=
  s.tileOp t 0x83 w (formVfun.withOps (· < 14) w) fun cx m =>
    .ok (m.each cx (fun _ x => x.setLanesF w.d.toNat (x.mask w) (fun l =>
      vfun (immBits w 0 8) (x.lane w.a.toNat l))))

/-! ## Comparison and selection (R128) -/

/-- The six relations by code, from "less" and "equal". -/
def relation (k : Nat) (lt eq : Bool) : Bool :=
  match k with
  | 0 => eq
  | 1 => !eq
  | 2 => lt
  | 3 => lt || eq
  | 4 => !lt && !eq
  | _ => !lt

/-- VCMP of one lane: false for every comparison with a NaN, except NE. -/
def vcmpLane (code : Nat) (x y : Word) : Bool :=
  if 8 ≤ code then relation (code - 8) (BitVec.slt x y) (x == y)
  else if (f32 x).isNaN || (f32 y).isNaN then code == 1
  else relation code (Ex.lt (f32 x) (f32 y)) (Ex.eq (f32 x) (f32 y))

/-- The word with bit `l` set where `f l` holds. -/
def maskOf (f : Nat → Bool) : Word := BitVec.ofNat 32 ((List.range 32).foldl (fun a l => if f l then a + 2 ^ l else a) 0)

def formVcmp : Form := { d := .p, a := .v, b := .v, mods := vecMods [0], imm := 0xFF }

/-- VCMP (R128): lanes with predicate 0 write 0. -/
def execVcmp (t : TileId) (w : Fields) (s : State) : Host.Outcome State Fault Refusal :=
  s.tileOp t 0x84 w (formVcmp.withOps (fun k => k < 6 || (8 ≤ k && k < 14)) w) fun cx m =>
    .ok (m.each cx (fun _ x => x.setP w.d.toNat (maskOf (fun l => (x.mask w).getLsbD l
      && vcmpLane (immBits w 0 8) (x.lane w.a.toNat l) (x.lane w.b.toNat l)))))

def formVsel : Form := { d := .v, a := .v, b := .v, mods := vecMods [0] }

/-- VSEL (R128): a where the predicate is 1, else b; no masking. -/
def execVsel (t : TileId) (w : Fields) (s : State) : Host.Outcome State Fault Refusal :=
  s.tileOp t 0x85 w formVsel fun cx m =>
    .ok (m.each cx (fun _ x => x.setLanes w.d.toNat 0xFFFFFFFF#32 (fun l =>
      if (x.mask w).getLsbD l then x.lane w.a.toNat l else x.lane w.b.toNat l)))

/-! ## VCVT (R129) -/

/-- The form of a VCVT word: b serves the packing variants, the format the packing and unpacking ones, and the part the
variants that name a half or a quarter. -/
def formVcvt (skq2 : Bool) (w : Fields) : Form :=
  let v := variant w
  { d := .v, a := .v, b := if v = 2 ∨ v = 4 then .v else .none
    mods := vecMods (if skq2 then [0, 1, 2, 3, 4, 5] else [0, 1, 2, 3, 4, 5, 6])
    imm := match v with
      | 2 => 0x0F0
      | 3 => 0x1F0
      | 4 => 0x1F0
      | 5 => 0x3F0
      | _ => 0 }

/-- The formats named for a variant (R129). -/
def vcvtFormats (v : Nat) : List Nat :=
  match v with
  | 2 | 3 => [4, 5]
  | 4 | 5 => [2, 3, 0]
  | _ => [0]

/-- Why a VCVT word is illegal (R83, R107, R129). [log 19 DEDUCED] -/
def vcvtIllegal (skq2 : Bool) (w : Fields) : Option Nat :=
  ((formVcvt skq2 w).illegal skq2 w).orElse (fun _ =>
    if (vcvtFormats (variant w)).contains (immBits w 4 4) then none else some cause.format)

/-- Convert an FP32 word into a narrow format. -/
def narrow (f : Fmt) (x : Word) : Nat × AFlags := f.encode (f32 x)

/-- Widen the bits of a format: to FP32, or to INT32 from INT8. -/
def widen (f : Fmt) (v : Nat) : Word × AFlags :=
  if f.isInt then (BitVec.ofInt 32 (f.decode v).num, .none) else toF32 (f.decode v)

/-- VCVT of one lane of a variant other than PACK8 (R129). -/
def vcvtLane (w : Fields) (fmt : Fmt) (a b : Nat → Word) (l : Nat) : Word × AFlags :=
  match variant w with
  | 0 => let r := narrow .int32 (a l); (BitVec.ofNat 32 r.1, r.2)
  | 1 => toF32 (Ex.ofInt (a l).toInt)
  | 2 =>
    let x := narrow fmt (a l)
    let y := narrow fmt (b l)
    (BitVec.ofNat 32 (x.1 + y.1 * 65536), x.2.join y.2)
  | 3 => widen fmt (bitsAt (a l).toNat (16 * immBits w 8 1) 16)
  | 5 =>
    let k := 32 * immBits w 8 2 + l
    widen fmt (bitsAt (a (k / 4)).toNat (8 * (k % 4)) 8)
  | _ => toF32 (.fin false (2 * ((a l).toNat / 512) + 1) (2 ^ 24))

/-- Lane `l` of the half that PACK8 writes: four elements, from a for lanes 0 to 7 of the half and from b above. -/
def pack8Lane (fmt : Fmt) (a b : Nat → Word) (l : Nat) : Word × AFlags :=
  (List.range 4).foldl (fun (acc : Word × AFlags) k =>
    let e := 4 * l + k
    let r := narrow fmt (if e < 32 then a e else b (e - 32))
    (acc.1 + BitVec.ofNat 32 (r.1 * 256 ^ k), acc.2.join r.2)) (0, .none)

/-- VCVT (R129). -/
def execVcvt (t : TileId) (w : Fields) (s : State) : Host.Outcome State Fault Refusal :=
  s.tileOpBy t 0x86 w (fun skq2 => vcvtIllegal skq2 w) fun cx m =>
    let fmt := (Fmt.ofCode (immBits w 4 4)).getD .int8
    .ok (m.each cx (fun _ x =>
      let a := x.lane w.a.toNat
      let b := x.lane w.b.toNat
      if variant w = 4 then
        let lo := 16 * immBits w 8 1
        x.setLanesF w.d.toNat (x.mask w &&& (0xFFFF#32 <<< lo)) (fun l => pack8Lane fmt a b (l - lo))
      else x.setLanesF w.d.toNat (x.mask w) (vcvtLane w fmt a b)))

/-! ## VRED (R131) -/

/-- The lanes that take part. -/
def lanesIn (mask : Word) : List Nat := (List.range 32).filter (fun l => mask.getLsbD l)

/-- ARGMAX or ARGMIN: the first NaN lane, else the lowest lane with the extreme value. -/
def argExtreme (better : Ex → Ex → Bool) (a : Nat → Word) (ls : List Nat) : Word :=
  match ls.find? (fun l => (f32 (a l)).isNaN) with
  | some l => BitVec.ofNat 32 l
  | none =>
    match ls with
    | [] => 0xFFFFFFFF#32
    | l :: rest => BitVec.ofNat 32 (rest.foldl (fun b k => if better (f32 (a k)) (f32 (a b)) then k else b) l)

/-- VRED (R131), with the flags of R75. -/
def vredOp (op : Nat) (mask : Word) (a : Nat → Word) : Word × AFlags :=
  let ls := lanesIn mask
  match op with
  | 0 =>
    let go := fun (x y : Word × AFlags) => let r := toF32 ((f32 x.1).add (f32 y.1)); (r.1, (x.2.join y.2).join r.2)
    treeFold go (0, .none) 32 ((List.range 32).map (fun l => (if mask.getLsbD l then a l else 0, AFlags.none)))
  | 1 => toF32 (ls.foldl (fun y l => Ex.max y (f32 (a l))) (.inf true))
  | 2 => toF32 (ls.foldl (fun y l => Ex.min y (f32 (a l))) (.inf false))
  | 3 => (argExtreme (fun x y => Ex.lt y x) a ls, .none)
  | 4 => (argExtreme Ex.lt a ls, .none)
  | 5 => (ls.foldl (fun y l => y + a l) 0, .none)
  | 6 => (ls.foldl (fun y l => if BitVec.slt y (a l) then a l else y) 0x80000000#32, .none)
  | _ => (ls.foldl (fun y l => if BitVec.slt (a l) y then a l else y) 0x7FFFFFFF#32, .none)

def formVred : Form := { d := .s, a := .v, mods := vecMods [0], imm := 0xFF }

/-- VRED (R131). -/
def execVred (t : TileId) (w : Fields) (s : State) : Host.Outcome State Fault Refusal :=
  s.tileOp t 0x87 w (formVred.withOps (· < 8) w) fun cx m =>
    .ok (m.each cx (fun _ x =>
      let r := vredOp (immBits w 0 8) (x.mask w) (x.lane w.a.toNat)
      (x.setS w.d.toNat r.1).flag r.2))

/-! ## Moves between lanes and scalars (R128) -/

def formVsplat : Form := { d := .v, a := .s, mods := vecMods [0] }

/-- VSPLAT (R128): every lane = s[a]. -/
def execVsplat (t : TileId) (w : Fields) (s : State) : Host.Outcome State Fault Refusal :=
  s.tileOp t 0x88 w formVsplat fun cx m =>
    .ok (m.each cx (fun _ x => x.setLanes w.d.toNat (x.mask w) (fun _ => x.sreg w.a.toNat)))

def formVget : Form := { d := .s, a := .v, b := .s }

/-- VGET (R128): s[d] = lane (s[b] mod 32) of v[a]. -/
def execVget (t : TileId) (w : Fields) (s : State) : Host.Outcome State Fault Refusal :=
  s.tileOp t 0x89 w formVget fun cx m =>
    .ok (m.each cx (fun _ x => x.setS w.d.toNat (x.lane w.a.toNat ((x.sreg w.b.toNat).toNat % 32))))

def formVput : Form := { d := .v, a := .s, b := .s }

/-- VPUT (R128): lane (s[b] mod 32) of v[d] = s[a]. -/
def execVput (t : TileId) (w : Fields) (s : State) : Host.Outcome State Fault Refusal :=
  s.tileOp t 0x8A w formVput fun cx m =>
    .ok (m.each cx (fun _ x => x.setLane w.d.toNat ((x.sreg w.b.toNat).toNat % 32) (x.sreg w.a.toNat)))

/-- VPERM (R128): lane i = lane (b_i mod 32) of a. -/
def execVperm (t : TileId) (w : Fields) (s : State) : Host.Outcome State Fault Refusal :=
  s.tileOp t 0x8B w formVsel fun cx m =>
    .ok (m.each cx (fun _ x => x.setLanes w.d.toNat (x.mask w) (fun l =>
      x.lane w.a.toNat ((x.lane w.b.toNat l).toNat % 32))))

/-- VIOTA (R128): lane i = s[a] + i. -/
def execViota (t : TileId) (w : Fields) (s : State) : Host.Outcome State Fault Refusal :=
  s.tileOp t 0x8C w formVsplat fun cx m =>
    .ok (m.each cx (fun _ x => x.setLanes w.d.toNat (x.mask w) (fun l => x.sreg w.a.toNat + BitVec.ofNat 32 l)))

/-! ## Random instructions (R132, R278) -/

/-- Word `w` of a 128-bit block. -/
def blockWord (b : Word × Word × Word × Word) (w : Nat) : Word :=
  match w with
  | 0 => b.1
  | 1 => b.2.1
  | 2 => b.2.2.1
  | _ => b.2.2.2

/-- The block that the route's seed, a stream number and a block index select (R278). -/
def drawBlock (seed : Word64) (stream : Word) (ix : Word64) : Word × Word × Word × Word :=
  philox (seed.setWidth 32) ((seed >>> 32).setWidth 32) (ix.setWidth 32) ((ix >>> 32).setWidth 32) stream 0

def formRnu : Form := { d := .v, a := .a, b := .s }

/-- RNU (R132, R282): lane 4·m + w = word w of block a[a] + m. -/
def execRnu (t : TileId) (w : Fields) (s : State) : Host.Outcome State Fault Refusal :=
  s.tileOp t 0xC0 w formRnu fun cx m =>
    .ok (m.each cx (fun _ x => x.setLanes w.d.toNat 0xFFFFFFFF#32 (fun l =>
      blockWord (drawBlock cx.r.seed (x.sreg w.b.toNat) (x.areg w.a.toNat + BitVec.ofNat 64 (l / 4))) (l % 4))))

/-- The 16-bit word `h` of a block (R132). -/
def blockHalf (b : Word × Word × Word × Word) (h : Nat) : Nat := bitsAt (blockWord b (h / 2)).toNat (16 * (h % 2)) 16

/-- Bits 32·l to 32·l + 31 of the mask of RNB (R281). -/
def rnbWord (seed : Word64) (stream : Word) (base : Word64) (p l : Nat) : Word :=
  maskOf (fun i =>
    let e := 32 * l + i
    decide (blockHalf (drawBlock seed stream (base + BitVec.ofNat 64 (e / 8))) (e % 8) < p))

/-- The form of an RNB word: a vector destination, or a predicate in the PRED form. -/
def formRnb (w : Fields) : Form :=
  { d := if w.mod.toNat = 1 then .p else .v, a := .a, b := .s, c := .s, mods := [0, 1] }

/-- RNB (R132, R281): each bit is 1 when its 16-bit word is below s[c][15:0]. -/
def execRnb (t : TileId) (w : Fields) (s : State) : Host.Outcome State Fault Refusal :=
  s.tileOp t 0xC1 w (formRnb w) fun cx m =>
    .ok (m.each cx (fun _ x =>
      let bits := rnbWord cx.r.seed (x.sreg w.b.toNat) (x.areg w.a.toNat) ((x.sreg (spec3 w)).toNat % 65536)
      if w.mod.toNat = 1 then x.setP w.d.toNat (bits 0) else x.setLanes w.d.toNat 0xFFFFFFFF#32 bits))

end Sys2Proof.Machine
end

