-- ==== Sys2Proof/Machine/Weights.lean ====
section
/-! DEFINITION. Machine/Weights.lean: VERS and its toll, the commands WEIGHT_LOAD, WEIGHT_SWAP, LEAN_BUILD and BASE_SHARE,
staging and fetching, and the swap front (R119, R159 to R181). -/

namespace Sys2Proof.Machine

/-! ## VERS (R119, R163) -/

/-- The form of a VERS word: ROUTE names a layer; a Skaesque 2 program has SETS only (R133). -/
def formVers (skq2 : Bool) (w : Fields) : Form :=
  { d := .s, a := if w.mod.toNat = 1 then .s else .none, mods := if skq2 then [0] else [0, 1] }

/-- The layer that a tile asks for. -/
def Tile.versLayer (x : Tile) (w : Fields) : Nat := (x.sreg w.a.toNat).toNat % 65536

/-- Count the tile-cycles that a span waited for its result; a measured amount, a free value. -/
def Module.countToll (m : Module) (cx : Ctx) : Module :=
  match (m.tile cx.o).core with
  | .waiting .. =>
    let n := Config.freeNat m.freeIx
    (m.drawn.addFld Fld.WGT_TEN_TOLL_CYCLES_CYCLES cx.r.ten.val 0 n).count 0x1001 cx.r.ten.val n
  | _ => m

/-- VERS with ROUTE for a span: ask for every tile's layer; when every result is available, write them and retire, else
wait for the toll. -/
def Module.versRoute (m : Module) (cx : Ctx) (w : Fields) : Module :=
  let ten := cx.r.ten.val
  let c := cx.o.cl.val
  let i := stageKey cx.n (m.cl c).stage
  let step := (m.cl c).step
  if cx.r.learning || (m.wrec ten).isNone then m.each cx (fun _ x => x.setS w.d.toNat 0)
  else
    let m := (m.spanTiles cx.o).foldl (fun m u => m.askLayer ten c i cx.sg step ((m.tile u).versLayer w)) m
    match m.wrec ten with
    | none => m
    | some rec =>
      if (m.spanTiles cx.o).all (fun u => (rec.versAnswer i cx.sg step ((m.tile u).versLayer w)).isSome) then
        (m.countToll cx).each cx (fun _ x =>
          x.setS w.d.toNat ((rec.versAnswer i cx.sg step (x.versLayer w)).getD 0))
      else m.waitOn cx 0x42 w

/-- VERS (R119): SETS reads the tags of the two weight sets, ROUTE asks the WGT block. -/
def execVers (t : TileId) (w : Fields) (s : State) : Host.Outcome State Fault Refusal :=
  s.tileOpBy t 0x42 w (fun skq2 => (formVers skq2 w).illegal skq2 w) fun cx m =>
    if w.mod.toNat = 0 then
      if m.wldBusy cx then .ok (m.waitOn cx 0x42 w)
      else .ok (m.each cx (fun _ x => x.setS w.d.toNat (x.shadowSet.tag ++ x.activeSet.tag)))
    else .ok (m.versRoute cx w)

/-- The span of an origin tile waits on VERS for a layer. -/
def Tile.waitsToll (x : Tile) (layer : Nat) : Option Fields :=
  match x.core with
  | .waiting op w => if op = 0x42 ∧ x.versLayer w = layer then some w else none
  | _ => none

/-- TOLL_RELEASE (R163): the layer has become readable, or is decided LEAN or BROKEN; the waiting results are
delivered. -/
def execTollRelease (route : Fin 256) (stage : Fin 64) (layer : BitVec 16) (s : State) :
    Host.Outcome State Fault Refusal :=
  s.run fun m =>
    (m.stageClusters route.val stage.val).foldl (fun m c =>
      (List.range 256).foldl (fun m k =>
        let t := tileOfKey (c * 256 + k)
        if m.origin t != t || !m.released c then m
        else
          match m.stageOf c, (m.tile t).waitsToll layer.toNat with
          | some (n, r, sg), some w => m.versRoute ⟨n, r, sg, t⟩ w
          | _, _ => m) m) m

/-! ## WEIGHT_LOAD (R160, R170) -/

/-- An entry of the layer table. -/
def layerOf (b : List Byte) : Layer where
  offset := fieldAt b 0 8
  bytes := fieldAt b 8 4
  leanOff := fieldAt b 12 4
  leanAddr := if fieldAt b 16 4 = 0xFFFFFFFF then none else some (fieldAt b 16 4)
  leanBytes := fieldAt b 20 4
  streamed := fieldAt b 24 1 == 1

/-- An entry is in range (R160). -/
def layerOk (size : Nat) (b : List Byte) : Bool :=
  let x := layerOf b
  x.offset % 4096 == 0 && x.bytes % 4096 == 0 && decide (4096 ≤ x.bytes) && decide (x.bytes ≤ size)
    && decide (fieldAt b 24 1 < 2) && zeroBytes b 25 7 && x.leanBytes % 4096 == 0
    && (match x.leanAddr with | some a => a % 4096 == 0 | none => x.leanBytes == 0)

/-- No two regions of the list overlap. -/
def regionsApart : List (Nat × Nat) → Bool
  | [] => true
  | (a, n) :: rest => rest.all (fun r => n == 0 || r.2 == 0 || !touches a n r.1 r.2) && regionsApart rest

/-- The Hold regions of a record: the berths and the lean copies. -/
def WRecord.regions (w : WRecord) : List (Nat × Nat) :=
  (w.base, w.count * w.size) :: w.layers.filterMap (fun x => x.leanAddr.map (fun a => (a, x.leanBytes)))

/-- The regions lie in the tenancy's Hold grant. -/
def Module.regionsGranted (m : Module) (ten : Nat) (rs : List (Nat × Nat)) : Bool :=
  rs.all (fun r => r.2 == 0 || (match m.holdRange ten r.1 r.2 true with | .ok _ => true | .error _ => false))

/-- Every slice range of a source is mapped for reading. -/
def Module.slicesMapped (m : Module) (ten src : Nat) (ls : List Layer) : Except Fail Unit × Module :=
  match ls with
  | [] => (.ok (), m)
  | x :: rest =>
    match m.mapped .wgt ten (src + x.offset) x.bytes false with
    | (.error e, m) => (.error e, m)
    | (.ok _, m) => m.slicesMapped ten src rest

/-- Stage the resident layers of a new record into berths 0 upward; answers whether every slice could be read. -/
def Module.stageResidents (m : Module) (id ten : Nat) (w : WRecord) : List Nat → Nat → Bool × WRecord × Module
  | [], _ => (true, w, m)
  | l :: rest, b =>
    match m.copySlice (some id) ten w l w.active b with
    | (false, m) => (false, w, m)
    | (true, m) => m.stageResidents id ten { w with berths := Map.insert w.berths b ⟨l, w.active, true⟩ } rest (b + 1)

/-- The entries of the layer table. -/
def layerEntries (n : Nat) (bs : List Byte) : List (List Byte) := (List.range n).map (fun i => (bs.drop (32 * i)).take 32)

/-- The record that WEIGHT_LOAD makes of its command, the tenancy's berth registers and the layer table (R160, R161). -/
def Module.newRecord (m : Module) (c : Cmd) (bs : List Byte) : WRecord where
  layers := (layerEntries (c.field 24 2) bs).map layerOf
  active := BitVec.ofNat 16 (c.field 26 2)
  source := c.field 16 8
  travel := none
  queued := none
  lean := []
  base := m.fld Fld.WGT_TEN_BERTH_BASE c.ten.val
  size := m.fld Fld.WGT_TEN_BERTH_BYTES_BYTES c.ten.val
  count := m.fld Fld.WGT_TEN_BERTH_COUNT c.ten.val
  berths := []
  broken := []
  restage := []
  settings := m.wgtRegs c.ten.val
  decided := []
  missed := []
  answers := []
  asked := []
  badSteps := []
  leanSteps := []
  past := []

/-- Rows 2 to 8 of R170; the tenancy has no record while they run. -/
def Module.loadWeights (m : Module) (id : Nat) (c : Cmd) : Module :=
  let ten := c.ten.val
  let n := c.field 24 2
  let count := m.fld Fld.WGT_TEN_BERTH_COUNT ten
  let base := m.fld Fld.WGT_TEN_BERTH_BASE ten
  let size := m.fld Fld.WGT_TEN_BERTH_BYTES_BYTES ten
  let m := m.dropWrec ten
  if n = 0 ∨ 1024 < n ∨ count = 0 ∨ 4094 < count ∨ base % 4096 ≠ 0 ∨ size = 0 ∨ size % 4096 ≠ 0 then m.finish id st.check
  else
    match m.readVA .wgt ten (c.field 8 8) (32 * n) with
    | (.error e, m) => m.finishFail id e
    | (.ok bs, m) =>
      let es := layerEntries n bs
      let w := m.newRecord c bs
      let res := w.residents.length
      if !es.all (layerOk size) || !regionsApart w.regions then m.finish id st.check
      else if count < res + 1 ∨ (res < n ∧ count < res + w.settings.depth) then m.finish id st.resource
      else if !m.regionsGranted ten w.regions then (m.violation ten .wgt).finish id st.isolation
      else
        match m.slicesMapped ten w.source w.layers with
        | (.error e, m) => m.finishFail id e
        | (.ok _, m) =>
          match m.stageResidents id ten w w.residents 0 with
          | (false, _, m) => m.finish id st.data
          | (true, w, m) => (m.setWrec ten w).finish id st.ok

/-- The tenancy has a generation route that has been started. -/
def Module.generates (m : Module) (t : Ten) : Bool :=
  m.routes.any (fun p => p.2.ten == t && !p.2.learning && p.2.state != .loaded)

/-- WEIGHT_LOAD (R170): the first row refuses without effect; every later failure leaves no weight record. [log 46 DEDUCED] -/
def execWeightLoad (id : Nat) (s : State) : Host.Outcome State Fault Refusal :=
  s.run fun m => m.withCmd id 0x10 fun c m =>
    let swapping := ((m.wrec c.ten.val).map (fun w => w.travel.isSome || w.queued.isSome)).getD false
    if c.ten = house ∨ m.generates c.ten ∨ swapping then m.finish id st.resource
    else m.loadWeights id c

/-! ## WEIGHT_SWAP (R20, R173) -/

/-- The latest version requested. -/
def WRecord.latest (w : WRecord) : BitVec 16 :=
  match w.queued, w.travel with
  | some q, _ => q.version
  | none, some s => s.version
  | none, none => w.active

/-- Running generation routes of the tenancy with layer-carrying stages. -/
def Module.carryingRoutes (m : Module) (t : Ten) : Nat :=
  (m.routes.filter (fun p => p.2.ten == t && !p.2.learning && p.2.state == .running
    && p.2.stages.any Stage.carriesLayers)).length

/-- WEIGHT_SWAP (R20, R173, R312): the checks in order; an accepted swap travels, or is queued behind the one that
does. The manual does not order the RESOURCE of R20 among the other checks: here it comes first. [log 181 DESIGN CHOICE] -/
def execWeightSwap (id : Nat) (s : State) : Host.Outcome State Fault Refusal :=
  s.run fun m => m.withCmd id 0x11 fun c m =>
    let ten := c.ten.val
    let group := c.field 20 4
    match m.wrec ten with
    | none => m.finish id st.resource
    | some w =>
      if w.queued.isSome then m.finish id st.resource
      else if !m.groupOk c.ten.val group then m.finish id st.check
      else if group ≠ 0 ∧ (m.jobOf ten).isNone then (m.violation ten .wgt).finish id st.isolation
      else if BitVec.ofNat 16 (c.field 16 2) ≠ w.latest + 1 then m.finish id st.version
      else
        match m.slicesMapped ten (c.field 8 8) w.layers with
        | (.error e, m) => m.finishFail id e
        | (.ok _, m) =>
          if 1 < m.carryingRoutes c.ten ∨ (!w.residents.isEmpty ∧ w.freeCount = 0) then m.finish id st.resource
          else
            let x : WSwap := {
              cmd := id, version := BitVec.ofNat 16 (c.field 16 2), source := c.field 8 8, group := group,
              front := none, proposal := none, staged := [], rerun := false }
            (m.setWrec ten (if w.travel.isSome then { w with queued := some x } else { w with travel := some x })).commitCmd id

/-! ## Staging and fetching (R165, R174) -/

/-- Stages of the tenancy's generation route that carry streamed layers. -/
def Module.streamStages (m : Module) (ten : Nat) (w : WRecord) : Nat :=
  (((m.streamRoutes ten).flatMap (fun p => p.2.stages)).filter (fun s => !(w.streamedOf s).isEmpty)).length

/-- The next resident layer of a swap to stage, ascending (R174). -/
def WRecord.nextLayer (w : WRecord) (x : WSwap) : Option Nat := w.residents.find? (fun l => !x.staged.contains l)

/-- Record that a swap has staged a layer, or found it BROKEN. -/
def Module.markStaged (m : Module) (ten : Nat) (queued : Bool) (l : Nat) : Module :=
  match m.wrec ten with
  | none => m
  | some w =>
    let f := fun (x : WSwap) => { x with staged := x.staged ++ [l] }
    m.setWrec ten (if queued then { w with queued := w.queued.map f } else { w with travel := w.travel.map f })

/-- The next layer of the swap is staged into a free berth that no streamed fetch takes, and a free one stays for every stage
that streams (R174). -/
def Module.stageNext (m : Module) (ten : Nat) (w : WRecord) (queued : Bool) (x : WSwap) (l : Nat) : Module :=
  if w.nextLayer x != some l || decide (w.freeCount < 1 + (m.fetches ten w).length + m.streamStages ten w) then m
  else
    match m.stageLayer ten l x.version with
    | none => m
    | some m => (m.markStaged ten queued l).trimBerths ten

/-- LAYER_STAGED (R174, R181): the staging of a layer completes: one to be staged again at its version first, else the next
layer of the travelling swap, or of the queued one once the travelling swap has staged all of its layers. The rule that a berth
stays free for every streaming stage is for a swap's staging: a layer staged again takes any free berth.
[log 182 DESIGN CHOICE] -/
def execLayerStaged (ten : Ten) (queued : Bool) (layer : BitVec 10) (s : State) : Host.Outcome State Fault Refusal :=
  s.run fun m =>
    let t := ten.val
    let l := layer.toNat
    match m.wrec t with
    | none => m
    | some w =>
      match w.restage.find? (fun p => p.1 == l) with
      | some (l, v) =>
        if queued then m
        else
          let m := m.setWrec t { w with restage := w.restage.erase (l, v) }
          match m.stageLayer t l v with
          | some m => m
          | none => m.setWrec t w
      | none =>
        match w.travel, w.queued with
        | some x, q =>
          if !queued then m.stageNext t w false x l
          else
            match q with
            | some y => if (w.nextLayer x).isNone then m.stageNext t w true y l else m
            | none => m
        | none, _ => m

/-- STREAM_FETCH_COMPLETE (R165, R181): the fetch of a streamed layer into a free berth completes, if it is the first of a
stage's window that no berth holds. -/
def execStreamFetchComplete (ten : Ten) (layer : BitVec 10) (s : State) : Host.Outcome State Fault Refusal :=
  s.run fun m =>
    match m.wrec ten.val with
    | none => m
    | some w =>
      let first := fun (u : List (Nat × BitVec 16)) => u.find? (fun p => !w.isReady p.1 p.2 && !w.isBroken p.1 p.2)
      match (m.windows ten.val w).findSome? (fun u =>
          match first u with
          | some p => if p.1 = layer.toNat then some p else none
          | none => none) with
      | none => m
      | some (l, v) =>
        let m := (m.stageLayer ten.val l v).getD m
        -- an uncorrectable error in data that a route in an epoch reads (R410)
        if ((m.wrec ten.val).map (fun w => w.isBroken l v)).getD false then
          ((m.streamRoutes ten.val).filter (fun p => p.2.stages.any (fun s => (w.streamedOf s).contains l))).foldl
            (fun m (p : Nat × Route) => m.epochData p.1) m
        else m

/-- The step in which the deadline of a layer of a stage may expire now (R166). For the stage's first layer it runs from the
release of the first cluster into the step: the lowest step of a released cluster that has not yet gone through the layer. For
another layer it runs from the release of the layer before: the cluster furthest behind is at the layer. -/
def Module.dueStep (m : Module) (w : WRecord) (n i : Nat) (sg : Stage) (l : Nat) : Option Word64 :=
  match m.stagePos w n i with
  | none => none
  | some pos =>
    if l = sg.layerFirst then
      let open' := fun (s : Word64) => !posLt (s, some l) pos && !w.isReady l (w.version s) && !w.isBroken l (w.version s)
        && !w.missed.contains (stageKey n i, l, s) && !w.answers.any (fun a => a.1 == stageKey n i && a.2.1 == l && a.2.2.1 == s)
      (((m.stageClusters n i).filter m.released).map (fun c => (m.cl c).step)).foldl (fun a s =>
        if !open' s then a
        else
          match a with
          | none => some s
          | some u => if s < u then some s else a) none
    else if pos.2 = some l then some pos.1
    else none

/-- LAYER_DEADLINE_EXPIRE (R166): a streamed layer is in no berth when its deadline in a step expires: a miss is counted, and
LEAN is decided where the policy and the lean copy allow it. -/
def execLayerDeadlineExpire (route : Fin 256) (stage : Fin 64) (layer : BitVec 10) (s : State) :
    Host.Outcome State Fault Refusal :=
  s.run fun m =>
    match m.route route.val with
    | none => m
    | some r =>
      match m.wrec r.ten.val, r.stages[stage.val]? with
      | some w, some sg =>
        let ten := r.ten.val
        let l := layer.toNat
        match m.dueStep w route.val stage.val sg l with
        | none => m
        | some step =>
          let v := w.version step
          let key := (stageKey route.val stage.val, l, step)
          let given := w.answers.any (fun a => a.1 == key.1 && a.2.1 == l && a.2.2.1 == step)
          if r.learning || !sg.carriesLayer l || !w.isStreamed l || (m.wgtNow ten w).deadline == 0
              || w.isReady l v || w.isBroken l v || w.missed.contains key || given then m
          else
            let lean := (m.wgtNow ten w).lean
            let fits := Map.get? w.lean l == some v
            let m := (m.addFld Fld.WGT_TEN_MISSES_COUNT ten 0).raise Kind.WGT_MISS ten l
            let w := { w with missed := w.missed ++ [key] }
            if lean && fits then
              (m.setWrec ten { w with
                decided := w.decided ++ [key]
                leanSteps := if w.leanSteps.contains step then w.leanSteps else w.leanSteps ++ [step] }).addFld
                  Fld.WGT_TEN_LEAN_STEPS_COUNT ten 0
            else
              (m.setWrec ten w).when lean (fun m => m.raise Kind.WGT_LEAN_UNAVAIL ten l)
      | _, _ => m

/-! ## The swap front (R175 to R179) -/

/-- SWAP_FRONT_FIX (R175, R178): the PRESTAGE condition of the travelling swap is met. Alone, the module fixes S; in a group
it sends its proposal. -/
def execSwapFrontFix (ten : Ten) (s : State) : Host.Outcome State Fault Refusal :=
  s.run fun m =>
    match m.wrec ten.val, m.genRoute ten.val with
    | some w, some (_, r) =>
      match w.travel, r.headStage with
      | some x, some h =>
        if x.front.isSome || x.proposal.isSome || !m.prestaged ten.val w x then m
        else if x.group = 0 then m.fixFront ten.val (r.nextHead h)
        else
          let p := r.nextHead h + BitVec.ofNat 64 (m.wgtNow ten.val w).lead
          (m.setTravel ten.val (fun x => { x with proposal := some p })).startGroup ten x.group 2 x.version.toNat 0 p
      | _, _ => m
    | _, _ => m

/-- The travelling version becomes active and the queued swap travels (R176). -/
def Module.completeSwap (m : Module) (ten : Nat) (w : WRecord) (x : WSwap) : Module :=
  let bad := (List.range w.layers.length).any (fun l => w.isBroken l x.version)
  let keep := fun (p : Nat × BitVec 16) =>
    p.2 == x.version || (w.queued.map (fun q => q.version == p.2)).getD false
  let w := { w with
    active := x.version, source := x.source, travel := w.queued, queued := none
    past := w.past ++ (match m.genRoute ten, x.front with | some _, some f => [(f, w.active)] | _, _ => [])
    broken := w.broken.filter keep, restage := w.restage.filter keep }
  let m := (m.setWrec ten w).trimBerths ten
  m.finish x.cmd (if bad then st.data else st.ok) ((x.front.map (fun s => s.toNat)).getD (2 ^ 64 - 1))

/-- SWAP_COMPLETE (R176, R180): every resident layer is staged, and every layer-carrying stage of the tenancy's started
generation route has committed S; with no such route, staging alone completes the swap. -/
def execSwapComplete (ten : Ten) (s : State) : Host.Outcome State Fault Refusal :=
  s.run fun m =>
    match m.wrec ten.val with
    | none => m
    | some w =>
      match w.travel with
      | none => m
      | some x =>
        let past := (m.streamRoutes ten.val).all (fun p =>
          match x.front with
          | none => false
          | some s => p.2.carriers.all (fun i => m.stageDone p.1 i s))
        if (w.nextLayer x).isNone && past then m.completeSwap ten.val w x else m

/-- SWAP_TIMEOUT (R179): S has not been agreed within WGT_SWAP_TIMEOUT of the proposal. -/
def execSwapTimeout (ten : Ten) (s : State) : Host.Outcome State Fault Refusal :=
  s.run fun m =>
    match (m.wrec ten.val).bind (fun w => w.travel) with
    | none => m
    | some x =>
      if x.proposal.isSome && x.front.isNone && m.fld Fld.WGT_SWAP_TIMEOUT_TIMEOUT != 0 then
        m.raise Kind.WGT_SWAP_WAIT ten.val x.version.toNat
      else m

/-! ## LEAN_BUILD (R168, R171) -/

/-- Layers that have a lean copy, ascending. -/
def WRecord.leanLayers (w : WRecord) : List (Nat × Layer × Nat) :=
  (List.range w.layers.length).filterMap (fun l =>
    match w.layers[l]? with
    | some x => x.leanAddr.map (fun a => (l, x, a))
    | none => none)

/-- Every lean slice range is mapped for reading. -/
def Module.leanMapped (m : Module) (ten src : Nat) : List (Nat × Layer × Nat) → Except Fail Unit × Module
  | [] => (.ok (), m)
  | (_, x, _) :: rest =>
    match m.mapped .wgt ten (src + x.leanOff * 4096) x.leanBytes false with
    | (.error e, m) => (.error e, m)
    | (.ok _, m) => m.leanMapped ten src rest

/-- Set or clear a lean tag. -/
def Module.setLean (m : Module) (ten l : Nat) (v : Option (BitVec 16)) : Module :=
  match m.wrec ten with
  | none => m
  | some w => m.setWrec ten { w with
      lean := match v with
        | some v => Map.insert w.lean l v
        | none => Map.erase w.lean l }

/-- Copy the lean slices; answers whether all of them could be read. -/
def Module.buildLean (m : Module) (id ten src : Nat) (v : BitVec 16) : List (Nat × Layer × Nat) → Bool × Module
  | [] => (true, m)
  | (l, x, a) :: rest =>
    let m := m.setLean ten l none
    let (ok, m) : Bool × Module :=
      match m.readTwice (some id) ten (src + x.leanOff * 4096) x.leanBytes with
      | (.error _, m) => (false, m)
      | (.ok bs, m) =>
        match m.writeHold ten a bs with
        | (.error _, m) => (false, m)
        | (.ok _, m) => (true, m.setLean ten l (some v))
    let (ok', m) := m.buildLean id ten src v rest
    (ok && ok', m)

/-- LEAN_BUILD (R171). -/
def execLeanBuild (id : Nat) (s : State) : Host.Outcome State Fault Refusal :=
  s.run fun m => m.withCmd id 0x12 fun c m =>
    match m.wrec c.ten.val with
    | none => m.finish id st.resource
    | some w =>
      match m.leanMapped c.ten.val (c.field 8 8) w.leanLayers with
      | (.error e, m) => m.finishFail id e
      | (.ok _, m) =>
        let (ok, m) := m.buildLean id c.ten.val (c.field 8 8) (BitVec.ofNat 16 (c.field 16 2)) w.leanLayers
        m.finish id (if ok then st.ok else st.data)

/-! ## BASE_SHARE (R172) -/

/-- DRAM frames that no tenancy's quota and no house use takes (R172: the house quotas). [log 54 DEDUCED] -/
def Module.houseFramesLeft (m : Module) : Nat :=
  dramFrames - houseFrames
    - ((List.finRange 101).filter (fun t => t != house)).foldl (fun a t => a + m.fld Fld.TEN_DRAM_DRAM_FRAMES t.val) 0
    - m.fld Fld.XLT_TEN_FRAMES_FRAMES 0

/-- Hold banks that no tenancy's quota and no base takes. -/
def Module.houseBanksLeft (m : Module) : Nat :=
  32768 - (m.banks.filter (fun p => p.2.state == 2)).length
    - ((List.finRange 101).filter (fun t => t != house)).foldl (fun a t => a + m.fld Fld.TEN_HOLD_HOLD_BANKS t.val) 0
    - (m.bases.map (fun p => match p.2.hold with | some h => h.2 | none => 0)).sum

/-- Take one house frame for a base. -/
def Module.takeBaseFrame (m : Module) (base : Nat) : Option (Nat × Module) :=
  (m.pickFrame none).map (fun f =>
    let m := m.setTag f (0x8000 + 0x0800 + 0x100 * base)
    let m := (m.addFld Fld.XLT_TEN_FRAMES_FRAMES 0 0).subFld Fld.XLT_POOL_FREE_FRAMES 0 0
    (f, ({ m with nextStack := (f + 1) % 12 }).drawn))

/-- Take `n` house frames. -/
def Module.takeBaseFrames (m : Module) (base : Nat) : Nat → Option (List Nat × Module)
  | 0 => some ([], m)
  | n + 1 =>
    match m.takeBaseFrame base with
    | none => none
    | some (f, m) => (m.takeBaseFrames base n).map (fun p => (f :: p.1, p.2))

/-- A run of unused Hold map entries: which one is open. -/
def Module.freeRun (m : Module) (n : Nat) : Option Nat :=
  pick (fun e => decide (e + n ≤ 65536) && (List.range n).all (fun k => m.mapEntry (e + k) == holdMapFree))
    (Config.freeNat m.freeIx % 65536) 1 65536 0

/-- Give free banks to the entries of a run. -/
def Module.fillRun (m : Module) (first : Nat) : Nat → Option Module
  | 0 => some m
  | n + 1 =>
    match m.fillRun first n with
    | none => none
    | some m => (m.pickBank (fun _ => true)).map (fun p => (m.drawn.takeBank p (first + n)))

/-- The run of Hold map entries of a base with its copy. -/
def Module.baseHold (m : Module) (bs : List Byte) : Option ((Nat × Nat) × Module) :=
  let n := (bs.length + bankBytes - 1) / bankBytes
  if m.houseBanksLeft < n then none
  else
    match m.freeRun n with
    | none => none
    | some e =>
      (m.drawn.fillRun e n).map (fun m =>
        ((e, n), (List.range n).foldl (fun m k =>
          m.writeHoldLocs [(bitsAt (m.mapEntry (e + k)).toNat 0 15 * bankBytes, min bankBytes (bs.length - k * bankBytes))]
            (bs.drop (k * bankBytes))) m))

/-- Store bytes over a list of frames. -/
def Module.fillFrames (m : Module) (bs : List Byte) : List Nat → Module
  | [] => m
  | f :: rest => (m.writeLoc 0 (.dram (f * frameBytes)) (bs.take frameBytes)).fillFrames (bs.drop frameBytes) rest

/-- A BASE_SHARE row: a command of that mode whose fields are in range. -/
def Module.withBase (m : Module) (id mode : Nat) (f : Cmd → Nat → Module → Module) : Module :=
  m.withCmd id 0x13 fun c m =>
    let got := c.field 8 1
    if got = mode then
      (if 8 ≤ c.field 9 1 ∨ 2 ≤ c.field 10 1 then m.finish id st.check else f c (c.field 9 1) m)
    else if 4 ≤ got ∧ mode = 0 then m.finish id st.check
    else m.setCmd id { c with phase := .taken }

/-- BASE_SHARE with MODE LOAD (R172). -/
def execBaseShareLoad (id : Nat) (s : State) : Host.Outcome State Fault Refusal :=
  s.run fun m => m.withBase id 0 fun c b m =>
    let n := c.field 24 8
    let frames := (n + frameBytes - 1) / frameBytes
    if n = 0 ∨ n % 4096 ≠ 0 then m.finish id st.check
    else if (Map.get? m.bases b).isSome ∨ m.houseFramesLeft < frames then m.finish id st.resource
    else
      match m.readVA .wgt c.ten.val (c.field 16 8) n with
      | (.error e, m) => m.finishFail id e
      | (.ok bs, m) =>
        match m.takeBaseFrames b frames with
        | none => m.finish id st.resource
        | some (fs, m') =>
          let m' := m'.fillFrames bs fs
          if c.field 10 1 = 1 then
            match m'.baseHold bs with
            | none => m.finish id st.resource
            | some (run, m') => ({ m' with bases := Map.insert m'.bases b ⟨n, fs, some run⟩ }).finish id st.ok
          else ({ m' with bases := Map.insert m'.bases b ⟨n, fs, none⟩ }).finish id st.ok

/-- Enter read-only 64 KiB leaves for the frames of a base from an address on. -/
def Module.mapBase (m : Module) (ten va : Nat) : List Nat → Option Module
  | [] => some m
  | f :: rest =>
    match m.enterLeaf ten va (f * frameBytes + 7) 4 (m.fld Fld.XLT_TEN_ROOT_FRAME ten * frameBytes) with
    | none => none
    | some m => (m.uncachePages ten (va / frameBytes) 1).mapBase ten (va + frameBytes) rest

/-- Write an extent and its run with their complements (R11, R257). -/
def Module.setExtent (m : Module) (ten x first count table : Nat) (valid ro : Bool) : Module :=
  let m := m.setReg .HLD_TEN_EXT ten x (pairWord (count * 65536 + first))
  m.setReg .HLD_TEN_EXT_RUN ten x (pairWord ((if valid then 2 ^ 17 else 0) + (if ro then 2 ^ 16 else 0) + table))

/-- The bank range meets a valid extent of the tenancy. -/
def Module.extentsMeet (m : Module) (ten first count : Nat) : Bool :=
  (List.range 9).any (fun x => m.flag Fld.HLD_TEN_EXT_RUN_VALID ten x
    && touches first count (m.fld Fld.HLD_TEN_EXT_TBANK_FIRST ten x) (m.fld Fld.HLD_TEN_EXT_COUNT ten x))

/-- BASE_SHARE with MODE GRANT (R172, R257): the base is mapped read-only into the tenancy. -/
def execBaseShareGrant (id : Nat) (s : State) : Host.Outcome State Fault Refusal :=
  s.run fun m => m.withBase id 1 fun c b m =>
    let ten := c.field 11 1
    let va := c.field 16 8
    let h := c.field 12 4
    if ten = 0 ∨ 100 < ten ∨ 2 ^ 48 ≤ va then m.finish id st.check
    else
      match Map.get? m.bases b with
      | none => m.finish id st.resource
      | some x =>
        let pages := x.frames.length
        let mapped := (List.range pages).any (fun k =>
          match m.walk ten (va + k * frameBytes) false with
          | .error ⟨_, 1, _⟩ => false
          | _ => true)
        let noHold : Bool := match x.hold with
          | some r => h % bankBytes != 0 || decide (65536 < h / bankBytes + r.2) || m.extentsMeet ten (h / bankBytes) r.2
          | none => false
        if !m.exists? (Fin.ofNat 101 ten) ∨ m.hasBase ten b ∨ va % frameBytes ≠ 0 ∨ 2 ^ 48 < va + pages * frameBytes ∨ mapped
            ∨ noHold ∨ !m.flag Fld.XLT_TEN_ROOT_ENABLE ten ∨ !pairOk (m.reg .XLT_TEN_ROOT ten) then m.finish id st.resource
        else
          match m.mapBase ten va x.frames with
          | none => m.finish id st.resource
          | some m =>
            let m := match x.hold with
              | some r => m.setExtent ten (b + 1) (h / bankBytes) r.2 r.1 true true
              | none => m
            ({ m with baseGrants := Map.insert m.baseGrants (8 * ten + b) va }).finish id st.ok

/-- Remove a tenancy's mappings of a base. -/
def Module.revokeBase (m : Module) (ten b : Nat) : Module :=
  match Map.get? m.baseGrants (8 * ten + b), Map.get? m.bases b with
  | some va, some x =>
    let m := (List.range x.frames.length).foldl (fun m k => m.unmapPage ten (va + k * frameBytes)) m
    let m := if x.hold.isSome then m.setExtent ten (b + 1) 0 0 0 false false else m
    { m with baseGrants := Map.erase m.baseGrants (8 * ten + b) }
  | _, _ => m

/-- BASE_SHARE with MODE REVOKE (R172). Of a base that the tenancy has no grant of it ends OK: the manual gives no status.
[log 183 DESIGN CHOICE] -/
def execBaseShareRevoke (id : Nat) (s : State) : Host.Outcome State Fault Refusal :=
  s.run fun m => m.withBase id 2 fun c b m =>
    let ten := c.field 11 1
    if ten = 0 ∨ 100 < ten then m.finish id st.check
    else if m.routes.any (fun p => p.2.ten.val == ten && p.2.runs) then m.finish id st.resource
    else (m.revokeBase ten b).finish id st.ok

/-- Release a base: its frames and banks are zeroed and free (R25, R172). -/
def Module.freeBase (m : Module) (b : Nat) (x : SharedBase) : Module :=
  let m := m.releaseBaseFrames b x.frames
  let m := match x.hold with
    | none => m
    | some r => (List.range r.2).foldl (fun m k =>
        let p := bitsAt (m.mapEntry (r.1 + k)).toNat 0 15
        let m := m.releaseBank p
        { m with holdMap := Map.erase m.holdMap (r.1 + k) }) m
  { m with bases := Map.erase m.bases b }

/-- BASE_SHARE with MODE FREE (R172). Of a base that is not loaded it ends OK: the manual gives no status.
[log 183 DESIGN CHOICE] -/
def execBaseShareFree (id : Nat) (s : State) : Host.Outcome State Fault Refusal :=
  s.run fun m => m.withBase id 3 fun _ b m =>
    match Map.get? m.bases b with
    | none => m.finish id st.ok
    | some x =>
      if m.baseGrants.any (fun p => p.1 % 8 == b) then m.finish id st.resource
      else (m.freeBase b x).finish id st.ok

end Sys2Proof.Machine
end

