-- ==== Sys2Proof/Machine/GrantOps.lean ====
section
/-! DEFINITION. Machine/GrantOps.lean: what a grant gives a tenancy: its clusters and the banks of its private extent, which
grow and shrink toward the granted numbers (R25, R369). -/

namespace Sys2Proof.Machine

/-! ## Clusters -/

/-- Clusters that the tenancy holds, retired ones apart. -/
def Module.heldClusters (m : Module) (t : Ten) : List Nat :=
  (m.assigned t).filter (fun c => m.fld Fld.FAB_CL_STATUS_STATE c != 5)

/-- Clusters of the tenancy that can be released at once. -/
def Module.idleHeld (m : Module) (t : Ten) : List Nat :=
  (m.heldClusters t).filter (fun c => m.isIdle c && (m.cl c).repair.isNone)

/-- Scrub a cluster and take it from its tenancy (R25). -/
def Module.returnCluster (m : Module) (c : Nat) : Module := (m.idleCluster c).setAssign c false 0 0

/-- A cluster of a stage above its minimum, which leaves the tenancy's routes (R151). -/
def Module.shedCluster (m : Module) (t : Ten) : Module :=
  if m.moving t then m
  else
    let cs := (m.routesOf t).flatMap (fun n => (m.clustersOf n).filter (fun c => m.mayLeave c && (m.cl c).repair.isNone))
    match cs.head? with
    | some c => m.startMove c ⟨t, none, none, none, [], false, false⟩
    | none => m

/-- Bring the clusters of a tenancy toward TEN_GRANT.CLUSTERS: idle ungranted ones are assigned; idle ones are released
first, then stages above their minimum give clusters up. [log 127 DEDUCED] -/
def Module.fitClusters (m : Module) (t : Ten) : Module :=
  let want := m.fld Fld.TEN_GRANT_CLUSTERS t.val
  let held := m.heldClusters t
  let m :=
    if held.length < want then
      (m.freeClusters.take (want - held.length)).foldl (fun m c => m.setAssign c true t.val (m.unheldLogical t)) m
    else
      let m := (((m.idleHeld t).reverse).take (held.length - want)).foldl (fun m c => m.returnCluster c) m
      if want < (m.heldClusters t).length then m.shedCluster t else m
  m.mirrorTen t

/-! ## Banks -/

/-- Banks of the private extent, extent 0. -/
def Module.extentCount (m : Module) (t : Ten) : Nat :=
  if m.flag Fld.HLD_TEN_EXT_RUN_VALID t.val then m.fld Fld.HLD_TEN_EXT_COUNT t.val else 0

def Module.extentTable (m : Module) (t : Ten) : Nat := m.fld Fld.HLD_TEN_EXT_RUN_TABLE_FIRST t.val

/-- Move the map entries of a run to another place. -/
def Module.moveRun (m : Module) (src dst n : Nat) : Module :=
  (List.range n).foldl (fun m k =>
    let w := m.mapEntry (src + k)
    let p := bitsAt w.toNat 0 15
    { m with
      holdMap := Map.set holdMapFree (Map.erase m.holdMap (src + k)) (dst + k) w
      banks := Map.set .reset m.banks p { m.bank p with entry := BitVec.ofNat 16 (dst + k) } }) m

/-- Where the private extent can stand with `new` banks: in place, where the entries behind it are unused, else a free run. -/
def Module.placeExtent (m : Module) (t : Ten) (cur new : Nat) : Option Nat :=
  let e := m.extentTable t
  if cur != 0 && decide (e + new ≤ 65536) && (List.range (new - cur)).all (fun k => m.mapEntry (e + cur + k) == holdMapFree)
  then some e else m.freeRun new

/-- Fill the entries of a run from `first` on with free banks, `n` of them. -/
def Module.growRun (m : Module) (first n : Nat) : Option Module := m.fillRun first n

/-- Grow the private extent to `new` banks. -/
def Module.growExtent (m : Module) (t : Ten) (cur new : Nat) : Module :=
  match m.placeExtent t cur new with
  | none => m
  | some e =>
    let old := m.extentTable t
    let m := m.drawn
    let m := if cur ≠ 0 ∧ e ≠ old then m.moveRun old e cur else m
    match m.growRun (e + cur) (new - cur) with
    | none => m
    | some m => m.setExtent t.val 0 0 new e true false

/-- The bank of a tenancy bank index meets a Hold range. -/
def onBank (b : Nat) (x : Nat × Nat) : Bool := x.2 != 0 && decide (x.1 < (b + 1) * bankBytes) && decide (b * bankBytes < x.1 + x.2)

/-- The Hold ranges that the module holds for a tenancy, as address and bytes (R369). -/
def Module.holdRanges (m : Module) (t : Ten) : List (Nat × Nat) :=
  let bufs := (m.routes.filter (fun p => p.2.ten == t)).flatMap (fun p =>
    (p.2.buffers.filter (fun b => b.tier < 2)).map (fun b => (b.addr, b.bytes)))
  let wts := match m.wrec t.val with
    | none => []
    | some w => (w.base, w.count * w.size) :: w.layers.filterMap (fun l => l.leanAddr.map (fun a => (a, l.leanBytes)))
  let grads := ((List.range 4).filter (fun a => m.flag Fld.LRN_TEN_GRAD_ADDR_TIER t.val a)).map (fun a =>
    (m.fld Fld.LRN_TEN_GRAD_ADDR_ADDR t.val a, m.fld Fld.LRN_TEN_GRAD_LEN_BYTES t.val a))
  let specs := (m.insts.filter (fun (x : Inst) => x.ten == t)).map (·.spec)
    ++ (m.slots.filter (fun p => p.1 / 256 == t.val)).map (fun p => p.2.spec)
  let cols := specs.flatMap (fun c =>
    (if c.srcHold then [(c.src, c.srcBytes (m.subSize c))] else []) ++ (if c.dstHold then [(c.dst, c.dstBytes (m.subSize c))] else []))
  let ferries := (m.channelsOf t).flatMap (fun c =>
    match (m.ferry c).entry with
    | none => []
    | some b => (if fd.srcHold b then [(fd.src b, fd.len b)] else []) ++ (if fd.dstHold b then [(fd.dst b, fd.len b)] else []))
  let caps := match m.capture t with
    | none => []
    | some c => (c.shards.filter (·.1)).map (·.2)
  bufs ++ wts ++ grads ++ cols ++ ferries ++ caps

/-- A bank of the private extent is in use (R369). A restore names the physical banks of its Hold shards. -/
def Module.bankUsed (m : Module) (t : Ten) (b : Nat) : Bool :=
  let p := bitsAt (m.mapEntry (m.extentTable t + b)).toNat 0 15
  (m.holdRanges t).any (onBank b) || ((m.restore t).map (fun x => x.banks.any (fun q => q.1 == p))).getD false

/-- Release banks from the top of the private extent down to `want`, stopping at the first in use. -/
def Module.shrinkExtent (m : Module) (t : Ten) (want : Nat) : Nat → Module
  | 0 => m
  | n + 1 =>
    let e := m.extentTable t
    if n + 1 ≤ want || m.bankUsed t n then m
    else
      let m := m.releaseBank (bitsAt (m.mapEntry (e + n)).toNat 0 15)
      let m := { m with holdMap := Map.erase m.holdMap (e + n) }
      (m.setExtent t.val 0 0 n (if n = 0 then 0 else e) (n != 0) false).shrinkExtent t want n

/-- Bring the private extent toward TEN_HOLD.HOLD_BANKS. -/
def Module.fitHold (m : Module) (t : Ten) : Module :=
  let want := m.fld Fld.TEN_HOLD_HOLD_BANKS t.val
  let cur := m.extentCount t
  if cur < want then
    let new := min want (cur + m.freeBanksAll)
    if new = cur then m else m.growExtent t cur new
  else m.shrinkExtent t want cur

/-! ## The whole grant -/

/-- GRANT_PENDING is set while a granted quantity is not met. -/
def Module.markPending (m : Module) (t : Ten) : Module :=
  m.setFlag Fld.TEN_STATUS_GRANT_PENDING t.val 0
    ((m.heldClusters t).length != m.fld Fld.TEN_GRANT_CLUSTERS t.val || m.extentCount t != m.fld Fld.TEN_HOLD_HOLD_BANKS t.val)

/-- What a grant has given so far. -/
def Module.granted (m : Module) (t : Ten) : Nat × Nat := ((m.heldClusters t).length, m.extentCount t)

/-- Bring both quantities toward the grant; a change posts GRANT. -/
def Module.fitGrant (m : Module) (t : Ten) : Module :=
  match m.useEntry t with
  | (false, m) => m
  | (true, m) =>
  let old := m.granted t
  let m := ((m.fitClusters t).fitHold t).markPending t
  if m.granted t = old then m else m.notice t Fld.HIF_VF_NOTICE_GRANT

end Sys2Proof.Machine
end

