-- ==== Sys2Proof/Machine/Tenancy.lean ====
section
/-! DEFINITION. Machine/Tenancy.lean: creating, resetting and destroying tenancies, grant changes, the function-level reset, and
the ledger's commands (R362, R368 to R379, R499). -/

namespace Sys2Proof.Machine

/-! ## TEN_CMD (R370, R499) -/

/-- Start a TEN_CMD: discarded while another runs. [log 126 DEDUCED] -/
def Module.tenCmd (m : Module) (t : Ten) (f : Module → Module) : Module :=
  if m.flag Fld.TEN_CMD_STATUS_BUSY then m.raise Kind.TEN_GRANT_REFUSED t.val t.val
  else f (m.setFld Fld.TEN_CMD_STATUS_TENANCY 0 0 t.val)

/-- A TEN_CMD ends with a result. -/
def Module.tenResult (m : Module) (v : Nat) : Module :=
  (m.setFld Fld.TEN_CMD_STATUS_RESULT 0 0 v).setFlag Fld.TEN_CMD_STATUS_BUSY 0 0 false

def Module.setBusy (m : Module) : Module := m.setFlag Fld.TEN_CMD_STATUS_BUSY 0 0 true
def Module.setTenState (m : Module) (t : Ten) (v : Nat) : Module := m.setFld Fld.TEN_STATUS_STATE t.val 0 v

/-- Frames that the pool holds, free or allocated. -/
def Module.poolFrames (m : Module) : Nat :=
  dramFrames - houseFrames - (m.patches.map (fun p => p.2.length)).sum - (m.tags.filter (fun p => tagQuar p.2)).length

/-- Tenancies other than `t` that exist. -/
def Module.others (m : Module) (t : Ten) : List Ten :=
  (List.finRange 101).filter (fun u => u != house && u != t && m.exists? u)

/-- Two ranges of rings meet. -/
def ringsMeet (a n b k : Nat) : Bool := n != 0 && k != 0 && decide (a < b + k) && decide (b < a + n)

/-- The first applicable RESULT of CREATE (R370); none: it succeeds. -/
def Module.createFails (m : Module) (t : Ten) : Option Nat :=
  let vf := m.fld Fld.TEN_GRANT_VF t.val
  let first := m.fld Fld.TEN_RINGS_RING_FIRST t.val
  let n := m.fld Fld.TEN_RINGS_RING_COUNT t.val
  if m.flag Fld.GLB_STATUS_TEST_MODE then some 8
  else if t = house || m.exists? t then some 1
  else if vf = 0 || (m.others t).any (fun u => Map.get? m.vfs u.val == some vf) then some 2
  else if m.freeClusters.length < m.fld Fld.TEN_GRANT_CLUSTERS t.val then some 3
  else if m.freeBanksAll < m.fld Fld.TEN_HOLD_HOLD_BANKS t.val then some 4
  else if m.poolFrames < ((m.others t).map (fun u => m.fld Fld.TEN_DRAM_DRAM_FRAMES u.val)).sum + m.fld Fld.TEN_DRAM_DRAM_FRAMES t.val
    then some 5
  else if 32768 < first + n
      || (m.others t).any (fun u => ringsMeet first n (m.fld Fld.TEN_RINGS_RING_FIRST u.val) (m.fld Fld.TEN_RINGS_RING_COUNT u.val))
      || m.rings.any (fun p => m.ringEnabled p.1 && m.ringOwner p.1 == house && decide (first ≤ p.1) && decide (p.1 < first + n))
    then some 6
  else if !(t :: m.others t).all m.entryOk then some 7
  else none

/-- The entries that a CREATE found to disagree with their complements: each is recorded (R11). -/
def Module.pairFailed (m : Module) (t : Ten) : Module :=
  let m := if m.entryOk t then m else m.raise Kind.TEN_PAIR t.val t.val
  (m.others t).foldl (fun m u => (m.useEntry u).2) m

/-- The last steps of a creation: a fresh key fills key slot 0, the function is bound, the tenancy is ACTIVE (R245, R370). [log 124 DESIGN CHOICE] -/
def Module.openTenancy (m : Module) (t : Ten) : Module :=
  let m := { m with
    keys := Map.insert m.keys (4 * t.val) (m.nextKey + 1)
    nextKey := m.nextKey + 1
    creating := none
    vfs := Map.insert m.vfs t.val (m.fld Fld.TEN_GRANT_VF t.val) }
  let m := (m.setFld Fld.MEM_TEN_KEYS_CURRENT t.val 0 0).setTenState t 2
  (((m.markPending t).tenResult 0).openLedger t.val).notice t Fld.HIF_VF_NOTICE_GRANT

/-- CREATE (R370): checked, then clusters and banks are assigned; the key waits for the entropy source (R285). -/
def Module.createTen (m : Module) (ten : Ten) : Module :=
  m.tenCmd ten fun m =>
  match m.createFails ten with
  | some v => (m.when (v == 7) (fun m => m.pairFailed ten)).tenResult v
  | none =>
    let m := ((m.setTenState ten 1).setBusy.fitClusters ten).fitHold ten
    if m.flag Fld.RNG_ENTROPY_STATUS_HEALTHY then m.openTenancy ten else { m with creating := some ten }

/-- CREATE (R370). -/
def execCreate (ten : Ten) (s : State) : Host.Outcome State Fault Refusal :=
  s.run fun m => m.createTen ten

/-- ENTROPY_HEALTHY (R285): keys are issued again, and the creation that waited completes. During start-up HEALTHY waits for
step 9 (R469). -/
def execEntropyHealthy (s : State) : Host.Outcome State Fault Refusal :=
  s.run fun m =>
    let m := { m with board := { m.board with entropyBad := false } }
    if m.board.boot ≠ 6 then m
    else
    let m := m.setFlag Fld.RNG_ENTROPY_STATUS_HEALTHY 0 0 true
    match m.creating with
    | some t => m.openTenancy t
    | none => m

/-- TENANCY_RESET (R499): a T reset of an ACTIVE tenancy. -/
def Module.commandReset (m : Module) (ten : Ten) : Module :=
  m.tenCmd ten fun m =>
  if ten = house || !m.active ten then m.tenResult 1 else ((m.tenReset ten true).tenResult 0).latChanged

/-- TENANCY_RESET (R499). -/
def execTenancyReset (ten : Ten) (s : State) : Host.Outcome State Fault Refusal :=
  s.run fun m => m.commandReset ten

/-- DESTROY (R371, R499): steps 1 to 3; the scrub of step 4 begins. -/
def Module.destroyTen (m : Module) (ten : Ten) : Module :=
  m.tenCmd ten fun m =>
  if ten = house || !m.active ten then m.tenResult 1
  else
    let m := (m.tenReset ten true).setBusy.setTenState ten 3
    let m := (List.range 8).foldl (fun m b => m.revokeBase ten.val b) m
    let m := (m.finalLedger ten.val).latChanged
    { m with scrubbing := m.scrubbing ++ [ten] }

/-- DESTROY (R371, R499). -/
def execDestroy (ten : Ten) (s : State) : Host.Outcome State Fault Refusal :=
  s.run fun m => m.destroyTen ten

/-- The banks of the private extent return. -/
def Module.returnBanks (m : Module) (t : Ten) : Module :=
  let e := m.extentTable t
  let m := (List.range (m.extentCount t)).foldl (fun m k =>
    let m := m.releaseBank (bitsAt (m.mapEntry (e + k)).toNat 0 15)
    { m with holdMap := Map.erase m.holdMap (e + k) }) m
  m.setExtent t.val 0 0 0 0 false false

/-- Every frame tagged to the tenancy returns, its page-table frames and those that were being scrubbed included. -/
def Module.returnFrames (m : Module) (t : Ten) : Module :=
  let mine := (m.tags.filter (fun p => tagTen p.2 == t.val && (tagBase p.2).isNone && !tagQuar p.2)).map (·.1)
  mine.foldl (fun m f =>
    if tagAlloc (m.tag f) then (m.freeFrame f).scrubFrame f
    else if tagScrub (m.tag f) then m.scrubFrame f
    else m) m

/-- Counters of the tenancy return to the physical function, their counts zeroed (R371, R383). -/
def Module.returnCounters (m : Module) (t : Ten) : Module :=
  (List.range 256).foldl (fun m i =>
    if m.fld Fld.PMC_SEL_OWNER i = t.val then (m.setFld Fld.PMC_SEL_OWNER i 0 0).setReg .PMC_CNT i 0 0 else m) m

/-- TEARDOWN_SCRUB_DONE (R371, R372): steps 4 and 5, and the tenancy is FREE. It waits for a recovery epoch that still holds a
route of the tenancy. -/
def execTeardownScrubDone (ten : Ten) (s : State) : Host.Outcome State Fault Refusal :=
  s.run fun m =>
    if !m.scrubbing.contains ten || !(m.routesOf ten).isEmpty then m
    else
      let m := (m.assigned ten).foldl (fun m c => m.returnCluster c) m
      let m := ((m.returnBanks ten).returnFrames ten).returnCounters ten
      let m := (grantRegs ++ [RegId.XLT_TEN_ROOT]).foldl (fun m r => m.setReg r ten.val 0 (pairWord 0)) m
      let m := { m with
        scrubbing := m.scrubbing.filter (· != ten)
        vfs := Map.erase m.vfs ten.val
        keys := m.keys.filter (fun p => p.1 / 4 ≠ ten.val)
        xcache := m.xcache.filter (fun p => p.1 / 2 ^ 32 % 256 ≠ ten.val)
        tokens := m.tokens.filter (fun p => p.1 / 512 ≠ ten.val) }
      ((m.setReg .TEN_STATUS ten.val 0 0).mirrorTen ten).tenResult 0

/-! ## Grant changes (R368, R369) -/

/-- Some ring of the tenancy is enabled. -/
def Module.tenRingsOn (m : Module) (t : Ten) : Bool := !(m.enabledRings t).isEmpty

/-- A write of a grant register that is discarded with GRANT_REFUSED. -/
def Module.grantRefused (m : Module) (r : RegId) (t : Ten) (v : Nat) : Bool :=
  (m.flag Fld.TEN_CMD_STATUS_BUSY && m.fld Fld.TEN_CMD_STATUS_TENANCY == t.val)
    || (r == .TEN_RINGS && m.tenRingsOn t && v % 2 ^ 31 != (m.reg .TEN_RINGS t.val).toNat % 2 ^ 31)

/-- The rewrite of a disagreeing register ends the freeze (R368). -/
def Module.thaw (m : Module) (t : Ten) : Module :=
  if m.entryOk t then m.setFlag Fld.TEN_STATUS_FROZEN t.val 0 false else m

/-- TEN_GRANT_WRITE (R369): a write of one of the five grant registers. -/
def Module.writeGrant (m : Module) (reg : RegId) (ten : Ten) (value : Word64) : Module :=
  if ten = house || !grantRegs.contains reg then m
  else if !pairOk value then m.raise Kind.TEN_PAIR ten.val ten.val
  else if m.grantRefused reg ten value.toNat then m.raise Kind.TEN_GRANT_REFUSED ten.val ten.val
  else
    let value := reg.pairValue value
    let changed := m.reg reg ten.val != value
    let m := ((m.setReg reg ten.val 0 value).thaw ten).when (reg == .TEN_LAT_TOL) (fun m => m.latChanged)
    if !m.active ten || !changed then m
    else if reg == .TEN_GRANT || reg == .TEN_HOLD then m.fitGrant ten
    else m.notice ten Fld.HIF_VF_NOTICE_GRANT

/-- TEN_GRANT_WRITE (R369). -/
def execTenGrantWrite (reg : RegId) (ten : Ten) (value : Word64) (s : State) : Host.Outcome State Fault Refusal :=
  s.run fun m => m.writeGrant reg ten value

/-- GRANT_PENDING_FILL (R369): a pending grant goes on toward its value. -/
def execGrantPendingFill (ten : Ten) (s : State) : Host.Outcome State Fault Refusal :=
  s.run fun m =>
    if ten = house || !m.active ten || !m.flag Fld.TEN_STATUS_GRANT_PENDING ten.val then m else m.fitGrant ten

/-! ## The function-level reset (R340, R362) -/

/-- FUNCTION_LEVEL_RESET (R362): of a virtual function, an F reset of its tenancy; of the physical function, an M reset. A
function bound to no tenancy has only its own registers to reset. -/
def execFunctionLevelReset (f : Func) (s : State) : Host.Outcome State Fault Refusal :=
  s.run fun m =>
    if f = 0 then (m.mReset Fld.GLB_RESET_CAUSE_PF_FLR).trainLink
    else
      match m.tenOf f with
      | some t => (m.tenReset t false).latChanged
      | none =>
        { m.resetRegs .f (fun r i => r.owner == .func && i == f.val) with
          latches := m.latches.filter (fun p => p.1 / 2 ^ 64 ≠ f.val) }

/-! ## The ledger (R376 to R379) -/

/-- LEDGER_INTERVAL_END (R376): the calendar second is a boundary of the length in force, and not the start of the interval. -/
def execLedgerIntervalEnd (s : State) : Host.Outcome State Fault Refusal :=
  s.run fun m =>
    let now := m.fld Fld.RTC_SECONDS_SECONDS
    let fresh := ((Map.get? m.ledgers 0).map (fun l => l.start == now)).getD true
    if now % max 1 m.ledgerLen ≠ 0 || fresh then m else m.closeLedger false now

/-- LEDGER_RECORD_WRITE (R379): records that wait go to the ring while it has room, then the carries into the buffer. -/
def execLedgerRecordWrite (s : State) : Host.Outcome State Fault Refusal :=
  s.run fun m => (m.writeLedger 512).drainCarry 512

end Sys2Proof.Machine
end

