-- ==== Sys2Proof/Machine/Startup.lean ====
section
/-! DEFINITION. Machine/Startup.lean: power-on, start-up and the resets of the module (R10, R250, R340, R469 to R471, R489 to
R491). -/

namespace Sys2Proof.Machine

/-! ## The P reset (R466, R468, R469) -/

/-- Registers of the calendar that a P reset leaves. -/
abbrev calendarFields : List Field := [Fld.RTC_SECONDS_SECONDS, Fld.RTC_FRAC_FRAC, Fld.RTC_STATUS_VALID]

/-- The P reset at power-on: everything but the calendar, the configuration EEPROM and the world outside takes its reset
value. -/
def Module.pReset (m : Module) : Module :=
  let lost := m.board.calendarLost
  let kept := if lost then [] else calendarFields.map (fun f => (f, m.fld f))
  let b := m.board
  let m := { m.blank with
    regs := []
    repairRecords := m.keptRecords
    eraseRecords := []
    board := { Board.reset with boot := 1, eepromBad := b.eepromBad, railBad := b.railBad, testEn := b.testEn, perst := b.perst, resetLow := b.resetLow, refclkLost := b.refclkLost, refMode := b.refMode, separateRef := b.refMode } }
  let m := kept.foldl (fun (m : Module) x => m.setFld x.1 0 0 x.2) m
  let m := (m.setFlag Fld.RTC_STATUS_ON_BATTERY 0 0 true).setFlag Fld.GLB_STATUS_TEST_MODE 0 0 b.testEn
  if lost then m.raise Kind.RTC_BATTERY_LOST 0 0 else m

/-- POWER_ON (R469): the input reaches 40 V. -/
def execPowerOn (s : State) : Host.Outcome State Fault Refusal :=
  s.run fun m => if m.board.boot = 0 then m.pReset else m

/-- UNDERVOLTAGE (R489): every rail but standby shuts down, until POWER_ON. -/
def execUndervoltage (s : State) : Host.Outcome State Fault Refusal :=
  s.run fun m =>
    ((({ m with aliveDriven := false, aliveHold := false, board := { m.board with boot := 0 } } : Module).setFlag
      Fld.GLB_STATUS_READY 0 0 false).setPhase phase.power)

/-! ## Start-up (R469, R470) -/

/-- Start-up ends without READY: every rail except standby powers down. -/
def Module.failStartup (m : Module) : Module :=
  ({ m with board := { m.board with boot := 7 } } : Module).setPhase phase.failed

/-- The configuration EEPROM does not answer or fails its CRC (R470). Which of the two it is, is a free value; a device that does
not answer its retry either is a LOCAL_BUS failure (R486). -/
def Module.eepromFails (m : Module) : Module :=
  let m := m.raise Kind.GLB_EEPROM 0 0
  if Config.freeBool m.freeIx then
    let m := (m.drawn.addFld Fld.SBD_LOCAL_STATUS_RETRIES 0 0).setFld Fld.SBD_LOCAL_STATUS_DEVICE 0 0 0x50
    m.raise Kind.SBD_LOCAL_BUS 0 0x50
  else m.drawn

/-- TRIMS_LOADED (R469 step 3, R470, R486). [log 152 DESIGN CHOICE] -/
def execTrimsLoaded (s : State) : Host.Outcome State Fault Refusal :=
  s.run fun m =>
    if m.board.boot ≠ 1 then m
    else
      let m := { m with board := { m.board with boot := 2 } }
      m.when m.board.eepromBad (fun m => m.eepromFails)

/-- RAILS_REGULATED (R469 step 4, R470): a rail that does not regulate ends start-up. -/
def execRailsRegulated (s : State) : Host.Outcome State Fault Refusal :=
  s.run fun m =>
    if m.board.boot ≠ 2 then m
    else if m.board.railBad then m.failStartup
    else ({ m with board := { m.board with boot := 3, windows := 0, badRun := 0 } } : Module).setPhase phase.clocks

/-- RAIL_FAULT (R470, R476): after start-up a rail that leaves regulation is RAIL, always severe; before its end the rail has
failed to regulate. -/
def execRailFault (s : State) : Host.Outcome State Fault Refusal :=
  s.run fun m =>
    if m.board.boot = 6 then m.raise Kind.GLB_RAIL 0 0
    else if 2 ≤ m.board.boot ∧ m.board.boot ≤ 5 then m.failStartup
    else m

/-- One cluster as the repair records have it: its spares counted, RETIRED where a record says so (R51). -/
def Module.loadCluster (m : Module) (c : Nat) : Module :=
  let m := m.countSpares c
  if (List.range 16).any (fun r => m.flag Fld.FAB_ROW_MAP_RETIRED_BY_ROW c r) then m.setFld Fld.FAB_CL_STATUS_STATE c 0 5 else m

/-- The map of a row disagrees with its complement as it is loaded: loaded again, it agrees unless the fault holds for that load
too. Then the map is not taken, the cluster retires and PAIR is raised (R51). [log 178 DESIGN CHOICE] -/
def Module.loadBadMap (m : Module) (key bad : Nat) : Module :=
  if bad < 2 then m
  else
    let m := m.setReg .FAB_ROW_MAP (key / 16) (key % 16) (RegId.resetValue .FAB_ROW_MAP (key / 16))
    (m.setFld Fld.FAB_CL_STATUS_STATE (key / 16) 0 5).raise (Kind.FAB_PAIR (Fin.ofNat 100 (key / 16))) 0 (key % 16)

/-- The repair records are loaded (R51, R260, R469 step 7): row maps and retired banks. With a bad EEPROM every row is unrepaired
and every bank good (R470). -/
def Module.loadRecords (m : Module) : Module :=
  if m.board.eepromBad then m
  else
    let rows := m.repairRecords.filter (fun p => decide (p.1 < 1600))
    let gone := (m.repairRecords.filter (fun p => decide (65536 ≤ p.1))).map (fun p => p.1 - 65536)
    let m := rows.foldl (fun m p => m.setRowMap (p.1 / 16) (p.1 % 16) p.2.toNat) m
    let m := (rows.map (fun p => p.1 / 16)).foldl (fun m c => m.loadCluster c) m
    let m := m.mapFaults.foldl (fun m p => m.loadBadMap p.1 p.2) m
    let m := { m with mapFaults := (m.mapFaults.filter (fun (p : Nat × Nat) => decide (2 < p.2))).map (fun (p : Nat × Nat) => (p.1, p.2 - 2)) }
    { m with banks := gone.foldl (fun a p => Map.set .reset a p { Bank.reset with state := 2 }) m.banks }

/-- Training rounds of the channels that fail (R470): the first two failures of a channel are retried, the third is kept as 3. -/
def failRound (a : Map Nat) (c : Nat) : Map Nat := Map.insert a c (min 3 (Map.get 0 a c + 1))

/-- A channel that failed training is mapped out, with nothing to copy (R250). [log 82 DEDUCED] -/
def Module.trainMapOut (m : Module) (ch : Nat) : Module :=
  let m := m.setFld Fld.MEM_CH_STATUS_STATE ch 0 2
  (m.formPatches ch).2.raise Kind.MEM_MAPOUT 0 ch

/-- The end of training: more than eight failed channels in a stack end start-up; others are mapped out in ascending order. -/
def Module.endTraining (m : Module) : Module :=
  let bad := (List.range 384).filter (fun c => Map.get 0 m.board.retries c == 3)
  let broken := (List.range 12).filter (fun st => decide (8 < (bad.filter (fun c => c / 32 == st)).length))
  let m := { m with board := { m.board with retries := [] } }
  if !broken.isEmpty then
    let m := (bad.filter (fun c => broken.contains (c / 32))).foldl (fun m c => m.setFld Fld.MEM_CH_STATUS_STATE c 0 3) m
    (broken.foldl (fun m st => m.raise Kind.MEM_TRAIN_FAIL 0 st) m).failStartup
  else
    let m := bad.foldl (fun m c => m.trainMapOut c) m
    { m.loadRecords with board := { m.board with boot := 5 } }

/-- DRAM_TRAINING_DONE (R250, R469, R470): a round of training ends with these channels failing. -/
def execDramTrainingDone (failing : List (Fin 384)) (s : State) : Host.Outcome State Fault Refusal :=
  s.run fun m =>
    if m.board.boot ≠ 4 || !m.clocked || m.board.resetLow then m
    else
      let tries := (failing.eraseDups.map (·.val)).foldl failRound m.board.retries
      let m := { m with board := { m.board with retries := tries } }
      if failing.any (fun c => decide (Map.get 0 tries c.val < 3)) then m else m.endTraining

/-- Free banks of each die (HLD_FREE_BANKS). -/
def Module.countFreeBanks (m : Module) : Word64 :=
  let gone := fun (d : Nat) => (m.banks.filter (fun p => decide (p.1 / 8192 = d) && p.2.state != 0)).length
  BitVec.ofNat 64 ((8192 - gone 0) + (8192 - gone 1) * 2 ^ 16 + (8192 - gone 2) * 2 ^ 32 + (8192 - gone 3) * 2 ^ 48)

/-- STARTUP_ZEROING_DONE (R463, R469 steps 9 and 10): the pool is formed, READY is set, the alive pin starts, the house interval
opens and the first LTR message goes out. HEALTHY is set unless a health test still fails (R285). -/
def execStartupZeroingDone (s : State) : Host.Outcome State Fault Refusal :=
  s.run fun m =>
    if m.board.boot ≠ 5 || !m.clocked then m
    else
      let m := { m with aliveDriven := true, board := { m.board with boot := 6 } }
      let m := (m.setReg .HLD_FREE_BANKS 0 0 m.countFreeBanks).setFld Fld.XLT_POOL_FREE_FRAMES 0 0 m.poolFrames
      let m := (m.setFlag Fld.RNG_ENTROPY_STATUS_HEALTHY 0 0 (!m.board.entropyBad)).setFlag Fld.GLB_STATUS_READY 0 0 true
      let m := ({ m.setPhase phase.ready with ledgerEnergy := m.fld Fld.LDG_MEASURED_MJ } : Module).openLedger 0
      m.sendLtr

/-! ## M resets (R340, R471, R490, R491) -/

/-- RESET (R471): GLB_CTL with its key. -/
def Module.registerReset (m : Module) (value : Word) : Module :=
  if value.getLsbD 0 && bitsAt value.toNat 16 16 == 0xA5C3 then (m.mReset Fld.GLB_RESET_CAUSE_REGISTER).trainLink else m

/-- RESET (R471). -/
def execReset (value : Word) (s : State) : Host.Outcome State Fault Refusal :=
  s.run fun m => m.registerReset value

/-- RESET_N (R490): its rising edge, once the start-up has come to the steps that an M reset repeats; a start-up that its low level
held at step 6 goes on. -/
def execResetN (s : State) : Host.Outcome State Fault Refusal :=
  s.run fun m =>
    let m := { m with board := { m.board with resetLow := false } }
    if 4 ≤ m.board.boot then (m.mReset Fld.GLB_RESET_CAUSE_PIN).trainLink else m

/-- PERST_N (R491): after start-up its assertion is an FLR of the physical function; the link trains again at its release. -/
def execPerstN (s : State) : Host.Outcome State Fault Refusal :=
  s.run fun m =>
    let m := { m with board := { m.board with perst := true } }
    if m.flag Fld.GLB_STATUS_READY then m.mReset Fld.GLB_RESET_CAUSE_PF_FLR else m

/-- PF_FLR (R340, R471). -/
def execPfFlr (s : State) : Host.Outcome State Fault Refusal :=
  s.run fun m => (m.mReset Fld.GLB_RESET_CAUSE_PF_FLR).trainLink

end Sys2Proof.Machine
end

