-- ==== Sys2Proof/Machine/Translation.lean ====
section
/-! DEFINITION. Machine/Translation.lean: allocation and freeing of frames, invalidation, and the root register (R261 to
R271, R275). -/

namespace Sys2Proof.Machine

/-- Frames of a SIZE code; 3 is reserved (R266). -/
def sizeFrames : Nat → Option Nat
  | 0 => some 1
  | 1 => some 32
  | 2 => some 16384
  | _ => none

/-- Serve an allocation request of a tenancy (R266). A request that cannot be met sets FAIL; so does the reserved size. [log 78 DEDUCED] -/
def Module.allocRequest (m : Module) (ten v : Nat) : Module :=
  let near := if bitsAt v 2 1 = 1 then some (bitsAt v 3 2) else none
  let got := match sizeFrames (bitsAt v 0 2) with
    | none => none
    | some 1 => m.allocFrame ten near
    | some n => m.allocRun ten n
  match got with
  | some (f, m) => m.setReg .XLT_TEN_ALLOC_RESULT ten 0 (BitVec.ofNat 64 (2 ^ 63 + f))
  | none => m.setReg .XLT_TEN_ALLOC_RESULT ten 0 (BitVec.ofNat 64 (2 ^ 63 + 2 ^ 62))

/-- XLT_ALLOC_REQ (R266). -/
def Module.askFrames (m : Module) (f : Func) (ten : Ten) (value : Word) : Module :=
  if ten = house then m else m.guardTen f ten fun m => m.allocRequest ten.val value.toNat

/-- XLT_ALLOC_REQ (R266). -/
def execXltAllocReq (f : Func) (ten : Ten) (value : Word) (s : State) : Host.Outcome State Fault Refusal :=
  s.run fun m => m.askFrames f ten value

/-- The migrations whose range holds a frame are abandoned (R254, R271). -/
def Module.abandonFrame (m : Module) (f : Nat) : Module :=
  m.routes.foldl (fun m p =>
    p.2.migrations.foldl (fun m g =>
      if g.2.pages.any (fun x =>
          let n := 2 ^ (levelShift x.level).1 / frameBytes
          (decide (x.old ≤ f) && decide (f < x.old + n)) || (decide (x.target ≤ f) && decide (f < x.target + n))) then
        m.abandonMigration p.1 g.1
      else m) m) m

/-- One frame of a free (R269). -/
def Module.freeOne (m : Module) (ten f : Nat) : Module :=
  let m := m.probe Kind.XLT_PAIR ten f
  let w := m.tag f
  if !tagOk w then (m.raise Kind.XLT_PAIR ten f).quarantine f
  else if !tagAlloc w then m.raise Kind.XLT_UNOWNED_FREE ten f
  else if m.ownsFrame ten f then ((m.abandonFrame f).captureFree ten f).freeFrame f
  else (m.violation ten .xlt).raise Kind.XLT_FOREIGN_FREE ten f

/-- XLT_FREE (R269, R270): each frame of the range is checked by itself; SIZE 3 frees nothing. -/
def Module.xltFree (m : Module) (f : Func) (ten : Ten) (value : Word64) : Module :=
  if ten = house then m
  else m.guardTen f ten fun m =>
    let first := bitsAt value.toNat 0 23
    match sizeFrames (bitsAt value.toNat 23 2) with
    | none => m.raise Kind.XLT_BAD_FREE ten.val first
    | some n => (List.range n).foldl (fun m k => m.freeOne ten.val (first + k)) m

/-- XLT_FREE (R269, R270). -/
def execXltFree (f : Func) (ten : Ten) (value : Word64) (s : State) : Host.Outcome State Fault Refusal :=
  s.run fun m => m.xltFree f ten value

/-- FRAME_SCRUB_DONE (R270): the frame is zeroed, its tag becomes free and it returns to the pool. -/
def execFrameScrubDone (frame : BitVec 23) (s : State) : Host.Outcome State Fault Refusal :=
  s.run fun m =>
    let w := m.tag frame.toNat
    if tagOk w && tagScrub w && !tagAlloc w then m.scrubFrame frame.toNat else m

/-- XLT_INVAL (R264): the cached translations of a range, or of the whole space, are invalidated. -/
def Module.xltInval (m : Module) (f : Func) (ten : Ten) (value : Word64) : Module :=
  if ten = house then m
  else m.guardTen f ten fun m =>
    let n := bitsAt value.toNat 48 16
    let page := bitsAt value.toNat 16 32
    let m := if n = 0 then m.uncachePages ten.val 0 (2 ^ 32) else m.uncachePages ten.val page n
    m.setFld Fld.XLT_TEN_INVAL_DONE_COUNT ten.val 0 (m.fld Fld.XLT_TEN_INVAL_DONE_COUNT ten.val + 1)

/-- XLT_INVAL (R264). -/
def execXltInval (f : Func) (ten : Ten) (value : Word64) (s : State) : Host.Outcome State Fault Refusal :=
  s.run fun m => m.xltInval f ten value

/-- XLT_TEN_ROOT_WRITE (R7, R11): a paired write of the root. -/
def Module.writeRoot (m : Module) (f : Func) (ten : Ten) (value : Word64) : Module :=
  if ten = house then m
  else m.guardTen f ten fun m => m.writePair .XLT_TEN_ROOT Kind.XLT_PAIR ten.val ten.val 0 value

/-- XLT_TEN_ROOT_WRITE (R7, R11). -/
def execXltTenRootWrite (f : Func) (ten : Ten) (value : Word64) (s : State) : Host.Outcome State Fault Refusal :=
  s.run fun m => m.writeRoot f ten value

end Sys2Proof.Machine
end

