-- ==== Sys2Proof/Machine/RegisterAccess.lean ====
section
/-! DEFINITION. Machine/RegisterAccess.lean: what reads and writes of registers do, seen from each function (R6 to R9, R342, R366,
R381, R397, R446, R497). -/

namespace Sys2Proof

open Machine

/-- A register with paired-write fields. -/
def RegId.paired (r : RegId) : Bool := r.fields.any (fun f => f.access == .pw)

/-- A register read by snapshot. -/
def RegId.snapshot (r : RegId) : Bool := r.fields.any (fun f => f.access == .rs)

/-- Registers of the physical function's own window that virtual functions do not have (HIF, QUE). -/
def RegId.pfOnly : RegId → Bool
  | .HIF_LINK_STATUS | .HIF_LTR | .HIF_NMI_STATUS => true
  | _ => false

/-- Per-tenancy registers that no virtual function sees: those of the TEN block (R342) and INT_TWIN. -/
def RegId.hidden : RegId → Bool
  | .TEN_GRANT | .TEN_HOLD | .TEN_DRAM | .TEN_RINGS | .TEN_LAT_TOL | .TEN_STATUS | .TEN_VIOLATION | .INT_TWIN => true
  | _ => false

/-- The bits that a virtual function may store in the registers it sees (R156, R183, R211, R240, R242, R275, R320, R338, R366, R381,
R397, R446). -/
def RegId.vfMask : RegId → Nat
  | .PLC_TEN_CTL => 2 ^ 64 - 1 - 2 ^ 2
  | .PLC_TEN_BAL | .WGT_TEN_BERTH | .WGT_TEN_BERTH_BYTES | .WGT_MISS_POLICY | .WGT_LAYER_DEADLINE | .WGT_TEN_WINDOW
  | .WBL_TEN_BUDGET | .WBL_TEN_PREFILL | .WBL_TEN_KV | .WBL_TEN_RAGGED | .WBL_TEN_RESULT | .WBL_TEN_CTL | .WBL_TEN_GROUP
  | .CVN_RING_BASE | .CVN_RING_CFG
  | .LRN_TEN_BATCH | .LRN_TEN_SLOT | .LRN_TEN_LIMITS | .LRN_TEN_WAIT | .LRN_TEN_MIN | .LRN_TEN_SCHED_VA | .LRN_TEN_SCHED_CTL
  | .LRN_TEN_SCHED_LEN | .LRN_TEN_LAG | .LRN_TEN_GRAD_ADDR | .LRN_TEN_GRAD_LEN
  | .CKP_TEN_BUDDY | .CKP_TEN_AREA | .CKP_TEN_AREA_BYTES | .CKP_TEN_ALIAS
  | .QUE_RING_SEL | .QUE_RING_BASE | .QUE_RING_CFG | .HIF_HCP_REQ | .HIF_VF_NOTICE | .PMC_EN => 2 ^ 64 - 1
  | .PMC_SEL => 2 ^ 16 - 1
  | _ => 0

end Sys2Proof

namespace Sys2Proof.Machine

/-! ## What a register shows -/

/-- ALV_STATUS as the outputs stand (R407). -/
def Pins.alvStatus (p : Pins) : Word64 :=
  let bit := fun (b : Bool) (k : Nat) => if b then 2 ^ k else 0
  BitVec.ofNat 64 (bit p.running 31 + bit p.level 30 + bit p.forced 29 + bit p.clock 28 + bit p.severe 27
    + p.block % 256 * 2 ^ 16 + p.cluster % 128 * 2 ^ 8 + p.kind % 32)

/-- Free hardware barriers of each die (R311). -/
def Module.barriersFree (m : Module) : Word64 :=
  BitVec.ofNat 64 (((List.range 4).map (fun d => (4096 - m.dieBarriers d) * 2 ^ (16 * d))).sum)

/-- The value that a read of a register returns. -/
def Module.shown (m : Module) (r : RegId) (i j : Nat) : Word64 :=
  match r with
  | .INT_SEVERE_SUMMARY => m.pins.severeSum
  | .INT_STATUS_SUMMARY => m.pins.statusSum
  | .INT_FAB_SEVERE => if i = 0 then m.pins.fab0 else m.pins.fab1
  | .ALV_STATUS => m.pins.alvStatus
  | .ALV_STOPS => m.pins.stops
  | .HIF_ID => m.reg .GLB_ID
  | .QUE_RING_INFO => BitVec.ofNat 64 (m.fld Fld.QUE_RING_INFO_CARAVAN i * 2 ^ 32 + (m.ringOwner i).val * 2 ^ 16 + i % 32768)
  | .SYN_BARRIERS_FREE => m.barriersFree
  | r => m.reg r i j

/-! ## The functions' views (R342, R366, R397) -/

/-- The tenancy whose entry an indexed register is. -/
def Module.entryTen (m : Module) (r : RegId) (i : Nat) : Option Ten :=
  match r.owner with
  | .tenancy => if 1 ≤ i ∧ i ≤ 100 then some (Fin.ofNat 101 i) else none
  | .caravan => if m.allocated i then some (Fin.ofNat 101 (m.fld Fld.CVN_RING_CFG_TENANCY i)) else none
  | .channel => if m.flag Fld.DMA_CH_CFG_VALID i then some (m.chTen i) else none
  | .counter => if i < 256 then some (Fin.ofNat 101 (m.fld Fld.PMC_SEL_OWNER i)) else none
  | _ => none

/-- The index at which a function sees a register; none: it does not see it. -/
def Module.seen (m : Module) (f : Func) (r : RegId) (i : Nat) : Option Nat :=
  match r.owner with
  | .func => if (f = 0 && r == .HIF_VF_NOTICE) || (f != 0 && r.pfOnly) then none else some f.val
  | .ring => m.selRing f
  | .tenancy => if 1 ≤ i ∧ i ≤ 100 ∧ (f = 0 ∨ (!r.hidden && (m.tenOf f).map (·.val) == some i)) then some i else none
  | .caravan | .channel | .counter => if f = 0 || (m.entryTen r i).any (fun t => m.tenOf f == some t) then some i else none
  | _ => if f = 0 then some i else none

/-- Key of a function's snapshot latch of a register. [log 154 DEDUCED] -/
def latchKey (f : Func) (r : RegId) (i j : Nat) : Nat := f.val * 2 ^ 64 + regKey r i j

/-- Latch a register for a function. -/
def Module.latch (m : Module) (f : Func) (r : RegId) (i j : Nat) : Module :=
  { m with latches := Map.insert m.latches (latchKey f r i j) (m.shown r i j) }

/-- SNAPSHOT_READ (R8): a read of the low word of an RS register, or a 64-bit read, latches its whole value for the function; that
of RTC_SECONDS latches RTC_FRAC too. Other registers have no latch. -/
def execSnapshotRead (f : Func) (reg : RegId) (i j : Nat) (_wide : Bool) (s : State) : Host.Outcome State Fault Refusal :=
  s.run fun m =>
    match m.seen f reg i with
    | none => m
    | some k =>
      if !reg.snapshot then m
      else if reg == .RTC_SECONDS then (m.latch f reg k j).latch f .RTC_FRAC 0 0
      else m.latch f reg k j

/-- The value that a read of a function returns: the high word of an RS register is the latched one (R8), RTC_FRAC the one latched
with RTC_SECONDS. -/
def Module.readAs (m : Module) (f : Func) (r : RegId) (i j : Nat) (high wide : Bool) : Word64 :=
  match m.seen f r i with
  | none => 0
  | some k =>
    let latched := (Map.get? m.latches (latchKey f r k j)).getD 0
    if r == .RTC_FRAC then latched
    else if wide then m.shown r k j
    else if high then (if r.snapshot then latched else m.shown r k j) >>> 32
    else m.shown r k j &&& 0xFFFFFFFF#64

/-! ## Writes with an effect of their own -/

/-- The block of an error group. -/
def blockOfGroup (g : Nat) : Option Block :=
  if 32 ≤ g && g < 132 then some (.fab (Fin.ofNat 100 (g - 32)))
  else [Block.glb, .clk, .pwr, .rtc, .sbd, .ten, .ldg, .pmc, .alv, .int, .ckp, .via, .col, .mem, .hld, .xlt, .wgt, .wbl,
    .cvn, .lrn, .rng, .dma, .que, .plc, .syn, .dck, .hif].find? (fun b => b.ctorIdx == g)

/-- Apply an effect on the block of an error group. -/
def Module.onGroup (m : Module) (g : Nat) (act : Block → Module → Module) : Module :=
  match blockOfGroup g with
  | some b => act b m
  | none => m

/-- A write of FAB_CL_CTL. -/
def Module.writeClCtl (m : Module) (c : Cluster) (v : Nat) : Module :=
  let m := m.when (bitsAt v 29 1 == 1) (fun m => m.failSite c (BitVec.ofNat 4 v) (BitVec.ofNat 5 (v / 256)))
  let m := m.when (bitsAt v 30 1 == 1) (fun m => m.eraseRepair c)
  m.when (bitsAt v 31 1 == 1) (fun m => m.askRetire c)

/-- A write of QUE_PREEMPT. -/
def Module.writePreempt (m : Module) (v : Nat) : Module :=
  let t := bitsAt v 0 7
  if t = 0 ∨ 100 < t then m
  else
    match bitsAt v 30 2 with
    | 1 => m.suspendTen (Fin.ofNat 101 t) (bitsAt v 8 1 == 1)
    | 2 => m.askResume (Fin.ofNat 101 t)
    | _ => m

/-- A write of TEN_CMD. -/
def Module.writeTenCmd (m : Module) (v : Nat) : Module :=
  let t := bitsAt v 0 7
  if 100 < t then m
  else
    match bitsAt v 30 2 with
    | 1 => m.createTen (Fin.ofNat 101 t)
    | 2 => m.destroyTen (Fin.ofNat 101 t)
    | 3 => m.commandReset (Fin.ofNat 101 t)
    | _ => m

/-- A write of DMA_CH_CTL. -/
def Module.writeChCtl (m : Module) (f : Func) (c v : Nat) : Module :=
  let ch := BitVec.ofNat 9 c
  match v % 8 with
  | 1 => m.guardCh f c fun m => m.pauseFerry c false
  | 2 => m.guardCh f c fun m => m.pauseFerry c true
  | 3 => m.resumeCh f ch
  | 4 => m.retryCh f ch
  | 5 => m.skipCh f ch
  | _ => m

/-- A write of CLK_CTL. -/
def Module.writeClkCtl (m : Module) (mask v : Nat) : Module :=
  let m := m.storeFields .CLK_CTL 0 0 mask v
  let m := m.when (bitsAt v 1 1 == 1) (fun m => m.reselect)
  m.when (bitsAt v 2 1 == 1) (fun m => m.leaveHold)

/-- A write of SYN_CTL: once tunnels are permitted, the messages that waited for one go out (R314, R315). -/
def Module.writeSynCtl (m : Module) (mask v : Nat) : Module :=
  let m := m.storeFields .SYN_CTL 0 0 mask v
  if m.flag Fld.SYN_CTL_TUNNEL_EN then
    ((List.range 6).filter m.linkUp).foldl (fun m p => m.flushSync p (fun _ => true)) m
  else m

/-- A write of VIA_PORT_CTL. -/
def Module.writePortCtl (m : Module) (p : Fin 6) (mask v : Nat) : Module :=
  let was := m.flag Fld.VIA_PORT_CTL_DISABLE p.val
  let off := bitsAt v 31 1 == 1
  let m := m.storeFields .VIA_PORT_CTL p.val 0 mask v
  let m := if was == off then m else m.disablePort p off
  m.when (bitsAt v 30 1 == 1) (fun m => m.startRetrain p.val)

/-- A write of CVN_RING_CFG: the other fields are stored before ENABLE is acted on (R214). -/
def Module.writeCvnCfg (m : Module) (k mask v : Nat) : Module :=
  let was := m.flag Fld.CVN_RING_CFG_ENABLE k
  let on := if bitsAt mask 31 1 = 1 then bitsAt v 31 1 == 1 else was
  let m := m.storeFields .CVN_RING_CFG k 0 (mask &&& (2 ^ 64 - 1 - 2 ^ 31)) v
  if !was && on then m.enableCaravan k
  else if was && !on then (m.setFlag Fld.CVN_RING_CFG_ENABLE k 0 false).mirrorFill (Fin.ofNat 101 (m.fld Fld.CVN_RING_CFG_TENANCY k))
  else m

/-- Events that a counter may count (R380). -/
abbrev eventCodes : List Nat := [0x2001, 0x2002, 0x1101, 0x1102, 0x0D01, 0x0D02, 0x0E01, 0x0F01, 0x1001, 0x1201, 0x1301, 0x0C01,
  0x1601, 0x1701, 0x0B02, 0x0B03]

/-- A write of PMC_SEL: an EVENT that is not listed sets BAD. -/
def Module.writePmcSel (m : Module) (i mask v : Nat) : Module :=
  let m := m.storeFields .PMC_SEL i 0 mask v
  m.setFlag Fld.PMC_SEL_BAD i 0 (!eventCodes.contains (m.fld Fld.PMC_SEL_EVENT i))

/-- The buddy registers keep their values while a capture or a restore runs (R446). -/
def Module.buddyFrozen (m : Module) (r : RegId) (t : Nat) : Bool :=
  (r == .CKP_TEN_BUDDY || r == .CKP_TEN_AREA || r == .CKP_TEN_AREA_BYTES || r == .CKP_TEN_ALIAS)
    && decide (2 ≤ m.fld Fld.CKP_TEN_STATUS_STATE t)

/-- A paired register: only one 64-bit write is accepted (R7, R9). A virtual function writes only XLT_TEN_ROOT among them. -/
def Module.writePaired (m : Module) (f : Func) (r : RegId) (t : Ten) (wide : Bool) (v : Word64) : Module :=
  let k := if r == .XLT_TEN_ROOT then Kind.XLT_PAIR else if r == .VIA_JOB then Kind.VIA_PAIR else Kind.TEN_PAIR
  if f != 0 && r != .XLT_TEN_ROOT then m
  else if !wide then m.raise k t.val t.val
  else if r == .XLT_TEN_ROOT then m.writeRoot f t v
  else if r == .VIA_JOB then m.writeJob t v
  else m.writeGrant r t v

/-- A write of a register that a function sees, at its index, within a mask. A part of a 64-bit register that the write does not
cover is zero for an action. [log 153 DESIGN CHOICE] -/
def Module.writeReg (m : Module) (f : Func) (r : RegId) (k j mask v : Nat) : Module :=
  let t : Ten := Fin.ofNat 101 k
  let w := v &&& mask
  match r with
  | .FAB_CL_CTL => if k < 100 then m.writeClCtl (Fin.ofNat 100 k) w else m
  | .WBL_TEN_ACTION => if bitsAt w 30 2 = 0 then m else m.guardTen f t fun m => m.actOn t (bitsAt w 0 14) (bitsAt w 30 2)
  | .WBL_PEEK_SEL => m.peekWaybill (w % 16384)
  | .CVN_RING_CFG => m.guardRing f k fun m => m.writeCvnCfg k mask v
  | .CVN_RING_CONSUME => m.guardRing f k fun m => m.consumeTo k w
  | .MEM_CH_CTL => if bitsAt w 31 1 = 1 && decide (w % 512 < 384) then m.mapOut (w % 512) else m
  | .HLD_MAP_SEL => m.selectMap (w % 65536)
  | .HLD_BANK_SEL => m.selectBank (w % 32768)
  | .XLT_TEN_ALLOC_REQ => m.askFrames f t (BitVec.ofNat 32 w)
  | .XLT_TEN_FREE => m.xltFree f t (BitVec.ofNat 64 w)
  | .XLT_TEN_INVAL => m.xltInval f t (BitVec.ofNat 64 w)
  | .RNG_KAT_CTL => m.katGo (BitVec.ofNat 32 w)
  | .VIA_PORT_CTL => if k < 6 then m.writePortCtl (Fin.ofNat 6 k) mask v else m
  | .VIA_DISC_CTL => m.writeDisc mask v
  | .SYN_CTL => m.writeSynCtl mask v
  | .QUE_PREEMPT => m.writePreempt w
  | .QUE_TEN_CMD_ABORT => m.abortWrite f t (BitVec.ofNat 64 w)
  | .QUE_RING_CFG => m.writeRingCfg f mask v
  | .QUE_RING_BASE =>
    match m.ownRing f with
    | some g => m.reshape g (fun m => m.storeFields r k j mask v)
    | none => m
  | .HIF_HCP_REQ => m.hcpRequest f (BitVec.ofNat 32 w)
  | .HIF_LTR => m.writeLtr (BitVec.ofNat 32 w)
  | .TEN_CMD => m.writeTenCmd w
  | .DMA_CH_CTL => m.writeChCtl f k w
  | .ERR_SEVERE => m.onGroup k fun b m => m.clearSevere b w
  | .ERR_CLEAR => m.onGroup k fun b m => m.clearErrors b (BitVec.ofNat 32 w)
  | .INT_TWIN => m.writeTwin t (BitVec.ofNat 32 w)
  | .INT_SIG_SEL => m.writeSigSel w
  | .CLK_CTL => m.writeClkCtl mask v
  | .PWR_CTL => (m.storeFields r k j mask v).when (bitsAt w 31 1 == 1) (fun m => m.wake)
  | .PWR_LAT_TOL => (m.storeFields r k j mask v).latChanged
  | .RTC_CTL => m.when (w % 2 == 1) (fun m => m.rtcLoad)
  | .GLB_CTL => m.registerReset (BitVec.ofNat 32 w)
  | .PMC_SEL => m.writePmcSel k mask v
  | r => if m.buddyFrozen r k then m else m.storeFields r k j mask v

/-- REGISTER_WRITE (R6, R7, R9, R342): a write of a register by a function. A write that addresses another tenancy's entry is
ignored and counted; one to a register that the function does not see is ignored. -/
def execRegisterWrite (f : Func) (reg : RegId) (i j : Nat) (high wide : Bool) (value : Word64) (s : State) :
    Host.Outcome State Fault Refusal :=
  s.run fun m =>
    match m.seen f reg i with
    | none =>
      match m.entryTen reg i with
      | some t => if f = 0 || t = house || reg.hidden then m else m.guardTen f t id
      | none => m
    | some k =>
      if reg.paired then m.writePaired f reg (Fin.ofNat 101 k) wide value
      else
        let mask := spanMask reg high wide
        m.writeReg f reg k j (if f = 0 then mask else mask &&& (reg.vfMask ||| reg.maskOf .wo)) (spanValue reg high wide value.toNat)

end Sys2Proof.Machine
end

