-- ==== Sys2Proof/Machine/Sideband.lean ====
section
/-! DEFINITION. Machine/Sideband.lean: the sideband target, its address, its mirrors and its alert, and the local bus (R477 to
R487, R495). -/

namespace Sys2Proof.Machine

/-! ## The target (R477, R478, R485) -/

/-- The target answers: the trims are loaded (R477). -/
def Module.sideUp (m : Module) : Bool := decide (2 ≤ m.board.boot)

/-- A transaction that the target answers; before that its address is not acknowledged. [log 155 DESIGN CHOICE] -/
def Module.onSide (m : Module) (act : Module → Module) : Module := if m.sideUp then act m else m.send .sideNack

/-- BAD_COMMAND is raised and counted. -/
def Module.sideBad (m : Module) : Module := (m.addFld Fld.SBD_EVENTS_BAD_COMMANDS 0 0).raise Kind.SBD_BAD_COMMAND 0 0

/-- A byte fails its PEC, or a PEC that must follow is missing (R480). -/
def Module.sidePec (m : Module) : Module := (m.addFld Fld.SBD_EVENTS_PEC_FAILS 0 0).raise Kind.SBD_PEC 0 0

/-- LAST_ERR of STATUS. -/
def Module.setLastErr (m : Module) (b : Bool) : Module := { m with side := { m.side with lastErr := b } }

/-- Move the pointer. -/
def Module.setPointer (m : Module) (p : Nat) : Module := { m with side := { m.side with pointer := p % 2 ^ 32 } }

/-- The byte that addresses the target, for a write or a read: the present address (R483) above the direction bit. -/
def Module.sideAddr (m : Module) (reads : Bool) : Byte := byteOf (2 * m.fld Fld.SBD_ADDR_ADDRESS + if reads then 1 else 0)

/-- The PEC byte of a transaction (R480): over every byte of it, the addresses among them. [log 194 DEDUCED] -/
def pecOf (bs : List Byte) : Byte := byteOf (crc8 bs)

/-- A write transaction (R480): `bs` are its command, count and data, `pec` the PEC byte that follows them, if one does. A
mismatch NACKs that byte and discards the write; without PEC it is discarded while PEC_REQUIRED is set. [log 194 DEDUCED] -/
def Module.takeWrite (m : Module) (bs : List Byte) (pec : Option Byte) (f : Module → Module) : Module :=
  match pec with
  | some b =>
    let m := m.probe Kind.SBD_PEC 0 0
    if b = pecOf (m.sideAddr false :: bs) then f m else (m.send .sideNack).sidePec
  | none => if m.flag Fld.SBD_CTL_PEC_REQUIRED then m.sidePec else f m

/-- Answer a read transaction: its data, and the PEC that the target supplies after them (R480). -/
def Module.sideAnswer (m : Module) (head data : List Byte) : Module := m.send (.side data (pecOf (head ++ data)))

/-- Command codes of the register protocol (R478). -/
abbrev sideCodes : List Nat := [0x01, 0x02, 0x10, 0x11, 0x12, 0x20, 0x21]

/-- BAD_COMMAND (R478). -/
def execBadCommand (code : Byte) (s : State) : Host.Outcome State Fault Refusal :=
  s.run fun m => m.onSide fun m => if sideCodes.contains code.toNat then m else (m.send .sideNack).sideBad

/-- BUS_CLEAR (R485): the state machine is reset; the address and the pointer stay. -/
def execBusClear (s : State) : Host.Outcome State Fault Refusal :=
  s.run fun m => m

/-- STUCK_SDA (R485): SB_SDA is released and the state machine reset; the address and the pointer stay. -/
def execStuckSda (s : State) : Host.Outcome State Fault Refusal :=
  s.run fun m => (m.addFld Fld.SBD_EVENTS_STUCK_RELEASES 0 0).raise Kind.SBD_STUCK_SDA 0 0

/-- SCL_TIMEOUT (R485). -/
def execSclTimeout (s : State) : Host.Outcome State Fault Refusal :=
  s.run fun m => (m.addFld Fld.SBD_EVENTS_TIMEOUTS 0 0).raise Kind.SBD_TIMEOUT 0 0

/-! ## Address assignment (R483) -/

/-- Addresses that ASSIGN refuses. -/
def badAddress (v : Nat) : Bool :=
  decide (v ≤ 7) || v == 0x0C || v == 0x5B || v == 0x61 || decide (0x78 ≤ v)

/-- ASSIGN (R483): answered at 0x5B only while the module is unassigned and its ASSIGN_IN is high. -/
def execAssign (assignIn : Bool) (value : Byte) (s : State) (pec : Option Byte := none) : Host.Outcome State Fault Refusal :=
  s.run fun m =>
    if !m.sideUp || m.flag Fld.SBD_ADDR_ASSIGNED || !assignIn then m.send .sideNack
    else if badAddress value.toNat then (m.send .sideNack).raise Kind.SBD_ASSIGN_REFUSED 0 value.toNat
    else m.takeWrite [0x01, value] pec fun m =>
      let m := (m.setFld Fld.SBD_ADDR_ADDRESS 0 0 value.toNat).setFlag Fld.SBD_ADDR_ASSIGNED 0 0 true
      { m with side := { m.side with assignOut := true } }

/-- UNASSIGN (R483): the module is unassigned and ASSIGN_OUT falls. -/
def execUnassign (s : State) (pec : Option Byte := none) : Host.Outcome State Fault Refusal :=
  s.run fun m =>
    if !m.sideUp || !m.flag Fld.SBD_ADDR_ASSIGNED then m.send .sideNack
    else m.takeWrite [0x02, 0xC3, 0xA5] pec fun m =>
      let m := m.setReg .SBD_ADDR 0 0 (RegId.SBD_ADDR.resetValue 0)
      { m with side := { m.side with assignOut := false } }

/-- THERM_TRIP_N is low: from a thermal trip to the P reset (R459, R488). Its assertion at an undervoltage lasts no longer than
the shutdown (R489), which is one command. -/
def Module.thermTripLow (m : Module) : Bool := m.board.tripped

/-! ## The alert (R482) -/

/-- Some ERR_SEVERE bit is set, or a thermal trip is in force. -/
def Module.alertCause (m : Module) : Bool := !(m.groupsWith .ERR_SEVERE).isEmpty || m.board.tripped

/-- SB_ALERT_N is asserted: not by an unassigned module, and not, after a response released it, before a further kind is severe. -/
def Module.alerting (m : Module) : Bool :=
  m.flag Fld.SBD_CTL_ALERT_EN && m.flag Fld.SBD_ADDR_ASSIGNED && m.alertCause
    && (m.side.alertAt.map (fun n => decide (n < m.side.severeRises))).getD true

/-- ALERT_RESPONSE (R482): an asserted module answers with its address and releases SB_ALERT_N. -/
def execAlertResponse (s : State) : Host.Outcome State Fault Refusal :=
  s.run fun m => m.onSide fun m =>
    if m.alerting then
      { m.sideAnswer [0x19] [byteOf (2 * m.fld Fld.SBD_ADDR_ADDRESS)] with side := { m.side with alertAt := some m.side.severeRises } }
    else m.send .sideNack

/-! ## Registers through the mirrors (R479 to R481) -/

/-- Registers of the SBD block, which the target reads itself. [log 160 DESIGN CHOICE] -/
abbrev sbdRegs : List RegId := [.SBD_ADDR, .SBD_CTL, .SBD_EVENTS, .SBD_LOCAL_STATUS]

/-- The registers that are mirrored in the I/O die, with their index. -/
def mirrored : List (RegId × Nat) :=
  ([.GLB_ID, .GLB_SERIAL, .GLB_STATUS, .GLB_MODULE, .GLB_RESET_CAUSE, .CLK_STATUS, .PWR_STATUS, .PWR_THERMAL, .ALV_STATUS,
    .LDG_MEASURED, .RTC_SECONDS, .RTC_FRAC, .INT_SEVERE_SUMMARY, .INT_STATUS_SUMMARY, .VIA_DISC_STATUS, .PWR_CAP,
    .VIA_DISC_CTL] : List RegId).map (fun r => (r, 0))
    ++ (List.range 6).map (fun p => (RegId.VIA_PORT_STATUS, p)) ++ (List.range 6).map (fun p => (RegId.VIA_PORT_PEER, p))

/-- Registers that the sideband may write. -/
abbrev sideWritable : List RegId := [.PWR_CAP, .VIA_DISC_CTL]

/-- A mirror: before its first refresh it holds the register's reset value (R495). -/
def Module.mirrorOf (m : Module) (r : RegId) (i : Nat) : Word64 :=
  (Map.get? m.side.mirror (regKey r i 0)).getD (r.resetValue i)

/-- Key of the sideband's own latch of RTC_FRAC (R8, R479). -/
def sideLatch : Nat := 128 * 2 ^ 64 + regKey .RTC_FRAC 0 0

/-- What the sideband reads of a register. -/
def Module.sideValue (m : Module) (r : RegId) (i : Nat) : Word64 :=
  if sbdRegs.contains r then m.reg r
  else if r == .RTC_FRAC then (Map.get? m.latches sideLatch).getD 0
  else m.mirrorOf r i

/-- A register of `width` bits at offset `o` lies in the 8 bytes at the pointer. -/
def inWindow (p o width : Nat) : Bool := decide (p ≤ o) && decide (o + width / 8 ≤ p + 8)

/-- The reachable registers that lie in the 8 bytes at the pointer. -/
def sideRegs (p : Nat) : List (RegId × Nat) :=
  (mirrored ++ sbdRegs.map (fun r => (r, 0))).filter (fun x => inWindow p (x.1.offset x.2 0) x.1.width)

/-- The 8 bytes at the pointer: zero where no reachable register lies. -/
def Module.sideBytes (m : Module) (p : Nat) : List Byte :=
  leBytes 8 ((sideRegs p).map (fun x => (m.sideValue x.1 x.2).toNat % 2 ^ x.1.width * 2 ^ (8 * (x.1.offset x.2 0 - p)))).sum

/-- READ (R479): answers the 8 bytes, latches RTC_FRAC with RTC_SECONDS, and advances the pointer. -/
def execRead (s : State) : Host.Outcome State Fault Refusal :=
  s.run fun m => m.onSide fun m =>
    let p := m.side.pointer
    let m := m.sideAnswer [m.sideAddr false, 0x11, m.sideAddr true, 8] (m.sideBytes p)
    let m := if (sideRegs p).any (fun x => x.1 == .RTC_SECONDS) then
        { m with latches := Map.insert m.latches sideLatch (m.mirrorOf .RTC_FRAC 0) }
      else m
    m.setPointer (p + 8)

/-- POINTER (R478, R480). -/
def execPointer (value : Word) (s : State) (pec : Option Byte := none) : Host.Outcome State Fault Refusal :=
  s.run fun m => m.onSide fun m => m.takeWrite ([0x10, 4] ++ leBytes 4 value.toNat) pec fun m => m.setPointer value.toNat

/-- A WRITE that passed its PEC (R479): the writable registers that lie wholly in the 8 bytes take their values within 1 ms, or
when their block is awake; one that writes nothing sets LAST_ERR. -/
def Module.sideWrite (m : Module) (v : Nat) : Module :=
  let p := m.side.pointer
  let hit := (sideRegs p).filter (fun x => sideWritable.contains x.1)
  let m :=
    if !m.flag Fld.SBD_CTL_WRITE_EN || hit.isEmpty then (m.setLastErr true).sideBad
    else { m with side := { m.side with writes := m.side.writes ++ hit.map (fun x =>
        (regKey x.1 x.2 0, BitVec.ofNat 64 (bitsAt v (8 * (x.1.offset x.2 0 - p)) x.1.width))) } }
  m.setPointer (p + 8)

/-- WRITE (R479, R480). -/
def execWrite (value : Word64) (pec : Option Byte) (s : State) : Host.Outcome State Fault Refusal :=
  s.run fun m => m.onSide fun m => m.takeWrite ([0x12, 8] ++ leBytes 8 value.toNat) pec fun m => m.sideWrite value.toNat

/-- STATUS (R478, R479): the status byte; LAST_ERR clears. -/
def execStatus (s : State) : Host.Outcome State Fault Refusal :=
  s.run fun m => m.onSide fun m =>
    let bit := fun (b : Bool) (k : Nat) => if b then 2 ^ k else 0
    let b := bit (m.flag Fld.GLB_STATUS_READY) 0 + bit m.pins.running 1 + bit (m.flag Fld.SBD_ADDR_ASSIGNED) 2
      + bit m.side.lastErr 3 + bit m.board.tripped 4
    (m.sideAnswer [m.sideAddr false, 0x20, m.sideAddr true] [byteOf b]).setLastErr false

/-- WAKE (R464, R478). -/
def execWake (s : State) : Host.Outcome State Fault Refusal :=
  s.run fun m => m.onSide fun m => m.wake

/-- MIRROR_REFRESH (R481): writes take effect, then each mirror of an awake block takes the register's value. -/
def execMirrorRefresh (s : State) : Host.Outcome State Fault Refusal :=
  s.run fun m =>
    if !m.sideUp then m
    else
      let m := m.sideWrites
      let fresh := (mirrored.filter (fun x => m.mirrorAwake x.1)).foldl
        (fun a x => Map.insert a (regKey x.1 x.2 0) (m.shown x.1 x.2 0)) m.side.mirror
      { m with side := { m.side with mirror := fresh } }

/-! ## The local bus (R486, R487) -/

/-- Device of the front-end stage and input monitor. -/
abbrev frontEnd : Nat := 0x40

/-- A failed poll: its retry has failed too. -/
def Module.pollFailed (m : Module) : Module :=
  let n := min 3 (m.board.pollFails + 1)
  let now := m.board.pollFails = 2
  let m := { m with board := { m.board with pollFails := n } }
  let m := (m.addFld Fld.SBD_LOCAL_STATUS_RETRIES 0 0).setFlag Fld.SBD_LOCAL_STATUS_FRONT_END_OK 0 0 false
  let m := (m.setFld Fld.SBD_LOCAL_STATUS_DEVICE 0 0 frontEnd).raise Kind.SBD_LOCAL_BUS 0 frontEnd
  if now then m.raise Kind.PWR_INPUT_MONITOR 0 0 else m

/-- LOCAL_BUS_POLL (R486, R487): the readings feed LDG_MEASURED and INPUT_W; three failed polls in a row raise INPUT_MONITOR. [log 157 DEDUCED] -/
def execLocalBusPoll (ok : Bool) (energy : Word64) (watts : BitVec 16) (s : State) : Host.Outcome State Fault Refusal :=
  s.run fun m =>
    if !m.sideUp then m
    else if ok then
      let m := { m with board := { m.board with pollFails := 0 } }
      let m := (m.setFlag Fld.SBD_LOCAL_STATUS_FRONT_END_OK 0 0 true).setReg .LDG_MEASURED 0 0 energy
      m.setFld Fld.PWR_STATUS_INPUT_W 0 0 watts.toNat
    else m.pollFailed

end Sys2Proof.Machine
end

