-- ==== Sys2Proof/Machine/TileBay.lean ====
section
/-! DEFINITION. Machine/TileBay.lean: bay loads and stores (R99). -/

namespace Sys2Proof.Machine

/-- Access size of LD by mod: U8, S8, U16, S16, W32 (R99). -/
def ldSize (mod : Nat) : Nat := if mod ≤ 1 then 1 else if mod ≤ 3 then 2 else 4

/-- Extend the loaded bytes to a word (R99). -/
def ldExtend (mod v : Nat) : Word :=
  match mod with
  | 0 => BitVec.ofNat 32 v
  | 1 => (BitVec.ofNat 8 v).signExtend 32
  | 2 => BitVec.ofNat 32 v
  | 3 => (BitVec.ofNat 16 v).signExtend 32
  | _ => BitVec.ofNat 32 v

def formLd : Form := { d := .s, a := .s, mods := [0, 1, 2, 3, 4], imm := 0xFFFFFFFF }

/-- LD (R99): s[d] = extended bay value. -/
def execLd (t : TileId) (w : Fields) (s : State) : Host.Outcome State Fault Refusal :=
  s.tileOp t 0x20 w formLd fun cx m =>
    m.eachE cx fun _ x => do
      let n := ldSize w.mod.toNat
      let bs ← x.bayRead (x.bayAddr w n) n
      return x.setS w.d.toNat (ldExtend w.mod.toNat (leNat bs))

/-- Access size of ST by mod: B, H, W (R99). -/
def stSize (mod : Nat) : Nat := if mod = 0 then 1 else if mod = 2 then 2 else 4

def formSt : Form := { a := .s, b := .s, mods := [0, 2, 4], imm := 0xFFFFFFFF }

/-- ST (R99): the bay takes the low bits of s[b]. -/
def execSt (t : TileId) (w : Fields) (s : State) : Host.Outcome State Fault Refusal :=
  s.tileOp t 0x21 w formSt fun cx m =>
    m.eachE cx fun _ x =>
      let n := stSize w.mod.toNat
      x.bayWrite (x.bayAddr w n) (leBytes n (x.sreg w.b.toNat).toNat)

def formLda : Form := { d := .a, a := .s, imm := 0xFFFFFFFF }

/-- LDA (R99): a[d] = 8 bytes. -/
def execLda (t : TileId) (w : Fields) (s : State) : Host.Outcome State Fault Refusal :=
  s.tileOp t 0x22 w formLda fun cx m =>
    m.eachE cx fun _ x => do
      let bs ← x.bayRead (x.bayAddr w 8) 8
      return x.setA w.d.toNat (BitVec.ofNat 64 (leNat bs))

def formSta : Form := { a := .s, b := .a, imm := 0xFFFFFFFF }

/-- STA (R99): 8 bytes = a[b]. -/
def execSta (t : TileId) (w : Fields) (s : State) : Host.Outcome State Fault Refusal :=
  s.tileOp t 0x23 w formSta fun cx m =>
    m.eachE cx fun _ x => x.bayWrite (x.bayAddr w 8) (leBytes 8 (x.areg w.b.toNat).toNat)

/-- Word `l` of a list of bytes. -/
def wordAt (bs : List Byte) (l : Nat) : Word := BitVec.ofNat 32 (fieldAt bs (4 * l) 4)

def formLdv : Form := { d := .v, a := .s, mods := List.range 8, imm := 0xFFFFFFFF }

/-- LDV (R99): lane i of v[d] takes word i of 128 bytes where bit i of the predicate in mod is 1. -/
def execLdv (t : TileId) (w : Fields) (s : State) : Host.Outcome State Fault Refusal :=
  s.tileOp t 0x24 w formLdv fun cx m =>
    m.eachE cx fun _ x => do
      let bs ← x.bayRead (x.bayAddr w 128) 128
      return x.setLanes w.d.toNat (x.preg w.mod.toNat) (wordAt bs)

/-- Store the words of the predicated lanes, lane by lane (R99). -/
def Tile.storeLanes (x : Tile) (a r : Nat) (mask : Word) : Except Misuse Tile :=
  (List.range 32).foldlM (fun x l =>
    if mask.getLsbD l then x.bayWrite (a + 4 * l) (leBytes 4 (x.lane r l).toNat) else .ok x) x

def formStv : Form := { a := .s, b := .v, mods := List.range 8, imm := 0xFFFFFFFF }

/-- STV (R99): word i of 128 bytes takes lane i of v[b] where bit i of the predicate in mod is 1. -/
def execStv (t : TileId) (w : Fields) (s : State) : Host.Outcome State Fault Refusal :=
  s.tileOp t 0x25 w formStv fun cx m =>
    m.eachE cx fun _ x =>
      let a := x.bayAddr w 128
      if 0x10000 < a + 128 then .error .bayRange else x.storeLanes a w.b.toNat (x.preg w.mod.toNat)

end Sys2Proof.Machine
end

