-- ==== Sys2Proof/Machine/TileScalar.lean ====
section
/-! DEFINITION. Machine/TileScalar.lean: scalar, address, special-register and predicate-move instructions
(R81, R97, R98). -/

namespace Sys2Proof.Machine

def formAlu : Form := { d := .s, a := .s, b := .s, mods := List.range 16 }

/-- ALU op (R97): s[d] = s[a] op s[b]. -/
def execAlu (t : TileId) (w : Fields) (s : State) : Host.Outcome State Fault Refusal :=
  s.tileOp t 0x10 w formAlu fun cx m =>
    .ok (m.each cx (fun _ x => x.setS w.d.toNat (aluOp w.mod.toNat (x.sreg w.a.toNat) (x.sreg w.b.toNat))))

def formAlui : Form := { d := .s, a := .s, mods := List.range 16, imm := 0xFFFFFFFF }

/-- ALUI op (R97): s[d] = s[a] op imm. -/
def execAlui (t : TileId) (w : Fields) (s : State) : Host.Outcome State Fault Refusal :=
  s.tileOp t 0x11 w formAlui fun cx m =>
    .ok (m.each cx (fun _ x => x.setS w.d.toNat (aluOp w.mod.toNat (x.sreg w.a.toNat) w.imm)))

def formMovi : Form := { d := .s, imm := 0xFFFFFFFF }

/-- MOVI (R97): s[d] = imm. -/
def execMovi (t : TileId) (w : Fields) (s : State) : Host.Outcome State Fault Refusal :=
  s.tileOp t 0x12 w formMovi fun cx m => .ok (m.each cx (fun _ x => x.setS w.d.toNat w.imm))

/-- MUL and DIV share opcode 0x13; mod tells them apart (R97). -/
def formMulDiv : Form := { d := .s, a := .s, b := .s, mods := List.range 7 }

/-- MUL, MULH, MULHU (R97): mod 0 to 2. A mod of 3 to 6 is a DIV word, which this row does not issue. -/
def execMul (t : TileId) (w : Fields) (s : State) : Host.Outcome State Fault Refusal :=
  s.tileOp (others := [3, 4, 5, 6]) t 0x13 w formMulDiv fun cx m =>
    .ok (m.each cx (fun _ x => x.setS w.d.toNat (mulOp w.mod.toNat (x.sreg w.a.toNat) (x.sreg w.b.toNat))))

/-- DIV, DIVU, REM, REMU (R97, R98): mod 3 to 6. -/
def execDiv (t : TileId) (w : Fields) (s : State) : Host.Outcome State Fault Refusal :=
  s.tileOp (others := [0, 1, 2]) t 0x13 w formMulDiv fun cx m =>
    .ok (m.each cx (fun _ x => x.setS w.d.toNat (divOp w.mod.toNat (x.sreg w.a.toNat) (x.sreg w.b.toNat))))

/-- AADD (R98) is mod 0 of opcode 0x18: a[d] = a[a] + sext64(s[b]). -/
def formAadd : Form := { d := .a, a := .a, b := .s }

def execAadd (t : TileId) (w : Fields) (s : State) : Host.Outcome State Fault Refusal :=
  s.tileOp (others := [1, 2, 3, 4]) t 0x18 w formAadd fun cx m =>
    .ok (m.each cx (fun _ x => x.setA w.d.toNat (x.areg w.a.toNat + (x.sreg w.b.toNat).signExtend 64)))

def formAaddi : Form := { d := .a, a := .a, mods := [1], imm := 0xFFFFFFFF }

/-- AADDI (R98): a[d] = a[a] + sext64(imm). -/
def execAaddi (t : TileId) (w : Fields) (s : State) : Host.Outcome State Fault Refusal :=
  s.tileOp (others := [0, 2, 3, 4]) t 0x18 w formAaddi fun cx m =>
    .ok (m.each cx (fun _ x => x.setA w.d.toNat (x.areg w.a.toNat + w.imm.signExtend 64)))

def formAset : Form := { d := .a, a := .s, b := .s, mods := [2] }

/-- ASET (R98): a[d] = (s[b] << 32) | s[a]. -/
def execAset (t : TileId) (w : Fields) (s : State) : Host.Outcome State Fault Refusal :=
  s.tileOp (others := [0, 1, 3, 4]) t 0x18 w formAset fun cx m =>
    .ok (m.each cx (fun _ x => x.setA w.d.toNat (x.sreg w.b.toNat ++ x.sreg w.a.toNat)))

def formAlo : Form := { d := .s, a := .a, mods := [3] }

/-- ALO (R98): s[d] = a[a][31:0]. -/
def execAlo (t : TileId) (w : Fields) (s : State) : Host.Outcome State Fault Refusal :=
  s.tileOp (others := [0, 1, 2, 4]) t 0x18 w formAlo fun cx m =>
    .ok (m.each cx (fun _ x => x.setS w.d.toNat ((x.areg w.a.toNat).setWidth 32)))

def formAhi : Form := { d := .s, a := .a, mods := [4] }

/-- AHI (R98): s[d] = a[a][63:32]. -/
def execAhi (t : TileId) (w : Fields) (s : State) : Host.Outcome State Fault Refusal :=
  s.tileOp (others := [0, 1, 2, 3]) t 0x18 w formAhi fun cx m =>
    .ok (m.each cx (fun _ x => x.setS w.d.toNat ((x.areg w.a.toNat >>> 32).setWidth 32)))

/-- Special registers that a program may read: those of R81, for Skaesque 2 indices 0x00 to 0x09 only (R108). -/
def specialListed (skq2 : Bool) (i : Nat) : Bool :=
  decide (i ≤ 0x09) || (!skq2 && (decide (i ≤ 0x0C) || (decide (0x10 ≤ i) && decide (i ≤ 0x13))))

/-- Remaining iterations of loop level `k`, 0 the outermost (R81). -/
def loopCount (loops : List Loop) (k : Nat) : Word :=
  match loops.reverse[k]? with
  | some l => l.count
  | none => 0

/-- The value of a special register (R81). CYCLE is a measured amount: a free value. [log 12 DESIGN CHOICE] -/
def Module.special (m : Module) (cx : Ctx) (u : TileId) (x : Tile) (i : Nat) (cycle : Word64) : Word :=
  let step := (m.cl u.cl.val).step
  match i with
  | 0x00 => BitVec.ofNat 32 u.row.val
  | 0x01 => BitVec.ofNat 32 u.col.val
  | 0x02 => BitVec.ofNat 32 (u.row.val - cx.o.row.val)
  | 0x03 => BitVec.ofNat 32 (u.col.val - cx.o.col.val)
  | 0x04 => BitVec.ofNat 32 (m.spanIdx u)
  | 0x05 => BitVec.ofNat 32 (m.fld Fld.FAB_CL_ASSIGN_LOGICAL u.cl.val)
  | 0x06 => step.setWidth 32
  | 0x07 => (step >>> 32).setWidth 32
  | 0x08 => cycle.setWidth 32
  | 0x09 => x.cycleHi
  | 0x0A => match x.marker with
    | some k => (1#16 ++ k.version)
    | none => 0
  | 0x0B => match x.marker with
    | some k => k.layer.setWidth 32
    | none => 0
  | 0x0C => BitVec.ofNat 32 x.entryKind
  | 0x10 => loopCount x.loops 0
  | 0x11 => loopCount x.loops 1
  | 0x12 => loopCount x.loops 2
  | _ => BitVec.ofNat 32 x.loops.length

def formSrd : Form := { d := .s, imm := 0xFF }

/-- SRD (R81, R98): s[d] = special register imm[7:0]; an unlisted index halts with SPECIAL. A read of CYCLE_LO latches
CYCLE_HI. -/
def execSrd (t : TileId) (w : Fields) (s : State) : Host.Outcome State Fault Refusal :=
  s.tileOp t 0x1C w formSrd fun cx m =>
    let i := immBits w 0 8
    if !specialListed cx.sg.prog.skq2 i then .ok (m.haltTile cx.o cause.special)
    else
      let cycle := m.free64
      let m := if i = 0x08 then m.drawn else m
      .ok (m.each cx (fun u x =>
        let x := if i = 0x08 then { x with cycleHi := (cycle >>> 32).setWidth 32 } else x
        x.setS w.d.toNat (m.special cx u x i cycle)))

def formPtos : Form := { d := .s, a := .p }

/-- PTOS (R98): s[d] = p[a]. -/
def execPtos (t : TileId) (w : Fields) (s : State) : Host.Outcome State Fault Refusal :=
  s.tileOp (others := [1]) t 0x1D w formPtos fun cx m => .ok (m.each cx (fun _ x => x.setS w.d.toNat (x.preg w.a.toNat)))

def formStop : Form := { d := .p, a := .s, mods := [1] }

/-- STOP (R98): p[d] = s[a]. -/
def execStop (t : TileId) (w : Fields) (s : State) : Host.Outcome State Fault Refusal :=
  s.tileOp (others := [0]) t 0x1D w formStop fun cx m => .ok (m.each cx (fun _ x => x.setP w.d.toNat (x.sreg w.a.toNat)))

end Sys2Proof.Machine
end

