-- ==== Sys2Proof/Machine/Dispatch.lean ====
section
/-! DEFINITION. Machine/Dispatch.lean: the meaning of every command, one arm per constructor. -/

namespace Sys2Proof.Machine

def exec (i : Instr) (s : State) : Host.Outcome State Fault Refusal :=
  match i with
  | .nop t op w => Sys2Proof.Machine.execNop t op w s
  | .halt t w => Sys2Proof.Machine.execHalt t w s
  | .br t w => Sys2Proof.Machine.execBr t w s
  | .bCc t w => Sys2Proof.Machine.execBCc t w s
  | .call t w => Sys2Proof.Machine.execCall t w s
  | .jr t w => Sys2Proof.Machine.execJr t w s
  | .loop t w => Sys2Proof.Machine.execLoop t w s
  | .alu t w => Sys2Proof.Machine.execAlu t w s
  | .alui t w => Sys2Proof.Machine.execAlui t w s
  | .movi t w => Sys2Proof.Machine.execMovi t w s
  | .mul t w => Sys2Proof.Machine.execMul t w s
  | .div t w => Sys2Proof.Machine.execDiv t w s
  | .aadd t w => Sys2Proof.Machine.execAadd t w s
  | .aaddi t w => Sys2Proof.Machine.execAaddi t w s
  | .aset t w => Sys2Proof.Machine.execAset t w s
  | .alo t w => Sys2Proof.Machine.execAlo t w s
  | .ahi t w => Sys2Proof.Machine.execAhi t w s
  | .srd t w => Sys2Proof.Machine.execSrd t w s
  | .ptos t w => Sys2Proof.Machine.execPtos t w s
  | .stop t w => Sys2Proof.Machine.execStop t w s
  | .ld t w => Sys2Proof.Machine.execLd t w s
  | .st t w => Sys2Proof.Machine.execSt t w s
  | .lda t w => Sys2Proof.Machine.execLda t w s
  | .sta t w => Sys2Proof.Machine.execSta t w s
  | .ldv t w => Sys2Proof.Machine.execLdv t w s
  | .stv t w => Sys2Proof.Machine.execStv t w s
  | .hld t w => Sys2Proof.Machine.execHld t w s
  | .hst t w => Sys2Proof.Machine.execHst t w s
  | .xld t w => Sys2Proof.Machine.execXld t w s
  | .xst t w => Sys2Proof.Machine.execXst t w s
  | .waitt t w => Sys2Proof.Machine.execWaitt t w s
  | .transferComplete t tag => Sys2Proof.Machine.execTransferComplete t tag s
  | .hldBcastRendezvous c row mask => Sys2Proof.Machine.execHldBcastRendezvous c row mask s
  | .send t w => Sys2Proof.Machine.execSend t w s
  | .sendv t w => Sys2Proof.Machine.execSendv t w s
  | .recv t w => Sys2Proof.Machine.execRecv t w s
  | .recvv t w => Sys2Proof.Machine.execRecvv t w s
  | .mark t w => Sys2Proof.Machine.execMark t w s
  | .bar t w => Sys2Proof.Machine.execBar t w s
  | .barrierPhaseComplete route barrier => Sys2Proof.Machine.execBarrierPhaseComplete route barrier s
  | .flag t w => Sys2Proof.Machine.execFlag t w s
  | .flagw t w => Sys2Proof.Machine.execFlagw t w s
  | .cmt t w => Sys2Proof.Machine.execCmt t w s
  | .cmtStep t w => Sys2Proof.Machine.execCmtStep t w s
  | .clusterCommit c => Sys2Proof.Machine.execClusterCommit c s
  | .clusterRelease c => Sys2Proof.Machine.execClusterRelease c s
  | .stepKill route => Sys2Proof.Machine.execStepKill route s
  | .wld t w => Sys2Proof.Machine.execWld t w s
  | .wflip t w => Sys2Proof.Machine.execWflip t w s
  | .vers t w => Sys2Proof.Machine.execVers t w s
  | .tollRelease route stage layer => Sys2Proof.Machine.execTollRelease route stage layer s
  | .mma t w => Sys2Proof.Machine.execMma t w s
  | .qscan t w => Sys2Proof.Machine.execQscan t w s
  | .qcvt t w => Sys2Proof.Machine.execQcvt t w s
  | .tsmv t w => Sys2Proof.Machine.execTsmv t w s
  | .adrain t w => Sys2Proof.Machine.execAdrain t w s
  | .afl t w => Sys2Proof.Machine.execAfl t w s
  | .vfop t w => Sys2Proof.Machine.execVfop t w s
  | .vfma t w => Sys2Proof.Machine.execVfma t w s
  | .viop t w => Sys2Proof.Machine.execViop t w s
  | .vfun t w => Sys2Proof.Machine.execVfun t w s
  | .vcmp t w => Sys2Proof.Machine.execVcmp t w s
  | .vsel t w => Sys2Proof.Machine.execVsel t w s
  | .vcvt t w => Sys2Proof.Machine.execVcvt t w s
  | .vred t w => Sys2Proof.Machine.execVred t w s
  | .vsplat t w => Sys2Proof.Machine.execVsplat t w s
  | .vget t w => Sys2Proof.Machine.execVget t w s
  | .vput t w => Sys2Proof.Machine.execVput t w s
  | .vperm t w => Sys2Proof.Machine.execVperm t w s
  | .viota t w => Sys2Proof.Machine.execViota t w s
  | .rnu t w => Sys2Proof.Machine.execRnu t w s
  | .rnb t w => Sys2Proof.Machine.execRnb t w s
  | .icacheMissFill t line => Sys2Proof.Machine.execIcacheMissFill t line s
  | .tileFault c row offset kind => Sys2Proof.Machine.execTileFault c row offset kind s
  | .repairSparePowered c => Sys2Proof.Machine.execRepairSparePowered c s
  | .repairSelftestDone c => Sys2Proof.Machine.execRepairSelftestDone c s
  | .repairBayShiftDone c => Sys2Proof.Machine.execRepairBayShiftDone c s
  | .repairRefillDone c => Sys2Proof.Machine.execRepairRefillDone c s
  | .repairRecordAppend c => Sys2Proof.Machine.execRepairRecordAppend c s
  | .retire c => Sys2Proof.Machine.execRetire c s
  | .clearFieldRepair c => Sys2Proof.Machine.execClearFieldRepair c s
  | .failSite c row offset => Sys2Proof.Machine.execFailSite c row offset s
  | .deckPacketArrive n => Sys2Proof.Machine.execDeckPacketArrive n s
  | .xReservationGrant t vc => Sys2Proof.Machine.execXReservationGrant t vc s
  | .xSegmentInject t vc => Sys2Proof.Machine.execXSegmentInject t vc s
  | .bridgeChannelFail edge ch => Sys2Proof.Machine.execBridgeChannelFail edge ch s
  | .dckStallExpire t => Sys2Proof.Machine.execDckStallExpire t s
  | .routeLoad id => Sys2Proof.Machine.execRouteLoad id s
  | .routeStart id => Sys2Proof.Machine.execRouteStart id s
  | .routeStop id => Sys2Proof.Machine.execRouteStop id s
  | .plcRemeasure route stage => Sys2Proof.Machine.execPlcRemeasure route stage s
  | .balancePeriod => Sys2Proof.Machine.execBalancePeriod s
  | .clusterMoveStart c route stage => Sys2Proof.Machine.execClusterMoveStart c route stage s
  | .clusterMoveReassign c => Sys2Proof.Machine.execClusterMoveReassign c s
  | .clusterMoveComplete c => Sys2Proof.Machine.execClusterMoveComplete c s
  | .itemDispense t => Sys2Proof.Machine.execItemDispense t s
  | .schedOpDispense t => Sys2Proof.Machine.execSchedOpDispense t s
  | .weightLoad id => Sys2Proof.Machine.execWeightLoad id s
  | .weightSwap id => Sys2Proof.Machine.execWeightSwap id s
  | .leanBuild id => Sys2Proof.Machine.execLeanBuild id s
  | .baseShareLoad id => Sys2Proof.Machine.execBaseShareLoad id s
  | .baseShareGrant id => Sys2Proof.Machine.execBaseShareGrant id s
  | .baseShareRevoke id => Sys2Proof.Machine.execBaseShareRevoke id s
  | .baseShareFree id => Sys2Proof.Machine.execBaseShareFree id s
  | .layerStaged ten queued layer => Sys2Proof.Machine.execLayerStaged ten queued layer s
  | .streamFetchComplete ten layer => Sys2Proof.Machine.execStreamFetchComplete ten layer s
  | .swapFrontFix ten => Sys2Proof.Machine.execSwapFrontFix ten s
  | .swapComplete ten => Sys2Proof.Machine.execSwapComplete ten s
  | .swapTimeout ten => Sys2Proof.Machine.execSwapTimeout ten s
  | .layerDeadlineExpire route stage layer => Sys2Proof.Machine.execLayerDeadlineExpire route stage layer s
  | .waybillSubmit ring => Sys2Proof.Machine.execWaybillSubmit ring s
  | .stepBuild ten => Sys2Proof.Machine.execStepBuild ten s
  | .stepProcess ten => Sys2Proof.Machine.execStepProcess ten s
  | .seqendDeferredWrite waybill => Sys2Proof.Machine.execSeqendDeferredWrite waybill s
  | .pauseKeep f ten waybill => Sys2Proof.Machine.execPauseKeep f ten waybill s
  | .pauseDrop f ten waybill => Sys2Proof.Machine.execPauseDrop f ten waybill s
  | .abort f ten waybill => Sys2Proof.Machine.execAbort f ten waybill s
  | .slotReceive ten slot => Sys2Proof.Machine.execSlotReceive ten slot s
  | .wblPeekSel value => Sys2Proof.Machine.execWblPeekSel value s
  | .caravanRingEnable f k => Sys2Proof.Machine.execCaravanRingEnable f k s
  | .caravanRingConsume f k slot => Sys2Proof.Machine.execCaravanRingConsume f k slot s
  | .rewardEntry ring => Sys2Proof.Machine.execRewardEntry ring s
  | .caravanStallExpire k => Sys2Proof.Machine.execCaravanStallExpire k s
  | .batchBuild ten => Sys2Proof.Machine.execBatchBuild ten s
  | .batchWaitExpire ten => Sys2Proof.Machine.execBatchWaitExpire ten s
  | .learnStepHoldRelease ten => Sys2Proof.Machine.execLearnStepHoldRelease ten s
  | .memPatrolExpire => Sys2Proof.Machine.execMemPatrolExpire s
  | .mapOut ch => Sys2Proof.Machine.execMapOut ch s
  | .mapOutComplete ch => Sys2Proof.Machine.execMapOutComplete ch s
  | .holdPatrolExpire => Sys2Proof.Machine.execHoldPatrolExpire s
  | .hldMapSel value => Sys2Proof.Machine.execHldMapSel value s
  | .hldBankSel value => Sys2Proof.Machine.execHldBankSel value s
  | .skewWindowEnd => Sys2Proof.Machine.execSkewWindowEnd s
  | .migrationStart route buffer => Sys2Proof.Machine.execMigrationStart route buffer s
  | .migrationPassDone route buffer tooLong => Sys2Proof.Machine.execMigrationPassDone route buffer tooLong s
  | .xltAllocReq f ten value => Sys2Proof.Machine.execXltAllocReq f ten value s
  | .xltFree f ten value => Sys2Proof.Machine.execXltFree f ten value s
  | .frameScrubDone frame => Sys2Proof.Machine.execFrameScrubDone frame s
  | .xltInval f ten value => Sys2Proof.Machine.execXltInval f ten value s
  | .xltTenRootWrite f ten value => Sys2Proof.Machine.execXltTenRootWrite f ten value s
  | .entropyTestFail => Sys2Proof.Machine.execEntropyTestFail s
  | .rngSelftestPeriod bad => Sys2Proof.Machine.execRngSelftestPeriod bad s
  | .katGo value => Sys2Proof.Machine.execKatGo value s
  | .katDone => Sys2Proof.Machine.execKatDone s
  | .flitReceive p fecOk flit => Sys2Proof.Machine.execFlitReceive p fecOk flit s
  | .syncMarkMiss p => Sys2Proof.Machine.execSyncMarkMiss p s
  | .nakReceive p ack => Sys2Proof.Machine.execNakReceive p ack s
  | .laneFail p lane => Sys2Proof.Machine.execLaneFail p lane s
  | .retrainStart p => Sys2Proof.Machine.execRetrainStart p s
  | .retrainComplete p ok peerAck => Sys2Proof.Machine.execRetrainComplete p ok peerAck s
  | .linkUp p peerMax => Sys2Proof.Machine.execLinkUp p peerMax s
  | .portDown p => Sys2Proof.Machine.execPortDown p s
  | .retrain p => Sys2Proof.Machine.execRetrain p s
  | .portDisable p value => Sys2Proof.Machine.execPortDisable p value s
  | .packetForward p => Sys2Proof.Machine.execPacketForward p s
  | .packetDeliver p => Sys2Proof.Machine.execPacketDeliver p s
  | .viaJobWrite ten value => Sys2Proof.Machine.execViaJobWrite ten value s
  | .discoveryLinkFlit p peerPort x y z dims => Sys2Proof.Machine.execDiscoveryLinkFlit p peerPort x y z dims s
  | .syncMessageReceive p laneA laneB => Sys2Proof.Machine.execSyncMessageReceive p laneA laneB s
  | .groupOpComplete n => Sys2Proof.Machine.execGroupOpComplete n s
  | .collectiveOnce id => Sys2Proof.Machine.execCollectiveOnce id s
  | .collectiveBind id => Sys2Proof.Machine.execCollectiveBind id s
  | .collectiveUnbind id => Sys2Proof.Machine.execCollectiveUnbind id s
  | .boundInstanceStart ten slot step => Sys2Proof.Machine.execBoundInstanceStart ten slot step s
  | .chunkReceive pkt => Sys2Proof.Machine.execChunkReceive pkt s
  | .resendRequest pkt => Sys2Proof.Machine.execResendRequest pkt s
  | .instanceComplete n => Sys2Proof.Machine.execInstanceComplete n s
  | .colTimeoutExpire n => Sys2Proof.Machine.execColTimeoutExpire n s
  | .doorbell f ring bytes value => Sys2Proof.Machine.execDoorbell f ring bytes value s
  | .ringEnable f value => Sys2Proof.Machine.execRingEnable f value s
  | .ringDisable f value => Sys2Proof.Machine.execRingDisable f value s
  | .hcpReq f value => Sys2Proof.Machine.execHcpReq f value s
  | .commandTake ring => Sys2Proof.Machine.execCommandTake ring s
  | .commandComplete id => Sys2Proof.Machine.execCommandComplete id s
  | .commandKill id => Sys2Proof.Machine.execCommandKill id s
  | .fence id => Sys2Proof.Machine.execFence id s
  | .timestamp id => Sys2Proof.Machine.execTimestamp id s
  | .queTenCmdAbort f ten value => Sys2Proof.Machine.execQueTenCmdAbort f ten value s
  | .suspend ten drain => Sys2Proof.Machine.execSuspend ten drain s
  | .resume ten => Sys2Proof.Machine.execResume ten s
  | .functionLevelReset f => Sys2Proof.Machine.execFunctionLevelReset f s
  | .hifLtrWrite value => Sys2Proof.Machine.execHifLtrWrite value s
  | .create ten => Sys2Proof.Machine.execCreate ten s
  | .destroy ten => Sys2Proof.Machine.execDestroy ten s
  | .tenancyReset ten => Sys2Proof.Machine.execTenancyReset ten s
  | .tenGrantWrite reg ten value => Sys2Proof.Machine.execTenGrantWrite reg ten value s
  | .grantPendingFill ten => Sys2Proof.Machine.execGrantPendingFill ten s
  | .teardownScrubDone ten => Sys2Proof.Machine.execTeardownScrubDone ten s
  | .ledgerIntervalEnd => Sys2Proof.Machine.execLedgerIntervalEnd s
  | .ledgerRecordWrite => Sys2Proof.Machine.execLedgerRecordWrite s
  | .ferryDescriptor ch => Sys2Proof.Machine.execFerryDescriptor ch s
  | .ferryDescriptorComplete ch => Sys2Proof.Machine.execFerryDescriptorComplete ch s
  | .pause f ch => Sys2Proof.Machine.execPause f ch s
  | .drain f ch => Sys2Proof.Machine.execDrain f ch s
  | .dmaResume f ch => Sys2Proof.Machine.execDmaResume f ch s
  | .retry f ch => Sys2Proof.Machine.execRetry f ch s
  | .skip f ch => Sys2Proof.Machine.execSkip f ch s
  | .remoteWrite pkt => Sys2Proof.Machine.execRemoteWrite pkt s
  | .remoteReadReq pkt => Sys2Proof.Machine.execRemoteReadReq pkt s
  | .remoteReadData pkt => Sys2Proof.Machine.execRemoteReadData pkt s
  | .remoteAck pkt => Sys2Proof.Machine.execRemoteAck pkt s
  | .remoteNak pkt => Sys2Proof.Machine.execRemoteNak pkt s
  | .dmaTimeoutExpire ch => Sys2Proof.Machine.execDmaTimeoutExpire ch s
  | .errClassWindowExpire b kind => Sys2Proof.Machine.execErrClassWindowExpire b kind s
  | .errSevereClear b value => Sys2Proof.Machine.execErrSevereClear b value s
  | .errClear b value => Sys2Proof.Machine.execErrClear b value s
  | .errInjectInv b value => Sys2Proof.Machine.execErrInjectInv b value s
  | .complementScrub => Sys2Proof.Machine.execComplementScrub s
  | .forceStop value => Sys2Proof.Machine.execForceStop value s
  | .intTwinWrite ten value => Sys2Proof.Machine.execIntTwinWrite ten value s
  | .sigPop value => Sys2Proof.Machine.execSigPop value s
  | .patternRun id => Sys2Proof.Machine.execPatternRun id s
  | .ckptBuddyOnce id => Sys2Proof.Machine.execCkptBuddyOnce id s
  | .ckptBuddyPeriodic id => Sys2Proof.Machine.execCkptBuddyPeriodic id s
  | .ckptBuddyStop id => Sys2Proof.Machine.execCkptBuddyStop id s
  | .ckptDurable id => Sys2Proof.Machine.execCkptDurable id s
  | .ckptRestore id => Sys2Proof.Machine.execCkptRestore id s
  | .captureHold ten => Sys2Proof.Machine.execCaptureHold ten s
  | .shardData pkt => Sys2Proof.Machine.execShardData pkt s
  | .manifest pkt => Sys2Proof.Machine.execManifest pkt s
  | .ckpAck ten => Sys2Proof.Machine.execCkpAck ten s
  | .ckpNak ten => Sys2Proof.Machine.execCkpNak ten s
  | .readReq pkt => Sys2Proof.Machine.execReadReq pkt s
  | .readData pkt => Sys2Proof.Machine.execReadData pkt s
  | .restoreInstall ten => Sys2Proof.Machine.execRestoreInstall ten s
  | .ckpTimeoutExpire ten => Sys2Proof.Machine.execCkpTimeoutExpire ten s
  | .clockMonitorWindow count => Sys2Proof.Machine.execClockMonitorWindow count s
  | .pllUnlock => Sys2Proof.Machine.execPllUnlock s
  | .holdExit => Sys2Proof.Machine.execHoldExit s
  | .reselect => Sys2Proof.Machine.execReselect s
  | .tileStepEval watts hottest => Sys2Proof.Machine.execTileStepEval watts hottest s
  | .thermalTrip => Sys2Proof.Machine.execThermalTrip s
  | .idleDwellExpire => Sys2Proof.Machine.execIdleDwellExpire s
  | .powerStateEntryDone => Sys2Proof.Machine.execPowerStateEntryDone s
  | .wakeEvent => Sys2Proof.Machine.execWakeEvent s
  | .forceS0 => Sys2Proof.Machine.execForceS0 s
  | .powerStateExitDone => Sys2Proof.Machine.execPowerStateExitDone s
  | .rtcLoad => Sys2Proof.Machine.execRtcLoad s
  | .rtcTick => Sys2Proof.Machine.execRtcTick s
  | .rtcOscFail => Sys2Proof.Machine.execRtcOscFail s
  | .powerOn => Sys2Proof.Machine.execPowerOn s
  | .trimsLoaded => Sys2Proof.Machine.execTrimsLoaded s
  | .railsRegulated => Sys2Proof.Machine.execRailsRegulated s
  | .crystalQualifyTimeout => Sys2Proof.Machine.execCrystalQualifyTimeout s
  | .dramTrainingDone failing => Sys2Proof.Machine.execDramTrainingDone failing s
  | .startupZeroingDone => Sys2Proof.Machine.execStartupZeroingDone s
  | .railFault => Sys2Proof.Machine.execRailFault s
  | .reset value => Sys2Proof.Machine.execReset value s
  | .resetN => Sys2Proof.Machine.execResetN s
  | .perstN => Sys2Proof.Machine.execPerstN s
  | .undervoltage => Sys2Proof.Machine.execUndervoltage s
  | .assign assignIn value pec => Sys2Proof.Machine.execAssign assignIn value s pec
  | .unassign pec => Sys2Proof.Machine.execUnassign s pec
  | .pointer value pec => Sys2Proof.Machine.execPointer value s pec
  | .read => Sys2Proof.Machine.execRead s
  | .write value pec => Sys2Proof.Machine.execWrite value pec s
  | .status => Sys2Proof.Machine.execStatus s
  | .wake => Sys2Proof.Machine.execWake s
  | .alertResponse => Sys2Proof.Machine.execAlertResponse s
  | .stuckSda => Sys2Proof.Machine.execStuckSda s
  | .sclTimeout => Sys2Proof.Machine.execSclTimeout s
  | .mirrorRefresh => Sys2Proof.Machine.execMirrorRefresh s
  | .localBusPoll ok energy watts => Sys2Proof.Machine.execLocalBusPoll ok energy watts s
  | .snapshotRead f reg n j wide => Sys2Proof.Machine.execSnapshotRead f reg n j wide s
  | .registerWrite f reg n j high wide value => Sys2Proof.Machine.execRegisterWrite f reg n j high wide value s
  | .syncMarkAccept p => Sys2Proof.Machine.execSyncMarkAccept p s
  | .failedFrame p => Sys2Proof.Machine.execFailedFrame p s
  | .retrainSignal p => Sys2Proof.Machine.execRetrainSignal p s
  | .pcieLinkDown => Sys2Proof.Machine.execPcieLinkDown s
  | .cplTimeout id => Sys2Proof.Machine.execCplTimeout id s
  | .pfFlr => Sys2Proof.Machine.execPfFlr s
  | .perstNRelease => Sys2Proof.Machine.execPerstNRelease s
  | .entropyHealthy => Sys2Proof.Machine.execEntropyHealthy s
  | .errAliveStop b value => Sys2Proof.Machine.execErrAliveStop b value s
  | .badCommand code => Sys2Proof.Machine.execBadCommand code s
  | .busClear => Sys2Proof.Machine.execBusClear s

end Sys2Proof.Machine
end

