-- ==== Sys2Proof/Safety.lean ====
section
/-! DEFINITION. Safety.lean: the terms in which the statements about the machine are made: settled outputs, what a command
leaves unchanged, and what it means that a span issues an instruction and carries it out. -/

namespace Sys2Proof.Machine

/-! ## Settled outputs (R404, R407, R408) -/

/-- The summary registers and the alive pin follow the error groups: the severe summary and the status summary name the
groups whose ERR_SEVERE and ERR_STATUS are not zero, and the pin toggles where start-up has ended and no source stops it. -/
structure Settled (m : Module) : Prop where
  severe : m.pins.severeSum = summaryOf (m.groupsWith .ERR_SEVERE)
  status : m.pins.statusSum = summaryOf (m.groupsWith .ERR_STATUS)
  fab0 : m.pins.fab0 = fabSummary (m.groupsWith .ERR_SEVERE) 0
  fab1 : m.pins.fab1 = fabSummary (m.groupsWith .ERR_SEVERE) 1
  running : m.pins.running = (m.aliveDriven && !m.aliveStopped)

/-! ## Frames -/

/-- A register by name and indices. -/
abbrev RegRef := RegId × Nat × Nat

/-- Every register but those of a list reads as before; registers with the indices that the register index allows. -/
def RegsKept (m m' : Module) (but : List RegRef) : Prop :=
  ∀ r i j, i < 2 ^ 24 → j < 2 ^ 16 → (r, i, j) ∉ but → m'.reg r i j = m.reg r i j

/-- Every register whose name is not in a list reads as before. -/
def OtherRegsKept (m m' : Module) (but : List RegId) : Prop :=
  ∀ r i j, i < 2 ^ 24 → j < 2 ^ 16 → r ∉ but → m'.reg r i j = m.reg r i j

/-- Registers that an event of a kind, and the SIG_LOST that it may raise in its turn, can write (R402 to R405, R421). -/
def errRefs (b : Block) : List RegRef :=
  [(.ERR_STATUS, b.group, 0), (.ERR_FIRST_INFO0, b.group, 0), (.ERR_FIRST_INFO1, b.group, 0), (.ERR_COUNT, b.group, 0),
   (.ERR_SEVERE, b.group, 0), (.INT_SIG_COUNT, 0, 0), (.HIF_NMI_STATUS, 0, 0),
   (.ERR_STATUS, Block.int.group, 0), (.ERR_FIRST_INFO0, Block.int.group, 0), (.ERR_FIRST_INFO1, Block.int.group, 0),
   (.ERR_COUNT, Block.int.group, 0), (.ERR_SEVERE, Block.int.group, 0)]

/-- The module but for what an event writes: registers, the class windows, the messages sent, the live signatures, the
count of free values and of severe rises. -/
def Module.exceptEvent (m m' : Module) : Module :=
  { m with regs := m'.regs, errWin := m'.errWin, out := m'.out, sigs := m'.sigs, freeIx := m'.freeIx,
           side := { m.side with severeRises := m'.side.severeRises } }

/-- The command changed the registers of a list and nothing else; the outputs follow. -/
def OnlyRegs (s s' : State) (but : List RegRef) : Prop :=
  s'.pending = s.pending ∧ s'.mod = ({ s.mod with regs := s'.mod.regs }).settle ∧ RegsKept s.mod s'.mod but

/-- The command recorded one event of a kind: its ERR_STATUS bit is set, the count of its group has risen by one or
stands saturated with OVERFLOW, and nothing changed but what an event writes (R402). -/
structure Recorded (s s' : State) (k : Kind) (but : List RegRef) : Prop where
  pending : s'.pending = s.pending
  status : (s'.mod.reg .ERR_STATUS k.block.group).getLsbD k.bit = true
  others : ∀ b, b < 32 → b ≠ k.bit → k.block ≠ .int →
    (s'.mod.reg .ERR_STATUS k.block.group).getLsbD b = (s.mod.reg .ERR_STATUS k.block.group).getLsbD b
  rest : s'.mod = (s.mod.exceptEvent s'.mod).settle
  regs : RegsKept s.mod s'.mod (errRefs k.block ++ but)

/-! ## Tile instructions -/

/-- A tile whose control state has moved past the instruction at the origin's program counter: loops that end there are
counted down or closed, and the core is ready (R78, R96). -/
def Tile.moveOn (x o : Tile) : Tile :=
  { x with pc := (loopEnd o.pc o.loops).1, loops := (loopEnd o.pc o.loops).2, core := .ready }

/-- Why a word of a form is illegal, by the program's version. -/
def Form.bad (f : Form) (w : Fields) : Bool → Option Nat := fun skq2 => f.illegal skq2 w

/-- The span of tile `t` issues the word: its cluster is released in a running route and the word stands at its program
counter (`issueCtx`), no check of its cluster has an injection armed, and the word is legal for the program's version. -/
structure Issues (s : State) (t : TileId) (op : Byte) (w : Fields) (bad : Bool → Option Nat) (cx : Ctx) : Prop where
  issue : s.mod.issueCtx t op w = some cx
  calm : s.mod.reg .ERR_INJECT_INV (32 + cx.o.cl.val) = 0
  legal : bad cx.sg.prog.skq2 = none

/-- The instruction after the one at the span's program counter lies inside the code. -/
def Inside (m : Module) (cx : Ctx) : Prop := (loopEnd (m.tile cx.o).pc (m.tile cx.o).loops).1 < cx.sg.prog.codeLen

/-- Every tile of the span became what `f` makes of it; every other tile is that of `base`, every register, memory and queue
is that of `base`, and the outputs follow. -/
structure SpanBecame (base : Module) (s s' : State) (cx : Ctx) (f : TileId → Tile → Tile) : Prop where
  pending : s'.pending = s.pending
  rest : s'.mod = ({ base with tiles := s'.mod.tiles }).settle
  tiles : ∀ u, s'.mod.tile u = if u ∈ base.spanTiles cx.o then f u (base.tile u) else base.tile u

/-- The span carried an instruction out: every tile of it became what `f` makes of it, with the control state moved past the
instruction, and nothing else changed from `base`. -/
def SpanDid (base : Module) (s s' : State) (cx : Ctx) (f : TileId → Tile → Tile) : Prop :=
  SpanBecame base s s' cx (fun u x => (f u x).moveOn (base.tile cx.o))

/-- The span went to a program counter with the given loops active, each tile otherwise as `f` makes it (R95, R96). -/
def SpanWent (s s' : State) (cx : Ctx) (pc : Nat) (loops : List Loop) (f : Tile → Tile) : Prop :=
  SpanBecame s.mod s s' cx (fun _ x => { f x with pc := pc, loops := loops, core := .ready })

/-- The span waits on the word, and nothing else changed. -/
def SpanWaits (s s' : State) (cx : Ctx) (op : Byte) (w : Fields) : Prop :=
  SpanBecame s.mod s s' cx (fun _ x => { x with core := .waiting op w })

/-- Wherever its span issues the word with the next instruction inside the code, the command completes: every tile of the
span becomes what `f` makes of it, and nothing else changes. -/
def Computes (c : Instr) (t : TileId) (op : Byte) (w : Fields) (bad : Bool → Option Nat)
    (f : Module → Ctx → TileId → Tile → Tile) : Prop :=
  ∀ s cx, Issues s t op w bad cx → Inside s.mod cx →
    ∃ s', exec c s = .next s' ∧ SpanDid s.mod s s' cx (f s.mod cx)

/-- The tile halts with a cause of R107: the route's command ends ABORTED with it and the step is killed. -/
def Halts (c : Instr) (s : State) (cx : Ctx) (cause : Nat) : Prop :=
  exec c s = .next { s with mod := (s.mod.haltTile cx.o cause).settle }

/-- No latent parity error stands on the path of a block, and none is to be injected there (R400, R415). -/
def Module.pathClear (m : Module) (b : Block) : Prop :=
  m.reg .ERR_INJECT_INV Block.int.group = 0 ∧ m.pathErr.contains b = false

/-- Packets join those in flight on the Deck. -/
def Module.onDeck (m : Module) (ks : List DeckPkt) : Module := { m with deck := m.deck ++ ks }

/-- The command completes, and the module it leaves is `m` with the outputs brought in line; the queue is as it was. -/
def Yields (c : Instr) (s : State) (m : Module) : Prop := exec c s = .next { s with mod := m.settle }

/-- A route that uses none of the engines beside the tiles: no weight record, no capture, no learning batch, no bound collective. -/
structure PlainRoute (m : Module) (r : Route) : Prop where
  weights : m.wrec r.ten.val = none
  capture : m.capture r.ten = none
  batches : r.batches = []
  slots : m.slots = []

/-- The command with this id is taken, is of the row's opcode, may start now, and passes its header checks (R355, R358). -/
structure CmdReady (m : Module) (id op : Nat) (c : Cmd) : Prop where
  here : m.cmd id = some c
  taken : c.phase = .taken
  opcode : c.op = op
  may : m.canStart c = true
  header : m.headerStatus c = none

/-- The command completes in a state of whose module `more` holds; the queue is as it was. -/
def Completes (c : Instr) (s : State) (more : Module → Prop) : Prop :=
  ∃ s', exec c s = .next s' ∧ s'.pending = s.pending ∧ more s'.mod

/-- The command row ends the host's command `k` with a status: it is done, and its completion is to be posted (R358). -/
def Ends (c : Instr) (s : State) (id : Nat) (k : Cmd) (status : Nat) (more : Module → Prop) : Prop :=
  ∃ detail, Completes c s (fun m => m.cmd id = some { k with phase := .done status detail } ∧ more m)

/-- The module in which the command has started. -/
def Module.begun (m : Module) (id : Nat) (c : Cmd) : Module := m.setCmd id { c with phase := .started }

/-- The command has no effect on a settled machine: it completes and leaves the module as it was. -/
def NoEffect (c : Instr) (s : State) : Prop := Yields c s s.mod

/-- The module with a base in a slot. -/
def Module.setBase (m : Module) (b : Nat) (x : SharedBase) : Module := { m with bases := Map.insert m.bases b x }

/-- The module with a base granted at an address. -/
def Module.setGrant (m : Module) (k va : Nat) : Module :=
  { m with baseGrants := Map.insert m.baseGrants k va }

end Sys2Proof.Machine
end

