-- ==== Sys2Proof/Certificates/Slice0/Obligations.lean ====
section
/-! DEFINITION. Certificates/Slice0/Obligations.lean: the statements about the module, for the provers. -/

open Sys2Proof Sys2Proof.Machine

/-! ## The machine -/

/-- A step with a command at the front of the queue is `exec` of that command with the queue's rest. -/
def Obligations.StepRunsFrontCommand : Prop :=
  ∀ (c : Instr) (rest : List Instr) (m : Module), step ⟨m, c :: rest⟩ = exec c ⟨m, rest⟩

/-- With no command waiting the block idles: the model's own choice (log entry 1). -/
def Obligations.StepIdlesOnEmptyQueue : Prop := ∀ m : Module, step ⟨m, []⟩ = .next ⟨m, []⟩

/-- Every command goes to a next state, in every state of the module, and leaves the queue behind it as it was: no command
stops the block. What the next state holds, the statements about each command say. -/
def Obligations.CommandsLeaveTheQueue : Prop :=
  ∀ (c : Instr) (s : State), ∃ s', exec c s = .next s' ∧ s'.pending = s.pending

/-- From every state, a command that completes leaves the summary registers and the alive pin following the error groups
(R404, R407, R408). -/
def Obligations.StepSettlesOutputs : Prop :=
  ∀ (c : Instr) (rest : List Instr) (m : Module) (s' : State), step ⟨m, c :: rest⟩ = .next s' → Settled s'.mod

/-- The outputs at reset: nothing is severe, and the pin does not run. -/
def Obligations.ResetIsSettled : Prop := Settled State.reset.mod ∧ State.reset.pending = []

/-- What a reset leaves (R10): every register reads its reset value; every memory is zero; no tile, route, ring, command
or port holds anything.
Where these rules leave a point open it follows the model (log entries 2, 10 and 158). -/
def Obligations.ResetState : Prop :=
  (∀ r i j, State.reset.mod.reg r i j = r.resetValue i)
  ∧ (∀ a, Mem.byte State.reset.mod.dram a = 0) ∧ (∀ a, Mem.byte State.reset.mod.hold a = 0)
  ∧ State.reset.mod.dram.wf = true ∧ State.reset.mod.hold.wf = true
  ∧ (∀ t, State.reset.mod.tile t = Tile.reset) ∧ (∀ n, State.reset.mod.route n = none)
  ∧ State.reset.mod.rings = [] ∧ State.reset.mod.cmds = [] ∧ State.reset.mod.ports = []

/-! ## Tile instructions: scalar -/

/-- R97: the sixteen operations of ALU and ALUI, shift counts taken modulo 32, and the halves of a product. -/
def AluOperations : Prop :=
  ∀ x y : Word,
    (aluOp 0 x y).toNat = (x.toNat + y.toNat) % 2 ^ 32
    ∧ (aluOp 1 x y).toInt = (x.toInt - y.toInt).bmod (2 ^ 32)
    ∧ (∀ i, i < 32 → (aluOp 2 x y).getLsbD i = (x.getLsbD i && y.getLsbD i))
    ∧ (∀ i, i < 32 → (aluOp 3 x y).getLsbD i = (x.getLsbD i || y.getLsbD i))
    ∧ (∀ i, i < 32 → (aluOp 4 x y).getLsbD i = (x.getLsbD i ^^ y.getLsbD i))
    ∧ (aluOp 5 x y).toNat = x.toNat * 2 ^ (y.toNat % 32) % 2 ^ 32
    ∧ (aluOp 6 x y).toNat = x.toNat / 2 ^ (y.toNat % 32)
    ∧ (aluOp 7 x y).toInt = x.toInt / 2 ^ (y.toNat % 32)
    ∧ (aluOp 8 x y).toInt = min x.toInt y.toInt ∧ (aluOp 9 x y).toInt = max x.toInt y.toInt
    ∧ (aluOp 10 x y).toNat = min x.toNat y.toNat ∧ (aluOp 11 x y).toNat = max x.toNat y.toNat
    ∧ aluOp 12 x y = (if x.toInt < y.toInt then 1 else 0) ∧ aluOp 13 x y = (if x.toNat < y.toNat then 1 else 0)
    ∧ aluOp 14 x y = (if x = y then 1 else 0) ∧ aluOp 15 x y = (if x = y then 0 else 1)
    ∧ (mulOp 0 x y).toNat = x.toNat * y.toNat % 2 ^ 32 ∧ (mulOp 1 x y).toInt = x.toInt * y.toInt / 2 ^ 32
    ∧ (mulOp 2 x y).toNat = x.toNat * y.toNat / 2 ^ 32

/-- R98: division rounds toward zero; a zero divisor gives all ones and leaves the dividend as the remainder; −2^31 by −1
gives −2^31 with remainder 0. -/
def DivisionResults : Prop :=
  ∀ x y : Word,
    (y = 0 → divOp 3 x y = 0xFFFFFFFF#32 ∧ divOp 4 x y = 0xFFFFFFFF#32 ∧ divOp 5 x y = x ∧ divOp 6 x y = x)
    ∧ (y ≠ 0 → ¬ (x = 0x80000000#32 ∧ y = 0xFFFFFFFF#32) →
        (divOp 3 x y).toInt = Int.tdiv x.toInt y.toInt ∧ (divOp 5 x y).toInt = Int.tmod x.toInt y.toInt)
    ∧ (y ≠ 0 → (divOp 4 x y).toNat = x.toNat / y.toNat ∧ (divOp 6 x y).toNat = x.toNat % y.toNat)
    ∧ divOp 3 0x80000000#32 0xFFFFFFFF#32 = 0x80000000#32 ∧ divOp 5 0x80000000#32 0xFFFFFFFF#32 = 0

/-- R80, R97, R98: the scalar, address and predicate-move instructions write their one destination register in every tile of
the span, each from its own registers, and change nothing else; s0 and p0 keep their fixed values. -/
def ScalarWords : Prop :=
  ∀ (t : TileId) (w : Fields),
    Computes (.alu t w) t 0x10 w (formAlu.bad w) (fun _ _ _ x =>
      x.setS w.d.toNat (aluOp w.mod.toNat (x.sreg w.a.toNat) (x.sreg w.b.toNat)))
    ∧ Computes (.alui t w) t 0x11 w (formAlui.bad w) (fun _ _ _ x =>
      x.setS w.d.toNat (aluOp w.mod.toNat (x.sreg w.a.toNat) w.imm))
    ∧ Computes (.movi t w) t 0x12 w (formMovi.bad w) (fun _ _ _ x => x.setS w.d.toNat w.imm)
    ∧ (w.mod.toNat < 3 → Computes (.mul t w) t 0x13 w (formMulDiv.bad w) (fun _ _ _ x =>
      x.setS w.d.toNat (mulOp w.mod.toNat (x.sreg w.a.toNat) (x.sreg w.b.toNat))))
    ∧ (3 ≤ w.mod.toNat → Computes (.div t w) t 0x13 w (formMulDiv.bad w) (fun _ _ _ x =>
      x.setS w.d.toNat (divOp w.mod.toNat (x.sreg w.a.toNat) (x.sreg w.b.toNat))))
    ∧ Computes (.aadd t w) t 0x18 w (formAadd.bad w) (fun _ _ _ x =>
      x.setA w.d.toNat (x.areg w.a.toNat + (x.sreg w.b.toNat).signExtend 64))
    ∧ Computes (.aaddi t w) t 0x18 w (formAaddi.bad w) (fun _ _ _ x =>
      x.setA w.d.toNat (x.areg w.a.toNat + w.imm.signExtend 64))
    ∧ Computes (.aset t w) t 0x18 w (formAset.bad w) (fun _ _ _ x =>
      x.setA w.d.toNat (x.sreg w.b.toNat ++ x.sreg w.a.toNat))
    ∧ Computes (.alo t w) t 0x18 w (formAlo.bad w) (fun _ _ _ x =>
      x.setS w.d.toNat ((x.areg w.a.toNat).setWidth 32))
    ∧ Computes (.ahi t w) t 0x18 w (formAhi.bad w) (fun _ _ _ x =>
      x.setS w.d.toNat ((x.areg w.a.toNat >>> 32).setWidth 32))
    ∧ Computes (.ptos t w) t 0x1D w (formPtos.bad w) (fun _ _ _ x => x.setS w.d.toNat (x.preg w.a.toNat))
    ∧ Computes (.stop t w) t 0x1D w (formStop.bad w) (fun _ _ _ x => x.setP w.d.toNat (x.sreg w.a.toNat))
    ∧ (∀ i v (x : Tile), (x.setS 0 v).sreg i = x.sreg i ∧ x.sreg 0 = 0 ∧ (x.setP 0 v).preg i = x.preg i
        ∧ x.preg 0 = 0xFFFFFFFF#32)

/-- R97, R98: the operations of the scalar arithmetic instructions, and the instructions that write their results.
Premises: the span issues the word, and where it retires the next index lies in the code.
Where these rules leave a point open it follows the model (log entry 3). -/
def Obligations.ScalarInstructions : Prop := AluOperations ∧ DivisionResults ∧ ScalarWords

/-- R81: SRD reads the listed special registers; CYCLE_LO, a measured amount, is a free value whose high half is latched in
CYCLE_HI; an index that is not listed halts with SPECIAL.
Premises: the span issues the word, and where it retires the next index lies in the code.
Where these rules leave a point open it follows the model (log entries 3, 4 and 12). -/
def Obligations.SpecialRegisterReads : Prop :=
  ∀ (t : TileId) (w : Fields) (s : State) (cx : Ctx), Issues s t 0x1C w (formSrd.bad w) cx → Inside s.mod cx →
    (specialListed cx.sg.prog.skq2 (immBits w 0 8) = true → immBits w 0 8 ≠ 0x08 →
      ∃ s', exec (.srd t w) s = .next s' ∧ SpanDid s.mod s s' cx (fun u x =>
        x.setS w.d.toNat (s.mod.special cx u x (immBits w 0 8) 0)))
    ∧ (immBits w 0 8 = 0x08 →
      ∃ (s' : State) (cycle : Word64), exec (.srd t w) s = .next s' ∧ SpanDid s.mod.drawn s s' cx (fun _ x =>
        ({ x with cycleHi := (cycle >>> 32).setWidth 32 } : Tile).setS w.d.toNat (cycle.setWidth 32)))
    ∧ (specialListed cx.sg.prog.skq2 (immBits w 0 8) = false → Halts (.srd t w) s cx 7)

/-! ## Tile instructions: the bay -/

/-- R99: the address (s[a] + imm) modulo 2^32, without the bits below the access size; the sizes and extensions by mod. -/
def BayForms : Prop :=
  (∀ (x : Tile) (w : Fields) (size : Nat),
    x.bayAddr w size = ((x.sreg w.a.toNat).toNat + w.imm.toNat) % 2 ^ 32 / size * size)
  ∧ ldSize 0 = 1 ∧ ldSize 1 = 1 ∧ ldSize 2 = 2 ∧ ldSize 3 = 2 ∧ ldSize 4 = 4
  ∧ stSize 0 = 1 ∧ stSize 2 = 2 ∧ stSize 4 = 4
  ∧ ∀ v : Nat, (v < 256 → (ldExtend 0 v).toNat = v ∧ (ldExtend 1 v).toInt = if v < 128 then (v : Int) else v - 256)
    ∧ (v < 65536 → (ldExtend 2 v).toNat = v ∧ (ldExtend 3 v).toInt = if v < 32768 then (v : Int) else v - 65536)
    ∧ (v < 2 ^ 32 → (ldExtend 4 v).toNat = v)

/-- R27, R99: LD, LDA and LDV read the bay of each tile at (s[a] + imm) modulo 2^32, aligned down to the access size, extended
as the form says; an access that reaches 0x1_0000 is a
misuse, which leaves what undefined behaviour of the tenancy leaves. -/
def BayLoads : Prop :=
  ∀ (t : TileId) (w : Fields) (s : State) (cx : Ctx),
    (Issues s t 0x20 w (formLd.bad w) cx → Inside s.mod cx →
      (∀ u ∈ s.mod.spanTiles cx.o, (s.mod.tile u).bayAddr w (ldSize w.mod.toNat) < 0x10000) →
      ∃ s', exec (.ld t w) s = .next s' ∧ SpanDid s.mod s s' cx (fun _ x => x.setS w.d.toNat
        (ldExtend w.mod.toNat (Mem.read x.bay (x.bayAddr w (ldSize w.mod.toNat)) (ldSize w.mod.toNat)))))
    ∧ (Issues s t 0x22 w (formLda.bad w) cx → Inside s.mod cx →
      (∀ u ∈ s.mod.spanTiles cx.o, (s.mod.tile u).bayAddr w 8 < 0x10000) →
      ∃ s', exec (.lda t w) s = .next s' ∧ SpanDid s.mod s s' cx (fun _ x => x.setA w.d.toNat
        (BitVec.ofNat 64 (Mem.read x.bay (x.bayAddr w 8) 8))))
    ∧ (Issues s t 0x24 w (formLdv.bad w) cx → Inside s.mod cx →
      (∀ u ∈ s.mod.spanTiles cx.o, (s.mod.tile u).bayAddr w 128 < 0x10000) →
      ∃ s', exec (.ldv t w) s = .next s' ∧ SpanDid s.mod s s' cx (fun _ x => x.setLanes w.d.toNat
        (x.preg w.mod.toNat) (wordAt (Mem.bytes x.bay (x.bayAddr w 128) 128))))
    ∧ (Issues s t 0x20 w (formLd.bad w) cx →
      (∃ u ∈ s.mod.spanTiles cx.o, 0x10000 ≤ (s.mod.tile u).bayAddr w (ldSize w.mod.toNat)) →
      Yields (.ld t w) s (s.mod.undefined cx.r.ten))
    ∧ (Issues s t 0x22 w (formLda.bad w) cx →
      (∃ u ∈ s.mod.spanTiles cx.o, 0x10000 ≤ (s.mod.tile u).bayAddr w 8) → 
      Yields (.lda t w) s (s.mod.undefined cx.r.ten))
    ∧ (Issues s t 0x24 w (formLdv.bad w) cx →
      (∃ u ∈ s.mod.spanTiles cx.o, 0x10000 ≤ (s.mod.tile u).bayAddr w 128) → 
      Yields (.ldv t w) s (s.mod.undefined cx.r.ten))

/-- R99: after a bay store, each tile of the span holds the stored bytes at the address that its own registers give, every
other byte of its bay is as before, and so is everything else but the record of the blocks written. -/
def BayStored (s s' : State) (cx : Ctx) (addr : Tile → Nat) (size : Nat) (byte : Tile → Nat → Option Byte) : Prop :=
  SpanDid s.mod s s' cx (fun u x => { x with bay := (s'.mod.tile u).bay, dirty := (s'.mod.tile u).dirty })
  ∧ ∀ u ∈ s.mod.spanTiles cx.o, ∀ b, Mem.byte (s'.mod.tile u).bay b =
      if addr (s.mod.tile u) ≤ b ∧ b < addr (s.mod.tile u) + size
      then (byte (s.mod.tile u) (b - addr (s.mod.tile u))).getD (Mem.byte (s.mod.tile u).bay b)
      else Mem.byte (s.mod.tile u).bay b

/-- R27, R99: ST, STA and STV. STV stores only the lanes that its predicate includes. An access that reaches 0x1_0000 is a misuse,
as of a load. -/
def BayStores : Prop :=
  ∀ (t : TileId) (w : Fields) (s : State) (cx : Ctx),
    (Issues s t 0x21 w (formSt.bad w) cx → Inside s.mod cx →
      (∀ u ∈ s.mod.spanTiles cx.o, (s.mod.tile u).bayAddr w (stSize w.mod.toNat) < 0x10000) →
      ∃ s', exec (.st t w) s = .next s' ∧ BayStored s s' cx (fun x => x.bayAddr w (stSize w.mod.toNat))
        (stSize w.mod.toNat) (fun x k => some (BitVec.ofNat 8 ((x.sreg w.b.toNat).toNat / 256 ^ k))))
    ∧ (Issues s t 0x23 w (formSta.bad w) cx → Inside s.mod cx →
      (∀ u ∈ s.mod.spanTiles cx.o, (s.mod.tile u).bayAddr w 8 < 0x10000) →
      ∃ s', exec (.sta t w) s = .next s' ∧ BayStored s s' cx (fun x => x.bayAddr w 8) 8
        (fun x k => some (BitVec.ofNat 8 ((x.areg w.b.toNat).toNat / 256 ^ k))))
    ∧ (Issues s t 0x25 w (formStv.bad w) cx → Inside s.mod cx →
      (∀ u ∈ s.mod.spanTiles cx.o, (s.mod.tile u).bayAddr w 128 < 0x10000) →
      ∃ s', exec (.stv t w) s = .next s' ∧ BayStored s s' cx (fun x => x.bayAddr w 128) 128 (fun x k =>
        if (x.preg w.mod.toNat).getLsbD (k / 4) then
          some (BitVec.ofNat 8 ((x.lane w.b.toNat (k / 4)).toNat / 256 ^ (k % 4)))
        else none))
    ∧ (Issues s t 0x21 w (formSt.bad w) cx →
      (∃ u ∈ s.mod.spanTiles cx.o, 0x10000 ≤ (s.mod.tile u).bayAddr w (stSize w.mod.toNat)) →
      Yields (.st t w) s (s.mod.undefined cx.r.ten))
    ∧ (Issues s t 0x23 w (formSta.bad w) cx →
      (∃ u ∈ s.mod.spanTiles cx.o, 0x10000 ≤ (s.mod.tile u).bayAddr w 8) → 
      Yields (.sta t w) s (s.mod.undefined cx.r.ten))
    ∧ (Issues s t 0x25 w (formStv.bad w) cx →
      (∃ u ∈ s.mod.spanTiles cx.o, 0x10000 ≤ (s.mod.tile u).bayAddr w 128) → 
      Yields (.stv t w) s (s.mod.undefined cx.r.ten))

/-- R2: what undefined behaviour of a tenancy leaves as it was: the tiles of clusters assigned to others, the frames that it does
not own, every register, and all else but its own memory. -/
def UndefinedConfined : Prop :=
  ∀ (m : Module) (t : Ten),
    (∀ r i j, (m.undefined t).reg r i j = m.reg r i j)
    ∧ (∀ u : TileId, u.cl.val ∉ m.assigned t → (m.undefined t).tile u = m.tile u)
    ∧ (∀ a, m.ownsFrame t.val (a / 65536) = false → Mem.byte (m.undefined t).dram a = Mem.byte m.dram a)
    ∧ (m.flag Fld.HLD_TEN_EXT_RUN_VALID t.val 0 = false → (m.undefined t).hold = m.hold)
    ∧ (m.undefined t).tags = m.tags ∧ (m.undefined t).rings = m.rings ∧ (m.undefined t).cmds = m.cmds
    ∧ (m.undefined t).routes = m.routes ∧ (m.undefined t).out = m.out

/-- R2, R27, R99: addresses, sizes, loads and stores of the bay, and that a misuse stays within its tenancy.
Premises: the span issues the word, and where it retires the next index lies in the code.
Where these rules leave a point open it follows the model (log entries 3 and 11). -/
def Obligations.BayAccess : Prop := BayForms ∧ BayLoads ∧ BayStores ∧ UndefinedConfined

/-! ## Tile instructions: control -/

/-- R95: a branch goes to its own index plus the signed offset, where that lies in the code; the conditions of B.cc. -/
def BranchMeaning : Prop :=
  (∀ (pc : Nat) (off : Word) (len k : Nat), target pc off len = some k ↔ (k : Int) = pc + off.toInt ∧ k < len)
  ∧ ∀ x y : Word, branchCond 0 x y = decide (x = y) ∧ branchCond 1 x y = decide (x ≠ y)
    ∧ branchCond 2 x y = decide (x.toInt < y.toInt) ∧ branchCond 3 x y = decide (y.toInt ≤ x.toInt)
    ∧ branchCond 4 x y = decide (x.toNat < y.toNat) ∧ branchCond 5 x y = decide (y.toNat ≤ x.toNat)

/-- R95: NOP, BR, B.cc, CALL and JR. The origin tile's registers decide a branch; a target outside the code halts with
PC_RANGE. BR and B.cc end the loops whose body the target leaves; CALL and JR end none (R96). -/
def BranchInstructions : Prop :=
  ∀ (t : TileId) (w : Fields) (s : State) (cx : Ctx),
    Computes (.nop t 0x01 w) t 0x01 w (formNop.bad w) (fun _ _ _ x => x)
    ∧ (Issues s t 0x03 w (formBr.bad w) cx →
        (∀ pc, target (s.mod.tile cx.o).pc w.imm cx.sg.prog.codeLen = some pc →
          ∃ s', exec (.br t w) s = .next s' ∧ SpanWent s s' cx pc (endLoops pc (s.mod.tile cx.o).loops) id)
        ∧ (target (s.mod.tile cx.o).pc w.imm cx.sg.prog.codeLen = none → Halts (.br t w) s cx 5))
    ∧ (Issues s t 0x04 w (formBCc.bad w) cx →
        (branchCond w.mod.toNat ((s.mod.tile cx.o).sreg w.a.toNat) ((s.mod.tile cx.o).sreg w.b.toNat) = true →
          (∀ pc, target (s.mod.tile cx.o).pc w.imm cx.sg.prog.codeLen = some pc →
            ∃ s', exec (.bCc t w) s = .next s' ∧ SpanWent s s' cx pc (endLoops pc (s.mod.tile cx.o).loops) id)
          ∧ (target (s.mod.tile cx.o).pc w.imm cx.sg.prog.codeLen = none → Halts (.bCc t w) s cx 5))
        ∧ (branchCond w.mod.toNat ((s.mod.tile cx.o).sreg w.a.toNat) ((s.mod.tile cx.o).sreg w.b.toNat) = false →
          Inside s.mod cx → ∃ s', exec (.bCc t w) s = .next s' ∧ SpanDid s.mod s s' cx (fun _ x => x)))
    ∧ (Issues s t 0x05 w (formCall.bad w) cx →
        (∀ pc, target (s.mod.tile cx.o).pc w.imm cx.sg.prog.codeLen = some pc →
          ∃ s', exec (.call t w) s = .next s' ∧ SpanWent s s' cx pc (s.mod.tile cx.o).loops
            (fun x => x.setS w.d.toNat (BitVec.ofNat 32 ((s.mod.tile cx.o).pc + 1))))
        ∧ (target (s.mod.tile cx.o).pc w.imm cx.sg.prog.codeLen = none → Halts (.call t w) s cx 5))
    ∧ (Issues s t 0x06 w (formJr.bad w) cx →
        (((s.mod.tile cx.o).sreg w.a.toNat).toNat < cx.sg.prog.codeLen →
          ∃ s', exec (.jr t w) s = .next s' ∧ SpanWent s s' cx ((s.mod.tile cx.o).sreg w.a.toNat).toNat
            (s.mod.tile cx.o).loops id)
        ∧ (cx.sg.prog.codeLen ≤ ((s.mod.tile cx.o).sreg w.a.toNat).toNat → Halts (.jr t w) s cx 5))

/-- R96: LOOP with count s[a] + imm[31:16] over the next imm[15:0] instructions. A body of 0, too many levels, or a body that
reaches past the enclosing one halts with LOOP_RANGE; a count of 0 skips the body; otherwise a level is pushed. -/
def LoopEntry : Prop :=
  ∀ (t : TileId) (w : Fields) (s : State) (cx : Ctx), Issues s t 0x07 w (formLoop.bad w) cx →
    (let o := s.mod.tile cx.o
     let body := immBits w 0 16
     let n := o.sreg w.a.toNat + BitVec.ofNat 32 (immBits w 16 16)
     let ok := 0 < body ∧ o.loops.length < loopLevels cx.sg.prog ∧ (∀ l ∈ o.loops.head?, o.pc + body ≤ l.stop)
     (¬ ok → Halts (.loop t w) s cx 6)
     ∧ (ok → n = 0 → o.pc + body + 1 < cx.sg.prog.codeLen →
        ∃ s', exec (.loop t w) s = .next s' ∧ SpanWent s s' cx (o.pc + body + 1) o.loops id)
     ∧ (ok → n ≠ 0 → o.pc + 1 < cx.sg.prog.codeLen →
        ∃ s', exec (.loop t w) s = .next s' ∧
          SpanWent s s' cx (o.pc + 1) (⟨o.pc + 1, o.pc + body, n⟩ :: o.loops) id))

/-- R96: the end of a loop body. The innermost level's count falls and the body runs again; a level whose last iteration ends
is closed, and an enclosing level that ends at the same index is checked in its turn. -/
def LoopEnds : Prop :=
  ∀ (pc : Nat) (l : Loop) (rest : List Loop),
    (l.stop ≠ pc → loopEnd pc (l :: rest) = (pc + 1, l :: rest))
    ∧ (l.stop = pc → l.count ≠ 1 → loopEnd pc (l :: rest) = (l.start, { l with count := l.count - 1 } :: rest))
    ∧ (l.stop = pc → l.count = 1 → loopEnd pc (l :: rest) = loopEnd pc rest)
    ∧ loopEnd pc [] = (pc + 1, [])

/-- R96: a taken branch within the innermost body ends no loop; one out of it ends the innermost loop, and each enclosing one
whose body its target lies outside; a Skaesque 3 program has three levels. -/
def LoopsEnded : Prop :=
  (∀ pc, endLoops pc [] = [])
  ∧ (∀ (pc : Nat) (l : Loop) (rest : List Loop), l.start ≤ pc → pc ≤ l.stop → endLoops pc (l :: rest) = l :: rest)
  ∧ (∀ (pc : Nat) (l : Loop) (rest : List Loop) (k : Loop), pc < l.start ∨ l.stop < pc →
      (k ∈ endLoops pc (l :: rest) ↔ k ∈ rest ∧ k.start ≤ pc ∧ pc ≤ k.stop))
  ∧ ∀ p : Prog, p.skq2 = false → loopLevels p = 3

/-- R95: HALT with code 0 arrives at the step boundary and stops the tile for the rest of the route; another code kills the step
and ends the route's command ABORTED with the code. -/
def HaltInstruction : Prop :=
  ∀ (t : TileId) (w : Fields) (s : State) (cx : Ctx),
    (Issues s t 0x02 w (formHalt.bad w) cx → immBits w 0 16 = 0 → s.mod.spanBusy cx = false →
      ∃ s', exec (.halt t w) s = .next s' ∧ SpanBecame s.mod s s' cx (fun _ x =>
        { x.moveOn (s.mod.tile cx.o) with core := .arrived, haltReq := true }))
    ∧ (Issues s t 0x02 w (formHalt.bad w) cx → immBits w 0 16 = 0 → s.mod.spanBusy cx = true →
      ∃ s', exec (.halt t w) s = .next s' ∧ SpanWaits s s' cx 0x02 w)
    ∧ (Issues s t 0x02 w (formHalt.bad w) cx → immBits w 0 16 ≠ 0 →
      exec (.halt t w) s = .next { s with mod := (s.mod.haltTile cx.o 0 (immBits w 0 16)).settle })

/-- R95, R96: the branches, HALT, where a loop begins and where it ends.
Premises: the span issues the word, and where it retires the next index lies in the code.
Where these rules leave a point open it follows the model (log entries 3, 13 and 14). -/
def Obligations.ControlFlow : Prop :=
  BranchMeaning ∧ BranchInstructions ∧ HaltInstruction ∧ LoopEntry ∧ LoopEnds ∧ LoopsEnded

/-- R83, R107: a reserved opcode and an illegal word kill the step and end the route's command ABORTED with their cause. -/
def IllegalWords : Prop :=
  ∀ (t : TileId) (op : Byte) (w : Fields) (s : State) (cx : Ctx),
    (s.mod.issueCtx t op w = some cx → op ≠ 0x01 → opcodeListed op.toNat = false → Halts (.nop t op w) s cx 1)
    ∧ (s.mod.issueCtx t 0x10 w = some cx → s.mod.reg .ERR_INJECT_INV (32 + cx.o.cl.val) = 0 →
        ∀ k, formAlu.illegal cx.sg.prog.skq2 w = some k → Halts (.alu t w) s cx k)

/-- A tile instruction that its span does not issue (another word stands at the program counter, the cluster is not released,
the span waits on another instruction) has no effect: the model's own convention (log entry 3). -/
def UnissuedWordsHaveNoEffect : Prop :=
  ∀ (t : TileId) (w : Fields) (s : State),
    (s.mod.issueCtx t 0x10 w = none → exec (.alu t w) s = .next { s with mod := s.mod.settle })
    ∧ (s.mod.issueCtx t 0x21 w = none → exec (.st t w) s = .next { s with mod := s.mod.settle })
    ∧ (s.mod.issueCtx t 0x28 w = none → exec (.hld t w) s = .next { s with mod := s.mod.settle })
    ∧ (s.mod.issueCtx t 0x30 w = none → exec (.send t w) s = .next { s with mod := s.mod.settle })
    ∧ (s.mod.issueCtx t 0x44 w = none → exec (.mma t w) s = .next { s with mod := s.mod.settle })
    ∧ (s.mod.issueCtx t 0x80 w = none → exec (.vfop t w) s = .next { s with mod := s.mod.settle })

/-- R83, R107, and the convention of log entry 3: reserved opcodes, illegal words, and words that no span issues. -/
def Obligations.IllegalAndUnissuedWords : Prop := IllegalWords ∧ UnissuedWordsHaveNoEffect

/-! ## Tile instructions: vector and random -/

/-- R75, R80, R128 to R132: the vector and random instructions write their one destination under the predicate, join the flags
of the lanes they write, and change nothing else. -/
def VectorInstructions : Prop :=
  ∀ (t : TileId) (w : Fields),
    Computes (.vfop t w) t 0x80 w ((formVfop.withOps (· < 6) w).bad w) (fun _ _ _ x =>
      x.setLanesF w.d.toNat (x.mask w) (fun l =>
        toF32 (vfopEx (immBits w 0 8) (f32 (x.lane w.a.toNat l)) (f32 (x.lane w.b.toNat l)))))
    ∧ Computes (.vfma t w) t 0x81 w (formVfma.bad w) (fun _ _ _ x =>
      x.setLanesF w.d.toNat (x.mask w) (fun l => toF32 (vfmaEx (variant w) (f32 (x.lane w.a.toNat l))
        (f32 (x.lane w.b.toNat l)) (f32 (x.lane (spec3 w) l)))))
    ∧ Computes (.viop t w) t 0x82 w ((formVfop.withOps (· < 16) w).bad w) (fun _ _ _ x =>
      x.setLanes w.d.toNat (x.mask w) (fun l => aluOp (immBits w 0 8) (x.lane w.a.toNat l) (x.lane w.b.toNat l)))
    ∧ Computes (.vfun t w) t 0x83 w ((formVfun.withOps (· < 14) w).bad w) (fun _ _ _ x =>
      x.setLanesF w.d.toNat (x.mask w) (fun l => vfun (immBits w 0 8) (x.lane w.a.toNat l)))
    ∧ Computes (.vcmp t w) t 0x84 w ((formVcmp.withOps (fun k => k < 6 || (8 ≤ k && k < 14)) w).bad w) (fun _ _ _ x =>
      x.setP w.d.toNat (maskOf (fun l => (x.mask w).getLsbD l
        && vcmpLane (immBits w 0 8) (x.lane w.a.toNat l) (x.lane w.b.toNat l))))
    ∧ Computes (.vsel t w) t 0x85 w (formVsel.bad w) (fun _ _ _ x =>
      x.setLanes w.d.toNat 0xFFFFFFFF#32 (fun l =>
        if (x.mask w).getLsbD l then x.lane w.a.toNat l else x.lane w.b.toNat l))
    ∧ (variant w ≠ 4 → Computes (.vcvt t w) t 0x86 w (fun k => vcvtIllegal k w) (fun _ _ _ x =>
      x.setLanesF w.d.toNat (x.mask w)
        (vcvtLane w ((Fmt.ofCode (immBits w 4 4)).getD .int8) (x.lane w.a.toNat) (x.lane w.b.toNat))))
    ∧ (variant w = 4 → Computes (.vcvt t w) t 0x86 w (fun k => vcvtIllegal k w) (fun _ _ _ x =>
      x.setLanesF w.d.toNat (x.mask w &&& (0xFFFF#32 <<< (16 * immBits w 8 1))) (fun l =>
        pack8Lane ((Fmt.ofCode (immBits w 4 4)).getD .int8) (x.lane w.a.toNat) (x.lane w.b.toNat)
          (l - 16 * immBits w 8 1))))
    ∧ Computes (.vred t w) t 0x87 w ((formVred.withOps (· < 8) w).bad w) (fun _ _ _ x =>
      (x.setS w.d.toNat (vredOp (immBits w 0 8) (x.mask w) (x.lane w.a.toNat)).1).flag
        (vredOp (immBits w 0 8) (x.mask w) (x.lane w.a.toNat)).2)
    ∧ Computes (.vsplat t w) t 0x88 w (formVsplat.bad w) (fun _ _ _ x =>
      x.setLanes w.d.toNat (x.mask w) (fun _ => x.sreg w.a.toNat))
    ∧ Computes (.vget t w) t 0x89 w (formVget.bad w) (fun _ _ _ x =>
      x.setS w.d.toNat (x.lane w.a.toNat ((x.sreg w.b.toNat).toNat % 32)))
    ∧ Computes (.vput t w) t 0x8A w (formVput.bad w) (fun _ _ _ x =>
      x.setLane w.d.toNat ((x.sreg w.b.toNat).toNat % 32) (x.sreg w.a.toNat))
    ∧ Computes (.vperm t w) t 0x8B w (formVsel.bad w) (fun _ _ _ x =>
      x.setLanes w.d.toNat (x.mask w) (fun l => x.lane w.a.toNat ((x.lane w.b.toNat l).toNat % 32)))
    ∧ Computes (.viota t w) t 0x8C w (formVsplat.bad w) (fun _ _ _ x =>
      x.setLanes w.d.toNat (x.mask w) (fun l => x.sreg w.a.toNat + BitVec.ofNat 32 l))
    ∧ Computes (.rnu t w) t 0xC0 w (formRnu.bad w) (fun _ cx _ x =>
      x.setLanes w.d.toNat 0xFFFFFFFF#32 (fun l =>
        blockWord (drawBlock cx.r.seed (x.sreg w.b.toNat) (x.areg w.a.toNat + BitVec.ofNat 64 (l / 4))) (l % 4)))
    ∧ Computes (.rnb t w) t 0xC1 w ((formRnb w).bad w) (fun _ cx _ x =>
      if w.mod.toNat = 1 then
        x.setP w.d.toNat (rnbWord cx.r.seed (x.sreg w.b.toNat) (x.areg w.a.toNat)
          ((x.sreg (spec3 w)).toNat % 65536) 0)
      else x.setLanes w.d.toNat 0xFFFFFFFF#32 (rnbWord cx.r.seed (x.sreg w.b.toNat) (x.areg w.a.toNat)
          ((x.sreg (spec3 w)).toNat % 65536)))

/-- R80, R128: a masked write of a vector register changes the lanes that the mask includes and no other lane of any
register. -/
def MaskedLaneWrites : Prop :=
  ∀ (x : Tile) (r : Nat) (mask : Word) (f : Nat → Word) (r' l : Nat), l < 32 →
    (x.setLanes r mask f).lane r' l = if r = r' ∧ mask.getLsbD l = true then f l else x.lane r' l

/-- R75, R80, R128 to R132: the vector instructions, and what a masked write changes.
Premises: the span issues the word, and where it retires the next index lies in the code.
Where these rules leave a point open it follows the model (log entries 3 and 15 to 19). -/
def Obligations.VectorArithmetic : Prop := VectorInstructions ∧ MaskedLaneWrites

/-! ## Tile instructions: the array -/

/-- R110, R117, R118, R126: WLD from the bay, from Hold and by a broadcast, WFLIP, VERS SETS, TSMV and AFL. A WLD that has not
completed holds up the next one, WFLIP and VERS SETS. The marker that WFLIP follows is the one that the span's origin holds.
Premises: the span issues the word, and where it retires the next index lies in the code.
Where these rules leave a point open it follows the model (log entries 3, 11 and 24). -/
def Obligations.ArrayMoves : Prop :=
  ∀ (t : TileId) (w : Fields) (s : State) (cx : Ctx),
    (Issues s t 0x40 w ((formWld w).bad w) cx → Inside s.mod cx → s.mod.wldBusy cx = false → w.mod.getLsbD 0 = false →
      (let n := if w.mod.getLsbD 2 then 320 else 256
       (∀ u ∈ s.mod.spanTiles cx.o, ((s.mod.tile u).sreg w.a.toNat).toNat + n ≤ 0x10000) →
        ∃ s', exec (.wld t w) s = .next s' ∧ SpanDid s.mod s s' cx (fun _ x =>
          x.loadWeights (!x.active) (w.mod.getLsbD 2) ((x.sreg w.b.toNat).setWidth 16)
            (Mem.bytes x.bay (x.sreg w.a.toNat).toNat n))))
    ∧ (Issues s t 0x40 w ((formWld w).bad w) cx → s.mod.wldBusy cx = false → w.mod.getLsbD 0 = false →
      (∃ u ∈ s.mod.spanTiles cx.o,
        0x10000 < ((s.mod.tile u).sreg w.a.toNat).toNat + if w.mod.getLsbD 2 then 320 else 256) →
      Yields (.wld t w) s (s.mod.undefined cx.r.ten))
    ∧ (Issues s t 0x40 w ((formWld w).bad w) cx → Inside s.mod cx → s.mod.wldBusy cx = false → w.mod.getLsbD 0 = true →
      w.mod.getLsbD 1 = false →
      (let check := s.mod.checkTransfers cx.o.cl cx.r.ten.val false true ((s.mod.spanTiles cx.o).map (fun u =>
         (((s.mod.tile u).wldTransfer w).addr, if w.mod.getLsbD 2 then 320 else 256)))
       (∀ e m, check = (some e, m) → Yields (.wld t w) s (m.failRoute cx.n e))
       ∧ (∀ m, check = (none, m) → ∃ s', exec (.wld t w) s = .next s' ∧ SpanDid m s s' cx (fun _ x =>
           { x with xfers := x.xfers ++ [x.wldTransfer w] }))))
    ∧ (Issues s t 0x40 w ((formWld w).bad w) cx → Inside s.mod cx → s.mod.wldBusy cx = false → w.mod.getLsbD 0 = true →
      w.mod.getLsbD 1 = true →
      ∃ s', exec (.wld t w) s = .next s' ∧ SpanDid s.mod s s' cx (fun u x =>
        if (BitVec.ofNat 16 (immBits w 10 16)).getLsbD u.col.val then { x with xfers := x.xfers ++ [x.wldTransfer w] } else x))
    ∧ (Issues s t 0x40 w ((formWld w).bad w) cx → s.mod.wldBusy cx = true →
      ∃ s', exec (.wld t w) s = .next s' ∧ SpanWaits s s' cx 0x40 w)
    ∧ (Issues s t 0x41 w (formWflip.bad w) cx → s.mod.wldBusy cx = true →
      ∃ s', exec (.wflip t w) s = .next s' ∧ SpanWaits s s' cx 0x41 w)
    ∧ (Issues s t 0x41 w (formWflip.bad w) cx → Inside s.mod cx → s.mod.wldBusy cx = false →
      (w.mod.toNat = 1 →
        ∃ s', exec (.wflip t w) s = .next s' ∧ SpanDid s.mod s s' cx (fun _ x => { x with active := !x.active }))
      ∧ (w.mod.toNat = 0 →
        ∀ k, (s.mod.tile cx.o).marker = some k →
        (∀ u ∈ s.mod.spanTiles cx.o, k.version = (s.mod.tile u).shadowSet.tag) →
        ∃ s', exec (.wflip t w) s = .next s' ∧ SpanDid s.mod s s' cx (fun _ x =>
          { x with active := !x.active, marker := none }))
      ∧ (w.mod.toNat = 0 → ∀ k, (s.mod.tile cx.o).marker = some k →
        (∃ u ∈ s.mod.spanTiles cx.o, k.version ≠ (s.mod.tile u).shadowSet.tag) →
        Yields (.wflip t w) s (s.mod.failRoute cx.n ⟨st.version, 0, 0⟩))
      ∧ (w.mod.toNat = 0 → (s.mod.tile cx.o).marker = none → Halts (.wflip t w) s cx 11))
    ∧ (w.mod.toNat = 0 → Issues s t 0x42 w (fun k => (formVers k w).illegal k w) cx → Inside s.mod cx →
      (s.mod.wldBusy cx = false → ∃ s', exec (.vers t w) s = .next s' ∧ SpanDid s.mod s s' cx (fun _ x =>
        x.setS w.d.toNat (x.shadowSet.tag ++ x.activeSet.tag)))
      ∧ (s.mod.wldBusy cx = true → ∃ s', exec (.vers t w) s = .next s' ∧ SpanWaits s s' cx 0x42 w))
    ∧ (w.mod.toNat = 0 → Computes (.tsmv t w) t 0x4A w ((formTsmv w).bad w) (fun _ _ _ x =>
        { x with ts := (List.range 16).foldl (fun a i => Map.set 0 a i (x.lane w.a.toNat i)) x.ts }))
    ∧ (w.mod.toNat = 1 → Computes (.tsmv t w) t 0x4A w ((formTsmv w).bad w) (fun _ _ _ x =>
        x.setLanes w.d.toNat 0xFFFFFFFF#32 (fun l => if l < 16 then Map.get 0 x.ts l else 0)))
    ∧ (w.mod.toNat = 2 → Computes (.tsmv t w) t 0x4A w ((formTsmv w).bad w) (fun _ _ _ x =>
        x.setLanes w.d.toNat 0xFFFFFFFF#32 (fun l => if l < 16 then Map.get 0 x.activeSet.scales l else 0)))
    ∧ (w.mod.toNat = 0 → Computes (.afl t w) t 0x4C w (formAfl.bad w) (fun _ _ _ x =>
        x.setS w.d.toNat (BitVec.ofNat 32 x.aflags.bits)))
    ∧ (w.mod.toNat = 1 → Computes (.afl t w) t 0x4C w (formAfl.bad w) (fun _ _ _ x =>
        { x.setS w.d.toNat (BitVec.ofNat 32 x.aflags.bits) with aflags := .none }))

/-- The column of a tile within its span, from the span's first row down (R114). -/
def columnOf (m : Module) (cx : Ctx) (u : TileId) : List Tile :=
  (List.range (m.spanSide cx.o.cl.val)).map (fun k => m.tile ⟨cx.o.cl, Fin.ofNat 16 (cx.o.row.val + k), u.col⟩)

/-- R64 to R66, R114, R120, R121: MMA over formats that pair. In CMPMAX each tile works alone; in the other modes the partial
sums of each home block pass down the tiles of its column in order. Accumulators and flags change, and nothing else.
Premises: the span issues the word, and where it retires the next index lies in the code.
Where these rules leave a point open it follows the model (log entries 3 and 21). -/
def Obligations.MatrixMultiply : Prop :=
  ∀ (t : TileId) (w : Fields) (s : State) (cx : Ctx) (q : Mma),
    Issues s t 0x44 w (fun k => (formMma k w).illegal k w) cx → Inside s.mod cx → mmaOf cx.sg.prog.skq2 w = some q →
    (∀ u ∈ s.mod.spanTiles cx.o, ((s.mod.tile u).sreg w.a.toNat).toNat
      + (if q.mode = 5 then 4096 else 16 * s.mod.spanSide cx.o.cl.val * rowBytes q.tok q.wgt) ≤ 0x10000) →
    (q.mode = 5 → ∃ s', exec (.mma t w) s = .next s' ∧ SpanDid s.mod s s' cx (fun _ x => x.cmpmax q w))
    ∧ (q.mode ≠ 5 → ∃ s', exec (.mma t w) s = .next s'
      ∧ SpanDid s.mod s s' cx (fun u x =>
          if q.bank then { x with acc1 := (s'.mod.tile u).acc1, float1 := !q.int, aflags := (s'.mod.tile u).aflags }
          else { x with acc0 := (s'.mod.tile u).acc0, float0 := !q.int, aflags := (s'.mod.tile u).aflags })
      ∧ ∀ u ∈ s.mod.spanTiles cx.o, ∀ i j, i < 16 → j < 16 →
          (s'.mod.tile u).acc q.bank i j =
            (passRows q w (16 * (u.row.val - cx.o.row.val) + i) j (columnOf s.mod cx u)
              (if q.zero then mmaIdentity q.mode q.int else (s.mod.tile u).acc q.bank i j)).1)

/-- R67 to R71, R123 to R125: QSCAN leaves in each token scale the absolute maximum of its row, or with FINISH its quotient by Q;
QCVT writes the quantised chunks of the rows, ADRAIN the narrowed home block, at the addresses that each tile's registers give;
their flags join, and nothing else changes.
Premises: the span issues the word, and where it retires the next index lies in the code.
Where these rules leave a point open it follows the model (log entries 3, 11 and 20). -/
def Obligations.QuantiseAndDrain : Prop :=
  ∀ (t : TileId) (w : Fields) (s : State) (cx : Ctx), Inside s.mod cx →
    (Issues s t 0x48 w (fun k => qscanBad k w) cx → w.mod.toNat = 2 →
      ∃ s', exec (.qscan t w) s = .next s' ∧ SpanDid s.mod s s' cx (fun _ x => { x with
        ts := (List.range 16).foldl (fun a i => Map.set 0 a i (toF32 ((f32 (Map.get 0 a i)).div
          (.fin false (((quantFmt (immBits w 0 4)).map Fmt.q).getD 1) 1))).1) x.ts }))
    ∧ (Issues s t 0x48 w (fun k => qscanBad k w) cx → w.mod.toNat ≠ 2 →
      (∀ u ∈ s.mod.spanTiles cx.o, ∀ i, i < 16 → (s.mod.tile u).rowAddr w i + 128 * immBits w 16 10 ≤ 0x10000) →
      ∃ s', exec (.qscan t w) s = .next s' ∧ SpanDid s.mod s s' cx (fun u x => { x with ts := (s'.mod.tile u).ts })
        ∧ ∀ u ∈ s.mod.spanTiles cx.o, ∀ i, i < 16 → Map.get 0 (s'.mod.tile u).ts i =
            absMax (if w.mod.toNat = 0 then 0 else Map.get 0 (s.mod.tile u).ts i)
              ((List.range (32 * immBits w 16 10)).map (fun k => BitVec.ofNat 32
                (Mem.read (s.mod.tile u).bay ((s.mod.tile u).rowAddr w i + 4 * k) 4))))
    ∧ (∀ f, quantFmt (immBits w 0 4) = some f → Issues s t 0x49 w (fun k => qcvtBad k w) cx →
      (∀ u ∈ s.mod.spanTiles cx.o, ∀ i, i < 16 → (s.mod.tile u).rowAddr w i + 128 * immBits w 16 10 ≤ 0x10000) →
      (∀ u ∈ s.mod.spanTiles cx.o, ((s.mod.tile u).sreg (spec3 w)).toNat + 512 * immBits w 16 10 ≤ 0x10000) →
      ∃ s', exec (.qcvt t w) s = .next s' ∧ SpanDid s.mod s s' cx (fun u x => { x with
          bay := (s'.mod.tile u).bay, dirty := (s'.mod.tile u).dirty, aflags := (s'.mod.tile u).aflags })
        ∧ ∀ u ∈ s.mod.spanTiles cx.o, (s'.mod.tile u).bay =
            (((List.range 16).flatMap (fun i => match (s.mod.tile u).qcvtRow w f i (32 * immBits w 16 10) with
              | .ok r => r.1
              | .error _ => [])).foldl (fun b p => Mem.setBytes b p.1 p.2) (s.mod.tile u).bay))
    ∧ (∀ f, drainFmt (immBits w 0 4) (immBits w 4 1 == 1) = some f → Issues s t 0x4B w (formAdrain.bad w) cx →
      (∀ u ∈ s.mod.spanTiles cx.o, ∀ i, i < 16 → (s.mod.tile u).rowAddr w i + 2 * f.bits ≤ 0x10000) →
      ∃ s', exec (.adrain t w) s = .next s' ∧ SpanDid s.mod s s' cx (fun u x => { x with
          bay := (s'.mod.tile u).bay, dirty := (s'.mod.tile u).dirty, aflags := (s'.mod.tile u).aflags })
        ∧ ∀ u ∈ s.mod.spanTiles cx.o, (s'.mod.tile u).bay =
            (List.range 16).foldl (fun b i => Mem.setBytes b ((s.mod.tile u).rowAddr w i)
              (packBytes f ((List.range 16).map (fun j =>
                ((s.mod.tile u).drainElem (w.mod.getLsbD 0) (immBits w 4 1 == 1) f i j).1)))) (s.mod.tile u).bay)

/-! ## Tile instructions: transfers -/

/-- R100, R102, R109: a transfer instruction whose span issues it. With a full engine the span waits; a broken range is a misuse,
which leaves what undefined behaviour of the tenancy leaves; an address outside the grant or the mappings ends the route's command;
otherwise every tile's transfer joins the end of its engine's list, and a length of 0 moves nothing. A store goes into the digest
of a tile whose tenancy runs twins (R413). -/
def TransferIssues (c : Instr) (t : TileId) (op : Byte) (w : Fields) (bad : Bool → Option Nat) (kind : XferKind)
    (write hold : Bool) (addr : Tile → Nat) : Prop :=
  ∀ s cx, Issues s t op w bad cx →
    (let tr := fun x : Tile => x.transfer kind w (addr x) none
     let check := s.mod.checkTransfers cx.o.cl cx.r.ten.val write hold
       ((s.mod.spanTiles cx.o).map (fun u => ((tr (s.mod.tile u)).addr, (tr (s.mod.tile u)).len)))
     (s.mod.transfersFull cx = true → ∃ s', exec c s = .next s' ∧ SpanWaits s s' cx op w)
     ∧ (s.mod.transfersFull cx = false →
        (∃ u ∈ s.mod.spanTiles cx.o, (transferFault (tr (s.mod.tile u)).bay (tr (s.mod.tile u)).len).isSome = true) →
        Yields c s (s.mod.undefined cx.r.ten))
     ∧ (s.mod.transfersFull cx = false →
        (∀ u ∈ s.mod.spanTiles cx.o, transferFault (tr (s.mod.tile u)).bay (tr (s.mod.tile u)).len = none) →
        (∀ e m, check = (some e, m) → Yields c s (m.failRoute cx.n e))
        ∧ (∀ m, check = (none, m) → Inside s.mod cx → ∃ s', exec c s = .next s' ∧ SpanDid m s s' cx (fun _ x =>
            let y := if (tr x).len = 0 then x else { x with xfers := x.xfers ++ [tr x] }
            if write && m.twinned cx.r.ten.val then y.noteStore hold (tr x) else y))))

/-- R100, R102, R109: HLD without BCAST, HST, XLD and XST issue their transfers as said; a HLD
without BCAST whose mask field is not zero is illegal; a HLD with BCAST leaves a transfer in
each tile of its mask; WAITT waits while a transfer of its tag is outstanding in a tile of the
span, and retires once none is.
Premises: the span issues the word, and where it retires the next index lies in the code.
Where these rules leave a point open it follows the model (log entries 3, 11, 24 and 25). -/
def Obligations.TransferInstructions : Prop :=
  ∀ (t : TileId) (w : Fields),
    (w.mod.getLsbD 4 = false → immBits w 10 16 = 0 →
      TransferIssues (.hld t w) t 0x28 w (formHld.bad w) .hld false true (fun x => x.holdAddr w))
    ∧ (w.mod.getLsbD 4 = false → immBits w 10 16 ≠ 0 → ∀ s cx, Issues s t 0x28 w (formHld.bad w) cx → Halts (.hld t w) s cx 4)
    ∧ (w.mod.getLsbD 4 = true → ∀ s cx, Issues s t 0x28 w (formHld.bad w) cx → s.mod.transfersFull cx = false →
      (let mask := BitVec.ofNat 16 (immBits w 10 16)
       let tr := fun x : Tile => x.transfer .hld w (x.holdAddr w) (some mask)
       Inside s.mod cx →
       ∃ s', exec (.hld t w) s = .next s' ∧ SpanDid s.mod s s' cx (fun u x =>
         if mask.getLsbD u.col.val then { x with xfers := x.xfers ++ [tr x] } else x)))
    ∧ (w.mod.getLsbD 4 = true → ∀ s cx, Issues s t 0x28 w (formHld.bad w) cx → s.mod.transfersFull cx = true →
      ∃ s', exec (.hld t w) s = .next s' ∧ SpanWaits s s' cx 0x28 w)
    ∧ TransferIssues (.hst t w) t 0x29 w (formStore.bad w) .hst true true (fun x => x.holdAddr w)
    ∧ TransferIssues (.xld t w) t 0x2A w (formStore.bad w) .xld false false (fun x => x.virtAddr w)
    ∧ TransferIssues (.xst t w) t 0x2B w (formStore.bad w) .xst true false (fun x => x.virtAddr w)
    ∧ (∀ s cx, Issues s t 0x2C w (formWaitt.bad w) cx →
      ((∃ u ∈ s.mod.spanTiles cx.o, (s.mod.tile u).outstanding (immBits w 0 16) = true) →
        ∃ s', exec (.waitt t w) s = .next s' ∧ SpanWaits s s' cx 0x2C w)
      ∧ ((∀ u ∈ s.mod.spanTiles cx.o, (s.mod.tile u).outstanding (immBits w 0 16) = false) → Inside s.mod cx →
        ∃ s', exec (.waitt t w) s = .next s' ∧ SpanDid s.mod s s' cx (fun _ x => x)))

/-- R16, R87, R100, R117: the oldest transfer of a tile on a tag completes. A store joins the staged stores, within STAGE_LEN of the
step, unless it lies in a SCRATCH buffer; such a store is applied at once, and its bytes are those of the bay; a load puts the bytes
read into the bay at the address that it was issued with. What the tile of a twin stores has no effect (R413). -/
def TransferCompletion : Prop :=
  ∀ (t : TileId) (tag : BitVec 4) (s : State) (n : Nat) (r : Route) (sg : Stage) (k : Transfer),
    s.mod.stageOf t.cl.val = some (n, r, sg) → (s.mod.tile t).oldest tag = [k] →
    s.mod.pathClear (if k.kind == .hst then .hld else .mem) →
    (let x : Tile := { s.mod.tile t with xfers := (s.mod.tile t).xfers.erase k }
     let m := s.mod.setTile t x
     let src := Mem.bytes x.bay k.bay k.len
     ((k.kind = .hst ∨ k.kind = .xst) → s.mod.isTwin t = true → Yields (.transferComplete t tag) s m)
     ∧ ((k.kind = .hst ∨ k.kind = .xst) → s.mod.isTwin t = false → r.staged (k.kind == .hst) k.addr k.len = true →
       x.stagedBytes + k.len ≤ sg.prog.stageLen →
       Yields (.transferComplete t tag) s (m.setTile t { x with
         staged := x.staged ++ [⟨k.kind == .hst, k.addr, src⟩], stagedBytes := x.stagedBytes + k.len }))
     ∧ ((k.kind = .hst ∨ k.kind = .xst) → s.mod.isTwin t = false → r.staged (k.kind == .hst) k.addr k.len = true →
       sg.prog.stageLen < x.stagedBytes + k.len →
       Yields (.transferComplete t tag) s (m.failRoute n ⟨st.resource, 0, k.addr⟩))
     ∧ (k.kind = .hst → s.mod.isTwin t = false → r.staged true k.addr k.len = false → ∀ m', m.writeHold r.ten.val k.addr src = (.ok (), m') →
       Yields (.transferComplete t tag) s m')
     ∧ (k.kind = .xst → s.mod.isTwin t = false → r.staged false k.addr k.len = false → ∀ m',
       m.writeVA (.fab t.cl) r.ten.val k.addr src = (.ok (), m') →
       Yields (.transferComplete t tag) s m')
     ∧ (k.kind = .hld → ∀ bs m', m.readHold (.fab t.cl) r.ten.val k.addr k.len = (.ok bs, m') →
       Yields (.transferComplete t tag) s (m'.setTile t { x with
         bay := Mem.setBytes x.bay k.bay bs, dirty := markDirty x.dirty k.bay bs.length }))
     ∧ (∀ scales set tag', k.kind = .wld scales set tag' → ∀ bs m', m.readHold (.fab t.cl) r.ten.val k.addr k.len = (.ok bs, m') →
       Yields (.transferComplete t tag) s (m'.setTile t (x.loadWeights set scales tag' bs)))
     ∧ (k.kind = .xld → ∀ bs m', m.readVA (.fab t.cl) r.ten.val k.addr k.len = (.ok bs, m') →
       Yields (.transferComplete t tag) s (m'.setTile t { x with
         bay := Mem.setBytes x.bay k.bay bs, dirty := markDirty x.dirty k.bay bs.length })))

/-- R35, R101: a broadcast HLD leaves one transfer with the mask in each tile of the mask; once every tile of the mask in a row
has issued it, one read at the address and length of the lowest column delivers the same bytes to every tile of the mask, at
its own bay address; a length of 0 moves nothing. -/
def BroadcastRendezvous : Prop :=
  ∀ (c : Cluster) (row : Fin 16) (mask : BitVec 16) (s : State) (n : Nat) (r : Route) (sg : Stage) (k : TileId → Transfer)
    (u0 : TileId) (rest : List TileId),
    s.mod.stageOf c.val = some (n, r, sg) → maskTiles c row mask = u0 :: rest →
    (∀ u ∈ u0 :: rest, (s.mod.tile u).bcast mask false = some (k u) ∧ (k u).kind = .hld
      ∧ (k u).bay + (k u0).len ≤ 0x10000) →
    (let free := (u0 :: rest).foldl (fun m u => m.setTile u { m.tile u with xfers := (m.tile u).xfers.erase (k u) }) s.mod
     ((k u0).len = 0 → Yields (.hldBcastRendezvous c row mask) s free)
     ∧ ∀ bs m', (k u0).len ≠ 0 → free.readHold (.fab c) r.ten.val (k u0).addr (k u0).len = (.ok bs, m') →
       Yields (.hldBcastRendezvous c row mask) s ((u0 :: rest).foldl (fun m u => m.setTile u { m.tile u with
         bay := Mem.setBytes (m.tile u).bay (k u).bay bs, dirty := markDirty (m.tile u).dirty (k u).bay bs.length }) m'))

/-- R35, R87, R100, R101: how transfers complete, and the rendezvous of a broadcast.
Where these rules leave a point open it follows the model (log entries 24, 25 and 27). -/
def Obligations.TransferEnds : Prop := TransferCompletion ∧ BroadcastRendezvous

/-! ## Tile instructions: streams -/

/-- The tiles of a span that send something, in the order of sending. -/
def senders (m : Module) (cx : Ctx) (payload : Tile → Option (List Byte)) : List TileId :=
  (m.spanTiles cx.o).filter (fun u => (payload (m.tile u)).isSome)

/-- What a tile's digest takes of what it sends, where its tenancy runs twins (R413). -/
def sentNote (m : Module) (cx : Ctx) (payload : Tile → Option (List Byte)) (note : Tile → List Byte → List Byte)
    (x : Tile) : Tile :=
  match payload x with
  | some bs => if m.twinned cx.r.ten.val then x.note (note x bs) else x
  | none => x

/-- R33, R40 to R42, R103, R413: a sending instruction. c0 outside a span is a misuse, which leaves what undefined behaviour of the
tenancy leaves; a send buffer without room stalls the span; otherwise what each tile sends through N, E, S or W enters the Deck
towards its neighbour with the tenancy's stamp, and what it sends through X its send buffer, each packet with the next number in the
order of sending. What the tiles of a twin send goes nowhere. -/
def Sends (c : Instr) (t : TileId) (op : Byte) (w : Fields) (bad : Bool → Option Nat) (kind : DeckKind)
    (payload : Tile → Option (List Byte)) (ok : Tile → Prop) : Prop :=
  ∀ s cx, Issues s t op w bad cx →
    (let port := w.mod.toNat
     let vc := immBits w 0 4
     let us := s.mod.spanTiles cx.o
     let sent := senders s.mod cx payload
     let noted := sentNote s.mod cx payload (fun x => sendNote port vc (if port = 4 then x.sreg (spec3 w) else 0))
     (∀ k, streamIllegal cx.sg.prog.skq2 w = some k → Halts c s cx k)
     ∧ (streamIllegal cx.sg.prog.skq2 w = none → (∀ u ∈ us, ok (s.mod.tile u)) →
        ((∃ u ∈ us, (payload (s.mod.tile u)).isSome = true
            ∧ s.mod.spanMisuse cx u port ((s.mod.tile u).sreg (spec3 w)) vc = true) → Yields c s (s.mod.undefined cx.r.ten))
        ∧ ((∀ u ∈ us, (payload (s.mod.tile u)).isSome = true →
              s.mod.spanMisuse cx u port ((s.mod.tile u).sreg (spec3 w)) vc = false) →
           ((∃ u ∈ us, ∃ bs, payload (s.mod.tile u) = some bs ∧ 64 < s.mod.sendBuffered u port + flitsOf bs.length) →
              ∃ s', exec c s = .next s' ∧ SpanWaits s s' cx op w)
           ∧ ((∀ u ∈ us, ∀ bs, payload (s.mod.tile u) = some bs → s.mod.sendBuffered u port + flitsOf bs.length ≤ 64) →
              Inside s.mod cx →
              (s.mod.isTwin cx.o = true → ∃ s', exec c s = .next s' ∧ SpanDid s.mod s s' cx (fun _ x => noted x))
              ∧ (s.mod.isTwin cx.o = false → port < 4 → (∀ u ∈ sent, (neighbour u port).isSome = true) →
                ∃ s', exec c s = .next s' ∧ SpanDid { s.mod.onDeck (sent.filterMap (fun u =>
                    match payload (s.mod.tile u), neighbour u port with
                    | some bs, some v => some ⟨s.mod.deckSeq + sent.idxOf u, u, v, opposite port, BitVec.ofNat 4 vc, kind,
                        cx.r.ten, bs, true⟩
                    | _, _ => none)) with deckSeq := s.mod.deckSeq + sent.length } s s' cx (fun _ x => noted x))
              ∧ (∀ u, us = [u] → sent = [u] → s.mod.isTwin u = false → s.mod.twinned cx.r.ten.val = false → port < 4 →
                neighbour u port = none → Yields c s ((s.mod.dropEdge cx.r.ten.val u.cl.val).retire cx))
              ∧ (∀ u, us = [u] → sent = [u] → s.mod.isTwin u = false → s.mod.twinned cx.r.ten.val = false → port = 4 →
                s.mod.tileAddr cx.r.ten ((s.mod.tile u).sreg (spec3 w)) = none →
                Yields c s ((s.mod.dropAddress cx.r.ten.val u.cl.val).retire cx))
              ∧ (s.mod.isTwin cx.o = false → port = 4 →
                (∀ u ∈ sent, (s.mod.tileAddr cx.r.ten ((s.mod.tile u).sreg (spec3 w))).isSome = true) →
                ∃ s', exec c s = .next s' ∧ SpanDid { s.mod with deckSeq := s.mod.deckSeq + sent.length } s s' cx (fun u x =>
                  match payload x, s.mod.tileAddr cx.r.ten (x.sreg (spec3 w)) with
                  | some bs, some v => { noted x with sendX := x.sendX ++ [⟨s.mod.deckSeq + sent.idxOf u, u, v, 4,
                      BitVec.ofNat 4 vc, kind, cx.r.ten, bs, true⟩] }
                  | _, _ => x))))))

/-- R103: SEND with the bytes of its range, SENDV with a vector register, and MARK with the latched
marker are sending instructions in this sense; on c14 and c15 what MARK sends travels as DATA (R36), and on the ports N, E, S and W
the third specifier is an unused field.
Premises: the span issues the word, and where it retires the next index lies in the code.
Where these rules leave a point open it follows the model (log entries 3, 11 and 29). -/
def Obligations.SendingInstructions : Prop :=
  ∀ (t : TileId) (w : Fields),
    Sends (.send t w) t 0x30 w ((sendForm formSend w).bad w) .data
      (fun x => if (x.sendRange w).2 = 0 then none else some (Mem.bytes x.bay (x.sendRange w).1 (x.sendRange w).2))
      (fun x => (x.sreg w.b.toNat).toNat ≤ 4096 ∧ (x.sendRange w).1 + (x.sendRange w).2 ≤ 0x10000)
    ∧ Sends (.sendv t w) t 0x31 w ((sendForm formSendv w).bad w) .data (fun x => some (x.vecBytes w.b.toNat)) (fun _ => True)
    ∧ Sends (.mark t w) t 0x34 w ((sendForm formMark w).bad w) (if 14 ≤ immBits w 0 4 then .data else .marker)
      (fun x => x.marker.map (fun k => markerBytes k.version.toNat k.step.toNat ((x.sreg w.b.toNat).toNat % 65536)))
      (fun _ => True)

/-- R45, R104: RECV and RECVV. Without a packet in some tile the span waits, or with POLL such a tile writes a status of EMPTY
alone; a DATA packet leaves its buffer for the bay, cut to the length asked for, or for the lanes of a vector register; a front
marker that passes its check goes to the latch; the status word says which. -/
def Receives (c : Instr) (t : TileId) (op : Byte) (w : Fields) (bad : Bool → Option Nat) (status : Nat)
    (put : Tile → List Byte → Tile × Nat) (ok : Tile → List Byte → Prop) : Prop :=
  ∀ s cx, Issues s t op w bad cx → streamIllegal cx.sg.prog.skq2 w = none → s.mod.reg .ERR_INJECT_INV Block.dck.group = 0 →
    (let next := fun x : Tile => x.nextPacket (w.mod.toNat % 8) (immBits w 0 4)
     let us := s.mod.spanTiles cx.o
     (∀ u ∈ us, ∀ k, next (s.mod.tile u) = some k → k.kind = .marker → (readMarker k.data).isSome = true) →
     (w.mod.toNat < 8 → (∃ u ∈ us, next (s.mod.tile u) = none) → ∃ s', exec c s = .next s' ∧ SpanWaits s s' cx op w)
     ∧ ((8 ≤ w.mod.toNat ∨ ∀ u ∈ us, next (s.mod.tile u) ≠ none) →
        (∀ u ∈ us, ∀ k, next (s.mod.tile u) = some k → k.kind ≠ .marker → ok (s.mod.tile u) k.data) → Inside s.mod cx →
        ∃ s', exec c s = .next s' ∧ SpanDid s.mod s s' cx (fun _ x =>
          match next x with
          | none => x.setS status (recvStatus false false true 0)
          | some k =>
            let y : Tile := { x with recv := x.recv.erase k }
            match k.kind, readMarker k.data with
            | .marker, some mr =>
              ({ y with marker := some mr } : Tile).setS status (recvStatus true false false mr.version.toNat)
            | _, _ => (put y k.data).1.setS status
                (recvStatus false (decide ((put y k.data).2 < k.data.length)) false (put y k.data).2))))

/-- R104: RECV writes the packet into the bay, RECVV into the lanes of a vector register. A packet that would pass the end of the
bay is a misuse.
Premises: the span issues the word, and where it retires the next index lies in the code.
Where these rules leave a point open it follows the model (log entries 3, 28 and 29). -/
def Obligations.ReceivingInstructions : Prop :=
  ∀ (t : TileId) (w : Fields),
    Receives (.recv t w) t 0x32 w (formRecv.bad w) w.d.toNat
      (fun x bs => ({ x with
          bay := Mem.setBytes x.bay (x.sreg w.a.toNat).toNat (bs.take (x.sreg w.b.toNat).toNat)
          dirty := markDirty x.dirty (x.sreg w.a.toNat).toNat (bs.take (x.sreg w.b.toNat).toNat).length },
        (bs.take (x.sreg w.b.toNat).toNat).length))
      (fun x bs => (x.sreg w.a.toNat).toNat + (bs.take (x.sreg w.b.toNat).toNat).length ≤ 0x10000)
    ∧ Receives (.recvv t w) t 0x33 w (formRecvv.bad w) (spec3 w)
      (fun x bs => ((List.range ((bs.take 128).length / 4)).foldl (fun x l => x.setLane w.d.toNat l
          (BitVec.ofNat 32 (fieldAt (bs.take 128) (4 * l) 4))) x, (bs.take 128).length))
      (fun _ _ => True)
    ∧ (∀ s cx, Issues s t 0x32 w (formRecv.bad w) cx → streamIllegal cx.sg.prog.skq2 w = none →
        s.mod.reg .ERR_INJECT_INV Block.dck.group = 0 →
        ∀ u k, s.mod.spanTiles cx.o = [u] → (s.mod.tile u).nextPacket (w.mod.toNat % 8) (immBits w 0 4) = some k →
          k.kind ≠ .marker → 0x10000 < ((s.mod.tile u).sreg w.a.toNat).toNat
            + (k.data.take ((s.mod.tile u).sreg w.b.toNat).toNat).length →
          Yields (.recv t w) s (s.mod.undefined cx.r.ten))

/-- R36, R106: FLAG queues each tile's increment towards the counter of the tile it names, on c14; FLAGW waits until the origin's counter
holds the amount, then subtracts it in every tile, stopping at zero, and writes the value from before. -/
def FlagInstructions : Prop :=
  ∀ (t : TileId) (w : Fields) (s : State) (cx : Ctx), Inside s.mod cx →
    (Issues s t 0x39 w (formFlag.bad w) cx →
      (∀ u ∈ s.mod.spanTiles cx.o, (s.mod.tileAddr cx.r.ten ((s.mod.tile u).sreg w.a.toNat)).isSome = true) →
      (let us := s.mod.spanTiles cx.o
       let data := leBytes 2 (immBits w 6 16) ++ leBytes 2 (immBits w 0 6)
       let noted := sentNote s.mod cx (fun _ => some data) (fun x => flagNote (x.sreg w.a.toNat))
       (s.mod.isTwin cx.o = true → ∃ s', exec (.flag t w) s = .next s' ∧ SpanDid s.mod s s' cx (fun _ x => noted x))
       ∧ (s.mod.isTwin cx.o = false → ∃ s', exec (.flag t w) s = .next s' ∧
          SpanDid { s.mod with deckSeq := s.mod.deckSeq + us.length } s s' cx (fun u x =>
            match s.mod.tileAddr cx.r.ten (x.sreg w.a.toNat) with
            | some v => { noted x with sendX := x.sendX ++
                [⟨s.mod.deckSeq + us.idxOf u, u, v, 4, 14, .flag, cx.r.ten, data, true⟩] }
            | none => x))))
    ∧ (Issues s t 0x3A w (formFlagw.bad w) cx →
      ((Map.get 0 (s.mod.tile cx.o).flags (immBits w 0 6)).toNat < immBits w 6 16 →
        ∃ s', exec (.flagw t w) s = .next s' ∧ SpanWaits s s' cx 0x3A w)
      ∧ (immBits w 6 16 ≤ (Map.get 0 (s.mod.tile cx.o).flags (immBits w 0 6)).toNat →
        ∃ s', exec (.flagw t w) s = .next s' ∧ SpanDid s.mod s s' cx (fun _ x =>
          let v := (Map.get 0 x.flags (immBits w 0 6)).toNat
          let left := Map.set 0 x.flags (immBits w 0 6) (BitVec.ofNat 16 (v - immBits w 6 16))
          ({ x with flags := left } : Tile).setS w.d.toNat (BitVec.ofNat 32 v))))

/-! ## Tile instructions: barriers and commit -/

/-- R105: BAR at a barrier of the route that includes the tile's stage. ARRIVE counts the span once in the phase and goes on;
ARRIVE_WAIT arrives and waits; WAIT goes on once the phase of the tile's last arrival has completed. Another barrier halts with
BARRIER. -/
def BarrierInstruction : Prop :=
  ∀ (t : TileId) (w : Fields) (s : State) (cx : Ctx), Issues s t 0x38 w (formBar.bad w) cx →
    (let o := s.mod.tile cx.o
     let i := ((o.sreg w.a.toNat).toNat + immBits w 0 12) % 4096
     (cx.r.barriers[i]? = none → Halts (.bar t w) s cx 9)
     ∧ (∀ b, cx.r.barriers[i]? = some b →
        (bitsAt b.stageMask (s.mod.cl t.cl.val).stage 1 = 0 → Halts (.bar t w) s cx 9)
        ∧ (bitsAt b.stageMask (s.mod.cl t.cl.val).stage 1 = 1 →
          (w.mod.toNat = 1 → Yields (.bar t w) s ((s.mod.arriveAt cx i b).retire cx))
          ∧ (w.mod.toNat = 0 → o.core = .ready → Yields (.bar t w) s ((s.mod.arriveAt cx i b).waitOn cx 0x38 w))
          ∧ (w.mod.toNat = 0 → (∃ op w', o.core = .waiting op w') → Map.get 0 o.barPhase i ≤ b.phase → Inside s.mod cx →
              ∃ s', exec (.bar t w) s = .next s' ∧ SpanDid s.mod s s' cx (fun _ x => x))
          ∧ (w.mod.toNat = 2 → Map.get 0 o.barPhase i ≤ b.phase → Inside s.mod cx →
              ∃ s', exec (.bar t w) s = .next s' ∧ SpanDid s.mod s s' cx (fun _ x => x))
          ∧ (w.mod.toNat = 2 → b.phase < Map.get 0 o.barPhase i →
              ∃ s', exec (.bar t w) s = .next s' ∧ SpanWaits s s' cx 0x38 w))))

/-- R105, R313: the phase of a barrier completes once every local participant has arrived: the next phase opens with no arrival,
and the waiting spans resume. A barrier of a group starts its group operation instead, once. -/
def BarrierPhases : Prop :=
  ∀ (route : Fin 256) (barrier : BitVec 12) (s : State) (r : Route) (b : Barrier),
    s.mod.route route.val = some r → r.barriers[barrier.toNat]? = some b → b.arrived ≠ [] →
    (s.mod.barrierFull b = true → b.group = 0 →
      Yields (.barrierPhaseComplete route barrier) s (s.mod.completePhase route.val barrier.toNat))
    ∧ (s.mod.barrierFull b = true → b.group ≠ 0 → b.inGroup = false →
      Yields (.barrierPhaseComplete route barrier) s (s.mod.startBarrierGroup route.val barrier.toNat))
    ∧ (s.mod.barrierFull b = false → NoEffect (.barrierPhaseComplete route barrier) s)

/-- R105, R313: arrivals and waits, and the completion of a phase.
Premises: the span issues the word, and where it retires the next index lies in the code.
Where these rules leave a point open it follows the model (log entries 3 and 14). -/
def Obligations.Barriers : Prop := BarrierInstruction ∧ BarrierPhases

/-- R89, R90, R94, R108: CMT without MIDSTEP_CMT is a fence; with it the staged stores of the span are published. CMT.STEP
arrives at the boundary. All wait for the span's transfers.
Premises: the span issues the word, and where it retires the next index lies in the code.
Where these rules leave a point open it follows the model (log entries 3 and 27). -/
def Obligations.CommitInstructions : Prop :=
  ∀ (t : TileId) (w : Fields) (s : State) (cx : Ctx), Issues s t 0x3B w (formCmt.bad w) cx →
    (w.mod.toNat = 0 → cx.sg.prog.skq2 = false → s.mod.spanBusy cx = false → cx.sg.prog.midCmt = false → Inside s.mod cx →
      ∃ s', exec (.cmt t w) s = .next s' ∧ SpanDid s.mod s s' cx (fun _ x => x))
    ∧ (w.mod.toNat = 0 → cx.sg.prog.skq2 = false → s.mod.spanBusy cx = false → cx.sg.prog.midCmt = true →
      (let staged := (s.mod.spanTiles cx.o).flatMap (fun u => (s.mod.tile u).staged)
       let m := s.mod.mapSpan cx.o (fun _ x => { x with staged := [], midCmt := true })
       (∀ m', m.publishAll cx.o.cl cx.r.ten.val staged = (none, m') → Yields (.cmt t w) s (m'.retire cx))
       ∧ (∀ e m', m.publishAll cx.o.cl cx.r.ten.val staged = (some e, m') → Yields (.cmt t w) s (m'.failRoute cx.n e))))
    ∧ ((w.mod.toNat = 0 ∧ cx.sg.prog.skq2 = true ∨ w.mod.toNat = 1) → s.mod.spanBusy cx = false →
      ∃ s', exec (if w.mod.toNat = 1 then .cmtStep t w else .cmt t w) s = .next s' ∧ SpanBecame s.mod s s' cx (fun _ x =>
        { x.moveOn (s.mod.tile cx.o) with core := .arrived }))
    ∧ (s.mod.spanBusy cx = true →
      ∃ s', exec (if w.mod.toNat = 1 then .cmtStep t w else .cmt t w) s = .next s' ∧ SpanWaits s s' cx 0x3B w)

/-- The boundary copies of a bay (R91): outside the scratch region, every block that has not been written in this step stands
in the copy that its selector names as it stands in the bay. -/
def BoundaryKept (p : Prog) (x : Tile) : Prop :=
  ∀ b, inScratch p (b / 128) = false → b / 128 ∉ x.dirty →
    Mem.byte (if Map.get false x.sel (b / 128) then x.save1 else x.save0) b = Mem.byte x.bay b

/-- R91, R92: the step commit saves the blocks written in the step and flips their selectors, so that the boundary copies hold
the bay; a kill brings the bay back to its boundary contents, the scratch region to zero, and the registers to reset.
Where these rules leave a point open it follows the model (log entry 22). -/
def Obligations.BoundaryCopies : Prop :=
  ∀ (p : Prog) (x : Tile), BoundaryKept p x →
    ((x.commit p).bay = x.bay ∧ (x.commit p).dirty = [] ∧ (x.commit p).staged = [] ∧ BoundaryKept p (x.commit p))
    ∧ (∀ b, Mem.byte (x.kill p).bay b = if inScratch p (b / 128) then 0
        else Mem.byte (if Map.get false x.sel (b / 128) then x.save1 else x.save0) b)
    ∧ (x.kill p).s = [] ∧ (x.kill p).a = [] ∧ (x.kill p).v = [] ∧ (x.kill p).p = [] ∧ (x.kill p).loops = []
    ∧ (x.kill p).xfers = [] ∧ (x.kill p).staged = [] ∧ (x.kill p).recv = [] ∧ (x.kill p).marker = none

/-- R90, R91: a commit that nothing waits for. The tiles of the cluster commit, the step commits and the next begins at the boundary;
no other tile changes, and no memory. -/
def ClusterCommits : Prop :=
  ∀ (c : Cluster) (s : State) (n : Nat) (r : Route) (sg : Stage), s.mod.stageOf c.val = some (n, r, sg) →
    PlainRoute s.mod r → r.state = .running → s.mod.takes r.ten = true →
    s.mod.fld Fld.FAB_CL_STATUS_STATE c.val = 1 → s.mod.released c.val = true → s.mod.allArrived c.val = true →
    (s.mod.cl c.val).twinOf = none → s.mod.twinOf c.val = none → (s.mod.cl c.val).move = none →
    (s.mod.cl c.val).retirePending = false → s.mod.rngBad = [] →
    (∀ u : TileId, u.cl = c → (s.mod.tile u).staged = []) →
    (∃ u : TileId, u.cl = c ∧ (s.mod.tile u).core = .arrived ∧ (s.mod.tile u).haltReq = false) →
    ∃ s', exec (.clusterCommit c) s = .next s' ∧ s'.pending = s.pending
      ∧ s'.mod.released c.val = false
      ∧ s'.mod.fld Fld.FAB_CL_STEP_STEP c.val = (s.mod.cl c.val).step.toNat
      ∧ (s'.mod.cl c.val).step = (s.mod.cl c.val).step + 1
      ∧ (s'.mod.cl c.val).nextKind = 1 ∧ (s'.mod.cl c.val).committedAny = true
      ∧ (∀ u : TileId, s'.mod.tile u = if u.cl = c then (s.mod.tile u).commit sg.prog else s.mod.tile u)
      ∧ s'.mod.dram = s.mod.dram ∧ s'.mod.hold = s.mod.hold
      ∧ OtherRegsKept s.mod s'.mod [.FAB_CL_STEP, .FAB_CL_STATUS, .FAB_CL_BUSY, .PMC_CNT]

/-- R90, R413, R414: what a commit waits for, and what it does beside the publication: the step is not done, or the digests of a
twin pair differ. -/
def CommitsHeld : Prop :=
  ∀ (c : Cluster) (s : State) (n : Nat) (r : Route) (sg : Stage), s.mod.stageOf c.val = some (n, r, sg) →
    ((s.mod.cl c.val).twinOf = none → (s.mod.cl c.val).move = none → s.mod.stepDone c.val = true →
      s.mod.draining c.val r = false → s.mod.digestsAgree c.val = true → s.mod.rngBad = [] →
      ((s.mod.commitBoundary c.val).cl c.val).retirePending = false → (s.mod.commitBoundary c.val).rngBad = [] →
      Yields (.clusterCommit c) s (s.mod.commitBoundary c.val))
    ∧ ((s.mod.released c.val = false ∨ s.mod.allArrived c.val = false) → NoEffect (.clusterCommit c) s)
    ∧ ((s.mod.cl c.val).twinOf = none → (s.mod.cl c.val).move = none → s.mod.stepDone c.val = true →
      s.mod.draining c.val r = true → s.mod.deckFor c.val = true → NoEffect (.clusterCommit c) s)
    ∧ ((s.mod.cl c.val).twinOf = none → (s.mod.cl c.val).move = none → s.mod.stepDone c.val = true →
      s.mod.draining c.val r = false → s.mod.digestsAgree c.val = false →
      Yields (.clusterCommit c) s (s.mod.twinMismatch c.val n r.ten))

/-- R79, R90: a release. The cluster leaves its boundary, every tile of it goes on at its entry point with its scratch region zero;
no other tile changes, and no memory. What holds the cluster keeps it there. -/
def ClusterReleases : Prop :=
  ∀ (c : Cluster) (s : State) (n : Nat) (r : Route) (sg : Stage), s.mod.stageOf c.val = some (n, r, sg) →
    (s.mod.released c.val = false → (s.mod.cl c.val).move = none → (s.mod.cl c.val).retirePending = false →
      s.mod.rngBad = [] → s.mod.mayRelease c.val = true → s.mod.twinOf c.val = none → s.mod.wrec r.ten.val = none →
      s.mod.entryOk (Fin.ofNat 101 (s.mod.fld Fld.FAB_CL_ASSIGN_TENANCY c.val)) = true →
      s.mod.reg .ERR_INJECT_INV Block.ten.group = 0 →
      ∃ s', exec (.clusterRelease c) s = .next s' ∧ s'.pending = s.pending
        ∧ s'.mod.released c.val = true
        ∧ (∀ u : TileId, s'.mod.tile u =
            if u.cl = c then (s.mod.tile u).release sg.prog (s.mod.cl c.val).nextKind else s.mod.tile u)
        ∧ (s'.mod.cl c.val).step = (s.mod.cl c.val).step
        ∧ s'.mod.dram = s.mod.dram ∧ s'.mod.hold = s.mod.hold
        ∧ OtherRegsKept s.mod s'.mod [.FAB_CL_STATUS])
    ∧ (s.mod.rngBad = [] → (s.mod.cl c.val).move = none → (s.mod.cl c.val).retirePending = false →
      s.mod.mayRelease c.val = false → NoEffect (.clusterRelease c) s)

/-- R79, R90: where a tile goes on at a release, and what it keeps: all but the scratch region of its bay where its state survives,
otherwise the state of reset but for its bay and its packets. -/
def TileReleases : Prop :=
  ∀ (p : Prog) (kind : Nat) (x : Tile), x.core ≠ .halted →
    (x.release p kind).pc = (if kind = 0 then p.entry else p.stepEntry) ∧ (x.release p kind).core = .ready
    ∧ (x.release p kind).entryKind = kind ∧ (x.release p kind).dirty = []
    ∧ (∀ b, Mem.byte (x.release p kind).bay b = if inScratch p (b / 128) then 0 else Mem.byte x.bay b)
    ∧ (x.release p kind).recv = x.recv ∧ (x.release p kind).sendX = x.sendX
    ∧ (kind = 1 → (x.release p kind).s = x.s ∧ (x.release p kind).a = x.a ∧ (x.release p kind).v = x.v
        ∧ (x.release p kind).p = x.p ∧ (x.release p kind).flags = x.flags ∧ (x.release p kind).marker = x.marker)
    ∧ (kind ≠ 1 → (x.release p kind).s = [] ∧ (x.release p kind).a = [] ∧ (x.release p kind).v = []
        ∧ (x.release p kind).p = [] ∧ (x.release p kind).flags = [] ∧ (x.release p kind).marker = none)

/-- R92, R93: the kill of a route's steps where no commit has begun: the tiles of its clusters are killed, the clusters stand at
their boundaries, what they sent on the Deck is gone, and no memory changes. Other tiles keep what they hold. A route that is not
running has no step to kill. -/
def StepKills : Prop :=
  ∀ (route : Fin 256) (s : State) (r : Route), s.mod.route route.val = some r →
    (PlainRoute s.mod r → (r.state = .running ∨ r.state = .stopping) →
      (∀ c ∈ s.mod.clustersOf route.val, s.mod.stepDone c = false) →
      (∀ c, (s.mod.cl c).route = some route.val → (s.mod.cl c).stage < r.stages.length) →
      ∃ s', exec (.stepKill route) s = .next s' ∧ s'.pending = s.pending
        ∧ (∀ c : Cluster, ∀ sg, (s.mod.cl c.val).route = some route.val → r.stages[(s.mod.cl c.val).stage]? = some sg →
            s'.mod.released c.val = false
            ∧ (s'.mod.cl c.val).nextKind = (if (s.mod.cl c.val).committedAny then 2 else 0)
            ∧ (s'.mod.cl c.val).step = (s.mod.cl c.val).step
            ∧ ∀ u : TileId, u.cl = c → s'.mod.tile u = (s.mod.tile u).kill sg.prog)
        ∧ (∀ u : TileId, (s.mod.cl u.cl.val).route ≠ some route.val → s'.mod.tile u = s.mod.tile u)
        ∧ (∀ k ∈ s'.mod.deck, (s.mod.cl k.src.cl.val).route ≠ some route.val)
        ∧ s'.mod.dram = s.mod.dram ∧ s'.mod.hold = s.mod.hold
        ∧ OtherRegsKept s.mod s'.mod [.FAB_CL_STATUS])
    ∧ (r.state = .loaded ∨ r.state = .stopped → NoEffect (.stepKill route) s)
    ∧ Yields (.stepKill route) s (s.mod.killRoute route.val)

/-- R79, R90, R92, R93, R152, R361, R409, R414: the cluster commit once every tile has arrived; the release of a cluster that nothing
holds, and its refusal of one that something holds; the kill of a route's steps.
Where these rules leave a point open it follows the model (log entries 22, 26, 27, 38 and 167). -/
def Obligations.StepBoundaries : Prop :=
  ClusterCommits ∧ CommitsHeld ∧ ClusterReleases ∧ TileReleases ∧ StepKills

/-! ## The Deck and the fabric -/

/-- R37 to R39, R44, R56: a packet that is in order and reaches its destination router is delivered where the tenancies agree, and
otherwise discarded, counted in DCK_ISO_DROP and recorded; one that an earlier packet of its stream is ahead of waits. The last
segment of an X packet frees the buffer that its source held. -/
def DeckArrival : Prop :=
  ∀ (n : Nat) (s : State) (k : DeckPkt), s.mod.deck[n]? = some k → s.mod.reg .ERR_INJECT_INV Block.dck.group = 0 →
    (k.port = 4 → s.mod.xBuffered k.dst k.vc ≤ 16) →
    (let m : Module := ({ s.mod with deck := s.mod.deck.eraseIdx n } : Module).leaveDeck k
     let m' := m.checkAssign k.dst.cl.val
     let same := m'.flag Fld.FAB_CL_ASSIGN_VALID k.dst.cl.val = true
       ∧ m'.fld Fld.FAB_CL_ASSIGN_TENANCY k.dst.cl.val = k.ten.val
     (s.mod.mayArrive n k = false → NoEffect (.deckPacketArrive n) s)
     ∧ (s.mod.mayArrive n k = true → s.mod.pathErr.contains .dck = false → m.bridgeLost k = false →
        (same → Yields (.deckPacketArrive n) s (m'.deliverPacket k))
        ∧ (¬ same → Yields (.deckPacketArrive n) s
            (((m'.addFld Fld.DCK_ISO_DROP_COUNT 0 0).raise Kind.DCK_ISOLATION k.ten.val k.dst.cl.val).violation
              k.ten.val .dck)))
     ∧ (s.mod.mayArrive n k = true → s.mod.pathErr.contains .dck = false → m.bridgeLost k = true →
        Yields (.deckPacketArrive n) s ((m.raise Kind.DCK_BRIDGE k.ten.val k.src.cl.val).failSender k)))

/-- R106: a FLAG packet that arrives adds its increment to the counter it names, up to 65,535, in its one tile, and in that tile's
twin where it has one (R413). -/
def FlagDelivery : Prop :=
  ∀ (m : Module) (k : DeckPkt), k.kind = .flag → (∀ u, m.twinTile k.dst = some u → u ≠ k.dst) →
    (let f := fieldAt k.data 2 2
     let sum := (Map.get 0 (m.tile k.dst).flags f).toNat + fieldAt k.data 0 2
     (Map.get 0 ((m.deliverPacket k).tile k.dst).flags f).toNat = min 65535 sum
     ∧ (∀ g, g ≠ f → Map.get 0 ((m.deliverPacket k).tile k.dst).flags g = Map.get 0 (m.tile k.dst).flags g)
     ∧ (∀ u, u ≠ k.dst → m.twinTile k.dst ≠ some u → (m.deliverPacket k).tile u = m.tile u)
     ∧ (∀ u, m.twinTile k.dst = some u → (m.deliverPacket k).tile u = (m.tile u).addFlag f (fieldAt k.data 0 2)))

/-- R106: the flag instructions, and what the delivery of a FLAG packet does.
Premises: the span issues the word, and where it retires the next index lies in the code.
Where these rules leave a point open it follows the model (log entries 3 and 29). -/
def Obligations.Flags : Prop := FlagInstructions ∧ FlagDelivery

/-- R42, R44, R56: X traffic. A free receive buffer goes to the next source in round-robin order; the source that holds it
injects up to 16 flits once the destination has room for all of them; a failed bridge channel is marked and recorded; a
stream stalled for too long is recorded. -/
def DeckFlowControl : Prop :=
  ∀ (t : TileId) (vc : BitVec 4) (s : State),
    (∀ k, (s.mod.xr t vc).holder = none →
      ((s.mod.requesters t vc).find? (fun k => decide ((s.mod.xr t vc).last < k)) = some k
        ∨ ((s.mod.requesters t vc).find? (fun k => decide ((s.mod.xr t vc).last < k)) = none
            ∧ (s.mod.requesters t vc).head? = some k)) →
      Yields (.xReservationGrant t vc) s (s.mod.setXr t vc ⟨some k, k⟩))
    ∧ (∀ k, (s.mod.tile t).sendX.find? (fun k => k.vc == vc && (s.mod.xr k.dst vc).holder == some (tileKey t)) = some k →
      s.mod.xBuffered k.dst vc + min 16 (flitsOf k.data.length) ≤ 16 →
      (let cut := min 16 (flitsOf k.data.length) * 64
       (k.data.drop cut = [] → Yields (.xSegmentInject t vc) s
          ((s.mod.setTile t { s.mod.tile t with sendX := (s.mod.tile t).sendX.filter (fun j => j.seq != k.seq) }).onDeck
            [{ k with data := k.data.take cut, last := true }]))
       ∧ (k.data.drop cut ≠ [] → Yields (.xSegmentInject t vc) s
          ((s.mod.setTile t { s.mod.tile t with sendX := (s.mod.tile t).sendX.map (fun j =>
              if j.seq == k.seq then { k with data := k.data.drop cut } else j) }).onDeck
            [{ k with data := k.data.take cut, last := false }]))))
    ∧ (∀ (edge : Fin 4) (ch : Fin 40),
      Yields (.bridgeChannelFail edge ch) s ((s.mod.setReg .DCK_BRIDGE_STATUS edge.val 0
        (s.mod.reg .DCK_BRIDGE_STATUS edge.val &&& ~~~ BitVec.ofNat 64 (2 ^ ch.val))).raise Kind.DCK_BRIDGE 0
          (edge.val * 40 + ch.val)))
    ∧ (s.mod.fld Fld.DCK_STALL_LIMIT_LIMIT ≠ 0 → (s.mod.tile t).stalled = true →
      Yields (.dckStallExpire t) s (s.mod.raise Kind.DCK_STALL (s.mod.fld Fld.FAB_CL_ASSIGN_TENANCY t.cl.val) t.cl.val))

/-- R37 to R44, R56: arrival, isolation and flow control of Deck traffic.
Where these rules leave a point open it follows the model (log entries 29, 164 and 168). -/
def Obligations.DeckTraffic : Prop := DeckArrival ∧ DeckFlowControl

/-- R29, R46 to R50, R53, R54, R409: instruction-cache fills, tile faults and the row repair: the spare powers up, tests itself, the
bays shift, the failed bay is refilled, and the repaired rows go to the EEPROM; RETIRE at a boundary retires the cluster at once and
otherwise waits; FAIL_SITE on a cluster in REPAIR waits; CLEAR_FIELD_REPAIR marks the records for the next P reset.
Where these rules leave a point open it follows the model (log entries 23 and 31 to 34). -/
def Obligations.RepairAndRetirement : Prop :=
  ∀ (c : Cluster) (s : State),
    (∀ (t : TileId) (n : Nat) (r : Route) (sg : Stage) (m : Module), s.mod.stageOf t.cl.val = some (n, r, sg) →
      s.mod.released t.cl.val = true →
      (let line := lineOf (s.mod.tile (s.mod.origin t)).pc
       (s.mod.tile (s.mod.origin t)).icache.contains line = false → line < 4096 →
       s.mod.depotLine t.cl.val line r.ten.val = (true, m) →
       Yields (.icacheMissFill t (BitVec.ofNat 12 line)) s
         ((m.mapSpan t (fun _ x => x.fillLine line (Config.freeNat m.freeIx))).drawn)))
    ∧ (∀ row offset kind, Yields (.tileFault c row offset kind) s
        ((s.mod.recordSite c row.val offset.val kind).siteFault c.val row.val offset.val (kind == .bypass) false))
    ∧ (∀ rows, (s.mod.cl c.val).repair = some ⟨.poweringUp, rows⟩ →
        Yields (.repairSparePowered c) s (s.mod.setCl c.val { s.mod.cl c.val with repair := some ⟨.selfTest, rows⟩ }))
    ∧ (∀ rows, (s.mod.cl c.val).repair = some ⟨.selfTest, rows⟩ → (∀ x ∈ rows, s.mod.spareBad c.val x.1 = false) →
        s.mod.reg .ERR_INJECT_INV (32 + c.val) = 0 →
        Yields (.repairSelftestDone c) s (s.mod.setCl c.val { s.mod.cl c.val with repair := some ⟨.shifting, rows⟩ }))
    ∧ (∀ rows, (s.mod.cl c.val).repair = some ⟨.shifting, rows⟩ →
        Yields (.repairBayShiftDone c) s (s.mod.setCl c.val { s.mod.cl c.val with repair := some ⟨.refilling, rows⟩ }))
    ∧ (∀ rows, (s.mod.cl c.val).repair = some ⟨.refilling, rows⟩ →
        Yields (.repairRefillDone c) s (s.mod.endRepair c.val ⟨.refilling, rows⟩))
    ∧ (∀ r off, (s.mod.cl c.val).toRecord = [(r, off)] →
        ∃ s', exec (.repairRecordAppend c) s = .next s' ∧ (s'.mod.cl c.val).toRecord = []
          ∧ (∀ k, Map.get? s'.mod.repairRecords k = if 16 * c.val + r = k
              then some (BitVec.ofNat 32 (s.mod.reg .FAB_ROW_MAP c.val r).toNat) else Map.get? s.mod.repairRecords k)
          ∧ s'.mod.regs = s.mod.regs ∧ s'.mod.tiles = s.mod.tiles)
    ∧ (s.mod.fld Fld.FAB_CL_STATUS_STATE c.val ≠ 5 → s.mod.fld Fld.FAB_CL_STATUS_STATE c.val ≠ 3 →
        s.mod.released c.val = false → Yields (.retire c) s (s.mod.retireCluster c.val))
    ∧ (s.mod.fld Fld.FAB_CL_STATUS_STATE c.val ≠ 5 →
        (s.mod.fld Fld.FAB_CL_STATUS_STATE c.val = 3 ∨ s.mod.released c.val = true) →
        Yields (.retire c) s (s.mod.setCl c.val { s.mod.cl c.val with retirePending := true }))
    ∧ (c.val ∉ s.mod.eraseRecords →
        Yields (.clearFieldRepair c) s { s.mod with eraseRecords := s.mod.eraseRecords ++ [c.val] })
    ∧ (∀ (row : BitVec 4) (off : BitVec 5), off.toNat ≤ 16 → s.mod.fld Fld.FAB_CL_STATUS_STATE c.val = 3 →
        Yields (.failSite c row off) s (s.mod.setCl c.val { s.mod.cl c.val with
          faults := (s.mod.cl c.val).faults ++ [(row.toNat, off.toNat)] }))
    ∧ (∀ (row : BitVec 4) (off : BitVec 5), (16 < off.toNat ∨ s.mod.fld Fld.FAB_CL_STATUS_STATE c.val = 5) →
        NoEffect (.failSite c row off) s)
    ∧ (∀ (row : BitVec 4) (off : BitVec 5), off.toNat < 16 → s.mod.fld Fld.FAB_CL_STATUS_STATE c.val ≠ 5 →
        s.mod.fld Fld.FAB_CL_STATUS_STATE c.val ≠ 3 → s.mod.shiftAt c.val row.toNat = off.toNat →
        NoEffect (.failSite c row off) s)
    ∧ (∀ (row : BitVec 4) (off : BitVec 5), off.toNat = 16 → s.mod.fld Fld.FAB_CL_STATUS_STATE c.val ≠ 5 →
        s.mod.fld Fld.FAB_CL_STATUS_STATE c.val ≠ 3 →
        (s.mod.shiftAt c.val row.toNat = 16 → Yields (.failSite c row off) s (s.mod.markSpareBad c.val row.toNat))
        ∧ (s.mod.shiftAt c.val row.toNat ≠ 16 → Yields (.failSite c row off) s
          ((s.mod.recordSite c row.toNat 16 .pfDeclared).siteFault c.val row.toNat 16 false true)))
    ∧ (∀ (row : BitVec 4) (off : BitVec 5), off.toNat < 16 → s.mod.fld Fld.FAB_CL_STATUS_STATE c.val ≠ 5 →
        s.mod.fld Fld.FAB_CL_STATUS_STATE c.val ≠ 3 → s.mod.shiftAt c.val row.toNat ≠ off.toNat →
        Yields (.failSite c row off) s
          ((s.mod.recordSite c row.toNat off.toNat .pfDeclared).siteFault c.val row.toNat off.toNat false true))

/-! ## Routes and placement -/

/-- R141: a load whose image passes its checks in order installs the route, LOADED and of the command's tenancy, and ends OK; one
that a resource is short for ends RESOURCE; an image of another size, of another checksum, or out of range fails with CHECK_FAIL. -/
def RouteLoads : Prop :=
  ∀ (id : Nat) (s : State) (c : Cmd), CmdReady s.mod id 0x01 c →
    (c.ten = house → Ends (.routeLoad id) s id c st.resource (fun m => m.routes = s.mod.routes ∧ m.cls = s.mod.cls))
    ∧ (c.ten ≠ house → ∀ h m1, (s.mod.begun id c).readVA .plc c.ten.val (c.field 8 8) 64 = (.ok h, m1) →
      ((fieldAt h 0 4 ≠ 0x33455452 ∨ fieldAt h 5 1 ≠ 3 ∨ fieldAt h 4 1 ≠ 0) →
        Yields (.routeLoad id) s (m1.finish id st.unsupported))
      ∧ (fieldAt h 0 4 = 0x33455452 → fieldAt h 5 1 = 3 → fieldAt h 4 1 = 0 →
        (c.field 16 4 ≠ fieldAt h 48 4 → Yields (.routeLoad id) s (m1.finish id st.check))
        ∧ (c.field 16 4 = fieldAt h 48 4 → ∀ b m2,
          m1.readVA .plc c.ten.val (c.field 8 8) (fieldAt h 48 4) = (.ok b, m2) →
          (crc32c (zeroAt b 60 4) ≠ fieldAt b 60 4 → Yields (.routeLoad id) s (m2.finish id st.check))
          ∧ (crc32c (zeroAt b 60 4) = fieldAt b 60 4 →
            ((Image.of b).ok = false → Yields (.routeLoad id) s (m2.finish id st.check))
            ∧ ((Image.of b).ok = true → m2.routeById c.ten (Image.of b).routeId = none →
              (∀ i, i < (Image.of b).buffers → (bufferOf ((Image.of b).buffer i)).tier < 2 →
                m2.inPrivate c.ten.val (bufferOf ((Image.of b).buffer i)) = true) →
              ∀ sgs m3, m2.readPrograms c.ten.val (Image.of b) (List.range (Image.of b).stages) = (.ok sgs, m3) →
              (m3.planRoute c.ten (Image.of b) sgs = none → Yields (.routeLoad id) s (m3.finish id st.resource))
              ∧ (∀ q m4, m3.planRoute c.ten (Image.of b) sgs = some q →
                m3.installRoute c.ten (Image.of b) sgs q = some m4 →
                Yields (.routeLoad id) s (m4.finish id st.ok)))))))

/-- R136, R139, R141, R147: what an installed route holds. -/
def RouteInstalled : Prop :=
  ∀ (m m' : Module) (t : Ten) (x : Image) (sgs : List Stage) (q : Plan), m.installRoute t x sgs q = some m' →
    ∃ r, m'.route m.freeRoute = some r ∧ r.ten = t ∧ r.routeId = x.routeId ∧ r.learning = x.learning ∧ r.state = .loaded
      ∧ r.stages = sgs ∧ r.buffers = (List.range x.buffers).map (fun i => bufferOf (x.buffer i))
      ∧ r.barriers = q.barriers ∧ r.firstStep = BitVec.ofNat 64 (fieldAt x.bytes 24 8) ∧ r.startCmd = none
      ∧ m'.cmds = m.cmds

/-- R142: a start. On a running route it ends OK; on one that is stopping it waits for the stop; on a loaded or stopped one whose
barriers and group pass their checks it starts or resumes the route: the route runs under the command, which is past its commit point,
and every cluster of it is ACTIVE with its tiles at the start of a route, or ready to go on. -/
def RouteStarts : Prop :=
  ∀ (id : Nat) (s : State) (c : Cmd), CmdReady s.mod id 0x02 c →
    ((s.mod.begun id c).routeById c.ten (c.field 8 2) = none →
      Ends (.routeStart id) s id c st.aborted (fun m => m.routes = s.mod.routes ∧ m.cls = s.mod.cls))
    ∧ ∀ n r, (s.mod.begun id c).routeById c.ten (c.field 8 2) = some n → s.mod.route n = some r →
      (r.state = .running → Ends (.routeStart id) s id c st.ok (fun m => m.routes = s.mod.routes ∧ m.cls = s.mod.cls
        ∧ m.tiles = s.mod.tiles ∧ OtherRegsKept s.mod m []))
      ∧ (r.state = .stopping → Completes (.routeStart id) s (fun m =>
        m.route n = some { r with waiting := r.waiting ++ [id] } ∧ m.cmd id = some { c with phase := .committed }
        ∧ m.cls = s.mod.cls ∧ m.tiles = s.mod.tiles ∧ OtherRegsKept s.mod m []))
      ∧ ((r.state = .loaded ∨ r.state = .stopped) → PlainRoute s.mod r → r.isLearner = false →
        (∀ b ∈ r.barriers, b.group = 0) → s.mod.fld Fld.WBL_TEN_GROUP_GROUP r.ten.val = 0 →
        (∀ k, (s.mod.cl k).route = some n → (s.mod.cl k).stage < r.stages.length) →
        Completes (.routeStart id) s (fun m =>
          (∃ r', m.route n = some r' ∧ r'.state = .running ∧ r'.startCmd = some id ∧ r'.suspended = false
            ∧ r'.stages = r.stages)
          ∧ m.cmd id = some { c with phase := .committed }
          ∧ (∀ (k : Cluster) sg, (s.mod.cl k.val).route = some n → r.stages[(s.mod.cl k.val).stage]? = some sg →
              (s.mod.cl k.val).move = none → s.mod.fld Fld.FAB_CL_STATUS_STATE k.val ≠ 3 →
              s.mod.fld Fld.FAB_CL_STATUS_STATE k.val ≠ 5 →
              m.fld Fld.FAB_CL_STATUS_STATE k.val = 1
              ∧ (r.state = .loaded → (m.cl k.val).nextKind = 0
                  ∧ ∀ u : TileId, u.cl = k → m.tile u = (s.mod.tile u).start sg.prog)
              ∧ (r.state = .stopped → (m.cl k.val).nextKind = (if (s.mod.cl k.val).committedAny then 2 else 0)
                  ∧ ∀ u : TileId, u.cl = k → (s.mod.tile u).core ≠ .halted →
                      m.tile u = { (s.mod.tile u).clear with core := .ready }))
          ∧ (∀ u : TileId, (s.mod.cl u.cl.val).route ≠ some n → m.tile u = s.mod.tile u)
          ∧ m.dram = s.mod.dram ∧ m.hold = s.mod.hold))
      ∧ ((r.state = .loaded ∨ r.state = .stopped) → (∃ b ∈ r.barriers, (s.mod.begun id c).groupOk r.ten.val b.group = false) →
        Ends (.routeStart id) s id c st.check (fun m => m.routes = s.mod.routes ∧ m.cls = s.mod.cls))

/-- R143: a stop. A MODE or UNLOAD out of range, or a route that is not loaded, fails with CHECK_FAIL; where the route does not run
the command ends at once, and UNLOAD frees the route; DRAIN leaves the clusters to commit their current step, and KILL kills it. -/
def RouteStops : Prop :=
  ∀ (id : Nat) (s : State) (c : Cmd), CmdReady s.mod id 0x03 c →
    ((1 < c.field 10 1 ∨ 1 < c.field 11 1) →
      Ends (.routeStop id) s id c st.check (fun m => m.routes = s.mod.routes ∧ m.cls = s.mod.cls))
    ∧ (c.field 10 1 ≤ 1 → c.field 11 1 ≤ 1 → (s.mod.begun id c).routeById c.ten (c.field 8 2) = none →
      Ends (.routeStop id) s id c st.check (fun m => m.routes = s.mod.routes ∧ m.cls = s.mod.cls))
    ∧ (c.field 10 1 ≤ 1 → c.field 11 1 ≤ 1 →
      ∀ n r, (s.mod.begun id c).routeById c.ten (c.field 8 2) = some n → s.mod.route n = some r →
      ((r.state = .loaded ∨ r.state = .stopped) → c.field 11 1 = 0 →
        Ends (.routeStop id) s id c st.ok (fun m => m.routes = s.mod.routes ∧ m.cls = s.mod.cls ∧ m.tiles = s.mod.tiles
          ∧ OtherRegsKept s.mod m []))
      ∧ ((r.state = .loaded ∨ r.state = .stopped) → c.field 11 1 = 1 →
        Yields (.routeStop id) s (((s.mod.begun id c).finish id st.ok).unloadRoute n))
      ∧ ((r.state = .running ∨ r.state = .stopping) → c.field 10 1 = 0 →
        (∃ k ∈ s.mod.clustersOf n, s.mod.released k = true) →
        Completes (.routeStop id) s (fun m =>
          (∃ r', m.route n = some r' ∧ r'.state = .stopping ∧ r'.stopCmds = r.stopCmds ++ [id]
            ∧ r'.stopUnload = (r.stopUnload || c.field 11 1 == 1) ∧ r'.startCmd = r.startCmd)
          ∧ m.cmd id = some { c with phase := .committed }
          ∧ (∀ k mv, (s.mod.cl k).route = some n → (s.mod.cl k).move = some mv → mv.reassigned = false → k < 100 →
              (m.cl k).move = none)
          ∧ m.tiles = s.mod.tiles ∧ m.dram = s.mod.dram ∧ m.hold = s.mod.hold))
      ∧ ((r.state = .running ∨ r.state = .stopping) → Yields (.routeStop id) s
          ((((s.mod.begun id c).setRoute n (fun r => { r with
            stopCmds := r.stopCmds ++ [id]
            stopUnload := r.stopUnload || c.field 11 1 == 1 })).commitCmd id).beginStop n (c.field 10 1 == 1))))

/-- R141 to R143: ROUTE_LOAD, ROUTE_START and ROUTE_STOP.
Where these rules leave a point open it follows the model (log entries 42, 43, 45, 169, 176 and 177). -/
def Obligations.RouteCommands : Prop := RouteLoads ∧ RouteInstalled ∧ RouteStarts ∧ RouteStops

/-- R145, R147, R151, R152: cluster moves. A move starts only where the allocation that the route is moving to asks for it, for a
cluster that may leave towards a stage that may take it; it makes the cluster DRAINING. Its reassignment at the boundary joins the
new stage, unless it may no longer be made; its completion makes the cluster ACTIVE in a running route and counts in PLC_MOVES. -/
def ClusterMoves : Prop :=
  ∀ (c : Cluster) (s : State),
    (∀ (route : Fin 256) (stage : Fin 64) (r : Route), s.mod.route route.val = some r → s.mod.checkAssign c.val = s.mod →
      s.mod.flag Fld.FAB_CL_ASSIGN_VALID c.val = true → s.mod.fld Fld.FAB_CL_ASSIGN_TENANCY c.val = r.ten.val →
      (s.mod.cl c.val).route = some route.val → (s.mod.cl c.val).move = none → (s.mod.cl c.val).twinOf = none →
      stage.val < r.stages.length → (s.mod.cl c.val).stage ≠ stage.val →
      (∀ al, r.alloc = some al → moveBetween r.stages (s.mod.stageCounts route.val r) al = some ((s.mod.cl c.val).stage, stage.val) →
        s.mod.moving r.ten = false → s.mod.mayLeave c.val = true → s.mod.mayTake route.val stage.val = true →
        s.mod.behindFront c.val = false → s.mod.fld Fld.FAB_CL_STATUS_STATE c.val = 1 →
        Completes (.clusterMoveStart c route stage) s (fun m =>
          (m.cl c.val).move = some ⟨r.ten, some (route.val, stage.val), none, none, [], false, false⟩
          ∧ m.fld Fld.FAB_CL_STATUS_STATE c.val = 2 ∧ (m.cl c.val).route = some route.val
          ∧ m.tiles = s.mod.tiles ∧ m.routes = s.mod.routes ∧ RegsKept s.mod m [(.FAB_CL_STATUS, c.val, 0)]))
      ∧ ((r.alloc = none ∨ s.mod.moving r.ten = true ∨ s.mod.mayLeave c.val = false ∨ s.mod.mayTake route.val stage.val = false) →
        NoEffect (.clusterMoveStart c route stage) s))
    ∧ (∀ mv n i, (s.mod.cl c.val).move = some mv → mv.reassigned = false → mv.held = false → mv.dest = some (n, i) →
      mv.target = none → (s.mod.cl c.val).route = none → s.mod.released c.val = false →
      s.mod.fld Fld.FAB_CL_STATUS_STATE c.val = 2 → s.mod.moveStale c.val mv = false → s.mod.checkAssign c.val = s.mod →
      Yields (.clusterMoveReassign c) s (((s.mod.rejoin c.val mv n i).changedRoute n).mirrorTen mv.ten))
    ∧ (∀ mv, (s.mod.cl c.val).move = some mv → mv.reassigned = false → mv.held = false → s.mod.released c.val = false →
      s.mod.fld Fld.FAB_CL_STATUS_STATE c.val = 2 → s.mod.behindFront c.val = false → s.mod.moveStale c.val mv = true →
      Completes (.clusterMoveReassign c) s (fun m => (m.cl c.val).move = none ∧ (m.cl c.val).route = (s.mod.cl c.val).route
        ∧ (m.cl c.val).stage = (s.mod.cl c.val).stage ∧ m.tiles = s.mod.tiles))
    ∧ (∀ mv n r sg, (s.mod.cl c.val).move = some mv → mv.reassigned = true → s.mod.stageOf c.val = some (n, r, sg) →
      r.state = .running → s.mod.fld Fld.FAB_CL_STATUS_STATE c.val = 2 →
      (∀ p ∈ s.mod.routes, p.2.alloc = none) →
      s.mod.fld Fld.PLC_MOVES_COUNT < 2 ^ Fld.PLC_MOVES_COUNT.width - 1 →
      ∃ s', exec (.clusterMoveComplete c) s = .next s' ∧ s'.pending = s.pending ∧ (s'.mod.cl c.val).move = none
        ∧ s'.mod.fld Fld.FAB_CL_STATUS_STATE c.val = 1
        ∧ s'.mod.fld Fld.PLC_MOVES_COUNT = s.mod.fld Fld.PLC_MOVES_COUNT + 1
        ∧ RegsKept s.mod s'.mod [(.FAB_CL_STATUS, c.val, 0), (.PLC_MOVES, 0, 0)]
        ∧ s'.mod.tiles = s.mod.tiles ∧ s'.mod.dram = s.mod.dram ∧ s'.mod.hold = s.mod.hold)

/-- R149, R150: an item goes to a span that has none queued; where the cluster's share is used up and nothing is to be taken over
or stolen, the packet that ends the share follows. -/
def ItemDispensing : Prop :=
  ∀ (s : State) (t : TileId) (n : Nat) (r : Route) (sg : Stage), s.mod.stageOf t.cl.val = some (n, r, sg) → sg.items ≠ 0 →
    scheduledStage r sg = false → pagedStage r sg = false → s.mod.released t.cl.val = true →
    (∀ k ∈ (s.mod.tile (s.mod.origin t)).recv, ¬ (k.port = 4 ∧ k.vc = 13)) →
    (let cl := s.mod.cl t.cl.val
     (0 < cl.itemsLeft → Yields (.itemDispense t) s
        ((s.mod.setCl t.cl.val { cl with nextItem := cl.nextItem + 1, itemsLeft := cl.itemsLeft - 1 }).deliverAll t 13
          (leBytes 4 cl.nextItem ++ leBytes 8 cl.step.toNat ++ List.replicate 52 0)))
     ∧ (cl.itemsLeft = 0 → r.steal = false → (∀ d ∈ r.divisions, d.orphans = []) → Yields (.itemDispense t) s
        ((s.mod.setCl t.cl.val { cl with
            ended := if cl.ended.contains (s.mod.spanIdx t) then cl.ended else cl.ended ++ [s.mod.spanIdx t] }).deliverAll t 13
          (leBytes 4 0xFFFFFFFF ++ leBytes 8 cl.step.toNat ++ List.replicate 52 0))))

/-- R149: what a packet of the module's own to a span leaves: it joins the packets received in every tile of the span. -/
def ItemsReceived : Prop :=
  ∀ (m : Module) (t : TileId) (vc : BitVec 4) (bs : List Byte) (u : TileId), m.twinTile t = none →
    (m.deliverAll t vc bs).tile u = if u ∈ m.spanTiles t then
      { m.tile u with recv := (m.tile u).recv ++ [⟨4, vc, u, .data, bs⟩] } else m.tile u

/-- R144, R145: re-measurement replaces the cost of a stage by the mean of its last steps, and moves the allocation where that gains
enough; before there are so many steps it does nothing. -/
def Remeasurement : Prop :=
  ∀ (s : State) (route : Fin 256) (stage : Fin 64) (r : Route) (sg : Stage), s.mod.route route.val = some r →
    r.stages[stage.val]? = some sg →
    (let steps := s.mod.fld Fld.PLC_MEASURE_STEPS
     let done := sg.busyLog.filter (fun (p : Nat × Nat) => decide (p.1 < s.mod.lowestStep route.val stage.val))
     let cost := ((done.drop (done.length - steps)).map (·.2)).sum / steps / 256
     let m := s.mod.setStage route.val stage.val (fun sg' => { sg' with measured := some cost })
     let r' : Route := { r with stages := r.stages.modify stage.val (fun sg' => { sg' with measured := some cost }) }
     let new := allocate (s.mod.clustersOf route.val).length r'.stages
     let better := gains (s.mod.fld Fld.PLC_REBAL_GAIN_GAIN) (worstLoad (r'.stages.map Stage.work) (s.mod.stageCounts route.val r'))
       (worstLoad (r'.stages.map Stage.work) new)
     ((steps = 0 ∨ done.length < steps) → NoEffect (.plcRemeasure route stage) s)
     ∧ (steps ≠ 0 → steps ≤ done.length → better = false → Yields (.plcRemeasure route stage) s m)
     ∧ (steps ≠ 0 → steps ≤ done.length → better = true → Yields (.plcRemeasure route stage) s
        ((m.setRoute route.val (fun r => { r with alloc := some new })).nextChange route.val)))

/-- R153: the balance. It does nothing where it is switched off; otherwise every tenancy is evaluated, and one whose routes name each
other and whose rings stand at or above the high mark for BAL_HOLD periods gives its learning route a cluster. -/
def Balancing : Prop :=
  (∀ s : State, (s.mod.fld Fld.PLC_BAL_PERIOD_PERIOD = 0 ∨ s.mod.flag Fld.PLC_CTL_BAL_EN = false) → NoEffect .balancePeriod s)
  ∧ (∀ s : State, s.mod.fld Fld.PLC_BAL_PERIOD_PERIOD ≠ 0 → s.mod.flag Fld.PLC_CTL_BAL_EN = true →
      Yields .balancePeriod s ((List.finRange 101).foldl (fun m t => if t = house then m else m.balanceTen t) s.mod))
  ∧ (∀ (m : Module) (t : Ten) (g l : Nat), m.partners t = some (g, l) → m.flag Fld.PLC_TEN_CTL_BAL_EN t.val = true →
      m.fld Fld.PLC_TEN_BAL_BAL_LOW t.val < m.fld Fld.PLC_TEN_BAL_BAL_HIGH t.val →
      m.fld Fld.PLC_TEN_BAL_BAL_HIGH t.val ≤ m.caravanFill t.val →
      (let hold := max 1 (m.fld Fld.PLC_BAL_HOLD_HOLD)
       let hi := Map.get 0 m.balHi t.val + 1
       (hi < hold → m.balanceTen t = { m with balHi := Map.set 0 m.balHi t.val hi, balLo := Map.set 0 m.balLo t.val 0 })
       ∧ (hold ≤ hi → m.balanceTen t =
          ({ m with balHi := Map.set 0 m.balHi t.val 0, balLo := Map.set 0 m.balLo t.val 0 } : Module).balanceMove t g l)))
  ∧ (∀ (m : Module) (t : Ten), (m.partners t = none ∨ m.flag Fld.PLC_TEN_CTL_BAL_EN t.val = false) → m.balanceTen t = m)

/-- R144, R145, R147, R149 to R153: placement: cluster moves, item dispensing, re-measurement and the balance.
Where these rules leave a point open it follows the model (log entries 37 to 41, 44 and 175). -/
def Obligations.Placement : Prop :=
  ClusterMoves ∧ ItemDispensing ∧ ItemsReceived ∧ Remeasurement ∧ Balancing

/-! ## Weights -/

/-- R160, R161, R170: WEIGHT_LOAD refuses a tenancy whose generation route has been started or whose swap travels; a sound layer
table becomes the weight record of that version, with its resident layers staged into the berths from 0 on. -/
def WeightLoads : Prop :=
  ∀ (id : Nat) (s : State) (c : Cmd), CmdReady s.mod id 0x10 c →
    (let m := s.mod.begun id c
     let t := c.ten.val
     let n := c.field 24 2
     let count := m.fld Fld.WGT_TEN_BERTH_COUNT t
     let base := m.fld Fld.WGT_TEN_BERTH_BASE t
     let size := m.fld Fld.WGT_TEN_BERTH_BYTES_BYTES t
     let barred := c.ten = house ∨ m.generates c.ten = true
       ∨ (∃ w, m.wrec t = some w ∧ (w.travel.isSome || w.queued.isSome) = true)
     let inForm := 0 < n ∧ n ≤ 1024 ∧ 0 < count ∧ count ≤ 4094 ∧ base % 4096 = 0 ∧ 0 < size ∧ size % 4096 = 0
     (barred → Ends (.weightLoad id) s id c st.resource (fun m' => m'.weights = s.mod.weights ∧ m'.regs = s.mod.regs))
     ∧ (¬ barred → ¬ inForm → Ends (.weightLoad id) s id c st.check (fun m' => m'.wrec t = none))
     ∧ (¬ barred → inForm →
       (∀ e m1, (m.dropWrec t).readVA .wgt t (c.field 8 8) (32 * n) = (.error e, m1) →
         Yields (.weightLoad id) s (m1.finishFail id e))
       ∧ (∀ bs m1, (m.dropWrec t).readVA .wgt t (c.field 8 8) (32 * n) = (.ok bs, m1) →
         (let w := m1.newRecord c bs
          let sound := (layerEntries n bs).all (layerOk size) = true ∧ regionsApart w.regions = true
          let room := w.residents.length + 1 ≤ count ∧ (w.residents.length < n → w.residents.length + w.settings.depth ≤ count)
          (¬ sound → Yields (.weightLoad id) s (m1.finish id st.check))
          ∧ (sound → ¬ room → Yields (.weightLoad id) s (m1.finish id st.resource))
          ∧ (sound → room → m1.regionsGranted t w.regions = false →
              Yields (.weightLoad id) s ((m1.violation t .wgt).finish id st.isolation))
          ∧ (sound → room → m1.regionsGranted t w.regions = true →
              (∀ e m2, m1.slicesMapped t w.source w.layers = (.error e, m2) → Yields (.weightLoad id) s (m2.finishFail id e))
              ∧ (∀ m2, m1.slicesMapped t w.source w.layers = (.ok (), m2) →
                ∀ ok w' m3, m2.stageResidents id t w w.residents 0 = (ok, w', m3) →
                (ok = false → Yields (.weightLoad id) s (m3.finish id st.data))
                ∧ (ok = true → Yields (.weightLoad id) s ((m3.setWrec t w').finish id st.ok))
                ∧ (ok = true → Completes (.weightLoad id) s (fun m' =>
                    (∃ k d, m'.cmd id = some k ∧ k.phase = .done st.ok d)
                    ∧ ∃ w'', m'.wrec t = some w'' ∧ w''.layers = (layerEntries n bs).map layerOf
                      ∧ w''.active = BitVec.ofNat 16 (c.field 26 2) ∧ w''.source = c.field 16 8 ∧ w''.travel = none
                      ∧ w''.queued = none ∧ (∀ l, Map.get? w''.lean l = none)
                      ∧ (∀ k (h : k < w.residents.length), Map.get? w''.berths k = some ⟨w.residents[k], w.active, true⟩)
                      ∧ (∀ k, w.residents.length ≤ k → Map.get? w''.berths k = none)))))))))

/-- R20, R173, R312: WEIGHT_SWAP takes only the version after the latest requested, with every slice mapped; it travels, or is
queued behind the one that does, and has passed its commit point. -/
def WeightSwaps : Prop :=
  ∀ (id : Nat) (s : State) (c : Cmd), CmdReady s.mod id 0x11 c →
    (let m := s.mod.begun id c
     let t := c.ten.val
     let v := BitVec.ofNat 16 (c.field 16 2)
     let group := c.field 20 4
     (m.wrec t = none → Ends (.weightSwap id) s id c st.resource (fun m' => m'.weights = s.mod.weights ∧ m'.regs = s.mod.regs))
     ∧ (∀ w, m.wrec t = some w →
       (w.queued.isSome = true → Ends (.weightSwap id) s id c st.resource (fun m' => m'.wrec t = some w))
       ∧ (w.queued = none → m.groupOk t group = false → Ends (.weightSwap id) s id c st.check (fun m' => m'.wrec t = some w))
       ∧ (w.queued = none → m.groupOk t group = true → group ≠ 0 → m.jobOf t = none →
         Yields (.weightSwap id) s ((m.violation t .wgt).finish id st.isolation))
       ∧ (w.queued = none → m.groupOk t group = true → (group = 0 ∨ (m.jobOf t).isSome = true) →
         (v ≠ w.latest + 1 → Ends (.weightSwap id) s id c st.version (fun m' => m'.wrec t = some w))
         ∧ (v = w.latest + 1 →
           (∀ e m1, m.slicesMapped t (c.field 8 8) w.layers = (.error e, m1) → Yields (.weightSwap id) s (m1.finishFail id e))
           ∧ (∀ m1, m.slicesMapped t (c.field 8 8) w.layers = (.ok (), m1) →
             ((1 < m1.carryingRoutes c.ten ∨ (w.residents ≠ [] ∧ w.freeCount = 0)) →
               Ends (.weightSwap id) s id c st.resource (fun m' => m'.wrec t = some w))
             ∧ (m1.carryingRoutes c.ten ≤ 1 → (w.residents = [] ∨ 0 < w.freeCount) →
               (let x : WSwap := ⟨id, v, c.field 8 8, group, none, none, [], false⟩
                Completes (.weightSwap id) s (fun m' =>
                  m'.wrec t = some (if w.travel.isSome then { w with queued := some x } else { w with travel := some x })
                  ∧ m'.cmd id = some { c with phase := .committed }
                  ∧ m'.tiles = s.mod.tiles ∧ m'.dram = s.mod.dram ∧ m'.hold = s.mod.hold))))))))

/-- R168, R171: LEAN_BUILD copies every lean slice and tags it with the version; with no lean copies asked for it ends at once. -/
def LeanBuilds : Prop :=
  ∀ (id : Nat) (s : State) (c : Cmd), CmdReady s.mod id 0x12 c →
    (let m := s.mod.begun id c
     let t := c.ten.val
     let v := BitVec.ofNat 16 (c.field 16 2)
     (m.wrec t = none → Ends (.leanBuild id) s id c st.resource (fun m' => m'.weights = s.mod.weights))
     ∧ (∀ w, m.wrec t = some w →
       (w.leanLayers = [] → Ends (.leanBuild id) s id c st.ok (fun m' => m'.wrec t = some w ∧ m'.hold = s.mod.hold))
       ∧ (∀ e m1, m.leanMapped t (c.field 8 8) w.leanLayers = (.error e, m1) → Yields (.leanBuild id) s (m1.finishFail id e))
       ∧ (∀ m1, m.leanMapped t (c.field 8 8) w.leanLayers = (.ok (), m1) →
         ∀ ok m2, m1.buildLean id t (c.field 8 8) v w.leanLayers = (ok, m2) →
         Yields (.leanBuild id) s (m2.finish id (if ok then st.ok else st.data))
         ∧ (ok = true → Completes (.leanBuild id) s (fun m' =>
             (∃ k d, m'.cmd id = some k ∧ k.phase = .done st.ok d)
             ∧ ∃ w', m'.wrec t = some w' ∧ (∀ p ∈ w.leanLayers, Map.get? w'.lean p.1 = some v) ∧ w'.layers = w.layers
               ∧ w'.active = w.active ∧ w'.berths = w.berths)))))

/-- R160, R161, R168, R170, R171, R173: WEIGHT_LOAD, WEIGHT_SWAP and LEAN_BUILD.
Where these rules leave a point open it follows the model (log entries 46, 47, 49 and 181). -/
def Obligations.WeightCommands : Prop := WeightLoads ∧ WeightSwaps ∧ LeanBuilds

/-- R172: LOAD takes house frames, and Hold banks where asked, for a base that is free. -/
def BaseLoads : Prop :=
  ∀ (id : Nat) (s : State) (c : Cmd), CmdReady s.mod id 0x13 c → c.field 9 1 < 8 → c.field 10 1 < 2 → c.field 8 1 = 0 →
    (let m := s.mod.begun id c
     let b := c.field 9 1
     let n := c.field 24 8
     let frames := (n + frameBytes - 1) / frameBytes
     ((n = 0 ∨ n % 4096 ≠ 0) → Ends (.baseShareLoad id) s id c st.check (fun m' => m'.bases = s.mod.bases))
     ∧ (0 < n → n % 4096 = 0 →
       (((Map.get? m.bases b).isSome = true ∨ m.houseFramesLeft < frames) →
         Ends (.baseShareLoad id) s id c st.resource (fun m' => m'.bases = s.mod.bases ∧ m'.dram = s.mod.dram))
       ∧ (Map.get? m.bases b = none → frames ≤ m.houseFramesLeft →
         (∀ e m1, m.readVA .wgt c.ten.val (c.field 16 8) n = (.error e, m1) →
           Yields (.baseShareLoad id) s (m1.finishFail id e))
         ∧ (∀ bs m1, m.readVA .wgt c.ten.val (c.field 16 8) n = (.ok bs, m1) →
           (m1.takeBaseFrames b frames = none → Yields (.baseShareLoad id) s (m1.finish id st.resource))
           ∧ (∀ fs m2, m1.takeBaseFrames b frames = some (fs, m2) →
             (c.field 10 1 = 0 →
               Yields (.baseShareLoad id) s (((m2.fillFrames bs fs).setBase b ⟨n, fs, none⟩).finish id st.ok)
               ∧ Ends (.baseShareLoad id) s id c st.ok (fun m' => fs.length = frames
                 ∧ Map.get? m'.bases b = some ⟨n, fs, none⟩ ∧ ∀ b', b' ≠ b → Map.get? m'.bases b' = Map.get? s.mod.bases b'))
             ∧ (c.field 10 1 = 1 →
               ((m2.fillFrames bs fs).baseHold bs = none → Yields (.baseShareLoad id) s (m1.finish id st.resource))
               ∧ (∀ run m3, (m2.fillFrames bs fs).baseHold bs = some (run, m3) →
                 Yields (.baseShareLoad id) s ((m3.setBase b ⟨n, fs, some run⟩).finish id st.ok)
                 ∧ Ends (.baseShareLoad id) s id c st.ok (fun m' => fs.length = frames
                   ∧ Map.get? m'.bases b = some ⟨n, fs, some run⟩
                   ∧ ∀ b', b' ≠ b → Map.get? m'.bases b' = Map.get? s.mod.bases b'))))))))

/-- R172, R257: GRANT maps a base read-only into a tenancy, with a read-only extent for its Hold copy; it is refused for an address
that does not fit or is mapped, and where the tenancy has the base. -/
def BaseGrants : Prop :=
  ∀ (id : Nat) (s : State) (c : Cmd), CmdReady s.mod id 0x13 c → c.field 9 1 < 8 → c.field 10 1 < 2 → c.field 8 1 = 1 →
    (let m := s.mod.begun id c
     let b := c.field 9 1
     let ten := c.field 11 1
     let va := c.field 16 8
     let h := c.field 12 4
     ((ten = 0 ∨ 100 < ten ∨ 2 ^ 48 ≤ va) → Ends (.baseShareGrant id) s id c st.check (fun m' => m'.baseGrants = s.mod.baseGrants))
     ∧ (1 ≤ ten → ten ≤ 100 → va < 2 ^ 48 →
       (Map.get? m.bases b = none → Ends (.baseShareGrant id) s id c st.resource (fun m' => m'.baseGrants = s.mod.baseGrants))
       ∧ (∀ x, Map.get? m.bases b = some x →
         (let holdFits := ∀ r, x.hold = some r → h % bankBytes = 0 ∧ h / bankBytes + r.2 ≤ 65536
            ∧ m.extentsMeet ten (h / bankBytes) r.2 = false
          let unmapped := ∀ k, k < x.frames.length → ∃ e, m.walk ten (va + k * frameBytes) false = .error e ∧ e.kind = 1
          let fits := m.exists? (Fin.ofNat 101 ten) = true ∧ m.hasBase ten b = false ∧ va % frameBytes = 0
            ∧ va + x.frames.length * frameBytes ≤ 2 ^ 48 ∧ unmapped ∧ holdFits
            ∧ m.flag Fld.XLT_TEN_ROOT_ENABLE ten = true ∧ pairOk (m.reg .XLT_TEN_ROOT ten) = true
          (¬ fits → Ends (.baseShareGrant id) s id c st.resource (fun m' => m'.baseGrants = s.mod.baseGrants))
          ∧ (fits → m.mapBase ten va x.frames = none →
            Ends (.baseShareGrant id) s id c st.resource (fun m' => m'.baseGrants = s.mod.baseGrants))
          ∧ (fits → ∀ m1, m.mapBase ten va x.frames = some m1 →
            (x.hold = none → Yields (.baseShareGrant id) s ((m1.setGrant (8 * ten + b) va).finish id st.ok))
            ∧ (∀ r, x.hold = some r → Yields (.baseShareGrant id) s
              (((m1.setExtent ten (b + 1) (h / bankBytes) r.2 r.1 true true).setGrant (8 * ten + b) va).finish id st.ok))
            ∧ Ends (.baseShareGrant id) s id c st.ok (fun m' => Map.get? m'.baseGrants (8 * ten + b) = some va
              ∧ (∀ k, k ≠ 8 * ten + b → Map.get? m'.baseGrants k = Map.get? s.mod.baseGrants k)
              ∧ (∀ r, x.hold = some r →
                m'.reg .HLD_TEN_EXT ten (b + 1) = pairWord (r.2 * 65536 + h / bankBytes)
                ∧ m'.reg .HLD_TEN_EXT_RUN ten (b + 1) = pairWord (2 ^ 17 + 2 ^ 16 + r.1))))))))

/-- R172, R257: REVOKE removes the mappings of a base, unless a route of the tenancy is running or stopping; FREE releases a base
that no tenancy is granted. -/
def BaseReleases : Prop :=
  ∀ (id : Nat) (s : State) (c : Cmd), CmdReady s.mod id 0x13 c → c.field 9 1 < 8 → c.field 10 1 < 2 →
    (let m := s.mod.begun id c
     let b := c.field 9 1
     let ten := c.field 11 1
     (c.field 8 1 = 2 →
       ((ten = 0 ∨ 100 < ten) → Ends (.baseShareRevoke id) s id c st.check (fun m' => m'.baseGrants = s.mod.baseGrants))
       ∧ (1 ≤ ten → ten ≤ 100 →
         ((∃ p ∈ m.routes, p.2.ten.val = ten ∧ p.2.runs = true) →
           Ends (.baseShareRevoke id) s id c st.resource (fun m' => m'.baseGrants = s.mod.baseGrants))
         ∧ ((∀ p ∈ m.routes, p.2.ten.val = ten → p.2.runs = false) →
           Yields (.baseShareRevoke id) s ((m.revokeBase ten b).finish id st.ok)
           ∧ Ends (.baseShareRevoke id) s id c st.ok (fun m' =>
             ((Map.get? s.mod.bases b).isSome = true → Map.get? m'.baseGrants (8 * ten + b) = none)
             ∧ (∀ k, k ≠ 8 * ten + b → Map.get? m'.baseGrants k = Map.get? s.mod.baseGrants k)
             ∧ m'.bases = s.mod.bases))))
     ∧ (c.field 8 1 = 3 →
       (Map.get? m.bases b = none → Ends (.baseShareFree id) s id c st.ok (fun m' => m'.bases = s.mod.bases))
       ∧ (∀ x, Map.get? m.bases b = some x →
         ((∃ p ∈ m.baseGrants, p.1 % 8 = b) →
           Ends (.baseShareFree id) s id c st.resource (fun m' => m'.bases = s.mod.bases))
         ∧ ((∀ p ∈ m.baseGrants, p.1 % 8 ≠ b) →
           Yields (.baseShareFree id) s ((m.freeBase b x).finish id st.ok)
           ∧ Ends (.baseShareFree id) s id c st.ok (fun m' => Map.get? m'.bases b = none
             ∧ ∀ b', b' ≠ b → Map.get? m'.bases b' = Map.get? s.mod.bases b')))))

/-- R172: a BASE_SHARE whose BASE, MODE or HOLD is out of range ends CHECK. -/
def BaseFields : Prop :=
  ∀ (id : Nat) (s : State) (c : Cmd), CmdReady s.mod id 0x13 c →
    (let bad := 8 ≤ c.field 9 1 ∨ 2 ≤ c.field 10 1
     (((c.field 8 1 = 0 ∧ bad) ∨ 4 ≤ c.field 8 1) → Ends (.baseShareLoad id) s id c st.check (fun m => m.bases = s.mod.bases))
     ∧ (c.field 8 1 = 1 → bad → Ends (.baseShareGrant id) s id c st.check (fun m => m.bases = s.mod.bases))
     ∧ (c.field 8 1 = 2 → bad → Ends (.baseShareRevoke id) s id c st.check (fun m => m.bases = s.mod.bases))
     ∧ (c.field 8 1 = 3 → bad → Ends (.baseShareFree id) s id c st.check (fun m => m.bases = s.mod.bases)))

/-- R172, R257: BASE_SHARE.
Where these rules leave a point open it follows the model (log entries 47, 54, 75 and 183). -/
def Obligations.BaseSharing : Prop := BaseLoads ∧ BaseGrants ∧ BaseReleases ∧ BaseFields

/-- R165, R174, R181: staging. A layer to be staged again comes first; then the next resident layer of the travelling swap, where a
free berth is left for every fetch and every streaming stage, then that of the queued one. The first layer of a window that no
berth holds is fetched: it is then in a berth, or BROKEN. -/
def Staging : Prop :=
  ∀ (ten : Ten) (s : State) (w : WRecord) (layer : BitVec 10), s.mod.wrec ten.val = some w →
    (let l := layer.toNat
     let room := 1 + (s.mod.fetches ten.val w).length + s.mod.streamStages ten.val w
     (∀ v, w.restage.find? (fun (p : Nat × BitVec 16) => p.1 == l) = some (l, v) → 0 < w.freeCount →
       (∀ m, (s.mod.setWrec ten.val { w with restage := w.restage.erase (l, v) }).stageLayer ten.val l v = some m →
         Yields (.layerStaged ten false layer) s m)
       ∧ Completes (.layerStaged ten false layer) s (fun m => ∃ w', m.wrec ten.val = some w'
           ∧ w'.restage = w.restage.erase (l, v) ∧ (w'.isReady l v = true ∨ w'.isBroken l v = true)
           ∧ w'.travel = w.travel ∧ w'.queued = w.queued))
     ∧ (∀ x, w.restage.find? (fun (p : Nat × BitVec 16) => p.1 == l) = none → w.travel = some x → w.nextLayer x = some l →
       (w.freeCount < room → NoEffect (.layerStaged ten false layer) s)
       ∧ (room ≤ w.freeCount →
         (∀ m, s.mod.stageLayer ten.val l x.version = some m →
           Yields (.layerStaged ten false layer) s ((m.markStaged ten.val false l).trimBerths ten.val))
         ∧ Completes (.layerStaged ten false layer) s (fun m => ∃ w', m.wrec ten.val = some w'
             ∧ w'.travel = some { x with staged := x.staged ++ [l] } ∧ w'.queued = w.queued ∧ w'.active = w.active)))
     ∧ (∀ x y, w.restage.find? (fun (p : Nat × BitVec 16) => p.1 == l) = none → w.travel = some x → w.queued = some y →
       w.nextLayer x = none → w.nextLayer y = some l → room ≤ w.freeCount →
       Completes (.layerStaged ten true layer) s (fun m => ∃ w', m.wrec ten.val = some w'
         ∧ w'.queued = some { y with staged := y.staged ++ [l] } ∧ w'.travel = w.travel ∧ w'.active = w.active))
     ∧ (∀ v, (∃ u ∈ s.mod.windows ten.val w,
         u.find? (fun (p : Nat × BitVec 16) => !w.isReady p.1 p.2 && !w.isBroken p.1 p.2) = some (l, v)) →
       (∀ u ∈ s.mod.windows ten.val w, ∀ p : Nat × BitVec 16,
         u.find? (fun (p : Nat × BitVec 16) => !w.isReady p.1 p.2 && !w.isBroken p.1 p.2) = some p → p.1 = l → p.2 = v) →
       s.mod.epochs = [] → 0 < w.freeCount →
       (∀ m, s.mod.stageLayer ten.val l v = some m → Yields (.streamFetchComplete ten layer) s m)
       ∧ Completes (.streamFetchComplete ten layer) s (fun m => ∃ w', m.wrec ten.val = some w'
           ∧ (w'.isReady l v = true ∨ w'.isBroken l v = true) ∧ w'.travel = w.travel ∧ w'.active = w.active)))

/-- R175, R178, R179: S is the next step that no head cluster has entered, fixed once the first PRESTAGE resident layers are staged;
a grouped swap proposes a step LEAD further on; where S is not agreed in time, SWAP_WAIT is raised. -/
def FrontFixing : Prop :=
  ∀ (ten : Ten) (s : State) (w : WRecord) (x : WSwap), s.mod.wrec ten.val = some w → w.travel = some x → x.front = none →
    (∀ n r h, s.mod.genRoute ten.val = some (n, r) → r.headStage = some h → x.proposal = none →
      (s.mod.prestaged ten.val w x = false → NoEffect (.swapFrontFix ten) s)
      ∧ (s.mod.prestaged ten.val w x = true → x.group = 0 →
        Yields (.swapFrontFix ten) s (s.mod.fixFront ten.val (r.nextHead h))
        ∧ Completes (.swapFrontFix ten) s (fun m => ∃ w', m.wrec ten.val = some w'
            ∧ w'.travel = some { x with front := some (r.nextHead h) } ∧ w'.queued = w.queued ∧ w'.active = w.active
            ∧ m.reg .WGT_TEN_FRONT_STEP ten.val = r.nextHead h))
      ∧ (s.mod.prestaged ten.val w x = true → x.group ≠ 0 →
        (let p := r.nextHead h + BitVec.ofNat 64 (s.mod.wgtNow ten.val w).lead
         Yields (.swapFrontFix ten) s ((s.mod.setTravel ten.val (fun x => { x with proposal := some p })).startGroup ten
           x.group 2 x.version.toNat 0 p))))
    ∧ (x.proposal.isSome = true → s.mod.fld Fld.WGT_SWAP_TIMEOUT_TIMEOUT ≠ 0 →
      Yields (.swapTimeout ten) s (s.mod.raise Kind.WGT_SWAP_WAIT ten.val x.version.toNat)
      ∧ ∃ s', exec (.swapTimeout ten) s = .next s' ∧ Recorded s s' Kind.WGT_SWAP_WAIT [])
    ∧ ((x.proposal = none ∨ s.mod.fld Fld.WGT_SWAP_TIMEOUT_TIMEOUT = 0) → NoEffect (.swapTimeout ten) s)

/-- R176, R180: the swap is complete once every resident layer is staged and every layer-carrying stage of the routes that read the
weights has committed S; then the new version is active, its command ends, and a queued swap travels. -/
def SwapCompletion : Prop :=
  ∀ (ten : Ten) (s : State) (w : WRecord) (x : WSwap), s.mod.wrec ten.val = some w → w.travel = some x → w.nextLayer x = none →
    (∀ p ∈ s.mod.streamRoutes ten.val, ∃ f, x.front = some f ∧ ∀ i ∈ p.2.carriers, s.mod.stageDone p.1 i f = true) →
    ∃ s', exec (.swapComplete ten) s = .next s'
      ∧ s'.mod = (s.mod.completeSwap ten.val w x).settle
      ∧ (∃ w', s'.mod.wrec ten.val = some w' ∧ w'.active = x.version ∧ w'.source = x.source ∧ w'.travel = w.queued
        ∧ w'.queued = none)
      ∧ ∀ c, s.mod.cmd x.cmd = some c →
        (let status := if (List.range w.layers.length).any (fun l => w.isBroken l x.version) then st.data else st.ok
         ∃ detail, s'.mod.cmd x.cmd = some { c with phase := .done status detail })

/-- R166, R167: the deadline of a streamed layer in a step that no berth serves: a miss is counted, and under the LEAN policy the lean
copy of that version is decided. -/
def LayerDeadlines : Prop :=
  ∀ (route : Fin 256) (stage : Fin 64) (layer : BitVec 10) (s : State) (r : Route) (sg : Stage) (w : WRecord) (step : Word64),
    s.mod.route route.val = some r → r.stages[stage.val]? = some sg → s.mod.wrec r.ten.val = some w →
    s.mod.dueStep w route.val stage.val sg layer.toNat = some step →
    (let t := r.ten.val
     let l := layer.toNat
     let v := w.version step
     let key := (stageKey route.val stage.val, l, step)
     let given := w.answers.any (fun a => a.1 == key.1 && a.2.1 == l && a.2.2.1 == step)
     let due := r.learning = false ∧ sg.carriesLayer l = true ∧ w.isStreamed l = true ∧ (s.mod.wgtNow t w).deadline ≠ 0
       ∧ w.isReady l v = false ∧ w.isBroken l v = false ∧ key ∉ w.missed ∧ given = false
     (¬ due → NoEffect (.layerDeadlineExpire route stage layer) s)
     ∧ (due → Completes (.layerDeadlineExpire route stage layer) s (fun m =>
       (∃ w', m.wrec t = some w' ∧ w'.missed = w.missed ++ [key]
         ∧ w'.decided = (if (s.mod.wgtNow t w).lean = true ∧ Map.get? w.lean l = some v then w.decided ++ [key] else w.decided)
         ∧ w'.berths = w.berths)
       ∧ (m.reg .ERR_STATUS Block.wgt.group).getLsbD Kind.WGT_MISS.bit = true
       ∧ m.tiles = s.mod.tiles ∧ m.dram = s.mod.dram ∧ m.hold = s.mod.hold)))

/-- R163: VERS with ROUTE. A learning route, and a tenancy with no weight record, read zero. Else every tile's layer is asked for;
the results for which a span waits are delivered once every tile's layer can be answered: each tile's register takes the word for
its own layer, and the span retires. -/
def TollResults : Prop :=
  ∀ (s : State) (t : TileId) (w : Fields) (cx : Ctx),
    (let m := s.mod
     (w.mod.toNat = 1 → Issues s t 0x42 w (fun k => (formVers k w).illegal k w) cx →
       Yields (.vers t w) s (m.versRoute cx w)
       ∧ (Inside m cx → (cx.r.learning = true ∨ m.wrec cx.r.ten.val = none) →
         ∃ s', exec (.vers t w) s = .next s' ∧ SpanDid m s s' cx (fun _ x => x.setS w.d.toNat 0)))
     ∧ (cx.o = t → m.stageOf t.cl.val = some (cx.n, cx.r, cx.sg) → cx.r.learning = false → m.wrec cx.r.ten.val ≠ none →
       (let i := stageKey cx.n (m.cl t.cl.val).stage
        let step := (m.cl t.cl.val).step
        let m1 := (m.spanTiles t).foldl (fun m u => m.askLayer cx.r.ten.val t.cl.val i cx.sg step ((m.tile u).versLayer w)) m
        ∀ (route : Fin 256) (stage : Fin 64) (layer : BitVec 16) (rec : WRecord), m1.wrec cx.r.ten.val = some rec →
          m.stageClusters route.val stage.val = [t.cl.val] → m.released t.cl.val = true → m.origin t = t →
          (m.tile t).waitsToll layer.toNat = some w →
          (∀ u : TileId, u.cl = t.cl → u ≠ t → m.origin u = u → (m.tile u).waitsToll layer.toNat = none) →
          (let known := (m.spanTiles t).all (fun u => (rec.versAnswer i cx.sg step ((m.tile u).versLayer w)).isSome)
           (known = false → Yields (.tollRelease route stage layer) s (m1.waitOn cx 0x42 w))
           ∧ (known = true → Inside m cx → ∃ s', exec (.tollRelease route stage layer) s = .next s'
             ∧ SpanDid (m1.countToll cx) s s' cx (fun _ x =>
               x.setS w.d.toNat ((rec.versAnswer i cx.sg step (x.versLayer w)).getD 0)))))))

/-- R119, R163: the word that VERS answers. It names the berth; BROKEN where no copy can be read, and LEAN where the step takes the
lean copy; the answer first given in a step stands for every tile of the stage. -/
def TollWords : Prop :=
  ∀ (rec : WRecord) (key : Nat) (sg : Stage) (step : Word64) (l : Nat),
    (let v := rec.version step
     let ans := rec.versAnswer key sg step l
     (rec.layers.length ≤ l → ans = some (versWord 0xFFF true false v))
     ∧ (l < rec.layers.length → sg.carriesLayer l = false → ans = some (versWord 0xFFF (rec.isBroken l v) false v))
     ∧ (l < rec.layers.length → sg.carriesLayer l = true →
       (∀ a, rec.answers.find? (fun a => a.1 == key && a.2.1 == l && a.2.2.1 == step) = some a → ans = some a.2.2.2)
       ∧ (rec.answers.find? (fun a => a.1 == key && a.2.1 == l && a.2.2.1 == step) = none →
         ((key, l, step) ∈ rec.decided → ans = some (versWord 0xFFF false true v))
         ∧ ((key, l, step) ∉ rec.decided → ∀ b, rec.isReady l v = true → rec.berthOf l v = some b →
           ans = some (versWord b false false v))
         ∧ ((key, l, step) ∉ rec.decided → rec.isReady l v = false → rec.isBroken l v = true →
           ans = some (versWord 0xFFF true false v))
         ∧ ((key, l, step) ∉ rec.decided → rec.isReady l v = false → rec.isBroken l v = false → ans = none)))
     ∧ (∀ b broken lean, b < 4096 → (versWord b broken lean v).toNat / 2 ^ 20 = b
       ∧ (versWord b broken lean v).getLsbD 18 = broken ∧ (versWord b broken lean v).getLsbD 17 = lean
       ∧ (versWord b broken lean v).getLsbD 16 = true ∧ (versWord b broken lean v).toNat % 2 ^ 16 = v.toNat))

/-- R119, R163 to R167, R174 to R181: staging, fetching, the swap front, the deadline and the toll.
Where these rules leave a point open it follows the model (log entries 48 to 52, 179, 180 and 182). -/
def Obligations.SwapsAndStaging : Prop :=
  Staging ∧ FrontFixing ∧ SwapCompletion ∧ LayerDeadlines ∧ TollResults ∧ TollWords

/-! ## Generation -/

/-- R190, R191, R207, R348: a submission that passes every row of R190 takes the lowest free entry as QUEUED, at its own priority;
another is refused with its status, raises REFUSED and gives one of its two reservations back. -/
def Submissions : Prop :=
  ∀ (ring : BitVec 15) (s : State),
    (∀ m, s.mod.takeEntry ringType.waybill 2 ring.toNat = (none, m) → Yields (.waybillSubmit ring) s m)
    ∧ (∀ (index : Nat) (bs : List Byte) (m : Module),
      s.mod.takeEntry ringType.waybill 2 ring.toNat = (some (index, bs), m) →
      (let t := s.mod.ringOwner ring.toNat
       let comp := m.pairOf ring.toNat
       let w := newWaybill t ring.toNat comp index bs
       (∀ m1, (m.reserve comp 2).submitFault t w = (none, m1) →
         Yields (.waybillSubmit ring) s (m1.acceptWaybill w)
         ∧ Completes (.waybillSubmit ring) s (fun m' => ∃ w', m'.waybill m1.freeId = some w' ∧ w'.ten = t ∧ w'.state = wst.queued
             ∧ w'.effective = w.priority ∧ w'.urgent = false ∧ w'.step = none ∧ w'.comp = comp ∧ w'.index = index
             ∧ w'.e = (if w.kvKept then w.recorded - 1 else 0)))
       ∧ (∀ status m1, (m.reserve comp 2).submitFault t w = (some status, m1) →
         Yields (.waybillSubmit ring) s
           (((m1.raise Kind.WBL_REFUSED t.val index).postWaybill comp
             (waybillRecord 0xFFFF status wst.free w.length index cause.none)).unreserve comp 1)
         ∧ Completes (.waybillSubmit ring) s (fun m' => m'.waybills.map (·.1) = s.mod.waybills.map (·.1)
             ∧ (m'.reg .ERR_STATUS Block.wbl.group).getLsbD Kind.WBL_REFUSED.bit = true))))

/-- R189, R192, R205, R206: an action on a waybill in a step waits for the end of the step, where an abort that waits stays; outside a
step it acts at once: a pause writes the summary and frees the entry; an abort ends the waybill, whose entry is freed, or waits for
room of its ring. -/
def WaybillActions : Prop :=
  ∀ (f : Func) (ten : Ten) (id : BitVec 14) (s : State),
    (∀ w : Waybill, s.mod.mayAct f ten = true → s.mod.waybill id.toNat = some w →
      (w.ten ≠ ten →
        (let m := (s.mod.violation ten.val .wbl).raise Kind.WBL_ISOLATION ten.val id.toNat
         Yields (.pauseKeep f ten id) s m ∧ Yields (.pauseDrop f ten id) s m ∧ Yields (.abort f ten id) s m))
      ∧ (w.ten = ten → w.live = true → w.step.isSome = true → w.action ≠ some 3 →
        Yields (.pauseKeep f ten id) s (s.mod.setWaybill id.toNat { w with action := some 1 })
        ∧ Yields (.pauseDrop f ten id) s (s.mod.setWaybill id.toNat { w with action := some 2 })
        ∧ Yields (.abort f ten id) s (s.mod.setWaybill id.toNat { w with action := some 3 }))
      ∧ (w.ten = ten → (w.live = false ∨ (w.step.isSome = true ∧ w.action = some 3)) →
        NoEffect (.pauseKeep f ten id) s ∧ NoEffect (.pauseDrop f ten id) s ∧ NoEffect (.abort f ten id) s)
      ∧ (w.ten = ten → w.live = true → w.step = none →
        (∀ m, s.mod.checkPairs id.toNat w = (false, m) →
          Yields (.pauseKeep f ten id) s m ∧ Yields (.pauseDrop f ten id) s m ∧ Yields (.abort f ten id) s m)
        ∧ (∀ m, s.mod.checkPairs id.toNat w = (true, m) →
          Yields (.pauseKeep f ten id) s (m.pauseWaybill id.toNat w true cause.hostPause)
          ∧ Yields (.pauseDrop f ten id) s (m.pauseWaybill id.toNat w false cause.hostPause)
          ∧ Yields (.abort f ten id) s (m.endOutside id.toNat w cause.abort st.aborted))
        ∧ (imgPairs w.image = true →
          (let gone := fun (m' : Module) => m'.waybill id.toNat = none
            ∨ ∃ w', m'.waybill id.toNat = some w' ∧ w'.ending.isSome = true ∧ w'.live = false
           Completes (.pauseKeep f ten id) s gone ∧ Completes (.pauseDrop f ten id) s gone ∧ Completes (.abort f ten id) s gone))))
    ∧ (s.mod.mayAct f ten = true → s.mod.waybill id.toNat = none →
      NoEffect (.pauseKeep f ten id) s ∧ NoEffect (.pauseDrop f ten id) s ∧ NoEffect (.abort f ten id) s)
    ∧ (∀ u : Ten, f ≠ 0 → s.mod.tenOf f = some u → u ≠ ten →
      (let m := (s.mod.violation u.val .hif).raise Kind.HIF_ISOLATION u.val ten.val
       Yields (.pauseKeep f ten id) s m ∧ Yields (.pauseDrop f ten id) s m ∧ Yields (.abort f ten id) s m))

/-- R205, R219: an ending that waited for room of its ring is recorded and completed, and its entry is free. -/
def WaitedEndings : Prop :=
  ∀ (id : BitVec 14) (s : State) (w : Waybill) (status : Nat), s.mod.waybill id.toNat = some w →
    w.ending = some status →
    (let c := w.bits 35 1 0 8
     (s.mod.caravanOf w.ten w.caravan = none →
       Yields (.seqendDeferredWrite id) s ((s.mod.unpin id.toNat w).completeWaybill id.toNat w status wst.error c)
       ∧ Completes (.seqendDeferredWrite id) s (fun m => m.waybill id.toNat = none))
     ∧ (∀ k x, s.mod.caravanOf w.ten w.caravan = some k → s.mod.caravan k = some x →
       (s.mod.cvnRoom k x < 2 → Yields (.seqendDeferredWrite id) s (s.mod.starve k))
       ∧ (2 ≤ s.mod.cvnRoom k x →
         Yields (.seqendDeferredWrite id) s
           (((s.mod.writeSeqEnd id.toNat w c w.endVersion).cvnPublish w.ten k).completeWaybill id.toNat w status wst.error c)
         ∧ Completes (.seqendDeferredWrite id) s (fun m => m.waybill id.toNat = none))))

/-- R188: the peek registers show the entry selected. -/
def WaybillPeek : Prop :=
  ∀ (value : Word) (s : State), ∃ s', exec (.wblPeekSel value) s = .next s'
    ∧ OnlyRegs s s' ((.WBL_PEEK_SEL, 0, 0) :: (List.range 8).map (fun i => (.WBL_PEEK_DATA, i, 0)))
    ∧ s'.mod.fld Fld.WBL_PEEK_SEL_WAYBILL = value.toNat % 16384
    ∧ ∀ i, i < 8 → (s'.mod.reg .WBL_PEEK_DATA i).toNat =
        match s.mod.waybill (value.toNat % 16384) with
        | some w => fieldAt w.image (8 * i) 8
        | none => 0

/-- R189 to R193, R205 to R207: submissions, actions, endings and the peek registers.
Where these rules leave a point open it follows the model (log entries 57, 58, 62 and 63). -/
def Obligations.Waybills : Prop := Submissions ∧ WaybillActions ∧ WaitedEndings ∧ WaybillPeek

/-- R195 to R199, R208: the engine builds the next step of the running route while a slot of its ring is free and building is not
held: the chosen entries and the releases that are due become the slot of the step. A follower tries its waiting slot again. -/
def StepBuilding : Prop :=
  ∀ (ten : Ten) (s : State),
    (s.mod.servedRoute ten = none → NoEffect (.stepBuild ten) s)
    ∧ (∀ n r, s.mod.servedRoute ten = some (n, r) → s.mod.route n = some r →
      (s.mod.flag Fld.WBL_CTL_SCHED_HOLD = true → NoEffect (.stepBuild ten) s)
      ∧ (s.mod.flag Fld.WBL_CTL_SCHED_HOLD = false → r.gen.leader = false →
        Yields (.stepBuild ten) s (s.mod.followSlot ten n))
      ∧ (s.mod.flag Fld.WBL_CTL_SCHED_HOLD = false → r.gen.leader = true →
        (r.gen.depth ≤ r.slots.length → NoEffect (.stepBuild ten) s)
        ∧ (r.slots.length < r.gen.depth →
          Yields (.stepBuild ten) s ((s.mod.buildStep ten n r).mirrorFill ten)
          ∧ (∀ ch m1, ((s.mod.sweepWaybills ten).recomputeAll ten).choose ten r.nextBuild = (ch, m1) →
            (ch.ids = [] → Yields (.stepBuild ten) s (m1.mirrorFill ten))
            ∧ (ch.ids ≠ [] →
              (let due := (m1.notices.filter (fun x => x.1 == ten)).take (1023 - ch.entries.length)
               let es := ch.entries ++ due.map (fun x => releaseEntry x.2.1 x.2.2.1 x.2.2.2 ch.rows ch.pages)
               (∀ e m2, m1.writeSlot ten.val r.gen r.nextBuild (slotBytes r.nextBuild es) = (.error e, m2) →
                 Yields (.stepBuild ten) s (((m2.unchoose ch.ids).failRoute n e).mirrorFill ten))
               ∧ (∀ m2, m1.writeSlot ten.val r.gen r.nextBuild (slotBytes r.nextBuild es) = (.ok (), m2) →
                 Completes (.stepBuild ten) s (fun m => m.reg .WBL_TEN_STEP ten.val = r.nextBuild
                   ∧ ∃ r', m.route n = some r' ∧ r'.slots = r.slots ++ [⟨r.nextBuild, es, true, false, none⟩]
                     ∧ r'.nextBuild = r.nextBuild + 1 ∧ r'.state = .running))))))))

/-- R198, R208, R308: a follower takes a slot once its packets have been delivered, only in order and while its ring of slots has
room; a write that faults stops the route, and until then the packets wait. -/
def SlotReceiving : Prop :=
  ∀ (ten : Ten) (slot : List Byte) (s : State),
    ((s.mod.slotPackets ten slot = none ∨ s.mod.servedRoute ten = none) → NoEffect (.slotReceive ten slot) s)
    ∧ (∀ es n r, s.mod.slotPackets ten slot = some es → s.mod.servedRoute ten = some (n, r) → s.mod.route n = some r →
      (let step := BitVec.ofNat 64 (fieldAt slot 0 8)
       let m := { s.mod with inbox := es.foldl (fun (b : List (Ten × Packet)) e => b.erase e) s.mod.inbox }
       ((r.gen.leader = true ∨ step < r.nextBuild) → Yields (.slotReceive ten slot) s m)
       ∧ (r.gen.leader = false → r.nextBuild < step → NoEffect (.slotReceive ten slot) s)
       ∧ (r.gen.leader = false → step = r.nextBuild → r.gen.depth ≤ r.slots.length → NoEffect (.slotReceive ten slot) s)
       ∧ (r.gen.leader = false → step = r.nextBuild → r.slots.length < r.gen.depth →
         (∀ e m1, m.writeSlot ten.val r.gen step slot = (.error e, m1) → Yields (.slotReceive ten slot) s (m1.failRoute n e))
         ∧ (∀ m1, m.writeSlot ten.val r.gen step slot = (.ok (), m1) →
           Yields (.slotReceive ten slot) s
             (((m1.setRoute n (fun r => { r with
                 slots := r.slots ++ [⟨step, slotEntries slot, false, false, none⟩]
                 nextBuild := step + 1 })).setReg .WBL_TEN_STEP ten.val 0 step).followSlot ten n)
           ∧ Completes (.slotReceive ten slot) s (fun m' => m'.reg .WBL_TEN_STEP ten.val = step
             ∧ ∃ r', m'.route n = some r' ∧ r'.nextBuild = step + 1
               ∧ r'.slots.map (fun x => (x.step, x.entries)) = (r.slots.map (fun x => (x.step, x.entries))) ++ [(step, slotEntries slot)])))))

/-- R167, R200, R201: the oldest step of a route is processed once every cluster has committed it, and its slot is then free; in a
group the members' LEAN indications are combined first. -/
def StepProcessing : Prop :=
  ∀ (ten : Ten) (s : State),
    (let find := s.mod.routes.find? (fun p => p.2.ten == ten && !p.2.learning && s.mod.slotCommitted p.1 p.2)
     (find = none → NoEffect (.stepProcess ten) s)
     ∧ (∀ n r sl rest, find = some (n, r) → s.mod.route n = some r → r.slots = sl :: rest →
       ((r.gen.group = 0 ∨ sl.lean.isSome = true) →
         Yields (.stepProcess ten) s (s.mod.processStep ten n r sl)
         ∧ Completes (.stepProcess ten) s (fun m => ∃ r', m.route n = some r'
             ∧ r'.slots = r.slots.filter (fun x => x.step != sl.step) ∧ r'.nextBuild = r.nextBuild))
       ∧ (r.gen.group ≠ 0 → sl.lean = none → sl.sent = true → NoEffect (.stepProcess ten) s)
       ∧ (r.gen.group ≠ 0 → sl.lean = none → sl.sent = false →
         (let own : Word64 := if ∃ w, s.mod.wrec ten.val = some w ∧ sl.step ∈ w.leanSteps then 1 else 0
          Yields (.stepProcess ten) s
            ((s.mod.startGroup ten r.gen.group 3 (sl.step.toNat % 2 ^ 32) (sl.step.toNat / 2 ^ 32 % 65536) own).setRoute n
              (fun r => { r with slots := r.slots.map (fun x => if x.step == sl.step then { x with sent := true } else x) }))))))

/-- R194, R201: an entry that samples nothing moves its waybill on: E past the positions fed, and the state PREFILL; with SCORE the
prompt positions in between get their records first. A sampling result that fails its check ends the waybill. -/
def EntryProcessing : Prop :=
  ∀ (m : Module) (id : Nat) (lean : Bool) (v : BitVec 16) (e : RagEntry) (w : Waybill),
    (rag.sample e = false → rag.score e = false → ∀ r,
      (let x := (m.processEntry id lean v e r w).1
       x.ends = none ∧ x.w.e = rag.pos e + rag.count e ∧ x.w.ten = w.ten
         ∧ (w.image.length = 64 → x.w.state = wst.prefill ∧ x.w.length = w.length
           ∧ x.w.recorded = max w.recorded (min w.length (rag.pos e + rag.count e)) % 2 ^ 19
           ∧ (w.e = 0 → rag.pos e = 0 → x.w.startVersion = v))
         ∧ (m.processEntry id lean v e r w).2 = m))
    ∧ (rag.sample e = true →
      m.processEntry id lean v e (.ok none) w = (⟨w, some (wst.error, cause.result, st.check)⟩, m.raise Kind.WBL_RESULT w.ten.val id)
      ∧ ∀ f, m.processEntry id lean v e (.error f) w = (Work.failed ⟨w, none⟩ f, m))

/-- R167, R194 to R201, R208: the building, the receiving and the processing of steps.
Where these rules leave a point open it follows the model (log entries 59, 60 and 62 to 66). -/
def Obligations.GenerationSteps : Prop := StepBuilding ∧ SlotReceiving ∧ StepProcessing ∧ EntryProcessing

/-- R220: a token record holds token, flags, waybill, version, position and log-probability. -/
def TokenRecords : Prop :=
  ∀ (id token flags : Nat) (version : BitVec 16) (pos lp : Nat), flags < 4096 → id < 65536 → pos < 2 ^ 32 → lp < 2 ^ 32 →
    (let b := tokenRecord id token flags version pos lp
     b.length = 16 ∧ imgBits b 0 4 0 20 = token % 2 ^ 20 ∧ imgBits b 0 4 20 12 = flags ∧ fieldAt b 4 2 = id
     ∧ fieldAt b 6 2 = version.toNat ∧ fieldAt b 8 4 = pos ∧ fieldAt b 12 4 = lp)

/-! ## Caravans and learning -/

/-- R214: the enabling of a caravan ring: the settings are read and its pointers, counts and pins clear; a bad size, a misaligned base
and an index that no ring holds leave it disabled and raise CONFIG. -/
def RingEnabling : Prop :=
  ∀ (k : BitVec 10) (s : State) (f : Func),
    (let t := s.mod.fld Fld.CVN_RING_CFG_TENANCY k.toNat
     let base := s.mod.fld Fld.CVN_RING_BASE_VA k.toNat
     let size := s.mod.fld Fld.CVN_RING_CFG_SIZE_LOG2 k.toNat
     let on := s.mod.flag Fld.CVN_RING_CFG_ENABLE k.toNat
     (s.mod.allocated k.toNat = true → s.mod.mayAct f (Fin.ofNat 101 t) = true →
       (on = true → NoEffect (.caravanRingEnable f k) s)
       ∧ (on = false → 16 ≤ size → size ≤ 30 → base % 2 ^ size = 0 → t < 101 →
         ∃ s', exec (.caravanRingEnable f k) s = .next s'
           ∧ s'.mod.flag Fld.CVN_RING_CFG_ENABLE k.toNat = true
           ∧ s'.mod.reg .CVN_RING_PTRS k.toNat = 0 ∧ s'.mod.reg .CVN_RING_STATE k.toNat = 0
           ∧ s'.mod.caravan k.toNat = some ⟨base, size, s.mod.flag Fld.CVN_RING_CFG_LEARN_EN k.toNat,
               s.mod.flag Fld.CVN_RING_CFG_REWARD_MODE k.toNat, 0, [], [], false⟩
           ∧ RegsKept s.mod s'.mod [(.CVN_RING_CFG, k.toNat, 0), (.CVN_RING_PTRS, k.toNat, 0), (.CVN_RING_STATE, k.toNat, 0),
               (.CVN_TEN_STATUS, t, 0)]
           ∧ s'.mod.dram = s.mod.dram ∧ s'.mod.tiles = s.mod.tiles)
       ∧ (on = false → (size < 16 ∨ 30 < size ∨ base % 2 ^ size ≠ 0) →
         ∃ s', exec (.caravanRingEnable f k) s = .next s' ∧ Recorded s s' Kind.CVN_CONFIG []))
     ∧ (s.mod.allocated k.toNat = false → f = 0 → on = false →
       ∃ s', exec (.caravanRingEnable f k) s = .next s' ∧ Recorded s s' Kind.CVN_CONFIG []))

/-- R217: RELEASE written by the host, on an enabled ring without LEARN_EN and within what has been written; any other write raises
CONFIG. -/
def RingConsuming : Prop :=
  ∀ (k : BitVec 10) (s : State) (f : Func) (slot : Word), s.mod.allocated k.toNat = true →
    s.mod.mayAct f (Fin.ofNat 101 (s.mod.fld Fld.CVN_RING_CFG_TENANCY k.toNat)) = true →
    (s.mod.caravan k.toNat = none → ∃ s', exec (.caravanRingConsume f k slot) s = .next s' ∧ Recorded s s' Kind.CVN_CONFIG [])
    ∧ (∀ c : Caravan, s.mod.caravan k.toNat = some c →
      (let rel := s.mod.released' k.toNat
       ((c.learn = true ∨ s.mod.flag Fld.CVN_RING_CFG_ENABLE k.toNat = false ∨ diff32 c.write rel < diff32 slot.toNat rel) →
         ∃ s', exec (.caravanRingConsume f k slot) s = .next s' ∧ Recorded s s' Kind.CVN_CONFIG [])
       ∧ (c.learn = false → s.mod.flag Fld.CVN_RING_CFG_ENABLE k.toNat = true → diff32 slot.toNat rel ≤ diff32 c.write rel →
         Completes (.caravanRingConsume f k slot) s (fun m => m.released' k.toNat = slot.toNat
           ∧ (∃ c', m.caravan k.toNat = some c' ∧ c'.write = c.write ∧ c'.pins = c.pins
             ∧ c'.seqs = c.seqs.filter (fun q => !decide (diff32 q.endSlot rel < diff32 slot.toNat rel)))
           ∧ m.tiles = s.mod.tiles ∧ m.waybills.map (·.1) = s.mod.waybills.map (·.1)))))

/-- R218: a stall that has lasted is reported, while something still waits for room on an enabled ring and the limit is not 0. -/
def RingStalls : Prop :=
  ∀ (k : BitVec 10) (s : State) (c : Caravan), s.mod.caravan k.toNat = some c →
    (let stalled := s.mod.fld Fld.CVN_STALL_LIMIT_LIMIT ≠ 0 ∧ c.starved = true
        ∧ s.mod.flag Fld.CVN_RING_CFG_ENABLE k.toNat = true
     (stalled → ∃ s', exec (.caravanStallExpire k) s = .next s' ∧ Recorded s s' Kind.CVN_STALL [])
     ∧ (¬ stalled → NoEffect (.caravanStallExpire k) s))

/-- R223, R224: a reward for a pending sequence is written into its record, which is then ready; every other entry is dropped, and one
that names another tenancy's ring is refused. -/
def Rewards : Prop :=
  ∀ (ring : BitVec 15) (s : State),
    (∀ m, s.mod.takeEntry ringType.reward 0 ring.toNat = (none, m) → Yields (.rewardEntry ring) s m)
    ∧ (∀ (index : Nat) (b : List Byte) (m : Module), s.mod.takeEntry ringType.reward 0 ring.toNat = (some (index, b), m) →
      (let u := s.mod.ringOwner ring.toNat
       let g := imgBits b 0 2 0 15
       let slot := fieldAt b 4 4
       (m.heldCaravan u g = none →
         Yields (.rewardEntry ring) s ((m.violation u.val .cvn).raise Kind.CVN_ISOLATION u.val g))
       ∧ (∀ j, m.heldCaravan u g = some j → (m.caravanOf u g).bind m.caravan = none →
         Yields (.rewardEntry ring) s (m.rejectReward u j))
       ∧ (∀ j c, m.heldCaravan u g = some j → (m.caravanOf u g).bind m.caravan = some c →
         (let pending := fun (q : CSeq) => q.status = 0 ∧ q.waybill = imgBits b 2 2 0 14 ∧ imgBits b 0 2 15 1 = 0
            ∧ imgBits b 2 2 14 2 = 0 ∧ fieldAt b 12 4 = 0
          ((∀ q, c.seqs.find? (fun q => q.endSlot == slot) = some q → ¬ pending q) →
            Yields (.rewardEntry ring) s (m.rejectReward u j)
            ∧ Completes (.rewardEntry ring) s (fun m' => m'.caravans = m.caravans
                ∧ (m'.reg .ERR_STATUS Block.cvn.group).getLsbD Kind.CVN_REWARD_REJECT.bit = true))
          ∧ (∀ q, c.seqs.find? (fun q => q.endSlot == slot) = some q → pending q →
            Yields (.rewardEntry ring) s (m.giveReward u j c slot ((b.drop 8).take 4))
            ∧ (let va := c.base + 16 * ((slot + 1) % c.slots)
               ∀ m1 m2, m.writeVA .cvn u.val (va + 8) ((b.drop 8).take 4) = (.ok (), m1) →
               m1.writeVA .cvn u.val (va + 15) [1] = (.ok (), m2) → m.caravan j = some c →
               Completes (.rewardEntry ring) s (fun m' => ∃ c', m'.caravan j = some c'
                 ∧ c'.seqs = c.seqs.map (fun q => if q.endSlot == slot then { q with status := 1 } else q)
                 ∧ c'.write = c.write ∧ c'.pins = c.pins)))))))

/-- R214, R217, R218, R220, R223, R224: the token record, and the rows of the caravan rings and of rewards.
Where these rules leave a point open it follows the model (log entries 72, 119 and 185). -/
def Obligations.Caravans : Prop := TokenRecords ∧ RingEnabling ∧ RingConsuming ∧ RingStalls ∧ Rewards

/-- R226 to R229: a batch is built where building is not held, a slot is free, and enough rows are ready or the wait has expired; the
sequences chosen are gathered, the batch is written into its slot and its sequences are taken. -/
def BatchBuilding : Prop :=
  ∀ (ten : Ten) (s : State) (n : Nat) (r : Route) (cfg : LearnCfg), s.mod.learner ten = some (n, r) → s.mod.route n = some r →
    r.learn = some cfg →
    (let x := s.mod.takeBatch ten r.lastRing
     let ready := s.mod.fld Fld.LRN_TEN_MIN_MIN_TOKENS ten.val ≤ s.mod.readyRows ten ∨ ten ∈ s.mod.batchDue
     ((s.mod.flag Fld.LRN_CTL_BUILD_HOLD = true ∨ cfg.depth ≤ r.batches.length ∨ ¬ ready) → NoEffect (.batchBuild ten) s)
     ∧ (s.mod.flag Fld.LRN_CTL_BUILD_HOLD = false → r.batches.length < cfg.depth → ready →
       (let m0 := x.drops.foldl (fun m d =>
          (((m.cvnRelease d.1 d.2).cvnPublish ten d.1).addFld Fld.LRN_TEN_DROPS_LAG_DROPS ten.val 0).raise
            Kind.LRN_LAG_DROP ten.val d.1) s.mod
        ∀ xs m, m0.gatherAll ten x.picks = (xs, m) →
        (xs = [] → m.anyReady ten = true → Yields (.batchBuild ten) s m)
        ∧ (xs = [] → m.anyReady ten = false →
          Yields (.batchBuild ten) s { m with batchDue := m.batchDue.filter (fun u => u != ten) })
        ∧ (xs ≠ [] →
          Yields (.batchBuild ten) s (m.writeBatch ten n r cfg xs)
          ∧ (∀ m1, m.writeParts ten.val (m.batchParts ten r cfg xs) = (.ok (), m1) →
            Completes (.batchBuild ten) s (fun m' =>
              (∃ r', m'.route n = some r' ∧ r'.nextBuild = r.nextBuild + 1 ∧ r'.batches = r.batches ++
                [⟨r.nextBuild, xs.length, gatheredRows xs, m.batchMicro ten r cfg (gatheredRows xs), false⟩])
              ∧ m'.reg .LRN_TEN_STEP ten.val = r.nextBuild ∧ ten ∉ m'.batchDue))))))

/-- R226: the wait of a tenancy expires: while a sequence is ready a batch is due, and is built if nothing else holds it back. -/
def BatchWaits : Prop :=
  ∀ (ten : Ten) (s : State),
    (s.mod.anyReady ten = false → NoEffect (.batchWaitExpire ten) s)
    ∧ (s.mod.anyReady ten = true →
      (let due := if s.mod.batchDue.contains ten then s.mod.batchDue else s.mod.batchDue ++ [ten]
       Yields (.batchWaitExpire ten) s ({ s.mod with batchDue := due }.buildBatch ten)
       ∧ ((s.mod.learner ten = none ∨ s.mod.flag Fld.LRN_CTL_BUILD_HOLD = true) →
         Completes (.batchWaitExpire ten) s (fun m => m.batchDue = due ∧ m.routes = s.mod.routes ∧ m.dram = s.mod.dram))))

/-- R234, R235: the hold of a learning step ends once every cluster has committed the step before and its batch is built: the gradient
areas with ZERO_EN are zeroed, and the step may be released. -/
def LearnHolds : Prop :=
  ∀ (ten : Ten) (s : State) (n : Nat) (r : Route) (cfg : LearnCfg) (b : Batch) (rest : List Batch),
    s.mod.learner ten = some (n, r) → s.mod.route n = some r → r.learn = some cfg → r.batches = b :: rest →
    ((b.zeroed = true ∨ s.mod.routePast n b.step = false) → NoEffect (.learnStepHoldRelease ten) s)
    ∧ (b.zeroed = false → s.mod.routePast n b.step = true →
      (let m := cfg.grads.foldl (fun m a => m.zeroArea ten.val a) s.mod
       (∃ idle : Nat, Yields (.learnStepHoldRelease ten) s
         ((m.drawn.setFld Fld.LRN_TEN_IDLE_US ten.val 0 (m.fld Fld.LRN_TEN_IDLE_US ten.val + idle)).setRoute n (fun r =>
           { r with batches := r.batches.map (fun x => if x.step == b.step then { x with zeroed := true } else x) })))
       ∧ Completes (.learnStepHoldRelease ten) s (fun m' =>
         (∃ r', m'.route n = some r' ∧ r'.state = r.state
           ∧ r'.batches = r.batches.map (fun x => if x.step == b.step then { x with zeroed := true } else x))
         ∧ m'.dram = m.dram ∧ m'.hold = m.hold)))

/-- R231 to R233, R238: the schedule dispenses its next operation, and then the end, to a span that has none queued; CLUSTERS and RANK
are those of the clusters that run the step. -/
def Dispensing : Prop :=
  ∀ (t : TileId) (s : State) (n : Nat) (r : Route) (cfg : LearnCfg) (sg : Stage) (b : Batch), r.learn = some cfg →
    s.mod.stageOf t.cl.val = some (n, r, sg) →
    r.batches.find? (fun b => b.step == (s.mod.cl t.cl.val).step) = some b → scheduledStage r sg = true →
    s.mod.released t.cl.val = true →
    ((∃ k ∈ (s.mod.tile (s.mod.origin t)).recv, k.port = 4 ∧ k.vc = 13) → NoEffect (.schedOpDispense t) s)
    ∧ ((∀ k ∈ (s.mod.tile (s.mod.origin t)).recv, ¬ (k.port = 4 ∧ k.vc = 13)) →
      (let cl := s.mod.cl t.cl.val
       let ops := r.stageOps cfg b cl.stage
       let i := Map.get 0 cl.sched (s.mod.spanIdx t)
       let op := ops.getD i 0xFFFFFFFF
       let ls := ((r.divisions.find? (fun d => d.stage == cl.stage && d.step == cl.step)).map
         (fun d => d.shares.map (·.1))).getD (s.mod.runners n cl.stage cl.step)
       let rank := (ls.takeWhile (fun l => l != s.mod.fld Fld.FAB_CL_ASSIGN_LOGICAL t.cl.val)).length
       let packet := schedPacket op cl.step ls.length rank (b.rowsOf op).1 (b.rowsOf op).2
       (ops.length < i → NoEffect (.schedOpDispense t) s)
       ∧ (i ≤ ops.length →
         Yields (.schedOpDispense t) s
           ((s.mod.setCl t.cl.val { cl with sched := Map.set 0 cl.sched (s.mod.spanIdx t) (i + 1) }).deliverAll t 13 packet)
         ∧ (s.mod.twinTile t = none → Completes (.schedOpDispense t) s (fun m =>
           Map.get 0 (m.cl t.cl.val).sched (s.mod.spanIdx t) = i + 1
           ∧ ∀ u, (m.tile u).recv = if u ∈ s.mod.spanTiles t then (s.mod.tile u).recv ++ [⟨4, 13, u, .data, packet⟩]
               else (s.mod.tile u).recv)))))

/-- R226 to R229, R231 to R235, R238: batches, the hold of a learning step, and the schedule.
Where these rules leave a point open it follows the model (log entries 68 to 71). -/
def Obligations.Learning : Prop := BatchBuilding ∧ BatchWaits ∧ LearnHolds ∧ Dispensing

/-! ## Memory -/

/-- R4, R25, R247: in every state, a command that completes keeps the canonical form of the two memories. -/
def Obligations.StepKeepsMemoryForm : Prop :=
  ∀ (c : Instr) (rest : List Instr) (m : Module) (s' : State), m.dram.wf = true → m.hold.wf = true →
    step ⟨m, c :: rest⟩ = .next s' → s'.mod.dram.wf = true ∧ s'.mod.hold.wf = true

/-- R247 to R249, R253, R254, R257, R260: the patrols correct what they find and count it; a fifth map-out of a stack is refused, and
one that ends leaves the channel MAPPED_OUT; the Hold's selectors show an entry and a bank; the skew window ends; a migration takes
a fresh key, and after its final pass its pages lie at their targets.
Where these rules leave a point open it follows the model (log entries 74 to 76 and 82). -/
def Obligations.MemoryCommands : Prop :=
  ∀ (s : State),
    ((s.mod.flag Fld.MEM_CTL_PATROL_EN = false ∨ s.mod.dramEcc = []) → NoEffect .memPatrolExpire s)
    ∧ (∀ u, s.mod.flag Fld.MEM_CTL_PATROL_EN = true → s.mod.dramEcc = [(u, .corrected)] →
      s.mod.reg .ERR_INJECT_INV Block.mem.group = 0 →
      Yields .memPatrolExpire s (({ s.mod with dramEcc := [] }.addFld Fld.MEM_CH_STATUS_CE (s.mod.channelOf (u * 64)) 0).raise
        Kind.MEM_CE 0 (s.mod.channelOf (u * 64))))
    ∧ (∀ ch : Fin 384,
      (s.mod.fld Fld.MEM_CH_STATUS_STATE ch.val ≠ 0 → NoEffect (.mapOut ch) s)
      ∧ (s.mod.fld Fld.MEM_CH_STATUS_STATE ch.val = 0 → 4 ≤ s.mod.mappedOut (ch.val / 32) →
        Yields (.mapOut ch) s (s.mod.raise Kind.MEM_MAPOUT_LIMIT 0 ch.val))
      ∧ (s.mod.fld Fld.MEM_CH_STATUS_STATE ch.val = 0 → s.mod.mappedOut (ch.val / 32) < 4 →
        (let (short, m) := (s.mod.setFld Fld.MEM_CH_STATUS_STATE ch.val 0 1).formPatches ch.val
         Yields (.mapOut ch) s (if short = 0 then m
           else ({ m with patchDue := Map.set 0 m.patchDue (patchKey ch.val) short }).raise Kind.MEM_MAPOUT_WAIT 0 ch.val)
         ∧ Completes (.mapOut ch) s (fun m' => m'.fld Fld.MEM_CH_STATUS_STATE ch.val = 1
             ∧ Map.get? m'.mapOrder ch.val = some (s.mod.mappedOut (ch.val / 32) + 1)
             ∧ (short ≠ 0 → Map.get 0 m'.patchDue (patchKey ch.val) = short)
             ∧ m'.dram = s.mod.dram ∧ m'.tags = s.mod.tags)))
      ∧ (s.mod.fld Fld.MEM_CH_STATUS_STATE ch.val = 1 → Map.get 0 s.mod.patchDue (patchKey ch.val) = 0 →
        Completes (.mapOutComplete ch) s (fun m => m.fld Fld.MEM_CH_STATUS_STATE ch.val = 2
          ∧ (m.reg .ERR_STATUS Block.mem.group).getLsbD Kind.MEM_MAPOUT.bit = true ∧ m.dram = s.mod.dram)
        ∧ ((∀ p ∈ s.mod.dramEcc, s.mod.channelOf (p.1 * 64) ≠ ch.val) →
          (∀ p ∈ s.mod.poison, s.mod.channelOf (p.1 * 64) ≠ ch.val) →
          Yields (.mapOutComplete ch) s ((s.mod.setFld Fld.MEM_CH_STATUS_STATE ch.val 0 2).raise Kind.MEM_MAPOUT 0 ch.val)))
      ∧ ((s.mod.fld Fld.MEM_CH_STATUS_STATE ch.val ≠ 1 ∨ Map.get 0 s.mod.patchDue (patchKey ch.val) ≠ 0) →
        NoEffect (.mapOutComplete ch) s))
    ∧ (s.mod.fld Fld.HLD_SCRUB_PERIOD_SECONDS = 0 → NoEffect .holdPatrolExpire s)
    ∧ (s.mod.fld Fld.HLD_SCRUB_PERIOD_SECONDS ≠ 0 → s.mod.holdEcc = [] →
      (∀ p, (s.mod.bank p).state = 2 ∨ ((s.mod.bank p).ce ≤ s.mod.fld Fld.HLD_RETIRE_CE_LIMIT ∧ (s.mod.bank p).ue < 2)) →
      ∃ s', exec .holdPatrolExpire s = .next s' ∧ (∀ p, s'.mod.bank p = { s.mod.bank p with ce := 0 })
        ∧ s'.mod.regs = s.mod.regs ∧ s'.mod.hold = s.mod.hold ∧ s'.mod.holdMap = s.mod.holdMap)
    ∧ (∀ v : Word, ∃ s', exec (.hldMapSel v) s = .next s'
      ∧ OnlyRegs s s' [(.HLD_MAP_SEL, 0, 0), (.HLD_MAP_DATA, 0, 0)]
      ∧ s'.mod.fld Fld.HLD_MAP_SEL_ENTRY = v.toNat % 65536
      ∧ (s'.mod.reg .HLD_MAP_DATA).toNat = (s.mod.mapEntry (v.toNat % 65536)).toNat)
    ∧ (∀ v : Word, ∃ s', exec (.hldBankSel v) s = .next s'
      ∧ OnlyRegs s s' [(.HLD_BANK_SEL, 0, 0), (.HLD_BANK_INFO, 0, 0)]
      ∧ s'.mod.fld Fld.HLD_BANK_SEL_BANK = v.toNat % 32768
      ∧ ((s.mod.bank (v.toNat % 32768)).state < 4 → (s.mod.bank (v.toNat % 32768)).ce < 16384 →
          s'.mod.fld Fld.HLD_BANK_INFO_STATE = (s.mod.bank (v.toNat % 32768)).state
          ∧ s'.mod.fld Fld.HLD_BANK_INFO_CE = (s.mod.bank (v.toNat % 32768)).ce
          ∧ s'.mod.fld Fld.HLD_BANK_INFO_ENTRY = (s.mod.bank (v.toNat % 32768)).entry.toNat))
    ∧ ((s.mod.fld Fld.MEM_SKEW_WINDOW_US = 0 ∨ s.mod.skew = []) → NoEffect .skewWindowEnd s)
    ∧ (∀ x, s.mod.fld Fld.MEM_SKEW_WINDOW_US ≠ 0 → s.mod.skew = [x] →
      (let isOver := (s.mod.skewOf x).any (fun k => decide (s.mod.fld Fld.MEM_SKEW_LIMIT_LIMIT < k))
       let m := if isOver then s.mod.raise Kind.MEM_SKEW x.ten.val x.route else s.mod
       Yields .skewWindowEnd s { m with skew := [{ x with
         counts := []
         wanted := x.wanted || x.deferred || (isOver && m.mayMigrate x)
         deferred := false }] }))

/-- R254: the start of a migration: a requested one takes an empty key slot with a fresh key, and targets for its pages; without key,
slot, targets or room it is deferred to the next window. -/
def MigrationStarts : Prop :=
  ∀ (route : Fin 256) (buffer : BitVec 10) (s : State),
    (let c := Instr.migrationStart route buffer
     let later := s.mod.requested route.val buffer.toNat true
     ((∀ x ∈ s.mod.skew, ¬ (x.route = route.val ∧ x.buffer = buffer.toNat ∧ x.wanted = true)) → NoEffect c s)
     ∧ ((∃ x ∈ s.mod.skew, x.route = route.val ∧ x.buffer = buffer.toNat ∧ x.wanted = true) →
       (s.mod.route route.val = none → NoEffect c s)
       ∧ (∀ r, s.mod.route route.val = some r →
         ((r.buffers[buffer.toNat]? = none ∨ s.mod.emptySlot r.ten.val = none
             ∨ s.mod.flag Fld.RNG_ENTROPY_STATUS_HEALTHY = false ∨ (Map.get? r.migrations buffer.toNat).isSome = true) →
           Yields c s later)
         ∧ (∀ b slot, r.buffers[buffer.toNat]? = some b → s.mod.emptySlot r.ten.val = some slot →
           s.mod.flag Fld.RNG_ENTROPY_STATUS_HEALTHY = true → Map.get? r.migrations buffer.toNat = none → b.tier ≠ 3 →
           (let plan := s.mod.planPages r.ten.val slot (b.addr + b.bytes) (fun _ => none) (b.bytes / frameBytes + 2) b.addr
            (plan = none → Yields c s later)
            ∧ (∀ pages m, plan = some (pages, m) →
              (s.mod.migFits pages = false → Yields c s later)
              ∧ (s.mod.migFits pages = true → m.dramEcc = [] →
                Completes c s (fun m' => m'.nextKey = m.nextKey + 1
                  ∧ Map.get 0 m'.keys (4 * r.ten.val + slot) = m.nextKey + 1
                  ∧ (∃ r', m'.route route.val = some r' ∧ Map.get? r'.migrations buffer.toNat = some ⟨r.ten, slot, 1, pages⟩)
                  ∧ m'.tags = m.tags ∧ m'.dram = m.dram
                  ∧ (∀ x ∈ m'.skew, x.route = route.val → x.buffer = buffer.toNat → x.wanted = false)))))))))

/-- R254: the passes of a migration: a fourth one that takes too long is its last; after the final pass its pages lie at their targets
and it is over. -/
def MigrationPasses : Prop :=
  ∀ (route : Fin 256) (buffer : BitVec 10) (s : State),
    (let done' := fun (m : Module) => ∃ r', m.route route.val = some r' ∧ Map.get? r'.migrations buffer.toNat = none
     ((∀ r, s.mod.route route.val = some r → Map.get? r.migrations buffer.toNat = none) →
       ∀ tooLong, NoEffect (.migrationPassDone route buffer tooLong) s)
     ∧ (∀ r g, s.mod.route route.val = some r → Map.get? r.migrations buffer.toNat = some g →
       (g.passes < 4 → Yields (.migrationPassDone route buffer true) s (s.mod.setRoute route.val (fun r => { r with
         migrations := Map.insert r.migrations buffer.toNat { g with passes := g.passes + 1 } })))
       ∧ (4 ≤ g.passes →
         Yields (.migrationPassDone route buffer true) s (s.mod.abandonMigration route.val buffer.toNat)
         ∧ Completes (.migrationPassDone route buffer true) s (fun m => done' m
             ∧ (m.reg .ERR_STATUS Block.mem.group).getLsbD Kind.MEM_MIG_ABORT.bit = true))
       ∧ (Yields (.migrationPassDone route buffer false) s
           ((((g.pages.foldl (fun m p => m.movePage g.ten.val p) s.mod).setRoute route.val (fun r => { r with
             migrations := Map.erase r.migrations buffer.toNat })).mirrorKeys g.ten.val).addFld
               Fld.MEM_TEN_KEYS_MIGRATIONS g.ten.val 0)
         ∧ Completes (.migrationPassDone route buffer false) s done')))

/-- R268, R271, R272: a page that may still be moved: its entry names the target frames with the complement, at the page's own
permissions, and its old frames are freed. One that may not stays as it is. -/
def PageMoves : Prop :=
  ∀ (m : Module) (ten : Nat) (p : MigPage), p.level ≤ 3 → p.target < 2 ^ 23 →
    (m.mayMove ten p = true → (∀ k, k < 16 → p.entry + k < p.target * frameBytes
        ∨ p.target * frameBytes + 2 ^ (levelShift p.level).1 ≤ p.entry + k) →
      Mem.read (m.movePage ten p).dram p.entry 8 = p.target * frameBytes + Mem.read m.dram p.entry 8 % 512
      ∧ Mem.read (m.movePage ten p).dram (p.entry + 8) 8
          = 2 ^ 64 - 1 - (p.target * frameBytes + Mem.read m.dram p.entry 8 % 512))
    ∧ (m.mayMove ten p = false → ∀ a, (∀ k, k < leafFrames p.level → a / frameBytes ≠ p.target + k) →
      Mem.byte (m.movePage ten p).dram a = Mem.byte m.dram a)

/-- R254, R268, R271, R272: the start, the passes and the end of a migration.
Where these rules leave a point open it follows the model (log entry 80). -/
def Obligations.Migrations : Prop := MigrationStarts ∧ MigrationPasses ∧ PageMoves

/-- R7, R264 to R270: allocation against the quota, or FAIL; each frame of a free by itself: one's own is freed, another's is refused
and counted, one that nobody owns is recorded; the scrub zeroes the frame and returns it to the pool; an invalidation drops the
cached translations of its range and counts; the root takes only a value with its complement.
Where these rules leave a point open it follows the model (log entries 75 and 77 to 79). -/
def Obligations.TranslationCommands : Prop :=
  ∀ (f : Func) (ten : Ten) (s : State), ten ≠ house → s.mod.mayAct f ten = true →
    (∀ value : Word, bitsAt value.toNat 0 2 = 0 → bitsAt value.toNat 2 1 = 0 →
      Yields (.xltAllocReq f ten value) s (match s.mod.allocFrame ten.val none with
        | some (n, m) => m.setReg .XLT_TEN_ALLOC_RESULT ten.val 0 (BitVec.ofNat 64 (2 ^ 63 + n))
        | none => s.mod.setReg .XLT_TEN_ALLOC_RESULT ten.val 0 (BitVec.ofNat 64 (2 ^ 63 + 2 ^ 62))))
    ∧ (∀ value : Word64, s.mod.reg .ERR_INJECT_INV Block.xlt.group = 0 →
      (let n := bitsAt value.toNat 0 23
       let w := s.mod.tag n
       (bitsAt value.toNat 23 2 = 3 → Yields (.xltFree f ten value) s (s.mod.raise Kind.XLT_BAD_FREE ten.val n))
       ∧ (bitsAt value.toNat 23 2 = 0 →
         (tagOk w = false → Yields (.xltFree f ten value) s ((s.mod.raise Kind.XLT_PAIR ten.val n).quarantine n))
         ∧ (tagOk w = true → tagAlloc w = false →
           Yields (.xltFree f ten value) s (s.mod.raise Kind.XLT_UNOWNED_FREE ten.val n))
         ∧ (tagOk w = true → tagAlloc w = true → tagTen w = ten.val → tagBase w = none →
           Yields (.xltFree f ten value) s (((s.mod.abandonFrame n).captureFree ten.val n).freeFrame n)
           ∧ ((∀ p ∈ s.mod.routes, p.2.migrations = []) → Map.get? s.mod.captures ten.val = none →
             Completes (.xltFree f ten value) s (fun m => tagScrub (m.tag n) = true ∧ tagAlloc (m.tag n) = false
               ∧ tagOk (m.tag n) = true ∧ tagTen (m.tag n) = ten.val ∧ (∀ k, k ≠ n → m.tag k = s.mod.tag k)
               ∧ m.dram = s.mod.dram)))
         ∧ (tagOk w = true → tagAlloc w = true → (tagBase w).isSome = true →
           Yields (.xltFree f ten value) s ((s.mod.violation ten.val .xlt).raise Kind.XLT_FOREIGN_FREE ten.val n))
         ∧ (tagOk w = true → tagAlloc w = true → tagTen w ≠ ten.val →
           Yields (.xltFree f ten value) s ((s.mod.violation ten.val .xlt).raise Kind.XLT_FOREIGN_FREE ten.val n)))))
    ∧ (∀ frame : BitVec 23,
      (let w := s.mod.tag frame.toNat
       (tagOk w = true → tagScrub w = true → tagAlloc w = false → s.mod.patchDue = [] →
         ∃ s', exec (.frameScrubDone frame) s = .next s' ∧ s'.mod.tag frame.toNat = freeTag
           ∧ (∀ b, Mem.byte s'.mod.dram b = if frame.toNat * frameBytes ≤ b ∧ b < (frame.toNat + 1) * frameBytes then 0
               else Mem.byte s.mod.dram b)
           ∧ (s.mod.fld Fld.XLT_POOL_FREE_FRAMES < 2 ^ Fld.XLT_POOL_FREE_FRAMES.width - 1 →
               s'.mod.fld Fld.XLT_POOL_FREE_FRAMES = s.mod.fld Fld.XLT_POOL_FREE_FRAMES + 1)
           ∧ RegsKept s.mod s'.mod [(.XLT_POOL_FREE, 0, 0)] ∧ s'.mod.hold = s.mod.hold ∧ s'.mod.tiles = s.mod.tiles)
       ∧ (tagScrub w = false → NoEffect (.frameScrubDone frame) s)))
    ∧ (∀ value : Word64, ∃ s', exec (.xltInval f ten value) s = .next s'
      ∧ (∀ p, p ∈ s'.mod.xcache ↔ p ∈ s.mod.xcache ∧ ¬ (p.1 / 2 ^ 32 % 256 = ten.val ∧ (bitsAt value.toNat 48 16 = 0
          ∨ (bitsAt value.toNat 16 32 ≤ p.1 % 2 ^ 32
            ∧ p.1 % 2 ^ 32 < bitsAt value.toNat 16 32 + bitsAt value.toNat 48 16))))
      ∧ RegsKept s.mod s'.mod [(.XLT_TEN_INVAL_DONE, ten.val, 0)] ∧ s'.mod.dram = s.mod.dram
      ∧ s'.mod.fld Fld.XLT_TEN_INVAL_DONE_COUNT ten.val =
          (s.mod.fld Fld.XLT_TEN_INVAL_DONE_COUNT ten.val + 1) % 2 ^ Fld.XLT_TEN_INVAL_DONE_COUNT.width)
    ∧ (∀ value : Word64,
      (pairOk value = true →
        Yields (.xltTenRootWrite f ten value) s (s.mod.setReg .XLT_TEN_ROOT ten.val 0 (RegId.XLT_TEN_ROOT.pairValue value))
        ∧ Completes (.xltTenRootWrite f ten value) s (fun m => pairOk (m.reg .XLT_TEN_ROOT ten.val) = true
            ∧ m.fld Fld.XLT_TEN_ROOT_FRAME ten.val = bitsAt value.toNat 0 23
            ∧ m.flag Fld.XLT_TEN_ROOT_ENABLE ten.val = value.getLsbD 31
            ∧ OtherRegsKept s.mod m [.XLT_TEN_ROOT]))
      ∧ (pairOk value = false → Yields (.xltTenRootWrite f ten value) s (s.mod.raise Kind.XLT_PAIR ten.val ten.val)))

/-! ## Random numbers -/

/-- R277, R285, R286: KAT_GO starts the reference core, and KAT_DONE gives the four words of Philox-4×32-10 under the key and the
counter; the entropy test; the self-test of the tile generators, whose wrong answers are tile faults.
Where these rules leave a point open it follows the model (log entry 100). -/
def Obligations.RandomCommands : Prop :=
  ∀ (s : State),
    (∀ v : Word,
      (v.getLsbD 31 = true → ∃ s', exec (.katGo v) s = .next s' ∧ s'.mod.flag Fld.RNG_KAT_CTL_DONE = false
        ∧ s'.mod.kat = some (s.mod.reg .RNG_KAT_KEY, s.mod.reg .RNG_KAT_CTR 0, s.mod.reg .RNG_KAT_CTR 1)
        ∧ RegsKept s.mod s'.mod [(.RNG_KAT_CTL, 0, 0)])
      ∧ (v.getLsbD 31 = false → NoEffect (.katGo v) s))
    ∧ (∀ key lo hi : Word64, s.mod.kat = some (key, lo, hi) →
      (let o := philox (key.extractLsb' 0 32) (key.extractLsb' 32 32) (lo.extractLsb' 0 32) (lo.extractLsb' 32 32)
         (hi.extractLsb' 0 32) (hi.extractLsb' 32 32)
       ∃ s', exec .katDone s = .next s' ∧ s'.mod.kat = none ∧ s'.mod.flag Fld.RNG_KAT_CTL_DONE = true
         ∧ s'.mod.reg .RNG_KAT_OUT 0 = o.2.1 ++ o.1 ∧ s'.mod.reg .RNG_KAT_OUT 1 = o.2.2.2 ++ o.2.2.1
         ∧ RegsKept s.mod s'.mod [(.RNG_KAT_CTL, 0, 0), (.RNG_KAT_OUT, 0, 0), (.RNG_KAT_OUT, 1, 0)]))
    ∧ (s.mod.kat = none → NoEffect .katDone s)
    ∧ (Yields .entropyTestFail s (((({ s.mod with board := { s.mod.board with entropyBad := true } } : Module).setFlag
        Fld.RNG_ENTROPY_STATUS_HEALTHY 0 0 false).addFld Fld.RNG_ENTROPY_STATUS_FAILS 0 0).raise Kind.RNG_ENTROPY 0 0)
      ∧ Completes .entropyTestFail s (fun m => m.flag Fld.RNG_ENTROPY_STATUS_HEALTHY = false ∧ m.board.entropyBad = true
          ∧ (m.reg .ERR_STATUS Block.rng.group).getLsbD Kind.RNG_ENTROPY.bit = true ∧ m.keys = s.mod.keys))
    ∧ (∀ bad, s.mod.flag Fld.RNG_CTL_SELFTEST_EN = false → NoEffect (.rngSelftestPeriod bad) s)
    ∧ (s.mod.flag Fld.RNG_CTL_SELFTEST_EN = true → s.mod.reg .ERR_INJECT_INV Block.rng.group = 0 →
      (s.mod.rngBad = [] → NoEffect (.rngSelftestPeriod []) s)
      ∧ (∀ t : TileId, s.mod.rngBad = [] → s.mod.released t.cl.val = true →
        Yields (.rngSelftestPeriod [t]) s { s.mod with rngBad := [t] })
      ∧ (∀ t : TileId, s.mod.rngBad = [] → s.mod.released t.cl.val = false →
        (let off := s.mod.siteOffset t.cl.val t.row.val t.col.val
         let m := s.mod.noteSite t.cl t.row.val off .selftest
         Yields (.rngSelftestPeriod [t]) s
           ((m.raise Kind.RNG_SELFTEST (m.fld Fld.FAB_CL_ASSIGN_TENANCY t.cl.val) t.cl.val
             (siteWord t.cl t.row.val off)).siteFault t.cl.val t.row.val off false false)))
      ∧ (∀ bad : List TileId, (∀ t ∈ s.mod.rngBad, s.mod.released t.cl.val = true) →
        (∀ t ∈ bad, s.mod.released t.cl.val = true) →
        Completes (.rngSelftestPeriod bad) s (fun m =>
          m.rngBad = s.mod.rngBad ++ bad.filter (fun t => !s.mod.rngBad.contains t)
          ∧ m.tiles = s.mod.tiles ∧ m.regs = s.mod.regs)))

/-! ## The viaduct -/

/-- R293, R294: what a port sends. A flit is 256 bytes with its CRC; the first flit of every 64 follows the sync mark, so that a frame is
the mark and 64 flits, 16,400 bytes. -/
def FramesSent : Prop :=
  (∀ (m : Module) (p : Nat) (x : OutMsg),
    (let q := m.port p
     let m' := m.putFlit p x
     (q.frameAt = 0 → m'.out = x :: OutMsg.mark p syncMark :: m.out) ∧ (q.frameAt ≠ 0 → m'.out = x :: m.out)
       ∧ m'.port p = { q with frameAt := (q.frameAt + 1) % 64 } ∧ (∀ k, k ≠ p → m'.port k = m.port k)
       ∧ m'.regs = m.regs ∧ m'.tiles = m.tiles))
  ∧ (∀ (seq ack kind flags : Nat) (pay : List Byte), seq < 65536 → ack < 65536 → kind < 256 → flags < 256 → pay.length ≤ 244 →
    (let b := flitBytes seq ack kind flags pay
     b.length = 256 ∧ fieldAt b 0 2 = seq ∧ fieldAt b 2 2 = ack ∧ fieldAt b 4 1 = kind ∧ fieldAt b 5 1 = flags
       ∧ fieldAt b 6 2 = pay.length ∧ (b.drop 8).take pay.length = pay ∧ fieldAt b 252 4 = crc32 (b.take 252)))
  ∧ (∀ fs : List (List Byte), fs.length = frameFlits → (∀ f ∈ fs, f.length = 256) → (frameOf fs).length = 16400)

/-- R302: what a port sends next. It comes from those that wait, the oldest of its VC and job, with credits for all its flits; VC 5
comes before all others and VC 0 before VCs 1 to 4. A port that is not up sends nothing. -/
def PortArbitration : Prop :=
  (∀ (q : Port) (k : TxPkt), q.nextTx = some k →
    k ∈ q.heads ∧ q.onWire k.vc + k.flits.length ≤ vcCredits k.vc
      ∧ (k.vc ≠ 5 → ∀ h ∈ q.heads, h.vc = 5 → vcCredits 5 < q.onWire 5 + h.flits.length)
      ∧ (k.vc ≠ 5 → k.vc ≠ 0 → ∀ h ∈ q.heads, h.vc = 0 → vcCredits 0 < q.onWire 0 + h.flits.length))
  ∧ (∀ (q : Port), q.nextTx = none → ∀ h ∈ q.heads, vcCredits h.vc < q.onWire h.vc + h.flits.length)
  ∧ (∀ (m : Module) (p : Nat) (x : TxPkt), m.linkUp p = false →
    m.sendTx p x = m.setPort p { m.port p with waitq := (m.port p).waitq ++ [x] })

/-- R294 to R296: a flit that does not pass is discarded and answered by NAK; a good one acknowledges, NAK starts a replay, and a DATA
or TUNNEL flit is taken only in order; a TUNNEL flit's message is checked. -/
def FlitsReceived : Prop :=
  ∀ (p : Fin 6) (s : State) (flit : BitVec 2048),
    ((s.mod.linkUp p.val = false ∨ (s.mod.port p.val).hunt = true) → ∀ ok, NoEffect (.flitReceive p ok flit) s)
    ∧ (s.mod.linkUp p.val = true → (s.mod.port p.val).hunt = false → ∃ fec : Nat,
      (let m := (s.mod.addFld Fld.VIA_PORT_FEC_CORRECTED p.val 0 fec).drawn
       let b := leBytes 256 flit.toNat
       let good := fieldAt b 252 4 = crc32 (b.take 252)
       let ack := BitVec.ofNat 16 (fieldAt b 2 2)
       let a := m.ackPort p.val ack
       let q := a.port p.val
       let took := a.setPort p.val { q with rxNext := q.rxNext + 1, dropping := false }
       let inOrder := BitVec.ofNat 16 (fieldAt b 0 2) = q.rxNext
       Yields (.flitReceive p false flit) s ((m.addFld Fld.VIA_PORT_FEC_UNCORRECTED p.val 0).sendNak p.val)
       ∧ (¬ good → Yields (.flitReceive p true flit) s (m.sendNak p.val)
         ∧ Completes (.flitReceive p true flit) s (fun m' => (m'.port p.val).dropping = true
             ∧ (m'.port p.val).rxNext = (s.mod.port p.val).rxNext ∧ m'.tiles = s.mod.tiles
             ∧ ∃ rest, m'.out = OutMsg.flit p.val (flitBytes 0 (s.mod.port p.val).lastIn 2 0 []) :: rest))
       ∧ (good → fieldAt b 4 1 = 2 → Yields (.flitReceive p true flit) s (m.nakPort p.val ack))
       ∧ (good → fieldAt b 4 1 ≠ 1 → fieldAt b 4 1 ≠ 2 → fieldAt b 4 1 ≠ 4 → Yields (.flitReceive p true flit) s a)
       ∧ (good → (fieldAt b 4 1 = 1 ∨ fieldAt b 4 1 = 4) → ¬ inOrder → Yields (.flitReceive p true flit) s a)
       ∧ (good → (fieldAt b 4 1 = 1 ∨ fieldAt b 4 1 = 4) → inOrder → took.flag Fld.VIA_PORT_PEER_MISWIRE p.val = true →
         Yields (.flitReceive p true flit) s took)
       ∧ (good → fieldAt b 4 1 = 1 → inOrder → took.flag Fld.VIA_PORT_PEER_MISWIRE p.val = false →
         Yields (.flitReceive p true flit) s
           ((took.sendIdle p.val).takeData p.val (fieldAt b 5 1) ((b.drop 8).take (fieldAt b 6 2))))
       ∧ (good → fieldAt b 4 1 = 4 → inOrder → took.flag Fld.VIA_PORT_PEER_MISWIRE p.val = false →
         (syncOk ((b.drop 8).take 32) = true → Yields (.flitReceive p true flit) s
           (((took.sendIdle p.val).probe Kind.SYN_CRC 0 p.val).takeSync p.val true ((b.drop 8).take 32)))
         ∧ (syncOk ((b.drop 8).take 32) = false → Yields (.flitReceive p true flit) s
           (((took.sendIdle p.val).raise Kind.SYN_CRC 0 p.val).send (.syncResend p.val))))))

/-- R295, R296: a frame without its mark starts the hunt, which an accepted candidate ends and a third failed frame turns into a
retrain; NAK replays what the peer has not taken, and after eight replays of a flit the port retrains. -/
def FramesReceived : Prop :=
  ∀ (p : Fin 6) (s : State),
    (s.mod.linkUp p.val = true → (s.mod.port p.val).hunt = false →
      Yields (.syncMarkMiss p) s ((s.mod.setPort p.val { s.mod.port p.val with hunt := true }).sendNak p.val)
      ∧ Completes (.syncMarkMiss p) s (fun m => (m.port p.val).hunt = true ∧ (m.port p.val).dropping = true
          ∧ m.regs = s.mod.regs ∧ m.tiles = s.mod.tiles))
    ∧ Yields (.syncMarkAccept p) s (s.mod.setPort p.val { s.mod.port p.val with hunt := false, failedFrames := 0 })
    ∧ (s.mod.linkUp p.val = true → (s.mod.port p.val).hunt = true →
      NoEffect (.syncMarkMiss p) s
      ∧ ((s.mod.port p.val).failedFrames < 2 → Yields (.failedFrame p) s (s.mod.setPort p.val { s.mod.port p.val with
        failedFrames := (s.mod.port p.val).failedFrames + 1 }))
      ∧ (2 ≤ (s.mod.port p.val).failedFrames →
        Yields (.failedFrame p) s (s.mod.startRetrain p.val)
        ∧ Completes (.failedFrame p) s (fun m => m.portStateOf p.val = portState.training)))
    ∧ (∀ ack, s.mod.linkUp p.val = false → NoEffect (.nakReceive p ack) s)
    ∧ (∀ ack, s.mod.linkUp p.val = true →
      Yields (.nakReceive p ack) s (s.mod.nakPort p.val ack)
      ∧ (((s.mod.releaseAcked p.val ack).port p.val).exhausted = true →
        Completes (.nakReceive p ack) s (fun m => m.portStateOf p.val = portState.training))
      ∧ (((s.mod.releaseAcked p.val ack).port p.val).exhausted = false →
        Completes (.nakReceive p ack) s (fun m => m.portStateOf p.val = s.mod.portStateOf p.val
          ∧ (m.port p.val).rxNext = (s.mod.port p.val).rxNext ∧ m.tiles = s.mod.tiles ∧ m.dram = s.mod.dram)))

/-- R293 to R296, R302: flits and frames, as a port sends and receives them.
Where these rules leave a point open it follows the model (log entries 84, 87, 88, 186 and 187). -/
def Obligations.LinkFraming : Prop := FramesSent ∧ PortArbitration ∧ FlitsReceived ∧ FramesReceived

/-- R290, R291: a failed lane waits for the retrain it calls for. Spares restore forty data lanes where they suffice, each in the place
of a lane that failed. -/
def LanesAndSpares : Prop :=
  ∀ (p : Fin 6) (s : State),
    (∀ lane : Fin 44, lane.val ∉ (s.mod.port p.val).newFail → (s.mod.reg .VIA_PORT_LANES p.val).getLsbD lane.val = false →
      Yields (.laneFail p lane) s (s.mod.setPort p.val { s.mod.port p.val with
        newFail := (s.mod.port p.val).newFail ++ [lane.val], due := true }))
    ∧ (∀ lane : Fin 44, (lane.val ∈ (s.mod.port p.val).newFail ∨ (s.mod.reg .VIA_PORT_LANES p.val).getLsbD lane.val = true) →
      NoEffect (.laneFail p lane) s)
    ∧ (∀ (failed : List Nat) (half : Bool), ((List.range 40).filter failed.contains).length
        ≤ ([42, 43].filter (fun l => !failed.contains l)).length →
      ∃ use, laneMap failed half = some (40, use) ∧ (∀ l, l < 40 → l ∈ failed → ∃ x ∈ use, x.2 = l)
        ∧ ∀ x ∈ use, x.1 ∉ failed)

/-- R300: a retrain of a port that is up stops its sending, counts, raises RETRAIN and signals the peer. -/
def RetrainStarts : Prop :=
  ∀ (p : Fin 6) (s : State),
    (let m := s.mod.startRetrain p.val
     let training := fun (m' : Module) => m'.portStateOf p.val = portState.training ∧ (m'.port p.val).due = false
       ∧ (m'.reg .ERR_STATUS Block.via.group).getLsbD Kind.VIA_RETRAIN.bit = true ∧ m'.tiles = s.mod.tiles
     ((s.mod.port p.val).due = true → Yields (.retrainStart p) s m)
     ∧ ((s.mod.port p.val).due = false → NoEffect (.retrainStart p) s)
     ∧ Yields (.retrain p) s m ∧ Yields (.retrainSignal p) s m
     ∧ (s.mod.linkUp p.val = false → m = s.mod)
     ∧ (s.mod.linkUp p.val = true → Completes (.retrain p) s training ∧ Completes (.retrainSignal p) s training
       ∧ ((s.mod.port p.val).due = true → Completes (.retrainStart p) s training)))

/-- R290, R291, R300: the end of a retrain. One that succeeds assigns the spares, and a port that is up again replays from the flit
after the peer's ACK; the third failure in a row takes the port DOWN. -/
def RetrainEnds : Prop :=
  ∀ (p : Fin 6) (s : State) (ack : BitVec 16),
    (s.mod.portStateOf p.val ≠ portState.training → ∀ ok, NoEffect (.retrainComplete p ok ack) s)
    ∧ (s.mod.portStateOf p.val = portState.training →
      (let m := s.mod.setFld Fld.VIA_PORT_STATUS_RETRAIN_FAILS p.val 0 0
       let a := m.applyLanes p.val (m.fld Fld.VIA_PORT_STATUS_VLP p.val)
       (a.linkUp p.val = true →
         Yields (.retrainComplete p true ack) s ((((a.releaseAcked p.val ack).replayPort p.val true).drainTx p.val).resendSync p.val)
         ∧ Completes (.retrainComplete p true ack) s (fun m' => m'.linkUp p.val = true
             ∧ m'.fld Fld.VIA_PORT_STATUS_RETRAIN_FAILS p.val = 0 ∧ (m'.port p.val).newFail = []))
       ∧ (a.linkUp p.val = false → Yields (.retrainComplete p true ack) s a)
       ∧ (let fails := s.mod.fld Fld.VIA_PORT_STATUS_RETRAIN_FAILS p.val + 1
          let f := s.mod.setFld Fld.VIA_PORT_STATUS_RETRAIN_FAILS p.val 0 fails
          (3 ≤ fails → Yields (.retrainComplete p false ack) s (f.portFails p.val)
            ∧ Completes (.retrainComplete p false ack) s (fun m' => m'.portStateOf p.val = portState.down))
          ∧ (fails < 3 → Yields (.retrainComplete p false ack) s ((f.setPortState p.val portState.up).startRetrain p.val)
            ∧ Completes (.retrainComplete p false ack) s (fun m' => m'.portStateOf p.val = portState.training
                ∧ m'.fld Fld.VIA_PORT_STATUS_RETRAIN_FAILS p.val = fails)))))

/-- R297 to R299, R305: a link comes up at the highest version common to both ends, or stays DOWN with VERSION; a port that goes down
or is disabled carries nothing. -/
def PortUpAndDown : Prop :=
  ∀ (p : Fin 6) (s : State),
    (∀ peer : BitVec 8, s.mod.portStateOf p.val ≠ portState.down → NoEffect (.linkUp p peer) s)
    ∧ (∀ peer : BitVec 8, s.mod.portStateOf p.val = portState.down →
      (let v := s.mod.fld Fld.VIA_PORT_CTL_VLP_MAX p.val
       let mine := vlpOffer v
       let q := s.mod.port p.val
       let m := (s.mod.setPort p.val { Port.reset with rxq := q.rxq, newFail := q.newFail, syncHeld := q.syncHeld }).sendLinkFlit
         p.val (.offer mine v)
       let up := fun vlp => (m.setFld Fld.VIA_PORT_STATUS_RETRAIN_FAILS p.val 0 0).applyLanes p.val vlp
       let at' := fun vlp => (((up vlp).linkUp p.val = true →
           Yields (.linkUp p peer) s ((((up vlp).announce p.val).drainTx p.val).resendSync p.val)
           ∧ Completes (.linkUp p peer) s (fun m' => m'.linkUp p.val = true ∧ m'.fld Fld.VIA_PORT_STATUS_VLP p.val = vlp))
         ∧ ((up vlp).linkUp p.val = false → Yields (.linkUp p peer) s (up vlp)))
       ((mine < 0x22 ∨ peer.toNat < 0x22) →
         Yields (.linkUp p peer) s (m.raise Kind.VIA_VERSION 0 p.val)
         ∧ Completes (.linkUp p peer) s (fun m' => m'.portStateOf p.val = portState.down
             ∧ (m'.reg .ERR_STATUS Block.via.group).getLsbD Kind.VIA_VERSION.bit = true))
       ∧ (0x22 ≤ mine → 0x22 ≤ peer.toNat → (mine < 0x30 ∨ peer.toNat < 0x30) → at' 0x22)
       ∧ (0x30 ≤ mine → 0x30 ≤ peer.toNat → at' 0x30)))
    ∧ ((s.mod.linkUp p.val = true ∨ s.mod.portStateOf p.val = portState.training) →
      Yields (.portDown p) s (s.mod.portFails p.val)
      ∧ Completes (.portDown p) s (fun m => m.portStateOf p.val = portState.down ∧ m.fld Fld.VIA_PORT_STATUS_DATA_LANES p.val = 0
          ∧ (m.reg .ERR_STATUS Block.via.group).getLsbD Kind.VIA_PORT_DOWN.bit = true))
    ∧ (s.mod.portStateOf p.val ≠ portState.disabled →
      (let m := s.mod.setFlag Fld.VIA_PORT_CTL_DISABLE p.val 0 true
       Yields (.portDisable p true) s (((m.closePort p.val portState.disabled).cutOps p.val).lostBuddies)
       ∧ Completes (.portDisable p true) s (fun m' => m'.portStateOf p.val = portState.disabled
           ∧ m'.flag Fld.VIA_PORT_CTL_DISABLE p.val = true))
      ∧ Yields (.portDisable p false) s (s.mod.setFlag Fld.VIA_PORT_CTL_DISABLE p.val 0 false))
    ∧ (s.mod.portStateOf p.val = portState.disabled →
      Yields (.portDisable p false) s
        ((s.mod.setFlag Fld.VIA_PORT_CTL_DISABLE p.val 0 false).setPortState p.val portState.down))

/-- R290, R291, R297 to R300, R305: lanes, spares, retrains and the states of a port.
Where these rules leave a point open it follows the model (log entries 86, 88, 89 and 188). -/
def Obligations.PortStates : Prop := LanesAndSpares ∧ RetrainStarts ∧ RetrainEnds ∧ PortUpAndDown

/-- R301, R303, R304, R307, R308: the packet of its bytes; a packet for another module goes on, or is lost at its hop limit; one for this
module that names a registered job waits to act on its tenancy, every other is dropped and counted. -/
def PacketsHandled : Prop :=
  (∀ (k : Packet), k.payload.length < 2 ^ 32 → packetOf (packetBytes k) = k)
  ∧ ∀ (p : Fin 6) (s : State),
    (let away := (s.mod.port p.val).rxq.find? (fun x => !s.mod.isSelf x.2.dst)
     let here := (s.mod.port p.val).rxq.find? (fun x => s.mod.isSelf x.2.dst)
     let without := fun (x : Nat × Packet) => s.mod.setPort p.val { s.mod.port p.val with rxq := (s.mod.port p.val).rxq.erase x }
     (away = none → NoEffect (.packetForward p) s) ∧ (here = none → NoEffect (.packetDeliver p) s)
     ∧ (∀ x : Nat × Packet, away = some x →
       Yields (.packetForward p) s ((without x).forward x.2 (some p.val))
       ∧ ((s.mod.fld Fld.VIA_ROUTE_CTL_HOP_LIMIT ≤ x.2.hops.toNat ∨ s.mod.choosePort x.2 = none) →
         Completes (.packetForward p) s (fun m => (m.port p.val).rxq = (s.mod.port p.val).rxq.erase x ∧ m.inbox = s.mod.inbox
           ∧ (m.reg .ERR_STATUS Block.via.group).getLsbD Kind.VIA_HOP_LIMIT.bit = true)))
     ∧ (∀ x : Nat × Packet, here = some x →
       Yields (.packetDeliver p) s ((without x).deliver p.val x.2)
       ∧ (∀ t, x.2.jobId.toNat ≠ 0 → x.2.kind ≠ 0 → s.mod.jobEntry x.2.jobId.toNat = some (t, true) →
         Completes (.packetDeliver p) s (fun m => m.inbox = s.mod.inbox ++ [(t, x.2)]
           ∧ (m.port p.val).rxq = (s.mod.port p.val).rxq.erase x))
       ∧ ((x.2.jobId.toNat = 0 ↔ x.2.kind ≠ 0) → Completes (.packetDeliver p) s (fun m => m.inbox = s.mod.inbox
           ∧ (m.reg .ERR_STATUS Block.via.group).getLsbD Kind.VIA_JOB_FILTER.bit = true))
       ∧ (x.2.jobId.toNat ≠ 0 → x.2.kind ≠ 0 → (s.mod.jobEntry x.2.jobId.toNat = none
           ∨ ∃ t, s.mod.jobEntry x.2.jobId.toNat = some (t, false)) →
         Completes (.packetDeliver p) s (fun m => m.inbox = s.mod.inbox
           ∧ (m.reg .ERR_STATUS Block.via.group).getLsbD Kind.VIA_JOB_FILTER.bit = true))))

/-- R7, R306, R336: a job registration. -/
def JobWrites : Prop :=
  ∀ (ten : Ten) (value : Word64) (s : State), ten ≠ house →
    (let valid := value.getLsbD 31
     let job := bitsAt value.toNat 0 24
     let taken := ∃ u : Ten, u ≠ ten ∧ u ≠ house ∧ s.mod.flag Fld.VIA_JOB_VALID u.val = true
       ∧ s.mod.fld Fld.VIA_JOB_JOB_ID u.val = job
     (pairOk value = false → ∃ s', exec (.viaJobWrite ten value) s = .next s' ∧ Recorded s s' Kind.VIA_PAIR [])
     ∧ (pairOk value = true → valid = true → job = 0 → NoEffect (.viaJobWrite ten value) s)
     ∧ (pairOk value = true → valid = true → job ≠ 0 → taken →
       ∃ s', exec (.viaJobWrite ten value) s = .next s' ∧ Recorded s s' Kind.VIA_JOB_DUP [])
     ∧ (pairOk value = true → (valid = true → job ≠ 0 ∧ ¬ taken) →
       Completes (.viaJobWrite ten value) s (fun m => m.flag Fld.VIA_JOB_VALID ten.val = valid
         ∧ m.fld Fld.VIA_JOB_JOB_ID ten.val = job ∧ pairOk (m.reg .VIA_JOB ten.val) = true)
       ∧ (s.mod.jobOf ten.val = none →
         Yields (.viaJobWrite ten value) s (s.mod.setReg .VIA_JOB ten.val 0 (RegId.VIA_JOB.pairValue value)))))

/-- R309, R310: discovery. What a flit says of the peer is kept; a miswired port carries nothing; the first coordinate is taken, and a
second that disagrees is a conflict. -/
def Discovery : Prop :=
  ∀ (p peer : Fin 6) (x y : BitVec 4) (z : BitVec 5) (dims : BitVec 13) (s : State),
    (let c := Instr.discoveryLinkFlit p peer x y z dims
     (s.mod.linkUp p.val = false → NoEffect c s)
     ∧ (s.mod.linkUp p.val = true →
      ∃ w : Word64, (w >>> 62 = if peer.val / 2 ≠ p.val / 2 ∨ peer = p then 3 else 2)
        ∧ bitsAt w.toNat 48 13 = z.toNat * 256 + y.toNat * 16 + x.toNat ∧
        (let m := (s.mod.setReg .VIA_PORT_PEER p.val 0 w).drawn
         let cx := m.stepFrom p.val 0 x.toNat
         let cy := m.stepFrom p.val 1 y.toNat
         let cz := m.stepFrom p.val 2 z.toNat
         let same := m.coord 0 = cx ∧ m.coord 1 = cy ∧ m.coord 2 = cz
         ((peer.val / 2 ≠ p.val / 2 ∨ peer = p) →
           Yields c s (m.raise Kind.VIA_MISWIRE 0 p.val)
           ∧ Completes c s (fun m' => m'.portUp p.val = false))
         ∧ (peer.val / 2 = p.val / 2 → peer ≠ p →
           (m.flag Fld.VIA_DISC_STATUS_DONE = false → Yields c s (m.setCoord cx cy cz)
             ∧ Completes c s (fun m' => m'.flag Fld.VIA_DISC_STATUS_DONE = true))
           ∧ (m.flag Fld.VIA_DISC_STATUS_DONE = true → same → Yields c s m)
           ∧ (m.flag Fld.VIA_DISC_STATUS_DONE = true → ¬ same →
             Yields c s (((m.setPort p.val { m.port p.val with conflict := true }).setFlag
               Fld.VIA_DISC_STATUS_CONFLICT 0 0 true).raise Kind.VIA_DISC_CONFLICT 0 p.val))))))

/-- R314: of a sync-plane message the first copy whose CRC passes is taken; where neither passes a resend is asked for. -/
def SyncMessages : Prop :=
  ∀ (p : Fin 6) (s : State) (laneA laneB : BitVec 256),
    (let a := leBytes 32 laneA.toNat
     let b := leBytes 32 laneB.toNat
     let c := Instr.syncMessageReceive p laneA laneB
     ((s.mod.portUp p.val = false ∨ s.mod.fld Fld.VIA_PORT_STATUS_SYNC_LANES p.val = 0) → NoEffect c s)
     ∧ (s.mod.portUp p.val = true → s.mod.fld Fld.VIA_PORT_STATUS_SYNC_LANES p.val ≠ 0 →
       (syncOk a = true → Yields c s ((s.mod.probe Kind.SYN_CRC 0 p.val).takeSync p.val false a))
       ∧ (syncOk a = false → syncOk b = true → Yields c s ((s.mod.probe Kind.SYN_CRC 0 p.val).takeSync p.val false b))
       ∧ (syncOk a = false → syncOk b = false →
         Yields c s ((s.mod.raise Kind.SYN_CRC 0 p.val).send (.syncResend p.val))
         ∧ Completes c s (fun m => (m.reg .ERR_STATUS Block.syn.group).getLsbD Kind.SYN_CRC.bit = true
             ∧ m.groupOps = s.mod.groupOps ∧ ∃ rest, m.out = OutMsg.syncResend p.val :: rest))))

/-- R301, R303, R304, R306, R308 to R310, R314, R315: packets, jobs, discovery and sync-plane messages.
Where these rules leave a point open it follows the model (log entries 83, 85, 90 to 93 and 188). -/
def Obligations.LinkPackets : Prop := PacketsHandled ∧ JobWrites ∧ Discovery ∧ SyncMessages

/-! ## Collectives -/

/-- R326, R327, R329: COLLECTIVE with MODE ONCE. Its operands are checked; with room it takes its receive space, and the members meet in
an ARRIVE; alone, it starts at once; without frames or room it ends RESOURCE. -/
def OnceCommands : Prop :=
  ∀ (id : Nat) (s : State) (c : Cmd), CmdReady s.mod id 0x30 c →
    (let m := s.mod.begun id c
     let i := fun (x : ColSpec) (fs : List Nat) => (⟨c.ten, some id, none, 0, x, false, false, [], [], none, fs⟩ : Inst)
     (3 ≤ c.field 8 1 → Ends (.collectiveOnce id) s id c st.check (fun m' => m'.insts = s.mod.insts))
     ∧ (c.field 8 1 = 0 →
       (∀ e m1, m.colCheck c false = (.error e, m1) → Yields (.collectiveOnce id) s (m1.finishFail id e))
       ∧ (∀ x m1, m.colCheck c false = (.ok x, m1) →
         (let full := m1.fld Fld.COL_TEN_LIMITS_INFLIGHT_MAX c.ten.val ≤ m1.inflightCols c.ten ∨ 512 ≤ m1.colsInflight.length
            ∨ ∃ j ∈ m1.colsInflight, (i x []).same j = true
          (full → Ends (.collectiveOnce id) s id c st.resource (fun m' => m'.insts = s.mod.insts))
          ∧ (¬ full → m1.allocFrames c.ten.val (m1.recvFrames x) = none →
            Ends (.collectiveOnce id) s id c st.resource (fun m' => m'.insts = s.mod.insts))
          ∧ (¬ full → ∀ fs m2, m1.allocFrames c.ten.val (m1.recvFrames x) = some (fs, m2) →
            (let m3 := (m2.putInst (i x fs)).mirrorCol c.ten
             (m3.subSize x = 1 → Yields (.collectiveOnce id) s (m3.startInst (i x fs)))
             ∧ (m3.subSize x ≠ 1 → Yields (.collectiveOnce id) s (m3.startGroup c.ten (m3.subBox x) 1 x.name 0 0)
               ∧ Completes (.collectiveOnce id) s (fun m' => i x fs ∈ m'.insts ∧ fs.length = m1.recvFrames x
                   ∧ m'.cmd id = some { c with phase := .started }))))))))

/-- R326, R327, R330: COLLECTIVE with MODE BIND takes space for two instances and the retention; it ends once every member has bound,
alone at once. -/
def BindCommands : Prop :=
  ∀ (id : Nat) (s : State) (c : Cmd), CmdReady s.mod id 0x30 c → c.field 8 1 = 1 →
    (let m := s.mod.begun id c
     let k := c.field 14 2
     (∀ e m1, m.colCheck c true = (.error e, m1) → Yields (.collectiveBind id) s (m1.finishFail id e))
     ∧ (∀ x m1, m.colCheck c true = (.ok x, m1) →
       (let full := m1.fld Fld.COL_TEN_LIMITS_BOUND_MAX c.ten.val ≤ m1.boundSlots c.ten ∨ 4096 ≤ m1.slots.length
          ∨ (m1.slot? c.ten k).isSome = true ∨ ∃ q ∈ m1.slots, q.1 / 256 = c.ten.val ∧ q.2.spec.group = x.group
            ∧ q.2.spec.axes = x.axes ∧ q.2.spec.name = x.name
        (full → Ends (.collectiveBind id) s id c st.resource (fun m' => m'.slots = s.mod.slots))
        ∧ (¬ full → m1.allocFrames c.ten.val (2 * m1.recvFrames x + m1.keepFrames x) = none →
          Ends (.collectiveBind id) s id c st.resource (fun m' => m'.slots = s.mod.slots))
        ∧ (¬ full → ∀ fs m2, m1.allocFrames c.ten.val (2 * m1.recvFrames x + m1.keepFrames x) = some (fs, m2) →
          (let b : BoundSlot := ⟨x, some id, (m2.routeById c.ten (c.field 28 2)).getD 0, bitsAt (c.field 30 2) 0 12,
             c.field 56 2, bitsAt (c.field 13 1) 0 6, [], none, none, none, fs, []⟩
           let m3 := m2.commitCmd id
           (m3.subSize x = 1 →
             Yields (.collectiveBind id) s
               (((m3.putSlot c.ten k { b with cmd := none }).mirrorCol c.ten).finish id st.ok)
             ∧ Ends (.collectiveBind id) s id c st.ok (fun m' => m'.slot? c.ten k = some { b with cmd := none }))
           ∧ (m3.subSize x ≠ 1 →
             Yields (.collectiveBind id) s
               (((m3.putSlot c.ten k b).mirrorCol c.ten).startGroup c.ten (m3.subBox x) 1 x.name 0 0)
             ∧ Completes (.collectiveBind id) s (fun m' => m'.slot? c.ten k = some b
                 ∧ m'.cmd id = some { c with phase := .committed })))))))

/-- R330: COLLECTIVE with MODE UNBIND: the slot and its space are free once none of its instances is in flight. -/
def UnbindCommands : Prop :=
  ∀ (id : Nat) (s : State) (c : Cmd), CmdReady s.mod id 0x30 c → c.field 8 1 = 2 →
    (let m := s.mod.begun id c
     let k := c.field 14 2
     (255 < k → Ends (.collectiveUnbind id) s id c st.check (fun m' => m'.slots = s.mod.slots))
     ∧ (k ≤ 255 →
       (m.slot? c.ten k = none → Ends (.collectiveUnbind id) s id c st.resource (fun m' => m'.slots = s.mod.slots))
       ∧ (∀ b, m.slot? c.ten k = some b →
         ((b.unbind.isSome = true ∨ b.cmd.isSome = true) →
           Ends (.collectiveUnbind id) s id c st.resource (fun m' => m'.slots = s.mod.slots))
         ∧ (b.unbind = none → b.cmd = none →
           Yields (.collectiveUnbind id) s
             (((m.commitCmd id).putSlot c.ten k { b with unbind := some id }).checkUnbind c.ten k)
           ∧ ((∀ x ∈ s.mod.insts, ¬ (x.ten = c.ten ∧ x.slot = some k ∧ x.started = true)) →
             Ends (.collectiveUnbind id) s id c st.ok (fun m' => m'.slot? c.ten k = none))
           ∧ ((∃ x ∈ s.mod.insts, x.ten = c.ten ∧ x.slot = some k ∧ x.started = true) →
             Completes (.collectiveUnbind id) s (fun m' => m'.slot? c.ten k = some { b with unbind := some id }
               ∧ m'.cmd id = some { c with phase := .committed } ∧ m'.insts = s.mod.insts))))))

/-- R326, R327, R329, R330: the collective commands.
Where these rules leave a point open it follows the model (log entries 94, 95, 97 and 99). -/
def Obligations.CollectiveCommands : Prop := OnceCommands ∧ BindCommands ∧ UnbindCommands

/-- R105, R167, R178, R313, R329, R330: the completion of a group operation, by its kind: an ARRIVE completes a phase, starts a ONCE
instance or ends a BIND; a MAX64 fixes the front step of a swap; an OR64 tells a step of LEAN, or aborts an instance. -/
def GroupOpsDone : Prop :=
  ∀ (s : State) (n : Nat),
    (s.mod.groupOps[n]? = none → NoEffect (.groupOpComplete n) s)
    ∧ (∀ (o : GroupOp), s.mod.groupOps[n]? = some o → o.own.isSome = true → o.stage = 3 →
      (let a := s.mod.putOp o
       let m := (({ a with groupOps := a.groupOps.filter (fun x => !o.same x) } : Module).addFld
         Fld.SYN_GROUP_OPS_COUNT 0 0).countOps o.ten
       (o.op = 1 → Yields (.groupOpComplete n) s (m.arriveDone o))
       ∧ (o.op = 1 → m.namedBarrier o = none →
         m.insts.find? (fun (x : Inst) => x.ten == o.ten && x.cmd.isSome && !x.sent && x.spec.name == o.name
           && m.subBox x.spec == o.group) = none →
         ∀ (key : Nat) (b : BoundSlot) (id : Nat) (k : Cmd),
         m.slots.find? (fun (p : Nat × BoundSlot) => p.1 / 256 == o.ten.val && p.2.cmd.isSome && p.2.spec.name == o.name
           && m.subBox p.2.spec == o.group) = some (key, b) → b.cmd = some id → s.mod.cmd id = some k →
         Ends (.groupOpComplete n) s id k st.ok (fun m' => Map.get? m'.slots key = some { b with cmd := none }))
       ∧ (o.op = 2 → Yields (.groupOpComplete n) s (m.maxDone o))
       ∧ (o.op = 2 → ∀ w x, s.mod.wrec o.ten.val = some w → w.travel = some x → x.proposal.isSome = true → x.front = none →
         x.version.toNat = o.name → x.group = o.group →
         Completes (.groupOpComplete n) s (fun m' => ∃ w', m'.wrec o.ten.val = some w'
           ∧ w'.travel = some { x with front := some o.value } ∧ (∀ y ∈ m'.groupOps, o.same y = false)))
       ∧ (o.op = 3 → Yields (.groupOpComplete n) s (m.orDone o))
       ∧ (o.op = 3 → s.mod.insts = [] → s.mod.slots = [] →
         Completes (.groupOpComplete n) s (fun m' => ∀ n r, n ∈ s.mod.routesOf o.ten → s.mod.route n = some r →
           r.gen.group = o.group → ∃ r', m'.route n = some r' ∧ r'.slots = r.slots.map (fun (x : GenSlot) =>
             if x.sent && x.lean.isNone && x.step.toNat % 2 ^ 32 == o.name && x.step.toNat / 2 ^ 32 % 65536 == o.phase
             then { x with lean := some (o.value != 0) } else x)))))

/-- R330, R334: a bound instance starts once its phase has completed and its space is free; a re-run asks every peer for its
contribution again. -/
def BoundStarts : Prop :=
  ∀ (ten : Ten) (slot : BitVec 8) (step : Word64) (s : State),
    (s.mod.slot? ten slot.toNat = none → NoEffect (.boundInstanceStart ten slot step) s)
    ∧ (∀ b, s.mod.slot? ten slot.toNat = some b →
      (let busy := ∃ x ∈ s.mod.insts, x.ten = ten ∧ x.slot = some slot.toNat ∧ x.started = true
         ∧ x.step.toNat % 2 = step.toNat % 2
       ((step ∉ b.due ∨ busy) → NoEffect (.boundInstanceStart ten slot step) s)
       ∧ (step ∈ b.due → ¬ busy → ∀ h, b.high = some h → step ≤ h →
         (let m := s.mod.putSlot ten slot.toNat { b with due := b.due.erase step, last := some step }
          let m' := m.startInst (m.slotInst ten slot.toNat b step)
          Yields (.boundInstanceStart ten slot step) s
            (((List.range (m'.subSize b.spec)).filter (· != m'.myRank b.spec)).foldl (fun m q =>
              m.sendAsk ten b.spec step q offsetAll q q) m')))
       ∧ (step ∈ b.due → ¬ busy → (∀ h, b.high = some h → h < step) →
         (let m := s.mod.putSlot ten slot.toNat { b with due := b.due.erase step, last := some step, high := some step }
          Yields (.boundInstanceStart ten slot step) s (m.startInst (m.slotInst ten slot.toNat b step))
          ∧ (∀ image m1, (b.spec.group = 0 ∨ s.mod.maySend ten.val = true) → s.mod.insts = [] →
            m.readSrc ten b.spec 0 (b.spec.srcBytes (m.subSize b.spec)) = (.ok image, m1) →
            Completes (.boundInstanceStart ten slot step) s (fun m' =>
              (∃ i ∈ m'.insts, i.ten = ten ∧ i.slot = some slot.toNat ∧ i.step = step ∧ i.started = true ∧ i.sent = true)
              ∧ ∃ b', m'.slot? ten slot.toNat = some b' ∧ b'.last = some step ∧ (step, image) ∈ b'.retained))))))

/-- R328, R331, R332: a chunk of a tenancy is stray where no instance is named, is asked for once more where its CRC fails, ends the
instance where its DIGEST disagrees, and is otherwise held, once. -/
def ChunksTaken : Prop :=
  ∀ (k : Packet) (e : Ten × Packet) (s : State), k.kind = 2 →
    s.mod.inbox.find? (fun (e : Ten × Packet) => e.2 == k && k.kind.toNat == 2) = some e →
    s.mod.reg .ERR_INJECT_INV Block.col.group = 0 →
    (let m : Module := { s.mod with inbox := s.mod.inbox.erase e }
     let t := e.1
     let x := chunkOf k
     let src := k.src.toNat
     (hasData k = true →
       (m.findInst t src x = none → Yields (.chunkReceive k) s (m.raise Kind.COL_STRAY t.val src)
         ∧ Completes (.chunkReceive k) s (fun m' => m'.inbox = s.mod.inbox.erase e ∧ m'.insts = s.mod.insts
           ∧ (m'.reg .ERR_STATUS Block.col.group).getLsbD Kind.COL_STRAY.bit = true))
       ∧ (∀ i, m.findInst t src x = some i →
         (x.crcOk = false →
           (let m1 := (m.addFld Fld.COL_CRC_FAILS_COUNT 0 0).raise Kind.COL_CRC t.val src
            let key := (x.first, x.last, x.offset)
            (m1.flag Fld.COL_CTL_RESEND_EN = true → key ∉ i.asked →
              Yields (.chunkReceive k) s ((m1.putInst { i with asked := i.asked ++ [key] }).sendAsk t i.spec i.step
                ((m1.rankOf i.spec src).getD 0) x.offset x.first x.last)
              ∧ Completes (.chunkReceive k) s (fun m' => ∃ j ∈ m'.insts, j.spec = i.spec ∧ j.asked = i.asked ++ [key]
                  ∧ j.got = i.got))
            ∧ ((m1.flag Fld.COL_CTL_RESEND_EN = false ∨ key ∈ i.asked) → Yields (.chunkReceive k) s (m1.abortInst i))))
         ∧ (x.crcOk = true →
           (x.digest ≠ i.spec.digest → Yields (.chunkReceive k) s ((m.abortInst i).raise Kind.COL_DIGEST t.val src))
           ∧ (x.digest = i.spec.digest → i.holds x = true → Yields (.chunkReceive k) s m)
           ∧ (x.digest = i.spec.digest → i.holds x = false → i.overflows x = true → Yields (.chunkReceive k) s (m.abortInst i))
           ∧ (x.digest = i.spec.digest → i.holds x = false → i.overflows x = false →
             (let j := { i with got := i.got ++ [⟨x.first, x.last, x.offset, x.data⟩], late := some x.late }
              Yields (.chunkReceive k) s (m.putInst j) ∧ Completes (.chunkReceive k) s (fun m' => j ∈ m'.insts))))))
     ∧ (hasData k = false → x.offset = offsetLost →
       (m.findInst t src x = none → Yields (.chunkReceive k) s (m.raise Kind.COL_STRAY t.val src))
       ∧ (∀ i, m.findInst t src x = some i →
         Yields (.chunkReceive k) s ((m.raise Kind.COL_RESEND_LOST t.val src).endInst i ⟨st.aborted, 0, 0⟩)))
     ∧ (hasData k = false → x.offset ≠ offsetLost → NoEffect (.chunkReceive k) s))

/-- R332, R334: a request is served from the source, or from what a slot retains: the chunk of that offset, or every chunk; one for a step
that is no longer retained is answered that it is lost. -/
def ResendsServed : Prop :=
  ∀ (k : Packet) (e : Ten × Packet) (s : State), k.kind = 2 → hasData k = false → (chunkOf k).offset ≠ offsetLost →
    s.mod.inbox.find? (fun (e : Ten × Packet) => e.2 == k && k.kind.toNat == 2) = some e →
    (let m : Module := { s.mod with inbox := s.mod.inbox.erase e }
     let t := e.1
     let x := chunkOf k
     (m.askedInst t k.src.toNat x = none →
       Yields (.resendRequest k) s (m.raise Kind.COL_STRAY t.val k.src.toNat)
       ∧ Completes (.resendRequest k) s (fun m' => m'.inbox = s.mod.inbox.erase e ∧ m'.insts = s.mod.insts
           ∧ (m'.reg .ERR_STATUS Block.col.group).getLsbD Kind.COL_STRAY.bit = true))
     ∧ (∀ i, m.askedInst t k.src.toNat x = some i →
       (let q := (m.rankOf i.spec k.src.toNat).getD 0
        let r := m.myRank i.spec
        let early := match (i.slot.bind (m.slot? t)).bind (·.last) with
          | some l => decide (l < i.step)
          | none => !i.sent
        (∀ image m1, m.serveImage t i = (some image, m1) →
          (let ks := cutChunks r ((image.drop (i.spec.part q).1).take (i.spec.part q).2)
           Yields (.resendRequest k) s
             ((if x.offset = offsetAll then ks else ks.filter (fun (y : Chunk) => y.offset == x.offset)).foldl
               (fun m y => m.sendChunk t i.spec i.step q y) m1)))
        ∧ (∀ m1, m.serveImage t i = (none, m1) →
          (early = true → Yields (.resendRequest k) s m1)
          ∧ (early = false → Yields (.resendRequest k) s (m1.sendAsk t i.spec i.step q offsetLost r r))))))

/-- R333, R337: an instance that holds every input writes its destination and is over: a command ends with its slowest member, a bound
stage is notified. Where R337 calls the data undefined, what is written is free. -/
def InstancesDone : Prop :=
  ∀ (n : Nat) (i : Inst) (s : State), s.mod.insts[n]? = some i →
    ((i.started = false ∨ i.spec.result (s.mod.subSize i.spec) i.got = none) → NoEffect (.instanceComplete n) s)
    ∧ (∀ runs, i.started = true → i.spec.result (s.mod.subSize i.spec) i.got = some runs →
      (let bad := s.mod.colUndefined i
       let m := if bad then s.mod.drawn else s.mod
       let w := m.writeRuns i.ten i.spec (if bad then freeRuns s.mod.freeIx runs else runs)
       (∀ e m1, w = (.error e, m1) → Yields (.instanceComplete n) s (m1.endInst i e))
       ∧ (∀ m1 slow m2, w = (.ok (), m1) → m1.recordSlowest i = (slow, m2) →
         (let m3 := ((m2.addFld Fld.COL_INSTANCES_COUNT 0 0).addFld Fld.COL_TEN_INSTANCES_COUNT i.ten.val 0).dropInst i
          (∀ id, i.cmd = some id → Yields (.instanceComplete n) s (m3.finish id st.ok slow)
            ∧ ∀ k, s.mod.cmd id = some k → Ends (.instanceComplete n) s id k st.ok (fun m' => ∀ j ∈ m'.insts, i.same j = false))
          ∧ (∀ k b, i.cmd = none → i.slot = some k → m3.slot? i.ten k = some b →
            Yields (.instanceComplete n) s ((m3.notifyStage b.route b.stage b.flag).checkUnbind i.ten k))))))

/-- R335: the time-out names the last late rank. -/
def ColTimeouts : Prop :=
  ∀ (n : Nat) (i : Inst) (s : State), s.mod.insts[n]? = some i →
    (s.mod.fld Fld.COL_TIMEOUT_US ≠ 0 →
      Yields (.colTimeoutExpire n) s (s.mod.raise Kind.COL_WAIT i.ten.val (i.late.getD (s.mod.myRank i.spec)))
      ∧ ∃ s', exec (.colTimeoutExpire n) s = .next s' ∧ Recorded s s' Kind.COL_WAIT [])
    ∧ (s.mod.fld Fld.COL_TIMEOUT_US = 0 → NoEffect (.colTimeoutExpire n) s)

/-- R325, R59: combining: a sum is rounded into the format; MAX and MIN are exact, so they give the code of one operand; NaN is canonical. -/
def Combining : Prop :=
  ∀ (c : ColSpec) (x y : Nat),
    (c.reduce = 0 → c.join x y = (c.fmt.encode ((c.fmt.decode x).add (c.fmt.decode y))).1)
    ∧ (c.reduce = 1 → (c.fmt.decode x).max (c.fmt.decode y) = c.fmt.decode x → c.fmt.decode x ≠ .nan → c.join x y = x)
    ∧ (c.reduce = 2 → (c.fmt.decode x).min (c.fmt.decode y) = c.fmt.decode x → c.fmt.decode x ≠ .nan → c.join x y = x)
    ∧ (c.reduce = 1 → (c.fmt.decode x).max (c.fmt.decode y) = .nan → c.join x y = (c.fmt.encode .nan).1)

/-- R313, R325, R328, R330 to R335, R337: group operations, and the instances of collectives.
Where these rules leave a point open it follows the model (log entries 94 to 98 and 189). -/
def Obligations.CollectiveProgress : Prop :=
  GroupOpsDone ∧ BoundStarts ∧ ChunksTaken ∧ ResendsServed ∧ InstancesDone ∧ ColTimeouts ∧ Combining

/-! ## Rings and commands -/

/-- R347, R343: a doorbell. One that names no ring of the function in RUN is discarded and recorded; one of another tenancy's range is a
misuse; one in order moves TAIL or HEAD, and one out of range puts the ring into ERROR. -/
def Doorbells : Prop :=
  ∀ (f : Func) (s : State) (ring : BitVec 15) (bytes : Bool) (v : Word64),
    (s.mod.tenOf f = none → Yields (.doorbell f ring bytes v) s (s.mod.badDoorbell house ring.toNat)
      ∧ ∃ s', exec (.doorbell f ring bytes v) s = .next s' ∧ Recorded s s' Kind.QUE_DOORBELL [])
    ∧ (∀ t, s.mod.tenOf f = some t →
      (∀ m, s.mod.useEntry t = (false, m) → Yields (.doorbell f ring bytes v) s m)
      ∧ (∀ m, s.mod.useEntry t = (true, m) →
        (f ≠ 0 → m.fld Fld.TEN_RINGS_RING_COUNT t.val ≤ ring.toNat → Yields (.doorbell f ring bytes v) s
          (((m.badDoorbell t ring.toNat).raise Kind.QUE_ISOLATION t.val ring.toNat).violation t.val .que))
        ∧ ((f = 0 ∨ ring.toNat < m.fld Fld.TEN_RINGS_RING_COUNT t.val) →
          (let g := m.globalRing t ring.toNat
           let index := bitsAt v.toNat 0 32
           ((m.ringEnabled g = false ∨ m.ringState g = 2 ∨ (f = 0 ∧ m.ringOwner g ≠ house)) →
             Yields (.doorbell f ring bytes v) s (m.badDoorbell t g))
           ∧ (m.ringEnabled g = true → m.ringState g ≠ 2 → (f ≠ 0 ∨ m.ringOwner g = house) →
             Yields (.doorbell f ring bytes v) s (m.ringBell g index (bytes && v.getLsbD 32))
             ∧ (hostProduced (m.ringType g) = true → diff32 index (m.ringHead g) ≤ m.ringSize g →
               Completes (.doorbell f ring bytes v) s (fun m' => m'.ringTail g = index ∧ m'.ringHead g = m.ringHead g
                 ∧ m'.ringState g = m.ringState g ∧ RegsKept m m' [(.QUE_RING_PTRS, g, 0)]))
             ∧ (hostProduced (m.ringType g) = true → m.ringSize g < diff32 index (m.ringHead g) →
               Completes (.doorbell f ring bytes v) s (fun m' => m'.ringState g = 2 ∧ m'.ringTail g = m.ringTail g
                 ∧ m'.ringHead g = m.ringHead g))
             ∧ (hostProduced (m.ringType g) = false → diff32 index (m.ringHead g) ≤ diff32 (m.ringTail g) (m.ringHead g) →
               Completes (.doorbell f ring bytes v) s (fun m' => m'.ringHead g = index ∧ m'.ringTail g = m.ringTail g)))))))

/-- R345: a ring is enabled with its checks, with its pointers at 0, and disabled unless it serves another. -/
def RingSwitching : Prop :=
  ∀ (f : Func) (g : Nat) (v : Word64) (s : State), s.mod.ownRing f = some g →
    (let store := fun m : Module => m.storeFields .QUE_RING_CFG g 0 ((2 ^ 64 - 1) &&& (enableBit - 1)) v.toNat
     (s.mod.ringEnabled g = false → v.toNat &&& enableBit ≠ 0 →
       (∀ m, (store s.mod).useEntry ((store s.mod).ringOwner g) = (false, m) → Yields (.ringEnable f v) s m)
       ∧ (∀ m, (store s.mod).useEntry ((store s.mod).ringOwner g) = (true, m) →
         (m.ringOk f ((store s.mod).ringOwner g) g = true →
           Yields (.ringEnable f v) s (m.openRing ((store s.mod).ringOwner g) g)
           ∧ (m.ringType g = ringType.caravan → ∀ k, m.freeCaravan = some k →
             Completes (.ringEnable f v) s (fun m' => m'.ringEnabled g = true ∧ m'.ringState g = 1
               ∧ m'.ringHead g = 0 ∧ m'.ringTail g = 0 ∧ m'.fld Fld.QUE_RING_INFO_CARAVAN g = k
               ∧ m'.fld Fld.CVN_RING_CFG_RING k = g))
           ∧ (m.ringType g ≠ ringType.caravan →
             Completes (.ringEnable f v) s (fun m' => m'.ringEnabled g = true ∧ m'.ringHead g = 0 ∧ m'.ringTail g = 0)))
         ∧ (m.ringOk f ((store s.mod).ringOwner g) g = false →
           Yields (.ringEnable f v) s (m.raise Kind.QUE_CONFIG ((store s.mod).ringOwner g).val g)
           ∧ Completes (.ringEnable f v) s (fun m' => m'.ringEnabled g = false
               ∧ (m'.reg .ERR_STATUS Block.que.group).getLsbD Kind.QUE_CONFIG.bit = true))))
     ∧ (s.mod.ringEnabled g = true → v.toNat &&& enableBit = 0 →
       (s.mod.mayDisable g = true → Yields (.ringDisable f v) s (store (s.mod.disableRing g))
         ∧ Completes (.ringDisable f v) s (fun m' => m'.ringEnabled g = false ∧ m'.ringState g = 0
             ∧ ∀ id c, m'.cmd id = some c → c.comp ≠ some g))
       ∧ (s.mod.mayDisable g = false →
         Yields (.ringDisable f v) s (s.mod.raise Kind.QUE_CONFIG (s.mod.ringOwner g).val g)
         ∧ ∃ s', exec (.ringDisable f v) s = .next s' ∧ Recorded s s' Kind.QUE_CONFIG [])))

/-- R352: the version of HCP that a request gives its function: none new while a ring of it is enabled. -/
def HcpVersions : Prop :=
  ∀ (f : Func) (v : Word) (s : State),
    (let m := s.mod.storeFields .HIF_HCP_REQ f.val 0 (2 ^ 32 - 1) v.toNat
     let major := bitsAt v.toNat 8 8
     let minor := bitsAt v.toNat 0 8
     (m.ringsOn f = true → Yields (.hcpReq f v) s m
       ∧ ∃ s', exec (.hcpReq f v) s = .next s' ∧ OnlyRegs s s' [(.HIF_HCP_REQ, f.val, 0)])
     ∧ (m.ringsOn f = false → ∀ w : Nat,
       (major = 3 → w = 2 ^ 16 + 3 * 2 ^ 8 + min minor 2) → (major = 2 → 4 ≤ minor → w = 2 ^ 16 + 2 * 2 ^ 8 + 4) →
       (major ≠ 3 → (major ≠ 2 ∨ minor < 4) → w = 2 ^ 17) →
       Yields (.hcpReq f v) s (m.setReg .HIF_HCP_VER f.val 0 (BitVec.ofNat 64 w))
       ∧ ∃ s', exec (.hcpReq f v) s = .next s' ∧ s'.mod.reg .HIF_HCP_VER f.val = BitVec.ofNat 64 w
           ∧ OnlyRegs s s' [(.HIF_HCP_REQ, f.val, 0), (.HIF_HCP_VER, f.val, 0)]))
    ∧ (s.mod.reg .HIF_HCP_VER f.val = BitVec.ofNat 64 (2 ^ 17) → ∀ (t : Ten) (g : Nat), s.mod.ringOk f t g = false)

/-- R340, R351, R365, R469, R491, R492: LTR, and the PCIe link: down it shows no width or rate; with the domains running and REFCLK
present it trains at the release of PERST_N, and without them it does not. -/
def PcieLink : Prop :=
  ∀ s : State,
    (∀ v : Word, ∃ x, Yields (.hifLtrWrite v) s ((s.mod.storeFields .HIF_LTR 0 0 (2 ^ 32 - 1) v.toNat).send (.ltr x))
      ∧ Completes (.hifLtrWrite v) s (fun m' => m'.out = .ltr x :: s.mod.out ∧ RegsKept s.mod m' [(.HIF_LTR, 0, 0)])
      ∧ (1 < s.mod.fld Fld.PWR_STATUS_STATE → x = none) ∧ (s.mod.fld Fld.PWR_STATUS_STATE ≤ 1 → x.isSome = true))
    ∧ Yields .pcieLinkDown s ((s.mod.setReg .HIF_LINK_STATUS 0 0 0).raise Kind.HIF_LINK_DOWN 0 0)
    ∧ Completes .pcieLinkDown s (fun m' => m'.reg .HIF_LINK_STATUS = 0
        ∧ (m'.reg .ERR_STATUS Block.hif.group).getLsbD Kind.HIF_LINK_DOWN.bit = true)
    ∧ (s.mod.board.boot < 4 ∨ s.mod.board.refclkLost = true →
      Completes .perstNRelease s (fun m' => m'.board.perst = false ∧ m'.regs = s.mod.regs))
    ∧ (4 ≤ s.mod.board.boot → s.mod.board.refclkLost = false →
      ∃ w : Word64, Completes .perstNRelease s (fun m' => m'.board.perst = false ∧ m'.reg .HIF_LINK_STATUS = w
          ∧ RegsKept s.mod m' [(.HIF_LINK_STATUS, 0, 0)])
        ∧ 1 ≤ bitsAt w.toNat 0 4 ∧ bitsAt w.toNat 0 4 ≤ 6 ∧ bitsAt w.toNat 4 5 ∈ [1, 2, 4, 8, 16])

/-- R340, R343 to R345, R347, R351, R352, R365, R492: doorbells in range move TAIL or HEAD and others are discarded and recorded; a ring is
enabled with its checks, and disabled unless it serves another; the version of HCP; LTR; the PCIe link.
Where these rules leave a point open it follows the model (log entries 102, 119, 122 and 123). -/
def Obligations.HostRings : Prop := Doorbells ∧ RingSwitching ∧ HcpVersions ∧ PcieLink

/-- R348, R358: a command is taken, a killed one first; its completion is reserved on the paired ring, and an entry that an abort has
named is over at once. -/
def CommandsTaken : Prop :=
  ∀ (ring : BitVec 15) (s : State),
    (∀ id c, s.mod.requeuedOf ring.toNat = some (id, c) →
      (s.mod.takes c.ten = true → s.mod.slotFree c.ten = true →
        Yields (.commandTake ring) s ((s.mod.setCmd id { c with phase := .taken }).countInflight c.ten)
        ∧ Completes (.commandTake ring) s (fun m' => m'.cmd id = some { c with phase := .taken }))
      ∧ ((s.mod.takes c.ten = false ∨ s.mod.slotFree c.ten = false) → NoEffect (.commandTake ring) s))
    ∧ (s.mod.requeuedOf ring.toNat = none → s.mod.slotFree (s.mod.ringOwner ring.toNat) = false →
      NoEffect (.commandTake ring) s)
    ∧ (s.mod.requeuedOf ring.toNat = none → s.mod.slotFree (s.mod.ringOwner ring.toNat) = true →
      ∀ m, s.mod.useEntry (s.mod.ringOwner ring.toNat) = (true, m) →
      (m.mayServe ringType.command 1 ring.toNat = false → Yields (.commandTake ring) s m)
      ∧ (∀ index b m1, m.takeEntry ringType.command 1 ring.toNat = (some (index, b), m1) →
        (let t := s.mod.ringOwner ring.toNat
         let phase := if index ∈ (m1.ring ring.toNat).aborted then CmdPhase.done st.aborted 0 else CmdPhase.taken
         ∃ s', exec (.commandTake ring) s = .next s' ∧ s'.pending = s.pending ∧ s'.mod.nextSeq = m1.nextSeq + 1
           ∧ s'.mod.cmd m1.nextSeq = some ⟨m1.funcOf t, ring.toNat, t, m1.nextSeq, some (m1.pairOf ring.toNat), b, phase, 0, 0⟩
           ∧ (∀ i, i ≠ m1.nextSeq → s'.mod.cmd i = m1.cmd i)
           ∧ (m1.pairOf ring.toNat ≠ ring.toNat →
               (s'.mod.ring (m1.pairOf ring.toNat)).reserved = (m1.ring (m1.pairOf ring.toNat)).reserved + 1)
           ∧ s'.mod.tiles = m1.tiles ∧ s'.mod.dram = m1.dram)))

/-- R348, R355, R356, R358, R362: a command that has ended posts its completion record; one whose ring is gone posts none; one whose header
fails ends with the status of R355. -/
def CommandsEnded : Prop :=
  (∀ (id : Nat) (s : State),
    (s.mod.cmd id = none → NoEffect (.commandComplete id) s)
    ∧ (∀ c, s.mod.cmd id = some c →
      ((c.phase = .started ∨ c.phase = .committed ∨ c.phase = .requeued) → NoEffect (.commandComplete id) s)
      ∧ (∀ status detail, c.phase = .done status detail →
        Yields (.commandComplete id) s (s.mod.postDone id c status detail)
        ∧ (c.comp = none → Completes (.commandComplete id) s (fun m' => m'.cmd id = none))
        ∧ (∀ g, c.comp = some g → s.mod.ringState g = 2 → NoEffect (.commandComplete id) s)
        ∧ (∀ g, c.comp = some g → s.mod.ringState g ≠ 2 → bitsAt (c.field 1 1) 0 1 = 0 →
          (let m := s.mod.postEntry g (completionRecord (c.field 4 4) status c.op (s.mod.localRing c.ring) detail)
           m.ringState g ≠ 2 → Completes (.commandComplete id) s (fun m' => m'.cmd id = none
             ∧ m'.ringTail g = (s.mod.ringTail g + 1) % 2 ^ 32 ∧ m'.dram = m.dram))))
      ∧ (c.phase = .taken → s.mod.canStart c = true → c.comp = none → ∀ status, s.mod.headerStatus c = some status →
        Completes (.commandComplete id) s (fun m' => m'.cmd id = none))
      ∧ (c.phase = .taken → (s.mod.canStart c = false ∨ s.mod.headerStatus c = none) → NoEffect (.commandComplete id) s)))
  ∧ (∀ tag status opcode ring detail : Nat, tag < 2 ^ 32 → status < 256 → opcode < 256 → detail < 2 ^ 64 →
    (let b := completionRecord tag status opcode ring detail
     b.length = 16 ∧ fieldAt b 0 4 = tag ∧ fieldAt b 4 1 = status ∧ fieldAt b 5 1 = opcode
     ∧ fieldAt b 6 2 = ring % 32768 ∧ fieldAt b 8 8 = detail))

/-- R359, R360: a command is killed before its commit point and re-queued, or aborted by its tag; a committed one runs on. -/
def CommandsKilled : Prop :=
  (∀ (id : Nat) (s : State) (c : Cmd), s.mod.cmd id = some c →
    (c.mayKill = true → Yields (.commandKill id) s ((s.mod.undoCmd id c).killCmd id)
      ∧ Completes (.commandKill id) s (fun m' =>
          m'.cmd id = some { c with phase := .requeued, kills := min 65535 (c.kills + 1) }))
    ∧ (c.mayKill = false → NoEffect (.commandKill id) s))
  ∧ (∀ (f : Func) (ten : Ten) (v : Word64) (s : State), ten ≠ house → s.mod.mayAct f ten = true →
    (let g := if f = 0 then bitsAt v.toNat 32 15 else s.mod.globalRing ten (bitsAt v.toNat 32 15)
     (s.mod.ringOwner g ≠ ten → NoEffect (.queTenCmdAbort f ten v) s)
     ∧ (s.mod.ringOwner g = ten → ∀ id c,
       s.mod.cmds.find? (fun p => p.2.ring == g && p.2.field 4 4 == bitsAt v.toNat 0 32 && !p.2.ended) = some (id, c) →
       s.mod.cmd id = some c →
       (c.phase = .requeued → Yields (.queTenCmdAbort f ten v) s
         ((s.mod.setCmd id { c with phase := .done st.aborted 0 }).countInflight c.ten)
         ∧ Completes (.queTenCmdAbort f ten v) s (fun m' => m'.cmd id = some { c with phase := .done st.aborted 0 }))
       ∧ (c.mayKill = true → Yields (.queTenCmdAbort f ten v) s ((s.mod.undoCmd id c).finish id st.aborted)
         ∧ Ends (.queTenCmdAbort f ten v) s id c st.aborted (fun m' => m'.nextSeq = s.mod.nextSeq))
       ∧ (c.phase = .committed → NoEffect (.queTenCmdAbort f ten v) s))))

/-- R356, R358: FENCE commits as it starts and completes once every earlier command of its scope has; TIMESTAMP completes as it starts. -/
def FenceAndTimestamp : Prop :=
  ∀ (id : Nat) (c : Cmd) (s : State),
    (CmdReady s.mod id 0x40 c →
      (1 < c.field 8 1 → Ends (.fence id) s id c st.check (fun m' => m'.regs = s.mod.regs))
      ∧ (c.field 8 1 ≤ 1 →
        (let m := (s.mod.begun id c).commitCmd id
         (m.fencePassed { c with phase := .committed } = true → Yields (.fence id) s (m.finish id st.ok)
           ∧ Ends (.fence id) s id c st.ok (fun m' => m'.regs = s.mod.regs))
         ∧ (m.fencePassed { c with phase := .committed } = false → Yields (.fence id) s m
           ∧ Completes (.fence id) s (fun m' => m'.cmd id = some { c with phase := .committed })))))
    ∧ (CmdReady s.mod id 0x41 c →
      Completes (.timestamp id) s (fun m' => m'.cmd id = some { c with
          phase := .done st.ok (if s.mod.hcpAtLeast c.func 3 1 then s.mod.calendarUs else 0) } ∧ m'.regs = s.mod.regs))

/-- R361: SUSPEND takes an ACTIVE tenancy to SUSPENDED once nothing of it runs, and RESUME takes it back. -/
def Preemption : Prop :=
  ∀ (ten : Ten) (s : State),
    (∀ drain : Bool,
      ((ten = house ∨ s.mod.active ten = false ∨ s.mod.fld Fld.QUE_TEN_STATE_STATE ten.val ≠ 0) → NoEffect (.suspend ten drain) s)
      ∧ (ten ≠ house → s.mod.active ten = true → s.mod.fld Fld.QUE_TEN_STATE_STATE ten.val = 0 → s.mod.routesOf ten = [] →
        s.mod.channelsOf ten = [] → (∀ p ∈ s.mod.cmds, p.2.ten ≠ ten) → ten ∉ s.mod.resumeDue →
        Yields (.suspend ten drain) s (((s.mod.setFld Fld.QUE_TEN_STATE_STATE ten.val 0 1).setFld
          Fld.QUE_TEN_STATE_STATE ten.val 0 2).notice ten Fld.HIF_VF_NOTICE_SUSPENDED)
        ∧ Completes (.suspend ten drain) s (fun m' => m'.fld Fld.QUE_TEN_STATE_STATE ten.val = 2
            ∧ m'.flag Fld.HIF_VF_NOTICE_SUSPENDED (s.mod.funcOf ten).val = true)))
    ∧ (s.mod.fld Fld.QUE_TEN_STATE_STATE ten.val = 2 → Yields (.resume ten) s (s.mod.resumeTen ten)
      ∧ Completes (.resume ten) s (fun m' => m'.fld Fld.QUE_TEN_STATE_STATE ten.val = 0
          ∧ m'.resumeDue = s.mod.resumeDue.filter (· != ten)))
    ∧ (s.mod.fld Fld.QUE_TEN_STATE_STATE ten.val = 1 → ten ∉ s.mod.resumeDue →
      Yields (.resume ten) s { s.mod with resumeDue := s.mod.resumeDue ++ [ten] }
      ∧ Completes (.resume ten) s (fun m' => ten ∈ m'.resumeDue ∧ m'.regs = s.mod.regs))
    ∧ (s.mod.fld Fld.QUE_TEN_STATE_STATE ten.val = 0 → NoEffect (.resume ten) s)

/-- R365, R181: a PCIe time-out is recorded; the access that needed it fails with BUS_ERROR, and a command that reads a source meets the error
there. -/
def PcieTimeouts : Prop :=
  ∀ (id : Nat) (s : State),
    (s.mod.cmd id = none → Yields (.cplTimeout id) s (s.mod.raise Kind.HIF_CPL_TIMEOUT 0 0)
      ∧ ∃ s', exec (.cplTimeout id) s = .next s' ∧ Recorded s s' Kind.HIF_CPL_TIMEOUT [])
    ∧ (∀ c, s.mod.cmd id = some c →
      (let m := s.mod.raise Kind.HIF_CPL_TIMEOUT c.ten.val c.func.val
       (c.readsSource = true → Completes (.cplTimeout id) s (fun m' =>
         m'.cmd id = some { c with srcErrs := min 2 (c.srcErrs + 1) }
         ∧ (m'.reg .ERR_STATUS Block.hif.group).getLsbD Kind.HIF_CPL_TIMEOUT.bit = true))
       ∧ (c.readsSource = false → c.inExec = false → Yields (.cplTimeout id) s m)
       ∧ (c.inExec = true → (c.op = 0x01 ∨ c.op = 0x13 ∨ c.op = 0x50) →
         (∃ addr, addr < 2 ^ 48 ∧ Yields (.cplTimeout id) s (m.drawn.finishFail id ⟨st.busError, 7, addr⟩))
         ∧ Ends (.cplTimeout id) s id c st.busError (fun m' =>
             (m'.reg .ERR_STATUS Block.hif.group).getLsbD Kind.HIF_CPL_TIMEOUT.bit = true))
       ∧ (c.inExec = true → (c.op = 0x03 ∨ c.op = 0x40 ∨ c.op = 0x41) → Yields (.cplTimeout id) s m.drawn)))

/-- R348, R354 to R361, R365: the life of a command: taken with a reserved completion, a killed one first; killed before its commit
point, aborted by its tag; FENCE and TIMESTAMP; the completion record; SUSPEND and RESUME; a PCIe time-out.
Where these rules leave a point open it follows the model (log entries 106, 114 to 118, 120 and 121). -/
def Obligations.CommandExecution : Prop :=
  CommandsTaken ∧ CommandsEnded ∧ CommandsKilled ∧ FenceAndTimestamp ∧ Preemption ∧ PcieTimeouts

/-! ## Tenancies and the ledger -/

/-- R285, R370, R371, R499: a TEN_CMD is discarded while another runs; CREATE succeeds or ends with its first RESULT; DESTROY and the reset act on
an ACTIVE tenancy. -/
def TenancyCommands : Prop :=
  (∀ (ten : Ten) (s : State),
    (let m := s.mod.setFld Fld.TEN_CMD_STATUS_TENANCY 0 0 ten.val
     let done := fun (v : Nat) (m' : Module) => m'.fld Fld.TEN_CMD_STATUS_RESULT = v ∧ m'.flag Fld.TEN_CMD_STATUS_BUSY = false
       ∧ m'.fld Fld.TEN_CMD_STATUS_TENANCY = ten.val
     (s.mod.flag Fld.TEN_CMD_STATUS_BUSY = true →
       (∀ c ∈ [Instr.create ten, .destroy ten, .tenancyReset ten],
         Yields c s (s.mod.raise Kind.TEN_GRANT_REFUSED ten.val ten.val)
         ∧ ∃ s', exec c s = .next s' ∧ Recorded s s' Kind.TEN_GRANT_REFUSED []))
     ∧ (s.mod.flag Fld.TEN_CMD_STATUS_BUSY = false →
       (∀ v, m.createFails ten = some v →
         Yields (.create ten) s ((if v = 7 then m.pairFailed ten else m).tenResult v)
         ∧ Completes (.create ten) s (fun m' => done v m' ∧ m'.tiles = s.mod.tiles ∧ m'.dram = s.mod.dram ∧ m'.vfs = s.mod.vfs))
       ∧ (m.createFails ten = none →
         (let m1 := ((m.setTenState ten 1).setBusy.fitClusters ten).fitHold ten
          (m1.flag Fld.RNG_ENTROPY_STATUS_HEALTHY = true → Yields (.create ten) s (m1.openTenancy ten)
            ∧ Completes (.create ten) s (fun m' => done 0 m' ∧ m'.active ten = true
                ∧ Map.get? m'.keys (4 * ten.val) = some (s.mod.nextKey + 1)
                ∧ Map.get? m'.vfs ten.val = some (s.mod.fld Fld.TEN_GRANT_VF ten.val)))
          ∧ (m1.flag Fld.RNG_ENTROPY_STATUS_HEALTHY = false →
            Yields (.create ten) s { m1 with creating := some ten }
            ∧ Completes (.create ten) s (fun m' => m'.creating = some ten ∧ m'.active ten = false
                ∧ m'.exists? ten = true ∧ m'.flag Fld.TEN_CMD_STATUS_BUSY = true))))
       ∧ ((ten = house ∨ m.active ten = false) →
         Yields (.destroy ten) s (m.tenResult 1) ∧ Yields (.tenancyReset ten) s (m.tenResult 1)
         ∧ Completes (.destroy ten) s (fun m' => done 1 m' ∧ m'.tiles = s.mod.tiles ∧ m'.cmds = s.mod.cmds)
         ∧ Completes (.tenancyReset ten) s (fun m' => done 1 m' ∧ m'.tiles = s.mod.tiles ∧ m'.cmds = s.mod.cmds))
       ∧ (ten ≠ house → m.active ten = true →
         Yields (.tenancyReset ten) s ((m.tenReset ten true).tenResult 0).latChanged
         ∧ Completes (.tenancyReset ten) s (fun m' => done 0 m' ∧ ∀ p ∈ m'.cmds, p.2.ten ≠ ten)
         ∧ (let m1 := (List.range 8).foldl (fun m b => m.revokeBase ten.val b) ((m.tenReset ten true).setBusy.setTenState ten 3)
            let m2 := (m1.finalLedger ten.val).latChanged
            Yields (.destroy ten) s { m2 with scrubbing := m2.scrubbing ++ [ten] }
            ∧ Completes (.destroy ten) s (fun m' => ten ∈ m'.scrubbing ∧ m'.flag Fld.TEN_CMD_STATUS_BUSY = true
                ∧ m'.fld Fld.TEN_STATUS_STATE ten.val = 3 ∧ ∀ p ∈ m'.cmds, p.2.ten ≠ ten))))))
  ∧ (∀ (ten : Ten) (m : Module), m.createFails ten = none →
    m.exists? ten = false ∧ m.fld Fld.TEN_GRANT_CLUSTERS ten.val ≤ m.freeClusters.length
    ∧ m.fld Fld.TEN_HOLD_HOLD_BANKS ten.val ≤ m.freeBanksAll ∧ m.entryOk ten = true
    ∧ m.fld Fld.TEN_RINGS_RING_FIRST ten.val + m.fld Fld.TEN_RINGS_RING_COUNT ten.val ≤ 32768)

/-- R285, R469: with the entropy source healthy again, and start-up over, keys are issued, and the creation that waited completes. -/
def EntropyRecovery : Prop :=
  ∀ s : State,
    (let m : Module := { s.mod with board := { s.mod.board with entropyBad := false } }
     (s.mod.board.boot ≠ 6 → Yields .entropyHealthy s m
       ∧ Completes .entropyHealthy s (fun m' => m'.board.entropyBad = false ∧ m'.regs = s.mod.regs))
     ∧ (s.mod.board.boot = 6 → s.mod.creating = none →
       Yields .entropyHealthy s (m.setFlag Fld.RNG_ENTROPY_STATUS_HEALTHY 0 0 true)
       ∧ Completes .entropyHealthy s (fun m' => m'.flag Fld.RNG_ENTROPY_STATUS_HEALTHY = true ∧ m'.board.entropyBad = false
           ∧ RegsKept s.mod m' [(.RNG_ENTROPY_STATUS, 0, 0)]))
     ∧ (s.mod.board.boot = 6 → ∀ t, s.mod.creating = some t →
       Yields .entropyHealthy s ((m.setFlag Fld.RNG_ENTROPY_STATUS_HEALTHY 0 0 true).openTenancy t)
       ∧ Completes .entropyHealthy s (fun m' => m'.creating = none ∧ m'.active t = true
           ∧ m'.flag Fld.TEN_CMD_STATUS_BUSY = false ∧ Map.get? m'.keys (4 * t.val) = some (s.mod.nextKey + 1))))

/-- R368, R369, R371, R372: the end of the scrub leaves the tenancy FREE; grant writes; a pending grant goes on. -/
def GrantsAndTeardown : Prop :=
  ∀ (ten : Ten) (s : State), ten ≠ house →
    ((ten ∉ s.mod.scrubbing ∨ s.mod.routesOf ten ≠ []) → NoEffect (.teardownScrubDone ten) s)
    ∧ (ten ∈ s.mod.scrubbing → s.mod.routesOf ten = [] →
      ∃ s', exec (.teardownScrubDone ten) s = .next s' ∧ s'.mod.exists? ten = false ∧ ten ∉ s'.mod.scrubbing
        ∧ s'.mod.flag Fld.TEN_CMD_STATUS_BUSY = false ∧ (∀ r ∈ grantRegs, s'.mod.reg r ten.val = pairWord 0)
        ∧ Map.get? s'.mod.vfs ten.val = none)
    ∧ (∀ (reg : RegId) (v : Word64), reg ∈ grantRegs →
      (pairOk v = false → Yields (.tenGrantWrite reg ten v) s (s.mod.raise Kind.TEN_PAIR ten.val ten.val)
        ∧ ∃ s', exec (.tenGrantWrite reg ten v) s = .next s' ∧ Recorded s s' Kind.TEN_PAIR [])
      ∧ (pairOk v = true → s.mod.grantRefused reg ten v.toNat = true →
        Yields (.tenGrantWrite reg ten v) s (s.mod.raise Kind.TEN_GRANT_REFUSED ten.val ten.val)
        ∧ ∃ s', exec (.tenGrantWrite reg ten v) s = .next s' ∧ Recorded s s' Kind.TEN_GRANT_REFUSED [])
      ∧ (pairOk v = true → s.mod.grantRefused reg ten v.toNat = false → reg ≠ .TEN_LAT_TOL → s.mod.active ten = false →
        Yields (.tenGrantWrite reg ten v) s ((s.mod.setReg reg ten.val 0 (reg.pairValue v)).thaw ten)
        ∧ Completes (.tenGrantWrite reg ten v) s (fun m' => m'.reg reg ten.val = reg.pairValue v
            ∧ RegsKept s.mod m' [(reg, ten.val, 0), (.TEN_STATUS, ten.val, 0)]))
      ∧ (pairOk v = true → s.mod.grantRefused reg ten v.toNat = false → (reg = .TEN_GRANT ∨ reg = .TEN_HOLD) →
        s.mod.active ten = true → s.mod.reg reg ten.val ≠ reg.pairValue v →
        Yields (.tenGrantWrite reg ten v) s (((s.mod.setReg reg ten.val 0 (reg.pairValue v)).thaw ten).fitGrant ten)))
    ∧ ((s.mod.active ten = false ∨ s.mod.flag Fld.TEN_STATUS_GRANT_PENDING ten.val = false) →
      NoEffect (.grantPendingFill ten) s)
    ∧ (s.mod.active ten = true → s.mod.flag Fld.TEN_STATUS_GRANT_PENDING ten.val = true →
      Yields (.grantPendingFill ten) s (s.mod.fitGrant ten)
      ∧ (∀ m, s.mod.useEntry ten = (true, m) →
        Completes (.grantPendingFill ten) s (fun m' =>
          (m'.flag Fld.TEN_STATUS_GRANT_PENDING ten.val = false →
            (m'.heldClusters ten).length = s.mod.fld Fld.TEN_GRANT_CLUSTERS ten.val
            ∧ m'.extentCount ten = s.mod.fld Fld.TEN_HOLD_HOLD_BANKS ten.val)
          ∧ m'.fld Fld.TEN_GRANT_CLUSTERS ten.val = s.mod.fld Fld.TEN_GRANT_CLUSTERS ten.val)))

/-- R340, R362: the function-level reset: of the physical function an M reset, of a virtual function an F reset of its tenancy. -/
def FunctionResets : Prop :=
  ∀ s : State,
    (Yields (.functionLevelReset 0) s ((s.mod.mReset Fld.GLB_RESET_CAUSE_PF_FLR).trainLink)
      ∧ Completes (.functionLevelReset 0) s (fun m' => m'.flag Fld.GLB_RESET_CAUSE_PF_FLR = true ∧ m'.cmds = [] ∧ m'.routes = []
          ∧ m'.vfs = [] ∧ m'.hostMem = s.mod.hostMem))
    ∧ (∀ (f : Func) (t : Ten), f ≠ 0 → s.mod.tenOf f = some t →
      Yields (.functionLevelReset f) s (s.mod.tenReset t false).latChanged
      ∧ Completes (.functionLevelReset f) s (fun m' => (∀ p ∈ m'.cmds, p.2.ten ≠ t) ∧ m'.vfs = s.mod.vfs))
    ∧ (∀ f : Func, f ≠ 0 → s.mod.tenOf f = none →
      Completes (.functionLevelReset f) s (fun m' => m'.cmds = s.mod.cmds ∧ m'.routes = s.mod.routes
        ∧ m'.latches = s.mod.latches.filter (fun p => p.1 / 2 ^ 64 ≠ f.val)
        ∧ ∀ r i j, i < 2 ^ 24 → j < 2 ^ 16 → (r.owner ≠ .func ∨ i ≠ f.val) → m'.reg r i j = s.mod.reg r i j))

/-- R376, R379: the ledger: an interval ends at a boundary of its length, and the records that wait go to the ring while it has room. -/
def LedgerIntervals : Prop :=
  ∀ s : State,
    (∀ l, Map.get? s.mod.ledgers 0 = some l →
      (let now := s.mod.fld Fld.RTC_SECONDS_SECONDS
       (now % max 1 s.mod.ledgerLen = 0 → l.start ≠ now → Yields .ledgerIntervalEnd s (s.mod.closeLedger false now)
         ∧ Completes .ledgerIntervalEnd s (fun m' =>
             (∀ t l, Map.get? s.mod.ledgers t = some l → ∃ l', Map.get? m'.ledgers t = some l' ∧ l'.start = now ∧ l'.busy = 0
               ∧ l'.dram = l.dram % 4096)
             ∧ m'.ledgerEnergy = s.mod.fld Fld.LDG_MEASURED_MJ))
       ∧ ((now % max 1 s.mod.ledgerLen ≠ 0 ∨ l.start = now) → NoEffect .ledgerIntervalEnd s)))
    ∧ (∀ g r, s.mod.ledgerRing = some g → s.mod.ledgerQueue = [r] →
      (s.mod.postEntry g r.bytes).ledgerCarry = [] → (s.mod.postEntry g r.bytes).ringState g ≠ 2 →
      Yields .ledgerRecordWrite s ((s.mod.postEntry g r.bytes).setBacklog [])
      ∧ Completes .ledgerRecordWrite s (fun m' => m'.ledgerQueue = [] ∧ m'.fld Fld.LDG_BACKLOG_RECORDS = 0
          ∧ m'.ringTail g = (s.mod.ringTail g + 1) % 2 ^ 32))
    ∧ (s.mod.ledgerRing = none → s.mod.ledgerCarry = [] → NoEffect .ledgerRecordWrite s)

/-- R285, R340, R362, R368 to R372, R376, R379, R499: a TEN_CMD is discarded while another runs; CREATE succeeds or ends with its first
RESULT; DESTROY and the reset act on an ACTIVE tenancy; the end of the scrub leaves it FREE; grant writes; the function-level reset;
the ledger's interval and records.
Where these rules leave a point open it follows the model (log entries 126 to 133). -/
def Obligations.TenanciesAndLedger : Prop :=
  TenancyCommands ∧ EntropyRecovery ∧ GrantsAndTeardown ∧ FunctionResets ∧ LedgerIntervals

/-! ## Ferries -/

/-- R386 to R390, R393: a channel takes its ring's next descriptor and checks it before it moves any byte; it completes, and is idle again,
once every byte is visible. -/
def FerryDescriptors : Prop :=
  ∀ (ch : BitVec 9) (s : State),
    (let c := ch.toNat
     (s.mod.flag Fld.DMA_CH_CFG_VALID c = false → NoEffect (.ferryDescriptor ch) s)
     ∧ (s.mod.flag Fld.DMA_CH_CFG_VALID c = true → (s.mod.ferry c).entry = none →
       (s.mod.chState c ≠ chIdle → s.mod.chState c ≠ chRunning → NoEffect (.ferryDescriptor ch) s)
       ∧ ((s.mod.chState c = chIdle ∨ s.mod.chState c = chRunning) →
         (∀ m, s.mod.takeEntry ringType.ferry 1 (s.mod.chRing c) = (none, m) → Yields (.ferryDescriptor ch) s m)
         ∧ (∀ index b m, s.mod.takeEntry ringType.ferry 1 (s.mod.chRing c) = (some (index, b), m) →
           (let m1 := (m.reserve (m.pairOf (m.chRing c)) 1).setFld Fld.DMA_CH_DONE_BYTES c 0 0
            let m2 := (m1.setFerry c { Ferry.idle with entry := some b, paid := true }).setChState c chRunning
            let halts := fun (status : Nat) (m' : Module) => m'.chState c = chHalted ∧ (m'.ferry c).entry = some b
              ∧ m'.reg .DMA_CH_ERR_INFO c = BitVec.ofNat 64 (status * 2 ^ 24) ∧ m'.chDone c = 0
            (fd.ok b = false → Yields (.ferryDescriptor ch) s (m2.haltFerry c st.check 0 false false 0)
              ∧ Completes (.ferryDescriptor ch) s (halts st.check))
            ∧ (fd.ok b = true → fd.remote b = true → m2.maySend (m2.chTen c).val = false →
              Yields (.ferryDescriptor ch) s (m2.haltFerry c st.isolation 0 false false 0)
              ∧ Completes (.ferryDescriptor ch) s (halts st.isolation))
            ∧ (fd.ok b = true → Yields (.ferryDescriptor ch) s (m2.driveFerry c false)
              ∧ Completes (.ferryDescriptor ch) s (fun m' => (m'.ferry c).entry = some b
                  ∧ (m'.chState c = chRunning ∨ m'.chState c = chHalted)))))))
     ∧ ((s.mod.ferry c).entry = none → NoEffect (.ferryDescriptorComplete ch) s)
     ∧ (∀ b, (s.mod.ferry c).entry = some b →
       (s.mod.chState c ≠ chRunning → (s.mod.chState c ≠ chPausing ∨ (s.mod.ferry c).draining = false) →
         NoEffect (.ferryDescriptorComplete ch) s)
       ∧ (s.mod.chState c = chRunning →
         (let m := s.mod.driveFerry c true
          m.chState c ≠ chHalted → (m.ferry c).paid = true → m.ferryOver c b = true → (m.ferry c).draining = false →
          Yields (.ferryDescriptorComplete ch) s (((m.postFerry c b st.ok (fd.len b)).setFerry c .idle).setChState c chIdle)
          ∧ Completes (.ferryDescriptorComplete ch) s (fun m' => (m'.ferry c).entry = none ∧ m'.chState c = chIdle
              ∧ m'.dram = (m.postFerry c b st.ok (fd.len b)).dram)))))

/-- R391, R393, R395, R397: PAUSE, DRAIN, RESUME, RETRY and SKIP act in the states that admit them; the others raise CONFIG. -/
def FerryControls : Prop :=
  (∀ (f : Func) (ch : BitVec 9) (s : State),
    (let c := ch.toNat
     (s.mod.flag Fld.DMA_CH_CFG_VALID c = false →
       ∀ x ∈ [Instr.pause f ch, .drain f ch, .dmaResume f ch, .retry f ch, .skip f ch], NoEffect x s)
     ∧ (s.mod.flag Fld.DMA_CH_CFG_VALID c = true → s.mod.mayAct f (s.mod.chTen c) = true →
       Yields (.pause f ch) s (s.mod.pauseFerry c false) ∧ Yields (.drain f ch) s (s.mod.pauseFerry c true)
       ∧ ((s.mod.chState c = chHalted ∨ s.mod.chState c = chPaused) → NoEffect (.pause f ch) s ∧ NoEffect (.drain f ch) s)
       ∧ (s.mod.chState c ≠ chHalted → s.mod.chState c ≠ chPaused →
         ((s.mod.ferry c).opened ≠ [] → Completes (.pause f ch) s (fun m' => m'.chState c = chPausing
             ∧ (m'.ferry c).entry = (s.mod.ferry c).entry))
         ∧ ((s.mod.ferry c).opened = [] → s.mod.fld Fld.QUE_TEN_STATE_STATE (s.mod.chTen c).val ≠ 1 →
           Completes (.pause f ch) s (fun m' => m'.chState c = chPaused ∧ (m'.ferry c).entry = (s.mod.ferry c).entry))
         ∧ ((s.mod.ferry c).entry.isSome = true → Completes (.drain f ch) s (fun m' => m'.chState c = chPausing
             ∧ (m'.ferry c).draining = true)))
       ∧ (s.mod.chState c = chPaused → Yields (.dmaResume f ch) s (s.mod.goOn c)
         ∧ ((s.mod.ferry c).entry = none → Completes (.dmaResume f ch) s (fun m' => m'.chState c = chIdle))
         ∧ ((s.mod.ferry c).entry.isSome = true → Completes (.dmaResume f ch) s (fun m' =>
             (m'.chState c = chRunning ∨ m'.chState c = chHalted) ∧ (m'.ferry c).entry = (s.mod.ferry c).entry)))
       ∧ (s.mod.chState c ≠ chPaused → Yields (.dmaResume f ch) s (s.mod.chRefuse c)
         ∧ ∃ s', exec (.dmaResume f ch) s = .next s' ∧ Recorded s s' Kind.DMA_CONFIG [])
       ∧ (s.mod.chState c = chHalted → Yields (.retry f ch) s (s.mod.goOn c)
         ∧ ((s.mod.ferry c).entry.isSome = true → Completes (.retry f ch) s (fun m' =>
             (m'.chState c = chRunning ∨ m'.chState c = chHalted) ∧ (m'.ferry c).entry = (s.mod.ferry c).entry))
         ∧ Yields (.skip f ch) s ((s.mod.setFerry c .idle).setChState c chIdle)
         ∧ Completes (.skip f ch) s (fun m' => m'.chState c = chIdle ∧ (m'.ferry c).entry = none ∧ m'.rings = s.mod.rings))
       ∧ (s.mod.chState c ≠ chHalted → Yields (.retry f ch) s (s.mod.chRefuse c) ∧ Yields (.skip f ch) s (s.mod.chRefuse c)
         ∧ (∃ s', exec (.retry f ch) s = .next s' ∧ Recorded s s' Kind.DMA_CONFIG [])
         ∧ (∃ s', exec (.skip f ch) s = .next s' ∧ Recorded s s' Kind.DMA_CONFIG [])))))
  ∧ (∀ (c : Nat) (m : Module), (m.chState c = chHalted ∨ m.chState c = chPaused) →
    m.pauseFerry c false = m ∧ m.pauseFerry c true = m)

/-- R395: a remote chunk that has waited past DMA_TIMEOUT halts its channel with BUS_ERROR. -/
def FerryTimeouts : Prop :=
  ∀ (ch : BitVec 9) (s : State),
    (let c := ch.toNat
     (((s.mod.ferry c).opened = [] ∨ s.mod.fld Fld.DMA_TIMEOUT_US = 0 ∨ s.mod.chState c = chHalted) →
       NoEffect (.dmaTimeoutExpire ch) s)
     ∧ (∀ b k rest, (s.mod.ferry c).entry = some b → (s.mod.ferry c).opened = k :: rest →
       s.mod.fld Fld.DMA_TIMEOUT_US ≠ 0 → s.mod.chState c ≠ chHalted →
       (let o := (fd.chunk b k).1
        Yields (.dmaTimeoutExpire ch) s
          (((s.mod.setFerry c { s.mod.ferry c with opened := [] }).raise Kind.DMA_REMOTE_TIMEOUT (s.mod.chTen c).val c).haltFerry
            c st.busError 7 (fd.remoteDst b) true (if fd.remoteSrc b then fd.src b + o else fd.dst b + o))
        ∧ Completes (.dmaTimeoutExpire ch) s (fun m' => m'.chState c = chHalted ∧ (m'.ferry c).opened = []
            ∧ (m'.ferry c).entry = some b
            ∧ (m'.reg .ERR_STATUS Block.dma.group).getLsbD Kind.DMA_REMOTE_TIMEOUT.bit = true))))

/-- R394: a remote request is served or refused by its status, and its answer sent. -/
def RemoteRequests : Prop :=
  ∀ (k : Packet) (e : Ten × Packet) (s : State), k.kind = 1 →
    s.mod.inbox.find? (fun (e : Ten × Packet) => e.2 == k && k.kind.toNat == 1) = some e →
    (let m : Module := { s.mod with inbox := s.mod.inbox.erase e }
     let t := e.1
     let dropped := fun (m' : Module) => m'.inbox = s.mod.inbox.erase e ∧ m'.dram = s.mod.dram ∧ m'.regs = s.mod.regs
     (mp.op k ≠ 0 → Completes (.remoteWrite k) s dropped) ∧ (mp.op k ≠ 1 → Completes (.remoteReadReq k) s dropped)
     ∧ (mp.op k = 0 →
       (let w := if mp.hold k then m.writeHold t.val (mp.addr k) k.payload else m.writeVA .dma t.val (mp.addr k) k.payload
        (∀ m1, w = (.ok (), m1) → Yields (.remoteWrite k) s (m1.memAnswer t k 3 st.ok [])
          ∧ Completes (.remoteWrite k) s (fun m' => m'.dram = m1.dram ∧ m'.hold = m1.hold ∧ m'.tiles = m1.tiles))
        ∧ (∀ x m1, w = (.error x, m1) → Yields (.remoteWrite k) s (m1.memAnswer t k 4 x.status [])
          ∧ Completes (.remoteWrite k) s (fun m' => m'.dram = m1.dram ∧ m'.hold = m1.hold))))
     ∧ (mp.op k = 1 →
       (let n := min 4096 (fieldAt k.payload 0 4)
        let r := if mp.hold k then m.readHold .dma t.val (mp.addr k) n else m.readVA .dma t.val (mp.addr k) n
        (∀ bs m1, r = (.ok bs, m1) → Yields (.remoteReadReq k) s (m1.memAnswer t k 2 0 bs)
          ∧ Completes (.remoteReadReq k) s (fun m' => m'.dram = m1.dram ∧ m'.hold = m1.hold ∧ m'.tiles = m1.tiles))
        ∧ (∀ x m1, r = (.error x, m1) → Yields (.remoteReadReq k) s (m1.memAnswer t k 4 x.status [])))))

/-- R393, R394: an answer concerns an outstanding chunk of a channel of its tenancy, which it completes or halts; a duplicate is
discarded. -/
def RemoteAnswers : Prop :=
  ∀ (k : Packet) (e : Ten × Packet) (s : State), k.kind = 1 →
    s.mod.inbox.find? (fun (e : Ten × Packet) => e.2 == k && k.kind.toNat == 1) = some e →
    (let m : Module := { s.mod with inbox := s.mod.inbox.erase e }
     let t := e.1
     let c := mp.ch k
     let dropped := fun (m' : Module) => m'.inbox = s.mod.inbox.erase e ∧ m'.ferries = s.mod.ferries ∧ m'.regs = s.mod.regs
     (((s.mod.ferry c).entry = none ∨ s.mod.chTen c ≠ t ∨ mp.chunk k ∉ (s.mod.ferry c).opened) →
       Completes (.remoteReadData k) s dropped ∧ Completes (.remoteAck k) s dropped ∧ Completes (.remoteNak k) s dropped)
     ∧ (∀ b, (m.ferry c).entry = some b → m.flag Fld.DMA_CH_CFG_VALID c = true → m.chTen c = t →
       mp.chunk k ∈ (m.ferry c).opened → fd.remote b = true →
       (let shut : Ferry := { m.ferry c with opened := (m.ferry c).opened.filter (· != mp.chunk k) }
        (mp.op k = 2 →
          (let w := m.ferryWrite t.val b (fd.chunk b (mp.chunk k)).1 (k.payload.take (fd.chunk b (mp.chunk k)).2)
           (∀ m1, w = (.ok (), m1) →
             Yields (.remoteReadData k) s ((m1.chunkDone c b (mp.chunk k)).afterChunk c b)
             ∧ Completes (.remoteReadData k) s (fun m' => mp.chunk k ∈ (m'.ferry c).acked ∧ (m'.ferry c).entry = some b))
           ∧ (∀ x m1, w = (.error x, m1) → s.mod.chState c ≠ chHalted →
             Completes (.remoteReadData k) s (fun m' => m'.chState c = chHalted ∧ mp.chunk k ∉ (m'.ferry c).opened
               ∧ (m'.ferry c).acked = (s.mod.ferry c).acked))))
        ∧ (mp.op k = 3 → fd.remoteSrc b = false →
          Yields (.remoteAck k) s ((m.chunkDone c b (mp.chunk k)).afterChunk c b)
          ∧ Completes (.remoteAck k) s (fun m' => mp.chunk k ∈ (m'.ferry c).acked ∧ (m'.ferry c).entry = some b))
        ∧ (mp.op k = 4 →
          (∃ kind : Nat, (mp.status k = st.busError → kind = 7) ∧
            Yields (.remoteNak k) s (((m.setFerry c shut).drawn).haltFerry c (mp.status k) kind (fd.remoteDst b) true (mp.addr k)))
          ∧ Completes (.remoteNak k) s (fun m' => m'.chState c = chHalted ∧ mp.chunk k ∉ (m'.ferry c).opened
              ∧ (m'.ferry c).entry = some b)))))

/-- R386 to R395: a channel takes its next descriptor, checks it and moves its bytes; it completes once all are written; PAUSE, DRAIN,
RESUME, RETRY and SKIP act in the states that admit them; a remote request is served or refused by its status, and an answer
concerns an outstanding chunk.
Where these rules leave a point open it follows the model (log entries 103 to 105). -/
def Obligations.Ferries : Prop :=
  FerryDescriptors ∧ FerryControls ∧ FerryTimeouts ∧ RemoteRequests ∧ RemoteAnswers

/-! ## Integrity -/

/-- R403, R405, R407, R412, R415: a class window closes; a write of ERR_SEVERE clears exactly the set bits, TRIP apart; ERR_CLEAR unfreezes
and zeroes; an injection, a source of the alive pin or a stop is armed. -/
def ErrorGroups : Prop :=
  ∀ (s : State),
    (∀ (b : Block) (kind : Fin 32), ∃ s', exec (.errClassWindowExpire b kind) s = .next s' ∧ s'.pending = s.pending
      ∧ s'.mod = ({ s.mod with errWin := s'.mod.errWin }).settle
      ∧ Map.get? s'.mod.errWin (winKey b.group kind.val) = none
      ∧ (∀ k, k ≠ winKey b.group kind.val → Map.get? s'.mod.errWin k = Map.get? s.mod.errWin k))
    ∧ (∀ (b : Block) (value : Word), (b ≠ Block.pwr ∨ s.mod.board.tripped = false) →
      ∃ s', exec (.errSevereClear b value) s = .next s' ∧ s'.pending = s.pending
        ∧ s'.mod = ({ s.mod with regs := s'.mod.regs, errWin := s'.mod.errWin }).settle
        ∧ RegsKept s.mod s'.mod [(.ERR_SEVERE, b.group, 0)]
        ∧ ∀ i, i < 32 → (s'.mod.reg .ERR_SEVERE b.group).getLsbD i
            = ((s.mod.reg .ERR_SEVERE b.group).getLsbD i && !value.getLsbD i))
    ∧ (∀ (value : Word), s.mod.board.tripped = true → (s.mod.reg .ERR_SEVERE Block.pwr.group).getLsbD Kind.PWR_TRIP.bit = true →
      ∃ s', exec (.errSevereClear Block.pwr value) s = .next s'
        ∧ (s'.mod.reg .ERR_SEVERE Block.pwr.group).getLsbD Kind.PWR_TRIP.bit = true)
    ∧ (∀ (b : Block) (value : Word), ∃ s', exec (.errClear b value) s = .next s'
      ∧ OnlyRegs s s' [(.ERR_FIRST_INFO0, b.group, 0), (.ERR_COUNT, b.group, 0)]
      ∧ s'.mod.flag Fld.ERR_FIRST_INFO0_VALID b.group = (s.mod.flag Fld.ERR_FIRST_INFO0_VALID b.group && !value.getLsbD 0)
      ∧ (value.getLsbD 1 = true → s'.mod.fld Fld.ERR_COUNT_COUNT b.group = 0
          ∧ s'.mod.flag Fld.ERR_COUNT_OVERFLOW b.group = false)
      ∧ (value.getLsbD 1 = false → s'.mod.reg .ERR_COUNT b.group = s.mod.reg .ERR_COUNT b.group))
    ∧ (∀ (b : Block) (value : Word),
      (∃ s', exec (.errInjectInv b value) s = .next s' ∧ OnlyRegs s s' [(.ERR_INJECT_INV, b.group, 0)]
        ∧ s'.mod.reg .ERR_INJECT_INV b.group = value.setWidth 64)
      ∧ (∃ s', exec (.errAliveStop b value) s = .next s' ∧ OnlyRegs s s' [(.ERR_ALIVE_STOP, b.group, 0)]
        ∧ s'.mod.reg .ERR_ALIVE_STOP b.group = value.setWidth 64))
    ∧ (∀ value : Bool, ∃ s', exec (.forceStop value) s = .next s' ∧ OnlyRegs s s' [(.ALV_CTL, 0, 0)]
      ∧ s'.mod.flag Fld.ALV_CTL_FORCE_STOP = value ∧ (value = true → s'.mod.pins.running = false))

/-- R11, R158, R401, R412, R421: the scrub finds pairs that disagree, and restores an assignment from Waymaster's record; twin execution is not
switched under a loaded route; the signature buffer pops and latches. -/
def ScrubsAndTwins : Prop :=
  ∀ (s : State),
    (s.mod.flag Fld.INT_CTL_SCRUB_EN = false → NoEffect .complementScrub s)
    ∧ (s.mod.flag Fld.INT_CTL_SCRUB_EN = true → (∀ p ∈ s.mod.waybills, p.2.live = false) →
      (∀ c, c < 100 → pairOk (s.mod.reg .FAB_CL_ASSIGN c) = true ∨ (s.mod.cl c).rewritten = false) →
      ∃ s', exec .complementScrub s = .next s' ∧ s'.pending = s.pending ∧ s'.mod.dram = s.mod.dram ∧ s'.mod.hold = s.mod.hold
        ∧ s'.mod.tiles = s.mod.tiles
        ∧ (∀ c, c < 100 → s'.mod.reg .FAB_CL_ASSIGN c
            = if pairOk (s.mod.reg .FAB_CL_ASSIGN c) then s.mod.reg .FAB_CL_ASSIGN c else (s.mod.cl c).assignRecord)
        ∧ ∀ t : Ten, t ≠ house → pairOk (s.mod.reg .XLT_TEN_ROOT t.val) = false →
            (s'.mod.reg .ERR_STATUS Block.xlt.group).getLsbD Kind.XLT_PAIR.bit = true)
    ∧ (∀ (ten : Ten) (value : Word),
      (ten = house → NoEffect (.intTwinWrite ten value) s)
      ∧ (ten ≠ house → s.mod.routesOf ten = [] →
        Yields (.intTwinWrite ten value) s (s.mod.setFlag Fld.INT_TWIN_EN ten.val 0 (value.getLsbD 0))
        ∧ ∃ s', exec (.intTwinWrite ten value) s = .next s' ∧ OnlyRegs s s' [(.INT_TWIN, ten.val, 0)]
          ∧ s'.mod.flag Fld.INT_TWIN_EN ten.val = value.getLsbD 0)
      ∧ (ten ≠ house → s.mod.routesOf ten ≠ [] →
        Yields (.intTwinWrite ten value) s (s.mod.raise Kind.INT_CONFIG ten.val ten.val)
        ∧ ∃ s', exec (.intTwinWrite ten value) s = .next s' ∧ Recorded s s' Kind.INT_CONFIG []))
    ∧ (∀ (value : Word), ∃ s', exec (.sigPop value) s = .next s' ∧ s'.pending = s.pending
      ∧ (let left := if value.getLsbD 31 then s.mod.sigs.tail else s.mod.sigs
         s'.mod.sigs = left ∧ s'.mod.fld Fld.INT_SIG_SEL_INDEX = value.toNat % 64
         ∧ (∀ b, left[value.toNat % 64]? = some b → ∀ i, i < 16 →
             (s'.mod.reg .INT_SIG_DATA i).toNat = fieldAt b (8 * i) 8)))

/-- R417 to R419: a pattern pack that is read and well-formed runs on its targets and ends OK with its counts; one of another version ends
UNSUPPORTED, one that is not well-formed CHECK. -/
def PatternPacks : Prop :=
  ∀ (s : State) (id : Nat) (c : Cmd), CmdReady s.mod id 0x50 c →
    (let m := (s.mod.begun id c).commitCmd id
     (∀ e m1, m.readVA .int 0 (c.field 8 8) (c.field 16 4) = (.error e, m1) → Yields (.patternRun id) s (m1.finishFail id e)
       ∧ Ends (.patternRun id) s id c e.status (fun m' => m'.tiles = s.mod.tiles))
     ∧ (∀ b m1, m.readVA .int 0 (c.field 8 8) (c.field 16 4) = (.ok b, m1) →
        (packVersion b = false → Yields (.patternRun id) s (m1.finish id st.unsupported)
          ∧ Ends (.patternRun id) s id c st.unsupported (fun m' => m'.tiles = s.mod.tiles))
        ∧ (packVersion b = true → packGood b = false → Yields (.patternRun id) s (m1.finish id st.check)
          ∧ Ends (.patternRun id) s id c st.check (fun m' => m'.tiles = s.mod.tiles))
        ∧ (packVersion b = true → packGood b = true →
          (∀ e m2, m1.mapped .int 0 (c.field 24 8) (128 * c.field 32 4) true = (.error e, m2) →
            Yields (.patternRun id) s (m2.finishFail id e))
          ∧ (∀ m2, m1.mapped .int 0 (c.field 24 8) (128 * c.field 32 4) true = (.ok (), m2) → ∀ ts : List Target,
            ts = (if c.field 22 2 = 0 then m2.targets (c.field 20 1) else (m2.targets (c.field 20 1)).take (c.field 22 2)) →
            (let (a, m3) := m2.runTargets (packPatterns b) (c.field 24 8) (c.field 32 4) (c.field 21 1 == 1) ⟨0, 0, 0⟩ ts
             let detail := a.tested % 2 ^ 32 * 2 ^ 32 + min 65535 a.failing * 2 ^ 16 + min 65535 a.written
             Yields (.patternRun id) s (m3.finish id st.ok detail)
             ∧ a.failing ≤ a.tested ∧ a.tested ≤ ts.length ∧ a.written ≤ c.field 32 4
             ∧ Ends (.patternRun id) s id c st.ok (fun m' => m'.nextSeq = s.mod.nextSeq))))))

/-- R401, R403, R405, R407, R412, R415, R417 to R419, R421: a window closes; a write of ERR_SEVERE clears exactly the set bits, TRIP
apart; ERR_CLEAR unfreezes and zeroes; an injection or a stop is armed; the scrub finds pairs that disagree; twin execution is
not switched under a loaded route; the signature buffer pops and latches; a pattern pack runs or is refused by its status.
Where these rules leave a point open it follows the model (log entries 135 to 142). -/
def Obligations.Integrity : Prop := ErrorGroups ∧ ScrubsAndTwins ∧ PatternPacks

/-! ## Checkpoints -/

/-- R431, R435: COPY to a buddy: checked, then armed for ONCE or PERIODIC; STOP disarms. -/
def BuddyCaptures : Prop :=
  ∀ (id : Nat) (c : Cmd) (s : State), CmdReady s.mod id 0x20 c →
    (let m := s.mod.begun id c
     let k := { c with phase := .started }
     let room := m.fld Fld.CKP_TEN_AREA_BYTES_SLOT_BYTES c.ten.val
     let armed := fun (cmd : Option Nat) (n period : Nat) (ss : List Shard) (m1 : Module) =>
       (⟨cmd, none, c.field 10 2, period, some (if BitVec.ofNat 64 (c.field 32 8) < m1.nextBoundary n then m1.nextBoundary n
         else BitVec.ofNat 64 (c.field 32 8)), ss, none⟩ : Capture)
     (2 < c.field 8 1 → Yields (.ckptBuddyOnce id) s (m.finish id st.check)
       ∧ Ends (.ckptBuddyOnce id) s id c st.check (fun m' => m'.captures = s.mod.captures))
     ∧ (c.field 8 1 = 0 →
       (∀ e m1, m.ckpCheck k room = (.error e, m1) → Yields (.ckptBuddyOnce id) s (m1.finishFail id e)
         ∧ Ends (.ckptBuddyOnce id) s id c e.status (fun m' => m'.captures = s.mod.captures))
       ∧ (∀ n ss m1, m.ckpCheck k room = (.ok (n, ss), m1) →
         ((m1.jobOf c.ten.val).isSome = true → Yields (.ckptBuddyOnce id) s (m1.armCapture k n (some id) none 0 ss)
           ∧ Completes (.ckptBuddyOnce id) s (fun m' => m'.capture c.ten = some (armed (some id) n 0 ss m1) ∧ m'.cmd id = some k))
         ∧ (m1.jobOf c.ten.val = none →
           Ends (.ckptBuddyOnce id) s id c st.isolation (fun m' => m'.captures = s.mod.captures))))
     ∧ (c.field 8 1 = 1 →
       (c.field 12 4 = 0 → Yields (.ckptBuddyPeriodic id) s (m.finish id st.check)
         ∧ Ends (.ckptBuddyPeriodic id) s id c st.check (fun m' => m'.captures = s.mod.captures))
       ∧ (c.field 12 4 ≠ 0 → ∀ n ss m1, m.ckpCheck k room = (.ok (n, ss), m1) → (m1.jobOf c.ten.val).isSome = true →
         Yields (.ckptBuddyPeriodic id) s ((m1.armCapture k n none none (c.field 12 4) ss).finish id st.ok)
         ∧ Ends (.ckptBuddyPeriodic id) s id c st.ok (fun m' => m'.capture c.ten = some (armed none n (c.field 12 4) ss m1))))
     ∧ (c.field 8 1 = 2 →
       ((∀ x, m.capture c.ten = some x → x.due = none) → Yields (.ckptBuddyStop id) s (m.finish id st.resource)
         ∧ Ends (.ckptBuddyStop id) s id c st.resource (fun m' => m'.captures = s.mod.captures))
       ∧ (∀ x, m.capture c.ten = some x → x.due.isSome = true →
         (let m1 := match x.cmd with
            | some k => m.finish k st.aborted
            | none => m
          Yields (.ckptBuddyStop id) s
            ((m1.setCapture c.ten { x with due := none, cmd := none, period := 0 }).finish id st.ok)
          ∧ Ends (.ckptBuddyStop id) s id c st.ok (fun m' => m'.capture c.ten =
              if x.sending.isNone then none else some { x with due := none, cmd := none, period := 0 })))))

/-- R436: a capture into a durable destination, which must be aligned and mapped. -/
def DurableCaptures : Prop :=
  ∀ (id : Nat) (c : Cmd) (s : State), CmdReady s.mod id 0x22 c →
    (let m := s.mod.begun id c
     let k := { c with phase := .started }
     (∀ e m1, m.ckpCheck k (c.field 48 8) = (.error e, m1) → Yields (.ckptDurable id) s (m1.finishFail id e)
       ∧ Ends (.ckptDurable id) s id c e.status (fun m' => m'.captures = s.mod.captures))
     ∧ (∀ n ss m1, m.ckpCheck k (c.field 48 8) = (.ok (n, ss), m1) →
       (c.field 40 8 % frameBytes ≠ 0 → Yields (.ckptDurable id) s (m1.finish id st.check)
         ∧ Ends (.ckptDurable id) s id c st.check (fun m' => m'.captures = s.mod.captures))
       ∧ (c.field 40 8 % frameBytes = 0 →
         (∀ e m2, m1.mapped .ckp c.ten.val (c.field 40 8) (shardBytes ss + frameBytes) true = (.error e, m2) →
           Ends (.ckptDurable id) s id c st.translation (fun m' => m'.captures = s.mod.captures))
         ∧ (∀ m2, m1.mapped .ckp c.ten.val (c.field 40 8) (shardBytes ss + frameBytes) true = (.ok (), m2) →
           Yields (.ckptDurable id) s (m2.armCapture k n (some id) (some (c.field 40 8)) 0 ss)
           ∧ Completes (.ckptDurable id) s (fun m' => m'.cmd id = some k ∧ ∃ x, m'.capture c.ten = some x
               ∧ x.cmd = some id ∧ x.dest = some (c.field 40 8) ∧ x.shards = ss ∧ x.period = 0 ∧ x.sending = none)))))

/-- R437 to R439: a restore needs its route at rest; it asks the holder for its two manifests, or reads a durable image. -/
def RestoreCommands : Prop :=
  ∀ (id : Nat) (c : Cmd) (s : State), CmdReady s.mod id 0x21 c →
    (let m := s.mod.begun id c
     (1 < c.field 8 1 → Yields (.ckptRestore id) s (m.finish id st.check)
       ∧ Ends (.ckptRestore id) s id c st.check (fun m' => m'.restores = s.mod.restores))
     ∧ (c.field 8 1 ≤ 1 → ((m.restore c.ten).isSome = true ∨ m.restorable c.ten (c.field 10 2) = none) →
       Yields (.ckptRestore id) s (m.finish id st.resource)
       ∧ Ends (.ckptRestore id) s id c st.resource (fun m' => m'.restores = s.mod.restores))
     ∧ (c.field 8 1 = 1 → m.restore c.ten = none → (m.restorable c.ten (c.field 10 2)).isSome = true →
       (let x : Restore := ⟨id, 2 ^ 13, BitVec.ofNat 64 (c.field 24 8), [], none, [], [], []⟩
        let m1 := ({ m with restores := Map.insert m.restores c.ten.val x } : Module).mirrorCkp c.ten
        Yields (.ckptRestore id) s (m1.readDurable c.ten (c.field 16 8))
        ∧ (∀ e m2, m1.readManifest c.ten (c.field 16 8) = (.error e, m2) →
          Ends (.ckptRestore id) s id c e.status (fun m' => m'.restore c.ten = none))))
     ∧ (c.field 8 1 = 0 → m.restore c.ten = none → (m.restorable c.ten (c.field 10 2)).isSome = true →
       (m.jobOf c.ten.val = none → Ends (.ckptRestore id) s id c st.isolation (fun m' => m'.restores = s.mod.restores))
       ∧ ((m.jobOf c.ten.val).isSome = true →
         (m.reaches c.ten (c.field 12 2) = false →
           Yields (.ckptRestore id) s ((m.raise Kind.CKP_BUDDY_LOST c.ten.val (c.field 12 2)).finish id st.busError)
           ∧ Ends (.ckptRestore id) s id c st.busError (fun m' => m'.restores = s.mod.restores))
         ∧ (m.reaches c.ten (c.field 12 2) = true →
           (let x : Restore := ⟨id, c.field 12 2, BitVec.ofNat 64 (c.field 24 8), [(false, 128, []), (true, 128, [])], none, [], [], []⟩
            let m1 := ({ m with restores := Map.insert m.restores c.ten.val x } : Module).mirrorCkp c.ten
            Yields (.ckptRestore id) s ((m1.askHolder c.ten (c.field 12 2) false shardManifest 0 0 128).askHolder c.ten
              (c.field 12 2) true shardManifest 0 0 128)
            ∧ Completes (.ckptRestore id) s (fun m' => m'.restore c.ten = some x
                ∧ m'.cmd id = some { c with phase := .started }))))))

/-- R432, R433, R435, R436: at the boundary of its step a capture reads its shards and writes its image or sends it to the buddy. -/
def CapturesTaken : Prop :=
  ∀ (ten : Ten) (s : State),
    (s.mod.capture ten = none → NoEffect (.captureHold ten) s)
    ∧ (∀ c, s.mod.capture ten = some c →
      (c.due = none → NoEffect (.captureHold ten) s)
      ∧ (∀ step n, c.due = some step → s.mod.routeById ten c.routeId = some n →
        ((c.sending.isSome = true ∨ s.mod.captureReady n step = false) → NoEffect (.captureHold ten) s)
        ∧ (c.sending = none → s.mod.captureReady n step = true →
          (let gen := (s.mod.reg .CKP_TEN_GEN ten.val).toNat + 1
           let next := if c.period = 0 then none else some (step + BitVec.ofNat 64 c.period)
           let m := s.mod.setReg .CKP_TEN_GEN ten.val 0 (BitVec.ofNat 64 gen)
           let taken : Capture := { c with due := next, cmd := none, sending := some ⟨BitVec.ofNat 64 gen, step,
             m.flag Fld.CKP_TEN_STATUS_NEXT_SLOT ten.val, m.shardFrames ten.val c.shards, c.cmd⟩ }
           let m1 := m.setCapture ten taken
           (∀ e m2, m1.readShards ten.val c.shards = (.error e, m2) →
             Yields (.captureHold ten) s (m2.captureFail ten e.status false)
             ∧ (∀ id k, c.cmd = some id → s.mod.cmd id = some k → c.period = 0 →
               Ends (.captureHold ten) s id k e.status (fun m' => m'.capture ten = none)))
           ∧ (∀ datas m2, m1.readShards ten.val c.shards = (.ok datas, m2) →
             (∀ va id m3, c.dest = some va → c.cmd = some id →
               (m2.commitCmd id).writeImage ten va datas (m2.manifest ten c gen step datas) = (.ok (), m3) →
               Yields (.captureHold ten) s ((m3.finish id st.ok).dropCapture ten)
               ∧ (∀ k, s.mod.cmd id = some k → Ends (.captureHold ten) s id k st.ok (fun m' => m'.capture ten = none
                   ∧ m'.reg .CKP_TEN_GEN ten.val = BitVec.ofNat 64 gen ∧ m'.dram = m3.dram)))
             ∧ (∀ b id, c.dest = none → c.cmd = some id → m2.buddy ten = some b → m2.maySend ten.val = true →
               m2.reaches ten b = true →
               Completes (.captureHold ten) s (fun m' => m'.capture ten = some taken
                 ∧ m'.reg .CKP_TEN_GEN ten.val = BitVec.ofNat 64 gen
                 ∧ ∀ k, s.mod.cmd id = some k → m'.cmd id = some { k with phase := .committed })))))))

/-- R438: a restore whose every shard has arrived and verifies is installed at once, and its command ends OK. -/
def RestoresInstalled : Prop :=
  ∀ (ten : Ten) (s : State),
    (s.mod.restore ten = none → NoEffect (.restoreInstall ten) s)
    ∧ (∀ x, s.mod.restore ten = some x → x.chosen = none → NoEffect (.restoreInstall ten) s)
    ∧ (∀ x slot man, s.mod.restore ten = some x → x.chosen = some (slot, man) →
      (let sizes := mf.sizes man
       ((∃ i, i < sizes.length ∧ (x.data i).length < sizes.getD i 0) → NoEffect (.restoreInstall ten) s)
       ∧ ((∀ i, i < sizes.length → sizes.getD i 0 ≤ (x.data i).length ∧ sha256 (x.data i) = (mf.entry man i).drop 16) →
         ∀ n ss c, s.mod.cmd x.cmd = some c → s.mod.restorable ten (c.field 10 2) = some n → mf.list man = some ss →
         Ends (.restoreInstall ten) s x.cmd c st.ok (fun m' => Map.get? m'.restores ten.val = none
           ∧ (m'.reg .CKP_TEN_GEN ten.val).toNat = mf.gen man))))

/-- R431 to R439: a capture command passes its checks, is armed, and waits for its boundary; STOP disarms; a capture reads its shards
at the boundary and writes its image or sends it; a restore asks the holder or reads the durable image, and installs once every
shard verifies.
Where these rules leave a point open it follows the model (log entries 107 to 112). -/
def Obligations.CheckpointCommands : Prop :=
  BuddyCaptures ∧ DurableCaptures ∧ RestoreCommands ∧ CapturesTaken ∧ RestoresInstalled

/-- R428 to R430: CHECKPOINT data are taken from the buddy alone, into the slot that they name. -/
def SlotData : Prop :=
  ∀ (k : Packet) (e : Ten × Packet) (s : State), k.kind = 4 →
    s.mod.inbox.find? (fun (e : Ten × Packet) => e.2 == k && k.kind.toNat == 4) = some e →
    (let m : Module := { s.mod with inbox := s.mod.inbox.erase e }
     let t := e.1
     let slot := cp.slot k
     let area := s.mod.fld Fld.CKP_TEN_AREA_BYTES_SLOT_BYTES t.val
     let n := k.payload.length
     let discarded := fun (m' : Module) => m'.inbox = s.mod.inbox.erase e ∧ m'.dram = s.mod.dram ∧ m'.held = s.mod.held
       ∧ RegsKept s.mod m' [(.CKP_TEN_DISCARDS, t.val, 0)]
     ((s.mod.fromBuddy t k = false ∨ 1 < slot) →
       (cp.op k = 0 → Yields (.shardData k) s (m.ckpDiscard t) ∧ Completes (.shardData k) s discarded)
       ∧ (cp.op k = 1 → Yields (.manifest k) s (m.ckpDiscard t) ∧ Completes (.manifest k) s discarded)
       ∧ (cp.op k = 3 → Yields (.readReq k) s (m.ckpDiscard t) ∧ Completes (.readReq k) s discarded))
     ∧ (s.mod.fromBuddy t k = true → slot ≤ 1 →
       (cp.op k = 0 →
         (let head := cp.shard k = shardManifest
          let sizes := if head then [] else (Map.get? m.held (heldKey t slot)).getD []
          let i := cp.shard k
          let base := if head then 0 else shardOffset sizes i
          let stop := base + cp.offset k + n
          let fits := n ≤ 4096 ∧ stop ≤ area ∧ (head → stop ≤ frameBytes) ∧ (¬ head → i ≤ sizes.length)
          (¬ fits → Yields (.shardData k) s (m.ckpDiscard t) ∧ Completes (.shardData k) s discarded)
          ∧ (fits →
            (let held := if head then [] else sizes.take i ++ [max (sizes.getD i 0) (cp.offset k + n)] ++ sizes.drop (i + 1)
             let m1 : Module := { m with held := Map.insert m.held (heldKey t slot) held }
             (∀ m2, m1.writeVA .ckp t.val (m1.slotVA t slot + base + cp.offset k) k.payload = (.ok (), m2) →
               Yields (.shardData k) s m2
               ∧ Completes (.shardData k) s (fun m' => m'.dram = m2.dram ∧ Map.get? m'.held (heldKey t slot) = some held
                   ∧ m'.inbox = s.mod.inbox.erase e))
             ∧ (∀ x m2, m1.writeVA .ckp t.val (m1.slotVA t slot + base + cp.offset k) k.payload = (.error x, m2) →
               Yields (.shardData k) s (m2.ckpAnswer t k 5 []))))))
       ∧ (cp.op k = 1 → (4096 < n ∨ area < cp.offset k + n ∨ frameBytes < cp.offset k + n) →
         Yields (.manifest k) s (m.ckpDiscard t) ∧ Completes (.manifest k) s discarded)
       ∧ (cp.op k = 1 → n ≤ 4096 → cp.offset k + n ≤ area → cp.offset k + n ≤ frameBytes →
         ∀ m1, m.writeVA .ckp t.val (m.slotVA t slot + cp.offset k) k.payload = (.ok (), m1) →
         ∀ h m2, m1.readVA .ckp t.val (m1.slotVA t slot) 128 = (.ok h, m2) →
         (mf.known h = true → cp.offset k + n < mf.size h → Yields (.manifest k) s m2
           ∧ Completes (.manifest k) s (fun m' => m'.dram = m2.dram ∧ m'.inbox = s.mod.inbox.erase e))
         ∧ ((mf.known h = false ∨ mf.size h ≤ cp.offset k + n) →
           (∀ m3, m2.slotValid t slot = (none, m3) → Yields (.manifest k) s (m3.ckpAnswer t k 5 []))
           ∧ (∀ man m3, m2.slotValid t slot = (some man, m3) →
             Yields (.manifest k) s ((((m3.setReg .CKP_TEN_HELD_GEN t.val 0 (BitVec.ofNat 64 (mf.gen man))).setReg
               .CKP_TEN_HELD_STEP t.val 0 (BitVec.ofNat 64 (mf.step man))).setReg .CKP_TEN_HELD_MODULE t.val 0
               (BitVec.ofNat 64 (2 ^ 31 + mf.module man))).ckpAnswer t k 2 [])
             ∧ Completes (.manifest k) s (fun m' => (m'.reg .CKP_TEN_HELD_GEN t.val).toNat = mf.gen man
                 ∧ (m'.reg .CKP_TEN_HELD_STEP t.val).toNat = mf.step man
                 ∧ m'.reg .CKP_TEN_HELD_MODULE t.val = BitVec.ofNat 64 (2 ^ 31 + mf.module man)))))
       ∧ (cp.op k = 3 → cp.shard k = shardManifest → cp.offset k + min 4096 (fieldAt k.payload 0 4) ≤ frameBytes →
         cp.offset k + min 4096 (fieldAt k.payload 0 4) ≤ area →
         ∀ man m1, m.readManifest t (m.slotVA t slot) = (.ok man, m1) → m1.fld Fld.CKP_TEN_AREA_BYTES_SLOT_BYTES t.val = area →
         ∀ b m2, m1.readVA .ckp t.val (m1.slotVA t slot + 0 + cp.offset k) (min 4096 (fieldAt k.payload 0 4)) = (.ok b, m2) →
         Yields (.readReq k) s (m2.ckpAnswer t k 4 b)
         ∧ Completes (.readReq k) s (fun m' => m'.dram = m2.dram ∧ m'.held = m2.held ∧ m'.restores = m2.restores))))

/-- R437, R438: data that answer a restore are those of its holder, for the manifest that it chose. -/
def RestoreData : Prop :=
  ∀ (k : Packet) (e : Ten × Packet) (s : State), k.kind = 4 → cp.op k = 4 →
    s.mod.inbox.find? (fun (e : Ten × Packet) => e.2 == k && k.kind.toNat == 4) = some e →
    (let m : Module := { s.mod with inbox := s.mod.inbox.erase e }
     let t := e.1
     (s.mod.restore t = none → Yields (.readData k) s (m.ckpDiscard t)
       ∧ Completes (.readData k) s (fun m' => m'.inbox = s.mod.inbox.erase e ∧ m'.restores = s.mod.restores))
     ∧ (∀ x, s.mod.restore t = some x →
       (x.holder ≠ k.src.toNat → Yields (.readData k) s (m.ckpDiscard t)
         ∧ Completes (.readData k) s (fun m' => m'.inbox = s.mod.inbox.erase e ∧ m'.restores = s.mod.restores))
       ∧ (x.holder = k.src.toNat → cp.shard k ≠ shardManifest → ∀ slot man, x.chosen = some (slot, man) →
         (cp.slot k == 1) = slot → cp.gen k = mf.gen man % 2 ^ 32 →
         (let y := { x with parts := x.parts ++ [(cp.shard k, cp.offset k, k.payload)] }
          Yields (.readData k) s { m with restores := Map.insert m.restores t.val y }
          ∧ Completes (.readData k) s (fun m' => m'.restore t = some y ∧ m'.inbox = s.mod.inbox.erase e)))
       ∧ (x.holder = k.src.toNat → cp.shard k = shardManifest → x.chosen = none →
         Yields (.readData k) s (m.headData t x k))))

/-- R433, R434, R444: an acknowledgement ends the capture that it names, and the next goes to the other slot; a refusal or a time-out fails
it. -/
def CaptureAnswers : Prop :=
  ∀ (ten : Ten) (s : State),
    (s.mod.ckpWaiting ten 2 = none → NoEffect (.ckpAck ten) s) ∧ (s.mod.ckpWaiting ten 5 = none → NoEffect (.ckpNak ten) s)
    ∧ (∀ k c x, s.mod.ckpWaiting ten 2 = some k →
      s.mod.inbox.find? (fun (e : Ten × Packet) => e.2 == k && k.kind.toNat == 4) = some (ten, k) →
      s.mod.fromBuddy ten k = true → cp.slot k ≤ 1 →
      s.mod.capture ten = some c → c.sending = some x → x.gen.toNat % 2 ^ 32 = cp.gen k → x.cmd = none →
      ∃ s', exec (.ckpAck ten) s = .next s' ∧ s'.pending = s.pending ∧ s'.mod.inbox = s.mod.inbox.erase (ten, k)
        ∧ s'.mod.reg .CKP_TEN_SENT_GEN ten.val = x.gen ∧ s'.mod.reg .CKP_TEN_SENT_STEP ten.val = x.step
        ∧ s'.mod.flag Fld.CKP_TEN_STATUS_NEXT_SLOT ten.val = !x.slot
        ∧ s'.mod.capture ten = (if c.due = none then none else some { c with sending := none }))
    ∧ (∀ k c x, s.mod.ckpWaiting ten 5 = some k → s.mod.fromBuddy ten k = true →
      s.mod.inbox.find? (fun (e : Ten × Packet) => e.2 == k && k.kind.toNat == 4) = some (ten, k) →
      s.mod.capture ten = some c → c.sending = some x → x.gen.toNat % 2 ^ 32 = cp.gen k →
      Yields (.ckpNak ten) s (({ s.mod with inbox := s.mod.inbox.erase (ten, k) } : Module).captureFail ten st.busError false)
      ∧ (∀ id y, x.cmd = some id → s.mod.cmd id = some y → c.period = 0 →
        Ends (.ckpNak ten) s id y st.busError (fun m' => m'.capture ten = none)))
    ∧ (s.mod.fld Fld.CKP_TIMEOUT_US ≠ 0 → ∀ c x, s.mod.capture ten = some c → c.sending = some x →
      Yields (.ckpTimeoutExpire ten) s (s.mod.captureFail ten st.busError false)
      ∧ (∀ id y, x.cmd = some id → s.mod.cmd id = some y → c.period = 0 →
        Ends (.ckpTimeoutExpire ten) s id y st.busError (fun m' => m'.capture ten = none)))
    ∧ (s.mod.fld Fld.CKP_TIMEOUT_US = 0 → NoEffect (.ckpTimeoutExpire ten) s)

/-- R428 to R430, R433, R434, R437, R438, R444: CHECKPOINT packets are taken from the buddy alone; shard data and a manifest go to the slot, a
valid manifest is acknowledged and sets the held values; an acknowledgement ends the capture; a read is served from the area; a
refusal or a time-out fails the capture.
Where these rules leave a point open it follows the model (log entries 108 and 113). -/
def Obligations.CheckpointTraffic : Prop := SlotData ∧ RestoreData ∧ CaptureAnswers

/-! ## Clocks, power and the calendar -/

/-- R452, R453, R469, R470, R473: the monitor counts windows and qualifies or fails the crystal; the clock event; a PLL that unlocks. -/
def CrystalMonitor : Prop :=
  ∀ (s : State),
    (∀ count : BitVec 16,
      (s.mod.monitorRuns = false → NoEffect (.clockMonitorWindow count) s)
      ∧ (s.mod.monitorRuns = true → s.mod.board.boot ≠ 3 → 1004 ≤ count.toNat → count.toNat ≤ 1044 →
        ∃ s', exec (.clockMonitorWindow count) s = .next s' ∧ s'.pending = s.pending
          ∧ RegsKept s.mod s'.mod [(.CLK_MON, 0, 0), (.CLK_STATUS, 0, 0)]
          ∧ s'.mod.fld Fld.CLK_MON_COUNT = count.toNat
          ∧ s'.mod.board = { s.mod.board with badRun := 0 }
          ∧ (s.mod.fld Fld.CLK_MON_GOOD_RUN = 15 → s'.mod.flag Fld.CLK_STATUS_CRYSTAL_OK = true))
      ∧ (s.mod.monitorRuns = true → s.mod.board.boot ≠ 3 → (count.toNat < 973 ∨ 1075 < count.toNat) →
        (let m := (s.mod.reportClock.setFld Fld.CLK_MON_COUNT 0 0 (min 2047 count.toNat)).setFld Fld.CLK_MON_GOOD_RUN 0 0 0
         (s.mod.board.badRun = 0 → Completes (.clockMonitorWindow count) s (fun m' => m'.board = { s.mod.board with badRun := 1 }
           ∧ m'.fld Fld.CLK_MON_GOOD_RUN = 0 ∧ m'.fld Fld.CLK_MON_COUNT = min 2047 count.toNat
           ∧ m'.flag Fld.CLK_STATUS_CRYSTAL_OK = s.mod.flag Fld.CLK_STATUS_CRYSTAL_OK))
         ∧ (s.mod.board.badRun = 1 →
           (let m : Module := { m with board := { m.board with badRun := 2 } }
            let m := (m.setFlag Fld.CLK_STATUS_CRYSTAL_OK 0 0 false).raise Kind.CLK_CRYSTAL_FAIL 0 0
            Yields (.clockMonitorWindow count) s (if m.board.internalRef then m else m.clockEvent)
            ∧ Completes (.clockMonitorWindow count) s (fun m' => m'.flag Fld.CLK_STATUS_CRYSTAL_OK = false
                ∧ m'.board.internalRef = true)))))
      ∧ (s.mod.board.boot = 3 → 1004 ≤ count.toNat → count.toNat ≤ 1044 → s.mod.fld Fld.CLK_MON_GOOD_RUN = 15 →
        ∃ s', exec (.clockMonitorWindow count) s = .next s' ∧ s'.mod.board.boot = 4 ∧ s'.mod.board.internalRef = false
          ∧ s'.mod.flag Fld.CLK_STATUS_SOURCE = false ∧ s'.mod.flag Fld.CLK_STATUS_PLL_LOCK = true))
    ∧ ((s.mod.board.boot ≠ 3 ∨ s.mod.board.windows < 64) → NoEffect .crystalQualifyTimeout s)
    ∧ (s.mod.board.boot = 3 → 64 ≤ s.mod.board.windows → ∃ s', exec .crystalQualifyTimeout s = .next s' ∧ s'.pending = s.pending
      ∧ s'.mod.board.boot = 4 ∧ s'.mod.flag Fld.CLK_STATUS_SOURCE = true ∧ s'.mod.board.internalRef = true
      ∧ (s'.mod.reg .ERR_STATUS Block.clk.group).getLsbD Kind.CLK_CRYSTAL_FAIL.bit = true)
    ∧ (4 ≤ s.mod.board.boot → Yields .pllUnlock s (s.mod.raise Kind.CLK_PLL_UNLOCK 0 0).clockEvent
      ∧ Completes .pllUnlock s (fun m' => m'.flag Fld.HIF_NMI_STATUS_CLOCK = true ∧ m'.flag Fld.CLK_STATUS_SOURCE = true
          ∧ (m'.reg .ERR_STATUS Block.clk.group).getLsbD Kind.CLK_PLL_UNLOCK.bit = true
          ∧ (s.mod.flag Fld.CLK_CTL_FAIL_POLICY = true → m'.flag Fld.CLK_STATUS_HELD = true)))
    ∧ (s.mod.board.boot < 4 → NoEffect .pllUnlock s)
    ∧ (∀ m : Module, m.flag Fld.CLK_CTL_FAIL_POLICY = false →
      m.clockEvent = ((m.setFlag Fld.HIF_NMI_STATUS_CLOCK 0 0 true).send (.msix 0 2047)).selectRef true)

/-- R455, R456: HOLD is left on the crystal where it is good, else on the internal oscillator; RESELECT goes back to a good crystal. -/
def HoldAndReselect : Prop :=
  ∀ (s : State),
    (s.mod.flag Fld.CLK_STATUS_HELD = false → NoEffect .holdExit s)
    ∧ (s.mod.flag Fld.CLK_STATUS_HELD = true → Yields .holdExit s s.mod.leaveHold
      ∧ Completes .holdExit s (fun m' => m'.flag Fld.CLK_STATUS_HELD = false ∧ m'.aliveHold = false
          ∧ m'.board.internalRef = !s.mod.flag Fld.CLK_STATUS_CRYSTAL_OK
          ∧ m'.flag Fld.CLK_STATUS_SOURCE = !s.mod.flag Fld.CLK_STATUS_CRYSTAL_OK))
    ∧ (s.mod.flag Fld.CLK_STATUS_HELD = true → (∀ t, s.mod.exists? t = false) →
      (∀ p, p < 6 → s.mod.portStateOf p ≠ portState.held) →
      Yields .holdExit s (({ s.mod.selectRef (!s.mod.flag Fld.CLK_STATUS_CRYSTAL_OK) with
        aliveHold := false } : Module).setFlag Fld.CLK_STATUS_HELD 0 0 false))
    ∧ (s.mod.flag Fld.CLK_STATUS_HELD = true → NoEffect .reselect s)
    ∧ (s.mod.flag Fld.CLK_STATUS_HELD = false →
      (s.mod.flag Fld.CLK_STATUS_CRYSTAL_OK = true → Yields .reselect s (s.mod.selectRef false)
        ∧ Completes .reselect s (fun m' => m'.flag Fld.CLK_STATUS_SOURCE = false ∧ m'.board.internalRef = false
            ∧ RegsKept s.mod m' [(.CLK_STATUS, 0, 0)]))
      ∧ (s.mod.flag Fld.CLK_STATUS_CRYSTAL_OK = false → Yields .reselect s (s.mod.raise Kind.CLK_RESELECT_REFUSED 0 0)
        ∧ ∃ s', exec .reselect s = .next s' ∧ Recorded s s' Kind.CLK_RESELECT_REFUSED []))

/-- R457 to R459, R472: the tile clock step is chosen from power and temperature, a step slower where either is too high; a trip gates
the dies. -/
def TileSteps : Prop :=
  ∀ (s : State),
    (∀ (watts : BitVec 16) (hottest : BitVec 8),
      (let m := (s.mod.setFld Fld.PWR_STATUS_INPUT_W 0 0 watts.toNat).setFld Fld.PWR_THERMAL_HOTTEST_C 0 0 hottest.toNat
       let power := decide (min 1700 (s.mod.fld Fld.PWR_CAP_WATTS) < watts.toNat)
       let hot := decide (min 100 (s.mod.fld Fld.PWR_THERMAL_THROTTLE_C) < hottest.toNat)
       ((s.mod.clocked = false ∨ s.mod.board.boot ≠ 6) → Yields (.tileStepEval watts hottest) s m
         ∧ Completes (.tileStepEval watts hottest) s (fun m' => m'.fld Fld.PWR_STATUS_INPUT_W = watts.toNat
             ∧ m'.fld Fld.PWR_THERMAL_HOTTEST_C = hottest.toNat
             ∧ RegsKept s.mod m' [(.PWR_STATUS, 0, 0), (.PWR_THERMAL, 0, 0)]))
       ∧ (s.mod.clocked = true → s.mod.board.boot = 6 → (power || hot) = true → s.mod.fld Fld.PWR_STATUS_STATE = 0 →
         Yields (.tileStepEval watts hottest) s
           (({ m with board := { m.board with cool := 0 } } : Module).stepSlower power hot)
         ∧ Completes (.tileStepEval watts hottest) s (fun m' =>
             m'.fld Fld.CLK_STATUS_TILE_STEP = max (s.mod.fld Fld.CLK_STATUS_TILE_STEP) (min 3 (s.mod.fld Fld.CLK_STATUS_TILE_STEP + 1))
             ∧ m'.fld Fld.PWR_STATUS_LIMIT = if power then 1 else 2))
       ∧ (s.mod.clocked = true → s.mod.board.boot = 6 → (power || hot) = true → s.mod.fld Fld.PWR_STATUS_STATE ≠ 0 →
         Yields (.tileStepEval watts hottest) s
           { m with board := { m.board with cool := 0, stepDown := some (power, hot) } })
       ∧ (s.mod.clocked = true → s.mod.board.boot = 6 → (power || hot) = false →
         s.mod.fld Fld.CLK_STATUS_TILE_STEP < s.mod.fld Fld.PWR_CTL_TILE_STEP_MAX →
         Completes (.tileStepEval watts hottest) s (fun m' =>
           m'.fld Fld.CLK_STATUS_TILE_STEP = s.mod.fld Fld.CLK_STATUS_TILE_STEP + 1))))
    ∧ (∀ (m : Module) (power hot : Bool), m.fld Fld.CLK_STATUS_TILE_STEP < 3 → (power || hot) = true →
      (m.stepSlower power hot).fld Fld.CLK_STATUS_TILE_STEP = m.fld Fld.CLK_STATUS_TILE_STEP + 1
      ∧ (m.stepSlower power hot).fld Fld.PWR_STATUS_LIMIT = if power then 1 else 2)
    ∧ Yields .thermalTrip s (({ s.mod with board := { s.mod.board with tripped := true } } : Module).raise Kind.PWR_TRIP 0 0)
    ∧ Completes .thermalTrip s (fun m' => m'.board.tripped = true ∧ m'.clocked = false
        ∧ (m'.reg .ERR_STATUS Block.pwr.group).getLsbD Kind.PWR_TRIP.bit = true)

/-- R460 to R465, R472: the dwell's end starts the entry that L permits; an entry done reaches its state, which is counted; a wake
reverses an entry or starts an exit; an exit done is S0. -/
def PowerStates : Prop :=
  ∀ (s : State),
    (s.mod.fabricIdle = true → s.mod.clocked = true → s.mod.board.boot = 6 →
      Yields .idleDwellExpire s (s.mod.checkTols.towards s.mod.chooseState)
      ∧ (s.mod.busyTens = [] → s.mod.board.target = none → s.mod.board.leaving = false →
        (s.mod.fld Fld.PWR_STATUS_STATE < s.mod.chooseState →
          Completes .idleDwellExpire s (fun m' => m'.board = { s.mod.board with target := some s.mod.chooseState }
            ∧ m'.flag Fld.PWR_STATUS_ENTERING = true ∧ RegsKept s.mod m' [(.PWR_STATUS, 0, 0)]))
        ∧ (s.mod.fld Fld.PWR_STATUS_STATE = s.mod.chooseState → NoEffect .idleDwellExpire s)))
    ∧ (s.mod.fabricIdle = false → NoEffect .idleDwellExpire s)
    ∧ s.mod.chooseState ≤ 4 ∧ exitLatency s.mod.chooseState ≤ max s.mod.latTol 2
    ∧ (s.mod.board.target = none → NoEffect .powerStateEntryDone s)
    ∧ (s.mod.board.target = some 1 → s.mod.clocked = true → s.mod.fld Fld.PWR_STATUS_STATE = 0 →
      Yields .powerStateEntryDone s (({ s.mod with board := { s.mod.board with target := none } } : Module).stateChanged 1)
      ∧ Completes .powerStateEntryDone s (fun m' => m'.fld Fld.PWR_STATUS_STATE = 1 ∧ m'.flag Fld.PWR_STATUS_ENTERING = false
          ∧ m'.board.target = none ∧ m'.tiles = s.mod.tiles))
    ∧ (∀ m : Module, m.fld Fld.PWR_ENTRIES_COUNT < 2 ^ 64 - 1 → ∀ k, k ≤ 4 →
      (m.stateChanged k).fld Fld.PWR_STATUS_STATE = k ∧ (m.stateChanged k).flag Fld.PWR_STATUS_ENTERING = false
      ∧ (m.stateChanged k).fld Fld.PWR_ENTRIES_COUNT = m.fld Fld.PWR_ENTRIES_COUNT + 1)
    ∧ (∀ c ∈ [Instr.wakeEvent, Instr.forceS0],
      (s.mod.clocked = false → NoEffect c s)
      ∧ (s.mod.clocked = true → s.mod.fld Fld.PWR_STATUS_STATE = 0 →
        (s.mod.board.target = none → NoEffect c s)
        ∧ (s.mod.board.target.isSome = true → Completes c s (fun m' => m'.board = { s.mod.board with target := none }
            ∧ m'.flag Fld.PWR_STATUS_ENTERING = false ∧ RegsKept s.mod m' [(.PWR_STATUS, 0, 0)])))
      ∧ (s.mod.clocked = true → s.mod.fld Fld.PWR_STATUS_STATE ≠ 0 → s.mod.board.target = none → s.mod.board.leaving = false →
        Completes c s (fun m' => m'.board = { s.mod.board with leaving := true }
          ∧ m'.flag Fld.PWR_STATUS_ENTERING = true ∧ RegsKept s.mod m' [(.PWR_STATUS, 0, 0)])))
    ∧ ((s.mod.board.leaving = false ∨ s.mod.clocked = false) → NoEffect .powerStateExitDone s)
    ∧ (s.mod.board.leaving = true → s.mod.clocked = true → s.mod.side.writes = [] →
      Yields .powerStateExitDone s s.mod.exitState
      ∧ Completes .powerStateExitDone s (fun m' => m'.fld Fld.PWR_STATUS_STATE = 0 ∧ m'.flag Fld.PWR_STATUS_ENTERING = false
          ∧ m'.board.leaving = false ∧ m'.board.target = none))

/-- R466 to R468: a tick adds one to RTC_FRAC and carries into RTC_SECONDS; LOAD takes effect at the next tick; a lost oscillator is
recorded. -/
def CalendarTime : Prop :=
  ∀ (s : State),
    Yields .rtcLoad s { s.mod with board := { s.mod.board with rtcLoad := true } }
    ∧ Completes .rtcLoad s (fun m' => m'.board = { s.mod.board with rtcLoad := true } ∧ m'.regs = s.mod.regs)
    ∧ (s.mod.board.rtcLoad = false → s.mod.flag Fld.RTC_STATUS_OSC_FAIL = false → ∃ s', exec .rtcTick s = .next s'
      ∧ OnlyRegs s s' [(.RTC_FRAC, 0, 0), (.RTC_SECONDS, 0, 0)]
      ∧ (s.mod.fld Fld.RTC_FRAC_FRAC < 32767 → s'.mod.fld Fld.RTC_FRAC_FRAC = s.mod.fld Fld.RTC_FRAC_FRAC + 1
          ∧ s'.mod.reg .RTC_SECONDS = s.mod.reg .RTC_SECONDS)
      ∧ (s.mod.fld Fld.RTC_FRAC_FRAC = 32767 → s'.mod.fld Fld.RTC_FRAC_FRAC = 0
          ∧ s'.mod.fld Fld.RTC_SECONDS_SECONDS = (s.mod.fld Fld.RTC_SECONDS_SECONDS + 1) % 2 ^ Fld.RTC_SECONDS_SECONDS.width))
    ∧ (s.mod.board.rtcLoad = false → s.mod.flag Fld.RTC_STATUS_OSC_FAIL = true → s.mod.fld Fld.RTC_FRAC_FRAC < 32767 →
      Completes .rtcTick s (fun m' => m'.fld Fld.RTC_FRAC_FRAC = s.mod.fld Fld.RTC_FRAC_FRAC + 1
        ∧ RegsKept s.mod m' [(.RTC_FRAC, 0, 0), (.RTC_STATUS, 0, 0)]))
    ∧ (s.mod.board.rtcLoad = true → s.mod.flag Fld.RTC_STATUS_OSC_FAIL = false → ∃ s', exec .rtcTick s = .next s'
      ∧ s'.mod.fld Fld.RTC_SECONDS_SECONDS = s.mod.fld Fld.RTC_SET_SECONDS_SECONDS
      ∧ (s.mod.ledgers = [] → s'.mod.fld Fld.RTC_FRAC_FRAC = s.mod.fld Fld.RTC_SET_FRAC_FRAC)
      ∧ s'.mod.flag Fld.RTC_STATUS_VALID = true ∧ s'.mod.board.rtcLoad = false)
    ∧ Yields .rtcOscFail s ((s.mod.setFlag Fld.RTC_STATUS_OSC_FAIL 0 0 true).raise Kind.RTC_OSC_FAIL 0 0)
    ∧ Completes .rtcOscFail s (fun m' => m'.flag Fld.RTC_STATUS_OSC_FAIL = true
        ∧ (m'.reg .ERR_STATUS Block.rtc.group).getLsbD Kind.RTC_OSC_FAIL.bit = true)

/-- R452 to R468, R470, R472, R473: the clock, power-state and calendar commands.
Where these rules leave a point open it follows the model (log entries 143 to 151). -/
def Obligations.ClocksAndPower : Prop := CrystalMonitor ∧ HoldAndReselect ∧ TileSteps ∧ PowerStates ∧ CalendarTime

/-! ## Start-up and resets -/

/-- R469, R470, R489: power-on is the P reset; the start-up steps follow in order, each on its own command; a rail that fails ends
start-up, and after it is severe; a round of training retries, maps out or fails. -/
def StartUpSteps : Prop :=
  ∀ (s : State),
    (s.mod.board.boot = 0 → Yields .powerOn s s.mod.pReset) ∧ (s.mod.board.boot ≠ 0 → NoEffect .powerOn s)
    ∧ (s.mod.board.boot = 0 → s.mod.board.calendarLost = false → ∃ s', exec .powerOn s = .next s'
      ∧ s'.mod.board.boot = 1 ∧ s'.mod.dram = [] ∧ s'.mod.hold = [] ∧ s'.mod.tiles = [] ∧ s'.mod.routes = [] ∧ s'.mod.rings = []
      ∧ s'.mod.fld Fld.RTC_SECONDS_SECONDS = s.mod.fld Fld.RTC_SECONDS_SECONDS
      ∧ s'.mod.fld Fld.RTC_FRAC_FRAC = s.mod.fld Fld.RTC_FRAC_FRAC
      ∧ (∀ r i j, i < 2 ^ 24 → j < 2 ^ 16 → r ∉ [RegId.RTC_SECONDS, RegId.RTC_FRAC, RegId.RTC_STATUS, RegId.GLB_STATUS] →
          s'.mod.reg r i j = r.resetValue i))
    ∧ (s.mod.board.boot ≠ 1 → NoEffect .trimsLoaded s)
    ∧ (s.mod.board.boot = 1 → s.mod.board.eepromBad = false →
      Yields .trimsLoaded s { s.mod with board := { s.mod.board with boot := 2 } }
      ∧ Completes .trimsLoaded s (fun m' => m'.board.boot = 2 ∧ m'.regs = s.mod.regs))
    ∧ (s.mod.board.boot = 1 → s.mod.board.eepromBad = true → ∃ s', exec .trimsLoaded s = .next s' ∧ s'.mod.board.boot = 2
      ∧ (s'.mod.reg .ERR_STATUS Block.glb.group).getLsbD Kind.GLB_EEPROM.bit = true)
    ∧ (s.mod.board.boot ≠ 2 → NoEffect .railsRegulated s)
    ∧ (s.mod.board.boot = 2 → ∃ s', exec .railsRegulated s = .next s' ∧ OnlyRegs { s with mod := { s.mod with board := s'.mod.board } } s'
        [(.GLB_STATUS, 0, 0)]
      ∧ (s.mod.board.railBad = true → s'.mod.board.boot = 7 ∧ s'.mod.fld Fld.GLB_STATUS_PHASE = 7)
      ∧ (s.mod.board.railBad = false → s'.mod.board.boot = 3 ∧ s'.mod.fld Fld.GLB_STATUS_PHASE = 1))
    ∧ ((s.mod.board.boot ≠ 4 ∨ s.mod.clocked = false ∨ s.mod.board.resetLow = true) → ∀ f, NoEffect (.dramTrainingDone f) s)
    ∧ (s.mod.board.boot = 4 → s.mod.clocked = true → s.mod.board.resetLow = false → ∀ c : Fin 384, Map.get 0 s.mod.board.retries c.val < 2 →
      Yields (.dramTrainingDone [c]) s { s.mod with board := { s.mod.board with retries := failRound s.mod.board.retries c.val } }
      ∧ Completes (.dramTrainingDone [c]) s (fun m' => m'.board.boot = 4
          ∧ Map.get 0 m'.board.retries c.val = Map.get 0 s.mod.board.retries c.val + 1))
    ∧ (s.mod.board.boot = 4 → s.mod.clocked = true → s.mod.board.resetLow = false → s.mod.board.retries = [] →
      s.mod.board.eepromBad = true →
      Yields (.dramTrainingDone []) s { s.mod with board := { s.mod.board with boot := 5 } }
      ∧ Completes (.dramTrainingDone []) s (fun m' => m'.board.boot = 5 ∧ m'.regs = s.mod.regs))
    ∧ (s.mod.board.boot = 4 → s.mod.clocked = true → s.mod.board.resetLow = false → ∀ f : List (Fin 384),
      (let m : Module := { s.mod with board := { s.mod.board with retries := (f.eraseDups.map (·.val)).foldl failRound s.mod.board.retries } }
       (∀ c ∈ f, 3 ≤ Map.get 0 m.board.retries c.val) → Yields (.dramTrainingDone f) s m.endTraining))
    ∧ ((s.mod.board.boot ≠ 5 ∨ s.mod.clocked = false) → NoEffect .startupZeroingDone s)
    ∧ (s.mod.board.boot = 5 → s.mod.clocked = true → ∃ s', exec .startupZeroingDone s = .next s' ∧ s'.mod.board.boot = 6
      ∧ s'.mod.aliveDriven = true ∧ s'.mod.flag Fld.GLB_STATUS_READY = true ∧ s'.mod.fld Fld.GLB_STATUS_PHASE = 3
      ∧ s'.mod.flag Fld.RNG_ENTROPY_STATUS_HEALTHY = (!s.mod.board.entropyBad) ∧ (Map.get? s'.mod.ledgers 0).isSome = true)
    ∧ (s.mod.board.boot = 6 → Yields .railFault s (s.mod.raise Kind.GLB_RAIL 0 0)
      ∧ ∃ s', exec .railFault s = .next s' ∧ Recorded s s' Kind.GLB_RAIL [])
    ∧ (2 ≤ s.mod.board.boot → s.mod.board.boot ≤ 5 →
      Yields .railFault s (({ s.mod with board := { s.mod.board with boot := 7 } } : Module).setFld Fld.GLB_STATUS_PHASE 0 0 7)
      ∧ Completes .railFault s (fun m' => m'.board.boot = 7 ∧ m'.fld Fld.GLB_STATUS_PHASE = 7
          ∧ RegsKept s.mod m' [(.GLB_STATUS, 0, 0)]))
    ∧ ((s.mod.board.boot < 2 ∨ 6 < s.mod.board.boot) → NoEffect .railFault s)
    ∧ (∃ s', exec .undervoltage s = .next s' ∧ s'.mod.board.boot = 0 ∧ s'.mod.flag Fld.GLB_STATUS_READY = false
      ∧ s'.mod.aliveDriven = false ∧ s'.mod.pins.running = false ∧ s'.mod.fld Fld.GLB_STATUS_PHASE = 0)

/-- R10, R340, R471, R490, R491: an M reset takes every register but those of the calendar, the crystal, the straps and the I/O die to
its reset value, zeroes the memories and ends everything in progress; its cause is recorded; which commands are one. -/
def ModuleResets : Prop :=
  (∀ (m : Module) (cause : Field), cause ∈ [Fld.GLB_RESET_CAUSE_REGISTER, Fld.GLB_RESET_CAUSE_PIN, Fld.GLB_RESET_CAUSE_PF_FLR] →
    m.board.tripped = false →
    (let m' := m.mReset cause
     m'.dram = [] ∧ m'.hold = [] ∧ m'.tiles = [] ∧ m'.routes = [] ∧ m'.rings = [] ∧ m'.cmds = [] ∧ m'.waybills = [] ∧ m'.ports = []
     ∧ m'.repairRecords = m.allRecords ∧ m'.flag cause = true
     ∧ (4 ≤ m.board.boot → m.board.boot ≤ 6 → m'.board.boot = 4 ∧ m'.fld Fld.GLB_STATUS_PHASE = 2)
     ∧ m'.flag Fld.GLB_STATUS_READY = false
     ∧ m'.reg .RTC_SECONDS = m.reg .RTC_SECONDS ∧ m'.reg .RTC_FRAC = m.reg .RTC_FRAC
     ∧ (∀ i, i < 100 → m'.flag Fld.FAB_CL_ASSIGN_VALID i = false ∧ m'.fld Fld.FAB_CL_ASSIGN_TENANCY i = 0)
     ∧ (∀ i, i < 132 → (m'.reg .ERR_STATUS i).setWidth 32 = (0 : Word))))
  ∧ ∀ (s : State),
    (let blank := fun (m' : Module) => m'.cmds = [] ∧ m'.routes = [] ∧ m'.rings = [] ∧ m'.tiles = [] ∧ m'.dram = [] ∧ m'.hold = []
       ∧ m'.hostMem = s.mod.hostMem
     (∀ value : Word,
       (value.getLsbD 0 = true → bitsAt value.toNat 16 16 = 0xA5C3 →
         Yields (.reset value) s (s.mod.mReset Fld.GLB_RESET_CAUSE_REGISTER).trainLink
         ∧ Completes (.reset value) s (fun m' => blank m' ∧ m'.flag Fld.GLB_RESET_CAUSE_REGISTER = true))
       ∧ ((value.getLsbD 0 = false ∨ bitsAt value.toNat 16 16 ≠ 0xA5C3) → NoEffect (.reset value) s))
     ∧ (let m : Module := { s.mod with board := { s.mod.board with resetLow := false } }
        (4 ≤ s.mod.board.boot → Yields .resetN s (m.mReset Fld.GLB_RESET_CAUSE_PIN).trainLink
          ∧ Completes .resetN s (fun m' => blank m' ∧ m'.flag Fld.GLB_RESET_CAUSE_PIN = true ∧ m'.board.resetLow = false))
        ∧ (s.mod.board.boot < 4 → Yields .resetN s m
          ∧ Completes .resetN s (fun m' => m'.board.resetLow = false ∧ m'.regs = s.mod.regs)))
     ∧ (let m : Module := { s.mod with board := { s.mod.board with perst := true } }
        (s.mod.flag Fld.GLB_STATUS_READY = true → Yields .perstN s (m.mReset Fld.GLB_RESET_CAUSE_PF_FLR)
          ∧ Completes .perstN s (fun m' => blank m' ∧ m'.flag Fld.GLB_RESET_CAUSE_PF_FLR = true ∧ m'.board.perst = true))
        ∧ (s.mod.flag Fld.GLB_STATUS_READY = false → Yields .perstN s m
          ∧ Completes .perstN s (fun m' => m'.board.perst = true ∧ m'.regs = s.mod.regs)))
     ∧ Yields .pfFlr s (s.mod.mReset Fld.GLB_RESET_CAUSE_PF_FLR).trainLink
     ∧ Completes .pfFlr s (fun m' => blank m' ∧ m'.flag Fld.GLB_RESET_CAUSE_PF_FLR = true))

/-- R10, R340, R469 to R471, R489 to R491: start-up and the resets of the module.
Where these rules leave a point open it follows the model (log entries 2, 129 and 152). -/
def Obligations.StartUpAndResets : Prop := StartUpSteps ∧ ModuleResets

/-! ## The sideband -/

/-- R480: a write transaction's PEC, over its address, command, count and data, matches, or none follows and none is required. -/
def PecPasses (m : Module) (bs : List Byte) (pec : Option Byte) : Prop :=
  pec = some (pecOf (m.sideAddr false :: bs)) ∨ (pec = none ∧ m.flag Fld.SBD_CTL_PEC_REQUIRED = false)

/-- R480: a PEC follows and does not match. -/
def PecWrong (m : Module) (bs : List Byte) (pec : Option Byte) : Prop := ∃ b, pec = some b ∧ b ≠ pecOf (m.sideAddr false :: bs)

/-- R477, R478, R480: the target acknowledges nothing before the trims are loaded; a write whose PEC does not match is discarded with its last
byte not acknowledged, one without the PEC that is required is discarded. -/
def SideTransactions : Prop :=
  ∀ (s : State) (v : Word) (w : Word64) (pec : Option Byte),
    (s.mod.sideUp = false → ∀ c ∈ ([.unassign pec, .read, .status, .wake, .alertResponse, .pointer v pec, .write w pec] : List Instr),
      Yields c s (s.mod.send .sideNack)
      ∧ Completes c s (fun m' => m'.out = .sideNack :: s.mod.out ∧ m'.regs = s.mod.regs ∧ m'.side = s.mod.side))
    ∧ (s.mod.sideUp = true → s.mod.reg .ERR_INJECT_INV Block.sbd.group = 0 →
      ∀ x ∈ ([(.pointer v pec, [0x10, 4] ++ leBytes 4 v.toNat), (.write w pec, [0x12, 8] ++ leBytes 8 w.toNat)] : List (Instr × List Byte)),
      (PecWrong s.mod x.2 pec →
        Yields x.1 s (((s.mod.send .sideNack).addFld Fld.SBD_EVENTS_PEC_FAILS 0 0).raise Kind.SBD_PEC 0 0)
        ∧ Completes x.1 s (fun m' => m'.side.pointer = s.mod.side.pointer ∧ m'.side.writes = s.mod.side.writes
            ∧ (m'.reg .ERR_STATUS Block.sbd.group).getLsbD Kind.SBD_PEC.bit = true))
      ∧ (pec = none → s.mod.flag Fld.SBD_CTL_PEC_REQUIRED = true →
        Yields x.1 s ((s.mod.addFld Fld.SBD_EVENTS_PEC_FAILS 0 0).raise Kind.SBD_PEC 0 0)
        ∧ Completes x.1 s (fun m' => m'.side.pointer = s.mod.side.pointer ∧ m'.side.writes = s.mod.side.writes)))
    ∧ (s.mod.sideUp = true → ∀ code : Byte,
      (code.toNat ∉ sideCodes →
        Yields (.badCommand code) s (((s.mod.send .sideNack).addFld Fld.SBD_EVENTS_BAD_COMMANDS 0 0).raise Kind.SBD_BAD_COMMAND 0 0)
        ∧ Completes (.badCommand code) s (fun m' => m'.side.pointer = s.mod.side.pointer
            ∧ (m'.reg .ERR_STATUS Block.sbd.group).getLsbD Kind.SBD_BAD_COMMAND.bit = true))
      ∧ (code.toNat ∈ sideCodes → NoEffect (.badCommand code) s))
    ∧ Yields .stuckSda s ((s.mod.addFld Fld.SBD_EVENTS_STUCK_RELEASES 0 0).raise Kind.SBD_STUCK_SDA 0 0)
    ∧ Completes .stuckSda s (fun m' => m'.fld Fld.SBD_ADDR_ADDRESS = s.mod.fld Fld.SBD_ADDR_ADDRESS
        ∧ m'.side.pointer = s.mod.side.pointer ∧ (m'.reg .ERR_STATUS Block.sbd.group).getLsbD Kind.SBD_STUCK_SDA.bit = true)
    ∧ Yields .sclTimeout s ((s.mod.addFld Fld.SBD_EVENTS_TIMEOUTS 0 0).raise Kind.SBD_TIMEOUT 0 0)
    ∧ Completes .sclTimeout s (fun m' => (m'.reg .ERR_STATUS Block.sbd.group).getLsbD Kind.SBD_TIMEOUT.bit = true)
    ∧ NoEffect .busClear s

/-- R483: an address is assigned once, while ASSIGN_IN is high, and refused where it is reserved; UNASSIGN takes it back. -/
def SideAddresses : Prop :=
  ∀ (s : State) (pec : Option Byte),
    (∀ (a : Bool) (v : Byte),
      ((s.mod.sideUp = false ∨ s.mod.flag Fld.SBD_ADDR_ASSIGNED = true ∨ a = false) →
        Yields (.assign a v pec) s (s.mod.send .sideNack)
        ∧ Completes (.assign a v pec) s (fun m' => m'.out = .sideNack :: s.mod.out ∧ m'.regs = s.mod.regs))
      ∧ (s.mod.sideUp = true → s.mod.flag Fld.SBD_ADDR_ASSIGNED = false → a = true →
        (badAddress v.toNat = true →
          Yields (.assign a v pec) s ((s.mod.send .sideNack).raise Kind.SBD_ASSIGN_REFUSED 0 v.toNat)
          ∧ Completes (.assign a v pec) s (fun m' => m'.flag Fld.SBD_ADDR_ASSIGNED = false ∧ m'.side.assignOut = s.mod.side.assignOut
              ∧ (m'.reg .ERR_STATUS Block.sbd.group).getLsbD Kind.SBD_ASSIGN_REFUSED.bit = true))
        ∧ (badAddress v.toNat = false → s.mod.reg .ERR_INJECT_INV Block.sbd.group = 0 → PecPasses s.mod [0x01, v] pec →
          ∃ s', exec (.assign a v pec) s = .next s' ∧ s'.pending = s.pending ∧ s'.mod.flag Fld.SBD_ADDR_ASSIGNED = true
            ∧ s'.mod.fld Fld.SBD_ADDR_ADDRESS = v.toNat ∧ s'.mod.side = { s.mod.side with assignOut := true }
            ∧ RegsKept s.mod s'.mod [(.SBD_ADDR, 0, 0)])))
    ∧ (s.mod.sideUp = true → s.mod.flag Fld.SBD_ADDR_ASSIGNED = false → Yields (.unassign pec) s (s.mod.send .sideNack))
    ∧ (s.mod.sideUp = true → s.mod.flag Fld.SBD_ADDR_ASSIGNED = true → s.mod.reg .ERR_INJECT_INV Block.sbd.group = 0 →
      PecPasses s.mod [0x02, 0xC3, 0xA5] pec →
      ∃ s', exec (.unassign pec) s = .next s' ∧ s'.pending = s.pending
        ∧ s'.mod.flag Fld.SBD_ADDR_ASSIGNED = false ∧ s'.mod.side = { s.mod.side with assignOut := false }
        ∧ RegsKept s.mod s'.mod [(.SBD_ADDR, 0, 0)])

/-- R478 to R480: the pointer moves by 8 with each access; reads answer 8 bytes and their PEC; a write needs WRITE_EN and a writable
register. -/
def SideAccesses : Prop :=
  ∀ s : State, s.mod.sideUp = true →
    (∀ (v : Word) (pec : Option Byte), s.mod.reg .ERR_INJECT_INV Block.sbd.group = 0 →
      PecPasses s.mod ([0x10, 4] ++ leBytes 4 v.toNat) pec →
      Yields (.pointer v pec) s { s.mod with side := { s.mod.side with pointer := v.toNat % 2 ^ 32 } }
      ∧ Completes (.pointer v pec) s (fun m' => m'.side = { s.mod.side with pointer := v.toNat } ∧ m'.regs = s.mod.regs))
    ∧ (∃ s', exec .read s = .next s' ∧ s'.pending = s.pending ∧ s'.mod.side = { s.mod.side with pointer := (s.mod.side.pointer + 8) % 2 ^ 32 }
      ∧ (let data := s.mod.sideBytes s.mod.side.pointer
         s'.mod.out = .side data (pecOf ([s.mod.sideAddr false, 0x11, s.mod.sideAddr true, 8] ++ data)) :: s.mod.out)
      ∧ s'.mod.regs = s.mod.regs)
    ∧ (∀ (v : Word64) (pec : Option Byte), s.mod.reg .ERR_INJECT_INV Block.sbd.group = 0 →
      PecPasses s.mod ([0x12, 8] ++ leBytes 8 v.toNat) pec →
      (s.mod.flag Fld.SBD_CTL_WRITE_EN = false → ∃ s', exec (.write v pec) s = .next s' ∧ s'.mod.side.lastErr = true
        ∧ s'.mod.side.pointer = (s.mod.side.pointer + 8) % 2 ^ 32 ∧ s'.mod.side.writes = s.mod.side.writes
        ∧ (s'.mod.reg .ERR_STATUS Block.sbd.group).getLsbD Kind.SBD_BAD_COMMAND.bit = true)
      ∧ (s.mod.flag Fld.SBD_CTL_WRITE_EN = true → s.mod.side.pointer = RegId.PWR_CAP.offset 0 0 → ∃ s',
        exec (.write v pec) s = .next s' ∧ (regKey .PWR_CAP 0 0, BitVec.ofNat 64 (bitsAt v.toNat 0 32)) ∈ s'.mod.side.writes
        ∧ s'.mod.regs = s.mod.regs))
    ∧ (∃ s', exec .status s = .next s' ∧ s'.pending = s.pending ∧ s'.mod.side = { s.mod.side with lastErr := false }
      ∧ s'.mod.regs = s.mod.regs ∧ ∃ b : Byte,
          s'.mod.out = .side [b] (pecOf [s.mod.sideAddr false, 0x20, s.mod.sideAddr true, b]) :: s.mod.out
        ∧ b.getLsbD 0 = s.mod.flag Fld.GLB_STATUS_READY ∧ b.getLsbD 1 = s.mod.pins.running
        ∧ b.getLsbD 2 = s.mod.flag Fld.SBD_ADDR_ASSIGNED ∧ b.getLsbD 3 = s.mod.side.lastErr ∧ b.getLsbD 4 = s.mod.board.tripped
        ∧ b.toNat < 32)
    ∧ Yields .wake s s.mod.wake
    ∧ (s.mod.clocked = true → s.mod.fld Fld.PWR_STATUS_STATE ≠ 0 → s.mod.board.target = none → s.mod.board.leaving = false →
      Completes .wake s (fun m' => m'.board = { s.mod.board with leaving := true } ∧ m'.flag Fld.PWR_STATUS_ENTERING = true))
    ∧ (s.mod.alerting = true → ∃ s', exec .alertResponse s = .next s' ∧ s'.pending = s.pending
      ∧ (let b := byteOf (2 * s.mod.fld Fld.SBD_ADDR_ADDRESS)
         s'.mod.out = .side [b] (pecOf [0x19, b]) :: s.mod.out) ∧ s'.mod.alerting = false ∧ s'.mod.regs = s.mod.regs)
    ∧ (s.mod.alerting = false → Yields .alertResponse s (s.mod.send .sideNack)
      ∧ Completes .alertResponse s (fun m' => m'.out = .sideNack :: s.mod.out ∧ m'.side = s.mod.side))

/-- R377, R481, R486, R487: the mirrors follow the registers of the blocks that are awake; a poll of the local bus brings the readings, and the
third failure in a row fails the input monitor. -/
def MirrorsAndPolls : Prop :=
  ∀ s : State,
    (s.mod.sideUp = true → s.mod.side.writes = [] → ∃ s', exec .mirrorRefresh s = .next s' ∧ s'.pending = s.pending
      ∧ s'.mod.regs = s.mod.regs
      ∧ ∀ x ∈ mirrored, s.mod.mirrorAwake x.1 = true →
          Map.get? s'.mod.side.mirror (regKey x.1 x.2 0) = some (s.mod.shown x.1 x.2 0))
    ∧ (s.mod.sideUp = false → NoEffect .mirrorRefresh s)
    ∧ (∀ (ok : Bool) (energy : Word64) (watts : BitVec 16), s.mod.sideUp = false → NoEffect (.localBusPoll ok energy watts) s)
    ∧ (s.mod.sideUp = true → ∀ (energy : Word64) (watts : BitVec 16),
      (∃ s', exec (.localBusPoll true energy watts) s = .next s' ∧ s'.pending = s.pending ∧ s'.mod.reg .LDG_MEASURED = energy
        ∧ s'.mod.fld Fld.PWR_STATUS_INPUT_W = watts.toNat ∧ s'.mod.flag Fld.SBD_LOCAL_STATUS_FRONT_END_OK = true
        ∧ s'.mod.board = { s.mod.board with pollFails := 0 })
      ∧ (s.mod.board.pollFails = 2 → ∃ s', exec (.localBusPoll false energy watts) s = .next s'
        ∧ (s'.mod.reg .ERR_STATUS Block.sbd.group).getLsbD Kind.SBD_LOCAL_BUS.bit = true
        ∧ (s'.mod.reg .ERR_STATUS Block.pwr.group).getLsbD Kind.PWR_INPUT_MONITOR.bit = true
        ∧ s'.mod.reg .LDG_MEASURED = s.mod.reg .LDG_MEASURED))

/-- R464, R477 to R487: nothing is answered before the trims are loaded; an address is assigned once, and refused where it is
reserved; the pointer moves by 8 with each access; writes need WRITE_EN and a PEC that matches; the status byte; an alert is
answered once; bus failures and the local bus are counted and recorded.
Where these rules leave a point open it follows the model (log entries 155 to 157, 160 and 194). -/
def Obligations.Sideband : Prop := SideTransactions ∧ SideAddresses ∧ SideAccesses ∧ MirrorsAndPolls

/-! ## Register access -/

/-- R6 to R9, R342: a write of RW bits stores them and clears the W1C bits it sets, leaving every other register; a part of a paired
register is refused; a function that does not see a register changes nothing in it, and one that addresses another tenancy's is
counted; a read of the low word of a snapshot register latches the whole value for that function alone.
Where these rules leave a point open it follows the model (log entries 125, 153 and 154). -/
def Obligations.RegisterAccess : Prop :=
  ∀ (s : State) (f : Func) (r : RegId) (i j : Nat),
    (∀ (high wide : Bool) (v : Word64),
      (∀ k, s.mod.seen f r i = some k → r ∈ [RegId.PLC_TEN_BAL, RegId.WGT_TEN_WINDOW, RegId.LRN_TEN_LAG, RegId.PWR_CAP, RegId.INT_CTL] →
        k < 2 ^ 24 → j < 2 ^ 16 →
        (let mask := if f = 0 then spanMask r high wide else spanMask r high wide &&& (r.vfMask ||| r.maskOf .wo)
         ∃ s', exec (.registerWrite f r i j high wide v) s = .next s' ∧ OnlyRegs s s' [(r, k, j)]
          ∧ ∀ b, b < 64 → (s'.mod.reg r k j).getLsbD b =
              if (r.maskOf .w1c &&& mask &&& spanValue r high wide v.toNat).testBit b then false
              else if (r.maskOf .rw &&& mask).testBit b then (spanValue r high wide v.toNat).testBit b
              else (s.mod.reg r k j).getLsbD b))
      ∧ (s.mod.seen f r i = none →
        (∀ t, s.mod.entryTen r i = some t → f ≠ 0 → t ≠ house → r.hidden = false →
          Yields (.registerWrite f r i j high wide v) s (s.mod.guardTen f t id))
        ∧ ((s.mod.entryTen r i = none ∨ f = 0 ∨ r.hidden = true) → NoEffect (.registerWrite f r i j high wide v) s))
      ∧ (∀ k, s.mod.seen f r i = some k → r = .XLT_TEN_ROOT → wide = false →
        Yields (.registerWrite f r i j high wide v) s (s.mod.raise Kind.XLT_PAIR (Fin.ofNat 101 k).val (Fin.ofNat 101 k).val)))
    ∧ (∀ wide : Bool,
      (s.mod.seen f r i = none → NoEffect (.snapshotRead f r i j wide) s)
      ∧ (∀ k, s.mod.seen f r i = some k →
        (r.snapshot = false → NoEffect (.snapshotRead f r i j wide) s)
        ∧ (r.snapshot = true → r ≠ .RTC_SECONDS → ∃ s', exec (.snapshotRead f r i j wide) s = .next s'
          ∧ s'.mod = ({ s.mod with latches := s'.mod.latches }).settle
          ∧ s'.mod.readAs f r i j true false = s.mod.shown r k j >>> 32
          ∧ ∀ key, key ≠ latchKey f r k j → Map.get? s'.mod.latches key = Map.get? s.mod.latches key)))
end

