-- ==== Sys2Proof/Laws/Map.lean ====
section
/-! SUPPORT. Laws/Map.lean: what the sparse tables and memories do: reads after writes, and the canonical form that every
operation keeps. -/

namespace Sys2Proof.Machine

variable {α : Type}

@[simp] theorem Map.get?_nil (k : Nat) : Map.get? ([] : Map α) k = none := rfl

theorem Map.get?_insert (m : Map α) (k j : Nat) (v : α) :
    Map.get? (Map.insert m k v) j = if k = j then some v else Map.get? m j := by
  induction m with
  | nil => simp [Map.insert, Map.get?]
  | cons p rest ih =>
    obtain ⟨a, x⟩ := p
    unfold Map.insert
    split
    · simp [Map.get?]
    · split
      · next h => subst h; simp only [Map.get?]; split <;> simp_all
      · next h1 h2 =>
        simp only [Map.get?, ih]
        by_cases ha : a = j
        · have : ¬ k = j := by omega
          simp [ha, this]
        · simp [ha]

@[simp] theorem Map.get?_insert_self (m : Map α) (k : Nat) (v : α) : Map.get? (Map.insert m k v) k = some v := by
  simp [Map.get?_insert]

theorem Map.get?_insert_ne (m : Map α) {k j : Nat} (h : k ≠ j) (v : α) :
    Map.get? (Map.insert m k v) j = Map.get? m j := by
  simp [Map.get?_insert, h]

theorem Map.get?_erase (m : Map α) (k j : Nat) :
    Map.get? (Map.erase m k) j = if k = j then none else Map.get? m j := by
  induction m with
  | nil => simp [Map.erase]
  | cons p rest ih =>
    obtain ⟨a, x⟩ := p
    unfold Map.erase at *
    by_cases ha : a = k
    · subst ha
      simp only [List.filter_cons, ne_eq, not_true_eq_false, decide_false, Bool.false_eq_true, if_false, ih, Map.get?]
      split <;> simp_all
    · simp only [List.filter_cons, ne_eq, ha, not_false_eq_true, decide_true, if_true, Map.get?, ih]
      by_cases hj : a = j
      · have : ¬ k = j := by omega
        simp [hj, this]
      · simp [hj]

theorem Map.get_insert (d : α) (m : Map α) (k j : Nat) (v : α) :
    Map.get d (Map.insert m k v) j = if k = j then v else Map.get d m j := by
  unfold Map.get; rw [Map.get?_insert]; split <;> rfl

/-- A read after a write. -/
theorem Map.get_set [DecidableEq α] (d : α) (m : Map α) (k j : Nat) (v : α) :
    Map.get d (Map.set d m k v) j = if k = j then v else Map.get d m j := by
  unfold Map.set
  by_cases hv : v = d
  · subst hv
    rw [if_pos rfl, Map.get, Map.get?_erase]
    split <;> rfl
  · rw [if_neg hv, Map.get_insert]

@[simp] theorem Map.get_set_self [DecidableEq α] (d : α) (m : Map α) (k : Nat) (v : α) :
    Map.get d (Map.set d m k v) k = v := by simp [Map.get_set]

theorem Map.get_set_ne [DecidableEq α] (d : α) (m : Map α) {k j : Nat} (h : k ≠ j) (v : α) :
    Map.get d (Map.set d m k v) j = Map.get d m j := by simp [Map.get_set, h]

/-! ## The canonical form -/

/-- Every key of a table lies above a bound. -/
def Map.above (b : Nat) (m : Map α) : Prop := ∀ p ∈ m, b < p.1

theorem Map.sorted_cons (a : Nat × α) (m : Map α) :
    Map.sorted (a :: m) = true ↔ Map.above a.1 m ∧ Map.sorted m = true := by
  induction m generalizing a with
  | nil => simp [Map.sorted, Map.above]
  | cons b rest ih =>
    simp only [Map.sorted, Bool.and_eq_true, decide_eq_true_eq]
    constructor
    · rintro ⟨h1, h2⟩
      refine ⟨?_, h2⟩
      intro p hp
      rcases List.mem_cons.1 hp with rfl | hp
      · exact h1
      · exact Nat.lt_trans h1 (((ih b).1 h2).1 p hp)
    · rintro ⟨h1, h2⟩
      exact ⟨h1 b (List.mem_cons_self ..), h2⟩

theorem Map.above_insert {b k : Nat} {v : α} {m : Map α} (hb : b < k) (h : Map.above b m) :
    Map.above b (Map.insert m k v) := by
  induction m with
  | nil => intro p hp; simp [Map.insert] at hp; subst hp; exact hb
  | cons q rest ih =>
    obtain ⟨a, x⟩ := q
    have ha : b < a := h (a, x) (List.mem_cons_self ..)
    have hr : Map.above b rest := fun p hp => h p (List.mem_cons_of_mem _ hp)
    unfold Map.insert
    split
    · intro p hp
      rcases List.mem_cons.1 hp with rfl | hp
      · exact hb
      · exact h p hp
    · split
      · intro p hp
        rcases List.mem_cons.1 hp with rfl | hp
        · exact hb
        · exact hr p hp
      · intro p hp
        rcases List.mem_cons.1 hp with rfl | hp
        · exact ha
        · exact ih hr p hp

/-- An insertion keeps the keys rising. -/
theorem Map.sorted_insert {m : Map α} (h : Map.sorted m = true) (k : Nat) (v : α) :
    Map.sorted (Map.insert m k v) = true := by
  induction m with
  | nil => rfl
  | cons q rest ih =>
    obtain ⟨a, x⟩ := q
    have hs := (Map.sorted_cons _ _).1 h
    unfold Map.insert
    split
    · next hk =>
      refine (Map.sorted_cons _ _).2 ⟨?_, h⟩
      intro p hp
      rcases List.mem_cons.1 hp with rfl | hp
      · exact hk
      · exact Nat.lt_trans hk (hs.1 p hp)
    · split
      · next hk => subst hk; exact (Map.sorted_cons _ _).2 ⟨hs.1, hs.2⟩
      · exact (Map.sorted_cons _ _).2 ⟨Map.above_insert (by simp only; omega) hs.1, ih hs.2⟩

/-- Leaving entries out keeps the keys rising. -/
theorem Map.sorted_filter {m : Map α} (h : Map.sorted m = true) (f : Nat × α → Bool) :
    Map.sorted (m.filter f) = true := by
  induction m with
  | nil => rfl
  | cons q rest ih =>
    have hs := (Map.sorted_cons _ _).1 h
    rw [List.filter_cons]
    split
    · exact (Map.sorted_cons _ _).2 ⟨fun p hp => hs.1 p (List.mem_of_mem_filter hp), ih hs.2⟩
    · exact ih hs.2

theorem Map.mem_insert {m : Map α} {k : Nat} {v : α} {p : Nat × α} (h : p ∈ Map.insert m k v) :
    p = (k, v) ∨ p ∈ m := by
  induction m with
  | nil => simp [Map.insert] at h; exact .inl h
  | cons q rest ih =>
    obtain ⟨a, x⟩ := q
    unfold Map.insert at h
    split at h
    · rcases List.mem_cons.1 h with h | h
      · exact .inl h
      · exact .inr h
    · split at h
      · rcases List.mem_cons.1 h with h | h
        · exact .inl h
        · exact .inr (List.mem_cons_of_mem _ h)
      · rcases List.mem_cons.1 h with h | h
        · exact .inr (h ▸ List.mem_cons_self ..)
        · rcases ih h with h | h
          · exact .inl h
          · exact .inr (List.mem_cons_of_mem _ h)

/-- A write keeps the canonical form. -/
theorem Map.wf_set [DecidableEq α] (d : α) {m : Map α} (h : Map.wf d m = true) (k : Nat) (v : α) :
    Map.wf d (Map.set d m k v) = true := by
  simp only [Map.wf, Bool.and_eq_true, List.all_eq_true, decide_eq_true_eq] at h ⊢
  unfold Map.set
  split
  · exact ⟨Map.sorted_filter h.1 _, fun p hp => h.2 p (List.mem_of_mem_filter hp)⟩
  · next hv =>
    refine ⟨Map.sorted_insert h.1 k v, fun p hp => ?_⟩
    rcases Map.mem_insert hp with rfl | hp
    · exact hv
    · exact h.2 p hp

/-- Leaving entries out keeps the canonical form. -/
theorem Map.wf_filter [DecidableEq α] (d : α) {m : Map α} (h : Map.wf d m = true) (f : Nat × α → Bool) :
    Map.wf d (m.filter f) = true := by
  simp only [Map.wf, Bool.and_eq_true, List.all_eq_true, decide_eq_true_eq] at h ⊢
  exact ⟨Map.sorted_filter h.1 f, fun p hp => h.2 p (List.mem_of_mem_filter hp)⟩

/-! ## Memories -/

theorem Mem.byte_setByte (m : Mem) (a b : Nat) (v : Byte) :
    Mem.byte (Mem.setByte m a v) b = if a = b then v else Mem.byte m b := Map.get_set 0 m a b v

theorem Mem.wf_setByte {m : Mem} (h : m.wf = true) (a : Nat) (v : Byte) : (Mem.setByte m a v).wf = true :=
  Map.wf_set 0 h a v

theorem Mem.wf_setBytes {m : Mem} (h : m.wf = true) (a : Nat) (bs : List Byte) : (Mem.setBytes m a bs).wf = true := by
  induction bs generalizing m a with
  | nil => exact h
  | cons b bs ih => exact ih (Mem.wf_setByte h a b) (a + 1)

theorem Mem.wf_write {m : Mem} (h : m.wf = true) (a n v : Nat) : (Mem.write m a n v).wf = true :=
  Mem.wf_setBytes h a _

theorem Mem.wf_zero {m : Mem} (h : m.wf = true) (a n : Nat) : (Mem.zero m a n).wf = true :=
  Map.wf_filter 0 h _

/-- A byte after a list of bytes is written: inside the list its byte, outside what it was. -/
theorem Mem.byte_setBytes (m : Mem) (a b : Nat) (bs : List Byte) :
    Mem.byte (Mem.setBytes m a bs) b = if a ≤ b ∧ b < a + bs.length then bs[b - a]?.getD 0 else Mem.byte m b := by
  induction bs generalizing m a with
  | nil => simp only [Mem.setBytes, List.length_nil]; rw [if_neg (by omega)]
  | cons x xs ih =>
    simp only [Mem.setBytes, ih, List.length_cons, Mem.byte_setByte]
    by_cases h1 : a + 1 ≤ b ∧ b < a + 1 + xs.length
    · rw [if_pos h1, if_pos (by omega)]
      have : b - a = (b - (a + 1)) + 1 := by omega
      rw [this, List.getElem?_cons_succ]
    · rw [if_neg h1]
      by_cases h2 : a = b
      · rw [if_pos h2, if_pos (by omega)]; subst h2; simp
      · rw [if_neg h2, if_neg (by omega)]

theorem Mem.byte_zero (m : Mem) (a n b : Nat) :
    Mem.byte (Mem.zero m a n) b = if a ≤ b ∧ b < a + n then 0 else Mem.byte m b := by
  induction m with
  | nil => simp [Mem.zero, Mem.byte, Map.get]
  | cons p rest ih =>
    obtain ⟨k, x⟩ := p
    unfold Mem.zero Mem.byte Map.get at *
    rw [List.filter_cons]
    by_cases hk : k < a ∨ a + n ≤ k
    · simp only [hk, decide_true, if_true, Map.get?]
      by_cases hb : k = b
      · subst hb; rw [if_pos rfl, if_neg (by omega), if_pos rfl]
      · simp only [if_neg hb]; exact ih
    · simp only [hk, decide_false, Bool.false_eq_true, if_false]
      rw [ih]
      by_cases hb : k = b
      · subst hb; rw [if_pos (by omega), if_pos (by omega)]
      · simp only [Map.get?, if_neg hb]

@[simp] theorem Mem.length_bytes (m : Mem) (a n : Nat) : (Mem.bytes m a n).length = n := by
  induction n generalizing a with
  | zero => rfl
  | succ n ih => simp [Mem.bytes, ih]

theorem Mem.getElem?_bytes (m : Mem) (a n i : Nat) (h : i < n) : (Mem.bytes m a n)[i]? = some (Mem.byte m (a + i)) := by
  induction n generalizing a i with
  | zero => omega
  | succ n ih =>
    cases i with
    | zero => rfl
    | succ i =>
      rw [Mem.bytes, List.getElem?_cons_succ, ih (a + 1) i (by omega)]
      congr 2; omega

@[simp] theorem length_leBytes (n v : Nat) : (leBytes n v).length = n := by
  induction n generalizing v with
  | zero => rfl
  | succ n ih => simp [leBytes, ih]

/-- A number of `n` bytes, laid out and read back (R4). -/
theorem leNat_leBytes (n v : Nat) : leNat (leBytes n v) = v % 256 ^ n := by
  induction n generalizing v with
  | zero => simp [leBytes, leNat, Nat.mod_one]
  | succ n ih =>
    have e : v % 256 ^ (n + 1) = v % 256 + 256 * (v / 256 % 256 ^ n) := by
      rw [Nat.pow_succ, Nat.mul_comm, Nat.mod_mul]
    simp only [leBytes, leNat, ih, e, BitVec.toNat_ofNat]

end Sys2Proof.Machine
end

