-- ==== Sys2Proof/Laws/State.lean ====
section
/-! SUPPORT. Laws/State.lean: what each update of the module leaves unchanged, one lemma for each field and update, so that no
proof unfolds a record update. -/

namespace Sys2Proof.Machine

/-! ## setReg changes `regs` only -/

@[simp] theorem Module.setReg_latches (m : Module) (r : RegId) (i j : Nat) (v : Word64) : (m.setReg r i j v).latches = m.latches := rfl
@[simp] theorem Module.setReg_turns (m : Module) (r : RegId) (i j : Nat) (v : Word64) : (m.setReg r i j v).turns = m.turns := rfl
@[simp] theorem Module.setReg_nextNear (m : Module) (r : RegId) (i j : Nat) (v : Word64) : (m.setReg r i j v).nextNear = m.nextNear := rfl
@[simp] theorem Module.setReg_mapOrder (m : Module) (r : RegId) (i j : Nat) (v : Word64) : (m.setReg r i j v).mapOrder = m.mapOrder := rfl
@[simp] theorem Module.setReg_tokens (m : Module) (r : RegId) (i j : Nat) (v : Word64) : (m.setReg r i j v).tokens = m.tokens := rfl
@[simp] theorem Module.setReg_deckSeq (m : Module) (r : RegId) (i j : Nat) (v : Word64) : (m.setReg r i j v).deckSeq = m.deckSeq := rfl
@[simp] theorem Module.setReg_mapFaults (m : Module) (r : RegId) (i j : Nat) (v : Word64) : (m.setReg r i j v).mapFaults = m.mapFaults := rfl
@[simp] theorem Module.setReg_rngBad (m : Module) (r : RegId) (i j : Nat) (v : Word64) : (m.setReg r i j v).rngBad = m.rngBad := rfl
@[simp] theorem Module.setReg_freeIx (m : Module) (r : RegId) (i j : Nat) (v : Word64) : (m.setReg r i j v).freeIx = m.freeIx := rfl
@[simp] theorem Module.setReg_errWin (m : Module) (r : RegId) (i j : Nat) (v : Word64) : (m.setReg r i j v).errWin = m.errWin := rfl
@[simp] theorem Module.setReg_out (m : Module) (r : RegId) (i j : Nat) (v : Word64) : (m.setReg r i j v).out = m.out := rfl
@[simp] theorem Module.setReg_sigs (m : Module) (r : RegId) (i j : Nat) (v : Word64) : (m.setReg r i j v).sigs = m.sigs := rfl
@[simp] theorem Module.setReg_aliveDriven (m : Module) (r : RegId) (i j : Nat) (v : Word64) : (m.setReg r i j v).aliveDriven = m.aliveDriven := rfl
@[simp] theorem Module.setReg_aliveHold (m : Module) (r : RegId) (i j : Nat) (v : Word64) : (m.setReg r i j v).aliveHold = m.aliveHold := rfl
@[simp] theorem Module.setReg_pins (m : Module) (r : RegId) (i j : Nat) (v : Word64) : (m.setReg r i j v).pins = m.pins := rfl
@[simp] theorem Module.setReg_rings (m : Module) (r : RegId) (i j : Nat) (v : Word64) : (m.setReg r i j v).rings = m.rings := rfl
@[simp] theorem Module.setReg_cmds (m : Module) (r : RegId) (i j : Nat) (v : Word64) : (m.setReg r i j v).cmds = m.cmds := rfl
@[simp] theorem Module.setReg_nextSeq (m : Module) (r : RegId) (i j : Nat) (v : Word64) : (m.setReg r i j v).nextSeq = m.nextSeq := rfl
@[simp] theorem Module.setReg_hostMem (m : Module) (r : RegId) (i j : Nat) (v : Word64) : (m.setReg r i j v).hostMem = m.hostMem := rfl
@[simp] theorem Module.setReg_dram (m : Module) (r : RegId) (i j : Nat) (v : Word64) : (m.setReg r i j v).dram = m.dram := rfl
@[simp] theorem Module.setReg_dramEcc (m : Module) (r : RegId) (i j : Nat) (v : Word64) : (m.setReg r i j v).dramEcc = m.dramEcc := rfl
@[simp] theorem Module.setReg_poison (m : Module) (r : RegId) (i j : Nat) (v : Word64) : (m.setReg r i j v).poison = m.poison := rfl
@[simp] theorem Module.setReg_tags (m : Module) (r : RegId) (i j : Nat) (v : Word64) : (m.setReg r i j v).tags = m.tags := rfl
@[simp] theorem Module.setReg_nextStack (m : Module) (r : RegId) (i j : Nat) (v : Word64) : (m.setReg r i j v).nextStack = m.nextStack := rfl
@[simp] theorem Module.setReg_keys (m : Module) (r : RegId) (i j : Nat) (v : Word64) : (m.setReg r i j v).keys = m.keys := rfl
@[simp] theorem Module.setReg_nextKey (m : Module) (r : RegId) (i j : Nat) (v : Word64) : (m.setReg r i j v).nextKey = m.nextKey := rfl
@[simp] theorem Module.setReg_patches (m : Module) (r : RegId) (i j : Nat) (v : Word64) : (m.setReg r i j v).patches = m.patches := rfl
@[simp] theorem Module.setReg_patchDue (m : Module) (r : RegId) (i j : Nat) (v : Word64) : (m.setReg r i j v).patchDue = m.patchDue := rfl
@[simp] theorem Module.setReg_xcache (m : Module) (r : RegId) (i j : Nat) (v : Word64) : (m.setReg r i j v).xcache = m.xcache := rfl
@[simp] theorem Module.setReg_skew (m : Module) (r : RegId) (i j : Nat) (v : Word64) : (m.setReg r i j v).skew = m.skew := rfl
@[simp] theorem Module.setReg_hold (m : Module) (r : RegId) (i j : Nat) (v : Word64) : (m.setReg r i j v).hold = m.hold := rfl
@[simp] theorem Module.setReg_holdEcc (m : Module) (r : RegId) (i j : Nat) (v : Word64) : (m.setReg r i j v).holdEcc = m.holdEcc := rfl
@[simp] theorem Module.setReg_holdPoison (m : Module) (r : RegId) (i j : Nat) (v : Word64) : (m.setReg r i j v).holdPoison = m.holdPoison := rfl
@[simp] theorem Module.setReg_holdMap (m : Module) (r : RegId) (i j : Nat) (v : Word64) : (m.setReg r i j v).holdMap = m.holdMap := rfl
@[simp] theorem Module.setReg_banks (m : Module) (r : RegId) (i j : Nat) (v : Word64) : (m.setReg r i j v).banks = m.banks := rfl
@[simp] theorem Module.setReg_bases (m : Module) (r : RegId) (i j : Nat) (v : Word64) : (m.setReg r i j v).bases = m.bases := rfl
@[simp] theorem Module.setReg_baseGrants (m : Module) (r : RegId) (i j : Nat) (v : Word64) : (m.setReg r i j v).baseGrants = m.baseGrants := rfl
@[simp] theorem Module.setReg_pathErr (m : Module) (r : RegId) (i j : Nat) (v : Word64) : (m.setReg r i j v).pathErr = m.pathErr := rfl
@[simp] theorem Module.setReg_tiles (m : Module) (r : RegId) (i j : Nat) (v : Word64) : (m.setReg r i j v).tiles = m.tiles := rfl
@[simp] theorem Module.setReg_cls (m : Module) (r : RegId) (i j : Nat) (v : Word64) : (m.setReg r i j v).cls = m.cls := rfl
@[simp] theorem Module.setReg_routes (m : Module) (r : RegId) (i j : Nat) (v : Word64) : (m.setReg r i j v).routes = m.routes := rfl
@[simp] theorem Module.setReg_deck (m : Module) (r : RegId) (i j : Nat) (v : Word64) : (m.setReg r i j v).deck = m.deck := rfl
@[simp] theorem Module.setReg_xres (m : Module) (r : RegId) (i j : Nat) (v : Word64) : (m.setReg r i j v).xres = m.xres := rfl
@[simp] theorem Module.setReg_epochs (m : Module) (r : RegId) (i j : Nat) (v : Word64) : (m.setReg r i j v).epochs = m.epochs := rfl
@[simp] theorem Module.setReg_repairRecords (m : Module) (r : RegId) (i j : Nat) (v : Word64) : (m.setReg r i j v).repairRecords = m.repairRecords := rfl
@[simp] theorem Module.setReg_eraseRecords (m : Module) (r : RegId) (i j : Nat) (v : Word64) : (m.setReg r i j v).eraseRecords = m.eraseRecords := rfl
@[simp] theorem Module.setReg_balHi (m : Module) (r : RegId) (i j : Nat) (v : Word64) : (m.setReg r i j v).balHi = m.balHi := rfl
@[simp] theorem Module.setReg_balLo (m : Module) (r : RegId) (i j : Nat) (v : Word64) : (m.setReg r i j v).balLo = m.balLo := rfl
@[simp] theorem Module.setReg_weights (m : Module) (r : RegId) (i j : Nat) (v : Word64) : (m.setReg r i j v).weights = m.weights := rfl
@[simp] theorem Module.setReg_groupOps (m : Module) (r : RegId) (i j : Nat) (v : Word64) : (m.setReg r i j v).groupOps = m.groupOps := rfl
@[simp] theorem Module.setReg_waybills (m : Module) (r : RegId) (i j : Nat) (v : Word64) : (m.setReg r i j v).waybills = m.waybills := rfl
@[simp] theorem Module.setReg_kept (m : Module) (r : RegId) (i j : Nat) (v : Word64) : (m.setReg r i j v).kept = m.kept := rfl
@[simp] theorem Module.setReg_notices (m : Module) (r : RegId) (i j : Nat) (v : Word64) : (m.setReg r i j v).notices = m.notices := rfl
@[simp] theorem Module.setReg_caravans (m : Module) (r : RegId) (i j : Nat) (v : Word64) : (m.setReg r i j v).caravans = m.caravans := rfl
@[simp] theorem Module.setReg_batchDue (m : Module) (r : RegId) (i j : Nat) (v : Word64) : (m.setReg r i j v).batchDue = m.batchDue := rfl
@[simp] theorem Module.setReg_kat (m : Module) (r : RegId) (i j : Nat) (v : Word64) : (m.setReg r i j v).kat = m.kat := rfl
@[simp] theorem Module.setReg_ports (m : Module) (r : RegId) (i j : Nat) (v : Word64) : (m.setReg r i j v).ports = m.ports := rfl
@[simp] theorem Module.setReg_inbox (m : Module) (r : RegId) (i j : Nat) (v : Word64) : (m.setReg r i j v).inbox = m.inbox := rfl
@[simp] theorem Module.setReg_insts (m : Module) (r : RegId) (i j : Nat) (v : Word64) : (m.setReg r i j v).insts = m.insts := rfl
@[simp] theorem Module.setReg_slots (m : Module) (r : RegId) (i j : Nat) (v : Word64) : (m.setReg r i j v).slots = m.slots := rfl
@[simp] theorem Module.setReg_resumeDue (m : Module) (r : RegId) (i j : Nat) (v : Word64) : (m.setReg r i j v).resumeDue = m.resumeDue := rfl
@[simp] theorem Module.setReg_ferries (m : Module) (r : RegId) (i j : Nat) (v : Word64) : (m.setReg r i j v).ferries = m.ferries := rfl
@[simp] theorem Module.setReg_captures (m : Module) (r : RegId) (i j : Nat) (v : Word64) : (m.setReg r i j v).captures = m.captures := rfl
@[simp] theorem Module.setReg_restores (m : Module) (r : RegId) (i j : Nat) (v : Word64) : (m.setReg r i j v).restores = m.restores := rfl
@[simp] theorem Module.setReg_held (m : Module) (r : RegId) (i j : Nat) (v : Word64) : (m.setReg r i j v).held = m.held := rfl
@[simp] theorem Module.setReg_creating (m : Module) (r : RegId) (i j : Nat) (v : Word64) : (m.setReg r i j v).creating = m.creating := rfl
@[simp] theorem Module.setReg_scrubbing (m : Module) (r : RegId) (i j : Nat) (v : Word64) : (m.setReg r i j v).scrubbing = m.scrubbing := rfl
@[simp] theorem Module.setReg_vfs (m : Module) (r : RegId) (i j : Nat) (v : Word64) : (m.setReg r i j v).vfs = m.vfs := rfl
@[simp] theorem Module.setReg_ledgers (m : Module) (r : RegId) (i j : Nat) (v : Word64) : (m.setReg r i j v).ledgers = m.ledgers := rfl
@[simp] theorem Module.setReg_ledgerEnergy (m : Module) (r : RegId) (i j : Nat) (v : Word64) : (m.setReg r i j v).ledgerEnergy = m.ledgerEnergy := rfl
@[simp] theorem Module.setReg_ledgerLen (m : Module) (r : RegId) (i j : Nat) (v : Word64) : (m.setReg r i j v).ledgerLen = m.ledgerLen := rfl
@[simp] theorem Module.setReg_ledgerQueue (m : Module) (r : RegId) (i j : Nat) (v : Word64) : (m.setReg r i j v).ledgerQueue = m.ledgerQueue := rfl
@[simp] theorem Module.setReg_ledgerCarry (m : Module) (r : RegId) (i j : Nat) (v : Word64) : (m.setReg r i j v).ledgerCarry = m.ledgerCarry := rfl
@[simp] theorem Module.setReg_board (m : Module) (r : RegId) (i j : Nat) (v : Word64) : (m.setReg r i j v).board = m.board := rfl
@[simp] theorem Module.setReg_side (m : Module) (r : RegId) (i j : Nat) (v : Word64) : (m.setReg r i j v).side = m.side := rfl

/-! ## setFld changes `regs` only -/

@[simp] theorem Module.setFld_latches (m : Module) (f : Field) (i j v : Nat) : (m.setFld f i j v).latches = m.latches := rfl
@[simp] theorem Module.setFld_turns (m : Module) (f : Field) (i j v : Nat) : (m.setFld f i j v).turns = m.turns := rfl
@[simp] theorem Module.setFld_nextNear (m : Module) (f : Field) (i j v : Nat) : (m.setFld f i j v).nextNear = m.nextNear := rfl
@[simp] theorem Module.setFld_mapOrder (m : Module) (f : Field) (i j v : Nat) : (m.setFld f i j v).mapOrder = m.mapOrder := rfl
@[simp] theorem Module.setFld_tokens (m : Module) (f : Field) (i j v : Nat) : (m.setFld f i j v).tokens = m.tokens := rfl
@[simp] theorem Module.setFld_deckSeq (m : Module) (f : Field) (i j v : Nat) : (m.setFld f i j v).deckSeq = m.deckSeq := rfl
@[simp] theorem Module.setFld_mapFaults (m : Module) (f : Field) (i j v : Nat) : (m.setFld f i j v).mapFaults = m.mapFaults := rfl
@[simp] theorem Module.setFld_rngBad (m : Module) (f : Field) (i j v : Nat) : (m.setFld f i j v).rngBad = m.rngBad := rfl
@[simp] theorem Module.setFld_freeIx (m : Module) (f : Field) (i j v : Nat) : (m.setFld f i j v).freeIx = m.freeIx := rfl
@[simp] theorem Module.setFld_errWin (m : Module) (f : Field) (i j v : Nat) : (m.setFld f i j v).errWin = m.errWin := rfl
@[simp] theorem Module.setFld_out (m : Module) (f : Field) (i j v : Nat) : (m.setFld f i j v).out = m.out := rfl
@[simp] theorem Module.setFld_sigs (m : Module) (f : Field) (i j v : Nat) : (m.setFld f i j v).sigs = m.sigs := rfl
@[simp] theorem Module.setFld_aliveDriven (m : Module) (f : Field) (i j v : Nat) : (m.setFld f i j v).aliveDriven = m.aliveDriven := rfl
@[simp] theorem Module.setFld_aliveHold (m : Module) (f : Field) (i j v : Nat) : (m.setFld f i j v).aliveHold = m.aliveHold := rfl
@[simp] theorem Module.setFld_pins (m : Module) (f : Field) (i j v : Nat) : (m.setFld f i j v).pins = m.pins := rfl
@[simp] theorem Module.setFld_rings (m : Module) (f : Field) (i j v : Nat) : (m.setFld f i j v).rings = m.rings := rfl
@[simp] theorem Module.setFld_cmds (m : Module) (f : Field) (i j v : Nat) : (m.setFld f i j v).cmds = m.cmds := rfl
@[simp] theorem Module.setFld_nextSeq (m : Module) (f : Field) (i j v : Nat) : (m.setFld f i j v).nextSeq = m.nextSeq := rfl
@[simp] theorem Module.setFld_hostMem (m : Module) (f : Field) (i j v : Nat) : (m.setFld f i j v).hostMem = m.hostMem := rfl
@[simp] theorem Module.setFld_dram (m : Module) (f : Field) (i j v : Nat) : (m.setFld f i j v).dram = m.dram := rfl
@[simp] theorem Module.setFld_dramEcc (m : Module) (f : Field) (i j v : Nat) : (m.setFld f i j v).dramEcc = m.dramEcc := rfl
@[simp] theorem Module.setFld_poison (m : Module) (f : Field) (i j v : Nat) : (m.setFld f i j v).poison = m.poison := rfl
@[simp] theorem Module.setFld_tags (m : Module) (f : Field) (i j v : Nat) : (m.setFld f i j v).tags = m.tags := rfl
@[simp] theorem Module.setFld_nextStack (m : Module) (f : Field) (i j v : Nat) : (m.setFld f i j v).nextStack = m.nextStack := rfl
@[simp] theorem Module.setFld_keys (m : Module) (f : Field) (i j v : Nat) : (m.setFld f i j v).keys = m.keys := rfl
@[simp] theorem Module.setFld_nextKey (m : Module) (f : Field) (i j v : Nat) : (m.setFld f i j v).nextKey = m.nextKey := rfl
@[simp] theorem Module.setFld_patches (m : Module) (f : Field) (i j v : Nat) : (m.setFld f i j v).patches = m.patches := rfl
@[simp] theorem Module.setFld_patchDue (m : Module) (f : Field) (i j v : Nat) : (m.setFld f i j v).patchDue = m.patchDue := rfl
@[simp] theorem Module.setFld_xcache (m : Module) (f : Field) (i j v : Nat) : (m.setFld f i j v).xcache = m.xcache := rfl
@[simp] theorem Module.setFld_skew (m : Module) (f : Field) (i j v : Nat) : (m.setFld f i j v).skew = m.skew := rfl
@[simp] theorem Module.setFld_hold (m : Module) (f : Field) (i j v : Nat) : (m.setFld f i j v).hold = m.hold := rfl
@[simp] theorem Module.setFld_holdEcc (m : Module) (f : Field) (i j v : Nat) : (m.setFld f i j v).holdEcc = m.holdEcc := rfl
@[simp] theorem Module.setFld_holdPoison (m : Module) (f : Field) (i j v : Nat) : (m.setFld f i j v).holdPoison = m.holdPoison := rfl
@[simp] theorem Module.setFld_holdMap (m : Module) (f : Field) (i j v : Nat) : (m.setFld f i j v).holdMap = m.holdMap := rfl
@[simp] theorem Module.setFld_banks (m : Module) (f : Field) (i j v : Nat) : (m.setFld f i j v).banks = m.banks := rfl
@[simp] theorem Module.setFld_bases (m : Module) (f : Field) (i j v : Nat) : (m.setFld f i j v).bases = m.bases := rfl
@[simp] theorem Module.setFld_baseGrants (m : Module) (f : Field) (i j v : Nat) : (m.setFld f i j v).baseGrants = m.baseGrants := rfl
@[simp] theorem Module.setFld_pathErr (m : Module) (f : Field) (i j v : Nat) : (m.setFld f i j v).pathErr = m.pathErr := rfl
@[simp] theorem Module.setFld_tiles (m : Module) (f : Field) (i j v : Nat) : (m.setFld f i j v).tiles = m.tiles := rfl
@[simp] theorem Module.setFld_cls (m : Module) (f : Field) (i j v : Nat) : (m.setFld f i j v).cls = m.cls := rfl
@[simp] theorem Module.setFld_routes (m : Module) (f : Field) (i j v : Nat) : (m.setFld f i j v).routes = m.routes := rfl
@[simp] theorem Module.setFld_deck (m : Module) (f : Field) (i j v : Nat) : (m.setFld f i j v).deck = m.deck := rfl
@[simp] theorem Module.setFld_xres (m : Module) (f : Field) (i j v : Nat) : (m.setFld f i j v).xres = m.xres := rfl
@[simp] theorem Module.setFld_epochs (m : Module) (f : Field) (i j v : Nat) : (m.setFld f i j v).epochs = m.epochs := rfl
@[simp] theorem Module.setFld_repairRecords (m : Module) (f : Field) (i j v : Nat) : (m.setFld f i j v).repairRecords = m.repairRecords := rfl
@[simp] theorem Module.setFld_eraseRecords (m : Module) (f : Field) (i j v : Nat) : (m.setFld f i j v).eraseRecords = m.eraseRecords := rfl
@[simp] theorem Module.setFld_balHi (m : Module) (f : Field) (i j v : Nat) : (m.setFld f i j v).balHi = m.balHi := rfl
@[simp] theorem Module.setFld_balLo (m : Module) (f : Field) (i j v : Nat) : (m.setFld f i j v).balLo = m.balLo := rfl
@[simp] theorem Module.setFld_weights (m : Module) (f : Field) (i j v : Nat) : (m.setFld f i j v).weights = m.weights := rfl
@[simp] theorem Module.setFld_groupOps (m : Module) (f : Field) (i j v : Nat) : (m.setFld f i j v).groupOps = m.groupOps := rfl
@[simp] theorem Module.setFld_waybills (m : Module) (f : Field) (i j v : Nat) : (m.setFld f i j v).waybills = m.waybills := rfl
@[simp] theorem Module.setFld_kept (m : Module) (f : Field) (i j v : Nat) : (m.setFld f i j v).kept = m.kept := rfl
@[simp] theorem Module.setFld_notices (m : Module) (f : Field) (i j v : Nat) : (m.setFld f i j v).notices = m.notices := rfl
@[simp] theorem Module.setFld_caravans (m : Module) (f : Field) (i j v : Nat) : (m.setFld f i j v).caravans = m.caravans := rfl
@[simp] theorem Module.setFld_batchDue (m : Module) (f : Field) (i j v : Nat) : (m.setFld f i j v).batchDue = m.batchDue := rfl
@[simp] theorem Module.setFld_kat (m : Module) (f : Field) (i j v : Nat) : (m.setFld f i j v).kat = m.kat := rfl
@[simp] theorem Module.setFld_ports (m : Module) (f : Field) (i j v : Nat) : (m.setFld f i j v).ports = m.ports := rfl
@[simp] theorem Module.setFld_inbox (m : Module) (f : Field) (i j v : Nat) : (m.setFld f i j v).inbox = m.inbox := rfl
@[simp] theorem Module.setFld_insts (m : Module) (f : Field) (i j v : Nat) : (m.setFld f i j v).insts = m.insts := rfl
@[simp] theorem Module.setFld_slots (m : Module) (f : Field) (i j v : Nat) : (m.setFld f i j v).slots = m.slots := rfl
@[simp] theorem Module.setFld_resumeDue (m : Module) (f : Field) (i j v : Nat) : (m.setFld f i j v).resumeDue = m.resumeDue := rfl
@[simp] theorem Module.setFld_ferries (m : Module) (f : Field) (i j v : Nat) : (m.setFld f i j v).ferries = m.ferries := rfl
@[simp] theorem Module.setFld_captures (m : Module) (f : Field) (i j v : Nat) : (m.setFld f i j v).captures = m.captures := rfl
@[simp] theorem Module.setFld_restores (m : Module) (f : Field) (i j v : Nat) : (m.setFld f i j v).restores = m.restores := rfl
@[simp] theorem Module.setFld_held (m : Module) (f : Field) (i j v : Nat) : (m.setFld f i j v).held = m.held := rfl
@[simp] theorem Module.setFld_creating (m : Module) (f : Field) (i j v : Nat) : (m.setFld f i j v).creating = m.creating := rfl
@[simp] theorem Module.setFld_scrubbing (m : Module) (f : Field) (i j v : Nat) : (m.setFld f i j v).scrubbing = m.scrubbing := rfl
@[simp] theorem Module.setFld_vfs (m : Module) (f : Field) (i j v : Nat) : (m.setFld f i j v).vfs = m.vfs := rfl
@[simp] theorem Module.setFld_ledgers (m : Module) (f : Field) (i j v : Nat) : (m.setFld f i j v).ledgers = m.ledgers := rfl
@[simp] theorem Module.setFld_ledgerEnergy (m : Module) (f : Field) (i j v : Nat) : (m.setFld f i j v).ledgerEnergy = m.ledgerEnergy := rfl
@[simp] theorem Module.setFld_ledgerLen (m : Module) (f : Field) (i j v : Nat) : (m.setFld f i j v).ledgerLen = m.ledgerLen := rfl
@[simp] theorem Module.setFld_ledgerQueue (m : Module) (f : Field) (i j v : Nat) : (m.setFld f i j v).ledgerQueue = m.ledgerQueue := rfl
@[simp] theorem Module.setFld_ledgerCarry (m : Module) (f : Field) (i j v : Nat) : (m.setFld f i j v).ledgerCarry = m.ledgerCarry := rfl
@[simp] theorem Module.setFld_board (m : Module) (f : Field) (i j v : Nat) : (m.setFld f i j v).board = m.board := rfl
@[simp] theorem Module.setFld_side (m : Module) (f : Field) (i j v : Nat) : (m.setFld f i j v).side = m.side := rfl

/-! ## setFlag changes `regs` only -/

@[simp] theorem Module.setFlag_latches (m : Module) (f : Field) (i j : Nat) (v : Bool) : (m.setFlag f i j v).latches = m.latches := rfl
@[simp] theorem Module.setFlag_turns (m : Module) (f : Field) (i j : Nat) (v : Bool) : (m.setFlag f i j v).turns = m.turns := rfl
@[simp] theorem Module.setFlag_nextNear (m : Module) (f : Field) (i j : Nat) (v : Bool) : (m.setFlag f i j v).nextNear = m.nextNear := rfl
@[simp] theorem Module.setFlag_mapOrder (m : Module) (f : Field) (i j : Nat) (v : Bool) : (m.setFlag f i j v).mapOrder = m.mapOrder := rfl
@[simp] theorem Module.setFlag_tokens (m : Module) (f : Field) (i j : Nat) (v : Bool) : (m.setFlag f i j v).tokens = m.tokens := rfl
@[simp] theorem Module.setFlag_deckSeq (m : Module) (f : Field) (i j : Nat) (v : Bool) : (m.setFlag f i j v).deckSeq = m.deckSeq := rfl
@[simp] theorem Module.setFlag_mapFaults (m : Module) (f : Field) (i j : Nat) (v : Bool) : (m.setFlag f i j v).mapFaults = m.mapFaults := rfl
@[simp] theorem Module.setFlag_rngBad (m : Module) (f : Field) (i j : Nat) (v : Bool) : (m.setFlag f i j v).rngBad = m.rngBad := rfl
@[simp] theorem Module.setFlag_freeIx (m : Module) (f : Field) (i j : Nat) (v : Bool) : (m.setFlag f i j v).freeIx = m.freeIx := rfl
@[simp] theorem Module.setFlag_errWin (m : Module) (f : Field) (i j : Nat) (v : Bool) : (m.setFlag f i j v).errWin = m.errWin := rfl
@[simp] theorem Module.setFlag_out (m : Module) (f : Field) (i j : Nat) (v : Bool) : (m.setFlag f i j v).out = m.out := rfl
@[simp] theorem Module.setFlag_sigs (m : Module) (f : Field) (i j : Nat) (v : Bool) : (m.setFlag f i j v).sigs = m.sigs := rfl
@[simp] theorem Module.setFlag_aliveDriven (m : Module) (f : Field) (i j : Nat) (v : Bool) : (m.setFlag f i j v).aliveDriven = m.aliveDriven := rfl
@[simp] theorem Module.setFlag_aliveHold (m : Module) (f : Field) (i j : Nat) (v : Bool) : (m.setFlag f i j v).aliveHold = m.aliveHold := rfl
@[simp] theorem Module.setFlag_pins (m : Module) (f : Field) (i j : Nat) (v : Bool) : (m.setFlag f i j v).pins = m.pins := rfl
@[simp] theorem Module.setFlag_rings (m : Module) (f : Field) (i j : Nat) (v : Bool) : (m.setFlag f i j v).rings = m.rings := rfl
@[simp] theorem Module.setFlag_cmds (m : Module) (f : Field) (i j : Nat) (v : Bool) : (m.setFlag f i j v).cmds = m.cmds := rfl
@[simp] theorem Module.setFlag_nextSeq (m : Module) (f : Field) (i j : Nat) (v : Bool) : (m.setFlag f i j v).nextSeq = m.nextSeq := rfl
@[simp] theorem Module.setFlag_hostMem (m : Module) (f : Field) (i j : Nat) (v : Bool) : (m.setFlag f i j v).hostMem = m.hostMem := rfl
@[simp] theorem Module.setFlag_dram (m : Module) (f : Field) (i j : Nat) (v : Bool) : (m.setFlag f i j v).dram = m.dram := rfl
@[simp] theorem Module.setFlag_dramEcc (m : Module) (f : Field) (i j : Nat) (v : Bool) : (m.setFlag f i j v).dramEcc = m.dramEcc := rfl
@[simp] theorem Module.setFlag_poison (m : Module) (f : Field) (i j : Nat) (v : Bool) : (m.setFlag f i j v).poison = m.poison := rfl
@[simp] theorem Module.setFlag_tags (m : Module) (f : Field) (i j : Nat) (v : Bool) : (m.setFlag f i j v).tags = m.tags := rfl
@[simp] theorem Module.setFlag_nextStack (m : Module) (f : Field) (i j : Nat) (v : Bool) : (m.setFlag f i j v).nextStack = m.nextStack := rfl
@[simp] theorem Module.setFlag_keys (m : Module) (f : Field) (i j : Nat) (v : Bool) : (m.setFlag f i j v).keys = m.keys := rfl
@[simp] theorem Module.setFlag_nextKey (m : Module) (f : Field) (i j : Nat) (v : Bool) : (m.setFlag f i j v).nextKey = m.nextKey := rfl
@[simp] theorem Module.setFlag_patches (m : Module) (f : Field) (i j : Nat) (v : Bool) : (m.setFlag f i j v).patches = m.patches := rfl
@[simp] theorem Module.setFlag_patchDue (m : Module) (f : Field) (i j : Nat) (v : Bool) : (m.setFlag f i j v).patchDue = m.patchDue := rfl
@[simp] theorem Module.setFlag_xcache (m : Module) (f : Field) (i j : Nat) (v : Bool) : (m.setFlag f i j v).xcache = m.xcache := rfl
@[simp] theorem Module.setFlag_skew (m : Module) (f : Field) (i j : Nat) (v : Bool) : (m.setFlag f i j v).skew = m.skew := rfl
@[simp] theorem Module.setFlag_hold (m : Module) (f : Field) (i j : Nat) (v : Bool) : (m.setFlag f i j v).hold = m.hold := rfl
@[simp] theorem Module.setFlag_holdEcc (m : Module) (f : Field) (i j : Nat) (v : Bool) : (m.setFlag f i j v).holdEcc = m.holdEcc := rfl
@[simp] theorem Module.setFlag_holdPoison (m : Module) (f : Field) (i j : Nat) (v : Bool) : (m.setFlag f i j v).holdPoison = m.holdPoison := rfl
@[simp] theorem Module.setFlag_holdMap (m : Module) (f : Field) (i j : Nat) (v : Bool) : (m.setFlag f i j v).holdMap = m.holdMap := rfl
@[simp] theorem Module.setFlag_banks (m : Module) (f : Field) (i j : Nat) (v : Bool) : (m.setFlag f i j v).banks = m.banks := rfl
@[simp] theorem Module.setFlag_bases (m : Module) (f : Field) (i j : Nat) (v : Bool) : (m.setFlag f i j v).bases = m.bases := rfl
@[simp] theorem Module.setFlag_baseGrants (m : Module) (f : Field) (i j : Nat) (v : Bool) : (m.setFlag f i j v).baseGrants = m.baseGrants := rfl
@[simp] theorem Module.setFlag_pathErr (m : Module) (f : Field) (i j : Nat) (v : Bool) : (m.setFlag f i j v).pathErr = m.pathErr := rfl
@[simp] theorem Module.setFlag_tiles (m : Module) (f : Field) (i j : Nat) (v : Bool) : (m.setFlag f i j v).tiles = m.tiles := rfl
@[simp] theorem Module.setFlag_cls (m : Module) (f : Field) (i j : Nat) (v : Bool) : (m.setFlag f i j v).cls = m.cls := rfl
@[simp] theorem Module.setFlag_routes (m : Module) (f : Field) (i j : Nat) (v : Bool) : (m.setFlag f i j v).routes = m.routes := rfl
@[simp] theorem Module.setFlag_deck (m : Module) (f : Field) (i j : Nat) (v : Bool) : (m.setFlag f i j v).deck = m.deck := rfl
@[simp] theorem Module.setFlag_xres (m : Module) (f : Field) (i j : Nat) (v : Bool) : (m.setFlag f i j v).xres = m.xres := rfl
@[simp] theorem Module.setFlag_epochs (m : Module) (f : Field) (i j : Nat) (v : Bool) : (m.setFlag f i j v).epochs = m.epochs := rfl
@[simp] theorem Module.setFlag_repairRecords (m : Module) (f : Field) (i j : Nat) (v : Bool) : (m.setFlag f i j v).repairRecords = m.repairRecords := rfl
@[simp] theorem Module.setFlag_eraseRecords (m : Module) (f : Field) (i j : Nat) (v : Bool) : (m.setFlag f i j v).eraseRecords = m.eraseRecords := rfl
@[simp] theorem Module.setFlag_balHi (m : Module) (f : Field) (i j : Nat) (v : Bool) : (m.setFlag f i j v).balHi = m.balHi := rfl
@[simp] theorem Module.setFlag_balLo (m : Module) (f : Field) (i j : Nat) (v : Bool) : (m.setFlag f i j v).balLo = m.balLo := rfl
@[simp] theorem Module.setFlag_weights (m : Module) (f : Field) (i j : Nat) (v : Bool) : (m.setFlag f i j v).weights = m.weights := rfl
@[simp] theorem Module.setFlag_groupOps (m : Module) (f : Field) (i j : Nat) (v : Bool) : (m.setFlag f i j v).groupOps = m.groupOps := rfl
@[simp] theorem Module.setFlag_waybills (m : Module) (f : Field) (i j : Nat) (v : Bool) : (m.setFlag f i j v).waybills = m.waybills := rfl
@[simp] theorem Module.setFlag_kept (m : Module) (f : Field) (i j : Nat) (v : Bool) : (m.setFlag f i j v).kept = m.kept := rfl
@[simp] theorem Module.setFlag_notices (m : Module) (f : Field) (i j : Nat) (v : Bool) : (m.setFlag f i j v).notices = m.notices := rfl
@[simp] theorem Module.setFlag_caravans (m : Module) (f : Field) (i j : Nat) (v : Bool) : (m.setFlag f i j v).caravans = m.caravans := rfl
@[simp] theorem Module.setFlag_batchDue (m : Module) (f : Field) (i j : Nat) (v : Bool) : (m.setFlag f i j v).batchDue = m.batchDue := rfl
@[simp] theorem Module.setFlag_kat (m : Module) (f : Field) (i j : Nat) (v : Bool) : (m.setFlag f i j v).kat = m.kat := rfl
@[simp] theorem Module.setFlag_ports (m : Module) (f : Field) (i j : Nat) (v : Bool) : (m.setFlag f i j v).ports = m.ports := rfl
@[simp] theorem Module.setFlag_inbox (m : Module) (f : Field) (i j : Nat) (v : Bool) : (m.setFlag f i j v).inbox = m.inbox := rfl
@[simp] theorem Module.setFlag_insts (m : Module) (f : Field) (i j : Nat) (v : Bool) : (m.setFlag f i j v).insts = m.insts := rfl
@[simp] theorem Module.setFlag_slots (m : Module) (f : Field) (i j : Nat) (v : Bool) : (m.setFlag f i j v).slots = m.slots := rfl
@[simp] theorem Module.setFlag_resumeDue (m : Module) (f : Field) (i j : Nat) (v : Bool) : (m.setFlag f i j v).resumeDue = m.resumeDue := rfl
@[simp] theorem Module.setFlag_ferries (m : Module) (f : Field) (i j : Nat) (v : Bool) : (m.setFlag f i j v).ferries = m.ferries := rfl
@[simp] theorem Module.setFlag_captures (m : Module) (f : Field) (i j : Nat) (v : Bool) : (m.setFlag f i j v).captures = m.captures := rfl
@[simp] theorem Module.setFlag_restores (m : Module) (f : Field) (i j : Nat) (v : Bool) : (m.setFlag f i j v).restores = m.restores := rfl
@[simp] theorem Module.setFlag_held (m : Module) (f : Field) (i j : Nat) (v : Bool) : (m.setFlag f i j v).held = m.held := rfl
@[simp] theorem Module.setFlag_creating (m : Module) (f : Field) (i j : Nat) (v : Bool) : (m.setFlag f i j v).creating = m.creating := rfl
@[simp] theorem Module.setFlag_scrubbing (m : Module) (f : Field) (i j : Nat) (v : Bool) : (m.setFlag f i j v).scrubbing = m.scrubbing := rfl
@[simp] theorem Module.setFlag_vfs (m : Module) (f : Field) (i j : Nat) (v : Bool) : (m.setFlag f i j v).vfs = m.vfs := rfl
@[simp] theorem Module.setFlag_ledgers (m : Module) (f : Field) (i j : Nat) (v : Bool) : (m.setFlag f i j v).ledgers = m.ledgers := rfl
@[simp] theorem Module.setFlag_ledgerEnergy (m : Module) (f : Field) (i j : Nat) (v : Bool) : (m.setFlag f i j v).ledgerEnergy = m.ledgerEnergy := rfl
@[simp] theorem Module.setFlag_ledgerLen (m : Module) (f : Field) (i j : Nat) (v : Bool) : (m.setFlag f i j v).ledgerLen = m.ledgerLen := rfl
@[simp] theorem Module.setFlag_ledgerQueue (m : Module) (f : Field) (i j : Nat) (v : Bool) : (m.setFlag f i j v).ledgerQueue = m.ledgerQueue := rfl
@[simp] theorem Module.setFlag_ledgerCarry (m : Module) (f : Field) (i j : Nat) (v : Bool) : (m.setFlag f i j v).ledgerCarry = m.ledgerCarry := rfl
@[simp] theorem Module.setFlag_board (m : Module) (f : Field) (i j : Nat) (v : Bool) : (m.setFlag f i j v).board = m.board := rfl
@[simp] theorem Module.setFlag_side (m : Module) (f : Field) (i j : Nat) (v : Bool) : (m.setFlag f i j v).side = m.side := rfl

/-! ## addFld changes `regs` only -/

@[simp] theorem Module.addFld_latches (m : Module) (f : Field) (i j n : Nat) : (m.addFld f i j n).latches = m.latches := rfl
@[simp] theorem Module.addFld_turns (m : Module) (f : Field) (i j n : Nat) : (m.addFld f i j n).turns = m.turns := rfl
@[simp] theorem Module.addFld_nextNear (m : Module) (f : Field) (i j n : Nat) : (m.addFld f i j n).nextNear = m.nextNear := rfl
@[simp] theorem Module.addFld_mapOrder (m : Module) (f : Field) (i j n : Nat) : (m.addFld f i j n).mapOrder = m.mapOrder := rfl
@[simp] theorem Module.addFld_tokens (m : Module) (f : Field) (i j n : Nat) : (m.addFld f i j n).tokens = m.tokens := rfl
@[simp] theorem Module.addFld_deckSeq (m : Module) (f : Field) (i j n : Nat) : (m.addFld f i j n).deckSeq = m.deckSeq := rfl
@[simp] theorem Module.addFld_mapFaults (m : Module) (f : Field) (i j n : Nat) : (m.addFld f i j n).mapFaults = m.mapFaults := rfl
@[simp] theorem Module.addFld_rngBad (m : Module) (f : Field) (i j n : Nat) : (m.addFld f i j n).rngBad = m.rngBad := rfl
@[simp] theorem Module.addFld_freeIx (m : Module) (f : Field) (i j n : Nat) : (m.addFld f i j n).freeIx = m.freeIx := rfl
@[simp] theorem Module.addFld_errWin (m : Module) (f : Field) (i j n : Nat) : (m.addFld f i j n).errWin = m.errWin := rfl
@[simp] theorem Module.addFld_out (m : Module) (f : Field) (i j n : Nat) : (m.addFld f i j n).out = m.out := rfl
@[simp] theorem Module.addFld_sigs (m : Module) (f : Field) (i j n : Nat) : (m.addFld f i j n).sigs = m.sigs := rfl
@[simp] theorem Module.addFld_aliveDriven (m : Module) (f : Field) (i j n : Nat) : (m.addFld f i j n).aliveDriven = m.aliveDriven := rfl
@[simp] theorem Module.addFld_aliveHold (m : Module) (f : Field) (i j n : Nat) : (m.addFld f i j n).aliveHold = m.aliveHold := rfl
@[simp] theorem Module.addFld_pins (m : Module) (f : Field) (i j n : Nat) : (m.addFld f i j n).pins = m.pins := rfl
@[simp] theorem Module.addFld_rings (m : Module) (f : Field) (i j n : Nat) : (m.addFld f i j n).rings = m.rings := rfl
@[simp] theorem Module.addFld_cmds (m : Module) (f : Field) (i j n : Nat) : (m.addFld f i j n).cmds = m.cmds := rfl
@[simp] theorem Module.addFld_nextSeq (m : Module) (f : Field) (i j n : Nat) : (m.addFld f i j n).nextSeq = m.nextSeq := rfl
@[simp] theorem Module.addFld_hostMem (m : Module) (f : Field) (i j n : Nat) : (m.addFld f i j n).hostMem = m.hostMem := rfl
@[simp] theorem Module.addFld_dram (m : Module) (f : Field) (i j n : Nat) : (m.addFld f i j n).dram = m.dram := rfl
@[simp] theorem Module.addFld_dramEcc (m : Module) (f : Field) (i j n : Nat) : (m.addFld f i j n).dramEcc = m.dramEcc := rfl
@[simp] theorem Module.addFld_poison (m : Module) (f : Field) (i j n : Nat) : (m.addFld f i j n).poison = m.poison := rfl
@[simp] theorem Module.addFld_tags (m : Module) (f : Field) (i j n : Nat) : (m.addFld f i j n).tags = m.tags := rfl
@[simp] theorem Module.addFld_nextStack (m : Module) (f : Field) (i j n : Nat) : (m.addFld f i j n).nextStack = m.nextStack := rfl
@[simp] theorem Module.addFld_keys (m : Module) (f : Field) (i j n : Nat) : (m.addFld f i j n).keys = m.keys := rfl
@[simp] theorem Module.addFld_nextKey (m : Module) (f : Field) (i j n : Nat) : (m.addFld f i j n).nextKey = m.nextKey := rfl
@[simp] theorem Module.addFld_patches (m : Module) (f : Field) (i j n : Nat) : (m.addFld f i j n).patches = m.patches := rfl
@[simp] theorem Module.addFld_patchDue (m : Module) (f : Field) (i j n : Nat) : (m.addFld f i j n).patchDue = m.patchDue := rfl
@[simp] theorem Module.addFld_xcache (m : Module) (f : Field) (i j n : Nat) : (m.addFld f i j n).xcache = m.xcache := rfl
@[simp] theorem Module.addFld_skew (m : Module) (f : Field) (i j n : Nat) : (m.addFld f i j n).skew = m.skew := rfl
@[simp] theorem Module.addFld_hold (m : Module) (f : Field) (i j n : Nat) : (m.addFld f i j n).hold = m.hold := rfl
@[simp] theorem Module.addFld_holdEcc (m : Module) (f : Field) (i j n : Nat) : (m.addFld f i j n).holdEcc = m.holdEcc := rfl
@[simp] theorem Module.addFld_holdPoison (m : Module) (f : Field) (i j n : Nat) : (m.addFld f i j n).holdPoison = m.holdPoison := rfl
@[simp] theorem Module.addFld_holdMap (m : Module) (f : Field) (i j n : Nat) : (m.addFld f i j n).holdMap = m.holdMap := rfl
@[simp] theorem Module.addFld_banks (m : Module) (f : Field) (i j n : Nat) : (m.addFld f i j n).banks = m.banks := rfl
@[simp] theorem Module.addFld_bases (m : Module) (f : Field) (i j n : Nat) : (m.addFld f i j n).bases = m.bases := rfl
@[simp] theorem Module.addFld_baseGrants (m : Module) (f : Field) (i j n : Nat) : (m.addFld f i j n).baseGrants = m.baseGrants := rfl
@[simp] theorem Module.addFld_pathErr (m : Module) (f : Field) (i j n : Nat) : (m.addFld f i j n).pathErr = m.pathErr := rfl
@[simp] theorem Module.addFld_tiles (m : Module) (f : Field) (i j n : Nat) : (m.addFld f i j n).tiles = m.tiles := rfl
@[simp] theorem Module.addFld_cls (m : Module) (f : Field) (i j n : Nat) : (m.addFld f i j n).cls = m.cls := rfl
@[simp] theorem Module.addFld_routes (m : Module) (f : Field) (i j n : Nat) : (m.addFld f i j n).routes = m.routes := rfl
@[simp] theorem Module.addFld_deck (m : Module) (f : Field) (i j n : Nat) : (m.addFld f i j n).deck = m.deck := rfl
@[simp] theorem Module.addFld_xres (m : Module) (f : Field) (i j n : Nat) : (m.addFld f i j n).xres = m.xres := rfl
@[simp] theorem Module.addFld_epochs (m : Module) (f : Field) (i j n : Nat) : (m.addFld f i j n).epochs = m.epochs := rfl
@[simp] theorem Module.addFld_repairRecords (m : Module) (f : Field) (i j n : Nat) : (m.addFld f i j n).repairRecords = m.repairRecords := rfl
@[simp] theorem Module.addFld_eraseRecords (m : Module) (f : Field) (i j n : Nat) : (m.addFld f i j n).eraseRecords = m.eraseRecords := rfl
@[simp] theorem Module.addFld_balHi (m : Module) (f : Field) (i j n : Nat) : (m.addFld f i j n).balHi = m.balHi := rfl
@[simp] theorem Module.addFld_balLo (m : Module) (f : Field) (i j n : Nat) : (m.addFld f i j n).balLo = m.balLo := rfl
@[simp] theorem Module.addFld_weights (m : Module) (f : Field) (i j n : Nat) : (m.addFld f i j n).weights = m.weights := rfl
@[simp] theorem Module.addFld_groupOps (m : Module) (f : Field) (i j n : Nat) : (m.addFld f i j n).groupOps = m.groupOps := rfl
@[simp] theorem Module.addFld_waybills (m : Module) (f : Field) (i j n : Nat) : (m.addFld f i j n).waybills = m.waybills := rfl
@[simp] theorem Module.addFld_kept (m : Module) (f : Field) (i j n : Nat) : (m.addFld f i j n).kept = m.kept := rfl
@[simp] theorem Module.addFld_notices (m : Module) (f : Field) (i j n : Nat) : (m.addFld f i j n).notices = m.notices := rfl
@[simp] theorem Module.addFld_caravans (m : Module) (f : Field) (i j n : Nat) : (m.addFld f i j n).caravans = m.caravans := rfl
@[simp] theorem Module.addFld_batchDue (m : Module) (f : Field) (i j n : Nat) : (m.addFld f i j n).batchDue = m.batchDue := rfl
@[simp] theorem Module.addFld_kat (m : Module) (f : Field) (i j n : Nat) : (m.addFld f i j n).kat = m.kat := rfl
@[simp] theorem Module.addFld_ports (m : Module) (f : Field) (i j n : Nat) : (m.addFld f i j n).ports = m.ports := rfl
@[simp] theorem Module.addFld_inbox (m : Module) (f : Field) (i j n : Nat) : (m.addFld f i j n).inbox = m.inbox := rfl
@[simp] theorem Module.addFld_insts (m : Module) (f : Field) (i j n : Nat) : (m.addFld f i j n).insts = m.insts := rfl
@[simp] theorem Module.addFld_slots (m : Module) (f : Field) (i j n : Nat) : (m.addFld f i j n).slots = m.slots := rfl
@[simp] theorem Module.addFld_resumeDue (m : Module) (f : Field) (i j n : Nat) : (m.addFld f i j n).resumeDue = m.resumeDue := rfl
@[simp] theorem Module.addFld_ferries (m : Module) (f : Field) (i j n : Nat) : (m.addFld f i j n).ferries = m.ferries := rfl
@[simp] theorem Module.addFld_captures (m : Module) (f : Field) (i j n : Nat) : (m.addFld f i j n).captures = m.captures := rfl
@[simp] theorem Module.addFld_restores (m : Module) (f : Field) (i j n : Nat) : (m.addFld f i j n).restores = m.restores := rfl
@[simp] theorem Module.addFld_held (m : Module) (f : Field) (i j n : Nat) : (m.addFld f i j n).held = m.held := rfl
@[simp] theorem Module.addFld_creating (m : Module) (f : Field) (i j n : Nat) : (m.addFld f i j n).creating = m.creating := rfl
@[simp] theorem Module.addFld_scrubbing (m : Module) (f : Field) (i j n : Nat) : (m.addFld f i j n).scrubbing = m.scrubbing := rfl
@[simp] theorem Module.addFld_vfs (m : Module) (f : Field) (i j n : Nat) : (m.addFld f i j n).vfs = m.vfs := rfl
@[simp] theorem Module.addFld_ledgers (m : Module) (f : Field) (i j n : Nat) : (m.addFld f i j n).ledgers = m.ledgers := rfl
@[simp] theorem Module.addFld_ledgerEnergy (m : Module) (f : Field) (i j n : Nat) : (m.addFld f i j n).ledgerEnergy = m.ledgerEnergy := rfl
@[simp] theorem Module.addFld_ledgerLen (m : Module) (f : Field) (i j n : Nat) : (m.addFld f i j n).ledgerLen = m.ledgerLen := rfl
@[simp] theorem Module.addFld_ledgerQueue (m : Module) (f : Field) (i j n : Nat) : (m.addFld f i j n).ledgerQueue = m.ledgerQueue := rfl
@[simp] theorem Module.addFld_ledgerCarry (m : Module) (f : Field) (i j n : Nat) : (m.addFld f i j n).ledgerCarry = m.ledgerCarry := rfl
@[simp] theorem Module.addFld_board (m : Module) (f : Field) (i j n : Nat) : (m.addFld f i j n).board = m.board := rfl
@[simp] theorem Module.addFld_side (m : Module) (f : Field) (i j n : Nat) : (m.addFld f i j n).side = m.side := rfl

/-! ## subFld changes `regs` only -/

@[simp] theorem Module.subFld_latches (m : Module) (f : Field) (i j n : Nat) : (m.subFld f i j n).latches = m.latches := rfl
@[simp] theorem Module.subFld_turns (m : Module) (f : Field) (i j n : Nat) : (m.subFld f i j n).turns = m.turns := rfl
@[simp] theorem Module.subFld_nextNear (m : Module) (f : Field) (i j n : Nat) : (m.subFld f i j n).nextNear = m.nextNear := rfl
@[simp] theorem Module.subFld_mapOrder (m : Module) (f : Field) (i j n : Nat) : (m.subFld f i j n).mapOrder = m.mapOrder := rfl
@[simp] theorem Module.subFld_tokens (m : Module) (f : Field) (i j n : Nat) : (m.subFld f i j n).tokens = m.tokens := rfl
@[simp] theorem Module.subFld_deckSeq (m : Module) (f : Field) (i j n : Nat) : (m.subFld f i j n).deckSeq = m.deckSeq := rfl
@[simp] theorem Module.subFld_mapFaults (m : Module) (f : Field) (i j n : Nat) : (m.subFld f i j n).mapFaults = m.mapFaults := rfl
@[simp] theorem Module.subFld_rngBad (m : Module) (f : Field) (i j n : Nat) : (m.subFld f i j n).rngBad = m.rngBad := rfl
@[simp] theorem Module.subFld_freeIx (m : Module) (f : Field) (i j n : Nat) : (m.subFld f i j n).freeIx = m.freeIx := rfl
@[simp] theorem Module.subFld_errWin (m : Module) (f : Field) (i j n : Nat) : (m.subFld f i j n).errWin = m.errWin := rfl
@[simp] theorem Module.subFld_out (m : Module) (f : Field) (i j n : Nat) : (m.subFld f i j n).out = m.out := rfl
@[simp] theorem Module.subFld_sigs (m : Module) (f : Field) (i j n : Nat) : (m.subFld f i j n).sigs = m.sigs := rfl
@[simp] theorem Module.subFld_aliveDriven (m : Module) (f : Field) (i j n : Nat) : (m.subFld f i j n).aliveDriven = m.aliveDriven := rfl
@[simp] theorem Module.subFld_aliveHold (m : Module) (f : Field) (i j n : Nat) : (m.subFld f i j n).aliveHold = m.aliveHold := rfl
@[simp] theorem Module.subFld_pins (m : Module) (f : Field) (i j n : Nat) : (m.subFld f i j n).pins = m.pins := rfl
@[simp] theorem Module.subFld_rings (m : Module) (f : Field) (i j n : Nat) : (m.subFld f i j n).rings = m.rings := rfl
@[simp] theorem Module.subFld_cmds (m : Module) (f : Field) (i j n : Nat) : (m.subFld f i j n).cmds = m.cmds := rfl
@[simp] theorem Module.subFld_nextSeq (m : Module) (f : Field) (i j n : Nat) : (m.subFld f i j n).nextSeq = m.nextSeq := rfl
@[simp] theorem Module.subFld_hostMem (m : Module) (f : Field) (i j n : Nat) : (m.subFld f i j n).hostMem = m.hostMem := rfl
@[simp] theorem Module.subFld_dram (m : Module) (f : Field) (i j n : Nat) : (m.subFld f i j n).dram = m.dram := rfl
@[simp] theorem Module.subFld_dramEcc (m : Module) (f : Field) (i j n : Nat) : (m.subFld f i j n).dramEcc = m.dramEcc := rfl
@[simp] theorem Module.subFld_poison (m : Module) (f : Field) (i j n : Nat) : (m.subFld f i j n).poison = m.poison := rfl
@[simp] theorem Module.subFld_tags (m : Module) (f : Field) (i j n : Nat) : (m.subFld f i j n).tags = m.tags := rfl
@[simp] theorem Module.subFld_nextStack (m : Module) (f : Field) (i j n : Nat) : (m.subFld f i j n).nextStack = m.nextStack := rfl
@[simp] theorem Module.subFld_keys (m : Module) (f : Field) (i j n : Nat) : (m.subFld f i j n).keys = m.keys := rfl
@[simp] theorem Module.subFld_nextKey (m : Module) (f : Field) (i j n : Nat) : (m.subFld f i j n).nextKey = m.nextKey := rfl
@[simp] theorem Module.subFld_patches (m : Module) (f : Field) (i j n : Nat) : (m.subFld f i j n).patches = m.patches := rfl
@[simp] theorem Module.subFld_patchDue (m : Module) (f : Field) (i j n : Nat) : (m.subFld f i j n).patchDue = m.patchDue := rfl
@[simp] theorem Module.subFld_xcache (m : Module) (f : Field) (i j n : Nat) : (m.subFld f i j n).xcache = m.xcache := rfl
@[simp] theorem Module.subFld_skew (m : Module) (f : Field) (i j n : Nat) : (m.subFld f i j n).skew = m.skew := rfl
@[simp] theorem Module.subFld_hold (m : Module) (f : Field) (i j n : Nat) : (m.subFld f i j n).hold = m.hold := rfl
@[simp] theorem Module.subFld_holdEcc (m : Module) (f : Field) (i j n : Nat) : (m.subFld f i j n).holdEcc = m.holdEcc := rfl
@[simp] theorem Module.subFld_holdPoison (m : Module) (f : Field) (i j n : Nat) : (m.subFld f i j n).holdPoison = m.holdPoison := rfl
@[simp] theorem Module.subFld_holdMap (m : Module) (f : Field) (i j n : Nat) : (m.subFld f i j n).holdMap = m.holdMap := rfl
@[simp] theorem Module.subFld_banks (m : Module) (f : Field) (i j n : Nat) : (m.subFld f i j n).banks = m.banks := rfl
@[simp] theorem Module.subFld_bases (m : Module) (f : Field) (i j n : Nat) : (m.subFld f i j n).bases = m.bases := rfl
@[simp] theorem Module.subFld_baseGrants (m : Module) (f : Field) (i j n : Nat) : (m.subFld f i j n).baseGrants = m.baseGrants := rfl
@[simp] theorem Module.subFld_pathErr (m : Module) (f : Field) (i j n : Nat) : (m.subFld f i j n).pathErr = m.pathErr := rfl
@[simp] theorem Module.subFld_tiles (m : Module) (f : Field) (i j n : Nat) : (m.subFld f i j n).tiles = m.tiles := rfl
@[simp] theorem Module.subFld_cls (m : Module) (f : Field) (i j n : Nat) : (m.subFld f i j n).cls = m.cls := rfl
@[simp] theorem Module.subFld_routes (m : Module) (f : Field) (i j n : Nat) : (m.subFld f i j n).routes = m.routes := rfl
@[simp] theorem Module.subFld_deck (m : Module) (f : Field) (i j n : Nat) : (m.subFld f i j n).deck = m.deck := rfl
@[simp] theorem Module.subFld_xres (m : Module) (f : Field) (i j n : Nat) : (m.subFld f i j n).xres = m.xres := rfl
@[simp] theorem Module.subFld_epochs (m : Module) (f : Field) (i j n : Nat) : (m.subFld f i j n).epochs = m.epochs := rfl
@[simp] theorem Module.subFld_repairRecords (m : Module) (f : Field) (i j n : Nat) : (m.subFld f i j n).repairRecords = m.repairRecords := rfl
@[simp] theorem Module.subFld_eraseRecords (m : Module) (f : Field) (i j n : Nat) : (m.subFld f i j n).eraseRecords = m.eraseRecords := rfl
@[simp] theorem Module.subFld_balHi (m : Module) (f : Field) (i j n : Nat) : (m.subFld f i j n).balHi = m.balHi := rfl
@[simp] theorem Module.subFld_balLo (m : Module) (f : Field) (i j n : Nat) : (m.subFld f i j n).balLo = m.balLo := rfl
@[simp] theorem Module.subFld_weights (m : Module) (f : Field) (i j n : Nat) : (m.subFld f i j n).weights = m.weights := rfl
@[simp] theorem Module.subFld_groupOps (m : Module) (f : Field) (i j n : Nat) : (m.subFld f i j n).groupOps = m.groupOps := rfl
@[simp] theorem Module.subFld_waybills (m : Module) (f : Field) (i j n : Nat) : (m.subFld f i j n).waybills = m.waybills := rfl
@[simp] theorem Module.subFld_kept (m : Module) (f : Field) (i j n : Nat) : (m.subFld f i j n).kept = m.kept := rfl
@[simp] theorem Module.subFld_notices (m : Module) (f : Field) (i j n : Nat) : (m.subFld f i j n).notices = m.notices := rfl
@[simp] theorem Module.subFld_caravans (m : Module) (f : Field) (i j n : Nat) : (m.subFld f i j n).caravans = m.caravans := rfl
@[simp] theorem Module.subFld_batchDue (m : Module) (f : Field) (i j n : Nat) : (m.subFld f i j n).batchDue = m.batchDue := rfl
@[simp] theorem Module.subFld_kat (m : Module) (f : Field) (i j n : Nat) : (m.subFld f i j n).kat = m.kat := rfl
@[simp] theorem Module.subFld_ports (m : Module) (f : Field) (i j n : Nat) : (m.subFld f i j n).ports = m.ports := rfl
@[simp] theorem Module.subFld_inbox (m : Module) (f : Field) (i j n : Nat) : (m.subFld f i j n).inbox = m.inbox := rfl
@[simp] theorem Module.subFld_insts (m : Module) (f : Field) (i j n : Nat) : (m.subFld f i j n).insts = m.insts := rfl
@[simp] theorem Module.subFld_slots (m : Module) (f : Field) (i j n : Nat) : (m.subFld f i j n).slots = m.slots := rfl
@[simp] theorem Module.subFld_resumeDue (m : Module) (f : Field) (i j n : Nat) : (m.subFld f i j n).resumeDue = m.resumeDue := rfl
@[simp] theorem Module.subFld_ferries (m : Module) (f : Field) (i j n : Nat) : (m.subFld f i j n).ferries = m.ferries := rfl
@[simp] theorem Module.subFld_captures (m : Module) (f : Field) (i j n : Nat) : (m.subFld f i j n).captures = m.captures := rfl
@[simp] theorem Module.subFld_restores (m : Module) (f : Field) (i j n : Nat) : (m.subFld f i j n).restores = m.restores := rfl
@[simp] theorem Module.subFld_held (m : Module) (f : Field) (i j n : Nat) : (m.subFld f i j n).held = m.held := rfl
@[simp] theorem Module.subFld_creating (m : Module) (f : Field) (i j n : Nat) : (m.subFld f i j n).creating = m.creating := rfl
@[simp] theorem Module.subFld_scrubbing (m : Module) (f : Field) (i j n : Nat) : (m.subFld f i j n).scrubbing = m.scrubbing := rfl
@[simp] theorem Module.subFld_vfs (m : Module) (f : Field) (i j n : Nat) : (m.subFld f i j n).vfs = m.vfs := rfl
@[simp] theorem Module.subFld_ledgers (m : Module) (f : Field) (i j n : Nat) : (m.subFld f i j n).ledgers = m.ledgers := rfl
@[simp] theorem Module.subFld_ledgerEnergy (m : Module) (f : Field) (i j n : Nat) : (m.subFld f i j n).ledgerEnergy = m.ledgerEnergy := rfl
@[simp] theorem Module.subFld_ledgerLen (m : Module) (f : Field) (i j n : Nat) : (m.subFld f i j n).ledgerLen = m.ledgerLen := rfl
@[simp] theorem Module.subFld_ledgerQueue (m : Module) (f : Field) (i j n : Nat) : (m.subFld f i j n).ledgerQueue = m.ledgerQueue := rfl
@[simp] theorem Module.subFld_ledgerCarry (m : Module) (f : Field) (i j n : Nat) : (m.subFld f i j n).ledgerCarry = m.ledgerCarry := rfl
@[simp] theorem Module.subFld_board (m : Module) (f : Field) (i j n : Nat) : (m.subFld f i j n).board = m.board := rfl
@[simp] theorem Module.subFld_side (m : Module) (f : Field) (i j n : Nat) : (m.subFld f i j n).side = m.side := rfl

/-! ## drawn changes `freeIx` only -/

@[simp] theorem Module.drawn_regs (m : Module) : (m.drawn).regs = m.regs := rfl
@[simp] theorem Module.drawn_latches (m : Module) : (m.drawn).latches = m.latches := rfl
@[simp] theorem Module.drawn_turns (m : Module) : (m.drawn).turns = m.turns := rfl
@[simp] theorem Module.drawn_nextNear (m : Module) : (m.drawn).nextNear = m.nextNear := rfl
@[simp] theorem Module.drawn_mapOrder (m : Module) : (m.drawn).mapOrder = m.mapOrder := rfl
@[simp] theorem Module.drawn_tokens (m : Module) : (m.drawn).tokens = m.tokens := rfl
@[simp] theorem Module.drawn_deckSeq (m : Module) : (m.drawn).deckSeq = m.deckSeq := rfl
@[simp] theorem Module.drawn_mapFaults (m : Module) : (m.drawn).mapFaults = m.mapFaults := rfl
@[simp] theorem Module.drawn_rngBad (m : Module) : (m.drawn).rngBad = m.rngBad := rfl
@[simp] theorem Module.drawn_errWin (m : Module) : (m.drawn).errWin = m.errWin := rfl
@[simp] theorem Module.drawn_out (m : Module) : (m.drawn).out = m.out := rfl
@[simp] theorem Module.drawn_sigs (m : Module) : (m.drawn).sigs = m.sigs := rfl
@[simp] theorem Module.drawn_aliveDriven (m : Module) : (m.drawn).aliveDriven = m.aliveDriven := rfl
@[simp] theorem Module.drawn_aliveHold (m : Module) : (m.drawn).aliveHold = m.aliveHold := rfl
@[simp] theorem Module.drawn_pins (m : Module) : (m.drawn).pins = m.pins := rfl
@[simp] theorem Module.drawn_rings (m : Module) : (m.drawn).rings = m.rings := rfl
@[simp] theorem Module.drawn_cmds (m : Module) : (m.drawn).cmds = m.cmds := rfl
@[simp] theorem Module.drawn_nextSeq (m : Module) : (m.drawn).nextSeq = m.nextSeq := rfl
@[simp] theorem Module.drawn_hostMem (m : Module) : (m.drawn).hostMem = m.hostMem := rfl
@[simp] theorem Module.drawn_dram (m : Module) : (m.drawn).dram = m.dram := rfl
@[simp] theorem Module.drawn_dramEcc (m : Module) : (m.drawn).dramEcc = m.dramEcc := rfl
@[simp] theorem Module.drawn_poison (m : Module) : (m.drawn).poison = m.poison := rfl
@[simp] theorem Module.drawn_tags (m : Module) : (m.drawn).tags = m.tags := rfl
@[simp] theorem Module.drawn_nextStack (m : Module) : (m.drawn).nextStack = m.nextStack := rfl
@[simp] theorem Module.drawn_keys (m : Module) : (m.drawn).keys = m.keys := rfl
@[simp] theorem Module.drawn_nextKey (m : Module) : (m.drawn).nextKey = m.nextKey := rfl
@[simp] theorem Module.drawn_patches (m : Module) : (m.drawn).patches = m.patches := rfl
@[simp] theorem Module.drawn_patchDue (m : Module) : (m.drawn).patchDue = m.patchDue := rfl
@[simp] theorem Module.drawn_xcache (m : Module) : (m.drawn).xcache = m.xcache := rfl
@[simp] theorem Module.drawn_skew (m : Module) : (m.drawn).skew = m.skew := rfl
@[simp] theorem Module.drawn_hold (m : Module) : (m.drawn).hold = m.hold := rfl
@[simp] theorem Module.drawn_holdEcc (m : Module) : (m.drawn).holdEcc = m.holdEcc := rfl
@[simp] theorem Module.drawn_holdPoison (m : Module) : (m.drawn).holdPoison = m.holdPoison := rfl
@[simp] theorem Module.drawn_holdMap (m : Module) : (m.drawn).holdMap = m.holdMap := rfl
@[simp] theorem Module.drawn_banks (m : Module) : (m.drawn).banks = m.banks := rfl
@[simp] theorem Module.drawn_bases (m : Module) : (m.drawn).bases = m.bases := rfl
@[simp] theorem Module.drawn_baseGrants (m : Module) : (m.drawn).baseGrants = m.baseGrants := rfl
@[simp] theorem Module.drawn_pathErr (m : Module) : (m.drawn).pathErr = m.pathErr := rfl
@[simp] theorem Module.drawn_tiles (m : Module) : (m.drawn).tiles = m.tiles := rfl
@[simp] theorem Module.drawn_cls (m : Module) : (m.drawn).cls = m.cls := rfl
@[simp] theorem Module.drawn_routes (m : Module) : (m.drawn).routes = m.routes := rfl
@[simp] theorem Module.drawn_deck (m : Module) : (m.drawn).deck = m.deck := rfl
@[simp] theorem Module.drawn_xres (m : Module) : (m.drawn).xres = m.xres := rfl
@[simp] theorem Module.drawn_epochs (m : Module) : (m.drawn).epochs = m.epochs := rfl
@[simp] theorem Module.drawn_repairRecords (m : Module) : (m.drawn).repairRecords = m.repairRecords := rfl
@[simp] theorem Module.drawn_eraseRecords (m : Module) : (m.drawn).eraseRecords = m.eraseRecords := rfl
@[simp] theorem Module.drawn_balHi (m : Module) : (m.drawn).balHi = m.balHi := rfl
@[simp] theorem Module.drawn_balLo (m : Module) : (m.drawn).balLo = m.balLo := rfl
@[simp] theorem Module.drawn_weights (m : Module) : (m.drawn).weights = m.weights := rfl
@[simp] theorem Module.drawn_groupOps (m : Module) : (m.drawn).groupOps = m.groupOps := rfl
@[simp] theorem Module.drawn_waybills (m : Module) : (m.drawn).waybills = m.waybills := rfl
@[simp] theorem Module.drawn_kept (m : Module) : (m.drawn).kept = m.kept := rfl
@[simp] theorem Module.drawn_notices (m : Module) : (m.drawn).notices = m.notices := rfl
@[simp] theorem Module.drawn_caravans (m : Module) : (m.drawn).caravans = m.caravans := rfl
@[simp] theorem Module.drawn_batchDue (m : Module) : (m.drawn).batchDue = m.batchDue := rfl
@[simp] theorem Module.drawn_kat (m : Module) : (m.drawn).kat = m.kat := rfl
@[simp] theorem Module.drawn_ports (m : Module) : (m.drawn).ports = m.ports := rfl
@[simp] theorem Module.drawn_inbox (m : Module) : (m.drawn).inbox = m.inbox := rfl
@[simp] theorem Module.drawn_insts (m : Module) : (m.drawn).insts = m.insts := rfl
@[simp] theorem Module.drawn_slots (m : Module) : (m.drawn).slots = m.slots := rfl
@[simp] theorem Module.drawn_resumeDue (m : Module) : (m.drawn).resumeDue = m.resumeDue := rfl
@[simp] theorem Module.drawn_ferries (m : Module) : (m.drawn).ferries = m.ferries := rfl
@[simp] theorem Module.drawn_captures (m : Module) : (m.drawn).captures = m.captures := rfl
@[simp] theorem Module.drawn_restores (m : Module) : (m.drawn).restores = m.restores := rfl
@[simp] theorem Module.drawn_held (m : Module) : (m.drawn).held = m.held := rfl
@[simp] theorem Module.drawn_creating (m : Module) : (m.drawn).creating = m.creating := rfl
@[simp] theorem Module.drawn_scrubbing (m : Module) : (m.drawn).scrubbing = m.scrubbing := rfl
@[simp] theorem Module.drawn_vfs (m : Module) : (m.drawn).vfs = m.vfs := rfl
@[simp] theorem Module.drawn_ledgers (m : Module) : (m.drawn).ledgers = m.ledgers := rfl
@[simp] theorem Module.drawn_ledgerEnergy (m : Module) : (m.drawn).ledgerEnergy = m.ledgerEnergy := rfl
@[simp] theorem Module.drawn_ledgerLen (m : Module) : (m.drawn).ledgerLen = m.ledgerLen := rfl
@[simp] theorem Module.drawn_ledgerQueue (m : Module) : (m.drawn).ledgerQueue = m.ledgerQueue := rfl
@[simp] theorem Module.drawn_ledgerCarry (m : Module) : (m.drawn).ledgerCarry = m.ledgerCarry := rfl
@[simp] theorem Module.drawn_board (m : Module) : (m.drawn).board = m.board := rfl
@[simp] theorem Module.drawn_side (m : Module) : (m.drawn).side = m.side := rfl

/-! ## send changes `out` only -/

@[simp] theorem Module.send_regs (m : Module) (x : OutMsg) : (m.send x).regs = m.regs := rfl
@[simp] theorem Module.send_latches (m : Module) (x : OutMsg) : (m.send x).latches = m.latches := rfl
@[simp] theorem Module.send_turns (m : Module) (x : OutMsg) : (m.send x).turns = m.turns := rfl
@[simp] theorem Module.send_nextNear (m : Module) (x : OutMsg) : (m.send x).nextNear = m.nextNear := rfl
@[simp] theorem Module.send_mapOrder (m : Module) (x : OutMsg) : (m.send x).mapOrder = m.mapOrder := rfl
@[simp] theorem Module.send_tokens (m : Module) (x : OutMsg) : (m.send x).tokens = m.tokens := rfl
@[simp] theorem Module.send_deckSeq (m : Module) (x : OutMsg) : (m.send x).deckSeq = m.deckSeq := rfl
@[simp] theorem Module.send_mapFaults (m : Module) (x : OutMsg) : (m.send x).mapFaults = m.mapFaults := rfl
@[simp] theorem Module.send_rngBad (m : Module) (x : OutMsg) : (m.send x).rngBad = m.rngBad := rfl
@[simp] theorem Module.send_freeIx (m : Module) (x : OutMsg) : (m.send x).freeIx = m.freeIx := rfl
@[simp] theorem Module.send_errWin (m : Module) (x : OutMsg) : (m.send x).errWin = m.errWin := rfl
@[simp] theorem Module.send_sigs (m : Module) (x : OutMsg) : (m.send x).sigs = m.sigs := rfl
@[simp] theorem Module.send_aliveDriven (m : Module) (x : OutMsg) : (m.send x).aliveDriven = m.aliveDriven := rfl
@[simp] theorem Module.send_aliveHold (m : Module) (x : OutMsg) : (m.send x).aliveHold = m.aliveHold := rfl
@[simp] theorem Module.send_pins (m : Module) (x : OutMsg) : (m.send x).pins = m.pins := rfl
@[simp] theorem Module.send_rings (m : Module) (x : OutMsg) : (m.send x).rings = m.rings := rfl
@[simp] theorem Module.send_cmds (m : Module) (x : OutMsg) : (m.send x).cmds = m.cmds := rfl
@[simp] theorem Module.send_nextSeq (m : Module) (x : OutMsg) : (m.send x).nextSeq = m.nextSeq := rfl
@[simp] theorem Module.send_hostMem (m : Module) (x : OutMsg) : (m.send x).hostMem = m.hostMem := rfl
@[simp] theorem Module.send_dram (m : Module) (x : OutMsg) : (m.send x).dram = m.dram := rfl
@[simp] theorem Module.send_dramEcc (m : Module) (x : OutMsg) : (m.send x).dramEcc = m.dramEcc := rfl
@[simp] theorem Module.send_poison (m : Module) (x : OutMsg) : (m.send x).poison = m.poison := rfl
@[simp] theorem Module.send_tags (m : Module) (x : OutMsg) : (m.send x).tags = m.tags := rfl
@[simp] theorem Module.send_nextStack (m : Module) (x : OutMsg) : (m.send x).nextStack = m.nextStack := rfl
@[simp] theorem Module.send_keys (m : Module) (x : OutMsg) : (m.send x).keys = m.keys := rfl
@[simp] theorem Module.send_nextKey (m : Module) (x : OutMsg) : (m.send x).nextKey = m.nextKey := rfl
@[simp] theorem Module.send_patches (m : Module) (x : OutMsg) : (m.send x).patches = m.patches := rfl
@[simp] theorem Module.send_patchDue (m : Module) (x : OutMsg) : (m.send x).patchDue = m.patchDue := rfl
@[simp] theorem Module.send_xcache (m : Module) (x : OutMsg) : (m.send x).xcache = m.xcache := rfl
@[simp] theorem Module.send_skew (m : Module) (x : OutMsg) : (m.send x).skew = m.skew := rfl
@[simp] theorem Module.send_hold (m : Module) (x : OutMsg) : (m.send x).hold = m.hold := rfl
@[simp] theorem Module.send_holdEcc (m : Module) (x : OutMsg) : (m.send x).holdEcc = m.holdEcc := rfl
@[simp] theorem Module.send_holdPoison (m : Module) (x : OutMsg) : (m.send x).holdPoison = m.holdPoison := rfl
@[simp] theorem Module.send_holdMap (m : Module) (x : OutMsg) : (m.send x).holdMap = m.holdMap := rfl
@[simp] theorem Module.send_banks (m : Module) (x : OutMsg) : (m.send x).banks = m.banks := rfl
@[simp] theorem Module.send_bases (m : Module) (x : OutMsg) : (m.send x).bases = m.bases := rfl
@[simp] theorem Module.send_baseGrants (m : Module) (x : OutMsg) : (m.send x).baseGrants = m.baseGrants := rfl
@[simp] theorem Module.send_pathErr (m : Module) (x : OutMsg) : (m.send x).pathErr = m.pathErr := rfl
@[simp] theorem Module.send_tiles (m : Module) (x : OutMsg) : (m.send x).tiles = m.tiles := rfl
@[simp] theorem Module.send_cls (m : Module) (x : OutMsg) : (m.send x).cls = m.cls := rfl
@[simp] theorem Module.send_routes (m : Module) (x : OutMsg) : (m.send x).routes = m.routes := rfl
@[simp] theorem Module.send_deck (m : Module) (x : OutMsg) : (m.send x).deck = m.deck := rfl
@[simp] theorem Module.send_xres (m : Module) (x : OutMsg) : (m.send x).xres = m.xres := rfl
@[simp] theorem Module.send_epochs (m : Module) (x : OutMsg) : (m.send x).epochs = m.epochs := rfl
@[simp] theorem Module.send_repairRecords (m : Module) (x : OutMsg) : (m.send x).repairRecords = m.repairRecords := rfl
@[simp] theorem Module.send_eraseRecords (m : Module) (x : OutMsg) : (m.send x).eraseRecords = m.eraseRecords := rfl
@[simp] theorem Module.send_balHi (m : Module) (x : OutMsg) : (m.send x).balHi = m.balHi := rfl
@[simp] theorem Module.send_balLo (m : Module) (x : OutMsg) : (m.send x).balLo = m.balLo := rfl
@[simp] theorem Module.send_weights (m : Module) (x : OutMsg) : (m.send x).weights = m.weights := rfl
@[simp] theorem Module.send_groupOps (m : Module) (x : OutMsg) : (m.send x).groupOps = m.groupOps := rfl
@[simp] theorem Module.send_waybills (m : Module) (x : OutMsg) : (m.send x).waybills = m.waybills := rfl
@[simp] theorem Module.send_kept (m : Module) (x : OutMsg) : (m.send x).kept = m.kept := rfl
@[simp] theorem Module.send_notices (m : Module) (x : OutMsg) : (m.send x).notices = m.notices := rfl
@[simp] theorem Module.send_caravans (m : Module) (x : OutMsg) : (m.send x).caravans = m.caravans := rfl
@[simp] theorem Module.send_batchDue (m : Module) (x : OutMsg) : (m.send x).batchDue = m.batchDue := rfl
@[simp] theorem Module.send_kat (m : Module) (x : OutMsg) : (m.send x).kat = m.kat := rfl
@[simp] theorem Module.send_ports (m : Module) (x : OutMsg) : (m.send x).ports = m.ports := rfl
@[simp] theorem Module.send_inbox (m : Module) (x : OutMsg) : (m.send x).inbox = m.inbox := rfl
@[simp] theorem Module.send_insts (m : Module) (x : OutMsg) : (m.send x).insts = m.insts := rfl
@[simp] theorem Module.send_slots (m : Module) (x : OutMsg) : (m.send x).slots = m.slots := rfl
@[simp] theorem Module.send_resumeDue (m : Module) (x : OutMsg) : (m.send x).resumeDue = m.resumeDue := rfl
@[simp] theorem Module.send_ferries (m : Module) (x : OutMsg) : (m.send x).ferries = m.ferries := rfl
@[simp] theorem Module.send_captures (m : Module) (x : OutMsg) : (m.send x).captures = m.captures := rfl
@[simp] theorem Module.send_restores (m : Module) (x : OutMsg) : (m.send x).restores = m.restores := rfl
@[simp] theorem Module.send_held (m : Module) (x : OutMsg) : (m.send x).held = m.held := rfl
@[simp] theorem Module.send_creating (m : Module) (x : OutMsg) : (m.send x).creating = m.creating := rfl
@[simp] theorem Module.send_scrubbing (m : Module) (x : OutMsg) : (m.send x).scrubbing = m.scrubbing := rfl
@[simp] theorem Module.send_vfs (m : Module) (x : OutMsg) : (m.send x).vfs = m.vfs := rfl
@[simp] theorem Module.send_ledgers (m : Module) (x : OutMsg) : (m.send x).ledgers = m.ledgers := rfl
@[simp] theorem Module.send_ledgerEnergy (m : Module) (x : OutMsg) : (m.send x).ledgerEnergy = m.ledgerEnergy := rfl
@[simp] theorem Module.send_ledgerLen (m : Module) (x : OutMsg) : (m.send x).ledgerLen = m.ledgerLen := rfl
@[simp] theorem Module.send_ledgerQueue (m : Module) (x : OutMsg) : (m.send x).ledgerQueue = m.ledgerQueue := rfl
@[simp] theorem Module.send_ledgerCarry (m : Module) (x : OutMsg) : (m.send x).ledgerCarry = m.ledgerCarry := rfl
@[simp] theorem Module.send_board (m : Module) (x : OutMsg) : (m.send x).board = m.board := rfl
@[simp] theorem Module.send_side (m : Module) (x : OutMsg) : (m.send x).side = m.side := rfl

/-! ## setTileAt changes `tiles` only -/

@[simp] theorem Module.setTileAt_regs (m : Module) (k : Nat) (x : Tile) : (m.setTileAt k x).regs = m.regs := rfl
@[simp] theorem Module.setTileAt_latches (m : Module) (k : Nat) (x : Tile) : (m.setTileAt k x).latches = m.latches := rfl
@[simp] theorem Module.setTileAt_turns (m : Module) (k : Nat) (x : Tile) : (m.setTileAt k x).turns = m.turns := rfl
@[simp] theorem Module.setTileAt_nextNear (m : Module) (k : Nat) (x : Tile) : (m.setTileAt k x).nextNear = m.nextNear := rfl
@[simp] theorem Module.setTileAt_mapOrder (m : Module) (k : Nat) (x : Tile) : (m.setTileAt k x).mapOrder = m.mapOrder := rfl
@[simp] theorem Module.setTileAt_tokens (m : Module) (k : Nat) (x : Tile) : (m.setTileAt k x).tokens = m.tokens := rfl
@[simp] theorem Module.setTileAt_deckSeq (m : Module) (k : Nat) (x : Tile) : (m.setTileAt k x).deckSeq = m.deckSeq := rfl
@[simp] theorem Module.setTileAt_mapFaults (m : Module) (k : Nat) (x : Tile) : (m.setTileAt k x).mapFaults = m.mapFaults := rfl
@[simp] theorem Module.setTileAt_rngBad (m : Module) (k : Nat) (x : Tile) : (m.setTileAt k x).rngBad = m.rngBad := rfl
@[simp] theorem Module.setTileAt_freeIx (m : Module) (k : Nat) (x : Tile) : (m.setTileAt k x).freeIx = m.freeIx := rfl
@[simp] theorem Module.setTileAt_errWin (m : Module) (k : Nat) (x : Tile) : (m.setTileAt k x).errWin = m.errWin := rfl
@[simp] theorem Module.setTileAt_out (m : Module) (k : Nat) (x : Tile) : (m.setTileAt k x).out = m.out := rfl
@[simp] theorem Module.setTileAt_sigs (m : Module) (k : Nat) (x : Tile) : (m.setTileAt k x).sigs = m.sigs := rfl
@[simp] theorem Module.setTileAt_aliveDriven (m : Module) (k : Nat) (x : Tile) : (m.setTileAt k x).aliveDriven = m.aliveDriven := rfl
@[simp] theorem Module.setTileAt_aliveHold (m : Module) (k : Nat) (x : Tile) : (m.setTileAt k x).aliveHold = m.aliveHold := rfl
@[simp] theorem Module.setTileAt_pins (m : Module) (k : Nat) (x : Tile) : (m.setTileAt k x).pins = m.pins := rfl
@[simp] theorem Module.setTileAt_rings (m : Module) (k : Nat) (x : Tile) : (m.setTileAt k x).rings = m.rings := rfl
@[simp] theorem Module.setTileAt_cmds (m : Module) (k : Nat) (x : Tile) : (m.setTileAt k x).cmds = m.cmds := rfl
@[simp] theorem Module.setTileAt_nextSeq (m : Module) (k : Nat) (x : Tile) : (m.setTileAt k x).nextSeq = m.nextSeq := rfl
@[simp] theorem Module.setTileAt_hostMem (m : Module) (k : Nat) (x : Tile) : (m.setTileAt k x).hostMem = m.hostMem := rfl
@[simp] theorem Module.setTileAt_dram (m : Module) (k : Nat) (x : Tile) : (m.setTileAt k x).dram = m.dram := rfl
@[simp] theorem Module.setTileAt_dramEcc (m : Module) (k : Nat) (x : Tile) : (m.setTileAt k x).dramEcc = m.dramEcc := rfl
@[simp] theorem Module.setTileAt_poison (m : Module) (k : Nat) (x : Tile) : (m.setTileAt k x).poison = m.poison := rfl
@[simp] theorem Module.setTileAt_tags (m : Module) (k : Nat) (x : Tile) : (m.setTileAt k x).tags = m.tags := rfl
@[simp] theorem Module.setTileAt_nextStack (m : Module) (k : Nat) (x : Tile) : (m.setTileAt k x).nextStack = m.nextStack := rfl
@[simp] theorem Module.setTileAt_keys (m : Module) (k : Nat) (x : Tile) : (m.setTileAt k x).keys = m.keys := rfl
@[simp] theorem Module.setTileAt_nextKey (m : Module) (k : Nat) (x : Tile) : (m.setTileAt k x).nextKey = m.nextKey := rfl
@[simp] theorem Module.setTileAt_patches (m : Module) (k : Nat) (x : Tile) : (m.setTileAt k x).patches = m.patches := rfl
@[simp] theorem Module.setTileAt_patchDue (m : Module) (k : Nat) (x : Tile) : (m.setTileAt k x).patchDue = m.patchDue := rfl
@[simp] theorem Module.setTileAt_xcache (m : Module) (k : Nat) (x : Tile) : (m.setTileAt k x).xcache = m.xcache := rfl
@[simp] theorem Module.setTileAt_skew (m : Module) (k : Nat) (x : Tile) : (m.setTileAt k x).skew = m.skew := rfl
@[simp] theorem Module.setTileAt_hold (m : Module) (k : Nat) (x : Tile) : (m.setTileAt k x).hold = m.hold := rfl
@[simp] theorem Module.setTileAt_holdEcc (m : Module) (k : Nat) (x : Tile) : (m.setTileAt k x).holdEcc = m.holdEcc := rfl
@[simp] theorem Module.setTileAt_holdPoison (m : Module) (k : Nat) (x : Tile) : (m.setTileAt k x).holdPoison = m.holdPoison := rfl
@[simp] theorem Module.setTileAt_holdMap (m : Module) (k : Nat) (x : Tile) : (m.setTileAt k x).holdMap = m.holdMap := rfl
@[simp] theorem Module.setTileAt_banks (m : Module) (k : Nat) (x : Tile) : (m.setTileAt k x).banks = m.banks := rfl
@[simp] theorem Module.setTileAt_bases (m : Module) (k : Nat) (x : Tile) : (m.setTileAt k x).bases = m.bases := rfl
@[simp] theorem Module.setTileAt_baseGrants (m : Module) (k : Nat) (x : Tile) : (m.setTileAt k x).baseGrants = m.baseGrants := rfl
@[simp] theorem Module.setTileAt_pathErr (m : Module) (k : Nat) (x : Tile) : (m.setTileAt k x).pathErr = m.pathErr := rfl
@[simp] theorem Module.setTileAt_cls (m : Module) (k : Nat) (x : Tile) : (m.setTileAt k x).cls = m.cls := rfl
@[simp] theorem Module.setTileAt_routes (m : Module) (k : Nat) (x : Tile) : (m.setTileAt k x).routes = m.routes := rfl
@[simp] theorem Module.setTileAt_deck (m : Module) (k : Nat) (x : Tile) : (m.setTileAt k x).deck = m.deck := rfl
@[simp] theorem Module.setTileAt_xres (m : Module) (k : Nat) (x : Tile) : (m.setTileAt k x).xres = m.xres := rfl
@[simp] theorem Module.setTileAt_epochs (m : Module) (k : Nat) (x : Tile) : (m.setTileAt k x).epochs = m.epochs := rfl
@[simp] theorem Module.setTileAt_repairRecords (m : Module) (k : Nat) (x : Tile) : (m.setTileAt k x).repairRecords = m.repairRecords := rfl
@[simp] theorem Module.setTileAt_eraseRecords (m : Module) (k : Nat) (x : Tile) : (m.setTileAt k x).eraseRecords = m.eraseRecords := rfl
@[simp] theorem Module.setTileAt_balHi (m : Module) (k : Nat) (x : Tile) : (m.setTileAt k x).balHi = m.balHi := rfl
@[simp] theorem Module.setTileAt_balLo (m : Module) (k : Nat) (x : Tile) : (m.setTileAt k x).balLo = m.balLo := rfl
@[simp] theorem Module.setTileAt_weights (m : Module) (k : Nat) (x : Tile) : (m.setTileAt k x).weights = m.weights := rfl
@[simp] theorem Module.setTileAt_groupOps (m : Module) (k : Nat) (x : Tile) : (m.setTileAt k x).groupOps = m.groupOps := rfl
@[simp] theorem Module.setTileAt_waybills (m : Module) (k : Nat) (x : Tile) : (m.setTileAt k x).waybills = m.waybills := rfl
@[simp] theorem Module.setTileAt_kept (m : Module) (k : Nat) (x : Tile) : (m.setTileAt k x).kept = m.kept := rfl
@[simp] theorem Module.setTileAt_notices (m : Module) (k : Nat) (x : Tile) : (m.setTileAt k x).notices = m.notices := rfl
@[simp] theorem Module.setTileAt_caravans (m : Module) (k : Nat) (x : Tile) : (m.setTileAt k x).caravans = m.caravans := rfl
@[simp] theorem Module.setTileAt_batchDue (m : Module) (k : Nat) (x : Tile) : (m.setTileAt k x).batchDue = m.batchDue := rfl
@[simp] theorem Module.setTileAt_kat (m : Module) (k : Nat) (x : Tile) : (m.setTileAt k x).kat = m.kat := rfl
@[simp] theorem Module.setTileAt_ports (m : Module) (k : Nat) (x : Tile) : (m.setTileAt k x).ports = m.ports := rfl
@[simp] theorem Module.setTileAt_inbox (m : Module) (k : Nat) (x : Tile) : (m.setTileAt k x).inbox = m.inbox := rfl
@[simp] theorem Module.setTileAt_insts (m : Module) (k : Nat) (x : Tile) : (m.setTileAt k x).insts = m.insts := rfl
@[simp] theorem Module.setTileAt_slots (m : Module) (k : Nat) (x : Tile) : (m.setTileAt k x).slots = m.slots := rfl
@[simp] theorem Module.setTileAt_resumeDue (m : Module) (k : Nat) (x : Tile) : (m.setTileAt k x).resumeDue = m.resumeDue := rfl
@[simp] theorem Module.setTileAt_ferries (m : Module) (k : Nat) (x : Tile) : (m.setTileAt k x).ferries = m.ferries := rfl
@[simp] theorem Module.setTileAt_captures (m : Module) (k : Nat) (x : Tile) : (m.setTileAt k x).captures = m.captures := rfl
@[simp] theorem Module.setTileAt_restores (m : Module) (k : Nat) (x : Tile) : (m.setTileAt k x).restores = m.restores := rfl
@[simp] theorem Module.setTileAt_held (m : Module) (k : Nat) (x : Tile) : (m.setTileAt k x).held = m.held := rfl
@[simp] theorem Module.setTileAt_creating (m : Module) (k : Nat) (x : Tile) : (m.setTileAt k x).creating = m.creating := rfl
@[simp] theorem Module.setTileAt_scrubbing (m : Module) (k : Nat) (x : Tile) : (m.setTileAt k x).scrubbing = m.scrubbing := rfl
@[simp] theorem Module.setTileAt_vfs (m : Module) (k : Nat) (x : Tile) : (m.setTileAt k x).vfs = m.vfs := rfl
@[simp] theorem Module.setTileAt_ledgers (m : Module) (k : Nat) (x : Tile) : (m.setTileAt k x).ledgers = m.ledgers := rfl
@[simp] theorem Module.setTileAt_ledgerEnergy (m : Module) (k : Nat) (x : Tile) : (m.setTileAt k x).ledgerEnergy = m.ledgerEnergy := rfl
@[simp] theorem Module.setTileAt_ledgerLen (m : Module) (k : Nat) (x : Tile) : (m.setTileAt k x).ledgerLen = m.ledgerLen := rfl
@[simp] theorem Module.setTileAt_ledgerQueue (m : Module) (k : Nat) (x : Tile) : (m.setTileAt k x).ledgerQueue = m.ledgerQueue := rfl
@[simp] theorem Module.setTileAt_ledgerCarry (m : Module) (k : Nat) (x : Tile) : (m.setTileAt k x).ledgerCarry = m.ledgerCarry := rfl
@[simp] theorem Module.setTileAt_board (m : Module) (k : Nat) (x : Tile) : (m.setTileAt k x).board = m.board := rfl
@[simp] theorem Module.setTileAt_side (m : Module) (k : Nat) (x : Tile) : (m.setTileAt k x).side = m.side := rfl

/-! ## setTile changes `tiles` only -/

@[simp] theorem Module.setTile_regs (m : Module) (t : TileId) (x : Tile) : (m.setTile t x).regs = m.regs := rfl
@[simp] theorem Module.setTile_latches (m : Module) (t : TileId) (x : Tile) : (m.setTile t x).latches = m.latches := rfl
@[simp] theorem Module.setTile_turns (m : Module) (t : TileId) (x : Tile) : (m.setTile t x).turns = m.turns := rfl
@[simp] theorem Module.setTile_nextNear (m : Module) (t : TileId) (x : Tile) : (m.setTile t x).nextNear = m.nextNear := rfl
@[simp] theorem Module.setTile_mapOrder (m : Module) (t : TileId) (x : Tile) : (m.setTile t x).mapOrder = m.mapOrder := rfl
@[simp] theorem Module.setTile_tokens (m : Module) (t : TileId) (x : Tile) : (m.setTile t x).tokens = m.tokens := rfl
@[simp] theorem Module.setTile_deckSeq (m : Module) (t : TileId) (x : Tile) : (m.setTile t x).deckSeq = m.deckSeq := rfl
@[simp] theorem Module.setTile_mapFaults (m : Module) (t : TileId) (x : Tile) : (m.setTile t x).mapFaults = m.mapFaults := rfl
@[simp] theorem Module.setTile_rngBad (m : Module) (t : TileId) (x : Tile) : (m.setTile t x).rngBad = m.rngBad := rfl
@[simp] theorem Module.setTile_freeIx (m : Module) (t : TileId) (x : Tile) : (m.setTile t x).freeIx = m.freeIx := rfl
@[simp] theorem Module.setTile_errWin (m : Module) (t : TileId) (x : Tile) : (m.setTile t x).errWin = m.errWin := rfl
@[simp] theorem Module.setTile_out (m : Module) (t : TileId) (x : Tile) : (m.setTile t x).out = m.out := rfl
@[simp] theorem Module.setTile_sigs (m : Module) (t : TileId) (x : Tile) : (m.setTile t x).sigs = m.sigs := rfl
@[simp] theorem Module.setTile_aliveDriven (m : Module) (t : TileId) (x : Tile) : (m.setTile t x).aliveDriven = m.aliveDriven := rfl
@[simp] theorem Module.setTile_aliveHold (m : Module) (t : TileId) (x : Tile) : (m.setTile t x).aliveHold = m.aliveHold := rfl
@[simp] theorem Module.setTile_pins (m : Module) (t : TileId) (x : Tile) : (m.setTile t x).pins = m.pins := rfl
@[simp] theorem Module.setTile_rings (m : Module) (t : TileId) (x : Tile) : (m.setTile t x).rings = m.rings := rfl
@[simp] theorem Module.setTile_cmds (m : Module) (t : TileId) (x : Tile) : (m.setTile t x).cmds = m.cmds := rfl
@[simp] theorem Module.setTile_nextSeq (m : Module) (t : TileId) (x : Tile) : (m.setTile t x).nextSeq = m.nextSeq := rfl
@[simp] theorem Module.setTile_hostMem (m : Module) (t : TileId) (x : Tile) : (m.setTile t x).hostMem = m.hostMem := rfl
@[simp] theorem Module.setTile_dram (m : Module) (t : TileId) (x : Tile) : (m.setTile t x).dram = m.dram := rfl
@[simp] theorem Module.setTile_dramEcc (m : Module) (t : TileId) (x : Tile) : (m.setTile t x).dramEcc = m.dramEcc := rfl
@[simp] theorem Module.setTile_poison (m : Module) (t : TileId) (x : Tile) : (m.setTile t x).poison = m.poison := rfl
@[simp] theorem Module.setTile_tags (m : Module) (t : TileId) (x : Tile) : (m.setTile t x).tags = m.tags := rfl
@[simp] theorem Module.setTile_nextStack (m : Module) (t : TileId) (x : Tile) : (m.setTile t x).nextStack = m.nextStack := rfl
@[simp] theorem Module.setTile_keys (m : Module) (t : TileId) (x : Tile) : (m.setTile t x).keys = m.keys := rfl
@[simp] theorem Module.setTile_nextKey (m : Module) (t : TileId) (x : Tile) : (m.setTile t x).nextKey = m.nextKey := rfl
@[simp] theorem Module.setTile_patches (m : Module) (t : TileId) (x : Tile) : (m.setTile t x).patches = m.patches := rfl
@[simp] theorem Module.setTile_patchDue (m : Module) (t : TileId) (x : Tile) : (m.setTile t x).patchDue = m.patchDue := rfl
@[simp] theorem Module.setTile_xcache (m : Module) (t : TileId) (x : Tile) : (m.setTile t x).xcache = m.xcache := rfl
@[simp] theorem Module.setTile_skew (m : Module) (t : TileId) (x : Tile) : (m.setTile t x).skew = m.skew := rfl
@[simp] theorem Module.setTile_hold (m : Module) (t : TileId) (x : Tile) : (m.setTile t x).hold = m.hold := rfl
@[simp] theorem Module.setTile_holdEcc (m : Module) (t : TileId) (x : Tile) : (m.setTile t x).holdEcc = m.holdEcc := rfl
@[simp] theorem Module.setTile_holdPoison (m : Module) (t : TileId) (x : Tile) : (m.setTile t x).holdPoison = m.holdPoison := rfl
@[simp] theorem Module.setTile_holdMap (m : Module) (t : TileId) (x : Tile) : (m.setTile t x).holdMap = m.holdMap := rfl
@[simp] theorem Module.setTile_banks (m : Module) (t : TileId) (x : Tile) : (m.setTile t x).banks = m.banks := rfl
@[simp] theorem Module.setTile_bases (m : Module) (t : TileId) (x : Tile) : (m.setTile t x).bases = m.bases := rfl
@[simp] theorem Module.setTile_baseGrants (m : Module) (t : TileId) (x : Tile) : (m.setTile t x).baseGrants = m.baseGrants := rfl
@[simp] theorem Module.setTile_pathErr (m : Module) (t : TileId) (x : Tile) : (m.setTile t x).pathErr = m.pathErr := rfl
@[simp] theorem Module.setTile_cls (m : Module) (t : TileId) (x : Tile) : (m.setTile t x).cls = m.cls := rfl
@[simp] theorem Module.setTile_routes (m : Module) (t : TileId) (x : Tile) : (m.setTile t x).routes = m.routes := rfl
@[simp] theorem Module.setTile_deck (m : Module) (t : TileId) (x : Tile) : (m.setTile t x).deck = m.deck := rfl
@[simp] theorem Module.setTile_xres (m : Module) (t : TileId) (x : Tile) : (m.setTile t x).xres = m.xres := rfl
@[simp] theorem Module.setTile_epochs (m : Module) (t : TileId) (x : Tile) : (m.setTile t x).epochs = m.epochs := rfl
@[simp] theorem Module.setTile_repairRecords (m : Module) (t : TileId) (x : Tile) : (m.setTile t x).repairRecords = m.repairRecords := rfl
@[simp] theorem Module.setTile_eraseRecords (m : Module) (t : TileId) (x : Tile) : (m.setTile t x).eraseRecords = m.eraseRecords := rfl
@[simp] theorem Module.setTile_balHi (m : Module) (t : TileId) (x : Tile) : (m.setTile t x).balHi = m.balHi := rfl
@[simp] theorem Module.setTile_balLo (m : Module) (t : TileId) (x : Tile) : (m.setTile t x).balLo = m.balLo := rfl
@[simp] theorem Module.setTile_weights (m : Module) (t : TileId) (x : Tile) : (m.setTile t x).weights = m.weights := rfl
@[simp] theorem Module.setTile_groupOps (m : Module) (t : TileId) (x : Tile) : (m.setTile t x).groupOps = m.groupOps := rfl
@[simp] theorem Module.setTile_waybills (m : Module) (t : TileId) (x : Tile) : (m.setTile t x).waybills = m.waybills := rfl
@[simp] theorem Module.setTile_kept (m : Module) (t : TileId) (x : Tile) : (m.setTile t x).kept = m.kept := rfl
@[simp] theorem Module.setTile_notices (m : Module) (t : TileId) (x : Tile) : (m.setTile t x).notices = m.notices := rfl
@[simp] theorem Module.setTile_caravans (m : Module) (t : TileId) (x : Tile) : (m.setTile t x).caravans = m.caravans := rfl
@[simp] theorem Module.setTile_batchDue (m : Module) (t : TileId) (x : Tile) : (m.setTile t x).batchDue = m.batchDue := rfl
@[simp] theorem Module.setTile_kat (m : Module) (t : TileId) (x : Tile) : (m.setTile t x).kat = m.kat := rfl
@[simp] theorem Module.setTile_ports (m : Module) (t : TileId) (x : Tile) : (m.setTile t x).ports = m.ports := rfl
@[simp] theorem Module.setTile_inbox (m : Module) (t : TileId) (x : Tile) : (m.setTile t x).inbox = m.inbox := rfl
@[simp] theorem Module.setTile_insts (m : Module) (t : TileId) (x : Tile) : (m.setTile t x).insts = m.insts := rfl
@[simp] theorem Module.setTile_slots (m : Module) (t : TileId) (x : Tile) : (m.setTile t x).slots = m.slots := rfl
@[simp] theorem Module.setTile_resumeDue (m : Module) (t : TileId) (x : Tile) : (m.setTile t x).resumeDue = m.resumeDue := rfl
@[simp] theorem Module.setTile_ferries (m : Module) (t : TileId) (x : Tile) : (m.setTile t x).ferries = m.ferries := rfl
@[simp] theorem Module.setTile_captures (m : Module) (t : TileId) (x : Tile) : (m.setTile t x).captures = m.captures := rfl
@[simp] theorem Module.setTile_restores (m : Module) (t : TileId) (x : Tile) : (m.setTile t x).restores = m.restores := rfl
@[simp] theorem Module.setTile_held (m : Module) (t : TileId) (x : Tile) : (m.setTile t x).held = m.held := rfl
@[simp] theorem Module.setTile_creating (m : Module) (t : TileId) (x : Tile) : (m.setTile t x).creating = m.creating := rfl
@[simp] theorem Module.setTile_scrubbing (m : Module) (t : TileId) (x : Tile) : (m.setTile t x).scrubbing = m.scrubbing := rfl
@[simp] theorem Module.setTile_vfs (m : Module) (t : TileId) (x : Tile) : (m.setTile t x).vfs = m.vfs := rfl
@[simp] theorem Module.setTile_ledgers (m : Module) (t : TileId) (x : Tile) : (m.setTile t x).ledgers = m.ledgers := rfl
@[simp] theorem Module.setTile_ledgerEnergy (m : Module) (t : TileId) (x : Tile) : (m.setTile t x).ledgerEnergy = m.ledgerEnergy := rfl
@[simp] theorem Module.setTile_ledgerLen (m : Module) (t : TileId) (x : Tile) : (m.setTile t x).ledgerLen = m.ledgerLen := rfl
@[simp] theorem Module.setTile_ledgerQueue (m : Module) (t : TileId) (x : Tile) : (m.setTile t x).ledgerQueue = m.ledgerQueue := rfl
@[simp] theorem Module.setTile_ledgerCarry (m : Module) (t : TileId) (x : Tile) : (m.setTile t x).ledgerCarry = m.ledgerCarry := rfl
@[simp] theorem Module.setTile_board (m : Module) (t : TileId) (x : Tile) : (m.setTile t x).board = m.board := rfl
@[simp] theorem Module.setTile_side (m : Module) (t : TileId) (x : Tile) : (m.setTile t x).side = m.side := rfl

/-! ## setCl changes `cls` only -/

@[simp] theorem Module.setCl_regs (m : Module) (c : Nat) (x : Cl) : (m.setCl c x).regs = m.regs := rfl
@[simp] theorem Module.setCl_latches (m : Module) (c : Nat) (x : Cl) : (m.setCl c x).latches = m.latches := rfl
@[simp] theorem Module.setCl_turns (m : Module) (c : Nat) (x : Cl) : (m.setCl c x).turns = m.turns := rfl
@[simp] theorem Module.setCl_nextNear (m : Module) (c : Nat) (x : Cl) : (m.setCl c x).nextNear = m.nextNear := rfl
@[simp] theorem Module.setCl_mapOrder (m : Module) (c : Nat) (x : Cl) : (m.setCl c x).mapOrder = m.mapOrder := rfl
@[simp] theorem Module.setCl_tokens (m : Module) (c : Nat) (x : Cl) : (m.setCl c x).tokens = m.tokens := rfl
@[simp] theorem Module.setCl_deckSeq (m : Module) (c : Nat) (x : Cl) : (m.setCl c x).deckSeq = m.deckSeq := rfl
@[simp] theorem Module.setCl_mapFaults (m : Module) (c : Nat) (x : Cl) : (m.setCl c x).mapFaults = m.mapFaults := rfl
@[simp] theorem Module.setCl_rngBad (m : Module) (c : Nat) (x : Cl) : (m.setCl c x).rngBad = m.rngBad := rfl
@[simp] theorem Module.setCl_freeIx (m : Module) (c : Nat) (x : Cl) : (m.setCl c x).freeIx = m.freeIx := rfl
@[simp] theorem Module.setCl_errWin (m : Module) (c : Nat) (x : Cl) : (m.setCl c x).errWin = m.errWin := rfl
@[simp] theorem Module.setCl_out (m : Module) (c : Nat) (x : Cl) : (m.setCl c x).out = m.out := rfl
@[simp] theorem Module.setCl_sigs (m : Module) (c : Nat) (x : Cl) : (m.setCl c x).sigs = m.sigs := rfl
@[simp] theorem Module.setCl_aliveDriven (m : Module) (c : Nat) (x : Cl) : (m.setCl c x).aliveDriven = m.aliveDriven := rfl
@[simp] theorem Module.setCl_aliveHold (m : Module) (c : Nat) (x : Cl) : (m.setCl c x).aliveHold = m.aliveHold := rfl
@[simp] theorem Module.setCl_pins (m : Module) (c : Nat) (x : Cl) : (m.setCl c x).pins = m.pins := rfl
@[simp] theorem Module.setCl_rings (m : Module) (c : Nat) (x : Cl) : (m.setCl c x).rings = m.rings := rfl
@[simp] theorem Module.setCl_cmds (m : Module) (c : Nat) (x : Cl) : (m.setCl c x).cmds = m.cmds := rfl
@[simp] theorem Module.setCl_nextSeq (m : Module) (c : Nat) (x : Cl) : (m.setCl c x).nextSeq = m.nextSeq := rfl
@[simp] theorem Module.setCl_hostMem (m : Module) (c : Nat) (x : Cl) : (m.setCl c x).hostMem = m.hostMem := rfl
@[simp] theorem Module.setCl_dram (m : Module) (c : Nat) (x : Cl) : (m.setCl c x).dram = m.dram := rfl
@[simp] theorem Module.setCl_dramEcc (m : Module) (c : Nat) (x : Cl) : (m.setCl c x).dramEcc = m.dramEcc := rfl
@[simp] theorem Module.setCl_poison (m : Module) (c : Nat) (x : Cl) : (m.setCl c x).poison = m.poison := rfl
@[simp] theorem Module.setCl_tags (m : Module) (c : Nat) (x : Cl) : (m.setCl c x).tags = m.tags := rfl
@[simp] theorem Module.setCl_nextStack (m : Module) (c : Nat) (x : Cl) : (m.setCl c x).nextStack = m.nextStack := rfl
@[simp] theorem Module.setCl_keys (m : Module) (c : Nat) (x : Cl) : (m.setCl c x).keys = m.keys := rfl
@[simp] theorem Module.setCl_nextKey (m : Module) (c : Nat) (x : Cl) : (m.setCl c x).nextKey = m.nextKey := rfl
@[simp] theorem Module.setCl_patches (m : Module) (c : Nat) (x : Cl) : (m.setCl c x).patches = m.patches := rfl
@[simp] theorem Module.setCl_patchDue (m : Module) (c : Nat) (x : Cl) : (m.setCl c x).patchDue = m.patchDue := rfl
@[simp] theorem Module.setCl_xcache (m : Module) (c : Nat) (x : Cl) : (m.setCl c x).xcache = m.xcache := rfl
@[simp] theorem Module.setCl_skew (m : Module) (c : Nat) (x : Cl) : (m.setCl c x).skew = m.skew := rfl
@[simp] theorem Module.setCl_hold (m : Module) (c : Nat) (x : Cl) : (m.setCl c x).hold = m.hold := rfl
@[simp] theorem Module.setCl_holdEcc (m : Module) (c : Nat) (x : Cl) : (m.setCl c x).holdEcc = m.holdEcc := rfl
@[simp] theorem Module.setCl_holdPoison (m : Module) (c : Nat) (x : Cl) : (m.setCl c x).holdPoison = m.holdPoison := rfl
@[simp] theorem Module.setCl_holdMap (m : Module) (c : Nat) (x : Cl) : (m.setCl c x).holdMap = m.holdMap := rfl
@[simp] theorem Module.setCl_banks (m : Module) (c : Nat) (x : Cl) : (m.setCl c x).banks = m.banks := rfl
@[simp] theorem Module.setCl_bases (m : Module) (c : Nat) (x : Cl) : (m.setCl c x).bases = m.bases := rfl
@[simp] theorem Module.setCl_baseGrants (m : Module) (c : Nat) (x : Cl) : (m.setCl c x).baseGrants = m.baseGrants := rfl
@[simp] theorem Module.setCl_pathErr (m : Module) (c : Nat) (x : Cl) : (m.setCl c x).pathErr = m.pathErr := rfl
@[simp] theorem Module.setCl_tiles (m : Module) (c : Nat) (x : Cl) : (m.setCl c x).tiles = m.tiles := rfl
@[simp] theorem Module.setCl_routes (m : Module) (c : Nat) (x : Cl) : (m.setCl c x).routes = m.routes := rfl
@[simp] theorem Module.setCl_deck (m : Module) (c : Nat) (x : Cl) : (m.setCl c x).deck = m.deck := rfl
@[simp] theorem Module.setCl_xres (m : Module) (c : Nat) (x : Cl) : (m.setCl c x).xres = m.xres := rfl
@[simp] theorem Module.setCl_epochs (m : Module) (c : Nat) (x : Cl) : (m.setCl c x).epochs = m.epochs := rfl
@[simp] theorem Module.setCl_repairRecords (m : Module) (c : Nat) (x : Cl) : (m.setCl c x).repairRecords = m.repairRecords := rfl
@[simp] theorem Module.setCl_eraseRecords (m : Module) (c : Nat) (x : Cl) : (m.setCl c x).eraseRecords = m.eraseRecords := rfl
@[simp] theorem Module.setCl_balHi (m : Module) (c : Nat) (x : Cl) : (m.setCl c x).balHi = m.balHi := rfl
@[simp] theorem Module.setCl_balLo (m : Module) (c : Nat) (x : Cl) : (m.setCl c x).balLo = m.balLo := rfl
@[simp] theorem Module.setCl_weights (m : Module) (c : Nat) (x : Cl) : (m.setCl c x).weights = m.weights := rfl
@[simp] theorem Module.setCl_groupOps (m : Module) (c : Nat) (x : Cl) : (m.setCl c x).groupOps = m.groupOps := rfl
@[simp] theorem Module.setCl_waybills (m : Module) (c : Nat) (x : Cl) : (m.setCl c x).waybills = m.waybills := rfl
@[simp] theorem Module.setCl_kept (m : Module) (c : Nat) (x : Cl) : (m.setCl c x).kept = m.kept := rfl
@[simp] theorem Module.setCl_notices (m : Module) (c : Nat) (x : Cl) : (m.setCl c x).notices = m.notices := rfl
@[simp] theorem Module.setCl_caravans (m : Module) (c : Nat) (x : Cl) : (m.setCl c x).caravans = m.caravans := rfl
@[simp] theorem Module.setCl_batchDue (m : Module) (c : Nat) (x : Cl) : (m.setCl c x).batchDue = m.batchDue := rfl
@[simp] theorem Module.setCl_kat (m : Module) (c : Nat) (x : Cl) : (m.setCl c x).kat = m.kat := rfl
@[simp] theorem Module.setCl_ports (m : Module) (c : Nat) (x : Cl) : (m.setCl c x).ports = m.ports := rfl
@[simp] theorem Module.setCl_inbox (m : Module) (c : Nat) (x : Cl) : (m.setCl c x).inbox = m.inbox := rfl
@[simp] theorem Module.setCl_insts (m : Module) (c : Nat) (x : Cl) : (m.setCl c x).insts = m.insts := rfl
@[simp] theorem Module.setCl_slots (m : Module) (c : Nat) (x : Cl) : (m.setCl c x).slots = m.slots := rfl
@[simp] theorem Module.setCl_resumeDue (m : Module) (c : Nat) (x : Cl) : (m.setCl c x).resumeDue = m.resumeDue := rfl
@[simp] theorem Module.setCl_ferries (m : Module) (c : Nat) (x : Cl) : (m.setCl c x).ferries = m.ferries := rfl
@[simp] theorem Module.setCl_captures (m : Module) (c : Nat) (x : Cl) : (m.setCl c x).captures = m.captures := rfl
@[simp] theorem Module.setCl_restores (m : Module) (c : Nat) (x : Cl) : (m.setCl c x).restores = m.restores := rfl
@[simp] theorem Module.setCl_held (m : Module) (c : Nat) (x : Cl) : (m.setCl c x).held = m.held := rfl
@[simp] theorem Module.setCl_creating (m : Module) (c : Nat) (x : Cl) : (m.setCl c x).creating = m.creating := rfl
@[simp] theorem Module.setCl_scrubbing (m : Module) (c : Nat) (x : Cl) : (m.setCl c x).scrubbing = m.scrubbing := rfl
@[simp] theorem Module.setCl_vfs (m : Module) (c : Nat) (x : Cl) : (m.setCl c x).vfs = m.vfs := rfl
@[simp] theorem Module.setCl_ledgers (m : Module) (c : Nat) (x : Cl) : (m.setCl c x).ledgers = m.ledgers := rfl
@[simp] theorem Module.setCl_ledgerEnergy (m : Module) (c : Nat) (x : Cl) : (m.setCl c x).ledgerEnergy = m.ledgerEnergy := rfl
@[simp] theorem Module.setCl_ledgerLen (m : Module) (c : Nat) (x : Cl) : (m.setCl c x).ledgerLen = m.ledgerLen := rfl
@[simp] theorem Module.setCl_ledgerQueue (m : Module) (c : Nat) (x : Cl) : (m.setCl c x).ledgerQueue = m.ledgerQueue := rfl
@[simp] theorem Module.setCl_ledgerCarry (m : Module) (c : Nat) (x : Cl) : (m.setCl c x).ledgerCarry = m.ledgerCarry := rfl
@[simp] theorem Module.setCl_board (m : Module) (c : Nat) (x : Cl) : (m.setCl c x).board = m.board := rfl
@[simp] theorem Module.setCl_side (m : Module) (c : Nat) (x : Cl) : (m.setCl c x).side = m.side := rfl

/-! ## settle changes `pins` only -/

@[simp] theorem Module.settle_regs (m : Module) : (m.settle).regs = m.regs := rfl
@[simp] theorem Module.settle_latches (m : Module) : (m.settle).latches = m.latches := rfl
@[simp] theorem Module.settle_turns (m : Module) : (m.settle).turns = m.turns := rfl
@[simp] theorem Module.settle_nextNear (m : Module) : (m.settle).nextNear = m.nextNear := rfl
@[simp] theorem Module.settle_mapOrder (m : Module) : (m.settle).mapOrder = m.mapOrder := rfl
@[simp] theorem Module.settle_tokens (m : Module) : (m.settle).tokens = m.tokens := rfl
@[simp] theorem Module.settle_deckSeq (m : Module) : (m.settle).deckSeq = m.deckSeq := rfl
@[simp] theorem Module.settle_mapFaults (m : Module) : (m.settle).mapFaults = m.mapFaults := rfl
@[simp] theorem Module.settle_rngBad (m : Module) : (m.settle).rngBad = m.rngBad := rfl
@[simp] theorem Module.settle_freeIx (m : Module) : (m.settle).freeIx = m.freeIx := rfl
@[simp] theorem Module.settle_errWin (m : Module) : (m.settle).errWin = m.errWin := rfl
@[simp] theorem Module.settle_out (m : Module) : (m.settle).out = m.out := rfl
@[simp] theorem Module.settle_sigs (m : Module) : (m.settle).sigs = m.sigs := rfl
@[simp] theorem Module.settle_aliveDriven (m : Module) : (m.settle).aliveDriven = m.aliveDriven := rfl
@[simp] theorem Module.settle_aliveHold (m : Module) : (m.settle).aliveHold = m.aliveHold := rfl
@[simp] theorem Module.settle_rings (m : Module) : (m.settle).rings = m.rings := rfl
@[simp] theorem Module.settle_cmds (m : Module) : (m.settle).cmds = m.cmds := rfl
@[simp] theorem Module.settle_nextSeq (m : Module) : (m.settle).nextSeq = m.nextSeq := rfl
@[simp] theorem Module.settle_hostMem (m : Module) : (m.settle).hostMem = m.hostMem := rfl
@[simp] theorem Module.settle_dram (m : Module) : (m.settle).dram = m.dram := rfl
@[simp] theorem Module.settle_dramEcc (m : Module) : (m.settle).dramEcc = m.dramEcc := rfl
@[simp] theorem Module.settle_poison (m : Module) : (m.settle).poison = m.poison := rfl
@[simp] theorem Module.settle_tags (m : Module) : (m.settle).tags = m.tags := rfl
@[simp] theorem Module.settle_nextStack (m : Module) : (m.settle).nextStack = m.nextStack := rfl
@[simp] theorem Module.settle_keys (m : Module) : (m.settle).keys = m.keys := rfl
@[simp] theorem Module.settle_nextKey (m : Module) : (m.settle).nextKey = m.nextKey := rfl
@[simp] theorem Module.settle_patches (m : Module) : (m.settle).patches = m.patches := rfl
@[simp] theorem Module.settle_patchDue (m : Module) : (m.settle).patchDue = m.patchDue := rfl
@[simp] theorem Module.settle_xcache (m : Module) : (m.settle).xcache = m.xcache := rfl
@[simp] theorem Module.settle_skew (m : Module) : (m.settle).skew = m.skew := rfl
@[simp] theorem Module.settle_hold (m : Module) : (m.settle).hold = m.hold := rfl
@[simp] theorem Module.settle_holdEcc (m : Module) : (m.settle).holdEcc = m.holdEcc := rfl
@[simp] theorem Module.settle_holdPoison (m : Module) : (m.settle).holdPoison = m.holdPoison := rfl
@[simp] theorem Module.settle_holdMap (m : Module) : (m.settle).holdMap = m.holdMap := rfl
@[simp] theorem Module.settle_banks (m : Module) : (m.settle).banks = m.banks := rfl
@[simp] theorem Module.settle_bases (m : Module) : (m.settle).bases = m.bases := rfl
@[simp] theorem Module.settle_baseGrants (m : Module) : (m.settle).baseGrants = m.baseGrants := rfl
@[simp] theorem Module.settle_pathErr (m : Module) : (m.settle).pathErr = m.pathErr := rfl
@[simp] theorem Module.settle_tiles (m : Module) : (m.settle).tiles = m.tiles := rfl
@[simp] theorem Module.settle_cls (m : Module) : (m.settle).cls = m.cls := rfl
@[simp] theorem Module.settle_routes (m : Module) : (m.settle).routes = m.routes := rfl
@[simp] theorem Module.settle_deck (m : Module) : (m.settle).deck = m.deck := rfl
@[simp] theorem Module.settle_xres (m : Module) : (m.settle).xres = m.xres := rfl
@[simp] theorem Module.settle_epochs (m : Module) : (m.settle).epochs = m.epochs := rfl
@[simp] theorem Module.settle_repairRecords (m : Module) : (m.settle).repairRecords = m.repairRecords := rfl
@[simp] theorem Module.settle_eraseRecords (m : Module) : (m.settle).eraseRecords = m.eraseRecords := rfl
@[simp] theorem Module.settle_balHi (m : Module) : (m.settle).balHi = m.balHi := rfl
@[simp] theorem Module.settle_balLo (m : Module) : (m.settle).balLo = m.balLo := rfl
@[simp] theorem Module.settle_weights (m : Module) : (m.settle).weights = m.weights := rfl
@[simp] theorem Module.settle_groupOps (m : Module) : (m.settle).groupOps = m.groupOps := rfl
@[simp] theorem Module.settle_waybills (m : Module) : (m.settle).waybills = m.waybills := rfl
@[simp] theorem Module.settle_kept (m : Module) : (m.settle).kept = m.kept := rfl
@[simp] theorem Module.settle_notices (m : Module) : (m.settle).notices = m.notices := rfl
@[simp] theorem Module.settle_caravans (m : Module) : (m.settle).caravans = m.caravans := rfl
@[simp] theorem Module.settle_batchDue (m : Module) : (m.settle).batchDue = m.batchDue := rfl
@[simp] theorem Module.settle_kat (m : Module) : (m.settle).kat = m.kat := rfl
@[simp] theorem Module.settle_ports (m : Module) : (m.settle).ports = m.ports := rfl
@[simp] theorem Module.settle_inbox (m : Module) : (m.settle).inbox = m.inbox := rfl
@[simp] theorem Module.settle_insts (m : Module) : (m.settle).insts = m.insts := rfl
@[simp] theorem Module.settle_slots (m : Module) : (m.settle).slots = m.slots := rfl
@[simp] theorem Module.settle_resumeDue (m : Module) : (m.settle).resumeDue = m.resumeDue := rfl
@[simp] theorem Module.settle_ferries (m : Module) : (m.settle).ferries = m.ferries := rfl
@[simp] theorem Module.settle_captures (m : Module) : (m.settle).captures = m.captures := rfl
@[simp] theorem Module.settle_restores (m : Module) : (m.settle).restores = m.restores := rfl
@[simp] theorem Module.settle_held (m : Module) : (m.settle).held = m.held := rfl
@[simp] theorem Module.settle_creating (m : Module) : (m.settle).creating = m.creating := rfl
@[simp] theorem Module.settle_scrubbing (m : Module) : (m.settle).scrubbing = m.scrubbing := rfl
@[simp] theorem Module.settle_vfs (m : Module) : (m.settle).vfs = m.vfs := rfl
@[simp] theorem Module.settle_ledgers (m : Module) : (m.settle).ledgers = m.ledgers := rfl
@[simp] theorem Module.settle_ledgerEnergy (m : Module) : (m.settle).ledgerEnergy = m.ledgerEnergy := rfl
@[simp] theorem Module.settle_ledgerLen (m : Module) : (m.settle).ledgerLen = m.ledgerLen := rfl
@[simp] theorem Module.settle_ledgerQueue (m : Module) : (m.settle).ledgerQueue = m.ledgerQueue := rfl
@[simp] theorem Module.settle_ledgerCarry (m : Module) : (m.settle).ledgerCarry = m.ledgerCarry := rfl
@[simp] theorem Module.settle_board (m : Module) : (m.settle).board = m.board := rfl
@[simp] theorem Module.settle_side (m : Module) : (m.settle).side = m.side := rfl

/-! ## The fields that an update changes -/

@[simp] theorem Module.drawn_freeIx (m : Module) : m.drawn.freeIx = m.freeIx + 1 := rfl
@[simp] theorem Module.send_out (m : Module) (x : OutMsg) : (m.send x).out = x :: m.out := rfl
@[simp] theorem Module.settle_pins (m : Module) : m.settle.pins = m.nextPins := rfl

/-! ## The state -/

@[simp] theorem State.reset_pending : State.reset.pending = [] := rfl
@[simp] theorem State.reset_mod : State.reset.mod = Module.reset := rfl

end Sys2Proof.Machine
end

