-- ==== Sys2Proof/Laws/Registers.lean ====
section
/-! SUPPORT. Laws/Registers.lean: reads of registers and fields after writes. -/

namespace Sys2Proof

theorem RegId.ctorIdx_inj {r r' : RegId} (h : r.ctorIdx = r'.ctorIdx) : r = r' := by
  have := congrArg RegId.ofNat h
  rwa [RegId.ofNat_ctorIdx, RegId.ofNat_ctorIdx] at this

end Sys2Proof

namespace Sys2Proof.Machine

/-- Registers with in-range indices have their own keys. -/
theorem regKey_inj {r r' : RegId} {i j i' j' : Nat} (hi : i < 2 ^ 24) (hj : j < 2 ^ 16) (hi' : i' < 2 ^ 24)
    (hj' : j' < 2 ^ 16) (h : regKey r i j = regKey r' i' j') : r = r' ∧ i = i' ∧ j = j' := by
  unfold regKey at h
  have hj2 : j = j' := by omega
  have hi2 : i = i' := by omega
  exact ⟨RegId.ctorIdx_inj (by omega), hi2, hj2⟩

@[simp] theorem Module.reg_setReg_self (m : Module) (r : RegId) (i j : Nat) (v : Word64) :
    (m.setReg r i j v).reg r i j = v := by
  simp [Module.reg, Module.setReg]

/-- A write of one register leaves every other register with in-range indices. -/
theorem Module.reg_setReg_ne (m : Module) {r r' : RegId} {i j i' j' : Nat} (v : Word64) (hi : i < 2 ^ 24)
    (hj : j < 2 ^ 16) (hi' : i' < 2 ^ 24) (hj' : j' < 2 ^ 16) (h : ¬ (r' = r ∧ i' = i ∧ j' = j)) :
    (m.setReg r i j v).reg r' i' j' = m.reg r' i' j' := by
  unfold Module.reg Module.setReg
  rw [Map.get?_insert_ne]
  intro hk
  obtain ⟨h1, h2, h3⟩ := regKey_inj hi hj hi' hj' hk
  exact h ⟨h1.symm, h2.symm, h3.symm⟩

theorem bitsAt_lt (v lo w : Nat) : bitsAt v lo w < 2 ^ w := Nat.mod_lt _ (Nat.two_pow_pos w)

/-- What `putBits` puts is what `bitsAt` finds. -/
theorem bitsAt_putBits (v lo w x : Nat) : bitsAt (putBits v lo w x) lo w = x % 2 ^ w := by
  unfold putBits bitsAt
  have hp := Nat.two_pow_pos lo
  have e : v / 2 ^ lo = 2 ^ w * (v / 2 ^ lo / 2 ^ w) + v / 2 ^ lo % 2 ^ w := (Nat.div_add_mod _ _).symm
  have e2 : v = 2 ^ lo * (v / 2 ^ lo) + v % 2 ^ lo := (Nat.div_add_mod _ _).symm
  have hr : v % 2 ^ lo < 2 ^ lo := Nat.mod_lt _ hp
  generalize v / 2 ^ lo / 2 ^ w = q at *
  generalize v / 2 ^ lo % 2 ^ w = b at *
  generalize v / 2 ^ lo = a at *
  generalize v % 2 ^ lo = r at *
  subst e
  have : v - b * 2 ^ lo + x % 2 ^ w * 2 ^ lo = r + 2 ^ lo * (2 ^ w * q + x % 2 ^ w) := by
    rw [e2]
    have : 2 ^ lo * (2 ^ w * q + b) + r - b * 2 ^ lo = 2 ^ lo * (2 ^ w * q) + r := by
      rw [Nat.mul_add, Nat.mul_comm b]; omega
    rw [this, Nat.mul_add, Nat.mul_comm (x % 2 ^ w)]; omega
  rw [this, Nat.add_mul_div_left _ _ hp, Nat.div_eq_of_lt hr, Nat.zero_add, Nat.mul_add_mod, Nat.mod_mod]

/-- A field and a field beside it. -/
theorem bitsAt_putBits_disjoint (v lo w x lo' w' : Nat) (h : lo + w ≤ lo' ∨ lo' + w' ≤ lo) :
    bitsAt (putBits v lo w x) lo' w' = bitsAt v lo' w' := by
  have key : ∀ y, bitsAt y lo' w' = (y / 2 ^ lo') % 2 ^ w' := fun _ => rfl
  unfold putBits
  have hle : bitsAt v lo w * 2 ^ lo ≤ v := by
    unfold bitsAt
    calc v / 2 ^ lo % 2 ^ w * 2 ^ lo ≤ v / 2 ^ lo * 2 ^ lo := Nat.mul_le_mul_right _ (Nat.mod_le _ _)
      _ ≤ v := Nat.div_mul_le_self _ _
  -- split v = r + 2^lo * (b + 2^w * q)
  have e1 : v = v % 2 ^ lo + 2 ^ lo * (bitsAt v lo w + 2 ^ w * (v / 2 ^ lo / 2 ^ w)) := by
    unfold bitsAt
    rw [Nat.mod_add_div, Nat.mod_add_div]
  have hr : v % 2 ^ lo < 2 ^ lo := Nat.mod_lt _ (Nat.two_pow_pos lo)
  have hb : bitsAt v lo w < 2 ^ w := bitsAt_lt v lo w
  have hx : x % 2 ^ w < 2 ^ w := Nat.mod_lt _ (Nat.two_pow_pos w)
  generalize hB : bitsAt v lo w = b at *
  generalize v % 2 ^ lo = r at *
  generalize v / 2 ^ lo / 2 ^ w = q at *
  generalize x % 2 ^ w = y at *
  have e2 : v - b * 2 ^ lo + y * 2 ^ lo = r + 2 ^ lo * (y + 2 ^ w * q) := by
    rw [e1]
    have : r + 2 ^ lo * (b + 2 ^ w * q) - b * 2 ^ lo = r + 2 ^ lo * (2 ^ w * q) := by
      rw [Nat.mul_add, Nat.mul_comm b]; omega
    rw [this, Nat.mul_add, Nat.mul_comm y]; omega
  rw [e2, e1]
  clear e1 e2 hle hB key
  rcases h with h | h
  · -- above
    obtain ⟨d, rfl⟩ := Nat.exists_eq_add_of_le h
    unfold bitsAt
    have : ∀ z, z < 2 ^ w → (r + 2 ^ lo * (z + 2 ^ w * q)) / 2 ^ (lo + w + d) = q / 2 ^ d := by
      intro z hz
      rw [Nat.pow_add, Nat.pow_add, ← Nat.div_div_eq_div_mul, ← Nat.div_div_eq_div_mul,
        Nat.add_mul_div_left _ _ (Nat.two_pow_pos lo), Nat.div_eq_of_lt hr, Nat.zero_add,
        Nat.add_mul_div_left _ _ (Nat.two_pow_pos w), Nat.div_eq_of_lt hz, Nat.zero_add]
    rw [this _ hx, this _ hb]
  · -- below
    obtain ⟨d, rfl⟩ := Nat.exists_eq_add_of_le h
    unfold bitsAt
    have : ∀ z, (r + 2 ^ (lo' + w' + d) * z) / 2 ^ lo' % 2 ^ w' = r / 2 ^ lo' % 2 ^ w' := by
      intro z
      have : r + 2 ^ (lo' + w' + d) * z = r + 2 ^ lo' * (2 ^ w' * (2 ^ d * z)) := by
        rw [Nat.pow_add, Nat.pow_add]; ring
      rw [this, Nat.add_mul_div_left _ _ (Nat.two_pow_pos lo'), Nat.add_mul_mod_self_left]
    rw [this, this]

theorem putBits_lt {v lo w x n : Nat} (hv : v < 2 ^ n) (h : lo + w ≤ n) : putBits v lo w x < 2 ^ n := by
  have hx : x % 2 ^ w < 2 ^ w := Nat.mod_lt _ (Nat.two_pow_pos w)
  have hr : v % 2 ^ lo < 2 ^ lo := Nat.mod_lt _ (Nat.two_pow_pos lo)
  have hb : bitsAt v lo w < 2 ^ w := bitsAt_lt v lo w
  have e1 : v = v % 2 ^ lo + 2 ^ lo * (bitsAt v lo w + 2 ^ w * (v / 2 ^ lo / 2 ^ w)) := by
    unfold bitsAt
    rw [Nat.mod_add_div, Nat.mod_add_div]
  have hq : v / 2 ^ lo / 2 ^ w < 2 ^ (n - lo - w) := by
    rw [Nat.div_div_eq_div_mul, ← Nat.pow_add]
    apply Nat.div_lt_of_lt_mul
    rw [← Nat.pow_add]
    have : lo + w + (n - lo - w) = n := by omega
    rw [this]; exact hv
  unfold putBits
  generalize bitsAt v lo w = b at *
  generalize v % 2 ^ lo = r at *
  generalize v / 2 ^ lo / 2 ^ w = q at *
  generalize x % 2 ^ w = y at *
  have e2 : v - b * 2 ^ lo + y * 2 ^ lo = r + 2 ^ lo * (y + 2 ^ w * q) := by
    rw [e1]
    have : r + 2 ^ lo * (b + 2 ^ w * q) - b * 2 ^ lo = r + 2 ^ lo * (2 ^ w * q) := by
      rw [Nat.mul_add, Nat.mul_comm b]; omega
    rw [this, Nat.mul_add, Nat.mul_comm y]; omega
  rw [e2]
  have h1 : y + 2 ^ w * q < 2 ^ w * 2 ^ (n - lo - w) := by
    calc y + 2 ^ w * q < 2 ^ w + 2 ^ w * q := by omega
      _ = 2 ^ w * (q + 1) := by ring
      _ ≤ _ := Nat.mul_le_mul_left _ hq
  calc r + 2 ^ lo * (y + 2 ^ w * q) < 2 ^ lo + 2 ^ lo * (y + 2 ^ w * q) := by omega
    _ = 2 ^ lo * (y + 2 ^ w * q + 1) := by ring
    _ ≤ 2 ^ lo * (2 ^ w * 2 ^ (n - lo - w)) := Nat.mul_le_mul_left _ h1
    _ = 2 ^ n := by rw [← Nat.pow_add, ← Nat.pow_add]; congr 1; omega

/-- A field that lies in the 64 bits of a register. -/
abbrev Field.fits (f : Field) : Prop := f.lo ≤ f.hi ∧ f.hi < 64

theorem Field.fits.le {f : Field} (h : f.fits) : f.lo + f.width ≤ 64 := by
  unfold Field.fits at h; unfold Field.width; omega

/-- A field read after it is written. -/
theorem Module.fld_setFld_self (m : Module) {f : Field} (hf : f.fits) (i j v : Nat) :
    (m.setFld f i j v).fld f i j = v % 2 ^ f.width := by
  unfold Module.fld Module.setFld
  rw [Module.reg_setReg_self, BitVec.toNat_ofNat, Nat.mod_eq_of_lt (putBits_lt (m.reg f.reg i j).isLt hf.le),
    bitsAt_putBits]

/-- Another field of the same register after a field is written. -/
theorem Module.fld_setFld_beside (m : Module) {f g : Field} (hf : f.fits) (i j v : Nat) (hr : g.reg = f.reg)
    (hd : f.hi < g.lo ∨ g.hi < f.lo) (hg : g.fits) :
    (m.setFld f i j v).fld g i j = m.fld g i j := by
  unfold Module.fld Module.setFld
  rw [hr, Module.reg_setReg_self, BitVec.toNat_ofNat, Nat.mod_eq_of_lt (putBits_lt (m.reg f.reg i j).isLt hf.le),
    bitsAt_putBits_disjoint]
  unfold Field.fits at hf hg; unfold Field.width; omega

/-- A field of another register, or of another index, after a field is written. -/
theorem Module.reg_setFld_ne (m : Module) (f : Field) {r : RegId} {i j i' j' : Nat} (v : Nat) (hi : i < 2 ^ 24)
    (hj : j < 2 ^ 16) (hi' : i' < 2 ^ 24) (hj' : j' < 2 ^ 16) (h : ¬ (r = f.reg ∧ i' = i ∧ j' = j)) :
    (m.setFld f i j v).reg r i' j' = m.reg r i' j' := m.reg_setReg_ne _ hi hj hi' hj' h

theorem Module.fld_setFld_ne (m : Module) (f g : Field) {i j i' j' : Nat} (v : Nat) (hi : i < 2 ^ 24)
    (hj : j < 2 ^ 16) (hi' : i' < 2 ^ 24) (hj' : j' < 2 ^ 16) (h : ¬ (g.reg = f.reg ∧ i' = i ∧ j' = j)) :
    (m.setFld f i j v).fld g i' j' = m.fld g i' j' := by
  unfold Module.fld; rw [m.reg_setFld_ne f v hi hj hi' hj' h]

theorem Module.flag_setFlag_self (m : Module) {f : Field} (hf : f.fits) (i j : Nat) (v : Bool) :
    (m.setFlag f i j v).flag f i j = v := by
  unfold Module.flag Module.setFlag
  rw [m.fld_setFld_self hf]
  have : 2 ≤ 2 ^ f.width := by
    unfold Field.fits at hf
    calc 2 = 2 ^ 1 := rfl
      _ ≤ 2 ^ f.width := Nat.pow_le_pow_right (by decide) (by unfold Field.width; omega)
  cases v
  · simp
  · simp only [if_true]; rw [Nat.mod_eq_of_lt (by omega)]; rfl

/-- Registers do not depend on the other fields of the module. -/
@[simp] theorem Module.reg_settle (m : Module) (r : RegId) (i j : Nat) : m.settle.reg r i j = m.reg r i j := rfl
@[simp] theorem Module.fld_settle (m : Module) (f : Field) (i j : Nat) : m.settle.fld f i j = m.fld f i j := rfl
@[simp] theorem Module.flag_settle (m : Module) (f : Field) (i j : Nat) : m.settle.flag f i j = m.flag f i j := rfl
@[simp] theorem Module.reg_send (m : Module) (x : OutMsg) (r : RegId) (i j : Nat) : (m.send x).reg r i j = m.reg r i j := rfl
@[simp] theorem Module.reg_drawn (m : Module) (r : RegId) (i j : Nat) : m.drawn.reg r i j = m.reg r i j := rfl
@[simp] theorem Module.reg_setTile (m : Module) (t : TileId) (x : Tile) (r : RegId) (i j : Nat) :
    (m.setTile t x).reg r i j = m.reg r i j := rfl
@[simp] theorem Module.reg_setCl (m : Module) (c : Nat) (x : Cl) (r : RegId) (i j : Nat) :
    (m.setCl c x).reg r i j = m.reg r i j := rfl

end Sys2Proof.Machine
end

