-- ==== Sys2Proof/Laws/Errors.lean ====
section
/-! SUPPORT. Laws/Errors.lean: what an error event does to the module (R402 to R405, R421): its registers, and nothing else. -/

namespace Sys2Proof.Machine

/-- One module follows from another by writes of the registers of a list and by what else an event writes. -/
structure EventOnly (m m' : Module) (refs : List RegRef) : Prop where
  rest : m' = m.exceptEvent m'
  regs : RegsKept m m' refs

theorem RegsKept.refl (m : Module) (refs : List RegRef) : RegsKept m m refs := fun _ _ _ _ _ _ => rfl

theorem RegsKept.trans {m m' m'' : Module} {refs : List RegRef} (h : RegsKept m m' refs) (h' : RegsKept m' m'' refs) :
    RegsKept m m'' refs := fun r i j hi hj hn => (h' r i j hi hj hn).trans (h r i j hi hj hn)

theorem RegsKept.mono {m m' : Module} {refs refs' : List RegRef} (h : RegsKept m m' refs) (hs : refs ⊆ refs') :
    RegsKept m m' refs' := fun r i j hi hj hn => h r i j hi hj (fun hm => hn (hs hm))

/-- A write of one register of the list. -/
theorem RegsKept.setReg (m : Module) {r : RegId} {i j : Nat} {refs : List RegRef} (v : Word64) (hi : i < 2 ^ 24)
    (hj : j < 2 ^ 16) (hm : (r, i, j) ∈ refs) : RegsKept m (m.setReg r i j v) refs := by
  intro r' i' j' hi' hj' hn
  refine m.reg_setReg_ne v hi hj hi' hj' ?_
  rintro ⟨rfl, rfl, rfl⟩
  exact hn hm

theorem EventOnly.refl (m : Module) (refs : List RegRef) : EventOnly m m refs := ⟨rfl, RegsKept.refl m refs⟩

theorem EventOnly.trans {m m' m'' : Module} {refs : List RegRef} (h : EventOnly m m' refs) (h' : EventOnly m' m'' refs) :
    EventOnly m m'' refs := by
  refine ⟨?_, h.regs.trans h'.regs⟩
  have e' := h'.rest
  rw [h.rest] at e'
  exact e'

theorem EventOnly.setReg (m : Module) {r : RegId} {i j : Nat} {refs : List RegRef} (v : Word64) (hi : i < 2 ^ 24)
    (hj : j < 2 ^ 16) (hm : (r, i, j) ∈ refs) : EventOnly m (m.setReg r i j v) refs :=
  ⟨rfl, RegsKept.setReg m v hi hj hm⟩

theorem EventOnly.send (m : Module) (x : OutMsg) (refs : List RegRef) : EventOnly m (m.send x) refs :=
  ⟨rfl, fun _ _ _ _ _ _ => rfl⟩

theorem EventOnly.drawn (m : Module) (refs : List RegRef) : EventOnly m m.drawn refs :=
  ⟨rfl, fun _ _ _ _ _ _ => rfl⟩

theorem EventOnly.pfVector (m : Module) (vec : Nat) {refs : List RegRef} (hm : (RegId.HIF_NMI_STATUS, 0, 0) ∈ refs) :
    EventOnly m (m.pfVector vec) refs := by
  unfold Module.pfVector
  simp only
  split
  · exact (EventOnly.send m _ refs).trans (EventOnly.setReg _ _ (by decide) (by decide) hm)
  · exact EventOnly.send m _ refs

theorem Block.group_lt (b : Block) : b.group < 2 ^ 24 := by
  cases b <;> first | decide | (simp only [Block.group]; omega)

/-- The references of an event are in the list. -/
structure HasEvent (refs : List RegRef) (b : Block) : Prop where
  status : (RegId.ERR_STATUS, b.group, 0) ∈ refs
  info0 : (RegId.ERR_FIRST_INFO0, b.group, 0) ∈ refs
  info1 : (RegId.ERR_FIRST_INFO1, b.group, 0) ∈ refs
  count : (RegId.ERR_COUNT, b.group, 0) ∈ refs
  severe : (RegId.ERR_SEVERE, b.group, 0) ∈ refs
  sigs : (RegId.INT_SIG_COUNT, 0, 0) ∈ refs
  nmi : (RegId.HIF_NMI_STATUS, 0, 0) ∈ refs

theorem hasEvent_errRefs (b : Block) : HasEvent (errRefs b) b := by
  constructor <;> simp [errRefs]

theorem hasEvent_errRefs_int (b : Block) : HasEvent (errRefs b) .int := by
  constructor <;> simp [errRefs]

theorem EventOnly.makeSevere (m : Module) (k : Kind) {refs : List RegRef} (h : HasEvent refs k.block) :
    EventOnly m (m.makeSevere k) refs := by
  unfold Module.makeSevere
  simp only
  have h1 := EventOnly.setReg m (setBit (m.reg .ERR_SEVERE k.block.group) k.bit) (Block.group_lt _) (by decide) h.severe
  split
  · exact h1
  · have h2 : EventOnly m { m.setReg .ERR_SEVERE k.block.group 0 (setBit (m.reg .ERR_SEVERE k.block.group) k.bit) with
        side := { m.side with severeRises := m.side.severeRises + 1 } } refs := ⟨rfl, h1.regs⟩
    split
    · exact h2.trans (EventOnly.pfVector _ _ h.nmi)
    · exact h2

theorem EventOnly.classify (m : Module) (k : Kind) {refs : List RegRef} (h : HasEvent refs k.block) :
    EventOnly m (m.classify k) refs := by
  unfold Module.classify
  split
  · exact EventOnly.refl m refs
  · simp only
    have h1 : ∀ e, EventOnly m { m with errWin := e } refs := fun _ => ⟨rfl, fun _ _ _ _ _ _ => rfl⟩
    split
    · exact (h1 _).trans (EventOnly.makeSevere _ k h)
    · exact h1 _

theorem EventOnly.pushSig (m : Module) (sig : List Byte) {refs : List RegRef}
    (hm : (RegId.INT_SIG_COUNT, 0, 0) ∈ refs) : EventOnly m (m.pushSig sig) refs := by
  unfold Module.pushSig
  split
  · have h1 : EventOnly m { m with sigs := m.sigs ++ [sig] } refs := ⟨rfl, fun _ _ _ _ _ _ => rfl⟩
    exact h1.trans (EventOnly.setReg _ _ (by decide) (by decide) hm)
  · exact EventOnly.setReg _ _ (by decide) (by decide) hm

theorem EventOnly.latchFirst (m : Module) (k : Kind) (ten loc : Nat) (inj : Bool) {refs : List RegRef}
    (h : HasEvent refs k.block) : EventOnly m (m.latchFirst k ten loc inj) refs := by
  have set : ∀ (m : Module) (f : Field) (v : Nat), (f.reg, k.block.group, 0) ∈ refs →
      EventOnly m (m.setFld f k.block.group 0 v) refs :=
    fun m f v hr => EventOnly.setReg m _ (Block.group_lt _) (by decide) hr
  unfold Module.latchFirst
  exact (((((((set _ _ _ h.info0)).trans (set _ _ _ h.info0)).trans (set _ _ _ h.info0)).trans
    (set _ _ _ h.info0)).trans (set _ _ _ h.info0)).trans (set _ _ _ h.info1)).trans (EventOnly.drawn _ _)

theorem EventOnly.countEvent (m : Module) (b : Block) {refs : List RegRef} (h : HasEvent refs b) :
    EventOnly m (m.countEvent b.group) refs := by
  unfold Module.countEvent
  split <;> exact EventOnly.setReg _ _ (Block.group_lt _) (by decide) h.count

theorem EventOnly.record (m : Module) (k : Kind) (ten loc site : Nat) (inj : Bool) {refs : List RegRef}
    (h : HasEvent refs k.block) : EventOnly m (m.record k ten loc site inj) refs := by
  unfold Module.record
  simp only
  have h1 := EventOnly.setReg m (setBit (m.reg .ERR_STATUS k.block.group) k.bit) (Block.group_lt k.block) (by decide)
    h.status
  generalize m.setReg .ERR_STATUS k.block.group 0 (setBit (m.reg .ERR_STATUS k.block.group) k.bit) = m1 at h1 ⊢
  generalize (!m1.flag Fld.ERR_FIRST_INFO0_VALID k.block.group) = fresh
  have h2 : EventOnly m (if fresh = true then m1.latchFirst k ten loc inj else m1) refs := by
    split
    · exact h1.trans (EventOnly.latchFirst _ _ _ _ _ h)
    · exact h1
  generalize (if fresh = true then m1.latchFirst k ten loc inj else m1) = m2 at h2 ⊢
  have h3 : EventOnly m (if (fresh && !k.refusal) = true then (m2.pushSig (m2.liveSig k loc site)).drawn else m2) refs := by
    split
    · exact h2.trans ((EventOnly.pushSig _ _ h.sigs).trans (EventOnly.drawn _ _))
    · exact h2
  generalize (if (fresh && !k.refusal) = true then (m2.pushSig (m2.liveSig k loc site)).drawn else m2) = m3 at h3 ⊢
  have h4 := h3.trans (EventOnly.countEvent m3 k.block h)
  split
  · exact h4.trans (EventOnly.pfVector _ _ h.nmi)
  · exact h4

theorem EventOnly.raise1 (m : Module) (k : Kind) (ten loc site : Nat) {refs : List RegRef} (h : HasEvent refs k.block) :
    EventOnly m (m.raise1 k ten loc site) refs :=
  (EventOnly.record m k ten loc site false h).trans (EventOnly.classify _ k h)

/-- Everything that SIG_LOST can change. -/
theorem EventOnly.raiseLost (m : Module) {refs : List RegRef} (h : HasEvent refs .int) : EventOnly m m.raiseLost refs := by
  unfold Module.raiseLost
  simp only
  split
  · exact (EventOnly.raise1 m Kind.INT_SIG_LOST 0 0 0 h).trans (EventOnly.raise1 _ Kind.INT_SIG_LOST 0 0 0 h)
  · exact EventOnly.raise1 m Kind.INT_SIG_LOST 0 0 0 h

/-- Everything that raising a kind can change. -/
theorem EventOnly.raise (m : Module) (k : Kind) (ten loc site : Nat) :
    EventOnly m (m.raise k ten loc site) (errRefs k.block) := by
  unfold Module.raise
  simp only
  split
  · exact (EventOnly.raise1 m k ten loc site (hasEvent_errRefs _)).trans (EventOnly.raiseLost _ (hasEvent_errRefs_int _))
  · exact EventOnly.raise1 m k ten loc site (hasEvent_errRefs _)

end Sys2Proof.Machine
end

