-- ==== Sys2Proof/Laws/Outcome.lean ====
section
/-! SUPPORT. Laws/Outcome.lean: what the shapes of a meaning can answer, and the outputs once they are settled. -/

namespace Sys2Proof.Machine

@[simp] theorem State.run_eq (s : State) (f : Module → Module) :
    s.run f = .next ⟨(f s.mod).settle, s.pending⟩ := rfl

/-- The sources that stop the pin do not depend on the outputs. -/
theorem Module.severeStop_settle (m : Module) : m.settle.severeStop = m.severeStop := rfl
theorem Module.aliveRuns_settle (m : Module) : m.settle.aliveRuns = m.aliveRuns := rfl

/-- Settled outputs stay as they are. -/
theorem Module.settle_settle (m : Module) : m.settle.settle = m.settle := by
  have h : m.settle.nextPins = m.nextPins := by
    unfold Module.nextPins
    simp only [Module.aliveRuns_settle, Module.severeStop_settle]
    have e1 : m.settle.groupsWith .ERR_SEVERE = m.groupsWith .ERR_SEVERE := rfl
    have e2 : m.settle.groupsWith .ERR_STATUS = m.groupsWith .ERR_STATUS := rfl
    have e3 : m.settle.aliveDriven = m.aliveDriven := rfl
    have e4 : m.settle.aliveHold = m.aliveHold := rfl
    have e5 : m.settle.pins = m.nextPins := rfl
    rw [e1, e2, e3, e4, e5]
    unfold Module.nextPins
    have e6 : m.aliveRuns = (m.aliveDriven && !m.aliveStopped) := rfl
    by_cases hr : m.aliveRuns = true
    · have hd : m.aliveDriven = true := by rw [e6] at hr; exact (Bool.and_eq_true _ _ ▸ hr).1
      simp [hr, hd]
    · simp only [Bool.not_eq_true] at hr
      simp [hr]
      try (cases m.aliveDriven <;> cases m.pins.running <;> simp)
  unfold Module.settle at *
  rw [h]

end Sys2Proof.Machine
end

