-- ==== Sys2Proof/Laws/Tiles.lean ====
section
/-! SUPPORT. Laws/Tiles.lean: the tiles of a span, reads of tiles after a change of the span, and the retirement of an
instruction. -/

namespace Sys2Proof.Machine

theorem tileKey_inj {t u : TileId} (h : tileKey t = tileKey u) : t = u := by
  unfold tileKey at h
  obtain ⟨⟨c, hc⟩, ⟨r, hr⟩, ⟨k, hk⟩⟩ := t
  obtain ⟨⟨c', hc'⟩, ⟨r', hr'⟩, ⟨k', hk'⟩⟩ := u
  simp only at h
  have e1 : c = c' := by omega
  have e2 : r = r' := by omega
  have e3 : k = k' := by omega
  subst e1 e2 e3; rfl

@[simp] theorem Module.tile_setTile_self (m : Module) (t : TileId) (x : Tile) : (m.setTile t x).tile t = x := by
  simp [Module.tile, Module.tileAt, Module.setTile, Module.setTileAt]

theorem Module.tile_setTile_ne (m : Module) {t u : TileId} (h : u ≠ t) (x : Tile) :
    (m.setTile t x).tile u = m.tile u := by
  unfold Module.tile Module.tileAt Module.setTile Module.setTileAt
  rw [Map.get?_insert_ne _ (fun e => h (tileKey_inj e).symm)]

@[simp] theorem Module.tile_settle (m : Module) (u : TileId) : m.settle.tile u = m.tile u := rfl

/-- The side of a span is a power of two up to 16 (R32). -/
theorem Module.spanSide_cases (m : Module) (c : Nat) :
    m.spanSide c = 1 ∨ m.spanSide c = 2 ∨ m.spanSide c = 4 ∨ m.spanSide c = 8 ∨ m.spanSide c = 16 := by
  unfold Module.spanSide
  generalize m.fld Fld.FAB_CL_STATUS_SPAN_SHAPE c = n
  have : min 4 n = 0 ∨ min 4 n = 1 ∨ min 4 n = 2 ∨ min 4 n = 3 ∨ min 4 n = 4 := by omega
  rcases this with h | h | h | h | h <;> rw [h] <;> simp

/-- A row or column of the origin plus an offset inside the side stays inside the cluster. -/
theorem Module.span_bound (m : Module) (c x i : Nat) (hx : x < 16) (hi : i < m.spanSide c) :
    x / m.spanSide c * m.spanSide c + i < 16 := by
  rcases m.spanSide_cases c with h | h | h | h | h <;> rw [h] at hi ⊢ <;> omega

/-- The tiles of a span are those of the same cluster whose row and column lie in its square (R32). -/
theorem Module.mem_spanTiles (m : Module) (t u : TileId) :
    u ∈ m.spanTiles t ↔ u.cl = t.cl ∧ u.row.val / m.spanSide t.cl.val = t.row.val / m.spanSide t.cl.val
      ∧ u.col.val / m.spanSide t.cl.val = t.col.val / m.spanSide t.cl.val := by
  have hs := m.spanSide_cases t.cl.val
  have hb1 := fun i => m.span_bound t.cl.val t.row.val i t.row.isLt
  have hb2 := fun i => m.span_bound t.cl.val t.col.val i t.col.isLt
  unfold Module.spanTiles Module.origin
  generalize hS : m.spanSide t.cl.val = S at *
  have hpos : 0 < S := by omega
  simp only [List.mem_flatMap, List.mem_map, List.mem_range]
  have f0 : ∀ x : Nat, x < 16 → x / S * S % 16 = x / S * S := by
    intro x hx; exact Nat.mod_eq_of_lt (Nat.lt_of_le_of_lt (Nat.div_mul_le_self x S) hx)
  have ft := f0 _ t.row.isLt
  have fc := f0 _ t.col.isLt
  constructor
  · rintro ⟨i, hi, j, hj, rfl⟩
    have h1 := hb1 i hi
    have h2 := hb2 j hj
    refine ⟨rfl, ?_, ?_⟩
    · simp only [Fin.val_ofNat, ft, Nat.mod_eq_of_lt h1]
      rw [Nat.mul_comm, Nat.mul_add_div hpos, Nat.div_eq_of_lt hi, Nat.add_zero]
    · simp only [Fin.val_ofNat, fc, Nat.mod_eq_of_lt h2]
      rw [Nat.mul_comm, Nat.mul_add_div hpos, Nat.div_eq_of_lt hj, Nat.add_zero]
  · rintro ⟨h1, h2, h3⟩
    refine ⟨u.row.val % S, Nat.mod_lt _ hpos, u.col.val % S, Nat.mod_lt _ hpos, ?_⟩
    obtain ⟨uc, ⟨ur, hur⟩, ⟨uk, huk⟩⟩ := u
    simp only at h1 h2 h3 ⊢
    subst h1
    have g1 : t.row.val / S * S + ur % S = ur := by rw [← h2]; exact Nat.div_add_mod' ur S
    have g2 : t.col.val / S * S + uk % S = uk := by rw [← h3]; exact Nat.div_add_mod' uk S
    simp only [TileId.mk.injEq, Fin.ext_iff, Fin.val_ofNat, ft, fc, g1, g2, true_and]
    exact ⟨Nat.mod_eq_of_lt hur, Nat.mod_eq_of_lt huk⟩

/-- A tile lies in its own span. -/
theorem Module.self_mem_spanTiles (m : Module) (t : TileId) : t ∈ m.spanTiles t :=
  (m.mem_spanTiles t t).2 ⟨rfl, rfl, rfl⟩

/-- No tile stands twice in the list of a span. -/
theorem Module.spanTiles_nodup (m : Module) (t : TileId) : (m.spanTiles t).Nodup := by
  have hs := m.spanSide_cases t.cl.val
  have hb1 := fun i => m.span_bound t.cl.val t.row.val i t.row.isLt
  have hb2 := fun i => m.span_bound t.cl.val t.col.val i t.col.isLt
  unfold Module.spanTiles Module.origin
  generalize hS : m.spanSide t.cl.val = S at *
  have f0 : ∀ x : Nat, x < 16 → x / S * S % 16 = x / S * S := by
    intro x hx; exact Nat.mod_eq_of_lt (Nat.lt_of_le_of_lt (Nat.div_mul_le_self x S) hx)
  have ft := f0 _ t.row.isLt
  have fc := f0 _ t.col.isLt
  refine List.nodup_flatMap.2 ⟨?_, ?_⟩
  · intro i _
    refine List.Nodup.map_on ?_ List.nodup_range
    intro a ha b hb h
    have ha := hb2 a (List.mem_range.1 ha)
    have hb := hb2 b (List.mem_range.1 hb)
    simp only [TileId.mk.injEq, Fin.ext_iff, Fin.val_ofNat, fc, Nat.mod_eq_of_lt ha, Nat.mod_eq_of_lt hb] at h
    omega
  · refine List.Pairwise.imp_of_mem ?_ (List.nodup_range (n := S))
    intro a b ha hb hab
    have ha := hb1 a (List.mem_range.1 ha)
    have hb := hb1 b (List.mem_range.1 hb)
    intro x hx hy
    simp only [List.mem_map, List.mem_range] at hx hy
    obtain ⟨j, _, rfl⟩ := hx
    obtain ⟨k, _, h⟩ := hy
    simp only [TileId.mk.injEq, Fin.ext_iff, Fin.val_ofNat, ft, Nat.mod_eq_of_lt ha, Nat.mod_eq_of_lt hb] at h
    omega

/-- A fold that changes each tile of a list without repeats. -/
theorem foldl_setTile (us : List TileId) (hn : us.Nodup) (f : TileId → Tile → Tile) (m : Module) (u : TileId) :
    (us.foldl (fun m u => m.setTile u (f u (m.tile u))) m).tile u = if u ∈ us then f u (m.tile u) else m.tile u := by
  induction us generalizing m with
  | nil => simp
  | cons a rest ih =>
    have hn' := List.nodup_cons.1 hn
    simp only [List.foldl_cons, ih hn'.2, List.mem_cons]
    by_cases hu : u = a
    · subst hu; simp [hn'.1]
    · simp [hu, m.tile_setTile_ne hu]

theorem foldl_setTile_rest (us : List TileId) (f : TileId → Tile → Tile) (m : Module) :
    us.foldl (fun m u => m.setTile u (f u (m.tile u))) m
      = { m with tiles := (us.foldl (fun m u => m.setTile u (f u (m.tile u))) m).tiles } := by
  induction us generalizing m with
  | nil => rfl
  | cons a rest ih => rw [List.foldl_cons, ih]; rfl

/-- After a change of a span, its tiles are changed and the others are as they were. -/
theorem Module.tile_mapSpan (m : Module) (t : TileId) (f : TileId → Tile → Tile) (u : TileId) :
    (m.mapSpan t f).tile u = if u ∈ m.spanTiles t then f u (m.tile u) else m.tile u :=
  foldl_setTile _ (m.spanTiles_nodup t) f m u

/-- A change of a span leaves everything but tiles. -/
theorem Module.mapSpan_rest (m : Module) (t : TileId) (f : TileId → Tile → Tile) :
    m.mapSpan t f = { m with tiles := (m.mapSpan t f).tiles } := foldl_setTile_rest _ f m

theorem Module.reg_mapSpan (m : Module) (t : TileId) (f : TileId → Tile → Tile) (r : RegId) (i j : Nat) :
    (m.mapSpan t f).reg r i j = m.reg r i j := by rw [m.mapSpan_rest t f]; rfl

theorem Module.spanTiles_mapSpan (m : Module) (t : TileId) (f : TileId → Tile → Tile) (u : TileId) :
    (m.mapSpan t f).spanTiles u = m.spanTiles u := by
  have h : ∀ c, (m.mapSpan t f).spanSide c = m.spanSide c := by
    intro c; unfold Module.spanSide Module.fld; rw [m.reg_mapSpan]
  unfold Module.spanTiles Module.origin
  simp only [h]

theorem Module.stageOf_mapSpan (m : Module) (t : TileId) (f : TileId → Tile → Tile) (c : Nat) :
    (m.mapSpan t f).stageOf c = m.stageOf c := by rw [m.mapSpan_rest t f]; rfl

/-- What a span that issues knows of itself. -/
theorem Module.issueCtx_origin {m : Module} {t : TileId} {op : Byte} {w : Fields} {cx : Ctx}
    (h : m.issueCtx t op w = some cx) : cx.o = m.origin t := by
  unfold Module.issueCtx at h
  split at h
  · cases h
  · simp only at h
    split at h
    · cases h; rfl
    · cases h

/-- An instruction that does not halt by running past the code: retirement moves the control state of the span on. -/
theorem Module.retire_inside {m : Module} {cx : Ctx}
    (h : (loopEnd (m.tile cx.o).pc (m.tile cx.o).loops).1 < cx.sg.prog.codeLen) :
    m.retire cx = m.control cx (loopEnd (m.tile cx.o).pc (m.tile cx.o).loops).1
      (loopEnd (m.tile cx.o).pc (m.tile cx.o).loops).2 := by
  unfold Module.retire
  simp only
  rw [if_neg (by omega)]

/-- With no injection armed, a check records nothing. -/
theorem Module.probe_calm {m : Module} {k : Kind} (h : m.reg .ERR_INJECT_INV k.block.group = 0) (ten loc : Nat) :
    m.probe k ten loc = m := by
  unfold Module.probe; simp [h]

/-- With no injection armed in the cluster's group, the checks of a tile record nothing. -/
theorem Module.probeTile_calm {m : Module} {cx : Ctx} (h : m.reg .ERR_INJECT_INV (32 + cx.o.cl.val) = 0) (op : Byte) :
    m.probeTile cx op = m := by
  have hk : ∀ k : Kind, k.block = .fab cx.o.cl → ∀ ten loc, m.probe k ten loc = m := by
    intro k hk ten loc
    exact Module.probe_calm (by rw [hk]; exact h) ten loc
  unfold Module.probeTile
  simp only [hk (Kind.FAB_CORE_CHECK cx.o.cl) rfl, hk (Kind.FAB_ICACHE_PARITY cx.o.cl) rfl,
    hk (Kind.FAB_BAY_PARITY cx.o.cl) rfl, hk (Kind.FAB_ARRAY_CHECK cx.o.cl) rfl, ite_self]

/-- A body that ends in no misuse case. -/
@[simp] theorem Module.orUndefined_ok (m m' : Module) (ten : Ten) : m.orUndefined ten (.ok m') = m' := rfl

/-- A misuse case leaves what undefined behaviour leaves (R2). -/
@[simp] theorem Module.orUndefined_error (m : Module) (ten : Ten) (e : Misuse) : m.orUndefined ten (.error e) = m.undefined ten := rfl

/-- A legal word that issues runs its body. -/
theorem State.tileOpBy_issues {s : State} {t : TileId} {op : Byte} {w : Fields} {bad : Bool → Option Nat}
    {body : Ctx → Module → Except Misuse Module} {cx : Ctx} (h : Issues s t op w bad cx) :
    s.tileOpBy t op w bad body = .next ⟨(s.mod.orUndefined cx.r.ten (body cx s.mod)).settle, s.pending⟩ := by
  unfold State.tileOpBy State.run
  simp only [h.issue, Module.probeTile_calm h.calm, h.legal]

/-- An illegal word that issues halts its span (R83, R107). -/
theorem State.tileOpBy_illegal {s : State} {t : TileId} {op : Byte} {w : Fields} {bad : Bool → Option Nat}
    {body : Ctx → Module → Except Misuse Module} {cx : Ctx} {k : Nat} (hi : s.mod.issueCtx t op w = some cx)
    (hc : s.mod.reg .ERR_INJECT_INV (32 + cx.o.cl.val) = 0) (hb : bad cx.sg.prog.skq2 = some k) :
    s.tileOpBy t op w bad body = .next ⟨(s.mod.haltTile cx.o k).settle, s.pending⟩ := by
  unfold State.tileOpBy State.run
  simp only [hi, Module.probeTile_calm hc, hb]

theorem State.tileOp_issues {s : State} {t : TileId} {op : Byte} {w : Fields} {form : Form}
    {body : Ctx → Module → Except Misuse Module} {others : List Nat} {cx : Ctx}
    (ho : others.contains w.mod.toNat = false) (h : Issues s t op w (form.bad w) cx) :
    s.tileOp t op w form body others = .next ⟨(s.mod.orUndefined cx.r.ten (body cx s.mod)).settle, s.pending⟩ := by
  unfold State.tileOp
  rw [ho]
  exact State.tileOpBy_issues h

/-- A word that its span does not issue has no effect. -/
theorem State.tileOpBy_unissued {s : State} {t : TileId} {op : Byte} {w : Fields} {bad : Bool → Option Nat}
    {body : Ctx → Module → Except Misuse Module} (h : s.mod.issueCtx t op w = none) :
    s.tileOpBy t op w bad body = .next ⟨s.mod.settle, s.pending⟩ := by
  unfold State.tileOpBy State.run
  simp only [h]

end Sys2Proof.Machine
end

