-- ==== Sys2Proof/Laws/Spans.lean ====
section
/-! SUPPORT. Laws/Spans.lean: what the shared shapes of the tile instructions do to a span. -/

namespace Sys2Proof.Machine

/-- A change that leaves the control state of a tile. -/
def KeepsControl (f : TileId → Tile → Tile) : Prop := ∀ u x, (f u x).pc = x.pc ∧ (f u x).loops = x.loops

/-- A span that changes its tiles and retires inside the code. -/
theorem Module.each_did {s : State} {cx : Ctx} {f : TileId → Tile → Tile} (hk : KeepsControl f)
    (hin : Inside s.mod cx) : SpanDid s.mod s ⟨(s.mod.each cx f).settle, s.pending⟩ cx f := by
  unfold Inside at hin
  have ho : (s.mod.mapSpan cx.o f).tile cx.o = f cx.o (s.mod.tile cx.o) := by
    rw [Module.tile_mapSpan, if_pos (s.mod.self_mem_spanTiles cx.o)]
  have hk' := hk cx.o (s.mod.tile cx.o)
  have hr : s.mod.each cx f = (s.mod.mapSpan cx.o f).mapSpan cx.o (fun _ x =>
      { x with pc := (loopEnd (s.mod.tile cx.o).pc (s.mod.tile cx.o).loops).1,
               loops := (loopEnd (s.mod.tile cx.o).pc (s.mod.tile cx.o).loops).2, core := .ready }) := by
    unfold Module.each
    rw [Module.retire_inside (by rw [ho, hk'.1, hk'.2]; exact hin), ho, hk'.1, hk'.2]
    rfl
  refine ⟨rfl, ?_, ?_⟩
  · show (s.mod.each cx f).settle = _
    rw [hr, Module.mapSpan_rest, Module.mapSpan_rest]
    rfl
  · intro u
    show (s.mod.each cx f).tile u = _
    rw [hr, Module.tile_mapSpan, Module.spanTiles_mapSpan, Module.tile_mapSpan]
    split <;> rfl

/-- A span none of whose tiles faults. -/
theorem Module.eachE_ok {m : Module} {cx : Ctx} {f : TileId → Tile → Except Misuse Tile} {g : TileId → Tile → Tile}
    (h : ∀ u ∈ m.spanTiles cx.o, f u (m.tile u) = .ok (g u (m.tile u))) :
    m.eachE cx f = .ok (m.each cx g) := by
  have key : ∀ (us : List TileId), us.Nodup → ∀ m' : Module, (∀ u ∈ us, f u (m'.tile u) = .ok (g u (m'.tile u))) →
      us.foldlM (fun m u => do let x ← f u (m.tile u); return m.setTile u x) m'
        = (Except.ok (us.foldl (fun m u => m.setTile u (g u (m.tile u))) m') : Except Misuse Module) := by
    intro us
    induction us with
    | nil => intro _ m' _; rfl
    | cons a rest ih =>
      intro hn m' hf
      have hn' := List.nodup_cons.1 hn
      rw [List.foldlM_cons, List.foldl_cons, hf a (List.mem_cons_self ..)]
      refine ih hn'.2 _ ?_
      intro u hu
      have hne : u ≠ a := fun e => hn'.1 (e ▸ hu)
      rw [m'.tile_setTile_ne hne]
      exact hf u (List.mem_cons_of_mem _ hu)
  unfold Module.eachE Module.each Module.mapSpan
  simp only
  rw [key _ (m.spanTiles_nodup cx.o) m h]

/-- The meaning of a tile instruction whose body changes each tile of the span. -/
theorem State.tileOpBy_did {s : State} {t : TileId} {op : Byte} {w : Fields} {bad : Bool → Option Nat}
    {body : Ctx → Module → Except Misuse Module} {cx : Ctx} {f : TileId → Tile → Tile} (h : Issues s t op w bad cx)
    (hin : Inside s.mod cx) (hb : body cx s.mod = .ok (s.mod.each cx f)) (hk : KeepsControl f) :
    ∃ s', s.tileOpBy t op w bad body = .next s' ∧ SpanDid s.mod s s' cx f :=
  ⟨_, by rw [State.tileOpBy_issues h, hb]; rfl, Module.each_did hk hin⟩

theorem State.tileOp_did {s : State} {t : TileId} {op : Byte} {w : Fields} {form : Form}
    {body : Ctx → Module → Except Misuse Module} {others : List Nat} {cx : Ctx} {f : TileId → Tile → Tile}
    (h : Issues s t op w (form.bad w) cx) (hin : Inside s.mod cx) (ho : others.contains w.mod.toNat = false)
    (hb : body cx s.mod = .ok (s.mod.each cx f)) (hk : KeepsControl f) :
    ∃ s', s.tileOp t op w form body others = .next s' ∧ SpanDid s.mod s s' cx f :=
  ⟨_, by rw [State.tileOp_issues ho h, hb]; rfl, Module.each_did hk hin⟩

/-! Writes of registers leave the control state of a tile. -/

@[simp] theorem Tile.setS_pc (x : Tile) (i : Nat) (v : Word) : (x.setS i v).pc = x.pc := by unfold Tile.setS; split <;> rfl
@[simp] theorem Tile.setS_loops (x : Tile) (i : Nat) (v : Word) : (x.setS i v).loops = x.loops := by
  unfold Tile.setS; split <;> rfl
@[simp] theorem Tile.setA_pc (x : Tile) (i : Nat) (v : Word64) : (x.setA i v).pc = x.pc := rfl
@[simp] theorem Tile.setA_loops (x : Tile) (i : Nat) (v : Word64) : (x.setA i v).loops = x.loops := rfl
@[simp] theorem Tile.setP_pc (x : Tile) (i : Nat) (v : Word) : (x.setP i v).pc = x.pc := by unfold Tile.setP; split <;> rfl
@[simp] theorem Tile.setP_loops (x : Tile) (i : Nat) (v : Word) : (x.setP i v).loops = x.loops := by
  unfold Tile.setP; split <;> rfl
@[simp] theorem Tile.flag_pc (x : Tile) (f : AFlags) : (x.flag f).pc = x.pc := rfl
@[simp] theorem Tile.flag_loops (x : Tile) (f : AFlags) : (x.flag f).loops = x.loops := rfl

theorem Tile.setLanes_control (x : Tile) (i : Nat) (mask : Word) (f : Nat → Word) :
    (x.setLanes i mask f).pc = x.pc ∧ (x.setLanes i mask f).loops = x.loops := by
  unfold Tile.setLanes
  generalize List.range 32 = ls
  induction ls generalizing x with
  | nil => exact ⟨rfl, rfl⟩
  | cons l rest ih =>
    rw [List.foldl_cons]
    obtain ⟨h1, h2⟩ := ih (if mask.getLsbD l then x.setLane i l (f l) else x)
    exact ⟨h1.trans (by split <;> rfl), h2.trans (by split <;> rfl)⟩

/-! Reads of the register files after writes (R80). -/

theorem Tile.sreg_setS (x : Tile) (i j : Nat) (v : Word) :
    (x.setS i v).sreg j = if i = j ∧ i ≠ 0 then v else x.sreg j := by
  unfold Tile.sreg Tile.setS
  by_cases hi : i = 0
  · simp [hi]
  · by_cases hj : j = 0
    · subst hj; simp [hi]
    · simp [hi, hj, Map.get_set]

theorem Tile.areg_setA (x : Tile) (i j : Nat) (v : Word64) : (x.setA i v).areg j = if i = j then v else x.areg j := by
  unfold Tile.areg Tile.setA; simp [Map.get_set]

theorem Tile.preg_setP (x : Tile) (i j : Nat) (v : Word) :
    (x.setP i v).preg j = if i = j ∧ i ≠ 0 then v else x.preg j := by
  unfold Tile.preg Tile.setP
  by_cases hi : i = 0
  · simp [hi]
  · by_cases hj : j = 0
    · subst hj; simp [hi]
    · simp [hi, hj, Map.get_set]

theorem Tile.lane_setLane (x : Tile) (i l i' l' : Nat) (v : Word) (hl : l < 32) (hl' : l' < 32) :
    (x.setLane i l v).lane i' l' = if i = i' ∧ l = l' then v else x.lane i' l' := by
  unfold Tile.lane Tile.setLane
  simp only [Map.get_set]
  have : (32 * i + l = 32 * i' + l') ↔ (i = i' ∧ l = l') := by omega
  simp [this]

/-- The lanes of a vector register after a masked write. -/
theorem Tile.lane_setLanes (x : Tile) (i : Nat) (mask : Word) (f : Nat → Word) (i' l' : Nat) (hl' : l' < 32) :
    (x.setLanes i mask f).lane i' l' = if i = i' ∧ mask.getLsbD l' = true then f l' else x.lane i' l' := by
  unfold Tile.setLanes
  have key : ∀ (ls : List Nat), (∀ l ∈ ls, l < 32) → ls.Nodup → ∀ x : Tile,
      (ls.foldl (fun x l => if mask.getLsbD l then x.setLane i l (f l) else x) x).lane i' l'
        = if l' ∈ ls ∧ i = i' ∧ mask.getLsbD l' = true then f l' else x.lane i' l' := by
    intro ls
    induction ls with
    | nil => intro _ _ x; simp
    | cons a rest ih =>
      intro hlt hn x
      have hn' := List.nodup_cons.1 hn
      rw [List.foldl_cons, ih (fun l hl => hlt l (List.mem_cons_of_mem _ hl)) hn'.2]
      have ha := hlt a (List.mem_cons_self ..)
      by_cases hal : l' = a
      · subst hal
        simp only [hn'.1, false_and, if_false, List.mem_cons, true_or, true_and]
        by_cases hm : mask.getLsbD l' = true
        · simp [hm, Tile.lane_setLane _ _ _ _ _ _ ha hl']
        · simp [hm]
      · have : (if mask.getLsbD a then x.setLane i a (f a) else x).lane i' l' = x.lane i' l' := by
          split
          · rw [Tile.lane_setLane _ _ _ _ _ _ ha hl', if_neg (fun h => hal h.2.symm)]
          · rfl
        simp [List.mem_cons, hal, this]
  rw [key _ (fun l hl => List.mem_range.1 hl) List.nodup_range]
  simp [hl']

end Sys2Proof.Machine
end

