-- ==== Sys2Proof/Machine/Fec.lean ====
section
/-! DEFINITION. Machine/Fec.lean: the line code of a port (R292): what its lanes carry of the stream of frames, and when a
codeword is uncorrectable. FLIT_RECEIVE is told of a flit whether it overlaps such a codeword. [log 197 PRESUMED] -/

namespace Sys2Proof.Machine

/-- Multiply by x in GF(2^10). The manual names the code of 100 Gb/s-per-lane Ethernet: x^10 + x^3 + 1. [log 197 PRESUMED] -/
def gfDouble (a : Nat) : Nat := if a < 512 then 2 * a else (2 * a) ^^^ 0x409

/-- Multiplication in GF(2^10); `n` bits of `b` are left. -/
def gfMulBits (a b : Nat) : Nat → Nat
  | 0 => 0
  | n + 1 => (if b.testBit 0 then a else 0) ^^^ gfMulBits (gfDouble a) (b / 2) n

def gfMul (a b : Nat) : Nat := gfMulBits a b 10

/-- The powers 0 to n − 1 of the primitive element 2. -/
def gfPowers : Nat → Nat → List Nat
  | 0, _ => []
  | n + 1, a => a :: gfPowers n (gfDouble a)

/-- Symbols of a codeword, and those that carry data (R292). -/
abbrev fecSymbols : Nat := 544
abbrev fecData : Nat := 514

/-- Symbol errors that a codeword corrects (R292). -/
abbrev fecCorrects : Nat := 15

/-- The generator without its leading 1, highest power first: the product of x − 2^j for j from 0 to 29. [log 197 PRESUMED] -/
def fecGenerator : List Nat :=
  ((gfPowers (fecSymbols - fecData) 1).foldl (fun g r =>
    List.zipWith (fun a b => a ^^^ gfMul r b) (g ++ [0]) (0 :: g)) [1]).drop 1

/-- The parity symbols of a message: its remainder by the generator. -/
def fecParity (msg : List Nat) : List Nat :=
  msg.foldl (fun p s =>
    let q := s ^^^ p.head?.getD 0
    List.zipWith (fun a g => a ^^^ gfMul q g) (p.drop 1 ++ [0]) fecGenerator) (List.replicate (fecSymbols - fecData) 0)

/-- A codeword: the data symbols, then the parity. -/
def fecCodeword (msg : List Nat) : List Nat := msg ++ fecParity msg

/-- The value of a codeword at a field element; a codeword is zero at the generator's roots. -/
def fecAt (x : Nat) (cw : List Nat) : Nat := cw.foldl (fun a s => gfMul a x ^^^ s) 0

/-- The data symbols of a stream of bytes: ten bits each, the first bit lowest. [log 197 PRESUMED] -/
def fecStream (bs : List Byte) : List Nat :=
  (List.range (8 * bs.length / 10)).map (fun i => leNat bs / 2 ^ (10 * i) % 1024)

/-- A received codeword can be corrected: at most 15 of its symbols differ from those sent. -/
def fecCorrectable (sent got : List Nat) : Bool :=
  decide (((List.zip sent got).filter (fun x => x.1 != x.2)).length ≤ fecCorrects)

/-- Codewords from one alignment marker to the next (R292). -/
abbrev alignmentPeriod : Nat := 4096

/-- Symbols of an alignment marker. -/
abbrev alignmentSymbols : Nat := 20

/-- What logical lane `l` of `n` carries of codeword number `k`: its marker once every 4,096 codewords, and its symbols. The
pattern of a marker, which the manual does not give, is free. -/
def laneSymbols (n l k : Nat) (cw : List Nat) : List Nat :=
  (if k % alignmentPeriod = 0 then (List.range alignmentSymbols).map (Config.alignmentMarker l) else [])
    ++ (cw.zipIdx.filter (fun x => x.2 % n == l)).map (·.1)

end Sys2Proof.Machine
end

