-- ==== Sys2Proof/WellFormed.lean ====
section
/-! DEFINITION. WellFormed.lean: which commands are well-formed: what a sender may say, beyond the types of the operands. A
command that is not has no meaning in the tables; the machine answers it all the same. -/

namespace Sys2Proof

open Machine

/-- The word's mod does not name another row of the same opcode (R97, R98). -/
def Fields.modNot (w : Fields) (others : List Nat) : Bool := !others.contains w.mod.toNat

/-- A packet of a KIND: its header and payload fit in 32 flits of 244 bytes (R301). -/
def Packet.ofKind (k : Packet) (kind : Nat) : Bool := k.kind.toNat == kind && decide (k.payload.length + 32 ≤ 32 * 244)

/-- How many values the first index of a register takes, from which on: the block tables and R497. -/
def RegId.indices (r : RegId) : Nat × Nat :=
  match r.owner with
  | .tenancy => (1, 100)
  | .route => (0, 256)
  | .ring => (0, 32768)
  | .func => (0, 101)
  | .caravan => (0, 1024)
  | .channel => (0, 512)
  | .cluster => (0, 100)
  | .counter => (0, 256)
  | .whole =>
    match r with
    | .ERR_STATUS | .ERR_FIRST_INFO0 | .ERR_FIRST_INFO1 | .ERR_COUNT | .ERR_CLASS_WINDOW | .ERR_CLASS_THRESH | .ERR_SEVERE
    | .ERR_INT_EN | .ERR_VECTOR | .ERR_SEVERE_VECTOR | .ERR_ALIVE_STOP | .ERR_INJECT_INV | .ERR_CLEAR => (0, 132)
    | .VIA_PORT_CTL | .VIA_PORT_STATUS | .VIA_PORT_PEER | .VIA_PORT_LANES | .VIA_PORT_SPARE_USE | .VIA_PORT_LANE_ERR_LIMIT
    | .VIA_PORT_TX_FLITS | .VIA_PORT_RX_FLITS | .VIA_PORT_REPLAYS | .VIA_PORT_RETRAINS | .VIA_PORT_FEC => (0, 6)
    | .DCK_BRIDGE_STATUS => (0, 4)
    | .WBL_PEEK_DATA => (0, 8)
    | .MEM_CH_STATUS => (0, 384)
    | .RNG_KAT_CTR | .RNG_KAT_OUT | .INT_FAB_SEVERE => (0, 2)
    | .LDG_COEF => (0, 6)
    | .INT_SIG_DATA => (0, 16)
    | _ => (0, 1)

/-- The indices name an instance of the register. -/
def RegId.indexOk (r : RegId) (i j : Nat) : Bool :=
  decide (r.indices.1 ≤ i) && decide (i < r.indices.1 + r.indices.2) && decide (j < match r with
    | .FAB_ROW_MAP => 16
    | .HLD_TEN_EXT | .HLD_TEN_EXT_RUN => 9
    | _ => 1)

/-- The access covers a 32-bit register, a half of a 64-bit register, or all of it (R6). -/
def RegId.spanOk (r : RegId) (high wide : Bool) : Bool := if r.width = 64 then !(high && wide) else !high && !wide

/-- The command is well-formed. -/
def Instr.wf : Instr → Bool
  | .nop _ op _ => op == 1 || !opcodeListed op.toNat
  | .mul _ w => w.modNot [3, 4, 5, 6]
  | .div _ w => w.modNot [0, 1, 2]
  | .aadd _ w => w.modNot [1, 2, 3, 4]
  | .aaddi _ w => w.modNot [0, 2, 3, 4]
  | .aset _ w => w.modNot [0, 1, 3, 4]
  | .alo _ w => w.modNot [0, 1, 2, 4]
  | .ahi _ w => w.modNot [0, 1, 2, 3]
  | .ptos _ w => w.modNot [1]
  | .stop _ w => w.modNot [0]
  | .slotReceive _ slot => decide (64 ≤ slot.length) && decide (slot.length ≤ 65536)
  | .frameScrubDone frame => decide (frame.toNat < dramFrames)
  | .rngSelftestPeriod bad => bad.eraseDups.length == bad.length
  | .discoveryLinkFlit _ _ _ _ _ _ => true
  | .chunkReceive pkt => pkt.ofKind 2
  | .resendRequest pkt => pkt.ofKind 2
  | .tenGrantWrite reg _ _ => grantRegs.contains reg
  | .remoteWrite pkt => pkt.ofKind 1
  | .remoteReadReq pkt => pkt.ofKind 1
  | .remoteReadData pkt => pkt.ofKind 1
  | .remoteAck pkt => pkt.ofKind 1
  | .remoteNak pkt => pkt.ofKind 1
  | .shardData pkt => pkt.ofKind 4
  | .manifest pkt => pkt.ofKind 4
  | .readReq pkt => pkt.ofKind 4
  | .readData pkt => pkt.ofKind 4
  | .dramTrainingDone failing => failing.eraseDups.length == failing.length
  | .snapshotRead _ reg i j wide => reg.indexOk i j && reg.spanOk false wide
  | .registerWrite _ reg i j high wide _ => reg.indexOk i j && reg.spanOk high wide
  | .halt .. | .br .. | .bCc .. | .call .. | .jr .. | .loop .. | .alu .. | .alui .. | .movi .. | .srd .. | .ld ..
  | .st .. | .lda .. | .sta .. | .ldv .. | .stv .. | .hld .. | .hst .. | .xld .. | .xst .. | .waitt ..
  | .transferComplete .. | .hldBcastRendezvous .. | .send .. | .sendv .. | .recv .. | .recvv .. | .mark .. | .bar ..
  | .barrierPhaseComplete .. | .flag .. | .flagw .. | .cmt .. | .cmtStep .. | .clusterCommit .. | .clusterRelease ..
  | .stepKill .. | .wld .. | .wflip .. | .vers .. | .tollRelease .. | .mma .. | .qscan .. | .qcvt .. | .tsmv ..
  | .adrain .. | .afl .. | .vfop .. | .vfma .. | .viop .. | .vfun .. | .vcmp .. | .vsel .. | .vcvt .. | .vred ..
  | .vsplat .. | .vget .. | .vput .. | .vperm .. | .viota .. | .rnu .. | .rnb .. | .icacheMissFill .. | .tileFault ..
  | .repairSparePowered .. | .repairSelftestDone .. | .repairBayShiftDone .. | .repairRefillDone ..
  | .repairRecordAppend .. | .retire .. | .clearFieldRepair .. | .failSite .. | .deckPacketArrive ..
  | .xReservationGrant .. | .xSegmentInject .. | .bridgeChannelFail .. | .dckStallExpire .. | .routeLoad ..
  | .routeStart .. | .routeStop .. | .plcRemeasure .. | .balancePeriod .. | .clusterMoveStart ..
  | .clusterMoveReassign .. | .clusterMoveComplete .. | .itemDispense .. | .schedOpDispense .. | .weightLoad ..
  | .weightSwap .. | .leanBuild .. | .baseShareLoad .. | .baseShareGrant .. | .baseShareRevoke .. | .baseShareFree ..
  | .layerStaged .. | .streamFetchComplete .. | .swapFrontFix .. | .swapComplete .. | .swapTimeout ..
  | .layerDeadlineExpire .. | .waybillSubmit .. | .stepBuild .. | .stepProcess .. | .seqendDeferredWrite ..
  | .pauseKeep .. | .pauseDrop .. | .abort .. | .wblPeekSel .. | .caravanRingEnable .. | .caravanRingConsume ..
  | .rewardEntry .. | .caravanStallExpire .. | .batchBuild .. | .batchWaitExpire .. | .learnStepHoldRelease ..
  | .memPatrolExpire .. | .mapOut .. | .mapOutComplete .. | .holdPatrolExpire .. | .hldMapSel .. | .hldBankSel ..
  | .skewWindowEnd .. | .migrationStart .. | .migrationPassDone .. | .xltAllocReq .. | .xltFree .. | .xltInval ..
  | .xltTenRootWrite .. | .entropyTestFail .. | .katGo .. | .katDone .. | .flitReceive .. | .syncMarkMiss ..
  | .nakReceive .. | .laneFail .. | .retrainStart .. | .retrainComplete .. | .linkUp .. | .portDown .. | .retrain ..
  | .portDisable .. | .packetForward .. | .packetDeliver .. | .viaJobWrite .. | .syncMessageReceive ..
  | .groupOpComplete .. | .collectiveOnce .. | .collectiveBind .. | .collectiveUnbind .. | .boundInstanceStart ..
  | .instanceComplete .. | .colTimeoutExpire .. | .doorbell .. | .ringEnable .. | .ringDisable .. | .hcpReq ..
  | .commandTake .. | .commandComplete .. | .commandKill .. | .fence .. | .timestamp .. | .queTenCmdAbort ..
  | .suspend .. | .resume .. | .functionLevelReset .. | .hifLtrWrite .. | .create .. | .destroy .. | .tenancyReset ..
  | .grantPendingFill .. | .teardownScrubDone .. | .ledgerIntervalEnd .. | .ledgerRecordWrite ..
  | .ferryDescriptor .. | .ferryDescriptorComplete .. | .pause .. | .drain .. | .dmaResume .. | .retry .. | .skip ..
  | .dmaTimeoutExpire .. | .errClassWindowExpire .. | .errSevereClear .. | .errClear .. | .errInjectInv ..
  | .complementScrub .. | .forceStop .. | .intTwinWrite .. | .sigPop .. | .patternRun .. | .ckptBuddyOnce ..
  | .ckptBuddyPeriodic .. | .ckptBuddyStop .. | .ckptDurable .. | .ckptRestore .. | .captureHold .. | .ckpAck ..
  | .ckpNak .. | .restoreInstall .. | .ckpTimeoutExpire .. | .clockMonitorWindow .. | .pllUnlock .. | .holdExit ..
  | .reselect .. | .tileStepEval .. | .thermalTrip .. | .idleDwellExpire .. | .powerStateEntryDone .. | .wakeEvent ..
  | .forceS0 .. | .powerStateExitDone .. | .rtcLoad .. | .rtcTick .. | .rtcOscFail .. | .powerOn .. | .trimsLoaded ..
  | .railsRegulated .. | .crystalQualifyTimeout .. | .startupZeroingDone .. | .railFault .. | .reset .. | .resetN ..
  | .perstN .. | .undervoltage .. | .assign .. | .unassign .. | .pointer .. | .read .. | .write .. | .status ..
  | .wake .. | .alertResponse .. | .stuckSda .. | .sclTimeout .. | .mirrorRefresh .. | .localBusPoll ..
  | .syncMarkAccept .. | .failedFrame .. | .retrainSignal .. | .pcieLinkDown .. | .cplTimeout .. | .pfFlr ..
  | .perstNRelease .. | .entropyHealthy .. | .errAliveStop .. | .badCommand .. | .busClear .. => true

end Sys2Proof
end

