-- ==== Sys2Proof/Tests/Slice0.lean ====
section
/-! SUPPORT. Tests/Slice0.lean: tests of the model on small states, with results taken from the manual's worked examples or worked
by hand from its rules, and a witness for the hypotheses of each statement. -/

namespace Sys2Proof.Tests

open Sys2Proof Sys2Proof.Machine

set_option maxRecDepth 20000

-- one proof at a time: the proofs share the memory of one process
set_option Elab.async false

/-! ## Small states -/

/-- A module after start-up. -/
def awakeModule : Module := { Module.reset with board := { Board.reset with boot := 6 } }

/-- Tenancy 1 is ACTIVE on virtual function 1 and holds cluster 0 as its LOGICAL 0; both functions speak HCP 3.2. -/
def tenModule : Module :=
  let m := (({ awakeModule with vfs := [(1, 1)] } : Module).setFld Fld.TEN_STATUS_STATE 1 0 2).setAssign 0 true 1 0
  ((m.setFld Fld.FAB_CL_STATUS_STATE 0 0 1).setReg .HIF_HCP_VER 0 0 0x10302).setReg .HIF_HCP_VER 1 0 0x10302

/-- A stage of eight instructions on one-tile spans. -/
def demoStage : Stage where
  prog := { Prog.empty with codeLen := 8, stageLen := 4096 }
  code := []
  costHint := 0
  measured := none
  busyLog := []
  top := none
  shape := 0
  kind := 0
  minCl := 1
  maxCl := 2
  branch := 0
  layerFirst := 0
  layerCount := 0
  items := 0

/-- The barrier of stage 0, whose one participant is cluster 0. -/
def demoBarrier : Barrier := ⟨1, 0, [0], none, 0, [], 0, false⟩

/-- A running route of tenancy 1 with that stage. -/
def demoRoute : Route where
  ten := 1
  routeId := 7
  learning := false
  steal := false
  partner := 0
  seed := 0
  firstStep := 0
  state := .running
  stages := [demoStage]
  buffers := []
  edges := []
  alloc := none
  barriers := [demoBarrier]
  area := []
  pages := []
  startCmd := none
  stopCmds := []
  stopUnload := false
  waiting := []
  suspended := false
  migrations := []
  divisions := []
  entered := []
  gen := ⟨0, 0, 0, 0, false⟩
  slots := []
  nextBuild := 5
  learn := none
  batches := []
  lastRing := 0

/-- The first tile of cluster 0. -/
def tile0 : TileId := ⟨0, 0, 0⟩

/-- Cluster 0 runs the route, released into a step; its first tile is `x` with a word at its program counter. -/
def running (word : Nat) (x : Tile) : Module :=
  ({ tenModule with
    routes := [(0, demoRoute)]
    cls := [(0, { Cl.reset with route := some 0, depot := Mem.write [] (64 + 8 * x.pc) 8 word })]
    tiles := [(tileKey tile0, { x with icache := [lineOf x.pc] })] } : Module).setFlag Fld.FAB_CL_STATUS_AT_BOUNDARY 0 0 false

/-- What the first tile's span knows. -/
def demoCtx : Ctx := ⟨0, demoRoute, demoStage, tile0⟩

/-- The next state's first tile. -/
def tileAfter (o : Host.Outcome State Fault Refusal) : Option Tile :=
  match o with
  | .next s => some (s.mod.tile tile0)
  | _ => none

/-- The next state's module. -/
def modAfter (o : Host.Outcome State Fault Refusal) : Option Module :=
  match o with
  | .next s => some s.mod
  | _ => none

/-- A word stands at the first tile's program counter, is legal and issues, with the next instruction in the code. -/
def issuable (op : Byte) (w : Fields) (bad : Bool → Option Nat) (x : Tile) : Bool :=
  let m := running (wordOf op.toNat w) x
  m.issueCtx tile0 op w == some demoCtx && m.reg .ERR_INJECT_INV 32 == 0 && bad false == none
    && decide ((loopEnd (m.tile tile0).pc (m.tile tile0).loops).1 < 8)

theorem issuable_issues {op : Byte} {w : Fields} {bad : Bool → Option Nat} {x : Tile} (h : issuable op w bad x = true) :
    Issues ⟨running (wordOf op.toNat w) x, []⟩ tile0 op w bad demoCtx ∧ Inside (running (wordOf op.toNat w) x) demoCtx := by
  simp only [issuable, Bool.and_eq_true, beq_iff_eq, decide_eq_true_eq] at h
  exact ⟨⟨h.1.1.1, h.1.1.2, h.1.2⟩, h.2⟩

/-- The demonstration module with the word of an opcode and fields at the first tile's program counter. -/
def atWord (op : Byte) (w : Fields) (x : Tile) : State := ⟨running (wordOf op.toNat w) x, []⟩

/-- The example of chapter 10: the walk of 0x0012_7CE3_1A40, and the place of the byte in its stack. -/
def walkModule : Module :=
  let e := fun (b : Mem) (a v : Nat) => Mem.write (Mem.write b a 8 v) (a + 8) 8 (2 ^ 64 - 1 - v)
  let m : Module := { awakeModule with
    dram := e (e (e (e [] 0x02000010 0x02010401) 0x02010490 0x02012001) 0x02013E70 0x02010801) 0x02010830 0xA3F1000F }
  (((m.setReg .XLT_TEN_ROOT 12 0 (pairWord (2 ^ 31 + 0x0200))).setTag 0x0200 0x800C).setTag 0x0201 0x800C).setTag 0xA3F1 0x800C

/-- The example of chapter 12: on a 16 × 16 × 32 torus, (3, 14, 30) sends towards (13, 2, 5) through X−; (1, 14, 30) with X− down
detours through Y+; and (1, 15, 30) goes on through X−. -/
def torusAt (x y z : Nat) : Module :=
  awakeModule.setCoord x y z

/-- The example of chapter 17: the sixteenth corrected error of a channel within the window is severe, the fifteenth is not. -/
def storm (n : Nat) : Module := (List.range n).foldl (fun m _ => m.raise Kind.MEM_CE 0 183) awakeModule

/-- A packet with an empty payload. -/
def bare (kind : Nat) : Packet := ⟨0, 0, 0, byteOf kind, 0, 0, 0, []⟩

/-- The word issues at a tile, and the module meets a condition as well. -/
def holds (op : Byte) (w : Fields) (bad : Bool → Option Nat) (x : Tile) (p : Module → Bool) : Bool :=
  issuable op w bad x && (running (wordOf op.toNat w) x).spanTiles tile0 == [tile0] && p (running (wordOf op.toNat w) x)

/-- The same in a module that `f` makes of the demonstration module. -/
def heldIn (f : Module → Module) (op : Byte) (w : Fields) (bad : Bool → Option Nat) (x : Tile) (p : Module → Bool) : Bool :=
  let m := f (running (wordOf op.toNat w) x)
  (m.issueCtx tile0 op w).isSome && m.reg .ERR_INJECT_INV 32 == 0 && bad false == none
    && decide ((loopEnd (m.tile tile0).pc (m.tile tile0).loops).1 < 8) && p m

/-- Tenancy 1 has one bank of the Hold, bank 5, at Hold address 0. -/
def withBank (m : Module) : Module :=
  { (m.setReg .HLD_TEN_EXT 1 0 (pairWord 65536)).setReg .HLD_TEN_EXT_RUN 1 0 (pairWord (2 ^ 17)) with holdMap := [(0, tagWord 0x8005)] }

/-- Cluster 0 is the twin of cluster 1. -/
def asTwin (m : Module) : Module := m.setCl 0 { m.cl 0 with twinOf := some 1 }

/-- A transfer in an engine. -/
def oneXfer (kind : XferKind) : Transfer := ⟨kind, 0, 0, 0, 32, none⟩

/-- The demonstration module with one transfer in the first tile's engine. -/
def withXfer (k : Transfer) (buffers : List Buffer) : Module :=
  { running 0 { Tile.reset with xfers := [k] } with routes := [(0, { demoRoute with buffers := buffers })] }

/-- A packet on the Deck between two tiles of cluster 0. -/
def onePkt (kind : DeckKind) : DeckPkt := ⟨0, tile0, ⟨0, 0, 1⟩, 3, 1, kind, 1, [1, 0, 2, 0], true⟩

/-- The demonstration module with packets on the Deck. -/
def withDeck (ks : List DeckPkt) : Module := { running 0 Tile.reset with deck := ks }

/-- A command of tenancy 1 with some operand bytes from byte 8 on. -/
def cmdOf (op : Nat) (fields : List Byte) : Cmd :=
  ⟨1, 0, 1, 0, none, [byteOf op] ++ List.replicate 7 0 ++ fields ++ List.replicate (56 - fields.length) 0, .taken, 0, 0⟩

/-- A command of the house context. -/
def houseCmd (op : Nat) (fields : List Byte) : Cmd := { cmdOf op fields with func := 0, ten := house }

/-- The module with one command taken. -/
def taking (m : Module) (c : Cmd) : Module := { m with cmds := [(0, c)] }

/-- The command may start, as `CmdReady` says. -/
def ready (m : Module) (op : Nat) (c : Cmd) : Bool :=
  m.cmd 0 == some c && c.phase == .taken && c.op == op && m.canStart c && (m.headerStatus c).isNone

/-- Full buckets of tenancy 1 on the channels of `n` stacks, from that of frame 3 on. -/
def fullBuckets (n : Nat) : Map Nat := (List.range (32 * n)).map (fun c => (608 + c, 65536))

/-- Tenancy 1's page at virtual address 0: 64 KiB, read and write, at frame 3; its tables lie in frames 1 and 2;
the next page is not mapped; its buckets on the stack of frame 3
are full. -/
def pagedModule : Module :=
  let e := fun (b : Mem) (a v : Nat) => Mem.write (Mem.write b a 8 v) (a + 8) 8 (2 ^ 64 - 1 - v)
  let m : Module := { tenModule with
    tokens := fullBuckets 1
    dram := e (e (e (e (e [] 0x10000 0x20001) 0x20000 0x21001) 0x21000 0x22001) 0x22000 0x3000F) 0x22010 0 }
  (((m.setReg .XLT_TEN_ROOT 1 0 (pairWord (2 ^ 31 + 1))).setTag 1 0x8001).setTag 2 0x8001).setTag 3 0x8001

/-- The page holds these bytes from an offset on. -/
def paged (off : Nat) (bs : List Byte) : Module := { pagedModule with dram := Mem.setBytes pagedModule.dram (0x30000 + off) bs }

/-- What a read gives, if it succeeds. -/
def readOf (o : Except Fail (List Byte) × Module) : Option (List Byte) :=
  match o.1 with
  | .ok bs => some bs
  | .error _ => none

/-- A weight record with one resident and one streamed layer, and four berths. -/
def demoRec : WRecord where
  layers := [⟨0, 4096, 0, none, 0, false⟩, ⟨65536, 4096, 0, none, 0, true⟩]
  active := 7
  source := 0
  travel := none
  queued := none
  lean := []
  base := 0
  size := 4096
  count := 4
  berths := []
  broken := []
  restage := []
  settings := ⟨false, 0, 0, 0, 2⟩
  decided := []
  missed := []
  answers := []
  asked := []
  badSteps := []
  leanSteps := []
  past := []

/-- A swap to version 8. -/
def demoSwap : WSwap := ⟨5, 8, 0, 0, none, none, [], false⟩

/-- The demonstration module with a weight record; its stage carries layers 0 and 1. -/
def withRec (w : WRecord) : Module :=
  { running 0 Tile.reset with
    weights := [(1, w)]
    routes := [(0, { demoRoute with stages := [{ demoStage with layerFirst := 0, layerCount := 2 }] })] }

/-- The berths of tenancy 1: four of 4096 bytes at Hold address 0. -/
def berths (m : Module) : Module :=
  (m.setFld Fld.WGT_TEN_BERTH_COUNT 1 0 4).setFld Fld.WGT_TEN_BERTH_BYTES_BYTES 1 0 4096

/-- Tenancy 1 with two pages, four rings from ring 10, and one entry waiting in ring 10 of a type; ring 11 is its COMPLETION ring. The
entries of ring 10 fill the end of page 0, and its pointer block lies in page 1. -/
def ringed (ty : Nat) (entry : List Byte) : Module :=
  let m := paged (0x10000 - 16 * entry.length) entry
  let m := { m with dram := Mem.write (Mem.write m.dram 0x22010 8 0x4000F) 0x22018 8 (2 ^ 64 - 1 - 0x4000F) }.setTag 4 0x8001
  let m := m.setReg .TEN_RINGS 1 0 (pairWord (10 + 32768 * 4))
  let m := (((m.setFlag Fld.QUE_RING_CFG_ENABLE 10 0 true).setFld Fld.QUE_RING_CFG_TYPE 10 0 ty).setFld Fld.QUE_RING_CFG_PAIR 10 0 1)
  let m := (m.setFld Fld.QUE_RING_BASE_VA 10 0 (0x10000 - 16 * entry.length)).setFld Fld.QUE_RING_PTRS_TAIL 10 0 1
  let m := (m.setFlag Fld.QUE_RING_CFG_ENABLE 11 0 true).setFld Fld.QUE_RING_CFG_TYPE 11 0 ringType.completion
  { m with tokens := fullBuckets 2, rings := [(10, ⟨0, none, 0, 0, []⟩), (11, ⟨0, none, 0, 0, []⟩)] }

/-- An enabled caravan ring of 4096 slots. -/
def demoCvn : Caravan := ⟨0, 16, false, false, 5, [], [], true⟩

/-- Ring 12 is the caravan ring 3 of tenancy 1. -/
def withCvn (c : Caravan) (m : Module) : Module :=
  let m := (m.setFlag Fld.QUE_RING_CFG_ENABLE 12 0 true).setFld Fld.QUE_RING_CFG_TYPE 12 0 ringType.caravan
  let m := (m.setFld Fld.QUE_RING_INFO_CARAVAN 12 0 3).setFlag Fld.CVN_RING_CFG_ENABLE 3 0 true
  let m := (m.setFld Fld.CVN_RING_CFG_TENANCY 3 0 1).setFld Fld.CVN_RING_CFG_RING 3 0 12
  { m with caravans := [(3, c)] }

/-- A submission: QUEUED, a window of 64 MiB, a prompt of 4 tokens and a limit of 8, on caravan ring 12. -/
def demoImage (ten : Nat) : List Byte :=
  let pair := fun v : Nat => leBytes 4 v ++ leBytes 4 (2 ^ 32 - 1 - v)
  pair (1 + 256 * ten + 65536 * 26) ++ pair 1 ++ leBytes 4 4 ++ leBytes 4 8 ++ leBytes 4 4 ++ leBytes 4 4
    ++ [0, 0, 0, 0] ++ leBytes 2 12 ++ List.replicate 26 0

/-- The entry that tenancy 1 submits. -/
def demoWaybill : Waybill := newWaybill 1 10 11 0 (demoImage 1)

/-- The learning route of tenancy 1, with a sequence of one row in caravan ring 3 whose end record lies across two pages. -/
def demoLearn : LearnCfg := ⟨0, 24, 2, 1, false, some [(5, 0)], []⟩

def learnRoute (bs : List Batch) : Route :=
  { demoRoute with
    learning := true
    stages := [{ demoStage with kind := 6, items := 0xFFFFFFFE }]
    learn := some demoLearn
    batches := bs }

def learning (seqs : List CSeq) (bs : List Batch) : Module :=
  let ends := List.replicate 8 0 ++ leBytes 4 1 ++ leBytes 4 1 ++ leBytes 4 1 ++ leBytes 4 1 ++ List.replicate 8 0
  let m := withCvn { demoCvn with base := 0x10000 - 0x60, learn := true, seqs := seqs } (ringed ringType.waybill [])
  let e := fun (b : Mem) (a v : Nat) => Mem.write (Mem.write b a 8 v) (a + 8) 8 (2 ^ 64 - 1 - v)
  let d := e (e m.dram 0x21200 0x23001) 0x23000 0x5000F
  { m with
    dram := Mem.setBytes (Mem.setBytes d 0x3FFF0 (ends.take 16)) 0x40000 (ends.drop 16)
    routes := [(0, learnRoute bs)] }.setTag 5 0x8001

/-- A flit with a payload on VC 0. -/
def demoFlit (seq kind : Nat) : BitVec 2048 := BitVec.ofNat 2048 (fieldAt (flitBytes seq 0 kind 0 [1, 2, 3]) 0 256)

/-- Port 0 is UP with forty lanes, and tenancy 1 is registered to job 5. -/
def linked : Module :=
  (((tenModule.setFld Fld.VIA_PORT_STATUS_STATE 0 0 2).setFld Fld.VIA_PORT_STATUS_VLP 0 0 0x30).setFld
    Fld.VIA_PORT_STATUS_SYNC_LANES 0 0 2).setReg .VIA_JOB 1 0 (pairWord (2 ^ 31 + 5))

/-- A packet of job 5 from module 0 to module `dst`. -/
def demoPkt (dst : BitVec 13) (kind : Byte) (spec : BitVec 128) (payload : List Byte) : Packet := ⟨dst, 0, 5, kind, 0, 0, spec, payload⟩

/-- Two mapped pages of tenancy 1. -/
def twoPages : Module := { ringed ringType.waybill [] with rings := [] }

/-- A collective command: ALL_GATHER of four INT8 elements from page 0 to page 1, this module alone. -/
def colCmd (mode : Nat) : Cmd :=
  cmdOf 0x30 ([byteOf mode, 2, 0, 2, 1, 0] ++ leBytes 2 3 ++ leBytes 4 0 ++ leBytes 4 9 ++ leBytes 4 4 ++ leBytes 2 7 ++ leBytes 2 0
    ++ leBytes 8 0x100 ++ leBytes 8 0x10100 ++ leBytes 8 0 ++ leBytes 2 0)

/-- Tenancy 1 with four pages from address 0, at frames 3 to 6. -/
def fourPages : Module :=
  [4, 5, 6].foldl (fun m f =>
    let e := f * 65536 + 15
    let d := Mem.write (Mem.write m.dram (0x22000 + 16 * (f - 3)) 8 e) (0x22008 + 16 * (f - 3)) 8 (2 ^ 64 - 1 - e)
    { m with dram := d }.setTag f 0x8001) { pagedModule with tokens := fullBuckets 4 }

/-- A FILL of `n` bytes to an address. -/
def fillDesc (flags n dst : Nat) : List Byte :=
  [1, byteOf flags] ++ leBytes 2 0 ++ leBytes 4 0 ++ leBytes 8 0x0102030405060708 ++ leBytes 8 dst ++ leBytes 8 n ++ List.replicate 32 0

/-- Ferry channel 5 serves ring 10 of tenancy 1. -/
def ferried (m : Module) (st : Nat) (x : Ferry) : Module :=
  ({ m.setReg .DMA_CH_CFG 5 0 (BitVec.ofNat 64 (2 ^ 31 + 32768 + 10)) with ferries := [(5, x)] } : Module).setChState 5 st

/-- A pattern pack of one pattern of kind 1. -/
def demoPack (minor kind : Nat) : List Byte :=
  let b := leBytes 4 0x334B5054 ++ [byteOf minor, 3] ++ leBytes 2 1 ++ leBytes 4 96 ++ leBytes 4 64 ++ List.replicate 48 0
    ++ ([byteOf kind] ++ List.replicate 31 0)
  putAt b 60 (leBytes 4 (crc32c b))

/-- Four pages, a stopped route, a buddy, a job and an area of 192 KiB from address 0x8000. -/
def guarded : Module :=
  let m := ({ fourPages with routes := [(0, { demoRoute with state := .stopped })] } : Module).setReg .VIA_JOB 1 0 (pairWord (2 ^ 31 + 5))
  let m := (m.setReg .CKP_TEN_BUDDY 1 0 (BitVec.ofNat 64 (2 ^ 31 + 1))).setReg .CKP_TEN_AREA 1 0 0x8000
  m.setReg .CKP_TEN_AREA_BYTES 1 0 (BitVec.ofNat 64 0x30000)

/-- A module at a stage of start-up, from reset. -/
def booted (k : Nat) : Module := { Module.reset with board := { Board.reset with boot := k } }

/-- A route image with its checksum entered. -/
def sealed (b : List Byte) : List Byte := b.take 60 ++ leBytes 4 (crc32c (zeroAt b 60 4)) ++ b.drop 64

/-- A route image of route 7: one generation stage, on one cluster, whose program lies at 0x1000; `n` stages said. -/
def routeImage (n : Nat) : List Byte :=
  leBytes 4 0x33455452 ++ [0, 3, 1, 0] ++ leBytes 2 n ++ List.replicate 22 0 ++ leBytes 4 64 ++ leBytes 4 96 ++ leBytes 4 96 ++ leBytes 4 96
    ++ leBytes 4 96 ++ leBytes 2 7 ++ List.replicate 10 0
    ++ (leBytes 8 0x1000 ++ leBytes 4 128 ++ leBytes 4 1 ++ [16, 5, 1, 1] ++ leBytes 2 1 ++ List.replicate 10 0)

/-- Its program: eight words of zeros, the whole bay scratch, nothing staged. -/
def programImage : List Byte :=
  leBytes 4 0x33514B53 ++ [0, 3, 0, 0] ++ leBytes 4 8 ++ List.replicate 8 0 ++ leBytes 2 0 ++ leBytes 2 512 ++ leBytes 4 0
    ++ leBytes 4 (crc32c (List.replicate 64 0)) ++ List.replicate 96 0

/-- Tenancy 1 may have sixteen frames, its page holds an image and the program, and its cluster stands in a state. -/
def loadable (image : List Byte) (st : Nat) : Module :=
  let m := paged 0 image
  ({ m with dram := Mem.setBytes m.dram 0x31000 programImage }.setReg .TEN_DRAM 1 0 (pairWord 16)).setFld Fld.FAB_CL_STATUS_STATE 0 0 st

/-! ## Single instructions -/

/-- The layout of the instruction word: opcode, MOD, D, A, B and the immediate. -/
theorem test_encoding : wordOf 0x10 ⟨3, 1, 2, 0, 0⟩ = 0x100C108000000000 ∧ wordOf 0x28 ⟨0, 4, 5, 2, 0x18000000⟩ = 0x2800414218000000 := by
  decide

/-- An addition wraps, and the program counter moves on by one. -/
theorem test_add_wraps : (tileAfter (exec (.alu tile0 ⟨3, 1, 2, 0, 0⟩) (atWord 0x10 ⟨3, 1, 2, 0, 0⟩
    ((Tile.reset.setS 1 0xFFFFFFFF#32).setS 2 5)))).map (fun x => (x.sreg 3, x.pc)) = some (4, 1) := by
  decide

/-- A division by zero gives all ones (R98). -/
theorem test_div_by_zero : (tileAfter (exec (.div tile0 ⟨3, 1, 2, 3, 0⟩) (atWord 0x13 ⟨3, 1, 2, 3, 0⟩
    (Tile.reset.setS 1 77)))).map (fun x => (x.sreg 3, x.pc)) = some (0xFFFFFFFF, 1) := by
  decide

/-- A word load ignores the low two bits of its address. -/
theorem test_load_aligns : (tileAfter (exec (.ld tile0 ⟨3, 1, 0, 4, 0⟩) (atWord 0x20 ⟨3, 1, 0, 4, 0⟩
    { Tile.reset.setS 1 0x102 with bay := Mem.write [] 0x100 4 0x80FF1234 }))).map (fun x => x.sreg 3) = some 0x80FF1234 := by
  decide

/-! ## Worked examples of the manual -/

/-- The example of chapter 2: logical tile (2, 37, 53) is column 5 of row 5 of cluster 63, at offset 5 or, once SHIFT_AT is 2, 6;
tile 1 of the row stays at offset 1. -/
theorem test_site :
    awakeModule.siteOffset 63 5 5 = 5 ∧ (awakeModule.setRowMap 63 5 2).siteOffset 63 5 5 = 6
    ∧ (awakeModule.setRowMap 63 5 2).siteOffset 63 5 1 = 1 ∧ (awakeModule.setRowMap 63 5 2).siteOffset 63 5 15 = 16 := by decide

/-- The example of chapter 3: conversions to E4M3. -/
theorem test_e4m3 :
    (Fmt.encode .e4m3 (.fin false 33 10)).1 = 0x45 ∧ (Fmt.encode .e4m3 (.fin false 3125 1000)).1 = 0x45
    ∧ (Fmt.encode .e4m3 (.fin false 464 1)).1 = 0x7E ∧ (Fmt.encode .e4m3 (.fin true 1000 1)).1 = 0xFE
    ∧ (Fmt.encode .e4m3 (.fin false 3 1000)).1 = 0x02 := by decide

/-- The example of chapter 3: the row (3.25, −15.875, 0.0625, 7.1875) has the absolute maximum 15.875 and, with the scale 0.125,
becomes (26, −127, 1, 58). -/
theorem test_quantise :
    absMax 0 [0x40500000#32, 0xC17E0000#32, 0x3D800000#32, 0x40E60000#32] = 0x417E0000#32
    ∧ [0x40500000#32, 0xC17E0000#32, 0x3D800000#32, 0x40E60000#32].map (fun x => (quantise .int8 0x3E000000#32 x).1)
        = [26, 0x81, 1, 58] := by decide

/-- The example of chapter 3: 15 · 0.125 · 2^−7 drains to BF16 as 0x3C70. -/
theorem test_drain : (Tile.drainElem { Tile.reset with
      acc0 := [(0, 15)], ts := [(0, 0x3E000000#32)], set0 := ⟨[], [(0, 0x3C000000#32)], 0⟩ } false false .bf16 0 0).1 = 0x3C70 := by decide

/-- The example of chapter 3: the BF16 sum of four ranks. -/
theorem test_bf16_tree :
    (ColSpec.reduceAt ⟨1, 0, 0, 4, 1, 1, 0, 1, false, 0, false, 0, []⟩ 4
      [⟨0, 0, 0, [0x80, 0x3F]⟩, ⟨1, 1, 0, [0x80, 0x3B]⟩, ⟨2, 2, 0, [0x00, 0x40]⟩, ⟨3, 3, 0, [0x00, 0x3C]⟩] 0) = some [0x42, 0x40] := by
  decide +kernel

/-- The example of chapter 6: the starting allocation of a route of 20 clusters, and after stage 0 is measured at 10,500. -/
theorem test_allocation :
    (let sg := fun n : Nat => { demoStage with costHint := n, maxCl := 100 }
     allocate 20 [sg 9000, sg 3000, sg 12000, sg 1500] = [7, 3, 9, 1]
     ∧ allocate 20 [sg 10500, sg 3000, sg 12000, sg 1500] = [8, 3, 8, 1]) := by decide

/-- The example of chapter 8: with 32 slots and 2^5 pages each, position 3 · 256 of a sequence needs the KV page of slot 7, page 3,
and the page of its scales. -/
theorem test_kv_addresses :
    0x7CE30000 ∈ windowPages 0x78000000 27 32 5 768 ∧ 0x78280000 ∈ windowPages 0x78000000 27 32 5 768 := by decide

theorem test_walk : walkModule.walk 12 0x00127CE31A40 false = .ok (.dram 0xA3F11A40) := by decide

theorem test_channel : channelAt 0x0D 0 0xA3F1 0x1A40 = 183 := by decide

/-- The example of chapter 11: mask bit 300 comes from block 37, half-word 4, and lands in lane 9, bit 12. -/
theorem test_mask_bit :
    [1, 2, 3, 4].map (fun seed : Word64 => (rnbWord seed 0x2A17 0x0100FA8000000400 9000 9).getLsbD 12)
      = [1, 2, 3, 4].map (fun seed : Word64 =>
          decide ((drawBlock seed 0x2A17 0x0100FA8000000425).2.2.1.toNat % 65536 < 9000)) := by decide +kernel

theorem test_route :
    (torusAt 3 14 30).hopTo 1325 = some (0, false) ∧ (torusAt 13 14 30).hopTo 1325 = some (1, true)
    ∧ (torusAt 13 2 30).hopTo 1325 = some (2, true) := by decide

/-- The example of chapter 13: the group value, and the rank of module (0, 7, 4) in X 15–0, Y 6–7, Z 3–4 over X and Z. -/
theorem test_rank :
    (let c : ColSpec := ⟨1, 1, 0, 2, 0b101, 0x8083760F, 0, 0, false, 0, false, 0, []⟩
     let m := torusAt 0 7 4
     m.myRank c = 3 ∧ m.subSize c = 4 ∧ m.rankModule c 3 = 1136 ∧ m.rankOf c 1136 = some 3) := by decide

/-- The example of chapter 14: the completion record of a swap. -/
theorem test_completion_record :
    completionRecord 0x0A2C 0 0x11 3 0x65 = [0x2C, 0x0A, 0, 0, 0, 0x11, 3, 0, 0x65, 0, 0, 0, 0, 0, 0, 0] := by decide

/-- The example of chapter 15: MODELLED of tenancy 12 with the default coefficients, and the reconciled values of one interval. -/
theorem test_modelled :
    awakeModule.modelled [60, 1200000, 400000000000000, 146484375000, 117187500000, 0, 0] = 16544160 := by decide

theorem test_ledger :
    (let row := fun ten e => (⟨ten, false, false, false, false, 0, [60, 0, 0, 0, 0, 0, 0, e, e], 0⟩ : LedgerRow)
     (reconcileAll 74071368 [row 12 16544160, row 40 45000000, row 0 9000000]).map (fun r => r.at 8)
       = [17371368, 47250000, 9450000]) := by decide

/-- The example of chapter 9: the sequence-end record of waybill 450. -/
theorem test_sequence_end :
    seqEnd 450 { newWaybill 1 0 0 0 
      (leBytes 8 (27 * 65536) ++ leBytes 8 0x1E ++ leBytes 4 1200 ++ leBytes 4 4096 ++ leBytes 4 600 ++ leBytes 36 0) with
      firstPos := some 600, oldest := 7, last := 9, flagsOr := 0x4A } 1 0 9
    = [leBytes 4 0x84A00001 ++ leBytes 2 0x01C2 ++ leBytes 2 9 ++ leBytes 4 0x4B0 ++ leBytes 4 0x258,
       leBytes 4 0x06C0001E ++ leBytes 4 0x258 ++ leBytes 4 0 ++ leBytes 2 7 ++ [0, 0]] := by decide

/-- The example of chapter 19: with tenancy 40's 100 µs the module may enter S2; with 5,000 µs S3. -/
theorem test_power_state :
    ([100, 5000, 50000].map (fun us : Nat => ((awakeModule.setReg .PWR_LAT_TOL 0 0 (BitVec.ofNat 64 us)).setFld
      Fld.PWR_CTL_MAX_STATE 0 0 4).chooseState)) = [2, 3, 4] := by decide

/-- The example of chapter 21: two addresses. -/
theorem test_addresses : RegId.offset .WBL_TEN_ACTION 12 0 = 0x111638 ∧ RegId.offset .FAB_ROW_MAP 63 5 = 0x2FC128 := by decide

theorem test_storm :
    ((storm 15).reg .ERR_SEVERE Block.mem.group).getLsbD 0 = false ∧ ((storm 16).reg .ERR_SEVERE Block.mem.group).getLsbD 0 = true
    ∧ (storm 16).fld Fld.ERR_COUNT_COUNT Block.mem.group = 16
    ∧ (storm 16).fld Fld.ERR_FIRST_INFO0_KIND Block.mem.group = 0 ∧ (storm 16).flag Fld.ERR_FIRST_INFO0_VALID Block.mem.group = true := by
  decide

/-! ## Well-formedness: one ill-formed command for each check -/

theorem wf_refuses_words :
    [Instr.nop tile0 0x10 ⟨0, 0, 0, 0, 0⟩, .mul tile0 ⟨0, 0, 0, 3, 0⟩, .div tile0 ⟨0, 0, 0, 2, 0⟩, .aadd tile0 ⟨0, 0, 0, 1, 0⟩,
      .aaddi tile0 ⟨0, 0, 0, 0, 0⟩, .aset tile0 ⟨0, 0, 0, 3, 0⟩, .alo tile0 ⟨0, 0, 0, 4, 0⟩, .ahi tile0 ⟨0, 0, 0, 3, 0⟩,
      .ptos tile0 ⟨0, 0, 0, 1, 0⟩, .stop tile0 ⟨0, 0, 0, 0, 0⟩].all (fun c => !c.wf) = true := by decide

theorem wf_refuses_operands :
    [Instr.slotReceive 1 (List.replicate 63 0), .frameScrubDone (BitVec.ofNat 23 dramFrames), .rngSelftestPeriod [tile0, tile0],
      .tenGrantWrite .TEN_STATUS 1 0, .dramTrainingDone [3, 3]].all (fun c => !c.wf) = true := by decide

theorem wf_refuses_packets :
    [Instr.chunkReceive (bare 4), .resendRequest (bare 1), .remoteWrite (bare 2), .remoteReadReq (bare 2), .remoteReadData (bare 2),
      .remoteAck (bare 2), .remoteNak (bare 2), .shardData (bare 2), .manifest (bare 2), .readReq (bare 2), .readData (bare 2),
      .remoteWrite { bare 1 with payload := List.replicate 7777 0 }].all (fun c => !c.wf) = true := by decide +kernel

theorem wf_refuses_registers :
    [Instr.snapshotRead 0 .PWR_CAP 0 0 true, .snapshotRead 0 .ERR_STATUS 132 0 false, .registerWrite 0 .FAB_ROW_MAP 0 16 false true 0,
      .registerWrite 0 .PWR_CAP 0 0 true false 0, .registerWrite 0 .XLT_TEN_ROOT 0 0 false true 0].all (fun c => !c.wf) = true := by decide

/-- A command that meets every check is well-formed. -/
theorem wf_accepts :
    [Instr.mul tile0 ⟨0, 0, 0, 2, 0⟩, .chunkReceive (bare 2), .slotReceive 1 (List.replicate 64 0), .frameScrubDone 0,
      .registerWrite 0 .FAB_ROW_MAP 99 15 true false 0, .snapshotRead 0 .XLT_TEN_ROOT 100 0 true].all Instr.wf = true := by decide

/-! ## Witnesses: tile instructions -/

/-- ScalarInstructions, SpecialRegisterReads, ControlFlow: each word issues on a tile at reset. -/
theorem witness_scalar_words : ([
    (0x10, ⟨3, 1, 2, 0, 0⟩, formAlu), (0x11, ⟨3, 1, 0, 0, 5⟩, formAlui), (0x12, ⟨3, 0, 0, 0, 7⟩, formMovi),
    (0x13, ⟨3, 1, 2, 2, 0⟩, formMulDiv), (0x13, ⟨3, 1, 2, 3, 0⟩, formMulDiv), (0x18, ⟨1, 2, 3, 0, 0⟩, formAadd),
    (0x18, ⟨1, 2, 0, 1, 9⟩, formAaddi), (0x18, ⟨1, 2, 3, 2, 0⟩, formAset), (0x18, ⟨1, 2, 0, 3, 0⟩, formAlo),
    (0x18, ⟨1, 2, 0, 4, 0⟩, formAhi), (0x1D, ⟨1, 2, 0, 0, 0⟩, formPtos), (0x1D, ⟨1, 2, 0, 1, 0⟩, formStop),
    (0x1C, ⟨1, 0, 0, 0, 8⟩, formSrd), (0x01, ⟨0, 0, 0, 0, 0⟩, formNop), (0x03, ⟨0, 0, 0, 0, 7⟩, formBr),
    (0x04, ⟨0, 1, 2, 0, 7⟩, formBCc), (0x05, ⟨1, 0, 0, 0, 7⟩, formCall), (0x06, ⟨0, 1, 0, 0, 0⟩, formJr),
    (0x07, ⟨0, 1, 0, 0, 0x20003⟩, formLoop), (0x02, ⟨0, 0, 0, 0, 0⟩, formHalt), (0x02, ⟨0, 0, 0, 0, 9⟩, formHalt)
    ] : List (Byte × Fields × Form)).all (fun p => issuable p.1 p.2.1 (p.2.2.bad p.2.1) Tile.reset) = true := by decide

/-- BayAccess, ArrayMoves, TransferInstructions, SendingInstructions, ReceivingInstructions, Flags, Barriers,
CommitInstructions, QuantiseAndDrain: likewise. -/
theorem witness_memory_words : ([
    (0x20, ⟨3, 1, 0, 0, 0⟩, formLd), (0x22, ⟨3, 1, 0, 0, 0⟩, formLda), (0x24, ⟨3, 1, 0, 0, 0⟩, formLdv),
    (0x21, ⟨0, 1, 2, 0, 0⟩, formSt), (0x23, ⟨0, 1, 2, 0, 0⟩, formSta), (0x25, ⟨0, 1, 2, 0, 0⟩, formStv),
    (0x40, ⟨0, 1, 2, 0, 0⟩, formWld ⟨0, 1, 2, 0, 0⟩), (0x41, ⟨0, 0, 0, 1, 0⟩, formWflip), (0x41, ⟨0, 0, 0, 0, 0⟩, formWflip),
    (0x4A, ⟨0, 1, 0, 0, 0⟩, formTsmv ⟨0, 1, 0, 0, 0⟩), (0x4A, ⟨1, 0, 0, 1, 0⟩, formTsmv ⟨1, 0, 0, 1, 0⟩),
    (0x4C, ⟨1, 0, 0, 0, 0⟩, formAfl), (0x4C, ⟨1, 0, 0, 1, 0⟩, formAfl), (0x4B, ⟨0, 1, 2, 0, 0x18⟩, formAdrain),
    (0x28, ⟨0, 4, 5, 2, 0x18000000⟩, formHld), (0x29, ⟨0, 4, 5, 2, 0x18000000⟩, formStore),
    (0x2A, ⟨0, 4, 5, 2, 0x18000000⟩, formStore), (0x2B, ⟨0, 4, 5, 2, 0x18000000⟩, formStore),
    (0x2C, ⟨0, 0, 0, 0, 0xFFFF⟩, formWaitt), (0x30, ⟨0, 1, 2, 1, 0⟩, formSend), (0x31, ⟨0, 0, 2, 1, 0⟩, formSendv),
    (0x34, ⟨0, 0, 2, 1, 0⟩, formMark), (0x32, ⟨3, 1, 2, 8, 0⟩, formRecv), (0x33, ⟨3, 0, 0, 8, 0⟩, formRecvv),
    (0x39, ⟨0, 1, 0, 0, 0x40⟩, formFlag), (0x3A, ⟨1, 0, 0, 0, 0x40⟩, formFlagw), (0x38, ⟨0, 1, 0, 1, 0⟩, formBar),
    (0x3B, ⟨0, 0, 0, 0, 0⟩, formCmt), (0x3B, ⟨0, 0, 0, 1, 0⟩, formCmt)
    ] : List (Byte × Fields × Form)).all (fun p => issuable p.1 p.2.1 (p.2.2.bad p.2.1) Tile.reset) = true := by decide

/-- VectorArithmetic, MatrixMultiply, QuantiseAndDrain, ArrayMoves, whose forms depend on the word. -/
theorem witness_vector_words : ([
    (0x80, ⟨3, 1, 2, 0, 0⟩, (formVfop.withOps (· < 6) ⟨3, 1, 2, 0, 0⟩).bad ⟨3, 1, 2, 0, 0⟩),
    (0x81, ⟨3, 1, 2, 0, 0⟩, formVfma.bad ⟨3, 1, 2, 0, 0⟩),
    (0x82, ⟨3, 1, 2, 0, 15⟩, (formVfop.withOps (· < 16) ⟨3, 1, 2, 0, 15⟩).bad ⟨3, 1, 2, 0, 15⟩),
    (0x83, ⟨3, 1, 0, 0, 0⟩, (formVfun.withOps (· < 14) ⟨3, 1, 0, 0, 0⟩).bad ⟨3, 1, 0, 0, 0⟩),
    (0x84, ⟨3, 1, 2, 0, 0⟩, (formVcmp.withOps (fun k => k < 6 || (8 ≤ k && k < 14)) ⟨3, 1, 2, 0, 0⟩).bad ⟨3, 1, 2, 0, 0⟩),
    (0x85, ⟨3, 1, 2, 0, 0⟩, formVsel.bad ⟨3, 1, 2, 0, 0⟩), (0x88, ⟨3, 1, 0, 0, 0⟩, formVsplat.bad ⟨3, 1, 0, 0, 0⟩),
    (0x87, ⟨3, 1, 0, 0, 0⟩, (formVred.withOps (· < 8) ⟨3, 1, 0, 0, 0⟩).bad ⟨3, 1, 0, 0, 0⟩),
    (0x89, ⟨3, 1, 2, 0, 0⟩, formVget.bad ⟨3, 1, 2, 0, 0⟩), (0x8A, ⟨3, 1, 2, 0, 0⟩, formVput.bad ⟨3, 1, 2, 0, 0⟩),
    (0x8B, ⟨3, 1, 2, 0, 0⟩, formVsel.bad ⟨3, 1, 2, 0, 0⟩), (0x8C, ⟨3, 1, 0, 0, 0⟩, formVsplat.bad ⟨3, 1, 0, 0, 0⟩),
    (0xC0, ⟨3, 1, 2, 0, 0⟩, formRnu.bad ⟨3, 1, 2, 0, 0⟩), (0xC1, ⟨3, 1, 2, 1, 0⟩, (formRnb ⟨3, 1, 2, 1, 0⟩).bad ⟨3, 1, 2, 1, 0⟩),
    (0x86, ⟨3, 1, 0, 0, 0⟩, fun k => vcvtIllegal k ⟨3, 1, 0, 0, 0⟩),
    (0x86, ⟨3, 1, 2, 32, 0x20⟩, fun k => vcvtIllegal k ⟨3, 1, 2, 32, 0x20⟩),
    (0x42, ⟨1, 0, 0, 0, 0⟩, fun k => (formVers k ⟨1, 0, 0, 0, 0⟩).illegal k ⟨1, 0, 0, 0, 0⟩),
    (0x42, ⟨1, 2, 0, 1, 0⟩, fun k => (formVers k ⟨1, 2, 0, 1, 0⟩).illegal k ⟨1, 2, 0, 1, 0⟩),
    (0x44, ⟨0, 1, 0, 0, 0⟩, fun k => (formMma k ⟨0, 1, 0, 0, 0⟩).illegal k ⟨0, 1, 0, 0, 0⟩),
    (0x44, ⟨0, 1, 2, 5, 0⟩, fun k => (formMma k ⟨0, 1, 2, 5, 0⟩).illegal k ⟨0, 1, 2, 5, 0⟩),
    (0x48, ⟨0, 1, 2, 0, 0x10000⟩, fun k => qscanBad k ⟨0, 1, 2, 0, 0x10000⟩),
    (0x49, ⟨0, 1, 2, 0, 0x10000⟩, fun k => qcvtBad k ⟨0, 1, 2, 0, 0x10000⟩)
    ] : List (Byte × Fields × (Bool → Option Nat))).all (fun p => issuable p.1 p.2.1 p.2.2 Tile.reset) = true := by decide

/-! ## Witnesses: conditions beside the word -/

/-- BayAccess: an address inside the bay, and the lowest one outside it. -/
theorem witness_bay : ([
    (0x20, ⟨3, 1, 0, 4, 0⟩, formLd, 4), (0x22, ⟨3, 1, 0, 0, 0⟩, formLda, 8), (0x24, ⟨3, 1, 0, 0, 0⟩, formLdv, 128),
    (0x21, ⟨0, 1, 2, 4, 0⟩, formSt, 4), (0x23, ⟨0, 1, 2, 0, 0⟩, formSta, 8), (0x25, ⟨0, 1, 2, 0, 0⟩, formStv, 128)
    ] : List (Byte × Fields × Form × Nat)).all (fun p =>
      holds p.1 p.2.1 (p.2.2.1.bad p.2.1) (Tile.reset.setS 1 0xFFFF#32)
        (fun m => decide ((m.tile tile0).bayAddr p.2.1 p.2.2.2 < 0x10000))
      && holds p.1 p.2.1 (p.2.2.1.bad p.2.1) (Tile.reset.setS 1 0x10000#32)
        (fun m => decide (0x10000 ≤ (m.tile tile0).bayAddr p.2.1 p.2.2.2))) = true := by decide

/-- ControlFlow: a target inside the code and one outside it, for BR, B.cc taken and not taken, CALL and JR. -/
theorem witness_branches :
    ([holds 0x03 ⟨0, 0, 0, 0, 7⟩ (formBr.bad ⟨0, 0, 0, 0, 7⟩) Tile.reset (fun m => (target (m.tile tile0).pc 7 8).isSome),
      holds 0x03 ⟨0, 0, 0, 0, 8⟩ (formBr.bad ⟨0, 0, 0, 0, 8⟩) Tile.reset (fun m => (target (m.tile tile0).pc 8 8).isNone),
      holds 0x04 ⟨0, 1, 2, 0, 7⟩ (formBCc.bad ⟨0, 1, 2, 0, 7⟩) Tile.reset (fun m =>
        branchCond 0 ((m.tile tile0).sreg 1) ((m.tile tile0).sreg 2) && (target (m.tile tile0).pc 7 8).isSome),
      holds 0x04 ⟨0, 1, 2, 0, 8⟩ (formBCc.bad ⟨0, 1, 2, 0, 8⟩) Tile.reset (fun m =>
        branchCond 0 ((m.tile tile0).sreg 1) ((m.tile tile0).sreg 2) && (target (m.tile tile0).pc 8 8).isNone),
      holds 0x04 ⟨0, 1, 2, 1, 7⟩ (formBCc.bad ⟨0, 1, 2, 1, 7⟩) Tile.reset (fun m =>
        !branchCond 1 ((m.tile tile0).sreg 1) ((m.tile tile0).sreg 2)),
      holds 0x05 ⟨1, 0, 0, 0, 8⟩ (formCall.bad ⟨1, 0, 0, 0, 8⟩) Tile.reset (fun m => (target (m.tile tile0).pc 8 8).isNone),
      holds 0x06 ⟨0, 1, 0, 0, 0⟩ (formJr.bad ⟨0, 1, 0, 0, 0⟩) (Tile.reset.setS 1 7) (fun m => ((m.tile tile0).sreg 1).toNat == 7),
      holds 0x06 ⟨0, 1, 0, 0, 0⟩ (formJr.bad ⟨0, 1, 0, 0, 0⟩) (Tile.reset.setS 1 8) (fun m => ((m.tile tile0).sreg 1).toNat == 8)]).all id = true := by decide

/-- ControlFlow: a body of 0, a count of 0 and a count of 1, on a tile with no loop and on one with eight (R96). -/
theorem witness_loops :
    ([holds 0x07 ⟨0, 1, 0, 0, 0x10000⟩ (formLoop.bad ⟨0, 1, 0, 0, 0x10000⟩) Tile.reset (fun _ => immBits ⟨0, 1, 0, 0, 0x10000⟩ 0 16 == 0),
      holds 0x07 ⟨0, 1, 0, 0, 3⟩ (formLoop.bad ⟨0, 1, 0, 0, 3⟩) Tile.reset (fun m =>
        (m.tile tile0).loops.isEmpty && (m.tile tile0).sreg 1 + BitVec.ofNat 32 (immBits ⟨0, 1, 0, 0, 3⟩ 16 16) == 0),
      holds 0x07 ⟨0, 1, 0, 0, 0x10003⟩ (formLoop.bad ⟨0, 1, 0, 0, 0x10003⟩) Tile.reset (fun m =>
        (m.tile tile0).sreg 1 + BitVec.ofNat 32 (immBits ⟨0, 1, 0, 0, 0x10003⟩ 16 16) == 1),
      holds 0x07 ⟨0, 1, 0, 0, 0x10003⟩ (formLoop.bad ⟨0, 1, 0, 0, 0x10003⟩)
        { Tile.reset with loops := List.replicate 8 ⟨0, 5, 1⟩ } (fun m => decide (loopLevels demoStage.prog ≤ (m.tile tile0).loops.length))]).all id = true := by decide

/-- ControlFlow, IllegalAndUnissuedWords: HALT 0 without and with a transfer outstanding, HALT 9, a reserved opcode, an illegal ALU word, and a cluster that is
not released. -/
theorem witness_halts :
    ([holds 0x02 ⟨0, 0, 0, 0, 0⟩ (formHalt.bad ⟨0, 0, 0, 0, 0⟩) Tile.reset (fun m => !m.spanBusy demoCtx),
      holds 0x02 ⟨0, 0, 0, 0, 0⟩ (formHalt.bad ⟨0, 0, 0, 0, 0⟩) { Tile.reset with xfers := [⟨.hld, 0, 0, 0, 32, none⟩] }
        (fun m => m.spanBusy demoCtx),
      holds 0x02 ⟨0, 0, 0, 0, 9⟩ (formHalt.bad ⟨0, 0, 0, 0, 9⟩) Tile.reset (fun _ => immBits ⟨0, 0, 0, 0, 9⟩ 0 16 != 0),
      ((running (wordOf 0x0F ⟨0, 0, 0, 0, 0⟩) Tile.reset).issueCtx tile0 0x0F ⟨0, 0, 0, 0, 0⟩ == some demoCtx && !opcodeListed 0x0F),
      ((running (wordOf 0x10 ⟨3, 1, 2, 0, 1⟩) Tile.reset).issueCtx tile0 0x10 ⟨3, 1, 2, 0, 1⟩ == some demoCtx
      && (formAlu.illegal false ⟨3, 1, 2, 0, 1⟩).isSome),
      [(0x10 : Byte), 0x21, 0x28, 0x30, 0x44, 0x80].all (fun op => (Module.reset.issueCtx tile0 op ⟨0, 0, 0, 0, 0⟩).isNone)]).all id = true := by
  decide

/-- ArrayMoves: WLD from the bay and from Hold, alone and behind a WLD; WFLIP MARKER with the marker's version, another and none. -/
theorem witness_array :
    ([holds 0x40 ⟨0, 1, 2, 0, 0⟩ ((formWld ⟨0, 1, 2, 0, 0⟩).bad ⟨0, 1, 2, 0, 0⟩) Tile.reset (fun m => !m.wldBusy demoCtx),
      holds 0x40 ⟨0, 1, 2, 0, 0⟩ ((formWld ⟨0, 1, 2, 0, 0⟩).bad ⟨0, 1, 2, 0, 0⟩)
        { Tile.reset with xfers := [oneXfer (.wld false true 0)] } (fun m => m.wldBusy demoCtx),
      holds 0x40 ⟨0, 1, 2, 0, 0⟩ ((formWld ⟨0, 1, 2, 0, 0⟩).bad ⟨0, 1, 2, 0, 0⟩) (Tile.reset.setS 1 0xFF01) (fun m =>
        !m.wldBusy demoCtx && decide (0x10000 < ((m.tile tile0).sreg 1).toNat + 256)),
      holds 0x40 ⟨0, 1, 2, 3, 0x400⟩ ((formWld ⟨0, 1, 2, 3, 0x400⟩).bad ⟨0, 1, 2, 3, 0x400⟩) Tile.reset (fun m => !m.wldBusy demoCtx),
      holds 0x40 ⟨0, 1, 2, 1, 0⟩ ((formWld ⟨0, 1, 2, 1, 0⟩).bad ⟨0, 1, 2, 1, 0⟩) Tile.reset (fun m =>
        (m.checkTransfers 0 1 false true [(0, 256)]).1.isSome),
      heldIn withBank 0x40 ⟨0, 1, 2, 1, 0⟩
        ((formWld ⟨0, 1, 2, 1, 0⟩).bad ⟨0, 1, 2, 1, 0⟩) Tile.reset (fun m =>
          !m.wldBusy demoCtx && (m.checkTransfers 0 1 false true [(0, 256)]).1.isNone),
      holds 0x41 ⟨0, 0, 0, 0, 0⟩ (formWflip.bad ⟨0, 0, 0, 0, 0⟩) { Tile.reset with marker := some ⟨0, 0, 0⟩ } (fun m =>
        (m.tile tile0).marker.any (fun k => k.version == (m.tile tile0).shadowSet.tag)),
      holds 0x41 ⟨0, 0, 0, 0, 0⟩ (formWflip.bad ⟨0, 0, 0, 0, 0⟩) { Tile.reset with marker := some ⟨7, 0, 0⟩ } (fun m =>
        (m.tile tile0).marker.any (fun k => k.version != (m.tile tile0).shadowSet.tag)),
      holds 0x41 ⟨0, 0, 0, 1, 0⟩ (formWflip.bad ⟨0, 0, 0, 1, 0⟩) { Tile.reset with xfers := [oneXfer (.wld false true 0)] } (fun m =>
        m.wldBusy demoCtx),
      holds 0x41 ⟨0, 0, 0, 1, 0⟩ (formWflip.bad ⟨0, 0, 0, 1, 0⟩) Tile.reset (fun m => !m.wldBusy demoCtx),
      holds 0x41 ⟨0, 0, 0, 0, 0⟩ (formWflip.bad ⟨0, 0, 0, 0, 0⟩) Tile.reset (fun m => (m.tile tile0).marker.isNone),
      holds 0x42 ⟨1, 0, 0, 0, 0⟩ (fun k => (formVers k ⟨1, 0, 0, 0, 0⟩).illegal k ⟨1, 0, 0, 0, 0⟩)
        { Tile.reset with xfers := [oneXfer (.wld false true 0)] } (fun m => m.wldBusy demoCtx)]).all id = true := by decide

/-- MatrixMultiply, QuantiseAndDrain: the formats pair, and the rows lie in the bay. -/
theorem witness_mma :
    ([(mmaOf false ⟨0, 1, 0, 0, 0⟩).any (fun q => q.mode != 5),
      (mmaOf false ⟨0, 1, 2, 5, 0⟩).any (fun q => q.mode == 5),
      (List.range 16).all (fun i => decide (Tile.reset.rowAddr ⟨0, 1, 2, 0, 0x10000⟩ i + 128 * 1 ≤ 0x10000)),
      (quantFmt 0).isSome,
      (drainFmt 4 false).isSome,
      (drainFmt 7 true).isSome]).all id = true := by decide

/-- TransferInstructions: an empty transfer, one that runs past the bay, one outside every extent, a full engine; HLD with a mask and
no BCAST, and with BCAST; WAITT with and without an outstanding transfer. -/
theorem witness_transfers :
    (let w : Fields := ⟨0, 4, 5, 2, 0x18000000⟩
     let bad := formStore.bad w
     let tr := fun (m : Module) => (m.tile tile0).transfer .hst w ((m.tile tile0).holdAddr w) none
     [holds 0x29 w bad Tile.reset (fun m => !m.transfersFull demoCtx && (tr m).len == 0
       && (m.checkTransfers 0 1 true true [((tr m).addr, (tr m).len)]).1.isNone),
        holds 0x29 w bad ((Tile.reset.setS (spec3 w) 0x40).setS 5 0xFFE0#32) (fun m => (transferFault (tr m).bay (tr m).len).isSome),
        holds 0x29 w bad (Tile.reset.setS (spec3 w) 0x20) (fun m => (transferFault (tr m).bay (tr m).len).isNone
       && (m.checkTransfers 0 1 true true [((tr m).addr, (tr m).len)]).1.isSome),
        holds 0x2A w bad (Tile.reset.setS (spec3 w) 0x20) (fun m => (m.checkTransfers 0 1 false false [(0, 32)]).1.isSome),
        holds 0x2B w bad { Tile.reset with xfers := List.replicate 32 (oneXfer .xst) } (fun m => m.transfersFull demoCtx),
        holds 0x28 ⟨0, 4, 5, 0x12, 0x18000400⟩ (formHld.bad ⟨0, 4, 5, 0x12, 0x18000400⟩)
         { Tile.reset with xfers := List.replicate 32 (oneXfer .xst) } (fun m => m.transfersFull demoCtx),
        holds 0x28 ⟨0, 4, 5, 2, 0x18000400⟩ (formHld.bad ⟨0, 4, 5, 2, 0x18000400⟩) Tile.reset (fun _ =>
         immBits ⟨0, 4, 5, 2, 0x18000400⟩ 10 16 == 1),
        holds 0x28 ⟨0, 4, 5, 0x12, 0x18000400⟩ (formHld.bad ⟨0, 4, 5, 0x12, 0x18000400⟩) Tile.reset (fun m => !m.transfersFull demoCtx),
        holds 0x2C ⟨0, 0, 0, 0, 1⟩ (formWaitt.bad ⟨0, 0, 0, 0, 1⟩) { Tile.reset with xfers := [oneXfer .xld] } (fun m =>
         (m.tile tile0).outstanding 1),
        holds 0x2C ⟨0, 0, 0, 0, 2⟩ (formWaitt.bad ⟨0, 0, 0, 0, 2⟩) { Tile.reset with xfers := [oneXfer .xld] } (fun m =>
         !(m.tile tile0).outstanding 2)]).all id = true := by decide

/-- TransferEnds: each kind of transfer completes: a staged store within and beyond STAGE_LEN, one into a SCRATCH buffer, one of a
twin, and a load; and a broadcast of one tile meets. -/
theorem witness_transfer_ends :
    (let scratch : List Buffer := [⟨0, 65536, 1, 0, 0, false, 0, 0⟩, ⟨0, 65536, 1, 2, 0, false, 0, 0⟩]
     let at' := fun (m : Module) (k : Transfer) =>
       (m.stageOf 0).isSome && (m.tile tile0).oldest 0 == [k] && m.reg .ERR_INJECT_INV Block.int.group == 0 && m.pathErr == []
     let big := { oneXfer .hst with len := 8192 }
     let m := withXfer (oneXfer .hst) []
     let scr : Route := { demoRoute with buffers := scratch }
     let hold := fun k : XferKind => withBank ((withXfer (oneXfer k) scratch).setTile tile0 Tile.reset)
     let paged := fun k : XferKind => ({ withXfer (oneXfer k) scratch with
       dram := pagedModule.dram, tokens := pagedModule.tokens, tags := pagedModule.tags, regs := pagedModule.regs }).setTile tile0 Tile.reset
     [at' m (oneXfer .hst) && !m.isTwin tile0 && demoRoute.staged true 0 32 && decide (32 ≤ demoStage.prog.stageLen),
      at' (withXfer big []) big && demoRoute.staged true 0 8192 && decide (demoStage.prog.stageLen < 8192),
      at' (asTwin m) (oneXfer .hst) && (asTwin m).isTwin tile0,
      at' (withXfer (oneXfer .hst) scratch) (oneXfer .hst) && !scr.staged true 0 32
        && ((hold .hst).writeHold 1 0 (List.replicate 32 0)).1.isOk,
      at' (withXfer (oneXfer .xst) scratch) (oneXfer .xst) && !scr.staged false 0 32
        && ((paged .xst).writeVA (.fab 0) 1 0 (List.replicate 32 0)).1.isOk,
      at' (withXfer (oneXfer .hld) []) (oneXfer .hld) && ((hold .hld).readHold (.fab 0) 1 0 32).1.isOk,
      at' (withXfer (oneXfer (.wld true false 7)) []) (oneXfer (.wld true false 7)),
      at' (withXfer (oneXfer .xld) []) (oneXfer .xld) && ((paged .xld).readVA (.fab 0) 1 0 32).1.isOk,
      [0, 32].all (fun n => let k : Transfer := ⟨.hld, 0, 0, 0, n, some 1⟩
                            let m := withBank (withXfer k [])
                            maskTiles 0 0 1 == [tile0] && (m.tile tile0).bcast 1 false == some k
                              && ((m.setTile tile0 Tile.reset).readHold (.fab 0) 1 0 n).1.isOk)]).all id = true := by decide +kernel

/-- SendingInstructions: a neighbour port inside the cluster and at its edge, the X port to an assigned cluster and to none, channel 0 on a
one-tile span, a port that does not exist, and a full send buffer; a MARK without a marker sends nothing. -/
theorem witness_sends :
    (let w := fun (mod imm : Nat) => (⟨0, 0, 2, BitVec.ofNat 6 mod, BitVec.ofNat 32 imm⟩ : Fields)
     let at' := fun (mod imm : Nat) (x : Tile) (p : Module → Bool) => holds 0x31 (w mod imm) ((sendForm formSendv (w mod imm)).bad (w mod imm)) x p
     [at' 1 1 Tile.reset (fun m => (streamIllegal false (w 1 1)).isNone && !m.spanMisuse demoCtx tile0 1 0 1
       && (neighbour tile0 1).isSome && decide (m.sendBuffered tile0 1 + flitsOf 128 ≤ 64)),
        at' 0 1 Tile.reset (fun _ => (neighbour tile0 0).isNone),
        at' 4 1 Tile.reset (fun m => m.tileAddr 1 0 == some tile0 && !m.spanMisuse demoCtx tile0 4 0 1),
        at' 4 0x04000001 (Tile.reset.setS (spec3 (w 4 0x04000001)) 0x100) (fun m =>
         (m.tileAddr 1 ((m.tile tile0).sreg (spec3 (w 4 0x04000001)))).isNone),
        at' 1 0 Tile.reset (fun m => m.spanMisuse demoCtx tile0 1 0 0),
        at' 5 1 Tile.reset (fun _ => (streamIllegal false (w 5 1)).isSome),
        at' 4 1 { Tile.reset with sendX := [⟨0, tile0, tile0, 4, 1, .data, 1, List.replicate 4096 0, true⟩] } (fun m =>
         decide (64 < m.sendBuffered tile0 4 + flitsOf 128)),
        holds 0x34 (w 1 1) ((sendForm formMark (w 1 1)).bad (w 1 1)) Tile.reset (fun m => (m.tile tile0).marker.isNone && !m.isTwin tile0
         && !m.twinned 1),
        heldIn asTwin 0x31 (w 1 1) ((sendForm formSendv (w 1 1)).bad (w 1 1)) Tile.reset (fun m => m.isTwin tile0),
        heldIn (fun m => (asTwin m).setAssign 1 true 1 0) 0x39 ⟨0, 1, 0, 0, 0x40⟩ (formFlag.bad ⟨0, 1, 0, 0, 0x40⟩) Tile.reset (fun m => m.isTwin tile0
         && (m.tileAddr 1 ((m.tile tile0).sreg 1)).isSome)]).all id = true := by decide +kernel

/-- ReceivingInstructions: no packet, with and without POLL; a DATA packet; a marker packet that passes its check. -/
theorem witness_receives :
    (let pkt := fun (kind : DeckKind) (bs : List Byte) => (⟨0, 0, tile0, kind, bs⟩ : RecvPkt)
     let w : Fields := ⟨3, 1, 2, 0, 0⟩
     let poll : Fields := ⟨3, 1, 2, 8, 0⟩
     [holds 0x32 w (formRecv.bad w) Tile.reset (fun m => ((m.tile tile0).nextPacket 0 0).isNone && m.reg .ERR_INJECT_INV Block.dck.group == 0),
      holds 0x32 poll (formRecv.bad poll) Tile.reset (fun m => ((m.tile tile0).nextPacket 0 0).isNone),
      holds 0x32 w (formRecv.bad w) { Tile.reset with recv := [pkt .data [1, 2, 3, 4]] } (fun m =>
         ((m.tile tile0).nextPacket 0 0).any (fun k => k.kind != .marker)),
      holds 0x33 ⟨3, 0, 0, 0, 0⟩ (formRecvv.bad ⟨3, 0, 0, 0, 0⟩) { Tile.reset with recv := [pkt .marker (markerBytes 8 101 0)] } (fun m =>
         ((m.tile tile0).nextPacket 0 0).any (fun k => k.kind == .marker && (readMarker k.data).isSome)),
      holds 0x32 w (formRecv.bad w) { (Tile.reset.setS 1 0xFFFE).setS 2 4 with recv := [pkt .data [1, 2, 3, 4]] } (fun m =>
         ((m.tile tile0).nextPacket 0 0).any (fun k => k.kind != .marker
           && decide (0x10000 < ((m.tile tile0).sreg 1).toNat + (k.data.take ((m.tile tile0).sreg 2).toNat).length))),
      (streamIllegal false w).isNone,
      (streamIllegal false poll).isNone]).all id = true := by decide

/-- Flags, Barriers, CommitInstructions: each clause of a tile instruction. -/
theorem witness_sync :
    ([holds 0x39 ⟨0, 1, 0, 0, 0x40⟩ (formFlag.bad ⟨0, 1, 0, 0, 0x40⟩) Tile.reset (fun m => (m.tileAddr 1 ((m.tile tile0).sreg 1)).isSome),
      holds 0x3A ⟨1, 0, 0, 0, 0x40⟩ (formFlagw.bad ⟨1, 0, 0, 0, 0x40⟩) Tile.reset (fun _ => immBits ⟨1, 0, 0, 0, 0x40⟩ 6 16 == 1),
      holds 0x3A ⟨1, 0, 0, 0, 0x40⟩ (formFlagw.bad ⟨1, 0, 0, 0, 0x40⟩) { Tile.reset with flags := [(0, 1)] } (fun m =>
         Map.get 0 (m.tile tile0).flags 0 == 1),
      holds 0x38 ⟨0, 1, 0, 0, 1⟩ (formBar.bad ⟨0, 1, 0, 0, 1⟩) Tile.reset (fun _ => demoRoute.barriers[1]? == none),
      holds 0x38 ⟨0, 1, 0, 0, 0⟩ (formBar.bad ⟨0, 1, 0, 0, 0⟩) Tile.reset (fun m => (m.tile tile0).core == .ready
         && bitsAt 1 (m.cl 0).stage 1 == 1),
      holds 0x38 ⟨0, 1, 0, 1, 0⟩ (formBar.bad ⟨0, 1, 0, 1, 0⟩) Tile.reset (fun _ => demoRoute.barriers[0]? == some demoBarrier),
      holds 0x38 ⟨0, 1, 0, 2, 0⟩ (formBar.bad ⟨0, 1, 0, 2, 0⟩) Tile.reset (fun m => decide (Map.get 0 (m.tile tile0).barPhase 0 ≤ 0)),
      holds 0x38 ⟨0, 1, 0, 2, 0⟩ (formBar.bad ⟨0, 1, 0, 2, 0⟩) { Tile.reset with barPhase := [(0, 1)] } (fun m =>
         decide (0 < Map.get 0 (m.tile tile0).barPhase 0)),
      holds 0x3B ⟨0, 0, 0, 0, 0⟩ (formCmt.bad ⟨0, 0, 0, 0, 0⟩) Tile.reset (fun m => !m.spanBusy demoCtx && !demoStage.prog.midCmt),
      heldIn (fun m => m.setRoute 0 (fun r => { r with stages := [{ demoStage with prog := { demoStage.prog with midCmt := true } }] }))
        0x3B ⟨0, 0, 0, 0, 0⟩ (formCmt.bad ⟨0, 0, 0, 0, 0⟩) Tile.reset (fun m => !m.spanBusy demoCtx
          && (m.publishAll 0 1 []).1 == none),
      (running 0 Tile.reset).publishAll 0 1 [⟨false, 0x70000, [1]⟩] |>.1.isSome,
      holds 0x3B ⟨0, 0, 0, 1, 0⟩ (formCmt.bad ⟨0, 0, 0, 1, 0⟩) Tile.reset (fun m => !m.spanBusy demoCtx),
      holds 0x3B ⟨0, 0, 0, 1, 0⟩ (formCmt.bad ⟨0, 0, 0, 1, 0⟩) { Tile.reset with xfers := [oneXfer .xst] } (fun m => m.spanBusy demoCtx)]).all id = true := by decide

/-- Barriers: a phase with every participant, with one missing, and a barrier of a group. -/
theorem witness_phases :
    (let m := running 0 Tile.reset
     let full : List Nat := (List.range 256)
     [!m.barrierFull { demoBarrier with arrived := [0] },
      m.barrierFull { demoBarrier with arrived := full },
      m.barrierFull { demoBarrier with group := 5, arrived := full }]).all id = true := by decide +kernel

/-- BoundaryCopies: a tile at reset, whose copies and bay are all zero. -/
theorem witness_boundary (p : Prog) : BoundaryKept p Tile.reset := by
  intro b _ _
  simp [Tile.reset, Map.get, Map.get?]


/-- StepBoundaries: a step to commit on its own, in a drain with and without a packet in flight, and with a twin whose digest differs; a step
that is not done; a cluster to release and one that is held; a route to kill and one that is stopped. -/
theorem witness_step_boundaries :
    (let m := running 0 Tile.reset
     let arrive := fun (m : Module) => ({ m with tiles := (List.range 512).map (fun k => (k, { Tile.reset with core := .arrived })) } : Module)
     let full := arrive m
     let rest := m.setFlag Fld.FAB_CL_STATUS_AT_BOUNDARY 0 0 true
     let plain := fun (m : Module) => (m.wrec 1).isNone && (m.capture 1).isNone && demoRoute.batches == [] && m.slots == []
     let drained := full.setCl 0 { full.cl 0 with retirePending := true }
     let twin := (full.setCl 0 { full.cl 0 with digestBad := true }).setCl 1 { Cl.reset with twinOf := some 0 }
     [(m.stageOf 0).isSome && plain full && full.takes 1 && full.fld Fld.FAB_CL_STATUS_STATE 0 == 1,
      full.released 0 && full.allArrived 0 && (full.cl 0).twinOf == none && full.twinOf 0 == none && (full.cl 0).move == none,
      !(full.cl 0).retirePending && full.rngBad == [] && full.tiles.all (fun (p : Nat × Tile) => p.2.staged == []),
      (full.tile tile0).core == .arrived && !(full.tile tile0).haltReq,
      full.stepDone 0 && !full.draining 0 demoRoute && full.digestsAgree 0 && !((full.commitBoundary 0).cl 0).retirePending
        && (full.commitBoundary 0).rngBad == [],
      !rest.released 0,
      !m.allArrived 0,
      (let d : Module := { drained with deck := [{ onePkt .data with src := ⟨3, 0, 0⟩ }] }
       (d.cl 0).move == none && d.stepDone 0 && d.draining 0 demoRoute && d.deckFor 0),
      (twin.cl 0).twinOf == none && twin.stepDone 0 && !twin.draining 0 demoRoute && !twin.digestsAgree 0,
      rest.mayRelease 0 && rest.twinOf 0 == none && (rest.wrec 1).isNone && rest.fld Fld.FAB_CL_ASSIGN_TENANCY 0 == 1 && rest.entryOk 1
        && rest.reg .ERR_INJECT_INV Block.ten.group == 0,
      !m.mayRelease 0,
      plain m && m.clustersOf 0 == [0] && !m.stepDone 0,
      ((m.setRoute 0 (fun r => { r with state := .stopped })).route 0).any (fun r => r.state == .stopped)]).all id = true := by
  decide +kernel

/-! ## Witnesses: the Deck, repair and retirement -/

/-- DeckTraffic, Flags: a packet that may arrive in its own tenancy and in another's, one that is behind another, one that crosses a failed
bridge channel with rerouting off; X reservations and segments; a stream that has stalled. -/
theorem witness_deck :
    (let m := withDeck [onePkt .data]
     let cleared : Module := { m with deck := [] }
     let far : DeckPkt := { onePkt .data with dst := ⟨25, 0, 0⟩, port := 4 }
     let x : Module := running 0 { Tile.reset with sendX := [{ onePkt .data with port := 4 }] }
     [m.deck[0]? == some (onePkt .data),
      m.reg .ERR_INJECT_INV Block.dck.group == 0,
      m.mayArrive 0 (onePkt .data),
      !m.pathErr.contains .dck,
      !cleared.bridgeLost (onePkt .data),
      (cleared.checkAssign 0).flag Fld.FAB_CL_ASSIGN_VALID 0,
      (cleared.checkAssign 0).fld Fld.FAB_CL_ASSIGN_TENANCY 0 == 1,
      (cleared.checkAssign 0).fld Fld.FAB_CL_ASSIGN_TENANCY 0 != ({ onePkt .data with ten := 2 } : DeckPkt).ten.val,
      !(withDeck [onePkt .data, { onePkt .data with seq := 1 }]).mayArrive 1 { onePkt .data with seq := 1 },
      (((withDeck []).setFlag Fld.DCK_CTL_REROUTE_EN 0 0 false).setReg .DCK_BRIDGE_STATUS 0 0 0).bridgeLost far,
      (x.xr ⟨0, 0, 1⟩ 1).holder == none,
      x.requesters ⟨0, 0, 1⟩ 1 == [tileKey tile0],
      [4, 1025].all (fun n => let k : DeckPkt := { onePkt .data with port := 4, data := List.replicate n 0 }
                              let x := (running 0 { Tile.reset with sendX := [k] }).setXr ⟨0, 0, 1⟩ 1 ⟨some (tileKey tile0), 0⟩
                              (x.tile tile0).sendX.find? (fun k => k.vc == 1 && (x.xr k.dst 1).holder == some (tileKey tile0)) == some k
                                && decide (x.xBuffered k.dst 1 + min 16 (flitsOf n) ≤ 16)
                                && (k.data.drop (min 16 (flitsOf n) * 64)).isEmpty == (n == 4)),
      (onePkt .flag).kind == .flag && m.twinTile (onePkt .flag).dst == none,
      decide (m.xBuffered (onePkt .data).dst 1 ≤ 16),
      x.fld Fld.DCK_STALL_LIMIT_LIMIT != 0,
      (x.tile tile0).stalled]).all id = true := by
  decide +kernel

/-- RepairAndRetirement: the phases of a repair, and clusters that may and may not retire. -/
theorem witness_repair :
    (let m := running 0 { Tile.reset with icache := [] }
     let at' := fun (ph : RepairPhase) => (tenModule.setCl 0 { Cl.reset with repair := some ⟨ph, [(5, 2)]⟩ })
     let fld := fun k : Nat => tenModule.setFld Fld.FAB_CL_STATUS_STATE 0 0 k
     [[RepairPhase.poweringUp, .selfTest, .shifting, .refilling].all (fun ph =>
       ((at' ph).cl 0).repair == some ⟨ph, [(5, 2)]⟩ && !(at' ph).spareBad 0 5 && (at' ph).reg .ERR_INJECT_INV 32 == 0),
        ((tenModule.setCl 0 { Cl.reset with toRecord := [(5, 2)] }).cl 0).toRecord == [(5, 2)],
        m.released 0,
        tenModule.fld Fld.FAB_CL_STATUS_STATE 0 == 1,
        !(tenModule.setFlag Fld.FAB_CL_STATUS_AT_BOUNDARY 0 0 true).released 0,
        !tenModule.eraseRecords.contains 0,
        (tenModule.setFld Fld.FAB_CL_STATUS_STATE 0 0 3).fld Fld.FAB_CL_STATUS_STATE 0 == 3,
        (tenModule.setFld Fld.FAB_CL_STATUS_STATE 0 0 5).fld Fld.FAB_CL_STATUS_STATE 0 == 5,
        tenModule.shiftAt 0 5 != 2,
        (tenModule.setRowMap 0 5 2).shiftAt 0 5 == 2,
        tenModule.shiftAt 0 5 == 16 && (tenModule.setRowMap 0 5 2).shiftAt 0 5 != 16,
        [3, 5].all (fun k => (fld k).fld Fld.FAB_CL_STATUS_STATE 0 == k)]).all id = true := by decide

/-- RepairAndRetirement: the line at the program counter is not held, and the depot supplies it. -/
theorem witness_fill :
    (let m : Module := { running 0 Tile.reset with tiles := [(tileKey tile0, { Tile.reset with icache := [] })] }
     [(m.stageOf 0).isSome,
      m.released 0,
      decide (lineOf (m.tile (m.origin tile0)).pc < 4096),
      !(m.tile (m.origin tile0)).icache.contains (lineOf 0),
      (m.depotLine 0 (lineOf 0) 1).1]).all id = true := by decide

/-! ## Witnesses: commands -/

theorem ready_cmdReady {m : Module} {op : Nat} {c : Cmd} (h : ready m op c = true) : CmdReady m 0 op c := by
  simp only [ready, Bool.and_eq_true, beq_iff_eq, Option.isNone_iff_eq_none] at h
  exact ⟨h.1.1.1.1, h.1.1.1.2, h.1.1.2, h.1.2, h.2⟩

/-- RouteCommands: a load of the house, of an image that is no image, of another size, with another checksum, out of range, without a cluster
and with one; a start and a stop of a route in each of its states, of none, and with a group that is no group; a stop with a mode out
of range, and one while a cluster runs. -/
theorem witness_route_commands :
    (let load := fun size : Nat => cmdOf 0x01 (leBytes 8 0 ++ leBytes 4 size)
     let at' := fun (b : List Byte) (st size : Nat) => taking (loadable b st) (load size)
     let head := fun (m : Module) (size : Nat) => (m.begun 0 (load size)).readVA .plc 1 0 64
     let whole := fun (m : Module) (size : Nat) => (head m size).2.readVA .plc 1 0 96
     let good := sealed (routeImage 1)
     let reads := fun (b : List Byte) (st size : Nat) => ready (at' b st size) 0x01 (load size)
       && readOf (head (at' b st size) size) == some (b.take 64)
     let start := cmdOf 0x02 (leBytes 2 7)
     let stop := fun (mode unload : Nat) => cmdOf 0x03 (leBytes 2 7 ++ [byteOf mode, byteOf unload])
     let has := fun (st : RouteState) (b : Barrier) =>
       ({ tenModule with routes := [(0, { demoRoute with state := st, barriers := [b] })] } : Module)
     let on := fun (m : Module) => ((taking m start).begun 0 start).routeById 1 7
     [ready (taking (loadable good 0) (houseCmd 0x01 [])) 0x01 (houseCmd 0x01 []),
      reads (List.replicate 96 0) 0 96,
      reads good 0 95,
      [good, sealed (routeImage 0)].all (fun b => reads b 0 96 && readOf (whole (at' b 0 96) 96) == some b
        && crc32c (zeroAt b 60 4) == fieldAt b 60 4),
      reads (routeImage 1) 0 96 && readOf (whole (at' (routeImage 1) 0 96) 96) == some (routeImage 1)
        && crc32c (zeroAt (routeImage 1) 60 4) != fieldAt (routeImage 1) 60 4,
      !(Image.of (sealed (routeImage 0))).ok,
      (Image.of good).ok && (Image.of good).buffers == 0 && (whole (at' good 0 96) 96).2.routeById 1 7 == none,
      [0, 1].all (fun k => match (whole (at' good k 96) 96).2.readPrograms 1 (Image.of good) [0] with
        | (.ok sgs, m) => (m.planRoute 1 (Image.of good) sgs).isSome == (k == 0)
        | (.error _, _) => false),
      [RouteState.running, .stopping, .loaded, .stopped].all (fun st =>
        let m := has st demoBarrier
        ready (taking m start) 0x02 start && on m == some 0
          && [0, 1].all (fun u => ready (taking m (stop 0 u)) 0x03 (stop 0 u)
            && ((taking m (stop 0 u)).begun 0 (stop 0 u)).routeById 1 7 == some 0)),
      ready (taking tenModule start) 0x02 start && on tenModule == none,
      [RouteState.loaded, .stopped].all (fun st => let m := has st demoBarrier
                                                   (m.wrec 1).isNone && (m.capture 1).isNone && m.slots == [] && !demoRoute.isLearner
                                                     && m.fld Fld.WBL_TEN_GROUP_GROUP 1 == 0 && m.cls.all (fun (p : Nat × Cl) => p.2.route == none)),
      (let m := has .loaded { demoBarrier with group := 5 }
       ready (taking m start) 0x02 start && !((taking m start).begun 0 start).groupOk 1 5),
      ready (taking tenModule (stop 2 0)) 0x03 (stop 2 0),
      (let m := running 0 Tile.reset
       ready (taking m (stop 0 0)) 0x03 (stop 0 0) && m.clustersOf 0 == [0] && m.released 0)]).all id = true := by decide +kernel

theorem pick_isSome {ok : Nat → Bool} {x d n a : Nat} (h : (firstFrom ok d n a).isSome = true) : (pick ok x d n a).isSome = true := by
  unfold pick
  split
  · rfl
  · exact h

/-- A tenancy with quota gets a frame where the next stack has a free one. -/
theorem allocFrame_isSome {m : Module} {ten : Nat} (hq : m.quotaLeft ten ≠ 0)
    (h : (firstFrom (fun f => m.frameFree f && !m.stackBusy (m.nextStack % 12) && f % 12 == m.nextStack % 12) 12 524288
      (m.nextStack % 12)).isSome = true) : (m.allocFrame ten).isSome = true := by
  have hp : (m.pickFrame none).isSome = true := by
    unfold Module.pickFrame
    simp only [List.findSome?_isSome_iff]
    exact ⟨0, by simp, pick_isSome h⟩
  rw [Option.isSome_iff_exists] at hp
  obtain ⟨f, hf⟩ := hp
  simp [Module.allocFrame, hq, hf]

/-- A tenancy with quota is given one frame where the next stack has a free one. -/
theorem allocFrames_one {m : Module} {ten : Nat} (h : (m.allocFrame ten).isSome = true) : (m.allocFrames ten 1).isSome = true := by
  rw [Option.isSome_iff_exists] at h
  obtain ⟨⟨f, m'⟩, hf⟩ := h
  simp [Module.allocFrames, hf]

/-- The image above passes to its last row: one frame of save area, and no buffers to map. -/
def installable : Bool :=
  let x := Image.of (sealed (routeImage 1))
  match (loadable (sealed (routeImage 1)) 0).readPrograms 1 x [0] with
  | (.ok sgs, m) =>
    match m.planRoute 1 x sgs with
    | some q =>
      m.barriersFit 1 q.barriers && x.buffers == 0 && m.quotaLeft 1 != 0
        && areaFrames x sgs + ((q.placed ++ q.twins).map (fun p => ((sgs[p.2]?).map (fun s => s.prog.frames)).getD 0)).sum == 1
        && (firstFrom (fun f => m.frameFree f && !m.stackBusy (m.nextStack % 12) && f % 12 == m.nextStack % 12) 12 524288
          (m.nextStack % 12)).isSome
    | none => false
  | (.error _, _) => false

/-- RouteCommands: the image above is installed. -/
theorem witness_route_installs :
    ∃ sgs m q m', (loadable (sealed (routeImage 1)) 0).readPrograms 1 (Image.of (sealed (routeImage 1))) [0] = (.ok sgs, m)
      ∧ m.planRoute 1 (Image.of (sealed (routeImage 1))) sgs = some q
      ∧ m.installRoute 1 (Image.of (sealed (routeImage 1))) sgs q = some m' := by
  have h : installable = true := by decide +kernel
  unfold installable at h
  simp only at h
  split at h
  · rename_i sgs m hr
    split at h
    · rename_i q hq
      simp only [Bool.and_eq_true, beq_iff_eq, bne_iff_ne, ne_eq] at h
      obtain ⟨⟨⟨⟨hb, hx⟩, hl⟩, hf⟩, hp⟩ := h
      have hs := allocFrames_one (allocFrame_isSome hl hp)
      rw [Option.isSome_iff_exists] at hs
      obtain ⟨⟨area, m1⟩, ha⟩ := hs
      have hi : (m.installRoute 1 (Image.of (sealed (routeImage 1))) sgs q).isSome = true := by
        simp only [Module.installRoute, hf, hx, List.range_zero, List.map_nil, List.filter_nil, Module.mapBuffers]
        rw [show ((1 : Ten).val) = 1 from rfl, ha]
        simp [hb]
      rw [Option.isSome_iff_exists] at hi
      obtain ⟨m', hm⟩ := hi
      exact ⟨sgs, m, q, m', hr, hq, hm⟩
    · exact absurd h (by simp)
  · exact absurd h (by simp)

/-- Placement: a cluster may leave and a stage may take, or not; each stage of a move; an item to dispense and the end of a share; a stage to
re-measure; the balance switched off and on. -/
theorem witness_placement :
    (let m := running 0 Tile.reset
     let wide : Route := { demoRoute with alloc := some [0, 1], stages := [{ demoStage with items := 9, minCl := 0 }, { demoStage with items := 9 }] }
     let w : Module := { m with routes := [(0, wide)] }
     let mv : Move := ⟨1, some (0, 1), none, none, [], false, false⟩
     let going := (((w.setCl 0 { Cl.reset with move := some mv }).setFld Fld.FAB_CL_STATUS_STATE 0 0 2).setFlag
       Fld.FAB_CL_STATUS_AT_BOUNDARY 0 0 true)
     let calm : Module := { w with routes := [(0, { wide with alloc := none })] }
     let gone := (calm.setCl 0 { m.cl 0 with move := some { mv with reassigned := true } }).setFld Fld.FAB_CL_STATUS_STATE 0 0 2
     [w.checkAssign 0 == w && w.flag Fld.FAB_CL_ASSIGN_VALID 0 && w.fld Fld.FAB_CL_ASSIGN_TENANCY 0 == 1,
      (w.cl 0).route == some 0 && (w.cl 0).move == none && (w.cl 0).twinOf == none && (w.cl 0).stage == 0,
      moveBetween wide.stages (w.stageCounts 0 wide) [0, 1] == some (0, 1),
      !w.moving 1 && w.mayLeave 0 && w.mayTake 0 1 && !w.behindFront 0 && w.fld Fld.FAB_CL_STATUS_STATE 0 == 1,
      !m.mayLeave 0,
      !m.mayTake 0 0,
      going.moving 1,
      (going.cl 0).move == some mv && (going.cl 0).route == none && !going.released 0 && going.fld Fld.FAB_CL_STATUS_STATE 0 == 2
        && !going.moveStale 0 mv && going.checkAssign 0 == going && !going.behindFront 0,
      (let stale : Module := { going with routes := [(0, { wide with stages := [demoStage, demoStage] })] }
       stale.moveStale 0 mv && (stale.cl 0).move == some mv && !stale.released 0 && !stale.behindFront 0
         && stale.fld Fld.FAB_CL_STATUS_STATE 0 == 2),
      (gone.stageOf 0).isSome && gone.fld Fld.FAB_CL_STATUS_STATE 0 == 2 && gone.routes.all (fun (p : Nat × Route) => p.2.alloc == none),
      decide (gone.fld Fld.PLC_MOVES_COUNT < 2 ^ Fld.PLC_MOVES_COUNT.width - 1),
      (let k := w.setCl 0 { m.cl 0 with itemsLeft := 3 }
       decide (0 < (k.cl 0).itemsLeft) && (k.tile (k.origin tile0)).recv.isEmpty && k.released 0
         && !pagedStage wide { demoStage with items := 9 } && !scheduledStage wide { demoStage with items := 9 }),
      (w.cl 0).itemsLeft == 0 && (w.tile (w.origin tile0)).recv.isEmpty && !wide.steal && wide.divisions == [],
      w.twinTile tile0 == none,
      [1, 1000].all (fun busy : Nat =>
        let sg : Stage := { demoStage with items := 9, maxCl := 9, busyLog := (List.range 9).map (fun k => (k, 256 * busy)) }
        let r : Route := { demoRoute with stages := [sg, { sg with measured := some 10 }] }
        let at' := fun i => { Cl.reset with route := some 0, stage := i, step := 9 }
        let k : Module := { tenModule.setReg .PLC_MEASURE 0 0 3 with routes := [(0, r)], cls := [(0, at' 0), (1, at' 1), (2, at' 1)] }
        let done := sg.busyLog.filter (fun (p : Nat × Nat) => decide (p.1 < k.lowestStep 0 0))
        let r' : Route := { r with stages := r.stages.modify 0 (fun s => { s with measured := some busy }) }
        k.fld Fld.PLC_MEASURE_STEPS == 3 && decide (3 ≤ done.length) && ((done.drop (done.length - 3)).map (·.2)).sum / 3 / 256 == busy
          && gains (k.fld Fld.PLC_REBAL_GAIN_GAIN) (worstLoad (r'.stages.map Stage.work) (k.stageCounts 0 r'))
            (worstLoad (r'.stages.map Stage.work) (allocate (k.clustersOf 0).length r'.stages)) == (busy == 1000)),
      decide (demoStage.busyLog.length < tenModule.fld Fld.PLC_MEASURE_STEPS),
      !(tenModule.setFlag Fld.PLC_CTL_BAL_EN 0 0 false).flag Fld.PLC_CTL_BAL_EN,
      (tenModule.setFlag Fld.PLC_CTL_BAL_EN 0 0 true).flag Fld.PLC_CTL_BAL_EN,
      tenModule.fld Fld.PLC_BAL_PERIOD_PERIOD != 0]).all id = true := by
  decide +kernel

/-! ## Witnesses: weights -/

/-- WeightCommands, the load: refused to the house, to a running route and behind a swap; out of form; a table that cannot be read, is not
sound, has no room, lies outside the grant; one whose slices are mapped or not. -/
theorem witness_weight_loads :
    (let load := fun (n src : Nat) => cmdOf 0x10 (leBytes 8 0 ++ leBytes 8 src ++ leBytes 2 n ++ leBytes 2 7)
     let entry := fun streamed : Nat => leBytes 8 0 ++ leBytes 4 4096 ++ List.replicate 12 0 ++ [byteOf streamed] ++ List.replicate 7 0
     let page := fun (bs : List Byte) => berths ({ fourPages with dram := Mem.setBytes fourPages.dram 0x30000 bs } : Module)
     let on := fun (m : Module) (c : Cmd) => (taking m c).begun 0 c
     let table := fun (m : Module) (c : Cmd) => ((on m c).dropWrec 1).readVA .wgt 1 0 (32 * c.field 24 2)
     let ok := fun (m : Module) (c : Cmd) => ready (taking m c) 0x10 c && !(on m c).generates 1 && (m.wrec 1).isNone
       && 0 < c.field 24 2 && m.fld Fld.WGT_TEN_BERTH_COUNT 1 ≤ 4094 && m.fld Fld.WGT_TEN_BERTH_BASE 1 == 0
       && m.fld Fld.WGT_TEN_BERTH_BYTES_BYTES 1 == 4096
     let rec' := fun (m : Module) (c : Cmd) (bs : List Byte) => (table m c).2.newRecord c bs
     let sound := fun (m : Module) (c : Cmd) (bs : List Byte) => readOf (table m c) == some bs
       && (layerEntries 1 bs).all (layerOk 4096) && regionsApart (rec' m c bs).regions
     let room := fun (m : Module) (c : Cmd) (bs : List Byte) => decide ((rec' m c bs).residents.length + 1 ≤ m.fld Fld.WGT_TEN_BERTH_COUNT 1)
       && decide ((rec' m c bs).residents.length + (rec' m c bs).settings.depth ≤ m.fld Fld.WGT_TEN_BERTH_COUNT 1)
     let c := load 1 0x20000
     let mapped := fun (m : Module) (c : Cmd) => match (table m c).2.slicesMapped 1 (c.field 16 8) (rec' m c (entry 1)).layers with
       | (.ok _, m2) => ((m2.stageResidents 0 1 (rec' m c (entry 1)) [] 0).1) && (rec' m c (entry 1)).residents == []
       | (.error _, _) => false
     [ready (taking fourPages (houseCmd 0x10 [])) 0x10 (houseCmd 0x10 []),
      (on (withRec demoRec) c).generates 1 && ready (taking (withRec demoRec) c) 0x10 c,
      [some demoSwap].all (fun x => ({ demoRec with travel := x } : WRecord).travel.isSome),
      ready (taking (page (entry 1)) (load 0 0)) 0x10 (load 0 0) && (load 0 0).field 24 2 == 0,
      ok (berths { fourPages with dram := Mem.write fourPages.dram 0x22000 8 0 }) c
        && (readOf (table (berths { fourPages with dram := Mem.write fourPages.dram 0x22000 8 0 }) c)).isNone,
      ok (page (entry 2)) c && readOf (table (page (entry 2)) c) == some (entry 2) && !(layerEntries 1 (entry 2)).all (layerOk 4096),
      (let m := (page (entry 1)).setFld Fld.WGT_TEN_BERTH_COUNT 1 0 1
       ok m c && sound m c (entry 1) && !room m c (entry 1)),
      ok (page (entry 1)) c && sound (page (entry 1)) c (entry 1) && room (page (entry 1)) c (entry 1)
        && !(table (page (entry 1)) c).2.regionsGranted 1 (rec' (page (entry 1)) c (entry 1)).regions,
      (let m := withBank (page (entry 1))
       ok m c && sound m c (entry 1) && room m c (entry 1) && (table m c).2.regionsGranted 1 (rec' m c (entry 1)).regions
         && mapped m c && !mapped m (load 1 0x40000))]).all id = true := by decide +kernel

/-- WeightCommands, the swap and the lean build: without a record, with a swap queued, in a group that is none, in one without a job, of the
wrong version, with slices that are not mapped, for too many routes, and accepted, travelling or queued; lean copies asked for and
not. -/
theorem witness_weight_swaps :
    (let swap := fun (v src group : Nat) => cmdOf 0x11 (leBytes 8 src ++ leBytes 2 v ++ leBytes 2 0 ++ leBytes 4 group)
     let lean := fun src : Nat => cmdOf 0x12 (leBytes 8 src ++ leBytes 2 8)
     let has := fun w : WRecord => ({ fourPages with weights := [(1, w)] } : Module)
     let on := fun (m : Module) (c : Cmd) => (taking m c).begun 0 c
     let ok := fun (m : Module) (c : Cmd) (w : WRecord) => ready (taking m c) 0x11 c && (on m c).wrec 1 == some w && w.queued.isNone
       && (on m c).groupOk 1 (c.field 20 4)
     let twice := { demoRoute with stages := [{ demoStage with layerCount := 2 }] }
     let box := 0x80000000
     let two : WRecord := { demoRec with travel := some demoSwap }
     let slim : WRecord := { demoRec with layers := [⟨0, 4096, 1, some 16384, 4096, false⟩] }
     let next := fun (w : WRecord) (c : Cmd) => match (on (has w) c).slicesMapped 1 (c.field 8 8) w.layers with
       | (.ok _, m1) => decide (m1.carryingRoutes 1 ≤ 1) && decide (0 < w.freeCount)
       | (.error _, _) => false
     [ready (taking fourPages (swap 8 0x20000 0)) 0x11 (swap 8 0x20000 0) && (fourPages.wrec 1).isNone,
      (let w := { demoRec with queued := some demoSwap }
       ready (taking (has w) (swap 8 0x20000 0)) 0x11 (swap 8 0x20000 0) && (has w).wrec 1 == some w),
      ready (taking (has demoRec) (swap 8 0x20000 5)) 0x11 (swap 8 0x20000 5)
        && !(on (has demoRec) (swap 8 0x20000 5)).groupOk 1 5,
      ok (has demoRec) (swap 8 0x20000 box) demoRec && ((on (has demoRec) (swap 8 0x20000 box)).jobOf 1).isNone,
      ok (has demoRec) (swap 9 0x20000 0) demoRec && demoRec.latest + 1 != 9,
      ok (has demoRec) (swap 8 0x20000 0) demoRec && demoRec.latest + 1 == 8 && next demoRec (swap 8 0x20000 0),
      !next demoRec (swap 8 0x30000 0),
      ok (has two) (swap 9 0x20000 0) two && two.latest + 1 == 9 && next two (swap 9 0x20000 0),
      demoRec.residents != [] && ({ demoRec with count := 0 } : WRecord).freeCount == 0,
      decide (1 < ({ has demoRec with routes := [(0, twice), (1, twice)] } : Module).carryingRoutes 1),
      ready (taking fourPages (lean 0)) 0x12 (lean 0),
      ready (taking (has demoRec) (lean 0)) 0x12 (lean 0) && demoRec.leanLayers == [],
      slim.leanLayers != [] && ((on (has slim) (lean 0x20000)).leanMapped 1 0x20000 slim.leanLayers).1.isOk,
      !((on (has slim) (lean 0x40000)).leanMapped 1 0x40000 slim.leanLayers).1.isOk]).all id = true := by decide +kernel

/-- BaseSharing: each mode, on a base that is free, loaded and granted; sizes and fields out of form; frames that are short. -/
theorem witness_base_share :
    (let c := fun (mode ten va : Nat) => houseCmd 0x13 ([byteOf mode, 2, 0, byteOf ten] ++ leBytes 4 0 ++ leBytes 8 va ++ leBytes 8 4096)
     let sized := fun (hold n : Nat) => houseCmd 0x13 ([0, 2, byteOf hold, 0] ++ List.replicate 12 0 ++ leBytes 8 n)
     let bad := fun mode : Nat => houseCmd 0x13 ([byteOf mode, 8, 0, 1] ++ List.replicate 20 0)
     let base : SharedBase := ⟨4096, [900], none⟩
     let has : Module := { pagedModule with bases := [(2, base)] }
     let held : Module := { pagedModule with bases := [(2, { base with hold := some (0, 1) })] }
     let bare' : Module := { has with dram := Mem.write (Mem.write has.dram 0x21010 8 0) 0x21018 8 (2 ^ 64 - 1) }
     let short := pagedModule.setReg .TEN_DRAM 1 0 (pairWord 0x7FFFFF)
     let grant := fun (m : Module) (va : Nat) =>
       let g := c 1 1 va
       let m := (taking m g).begun 0 g
       m.exists? (Fin.ofNat 101 1) && !m.hasBase 1 2 && decide (va % frameBytes = 0)
         && (match m.walk 1 va false with
           | .error e => e.kind == 1
           | .ok _ => false)
         && !m.extentsMeet 1 0 1 && m.flag Fld.XLT_TEN_ROOT_ENABLE 1 && pairOk (m.reg .XLT_TEN_ROOT 1)
     [ready (taking pagedModule (sized 0 0)) 0x13 (sized 0 0),
      ready (taking pagedModule (sized 0 4097)) 0x13 (sized 0 4097),
      [0, 1].all (fun hold => let k := sized hold 4096
                              let m := (taking pagedModule k).begun 0 k
                              ready (taking pagedModule k) 0x13 k && (Map.get? m.bases 2).isNone && decide (1 ≤ m.houseFramesLeft)
                                && (m.readVA .wgt 0 0 4096).1.isOk),
      (Map.get? has.bases 2).isSome,
      decide (short.houseFramesLeft < 1),
      ready (taking has (c 1 0 0)) 0x13 (c 1 0 0) && ready (taking has (c 1 101 0)) 0x13 (c 1 101 0),
      ready (taking pagedModule (c 1 1 0x10000)) 0x13 (c 1 1 0x10000),
      ready (taking has (c 1 1 0x10000)) 0x13 (c 1 1 0x10000) && grant has 0x10000 && (has.mapBase 1 0x10000 [900]).isSome,
      ready (taking held (c 1 1 0x10000)) 0x13 (c 1 1 0x10000) && grant held 0x10000,
      grant bare' (2 ^ 21) && (bare'.mapBase 1 (2 ^ 21) [900]).isNone,
      ready (taking has (c 1 1 0)) 0x13 (c 1 1 0) && !grant has 0,
      ready (taking has (c 2 1 0)) 0x13 (c 2 1 0) && ready (taking has (c 2 0 0)) 0x13 (c 2 0 0) && has.routes == [],
      ready (taking { has with routes := [(0, demoRoute)] } (c 2 1 0)) 0x13 (c 2 1 0) && demoRoute.runs,
      ready (taking has (c 3 0 0)) 0x13 (c 3 0 0) && has.baseGrants == [],
      ready (taking pagedModule (c 3 0 0)) 0x13 (c 3 0 0) && (Map.get? pagedModule.bases 2).isNone,
      ready (taking { has with baseGrants := [(10, 0x10000)] } (c 3 0 0)) 0x13 (c 3 0 0),
      [0, 1, 2, 3].all (fun mode => ready (taking pagedModule (bad mode)) 0x13 (bad mode) && 8 ≤ (bad mode).field 9 1)]).all id
      = true := by decide +kernel

/-- SwapsAndStaging: a layer to stage again, a resident layer to stage with and without a free berth, one of the queued swap, a streamed
layer to fetch; the front with and without enough staged, alone and in a group; a swap that is complete; one that waits for its group;
a layer whose deadline has expired, and one that has been answered. -/
theorem witness_swaps :
    (let on := fun (x : WSwap) => ({ demoRec with travel := some x } : WRecord)
     let full : WRecord := { on demoSwap with count := 0 }
     let m := withRec (on demoSwap)
     let staged := { demoSwap with staged := [0] }
     let behind : WRecord := { on staged with queued := some { demoSwap with version := 9 } }
     let room := fun w : WRecord => 1 + ((withRec w).fetches 1 w).length + (withRec w).streamStages 1 w
     let fetch := fun w : WRecord => (withRec w).windows 1 w |>.any (fun u =>
       u.find? (fun (p : Nat × BitVec 16) => !w.isReady p.1 p.2 && !w.isBroken p.1 p.2) == some (1, 7))
     let pre := fun (w : WRecord) (x : WSwap) (k : Nat) =>
       let w : WRecord := { w with settings := ⟨false, 0, 0, k, 2⟩ }
       (withRec w).prestaged 1 w x
     let late : WRecord := { on demoSwap with settings := ⟨true, 5, 0, 0, 2⟩, asked := [(0, [1])], lean := [(1, 7)] }
     [(let w : WRecord := { demoRec with restage := [(0, 7)] }
       w.restage.find? (fun (p : Nat × BitVec 16) => p.1 == 0) == some (0, 7) && decide (0 < w.freeCount)
         && (withRec w).wrec 1 == some w),
      (m.wrec 1 == some (on demoSwap)) && (on demoSwap).nextLayer demoSwap == some 0 && (on demoSwap).restage == []
        && decide (room { on demoSwap with count := 9 } ≤ ({ on demoSwap with count := 9 } : WRecord).freeCount),
      full.nextLayer demoSwap == some 0 && decide (full.freeCount < room full),
      behind.nextLayer staged == none && behind.nextLayer { demoSwap with version := 9 } == some 0
        && decide (room { behind with count := 9 } ≤ ({ behind with count := 9 } : WRecord).freeCount),
      fetch (on demoSwap) && m.epochs == [] && decide (0 < (on demoSwap).freeCount)
        && (m.windows 1 (on demoSwap)).all (fun u => u.all (fun (p : Nat × BitVec 16) => p.2 == 7)),
      (m.genRoute 1).any (fun (p : Nat × Route) => p.2.headStage == some 0),
      !pre (on demoSwap) demoSwap 1,
      pre (on staged) staged 1 && staged.group == 0,
      pre (on { staged with group := 5 }) { staged with group := 5 } 1,
      (on staged).nextLayer staged == none,
      ({ m with routes := [] } : Module).streamRoutes 1 == [],
      (let k := withRec (on { staged with front := some 0 })
       (k.streamRoutes 1).all (fun (p : Nat × Route) => p.2.carriers.all (fun i => (k.setCl 0 { k.cl 0 with step := 1 }).stageDone p.1 i 0))),
      m.fld Fld.WGT_SWAP_TIMEOUT_TIMEOUT != 0 && ({ demoSwap with proposal := some 3 } : WSwap).front == none,
      (m.setFld Fld.WGT_SWAP_TIMEOUT_TIMEOUT 0 0 0).fld Fld.WGT_SWAP_TIMEOUT_TIMEOUT == 0,
      (let k := withRec late
       let sg := { demoStage with layerFirst := 0, layerCount := 2 }
       k.dueStep late 0 0 sg 1 == some 0 && sg.carriesLayer 1 && late.isStreamed 1 && (k.wgtNow 1 late).deadline == 5
         && (k.wgtNow 1 late).lean && Map.get? late.lean 1 == some (late.version 0) && !late.isReady 1 (late.version 0)
         && !late.isBroken 1 (late.version 0) && late.missed == [] && late.answers == []),
      (let told : WRecord := { late with answers := [(0, 1, 0, 5)] }
       (withRec told).dueStep told 0 0 { demoStage with layerFirst := 0, layerCount := 2 } 1 == some 0)]).all id = true := by decide +kernel

/-- SwapsAndStaging: a span waits for a layer; a layer past the table can be answered, one that is not staged cannot; a route that learns. -/
theorem witness_toll :
    (let w : Fields := ⟨1, 2, 0, 1, 0⟩
     let at' := fun (l : Word) (m : Module) => { m with tiles := [(0, { Tile.reset.setS 2 l with core := .waiting 0x42 w, icache := [lineOf 0] })] }
     let m : Module := at' 5 (withRec demoRec)
     [m.stageClusters 0 0 == [0],
      m.released 0,
      m.origin tile0 == tile0,
      (m.tile tile0).waitsToll 5 == some w,
      (List.range 256).all (fun k => k == 0 || ((m.tileAt k).waitsToll 5).isNone),
      m.spanTiles tile0 == [tile0] && (demoRec.versAnswer 0 { demoStage with layerCount := 2 } 0 5).isSome,
      (demoRec.versAnswer 0 { demoStage with layerCount := 2 } 0 1).isNone,
      (heldIn (fun m => { m with weights := [] }) 0x42 w (fun k => (formVers k w).illegal k w) Tile.reset (fun m => (m.wrec 1).isNone))]).all id
      = true := by decide +kernel

/-- SwapsAndStaging: the words of the toll, for a layer that is ready, broken, decided, answered and none of these. -/
theorem witness_toll_words :
    (let sg := { demoStage with layerCount := 2 }
     let ready : WRecord := { demoRec with berths := [(3, ⟨1, 7, true⟩)] }
     let broken : WRecord := { demoRec with broken := [(1, 7)] }
     [sg.carriesLayer 1,
      !demoStage.carriesLayer 1,
      ready.isReady 1 (ready.version 0) && ready.berthOf 1 (ready.version 0) == some 3,
      !broken.isReady 1 (broken.version 0) && broken.isBroken 1 (broken.version 0),
      ({ demoRec with decided := [(0, 1, 0)] } : WRecord).decided.contains (0, 1, 0),
      ({ demoRec with answers := [(0, 1, 0, 9)] } : WRecord).answers.find? (fun a => a.1 == 0 && a.2.1 == 1 && a.2.2.1 == 0)
        == some (0, 1, 0, 9)]).all id = true := by decide

/-! ## Witnesses: waybills, generation and experience -/

/-- Waybills: a submission accepted and one refused; the three actions on another tenancy's waybill, on one in a step, behind an abort
and outside a step; another tenancy's function; a deferred ending with and without room. -/
theorem witness_waybills :
    (let ready := fun ten : Nat => withCvn demoCvn ((ringed ringType.waybill (demoImage ten)).setFld Fld.WBL_TEN_LIMITS_MAX_WAYBILLS 1 0 1)
     let taken := fun ten : Nat => (ready ten).takeEntry ringType.waybill 2 10
     let fault := fun ten : Nat => (((taken ten).2.reserve 11 2).submitFault 1 (newWaybill 1 10 11 0 (demoImage ten))).1
     let has := fun w : Waybill => ({ withCvn demoCvn tenModule with waybills := [(9, w)] } : Module)
     let room := fun w : Waybill => (has w).cvnRoom 3 demoCvn
     [(withCvn demoCvn tenModule).takeEntry ringType.waybill 2 10 |>.1 |>.isNone,
      (taken 1).1 == some (0, demoImage 1),
      (taken 2).1 == some (0, demoImage 2),
      fault 1 == none,
      fault 2 == some st.isolation,
      [(0 : Func), 1].all (fun f => (has demoWaybill).mayAct f 1),
      (has demoWaybill).waybill 8 == none && (1 : Ten) != 2,
      (has { demoWaybill with ten := 2 }).waybill 9 == some { demoWaybill with ten := 2 },
      demoWaybill.live,
      ({ demoWaybill with step := some 3, action := some 3 } : Waybill).live,
      ({ demoWaybill with step := some 3 } : Waybill).step.isSome && !({ demoWaybill with ending := some 5 } : Waybill).live,
      ((has demoWaybill).checkPairs 9 demoWaybill).1 && imgPairs demoWaybill.image && demoWaybill.step == none,
      !((has demoWaybill).checkPairs 9 { demoWaybill with image := putAt demoWaybill.image 4 [0] }).1,
      tenModule.tenOf 1 == some 1,
      tenModule.caravanOf 1 demoWaybill.caravan == none,
      (has { demoWaybill with ending := some st.aborted }).caravanOf 1 demoWaybill.caravan == some 3,
      decide (2 ≤ room demoWaybill),
      ((has demoWaybill).setFld Fld.CVN_RING_STATE_RESERVED 3 0 4090).cvnRoom 3 demoCvn == 1]).all id = true := by decide +kernel

/-- GenerationSteps, the building: no route, building held, a full ring, a free slot, and a follower; nothing to choose, a waybill chosen, and
a slot that can and cannot be written. -/
theorem witness_step_building :
    (let route := fun (g : GenCfg) (slots : List GenSlot) => ({ demoRoute with gen := g, slots := slots } : Route)
     let sl : GenSlot := ⟨0, [], true, false, none⟩
     let has := fun r : Route => ({ pagedModule with routes := [(0, r)] } : Module)
     let serves := fun r : Route => (has r).servedRoute 1 == some (0, r) && (has r).route 0 == some r
     let r := route ⟨0, 0, 5, 0, true⟩ []
     let able := ((withCvn demoCvn (has r)).setFld Fld.WBL_TEN_BUDGET_TOKENS 1 0 16).setFld Fld.WBL_TEN_PREFILL_CHUNK 1 0 4
     let chosen := fun m : Module => ((m.sweepWaybills 1).recomputeAll 1).choose 1 r.nextBuild
     let full : Module := { able with waybills := [(9, demoWaybill)] }
     let wrote := fun ragged : Nat => (chosen full).2.writeSlot 1 ⟨ragged, 0, 5, 0, true⟩ 5 (slotBytes 5 (chosen full).1.entries)
     [tenModule.servedRoute 1 == none,
      serves (route ⟨0, 0, 1, 0, true⟩ [sl]),
      serves (route ⟨0, 0, 4, 0, true⟩ [sl]),
      serves (route ⟨0, 0, 4, 0, false⟩ []),
      (pagedModule.setFlag Fld.WBL_CTL_SCHED_HOLD 0 0 true).flag Fld.WBL_CTL_SCHED_HOLD,
      !pagedModule.flag Fld.WBL_CTL_SCHED_HOLD,
      (chosen able).1.ids == [],
      (chosen full).1.ids == [9] && (chosen full).2.notices == [],
      (wrote 0).1.isOk,
      !(wrote 0x50000).1.isOk]).all id = true := by decide +kernel

/-- GenerationSteps, the receiving: no packets, all of them, for no route, a leader, a slot out of order, one too many, and one that is
written and one that faults. -/
theorem witness_slot_receiving :
    (let slot := leBytes 8 5 ++ List.replicate 56 0
     let sent : Ten × Packet := (1, ⟨0, 0, 5, 3, 0, 0, BitVec.ofNat 128 (slotSpec 0 64), slot⟩)
     let has := fun (g : GenCfg) (next : Word64) (slots : List GenSlot) =>
       ({ pagedModule with routes := [(0, { demoRoute with gen := g, nextBuild := next, slots := slots })], inbox := [sent] } : Module)
     let taken := fun m : Module => ({ m with inbox := m.inbox.erase sent } : Module)
     let ready := fun m : Module => m.slotPackets 1 slot == some [sent] && m.servedRoute 1 == (m.route 0).map (fun r => (0, r))
     let sl : GenSlot := ⟨4, [], true, false, none⟩
     [pagedModule.slotPackets 1 slot == none && pagedModule.servedRoute 1 == none,
      ready (has ⟨0, 0, 5, 0, true⟩ 5 []),
      ready (has ⟨0, 0, 5, 0, false⟩ 6 []) && decide (BitVec.ofNat 64 (fieldAt slot 0 8) < 6),
      ready (has ⟨0, 0, 5, 0, false⟩ 4 []) && decide (4 < BitVec.ofNat 64 (fieldAt slot 0 8)),
      ready (has ⟨0, 0, 1, 0, false⟩ 5 [sl]) && BitVec.ofNat 64 (fieldAt slot 0 8) == 5,
      ready (has ⟨0x50000, 0, 5, 0, false⟩ 5 [sl])
        && !((taken (has ⟨0x50000, 0, 5, 0, false⟩ 5 [sl])).writeSlot 1 ⟨0x50000, 0, 5, 0, false⟩ 5 slot).1.isOk,
      ready (has ⟨0, 0, 5, 0, false⟩ 5 []) && ((taken (has ⟨0, 0, 5, 0, false⟩ 5 [])).writeSlot 1 ⟨0, 0, 5, 0, false⟩ 5 slot).1.isOk]).all id
      = true := by decide +kernel

/-- GenerationSteps, the processing: no step committed; one that is, alone and in a group whose members have said, will say and have been
asked; an entry that samples nothing, with and without records, and one that samples. -/
theorem witness_step_processing :
    (let slot := fun (lean : Option Bool) (sent : Bool) => (⟨0, [], true, sent, lean⟩ : GenSlot)
     let route := fun (g : Nat) (sl : GenSlot) => ({ demoRoute with gen := ⟨0, 0, 4, g, true⟩, slots := [sl] } : Route)
     let at' := fun (r : Route) (step : Word64) =>
       ({ pagedModule with routes := [(0, r)], cls := [(0, { Cl.reset with route := some 0, step := step })] } : Module)
     let find := fun m : Module => m.routes.find? (fun p => p.2.ten == 1 && !p.2.learning && m.slotCommitted p.1 p.2)
     let due := fun (g : Nat) (sl : GenSlot) => find (at' (route g sl) 1) == some (0, route g sl)
       && (at' (route g sl) 1).route 0 == some (route g sl)
     let entry := demoWaybill.ragEntry 9 ⟨0, 2, false, false⟩ 0 0
     [find (at' (route 0 (slot none false)) 0) == none,
      due 0 (slot none false),
      due 9 (slot (some true) true),
      due 9 (slot none true),
      due 9 (slot none false) && (pagedModule.wrec 1).isNone,
      (at' (route 0 (slot none false)) 1).slotCommitted 0 (route 0 (slot none false)),
      !rag.sample entry && !rag.score entry && demoWaybill.image.length == 64 && demoWaybill.e == 0 && rag.pos entry == 0,
      rag.sample (demoWaybill.ragEntry 9 ⟨0, 4, true, false⟩ 0 0)]).all id = true := by decide +kernel

/-- Caravans: a ring to enable, and one that is not right; a consumption within and past what is written, and on a LEARN_EN ring; a
stall; a reward on no ring, for a sequence that takes it and for one that failed. -/
theorem witness_caravans :
    (let alloc := fun size : Nat => ((withCvn demoCvn tenModule).setFlag Fld.CVN_RING_CFG_ENABLE 3 0 false).setFld
       Fld.CVN_RING_CFG_SIZE_LOG2 3 0 size
     let m := withCvn demoCvn tenModule
     let entry := fun status : Nat => leBytes 2 12 ++ leBytes 2 9 ++ leBytes 4 77 ++ leBytes 4 0x3F800000 ++ leBytes 4 status
     let seq := fun status : Nat => (⟨77, none, 9, status, 0, 8, 0, none⟩ : CSeq)
     let rewarded := fun (ring : Bool) (status : Nat) =>
       let k := ringed ringType.reward (entry 0)
       (if ring then withCvn { demoCvn with seqs := [seq status] } k else k).takeEntry ringType.reward 0 10
     [[15, 16, 30, 31].all (fun z => (alloc z).allocated 3 && (alloc z).mayAct 1 1 && (alloc z).fld Fld.CVN_RING_CFG_SIZE_LOG2 3 == z
       && !(alloc z).flag Fld.CVN_RING_CFG_ENABLE 3 && (alloc z).fld Fld.CVN_RING_BASE_VA 3 == 0
       && (alloc z).fld Fld.CVN_RING_CFG_TENANCY 3 == 1),
      [15, 31].all (fun z => (alloc z).fld Fld.CVN_RING_CFG_SIZE_LOG2 3 < 16 || 30 < (alloc z).fld Fld.CVN_RING_CFG_SIZE_LOG2 3),
      !tenModule.allocated 3 && !tenModule.flag Fld.CVN_RING_CFG_ENABLE 3,
      m.allocated 3,
      m.mayAct 1 1,
      ({ m with caravans := [] } : Module).allocated 3 && ({ m with caravans := [] } : Module).caravan 3 == none,
      m.caravan 3 == some demoCvn,
      (withCvn { demoCvn with learn := true } tenModule).caravan 3 == some { demoCvn with learn := true },
      diff32 demoCvn.write (m.released' 3) == 5,
      diff32 (5 : Word).toNat (m.released' 3) == 5,
      m.fld Fld.CVN_STALL_LIMIT_LIMIT != 0,
      demoCvn.starved,
      m.flag Fld.CVN_RING_CFG_ENABLE 3,
      [0, 5].all (fun status => (rewarded true status).1 == some (0, entry 0)
        && (rewarded true status).2.caravanOf 1 12 == some 3
        && (rewarded true status).2.caravan 3 == some { demoCvn with seqs := [seq status] }),
      (rewarded false 0).1 == some (0, entry 0),
      (rewarded false 0).2.heldCaravan 1 12 == none,
      (m.takeEntry ringType.reward 0 10).1 == none,
      (let off := m.setFlag Fld.CVN_RING_CFG_ENABLE 3 0 false
       off.heldCaravan 1 12 == some 3 && (off.caravanOf 1 12).isNone),
      (let q := seq 0
       q.endSlot == 77 && q.status == 0 && q.waybill == imgBits (entry 0) 2 2 0 14 && imgBits (entry 0) 0 2 15 1 == 0
         && imgBits (entry 0) 2 2 14 2 == 0 && fieldAt (entry 0) 12 4 == 0 && fieldAt (entry 0) 12 4 != fieldAt (entry 5) 12 4),
      (let c := { demoCvn with base := 0x10000 - 1260, seqs := [seq 0] }
       let k := withCvn c (ringed ringType.reward (entry 0))
       let va := c.base + 16 * (78 % c.slots)
       k.caravan 3 == some c && match k.writeVA .cvn 1 (va + 8) [0, 0, 128, 63] with
         | (.ok (), k) => (k.writeVA .cvn 1 (va + 15) [1]).1.isOk && k.caravan 3 == some c
         | _ => false)]).all id = true := by decide +kernel

/-- Learning: a ring that is full, and building held; a batch to build; no sequence ready; nothing gathered, with more ready and without; a
batch that can be written; a batch to zero, waited for and due; an operation to dispense, one that waits for its span, and the end. -/
theorem witness_learning :
    (let q : CSeq := ⟨5, none, 9, 1, cause.stop, 1, 0, none⟩
     let b : Batch := ⟨1, 1, 1, [(0, 1)], false⟩
     let m := learning [q] []
     let on := fun step : Word64 => ({ learning [] [b] with cls := [(0, { Cl.reset with route := some 0, step := step })] } : Module).setFlag
       Fld.FAB_CL_STATUS_AT_BOUNDARY 0 0 false
     let gathered := m.gatherAll 1 (m.takeBatch 1 0).picks
     let cfg := { demoLearn with batch := 0x100000, depth := 5 }
     let paged := [(0x10, 6), (0x11, 7), (0x12, 8)].foldl (fun (m : Module) (p : Nat × Nat) =>
       let e := p.2 * 65536 + 15
       { m with dram := Mem.write (Mem.write m.dram (0x22000 + 16 * p.1) 8 e) (0x22008 + 16 * p.1) 8 (2 ^ 64 - 1 - e) }.setTag p.2 0x8001)
       { gathered.2 with tokens := fullBuckets 6 }
     [(learnRoute []).learn == some demoLearn,
      m.learner 1 == some (0, learnRoute []) && m.route 0 == some (learnRoute []),
      !m.flag Fld.LRN_CTL_BUILD_HOLD,
      (m.setFlag Fld.LRN_CTL_BUILD_HOLD 0 0 true).flag Fld.LRN_CTL_BUILD_HOLD,
      (learning [] [b, b]).learner 1 == some (0, learnRoute [b, b]),
      decide (m.fld Fld.LRN_TEN_MIN_MIN_TOKENS 1 ≤ m.readyRows 1),
      ({ learning [] [] with batchDue := [1] } : Module).batchDue.contains 1,
      (m.takeBatch 1 0).drops == [],
      !gathered.1.isEmpty,
      (paged.writeParts 1 (paged.batchParts 1 (learnRoute []) cfg gathered.1)).1.isOk,
      (m.gatherAll 1 []).1.isEmpty && m.anyReady 1 && !(learning [] []).anyReady 1,
      !m.batchDue.contains 1,
      (learning [] [b]).learner 1 == some (0, learnRoute [b]),
      !(on 0).routePast 0 1,
      (on 1).routePast 0 1,
      ({ b with zeroed := true } : Batch).zeroed,
      ((on 1).stageOf 0).map (fun x => x.1) == some 0,
      ((on 1).cl 0).step == b.step && (learnRoute [b]).batches.find? (fun x => x.step == ((on 1).cl 0).step) == some b,
      scheduledStage (learnRoute [b]) { demoStage with kind := 6, items := 0xFFFFFFFE },
      (on 1).released 0,
      ((on 1).tile ((on 1).origin tile0)).recv == [] && (on 1).twinTile tile0 == none,
      Map.get 0 ((on 1).cl 0).sched ((on 1).spanIdx tile0) == 0,
      decide (((learnRoute [b]).stageOps demoLearn b 0).length < 9),
      decide (0 ≤ ((learnRoute [b]).stageOps demoLearn b 0).length)]).all id = true := by decide +kernel

/-! ## Witnesses: memory and random numbers -/

/-- MemoryCommands: the patrol off, with nothing to find, and with one error; a channel in each state, behind four mapped out and
fewer; the Hold's patrol off and on; a bank shown; the skew window off, without a slot and with one over its limit. -/
theorem witness_memory_commands :
    (let m := tenModule
     let ch := fun (k st : Nat) (m : Module) => m.setFld Fld.MEM_CH_STATUS_STATE k 0 st
     let on := m.setFlag Fld.MEM_CTL_PATROL_EN 0 0 true
     let x : SkewSlot := ⟨1, 0, 0, 0, 0x10000, [(3, 2 ^ 40)], false, false⟩
     [!(m.setFlag Fld.MEM_CTL_PATROL_EN 0 0 false).flag Fld.MEM_CTL_PATROL_EN,
      on.flag Fld.MEM_CTL_PATROL_EN,
      on.dramEcc == [],
      ({ on with dramEcc := [(7, .corrected)] } : Module).dramEcc == [(7, .corrected)],
      m.reg .ERR_INJECT_INV Block.mem.group == 0,
      m.fld Fld.MEM_CH_STATUS_STATE 383 == 0,
      (ch 383 2 m).fld Fld.MEM_CH_STATUS_STATE 383 == 2,
      (ch 352 2 (ch 353 2 (ch 354 2 (ch 355 2 m)))).mappedOut (383 / 32) == 4,
      m.mappedOut (383 / 32) == 0,
      (ch 383 1 m).fld Fld.MEM_CH_STATUS_STATE 383 == 1 && Map.get 0 m.patchDue (patchKey 383) == 0 && m.dramEcc == [],
      Map.get 0 ({ m with patchDue := [(patchKey 383, 4)] } : Module).patchDue (patchKey 383) != 0,
      (m.setFld Fld.HLD_SCRUB_PERIOD_SECONDS 0 0 0).fld Fld.HLD_SCRUB_PERIOD_SECONDS == 0,
      (m.setFld Fld.HLD_SCRUB_PERIOD_SECONDS 0 0 60).fld Fld.HLD_SCRUB_PERIOD_SECONDS == 60,
      m.holdEcc == [],
      m.banks == [],
      (({ m with banks := [(32767, ⟨1, 5, 0, 9, false⟩)] } : Module).bank (0xFFFFFFFF % 32768)).ce == 5,
      (m.setFld Fld.MEM_SKEW_WINDOW_US 0 0 0).fld Fld.MEM_SKEW_WINDOW_US == 0,
      (m.setFld Fld.MEM_SKEW_WINDOW_US 0 0 5).fld Fld.MEM_SKEW_WINDOW_US == 5,
      m.skew == [],
      (({ pagedModule with skew := [x] } : Module).skewOf x).any (fun k => decide (m.fld Fld.MEM_SKEW_LIMIT_LIMIT < k)),
      ((({ m with skew := [{ x with counts := [] }] } : Module).skewOf { x with counts := [] }).isNone)]).all id = true := by decide +kernel

/-- Migrations: no request, one without entropy, and one that starts; a migration in its first, its fourth and its final pass. -/
theorem witness_migrations :
    (let b : Buffer := ⟨0x10000, 0x10000, 0, 0, 0xFF, true, 0, 0⟩
     let r : Route := { demoRoute with buffers := [b] }
     let m := ({ pagedModule with routes := [(0, r)], skew := [⟨1, 0, 0, 0x10000, 0x10000, [], true, false⟩] } : Module)
     let ok := (m.setFlag Fld.RNG_ENTROPY_STATUS_HEALTHY 0 0 true).setFld Fld.MEM_MIG_MAX_MIB 0 0 64
     let moving := fun k : Nat => ({ m with routes := [(0, { r with migrations := [(0, ⟨1, 0, k, []⟩)] })] } : Module)
     [m.route 0 == some r,
      m.emptySlot 1 == some 1,
      ({ m with skew := [] } : Module).skew == [],
      (m.setFlag Fld.RNG_ENTROPY_STATUS_HEALTHY 0 0 false).flag Fld.RNG_ENTROPY_STATUS_HEALTHY == false,
      ok.flag Fld.RNG_ENTROPY_STATUS_HEALTHY,
      ok.migFits [] && !(ok.setFld Fld.MEM_MIG_MAX_MIB 0 0 0).migFits [],
      ({ m with routes := [] } : Module).route 0 == none && m.skew.any (fun x => x.route == 0 && x.buffer == 0 && x.wanted),
      b.tier != 3 && r.buffers[0]? == some b && r.buffers[1]? == none && (Map.get? ({ r with migrations := [(0, ⟨1, 0, 1, []⟩)] } : Route).migrations 0).isSome,
      (let p : MigPage := ⟨0, 3, 0x22000, 3, 9⟩
       let q := (pagedModule.setTag 9 0x8001)
       q.mayMove 1 p && !pagedModule.mayMove 1 p
         && (List.range 16).all (fun k => decide (p.entry + k < p.target * frameBytes))),
      Map.get? r.migrations 0 == none,
      ok.dramEcc == [],
      (match ok.planPages 1 1 0x20000 (fun _ => none) 3 0x10000 with
       | some (pages, m) => pages == [] && m.dramEcc == []
       | none => false),
      [0, 3, 4].all (fun k => ((moving k).route 0).any (fun r => (Map.get? r.migrations 0).any (fun g => g.passes == k)))]).all id
      = true := by decide +kernel

/-- No frame is taken while a channel of every stack is being mapped out. -/
theorem pickFrame_busy {m : Module} (h : ∀ s, s < 12 → m.stackBusy s = true) : m.pickFrame none = none := by
  have hf : ∀ n a, firstFrom (fun _ => false) 12 n a = none := by
    intro n
    induction n with
    | zero => intro a; rfl
    | succ n ih => intro a; simp [firstFrom, ih]
  unfold Module.pickFrame
  simp only [List.findSome?_eq_none_iff]
  intro k _
  have hk := h ((m.nextStack + k) % 12) (Nat.mod_lt _ (by decide))
  simp [pick, hk, hf]

/-- Migrations: a page that finds no target, since a channel of every stack is being mapped out. -/
theorem witness_no_target :
    ((List.range 12).foldl (fun m s => m.setFld Fld.MEM_CH_STATUS_STATE (32 * s) 0 1) pagedModule).planPages 1 1 0x10000
      (fun _ => none) 3 0 = none := by
  have hb : ∀ s, s < 12 → ((List.range 12).foldl (fun m s => m.setFld Fld.MEM_CH_STATUS_STATE (32 * s) 0 1) pagedModule).stackBusy s
      = true := by decide +kernel
  have hl : ((List.range 12).foldl (fun m s => m.setFld Fld.MEM_CH_STATUS_STATE (32 * s) 0 1) pagedModule).leafOf 1 0
      = some (3, 0x22000) := by decide +kernel
  have ho : (entHost (Mem.read ((List.range 12).foldl (fun m s => m.setFld Fld.MEM_CH_STATUS_STATE (32 * s) 0 1) pagedModule).dram
      0x22000 8) || !((List.range 12).foldl (fun m s => m.setFld Fld.MEM_CH_STATUS_STATE (32 * s) 0 1) pagedModule).ownsPage 1
        (entAddr (Mem.read ((List.range 12).foldl (fun m s => m.setFld Fld.MEM_CH_STATUS_STATE (32 * s) 0 1) pagedModule).dram
          0x22000 8) / frameBytes) 3) = false := by decide +kernel
  generalize (List.range 12).foldl (fun m s => m.setFld Fld.MEM_CH_STATUS_STATE (32 * s) 0 1) pagedModule = m at *
  simp [Module.planPages, hl, ho, Module.pickTarget, leafFrames, levelShift, pickFrame_busy hb]

/-- TranslationCommands: a frame of one's own, another's, one that nobody owns and one whose tag is broken; a frame under scrub; an
invalidation of one page and of everything; a root with and without its complement. -/
theorem witness_translation :
    (let m := pagedModule
     [m.mayAct 1 1,
      m.mayAct 0 1,
      m.reg .ERR_INJECT_INV Block.xlt.group == 0,
      tagOk (m.tag 3) && tagAlloc (m.tag 3) && tagTen (m.tag 3) == 1 && tagBase (m.tag 3) == none,
      tagTen ((m.setTag 3 0x8002).tag 3) == 2 && tagOk ((m.setTag 3 0x8002).tag 3) && tagAlloc ((m.setTag 3 0x8002).tag 3),
      tagOk (m.tag 9) && !tagAlloc (m.tag 9),
      !tagOk (({ m with tags := [(9, 0)] } : Module).tag 9),
      (let s := m.setTag 9 0x4000
       tagOk (s.tag 9) && tagScrub (s.tag 9) && !tagAlloc (s.tag 9) && s.patchDue == []),
      !tagScrub (m.tag 9),
      bitsAt (0x0001000500000000 : Word64).toNat 48 16 == 1,
      pairOk (pairWord 5),
      !pairOk (5 : Word64)]).all id = true := by decide +kernel

/-- RandomCommands: KAT_GO with and without GO; a core that runs; the self-test off, and on over a held and an idle tile. -/
theorem witness_random :
    (let on := fun m : Module => m.setFlag Fld.RNG_CTL_SELFTEST_EN 0 0 true
     [(0x80000000 : Word).getLsbD 31,
      !(0x7FFFFFFF : Word).getLsbD 31,
      ({ tenModule with kat := some (1, 2, 3) } : Module).kat == some (1, 2, 3),
      !(tenModule.setFlag Fld.RNG_CTL_SELFTEST_EN 0 0 false).flag Fld.RNG_CTL_SELFTEST_EN,
      (on tenModule).flag Fld.RNG_CTL_SELFTEST_EN,
      (on tenModule).reg .ERR_INJECT_INV Block.rng.group == 0,
      (on (running 0 Tile.reset)).released 0,
      !(on tenModule).released 0,
      tenModule.kat == none && (on tenModule).rngBad == []]).all id = true := by decide +kernel

/-! ## Witnesses: links and collectives -/

/-- LinkFraming: a flit of each kind that passes, one that does not, in order and out of order, on a port that is miswired and one that is not;
a message that passes and one that does not; a receiver in HUNT with two failed frames and with one; a port that is up and one that is not. -/
theorem witness_link_framing :
    (let b := fun (f : BitVec 2048) => leBytes 256 f.toNat
     let took := fun m : Module => let a := m.ackPort 0 0; a.setPort 0 { a.port 0 with rxNext := 1 }
     let wired := linked.setFlag Fld.VIA_PORT_PEER_MISWIRE 0 0 true
     let hunting := fun k : Nat => linked.setPort 0 { Port.reset with hunt := true, failedFrames := k }
     let tunnel := BitVec.ofNat 2048 (fieldAt (flitBytes 0 0 4 0 (syncBytes 5 1 0 0 9 0 0 0)) 0 256)
     let sent := fun k : Nat => linked.setPort 0 { Port.reset with replay := [⟨none, 1, 5, [(k, [1])], 0, false⟩] }
     [linked.linkUp 0,
      !(linked.port 0).hunt,
      [0, 1, 2, 4].all (fun k => fieldAt (b (demoFlit 0 k)) 252 4 == crc32 ((b (demoFlit 0 k)).take 252)
        && fieldAt (b (demoFlit 0 k)) 4 1 == k),
      fieldAt (b (demoFlit 0 1 + 1)) 252 4 != crc32 ((b (demoFlit 0 1 + 1)).take 252),
      BitVec.ofNat 16 (fieldAt (b (demoFlit 0 1)) 0 2) == ((linked.ackPort 0 0).port 0).rxNext,
      BitVec.ofNat 16 (fieldAt (b (demoFlit 7 1)) 0 2) != ((linked.ackPort 0 0).port 0).rxNext,
      !(took linked).flag Fld.VIA_PORT_PEER_MISWIRE 0,
      (took wired).flag Fld.VIA_PORT_PEER_MISWIRE 0 && wired.linkUp 0,
      !syncOk (((b (demoFlit 0 4)).drop 8).take 32),
      syncOk (((b tunnel).drop 8).take 32) && fieldAt (b tunnel) 4 1 == 4
        && fieldAt (b tunnel) 252 4 == crc32 ((b tunnel).take 252) && fieldAt (b tunnel) 0 2 == 0,
      [1, 2].all (fun k => (hunting k).linkUp 0 && ((hunting k).port 0).hunt && ((hunting k).port 0).failedFrames == k),
      [7, 8].all (fun k => (((sent k).releaseAcked 0 0).port 0).exhausted == (k == 8) && (sent k).linkUp 0),
      !tenModule.linkUp 5]).all id = true := by decide +kernel

/-- LinkFraming: what a port sends next, among none, a packet of VC 1, and one of VC 0 or 5 beside it, with and without credits; a frame of
64 flits. -/
theorem witness_port_arbitration :
    (let k := fun (vc n : Nat) => (⟨none, vc, 0, List.replicate n (0, [1]), 0, false⟩ : TxPkt)
     let q := fun (ks sent : List TxPkt) => { Port.reset with waitq := ks, replay := sent }
     [(q [] []).nextTx == none,
      (q [k 1 1] []).nextTx == some (k 1 1),
      (q [k 1 1, k 0 1] []).nextTx == some (k 0 1),
      (q [k 1 1, k 0 1, k 5 1] []).nextTx == some (k 5 1),
      (q [k 1 1] [k 1 (vcCredits 1)]).nextTx == none && (q [k 1 1] [k 1 (vcCredits 1)]).heads == [k 1 1],
      (q [k 1 1, k 5 1] [k 5 (vcCredits 5)]).nextTx == some (k 1 1),
      (q [k 1 1, k 0 1] [k 0 (vcCredits 0)]).nextTx == some (k 1 1),
      [0, 63].all (fun n => ({ Port.reset with frameAt := n } : Port).frameAt == n),
      (List.replicate frameFlits (flitBytes 0 0 0 0 [])).all (fun f => f.length == 256)]).all id = true := by decide +kernel

/-- PortStates: a lane that fails, and one that has; a retrain that is due and one that is not; a port in training before its first and its
third failure, and one whose lanes no longer suffice; a port that comes up at each version, and one whose lanes do not suffice; one
DISABLED; lane counts that spares restore. -/
theorem witness_port_states :
    (let m := linked
     let training := (m.setFld Fld.VIA_PORT_STATUS_STATE 0 0 portState.training)
     let after := (training.setFld Fld.VIA_PORT_STATUS_RETRAIN_FAILS 0 0 0)
     let broken := training.setPort 0 { Port.reset with newFail := List.range 30 }
     let down := tenModule.setFld Fld.VIA_PORT_STATUS_STATE 0 0 portState.down
     let up := fun (q : Port) (max vlp : Nat) =>
       let d := down.setFld Fld.VIA_PORT_CTL_VLP_MAX 0 0 max
       let m := (d.setPort 0 { Port.reset with newFail := q.newFail }).sendLinkFlit 0 (.offer (vlpOffer max) max)
       ((m.setFld Fld.VIA_PORT_STATUS_RETRAIN_FAILS 0 0 0).applyLanes 0 vlp).linkUp 0
     [(m.port 0).newFail == [],
      !(m.reg .VIA_PORT_LANES 0).getLsbD 43,
      ((m.setReg .VIA_PORT_LANES 0 0 (2 ^ 43)).reg .VIA_PORT_LANES 0).getLsbD 43,
      ((m.setPort 0 { Port.reset with due := true }).port 0).due,
      !(m.port 0).due,
      m.linkUp 0,
      training.portStateOf 0 == portState.training,
      (after.applyLanes 0 (after.fld Fld.VIA_PORT_STATUS_VLP 0)).linkUp 0,
      !(broken.applyLanes 0 (broken.fld Fld.VIA_PORT_STATUS_VLP 0)).linkUp 0,
      (training.setFld Fld.VIA_PORT_STATUS_RETRAIN_FAILS 0 0 2).fld Fld.VIA_PORT_STATUS_RETRAIN_FAILS 0 == 2,
      after.fld Fld.VIA_PORT_STATUS_RETRAIN_FAILS 0 == 0,
      m.portStateOf 0 != portState.training,
      down.portStateOf 0 == portState.down,
      decide (vlpOffer 2 < 0x22) && decide (vlpOffer 3 < 0x22),
      decide (0x22 ≤ vlpOffer 1) && decide (vlpOffer 1 < 0x30) && up Port.reset 1 0x22,
      decide (0x30 ≤ vlpOffer 0) && up Port.reset 0 0x30,
      !up { Port.reset with newFail := List.range 30 } 0 0x30,
      m.portStateOf 0 != portState.disabled,
      (m.setFld Fld.VIA_PORT_STATUS_STATE 0 0 portState.disabled).portStateOf 0 == portState.disabled,
      decide (((List.range 40).filter ([7, 9] : List Nat).contains).length ≤ ([42, 43].filter (fun l => !([7, 9] : List Nat).contains l)).length)]).all id
      = true := by decide +kernel

/-- LinkPackets: a packet for another module, at its hop limit and below, and one for this, with a job registered, one that is not and none at
all; a registration with a broken pair, of job 0, of a job taken, and of a free one; a miswired peer, and one that agrees and one that
does not, before and after discovery; a good copy on each lane and on neither. -/
theorem witness_link_packets :
    (let m := linked
     let done := m.setFlag Fld.VIA_DISC_STATUS_DONE 0 0 true
     let holds := fun d : BitVec 13 => done.setPort 0 { Port.reset with rxq := [(0, demoPkt d 1 0 [])] }
     let good := syncBytes 5 1 0 0 9 0 0 0
     let bad := List.replicate 32 (0 : Byte)
     let value := fun b : List Byte => leBytes 32 (BitVec.ofNat 256 (fieldAt b 0 32)).toNat
     let peered := (done.setReg .VIA_PORT_PEER 0 0 0x8000000000000000).drawn
     [((holds 9).port 0).rxq.find? (fun x => !(holds 9).isSelf x.2.dst) == some (0, demoPkt 9 1 0 []),
      decide ((holds 9).fld Fld.VIA_ROUTE_CTL_HOP_LIMIT ≤ ({ demoPkt 9 1 0 [] with hops := 255 } : Packet).hops.toNat),
      ((holds 0).port 0).rxq.find? (fun x => (holds 0).isSelf x.2.dst) == some (0, demoPkt 0 1 0 []),
      (m.port 0).rxq.find? (fun x => m.isSelf x.2.dst) == none,
      m.jobEntry 5 == some (1, true) && m.jobEntry 6 == none && (m.setReg .VIA_JOB 1 0 (2 ^ 31 + 5)).jobEntry 5 == some (1, false),
      !pairOk (5 : Word64),
      pairOk (pairWord (2 ^ 31)) && (pairWord (2 ^ 31)).getLsbD 31 && bitsAt (pairWord (2 ^ 31)).toNat 0 24 == 0,
      pairOk (pairWord (2 ^ 31 + 5)) && m.flag Fld.VIA_JOB_VALID 1 && m.fld Fld.VIA_JOB_JOB_ID 1 == 5,
      (m.jobOf 2).isNone,
      m.linkUp 0,
      !m.flag Fld.VIA_DISC_STATUS_DONE,
      peered.flag Fld.VIA_DISC_STATUS_DONE,
      [0, 1, 2].all (fun d => peered.coord d == 0),
      peered.stepFrom 0 0 1 == 0 && peered.stepFrom 0 1 0 == 0 && peered.stepFrom 0 2 0 == 0,
      peered.stepFrom 0 1 1 != 0,
      m.portUp 0,
      m.fld Fld.VIA_PORT_STATUS_SYNC_LANES 0 != 0,
      syncOk (value good),
      syncOk (value bad) == false,
      decide ((demoPkt 0 1 0 []).payload.length < 2 ^ 32)]).all id = true := by decide +kernel

/-- CollectiveCommands: a single instance with and without room and frames, alone and with another member; a slot to bind; a slot to give up
that is not there, one that is, one that an instance uses and one that is being given up. -/
theorem witness_collective_commands :
    (let m := ({ twoPages with routes := [(0, demoRoute)] } : Module).setFld Fld.COL_TEN_LIMITS_INFLIGHT_MAX 1 0 1
     let m := m.setFld Fld.COL_TEN_LIMITS_BOUND_MAX 1 0 1
     let full := (m.setFld Fld.COL_TEN_LIMITS_INFLIGHT_MAX 1 0 0).setFld Fld.COL_TEN_LIMITS_BOUND_MAX 1 0 0
     let wide := (m.setFld Fld.VIA_DISC_CTL_DIM_X_M1 0 0 1).setReg .VIA_JOB 1 0 (pairWord (2 ^ 31 + 5))
     let c := colCmd
     let pair := fun mode : Nat => { c mode with desc := putAt (c mode).desc 16 (leBytes 4 (2 ^ 31 + 16)) }
     let x := (c 0).colSpec
     let slot : BoundSlot := ⟨x, none, 0, 0, 0, 0, [], none, none, none, [], []⟩
     let inst : Inst := ⟨1, none, some 3, 0, x, true, true, [], [], none, []⟩
     let checked := fun (m : Module) (c : Cmd) (bind : Bool) => match ((taking m c).begun 0 c).colCheck c bind with
       | (.ok y, m1) => y == c.colSpec && m1.insts == [] && m1.slots == [] && m1.allocFrames 1 1 == none
       | (.error _, _) => false
     let bound := fun (m : Module) (b : BoundSlot) => ready (taking (m.putSlot 1 3 b) (c 2)) 0x30 (c 2)
       && ((taking (m.putSlot 1 3 b) (c 2)).begun 0 (c 2)).slot? 1 3 == some b
     [ready (taking m (c 0)) 0x30 (c 0),
      ready (taking full (c 0)) 0x30 (c 0),
      ready (taking m (c 3)) 0x30 (c 3) && (c 3).field 8 1 == 3,
      checked m (c 0) false,
      checked full (c 0) false,
      m.inflightCols 1 == 0 && m.recvFrames x == 1 && m.keepFrames x == 1,
      m.fld Fld.COL_TEN_LIMITS_INFLIGHT_MAX 1 == 1,
      full.fld Fld.COL_TEN_LIMITS_INFLIGHT_MAX 1 == 0 && full.fld Fld.COL_TEN_LIMITS_BOUND_MAX 1 == 0,
      m.subSize x == 1,
      ready (taking wide (pair 0)) 0x30 (pair 0) && checked wide (pair 0) false && wide.subSize (pair 0).colSpec == 2,
      ready (taking wide (pair 1)) 0x30 (pair 1) && checked wide (pair 1) true,
      (let m' := m.setFld Fld.VIA_DISC_CTL_DIM_X_M1 0 0 0
       match ((taking m' (pair 0)).begun 0 (pair 0)).colCheck (pair 0) false with
        | (.ok _, _) => false
        | (.error _, _) => ready (taking m' (pair 0)) 0x30 (pair 0)),
      ready (taking m (c 1)) 0x30 (c 1),
      ready (taking tenModule (c 1)) 0x30 (c 1) && !checked tenModule (c 1) true,
      checked m (c 1) true,
      checked full (c 1) true,
      m.boundSlots 1 == 0,
      m.fld Fld.COL_TEN_LIMITS_BOUND_MAX 1 == 1,
      ready (taking m (c 2)) 0x30 (c 2),
      (m.slot? 1 3).isNone,
      (let k := { c 2 with desc := putAt (c 2).desc 14 [0, 1] }
       ready (taking m k) 0x30 k && k.field 14 2 == 256),
      bound m slot && m.insts == [],
      bound { m with insts := [inst] } slot,
      bound m { slot with unbind := some 7 }]).all id = true := by decide +kernel

/-- The command below passes its checks, and its receive space is one frame that the tenancy may have. -/
def affordable : Bool :=
  let m := ({ twoPages with routes := [(0, demoRoute)] } : Module).setReg .TEN_DRAM 1 0 (pairWord 16)
  match ((taking m (colCmd 0)).begun 0 (colCmd 0)).colCheck (colCmd 0) false with
  | (.ok x, m) =>
    m.recvFrames x == 1 && m.quotaLeft 1 != 0
      && (firstFrom (fun f => m.frameFree f && !m.stackBusy (m.nextStack % 12) && f % 12 == m.nextStack % 12) 12 524288
        (m.nextStack % 12)).isSome
  | (.error _, _) => false

/-- CollectiveCommands: a single instance that gets its receive space. -/
theorem witness_collective_frames :
    ∃ m x m1 fs m2, ((taking m (colCmd 0)).begun 0 (colCmd 0)).colCheck (colCmd 0) false = (.ok x, m1)
      ∧ m1.allocFrames 1 (m1.recvFrames x) = some (fs, m2) := by
  have h : affordable = true := by decide +kernel
  unfold affordable at h
  simp only at h
  split at h
  · rename_i x m1 hr
    simp only [Bool.and_eq_true, beq_iff_eq, bne_iff_ne, ne_eq] at h
    have hs := allocFrames_one (allocFrame_isSome h.1.2 h.2)
    rw [Option.isSome_iff_exists] at hs
    obtain ⟨⟨fs, m2⟩, hf⟩ := hs
    exact ⟨_, x, m1, fs, m2, hr, by rw [h.1.1]; exact hf⟩
  · exact absurd h (by simp)

/-- CollectiveProgress: an operation of each kind that is complete, and none; what each of them completes; a step that is due, a re-run, one
that is not due and one whose space is in use. -/
theorem witness_group_ops :
    (let x := (colCmd 0).colSpec
     let m := twoPages
     let op := fun k : Nat => (⟨1, 0, k, 9, 0, some 1, 3, 1, []⟩ : GroupOp)
     let slot : BoundSlot := ⟨x, none, 0, 0, 0, 0, [4], some 2, some 2, none, [], []⟩
     let waits : BoundSlot := { slot with cmd := some 0 }
     let done := fun (m : Module) (o : GroupOp) =>
       let a := ({ m with groupOps := [o] } : Module).putOp o
       (({ a with groupOps := a.groupOps.filter (fun y => !o.same y) } : Module).addFld Fld.SYN_GROUP_OPS_COUNT 0 0).countOps o.ten
     let a := done ({ m with cmds := [(0, colCmd 1)] }.putSlot 1 3 waits) (op 1)
     let swap : WSwap := { demoSwap with version := 9, proposal := some 3 }
     let on := fun b : BoundSlot => m.putSlot 1 3 b
     let inst : Inst := ⟨1, none, some 3, 2, x, true, true, [], [], none, []⟩
     let gives := fun b : BoundSlot =>
       ((on b).putSlot 1 3 { b with due := b.due.erase 4, last := some 4, high := some 4 }).readSrc 1 x 0 (x.srcBytes (m.subSize x))
     [[1, 2, 3].all (fun k => (({ m with groupOps := [op k] } : Module).groupOps[0]? == some (op k)) && (op k).own.isSome),
      (({ m with groupOps := [] } : Module).groupOps[0]?).isNone,
      (a.namedBarrier (op 1)).isNone && (a.insts.find? (fun (y : Inst) => y.ten == 1 && y.cmd.isSome && !y.sent && y.spec.name == 9
        && a.subBox y.spec == 0)).isNone && a.cmd 0 == some (colCmd 1),
      a.slots.find? (fun (p : Nat × BoundSlot) => p.1 / 256 == 1 && p.2.cmd.isSome && p.2.spec.name == 9 && a.subBox p.2.spec == 0)
        == some (slotKey 1 3, waits),
      ({ m with weights := [(1, { demoRec with travel := some swap })] } : Module).wrec 1 == some { demoRec with travel := some swap }
        && swap.front == none && swap.version.toNat == 9 && swap.group == 0,
      m.insts == [] && m.slots == [],
      (m.slot? 1 3).isNone,
      (on slot).slot? 1 3 == some slot,
      ({ slot with due := [2] } : BoundSlot).due.contains 2 && ({ slot with due := [2] } : BoundSlot).high == some 2,
      !slot.due.contains 3,
      ({ on slot with insts := [inst] } : Module).insts.any (fun y => y.ten == 1 && y.slot == some 3 && y.started
        && y.step.toNat % 2 == (4 : Word64).toNat % 2),
      (gives slot).1.isOk && x.group == 0,
      ({ slot with high := none } : BoundSlot).high == none]).all id = true := by decide +kernel

/-- CollectiveProgress: a chunk for no instance, one whose CRC fails, the first time and again, with resending on and off, one whose DIGEST
disagrees, a duplicate, one that overflows and a new one; an answer that a contribution is lost; a request for no instance and one that
is served, from the source and from what is retained, and one that is not; an instance with and without its inputs, whose destination
is written or not, of a command and of a slot; the time-out on and off; combining. -/
theorem witness_collective_progress :
    (let x := (colCmd 0).colSpec
     let i : Inst := ⟨1, some 0, none, 0, x, true, true, [], [], none, []⟩
     let data : List Byte := [1, 2, 3, 4]
     let whole : Inst := { i with got := [⟨0, 0, 0, data⟩] }
     let head := leBytes 4 9 ++ leBytes 4 0 ++ leBytes 4 0 ++ leBytes 2 0 ++ leBytes 2 0
     let chunkOn := fun (head data : List Byte) (digest : Nat) =>
       demoPkt 0 2 (BitVec.ofNat 128 (fieldAt head 0 16)) (data ++ (leBytes 4 digest ++ leBytes 4 0)
         ++ leBytes 4 (crc32c (data ++ head ++ (leBytes 4 digest ++ leBytes 4 0))))
     let chunk := chunkOn head data
     let broken := demoPkt 0 2 (BitVec.ofNat 128 (fieldAt head 0 16)) (data ++ List.replicate 12 0)
     let v := { x with op := 4, sizes := [(0, 4, 0, 4)] }
     let vary : Inst := { i with spec := v }
     let long := chunkOn head (List.replicate 64 0) v.digest
     let filled := fun m : Module => ({ m with dram := Mem.setBytes m.dram 0x30100 data } : Module)
     let word := fun offset : Nat => demoPkt 0 2 (BitVec.ofNat 128 (fieldAt (leBytes 4 9 ++ leBytes 4 0 ++ leBytes 4 offset ++ leBytes 4 0) 0 16)) []
     let asks := word offsetAll
     let lost := word offsetLost
     let m := twoPages.setReg .VIA_JOB 1 0 (pairWord (2 ^ 31 + 5))
     let has := fun (i : List Inst) (ks : List Packet) => ({ m with insts := i, inbox := ks.map (fun k => (1, k)) } : Module)
     let slot : BoundSlot := ⟨x, none, 0, 0, 0, 0, [4], some 2, some 2, none, [], []⟩
     let bound : Inst := { whole with cmd := none, slot := some 3 }
     let runs := [(0, data)]
     let taken := fun k : Packet => (has [i] [k]).inbox.find? (fun (e : Ten × Packet) => e.2 == k && k.kind.toNat == 2) == some (1, k) && k.kind == 2
     [m.insts == [],
      (has [] [chunk 0]).findInst 1 0 (chunkOf (chunk 0)) == none,
      [0, x.digest].all (fun d => taken (chunk d) && hasData (chunk d)
        && (has [i] []).findInst 1 0 (chunkOf (chunk d)) == some i && (chunkOf (chunk d)).crcOk
        && (chunkOf (chunk d)).digest == d && !i.holds (chunkOf (chunk d)) && !i.overflows (chunkOf (chunk d))),
      x.digest != 0,
      taken broken && hasData broken && !(chunkOf broken).crcOk && (has [i] []).findInst 1 0 (chunkOf broken) == some i && i.asked == [],
      (let b := chunkOf broken
       ({ i with asked := [(b.first, b.last, b.offset)] } : Inst).asked.contains (b.first, b.last, b.offset)),
      [true, false].all (fun e => (m.setFlag Fld.COL_CTL_RESEND_EN 0 0 e).flag Fld.COL_CTL_RESEND_EN == e),
      (has [whole] []).findInst 1 0 (chunkOf (chunk x.digest)) == some whole && whole.holds (chunkOf (chunk x.digest)),
      taken long && (chunkOf long).crcOk && (chunkOf long).digest == v.digest && !vary.holds (chunkOf long) && vary.overflows (chunkOf long)
        && (has [vary] []).findInst 1 0 (chunkOf long) == some vary,
      m.reg .ERR_INJECT_INV Block.col.group == 0,
      taken lost && !hasData lost && (chunkOf lost).offset == offsetLost && (has [] []).findInst 1 0 (chunkOf lost) == none
        && (has [i] []).findInst 1 0 (chunkOf lost) == some i,
      taken asks && !hasData asks && (chunkOf asks).offset != offsetLost && (chunkOf asks).offset == offsetAll,
      (has [] []).askedInst 1 0 (chunkOf asks) == none,
      (has [i] []).askedInst 1 0 (chunkOf asks) == some i,
      ((has [i] []).serveImage 1 i).1 == some [0, 0, 0, 0],
      (((has [bound] []).putSlot 1 3 { slot with retained := [(0, data)] }).serveImage 1 bound).1 == some data,
      (((has [bound] []).putSlot 1 3 slot).serveImage 1 bound).1 == none,
      ({ i with started := false } : Inst).started == false,
      i.spec.result ((has [i] []).subSize x) i.got == none,
      whole.spec.result ((has [whole] []).subSize x) whole.got == some runs && !(filled (has [whole] [])).colUndefined whole,
      (match ((has [whole] []).writeRuns 1 x runs) with
       | (.ok _, k) => k.cmds == []
       | (.error _, _) => false),
      (match ((has [whole] []).writeRuns 1 { x with dst := 0x30000 } runs).1 with
       | .ok _ => false
       | .error _ => true),
      ({ has [whole] [] with cmds := [(0, colCmd 0)] } : Module).cmd 0 == some (colCmd 0),
      ((has [bound] []).putSlot 1 3 slot).slot? 1 3 == some slot && bound.cmd == none,
      (m.setFld Fld.COL_TIMEOUT_US 0 0 5).fld Fld.COL_TIMEOUT_US == 5,
      (m.setFld Fld.COL_TIMEOUT_US 0 0 0).fld Fld.COL_TIMEOUT_US == 0,
      (x.fmt.decode 2).max (x.fmt.decode 1) == x.fmt.decode 2 && (x.fmt.decode 1).min (x.fmt.decode 2) == x.fmt.decode 1,
      x.fmt.decode 2 != Ex.nan,
      (let e := { x with format := 3 }
       (e.fmt.decode 0x7F).max (e.fmt.decode 0) == Ex.nan)]).all id
      = true := by decide +kernel

/-! ## Witnesses: rings, commands and tenancies -/

/-- HostRings: a function whose request was refused (R352). -/
theorem witness_hcp_refused :
    (Module.reset.setReg .HIF_HCP_VER 3 0 (BitVec.ofNat 64 (2 ^ 17))).reg .HIF_HCP_VER 3 = BitVec.ofNat 64 (2 ^ 17) := by decide

/-- HostRings: a function without a tenancy, a ring outside the range, and a ring inside it that is enabled or not; an index in range and
past it; a context that may be enabled and one that may not; a ring that may be disabled and one that serves another; versions. -/
theorem witness_host_rings :
    (let m := ringed ringType.command (List.replicate 64 0)
     let sel := fun (i : Nat) (m : Module) => m.setFld Fld.QUE_RING_SEL_RING 1 0 i
     let clean := sel 2 m
     let v := fun ty : Nat => BitVec.ofNat 64 (enableBit + ty * 2 ^ 57 + 4 * 2 ^ 52)
     let stored := fun ty : Nat => clean.storeFields .QUE_RING_CFG 12 0 ((2 ^ 64 - 1) &&& (enableBit - 1)) (v ty).toNat
     let f0 := fun (_ : Nat) => (m.setFlag Fld.QUE_RING_CFG_ENABLE 12 0 true : Module)
     let broken := m.setReg .TEN_RINGS 1 0 1
     [m.tenOf 5 == none,
      m.tenOf 1 == some 1,
      m.fld Fld.TEN_RINGS_RING_COUNT 1 == 4,
      m.globalRing 1 0 == 10,
      m.ringEnabled 10 && m.ringState 10 != 2,
      !m.ringEnabled 12,
      (m.useEntry 1).1,
      hostProduced (m.ringType 10),
      decide (diff32 16 (m.ringHead 10) ≤ m.ringSize 10),
      decide (m.ringSize 10 < diff32 17 (m.ringHead 10)),
      clean.ownRing 1 == some 12,
      !clean.ringEnabled 12,
      ((v 2).toNat &&& enableBit) != 0,
      [2, 9].all (fun ty => ((stored ty).useEntry ((stored ty).ringOwner 12)).1),
      ((stored 2).useEntry 1).2.ringOk 1 1 12,
      !((stored 9).useEntry 1).2.ringOk 1 1 12,
      (sel 0 m).ownRing 1 == some 10 && m.mayDisable 10,
      (sel 1 m).ownRing 1 == some 11 && !m.mayDisable 11 && m.ringEnabled 11,
      (f0 12).tenOf 0 == some 0 && (f0 12).ringEnabled ((f0 12).globalRing 0 12) && (f0 12).ringOwner 12 != house,
      !hostProduced (m.ringType 11) && decide (diff32 0 (m.ringHead 11) ≤ diff32 (m.ringTail 11) (m.ringHead 11)),
      (m.useEntry 1).2.freeCaravan == some 0 && (stored ringType.caravan).ringType 12 == ringType.caravan,
      !(broken.useEntry 1).1,
      !m.ringsOn 0,
      m.ringsOn 1,
      m.board.boot == 6 && !m.board.refclkLost && (booted 3).board.boot == 3,
      decide (m.fld Fld.PWR_STATUS_STATE ≤ 1),
      decide (1 < (m.setFld Fld.PWR_STATUS_STATE 0 0 2).fld Fld.PWR_STATUS_STATE)]).all id = true := by decide +kernel

/-- CommandExecution: a killed command that goes first; an entry to take; each phase of a command; a FENCE that waits and one that does not;
TIMESTAMP; an abort of each phase; a tenancy to suspend and to resume; a time-out of each kind. -/
theorem witness_command_execution :
    (let m := ringed ringType.command (List.replicate 64 0)
     let at' := fun (op : Nat) (p : CmdPhase) => ({ cmdOf op [] with phase := p, ring := 10 } : Cmd)
     let has := fun c : Cmd => ({ m with cmds := [(4, c)] } : Module)
     let fence := { cmdOf 0x40 [0] with seq := 5, ring := 10 }
     let behind := taking m fence
     let two : Module := { behind with cmds := behind.cmds ++ [(9, { at' 0x41 .started with seq := 3 })] }
     let quiet := { m with cmds := [] }
     [(has (at' 0x41 .requeued)).requeuedOf 10 == some (4, at' 0x41 .requeued),
      m.takes 1,
      m.slotFree 1,
      !({ m with cmds := (List.range 600).map (fun k => (k, at' 0x41 .started)) } : Module).slotFree 1,
      (m.requeuedOf 10).isNone,
      !((m.setFld Fld.QUE_RING_PTRS_TAIL 10 0 0).useEntry 1).2.mayServe ringType.command 1 10,
      m.ringOwner 10 == 1,
      (m.useEntry 1).1,
      ((m.useEntry 1).2.takeEntry ringType.command 1 10).1 == some (0, List.replicate 64 0),
      m.pairOf 10 != 10,
      (has (at' 0x41 (.done 0 0))).cmd 4 == some (at' 0x41 (.done 0 0)),
      [CmdPhase.started, .committed, .requeued].all (fun p => (has (at' 0x41 p)).cmd 4 == some (at' 0x41 p)),
      (let c := { cmdOf 0x41 [] with comp := none }
       (taking m { c with desc := putAt c.desc 0 [0xEE] }).canStart c
         && ((taking m { c with desc := putAt c.desc 0 [0xEE] }).headerStatus { c with desc := putAt c.desc 0 [0xEE] }).isSome
         && c.comp == none),
      (let c := { at' 0x41 (.done 0 0) with comp := some 11 }
       (has c).ringState 11 != 2 && bitsAt (c.field 1 1) 0 1 == 0
         && ((has c).postEntry 11 (completionRecord (c.field 4 4) 0 c.op ((has c).localRing c.ring) 0)).ringState 11 != 2
         && (m.setFld Fld.QUE_RING_CFG_STATE 11 0 2).ringState 11 == 2),
      ready (taking m { fence with desc := putAt fence.desc 8 [2] }) 0x40 { fence with desc := putAt fence.desc 8 [2] },
      (at' 0x41 .taken).mayKill,
      !(at' 0x02 .started).mayKill,
      ready behind 0x40 fence && decide (fence.field 8 1 ≤ 1),
      ((behind.begun 0 fence).commitCmd 0).fencePassed { fence with phase := .committed },
      ready two 0x40 fence,
      !((two.begun 0 fence).commitCmd 0).fencePassed { fence with phase := .committed },
      (let c := { cmdOf 0x41 [] with ring := 10 }
       ready (taking m c) 0x41 c),
      [0, 1].all (fun f => m.mayAct f 1),
      m.ringOwner (m.globalRing 1 0) == 1,
      [CmdPhase.requeued, .taken, .committed].all (fun p => (has (at' 0x41 p)).cmds.find? (fun q =>
       q.2.ring == 10 && q.2.field 4 4 == 0 && !q.2.ended) == some (4, at' 0x41 p)),
      !m.active 2,
      quiet.active 1 && quiet.fld Fld.QUE_TEN_STATE_STATE 1 == 0 && quiet.routesOf 1 == [] && quiet.channelsOf 1 == []
        && !quiet.resumeDue.contains 1,
      [1, 2].all (fun k => (quiet.setFld Fld.QUE_TEN_STATE_STATE 1 0 k).fld Fld.QUE_TEN_STATE_STATE 1 == k),
      (m.cmd 4).isNone,
      (at' 0x10 .started).inExec && (at' 0x10 .started).op == 0x10 && (at' 0x10 .started).readsSource,
      [0x01, 0x13, 0x50, 0x03, 0x40, 0x41].all (fun k => (at' k .started).inExec && (at' k .started).op == k),
      !(at' 0x01 .started).readsSource || !(at' 0x01 .taken).readsSource,
      !(at' 0x10 .taken).inExec]).all id = true := by decide +kernel

/-- TenanciesAndLedger: the block busy; a creation that fails, one that completes and one that waits for entropy; a tenancy to reset; a
scrub that ends; a grant write that is refused, one whose pair is broken and one that is stored; a grant pending; the end of a
ledger interval; a record that has room and one that has no ring. -/
theorem witness_tenancies :
    (let m := tenModule
     let good := m.setReg .TEN_GRANT 2 0 (pairWord (5 * 256 + 1))
     let m1 := (((good.setFld Fld.TEN_CMD_STATUS_TENANCY 0 0 2).setTenState 2 1).setBusy.fitClusters 2).fitHold 2
     let ring := ((((awakeModule.setFlag Fld.QUE_RING_CFG_ENABLE 3 0 true).setFld Fld.QUE_RING_CFG_TYPE 3 0 ringType.ledger).setFld
       Fld.LDG_RING_RING 0 0 3).setFlag Fld.LDG_RING_VALID 0 0 true).setFld Fld.QUE_RING_BASE_VA 3 0 0x100000
     let row : LedgerRow := ⟨0, false, false, false, false, 0, [], 0⟩
     let waits : Module := { ring with ledgerQueue := [row] }
     let scrub : Module := { m with scrubbing := [1] }
     let now := fun s : Nat => ({ m.setFld Fld.RTC_SECONDS_SECONDS 0 0 s with ledgers := [(0, ⟨0, false, 0, 0, 0, 0, 0⟩)] } : Module)
     let latTol := (m.setReg .TEN_LAT_TOL 1 0 (pairWord 3))
     [(m.setBusy).flag Fld.TEN_CMD_STATUS_BUSY,
      (m.setReg .TEN_GRANT 2 0 (5 * 256 + 1)).createFails 2 == some 7,
      m.board.boot == 6 && (booted 2).board.boot == 2 && ({ m with creating := some 2 } : Module).creating == some 2,
      latTol.active 1 && !latTol.grantRefused .TEN_GRANT 1 (pairWord 1).toNat && latTol.reg .TEN_GRANT 1 != RegId.TEN_GRANT.pairValue (pairWord 1),
      (m.useEntry 1).1 && pairOk (5 + (2 ^ 32 - 1 - 5) * 2 ^ 32 : Word64),
      m.tenOf 9 == none,
      !m.flag Fld.TEN_CMD_STATUS_BUSY,
      m.createFails 1 == some 1,
      (good.setFld Fld.TEN_CMD_STATUS_TENANCY 0 0 2).createFails 2 == none,
      good.createFails 2 == none,
      [true, false].all (fun h => (m1.setFlag Fld.RNG_ENTROPY_STATUS_HEALTHY 0 0 h).flag Fld.RNG_ENTROPY_STATUS_HEALTHY == h),
      !m.active 2,
      (m.setFld Fld.TEN_CMD_STATUS_TENANCY 0 0 1).active 1,
      m.creating == none,
      scrub.scrubbing.contains 1 && scrub.routesOf 1 == [],
      !m.scrubbing.contains 1,
      ((m.setFld Fld.TEN_CMD_STATUS_TENANCY 0 0 2).setBusy).grantRefused .TEN_HOLD 2 0,
      !pairOk (0 : Word64) && grantRegs.contains .TEN_HOLD && grantRegs.contains .TEN_GRANT,
      !m.grantRefused .TEN_HOLD 2 (pairWord 9).toNat && pairOk (pairWord 9),
      m.active 1,
      (m.setFlag Fld.TEN_STATUS_GRANT_PENDING 1 0 true).flag Fld.TEN_STATUS_GRANT_PENDING 1,
      !m.flag Fld.TEN_STATUS_GRANT_PENDING 1,
      m.tenOf 1 == some 1,
      [59, 60].all (fun s => (now s).fld Fld.RTC_SECONDS_SECONDS == s && (Map.get? (now s).ledgers 0).isSome && (now s).ledgerLen == 60),
      waits.ledgerRing == some 3,
      (waits.postEntry 3 row.bytes).ledgerCarry == [],
      (waits.postEntry 3 row.bytes).ringState 3 != 2,
      (m.ledgerRing).isNone && m.ledgerCarry == []]).all id = true := by decide +kernel

/-! ## Witnesses: ferries, integrity and checkpoints -/

/-- Ferries: a descriptor to take that passes, one that does not and one that is remote; a descriptor that ends; each action in a state that
admits it; a time-out; a remote write and read that are served and that fail; each answer to an outstanding chunk. -/
theorem witness_ferries :
    (let d := fillDesc 0 16 0x20
     let take := fun d : List Byte => ferried (ringed ringType.ferry d) chIdle .idle
     let took := fun d : List Byte => (take d).takeEntry ringType.ferry 1 10
     let runs := ferried (ringed ringType.ferry []) chRunning { Ferry.idle with entry := some d, paid := true }
     let done := runs.driveFerry 5 true
     let out := fun (flags : Nat) => ({ Ferry.idle with entry := some (fillDesc flags 16 0x20), paid := true, opened := [0] } : Ferry)
     let waits := fun (flags : Nat) (k : Packet) =>
       ({ ferried (ringed ringType.ferry []) chRunning (out flags) with inbox := [(1, k)] } : Module).setReg .VIA_JOB 1 0 (pairWord (2 ^ 31 + 5))
     let pkt := fun (op addr : Nat) => demoPkt 0 1 (BitVec.ofNat 128 (memSpec op st.busError 5 0 false addr)) (leBytes 4 16)
     let wrote := fun a : Nat => match ((waits 0 (pkt 0 a)).writeVA .dma 1 (mp.addr (pkt 0 a)) (pkt 0 a).payload).1 with
       | .ok _ => true
       | .error _ => false
     let full := ferried (ringed ringType.ferry []) chRunning { out 24 with acked := [] }
     [(take d).flag Fld.DMA_CH_CFG_VALID 5,
      !tenModule.flag Fld.DMA_CH_CFG_VALID 5 && (tenModule.ferry 5).entry == none,
      ((ferried (ringed ringType.ferry []) chPaused .idle).chState 5 == chPaused) && ((take d).setChState 5 chHalted).chState 5 == chHalted,
      (((take d).setFld Fld.QUE_RING_PTRS_TAIL 10 0 0).takeEntry ringType.ferry 1 10).1 == none,
      (full.ferry 5).opened == [0] && (runs.ferry 5).opened == [] && runs.fld Fld.QUE_TEN_STATE_STATE 1 != 1,
      (take d).chRing 5 == 10 && (take d).chTen 5 == 1 && (take d).chState 5 == chIdle && ((take d).ferry 5).entry.isNone,
      (took d).1 == some (0, d),
      fd.ok d && !fd.remote d,
      (took (fillDesc 0 0 0)).1 == some (0, fillDesc 0 0 0) && !fd.ok (fillDesc 0 0 0),
      (took (fillDesc 16 16 0)).1 == some (0, fillDesc 16 16 0) && fd.ok (fillDesc 16 16 0) && fd.remote (fillDesc 16 16 0),
      ((took (fillDesc 16 16 0)).2.jobOf 1).isNone,
      (runs.ferry 5).entry == some d && runs.chState 5 == chRunning,
      done.chState 5 != chHalted && (done.ferry 5).paid && done.ferryOver 5 d && !(done.ferry 5).draining,
      [0, 1].all (fun f => runs.mayAct f (runs.chTen 5)),
      [chHalted, chPaused].all (fun s => (ferried runs s (out 0)).chState 5 == s),
      (ferried runs chRunning (out 0)).fld Fld.DMA_TIMEOUT_US != 0 && ((ferried runs chRunning (out 0)).ferry 5).opened == [0],
      (waits 0 (pkt 0 0x40)).inbox.find? (fun (e : Ten × Packet) => e.2 == pkt 0 0x40 && (pkt 0 0x40).kind.toNat == 1) == some (1, pkt 0 0x40),
      [0, 1, 2, 3, 4].all (fun k => mp.op (pkt k 0x40) == k && !mp.hold (pkt k 0x40) && (pkt k 0x40).kind == 1),
      wrote 0x40,
      !wrote 0x50000,
      (readOf ((waits 0 (pkt 1 0x40)).readVA .dma 1 (mp.addr (pkt 1 0x40)) 16)).isSome,
      (readOf ((waits 0 (pkt 1 0x50000)).readVA .dma 1 (mp.addr (pkt 1 0x50000)) 16)).isNone,
      [8, 16].all (fun fl => let m := waits fl (pkt 2 0x40)
                             (m.ferry (mp.ch (pkt 2 0x40))).entry == some (fillDesc fl 16 0x20) && m.flag Fld.DMA_CH_CFG_VALID 5
                               && m.chTen 5 == 1 && (m.ferry 5).opened.contains (mp.chunk (pkt 2 0x40)) && fd.remote (fillDesc fl 16 0x20)),
      !fd.remoteSrc (fillDesc 16 16 0x20),
      mp.status (pkt 4 0x40) == st.busError]).all id = true := by decide +kernel

/-- Integrity: a trip in force and none; a tenancy with and without a loaded route; a signature to pop; a pack that cannot be read, one of
another version, one that is malformed and one that runs. -/
theorem witness_integrity :
    (let trip := ({ awakeModule with board := { awakeModule.board with tripped := true } } : Module).raise Kind.PWR_TRIP 0 0
     let at' := fun b : List Byte => tenModule.setHost 0x1000 b
     let c := fun b : List Byte => houseCmd 0x50 (leBytes 8 0x1000 ++ leBytes 4 b.length ++ [0, 0] ++ leBytes 2 1 ++ leBytes 8 0x8000
       ++ leBytes 4 4)
     let runs := fun b : List Byte => ready (taking (at' b) (c b)) 0x50 (c b)
       && readOf ((((taking (at' b) (c b)).begun 0 (c b)).commitCmd 0).readVA .int 0 0x1000 b.length) == some b
     [trip.board.tripped && (trip.reg .ERR_SEVERE Block.pwr.group).getLsbD Kind.PWR_TRIP.bit,
      !awakeModule.board.tripped,
      (tenModule.setFlag Fld.INT_CTL_SCRUB_EN 0 0 false).flag Fld.INT_CTL_SCRUB_EN == false,
      tenModule.flag Fld.INT_CTL_SCRUB_EN && tenModule.waybills == [] && (List.range 100).all (fun c => !(tenModule.cl c).rewritten),
      !pairOk ((tenModule.setReg .XLT_TEN_ROOT 1 0 5).reg .XLT_TEN_ROOT 1),
      tenModule.routesOf 1 == [],
      (running 0 Tile.reset).routesOf 1 == [0],
      ([[(1 : Byte)], [2]] : List (List Byte))[(0x80000001 : Word).toNat % 64]? == some [2],
      runs (demoPack 0 1) && packVersion (demoPack 0 1) && packGood (demoPack 0 1),
      runs (demoPack 1 1) && !packVersion (demoPack 1 1),
      (let k := houseCmd 0x50 (leBytes 8 0x1000 ++ leBytes 4 0)
       ready (taking tenModule k) 0x50 k),
      runs (demoPack 0 3) && packVersion (demoPack 0 3) && !packGood (demoPack 0 3),
      (match (((taking (at' (demoPack 0 1)) (c (demoPack 0 1))).begun 0 (c (demoPack 0 1))).commitCmd 0).mapped .int 0 0x8000 512 true with
       | (.ok _, _) => true
       | (.error _, _) => false)]).all id = true := by decide +kernel

/-- CheckpointCommands: each mode of a capture that passes and that does not; a durable capture whose destination is aligned or not; a
restore that asks the holder, that cannot reach it, and that has no route; a capture at its boundary; a restore to install. -/
theorem witness_checkpoint_commands :
    (let table := leBytes 8 0x10000 ++ leBytes 8 65536
     let g : Module := { guarded with dram := Mem.setBytes guarded.dram 0x30100 table }
     let c := fun (op mode period dest : Nat) =>
       cmdOf op ([byteOf mode, 0] ++ leBytes 2 7 ++ leBytes 4 period ++ leBytes 8 0x100 ++ leBytes 2 1 ++ List.replicate 6 0 ++ leBytes 8 9
         ++ (if op = 0x22 then leBytes 8 dest ++ leBytes 8 0x30000 else []))
     let passes := fun (k : Cmd) (room : Nat) => match ((taking g k).begun 0 k).ckpCheck { k with phase := .started } room with
       | (.ok x, m1) => x == (0, [(false, 0x10000, 65536)]) && (m1.jobOf 1).isSome
           && (match m1.mapped .ckp 1 0x20000 (shardBytes x.2 + frameBytes) true with
               | (.ok _, _) => true
               | (.error _, _) => false)
       | (.error _, _) => false
     let armed : Capture := ⟨some 3, none, 7, 0, some 2, [(false, 0, 64)], none⟩
     let held := fun k : Capture => ({ g with
       captures := [(1, k)]
       cls := [(0, { Cl.reset with route := some 0, step := 3 })] } : Module)
     let durable : Capture := { armed with dest := some 0x10000 }
     let asks := cmdOf 0x21 ([0, 0] ++ leBytes 2 7 ++ leBytes 2 1 ++ List.replicate 10 0 ++ leBytes 8 9)
     let man := leBytes 4 0x33504B43 ++ [0, 3] ++ leBytes 2 0 ++ leBytes 8 6 ++ leBytes 8 (2 ^ 64 - 7) ++ List.replicate 104 0
     let x : Restore := ⟨0, 1, 6, [], some (true, man), [], [], []⟩
     let installs : Module := { taking g asks with restores := [(1, x)] }
     [[0, 1, 2, 3].all (fun mode => ready (taking g (c 0x20 mode 4 0)) 0x20 (c 0x20 mode 4 0)),
      [0, 1].all (fun mode => passes (c 0x20 mode 4 0) 0x30000),
      !passes (c 0x20 0 4 0) 0x1FFFF,
      (c 0x20 1 0 0).field 12 4 == 0 && (c 0x20 3 4 0).field 8 1 == 3 && ready (taking g (c 0x20 3 4 0)) 0x20 (c 0x20 3 4 0)
        && ready (taking g (c 0x20 1 0 0)) 0x20 (c 0x20 1 0 0),
      (g.capture 1).isNone,
      (held armed).capture 1 == some armed && armed.due.isSome,
      ready (taking g (c 0x22 0 0 0x20000)) 0x22 (c 0x22 0 0 0x20000),
      passes (c 0x22 0 0 0x20000) 0x30000,
      0x20000 % frameBytes == 0 && 0x20001 % frameBytes != 0,
      ready (taking g asks) 0x21 asks && asks.field 8 1 == 0 && (g.restore 1).isNone && (g.restorable 1 7).isSome && (g.jobOf 1).isSome,
      ({ g with routes := [] } : Module).restorable 1 7 == none,
      !(((taking g asks).begun 0 asks).reaches 1 1),
      (let up := ((g.setFld Fld.VIA_PORT_STATUS_STATE 0 0 2).setFlag Fld.VIA_DISC_STATUS_DONE 0 0 true)
       ((taking up asks).begun 0 asks).reaches 1 1),
      (held durable).routeById 1 7 == some 0 && (held durable).captureReady 0 2,
      (let m := ((held durable).setReg .CKP_TEN_GEN 1 0 1).setCapture 1 { durable with due := none, cmd := none, sending := some ⟨1, 2,
         (held durable).flag Fld.CKP_TEN_STATUS_NEXT_SLOT 1, (held durable).shardFrames 1 durable.shards, some 3⟩ }
       match m.readShards 1 durable.shards with
       | (.ok datas, m1) => (match (m1.commitCmd 3).writeImage 1 0x10000 datas (m1.manifest 1 durable 1 2 datas) with
           | (.ok _, _) => true
           | (.error _, _) => false)
       | (.error _, _) => false),
      installs.restore 1 == some x,
      mf.sizes man == [] && mf.list man == some [],
      (installs.cmd 0).bind (fun c => installs.restorable 1 (c.field 10 2)) == some 0]).all id = true := by decide +kernel

/-- CheckpointTraffic: a packet from the buddy and one from elsewhere; data and a manifest that fit, that do not, and that are not yet
whole; a read to serve; data of a restore; an acknowledgement, a refusal and a time-out of a capture. -/
theorem witness_checkpoint_traffic :
    (let pkt := fun (src : BitVec 13) (op shard offset n : Nat) => ({ demoPkt 0 4 (BitVec.ofNat 128 (ckpSpec op true shard 6 offset))
       (leBytes 4 16 ++ List.replicate (n - 4) 0) with src := src } : Packet)
     let g := (guarded.setReg .CKP_TEN_AREA 1 0 0).setReg .CKP_TEN_AREA_BYTES 1 0 0x8000
     let wide := (guarded.setReg .CKP_TEN_AREA 1 0 (BitVec.ofNat 64 0)).setReg .CKP_TEN_AREA_BYTES 1 0 (BitVec.ofNat 64 0x18000)
     let has := fun (m : Module) (k : Packet) => ({ m with inbox := [(1, k)] } : Module)
     let wrote := fun (m : Module) (k : Packet) =>
       (m.writeVA .ckp 1 (m.slotVA 1 (cp.slot k) + 0 + cp.offset k) k.payload)
     let known := leBytes 4 0x33504B43 ++ [0, 3] ++ leBytes 2 1000 ++ leBytes 8 6 ++ leBytes 8 (2 ^ 64 - 7) ++ List.replicate 104 0
     let partly : Module := { wide with dram := Mem.setBytes wide.dram (4 * 65536 + 0x8000) known }
     let head := fun (m : Module) (k : Packet) => match wrote m k with
       | (.ok _, m1) => readOf (m1.readVA .ckp 1 (m1.slotVA 1 (cp.slot k)) 128)
       | (.error _, _) => none
     let mk := pkt 1 1 shardManifest 0x8000 128
     let rk := pkt 1 3 shardManifest 0x8000 4
     let man := leBytes 4 0x33504B43 ++ [0, 3] ++ leBytes 2 0 ++ leBytes 8 6 ++ leBytes 8 (2 ^ 64 - 7) ++ List.replicate 104 0
     let x : Restore := ⟨0, 1, 6, [], some (true, man), [], [], []⟩
     let sent : Capture := ⟨none, none, 7, 0, none, [], some ⟨6, 2, true, [], none⟩⟩
     let sends := fun k : Packet => ({ has g k with captures := [(1, sent)] } : Module)
     [[0, 1, 2, 3, 4, 5].all (fun op => (has g (pkt 1 op 0 0 4)).inbox.find? (fun (e : Ten × Packet) => e.2 == pkt 1 op 0 0 4
        && (pkt 1 op 0 0 4).kind.toNat == 4) == some (1, pkt 1 op 0 0 4)),
      !g.fromBuddy 1 (pkt 2 0 0 0 4),
      [0, 1, 2, 3, 4, 5].all (fun op => g.fromBuddy 1 (pkt 1 op 0 0 4) && cp.op (pkt 1 op 0 0 4) == op && cp.slot (pkt 1 op 0 0 4) == 1),
      cp.shard (pkt 1 0 shardManifest 0 4) == shardManifest && (pkt 1 0 shardManifest 0 128).payload.length == 128,
      (match (wrote g (pkt 1 0 shardManifest 0 128)).1 with
       | .ok _ => true
       | .error _ => false),
      (match (wrote (g.setReg .CKP_TEN_AREA 1 0 0x60000) (pkt 1 0 shardManifest 0 128)).1 with
       | .ok _ => false
       | .error _ => true),
      decide (g.fld Fld.CKP_TEN_AREA_BYTES_SLOT_BYTES 1 < cp.offset (pkt 1 0 0 0x8000 4) + 4),
      decide (cp.offset mk + mk.payload.length ≤ frameBytes),
      decide (cp.offset mk + mk.payload.length ≤ wide.fld Fld.CKP_TEN_AREA_BYTES_SLOT_BYTES 1),
      head partly mk == some (known.take 128) && mf.known known && decide (0x8080 < mf.size known),
      (head wide mk).isSome && (head wide mk).all (fun h => !mf.known h),
      (match wide.readManifest 1 (wide.slotVA 1 1) with
       | (.ok _, m1) => (readOf (m1.readVA .ckp 1 (m1.slotVA 1 1 + 0 + cp.offset rk) 16)).isSome
           && m1.fld Fld.CKP_TEN_AREA_BYTES_SLOT_BYTES 1 == 0x18000
       | (.error _, _) => false),
      x.holder == (pkt 1 4 0 0 4).src.toNat && x.holder != (pkt 2 4 0 0 4).src.toNat,
      (cp.slot (pkt 1 4 0 0 4) == 1) == true && cp.gen (pkt 1 4 0 0 4) == mf.gen man % 2 ^ 32,
      g.ckpWaiting 1 2 == none,
      (sends (pkt 1 2 0 0 4)).ckpWaiting 1 2 == some (pkt 1 2 0 0 4),
      (sends (pkt 1 5 0 0 4)).ckpWaiting 1 5 == some (pkt 1 5 0 0 4) && ((sends (pkt 1 5 0 0 4)).restore 1).isNone,
      (sends (pkt 1 2 0 0 4)).capture 1 == some sent && (6 : Word64).toNat % 2 ^ 32 == cp.gen (pkt 1 2 0 0 4),
      g.fld Fld.CKP_TIMEOUT_US != 0,
      (g.setFld Fld.CKP_TIMEOUT_US 0 0 0).fld Fld.CKP_TIMEOUT_US == 0]).all id = true := by decide +kernel

/-! ## Witnesses: the module as a whole -/

/-- ClocksAndPower: the monitor off and on, over a window that qualifies as the last of 16 and one that fails as the second; the crystal's
time-out; the PLL locked and not; HOLD; the crystal to reselect and not; each case of the tile clock; each case of a power state. -/
theorem witness_clocks :
    (let m := awakeModule
     let held := m.setFlag Fld.CLK_STATUS_HELD 0 0 true
     let ok := fun b : Bool => m.setFlag Fld.CLK_STATUS_CRYSTAL_OK 0 0 b
     let board := fun (f : Board → Board) => ({ m with board := f m.board } : Module)
     let calm := m.setFld Fld.PWR_CTL_MAX_STATE 0 0 0
     [!(booted 2).monitorRuns,
      (m.setFlag Fld.CLK_CTL_FAIL_POLICY 0 0 true).flag Fld.CLK_CTL_FAIL_POLICY,
      [true, false].all (fun b => (board fun x => { x with internalRef := b }).board.internalRef == b),
      decide ((m.setFld Fld.PWR_CTL_TILE_STEP_MAX 0 0 3).fld Fld.CLK_STATUS_TILE_STEP < (m.setFld Fld.PWR_CTL_TILE_STEP_MAX 0 0 3).fld
        Fld.PWR_CTL_TILE_STEP_MAX),
      m.busyTens == [] && calm.fld Fld.PWR_STATUS_STATE == calm.chooseState,
      (board fun b => { b with target := some 1 }).fld Fld.PWR_STATUS_STATE == 0,
      (m.setFld Fld.PWR_STATUS_STATE 0 0 2).clocked && (m.setFld Fld.PWR_STATUS_STATE 0 0 2).fld Fld.PWR_STATUS_STATE == 2,
      !(board fun b => { b with tripped := true }).clocked,
      (m.setFlag Fld.RTC_STATUS_OSC_FAIL 0 0 true).flag Fld.RTC_STATUS_OSC_FAIL,
      m.monitorRuns && m.board.boot != 3,
      (board fun b => { b with badRun := 1 }).board.badRun == 1,
      (m.setFld Fld.CLK_MON_GOOD_RUN 0 0 15).fld Fld.CLK_MON_GOOD_RUN == 15,
      ((booted 3).setFld Fld.CLK_MON_GOOD_RUN 0 0 15).board.boot == 3,
      decide (({ booted 3 with board := { Board.reset with boot := 3, windows := 63 } } : Module).board.windows < 64),
      ({ booted 3 with board := { Board.reset with boot := 3, windows := 64 } } : Module).board.boot == 3,
      (m.setFlag Fld.CLK_STATUS_PLL_LOCK 0 0 true).flag Fld.CLK_STATUS_PLL_LOCK,
      !(m.setFlag Fld.CLK_STATUS_PLL_LOCK 0 0 false).flag Fld.CLK_STATUS_PLL_LOCK,
      !m.flag Fld.CLK_CTL_FAIL_POLICY,
      held.flag Fld.CLK_STATUS_HELD,
      (List.range 101).all (fun t => held.fld Fld.TEN_STATUS_STATE t == 0),
      (List.range 6).all (fun p => held.portStateOf p != portState.held),
      !m.flag Fld.CLK_STATUS_HELD,
      (ok true).flag Fld.CLK_STATUS_CRYSTAL_OK,
      !(ok false).flag Fld.CLK_STATUS_CRYSTAL_OK,
      !(booted 3).clocked,
      m.clocked && m.board.boot == 6 && m.fld Fld.PWR_STATUS_STATE == 0,
      decide (min 1700 (m.fld Fld.PWR_CAP_WATTS) < (1701 : BitVec 16).toNat),
      decide (min 100 (m.fld Fld.PWR_THERMAL_THROTTLE_C) < (101 : BitVec 8).toNat),
      (m.setFld Fld.PWR_STATUS_STATE 0 0 1).fld Fld.PWR_STATUS_STATE == 1,
      [0, 2].all (fun k => (m.setFld Fld.CLK_STATUS_TILE_STEP 0 0 k).fld Fld.CLK_STATUS_TILE_STEP == k),
      m.fabricIdle && m.board.target == none && !m.board.leaving,
      decide ((m.setFld Fld.PWR_LAT_TOL_US 0 0 5000).fld Fld.PWR_STATUS_STATE < (m.setFld Fld.PWR_LAT_TOL_US 0 0 5000).chooseState),
      (m.setFld Fld.PWR_CTL_MAX_STATE 0 0 0).chooseState == 0,
      !(running 0 Tile.reset).fabricIdle,
      (board fun b => { b with target := some 1 }).clocked,
      decide (m.fld Fld.PWR_ENTRIES_COUNT < 2 ^ 64 - 1),
      (board fun b => { b with leaving := true }).clocked && m.side.writes == [],
      !m.board.rtcLoad && !m.flag Fld.RTC_STATUS_OSC_FAIL,
      (m.setFld Fld.RTC_FRAC_FRAC 0 0 32767).fld Fld.RTC_FRAC_FRAC == 32767,
      decide (m.fld Fld.RTC_FRAC_FRAC < 32767),
      (board fun b => { b with rtcLoad := true }).board.rtcLoad && m.ledgers == []]).all id = true := by decide +kernel

/-- StartUpAndResets: each stage of start-up, with and without a latent fault; a channel that has retried twice and three times; a reset by
each cause; a write with and without the key. -/
theorem witness_start_up :
    (let at' := fun (k : Nat) (f : Board → Board) => ({ booted k with board := f (booted k).board } : Module)
     [(List.range 8).all (fun k => (booted k).board.boot == k && !(booted k).board.calendarLost && !(booted k).board.tripped),
      (List.range 8).all (fun k => !(booted k).board.resetLow) && (at' 4 fun b => { b with resetLow := true }).board.resetLow,
      (at' 1 fun b => { b with eepromBad := true }).board.eepromBad,
      (at' 2 fun b => { b with railBad := true }).board.railBad,
      (booted 4).clocked,
      (booted 5).clocked,
      !(booted 3).clocked,
      Map.get 0 (at' 4 fun b => { b with retries := [(383, 1)] }).board.retries 383 == 1,
      3 ≤ Map.get 0 (([383] : List Nat).foldl failRound (at' 4 fun b => { b with retries := [(383, 3)] }).board.retries) 383,
      (at' 4 fun b => { b with eepromBad := true }).board.retries == [],
      (0xA5C30001 : Word).getLsbD 0 && bitsAt (0xA5C30001 : Word).toNat 16 16 == 0xA5C3,
      !(0xA5C30000 : Word).getLsbD 0,
      bitsAt (0xA5C20001 : Word).toNat 16 16 != 0xA5C3,
      (awakeModule.setFlag Fld.GLB_STATUS_READY 0 0 true).flag Fld.GLB_STATUS_READY,
      !awakeModule.flag Fld.GLB_STATUS_READY]).all id = true := by decide +kernel

/-- Sideband: before the trims are loaded and after; an address that may be taken and one that may not; WRITE_EN and PEC_REQUIRED on and
off; an alert; a code that is none; a third failed poll. -/
theorem witness_sideband :
    (let m := awakeModule
     let assigned := m.setFlag Fld.SBD_ADDR_ASSIGNED 0 0 true
     let alert := (assigned.setFlag Fld.SBD_CTL_ALERT_EN 0 0 true).raise Kind.PWR_TRIP 0 0
     let needs := m.setFlag Fld.SBD_CTL_PEC_REQUIRED 0 0 true
     let sent := m.sideAddr false :: ([0x10, 4] ++ leBytes 4 0x40)
     [!(booted 1).sideUp,
      pecOf sent != 0 && m.reg .ERR_INJECT_INV Block.sbd.group == 0,
      needs.flag Fld.SBD_CTL_PEC_REQUIRED && needs.sideUp,
      sideCodes.contains 0x20,
      m.clocked && (m.setFld Fld.PWR_STATUS_STATE 0 0 1).fld Fld.PWR_STATUS_STATE == 1 && m.board.target == none && !m.board.leaving,
      m.sideUp,
      !m.flag Fld.SBD_ADDR_ASSIGNED,
      assigned.flag Fld.SBD_ADDR_ASSIGNED,
      [0x07, 0x0C, 0x5B, 0x61, 0x78].all badAddress,
      !badAddress 0x08 && !badAddress 0x77,
      [true, false].all (fun b => (m.setFlag Fld.SBD_CTL_WRITE_EN 0 0 b).flag Fld.SBD_CTL_WRITE_EN == b
        && (m.setFlag Fld.SBD_CTL_PEC_REQUIRED 0 0 b).flag Fld.SBD_CTL_PEC_REQUIRED == b),
      ({ m with side := { m.side with pointer := RegId.PWR_CAP.offset 0 0 } } : Module).side.pointer == RegId.PWR_CAP.offset 0 0,
      alert.alerting,
      !m.alerting,
      !sideCodes.contains (255 : Byte).toNat,
      m.side.writes == [],
      ({ m with board := { m.board with pollFails := 2 } } : Module).board.pollFails == 2,
      mirrored.any (fun x => m.mirrorAwake x.1)]).all id = true := by decide +kernel

/-- RegisterAccess: a register seen by the physical function and by its tenancy's, one of another tenancy, one hidden, and one of the
module; a snapshot register and one that is none. -/
theorem witness_register_access :
    (let m := tenModule
     [m.seen 0 .PLC_TEN_BAL 1 == some 1 && m.seen 1 .PLC_TEN_BAL 1 == some 1,
      m.seen 1 .PLC_TEN_BAL 2 == none && m.entryTen .PLC_TEN_BAL 2 == some 2,
      m.seen 1 .TEN_STATUS 1 == none && RegId.TEN_STATUS.hidden,
      m.seen 1 .PWR_CAP 0 == none && m.entryTen .PWR_CAP 0 == none,
      m.seen 0 .PWR_CAP 0 == some 0 && m.seen 0 .INT_CTL 0 == some 0,
      m.seen 0 .XLT_TEN_ROOT 100 == some 100,
      m.seen 0 .LDG_MEASURED 0 == some 0 && RegId.LDG_MEASURED.snapshot && RegId.LDG_MEASURED != .RTC_SECONDS,
      !RegId.PWR_CAP.snapshot]).all id = true := by decide +kernel

/-- StepKeepsMemoryForm: a module whose memories have the form, with a command that completes. -/
theorem witness_step :
    pagedModule.dram.wf = true ∧ pagedModule.hold.wf = true ∧ ∃ s', step ⟨pagedModule, [.busClear]⟩ = .next s' :=
  ⟨by decide +kernel, by decide +kernel, _, rfl⟩

/-- R292: a codeword vanishes at the 30 roots of the generator. -/
theorem test_fec_roots : (gfPowers 30 1).all (fun r => fecAt r (fecCodeword [5, 0, 1023]) == 0) = true := by decide +kernel

/-- R292: 15 symbol errors are corrected, 16 are not. -/
theorem test_fec_limit : fecCorrectable (List.replicate 544 0) (List.replicate 15 1 ++ List.replicate 529 0) = true
    ∧ fecCorrectable (List.replicate 544 0) (List.replicate 16 1 ++ List.replicate 528 0) = false := by decide +kernel

end Sys2Proof.Tests
end

