-- ==== Sys2Proof/Proofs/MemoryForm.lean ====
section
/-! The canonical form of DRAM and Hold: what keeps it, and how it passes through the shapes that the model composes
its meanings of (branches, folds, answers beside a module). -/

namespace Sys2Proof.Machine

/-- Two memories in canonical form. -/
structure MemForms (dram hold : Mem) : Prop where
  dram : dram.wf = true
  hold : hold.wf = true

/-- DRAM and Hold are in canonical form. -/
@[reducible] def Module.MemForm (m : Module) : Prop := MemForms m.dram m.hold

/-- A meaning that answers a module in canonical form, where it answers one. -/
def ExceptForm {ε : Type} (x : Except ε Module) : Prop := ∀ m', x = .ok m' → m'.MemForm

/-- A meaning whose next state, where it has one, has memories in canonical form. -/
def KeepsForm (o : Host.Outcome State Fault Refusal) : Prop := ∀ s', o = .next s' → s'.mod.MemForm

variable {m : Module} {d h : Mem}

@[simp] theorem MemForms.setBytes_dram (f : MemForms d h) {a : Nat} {bs : List Byte} :
    MemForms (Mem.setBytes d a bs) h :=
  ⟨Mem.wf_setBytes f.dram a bs, f.hold⟩

@[simp] theorem MemForms.write_dram (f : MemForms d h) {a n v : Nat} : MemForms (Mem.write d a n v) h :=
  ⟨Mem.wf_write f.dram a n v, f.hold⟩

@[simp] theorem MemForms.setBytes_hold (f : MemForms d h) {a : Nat} {bs : List Byte} :
    MemForms d (Mem.setBytes h a bs) :=
  ⟨f.dram, Mem.wf_setBytes f.hold a bs⟩

@[simp] theorem MemForms.zero_dram (f : MemForms d h) {a n : Nat} : MemForms (Mem.zero d a n) h :=
  ⟨Mem.wf_zero f.dram a n, f.hold⟩

@[simp] theorem MemForms.zero_hold (f : MemForms d h) {a n : Nat} : MemForms d (Mem.zero h a n) :=
  ⟨f.dram, Mem.wf_zero f.hold a n⟩

/-- A fold of writes keeps the canonical form. -/
theorem Mem.wf_foldl {α : Type} {f : Mem → α → Mem} (hf : ∀ d a, d.wf = true → (f d a).wf = true) {l : List α}
    (hd : d.wf = true) : (l.foldl f d).wf = true :=
  List.foldlRecOn (motive := fun d => d.wf = true) l f hd fun d hd a _ => hf d a hd

@[simp] theorem memForm_ite {c : Prop} [Decidable c] {a b : Module} (ha : a.MemForm) (hb : b.MemForm) :
    (if c then a else b).MemForm := by split <;> assumption

@[simp] theorem memForm_ite_snd {α : Type} {c : Prop} [Decidable c] {p q : α × Module} (hp : p.2.MemForm)
    (hq : q.2.MemForm) : (if c then p else q).2.MemForm := by split <;> assumption

/-- A fold whose every round keeps the form keeps it. -/
@[simp] theorem memForm_foldl {α : Type} {f : Module → α → Module} {l : List α}
    (hf : ∀ m a, m.MemForm → (f m a).MemForm) (h : m.MemForm) : (l.foldl f m).MemForm :=
  List.foldlRecOn l f h fun m hm a _ => hf m a hm

/-- A fold over pairs whose every round keeps the form keeps it. -/
@[simp] theorem memForm_foldl_snd {α β : Type} {f : β × Module → α → β × Module} {l : List α} {p : β × Module}
    (hf : ∀ p a, p.2.MemForm → (f p a).2.MemForm) (h : p.2.MemForm) : (l.foldl f p).2.MemForm :=
  List.foldlRecOn (motive := fun p => p.2.MemForm) l f h fun p hp a _ => hf p a hp

/-- The module of an answer whose meaning keeps the form. -/
theorem MemForms.of_eq {α : Type} {p : α × Module} {a : α} {m' : Module} (hp : MemForms p.2.dram p.2.hold)
    (e : p = (a, m')) : m'.MemForm := by
  subst e
  exact hp

/-- The module that a meaning answers beside a value is in canonical form. -/
def AnswerForm {α : Type} (p : α × Module) : Prop := p.2.MemForm

theorem answerForm_bind {ε β γ : Type} {p : Except ε β × Module} {f : ε → Module → γ × Module}
    {k : β → Module → γ × Module}
    (hp : p.2.MemForm) (hf : ∀ e (m : Module), m.MemForm → AnswerForm (f e m))
    (hk : ∀ b (m : Module), m.MemForm → AnswerForm (k b m)) :
    AnswerForm (match p with
      | (.error e, m) => f e m
      | (.ok b, m) => k b m) := by
  obtain ⟨_ | b, m⟩ := p
  · exact hf _ m hp
  · exact hk b m hp

@[simp] theorem exceptForm_ok {ε : Type} (h : m.MemForm) : ExceptForm (.ok m : Except ε Module) := by
  rintro m' ⟨⟩
  exact h

@[simp] theorem exceptForm_error {ε : Type} (e : ε) : ExceptForm (.error e : Except ε Module) := by
  rintro m' ⟨⟩

@[simp] theorem exceptForm_ite {ε : Type} {c : Prop} [Decidable c] {a b : Except ε Module} (ha : ExceptForm a)
    (hb : ExceptForm b) : ExceptForm (if c then a else b) := by split <;> assumption

/-- A fold that may stop keeps the form where every round does. -/
theorem exceptForm_foldlM {ε α : Type} {f : Module → α → Except ε Module} {l : List α}
    (hf : ∀ m a, m.MemForm → ExceptForm (f m a)) (h : m.MemForm) : ExceptForm (l.foldlM f m) := by
  induction l generalizing m with
  | nil => exact exceptForm_ok h
  | cons a l ih =>
    rw [List.foldlM_cons]
    cases e : f m a with
    | error x => exact exceptForm_error x
    | ok m' => exact ih (hf m a h m' e)

theorem Module.settle_memForm (h : m.MemForm) : m.settle.MemForm := h

@[simp] theorem State.run_keepsForm {s : State} {f : Module → Module} (h : (f s.mod).MemForm) :
    KeepsForm (s.run f) := by
  rintro s' ⟨⟩
  exact Module.settle_memForm h

end Sys2Proof.Machine
end

