-- ==== Sys2Proof/Proofs/FormOps.lean ====
section
/-! The canonical form of DRAM and Hold is kept by the shared operations of errors, registers, tiles and DRAM. -/

namespace Sys2Proof.Machine

variable {m : Module}

/-! ### Ops.lean -/

@[simp] theorem Module.setReg_memForm {r : RegId} {i j : ℕ} {v : Word64} (h : m.MemForm) :
    (m.setReg r i j v).MemForm := h

@[simp] theorem Module.setFld_memForm {f : Field} {i j v : ℕ} (h : m.MemForm) : (m.setFld f i j v).MemForm := h

@[simp] theorem Module.setFlag_memForm {f : Field} {i j : ℕ} {v : Bool} (h : m.MemForm) :
    (m.setFlag f i j v).MemForm := h

@[simp] theorem Module.addFld_memForm {f : Field} {i j n : ℕ} (h : m.MemForm) : (m.addFld f i j n).MemForm := h

@[simp] theorem Module.subFld_memForm {f : Field} {i j n : ℕ} (h : m.MemForm) : (m.subFld f i j n).MemForm := h

@[simp] theorem Module.drawn_memForm (h : m.MemForm) : m.drawn.MemForm := h

@[simp] theorem Module.count_memForm {ev ten n : ℕ} (h : m.MemForm) : (m.count ev ten n).MemForm := by
  unfold Module.count
  grind [memForm_foldl, Module.addFld_memForm]

@[simp] theorem Module.bill_memForm {ten : ℕ} {f : Ledger → Ledger} (h : m.MemForm) : (m.bill ten f).MemForm := by
  unfold Module.bill
  split <;> simp [h]

@[simp] theorem Module.send_memForm {x : OutMsg} (h : m.MemForm) : (m.send x).MemForm := h

@[simp] theorem Module.pfVector_memForm {vec : ℕ} (h : m.MemForm) : (m.pfVector vec).MemForm := by
  unfold Module.pfVector
  split <;> simp [h]

@[simp] theorem Module.notice_memForm {t : Ten} {f : Field} (h : m.MemForm) : (m.notice t f).MemForm := by
  unfold Module.notice
  split <;> simp [h]

@[simp] theorem Module.pushSig_memForm {sig : List Byte} (h : m.MemForm) : (m.pushSig sig).MemForm := by
  unfold Module.pushSig
  simp [h]

@[simp] theorem Module.makeSevere_memForm {k : Kind} (h : m.MemForm) : (m.makeSevere k).MemForm := by
  unfold Module.makeSevere
  grind [Module.setReg_memForm, Module.pfVector_memForm]

@[simp] theorem Module.classify_memForm {k : Kind} (h : m.MemForm) : (m.classify k).MemForm := by
  unfold Module.classify
  split <;> simp [h]

@[simp] theorem Module.latchFirst_memForm {k : Kind} {ten loc : ℕ} {injected : Bool} (h : m.MemForm) :
    (m.latchFirst k ten loc injected).MemForm := h

@[simp] theorem Module.countEvent_memForm {g : ℕ} (h : m.MemForm) : (m.countEvent g).MemForm := by
  unfold Module.countEvent
  simp [h]

@[simp] theorem Module.record_memForm {k : Kind} {ten loc site : ℕ} {injected : Bool} (h : m.MemForm) :
    (m.record k ten loc site injected).MemForm := by
  unfold Module.record
  grind [Module.setReg_memForm, Module.latchFirst_memForm, Module.drawn_memForm, Module.pushSig_memForm,
    Module.countEvent_memForm, Module.pfVector_memForm]

@[simp] theorem Module.raise1_memForm {k : Kind} {ten loc site : ℕ} (h : m.MemForm) :
    (m.raise1 k ten loc site).MemForm := by
  unfold Module.raise1
  simp [h]

@[simp] theorem Module.raiseLost_memForm (h : m.MemForm) : m.raiseLost.MemForm := by
  unfold Module.raiseLost
  grind [Module.raise1_memForm]

@[simp] theorem Module.raise_memForm {k : Kind} {ten loc site : ℕ} (h : m.MemForm) :
    (m.raise k ten loc site).MemForm := by
  unfold Module.raise
  grind [Module.raise1_memForm, Module.raiseLost_memForm]

@[simp] theorem Module.probe_memForm {k : Kind} {ten loc : ℕ} (h : m.MemForm) : (m.probe k ten loc).MemForm := by
  unfold Module.probe
  grind [Module.setReg_memForm, Module.record_memForm, Module.raiseLost_memForm]

@[simp] theorem Module.violation_memForm {ten : ℕ} {b : Block} (h : m.MemForm) : (m.violation ten b).MemForm := by
  unfold Module.violation
  grind [Module.addFld_memForm, Module.setFld_memForm, Module.raise_memForm]

@[simp] theorem Module.writePair_memForm {r : RegId} {k : Kind} {ten i j : ℕ} {v : Word64} (h : m.MemForm) :
    (m.writePair r k ten i j v).MemForm := by
  unfold Module.writePair
  simp [h]

@[simp] theorem Module.useEntry_memForm {t : Ten} (h : m.MemForm) : (m.useEntry t).2.MemForm := by
  unfold Module.useEntry
  grind [Module.probe_memForm, Module.raise_memForm, Module.setFlag_memForm]

@[simp] theorem Module.when_memForm {b : Bool} {f : Module → Module} (hf : ∀ m, m.MemForm → (f m).MemForm)
    (h : m.MemForm) :
    (m.when b f).MemForm := by
  unfold Module.when
  simp [h, hf]

@[simp] theorem Module.resetRegs_memForm {k : ResetKind} {sel : RegId → ℕ → Bool} (h : m.MemForm) :
    (m.resetRegs k sel).MemForm := h

/-! ### MemOps.lean -/

@[simp] theorem Module.setHost_memForm {a : ℕ} {x : List Byte} (h : m.MemForm) : (m.setHost a x).MemForm := by
  induction x generalizing m a with
  | nil => exact h
  | cons a l ih =>
    unfold Module.setHost
    grind []

@[simp] theorem Module.setTag_memForm {f v : ℕ} (h : m.MemForm) : (m.setTag f v).MemForm := h

@[simp] theorem Module.quarantine_memForm {f : ℕ} (h : m.MemForm) : (m.quarantine f).MemForm := by
  unfold Module.quarantine
  grind [Module.raise_memForm, Module.setTag_memForm, Module.when_memForm, Module.subFld_memForm]

@[simp] theorem Module.takeRun_memForm {ten f n : ℕ} (h : m.MemForm) : (m.takeRun ten f n).MemForm := by
  unfold Module.takeRun
  grind [memForm_foldl, Module.setTag_memForm, Module.addFld_memForm, Module.setFld_memForm, Module.subFld_memForm]

@[simp] theorem Module.rotate_memForm {near : Option ℕ} {f : ℕ} (h : m.MemForm) : (m.rotate near f).MemForm := by
  unfold Module.rotate
  split <;> simp [h]

theorem Module.allocFrame_memForm {ten : ℕ} {near : Option ℕ} {r : ℕ × Module} (h : m.MemForm)
    (e : m.allocFrame ten near = some r) : r.2.MemForm := by
  unfold Module.allocFrame at e
  split at e
  · cases e
  · obtain ⟨f, -, rfl⟩ := Option.map_eq_some_iff.1 e
    exact Module.drawn_memForm (Module.rotate_memForm (Module.takeRun_memForm h))

theorem Module.allocFrames_memForm {ten n : ℕ} {r : List ℕ × Module} (h : m.MemForm)
    (e : m.allocFrames ten n = some r) :
    r.2.MemForm := by
  induction n generalizing m r with
  | zero =>
    cases e
    exact h
  | succ n ih =>
    obtain ⟨p, hp, e⟩ := Option.bind_eq_some_iff.1 e
    obtain ⟨q, hq, ⟨⟩⟩ := Option.bind_eq_some_iff.1 e
    have hr := ih (Module.allocFrame_memForm h hp) hq
    exact hr

theorem Module.allocRun_memForm {ten n : ℕ} {r : ℕ × Module} (h : m.MemForm) (e : m.allocRun ten n = some r) :
    r.2.MemForm := by
  unfold Module.allocRun at e
  split at e
  · cases e
  · obtain ⟨f, -, rfl⟩ := Option.map_eq_some_iff.1 e
    exact Module.drawn_memForm (Module.takeRun_memForm h)

@[simp] theorem Module.withdraw_memForm {ch need : ℕ} (h : m.MemForm) : (m.withdraw ch need).2.MemForm := h

@[simp] theorem Module.formPatches_memForm {ch : ℕ} (h : m.MemForm) : (m.formPatches ch).2.MemForm := h

@[simp] theorem Module.mapOut_memForm {ch : ℕ} (h : m.MemForm) : (m.mapOut ch).MemForm := by
  unfold Module.mapOut
  grind [Module.raise_memForm, Module.setFld_memForm, Module.formPatches_memForm]

@[simp] theorem Module.readUnit_memForm {ten u ch : ℕ} (h : m.MemForm) : (m.readUnit ten u ch).MemForm := by
  unfold Module.readUnit
  grind [Module.probe_memForm, Module.raise_memForm, Module.addFld_memForm, Module.mapOut_memForm]

@[simp] theorem Module.mirrorKeys_memForm {ten : ℕ} (h : m.MemForm) : (m.mirrorKeys ten).MemForm := h

@[simp] theorem Module.uncacheFrame_memForm {f : ℕ} (h : m.MemForm) : (m.uncacheFrame f).MemForm := h

@[simp] theorem Module.uncachePages_memForm {ten page n : ℕ} (h : m.MemForm) :
    (m.uncachePages ten page n).MemForm := h

@[simp] theorem Module.freeFrame_memForm {f : ℕ} (h : m.MemForm) : (m.freeFrame f).MemForm := h

@[simp] theorem Module.zeroFrame_memForm {f : ℕ} (h : m.MemForm) : (m.zeroFrame f).MemForm := by
  have hb : (m.bill 0 fun l => { l with dram := l.dram + frameBytes }).MemForm := Module.bill_memForm h
  exact ⟨Mem.wf_zero h.dram _ _, hb.hold⟩

@[simp] theorem Module.scrubFrame_memForm {f : ℕ} (h : m.MemForm) : (m.scrubFrame f).MemForm := by
  unfold Module.scrubFrame
  grind [Module.zeroFrame_memForm, Module.addFld_memForm]

@[simp] theorem Module.releaseFrames_memForm {ten : ℕ} {fs : List ℕ} (h : m.MemForm) :
    (m.releaseFrames ten fs).MemForm := by
  unfold Module.releaseFrames
  grind [memForm_foldl, Module.scrubFrame_memForm, Module.freeFrame_memForm]

@[simp] theorem Module.releaseBaseFrames_memForm {b : ℕ} {fs : List ℕ} (h : m.MemForm) :
    (m.releaseBaseFrames b fs).MemForm := by
  unfold Module.releaseBaseFrames
  grind [memForm_foldl, Module.scrubFrame_memForm, Module.freeFrame_memForm]

@[simp] theorem Module.readEntries_memForm {ten va : ℕ} (h : m.MemForm) : (m.readEntries ten va).2.MemForm := by
  unfold Module.readEntries
  grind [memForm_foldl, Module.readUnit_memForm]

@[simp] theorem Module.fillCache_memForm {b : Block} {ten va : ℕ} {e : Word64} (h : m.MemForm) :
    (m.fillCache b ten va e).MemForm := by
  unfold Module.fillCache
  split <;> simp [h]

@[simp] theorem Module.recordWalk_memForm {ten va : ℕ} {w : WalkFail} (h : m.MemForm) :
    (m.recordWalk ten va w).MemForm := by
  unfold Module.recordWalk
  grind [Module.setFld_memForm, Module.raise_memForm, Module.quarantine_memForm, Module.violation_memForm]

@[simp] theorem Module.translate_memForm {b : Block} {ten va : ℕ} {write : Bool} (h : m.MemForm) :
    (m.translate b ten va write).2.MemForm := by
  unfold Module.translate
  grind [Module.drawn_memForm, Module.probe_memForm, Module.count_memForm, Module.readEntries_memForm,
    Module.fillCache_memForm, Module.recordWalk_memForm]

@[simp] theorem Module.translateAll_memForm {b : Block} {ten : ℕ} {write : Bool} {x : List (ℕ × ℕ)} (h : m.MemForm) :
    (m.translateAll b ten write x).2.MemForm := by
  induction x generalizing m b ten write with
  | nil => exact h
  | cons a l ih =>
    unfold Module.translateAll
    grind [Module.translate_memForm]

@[simp] theorem Module.writeEntry_memForm {ea e : ℕ} (h : m.MemForm) : (m.writeEntry ea e).MemForm :=
  h.write_dram.write_dram

@[simp] theorem Module.emptyTable_memForm {f n : ℕ} (h : m.MemForm) : (m.emptyTable f n).MemForm := by
  unfold Module.emptyTable
  simp +contextual [h]

theorem Module.enterLeaf_memForm {ten va leaf n table : ℕ} {m' : Module} (h : m.MemForm)
    (e : m.enterLeaf ten va leaf n table = some m') : m'.MemForm := by
  induction n generalizing m table with
  | zero => cases e
  | succ n ih =>
    unfold Module.enterLeaf at e
    simp only at e
    split at e
    · cases e
    · split at e
      · cases e
        exact Module.writeEntry_memForm h
      · split at e
        · split at e
          · cases e
          · next ha =>
            exact ih (Module.writeEntry_memForm (Module.emptyTable_memForm (Module.allocFrame_memForm h ha))) e
        · split at e
          · cases e
          · exact ih h e

theorem Module.mapTo_memForm {ten va f : ℕ} {m' : Module} (h : m.MemForm) (e : m.mapTo ten va f = some m') :
    m'.MemForm := by
  unfold Module.mapTo at e
  split at e
  · cases e
  · obtain ⟨x, hx, rfl⟩ := Option.map_eq_some_iff.1 e
    exact Module.uncachePages_memForm (Module.enterLeaf_memForm h hx)

theorem Module.mapPage_memForm {ten va : ℕ} {near : Option ℕ} {r : ℕ × Module} (h : m.MemForm)
    (e : m.mapPage ten va near = some r) : r.2.MemForm := by
  unfold Module.mapPage at e
  split at e
  · cases e
  · next ha =>
    obtain ⟨x, hx, rfl⟩ := Option.map_eq_some_iff.1 e
    exact Module.mapTo_memForm (Module.allocFrame_memForm h ha) hx

@[simp] theorem Module.unmapPage_memForm {ten va : ℕ} (h : m.MemForm) : (m.unmapPage ten va).MemForm := by
  unfold Module.unmapPage
  grind [Module.uncachePages_memForm, Module.writeEntry_memForm]

@[simp] theorem Module.takeTokens_memForm {ten ch n : ℕ} (h : m.MemForm) : (m.takeTokens ten ch n).MemForm := by
  unfold Module.takeTokens
  grind [Module.drawn_memForm, Module.count_memForm, Module.addFld_memForm]

@[simp] theorem Module.countDram_memForm {ten a n : ℕ} (h : m.MemForm) : (m.countDram ten a n).MemForm := by
  unfold Module.countDram
  grind [memForm_foldl, Module.bill_memForm, Module.takeTokens_memForm, Module.count_memForm, Module.addFld_memForm]

@[simp] theorem Module.readLoc_memForm {ten : ℕ} {x : Loc × ℕ} (h : m.MemForm) : (m.readLoc ten x).2.MemForm := by
  unfold Module.readLoc
  grind [memForm_foldl, Module.bill_memForm, Module.addFld_memForm, Module.readUnit_memForm, Module.countDram_memForm]

@[simp] theorem Module.readLocs_memForm {ten : ℕ} {x : List (Loc × ℕ)} (h : m.MemForm) :
    (m.readLocs ten x).2.MemForm := by
  induction x generalizing m ten with
  | nil => exact h
  | cons a l ih =>
    unfold Module.readLocs
    grind [Module.readLoc_memForm]

@[simp] theorem Module.writeLoc_memForm {ten : ℕ} {l : Loc} {bs : List Byte} (h : m.MemForm) :
    (m.writeLoc ten l bs).MemForm := by
  unfold Module.writeLoc
  split
  · exact Module.addFld_memForm (Module.bill_memForm (Module.setHost_memForm h))
  · exact (Module.countDram_memForm h).setBytes_dram

@[simp] theorem Module.writeLocs_memForm {ten : ℕ} {x : List (Loc × ℕ)} {x1 : List Byte} (h : m.MemForm) :
    (m.writeLocs ten x x1).MemForm := by
  induction x generalizing m ten x1 with
  | nil => exact h
  | cons a l ih =>
    unfold Module.writeLocs
    grind [Module.writeLoc_memForm]

@[simp] theorem Module.pathCheck_memForm {b : Block} {ten : ℕ} (h : m.MemForm) : (m.pathCheck b ten).2.MemForm := by
  unfold Module.pathCheck
  grind [Module.probe_memForm, Module.raise_memForm]

@[simp] theorem Module.countSkew_memForm {ten va n : ℕ} {ls : List (Loc × ℕ)} (h : m.MemForm) :
    (m.countSkew ten va n ls).MemForm := by
  unfold Module.countSkew
  simp [h]

@[simp] theorem Module.readVA_memForm {b : Block} {ten va n : ℕ} (h : m.MemForm) :
    (m.readVA b ten va n).2.MemForm := by
  unfold Module.readVA
  grind [Module.translateAll_memForm, Module.pathCheck_memForm, Module.readLocs_memForm, Module.countSkew_memForm]

@[simp] theorem Module.writeVA_memForm {b : Block} {ten va : ℕ} {bs : List Byte} (h : m.MemForm) :
    (m.writeVA b ten va bs).2.MemForm := by
  unfold Module.writeVA
  grind [Module.translateAll_memForm, Module.writeLocs_memForm, Module.countSkew_memForm]

@[simp] theorem Module.mapped_memForm {b : Block} {ten va n : ℕ} {write : Bool} (h : m.MemForm) :
    (m.mapped b ten va n write).2.MemForm := by
  unfold Module.mapped
  grind [Module.translateAll_memForm]

@[simp] theorem Module.holdRefuse_memForm {ten h : ℕ} {x : HoldFail} (hm : m.MemForm) :
    (m.holdRefuse ten h x).2.MemForm := by
  unfold Module.holdRefuse
  split <;> simp [hm]

@[simp] theorem Module.readHoldWord_memForm {ten u : ℕ} (h : m.MemForm) : (m.readHoldWord ten u).MemForm := by
  unfold Module.readHoldWord
  grind [Module.probe_memForm, Module.raise_memForm]

@[simp] theorem Module.countBank_memForm {p : ℕ} {free : Bool} (h : m.MemForm) : (m.countBank p free).MemForm := h

@[simp] theorem Module.takeBank_memForm {p e : ℕ} (h : m.MemForm) : (m.takeBank p e).MemForm := h

@[simp] theorem Module.releaseBank_memForm {p : ℕ} (h : m.MemForm) : (m.releaseBank p).MemForm := by
  unfold Module.releaseBank
  exact Module.countBank_memForm (Module.bill_memForm h).zero_hold

@[simp] theorem Module.copyBank_memForm {p q : ℕ} (h : m.MemForm) : (m.copyBank p q).MemForm :=
  ⟨h.dram, Mem.wf_foldl (fun _ _ hd => Mem.wf_setByte hd _ _) (Mem.wf_zero h.hold _ _)⟩

@[simp] theorem Module.retireBank_memForm {p : ℕ} (h : m.MemForm) : (m.retireBank p).MemForm := by
  unfold Module.retireBank
  simp only
  split
  · exact Module.raise_memForm (Module.countBank_memForm h)
  · split
    · exact Module.raise_memForm h
    · exact Module.raise_memForm (Module.takeBank_memForm (Module.copyBank_memForm (Module.drawn_memForm
      h))).zero_hold

@[simp] theorem Module.checkBank_memForm {p : ℕ} (h : m.MemForm) : (m.checkBank p).MemForm := by
  unfold Module.checkBank
  simp [h]

@[simp] theorem Module.readHoldLocs_memForm {ten : ℕ} {x : List (ℕ × ℕ)} (h : m.MemForm) :
    (m.readHoldLocs ten x).2.MemForm := by
  induction x generalizing m with
  | nil => exact h
  | cons a l ih =>
    have hr : ((wordsOf a.1 a.2).foldl (fun m u => m.readHoldWord ten u) m).MemForm :=
      memForm_foldl (fun _ _ hm => Module.readHoldWord_memForm hm) h
    have hi := ih (Module.checkBank_memForm (p := a.1 / bankBytes) hr)
    unfold Module.readHoldLocs
    simp only
    split
    · exact hi
    · split <;> next e => exact hi.of_eq e

@[simp] theorem Module.writeHoldLocs_memForm {x : List (ℕ × ℕ)} {x1 : List Byte} (h : m.MemForm) :
    (m.writeHoldLocs x x1).MemForm := by
  induction x generalizing m x1 with
  | nil => exact h
  | cons a l ih => exact ih h.setBytes_hold

@[simp] theorem Module.countHold_memForm {ten n : ℕ} (h : m.MemForm) : (m.countHold ten n).MemForm := by
  unfold Module.countHold
  split <;> simp [h]

@[simp] theorem Module.readHold_memForm {b : Block} {ten h n : ℕ} (hm : m.MemForm) :
    (m.readHold b ten h n).2.MemForm := by
  unfold Module.readHold
  grind [Module.probe_memForm, Module.holdRefuse_memForm, Module.pathCheck_memForm, Module.readHoldLocs_memForm,
    Module.countHold_memForm]

@[simp] theorem Module.writeHold_memForm {ten h : ℕ} {bs : List Byte} (hm : m.MemForm) :
    (m.writeHold ten h bs).2.MemForm := by
  unfold Module.writeHold
  grind [Module.probe_memForm, Module.holdRefuse_memForm, Module.writeHoldLocs_memForm, Module.countHold_memForm]

@[simp] theorem Module.holdAsRead_memForm {ten h n : ℕ} (hm : m.MemForm) : (m.holdAsRead ten h n).2.MemForm := by
  unfold Module.holdAsRead
  split <;> simp [hm]

end Sys2Proof.Machine
end

