-- ==== Sys2Proof/Proofs/FormHost.lean ====
section
/-! The canonical form of DRAM and Hold is kept by the operations of the host, the routes, the ports, the sync plane and the weights. -/

namespace Sys2Proof.Machine

variable {m : Module}

/-! ### HostOps.lean -/

@[simp] theorem Module.setRing_memForm {g : ℕ} {r : Ring} (h : m.MemForm) : (m.setRing g r).MemForm := h

@[simp] theorem Module.ringFail_memForm {g : ℕ} (h : m.MemForm) : (m.ringFail g).MemForm := by
  unfold Module.ringFail
  simp [h]

@[simp] theorem Module.writePointer_memForm {g v : ℕ} {act : Module → Module} (hact : ∀ m, m.MemForm →
    (act m).MemForm)
    (h : m.MemForm) : (m.writePointer g v act).2.MemForm := by
  unfold Module.writePointer
  grind [Module.writeVA_memForm, Module.ringFail_memForm]

@[simp] theorem Module.fireArm_memForm {g : ℕ} (h : m.MemForm) : (m.fireArm g).MemForm := by
  unfold Module.fireArm
  grind [Module.setRing_memForm, Module.pfVector_memForm, Module.send_memForm]

@[simp] theorem Module.postEntry_memForm {g : ℕ} {bs : List Byte} (h : m.MemForm) : (m.postEntry g bs).MemForm := by
  unfold Module.postEntry
  grind [Module.writeVA_memForm, Module.ringFail_memForm, Module.writePointer_memForm, Module.fireArm_memForm,
    Module.setFld_memForm]

@[simp] theorem Module.reserve_memForm {g n : ℕ} (h : m.MemForm) : (m.reserve g n).MemForm := h

@[simp] theorem Module.unreserve_memForm {g n : ℕ} (h : m.MemForm) : (m.unreserve g n).MemForm := h

@[simp] theorem Module.readEntry_memForm {g : ℕ} (h : m.MemForm) : (m.readEntry g).2.MemForm := by
  unfold Module.readEntry
  grind [Module.readVA_memForm, Module.ringFail_memForm]

@[simp] theorem Module.advanceHead_memForm {g : ℕ} (h : m.MemForm) : (m.advanceHead g).2.MemForm := by
  unfold Module.advanceHead
  grind [Module.writePointer_memForm, Module.setFld_memForm, Module.setRing_memForm]

@[simp] theorem Module.newRound_memForm {ty need : ℕ} {t : Ten} (h : m.MemForm) : (m.newRound ty need t).MemForm := by
  unfold Module.newRound
  grind [memForm_foldl, Module.setRing_memForm]

@[simp] theorem Module.takeEntry_memForm {ty need g : ℕ} (h : m.MemForm) : (m.takeEntry ty need g).2.MemForm := by
  unfold Module.takeEntry
  grind [Module.newRound_memForm, Module.readEntry_memForm, Module.advanceHead_memForm]

@[simp] theorem Module.guardTen_memForm {f : Func} {t : Ten} {act : Module → Module}
    (hact : ∀ m, m.MemForm → (act m).MemForm) (h : m.MemForm) : (m.guardTen f t act).MemForm := by
  unfold Module.guardTen
  grind [Module.raise_memForm, Module.violation_memForm]

@[simp] theorem Module.setCmd_memForm {id : ℕ} {c : Cmd} (h : m.MemForm) : (m.setCmd id c).MemForm := h

@[simp] theorem Module.countInflight_memForm {t : Ten} (h : m.MemForm) : (m.countInflight t).MemForm := by
  unfold Module.countInflight
  simp [h]

@[simp] theorem Module.finish_memForm {id status detail : ℕ} (h : m.MemForm) :
    (m.finish id status detail).MemForm := by
  unfold Module.finish
  split <;> simp [h]

@[simp] theorem Module.finishFail_memForm {id : ℕ} {e : Fail} (h : m.MemForm) : (m.finishFail id e).MemForm := by
  unfold Module.finishFail
  simp [h]

@[simp] theorem Module.commitCmd_memForm {id : ℕ} (h : m.MemForm) : (m.commitCmd id).MemForm := by
  unfold Module.commitCmd
  split <;> simp [h]

@[simp] theorem Module.dropCmd_memForm {id : ℕ} (h : m.MemForm) : (m.dropCmd id).MemForm := by
  unfold Module.dropCmd
  grind [Module.countInflight_memForm, Module.unreserve_memForm]

@[simp] theorem Module.killCmd_memForm {id : ℕ} (h : m.MemForm) : (m.killCmd id).MemForm := by
  unfold Module.killCmd
  split
  · exact h
  · next c _ =>
    have hk : ∀ x, (Module.countInflight (if c.ten = house then m.setCmd id x
        else (m.setCmd id x).addFld Fld.QUE_TEN_KILLS_COUNT c.ten.val 0) c.ten).MemForm := fun x =>
      Module.countInflight_memForm (memForm_ite (Module.setCmd_memForm h) (Module.addFld_memForm
        (Module.setCmd_memForm h)))
    simp only
    split
    · exact hk _
    · exact memForm_ite (Module.postEntry_memForm (hk _)) (hk _)

@[simp] theorem Module.refuseHeader_memForm {id : ℕ} {c : Cmd} {status : ℕ} (h : m.MemForm) :
    (m.refuseHeader id c status).MemForm := by
  unfold Module.refuseHeader
  split <;> simp [h]

@[simp] theorem Module.withCmd_memForm {id op : ℕ} {f : Cmd → Module → Module}
    (hf : ∀ c m, m.MemForm → (f c m).MemForm) (h : m.MemForm) : (m.withCmd id op f).MemForm := by
  unfold Module.withCmd
  grind [Module.refuseHeader_memForm, Module.setCmd_memForm]

/-! ### RouteOps.lean -/

@[simp] theorem Module.setTileAt_memForm {k : ℕ} {x : Tile} (h : m.MemForm) : (m.setTileAt k x).MemForm := h

@[simp] theorem Module.setTile_memForm {t : TileId} {x : Tile} (h : m.MemForm) : (m.setTile t x).MemForm := h

@[simp] theorem Module.mapTiles_memForm {c : ℕ} {f : Tile → Tile} (h : m.MemForm) : (m.mapTiles c f).MemForm := by
  unfold Module.mapTiles
  simp +contextual [h]

@[simp] theorem Module.mapSpan_memForm {t : TileId} {f : TileId → Tile → Tile} (h : m.MemForm) :
    (m.mapSpan t f).MemForm := by
  unfold Module.mapSpan
  simp +contextual [h]

@[simp] theorem Module.setCl_memForm {c : ℕ} {x : Cl} (h : m.MemForm) : (m.setCl c x).MemForm := h

@[simp] theorem Module.setRoute_memForm {n : ℕ} {f : Route → Route} (h : m.MemForm) : (m.setRoute n f).MemForm := by
  unfold Module.setRoute
  split <;> simp [h]

@[simp] theorem Module.setStage_memForm {n i : ℕ} {f : Stage → Stage} (h : m.MemForm) :
    (m.setStage n i f).MemForm := by
  unfold Module.setStage
  simp [h]

@[simp] theorem Module.mirrorRoute_memForm {n : ℕ} (h : m.MemForm) : (m.mirrorRoute n).MemForm := h

@[simp] theorem Module.mirrorTen_memForm {t : Ten} (h : m.MemForm) : (m.mirrorTen t).MemForm := h

@[simp] theorem Module.setClState_memForm {c v : ℕ} (h : m.MemForm) : (m.setClState c v).MemForm := by
  unfold Module.setClState
  simp [h]

@[simp] theorem Module.wipeCluster_memForm {c : ℕ} (h : m.MemForm) : (m.wipeCluster c).MemForm := by
  unfold Module.wipeCluster
  simp [h]

@[simp] theorem Module.idleCluster_memForm {c : ℕ} (h : m.MemForm) : (m.idleCluster c).MemForm := by
  unfold Module.idleCluster
  grind [Module.wipeCluster_memForm, Module.setCl_memForm, Module.setFld_memForm, Module.setFlag_memForm,
    Module.setClState_memForm]

@[simp] theorem Module.setAssign_memForm {c : ℕ} {valid : Bool} {ten logical : ℕ} (h : m.MemForm) :
    (m.setAssign c valid ten logical).MemForm := h

@[simp] theorem Module.countBusy_memForm {ten n i : ℕ} {step : Word64} {busy : ℕ} (h : m.MemForm) :
    (m.countBusy ten n i step busy).MemForm := by
  unfold Module.countBusy
  simp [h]

@[simp] theorem Module.restState_memForm {c : ℕ} (h : m.MemForm) : (m.restState c).MemForm := by
  unfold Module.restState
  simp [h]

@[simp] theorem Module.takeLogical_memForm {t : Ten} {c l : ℕ} (h : m.MemForm) : (m.takeLogical t c l).MemForm := by
  unfold Module.takeLogical
  grind [Module.setAssign_memForm]

@[simp] theorem Module.assignSkew_memForm (h : m.MemForm) : m.assignSkew.MemForm := h

@[simp] theorem Module.abandonMigration_memForm {n b : ℕ} (h : m.MemForm) : (m.abandonMigration n b).MemForm := by
  unfold Module.abandonMigration
  grind [memForm_foldl, Module.scrubFrame_memForm, Module.setRoute_memForm, Module.raise_memForm,
    Module.mirrorKeys_memForm]

@[simp] theorem Module.abandonAll_memForm {n : ℕ} (h : m.MemForm) : (m.abandonAll n).MemForm := by
  unfold Module.abandonAll
  grind [memForm_foldl, Module.abandonMigration_memForm]

@[simp] theorem Module.setChState_memForm {c v : ℕ} (h : m.MemForm) : (m.setChState c v).MemForm := h

@[simp] theorem Module.resumeTen_memForm {t : Ten} (h : m.MemForm) : (m.resumeTen t).MemForm := by
  unfold Module.resumeTen
  grind [memForm_foldl, Module.setFld_memForm, Module.setCl_memForm, Module.setChState_memForm, Module.notice_memForm]

@[simp] theorem Module.checkSuspended_memForm {t : Ten} (h : m.MemForm) : (m.checkSuspended t).MemForm := by
  unfold Module.checkSuspended
  grind [Module.notice_memForm, Module.setFld_memForm, Module.resumeTen_memForm]

@[simp] theorem Module.recountBarriers_memForm {n : ℕ} (h : m.MemForm) : (m.recountBarriers n).MemForm := by
  unfold Module.recountBarriers
  simp [h]

@[simp] theorem Module.atBoundary_memForm {n c : ℕ} (h : m.MemForm) : (m.atBoundary n c).MemForm := by
  unfold Module.atBoundary
  simp [h]

@[simp] theorem Module.changedRoute_memForm {n : ℕ} (h : m.MemForm) : (m.changedRoute n).MemForm := by
  unfold Module.changedRoute
  simp [h]

/-! ### PortOps.lean -/

@[simp] theorem Module.setPort_memForm {p : ℕ} {x : Port} (h : m.MemForm) : (m.setPort p x).MemForm := h

@[simp] theorem Module.setPortState_memForm {p v : ℕ} (h : m.MemForm) : (m.setPortState p v).MemForm := h

@[simp] theorem Module.putFlit_memForm {p : ℕ} {x : OutMsg} (h : m.MemForm) : (m.putFlit p x).MemForm := by
  unfold Module.putFlit
  grind [Module.send_memForm, Module.setPort_memForm]

@[simp] theorem Module.sendIdle_memForm {p : ℕ} (h : m.MemForm) : (m.sendIdle p).MemForm := by
  unfold Module.sendIdle
  simp [h]

@[simp] theorem Module.sendLinkFlit_memForm {p : ℕ} {info : LinkInfo} (h : m.MemForm) :
    (m.sendLinkFlit p info).MemForm := by
  unfold Module.sendLinkFlit
  simp [h]

@[simp] theorem Module.emitFlits_memForm {p from_ : ℕ} {x : TxPkt} (h : m.MemForm) :
    (m.emitFlits p from_ x).MemForm := by
  unfold Module.emitFlits
  grind [memForm_foldl, Module.putFlit_memForm]

@[simp] theorem Module.startTx_memForm {p : ℕ} {x : TxPkt} (h : m.MemForm) : (m.startTx p x).MemForm := by
  unfold Module.startTx
  grind [Module.setPort_memForm, Module.addFld_memForm, Module.emitFlits_memForm]

@[simp] theorem Module.pumpTx_memForm {p x : ℕ} (h : m.MemForm) : (m.pumpTx p x).MemForm := by
  induction x generalizing m p with
  | zero => exact h
  | succ n ih =>
    unfold Module.pumpTx
    grind [Module.startTx_memForm]

@[simp] theorem Module.drainTx_memForm {p : ℕ} (h : m.MemForm) : (m.drainTx p).MemForm := by
  unfold Module.drainTx
  simp [h]

@[simp] theorem Module.sendTx_memForm {p : ℕ} {x : TxPkt} (h : m.MemForm) : (m.sendTx p x).MemForm := by
  unfold Module.sendTx
  simp [h]

@[simp] theorem Module.releaseAcked_memForm {p : ℕ} {ack : BitVec 16} (h : m.MemForm) :
    (m.releaseAcked p ack).MemForm := by
  unfold Module.releaseAcked
  grind [Module.setPort_memForm]

@[simp] theorem Module.ackPort_memForm {p : ℕ} {ack : BitVec 16} (h : m.MemForm) : (m.ackPort p ack).MemForm := by
  unfold Module.ackPort
  simp [h]

@[simp] theorem Module.replayPort_memForm {p : ℕ} {fresh : Bool} (h : m.MemForm) :
    (m.replayPort p fresh).MemForm := by
  unfold Module.replayPort
  grind [memForm_foldl, Module.setPort_memForm, Module.addFld_memForm, Module.count_memForm, Module.emitFlits_memForm]

@[simp] theorem Module.sendNak_memForm {p : ℕ} (h : m.MemForm) : (m.sendNak p).MemForm := by
  unfold Module.sendNak
  simp [h]

@[simp] theorem Module.startRetrain_memForm {p : ℕ} (h : m.MemForm) : (m.startRetrain p).MemForm := by
  unfold Module.startRetrain
  grind [Module.setPort_memForm, Module.addFld_memForm, Module.setPortState_memForm, Module.send_memForm,
    Module.raise_memForm, Module.count_memForm]

@[simp] theorem Module.nakPort_memForm {p : ℕ} {ack : BitVec 16} (h : m.MemForm) : (m.nakPort p ack).MemForm := by
  unfold Module.nakPort
  grind [Module.releaseAcked_memForm, Module.startRetrain_memForm, Module.drainTx_memForm, Module.replayPort_memForm]

/-! ### SyncOps.lean -/

@[simp] theorem Module.sendTunnel_memForm {ten p : ℕ} {msg : List Byte} (h : m.MemForm) :
    (m.sendTunnel ten p msg).MemForm := by
  unfold Module.sendTunnel
  simp [h]

@[simp] theorem Module.holdSync_memForm {ten p : ℕ} {msg : List Byte} (h : m.MemForm) :
    (m.holdSync ten p msg).MemForm := h

@[simp] theorem Module.cutSync_memForm {ten p : ℕ} {msg : List Byte} (h : m.MemForm) :
    (m.cutSync ten p msg).MemForm := by
  unfold Module.cutSync
  simp [h]

@[simp] theorem Module.sendSync_memForm {ten p : ℕ} {msg : List Byte} (h : m.MemForm) :
    (m.sendSync ten p msg).MemForm := by
  unfold Module.sendSync
  grind [Module.sendTunnel_memForm, Module.cutSync_memForm, Module.holdSync_memForm, Module.send_memForm]

@[simp] theorem Module.sendStage_memForm {o : GroupOp} (h : m.MemForm) : (m.sendStage o).MemForm := by
  unfold Module.sendStage
  grind [Module.raise_memForm, Module.sendSync_memForm]

@[simp] theorem Module.putOp_memForm {o : GroupOp} (h : m.MemForm) : (m.putOp o).MemForm := by
  unfold Module.putOp
  simp [h]

@[simp] theorem Module.countOps_memForm {t : Ten} (h : m.MemForm) : (m.countOps t).MemForm := h

@[simp] theorem Module.advanceOp_memForm {o : GroupOp} {x : ℕ} (h : m.MemForm) : (m.advanceOp o x).2.MemForm := by
  induction x generalizing m o with
  | zero => exact h
  | succ n ih =>
    unfold Module.advanceOp
    grind [Module.sendStage_memForm]

@[simp] theorem Module.pushOp_memForm {o : GroupOp} (h : m.MemForm) : (m.pushOp o).MemForm := by
  unfold Module.pushOp
  simp [h]

@[simp] theorem Module.startGroup_memForm {t : Ten} {group op name phase : ℕ} {v : Word64} (h : m.MemForm) :
    (m.startGroup t group op name phase v).MemForm := by
  unfold Module.startGroup
  grind [Module.countOps_memForm, Module.pushOp_memForm, Module.sendStage_memForm]

/-! ### WeightOps.lean -/

@[simp] theorem Module.mirrorWeights_memForm {ten : ℕ} (h : m.MemForm) : (m.mirrorWeights ten).MemForm := by
  unfold Module.mirrorWeights
  grind [Module.setReg_memForm]

@[simp] theorem Module.setWrec_memForm {ten : ℕ} {w : WRecord} (h : m.MemForm) : (m.setWrec ten w).MemForm := by
  unfold Module.setWrec
  simp [h]

@[simp] theorem Module.dropWrec_memForm {ten : ℕ} (h : m.MemForm) : (m.dropWrec ten).MemForm := by
  unfold Module.dropWrec
  simp [h]

@[simp] theorem Module.takeSettings_memForm {ten : ℕ} (h : m.MemForm) : (m.takeSettings ten).MemForm := by
  unfold Module.takeSettings
  split <;> simp [h]

@[simp] theorem Module.trimBerths_memForm {ten : ℕ} (h : m.MemForm) : (m.trimBerths ten).MemForm := by
  unfold Module.trimBerths
  split <;> simp [h]

@[simp] theorem Module.clearSrcErrs_memForm {src : Option ℕ} (h : m.MemForm) : (m.clearSrcErrs src).MemForm := by
  unfold Module.clearSrcErrs
  split <;> simp [h]

@[simp] theorem Module.readTwice_memForm {src : Option ℕ} {ten va n : ℕ} (h : m.MemForm) :
    (m.readTwice src ten va n).2.MemForm := by
  unfold Module.readTwice
  grind [Module.clearSrcErrs_memForm, Module.readVA_memForm, Module.raise_memForm]

@[simp] theorem Module.copySlice_memForm {src : Option ℕ} {ten : ℕ} {w : WRecord} {l : ℕ} {v : BitVec 16} {b : ℕ}
    (h : m.MemForm) : (m.copySlice src ten w l v b).2.MemForm := by
  unfold Module.copySlice
  grind [Module.readTwice_memForm, Module.writeHold_memForm, Module.addFld_memForm]

theorem Module.stageLayer_memForm {ten l : ℕ} {v : BitVec 16} {m' : Module} (h : m.MemForm)
    (e : m.stageLayer ten l v = some m') : m'.MemForm := by
  unfold Module.stageLayer at e
  grind [Module.copySlice_memForm, Module.when_memForm, Module.drawn_memForm, Module.setWrec_memForm]

@[simp] theorem Module.berthError_memForm {ten : Ten} {step : Word64} {bad : List ℕ} (h : m.MemForm) :
    (m.berthError ten step bad).MemForm := by
  unfold Module.berthError
  split <;> simp [h]

@[simp] theorem Module.setTravel_memForm {ten : ℕ} {f : WSwap → WSwap} (h : m.MemForm) :
    (m.setTravel ten f).MemForm := by
  unfold Module.setTravel
  split <;> simp [h]

@[simp] theorem Module.fixFront_memForm {ten : ℕ} {s : Word64} (h : m.MemForm) : (m.fixFront ten s).MemForm := by
  unfold Module.fixFront
  simp [h]

@[simp] theorem Module.weightRerun_memForm {n : ℕ} (h : m.MemForm) : (m.weightRerun n).MemForm := by
  unfold Module.weightRerun
  grind [Module.setWrec_memForm]

@[simp] theorem Module.weightCommit_memForm {n i : ℕ} (h : m.MemForm) : (m.weightCommit n i).MemForm := by
  unfold Module.weightCommit
  grind [Module.trimBerths_memForm, Module.takeSettings_memForm, Module.setWrec_memForm]

@[simp] theorem Module.weightUnload_memForm {n : ℕ} {r : Route} (h : m.MemForm) : (m.weightUnload n r).MemForm := by
  unfold Module.weightUnload
  grind [Module.trimBerths_memForm, Module.setWrec_memForm]

@[simp] theorem Module.askLayer_memForm {ten c key : ℕ} {sg : Stage} {step : Word64} {l : ℕ} (h : m.MemForm) :
    (m.askLayer ten c key sg step l).MemForm := by
  unfold Module.askLayer
  grind [Module.trimBerths_memForm, Module.setWrec_memForm]

end Sys2Proof.Machine
end

