-- ==== Sys2Proof/Proofs/FormExchange.lean ====
section
/-! The canonical form of DRAM and Hold is kept by the operations of caravans, links, ferries, rings, ledgers, checkpoints, generation, learning and the fabric. -/

namespace Sys2Proof.Machine

variable {m : Module}

/-! ### CaravanOps.lean -/

@[simp] theorem Module.mirrorFill_memForm {t : Ten} (h : m.MemForm) : (m.mirrorFill t).MemForm := h

@[simp] theorem Module.setCaravan_memForm {k : ℕ} {c : Caravan} (h : m.MemForm) : (m.setCaravan k c).MemForm := by
  unfold Module.setCaravan
  split <;> simp [h]

@[simp] theorem Module.starve_memForm {k : ℕ} (h : m.MemForm) : (m.starve k).MemForm := by
  unfold Module.starve
  split <;> simp [h]

@[simp] theorem Module.cvnReserve_memForm {k n : ℕ} (h : m.MemForm) : (m.cvnReserve k n).MemForm := h

@[simp] theorem Module.cvnReturn_memForm {k n : ℕ} (h : m.MemForm) : (m.cvnReturn k n).MemForm := h

@[simp] theorem Module.cvnFault_memForm {k status : ℕ} (h : m.MemForm) : (m.cvnFault k status).MemForm := by
  unfold Module.cvnFault
  simp [h]

@[simp] theorem Module.writeSlots_memForm {ten : ℕ} {c : Caravan} {s : ℕ} {x : List (List Byte)} (h : m.MemForm) :
    (m.writeSlots ten c s x).2.MemForm := by
  induction x generalizing m ten c s with
  | nil => exact h
  | cons a l ih =>
    unfold Module.writeSlots
    grind [Module.writeVA_memForm]

@[simp] theorem Module.cvnAppend_memForm {t : Ten} {k : ℕ} {slots : List (List Byte)} (h : m.MemForm) :
    (m.cvnAppend t k slots).2.MemForm := by
  unfold Module.cvnAppend
  grind [Module.writeSlots_memForm, Module.cvnFault_memForm, Module.count_memForm]

@[simp] theorem Module.cvnPublish_memForm {t : Ten} {k : ℕ} (h : m.MemForm) : (m.cvnPublish t k).MemForm := by
  unfold Module.cvnPublish
  grind [Module.setCaravan_memForm, Module.writeVA_memForm, Module.mirrorFill_memForm, Module.cvnFault_memForm,
    Module.setFld_memForm]

@[simp] theorem Module.cvnPin_memForm {k id slot : ℕ} (h : m.MemForm) : (m.cvnPin k id slot).MemForm := by
  unfold Module.cvnPin
  split <;> simp [h]

@[simp] theorem Module.cvnUnpin_memForm {k id : ℕ} (h : m.MemForm) : (m.cvnUnpin k id).MemForm := by
  unfold Module.cvnUnpin
  split <;> simp [h]

@[simp] theorem Module.cvnRelease_memForm {k endSlot : ℕ} (h : m.MemForm) : (m.cvnRelease k endSlot).MemForm := by
  unfold Module.cvnRelease
  split <;> simp [h]

@[simp] theorem Module.setSeq_memForm {k endSlot : ℕ} {f : CSeq → CSeq} (h : m.MemForm) :
    (m.setSeq k endSlot f).MemForm := by
  unfold Module.setSeq
  split <;> simp [h]

@[simp] theorem Module.cvnEnded_memForm {t : Ten} {k : ℕ} {q : CSeq} (h : m.MemForm) :
    (m.cvnEnded t k q).MemForm := by
  unfold Module.cvnEnded
  grind [Module.addFld_memForm, Module.setCaravan_memForm]

@[simp] theorem Module.untakeSeqs_memForm {t : Ten} (h : m.MemForm) : (m.untakeSeqs t).MemForm := by
  unfold Module.untakeSeqs
  simp [h]

/-! ### LinkOps.lean -/

@[simp] theorem Module.losePacket_memForm {p : ℕ} (h : m.MemForm) : (m.losePacket p).MemForm := by
  unfold Module.losePacket
  simp [h]

@[simp] theorem Module.sendHop_memForm {k : Packet} {came : Option ℕ} {p : ℕ} {detour : Bool} (h : m.MemForm) :
    (m.sendHop k came p detour).MemForm := by
  unfold Module.sendHop
  simp [h]

@[simp] theorem Module.forward_memForm {k : Packet} {came : Option ℕ} (h : m.MemForm) :
    (m.forward k came).MemForm := by
  unfold Module.forward
  grind [Module.losePacket_memForm, Module.addFld_memForm, Module.bill_memForm, Module.sendHop_memForm]

@[simp] theorem Module.filterDrop_memForm {p : ℕ} (h : m.MemForm) : (m.filterDrop p).MemForm := by
  unfold Module.filterDrop
  grind [Module.raise_memForm, Module.violation_memForm, Module.addFld_memForm]

@[simp] theorem Module.deliver_memForm {p : ℕ} {k : Packet} (h : m.MemForm) : (m.deliver p k).MemForm := by
  unfold Module.deliver
  grind [Module.filterDrop_memForm, Module.raise_memForm, Module.probe_memForm, Module.bill_memForm]

@[simp] theorem Module.takeIn_memForm {k : Packet} {kind : ℕ} {f : Ten → Module → Module}
    (hf : ∀ t m, m.MemForm → (f t m).MemForm) (h : m.MemForm) : (m.takeIn k kind f).MemForm := by
  unfold Module.takeIn
  split
  · exact hf _ _ h
  · exact h

@[simp] theorem Module.sendLink_memForm {ten dst kind spec : ℕ} {payload : List Byte} (h : m.MemForm) :
    (m.sendLink ten dst kind spec payload).MemForm := by
  unfold Module.sendLink
  grind [Module.bill_memForm, Module.deliver_memForm, Module.forward_memForm]

@[simp] theorem Module.abortPartial_memForm {p : ℕ} {bs : List Byte} (h : m.MemForm) :
    (m.abortPartial p bs).MemForm := by
  unfold Module.abortPartial
  grind [Module.addFld_memForm, Module.sendTx_memForm]

@[simp] theorem Module.closePort_memForm {p st : ℕ} (h : m.MemForm) : (m.closePort p st).MemForm := by
  unfold Module.closePort
  grind [memForm_foldl, Module.setPortState_memForm, Module.setFld_memForm, Module.setPort_memForm,
    Module.forward_memForm, Module.holdSync_memForm, Module.abortPartial_memForm]

@[simp] theorem Module.flushSync_memForm {p : ℕ} {ok : ℕ × List Byte → Bool} (h : m.MemForm) :
    (m.flushSync p ok).MemForm := by
  unfold Module.flushSync
  simp +contextual [h]

@[simp] theorem Module.resendSync_memForm {p : ℕ} (h : m.MemForm) : (m.resendSync p).MemForm := by
  unfold Module.resendSync
  grind [memForm_foldl, Module.setPort_memForm, Module.sendSync_memForm, Module.flushSync_memForm]

@[simp] theorem Module.cutOps_memForm {p : ℕ} (h : m.MemForm) : (m.cutOps p).MemForm := by
  unfold Module.cutOps
  grind [memForm_foldl, Module.raise_memForm]

/-! ### FerryOps.lean -/

@[simp] theorem Module.setFerry_memForm {c : ℕ} {x : Ferry} (h : m.MemForm) : (m.setFerry c x).MemForm := h

@[simp] theorem Module.postFerry_memForm {c : ℕ} {b : List Byte} {status detail : ℕ} (h : m.MemForm) :
    (m.postFerry c b status detail).MemForm := by
  unfold Module.postFerry
  grind [Module.setRing_memForm, Module.postEntry_memForm, Module.unreserve_memForm]

@[simp] theorem Module.haltFerry_memForm {c status kind : ℕ} {write remote : Bool} {addr : ℕ} (h : m.MemForm) :
    (m.haltFerry c status kind write remote addr).MemForm := by
  unfold Module.haltFerry
  grind [Module.setFld_memForm, Module.setReg_memForm, Module.setFerry_memForm, Module.postFerry_memForm,
    Module.checkSuspended_memForm, Module.raise_memForm, Module.setChState_memForm]

@[simp] theorem Module.ferryRead_memForm {t : ℕ} {b : List Byte} {o n : ℕ} (h : m.MemForm) :
    (m.ferryRead t b o n).2.MemForm := by
  unfold Module.ferryRead
  split <;> simp [h]

@[simp] theorem Module.ferryWrite_memForm {t : ℕ} {b : List Byte} {o : ℕ} {bs : List Byte} (h : m.MemForm) :
    (m.ferryWrite t b o bs).2.MemForm := by
  unfold Module.ferryWrite
  simp [h]

@[simp] theorem Module.ferryMoved_memForm {c n : ℕ} (h : m.MemForm) : (m.ferryMoved c n).MemForm := h

@[simp] theorem Module.ferryRun_memForm {c stop : ℕ} {b : List Byte} {x : ℕ} (h : m.MemForm) :
    (m.ferryRun c stop b x).MemForm := by
  induction x generalizing m c stop b with
  | zero => exact h
  | succ n ih =>
    unfold Module.ferryRun
    grind [Module.ferryRead_memForm, Module.haltFerry_memForm, Module.drawn_memForm, Module.ferryWrite_memForm,
      Module.ferryMoved_memForm]

@[simp] theorem Module.issueChunk_memForm {c : ℕ} {b : List Byte} {k : ℕ} (h : m.MemForm) :
    (m.issueChunk c b k).MemForm := by
  unfold Module.issueChunk
  grind [Module.haltFerry_memForm, Module.setFerry_memForm, Module.sendLink_memForm, Module.ferryRead_memForm]

@[simp] theorem Module.issueChunks_memForm {c : ℕ} {b : List Byte} {x : ℕ} (h : m.MemForm) :
    (m.issueChunks c b x).MemForm := by
  induction x generalizing m c b with
  | zero => exact h
  | succ n ih =>
    unfold Module.issueChunks
    grind [Module.setFerry_memForm, Module.issueChunk_memForm]

@[simp] theorem Module.chunkDone_memForm {c : ℕ} {b : List Byte} {k : ℕ} (h : m.MemForm) :
    (m.chunkDone c b k).MemForm := h

@[simp] theorem Module.driveFerry_memForm {c : ℕ} {all : Bool} (h : m.MemForm) : (m.driveFerry c all).MemForm := by
  unfold Module.driveFerry
  grind [Module.setFerry_memForm, Module.reserve_memForm, Module.haltFerry_memForm, Module.issueChunks_memForm,
    Module.ferryRun_memForm, Module.drawn_memForm]

@[simp] theorem Module.checkPaused_memForm {c : ℕ} (h : m.MemForm) : (m.checkPaused c).MemForm := by
  unfold Module.checkPaused
  grind [Module.checkSuspended_memForm, Module.setChState_memForm]

@[simp] theorem Module.pauseFerry_memForm {c : ℕ} {drain : Bool} (h : m.MemForm) :
    (m.pauseFerry c drain).MemForm := by
  unfold Module.pauseFerry
  grind [Module.checkPaused_memForm, Module.setFerry_memForm, Module.setChState_memForm]

@[simp] theorem Module.freeChannel_memForm {c : ℕ} (h : m.MemForm) : (m.freeChannel c).MemForm := by
  unfold Module.freeChannel
  grind [Module.unreserve_memForm, Module.setChState_memForm, Module.setReg_memForm]

@[simp] theorem Module.bindChannel_memForm {t : Ten} {g c : ℕ} (h : m.MemForm) : (m.bindChannel t g c).MemForm := h

/-! ### RegOps.lean -/

@[simp] theorem Module.storeFields_memForm {r : RegId} {i j mask v : ℕ} (h : m.MemForm) :
    (m.storeFields r i j mask v).MemForm := h

/-! ### Rings.lean -/

@[simp] theorem Module.disableRing_memForm {g : ℕ} (h : m.MemForm) : (m.disableRing g).MemForm := by
  unfold Module.disableRing
  grind [Module.freeChannel_memForm, Module.mirrorFill_memForm, Module.setFld_memForm, Module.setFlag_memForm]

@[simp] theorem Module.openRing_memForm {t : Ten} {g : ℕ} (h : m.MemForm) : (m.openRing t g).MemForm := by
  unfold Module.openRing
  grind [Module.setFlag_memForm, Module.setFld_memForm, Module.setRing_memForm, Module.setReg_memForm,
    Module.bindChannel_memForm, Module.writeVA_memForm, Module.ringFail_memForm]

@[simp] theorem Module.enableRing_memForm {f : Func} {g : ℕ} (h : m.MemForm) : (m.enableRing f g).MemForm := by
  unfold Module.enableRing
  grind [Module.useEntry_memForm, Module.openRing_memForm, Module.raise_memForm]

@[simp] theorem Module.spoilRing_memForm {g : ℕ} (h : m.MemForm) : (m.spoilRing g).MemForm := h

@[simp] theorem Module.reshape_memForm {g : ℕ} {store : Module → Module} (hs : ∀ m, m.MemForm → (store m).MemForm)
    (h : m.MemForm) : (m.reshape g store).MemForm := by
  unfold Module.reshape
  grind [memForm_foldl, Module.spoilRing_memForm]

@[simp] theorem Module.writeRingCfg_memForm {f : Func} {mask v : ℕ} (h : m.MemForm) :
    (m.writeRingCfg f mask v).MemForm := by
  unfold Module.writeRingCfg
  grind [Module.storeFields_memForm, Module.disableRing_memForm, Module.raise_memForm, Module.enableRing_memForm,
    Module.reshape_memForm]

@[simp] theorem execRingEnable_keepsForm {s : State} {f : Func} {value : Word64} (h : s.mod.MemForm) :
    KeepsForm (execRingEnable f value s) := by
  unfold execRingEnable
  apply State.run_keepsForm
  grind [Module.writeRingCfg_memForm]

@[simp] theorem execRingDisable_keepsForm {s : State} {f : Func} {value : Word64} (h : s.mod.MemForm) :
    KeepsForm (execRingDisable f value s) := by
  unfold execRingDisable
  apply State.run_keepsForm
  grind [Module.writeRingCfg_memForm]

@[simp] theorem Module.badDoorbell_memForm {t : Ten} {g : ℕ} (h : m.MemForm) : (m.badDoorbell t g).MemForm := by
  unfold Module.badDoorbell
  simp [h]

@[simp] theorem Module.ringBell_memForm {g index : ℕ} {arm : Bool} (h : m.MemForm) :
    (m.ringBell g index arm).MemForm := by
  unfold Module.ringBell
  split
  · split
    · exact Module.ringFail_memForm h
    · exact memForm_ite (Module.setRing_memForm (Module.setFld_memForm h)) (Module.setFld_memForm h)
  · split
    · exact Module.ringFail_memForm h
    · exact memForm_ite (Module.fireArm_memForm (Module.setRing_memForm (Module.setFld_memForm h)))
        (Module.setFld_memForm h)

@[simp] theorem execDoorbell_keepsForm {s : State} {f : Func} {ring : BitVec 15} {bytes : Bool} {value : Word64}
    (h : s.mod.MemForm) : KeepsForm (execDoorbell f ring bytes value s) := by
  unfold execDoorbell
  apply State.run_keepsForm
  grind [Module.badDoorbell_memForm, Module.useEntry_memForm, Module.violation_memForm, Module.raise_memForm,
    Module.ringBell_memForm]

@[simp] theorem Module.hcpRequest_memForm {f : Func} {value : Word} (h : m.MemForm) :
    (m.hcpRequest f value).MemForm := by
  unfold Module.hcpRequest
  grind [Module.storeFields_memForm, Module.setReg_memForm]

@[simp] theorem execHcpReq_keepsForm {s : State} {f : Func} {value : Word} (h : s.mod.MemForm) :
    KeepsForm (execHcpReq f value s) := by
  unfold execHcpReq
  apply State.run_keepsForm
  grind [Module.hcpRequest_memForm]

@[simp] theorem Module.sendLtr_memForm (h : m.MemForm) : m.sendLtr.MemForm := h

@[simp] theorem Module.writeLtr_memForm {value : Word} (h : m.MemForm) : (m.writeLtr value).MemForm := h

@[simp] theorem execHifLtrWrite_keepsForm {s : State} {value : Word} (h : s.mod.MemForm) :
    KeepsForm (execHifLtrWrite value s) := by
  unfold execHifLtrWrite
  apply State.run_keepsForm
  grind [Module.writeLtr_memForm]

@[simp] theorem execPcieLinkDown_keepsForm {s : State} (h : s.mod.MemForm) : KeepsForm (execPcieLinkDown s) := by
  unfold execPcieLinkDown
  apply State.run_keepsForm
  grind [Module.raise_memForm, Module.setReg_memForm]

@[simp] theorem Module.trainLink_memForm (h : m.MemForm) : m.trainLink.MemForm := by
  unfold Module.trainLink
  grind [Module.drawn_memForm, Module.setReg_memForm]

@[simp] theorem execPerstNRelease_keepsForm {s : State} (h : s.mod.MemForm) : KeepsForm (execPerstNRelease s) := by
  unfold execPerstNRelease
  apply State.run_keepsForm
  grind [Module.trainLink_memForm]

/-! ### LedgerOps.lean -/

@[simp] theorem Module.setBacklog_memForm {q : List LedgerRow} (h : m.MemForm) : (m.setBacklog q).MemForm := h

@[simp] theorem Module.carry_memForm {r : LedgerRow} (h : m.MemForm) : (m.carry r).MemForm := h

@[simp] theorem Module.putRow_memForm {r : LedgerRow} (h : m.MemForm) : (m.putRow r).MemForm := by
  unfold Module.putRow
  grind [Module.raise_memForm, Module.carry_memForm, Module.setBacklog_memForm]

@[simp] theorem Module.drainCarry_memForm {x : ℕ} (h : m.MemForm) : (m.drainCarry x).MemForm := by
  induction x generalizing m with
  | zero => exact h
  | succ n ih =>
    unfold Module.drainCarry
    grind [Module.setBacklog_memForm]

@[simp] theorem Module.slowdown_memForm {ten busy : ℕ} (h : m.MemForm) : (m.slowdown ten busy).2.MemForm := by
  unfold Module.slowdown
  grind [Module.setFld_memForm, Module.count_memForm, Module.addFld_memForm, Module.drawn_memForm,
    Module.when_memForm, Module.raise_memForm]

@[simp] theorem Module.ledgerRow_memForm {ten : ℕ} {l : Ledger} {partly final : Bool} (h : m.MemForm) :
    (m.ledgerRow ten l partly final).2.MemForm := by
  unfold Module.ledgerRow
  grind [Module.drawn_memForm, Module.slowdown_memForm]

@[simp] theorem Module.ledgerRows_memForm {partly final : Bool} {x : Map Ledger} (h : m.MemForm) :
    (m.ledgerRows partly final x).2.MemForm := by
  induction x generalizing m partly final with
  | nil => exact h
  | cons a l ih =>
    unfold Module.ledgerRows
    grind [Module.ledgerRow_memForm]

@[simp] theorem Module.closeLedger_memForm {partly : Bool} {start : ℕ} (h : m.MemForm) :
    (m.closeLedger partly start).MemForm := by
  unfold Module.closeLedger
  grind [memForm_foldl, Module.ledgerRows_memForm, Module.raise_memForm, Module.putRow_memForm]

@[simp] theorem Module.openLedger_memForm {ten : ℕ} (h : m.MemForm) : (m.openLedger ten).MemForm := h

@[simp] theorem Module.finalLedger_memForm {ten : ℕ} (h : m.MemForm) : (m.finalLedger ten).MemForm := by
  unfold Module.finalLedger
  grind [Module.ledgerRow_memForm, Module.raise_memForm, Module.putRow_memForm]

@[simp] theorem Module.writeLedger_memForm {x : ℕ} (h : m.MemForm) : (m.writeLedger x).MemForm := by
  induction x generalizing m with
  | zero => exact h
  | succ n ih =>
    unfold Module.writeLedger
    grind [Module.postEntry_memForm, Module.raise_memForm, Module.setBacklog_memForm]

/-! ### Calendar.lean -/

@[simp] theorem Module.loadCalendar_memForm (h : m.MemForm) : m.loadCalendar.MemForm := by
  unfold Module.loadCalendar
  grind [Module.closeLedger_memForm, Module.setFld_memForm, Module.setFlag_memForm]

@[simp] theorem Module.tick_memForm (h : m.MemForm) : m.tick.MemForm := by
  unfold Module.tick
  grind [Module.setFld_memForm]

@[simp] theorem Module.oscReturns_memForm (h : m.MemForm) : m.oscReturns.MemForm := by
  unfold Module.oscReturns
  split <;> simp [h]

@[simp] theorem Module.rtcLoad_memForm (h : m.MemForm) : m.rtcLoad.MemForm := h

@[simp] theorem execRtcLoad_keepsForm {s : State} (h : s.mod.MemForm) : KeepsForm (execRtcLoad s) := by
  unfold execRtcLoad
  apply State.run_keepsForm
  grind [Module.rtcLoad_memForm]

@[simp] theorem execRtcTick_keepsForm {s : State} (h : s.mod.MemForm) : KeepsForm (execRtcTick s) := by
  unfold execRtcTick
  apply State.run_keepsForm
  grind [Module.oscReturns_memForm, Module.loadCalendar_memForm, Module.tick_memForm]

@[simp] theorem execRtcOscFail_keepsForm {s : State} (h : s.mod.MemForm) : KeepsForm (execRtcOscFail s) := by
  unfold execRtcOscFail
  apply State.run_keepsForm
  grind [Module.raise_memForm, Module.setFlag_memForm]

/-! ### CkpOps.lean -/

@[simp] theorem Module.sendCkp_memForm {t : Ten} {dst op : ℕ} {slot : Bool} {shard gen offset : ℕ} {bs : List Byte}
    (h : m.MemForm) : (m.sendCkp t dst op slot shard gen offset bs).MemForm := by
  unfold Module.sendCkp
  simp [h]

@[simp] theorem Module.mirrorCkp_memForm {t : Ten} (h : m.MemForm) : (m.mirrorCkp t).MemForm := h

@[simp] theorem Module.setCapture_memForm {t : Ten} {c : Capture} (h : m.MemForm) : (m.setCapture t c).MemForm := by
  unfold Module.setCapture
  simp [h]

@[simp] theorem Module.dropCapture_memForm {t : Ten} (h : m.MemForm) : (m.dropCapture t).MemForm := h

@[simp] theorem Module.captureFail_memForm {t : Ten} {status : ℕ} {lost : Bool} (h : m.MemForm) :
    (m.captureFail t status lost).MemForm := by
  unfold Module.captureFail
  grind [Module.raise_memForm, Module.finish_memForm, Module.addFld_memForm, Module.setCapture_memForm]

@[simp] theorem Module.captureFree_memForm {ten f : ℕ} (h : m.MemForm) : (m.captureFree ten f).MemForm := by
  unfold Module.captureFree
  split <;> simp [h]

@[simp] theorem Module.captureUnload_memForm {t : Ten} {routeId : ℕ} (h : m.MemForm) :
    (m.captureUnload t routeId).MemForm := by
  unfold Module.captureUnload
  grind [Module.finish_memForm, Module.setCapture_memForm]

@[simp] theorem Module.captureBoundary_memForm {n : ℕ} (h : m.MemForm) : (m.captureBoundary n).MemForm := by
  unfold Module.captureBoundary
  grind [Module.setCapture_memForm, Module.addFld_memForm]

@[simp] theorem Module.dropStaging_memForm {t : Ten} {x : Restore} (h : m.MemForm) : (m.dropStaging t x).MemForm := by
  unfold Module.dropStaging
  grind [memForm_foldl, Module.releaseFrames_memForm, Module.releaseBank_memForm]

@[simp] theorem Module.dropRestore_memForm {t : Ten} (h : m.MemForm) : (m.dropRestore t).MemForm := by
  unfold Module.dropRestore
  grind [Module.mirrorCkp_memForm, Module.dropStaging_memForm]

@[simp] theorem Module.restoreFail_memForm {t : Ten} {status : ℕ} (h : m.MemForm) :
    (m.restoreFail t status).MemForm := by
  unfold Module.restoreFail
  split <;> simp [h]

@[simp] theorem Module.checkBuddies_memForm (h : m.MemForm) : m.checkBuddies.MemForm := by
  unfold Module.checkBuddies
  grind [memForm_foldl, Module.captureFail_memForm, Module.restoreFail_memForm, Module.raise_memForm]

@[simp] theorem Module.undoCkp_memForm {t : Ten} {id : ℕ} (h : m.MemForm) : (m.undoCkp t id).MemForm := by
  unfold Module.undoCkp
  grind [Module.dropCapture_memForm, Module.dropRestore_memForm]

/-! ### GenOps.lean -/

@[simp] theorem Module.mirrorWaybills_memForm {t : Ten} (h : m.MemForm) : (m.mirrorWaybills t).MemForm := h

@[simp] theorem Module.setWaybill_memForm {id : ℕ} {w : Waybill} (h : m.MemForm) : (m.setWaybill id w).MemForm := h

@[simp] theorem Module.mapPages_memForm {ten : ℕ} {l : List ℕ} {own : List (ℕ × ℕ)} (h : m.MemForm) :
    (m.mapPages ten l own).2.2.MemForm := by
  induction l generalizing m own with
  | nil => exact h
  | cons va l ih =>
    unfold Module.mapPages
    split
    · exact ih h
    · split
      · exact ih h
      · split
        · split
          · next hp => exact ih (Module.mapPage_memForm h hp)
          · exact h
        · exact Module.recordWalk_memForm h

@[simp] theorem Module.dropPages_memForm {ten : ℕ} {pages : List (ℕ × ℕ)} (h : m.MemForm) :
    (m.dropPages ten pages).MemForm := by
  unfold Module.dropPages
  grind [memForm_foldl, Module.releaseFrames_memForm, Module.unmapPage_memForm]

@[simp] theorem Module.takeKept_memForm {t : Ten} {base : ℕ} (h : m.MemForm) : (m.takeKept t base).2.MemForm := h

@[simp] theorem Module.keepPages_memForm {t : Ten} {base : ℕ} {pages : List (ℕ × ℕ)} (h : m.MemForm) :
    (m.keepPages t base pages).MemForm := by
  unfold Module.keepPages
  simp [h]

@[simp] theorem Module.postWaybill_memForm {g : ℕ} {bs : List Byte} (h : m.MemForm) :
    (m.postWaybill g bs).MemForm := by
  unfold Module.postWaybill
  grind [Module.unreserve_memForm, Module.postEntry_memForm]

@[simp] theorem Module.releaseWindow_memForm {id : ℕ} {w : Waybill} (h : m.MemForm) :
    (m.releaseWindow id w).MemForm := by
  unfold Module.releaseWindow
  grind [Module.dropPages_memForm]

@[simp] theorem Module.freeWaybill_memForm {id : ℕ} {t : Ten} (h : m.MemForm) : (m.freeWaybill id t).MemForm := h

@[simp] theorem Module.completeWaybill_memForm {id : ℕ} {w : Waybill} {status state cause : ℕ} (h : m.MemForm) :
    (m.completeWaybill id w status state cause).MemForm := by
  unfold Module.completeWaybill
  grind [Module.postWaybill_memForm, Module.freeWaybill_memForm, Module.releaseWindow_memForm]

@[simp] theorem Module.returnRoom_memForm {w : Waybill} (h : m.MemForm) : (m.returnRoom w).MemForm := by
  unfold Module.returnRoom
  split <;> simp [h]

@[simp] theorem Module.unpin_memForm {id : ℕ} {w : Waybill} (h : m.MemForm) : (m.unpin id w).MemForm := by
  unfold Module.unpin
  grind [Module.cvnUnpin_memForm, Module.cvnPublish_memForm]

@[simp] theorem Module.writeSeqEnd_memForm {id : ℕ} {w : Waybill} {cause : ℕ} {version : BitVec 16} (h : m.MemForm) :
    (m.writeSeqEnd id w cause version).MemForm := by
  unfold Module.writeSeqEnd
  grind [Module.unpin_memForm, Module.cvnAppend_memForm, Module.cvnEnded_memForm]

@[simp] theorem Module.endInStep_memForm {id : ℕ} {w : Waybill} {state c status : ℕ} {version : BitVec 16}
    (h : m.MemForm) : (m.endInStep id w state c status version).MemForm := by
  unfold Module.endInStep
  simp [h]

@[simp] theorem Module.settleEnding_memForm {id : ℕ} (h : m.MemForm) : (m.settleEnding id).MemForm := by
  unfold Module.settleEnding
  grind [Module.completeWaybill_memForm, Module.unpin_memForm, Module.starve_memForm, Module.cvnPublish_memForm,
    Module.writeSeqEnd_memForm]

@[simp] theorem Module.endOutside_memForm {id : ℕ} {w : Waybill} {c status : ℕ} (h : m.MemForm) :
    (m.endOutside id w c status).MemForm := by
  unfold Module.endOutside
  simp [h]

@[simp] theorem Module.endSilent_memForm {id : ℕ} {w : Waybill} {c status : ℕ} (h : m.MemForm) :
    (m.endSilent id w c status).MemForm := by
  unfold Module.endSilent
  simp [h]

@[simp] theorem Module.checkPairs_memForm {id : ℕ} {w : Waybill} (h : m.MemForm) : (m.checkPairs id w).2.MemForm := by
  unfold Module.checkPairs
  grind [Module.probe_memForm, Module.raise_memForm, Module.endSilent_memForm, Module.returnRoom_memForm]

@[simp] theorem Module.pauseWaybill_memForm {id : ℕ} {w : Waybill} {keep : Bool} {c : ℕ} (h : m.MemForm) :
    (m.pauseWaybill id w keep c).MemForm := by
  have hw := fun bs => Module.writeVA_memForm (b := .wbl) (ten := w.ten.val) (va := w.window + 0x200000) (bs := bs) h
  unfold Module.pauseWaybill
  simp only
  split
  · next e => exact Module.endOutside_memForm ((hw _).of_eq e)
  · next e =>
    have hu := Module.unpin_memForm (id := id) (w := w) ((hw _).of_eq e)
    exact Module.freeWaybill_memForm (Module.postWaybill_memForm
      (memForm_ite (Module.keepPages_memForm hu) (Module.releaseWindow_memForm hu)))

@[simp] theorem Module.applyAction_memForm {id : ℕ} {w : Waybill} {a : ℕ} (h : m.MemForm) :
    (m.applyAction id w a).MemForm := by
  unfold Module.applyAction
  split <;> simp [h]

@[simp] theorem Module.leaveStep_memForm {id : ℕ} {w : Waybill} (h : m.MemForm) : (m.leaveStep id w).MemForm := by
  unfold Module.leaveStep
  grind [Module.returnRoom_memForm, Module.setWaybill_memForm, Module.checkPairs_memForm, Module.applyAction_memForm]

@[simp] theorem Module.dropSlots_memForm {r : Route} (h : m.MemForm) : (m.dropSlots r).MemForm := by
  unfold Module.dropSlots
  grind [memForm_foldl, Module.leaveStep_memForm, Module.mirrorFill_memForm]

/-! ### LearnOps.lean -/

@[simp] theorem Module.learnStart_memForm {n : ℕ} {r : Route} (h : m.MemForm) : (m.learnStart n r).2.MemForm := by
  unfold Module.learnStart
  grind [Module.readVA_memForm]

@[simp] theorem Module.zeroLocs_memForm {ten : ℕ} {ls : List (Loc × ℕ)} (h : m.MemForm) :
    (m.zeroLocs ten ls).MemForm := by
  refine memForm_foldl (fun m x hm => ?_) h
  split
  · exact Module.writeLoc_memForm hm
  · exact (Module.countDram_memForm hm).zero_dram

@[simp] theorem Module.zeroHold_memForm {ps : List (ℕ × ℕ)} (h : m.MemForm) : (m.zeroHold ps).MemForm :=
  memForm_foldl (fun _ _ hm => hm.zero_hold) h

@[simp] theorem Module.zeroArea_memForm {ten : ℕ} {a : Bool × ℕ × ℕ} (h : m.MemForm) :
    (m.zeroArea ten a).MemForm := by
  unfold Module.zeroArea
  grind [Module.holdRefuse_memForm, Module.zeroHold_memForm, Module.countHold_memForm, Module.translateAll_memForm,
    Module.zeroLocs_memForm]

@[simp] theorem Module.learnRerun_memForm {n : ℕ} (h : m.MemForm) : (m.learnRerun n).MemForm := by
  unfold Module.learnRerun
  simp [h]

@[simp] theorem Module.dropSeqs_memForm {t : Ten} {gone : ℕ → CSeq → Bool} (h : m.MemForm) :
    (m.dropSeqs t gone).MemForm := by
  unfold Module.dropSeqs
  grind [memForm_foldl, Module.cvnPublish_memForm, Module.setCaravan_memForm]

@[simp] theorem Module.consumeBatch_memForm {n : ℕ} (h : m.MemForm) : (m.consumeBatch n).MemForm := by
  unfold Module.consumeBatch
  grind [Module.dropSeqs_memForm, Module.setFld_memForm, Module.setRoute_memForm]

/-! ### ColOps.lean -/

@[simp] theorem Module.sendChunk_memForm {t : Ten} {c : ColSpec} {step : Word64} {q : ℕ} {k : Chunk} (h : m.MemForm) :
    (m.sendChunk t c step q k).MemForm := by
  unfold Module.sendChunk
  grind [Module.addFld_memForm, Module.count_memForm, Module.sendLink_memForm]

@[simp] theorem Module.sendAsk_memForm {t : Ten} {c : ColSpec} {step : Word64} {q offset first last : ℕ}
    (h : m.MemForm) : (m.sendAsk t c step q offset first last).MemForm := by
  unfold Module.sendAsk
  simp [h]

@[simp] theorem Module.readSrc_memForm {t : Ten} {c : ColSpec} {off n : ℕ} (h : m.MemForm) :
    (m.readSrc t c off n).2.MemForm := by
  unfold Module.readSrc
  simp [h]

@[simp] theorem Module.writeDst_memForm {t : Ten} {c : ColSpec} {off : ℕ} {bs : List Byte} (h : m.MemForm) :
    (m.writeDst t c off bs).2.MemForm := by
  unfold Module.writeDst
  simp [h]

@[simp] theorem Module.writeRuns_memForm {t : Ten} {c : ColSpec} {x : List (ℕ × List Byte)} (h : m.MemForm) :
    (m.writeRuns t c x).2.MemForm := by
  induction x generalizing m with
  | nil => exact h
  | cons a l ih =>
    have hd := Module.writeDst_memForm (t := t) (c := c) (off := a.1) (bs := a.2) h
    unfold Module.writeRuns
    split
    · next e => exact ih (by rw [e] at hd; exact hd)
    · exact hd

@[simp] theorem Module.putSlot_memForm {t : Ten} {k : ℕ} {b : BoundSlot} (h : m.MemForm) :
    (m.putSlot t k b).MemForm := h

@[simp] theorem Module.mirrorCol_memForm {t : Ten} (h : m.MemForm) : (m.mirrorCol t).MemForm := h

@[simp] theorem Module.putInst_memForm {x : Inst} (h : m.MemForm) : (m.putInst x).MemForm := by
  unfold Module.putInst
  simp [h]

@[simp] theorem Module.dropInst_memForm {x : Inst} (h : m.MemForm) : (m.dropInst x).MemForm := by
  unfold Module.dropInst
  simp [h]

@[simp] theorem Module.freeSlot_memForm {t : Ten} {k : ℕ} (h : m.MemForm) : (m.freeSlot t k).MemForm := by
  unfold Module.freeSlot
  grind [Module.mirrorCol_memForm, Module.releaseFrames_memForm, Module.finish_memForm]

@[simp] theorem Module.checkUnbind_memForm {t : Ten} {k : ℕ} (h : m.MemForm) : (m.checkUnbind t k).MemForm := by
  unfold Module.checkUnbind
  split <;> simp [h]

@[simp] theorem Module.cancelCols_memForm {t : Ten} {abort : Bool} (h : m.MemForm) :
    (m.cancelCols t abort).MemForm := by
  unfold Module.cancelCols
  grind [memForm_foldl, Module.dropInst_memForm, Module.finish_memForm]

@[simp] theorem Module.unbindSlots_memForm {t : Ten} {route : Option ℕ} (h : m.MemForm) :
    (m.unbindSlots t route).MemForm := by
  unfold Module.unbindSlots
  grind [memForm_foldl, Module.dropInst_memForm, Module.finish_memForm, Module.freeSlot_memForm]

@[simp] theorem Module.loseDst_memForm {t : Ten} {b : BoundSlot} (h : m.MemForm) : (m.loseDst t b).MemForm := by
  unfold Module.loseDst
  grind [Module.writeRuns_memForm, Module.drawn_memForm]

@[simp] theorem Module.colKill_memForm {n : ℕ} (h : m.MemForm) : (m.colKill n).MemForm := by
  unfold Module.colKill
  grind [memForm_foldl, Module.loseDst_memForm, Module.checkUnbind_memForm, Module.mirrorCol_memForm,
    Module.putSlot_memForm]

@[simp] theorem Module.sendParts_memForm {x : Inst} {image : List Byte} (h : m.MemForm) :
    (m.sendParts x image).MemForm := by
  unfold Module.sendParts
  grind [memForm_foldl, Module.sendChunk_memForm]

@[simp] theorem Module.runInst_memForm {x : Inst} (h : m.MemForm) : (m.runInst x).2.MemForm := by
  unfold Module.runInst
  grind [Module.readSrc_memForm, Module.mirrorCol_memForm, Module.putInst_memForm, Module.commitCmd_memForm,
    Module.putSlot_memForm, Module.sendParts_memForm]

@[simp] theorem Module.recordSlowest_memForm {x : Inst} (h : m.MemForm) : (m.recordSlowest x).2.MemForm := h

@[simp] theorem Module.reportAbort_memForm {x : Inst} {v : Word64} (h : m.MemForm) : (m.reportAbort x v).MemForm := by
  unfold Module.reportAbort
  simp [h]

/-! ### RouteHooks.lean -/

@[simp] theorem Module.afterCommit_memForm {n stage : ℕ} {_step : Word64} (h : m.MemForm) :
    (m.afterCommit n stage _step).MemForm := by
  unfold Module.afterCommit
  grind [Module.captureBoundary_memForm, Module.consumeBatch_memForm, Module.weightCommit_memForm]

@[simp] theorem Module.afterKill_memForm {n : ℕ} (h : m.MemForm) : (m.afterKill n).MemForm := by
  unfold Module.afterKill
  grind [Module.colKill_memForm, Module.learnRerun_memForm, Module.weightRerun_memForm]

@[simp] theorem Module.afterStop_memForm {_n : ℕ} (h : m.MemForm) : (m.afterStop _n).MemForm := h

@[simp] theorem Module.afterUnload_memForm {n : ℕ} {r : Route} (h : m.MemForm) : (m.afterUnload n r).MemForm := by
  unfold Module.afterUnload
  grind [Module.untakeSeqs_memForm, Module.captureUnload_memForm, Module.unbindSlots_memForm,
    Module.weightUnload_memForm, Module.dropSlots_memForm]

@[simp] theorem Module.afterStart_memForm {n : ℕ} (h : m.MemForm) : (m.afterStart n).MemForm := by
  unfold Module.afterStart
  grind [Module.setRoute_memForm, Module.takeSettings_memForm, Module.assignSkew_memForm, Module.weightRerun_memForm]

@[simp] theorem Module.startBarrierGroup_memForm {n i : ℕ} (h : m.MemForm) : (m.startBarrierGroup n i).MemForm := by
  unfold Module.startBarrierGroup
  grind [Module.setRoute_memForm, Module.startGroup_memForm]

@[simp] theorem Module.startCheck_memForm {n : ℕ} (h : m.MemForm) : (m.startCheck n).2.MemForm := by
  unfold Module.startCheck
  grind only [Module.learnStart_memForm, Module.setRoute_memForm]

/-! ### FabricOps.lean -/

@[simp] theorem Module.publish_memForm {k : Cluster} {ten : ℕ} {x : Staged} (h : m.MemForm) :
    (m.publish k ten x).2.MemForm := by
  unfold Module.publish
  grind [Module.writeHold_memForm, Module.writeVA_memForm]

@[simp] theorem Module.publishAll_memForm {k : Cluster} {ten : ℕ} {x : List Staged} (h : m.MemForm) :
    (m.publishAll k ten x).2.MemForm := by
  induction x generalizing m k ten with
  | nil => exact h
  | cons a l ih =>
    unfold Module.publishAll
    grind [Module.publish_memForm]

@[simp] theorem Module.noteTile_memForm {ten : ℕ} {u : TileId} {bs : List Byte} (h : m.MemForm) :
    (m.noteTile ten u bs).MemForm := by
  unfold Module.noteTile
  simp [h]

@[simp] theorem Module.mirrorTwin_memForm {c : ℕ} (h : m.MemForm) : (m.mirrorTwin c).MemForm := by
  unfold Module.mirrorTwin
  split <;> simp [h]

@[simp] theorem Module.busyStep_memForm {ten c n i : ℕ} {step : Word64} (h : m.MemForm) :
    (m.busyStep ten c n i step).MemForm := by
  unfold Module.busyStep
  grind [Module.drawn_memForm, Module.setFld_memForm, Module.bill_memForm, Module.countBusy_memForm,
    Module.count_memForm]

@[simp] theorem Module.commitCluster_memForm {c : ℕ} (h : m.MemForm) : (m.commitCluster c).2.MemForm := by
  unfold Module.commitCluster
  grind [Module.publishAll_memForm, Module.mapTiles_memForm, Module.setFld_memForm, Module.setFlag_memForm,
    Module.setStage_memForm, Module.atBoundary_memForm, Module.mirrorTwin_memForm, Module.busyStep_memForm,
      Module.setCl_memForm, Module.count_memForm, Module.afterCommit_memForm]

@[simp] theorem Module.killCluster_memForm {c : ℕ} (h : m.MemForm) : (m.killCluster c).MemForm := by
  unfold Module.killCluster
  grind [Module.mapTiles_memForm, Module.setFlag_memForm, Module.setCl_memForm]

@[simp] theorem Module.finishArrived_memForm {n : ℕ} (h : m.MemForm) : (m.finishArrived n).2.MemForm := by
  unfold Module.finishArrived
  refine memForm_foldl_snd (fun p c hp => ?_) h
  grind [Module.commitCluster_memForm]

@[simp] theorem Module.dropPackets_memForm {cs : List ℕ} (h : m.MemForm) : (m.dropPackets cs).MemForm := h

@[simp] theorem Module.killSteps_memForm {n : ℕ} (h : m.MemForm) : (m.killSteps n).2.MemForm := by
  unfold Module.killSteps
  grind [memForm_foldl, Module.finishArrived_memForm, Module.dropPackets_memForm, Module.killCluster_memForm,
    Module.setRoute_memForm, Module.afterKill_memForm, Module.recountBarriers_memForm]

@[simp] theorem Module.endStart_memForm {n status detail : ℕ} (h : m.MemForm) :
    (m.endStart n status detail).MemForm := by
  unfold Module.endStart
  grind [Module.setRoute_memForm, Module.finish_memForm]

@[simp] theorem Module.startCluster_memForm {fresh : Bool} {c : ℕ} (h : m.MemForm) :
    (m.startCluster fresh c).MemForm := by
  unfold Module.startCluster
  grind [Module.mapTiles_memForm, Module.setCl_memForm, Module.setClState_memForm]

@[simp] theorem Module.startRoute_memForm {n id : ℕ} (h : m.MemForm) : (m.startRoute n id).MemForm := by
  unfold Module.startRoute
  grind [memForm_foldl, Module.finish_memForm, Module.startCheck_memForm, Module.finishFail_memForm,
    Module.startCluster_memForm, Module.setRoute_memForm, Module.afterStart_memForm, Module.mirrorRoute_memForm,
      Module.commitCmd_memForm]

@[simp] theorem Module.beginStart_memForm {n id : ℕ} (h : m.MemForm) : (m.beginStart n id).MemForm := by
  unfold Module.beginStart
  simp [h]

@[simp] theorem Module.unloadRoute_memForm {n : ℕ} (h : m.MemForm) : (m.unloadRoute n).MemForm := by
  unfold Module.unloadRoute
  grind [memForm_foldl, Module.abandonAll_memForm, Module.idleCluster_memForm, Module.restState_memForm,
    Module.setCl_memForm, Module.releaseFrames_memForm, Module.subFld_memForm, Module.mirrorTen_memForm,
      Module.mirrorRoute_memForm, Module.afterUnload_memForm]

@[simp] theorem Module.stopped_memForm {n : ℕ} (h : m.MemForm) : (m.stopped n).MemForm := by
  unfold Module.stopped
  grind [memForm_foldl, Module.setClState_memForm, Module.setCl_memForm, Module.endStart_memForm,
    Module.finish_memForm, Module.setRoute_memForm, Module.afterStop_memForm, Module.mirrorRoute_memForm,
      Module.unloadRoute_memForm, Module.beginStart_memForm]

@[simp] theorem Module.checkStopped_memForm {n : ℕ} (h : m.MemForm) : (m.checkStopped n).MemForm := by
  unfold Module.checkStopped
  split <;> simp [h]

@[simp] theorem Module.stopNow_memForm {n : ℕ} (h : m.MemForm) : (m.stopNow n).MemForm := by
  unfold Module.stopNow
  simp [h]

@[simp] theorem Module.stopKill_memForm {n status detail : ℕ} (h : m.MemForm) :
    (m.stopKill n status detail).MemForm := by
  unfold Module.stopKill
  grind [Module.endStart_memForm, Module.killSteps_memForm, Module.stopNow_memForm]

@[simp] theorem Module.killRoute_memForm {n : ℕ} (h : m.MemForm) : (m.killRoute n).MemForm := by
  unfold Module.killRoute
  grind [Module.killSteps_memForm, Module.stopNow_memForm, Module.endStart_memForm]

@[simp] theorem Module.failRoute_memForm {n : ℕ} {e : Fail} (h : m.MemForm) : (m.failRoute n e).MemForm := by
  unfold Module.failRoute
  simp [h]

@[simp] theorem Module.commitBoundary_memForm {c : ℕ} (h : m.MemForm) : (m.commitBoundary c).MemForm := by
  unfold Module.commitBoundary
  grind [Module.commitCluster_memForm, Module.checkSuspended_memForm, Module.failRoute_memForm,
    Module.stopNow_memForm, Module.checkStopped_memForm]

@[simp] theorem Module.markerFailed_memForm {ten : Ten} {c : ℕ} (h : m.MemForm) : (m.markerFailed ten c).MemForm := by
  unfold Module.markerFailed
  split <;> simp [h]

@[simp] theorem Module.haltTile_memForm {t : TileId} {cause code : ℕ} (h : m.MemForm) :
    (m.haltTile t cause code).MemForm := by
  unfold Module.haltTile
  split <;> simp [h]

@[simp] theorem Module.undefined_memForm {ten : Ten} (h : m.MemForm) : (m.undefined ten).MemForm := by
  have hm : ((m.assigned ten).foldl (fun m' c => (List.range 256).foldl (fun m' k =>
      m'.setTileAt (c * 256 + k) ((m'.tileAt (c * 256 + k)).undefined m.freeIx (c * 256 + k))) m') m).MemForm :=
    memForm_foldl (fun m' c hm' => memForm_foldl (fun _ _ h' => Module.setTileAt_memForm h') hm') h
  exact ⟨Mem.wf_foldl (fun _ _ hd => Mem.wf_setBytes hd _ _) hm.dram,
    Mem.wf_foldl (fun _ _ hd => Mem.wf_setBytes hd _ _) hm.hold⟩

@[simp] theorem Module.orUndefined_memForm {ten : Ten} {x : Except Misuse Module} (hx : ExceptForm x)
    (h : m.MemForm) :
    (m.orUndefined ten x).MemForm := by
  cases x with
  | ok m' => exact hx m' rfl
  | error e => exact Module.undefined_memForm h

end Sys2Proof.Machine
end

