-- ==== Sys2Proof/Proofs/FormCheckpoint.lean ====
section
/-! The canonical form of DRAM and Hold is kept by the commands of DRAM and Hold and of the checkpoint, and the moves. -/

namespace Sys2Proof.Machine

variable {m : Module}

/-! ### Memory.lean -/

@[simp] theorem execMemPatrolExpire_keepsForm {s : State} (h : s.mod.MemForm) :
    KeepsForm (execMemPatrolExpire s) := by
  unfold execMemPatrolExpire
  apply State.run_keepsForm
  grind [memForm_foldl, Module.readUnit_memForm]

@[simp] theorem execMapOut_keepsForm {s : State} {ch : Fin 384} (h : s.mod.MemForm) :
    KeepsForm (execMapOut ch s) := by
  unfold execMapOut
  apply State.run_keepsForm
  grind [Module.mapOut_memForm]

@[simp] theorem execMapOutComplete_keepsForm {s : State} {ch : Fin 384} (h : s.mod.MemForm) :
    KeepsForm (execMapOutComplete ch s) := by
  unfold execMapOutComplete
  apply State.run_keepsForm
  grind [memForm_foldl, Module.readUnit_memForm, Module.raise_memForm, Module.setFld_memForm]

@[simp] theorem execHoldPatrolExpire_keepsForm {s : State} (h : s.mod.MemForm) :
    KeepsForm (execHoldPatrolExpire s) := by
  unfold execHoldPatrolExpire
  apply State.run_keepsForm
  grind [memForm_foldl, Module.readHoldWord_memForm, Module.checkBank_memForm]

@[simp] theorem Module.selectMap_memForm {e : ℕ} (h : m.MemForm) : (m.selectMap e).MemForm := h

@[simp] theorem execHldMapSel_keepsForm {s : State} {value : Word} (h : s.mod.MemForm) :
    KeepsForm (execHldMapSel value s) := by
  unfold execHldMapSel
  apply State.run_keepsForm
  grind [Module.selectMap_memForm]

@[simp] theorem Module.selectBank_memForm {p : ℕ} (h : m.MemForm) : (m.selectBank p).MemForm := h

@[simp] theorem execHldBankSel_keepsForm {s : State} {value : Word} (h : s.mod.MemForm) :
    KeepsForm (execHldBankSel value s) := by
  unfold execHldBankSel
  apply State.run_keepsForm
  grind [Module.selectBank_memForm]

@[simp] theorem Module.windowEnd_memForm {x : SkewSlot} (h : m.MemForm) : (m.windowEnd x).2.MemForm := by
  unfold Module.windowEnd
  simp +contextual [h]

@[simp] theorem execSkewWindowEnd_keepsForm {s : State} (h : s.mod.MemForm) : KeepsForm (execSkewWindowEnd s) := by
  unfold execSkewWindowEnd
  apply State.run_keepsForm
  grind [memForm_foldl, Module.windowEnd_memForm]

@[simp] theorem Module.takeTarget_memForm {ten slot f n : ℕ} (h : m.MemForm) :
    (m.takeTarget ten slot f n).MemForm := by
  unfold Module.takeTarget
  grind [memForm_foldl, Module.subFld_memForm, Module.setTag_memForm]

theorem Module.pickTarget_memForm {ten slot lvl : ℕ} {near : Option ℕ} {r : ℕ × Module} (h : m.MemForm)
    (e : m.pickTarget ten slot lvl near = some r) : r.2.MemForm := by
  unfold Module.pickTarget at e
  simp only at e
  split at e
  · obtain ⟨f, -, rfl⟩ := Option.map_eq_some_iff.1 e
    exact Module.drawn_memForm (Module.rotate_memForm (Module.takeTarget_memForm h))
  · split at e
    · cases e
    · obtain ⟨f, -, rfl⟩ := Option.map_eq_some_iff.1 e
      exact Module.drawn_memForm (Module.takeTarget_memForm h)

theorem Module.planPages_memForm {ten slot stop : ℕ} {near : ℕ → Option ℕ} {fuel va : ℕ} {r : List MigPage × Module}
    (h : m.MemForm) (e : m.planPages ten slot stop near fuel va = some r) : r.2.MemForm := by
  induction fuel generalizing m va r with
  | zero =>
    cases e
    exact h
  | succ fuel ih =>
    unfold Module.planPages at e
    split at e
    · cases e
      exact h
    · split at e
      · exact ih h e
      · simp only at e
        split at e
        · exact ih h e
        · split at e
          · cases e
          · next hp =>
            obtain ⟨q, hq, rfl⟩ := Option.map_eq_some_iff.1 e
            exact ih (r := q) (Module.pickTarget_memForm h hp) hq

@[simp] theorem Module.scanPage_memForm {ten : ℕ} {p : MigPage} (h : m.MemForm) : (m.scanPage ten p).MemForm := by
  unfold Module.scanPage
  simp +contextual [h]

@[simp] theorem Module.copyPage_memForm {p : MigPage} (h : m.MemForm) : (m.copyPage p).MemForm :=
  ⟨Mem.wf_foldl (fun _ _ hd => Mem.wf_setByte hd _ _) (Mem.wf_zero h.dram _ _), h.hold⟩

@[simp] theorem Module.requested_memForm {n b : ℕ} {deferred : Bool} (h : m.MemForm) :
    (m.requested n b deferred).MemForm := h

@[simp] theorem execMigrationStart_keepsForm {s : State} {route : Fin 256} {buffer : BitVec 10} (h : s.mod.MemForm) :
    KeepsForm (execMigrationStart route buffer s) := by
  unfold execMigrationStart
  apply State.run_keepsForm
  simp only
  split
  · exact h
  · split
    · exact h
    · split
      · split
        · exact Module.requested_memForm h
        · split
          · exact Module.requested_memForm h
          · next hp =>
            exact memForm_ite (Module.requested_memForm h) (memForm_foldl (fun _ _ hm => Module.scanPage_memForm hm)
              (Module.requested_memForm (Module.mirrorKeys_memForm (Module.setRoute_memForm (Module.planPages_memForm
                h hp)))))
      · exact Module.requested_memForm h

@[simp] theorem Module.movePage_memForm {ten : ℕ} {p : MigPage} (h : m.MemForm) : (m.movePage ten p).MemForm := by
  unfold Module.movePage
  grind [memForm_foldl, Module.scrubFrame_memForm, Module.copyPage_memForm, Module.scanPage_memForm,
    Module.writeEntry_memForm, Module.uncachePages_memForm, Module.freeFrame_memForm, Module.addFld_memForm]

@[simp] theorem execMigrationPassDone_keepsForm {s : State} {route : Fin 256} {buffer : BitVec 10} {tooLong : Bool}
    (h : s.mod.MemForm) : KeepsForm (execMigrationPassDone route buffer tooLong s) := by
  unfold execMigrationPassDone
  apply State.run_keepsForm
  grind [memForm_foldl, Module.abandonMigration_memForm, Module.setRoute_memForm, Module.movePage_memForm,
    Module.addFld_memForm, Module.mirrorKeys_memForm]

/-! ### Checkpoint.lean -/

@[simp] theorem Module.shardMapped_memForm {ten : ℕ} {s : Shard} (h : m.MemForm) :
    (m.shardMapped ten s).2.MemForm := by
  unfold Module.shardMapped
  grind [Module.translateAll_memForm]

@[simp] theorem Module.shardsMapped_memForm {ten : ℕ} {x : List Shard} (h : m.MemForm) :
    (m.shardsMapped ten x).2.MemForm := by
  induction x generalizing m ten with
  | nil => exact h
  | cons a l ih =>
    unfold Module.shardsMapped
    grind [Module.shardMapped_memForm]

@[simp] theorem Module.readShard_memForm {ten : ℕ} {s : Shard} (h : m.MemForm) : (m.readShard ten s).2.MemForm := by
  unfold Module.readShard
  simp [h]

@[simp] theorem Module.readShards_memForm {ten : ℕ} {x : List Shard} (h : m.MemForm) :
    (m.readShards ten x).2.MemForm := by
  induction x generalizing m ten with
  | nil => exact h
  | cons a l ih =>
    unfold Module.readShards
    grind [Module.readShard_memForm]

@[simp] theorem Module.ckpCheck_memForm {c : Cmd} {room : ℕ} (h : m.MemForm) : (m.ckpCheck c room).2.MemForm := by
  unfold Module.ckpCheck
  grind [Module.readVA_memForm, Module.shardsMapped_memForm]

@[simp] theorem Module.armCapture_memForm {c : Cmd} {n : ℕ} {cmd dest : Option ℕ} {period : ℕ} {ss : List Shard}
    (h : m.MemForm) : (m.armCapture c n cmd dest period ss).MemForm := h

@[simp] theorem Module.withMode_memForm {id mode : ℕ} {f : Cmd → Module → Module}
    (hf : ∀ c m, m.MemForm → (f c m).MemForm) (h : m.MemForm) : (m.withMode id mode f).MemForm := by
  unfold Module.withMode
  split
  · refine Module.withCmd_memForm (fun c m hm => ?_) h
    grind [Module.finish_memForm]
  · exact h

@[simp] theorem execCkptBuddyOnce_keepsForm {s : State} {id : ℕ} (h : s.mod.MemForm) :
    KeepsForm (execCkptBuddyOnce id s) := by
  unfold execCkptBuddyOnce
  apply State.run_keepsForm
  grind [Module.withMode_memForm, Module.ckpCheck_memForm, Module.finishFail_memForm, Module.finish_memForm,
    Module.armCapture_memForm]

@[simp] theorem execCkptBuddyPeriodic_keepsForm {s : State} {id : ℕ} (h : s.mod.MemForm) :
    KeepsForm (execCkptBuddyPeriodic id s) := by
  unfold execCkptBuddyPeriodic
  apply State.run_keepsForm
  grind [Module.withMode_memForm, Module.finish_memForm, Module.ckpCheck_memForm, Module.finishFail_memForm,
    Module.armCapture_memForm]

@[simp] theorem execCkptBuddyStop_keepsForm {s : State} {id : ℕ} (h : s.mod.MemForm) :
    KeepsForm (execCkptBuddyStop id s) := by
  unfold execCkptBuddyStop
  apply State.run_keepsForm
  grind [Module.withMode_memForm, Module.finish_memForm, Module.setCapture_memForm]

@[simp] theorem execCkptDurable_keepsForm {s : State} {id : ℕ} (h : s.mod.MemForm) :
    KeepsForm (execCkptDurable id s) := by
  unfold execCkptDurable
  refine State.run_keepsForm (Module.withCmd_memForm (fun c m hm => ?_) h)
  simp only
  split
  · next e => exact Module.finishFail_memForm ((Module.ckpCheck_memForm hm).of_eq e)
  · next e =>
    have hc := (Module.ckpCheck_memForm hm).of_eq e
    refine memForm_ite (Module.finish_memForm hc) ?_
    split
    · next e => exact Module.finish_memForm ((Module.mapped_memForm hc).of_eq e)
    · next e => exact Module.armCapture_memForm ((Module.mapped_memForm hc).of_eq e)

@[simp] theorem Module.sendPieces_memForm {t : Ten} {dst op : ℕ} {slot : Bool} {shard gen : ℕ} {bs : List Byte}
    (h : m.MemForm) : (m.sendPieces t dst op slot shard gen bs).MemForm := by
  unfold Module.sendPieces
  simp +contextual [h]

@[simp] theorem Module.sendImage_memForm {t : Ten} {dst : ℕ} {slot : Bool} {gen : ℕ} {datas : List (List Byte)}
    {man : List Byte} (h : m.MemForm) : (m.sendImage t dst slot gen datas man).MemForm := by
  unfold Module.sendImage
  grind [memForm_foldl, Module.sendPieces_memForm]

@[simp] theorem Module.writeImage_memForm {t : Ten} {va : ℕ} {datas : List (List Byte)} {man : List Byte}
    (h : m.MemForm) : (m.writeImage t va datas man).2.MemForm := by
  unfold Module.writeImage
  grind [Module.writeVA_memForm]

@[simp] theorem Module.captureError_memForm {t : Ten} {e : Fail} (h : m.MemForm) : (m.captureError t e).MemForm := by
  unfold Module.captureError
  simp [h]

@[simp] theorem execCaptureHold_keepsForm {s : State} {ten : Ten} (h : s.mod.MemForm) :
    KeepsForm (execCaptureHold ten s) := by
  unfold execCaptureHold
  apply State.run_keepsForm
  split
  · exact h
  · split
    · refine memForm_ite h ?_
      extract_lets gen m1 next m2
      have h2 : m2.MemForm := Module.setCapture_memForm (Module.setReg_memForm h)
      clear_value m2
      split
      · next e => exact Module.captureError_memForm ((Module.readShards_memForm h2).of_eq e)
      · next e =>
        have h3 := (Module.readShards_memForm h2).of_eq e
        extract_lets man m4
        have h4 : m4.MemForm := by
          unfold m4
          split <;> simp [h3]
        clear_value m4
        split
        · split
          · next e => exact Module.captureError_memForm ((Module.writeImage_memForm h4).of_eq e)
          · next e =>
            have h5 := (Module.writeImage_memForm h4).of_eq e
            refine Module.dropCapture_memForm ?_
            split <;> simp [h5]
        · split
          · exact Module.captureFail_memForm h4
          · exact memForm_ite (Module.captureFail_memForm h4)
              (memForm_ite (Module.captureFail_memForm h4) (Module.sendImage_memForm h4))
    · exact h

@[simp] theorem Module.ckpDiscard_memForm {t : Ten} (h : m.MemForm) : (m.ckpDiscard t).MemForm := h

@[simp] theorem Module.takeCkp_memForm {k : Packet} {op : ℕ} {f : Ten → Module → Module}
    (hf : ∀ t m, m.MemForm → (f t m).MemForm) (h : m.MemForm) : (m.takeCkp k op f).MemForm := by
  unfold Module.takeCkp
  split
  · exact h
  · refine Module.takeIn_memForm (fun t m hm => ?_) h
    grind [Module.ckpDiscard_memForm]

@[simp] theorem Module.ckpAnswer_memForm {t : Ten} {k : Packet} {op : ℕ} {bs : List Byte} (h : m.MemForm) :
    (m.ckpAnswer t k op bs).MemForm := by
  unfold Module.ckpAnswer
  simp [h]

@[simp] theorem execShardData_keepsForm {s : State} {pkt : Packet} (h : s.mod.MemForm) :
    KeepsForm (execShardData pkt s) := by
  unfold execShardData
  apply State.run_keepsForm
  grind [Module.takeCkp_memForm, Module.ckpDiscard_memForm, Module.writeVA_memForm, Module.ckpAnswer_memForm]

@[simp] theorem Module.readManifest_memForm {t : Ten} {va : ℕ} (h : m.MemForm) : (m.readManifest t va).2.MemForm := by
  unfold Module.readManifest
  grind [Module.readVA_memForm]

@[simp] theorem Module.shardsVerify_memForm {t : Ten} {va : ℕ} {man : List Byte} (h : m.MemForm) :
    (m.shardsVerify t va man).2.MemForm := by
  unfold Module.shardsVerify
  refine memForm_foldl_snd (fun p i hp => memForm_ite_snd hp ?_) h
  split <;> next e => exact (Module.readVA_memForm hp).of_eq e

@[simp] theorem Module.slotValid_memForm {t : Ten} {slot : ℕ} (h : m.MemForm) : (m.slotValid t slot).2.MemForm := by
  unfold Module.slotValid
  grind [Module.readManifest_memForm, Module.raise_memForm, Module.probe_memForm, Module.shardsVerify_memForm]

@[simp] theorem execManifest_keepsForm {s : State} {pkt : Packet} (h : s.mod.MemForm) :
    KeepsForm (execManifest pkt s) := by
  unfold execManifest
  apply State.run_keepsForm
  grind [Module.takeCkp_memForm, Module.ckpDiscard_memForm, Module.writeVA_memForm, Module.ckpAnswer_memForm,
    Module.readVA_memForm, Module.slotValid_memForm, Module.setReg_memForm]

@[simp] theorem execCkpAck_keepsForm {s : State} {ten : Ten} (h : s.mod.MemForm) : KeepsForm (execCkpAck ten s) := by
  unfold execCkpAck
  apply State.run_keepsForm
  split
  · exact h
  · refine Module.takeCkp_memForm (fun t m hm => ?_) h
    split
    · exact hm
    · split
      · exact hm
      · refine memForm_ite hm (Module.setCapture_memForm ?_)
        split
        · exact Module.finish_memForm (Module.setFlag_memForm (Module.setReg_memForm (Module.setReg_memForm hm)))
        · exact Module.setFlag_memForm (Module.setReg_memForm (Module.setReg_memForm hm))

@[simp] theorem execReadReq_keepsForm {s : State} {pkt : Packet} (h : s.mod.MemForm) :
    KeepsForm (execReadReq pkt s) := by
  unfold execReadReq
  apply State.run_keepsForm
  grind [Module.takeCkp_memForm, Module.readManifest_memForm, Module.ckpAnswer_memForm, Module.ckpDiscard_memForm,
    Module.readVA_memForm]

@[simp] theorem execCkpTimeoutExpire_keepsForm {s : State} {ten : Ten} (h : s.mod.MemForm) :
    KeepsForm (execCkpTimeoutExpire ten s) := by
  unfold execCkpTimeoutExpire
  apply State.run_keepsForm
  grind [Module.captureFail_memForm]

@[simp] theorem Module.stagePages_memForm {ten stop fuel va : ℕ} {ps : List MigPage} (h : m.MemForm) :
    (m.stagePages ten stop fuel va ps).2.2.MemForm := by
  induction fuel generalizing m va ps with
  | zero => exact h
  | succ fuel ih =>
    unfold Module.stagePages
    split
    · exact h
    · split
      · exact h
      · simp only
        split
        · exact ih h
        · split
          · exact h
          · next hg =>
            refine ih ?_
            split at hg
            · exact Module.allocFrame_memForm h hg
            · exact Module.allocRun_memForm h hg

@[simp] theorem Module.stageBanks_memForm {x x1 : List (ℕ × ℕ)} (h : m.MemForm) :
    (m.stageBanks x x1).2.2.MemForm := by
  induction x generalizing m x1 with
  | nil => exact h
  | cons a l ih =>
    unfold Module.stageBanks
    grind [Module.countBank_memForm, Module.drawn_memForm]

@[simp] theorem Module.destCheck_memForm {t : Ten} {s : Shard} (h : m.MemForm) : (m.destCheck t s).2.MemForm := by
  unfold Module.destCheck
  grind [Module.holdRefuse_memForm, Module.translateAll_memForm]

@[simp] theorem Module.stageShard_memForm {t : Ten} {s : Shard} (h : m.MemForm) : (m.stageShard t s).2.MemForm := by
  unfold Module.stageShard
  grind [Module.destCheck_memForm, Module.stageBanks_memForm, Module.stagePages_memForm]

@[simp] theorem Module.stageShards_memForm {t : Ten} {x : List Shard} (h : m.MemForm) :
    (m.stageShards t x).2.MemForm := by
  induction x generalizing m t with
  | nil => exact h
  | cons a l ih =>
    unfold Module.stageShards
    grind [Module.stageShard_memForm]

@[simp] theorem Module.askHolder_memForm {t : Ten} {holder : ℕ} {slot : Bool} {shard gen lo n : ℕ} (h : m.MemForm) :
    (m.askHolder t holder slot shard gen lo n).MemForm := by
  unfold Module.askHolder
  grind [memForm_foldl, Module.restoreFail_memForm, Module.sendCkp_memForm]

@[simp] theorem Module.chooseManifest_memForm {t : Ten} (h : m.MemForm) : (m.chooseManifest t).MemForm := by
  unfold Module.chooseManifest
  split
  · exact h
  · split
    · exact Module.restoreFail_memForm h
    · split
      · exact Module.restoreFail_memForm h
      · simp only
        split
        · next e => exact Module.restoreFail_memForm ((Module.stageShards_memForm (by exact h)).of_eq e)
        · next e =>
          have hs := (Module.stageShards_memForm (by exact h)).of_eq e
          exact memForm_ite hs (memForm_foldl (fun _ _ hm => Module.askHolder_memForm hm) hs)

@[simp] theorem Module.chooseAgain_memForm {t : Ten} (h : m.MemForm) : (m.chooseAgain t).MemForm := by
  unfold Module.chooseAgain
  grind [Module.dropStaging_memForm, Module.chooseManifest_memForm]

@[simp] theorem Module.pairHead_memForm {t : Ten} {b : List Byte} (h : m.MemForm) : (m.pairHead t b).MemForm := by
  unfold Module.pairHead
  simp [h]

@[simp] theorem Module.readDurable_memForm {t : Ten} {va : ℕ} (h : m.MemForm) : (m.readDurable t va).MemForm := by
  unfold Module.readDurable
  split
  · exact h
  · have hr := Module.readManifest_memForm (t := t) (va := va) h
    split
    · next e => exact Module.restoreFail_memForm (hr.of_eq e)
    · next x _ _ man m' e =>
      have hp := Module.pairHead_memForm (t := t) (b := man) (hr.of_eq e)
      have hc : Module.MemForm (Module.chooseManifest { m'.pairHead t man with
          restores := Map.insert (m'.pairHead t man).restores t.val { x with heads := [(false, 0, man)] } } t) :=
        Module.chooseManifest_memForm hp
      simp only
      split
      · exact hc
      · refine memForm_foldl (fun m i hm => ?_) hc
        split
        · next e =>
          have hr := (Module.readVA_memForm hm).of_eq e
          exact hr
        · next e => exact Module.restoreFail_memForm ((Module.readVA_memForm hm).of_eq e)
        · exact hm

@[simp] theorem execCkptRestore_keepsForm {s : State} {id : ℕ} (h : s.mod.MemForm) :
    KeepsForm (execCkptRestore id s) := by
  unfold execCkptRestore
  apply State.run_keepsForm
  grind [Module.withCmd_memForm, Module.finish_memForm, Module.mirrorCkp_memForm, Module.readDurable_memForm,
    Module.raise_memForm, Module.askHolder_memForm]

@[simp] theorem Module.headData_memForm {t : Ten} {x : Restore} {k : Packet} (h : m.MemForm) :
    (m.headData t x k).MemForm := by
  unfold Module.headData
  grind [Module.askHolder_memForm, Module.pairHead_memForm, Module.chooseManifest_memForm]

@[simp] theorem execReadData_keepsForm {s : State} {pkt : Packet} (h : s.mod.MemForm) :
    KeepsForm (execReadData pkt s) := by
  unfold execReadData
  apply State.run_keepsForm
  grind [Module.takeIn_memForm, Module.ckpDiscard_memForm, Module.headData_memForm]

@[simp] theorem execCkpNak_keepsForm {s : State} {ten : Ten} (h : s.mod.MemForm) : KeepsForm (execCkpNak ten s) := by
  unfold execCkpNak
  apply State.run_keepsForm
  grind [Module.takeIn_memForm, Module.captureFail_memForm, Module.chooseAgain_memForm,
    Module.chooseManifest_memForm, Module.ckpDiscard_memForm]

@[simp] theorem Module.fillStaging_memForm {t : Ten} {x : Restore} {s : Shard} {b : List Byte} (h : m.MemForm) :
    (m.fillStaging t x s b).MemForm := by
  unfold Module.fillStaging
  grind [memForm_foldl, Module.writeHoldLocs_memForm, Module.writeLoc_memForm]

@[simp] theorem Module.installPage_memForm {ten : ℕ} {p : MigPage} (h : m.MemForm) :
    (m.installPage ten p).MemForm := by
  unfold Module.installPage
  grind [memForm_foldl, Module.releaseFrames_memForm, Module.writeEntry_memForm, Module.uncachePages_memForm,
    Module.freeFrame_memForm]

@[simp] theorem Module.installBank_memForm {b : ℕ × ℕ} (h : m.MemForm) : (m.installBank b).MemForm := by
  unfold Module.installBank
  simp [h]

@[simp] theorem Module.batchFrom_memForm {t : Ten} {r : Route} {step : Word64} (h : m.MemForm) :
    (m.batchFrom t r step).2.MemForm := by
  unfold Module.batchFrom
  grind [Module.readVA_memForm]

@[simp] theorem Module.setCommitted_memForm {n : ℕ} {step : Word64} (h : m.MemForm) :
    (m.setCommitted n step).MemForm := by
  unfold Module.setCommitted
  grind [memForm_foldl, Module.setCl_memForm, Module.mirrorTwin_memForm, Module.setReg_memForm,
    Module.setRoute_memForm, Module.dropSlots_memForm, Module.mirrorRoute_memForm, Module.batchFrom_memForm]

@[simp] theorem execRestoreInstall_keepsForm {s : State} {ten : Ten} (h : s.mod.MemForm) :
    KeepsForm (execRestoreInstall ten s) := by
  unfold execRestoreInstall
  apply State.run_keepsForm
  split
  · exact h
  · split
    · exact h
    · refine memForm_ite h (memForm_ite (Module.chooseAgain_memForm h) ?_)
      split
      · refine Module.finish_memForm (Module.mirrorCkp_memForm (Module.setCommitted_memForm ?_))
        refine memForm_foldl (fun _ _ hm => Module.installBank_memForm hm) ?_
        refine memForm_foldl (fun _ _ hm => Module.installPage_memForm hm) ?_
        refine memForm_foldl (fun _ _ hm => Module.fillStaging_memForm hm) ?_
        exact memForm_foldl (fun _ _ hm => Module.copyPage_memForm (Module.scanPage_memForm hm)) h
      · exact Module.restoreFail_memForm h

/-! ### Operands.lean -/

@[simp] theorem Module.control_memForm {cx : Ctx} {pc : ℕ} {loops : List Loop} (h : m.MemForm) :
    (m.control cx pc loops).MemForm := by
  unfold Module.control
  simp [h]

@[simp] theorem Module.retire_memForm {cx : Ctx} (h : m.MemForm) : (m.retire cx).MemForm := by
  unfold Module.retire
  grind [Module.control_memForm, Module.haltTile_memForm]

@[simp] theorem Module.waitOn_memForm {cx : Ctx} {op : Byte} {w : Fields} (h : m.MemForm) :
    (m.waitOn cx op w).MemForm := by
  unfold Module.waitOn
  simp [h]

@[simp] theorem Module.each_memForm {cx : Ctx} {f : TileId → Tile → Tile} (h : m.MemForm) :
    (m.each cx f).MemForm := by
  unfold Module.each
  simp [h]

@[simp] theorem Module.eachE_memForm {cx : Ctx} {f : TileId → Tile → Except Misuse Tile} (h : m.MemForm) :
    ExceptForm (m.eachE cx f) := by
  have hgo := exceptForm_foldlM (l := m.spanTiles cx.o) (f := fun m u => do
    let x ← f u (m.tile u)
    return m.setTile u x) (fun m u hm => by
      cases hx : f u (m.tile u) with
      | error e => exact exceptForm_error e
      | ok x => exact exceptForm_ok (Module.setTile_memForm hm)) h
  unfold Module.eachE
  simp only
  split
  · next m' e => exact exceptForm_ok (Module.retire_memForm (hgo m' e))
  · exact exceptForm_error _

@[simp] theorem Module.probeTile_memForm {cx : Ctx} {op : Byte} (h : m.MemForm) : (m.probeTile cx op).MemForm := by
  unfold Module.probeTile
  grind [Module.probe_memForm]

theorem State.tileOpBy_keepsForm {s : State} {t : TileId} {op : Byte} {w : Fields} {bad : Bool → Option ℕ}
    {body : Ctx → Module → Except Misuse Module} (h : s.mod.MemForm)
    (hb : ∀ cx m, m.MemForm → ExceptForm (body cx m)) : KeepsForm (s.tileOpBy t op w bad body) := by
  unfold State.tileOpBy
  apply State.run_keepsForm
  grind [Module.probeTile_memForm, Module.haltTile_memForm, Module.orUndefined_memForm]

theorem State.tileOp_keepsForm {s : State} {t : TileId} {op : Byte} {w : Fields} {form : Form}
    {body : Ctx → Module → Except Misuse Module} {others : List ℕ} (h : s.mod.MemForm)
    (hb : ∀ cx m, m.MemForm → ExceptForm (body cx m)) : KeepsForm (s.tileOp t op w form body others) := by
  unfold State.tileOp
  split
  · exact State.run_keepsForm h
  · exact State.tileOpBy_keepsForm h hb

/-! ### MoveOps.lean -/

@[simp] theorem Module.placeBank_memForm {ten b : ℕ} {ok : ℕ → Bool} (h : m.MemForm) :
    (m.placeBank ten b ok).MemForm := by
  unfold Module.placeBank
  grind [Module.raise_memForm, Module.releaseBank_memForm, Module.takeBank_memForm, Module.copyBank_memForm,
    Module.drawn_memForm]

@[simp] theorem Module.placeHold_memForm {ten : ℕ} {cs : List ℕ} {b : Buffer} (h : m.MemForm) :
    (m.placeHold ten cs b).MemForm := by
  unfold Module.placeHold
  grind [memForm_foldl, Module.placeBank_memForm]

@[simp] theorem Module.placeHolds_memForm {n : ℕ} (h : m.MemForm) : (m.placeHolds n).MemForm := by
  unfold Module.placeHolds
  grind [memForm_foldl, Module.placeHold_memForm]

@[simp] theorem Module.readBuffer_memForm {ten : ℕ} {b : Buffer} {off n : ℕ} (h : m.MemForm) :
    (m.readBuffer ten b off n).2.2.MemForm := by
  unfold Module.readBuffer
  grind [Module.readHold_memForm, Module.readVA_memForm]

@[simp] theorem Module.backTile_memForm {r : Route} {i k : ℕ} {base : Tile} (h : m.MemForm) :
    (m.backTile r i k base).2.MemForm := by
  unfold Module.backTile
  refine memForm_foldl_snd (fun p b hp => ?_) (Module.setTileAt_memForm h)
  exact Module.setTileAt_memForm (Module.readBuffer_memForm hp)

@[simp] theorem Module.formBays_memForm {r : Route} {i : ℕ} {p : Prog} {c : ℕ} {save : Map Mem} (h : m.MemForm) :
    (m.formBays r i p c save).MemForm := by
  unfold Module.formBays
  grind [memForm_foldl, Module.backTile_memForm, Module.mapTiles_memForm]

@[simp] theorem Module.writeDepot_memForm {c : ℕ} {code : List Byte} (h : m.MemForm) :
    (m.writeDepot c code).MemForm := by
  unfold Module.writeDepot
  simp [h]

@[simp] theorem Module.joinStage_memForm {c n i logical : ℕ} {twin : Option ℕ} {save : Option (Map Mem)}
    (h : m.MemForm) : (m.joinStage c n i logical twin save).MemForm := by
  unfold Module.joinStage
  grind [Module.wipeCluster_memForm, Module.setAssign_memForm, Module.takeLogical_memForm, Module.writeDepot_memForm,
    Module.formBays_memForm, Module.setFld_memForm, Module.setFlag_memForm, Module.setCl_memForm]

@[simp] theorem Module.setRowMap_memForm {c r v : ℕ} (h : m.MemForm) : (m.setRowMap c r v).MemForm := h

@[simp] theorem Module.editRowMap_memForm {c r lo w v : ℕ} (h : m.MemForm) : (m.editRowMap c r lo w v).MemForm := h

@[simp] theorem Module.countSpares_memForm {c : ℕ} (h : m.MemForm) : (m.countSpares c).MemForm := h

@[simp] theorem Module.toRecord_memForm {c r off : ℕ} (h : m.MemForm) : (m.toRecord c r off).MemForm := h

@[simp] theorem Module.replaceCluster_memForm {t : Ten} {n i logical : ℕ} {twin : Option ℕ} {save : Map Mem}
    (h : m.MemForm) : (m.replaceCluster t n i logical twin save).MemForm := by
  unfold Module.replaceCluster
  grind [Module.setCl_memForm, Module.setClState_memForm, Module.changedRoute_memForm, Module.stopKill_memForm]

@[simp] theorem Module.abandonMove_memForm {c : ℕ} (h : m.MemForm) : (m.abandonMove c).MemForm := by
  unfold Module.abandonMove
  split <;> simp [h]

@[simp] theorem Module.abandonTo_memForm {c : ℕ} (h : m.MemForm) : (m.abandonTo c).MemForm := by
  unfold Module.abandonTo
  grind [memForm_foldl, Module.abandonMove_memForm, Module.setCl_memForm, Module.restState_memForm]

@[simp] theorem Module.retarget_memForm {c d : ℕ} {old : ℕ → Tile} (h : m.MemForm) :
    (m.retarget c d old).MemForm := by
  unfold Module.retarget
  simp +contextual [h]

@[simp] theorem Module.orphanShares_memForm {c : ℕ} (h : m.MemForm) : (m.orphanShares c).MemForm := by
  unfold Module.orphanShares
  split <;> simp [h]

@[simp] theorem Module.retireCluster_memForm {c : ℕ} (h : m.MemForm) : (m.retireCluster c).MemForm := by
  unfold Module.retireCluster
  grind [Module.abandonTo_memForm, Module.abandonMove_memForm, Module.orphanShares_memForm, Module.setFld_memForm,
    Module.setFlag_memForm, Module.wipeCluster_memForm, Module.setAssign_memForm, Module.setCl_memForm,
      Module.mirrorTen_memForm, Module.replaceCluster_memForm, Module.retarget_memForm, Module.idleCluster_memForm,
        Module.changedRoute_memForm]

@[simp] theorem Module.checkAssign_memForm {c : ℕ} (h : m.MemForm) : (m.checkAssign c).MemForm := by
  unfold Module.checkAssign
  grind [Module.probe_memForm, Module.raise_memForm, Module.setReg_memForm, Module.setCl_memForm,
    Module.retireCluster_memForm]

@[simp] theorem Module.countEpochs_memForm (h : m.MemForm) : m.countEpochs.MemForm := h

@[simp] theorem Module.recordEpoch_memForm {e : Epoch} {status : ℕ} (h : m.MemForm) :
    (m.recordEpoch e status).MemForm := h

@[simp] theorem Module.setEpoch_memForm {n : ℕ} {f : Epoch → Option Epoch} (h : m.MemForm) :
    (m.setEpoch n f).MemForm := h

@[simp] theorem Module.doubleFault_memForm {n : ℕ} (h : m.MemForm) : (m.doubleFault n).MemForm := by
  unfold Module.doubleFault
  grind [memForm_foldl, Module.recordEpoch_memForm, Module.setEpoch_memForm, Module.stopKill_memForm,
    Module.raise_memForm]

@[simp] theorem Module.checkEpochBuddy_memForm {n : ℕ} (h : m.MemForm) : (m.checkEpochBuddy n).MemForm := by
  unfold Module.checkEpochBuddy
  grind [Module.doubleFault_memForm]

@[simp] theorem Module.lostBuddies_memForm (h : m.MemForm) : m.lostBuddies.MemForm := by
  unfold Module.lostBuddies
  simp +contextual [h]

@[simp] theorem Module.closeEpoch_memForm {n : ℕ} (h : m.MemForm) : (m.closeEpoch n).MemForm := by
  unfold Module.closeEpoch
  grind [memForm_foldl, Module.recordEpoch_memForm, Module.setEpoch_memForm, Module.checkStopped_memForm]

@[simp] theorem Module.releaseEpochs_memForm {c : ℕ} (h : m.MemForm) : (m.releaseEpochs c).MemForm := by
  unfold Module.releaseEpochs
  simp +contextual [h]

@[simp] theorem Module.beginRepair_memForm {c r off : ℕ} (h : m.MemForm) : (m.beginRepair c r off).MemForm := by
  unfold Module.beginRepair
  grind [Module.setFld_memForm, Module.mapTiles_memForm, Module.editRowMap_memForm, Module.setCl_memForm]

@[simp] theorem Module.restartEpoch_memForm {n : ℕ} {e : Epoch} {more : List ℕ} (h : m.MemForm) :
    (m.restartEpoch n e more).MemForm := by
  unfold Module.restartEpoch
  split <;> simp [h]

@[simp] theorem Module.epochData_memForm {n : ℕ} (h : m.MemForm) : (m.epochData n).MemForm := by
  unfold Module.epochData
  split <;> simp [h]

@[simp] theorem Module.openEpoch_memForm {c : ℕ} {declared : Bool} (h : m.MemForm) :
    (m.openEpoch c declared).MemForm := by
  unfold Module.openEpoch
  grind [Module.killRoute_memForm, Module.checkEpochBuddy_memForm, Module.raise_memForm, Module.countEpochs_memForm,
    Module.restartEpoch_memForm]

@[simp] theorem Module.retireInEpoch_memForm {c : ℕ} (h : m.MemForm) : (m.retireInEpoch c).MemForm := by
  unfold Module.retireInEpoch
  simp [h]

@[simp] theorem Module.markSecond_memForm {c r off : ℕ} (h : m.MemForm) : (m.markSecond c r off).MemForm := h

@[simp] theorem Module.markSpareBad_memForm {c r : ℕ} (h : m.MemForm) : (m.markSpareBad c r).MemForm := h

@[simp] theorem Module.secondFault_memForm {c r off : ℕ} {declared : Bool} (h : m.MemForm) :
    (m.secondFault c r off declared).MemForm := by
  unfold Module.secondFault
  grind [Module.retireInEpoch_memForm, Module.openEpoch_memForm, Module.markSecond_memForm]

@[simp] theorem Module.spareFault_memForm {c r : ℕ} (h : m.MemForm) : (m.spareFault c r).MemForm := by
  unfold Module.spareFault
  grind [Module.markSecond_memForm, Module.editRowMap_memForm, Module.doubleFault_memForm,
    Module.retireInEpoch_memForm]

@[simp] theorem Module.siteFault_memForm {c r off : ℕ} {bypass declared : Bool} (h : m.MemForm) :
    (m.siteFault c r off bypass declared).MemForm := by
  unfold Module.siteFault
  grind [Module.retireInEpoch_memForm, Module.openEpoch_memForm, Module.spareFault_memForm,
    Module.markSpareBad_memForm, Module.beginRepair_memForm, Module.secondFault_memForm]

end Sys2Proof.Machine
end

