-- ==== Sys2Proof/Proofs/FormLinks.lean ====
section
/-! The canonical form of DRAM and Hold is kept by the control of the tiles, their streams, the deck, the links and the collectives. -/

namespace Sys2Proof.Machine

variable {m : Module}

/-! ### TileControl.lean -/

@[simp] theorem execNop_keepsForm {s : State} {t : TileId} {op : Byte} {w : Fields} (h : s.mod.MemForm) :
    KeepsForm (execNop t op w s) := by
  unfold execNop
  apply State.run_keepsForm
  grind [Module.haltTile_memForm, Module.retire_memForm]

@[simp] theorem Module.arrive_memForm {cx : Ctx} {halt : Bool} (h : m.MemForm) : (m.arrive cx halt).MemForm := by
  unfold Module.arrive
  simp [h]

@[simp] theorem execHalt_keepsForm {s : State} {t : TileId} {w : Fields} (h : s.mod.MemForm) :
    KeepsForm (execHalt t w s) := by
  unfold execHalt
  refine State.tileOp_keepsForm h fun cx m hm => ?_
  grind [exceptForm_ok, exceptForm_error, Module.waitOn_memForm, Module.arrive_memForm, Module.haltTile_memForm]

@[simp] theorem Module.branchTo_memForm {cx : Ctx} {pc : Option ℕ} {ends : Bool} (h : m.MemForm) :
    (m.branchTo cx pc ends).MemForm := by
  unfold Module.branchTo
  split <;> simp [h]

@[simp] theorem execBr_keepsForm {s : State} {t : TileId} {w : Fields} (h : s.mod.MemForm) :
    KeepsForm (execBr t w s) := by
  unfold execBr
  exact State.tileOp_keepsForm h fun cx m hm => by simp [hm]

@[simp] theorem execBCc_keepsForm {s : State} {t : TileId} {w : Fields} (h : s.mod.MemForm) :
    KeepsForm (execBCc t w s) := by
  unfold execBCc
  refine State.tileOp_keepsForm h fun cx m hm => ?_
  simp only
  split <;> simp [hm]

@[simp] theorem execCall_keepsForm {s : State} {t : TileId} {w : Fields} (h : s.mod.MemForm) :
    KeepsForm (execCall t w s) := by
  unfold execCall
  refine State.tileOp_keepsForm h fun cx m hm => ?_
  grind [exceptForm_ok, exceptForm_error, Module.haltTile_memForm, Module.branchTo_memForm, Module.mapSpan_memForm]

@[simp] theorem execJr_keepsForm {s : State} {t : TileId} {w : Fields} (h : s.mod.MemForm) :
    KeepsForm (execJr t w s) := by
  unfold execJr
  exact State.tileOp_keepsForm h fun cx m hm => by simp [hm]

@[simp] theorem execLoop_keepsForm {s : State} {t : TileId} {w : Fields} (h : s.mod.MemForm) :
    KeepsForm (execLoop t w s) := by
  unfold execLoop
  refine State.tileOp_keepsForm h fun cx m hm => ?_
  grind [exceptForm_ok, exceptForm_error, Module.haltTile_memForm, Module.control_memForm]

/-! ### TileStream.lean -/

@[simp] theorem Module.dropEdge_memForm {ten c : ℕ} (h : m.MemForm) : (m.dropEdge ten c).MemForm := by
  unfold Module.dropEdge
  simp [h]

@[simp] theorem Module.dropAddress_memForm {ten c : ℕ} (h : m.MemForm) : (m.dropAddress ten c).MemForm := by
  unfold Module.dropAddress
  simp [h]

@[simp] theorem Module.sendPacket_memForm {ten : Ten} {u : TileId} {port : ℕ} {dest : Word} {vc : BitVec 4}
    {kind : DeckKind} {data : List Byte} (h : m.MemForm) : (m.sendPacket ten u port dest vc kind data).MemForm := by
  unfold Module.sendPacket
  grind [Module.noteTile_memForm, Module.dropAddress_memForm, Module.setTile_memForm, Module.dropEdge_memForm]

@[simp] theorem Module.sendAll_memForm {cx : Ctx} {op : Byte} {w : Fields} {kind : DeckKind}
    {payload : Tile → Option (List Byte)} (h : m.MemForm) : ExceptForm (m.sendAll cx op w kind payload) := by
  unfold Module.sendAll
  grind [memForm_foldl, exceptForm_ok, exceptForm_error, Module.waitOn_memForm, Module.sendPacket_memForm,
    Module.retire_memForm]

@[simp] theorem execSend_keepsForm {s : State} {t : TileId} {w : Fields} (h : s.mod.MemForm) :
    KeepsForm (execSend t w s) := by
  unfold execSend
  refine State.tileOp_keepsForm h fun cx m hm => ?_
  grind [exceptForm_ok, exceptForm_error, Module.haltTile_memForm, Module.sendAll_memForm]

@[simp] theorem execSendv_keepsForm {s : State} {t : TileId} {w : Fields} (h : s.mod.MemForm) :
    KeepsForm (execSendv t w s) := by
  unfold execSendv
  refine State.tileOp_keepsForm h fun cx m hm => ?_
  grind [exceptForm_ok, exceptForm_error, Module.haltTile_memForm, Module.sendAll_memForm]

@[simp] theorem execMark_keepsForm {s : State} {t : TileId} {w : Fields} (h : s.mod.MemForm) :
    KeepsForm (execMark t w s) := by
  unfold execMark
  refine State.tileOp_keepsForm h fun cx m hm => ?_
  grind [exceptForm_ok, exceptForm_error, Module.haltTile_memForm, Module.sendAll_memForm]

@[simp] theorem Module.dropBadMarkers_memForm {ten : Ten} {u : TileId} {port vc x : ℕ} (h : m.MemForm) :
    (m.dropBadMarkers ten u port vc x).MemForm := by
  induction x generalizing m ten u port vc with
  | zero => exact h
  | succ n ih =>
    unfold Module.dropBadMarkers
    grind [Module.setTile_memForm, Module.markerFailed_memForm, Module.raise_memForm, Module.probe_memForm]

@[simp] theorem Module.recvAll_memForm {cx : Ctx} {op : Byte} {w : Fields} {status : ℕ}
    {put : Tile → List Byte → Except Misuse (Tile × ℕ)} (h : m.MemForm) : ExceptForm (m.recvAll cx op w status put)
      := by
  unfold Module.recvAll
  grind [memForm_foldl, exceptForm_ok, exceptForm_error, Module.dropBadMarkers_memForm, Module.waitOn_memForm,
    Module.eachE_memForm]

@[simp] theorem execRecv_keepsForm {s : State} {t : TileId} {w : Fields} (h : s.mod.MemForm) :
    KeepsForm (execRecv t w s) := by
  unfold execRecv
  refine State.tileOp_keepsForm h fun cx m hm => ?_
  simp only
  split <;> simp [hm]

@[simp] theorem execRecvv_keepsForm {s : State} {t : TileId} {w : Fields} (h : s.mod.MemForm) :
    KeepsForm (execRecvv t w s) := by
  unfold execRecvv
  refine State.tileOp_keepsForm h fun cx m hm => ?_
  simp only
  split <;> simp [hm]

@[simp] theorem execFlag_keepsForm {s : State} {t : TileId} {w : Fields} (h : s.mod.MemForm) :
    KeepsForm (execFlag t w s) := by
  unfold execFlag
  exact State.tileOp_keepsForm h fun cx m hm => exceptForm_ok (Module.retire_memForm
    (memForm_foldl (fun _ _ hm => Module.sendPacket_memForm hm) hm))

/-! ### Deck.lean -/

@[simp] theorem Module.setXr_memForm {v : TileId} {vc : BitVec 4} {r : XRes} (h : m.MemForm) :
    (m.setXr v vc r).MemForm := h

@[simp] theorem Module.failSender_memForm {k : DeckPkt} (h : m.MemForm) : (m.failSender k).MemForm := by
  unfold Module.failSender
  split <;> simp [h]

@[simp] theorem Module.deliverPacket_memForm {k : DeckPkt} (h : m.MemForm) : (m.deliverPacket k).MemForm := by
  unfold Module.deliverPacket
  grind [Module.setTile_memForm]

@[simp] theorem Module.leaveDeck_memForm {k : DeckPkt} (h : m.MemForm) : (m.leaveDeck k).MemForm := by
  unfold Module.leaveDeck
  simp [h]

@[simp] theorem execDeckPacketArrive_keepsForm {s : State} {n : ℕ} (h : s.mod.MemForm) :
    KeepsForm (execDeckPacketArrive n s) := by
  unfold execDeckPacketArrive
  apply State.run_keepsForm
  grind [Module.when_memForm, Module.probe_memForm, Module.raise_memForm, Module.leaveDeck_memForm,
    Module.failSender_memForm, Module.checkAssign_memForm, Module.deliverPacket_memForm, Module.addFld_memForm,
      Module.violation_memForm]

@[simp] theorem execXReservationGrant_keepsForm {s : State} {t : TileId} {vc : BitVec 4} (h : s.mod.MemForm) :
    KeepsForm (execXReservationGrant t vc s) := by
  unfold execXReservationGrant
  apply State.run_keepsForm
  grind [Module.setXr_memForm]

@[simp] theorem execXSegmentInject_keepsForm {s : State} {t : TileId} {vc : BitVec 4} (h : s.mod.MemForm) :
    KeepsForm (execXSegmentInject t vc s) := by
  unfold execXSegmentInject
  apply State.run_keepsForm
  grind [Module.setTile_memForm]

@[simp] theorem execBridgeChannelFail_keepsForm {s : State} {edge : Fin 4} {ch : Fin 40} (h : s.mod.MemForm) :
    KeepsForm (execBridgeChannelFail edge ch s) := by
  unfold execBridgeChannelFail
  apply State.run_keepsForm
  grind [Module.raise_memForm, Module.setReg_memForm]

@[simp] theorem execDckStallExpire_keepsForm {s : State} {t : TileId} (h : s.mod.MemForm) :
    KeepsForm (execDckStallExpire t s) := by
  unfold execDckStallExpire
  apply State.run_keepsForm
  grind [Module.raise_memForm]

/-! ### Links.lean -/

@[simp] theorem Module.portFails_memForm {p : ℕ} (h : m.MemForm) : (m.portFails p).MemForm := by
  unfold Module.portFails
  grind [Module.lostBuddies_memForm, Module.cutOps_memForm, Module.raise_memForm, Module.closePort_memForm]

@[simp] theorem Module.applyLanes_memForm {p vlp : ℕ} (h : m.MemForm) : (m.applyLanes p vlp).MemForm := by
  unfold Module.applyLanes
  grind [memForm_foldl, Module.setPort_memForm, Module.setReg_memForm, Module.portFails_memForm,
    Module.setFld_memForm, Module.setPortState_memForm, Module.raise_memForm, Module.sendLinkFlit_memForm]

@[simp] theorem Module.takeData_memForm {p flags : ℕ} {bs : List Byte} (h : m.MemForm) :
    (m.takeData p flags bs).MemForm := by
  unfold Module.takeData
  grind [Module.addFld_memForm, Module.when_memForm, Module.probe_memForm, Module.raise_memForm,
    Module.setPort_memForm]

@[simp] theorem Module.joinAbort_memForm {o : GroupOp} (h : m.MemForm) : (m.joinAbort o).MemForm := by
  unfold Module.joinAbort
  simp [h]

@[simp] theorem Module.takeSync_memForm {p : ℕ} {tunnel : Bool} {b : List Byte} (h : m.MemForm) :
    (m.takeSync p tunnel b).MemForm := by
  unfold Module.takeSync
  grind [Module.raise_memForm, Module.sendSync_memForm, Module.joinAbort_memForm, Module.pushOp_memForm]

@[simp] theorem execFlitReceive_keepsForm {s : State} {p : Fin 6} {fecOk : Bool} {flit : BitVec 2048}
    (h : s.mod.MemForm) : KeepsForm (execFlitReceive p fecOk flit s) := by
  unfold execFlitReceive
  apply State.run_keepsForm
  grind [Module.drawn_memForm, Module.addFld_memForm, Module.sendNak_memForm, Module.nakPort_memForm,
    Module.ackPort_memForm, Module.setPort_memForm, Module.sendIdle_memForm, Module.takeData_memForm,
      Module.takeSync_memForm, Module.probe_memForm, Module.send_memForm, Module.raise_memForm]

@[simp] theorem execSyncMarkMiss_keepsForm {s : State} {p : Fin 6} (h : s.mod.MemForm) :
    KeepsForm (execSyncMarkMiss p s) := by
  unfold execSyncMarkMiss
  apply State.run_keepsForm
  grind [Module.sendNak_memForm, Module.setPort_memForm]

@[simp] theorem execSyncMarkAccept_keepsForm {s : State} {p : Fin 6} (h : s.mod.MemForm) :
    KeepsForm (execSyncMarkAccept p s) := by
  unfold execSyncMarkAccept
  apply State.run_keepsForm
  grind [Module.setPort_memForm]

@[simp] theorem execFailedFrame_keepsForm {s : State} {p : Fin 6} (h : s.mod.MemForm) :
    KeepsForm (execFailedFrame p s) := by
  unfold execFailedFrame
  apply State.run_keepsForm
  grind [Module.startRetrain_memForm, Module.setPort_memForm]

@[simp] theorem execNakReceive_keepsForm {s : State} {p : Fin 6} {ack : BitVec 16} (h : s.mod.MemForm) :
    KeepsForm (execNakReceive p ack s) := by
  unfold execNakReceive
  apply State.run_keepsForm
  grind [Module.nakPort_memForm]

@[simp] theorem execLaneFail_keepsForm {s : State} {p : Fin 6} {lane : Fin 44} (h : s.mod.MemForm) :
    KeepsForm (execLaneFail p lane s) := by
  unfold execLaneFail
  apply State.run_keepsForm
  grind [Module.setPort_memForm]

@[simp] theorem execRetrainStart_keepsForm {s : State} {p : Fin 6} (h : s.mod.MemForm) :
    KeepsForm (execRetrainStart p s) := by
  unfold execRetrainStart
  apply State.run_keepsForm
  grind [Module.startRetrain_memForm]

@[simp] theorem execRetrain_keepsForm {s : State} {p : Fin 6} (h : s.mod.MemForm) : KeepsForm (execRetrain p s) := by
  unfold execRetrain
  apply State.run_keepsForm
  grind [Module.startRetrain_memForm]

@[simp] theorem execRetrainSignal_keepsForm {s : State} {p : Fin 6} (h : s.mod.MemForm) :
    KeepsForm (execRetrainSignal p s) := by
  unfold execRetrainSignal
  apply State.run_keepsForm
  grind [Module.startRetrain_memForm]

@[simp] theorem execRetrainComplete_keepsForm {s : State} {p : Fin 6} {ok : Bool} {peerAck : BitVec 16}
    (h : s.mod.MemForm) : KeepsForm (execRetrainComplete p ok peerAck s) := by
  unfold execRetrainComplete
  apply State.run_keepsForm
  grind [Module.setFld_memForm, Module.applyLanes_memForm, Module.resendSync_memForm, Module.drainTx_memForm,
    Module.replayPort_memForm, Module.releaseAcked_memForm, Module.portFails_memForm, Module.startRetrain_memForm,
      Module.setPortState_memForm]

@[simp] theorem Module.announce_memForm {p : ℕ} (h : m.MemForm) : (m.announce p).MemForm := by
  unfold Module.announce
  simp [h]

@[simp] theorem execLinkUp_keepsForm {s : State} {p : Fin 6} {peerMax : BitVec 8} (h : s.mod.MemForm) :
    KeepsForm (execLinkUp p peerMax s) := by
  unfold execLinkUp
  apply State.run_keepsForm
  grind [Module.setPort_memForm, Module.sendLinkFlit_memForm, Module.raise_memForm, Module.setFld_memForm,
    Module.applyLanes_memForm, Module.resendSync_memForm, Module.drainTx_memForm, Module.announce_memForm]

@[simp] theorem execPortDown_keepsForm {s : State} {p : Fin 6} (h : s.mod.MemForm) :
    KeepsForm (execPortDown p s) := by
  unfold execPortDown
  apply State.run_keepsForm
  grind [Module.portFails_memForm]

@[simp] theorem Module.disablePort_memForm {p : Fin 6} {value : Bool} (h : m.MemForm) :
    (m.disablePort p value).MemForm := by
  unfold Module.disablePort
  grind [Module.setFlag_memForm, Module.lostBuddies_memForm, Module.cutOps_memForm, Module.closePort_memForm,
    Module.setPortState_memForm]

@[simp] theorem execPortDisable_keepsForm {s : State} {p : Fin 6} {value : Bool} (h : s.mod.MemForm) :
    KeepsForm (execPortDisable p value s) := by
  unfold execPortDisable
  apply State.run_keepsForm
  grind [Module.disablePort_memForm]

@[simp] theorem Module.popRx_memForm {p : ℕ} {ok : Packet → Bool} (h : m.MemForm) : (m.popRx p ok).2.MemForm := by
  unfold Module.popRx
  grind [Module.setPort_memForm]

@[simp] theorem execPacketForward_keepsForm {s : State} {p : Fin 6} (h : s.mod.MemForm) :
    KeepsForm (execPacketForward p s) := by
  unfold execPacketForward
  apply State.run_keepsForm
  grind [Module.popRx_memForm, Module.forward_memForm]

@[simp] theorem execPacketDeliver_keepsForm {s : State} {p : Fin 6} (h : s.mod.MemForm) :
    KeepsForm (execPacketDeliver p s) := by
  unfold execPacketDeliver
  apply State.run_keepsForm
  grind [Module.popRx_memForm, Module.deliver_memForm]

@[simp] theorem Module.writeJob_memForm {ten : Ten} {value : Word64} (h : m.MemForm) :
    (m.writeJob ten value).MemForm := by
  unfold Module.writeJob
  grind [Module.raise_memForm, Module.setReg_memForm, Module.cancelCols_memForm]

@[simp] theorem execViaJobWrite_keepsForm {s : State} {ten : Ten} {value : Word64} (h : s.mod.MemForm) :
    KeepsForm (execViaJobWrite ten value s) := by
  unfold execViaJobWrite
  apply State.run_keepsForm
  grind [Module.writeJob_memForm]

@[simp] theorem Module.setCoord_memForm {x y z : ℕ} (h : m.MemForm) : (m.setCoord x y z).MemForm := by
  unfold Module.setCoord
  grind [memForm_foldl, Module.setReg_memForm, Module.announce_memForm]

@[simp] theorem execDiscoveryLinkFlit_keepsForm {s : State} {p peerPort : Fin 6} {x y : BitVec 4} {z : BitVec 5}
    {dims : BitVec 13} (h : s.mod.MemForm) : KeepsForm (execDiscoveryLinkFlit p peerPort x y z dims s) := by
  unfold execDiscoveryLinkFlit
  apply State.run_keepsForm
  grind [Module.setReg_memForm, Module.drawn_memForm, Module.raise_memForm, Module.setCoord_memForm,
    Module.setPort_memForm, Module.setFlag_memForm]

@[simp] theorem execSyncMessageReceive_keepsForm {s : State} {p : Fin 6} {laneA laneB : BitVec 256}
    (h : s.mod.MemForm) : KeepsForm (execSyncMessageReceive p laneA laneB s) := by
  unfold execSyncMessageReceive
  apply State.run_keepsForm
  grind [Module.takeSync_memForm, Module.probe_memForm, Module.send_memForm, Module.raise_memForm]

/-! ### TileSync.lean -/

@[simp] theorem Module.arriveAt_memForm {cx : Ctx} {i : ℕ} {b : Barrier} (h : m.MemForm) :
    (m.arriveAt cx i b).MemForm := by
  unfold Module.arriveAt
  grind [memForm_foldl, Module.setRoute_memForm, Module.noteTile_memForm, Module.mapSpan_memForm]

@[simp] theorem execBar_keepsForm {s : State} {t : TileId} {w : Fields} (h : s.mod.MemForm) :
    KeepsForm (execBar t w s) := by
  unfold execBar
  refine State.tileOp_keepsForm h fun cx m hm => ?_
  grind [exceptForm_ok, exceptForm_error, Module.haltTile_memForm, Module.retire_memForm, Module.arriveAt_memForm,
    Module.waitOn_memForm]

@[simp] theorem Module.resumeBarrier_memForm {n i phase : ℕ} (h : m.MemForm) :
    (m.resumeBarrier n i phase).MemForm := by
  unfold Module.resumeBarrier
  grind [memForm_foldl, Module.retire_memForm]

@[simp] theorem Module.phaseHook_memForm {n i : ℕ} {step : Word64} (h : m.MemForm) :
    (m.phaseHook n i step).MemForm := by
  unfold Module.phaseHook
  simp [h]

@[simp] theorem Module.completePhase_memForm {n i : ℕ} (h : m.MemForm) : (m.completePhase n i).MemForm := by
  unfold Module.completePhase
  grind [Module.setRoute_memForm, Module.phaseHook_memForm, Module.resumeBarrier_memForm]

@[simp] theorem execBarrierPhaseComplete_keepsForm {s : State} {route : Fin 256} {barrier : BitVec 12}
    (h : s.mod.MemForm) : KeepsForm (execBarrierPhaseComplete route barrier s) := by
  unfold execBarrierPhaseComplete
  apply State.run_keepsForm
  grind [Module.completePhase_memForm, Module.startBarrierGroup_memForm]

@[simp] theorem execFlagw_keepsForm {s : State} {t : TileId} {w : Fields} (h : s.mod.MemForm) :
    KeepsForm (execFlagw t w s) := by
  unfold execFlagw
  refine State.tileOp_keepsForm h fun cx m hm => ?_
  simp only
  split <;> simp [hm]

@[simp] theorem Module.cmtStep_memForm {cx : Ctx} {w : Fields} (h : m.MemForm) : (m.cmtStep cx w).MemForm := by
  unfold Module.cmtStep
  simp [h]

@[simp] theorem execCmt_keepsForm {s : State} {t : TileId} {w : Fields} (h : s.mod.MemForm) :
    KeepsForm (execCmt t w s) := by
  unfold execCmt
  refine State.tileOp_keepsForm h fun cx m hm => ?_
  grind [exceptForm_ok, exceptForm_error, Module.cmtStep_memForm, Module.waitOn_memForm, Module.retire_memForm,
    Module.mapSpan_memForm, Module.publishAll_memForm, Module.failRoute_memForm]

@[simp] theorem execCmtStep_keepsForm {s : State} {t : TileId} {w : Fields} (h : s.mod.MemForm) :
    KeepsForm (execCmtStep t w s) := by
  unfold execCmtStep
  refine State.tileOp_keepsForm h fun cx m hm => ?_
  grind [exceptForm_ok, exceptForm_error, Module.cmtStep_memForm]

/-! ### Collectives.lean -/

@[simp] theorem Module.rangeOk_memForm {ten : ℕ} {hold : Bool} {a n : ℕ} {write : Bool} (h : m.MemForm) :
    (m.rangeOk ten hold a n write).2.MemForm := by
  unfold Module.rangeOk
  grind [Module.holdRefuse_memForm, Module.mapped_memForm]

/-- The size table that ALLTOALLV reads (R324). -/
theorem colSizes_memForm {c : Cmd} {x : ColSpec} {t n : ℕ} (h : m.MemForm) :
    (if x.op != 4 then ((none : Option Fail), ([] : List Byte), m)
      else
        match m.readVA .col t (bitsAt (c.field 48 8) 0 48) (16 * n) with
        | (.ok b, m) => (none, b, m)
        | (.error e, m) => (some e, [], m)).2.2.MemForm := by
  split
  · exact h
  · split <;> next e => exact (Module.readVA_memForm h).of_eq e

@[simp] theorem Module.colCheck_memForm {c : Cmd} {bind : Bool} (h : m.MemForm) : (m.colCheck c bind).2.MemForm := by
  unfold Module.colCheck
  extract_lets x t n sizes x' m1
  have h1 : m1.MemForm := colSizes_memForm h
  clear_value sizes x' m1
  refine memForm_ite_snd h (memForm_ite_snd h1 (memForm_ite_snd h1 ?_))
  dsimp only
  have hc := fun l => memForm_foldl_snd (l := l) (p := ((none : Option Fail), m1))
    (f := fun (a : Option Fail × Module) (k : Bool × Nat × Nat × Bool) =>
        match a.1 with
        | some _ => a
        | none =>
          match a.2.rangeOk t k.1 k.2.1 k.2.2.1 k.2.2.2 with
          | (.ok _, m) => (none, m)
          | (.error e, m) => (some e, m)) (fun p k hp => by
      split
      · exact hp
      · split <;> next e => exact (Module.rangeOk_memForm hp).of_eq e) h1
  split <;> exact hc _

@[simp] theorem Module.endInst_memForm {x : Inst} {e : Fail} (h : m.MemForm) : (m.endInst x e).MemForm := by
  unfold Module.endInst
  grind [Module.dropInst_memForm, Module.when_memForm, Module.raise_memForm, Module.finishFail_memForm,
    Module.checkUnbind_memForm, Module.failRoute_memForm]

@[simp] theorem Module.abortInst_memForm {x : Inst} (h : m.MemForm) : (m.abortInst x).MemForm := by
  unfold Module.abortInst
  simp [h]

@[simp] theorem Module.startInst_memForm {x : Inst} (h : m.MemForm) : (m.startInst x).MemForm := by
  unfold Module.startInst
  grind [Module.endInst_memForm, Module.runInst_memForm]

@[simp] theorem execCollectiveOnce_keepsForm {s : State} {id : ℕ} (h : s.mod.MemForm) :
    KeepsForm (execCollectiveOnce id s) := by
  unfold execCollectiveOnce
  refine State.run_keepsForm (Module.withCmd_memForm (fun c m hm => ?_) h)
  simp only
  refine memForm_ite (Module.setCmd_memForm hm) (memForm_ite (Module.finish_memForm hm) ?_)
  split
  · next e => exact Module.finishFail_memForm ((Module.colCheck_memForm hm).of_eq e)
  · next e =>
    have hc := (Module.colCheck_memForm hm).of_eq e
    refine memForm_ite (Module.finish_memForm hc) ?_
    split
    · exact Module.finish_memForm hc
    · next ha =>
      have hf := Module.allocFrames_memForm hc ha
      exact memForm_ite (Module.startInst_memForm (Module.mirrorCol_memForm (Module.putInst_memForm hf)))
        (Module.startGroup_memForm (Module.mirrorCol_memForm (Module.putInst_memForm hf)))

@[simp] theorem execCollectiveBind_keepsForm {s : State} {id : ℕ} (h : s.mod.MemForm) :
    KeepsForm (execCollectiveBind id s) := by
  unfold execCollectiveBind
  refine State.run_keepsForm (Module.withCmd_memForm (fun c m hm => ?_) h)
  simp only
  refine memForm_ite (Module.setCmd_memForm hm) ?_
  split
  · next e => exact Module.finishFail_memForm ((Module.colCheck_memForm hm).of_eq e)
  · next e =>
    have hc := (Module.colCheck_memForm hm).of_eq e
    refine memForm_ite (Module.finish_memForm hc) ?_
    split
    · exact Module.finish_memForm hc
    · next ha =>
      have hf := Module.commitCmd_memForm (id := id) (Module.allocFrames_memForm hc ha)
      exact memForm_ite (Module.finish_memForm (Module.mirrorCol_memForm (Module.putSlot_memForm hf)))
        (Module.startGroup_memForm (Module.mirrorCol_memForm (Module.putSlot_memForm hf)))

@[simp] theorem execCollectiveUnbind_keepsForm {s : State} {id : ℕ} (h : s.mod.MemForm) :
    KeepsForm (execCollectiveUnbind id s) := by
  unfold execCollectiveUnbind
  apply State.run_keepsForm
  grind [Module.withCmd_memForm, Module.setCmd_memForm, Module.finish_memForm, Module.checkUnbind_memForm,
    Module.putSlot_memForm, Module.commitCmd_memForm]

@[simp] theorem execBoundInstanceStart_keepsForm {s : State} {ten : Ten} {slot : BitVec 8} {step : Word64}
    (h : s.mod.MemForm) : KeepsForm (execBoundInstanceStart ten slot step s) := by
  unfold execBoundInstanceStart
  apply State.run_keepsForm
  grind [memForm_foldl, Module.putSlot_memForm, Module.startInst_memForm, Module.sendAsk_memForm]

@[simp] theorem execChunkReceive_keepsForm {s : State} {pkt : Packet} (h : s.mod.MemForm) :
    KeepsForm (execChunkReceive pkt s) := by
  unfold execChunkReceive
  apply State.run_keepsForm
  grind [Module.takeIn_memForm, Module.raise_memForm, Module.endInst_memForm, Module.probe_memForm,
    Module.addFld_memForm, Module.sendAsk_memForm, Module.putInst_memForm, Module.abortInst_memForm]

@[simp] theorem Module.serveImage_memForm {t : Ten} {i : Inst} (h : m.MemForm) : (m.serveImage t i).2.MemForm := by
  unfold Module.serveImage
  grind [Module.readSrc_memForm]

@[simp] theorem execResendRequest_keepsForm {s : State} {pkt : Packet} (h : s.mod.MemForm) :
    KeepsForm (execResendRequest pkt s) := by
  unfold execResendRequest
  apply State.run_keepsForm
  grind [memForm_foldl, Module.takeIn_memForm, Module.raise_memForm, Module.serveImage_memForm,
    Module.sendChunk_memForm, Module.sendAsk_memForm]

@[simp] theorem Module.notifyStage_memForm {n stage flag : ℕ} (h : m.MemForm) :
    (m.notifyStage n stage flag).MemForm := by
  unfold Module.notifyStage
  grind [memForm_foldl, Module.setTile_memForm]

@[simp] theorem execInstanceComplete_keepsForm {s : State} {n : ℕ} (h : s.mod.MemForm) :
    KeepsForm (execInstanceComplete n s) := by
  unfold execInstanceComplete
  apply State.run_keepsForm
  split
  · exact h
  · split
    · exact h
    · split
      · exact h
      · next i _ _ _ _ _ =>
        have hd : ∀ b, (if b = true then s.mod.drawn else s.mod).MemForm := fun b => memForm_ite
          (Module.drawn_memForm h) h
        have hi : ∀ m' : Module, m'.MemForm → ((((m'.recordSlowest i).2.addFld Fld.COL_INSTANCES_COUNT 0 0).addFld
            Fld.COL_TEN_INSTANCES_COUNT i.ten.val 0).dropInst i).MemForm := fun m' hm =>
          Module.dropInst_memForm (Module.addFld_memForm (Module.addFld_memForm (Module.recordSlowest_memForm hm)))
        dsimp only
        split
        · next e => exact Module.endInst_memForm ((Module.writeRuns_memForm (hd _)).of_eq e)
        · next e =>
          have hw := hi _ ((Module.writeRuns_memForm (hd _)).of_eq e)
          split
          · exact Module.finish_memForm hw
          · split
            · exact Module.checkUnbind_memForm (Module.notifyStage_memForm hw)
            · exact hw
          · exact hw

@[simp] theorem execColTimeoutExpire_keepsForm {s : State} {n : ℕ} (h : s.mod.MemForm) :
    KeepsForm (execColTimeoutExpire n s) := by
  unfold execColTimeoutExpire
  apply State.run_keepsForm
  grind [Module.raise_memForm]

@[simp] theorem Module.arriveDone_memForm {o : GroupOp} (h : m.MemForm) : (m.arriveDone o).MemForm := by
  unfold Module.arriveDone
  grind [Module.completePhase_memForm, Module.startInst_memForm, Module.finish_memForm]

@[simp] theorem Module.orDone_memForm {o : GroupOp} (h : m.MemForm) : (m.orDone o).MemForm := by
  unfold Module.orDone
  grind [memForm_foldl, Module.endInst_memForm, Module.failRoute_memForm, Module.setRoute_memForm]

@[simp] theorem Module.maxDone_memForm {o : GroupOp} (h : m.MemForm) : (m.maxDone o).MemForm := by
  unfold Module.maxDone
  split <;> simp [h]

@[simp] theorem execGroupOpComplete_keepsForm {s : State} {n : ℕ} (h : s.mod.MemForm) :
    KeepsForm (execGroupOpComplete n s) := by
  unfold execGroupOpComplete
  apply State.run_keepsForm
  grind [Module.advanceOp_memForm, Module.putOp_memForm, Module.countOps_memForm, Module.addFld_memForm,
    Module.arriveDone_memForm, Module.maxDone_memForm, Module.orDone_memForm]

end Sys2Proof.Machine
end

