-- ==== Sys2Proof/Proofs/FormCommands.lean ====
section
/-! The canonical form of DRAM and Hold is kept by the host commands, the resets, the power states, generation, experience and the ferries. -/

namespace Sys2Proof.Machine

variable {m : Module}

/-! ### Commands.lean -/

@[simp] theorem Module.takeNew_memForm {t : Ten} {g : ℕ} (h : m.MemForm) : (m.takeNew t g).MemForm := by
  unfold Module.takeNew
  grind [Module.takeEntry_memForm, Module.setRing_memForm, Module.reserve_memForm, Module.countInflight_memForm,
    Module.setCmd_memForm]

@[simp] theorem execCommandTake_keepsForm {s : State} {ring : BitVec 15} (h : s.mod.MemForm) :
    KeepsForm (execCommandTake ring s) := by
  unfold execCommandTake
  apply State.run_keepsForm
  grind [Module.countInflight_memForm, Module.setCmd_memForm, Module.useEntry_memForm, Module.takeNew_memForm]

@[simp] theorem Module.postDone_memForm {id : ℕ} {c : Cmd} {status detail : ℕ} (h : m.MemForm) :
    (m.postDone id c status detail).MemForm := by
  unfold Module.postDone
  grind [Module.checkSuspended_memForm, Module.dropCmd_memForm, Module.setRing_memForm, Module.postEntry_memForm,
    Module.count_memForm]

@[simp] theorem Module.checkHeader_memForm {id : ℕ} (h : m.MemForm) : (m.checkHeader id).MemForm := by
  unfold Module.checkHeader
  grind [Module.refuseHeader_memForm]

@[simp] theorem execCommandComplete_keepsForm {s : State} {id : ℕ} (h : s.mod.MemForm) :
    KeepsForm (execCommandComplete id s) := by
  unfold execCommandComplete
  apply State.run_keepsForm
  grind [Module.checkHeader_memForm, Module.postDone_memForm]

@[simp] theorem Module.undoCmd_memForm {id : ℕ} {c : Cmd} (h : m.MemForm) : (m.undoCmd id c).MemForm := by
  unfold Module.undoCmd
  split <;> simp [h]

@[simp] theorem execCommandKill_keepsForm {s : State} {id : ℕ} (h : s.mod.MemForm) :
    KeepsForm (execCommandKill id s) := by
  unfold execCommandKill
  apply State.run_keepsForm
  grind [Module.killCmd_memForm, Module.undoCmd_memForm]

@[simp] theorem Module.findEntry_memForm {g tag stop x x1 : ℕ} (h : m.MemForm) :
    (m.findEntry g tag stop x x1).2.MemForm := by
  induction x generalizing m g tag stop x1 with
  | zero => exact h
  | succ n ih =>
    unfold Module.findEntry
    grind [Module.readVA_memForm, Module.ringFail_memForm]

@[simp] theorem Module.abortTag_memForm {g tag : ℕ} (h : m.MemForm) : (m.abortTag g tag).MemForm := by
  unfold Module.abortTag
  split
  · exact memForm_ite (Module.countInflight_memForm (Module.setCmd_memForm h))
      (memForm_ite (Module.finish_memForm (Module.undoCmd_memForm h)) h)
  · split
    · exact h
    · split <;> next e =>
        have hf := (Module.findEntry_memForm h).of_eq e
        simp [hf]

@[simp] theorem Module.abortWrite_memForm {f : Func} {ten : Ten} {value : Word64} (h : m.MemForm) :
    (m.abortWrite f ten value).MemForm := by
  unfold Module.abortWrite
  grind [Module.guardTen_memForm, Module.abortTag_memForm]

@[simp] theorem execQueTenCmdAbort_keepsForm {s : State} {f : Func} {ten : Ten} {value : Word64} (h : s.mod.MemForm) :
    KeepsForm (execQueTenCmdAbort f ten value s) := by
  unfold execQueTenCmdAbort
  apply State.run_keepsForm
  grind [Module.abortWrite_memForm]

@[simp] theorem execFence_keepsForm {s : State} {id : ℕ} (h : s.mod.MemForm) : KeepsForm (execFence id s) := by
  unfold execFence
  apply State.run_keepsForm
  grind [Module.withCmd_memForm, Module.finish_memForm, Module.commitCmd_memForm]

@[simp] theorem execTimestamp_keepsForm {s : State} {id : ℕ} (h : s.mod.MemForm) :
    KeepsForm (execTimestamp id s) := by
  unfold execTimestamp
  apply State.run_keepsForm
  grind [Module.withCmd_memForm, Module.finish_memForm]

@[simp] theorem Module.suspendTen_memForm {ten : Ten} {drain : Bool} (h : m.MemForm) :
    (m.suspendTen ten drain).MemForm := by
  unfold Module.suspendTen
  grind [memForm_foldl, Module.setFld_memForm, Module.checkStopped_memForm, Module.killRoute_memForm,
    Module.killCmd_memForm, Module.undoCmd_memForm, Module.checkSuspended_memForm, Module.pauseFerry_memForm]

@[simp] theorem Module.askResume_memForm {ten : Ten} (h : m.MemForm) : (m.askResume ten).MemForm := by
  unfold Module.askResume
  split <;> simp [h]

@[simp] theorem execSuspend_keepsForm {s : State} {ten : Ten} {drain : Bool} (h : s.mod.MemForm) :
    KeepsForm (execSuspend ten drain s) := by
  unfold execSuspend
  apply State.run_keepsForm
  grind [Module.suspendTen_memForm]

@[simp] theorem execResume_keepsForm {s : State} {ten : Ten} (h : s.mod.MemForm) : KeepsForm (execResume ten s) := by
  unfold execResume
  apply State.run_keepsForm
  grind [Module.askResume_memForm]

@[simp] theorem Module.busFail_memForm {id : ℕ} {c : Cmd} (h : m.MemForm) : (m.busFail id c).MemForm := by
  unfold Module.busFail
  grind [Module.drawn_memForm, Module.failRoute_memForm, Module.endInst_memForm, Module.captureFail_memForm,
    Module.restoreFail_memForm, Module.finishFail_memForm]

@[simp] theorem execCplTimeout_keepsForm {s : State} {id : ℕ} (h : s.mod.MemForm) :
    KeepsForm (execCplTimeout id s) := by
  unfold execCplTimeout
  apply State.run_keepsForm
  grind [Module.raise_memForm, Module.setCmd_memForm, Module.busFail_memForm]

/-! ### ResetOps.lean -/

@[simp] theorem Module.resetTenRegs_memForm {t : Ten} {k : ResetKind} (h : m.MemForm) :
    (m.resetTenRegs t k).MemForm := h

@[simp] theorem Module.resetRoute_memForm {unload : Bool} {n : ℕ} (h : m.MemForm) :
    (m.resetRoute unload n).MemForm := by
  unfold Module.resetRoute
  grind [Module.setRoute_memForm, Module.stopKill_memForm, Module.unloadRoute_memForm]

@[simp] theorem Module.dropBatches_memForm {n : ℕ} (h : m.MemForm) : (m.dropBatches n).MemForm := by
  unfold Module.dropBatches
  simp [h]

@[simp] theorem Module.dropWaybills_memForm {t : Ten} (h : m.MemForm) : (m.dropWaybills t).MemForm := by
  unfold Module.dropWaybills
  grind [memForm_foldl, Module.freeWaybill_memForm]

@[simp] theorem Module.tenReset_memForm {t : Ten} {unload : Bool} (h : m.MemForm) :
    (m.tenReset t unload).MemForm := by
  unfold Module.tenReset
  grind [memForm_foldl, Module.dropCmd_memForm, Module.dropCapture_memForm, Module.dropRestore_memForm,
    Module.cancelCols_memForm, Module.unbindSlots_memForm, Module.dropWaybills_memForm, Module.resetRoute_memForm,
      Module.dropBatches_memForm, Module.abandonAll_memForm, Module.disableRing_memForm, Module.countOps_memForm,
        Module.setPort_memForm, Module.dropWrec_memForm, Module.resetTenRegs_memForm, Module.checkSuspended_memForm,
          Module.mirrorWaybills_memForm, Module.mirrorFill_memForm, Module.mirrorTen_memForm]

@[simp] theorem Module.blank_memForm : m.blank.MemForm := ⟨rfl, rfl⟩

@[simp] theorem Module.setPhase_memForm {v : ℕ} (h : m.MemForm) : (m.setPhase v).MemForm := h

@[simp] theorem Module.mReset_memForm {cause : Field} : (m.mReset cause).MemForm := by
  unfold Module.mReset
  grind [Module.blank_memForm, Module.resetRegs_memForm, Module.setPhase_memForm, Module.setFld_memForm,
    Module.setFlag_memForm, Module.setReg_memForm, Module.raise_memForm]

/-! ### PowerOps.lean -/

@[simp] theorem Module.checkTols_memForm (h : m.MemForm) : m.checkTols.MemForm := by
  unfold Module.checkTols
  simp +contextual [h]

@[simp] theorem Module.startExit_memForm (h : m.MemForm) : m.startExit.MemForm := h

@[simp] theorem Module.startEntry_memForm {k : ℕ} (h : m.MemForm) : (m.startEntry k).MemForm := h

@[simp] theorem Module.reverseEntry_memForm (h : m.MemForm) : m.reverseEntry.MemForm := h

@[simp] theorem Module.towards_memForm {k : ℕ} (h : m.MemForm) : (m.towards k).MemForm := by
  unfold Module.towards
  grind [Module.startEntry_memForm, Module.reverseEntry_memForm, Module.startExit_memForm]

@[simp] theorem Module.latChanged_memForm (h : m.MemForm) : m.latChanged.MemForm := by
  unfold Module.latChanged
  split <;> simp [h]

@[simp] theorem Module.saveOne_memForm (h : m.MemForm) : m.saveOne.MemForm := by
  unfold Module.saveOne
  split <;> simp [h]

@[simp] theorem Module.saveMany_memForm {x : ℕ} (h : m.MemForm) : (m.saveMany x).MemForm := by
  induction x generalizing m with
  | zero => exact h
  | succ n ih =>
    unfold Module.saveMany
    grind [Module.saveOne_memForm]

@[simp] theorem Module.freeSaved_memForm (h : m.MemForm) : m.freeSaved.MemForm := by
  unfold Module.freeSaved
  simp +contextual [h]

@[simp] theorem Module.holdToDram_memForm (h : m.MemForm) : m.holdToDram.MemForm :=
  ⟨Mem.wf_foldl (fun _ _ hd => Mem.wf_setByte hd _ _) (Mem.wf_zero h.dram _ _), h.hold⟩

@[simp] theorem Module.dramToHold_memForm (h : m.MemForm) : m.dramToHold.MemForm :=
  ⟨h.dram, Mem.wf_foldl (fun _ _ hd => Mem.wf_setByte hd _ _) h.hold⟩

@[simp] theorem Module.stateChanged_memForm {k : ℕ} (h : m.MemForm) : (m.stateChanged k).MemForm := h

@[simp] theorem Module.enterState_memForm {k : ℕ} (h : m.MemForm) : (m.enterState k).MemForm := by
  unfold Module.enterState
  grind [Module.setFlag_memForm, Module.saveMany_memForm, Module.holdToDram_memForm, Module.stateChanged_memForm]

@[simp] theorem Module.restoreTiles_memForm (h : m.MemForm) : m.restoreTiles.MemForm := by
  unfold Module.restoreTiles
  grind [memForm_foldl, Module.setCl_memForm, Module.freeSaved_memForm]

@[simp] theorem Module.stepSlower_memForm {power hot : Bool} (h : m.MemForm) : (m.stepSlower power hot).MemForm := by
  unfold Module.stepSlower
  grind [Module.setFld_memForm, Module.when_memForm, Module.raise_memForm]

@[simp] theorem Module.pendingStep_memForm (h : m.MemForm) : m.pendingStep.MemForm := by
  unfold Module.pendingStep
  split <;> simp [h]

@[simp] theorem Module.exitState_memForm (h : m.MemForm) : m.exitState.MemForm := by
  unfold Module.exitState
  grind [Module.setFlag_memForm, Module.dramToHold_memForm, Module.pendingStep_memForm, Module.stateChanged_memForm,
    Module.restoreTiles_memForm]

@[simp] theorem Module.wake_memForm (h : m.MemForm) : m.wake.MemForm := by
  unfold Module.wake
  grind [Module.reverseEntry_memForm, Module.startExit_memForm]

@[simp] theorem Module.selectRef_memForm {internal : Bool} (h : m.MemForm) : (m.selectRef internal).MemForm := h

@[simp] theorem Module.holdPorts_memForm (h : m.MemForm) : m.holdPorts.MemForm := by
  unfold Module.holdPorts
  grind [memForm_foldl, Module.setPortState_memForm, Module.closePort_memForm, Module.setFld_memForm,
    Module.lostBuddies_memForm, Module.cutOps_memForm]

@[simp] theorem Module.enterHold_memForm (h : m.MemForm) : m.enterHold.MemForm := by
  unfold Module.enterHold
  grind [Module.holdPorts_memForm, Module.setFlag_memForm, Module.selectRef_memForm, Module.exitState_memForm]

@[simp] theorem Module.clockEvent_memForm (h : m.MemForm) : m.clockEvent.MemForm := by
  unfold Module.clockEvent
  grind [Module.send_memForm, Module.setFlag_memForm, Module.enterHold_memForm, Module.selectRef_memForm]

@[simp] theorem Module.unholdPort_memForm {p : ℕ} (h : m.MemForm) : (m.unholdPort p).MemForm := by
  unfold Module.unholdPort
  grind [Module.setPortState_memForm, Module.startRetrain_memForm]

@[simp] theorem Module.leaveHold_memForm (h : m.MemForm) : m.leaveHold.MemForm := by
  unfold Module.leaveHold
  grind [memForm_foldl, Module.selectRef_memForm, Module.setFlag_memForm, Module.askResume_memForm,
    Module.suspendTen_memForm, Module.unholdPort_memForm]

/-! ### Clock.lean -/

@[simp] theorem Module.startTraining_memForm {internal : Bool} (h : m.MemForm) :
    (m.startTraining internal).MemForm := by
  unfold Module.startTraining
  grind [Module.setFlag_memForm, Module.selectRef_memForm, Module.trainLink_memForm, Module.setPhase_memForm]

@[simp] theorem Module.reportClock_memForm (h : m.MemForm) : m.reportClock.MemForm := by
  unfold Module.reportClock
  grind [Module.when_memForm, Module.setFlag_memForm]

@[simp] theorem Module.goodWindow_memForm (h : m.MemForm) : m.goodWindow.MemForm := by
  unfold Module.goodWindow
  grind [Module.addFld_memForm, Module.setFlag_memForm]

@[simp] theorem Module.badWindow_memForm (h : m.MemForm) : m.badWindow.MemForm := by
  unfold Module.badWindow
  grind [Module.raise_memForm, Module.setFlag_memForm, Module.clockEvent_memForm]

@[simp] theorem execClockMonitorWindow_keepsForm {s : State} {count : BitVec 16} (h : s.mod.MemForm) :
    KeepsForm (execClockMonitorWindow count s) := by
  unfold execClockMonitorWindow
  apply State.run_keepsForm
  grind [Module.setFld_memForm, Module.reportClock_memForm, Module.goodWindow_memForm, Module.badWindow_memForm,
    Module.startTraining_memForm]

@[simp] theorem execCrystalQualifyTimeout_keepsForm {s : State} (h : s.mod.MemForm) :
    KeepsForm (execCrystalQualifyTimeout s) := by
  unfold execCrystalQualifyTimeout
  apply State.run_keepsForm
  grind [Module.startTraining_memForm, Module.raise_memForm, Module.setFlag_memForm]

@[simp] theorem execPllUnlock_keepsForm {s : State} (h : s.mod.MemForm) : KeepsForm (execPllUnlock s) := by
  unfold execPllUnlock
  apply State.run_keepsForm
  grind [Module.clockEvent_memForm, Module.raise_memForm]

@[simp] theorem execHoldExit_keepsForm {s : State} (h : s.mod.MemForm) : KeepsForm (execHoldExit s) := by
  unfold execHoldExit
  apply State.run_keepsForm
  grind [Module.leaveHold_memForm]

@[simp] theorem Module.reselect_memForm (h : m.MemForm) : m.reselect.MemForm := by
  unfold Module.reselect
  split <;> simp [h]

@[simp] theorem execReselect_keepsForm {s : State} (h : s.mod.MemForm) : KeepsForm (execReselect s) := by
  unfold execReselect
  apply State.run_keepsForm
  grind [Module.reselect_memForm]

@[simp] theorem Module.stepFaster_memForm (h : m.MemForm) : m.stepFaster.MemForm := by
  unfold Module.stepFaster
  grind [Module.setFld_memForm]

@[simp] theorem execTileStepEval_keepsForm {s : State} {watts : BitVec 16} {hottest : BitVec 8} (h : s.mod.MemForm) :
    KeepsForm (execTileStepEval watts hottest s) := by
  unfold execTileStepEval
  apply State.run_keepsForm
  grind [Module.setFld_memForm, Module.stepSlower_memForm, Module.stepFaster_memForm]

@[simp] theorem execThermalTrip_keepsForm {s : State} (h : s.mod.MemForm) : KeepsForm (execThermalTrip s) := by
  unfold execThermalTrip
  apply State.run_keepsForm
  grind [Module.raise_memForm]

/-! ### Generation.lean -/

@[simp] theorem Module.submitFault_memForm {t : Ten} {w : Waybill} (h : m.MemForm) :
    (m.submitFault t w).2.MemForm := by
  unfold Module.submitFault
  grind [Module.probe_memForm, Module.raise_memForm, Module.violation_memForm]

@[simp] theorem Module.acceptWaybill_memForm {w : Waybill} (h : m.MemForm) : (m.acceptWaybill w).MemForm := by
  unfold Module.acceptWaybill
  grind [Module.takeKept_memForm, Module.setWaybill_memForm, Module.subFld_memForm, Module.postWaybill_memForm]

@[simp] theorem execWaybillSubmit_keepsForm {s : State} {ring : BitVec 15} (h : s.mod.MemForm) :
    KeepsForm (execWaybillSubmit ring s) := by
  unfold execWaybillSubmit
  apply State.run_keepsForm
  grind [Module.takeEntry_memForm, Module.reserve_memForm, Module.submitFault_memForm, Module.acceptWaybill_memForm,
    Module.postWaybill_memForm, Module.raise_memForm, Module.unreserve_memForm]

@[simp] theorem Module.actOn_memForm {t : Ten} {id a : ℕ} (h : m.MemForm) : (m.actOn t id a).MemForm := by
  unfold Module.actOn
  grind [Module.raise_memForm, Module.violation_memForm, Module.setWaybill_memForm, Module.checkPairs_memForm,
    Module.applyAction_memForm]

@[simp] theorem execPauseKeep_keepsForm {s : State} {f : Func} {ten : Ten} {waybill : BitVec 14} (h : s.mod.MemForm) :
    KeepsForm (execPauseKeep f ten waybill s) := by
  unfold execPauseKeep
  apply State.run_keepsForm
  grind [Module.guardTen_memForm, Module.actOn_memForm]

@[simp] theorem execPauseDrop_keepsForm {s : State} {f : Func} {ten : Ten} {waybill : BitVec 14} (h : s.mod.MemForm) :
    KeepsForm (execPauseDrop f ten waybill s) := by
  unfold execPauseDrop
  apply State.run_keepsForm
  grind [Module.guardTen_memForm, Module.actOn_memForm]

@[simp] theorem execAbort_keepsForm {s : State} {f : Func} {ten : Ten} {waybill : BitVec 14} (h : s.mod.MemForm) :
    KeepsForm (execAbort f ten waybill s) := by
  unfold execAbort
  apply State.run_keepsForm
  grind [Module.guardTen_memForm, Module.actOn_memForm]

@[simp] theorem execSeqendDeferredWrite_keepsForm {s : State} {waybill : BitVec 14} (h : s.mod.MemForm) :
    KeepsForm (execSeqendDeferredWrite waybill s) := by
  unfold execSeqendDeferredWrite
  apply State.run_keepsForm
  grind [Module.settleEnding_memForm]

@[simp] theorem Module.peekWaybill_memForm {id : ℕ} (h : m.MemForm) : (m.peekWaybill id).MemForm := h

@[simp] theorem execWblPeekSel_keepsForm {s : State} {value : Word} (h : s.mod.MemForm) :
    KeepsForm (execWblPeekSel value s) := by
  unfold execWblPeekSel
  apply State.run_keepsForm
  grind [Module.peekWaybill_memForm]

@[simp] theorem Module.recompute_memForm {id : ℕ} (h : m.MemForm) : (m.recompute id).MemForm := by
  unfold Module.recompute
  grind [Module.raise_memForm, Module.addFld_memForm, Module.endOutside_memForm, Module.setWaybill_memForm]

@[simp] theorem Module.recomputeAll_memForm {t : Ten} (h : m.MemForm) : (m.recomputeAll t).MemForm := by
  unfold Module.recomputeAll
  grind [memForm_foldl, Module.recompute_memForm, Module.setWaybill_memForm]

@[simp] theorem Module.evict_memForm {t : Ten} {id : ℕ} (h : m.MemForm) : (m.evict t id).MemForm := by
  unfold Module.evict
  grind [Module.pauseWaybill_memForm, Module.raise_memForm, Module.addFld_memForm]

@[simp] theorem Module.mapWindow_memForm {id q : ℕ} (h : m.MemForm) : (m.mapWindow id q).2.MemForm := by
  unfold Module.mapWindow
  split <;> simp [h]

@[simp] theorem Module.pagesReady_memForm {t : Ten} {id q : ℕ} (h : m.MemForm) : (m.pagesReady t id q).2.MemForm := by
  unfold Module.pagesReady
  grind [Module.mapWindow_memForm, Module.evict_memForm]

@[simp] theorem Module.passOver_memForm {t : Ten} {id : ℕ} {f : Field} {k : Kind} (h : m.MemForm) :
    (m.passOver t id f k).MemForm := by
  unfold Module.passOver
  grind [Module.count_memForm, Module.raise_memForm, Module.addFld_memForm]

@[simp] theorem Module.chooseOne_memForm {t : Ten} {n : Word64} {ch : Choice} {id : ℕ} (h : m.MemForm) :
    (m.chooseOne t n ch id).2.MemForm := by
  unfold Module.chooseOne
  split
  · exact h
  · simp only
    split
    · exact h
    · split
      · next e =>
        have hp := (Module.pagesReady_memForm h).of_eq e
        split
        · exact Module.endOutside_memForm hp
        · exact hp
      · next e => exact Module.passOver_memForm ((Module.pagesReady_memForm h).of_eq e)
      · next e =>
        have hp := (Module.pagesReady_memForm h).of_eq e
        split
        · exact hp
        · split
          · refine Module.passOver_memForm ?_
            split
            · exact Module.starve_memForm hp
            · exact hp
          · exact Module.setWaybill_memForm (Module.cvnReserve_memForm hp)

@[simp] theorem Module.choose_memForm {t : Ten} {n : Word64} (h : m.MemForm) : (m.choose t n).2.MemForm := by
  unfold Module.choose
  simp +contextual [h]

@[simp] theorem Module.unchoose_memForm {ids : List ℕ} (h : m.MemForm) : (m.unchoose ids).MemForm := by
  unfold Module.unchoose
  grind [memForm_foldl, Module.setWaybill_memForm, Module.returnRoom_memForm]

@[simp] theorem Module.writeSlot_memForm {ten : ℕ} {g : GenCfg} {step : Word64} {bs : List Byte} (h : m.MemForm) :
    (m.writeSlot ten g step bs).2.MemForm := by
  unfold Module.writeSlot
  simp [h]

@[simp] theorem Module.sendSlot_memForm {t : Ten} {g : GenCfg} {bs : List Byte} (h : m.MemForm) :
    (m.sendSlot t g bs).MemForm := by
  unfold Module.sendSlot
  grind [memForm_foldl, Module.sendLink_memForm]

@[simp] theorem Module.sweepWaybills_memForm {t : Ten} (h : m.MemForm) : (m.sweepWaybills t).MemForm := by
  unfold Module.sweepWaybills
  grind [memForm_foldl, Module.endSilent_memForm, Module.checkPairs_memForm]

@[simp] theorem Module.buildStep_memForm {t : Ten} {n : ℕ} {r : Route} (h : m.MemForm) :
    (m.buildStep t n r).MemForm := by
  unfold Module.buildStep
  grind [Module.recomputeAll_memForm, Module.sweepWaybills_memForm, Module.choose_memForm, Module.writeSlot_memForm,
    Module.failRoute_memForm, Module.unchoose_memForm, Module.sendSlot_memForm, Module.setRoute_memForm,
      Module.setReg_memForm]

@[simp] theorem Module.followEntry_memForm {t : Ten} {e : RagEntry} (h : m.MemForm) :
    (m.followEntry t e).2.MemForm := by
  unfold Module.followEntry
  grind [Module.takeKept_memForm, Module.dropPages_memForm, Module.mapPages_memForm, Module.keepPages_memForm]

@[simp] theorem Module.followSlot_memForm {t : Ten} {n : ℕ} (h : m.MemForm) : (m.followSlot t n).MemForm := by
  unfold Module.followSlot
  split
  · exact h
  · next s _ =>
    have hf : (s.entries.foldl (fun (x : Bool × Module) e => if x.1 then x.2.followEntry t e else x) (true,
      m)).2.MemForm :=
      memForm_foldl_snd (fun _ _ hp => memForm_ite_snd (Module.followEntry_memForm hp) hp) h
    exact memForm_ite (Module.setRoute_memForm hf) (Module.raise_memForm hf)

@[simp] theorem execSlotReceive_keepsForm {s : State} {ten : Ten} {slot : List Byte} (h : s.mod.MemForm) :
    KeepsForm (execSlotReceive ten slot s) := by
  unfold execSlotReceive
  apply State.run_keepsForm
  grind [Module.writeSlot_memForm, Module.failRoute_memForm, Module.setRoute_memForm, Module.followSlot_memForm,
    Module.setReg_memForm]

@[simp] theorem execStepBuild_keepsForm {s : State} {ten : Ten} (h : s.mod.MemForm) :
    KeepsForm (execStepBuild ten s) := by
  unfold execStepBuild
  apply State.run_keepsForm
  grind [Module.followSlot_memForm, Module.mirrorFill_memForm, Module.buildStep_memForm]

@[simp] theorem Module.history_memForm {w : Waybill} {p : ℕ} (h : m.MemForm) : (m.history w p).2.MemForm := by
  unfold Module.history
  grind [Module.readVA_memForm]

@[simp] theorem Module.writeRecord_memForm {id : ℕ} {w : Waybill} {flags token : ℕ} {version : BitVec 16}
    {pos lp : ℕ} (h : m.MemForm) : (m.writeRecord id w flags token version pos lp).2.MemForm := by
  unfold Module.writeRecord
  grind [Module.cvnAppend_memForm, Module.cvnPin_memForm, Module.count_memForm, Module.addFld_memForm]

@[simp] theorem Module.forcedRecords_memForm {id : ℕ} {lean : Bool} {version : BitVec 16} {x : List ℕ} {x1 : Work}
    (h : m.MemForm) : (m.forcedRecords id lean version x x1).2.MemForm := by
  induction x generalizing m id lean version x1 with
  | nil => exact h
  | cons a l ih =>
    unfold Module.forcedRecords
    grind [Module.history_memForm, Module.writeRecord_memForm]

@[simp] theorem Module.sampledRecords_memForm {id : ℕ} {lean : Bool} {version : BitVec 16} {l a : ℕ} {x : List ℕ}
    {x1 : Work} (h : m.MemForm) : (m.sampledRecords id lean version l a x x1).2.MemForm := by
  induction x generalizing m id lean version l a x1 with
  | nil => exact h
  | cons a l ih =>
    unfold Module.sampledRecords
    grind [Module.history_memForm, Module.writeRecord_memForm]

@[simp] theorem Module.writeTokens_memForm {ten window p : ℕ} {toks : List ℕ} (h : m.MemForm) :
    (m.writeTokens ten window p toks).2.MemForm := by
  unfold Module.writeTokens
  simp [h]

@[simp] theorem Module.processSample_memForm {id : ℕ} {lean : Bool} {version : BitVec 16} {r : List Byte} {x : Work}
    (h : m.MemForm) : (m.processSample id lean version r x).2.MemForm := by
  unfold Module.processSample
  grind [Module.writeTokens_memForm, Module.sampledRecords_memForm]

@[simp] theorem Module.processEntry_memForm {id : ℕ} {lean : Bool} {version : BitVec 16} {e : RagEntry}
    {r : Except Fail (Option (List Byte))} {w : Waybill} (h : m.MemForm) : (m.processEntry id lean version e r
      w).2.MemForm := by
  unfold Module.processEntry
  grind [Module.raise_memForm, Module.forcedRecords_memForm, Module.processSample_memForm]

@[simp] theorem Module.readResult_memForm {ten : ℕ} {g : GenCfg} {step : Word64} {k : ℕ} {e : RagEntry}
    (h : m.MemForm) : (m.readResult ten g step k e).2.MemForm := by
  unfold Module.readResult
  grind [Module.readVA_memForm]

@[simp] theorem Module.concludeEntry_memForm {id : ℕ} {version : BitVec 16} {x : Work} (h : m.MemForm) :
    (m.concludeEntry id version x).MemForm := by
  unfold Module.concludeEntry
  grind [Module.endInStep_memForm, Module.cvnReturn_memForm, Module.returnRoom_memForm, Module.setWaybill_memForm,
    Module.applyAction_memForm]

@[simp] theorem Module.leadEntry_memForm {t : Ten} {g : GenCfg} {step : Word64} {lean bad : Bool}
    {version : BitVec 16} {k : ℕ} {e : RagEntry} (h : m.MemForm) : (m.leadEntry t g step lean bad version k
      e).MemForm := by
  unfold Module.leadEntry
  grind [Module.checkPairs_memForm, Module.concludeEntry_memForm, Module.readResult_memForm,
    Module.processEntry_memForm]

@[simp] theorem Module.goodLogprobs_memForm {ten window : ℕ} {x : List ℕ} (h : m.MemForm) :
    (m.goodLogprobs ten window x).2.MemForm := by
  induction x generalizing m ten window with
  | nil => exact h
  | cons a l ih =>
    unfold Module.goodLogprobs
    grind [Module.readVA_memForm]

@[simp] theorem Module.followResult_memForm {t : Ten} {g : GenCfg} {step : Word64} {k : ℕ} {e : RagEntry}
    (h : m.MemForm) :
    (m.followResult t g step k e).MemForm := by
  unfold Module.followResult
  split
  · exact h
  · split
    · next e => exact (Module.readResult_memForm h).of_eq e
    · next e => exact Module.raise_memForm ((Module.readResult_memForm h).of_eq e)
    · next e =>
      have hr := (Module.readResult_memForm h).of_eq e
      simp only
      split
      · next e => exact (Module.goodLogprobs_memForm hr).of_eq e
      · next e =>
        have hl := (Module.goodLogprobs_memForm hr).of_eq e
        split
        · next e => exact (Module.writeTokens_memForm hl).of_eq e
        · next e =>
          have hw := (Module.writeTokens_memForm hl).of_eq e
          split
          · next e => exact (Module.goodLogprobs_memForm hw).of_eq e
          · next e => exact Module.writeTokens_memForm (Module.drawn_memForm ((Module.goodLogprobs_memForm hw).of_eq
            e))

@[simp] theorem Module.pruneSteps_memForm {ten : ℕ} {next : Word64} (h : m.MemForm) :
    (m.pruneSteps ten next).MemForm := by
  unfold Module.pruneSteps
  split <;> simp [h]

@[simp] theorem Module.processStep_memForm {t : Ten} {n : ℕ} {r : Route} {s : GenSlot} (h : m.MemForm) :
    (m.processStep t n r s).MemForm := by
  unfold Module.processStep
  grind [memForm_foldl, Module.leadEntry_memForm, Module.followResult_memForm, Module.cvnPublish_memForm,
    Module.setRoute_memForm, Module.mirrorFill_memForm, Module.pruneSteps_memForm]

@[simp] theorem execStepProcess_keepsForm {s : State} {ten : Ten} (h : s.mod.MemForm) :
    KeepsForm (execStepProcess ten s) := by
  unfold execStepProcess
  apply State.run_keepsForm
  grind [Module.processStep_memForm, Module.startGroup_memForm, Module.setRoute_memForm]

/-! ### Experience.lean -/

@[simp] theorem Module.guardRing_memForm {f : Func} {k : ℕ} {act : Module → Module}
    (hact : ∀ m, m.MemForm → (act m).MemForm) (h : m.MemForm) : (m.guardRing f k act).MemForm := by
  unfold Module.guardRing
  grind [Module.guardTen_memForm]

@[simp] theorem Module.enableCaravan_memForm {k : ℕ} (h : m.MemForm) : (m.enableCaravan k).MemForm := by
  unfold Module.enableCaravan
  split <;> simp [h]

@[simp] theorem execCaravanRingEnable_keepsForm {s : State} {f : Func} {k : BitVec 10} (h : s.mod.MemForm) :
    KeepsForm (execCaravanRingEnable f k s) := by
  unfold execCaravanRingEnable
  apply State.run_keepsForm
  grind [Module.guardRing_memForm, Module.enableCaravan_memForm]

@[simp] theorem Module.consumeTo_memForm {k slot : ℕ} (h : m.MemForm) : (m.consumeTo k slot).MemForm := by
  unfold Module.consumeTo
  split <;> simp [h]

@[simp] theorem execCaravanRingConsume_keepsForm {s : State} {f : Func} {k : BitVec 10} {slot : Word}
    (h : s.mod.MemForm) : KeepsForm (execCaravanRingConsume f k slot s) := by
  unfold execCaravanRingConsume
  apply State.run_keepsForm
  grind [Module.guardRing_memForm, Module.consumeTo_memForm]

@[simp] theorem execCaravanStallExpire_keepsForm {s : State} {k : BitVec 10} (h : s.mod.MemForm) :
    KeepsForm (execCaravanStallExpire k s) := by
  unfold execCaravanStallExpire
  apply State.run_keepsForm
  grind [Module.raise_memForm]

@[simp] theorem Module.rejectReward_memForm {t : Ten} {loc : ℕ} (h : m.MemForm) : (m.rejectReward t loc).MemForm := by
  unfold Module.rejectReward
  simp [h]

@[simp] theorem Module.giveReward_memForm {t : Ten} {k : ℕ} {c : Caravan} {slot : ℕ} {reward : List Byte}
    (h : m.MemForm) : (m.giveReward t k c slot reward).MemForm := by
  unfold Module.giveReward
  grind [Module.writeVA_memForm, Module.cvnFault_memForm, Module.setSeq_memForm]

@[simp] theorem execRewardEntry_keepsForm {s : State} {ring : BitVec 15} (h : s.mod.MemForm) :
    KeepsForm (execRewardEntry ring s) := by
  unfold execRewardEntry
  apply State.run_keepsForm
  simp only
  split
  · next e => exact (Module.takeEntry_memForm h).of_eq e
  · next e =>
    have ht := (Module.takeEntry_memForm h).of_eq e
    split
    · exact Module.raise_memForm (Module.violation_memForm ht)
    · split
      · exact Module.rejectReward_memForm ht
      · split
        · exact Module.rejectReward_memForm ht
        · exact memForm_ite (Module.rejectReward_memForm ht) (Module.giveReward_memForm ht)

/-! ### Fabric.lean -/

@[simp] theorem Module.depotLine_memForm {c line ten : ℕ} (h : m.MemForm) : (m.depotLine c line ten).2.MemForm := by
  unfold Module.depotLine
  grind [Module.probe_memForm, Module.raise_memForm, Module.setCl_memForm]

@[simp] theorem execIcacheMissFill_keepsForm {s : State} {t : TileId} {line : BitVec 12} (h : s.mod.MemForm) :
    KeepsForm (execIcacheMissFill t line s) := by
  unfold execIcacheMissFill
  apply State.run_keepsForm
  grind [Module.when_memForm, Module.raise_memForm, Module.depotLine_memForm, Module.drawn_memForm,
    Module.mapSpan_memForm, Module.failRoute_memForm]

@[simp] theorem Module.noteSite_memForm {c : Cluster} {row off : ℕ} {kind : SiteFault} (h : m.MemForm) :
    (m.noteSite c row off kind).MemForm := h

@[simp] theorem Module.recordSite_memForm {c : Cluster} {row off : ℕ} {kind : SiteFault} (h : m.MemForm) :
    (m.recordSite c row off kind).MemForm := by
  unfold Module.recordSite
  split <;> simp [h]

@[simp] theorem execTileFault_keepsForm {s : State} {c : Cluster} {row : Fin 16} {offset : Fin 17}
    {kind : SiteFault} (h : s.mod.MemForm) : KeepsForm (execTileFault c row offset kind s) := by
  unfold execTileFault
  apply State.run_keepsForm
  grind [Module.siteFault_memForm, Module.recordSite_memForm]

@[simp] theorem Module.rngFaults_memForm {ts : List TileId} (h : m.MemForm) : (m.rngFaults ts).MemForm := by
  unfold Module.rngFaults
  grind [memForm_foldl, Module.siteFault_memForm, Module.raise_memForm, Module.noteSite_memForm]

@[simp] theorem Module.rngBoundary_memForm {c : ℕ} (h : m.MemForm) : (m.rngBoundary c).MemForm := by
  unfold Module.rngBoundary
  simp [h]

@[simp] theorem Module.repairStep_memForm {c : ℕ} {p q : RepairPhase} (h : m.MemForm) :
    (m.repairStep c p q).MemForm := by
  unfold Module.repairStep
  split <;> simp [h]

@[simp] theorem execRepairSparePowered_keepsForm {s : State} {c : Cluster} (h : s.mod.MemForm) :
    KeepsForm (execRepairSparePowered c s) := by
  unfold execRepairSparePowered
  apply State.run_keepsForm
  grind [Module.repairStep_memForm]

@[simp] theorem execRepairSelftestDone_keepsForm {s : State} {c : Cluster} (h : s.mod.MemForm) :
    KeepsForm (execRepairSelftestDone c s) := by
  unfold execRepairSelftestDone
  apply State.run_keepsForm
  grind [Module.spareFault_memForm, Module.recordSite_memForm, Module.repairStep_memForm, Module.probe_memForm]

@[simp] theorem execRepairBayShiftDone_keepsForm {s : State} {c : Cluster} (h : s.mod.MemForm) :
    KeepsForm (execRepairBayShiftDone c s) := by
  unfold execRepairBayShiftDone
  apply State.run_keepsForm
  grind [Module.repairStep_memForm]

@[simp] theorem Module.refillTile_memForm {c row off : ℕ} (h : m.MemForm) : (m.refillTile c row off).MemForm := by
  unfold Module.refillTile
  grind [Module.setTileAt_memForm, Module.backTile_memForm, Module.when_memForm, Module.epochData_memForm]

@[simp] theorem Module.failSite_memForm {c : Cluster} {row : BitVec 4} {offset : BitVec 5} (h : m.MemForm) :
    (m.failSite c row offset).MemForm := by
  unfold Module.failSite
  grind [Module.setCl_memForm, Module.markSpareBad_memForm, Module.siteFault_memForm, Module.recordSite_memForm]

@[simp] theorem Module.endRepair_memForm {c : ℕ} {p : Repair} (h : m.MemForm) : (m.endRepair c p).MemForm := by
  unfold Module.endRepair
  grind [memForm_foldl, Module.refillTile_memForm, Module.mapTiles_memForm, Module.setFld_memForm,
    Module.setCl_memForm, Module.countSpares_memForm, Module.releaseEpochs_memForm, Module.failSite_memForm]

@[simp] theorem execRepairRefillDone_keepsForm {s : State} {c : Cluster} (h : s.mod.MemForm) :
    KeepsForm (execRepairRefillDone c s) := by
  unfold execRepairRefillDone
  apply State.run_keepsForm
  grind [Module.endRepair_memForm]

@[simp] theorem execRepairRecordAppend_keepsForm {s : State} {c : Cluster} (h : s.mod.MemForm) :
    KeepsForm (execRepairRecordAppend c s) := by
  unfold execRepairRecordAppend
  apply State.run_keepsForm
  grind [Module.setCl_memForm]

@[simp] theorem Module.askRetire_memForm {c : Cluster} (h : m.MemForm) : (m.askRetire c).MemForm := by
  unfold Module.askRetire
  grind [Module.retireCluster_memForm, Module.setCl_memForm]

@[simp] theorem execRetire_keepsForm {s : State} {c : Cluster} (h : s.mod.MemForm) : KeepsForm (execRetire c s) := by
  unfold execRetire
  apply State.run_keepsForm
  grind [Module.askRetire_memForm]

@[simp] theorem Module.eraseRepair_memForm {c : Cluster} (h : m.MemForm) : (m.eraseRepair c).MemForm := by
  unfold Module.eraseRepair
  simp [h]

@[simp] theorem execClearFieldRepair_keepsForm {s : State} {c : Cluster} (h : s.mod.MemForm) :
    KeepsForm (execClearFieldRepair c s) := by
  unfold execClearFieldRepair
  apply State.run_keepsForm
  grind [Module.eraseRepair_memForm]

@[simp] theorem execFailSite_keepsForm {s : State} {c : Cluster} {row : BitVec 4} {offset : BitVec 5}
    (h : s.mod.MemForm) : KeepsForm (execFailSite c row offset s) := by
  unfold execFailSite
  apply State.run_keepsForm
  grind [Module.failSite_memForm]

/-! ### Ferries.lean -/

@[simp] theorem Module.nextDescriptor_memForm {c : ℕ} (h : m.MemForm) : (m.nextDescriptor c).MemForm := by
  unfold Module.nextDescriptor
  grind [Module.takeEntry_memForm, Module.reserve_memForm, Module.setFld_memForm, Module.setChState_memForm,
    Module.setFerry_memForm, Module.driveFerry_memForm]

@[simp] theorem execFerryDescriptor_keepsForm {s : State} {ch : BitVec 9} (h : s.mod.MemForm) :
    KeepsForm (execFerryDescriptor ch s) := by
  unfold execFerryDescriptor
  apply State.run_keepsForm
  grind [Module.driveFerry_memForm, Module.nextDescriptor_memForm]

@[simp] theorem execFerryDescriptorComplete_keepsForm {s : State} {ch : BitVec 9} (h : s.mod.MemForm) :
    KeepsForm (execFerryDescriptorComplete ch s) := by
  unfold execFerryDescriptorComplete
  apply State.run_keepsForm
  grind [Module.driveFerry_memForm, Module.postFerry_memForm, Module.setFerry_memForm, Module.checkSuspended_memForm,
    Module.setChState_memForm]

@[simp] theorem Module.guardCh_memForm {f : Func} {c : ℕ} {act : Module → Module}
    (hact : ∀ m, m.MemForm → (act m).MemForm) (h : m.MemForm) : (m.guardCh f c act).MemForm := by
  unfold Module.guardCh
  split
  · exact h
  · exact Module.guardTen_memForm hact h

@[simp] theorem Module.chRefuse_memForm {c : ℕ} (h : m.MemForm) : (m.chRefuse c).MemForm := by
  unfold Module.chRefuse
  simp [h]

@[simp] theorem execPause_keepsForm {s : State} {f : Func} {ch : BitVec 9} (h : s.mod.MemForm) :
    KeepsForm (execPause f ch s) := by
  unfold execPause
  apply State.run_keepsForm
  grind [Module.guardCh_memForm, Module.pauseFerry_memForm]

@[simp] theorem execDrain_keepsForm {s : State} {f : Func} {ch : BitVec 9} (h : s.mod.MemForm) :
    KeepsForm (execDrain f ch s) := by
  unfold execDrain
  apply State.run_keepsForm
  grind [Module.guardCh_memForm, Module.pauseFerry_memForm]

@[simp] theorem Module.goOn_memForm {c : ℕ} (h : m.MemForm) : (m.goOn c).MemForm := by
  unfold Module.goOn
  grind [Module.setChState_memForm, Module.driveFerry_memForm, Module.setFerry_memForm]

@[simp] theorem Module.resumeCh_memForm {f : Func} {ch : BitVec 9} (h : m.MemForm) : (m.resumeCh f ch).MemForm := by
  unfold Module.resumeCh
  grind [Module.guardCh_memForm, Module.goOn_memForm, Module.chRefuse_memForm]

@[simp] theorem execDmaResume_keepsForm {s : State} {f : Func} {ch : BitVec 9} (h : s.mod.MemForm) :
    KeepsForm (execDmaResume f ch s) := by
  unfold execDmaResume
  apply State.run_keepsForm
  grind [Module.resumeCh_memForm]

@[simp] theorem Module.retryCh_memForm {f : Func} {ch : BitVec 9} (h : m.MemForm) : (m.retryCh f ch).MemForm := by
  unfold Module.retryCh
  grind [Module.guardCh_memForm, Module.goOn_memForm, Module.chRefuse_memForm]

@[simp] theorem execRetry_keepsForm {s : State} {f : Func} {ch : BitVec 9} (h : s.mod.MemForm) :
    KeepsForm (execRetry f ch s) := by
  unfold execRetry
  apply State.run_keepsForm
  grind [Module.retryCh_memForm]

@[simp] theorem Module.skipCh_memForm {f : Func} {ch : BitVec 9} (h : m.MemForm) : (m.skipCh f ch).MemForm := by
  unfold Module.skipCh
  grind [Module.guardCh_memForm, Module.setChState_memForm, Module.setFerry_memForm, Module.chRefuse_memForm]

@[simp] theorem execSkip_keepsForm {s : State} {f : Func} {ch : BitVec 9} (h : s.mod.MemForm) :
    KeepsForm (execSkip f ch s) := by
  unfold execSkip
  apply State.run_keepsForm
  grind [Module.skipCh_memForm]

@[simp] theorem Module.memAnswer_memForm {t : Ten} {k : Packet} {op status : ℕ} {bs : List Byte} (h : m.MemForm) :
    (m.memAnswer t k op status bs).MemForm := by
  unfold Module.memAnswer
  simp [h]

@[simp] theorem execRemoteWrite_keepsForm {s : State} {pkt : Packet} (h : s.mod.MemForm) :
    KeepsForm (execRemoteWrite pkt s) := by
  unfold execRemoteWrite
  apply State.run_keepsForm
  grind [Module.takeIn_memForm, Module.writeHold_memForm, Module.writeVA_memForm, Module.memAnswer_memForm]

@[simp] theorem execRemoteReadReq_keepsForm {s : State} {pkt : Packet} (h : s.mod.MemForm) :
    KeepsForm (execRemoteReadReq pkt s) := by
  unfold execRemoteReadReq
  apply State.run_keepsForm
  grind [Module.takeIn_memForm, Module.readHold_memForm, Module.readVA_memForm, Module.memAnswer_memForm]

@[simp] theorem Module.onChunk_memForm {t : Ten} {k : Packet} {f : ℕ → List Byte → Module → Module}
    (hf : ∀ c b m, m.MemForm → (f c b m).MemForm) (h : m.MemForm) : (m.onChunk t k f).MemForm := by
  unfold Module.onChunk
  grind

@[simp] theorem Module.afterChunk_memForm {c : ℕ} {b : List Byte} (h : m.MemForm) : (m.afterChunk c b).MemForm := by
  unfold Module.afterChunk
  simp [h]

@[simp] theorem execRemoteReadData_keepsForm {s : State} {pkt : Packet} (h : s.mod.MemForm) :
    KeepsForm (execRemoteReadData pkt s) := by
  unfold execRemoteReadData
  apply State.run_keepsForm
  grind [Module.takeIn_memForm, Module.onChunk_memForm, Module.ferryWrite_memForm, Module.afterChunk_memForm,
    Module.chunkDone_memForm, Module.setFerry_memForm, Module.haltFerry_memForm]

@[simp] theorem execRemoteAck_keepsForm {s : State} {pkt : Packet} (h : s.mod.MemForm) :
    KeepsForm (execRemoteAck pkt s) := by
  unfold execRemoteAck
  apply State.run_keepsForm
  grind [Module.takeIn_memForm, Module.onChunk_memForm, Module.afterChunk_memForm, Module.chunkDone_memForm]

@[simp] theorem execRemoteNak_keepsForm {s : State} {pkt : Packet} (h : s.mod.MemForm) :
    KeepsForm (execRemoteNak pkt s) := by
  unfold execRemoteNak
  apply State.run_keepsForm
  grind [Module.takeIn_memForm, Module.onChunk_memForm, Module.setFerry_memForm, Module.haltFerry_memForm,
    Module.drawn_memForm]

@[simp] theorem execDmaTimeoutExpire_keepsForm {s : State} {ch : BitVec 9} (h : s.mod.MemForm) :
    KeepsForm (execDmaTimeoutExpire ch s) := by
  unfold execDmaTimeoutExpire
  apply State.run_keepsForm
  grind [Module.raise_memForm, Module.setFerry_memForm, Module.haltFerry_memForm]

end Sys2Proof.Machine
end

