-- ==== Sys2Proof/Proofs/FormPlacement.lean ====
section
/-! The canonical form of DRAM and Hold is kept by random numbers, integrity, the commits, Waymaster, learning, the pattern packs and the routes. -/

namespace Sys2Proof.Machine

variable {m : Module}

/-! ### Random.lean -/

@[simp] theorem execEntropyTestFail_keepsForm {s : State} (h : s.mod.MemForm) :
    KeepsForm (execEntropyTestFail s) := by
  unfold execEntropyTestFail
  apply State.run_keepsForm
  grind [Module.raise_memForm, Module.addFld_memForm, Module.setFlag_memForm]

@[simp] theorem execRngSelftestPeriod_keepsForm {s : State} {bad : List TileId} (h : s.mod.MemForm) :
    KeepsForm (execRngSelftestPeriod bad s) := by
  unfold execRngSelftestPeriod
  apply State.run_keepsForm
  grind [Module.probe_memForm, Module.rngFaults_memForm]

@[simp] theorem Module.katGo_memForm {value : Word} (h : m.MemForm) : (m.katGo value).MemForm := by
  unfold Module.katGo
  simp [h]

@[simp] theorem execKatGo_keepsForm {s : State} {value : Word} (h : s.mod.MemForm) :
    KeepsForm (execKatGo value s) := by
  unfold execKatGo
  apply State.run_keepsForm
  grind [Module.katGo_memForm]

@[simp] theorem execKatDone_keepsForm {s : State} (h : s.mod.MemForm) : KeepsForm (execKatDone s) := by
  unfold execKatDone
  apply State.run_keepsForm
  grind [Module.setReg_memForm, Module.setFlag_memForm]

/-! ### Integrity.lean -/

@[simp] theorem execErrClassWindowExpire_keepsForm {s : State} {b : Block} {kind : Fin 32} (h : s.mod.MemForm) :
    KeepsForm (execErrClassWindowExpire b kind s) := by
  unfold execErrClassWindowExpire
  apply State.run_keepsForm
  grind

@[simp] theorem Module.clearSevere_memForm {b : Block} {v : ℕ} (h : m.MemForm) : (m.clearSevere b v).MemForm := h

@[simp] theorem execErrSevereClear_keepsForm {s : State} {b : Block} {value : Word} (h : s.mod.MemForm) :
    KeepsForm (execErrSevereClear b value s) := by
  unfold execErrSevereClear
  apply State.run_keepsForm
  grind [Module.clearSevere_memForm]

@[simp] theorem Module.clearErrors_memForm {b : Block} {value : Word} (h : m.MemForm) :
    (m.clearErrors b value).MemForm := by
  unfold Module.clearErrors
  grind [Module.setFlag_memForm, Module.setFld_memForm]

@[simp] theorem execErrClear_keepsForm {s : State} {b : Block} {value : Word} (h : s.mod.MemForm) :
    KeepsForm (execErrClear b value s) := by
  unfold execErrClear
  apply State.run_keepsForm
  grind [Module.clearErrors_memForm]

@[simp] theorem execErrInjectInv_keepsForm {s : State} {b : Block} {value : Word} (h : s.mod.MemForm) :
    KeepsForm (execErrInjectInv b value s) := by
  unfold execErrInjectInv
  apply State.run_keepsForm
  grind [Module.setReg_memForm]

@[simp] theorem execErrAliveStop_keepsForm {s : State} {b : Block} {value : Word} (h : s.mod.MemForm) :
    KeepsForm (execErrAliveStop b value s) := by
  unfold execErrAliveStop
  apply State.run_keepsForm
  grind [Module.setReg_memForm]

@[simp] theorem execForceStop_keepsForm {s : State} {value : Bool} (h : s.mod.MemForm) :
    KeepsForm (execForceStop value s) := by
  unfold execForceStop
  apply State.run_keepsForm
  grind [Module.setFlag_memForm]

@[simp] theorem Module.scrubReg_memForm {r : RegId} {k : Kind} {t : ℕ} (h : m.MemForm) :
    (m.scrubReg r k t).MemForm := by
  unfold Module.scrubReg
  simp [h]

@[simp] theorem Module.scrubHold_memForm (h : m.MemForm) : m.scrubHold.MemForm := by
  unfold Module.scrubHold
  exact memForm_foldl (fun _ _ hm => memForm_foldl (fun _ _ hm => memForm_ite hm (Module.raise_memForm hm)) hm)
    (memForm_foldl (fun _ _ hm => Module.raise_memForm hm) (Module.probe_memForm h))

@[simp] theorem Module.scrubWaybills_memForm (h : m.MemForm) : m.scrubWaybills.MemForm := by
  unfold Module.scrubWaybills
  simp +contextual [h]

@[simp] theorem execComplementScrub_keepsForm {s : State} (h : s.mod.MemForm) :
    KeepsForm (execComplementScrub s) := by
  unfold execComplementScrub
  apply State.run_keepsForm
  grind [memForm_foldl, Module.checkAssign_memForm, Module.scrubHold_memForm, Module.scrubReg_memForm,
    Module.useEntry_memForm, Module.scrubWaybills_memForm]

@[simp] theorem Module.writeTwin_memForm {ten : Ten} {value : Word} (h : m.MemForm) :
    (m.writeTwin ten value).MemForm := by
  unfold Module.writeTwin
  split <;> simp [h]

@[simp] theorem execIntTwinWrite_keepsForm {s : State} {ten : Ten} {value : Word} (h : s.mod.MemForm) :
    KeepsForm (execIntTwinWrite ten value s) := by
  unfold execIntTwinWrite
  apply State.run_keepsForm
  grind [Module.writeTwin_memForm]

@[simp] theorem Module.latchSig_memForm (h : m.MemForm) : m.latchSig.MemForm := by
  unfold Module.latchSig
  grind [memForm_foldl, Module.setReg_memForm]

@[simp] theorem Module.writeSigSel_memForm {v : ℕ} (h : m.MemForm) : (m.writeSigSel v).MemForm := by
  unfold Module.writeSigSel
  split <;> simp [h]

@[simp] theorem execSigPop_keepsForm {s : State} {value : Word} (h : s.mod.MemForm) :
    KeepsForm (execSigPop value s) := by
  unfold execSigPop
  apply State.run_keepsForm
  grind [Module.writeSigSel_memForm]

/-! ### TileCommit.lean -/

@[simp] theorem Module.twinMismatch_memForm {c n : ℕ} {ten : Ten} (h : m.MemForm) :
    (m.twinMismatch c n ten).MemForm := by
  unfold Module.twinMismatch
  grind [Module.raise_memForm, Module.addFld_memForm, Module.stopKill_memForm, Module.killRoute_memForm,
    Module.setCl_memForm]

@[simp] theorem Module.unhold_memForm {c : ℕ} (h : m.MemForm) : (m.unhold c).MemForm := by
  unfold Module.unhold
  grind [Module.setClState_memForm, Module.setCl_memForm]

@[simp] theorem execClusterCommit_keepsForm {s : State} {c : Cluster} (h : s.mod.MemForm) :
    KeepsForm (execClusterCommit c s) := by
  unfold execClusterCommit
  apply State.run_keepsForm
  grind [Module.unhold_memForm, Module.twinMismatch_memForm, Module.rngBoundary_memForm,
    Module.commitBoundary_memForm, Module.retireCluster_memForm]

@[simp] theorem Module.divisionOf_memForm {n i : ℕ} {r : Route} {sg : Stage} {step : Word64} (h : m.MemForm) :
    (m.divisionOf n i r sg step).2.MemForm := by
  unfold Module.divisionOf
  split <;> simp [h]

@[simp] theorem Module.releaseCluster_memForm {c : ℕ} (h : m.MemForm) : (m.releaseCluster c).MemForm := by
  unfold Module.releaseCluster
  grind [Module.mapTiles_memForm, Module.setFlag_memForm, Module.divisionOf_memForm, Module.setRoute_memForm,
    Module.mirrorTwin_memForm, Module.setCl_memForm]

@[simp] theorem execClusterRelease_keepsForm {s : State} {c : Cluster} (h : s.mod.MemForm) :
    KeepsForm (execClusterRelease c s) := by
  unfold execClusterRelease
  apply State.run_keepsForm
  grind [Module.unhold_memForm, Module.rngBoundary_memForm, Module.retireCluster_memForm, Module.useEntry_memForm,
    Module.releaseCluster_memForm]

@[simp] theorem execStepKill_keepsForm {s : State} {route : Fin 256} (h : s.mod.MemForm) :
    KeepsForm (execStepKill route s) := by
  unfold execStepKill
  apply State.run_keepsForm
  grind [Module.killRoute_memForm]

/-! ### Waymaster.lean -/

@[simp] theorem Module.startMove_memForm {c : ℕ} {mv : Move} (h : m.MemForm) : (m.startMove c mv).MemForm := by
  unfold Module.startMove
  grind [Module.setCl_memForm, Module.restState_memForm, Module.setClState_memForm]

@[simp] theorem Module.relocate_memForm {c : ℕ} {t : Ten} {n i : ℕ} (h : m.MemForm) :
    (m.relocate c t n i).MemForm := by
  unfold Module.relocate
  split <;> simp [h]

@[simp] theorem Module.nextChange_memForm {n : ℕ} (h : m.MemForm) : (m.nextChange n).MemForm := by
  unfold Module.nextChange
  split
  · exact h
  · split
    · exact h
    · split
      · exact h
      · split
        · exact Module.setRoute_memForm h
        · split
          · exact h
          · exact memForm_ite (Module.startMove_memForm h) h

@[simp] theorem execClusterMoveStart_keepsForm {s : State} {c : Cluster} {route : Fin 256} {stage : Fin 64}
    (h : s.mod.MemForm) : KeepsForm (execClusterMoveStart c route stage s) := by
  unfold execClusterMoveStart
  apply State.run_keepsForm
  grind [Module.checkAssign_memForm, Module.relocate_memForm, Module.startMove_memForm]

@[simp] theorem Module.rejoin_memForm {c : ℕ} {mv : Move} {n i : ℕ} (h : m.MemForm) :
    (m.rejoin c mv n i).MemForm := by
  unfold Module.rejoin
  grind [memForm_foldl, Module.joinStage_memForm, Module.setTileAt_memForm, Module.setClState_memForm,
    Module.setCl_memForm, Module.placeHolds_memForm]

@[simp] theorem Module.cancelMove_memForm {c : ℕ} (h : m.MemForm) : (m.cancelMove c).MemForm := by
  unfold Module.cancelMove
  simp [h]

@[simp] theorem execClusterMoveReassign_keepsForm {s : State} {c : Cluster} (h : s.mod.MemForm) :
    KeepsForm (execClusterMoveReassign c s) := by
  unfold execClusterMoveReassign
  apply State.run_keepsForm
  grind [Module.restState_memForm, Module.setCl_memForm, Module.cancelMove_memForm, Module.checkAssign_memForm,
    Module.orphanShares_memForm, Module.idleCluster_memForm, Module.rejoin_memForm, Module.retarget_memForm,
      Module.changedRoute_memForm, Module.mirrorTen_memForm]

@[simp] theorem execClusterMoveComplete_keepsForm {s : State} {c : Cluster} (h : s.mod.MemForm) :
    KeepsForm (execClusterMoveComplete c s) := by
  unfold execClusterMoveComplete
  apply State.run_keepsForm
  grind [memForm_foldl, Module.addFld_memForm, Module.restState_memForm, Module.setCl_memForm,
    Module.nextChange_memForm]

@[simp] theorem execPlcRemeasure_keepsForm {s : State} {route : Fin 256} {stage : Fin 64} (h : s.mod.MemForm) :
    KeepsForm (execPlcRemeasure route stage s) := by
  unfold execPlcRemeasure
  apply State.run_keepsForm
  grind [Module.setStage_memForm, Module.nextChange_memForm, Module.setRoute_memForm]

@[simp] theorem Module.balanceMove_memForm {t : Ten} {giver taker : ℕ} (h : m.MemForm) :
    (m.balanceMove t giver taker).MemForm := by
  unfold Module.balanceMove
  grind [Module.addFld_memForm, Module.startMove_memForm]

@[simp] theorem Module.balanceTen_memForm {t : Ten} (h : m.MemForm) : (m.balanceTen t).MemForm := by
  unfold Module.balanceTen
  grind [Module.balanceMove_memForm]

@[simp] theorem execBalancePeriod_keepsForm {s : State} (h : s.mod.MemForm) : KeepsForm (execBalancePeriod s) := by
  unfold execBalancePeriod
  apply State.run_keepsForm
  grind [memForm_foldl, Module.balanceTen_memForm]

@[simp] theorem Module.adopt_memForm {c n : ℕ} (h : m.MemForm) : (m.adopt c n).MemForm := by
  unfold Module.adopt
  grind [Module.setRoute_memForm, Module.setCl_memForm]

@[simp] theorem Module.steal_memForm {c n : ℕ} {r : Route} (h : m.MemForm) : (m.steal c n r).MemForm := by
  unfold Module.steal
  grind [Module.setCl_memForm, Module.addFld_memForm]

@[simp] theorem Module.deliverAll_memForm {t : TileId} {vc : BitVec 4} {data : List Byte} (h : m.MemForm) :
    (m.deliverAll t vc data).MemForm := by
  unfold Module.deliverAll
  grind [Module.mapSpan_memForm]

@[simp] theorem Module.nextPass_memForm {n i : ℕ} {r : Route} {sg : Stage} {step : Word64} {pass : ℕ} (h : m.MemForm) :
    (m.nextPass n i r sg step pass).MemForm := by
  unfold Module.nextPass
  grind [memForm_foldl, Module.divisionOf_memForm, Module.setCl_memForm]

@[simp] theorem execItemDispense_keepsForm {s : State} {t : TileId} (h : s.mod.MemForm) :
    KeepsForm (execItemDispense t s) := by
  unfold execItemDispense
  apply State.run_keepsForm
  grind [Module.nextPass_memForm, Module.steal_memForm, Module.adopt_memForm, Module.deliverAll_memForm,
    Module.setCl_memForm]

/-! ### Learning.lean -/

@[simp] theorem Module.readSlots_memForm {ten : ℕ} {c : Caravan} {s x : ℕ} (h : m.MemForm) :
    (m.readSlots ten c s x).2.MemForm := by
  induction x generalizing m ten c s with
  | zero => exact h
  | succ n ih =>
    unfold Module.readSlots
    grind [Module.readVA_memForm]

-- The read of the slots stands as a variable: the kernel compares one match of the chain with the next, and would
-- evaluate it.
@[simp] theorem Module.gather_memForm {t : Ten} {c : Caravan} {q : CSeq} (h : m.MemForm) :
    (m.gather t c q).2.MemForm := by
  have hs := @Module.readSlots_memForm
  unfold Module.gather
  obtain ⟨readSlots, e⟩ : ∃ f, f = Module.readSlots := ⟨_, rfl⟩
  rw [← e] at hs ⊢
  simp only
  split
  · next e => exact MemForms.of_eq (hs h) e
  next e1 =>
  have h1 := MemForms.of_eq (hs h) e1
  split
  · exact h1
  split
  · next e => exact MemForms.of_eq (Module.readVA_memForm h1) e
  next e2 =>
  have h2 := MemForms.of_eq (Module.readVA_memForm h1) e2
  split
  · next e => exact MemForms.of_eq (Module.readVA_memForm h2) e
  next e3 =>
  have h3 := MemForms.of_eq (Module.readVA_memForm h2) e3
  split
  · next e => exact MemForms.of_eq (hs h3) e
  next e4 =>
  split <;> exact MemForms.of_eq (hs h3) e4

@[simp] theorem Module.gatherAll_memForm {t : Ten} {x : List Pick} (h : m.MemForm) : (m.gatherAll t x).2.MemForm := by
  induction x generalizing m t with
  | nil => exact h
  | cons a l ih =>
    unfold Module.gatherAll
    grind [Module.gather_memForm, Module.cvnPublish_memForm, Module.cvnRelease_memForm, Module.raise_memForm,
      Module.addFld_memForm]

@[simp] theorem Module.writeParts_memForm {ten : ℕ} {x : List (ℕ × List Byte)} (h : m.MemForm) :
    (m.writeParts ten x).2.MemForm := by
  induction x generalizing m ten with
  | nil => exact h
  | cons a l ih =>
    unfold Module.writeParts
    grind [Module.writeVA_memForm]

@[simp] theorem Module.writeBatch_memForm {t : Ten} {n : ℕ} {r : Route} {cfg : LearnCfg} {xs : List
    (Pick × List Byte × List (List Byte))} (h : m.MemForm) : (m.writeBatch t n r cfg xs).MemForm := by
  unfold Module.writeBatch
  grind [memForm_foldl, Module.writeParts_memForm, Module.setSeq_memForm, Module.setRoute_memForm,
    Module.count_memForm, Module.setReg_memForm]

@[simp] theorem Module.buildBatch_memForm {t : Ten} (h : m.MemForm) : (m.buildBatch t).MemForm := by
  unfold Module.buildBatch
  grind [memForm_foldl, Module.raise_memForm, Module.addFld_memForm, Module.cvnPublish_memForm,
    Module.cvnRelease_memForm, Module.gatherAll_memForm, Module.writeBatch_memForm]

@[simp] theorem execBatchBuild_keepsForm {s : State} {ten : Ten} (h : s.mod.MemForm) :
    KeepsForm (execBatchBuild ten s) := by
  unfold execBatchBuild
  apply State.run_keepsForm
  grind [Module.buildBatch_memForm]

@[simp] theorem execBatchWaitExpire_keepsForm {s : State} {ten : Ten} (h : s.mod.MemForm) :
    KeepsForm (execBatchWaitExpire ten s) := by
  unfold execBatchWaitExpire
  apply State.run_keepsForm
  grind [Module.buildBatch_memForm]

@[simp] theorem execLearnStepHoldRelease_keepsForm {s : State} {ten : Ten} (h : s.mod.MemForm) :
    KeepsForm (execLearnStepHoldRelease ten s) := by
  unfold execLearnStepHoldRelease
  apply State.run_keepsForm
  grind [memForm_foldl, Module.zeroArea_memForm, Module.setFld_memForm, Module.drawn_memForm, Module.setRoute_memForm]

@[simp] theorem execSchedOpDispense_keepsForm {s : State} {t : TileId} (h : s.mod.MemForm) :
    KeepsForm (execSchedOpDispense t s) := by
  unfold execSchedOpDispense
  apply State.run_keepsForm
  grind [Module.deliverAll_memForm, Module.setCl_memForm]

/-! ### Patterns.lean -/

@[simp] theorem Module.repairUnit_memForm {t : Target} {u : TestUnit} (h : m.MemForm) :
    (m.repairUnit t u).MemForm := by
  unfold Module.repairUnit
  split <;> simp [h]

@[simp] theorem Module.putSig_memForm {va max' : ℕ} {u : TestUnit} {p : Pattern} {w : ℕ} (h : m.MemForm) :
    (m.putSig va max' u p w).2.MemForm := by
  unfold Module.putSig
  grind [Module.writeVA_memForm, Module.drawn_memForm]

@[simp] theorem Module.march_memForm {t : Target} {p : Pattern} (h : m.MemForm) : (m.march t p).MemForm := by
  unfold Module.march
  extract_lets bytes
  clear_value bytes
  split
  · constructor
    · exact h.dram
    · exact Mem.wf_setBytes h.hold _ _
  · constructor
    · exact Mem.wf_setBytes h.dram _ _
    · exact h.hold
  · exact h

@[simp] theorem Module.runTarget_memForm {ps : List Pattern} {va max' : ℕ} {repair : Bool} {a : Tally} {t : Target}
    (h : m.MemForm) : (m.runTarget ps va max' repair a t).2.MemForm := by
  unfold Module.runTarget
  split
  · exact h
  · extract_lets m1
    have h1 : m1.MemForm := memForm_foldl (fun _ _ hm => Module.march_memForm hm) h
    clear_value m1
    split
    next bad w m2 e =>
    have h2 : (bad, w, m2).2.2.MemForm := by
      rw [← e]
      refine List.foldlRecOn (motive := fun (x : Bool × ℕ × Module) => x.2.2.MemForm) _ _ h1 fun x hx u _ => ?_
      dsimp only
      split
      · exact Module.drawn_memForm hx
      · have hd := Module.drawn_memForm hx
        exact memForm_ite (Module.repairUnit_memForm (Module.putSig_memForm hd)) (Module.putSig_memForm hd)
    exact memForm_ite (Module.raise_memForm h2) h2

@[simp] theorem Module.runTargets_memForm {ps : List Pattern} {va max' : ℕ} {repair : Bool} {a : Tally}
    {x : List Target} (h : m.MemForm) : (m.runTargets ps va max' repair a x).2.MemForm := by
  induction x generalizing m ps va max' repair a with
  | nil => exact h
  | cons a l ih =>
    unfold Module.runTargets
    grind [Module.runTarget_memForm]

@[simp] theorem execPatternRun_keepsForm {s : State} {id : ℕ} (h : s.mod.MemForm) :
    KeepsForm (execPatternRun id s) := by
  unfold execPatternRun
  apply State.run_keepsForm
  grind [Module.withCmd_memForm, Module.commitCmd_memForm, Module.readVA_memForm, Module.finishFail_memForm,
    Module.finish_memForm, Module.mapped_memForm, Module.runTargets_memForm]

/-! ### Power.lean -/

@[simp] theorem Module.writeDisc_memForm {mask v : ℕ} (h : m.MemForm) : (m.writeDisc mask v).MemForm := by
  unfold Module.writeDisc
  grind [Module.storeFields_memForm, Module.setCoord_memForm]

@[simp] theorem Module.sideStore_memForm {r : RegId} {v : ℕ} (h : m.MemForm) : (m.sideStore r v).MemForm := by
  unfold Module.sideStore
  simp [h]

@[simp] theorem Module.sideWrites_memForm (h : m.MemForm) : m.sideWrites.MemForm := by
  unfold Module.sideWrites
  simp +contextual [h]

@[simp] theorem execIdleDwellExpire_keepsForm {s : State} (h : s.mod.MemForm) :
    KeepsForm (execIdleDwellExpire s) := by
  unfold execIdleDwellExpire
  apply State.run_keepsForm
  grind [Module.towards_memForm, Module.checkTols_memForm]

@[simp] theorem execPowerStateEntryDone_keepsForm {s : State} (h : s.mod.MemForm) :
    KeepsForm (execPowerStateEntryDone s) := by
  unfold execPowerStateEntryDone
  apply State.run_keepsForm
  grind [Module.enterState_memForm]

@[simp] theorem execWakeEvent_keepsForm {s : State} (h : s.mod.MemForm) : KeepsForm (execWakeEvent s) := by
  unfold execWakeEvent
  apply State.run_keepsForm
  grind [Module.wake_memForm]

@[simp] theorem execForceS0_keepsForm {s : State} (h : s.mod.MemForm) : KeepsForm (execForceS0 s) := by
  unfold execForceS0
  apply State.run_keepsForm
  grind [Module.wake_memForm]

@[simp] theorem execPowerStateExitDone_keepsForm {s : State} (h : s.mod.MemForm) :
    KeepsForm (execPowerStateExitDone s) := by
  unfold execPowerStateExitDone
  apply State.run_keepsForm
  grind [Module.sideWrites_memForm, Module.exitState_memForm]

/-! ### Routes.lean -/

@[simp] theorem Module.readPrograms_memForm {ten : ℕ} {x : Image} {l : List ℕ} (h : m.MemForm) :
    (m.readPrograms ten x l).2.MemForm := by
  induction l generalizing m with
  | nil => exact h
  | cons i l ih => grind [Module.readPrograms, Module.mapped_memForm, Module.readVA_memForm]

theorem Module.mapBuffer_memForm {ten : ℕ} {dies : List ℕ} {b : Buffer} {r : List ℕ × Module} (h : m.MemForm)
    (e : m.mapBuffer ten dies b = some r) : r.2.MemForm := by
  unfold Module.mapBuffer at e
  refine List.foldlRecOn (motive := fun acc => ∀ r, acc = some r → r.2.MemForm) _ _ ?_ ?_ r e
  · rintro r ⟨⟩
    exact h
  · intro acc hacc k _ r e
    split at e
    · cases e
    · have hm := hacc _ rfl
      simp only at e
      split at e
      · obtain ⟨p, hp, rfl⟩ := Option.map_eq_some_iff.1 e
        exact Module.mapPage_memForm hm hp
      · cases e
        exact hm

theorem Module.mapBuffers_memForm {ten : ℕ} {dies : Buffer → List ℕ} {l : List Buffer} {r : List ℕ × Module}
    (h : m.MemForm)
    (e : m.mapBuffers ten dies l = some r) : r.2.MemForm := by
  induction l generalizing m r with
  | nil =>
    cases e
    exact h
  | cons b l ih =>
    unfold Module.mapBuffers at e
    split at e
    · cases e
    · next hb =>
      obtain ⟨p, hp, rfl⟩ := Option.map_eq_some_iff.1 e
      have hr := ih (Module.mapBuffer_memForm h hb) hp
      exact hr

@[simp] theorem Module.placeClusters_memForm {t : Ten} {n : ℕ} {placed twins : List (ℕ × ℕ)} (h : m.MemForm) :
    (m.placeClusters t n placed twins).MemForm := by
  unfold Module.placeClusters
  grind [memForm_foldl, Module.joinStage_memForm]

theorem Module.installRoute_memForm {t : Ten} {x : Image} {sgs : List Stage} {q : Plan} {m' : Module} (h : m.MemForm)
    (e : m.installRoute t x sgs q = some m') : m'.MemForm := by
  unfold Module.installRoute at e
  simp only at e
  split at e
  · cases e
  · split at e
    · cases e
    · next ha =>
      split at e
      · cases e
      · next hb =>
        cases e
        exact Module.mirrorTen_memForm (Module.mirrorRoute_memForm (Module.placeHolds_memForm
          (Module.placeClusters_memForm
          (Module.addFld_memForm (Module.mapBuffers_memForm (Module.allocFrames_memForm h ha) hb)))))

@[simp] theorem Module.loadImage_memForm {id : ℕ} {t : Ten} {x : Image} (h : m.MemForm) :
    (m.loadImage id t x).MemForm := by
  unfold Module.loadImage
  grind only [Module.finish_memForm, Module.violation_memForm, Module.readPrograms_memForm,
    Module.finishFail_memForm, Module.installRoute_memForm, Module.when_memForm, Module.raise_memForm]

@[simp] theorem execRouteLoad_keepsForm {s : State} {id : ℕ} (h : s.mod.MemForm) :
    KeepsForm (execRouteLoad id s) := by
  unfold execRouteLoad
  apply State.run_keepsForm
  grind [Module.withCmd_memForm, Module.finish_memForm, Module.readVA_memForm, Module.finishFail_memForm,
    Module.loadImage_memForm]

@[simp] theorem execRouteStart_keepsForm {s : State} {id : ℕ} (h : s.mod.MemForm) :
    KeepsForm (execRouteStart id s) := by
  unfold execRouteStart
  apply State.run_keepsForm
  grind [Module.withCmd_memForm, Module.finish_memForm, Module.commitCmd_memForm, Module.setRoute_memForm,
    Module.beginStart_memForm]

@[simp] theorem Module.cancelMoves_memForm {n : ℕ} (h : m.MemForm) : (m.cancelMoves n).MemForm := by
  unfold Module.cancelMoves
  grind [memForm_foldl, Module.cancelMove_memForm]

@[simp] theorem Module.beginStop_memForm {n : ℕ} {kill : Bool} (h : m.MemForm) : (m.beginStop n kill).MemForm := by
  unfold Module.beginStop
  grind [Module.setRoute_memForm, Module.cancelMoves_memForm, Module.stopKill_memForm, Module.checkStopped_memForm,
    Module.mirrorRoute_memForm]

@[simp] theorem execRouteStop_keepsForm {s : State} {id : ℕ} (h : s.mod.MemForm) :
    KeepsForm (execRouteStop id s) := by
  unfold execRouteStop
  apply State.run_keepsForm
  grind [Module.withCmd_memForm, Module.finish_memForm, Module.unloadRoute_memForm, Module.commitCmd_memForm,
    Module.setRoute_memForm, Module.beginStop_memForm]

end Sys2Proof.Machine
end

