-- ==== Sys2Proof/Proofs/FormTiles.lean ====
section
/-! The canonical form of DRAM and Hold is kept by the transfers, arrays and vectors of the tiles and the weights. -/

namespace Sys2Proof.Machine

variable {m : Module}

/-! ### TileTransfer.lean -/

@[simp] theorem Module.checkTransfers_memForm {k : Cluster} {ten : ℕ} {write hold : Bool} {x : List (ℕ × ℕ)}
    (h : m.MemForm) : (m.checkTransfers k ten write hold x).2.MemForm := by
  induction x generalizing m k ten write hold with
  | nil => exact h
  | cons a l ih =>
    unfold Module.checkTransfers
    grind [Module.holdRefuse_memForm, Module.mapped_memForm]

@[simp] theorem Module.issueTransfers_memForm {cx : Ctx} {op : Byte} {w : Fields} {kind : XferKind}
    {write hold : Bool} {addr : Tile → ℕ} (h : m.MemForm) : ExceptForm (m.issueTransfers cx op w kind write hold
      addr) := by
  unfold Module.issueTransfers
  grind [exceptForm_ok, exceptForm_error, Module.waitOn_memForm, Module.checkTransfers_memForm,
    Module.failRoute_memForm, Module.eachE_memForm]

@[simp] theorem Module.joinBcast_memForm {cx : Ctx} {mask : BitVec 16} {k : Tile → Transfer} (h : m.MemForm) :
    (m.joinBcast cx mask k).MemForm := by
  unfold Module.joinBcast
  simp [h]

@[simp] theorem execHld_keepsForm {s : State} {t : TileId} {w : Fields} (h : s.mod.MemForm) :
    KeepsForm (execHld t w s) := by
  unfold execHld
  refine State.tileOp_keepsForm h fun cx m hm => ?_
  grind [exceptForm_ok, exceptForm_error, Module.haltTile_memForm, Module.issueTransfers_memForm,
    Module.waitOn_memForm, Module.joinBcast_memForm]

@[simp] theorem execHst_keepsForm {s : State} {t : TileId} {w : Fields} (h : s.mod.MemForm) :
    KeepsForm (execHst t w s) := by
  unfold execHst
  exact State.tileOp_keepsForm h fun cx m hm => by simp [hm]

@[simp] theorem execXld_keepsForm {s : State} {t : TileId} {w : Fields} (h : s.mod.MemForm) :
    KeepsForm (execXld t w s) := by
  unfold execXld
  exact State.tileOp_keepsForm h fun cx m hm => by simp [hm]

@[simp] theorem execXst_keepsForm {s : State} {t : TileId} {w : Fields} (h : s.mod.MemForm) :
    KeepsForm (execXst t w s) := by
  unfold execXst
  exact State.tileOp_keepsForm h fun cx m hm => by simp [hm]

@[simp] theorem execWaitt_keepsForm {s : State} {t : TileId} {w : Fields} (h : s.mod.MemForm) :
    KeepsForm (execWaitt t w s) := by
  unfold execWaitt
  refine State.tileOp_keepsForm h fun cx m hm => ?_
  grind [exceptForm_ok, exceptForm_error, Module.waitOn_memForm, Module.retire_memForm]

@[simp] theorem Module.applyStore_memForm {u : TileId} {n : ℕ} {r : Route} {p : Prog} {hold : Bool} {a : ℕ}
    {bs : List Byte} (h : m.MemForm) : (m.applyStore u n r p hold a bs).MemForm := by
  unfold Module.applyStore
  grind [Module.failRoute_memForm, Module.setTile_memForm, Module.writeHold_memForm, Module.writeVA_memForm]

@[simp] theorem Module.failLoad_memForm {n : ℕ} {r : Route} {us : List (TileId × Transfer)} {e : Fail}
    (h : m.MemForm) : (m.failLoad n r us e).MemForm := by
  unfold Module.failLoad
  grind [memForm_foldl, Module.holdAsRead_memForm, Module.setTile_memForm, Module.berthError_memForm,
    Module.failRoute_memForm]

@[simp] theorem Module.storePath_memForm {t : TileId} {ten : ℕ} {hold : Bool} (h : m.MemForm) :
    (m.storePath t ten hold).2.MemForm := by
  unfold Module.storePath
  grind [Module.pathCheck_memForm, Module.siteFault_memForm, Module.noteSite_memForm]

@[simp] theorem Module.completeTransfer_memForm {t : TileId} {n : ℕ} {r : Route} {p : Prog} {k : Transfer}
    (h : m.MemForm) : (m.completeTransfer t n r p k).MemForm := by
  unfold Module.completeTransfer
  grind [Module.setTile_memForm, Module.storePath_memForm, Module.applyStore_memForm, Module.readVA_memForm,
    Module.failLoad_memForm, Module.readHold_memForm]

@[simp] theorem execTransferComplete_keepsForm {s : State} {t : TileId} {tag : BitVec 4} (h : s.mod.MemForm) :
    KeepsForm (execTransferComplete t tag s) := by
  unfold execTransferComplete
  apply State.run_keepsForm
  grind [Module.completeTransfer_memForm, Module.drawn_memForm]

@[simp] theorem execHldBcastRendezvous_keepsForm {s : State} {c : Cluster} {row : Fin 16} {mask : BitVec 16}
    (h : s.mod.MemForm) : KeepsForm (execHldBcastRendezvous c row mask s) := by
  have take : ∀ (us : List TileId) (wld : Bool) (m : Module), m.MemForm → (us.foldl (fun m u =>
      match (m.tile u).bcast mask wld with
      | some k => m.setTile u { m.tile u with xfers := (m.tile u).xfers.erase k }
      | none => m) m).MemForm := fun us wld m hm =>
    memForm_foldl (fun m u hm => by split <;> simp [hm]) hm
  unfold execHldBcastRendezvous
  apply State.run_keepsForm
  simp only
  split
  · split
    · exact h
    · split
      · exact Module.undefined_memForm h
      · split
        · exact take _ _ _ h
        · split
          · next e => exact Module.failLoad_memForm ((Module.readHold_memForm (take _ _ _ h)).of_eq e)
          · next e =>
            exact memForm_foldl (fun _ _ hm => Module.setTile_memForm hm) ((Module.readHold_memForm (take _ _ _
              h)).of_eq e)
  · exact h

/-! ### TileArray.lean -/

@[simp] theorem execWld_keepsForm {s : State} {t : TileId} {w : Fields} (h : s.mod.MemForm) :
    KeepsForm (execWld t w s) := by
  unfold execWld
  refine State.tileOp_keepsForm h fun cx m hm => ?_
  grind [exceptForm_ok, exceptForm_error, Module.waitOn_memForm, Module.eachE_memForm, Module.joinBcast_memForm,
    Module.checkTransfers_memForm, Module.failRoute_memForm, Module.each_memForm]

@[simp] theorem execWflip_keepsForm {s : State} {t : TileId} {w : Fields} (h : s.mod.MemForm) :
    KeepsForm (execWflip t w s) := by
  unfold execWflip
  refine State.tileOp_keepsForm h fun cx m hm => ?_
  grind [exceptForm_ok, exceptForm_error, Module.waitOn_memForm, Module.each_memForm, Module.haltTile_memForm,
    Module.failRoute_memForm]

@[simp] theorem Module.mmaColumn_memForm {q : Mma} {w : Fields} {us : List TileId} (h : m.MemForm) :
    (m.mmaColumn q w us).MemForm := by
  unfold Module.mmaColumn
  exact memForm_foldl (fun m r hm => by split <;> simp [hm]) h

@[simp] theorem execMma_keepsForm {s : State} {t : TileId} {w : Fields} (h : s.mod.MemForm) :
    KeepsForm (execMma t w s) := by
  unfold execMma
  refine State.tileOpBy_keepsForm h fun cx m hm => ?_
  split
  · simp [hm]
  · exact exceptForm_ite (exceptForm_error _) (exceptForm_ite (exceptForm_ok (Module.each_memForm hm))
      (exceptForm_ok (Module.retire_memForm (memForm_foldl (fun _ _ hm => Module.mmaColumn_memForm hm) hm))))

@[simp] theorem execQscan_keepsForm {s : State} {t : TileId} {w : Fields} (h : s.mod.MemForm) :
    KeepsForm (execQscan t w s) := by
  unfold execQscan
  refine State.tileOpBy_keepsForm h fun cx m hm => ?_
  exact exceptForm_ite (exceptForm_ok (Module.each_memForm hm)) (Module.eachE_memForm hm)

@[simp] theorem execQcvt_keepsForm {s : State} {t : TileId} {w : Fields} (h : s.mod.MemForm) :
    KeepsForm (execQcvt t w s) := by
  unfold execQcvt
  refine State.tileOpBy_keepsForm h fun cx m hm => ?_
  split <;> simp [hm]

@[simp] theorem execTsmv_keepsForm {s : State} {t : TileId} {w : Fields} (h : s.mod.MemForm) :
    KeepsForm (execTsmv t w s) := by
  unfold execTsmv
  exact State.tileOp_keepsForm h fun cx m hm => by simp [hm]

@[simp] theorem execAdrain_keepsForm {s : State} {t : TileId} {w : Fields} (h : s.mod.MemForm) :
    KeepsForm (execAdrain t w s) := by
  unfold execAdrain
  refine State.tileOp_keepsForm h fun cx m hm => ?_
  simp only
  split <;> simp [hm]

@[simp] theorem execAfl_keepsForm {s : State} {t : TileId} {w : Fields} (h : s.mod.MemForm) :
    KeepsForm (execAfl t w s) := by
  unfold execAfl
  exact State.tileOp_keepsForm h fun cx m hm => by simp [hm]

/-! ### TileVector.lean -/

@[simp] theorem execVfop_keepsForm {s : State} {t : TileId} {w : Fields} (h : s.mod.MemForm) :
    KeepsForm (execVfop t w s) := by
  unfold execVfop
  exact State.tileOp_keepsForm h fun cx m hm => by simp [hm]

@[simp] theorem execVfma_keepsForm {s : State} {t : TileId} {w : Fields} (h : s.mod.MemForm) :
    KeepsForm (execVfma t w s) := by
  unfold execVfma
  exact State.tileOp_keepsForm h fun cx m hm => by simp [hm]

@[simp] theorem execViop_keepsForm {s : State} {t : TileId} {w : Fields} (h : s.mod.MemForm) :
    KeepsForm (execViop t w s) := by
  unfold execViop
  exact State.tileOp_keepsForm h fun cx m hm => by simp [hm]

@[simp] theorem execVfun_keepsForm {s : State} {t : TileId} {w : Fields} (h : s.mod.MemForm) :
    KeepsForm (execVfun t w s) := by
  unfold execVfun
  exact State.tileOp_keepsForm h fun cx m hm => by simp [hm]

@[simp] theorem execVcmp_keepsForm {s : State} {t : TileId} {w : Fields} (h : s.mod.MemForm) :
    KeepsForm (execVcmp t w s) := by
  unfold execVcmp
  exact State.tileOp_keepsForm h fun cx m hm => by simp [hm]

@[simp] theorem execVsel_keepsForm {s : State} {t : TileId} {w : Fields} (h : s.mod.MemForm) :
    KeepsForm (execVsel t w s) := by
  unfold execVsel
  exact State.tileOp_keepsForm h fun cx m hm => by simp [hm]

@[simp] theorem execVcvt_keepsForm {s : State} {t : TileId} {w : Fields} (h : s.mod.MemForm) :
    KeepsForm (execVcvt t w s) := by
  unfold execVcvt
  exact State.tileOpBy_keepsForm h fun cx m hm => exceptForm_ok (Module.each_memForm hm)

@[simp] theorem execVred_keepsForm {s : State} {t : TileId} {w : Fields} (h : s.mod.MemForm) :
    KeepsForm (execVred t w s) := by
  unfold execVred
  exact State.tileOp_keepsForm h fun cx m hm => by simp [hm]

@[simp] theorem execVsplat_keepsForm {s : State} {t : TileId} {w : Fields} (h : s.mod.MemForm) :
    KeepsForm (execVsplat t w s) := by
  unfold execVsplat
  exact State.tileOp_keepsForm h fun cx m hm => by simp [hm]

@[simp] theorem execVget_keepsForm {s : State} {t : TileId} {w : Fields} (h : s.mod.MemForm) :
    KeepsForm (execVget t w s) := by
  unfold execVget
  exact State.tileOp_keepsForm h fun cx m hm => by simp [hm]

@[simp] theorem execVput_keepsForm {s : State} {t : TileId} {w : Fields} (h : s.mod.MemForm) :
    KeepsForm (execVput t w s) := by
  unfold execVput
  exact State.tileOp_keepsForm h fun cx m hm => by simp [hm]

@[simp] theorem execVperm_keepsForm {s : State} {t : TileId} {w : Fields} (h : s.mod.MemForm) :
    KeepsForm (execVperm t w s) := by
  unfold execVperm
  exact State.tileOp_keepsForm h fun cx m hm => by simp [hm]

@[simp] theorem execViota_keepsForm {s : State} {t : TileId} {w : Fields} (h : s.mod.MemForm) :
    KeepsForm (execViota t w s) := by
  unfold execViota
  exact State.tileOp_keepsForm h fun cx m hm => by simp [hm]

@[simp] theorem execRnu_keepsForm {s : State} {t : TileId} {w : Fields} (h : s.mod.MemForm) :
    KeepsForm (execRnu t w s) := by
  unfold execRnu
  exact State.tileOp_keepsForm h fun cx m hm => by simp [hm]

@[simp] theorem execRnb_keepsForm {s : State} {t : TileId} {w : Fields} (h : s.mod.MemForm) :
    KeepsForm (execRnb t w s) := by
  unfold execRnb
  exact State.tileOp_keepsForm h fun cx m hm => by simp [hm]

/-! ### Weights.lean -/

@[simp] theorem Module.countToll_memForm {cx : Ctx} (h : m.MemForm) : (m.countToll cx).MemForm := by
  unfold Module.countToll
  grind [Module.count_memForm, Module.addFld_memForm, Module.drawn_memForm]

@[simp] theorem Module.versRoute_memForm {cx : Ctx} {w : Fields} (h : m.MemForm) : (m.versRoute cx w).MemForm := by
  unfold Module.versRoute
  grind [memForm_foldl, Module.each_memForm, Module.askLayer_memForm, Module.countToll_memForm, Module.waitOn_memForm]

@[simp] theorem execVers_keepsForm {s : State} {t : TileId} {w : Fields} (h : s.mod.MemForm) :
    KeepsForm (execVers t w s) := by
  unfold execVers
  exact State.tileOpBy_keepsForm h fun cx m hm => exceptForm_ite
    (exceptForm_ite (exceptForm_ok (Module.waitOn_memForm hm)) (exceptForm_ok (Module.each_memForm hm)))
    (exceptForm_ok (Module.versRoute_memForm hm))

@[simp] theorem execTollRelease_keepsForm {s : State} {route : Fin 256} {stage : Fin 64} {layer : BitVec 16}
    (h : s.mod.MemForm) : KeepsForm (execTollRelease route stage layer s) := by
  unfold execTollRelease
  apply State.run_keepsForm
  grind [memForm_foldl, Module.versRoute_memForm]

@[simp] theorem Module.slicesMapped_memForm {ten src : ℕ} {ls : List Layer} (h : m.MemForm) :
    (m.slicesMapped ten src ls).2.MemForm := by
  induction ls generalizing m ten src with
  | nil => exact h
  | cons a l ih =>
    unfold Module.slicesMapped
    grind [Module.mapped_memForm]

@[simp] theorem Module.stageResidents_memForm {id ten : ℕ} {w : WRecord} {x : List ℕ} {x1 : ℕ} (h : m.MemForm) :
    (m.stageResidents id ten w x x1).2.2.MemForm := by
  induction x generalizing m id ten w x1 with
  | nil => exact h
  | cons a l ih =>
    unfold Module.stageResidents
    grind [Module.copySlice_memForm]

@[simp] theorem Module.loadWeights_memForm {id : ℕ} {c : Cmd} (h : m.MemForm) : (m.loadWeights id c).MemForm := by
  unfold Module.loadWeights
  grind [Module.dropWrec_memForm, Module.finish_memForm, Module.readVA_memForm, Module.finishFail_memForm,
    Module.violation_memForm, Module.slicesMapped_memForm, Module.stageResidents_memForm, Module.setWrec_memForm]

@[simp] theorem execWeightLoad_keepsForm {s : State} {id : ℕ} (h : s.mod.MemForm) :
    KeepsForm (execWeightLoad id s) := by
  unfold execWeightLoad
  apply State.run_keepsForm
  grind [Module.withCmd_memForm, Module.finish_memForm, Module.loadWeights_memForm]

@[simp] theorem execWeightSwap_keepsForm {s : State} {id : ℕ} (h : s.mod.MemForm) :
    KeepsForm (execWeightSwap id s) := by
  unfold execWeightSwap
  apply State.run_keepsForm
  grind [Module.withCmd_memForm, Module.finish_memForm, Module.violation_memForm, Module.slicesMapped_memForm,
    Module.finishFail_memForm, Module.commitCmd_memForm, Module.setWrec_memForm]

@[simp] theorem Module.markStaged_memForm {ten : ℕ} {queued : Bool} {l : ℕ} (h : m.MemForm) :
    (m.markStaged ten queued l).MemForm := by
  unfold Module.markStaged
  split <;> simp [h]

@[simp] theorem Module.stageNext_memForm {ten : ℕ} {w : WRecord} {queued : Bool} {x : WSwap} {l : ℕ} (h : m.MemForm) :
    (m.stageNext ten w queued x l).MemForm := by
  unfold Module.stageNext
  grind [Module.stageLayer_memForm, Module.trimBerths_memForm, Module.markStaged_memForm]

@[simp] theorem execLayerStaged_keepsForm {s : State} {ten : Ten} {queued : Bool} {layer : BitVec 10}
    (h : s.mod.MemForm) : KeepsForm (execLayerStaged ten queued layer s) := by
  unfold execLayerStaged
  apply State.run_keepsForm
  grind [Module.setWrec_memForm, Module.stageLayer_memForm, Module.stageNext_memForm]

@[simp] theorem execStreamFetchComplete_keepsForm {s : State} {ten : Ten} {layer : BitVec 10} (h : s.mod.MemForm) :
    KeepsForm (execStreamFetchComplete ten layer s) := by
  have hs : ∀ l v, ((s.mod.stageLayer ten.val l v).getD s.mod).MemForm := fun l v => by
    cases e : s.mod.stageLayer ten.val l v with
    | none => exact h
    | some m' => exact Module.stageLayer_memForm h e
  unfold execStreamFetchComplete
  apply State.run_keepsForm
  split
  · exact h
  · simp only
    split
    · exact h
    · exact memForm_ite (memForm_foldl (fun _ _ hm => Module.epochData_memForm hm) (hs _ _)) (hs _ _)

@[simp] theorem execLayerDeadlineExpire_keepsForm {s : State} {route : Fin 256} {stage : Fin 64} {layer : BitVec 10}
    (h : s.mod.MemForm) : KeepsForm (execLayerDeadlineExpire route stage layer s) := by
  unfold execLayerDeadlineExpire
  apply State.run_keepsForm
  grind [Module.raise_memForm, Module.addFld_memForm, Module.setWrec_memForm, Module.when_memForm]

@[simp] theorem execSwapFrontFix_keepsForm {s : State} {ten : Ten} (h : s.mod.MemForm) :
    KeepsForm (execSwapFrontFix ten s) := by
  unfold execSwapFrontFix
  apply State.run_keepsForm
  grind [Module.fixFront_memForm, Module.startGroup_memForm, Module.setTravel_memForm]

@[simp] theorem Module.completeSwap_memForm {ten : ℕ} {w : WRecord} {x : WSwap} (h : m.MemForm) :
    (m.completeSwap ten w x).MemForm := by
  unfold Module.completeSwap
  grind [Module.trimBerths_memForm, Module.setWrec_memForm, Module.finish_memForm]

@[simp] theorem execSwapComplete_keepsForm {s : State} {ten : Ten} (h : s.mod.MemForm) :
    KeepsForm (execSwapComplete ten s) := by
  unfold execSwapComplete
  apply State.run_keepsForm
  grind [Module.completeSwap_memForm]

@[simp] theorem execSwapTimeout_keepsForm {s : State} {ten : Ten} (h : s.mod.MemForm) :
    KeepsForm (execSwapTimeout ten s) := by
  unfold execSwapTimeout
  apply State.run_keepsForm
  grind [Module.raise_memForm]

@[simp] theorem Module.leanMapped_memForm {ten src : ℕ} {x : List (ℕ × Layer × ℕ)} (h : m.MemForm) :
    (m.leanMapped ten src x).2.MemForm := by
  induction x generalizing m ten src with
  | nil => exact h
  | cons a l ih =>
    unfold Module.leanMapped
    grind [Module.mapped_memForm]

@[simp] theorem Module.setLean_memForm {ten l : ℕ} {v : Option (BitVec 16)} (h : m.MemForm) :
    (m.setLean ten l v).MemForm := by
  unfold Module.setLean
  split <;> simp [h]

@[simp] theorem Module.buildLean_memForm {id ten src : ℕ} {v : BitVec 16} {x : List (ℕ × Layer × ℕ)} (h : m.MemForm) :
    (m.buildLean id ten src v x).2.MemForm := by
  induction x generalizing m id ten src v with
  | nil => exact h
  | cons a l ih =>
    unfold Module.buildLean
    grind [Module.setLean_memForm, Module.readTwice_memForm, Module.writeHold_memForm]

@[simp] theorem execLeanBuild_keepsForm {s : State} {id : ℕ} (h : s.mod.MemForm) :
    KeepsForm (execLeanBuild id s) := by
  unfold execLeanBuild
  apply State.run_keepsForm
  grind [Module.withCmd_memForm, Module.finish_memForm, Module.leanMapped_memForm, Module.finishFail_memForm,
    Module.buildLean_memForm]

theorem Module.takeBaseFrame_memForm {base : ℕ} {r : ℕ × Module} (h : m.MemForm) (e : m.takeBaseFrame base = some r) :
    r.2.MemForm := by
  unfold Module.takeBaseFrame at e
  obtain ⟨f, -, rfl⟩ := Option.map_eq_some_iff.1 e
  grind [Module.drawn_memForm, Module.subFld_memForm, Module.addFld_memForm, Module.setTag_memForm]

theorem Module.takeBaseFrames_memForm {base n : ℕ} {r : List ℕ × Module} (h : m.MemForm)
    (e : m.takeBaseFrames base n = some r) : r.2.MemForm := by
  induction n generalizing m r with
  | zero =>
    cases e
    exact h
  | succ n ih =>
    dsimp only [Module.takeBaseFrames] at e
    split at e
    · cases e
    · next hb =>
      obtain ⟨p, hp, rfl⟩ := Option.map_eq_some_iff.1 e
      have hr := ih (Module.takeBaseFrame_memForm h hb) hp
      exact hr

theorem Module.fillRun_memForm {first n : ℕ} {m' : Module} (h : m.MemForm) (e : m.fillRun first n = some m') :
    m'.MemForm := by
  induction n generalizing m' with
  | zero =>
    cases e
    exact h
  | succ n ih =>
    unfold Module.fillRun at e
    split at e
    · cases e
    · next hm =>
      obtain ⟨p, -, rfl⟩ := Option.map_eq_some_iff.1 e
      exact Module.takeBank_memForm (Module.drawn_memForm (ih hm))

theorem Module.baseHold_memForm {bs : List Byte} {r : (ℕ × ℕ) × Module} (h : m.MemForm) (e : m.baseHold bs = some r) :
    r.2.MemForm := by
  unfold Module.baseHold at e
  simp only at e
  split at e
  · cases e
  · split at e
    · cases e
    · obtain ⟨x, hx, rfl⟩ := Option.map_eq_some_iff.1 e
      exact memForm_foldl (fun _ _ hm => Module.writeHoldLocs_memForm hm) (Module.fillRun_memForm
        (Module.drawn_memForm h) hx)

@[simp] theorem Module.fillFrames_memForm {bs : List Byte} {x : List ℕ} (h : m.MemForm) :
    (m.fillFrames bs x).MemForm := by
  induction x generalizing m bs with
  | nil => exact h
  | cons a l ih =>
    unfold Module.fillFrames
    grind [Module.writeLoc_memForm]

@[simp] theorem Module.withBase_memForm {id mode : ℕ} {f : Cmd → ℕ → Module → Module}
    (hf : ∀ c n m, m.MemForm → (f c n m).MemForm) (h : m.MemForm) : (m.withBase id mode f).MemForm := by
  unfold Module.withBase
  refine Module.withCmd_memForm (fun c m hm => ?_) h
  grind [Module.finish_memForm, Module.setCmd_memForm]

@[simp] theorem execBaseShareLoad_keepsForm {s : State} {id : ℕ} (h : s.mod.MemForm) :
    KeepsForm (execBaseShareLoad id s) := by
  unfold execBaseShareLoad
  refine State.run_keepsForm (Module.withBase_memForm (fun c b m hm => ?_) h)
  simp only
  refine memForm_ite (Module.finish_memForm hm) (memForm_ite (Module.finish_memForm hm) ?_)
  split
  · next e => exact Module.finishFail_memForm ((Module.readVA_memForm hm).of_eq e)
  · next bs m' e =>
    have hr := (Module.readVA_memForm hm).of_eq e
    split
    · exact Module.finish_memForm hr
    · next fs m'' hf =>
      have hb : (m''.fillFrames bs fs).MemForm := Module.fillFrames_memForm (Module.takeBaseFrames_memForm hr hf)
      split
      · split
        · exact Module.finish_memForm hr
        · next hh => exact Module.finish_memForm (Module.baseHold_memForm hb hh)
      · exact Module.finish_memForm hb

theorem Module.mapBase_memForm {ten va : ℕ} {x : List ℕ} {m' : Module} (h : m.MemForm)
    (e : m.mapBase ten va x = some m') : m'.MemForm := by
  induction x generalizing m ten va with
  | nil => grind [Module.mapBase]
  | cons a l ih => grind [Module.mapBase, Module.enterLeaf_memForm, Module.uncachePages_memForm]

@[simp] theorem Module.setExtent_memForm {ten x first count table : ℕ} {valid ro : Bool} (h : m.MemForm) :
    (m.setExtent ten x first count table valid ro).MemForm := h

@[simp] theorem execBaseShareGrant_keepsForm {s : State} {id : ℕ} (h : s.mod.MemForm) :
    KeepsForm (execBaseShareGrant id s) := by
  unfold execBaseShareGrant
  apply State.run_keepsForm
  grind [Module.withBase_memForm, Module.finish_memForm, Module.mapBase_memForm, Module.setExtent_memForm]

@[simp] theorem Module.revokeBase_memForm {ten b : ℕ} (h : m.MemForm) : (m.revokeBase ten b).MemForm := by
  unfold Module.revokeBase
  grind [memForm_foldl, Module.unmapPage_memForm, Module.setExtent_memForm]

@[simp] theorem execBaseShareRevoke_keepsForm {s : State} {id : ℕ} (h : s.mod.MemForm) :
    KeepsForm (execBaseShareRevoke id s) := by
  unfold execBaseShareRevoke
  apply State.run_keepsForm
  grind [Module.withBase_memForm, Module.finish_memForm, Module.revokeBase_memForm]

@[simp] theorem Module.freeBase_memForm {b : ℕ} {x : SharedBase} (h : m.MemForm) : (m.freeBase b x).MemForm := by
  unfold Module.freeBase
  grind [memForm_foldl, Module.releaseBaseFrames_memForm, Module.releaseBank_memForm]

@[simp] theorem execBaseShareFree_keepsForm {s : State} {id : ℕ} (h : s.mod.MemForm) :
    KeepsForm (execBaseShareFree id s) := by
  unfold execBaseShareFree
  apply State.run_keepsForm
  grind [Module.withBase_memForm, Module.finish_memForm, Module.freeBase_memForm]

end Sys2Proof.Machine
end

