-- ==== Sys2Proof/Proofs/FormStartUp.lean ====
section
/-! The canonical form of DRAM and Hold is kept by grants, tenancies, start-up, translation, register access, the sideband and the scalar tiles. -/

namespace Sys2Proof.Machine

variable {m : Module}

/-! ### GrantOps.lean -/

@[simp] theorem Module.returnCluster_memForm {c : ℕ} (h : m.MemForm) : (m.returnCluster c).MemForm := by
  unfold Module.returnCluster
  simp [h]

@[simp] theorem Module.shedCluster_memForm {t : Ten} (h : m.MemForm) : (m.shedCluster t).MemForm := by
  unfold Module.shedCluster
  grind [Module.startMove_memForm]

@[simp] theorem Module.fitClusters_memForm {t : Ten} (h : m.MemForm) : (m.fitClusters t).MemForm := by
  unfold Module.fitClusters
  grind [memForm_foldl, Module.setAssign_memForm, Module.returnCluster_memForm, Module.shedCluster_memForm,
    Module.mirrorTen_memForm]

@[simp] theorem Module.moveRun_memForm {src dst n : ℕ} (h : m.MemForm) : (m.moveRun src dst n).MemForm := by
  unfold Module.moveRun
  simp [h]

theorem Module.growRun_memForm {first n : ℕ} {m' : Module} (h : m.MemForm) (e : m.growRun first n = some m') :
    m'.MemForm := by
  unfold Module.growRun at e
  grind [Module.fillRun_memForm]

@[simp] theorem Module.growExtent_memForm {t : Ten} {cur new : ℕ} (h : m.MemForm) :
    (m.growExtent t cur new).MemForm := by
  unfold Module.growExtent
  grind [Module.drawn_memForm, Module.moveRun_memForm, Module.growRun_memForm, Module.setExtent_memForm]

@[simp] theorem Module.shrinkExtent_memForm {t : Ten} {want x : ℕ} (h : m.MemForm) :
    (m.shrinkExtent t want x).MemForm := by
  induction x generalizing m t want with
  | zero => exact h
  | succ n ih =>
    unfold Module.shrinkExtent
    grind [Module.releaseBank_memForm, Module.setExtent_memForm]

@[simp] theorem Module.fitHold_memForm {t : Ten} (h : m.MemForm) : (m.fitHold t).MemForm := by
  unfold Module.fitHold
  grind [Module.growExtent_memForm, Module.shrinkExtent_memForm]

@[simp] theorem Module.markPending_memForm {t : Ten} (h : m.MemForm) : (m.markPending t).MemForm := h

@[simp] theorem Module.fitGrant_memForm {t : Ten} (h : m.MemForm) : (m.fitGrant t).MemForm := by
  unfold Module.fitGrant
  grind [Module.useEntry_memForm, Module.markPending_memForm, Module.fitHold_memForm, Module.fitClusters_memForm,
    Module.notice_memForm]

/-! ### Tenancy.lean -/

@[simp] theorem Module.tenCmd_memForm {t : Ten} {f : Module → Module} (hf : ∀ m, m.MemForm → (f m).MemForm)
    (h : m.MemForm) : (m.tenCmd t f).MemForm := by
  unfold Module.tenCmd
  grind [Module.raise_memForm, Module.setFld_memForm]

@[simp] theorem Module.tenResult_memForm {v : ℕ} (h : m.MemForm) : (m.tenResult v).MemForm := h

@[simp] theorem Module.setBusy_memForm (h : m.MemForm) : m.setBusy.MemForm := h

@[simp] theorem Module.setTenState_memForm {t : Ten} {v : ℕ} (h : m.MemForm) : (m.setTenState t v).MemForm := h

@[simp] theorem Module.pairFailed_memForm {t : Ten} (h : m.MemForm) : (m.pairFailed t).MemForm := by
  unfold Module.pairFailed
  grind [memForm_foldl, Module.raise_memForm, Module.useEntry_memForm]

@[simp] theorem Module.openTenancy_memForm {t : Ten} (h : m.MemForm) : (m.openTenancy t).MemForm := by
  unfold Module.openTenancy
  grind [Module.setTenState_memForm, Module.setFld_memForm, Module.notice_memForm, Module.openLedger_memForm,
    Module.tenResult_memForm, Module.markPending_memForm]

@[simp] theorem Module.createTen_memForm {ten : Ten} (h : m.MemForm) : (m.createTen ten).MemForm := by
  unfold Module.createTen
  grind [Module.tenCmd_memForm, Module.tenResult_memForm, Module.when_memForm, Module.pairFailed_memForm,
    Module.fitHold_memForm, Module.fitClusters_memForm, Module.setBusy_memForm, Module.setTenState_memForm,
      Module.openTenancy_memForm]

@[simp] theorem execCreate_keepsForm {s : State} {ten : Ten} (h : s.mod.MemForm) : KeepsForm (execCreate ten s) := by
  unfold execCreate
  apply State.run_keepsForm
  grind [Module.createTen_memForm]

@[simp] theorem execEntropyHealthy_keepsForm {s : State} (h : s.mod.MemForm) : KeepsForm (execEntropyHealthy s) := by
  unfold execEntropyHealthy
  apply State.run_keepsForm
  grind [Module.setFlag_memForm, Module.openTenancy_memForm]

@[simp] theorem Module.commandReset_memForm {ten : Ten} (h : m.MemForm) : (m.commandReset ten).MemForm := by
  unfold Module.commandReset
  grind [Module.tenCmd_memForm, Module.tenResult_memForm, Module.latChanged_memForm, Module.tenReset_memForm]

@[simp] theorem execTenancyReset_keepsForm {s : State} {ten : Ten} (h : s.mod.MemForm) :
    KeepsForm (execTenancyReset ten s) := by
  unfold execTenancyReset
  apply State.run_keepsForm
  grind [Module.commandReset_memForm]

@[simp] theorem Module.destroyTen_memForm {ten : Ten} (h : m.MemForm) : (m.destroyTen ten).MemForm := by
  unfold Module.destroyTen
  grind [memForm_foldl, Module.tenCmd_memForm, Module.tenResult_memForm, Module.setTenState_memForm,
    Module.setBusy_memForm, Module.tenReset_memForm, Module.revokeBase_memForm, Module.latChanged_memForm,
      Module.finalLedger_memForm]

@[simp] theorem execDestroy_keepsForm {s : State} {ten : Ten} (h : s.mod.MemForm) :
    KeepsForm (execDestroy ten s) := by
  unfold execDestroy
  apply State.run_keepsForm
  grind [Module.destroyTen_memForm]

@[simp] theorem Module.returnBanks_memForm {t : Ten} (h : m.MemForm) : (m.returnBanks t).MemForm := by
  unfold Module.returnBanks
  grind [memForm_foldl, Module.releaseBank_memForm, Module.setExtent_memForm]

@[simp] theorem Module.returnFrames_memForm {t : Ten} (h : m.MemForm) : (m.returnFrames t).MemForm := by
  unfold Module.returnFrames
  grind [memForm_foldl, Module.scrubFrame_memForm, Module.freeFrame_memForm]

@[simp] theorem Module.returnCounters_memForm {t : Ten} (h : m.MemForm) : (m.returnCounters t).MemForm := by
  unfold Module.returnCounters
  grind [memForm_foldl, Module.setReg_memForm, Module.setFld_memForm]

@[simp] theorem execTeardownScrubDone_keepsForm {s : State} {ten : Ten} (h : s.mod.MemForm) :
    KeepsForm (execTeardownScrubDone ten s) := by
  unfold execTeardownScrubDone
  apply State.run_keepsForm
  grind [memForm_foldl, Module.returnCluster_memForm, Module.returnCounters_memForm, Module.returnFrames_memForm,
    Module.returnBanks_memForm, Module.setReg_memForm, Module.tenResult_memForm, Module.mirrorTen_memForm]

@[simp] theorem Module.thaw_memForm {t : Ten} (h : m.MemForm) : (m.thaw t).MemForm := by
  unfold Module.thaw
  simp [h]

@[simp] theorem Module.writeGrant_memForm {reg : RegId} {ten : Ten} {value : Word64} (h : m.MemForm) :
    (m.writeGrant reg ten value).MemForm := by
  unfold Module.writeGrant
  grind [Module.raise_memForm, Module.when_memForm, Module.thaw_memForm, Module.setReg_memForm,
    Module.latChanged_memForm, Module.fitGrant_memForm, Module.notice_memForm]

@[simp] theorem execTenGrantWrite_keepsForm {s : State} {reg : RegId} {ten : Ten} {value : Word64}
    (h : s.mod.MemForm) : KeepsForm (execTenGrantWrite reg ten value s) := by
  unfold execTenGrantWrite
  apply State.run_keepsForm
  grind [Module.writeGrant_memForm]

@[simp] theorem execGrantPendingFill_keepsForm {s : State} {ten : Ten} (h : s.mod.MemForm) :
    KeepsForm (execGrantPendingFill ten s) := by
  unfold execGrantPendingFill
  apply State.run_keepsForm
  grind [Module.fitGrant_memForm]

@[simp] theorem execFunctionLevelReset_keepsForm {s : State} {f : Func} (h : s.mod.MemForm) :
    KeepsForm (execFunctionLevelReset f s) := by
  unfold execFunctionLevelReset
  apply State.run_keepsForm
  grind [Module.trainLink_memForm, Module.mReset_memForm, Module.latChanged_memForm, Module.tenReset_memForm,
    Module.resetRegs_memForm]

@[simp] theorem execLedgerIntervalEnd_keepsForm {s : State} (h : s.mod.MemForm) :
    KeepsForm (execLedgerIntervalEnd s) := by
  unfold execLedgerIntervalEnd
  apply State.run_keepsForm
  grind [Module.closeLedger_memForm]

@[simp] theorem execLedgerRecordWrite_keepsForm {s : State} (h : s.mod.MemForm) :
    KeepsForm (execLedgerRecordWrite s) := by
  unfold execLedgerRecordWrite
  apply State.run_keepsForm
  grind [Module.drainCarry_memForm, Module.writeLedger_memForm]

/-! ### Startup.lean -/

@[simp] theorem Module.pReset_memForm : m.pReset.MemForm := by
  unfold Module.pReset
  grind [Module.blank_memForm, Module.setFld_memForm, Module.setFlag_memForm, Module.raise_memForm]

@[simp] theorem execPowerOn_keepsForm {s : State} (h : s.mod.MemForm) : KeepsForm (execPowerOn s) := by
  unfold execPowerOn
  apply State.run_keepsForm
  grind [Module.pReset_memForm]

@[simp] theorem execUndervoltage_keepsForm {s : State} (h : s.mod.MemForm) : KeepsForm (execUndervoltage s) := by
  unfold execUndervoltage
  apply State.run_keepsForm
  grind [Module.setPhase_memForm, Module.setFlag_memForm]

@[simp] theorem Module.failStartup_memForm (h : m.MemForm) : m.failStartup.MemForm := h

@[simp] theorem Module.eepromFails_memForm (h : m.MemForm) : m.eepromFails.MemForm := by
  unfold Module.eepromFails
  grind [Module.raise_memForm, Module.setFld_memForm, Module.addFld_memForm, Module.drawn_memForm]

@[simp] theorem execTrimsLoaded_keepsForm {s : State} (h : s.mod.MemForm) : KeepsForm (execTrimsLoaded s) := by
  unfold execTrimsLoaded
  apply State.run_keepsForm
  grind [Module.when_memForm, Module.eepromFails_memForm]

@[simp] theorem execRailsRegulated_keepsForm {s : State} (h : s.mod.MemForm) : KeepsForm (execRailsRegulated s) := by
  unfold execRailsRegulated
  apply State.run_keepsForm
  grind [Module.failStartup_memForm, Module.setPhase_memForm]

@[simp] theorem execRailFault_keepsForm {s : State} (h : s.mod.MemForm) : KeepsForm (execRailFault s) := by
  unfold execRailFault
  apply State.run_keepsForm
  grind [Module.raise_memForm, Module.failStartup_memForm]

@[simp] theorem Module.loadCluster_memForm {c : ℕ} (h : m.MemForm) : (m.loadCluster c).MemForm := by
  unfold Module.loadCluster
  grind [Module.countSpares_memForm, Module.setFld_memForm]

@[simp] theorem Module.loadBadMap_memForm {key bad : ℕ} (h : m.MemForm) : (m.loadBadMap key bad).MemForm := by
  unfold Module.loadBadMap
  grind [Module.setReg_memForm, Module.raise_memForm, Module.setFld_memForm]

@[simp] theorem Module.loadRecords_memForm (h : m.MemForm) : m.loadRecords.MemForm := by
  unfold Module.loadRecords
  grind [memForm_foldl, Module.setRowMap_memForm, Module.loadCluster_memForm, Module.loadBadMap_memForm]

@[simp] theorem Module.trainMapOut_memForm {ch : ℕ} (h : m.MemForm) : (m.trainMapOut ch).MemForm := by
  unfold Module.trainMapOut
  grind [Module.setFld_memForm, Module.raise_memForm, Module.formPatches_memForm]

@[simp] theorem Module.endTraining_memForm (h : m.MemForm) : m.endTraining.MemForm := by
  unfold Module.endTraining
  grind [memForm_foldl, Module.setFld_memForm, Module.failStartup_memForm, Module.raise_memForm,
    Module.trainMapOut_memForm, Module.loadRecords_memForm]

@[simp] theorem execDramTrainingDone_keepsForm {s : State} {failing : List (Fin 384)} (h : s.mod.MemForm) :
    KeepsForm (execDramTrainingDone failing s) := by
  unfold execDramTrainingDone
  apply State.run_keepsForm
  grind [Module.endTraining_memForm]

@[simp] theorem execStartupZeroingDone_keepsForm {s : State} (h : s.mod.MemForm) :
    KeepsForm (execStartupZeroingDone s) := by
  unfold execStartupZeroingDone
  apply State.run_keepsForm
  grind [Module.setFld_memForm, Module.setReg_memForm, Module.setFlag_memForm, Module.openLedger_memForm,
    Module.setPhase_memForm, Module.sendLtr_memForm]

@[simp] theorem Module.registerReset_memForm {value : Word} (h : m.MemForm) : (m.registerReset value).MemForm := by
  unfold Module.registerReset
  split <;> simp [h]

@[simp] theorem execReset_keepsForm {s : State} {value : Word} (h : s.mod.MemForm) :
    KeepsForm (execReset value s) := by
  unfold execReset
  apply State.run_keepsForm
  grind [Module.registerReset_memForm]

@[simp] theorem execResetN_keepsForm {s : State} (h : s.mod.MemForm) : KeepsForm (execResetN s) := by
  unfold execResetN
  apply State.run_keepsForm
  grind [Module.trainLink_memForm, Module.mReset_memForm]

@[simp] theorem execPerstN_keepsForm {s : State} (h : s.mod.MemForm) : KeepsForm (execPerstN s) := by
  unfold execPerstN
  apply State.run_keepsForm
  grind [Module.mReset_memForm]

@[simp] theorem execPfFlr_keepsForm {s : State} : KeepsForm (execPfFlr s) := by
  unfold execPfFlr
  apply State.run_keepsForm
  grind [Module.trainLink_memForm, Module.mReset_memForm]

/-! ### Translation.lean -/

@[simp] theorem Module.allocRequest_memForm {ten v : ℕ} (h : m.MemForm) : (m.allocRequest ten v).MemForm := by
  unfold Module.allocRequest
  simp only
  split
  · next m' hg =>
    have hm : m'.MemForm := by
      split at hg
      · cases hg
      · exact Module.allocFrame_memForm h hg
      · exact Module.allocRun_memForm h hg
    simp [hm]
  · simp [h]

@[simp] theorem Module.askFrames_memForm {f : Func} {ten : Ten} {value : Word} (h : m.MemForm) :
    (m.askFrames f ten value).MemForm := by
  unfold Module.askFrames
  grind [Module.guardTen_memForm, Module.allocRequest_memForm]

@[simp] theorem execXltAllocReq_keepsForm {s : State} {f : Func} {ten : Ten} {value : Word} (h : s.mod.MemForm) :
    KeepsForm (execXltAllocReq f ten value s) := by
  unfold execXltAllocReq
  apply State.run_keepsForm
  grind [Module.askFrames_memForm]

@[simp] theorem Module.abandonFrame_memForm {f : ℕ} (h : m.MemForm) : (m.abandonFrame f).MemForm := by
  unfold Module.abandonFrame
  grind [memForm_foldl, Module.abandonMigration_memForm]

@[simp] theorem Module.freeOne_memForm {ten f : ℕ} (h : m.MemForm) : (m.freeOne ten f).MemForm := by
  unfold Module.freeOne
  grind [Module.probe_memForm, Module.quarantine_memForm, Module.raise_memForm, Module.freeFrame_memForm,
    Module.captureFree_memForm, Module.abandonFrame_memForm, Module.violation_memForm]

@[simp] theorem Module.xltFree_memForm {f : Func} {ten : Ten} {value : Word64} (h : m.MemForm) :
    (m.xltFree f ten value).MemForm := by
  unfold Module.xltFree
  grind [memForm_foldl, Module.guardTen_memForm, Module.raise_memForm, Module.freeOne_memForm]

@[simp] theorem execXltFree_keepsForm {s : State} {f : Func} {ten : Ten} {value : Word64} (h : s.mod.MemForm) :
    KeepsForm (execXltFree f ten value s) := by
  unfold execXltFree
  apply State.run_keepsForm
  grind [Module.xltFree_memForm]

@[simp] theorem execFrameScrubDone_keepsForm {s : State} {frame : BitVec 23} (h : s.mod.MemForm) :
    KeepsForm (execFrameScrubDone frame s) := by
  unfold execFrameScrubDone
  apply State.run_keepsForm
  grind [Module.scrubFrame_memForm]

@[simp] theorem Module.xltInval_memForm {f : Func} {ten : Ten} {value : Word64} (h : m.MemForm) :
    (m.xltInval f ten value).MemForm := by
  unfold Module.xltInval
  grind [Module.guardTen_memForm, Module.uncachePages_memForm, Module.setFld_memForm]

@[simp] theorem execXltInval_keepsForm {s : State} {f : Func} {ten : Ten} {value : Word64} (h : s.mod.MemForm) :
    KeepsForm (execXltInval f ten value s) := by
  unfold execXltInval
  apply State.run_keepsForm
  grind [Module.xltInval_memForm]

@[simp] theorem Module.writeRoot_memForm {f : Func} {ten : Ten} {value : Word64} (h : m.MemForm) :
    (m.writeRoot f ten value).MemForm := by
  unfold Module.writeRoot
  grind [Module.guardTen_memForm, Module.writePair_memForm]

@[simp] theorem execXltTenRootWrite_keepsForm {s : State} {f : Func} {ten : Ten} {value : Word64} (h : s.mod.MemForm) :
    KeepsForm (execXltTenRootWrite f ten value s) := by
  unfold execXltTenRootWrite
  apply State.run_keepsForm
  grind [Module.writeRoot_memForm]

/-! ### RegisterAccess.lean -/

@[simp] theorem Module.latch_memForm {f : Func} {r : RegId} {i j : ℕ} (h : m.MemForm) : (m.latch f r i j).MemForm := h

@[simp] theorem execSnapshotRead_keepsForm {s : State} {f : Func} {reg : RegId} {i j : ℕ} {wide : Bool}
    (h : s.mod.MemForm) : KeepsForm (execSnapshotRead f reg i j wide s) := by
  unfold execSnapshotRead
  apply State.run_keepsForm
  grind [Module.latch_memForm]

@[simp] theorem Module.onGroup_memForm {g : ℕ} {act : Block → Module → Module}
    (hact : ∀ b m, m.MemForm → (act b m).MemForm) (h : m.MemForm) : (m.onGroup g act).MemForm := by
  unfold Module.onGroup
  split
  · exact hact _ m h
  · exact h

@[simp] theorem Module.writeClCtl_memForm {c : Cluster} {v : ℕ} (h : m.MemForm) : (m.writeClCtl c v).MemForm := by
  unfold Module.writeClCtl
  grind [Module.when_memForm, Module.failSite_memForm, Module.eraseRepair_memForm, Module.askRetire_memForm]

@[simp] theorem Module.writePreempt_memForm {v : ℕ} (h : m.MemForm) : (m.writePreempt v).MemForm := by
  unfold Module.writePreempt
  split <;> simp [h]

@[simp] theorem Module.writeTenCmd_memForm {v : ℕ} (h : m.MemForm) : (m.writeTenCmd v).MemForm := by
  unfold Module.writeTenCmd
  split <;> simp [h]

@[simp] theorem Module.writeChCtl_memForm {f : Func} {c v : ℕ} (h : m.MemForm) : (m.writeChCtl f c v).MemForm := by
  unfold Module.writeChCtl
  grind [Module.guardCh_memForm, Module.pauseFerry_memForm, Module.resumeCh_memForm, Module.retryCh_memForm,
    Module.skipCh_memForm]

@[simp] theorem Module.writeClkCtl_memForm {mask v : ℕ} (h : m.MemForm) : (m.writeClkCtl mask v).MemForm := by
  unfold Module.writeClkCtl
  grind [Module.storeFields_memForm, Module.when_memForm, Module.reselect_memForm, Module.leaveHold_memForm]

@[simp] theorem Module.writeSynCtl_memForm {mask v : ℕ} (h : m.MemForm) : (m.writeSynCtl mask v).MemForm := by
  unfold Module.writeSynCtl
  grind [memForm_foldl, Module.storeFields_memForm, Module.flushSync_memForm]

@[simp] theorem Module.writePortCtl_memForm {p : Fin 6} {mask v : ℕ} (h : m.MemForm) :
    (m.writePortCtl p mask v).MemForm := by
  unfold Module.writePortCtl
  grind [Module.storeFields_memForm, Module.disablePort_memForm, Module.when_memForm, Module.startRetrain_memForm]

@[simp] theorem Module.writeCvnCfg_memForm {k mask v : ℕ} (h : m.MemForm) : (m.writeCvnCfg k mask v).MemForm := by
  unfold Module.writeCvnCfg
  grind [Module.storeFields_memForm, Module.enableCaravan_memForm, Module.mirrorFill_memForm, Module.setFlag_memForm]

@[simp] theorem Module.writePmcSel_memForm {i mask v : ℕ} (h : m.MemForm) : (m.writePmcSel i mask v).MemForm := h

@[simp] theorem Module.writePaired_memForm {f : Func} {r : RegId} {t : Ten} {wide : Bool} {v : Word64}
    (h : m.MemForm) : (m.writePaired f r t wide v).MemForm := by
  unfold Module.writePaired
  grind [Module.raise_memForm, Module.writeRoot_memForm, Module.writeJob_memForm, Module.writeGrant_memForm]

@[simp] theorem Module.writeReg_memForm {f : Func} {r : RegId} {k j mask v : ℕ} (h : m.MemForm) :
    (m.writeReg f r k j mask v).MemForm := by
  unfold Module.writeReg
  grind [Module.writeClCtl_memForm, Module.guardTen_memForm, Module.actOn_memForm, Module.peekWaybill_memForm,
    Module.guardRing_memForm, Module.writeCvnCfg_memForm, Module.consumeTo_memForm, Module.mapOut_memForm,
      Module.selectMap_memForm, Module.selectBank_memForm, Module.askFrames_memForm, Module.xltFree_memForm,
        Module.xltInval_memForm, Module.katGo_memForm, Module.writePortCtl_memForm, Module.writeDisc_memForm,
          Module.writeSynCtl_memForm, Module.writePreempt_memForm, Module.abortWrite_memForm,
            Module.writeRingCfg_memForm, Module.reshape_memForm, Module.storeFields_memForm,
              Module.hcpRequest_memForm, Module.writeLtr_memForm, Module.writeTenCmd_memForm,
                Module.writeChCtl_memForm, Module.onGroup_memForm, Module.clearSevere_memForm,
                  Module.clearErrors_memForm, Module.writeTwin_memForm, Module.writeSigSel_memForm,
                    Module.writeClkCtl_memForm, Module.when_memForm, Module.wake_memForm, Module.latChanged_memForm,
                      Module.rtcLoad_memForm, Module.registerReset_memForm, Module.writePmcSel_memForm]

@[simp] theorem execRegisterWrite_keepsForm {s : State} {f : Func} {reg : RegId} {i j : ℕ} {high wide : Bool}
    {value : Word64} (h : s.mod.MemForm) : KeepsForm (execRegisterWrite f reg i j high wide value s) := by
  unfold execRegisterWrite
  apply State.run_keepsForm
  grind [Module.guardTen_memForm, Module.writePaired_memForm, Module.writeReg_memForm]

/-! ### Sideband.lean -/

@[simp] theorem Module.onSide_memForm {act : Module → Module} (hact : ∀ m, m.MemForm → (act m).MemForm)
    (h : m.MemForm) :
    (m.onSide act).MemForm := by
  unfold Module.onSide
  split
  · exact hact m h
  · exact h

@[simp] theorem Module.sideBad_memForm (h : m.MemForm) : m.sideBad.MemForm := by
  unfold Module.sideBad
  simp [h]

@[simp] theorem Module.sidePec_memForm (h : m.MemForm) : m.sidePec.MemForm := by
  unfold Module.sidePec
  simp [h]

@[simp] theorem Module.setLastErr_memForm {b : Bool} (h : m.MemForm) : (m.setLastErr b).MemForm := h

@[simp] theorem Module.setPointer_memForm {p : ℕ} (h : m.MemForm) : (m.setPointer p).MemForm := h

@[simp] theorem Module.takeWrite_memForm {bs : List Byte} {pec : Option Byte} {f : Module → Module}
    (hf : ∀ m, m.MemForm → (f m).MemForm) (h : m.MemForm) : (m.takeWrite bs pec f).MemForm := by
  unfold Module.takeWrite
  grind [Module.probe_memForm, Module.sidePec_memForm, Module.send_memForm]

@[simp] theorem Module.sideAnswer_memForm {head data : List Byte} (h : m.MemForm) :
    (m.sideAnswer head data).MemForm := h

@[simp] theorem execBadCommand_keepsForm {s : State} {code : Byte} (h : s.mod.MemForm) :
    KeepsForm (execBadCommand code s) := by
  unfold execBadCommand
  apply State.run_keepsForm
  grind [Module.onSide_memForm, Module.sideBad_memForm, Module.send_memForm]

@[simp] theorem execBusClear_keepsForm {s : State} (h : s.mod.MemForm) : KeepsForm (execBusClear s) := by
  unfold execBusClear
  apply State.run_keepsForm
  grind

@[simp] theorem execStuckSda_keepsForm {s : State} (h : s.mod.MemForm) : KeepsForm (execStuckSda s) := by
  unfold execStuckSda
  apply State.run_keepsForm
  grind [Module.raise_memForm, Module.addFld_memForm]

@[simp] theorem execSclTimeout_keepsForm {s : State} (h : s.mod.MemForm) : KeepsForm (execSclTimeout s) := by
  unfold execSclTimeout
  apply State.run_keepsForm
  grind [Module.raise_memForm, Module.addFld_memForm]

@[simp] theorem execAssign_keepsForm {s : State} {assignIn : Bool} {value : Byte} {pec : Option Byte}
    (h : s.mod.MemForm) : KeepsForm (execAssign assignIn value s pec) := by
  unfold execAssign
  apply State.run_keepsForm
  grind [Module.send_memForm, Module.raise_memForm, Module.takeWrite_memForm, Module.setFlag_memForm,
    Module.setFld_memForm]

@[simp] theorem execUnassign_keepsForm {s : State} {pec : Option Byte} (h : s.mod.MemForm) :
    KeepsForm (execUnassign s pec) := by
  unfold execUnassign
  apply State.run_keepsForm
  grind [Module.send_memForm, Module.takeWrite_memForm, Module.setReg_memForm]

@[simp] theorem execAlertResponse_keepsForm {s : State} (h : s.mod.MemForm) : KeepsForm (execAlertResponse s) := by
  unfold execAlertResponse
  apply State.run_keepsForm
  grind [Module.onSide_memForm, Module.sideAnswer_memForm, Module.send_memForm]

@[simp] theorem execRead_keepsForm {s : State} (h : s.mod.MemForm) : KeepsForm (execRead s) := by
  unfold execRead
  apply State.run_keepsForm
  grind [Module.onSide_memForm, Module.sideAnswer_memForm, Module.setPointer_memForm]

@[simp] theorem execPointer_keepsForm {s : State} {value : Word} {pec : Option Byte} (h : s.mod.MemForm) :
    KeepsForm (execPointer value s pec) := by
  unfold execPointer
  apply State.run_keepsForm
  grind [Module.onSide_memForm, Module.takeWrite_memForm, Module.setPointer_memForm]

@[simp] theorem Module.sideWrite_memForm {v : ℕ} (h : m.MemForm) : (m.sideWrite v).MemForm := by
  unfold Module.sideWrite
  grind [Module.sideBad_memForm, Module.setLastErr_memForm, Module.setPointer_memForm]

@[simp] theorem execWrite_keepsForm {s : State} {value : Word64} {pec : Option Byte} (h : s.mod.MemForm) :
    KeepsForm (execWrite value pec s) := by
  unfold execWrite
  apply State.run_keepsForm
  grind [Module.onSide_memForm, Module.takeWrite_memForm, Module.sideWrite_memForm]

@[simp] theorem execStatus_keepsForm {s : State} (h : s.mod.MemForm) : KeepsForm (execStatus s) := by
  unfold execStatus
  apply State.run_keepsForm
  grind [Module.onSide_memForm, Module.setLastErr_memForm, Module.sideAnswer_memForm]

@[simp] theorem execWake_keepsForm {s : State} (h : s.mod.MemForm) : KeepsForm (execWake s) := by
  unfold execWake
  apply State.run_keepsForm
  grind [Module.onSide_memForm, Module.wake_memForm]

@[simp] theorem execMirrorRefresh_keepsForm {s : State} (h : s.mod.MemForm) : KeepsForm (execMirrorRefresh s) := by
  unfold execMirrorRefresh
  apply State.run_keepsForm
  grind [Module.sideWrites_memForm]

@[simp] theorem Module.pollFailed_memForm (h : m.MemForm) : m.pollFailed.MemForm := by
  unfold Module.pollFailed
  grind [Module.setFlag_memForm, Module.addFld_memForm, Module.raise_memForm, Module.setFld_memForm]

@[simp] theorem execLocalBusPoll_keepsForm {s : State} {ok : Bool} {energy : Word64} {watts : BitVec 16}
    (h : s.mod.MemForm) : KeepsForm (execLocalBusPoll ok energy watts s) := by
  unfold execLocalBusPoll
  apply State.run_keepsForm
  grind [Module.setReg_memForm, Module.setFlag_memForm, Module.setFld_memForm, Module.pollFailed_memForm]

/-! ### TileBay.lean -/

@[simp] theorem execLd_keepsForm {s : State} {t : TileId} {w : Fields} (h : s.mod.MemForm) :
    KeepsForm (execLd t w s) := by
  unfold execLd
  exact State.tileOp_keepsForm h fun cx m hm => by simp [hm]

@[simp] theorem execSt_keepsForm {s : State} {t : TileId} {w : Fields} (h : s.mod.MemForm) :
    KeepsForm (execSt t w s) := by
  unfold execSt
  exact State.tileOp_keepsForm h fun cx m hm => by simp [hm]

@[simp] theorem execLda_keepsForm {s : State} {t : TileId} {w : Fields} (h : s.mod.MemForm) :
    KeepsForm (execLda t w s) := by
  unfold execLda
  exact State.tileOp_keepsForm h fun cx m hm => by simp [hm]

@[simp] theorem execSta_keepsForm {s : State} {t : TileId} {w : Fields} (h : s.mod.MemForm) :
    KeepsForm (execSta t w s) := by
  unfold execSta
  exact State.tileOp_keepsForm h fun cx m hm => by simp [hm]

@[simp] theorem execLdv_keepsForm {s : State} {t : TileId} {w : Fields} (h : s.mod.MemForm) :
    KeepsForm (execLdv t w s) := by
  unfold execLdv
  exact State.tileOp_keepsForm h fun cx m hm => by simp [hm]

@[simp] theorem execStv_keepsForm {s : State} {t : TileId} {w : Fields} (h : s.mod.MemForm) :
    KeepsForm (execStv t w s) := by
  unfold execStv
  exact State.tileOp_keepsForm h fun cx m hm => by simp [hm]

/-! ### TileScalar.lean -/

@[simp] theorem execAlu_keepsForm {s : State} {t : TileId} {w : Fields} (h : s.mod.MemForm) :
    KeepsForm (execAlu t w s) := by
  unfold execAlu
  exact State.tileOp_keepsForm h fun cx m hm => by simp [hm]

@[simp] theorem execAlui_keepsForm {s : State} {t : TileId} {w : Fields} (h : s.mod.MemForm) :
    KeepsForm (execAlui t w s) := by
  unfold execAlui
  exact State.tileOp_keepsForm h fun cx m hm => by simp [hm]

@[simp] theorem execMovi_keepsForm {s : State} {t : TileId} {w : Fields} (h : s.mod.MemForm) :
    KeepsForm (execMovi t w s) := by
  unfold execMovi
  exact State.tileOp_keepsForm h fun cx m hm => by simp [hm]

@[simp] theorem execMul_keepsForm {s : State} {t : TileId} {w : Fields} (h : s.mod.MemForm) :
    KeepsForm (execMul t w s) := by
  unfold execMul
  exact State.tileOp_keepsForm h fun cx m hm => by simp [hm]

@[simp] theorem execDiv_keepsForm {s : State} {t : TileId} {w : Fields} (h : s.mod.MemForm) :
    KeepsForm (execDiv t w s) := by
  unfold execDiv
  exact State.tileOp_keepsForm h fun cx m hm => by simp [hm]

@[simp] theorem execAadd_keepsForm {s : State} {t : TileId} {w : Fields} (h : s.mod.MemForm) :
    KeepsForm (execAadd t w s) := by
  unfold execAadd
  exact State.tileOp_keepsForm h fun cx m hm => by simp [hm]

@[simp] theorem execAaddi_keepsForm {s : State} {t : TileId} {w : Fields} (h : s.mod.MemForm) :
    KeepsForm (execAaddi t w s) := by
  unfold execAaddi
  exact State.tileOp_keepsForm h fun cx m hm => by simp [hm]

@[simp] theorem execAset_keepsForm {s : State} {t : TileId} {w : Fields} (h : s.mod.MemForm) :
    KeepsForm (execAset t w s) := by
  unfold execAset
  exact State.tileOp_keepsForm h fun cx m hm => by simp [hm]

@[simp] theorem execAlo_keepsForm {s : State} {t : TileId} {w : Fields} (h : s.mod.MemForm) :
    KeepsForm (execAlo t w s) := by
  unfold execAlo
  exact State.tileOp_keepsForm h fun cx m hm => by simp [hm]

@[simp] theorem execAhi_keepsForm {s : State} {t : TileId} {w : Fields} (h : s.mod.MemForm) :
    KeepsForm (execAhi t w s) := by
  unfold execAhi
  exact State.tileOp_keepsForm h fun cx m hm => by simp [hm]

@[simp] theorem execSrd_keepsForm {s : State} {t : TileId} {w : Fields} (h : s.mod.MemForm) :
    KeepsForm (execSrd t w s) := by
  unfold execSrd
  refine State.tileOp_keepsForm h fun cx m hm => ?_
  grind [exceptForm_ok, exceptForm_error, Module.haltTile_memForm, Module.drawn_memForm, Module.each_memForm]

@[simp] theorem execPtos_keepsForm {s : State} {t : TileId} {w : Fields} (h : s.mod.MemForm) :
    KeepsForm (execPtos t w s) := by
  unfold execPtos
  exact State.tileOp_keepsForm h fun cx m hm => by simp [hm]

@[simp] theorem execStop_keepsForm {s : State} {t : TileId} {w : Fields} (h : s.mod.MemForm) :
    KeepsForm (execStop t w s) := by
  unfold execStop
  exact State.tileOp_keepsForm h fun cx m hm => by simp [hm]

end Sys2Proof.Machine
end

