-- ==== Sys2Proof/Proofs/MemoryFormKept.lean ====
section
/-! Every instruction keeps the canonical form of DRAM and Hold. -/

namespace Sys2Proof.Machine

/-- Every instruction that answers a next state keeps the canonical form of the two memories. -/
theorem exec_keepsForm {s : State} (h : s.mod.MemForm) : ∀ i : Instr, KeepsForm (exec i s)
  | .nop .. => execNop_keepsForm h
  | .halt .. => execHalt_keepsForm h
  | .br .. => execBr_keepsForm h
  | .bCc .. => execBCc_keepsForm h
  | .call .. => execCall_keepsForm h
  | .jr .. => execJr_keepsForm h
  | .loop .. => execLoop_keepsForm h
  | .alu .. => execAlu_keepsForm h
  | .alui .. => execAlui_keepsForm h
  | .movi .. => execMovi_keepsForm h
  | .mul .. => execMul_keepsForm h
  | .div .. => execDiv_keepsForm h
  | .aadd .. => execAadd_keepsForm h
  | .aaddi .. => execAaddi_keepsForm h
  | .aset .. => execAset_keepsForm h
  | .alo .. => execAlo_keepsForm h
  | .ahi .. => execAhi_keepsForm h
  | .srd .. => execSrd_keepsForm h
  | .ptos .. => execPtos_keepsForm h
  | .stop .. => execStop_keepsForm h
  | .ld .. => execLd_keepsForm h
  | .st .. => execSt_keepsForm h
  | .lda .. => execLda_keepsForm h
  | .sta .. => execSta_keepsForm h
  | .ldv .. => execLdv_keepsForm h
  | .stv .. => execStv_keepsForm h
  | .hld .. => execHld_keepsForm h
  | .hst .. => execHst_keepsForm h
  | .xld .. => execXld_keepsForm h
  | .xst .. => execXst_keepsForm h
  | .waitt .. => execWaitt_keepsForm h
  | .transferComplete .. => execTransferComplete_keepsForm h
  | .hldBcastRendezvous .. => execHldBcastRendezvous_keepsForm h
  | .send .. => execSend_keepsForm h
  | .sendv .. => execSendv_keepsForm h
  | .recv .. => execRecv_keepsForm h
  | .recvv .. => execRecvv_keepsForm h
  | .mark .. => execMark_keepsForm h
  | .bar .. => execBar_keepsForm h
  | .barrierPhaseComplete .. => execBarrierPhaseComplete_keepsForm h
  | .flag .. => execFlag_keepsForm h
  | .flagw .. => execFlagw_keepsForm h
  | .cmt .. => execCmt_keepsForm h
  | .cmtStep .. => execCmtStep_keepsForm h
  | .clusterCommit .. => execClusterCommit_keepsForm h
  | .clusterRelease .. => execClusterRelease_keepsForm h
  | .stepKill .. => execStepKill_keepsForm h
  | .wld .. => execWld_keepsForm h
  | .wflip .. => execWflip_keepsForm h
  | .vers .. => execVers_keepsForm h
  | .tollRelease .. => execTollRelease_keepsForm h
  | .mma .. => execMma_keepsForm h
  | .qscan .. => execQscan_keepsForm h
  | .qcvt .. => execQcvt_keepsForm h
  | .tsmv .. => execTsmv_keepsForm h
  | .adrain .. => execAdrain_keepsForm h
  | .afl .. => execAfl_keepsForm h
  | .vfop .. => execVfop_keepsForm h
  | .vfma .. => execVfma_keepsForm h
  | .viop .. => execViop_keepsForm h
  | .vfun .. => execVfun_keepsForm h
  | .vcmp .. => execVcmp_keepsForm h
  | .vsel .. => execVsel_keepsForm h
  | .vcvt .. => execVcvt_keepsForm h
  | .vred .. => execVred_keepsForm h
  | .vsplat .. => execVsplat_keepsForm h
  | .vget .. => execVget_keepsForm h
  | .vput .. => execVput_keepsForm h
  | .vperm .. => execVperm_keepsForm h
  | .viota .. => execViota_keepsForm h
  | .rnu .. => execRnu_keepsForm h
  | .rnb .. => execRnb_keepsForm h
  | .icacheMissFill .. => execIcacheMissFill_keepsForm h
  | .tileFault .. => execTileFault_keepsForm h
  | .repairSparePowered .. => execRepairSparePowered_keepsForm h
  | .repairSelftestDone .. => execRepairSelftestDone_keepsForm h
  | .repairBayShiftDone .. => execRepairBayShiftDone_keepsForm h
  | .repairRefillDone .. => execRepairRefillDone_keepsForm h
  | .repairRecordAppend .. => execRepairRecordAppend_keepsForm h
  | .retire .. => execRetire_keepsForm h
  | .clearFieldRepair .. => execClearFieldRepair_keepsForm h
  | .failSite .. => execFailSite_keepsForm h
  | .deckPacketArrive .. => execDeckPacketArrive_keepsForm h
  | .xReservationGrant .. => execXReservationGrant_keepsForm h
  | .xSegmentInject .. => execXSegmentInject_keepsForm h
  | .bridgeChannelFail .. => execBridgeChannelFail_keepsForm h
  | .dckStallExpire .. => execDckStallExpire_keepsForm h
  | .routeLoad .. => execRouteLoad_keepsForm h
  | .routeStart .. => execRouteStart_keepsForm h
  | .routeStop .. => execRouteStop_keepsForm h
  | .plcRemeasure .. => execPlcRemeasure_keepsForm h
  | .balancePeriod => execBalancePeriod_keepsForm h
  | .clusterMoveStart .. => execClusterMoveStart_keepsForm h
  | .clusterMoveReassign .. => execClusterMoveReassign_keepsForm h
  | .clusterMoveComplete .. => execClusterMoveComplete_keepsForm h
  | .itemDispense .. => execItemDispense_keepsForm h
  | .schedOpDispense .. => execSchedOpDispense_keepsForm h
  | .weightLoad .. => execWeightLoad_keepsForm h
  | .weightSwap .. => execWeightSwap_keepsForm h
  | .leanBuild .. => execLeanBuild_keepsForm h
  | .baseShareLoad .. => execBaseShareLoad_keepsForm h
  | .baseShareGrant .. => execBaseShareGrant_keepsForm h
  | .baseShareRevoke .. => execBaseShareRevoke_keepsForm h
  | .baseShareFree .. => execBaseShareFree_keepsForm h
  | .layerStaged .. => execLayerStaged_keepsForm h
  | .streamFetchComplete .. => execStreamFetchComplete_keepsForm h
  | .swapFrontFix .. => execSwapFrontFix_keepsForm h
  | .swapComplete .. => execSwapComplete_keepsForm h
  | .swapTimeout .. => execSwapTimeout_keepsForm h
  | .layerDeadlineExpire .. => execLayerDeadlineExpire_keepsForm h
  | .waybillSubmit .. => execWaybillSubmit_keepsForm h
  | .stepBuild .. => execStepBuild_keepsForm h
  | .stepProcess .. => execStepProcess_keepsForm h
  | .seqendDeferredWrite .. => execSeqendDeferredWrite_keepsForm h
  | .pauseKeep .. => execPauseKeep_keepsForm h
  | .pauseDrop .. => execPauseDrop_keepsForm h
  | .abort .. => execAbort_keepsForm h
  | .slotReceive .. => execSlotReceive_keepsForm h
  | .wblPeekSel .. => execWblPeekSel_keepsForm h
  | .caravanRingEnable .. => execCaravanRingEnable_keepsForm h
  | .caravanRingConsume .. => execCaravanRingConsume_keepsForm h
  | .rewardEntry .. => execRewardEntry_keepsForm h
  | .caravanStallExpire .. => execCaravanStallExpire_keepsForm h
  | .batchBuild .. => execBatchBuild_keepsForm h
  | .batchWaitExpire .. => execBatchWaitExpire_keepsForm h
  | .learnStepHoldRelease .. => execLearnStepHoldRelease_keepsForm h
  | .memPatrolExpire => execMemPatrolExpire_keepsForm h
  | .mapOut .. => execMapOut_keepsForm h
  | .mapOutComplete .. => execMapOutComplete_keepsForm h
  | .holdPatrolExpire => execHoldPatrolExpire_keepsForm h
  | .hldMapSel .. => execHldMapSel_keepsForm h
  | .hldBankSel .. => execHldBankSel_keepsForm h
  | .skewWindowEnd => execSkewWindowEnd_keepsForm h
  | .migrationStart .. => execMigrationStart_keepsForm h
  | .migrationPassDone .. => execMigrationPassDone_keepsForm h
  | .xltAllocReq .. => execXltAllocReq_keepsForm h
  | .xltFree .. => execXltFree_keepsForm h
  | .frameScrubDone .. => execFrameScrubDone_keepsForm h
  | .xltInval .. => execXltInval_keepsForm h
  | .xltTenRootWrite .. => execXltTenRootWrite_keepsForm h
  | .entropyTestFail => execEntropyTestFail_keepsForm h
  | .rngSelftestPeriod .. => execRngSelftestPeriod_keepsForm h
  | .katGo .. => execKatGo_keepsForm h
  | .katDone => execKatDone_keepsForm h
  | .flitReceive .. => execFlitReceive_keepsForm h
  | .syncMarkMiss .. => execSyncMarkMiss_keepsForm h
  | .nakReceive .. => execNakReceive_keepsForm h
  | .laneFail .. => execLaneFail_keepsForm h
  | .retrainStart .. => execRetrainStart_keepsForm h
  | .retrainComplete .. => execRetrainComplete_keepsForm h
  | .linkUp .. => execLinkUp_keepsForm h
  | .portDown .. => execPortDown_keepsForm h
  | .retrain .. => execRetrain_keepsForm h
  | .portDisable .. => execPortDisable_keepsForm h
  | .packetForward .. => execPacketForward_keepsForm h
  | .packetDeliver .. => execPacketDeliver_keepsForm h
  | .viaJobWrite .. => execViaJobWrite_keepsForm h
  | .discoveryLinkFlit _ _ _ _ _ dims => execDiscoveryLinkFlit_keepsForm (dims := dims) h
  | .syncMessageReceive .. => execSyncMessageReceive_keepsForm h
  | .groupOpComplete .. => execGroupOpComplete_keepsForm h
  | .collectiveOnce .. => execCollectiveOnce_keepsForm h
  | .collectiveBind .. => execCollectiveBind_keepsForm h
  | .collectiveUnbind .. => execCollectiveUnbind_keepsForm h
  | .boundInstanceStart .. => execBoundInstanceStart_keepsForm h
  | .chunkReceive .. => execChunkReceive_keepsForm h
  | .resendRequest .. => execResendRequest_keepsForm h
  | .instanceComplete .. => execInstanceComplete_keepsForm h
  | .colTimeoutExpire .. => execColTimeoutExpire_keepsForm h
  | .doorbell .. => execDoorbell_keepsForm h
  | .ringEnable .. => execRingEnable_keepsForm h
  | .ringDisable .. => execRingDisable_keepsForm h
  | .hcpReq .. => execHcpReq_keepsForm h
  | .commandTake .. => execCommandTake_keepsForm h
  | .commandComplete .. => execCommandComplete_keepsForm h
  | .commandKill .. => execCommandKill_keepsForm h
  | .fence .. => execFence_keepsForm h
  | .timestamp .. => execTimestamp_keepsForm h
  | .queTenCmdAbort .. => execQueTenCmdAbort_keepsForm h
  | .suspend .. => execSuspend_keepsForm h
  | .resume .. => execResume_keepsForm h
  | .functionLevelReset .. => execFunctionLevelReset_keepsForm h
  | .hifLtrWrite .. => execHifLtrWrite_keepsForm h
  | .create .. => execCreate_keepsForm h
  | .destroy .. => execDestroy_keepsForm h
  | .tenancyReset .. => execTenancyReset_keepsForm h
  | .tenGrantWrite .. => execTenGrantWrite_keepsForm h
  | .grantPendingFill .. => execGrantPendingFill_keepsForm h
  | .teardownScrubDone .. => execTeardownScrubDone_keepsForm h
  | .ledgerIntervalEnd => execLedgerIntervalEnd_keepsForm h
  | .ledgerRecordWrite => execLedgerRecordWrite_keepsForm h
  | .ferryDescriptor .. => execFerryDescriptor_keepsForm h
  | .ferryDescriptorComplete .. => execFerryDescriptorComplete_keepsForm h
  | .pause .. => execPause_keepsForm h
  | .drain .. => execDrain_keepsForm h
  | .dmaResume .. => execDmaResume_keepsForm h
  | .retry .. => execRetry_keepsForm h
  | .skip .. => execSkip_keepsForm h
  | .remoteWrite .. => execRemoteWrite_keepsForm h
  | .remoteReadReq .. => execRemoteReadReq_keepsForm h
  | .remoteReadData .. => execRemoteReadData_keepsForm h
  | .remoteAck .. => execRemoteAck_keepsForm h
  | .remoteNak .. => execRemoteNak_keepsForm h
  | .dmaTimeoutExpire .. => execDmaTimeoutExpire_keepsForm h
  | .errClassWindowExpire .. => execErrClassWindowExpire_keepsForm h
  | .errSevereClear .. => execErrSevereClear_keepsForm h
  | .errClear .. => execErrClear_keepsForm h
  | .errInjectInv .. => execErrInjectInv_keepsForm h
  | .complementScrub => execComplementScrub_keepsForm h
  | .forceStop .. => execForceStop_keepsForm h
  | .intTwinWrite .. => execIntTwinWrite_keepsForm h
  | .sigPop .. => execSigPop_keepsForm h
  | .patternRun .. => execPatternRun_keepsForm h
  | .ckptBuddyOnce .. => execCkptBuddyOnce_keepsForm h
  | .ckptBuddyPeriodic .. => execCkptBuddyPeriodic_keepsForm h
  | .ckptBuddyStop .. => execCkptBuddyStop_keepsForm h
  | .ckptDurable .. => execCkptDurable_keepsForm h
  | .ckptRestore .. => execCkptRestore_keepsForm h
  | .captureHold .. => execCaptureHold_keepsForm h
  | .shardData .. => execShardData_keepsForm h
  | .manifest .. => execManifest_keepsForm h
  | .ckpAck .. => execCkpAck_keepsForm h
  | .ckpNak .. => execCkpNak_keepsForm h
  | .readReq .. => execReadReq_keepsForm h
  | .readData .. => execReadData_keepsForm h
  | .restoreInstall .. => execRestoreInstall_keepsForm h
  | .ckpTimeoutExpire .. => execCkpTimeoutExpire_keepsForm h
  | .clockMonitorWindow .. => execClockMonitorWindow_keepsForm h
  | .pllUnlock => execPllUnlock_keepsForm h
  | .holdExit => execHoldExit_keepsForm h
  | .reselect => execReselect_keepsForm h
  | .tileStepEval .. => execTileStepEval_keepsForm h
  | .thermalTrip => execThermalTrip_keepsForm h
  | .idleDwellExpire => execIdleDwellExpire_keepsForm h
  | .powerStateEntryDone => execPowerStateEntryDone_keepsForm h
  | .wakeEvent => execWakeEvent_keepsForm h
  | .forceS0 => execForceS0_keepsForm h
  | .powerStateExitDone => execPowerStateExitDone_keepsForm h
  | .rtcLoad => execRtcLoad_keepsForm h
  | .rtcTick => execRtcTick_keepsForm h
  | .rtcOscFail => execRtcOscFail_keepsForm h
  | .powerOn => execPowerOn_keepsForm h
  | .trimsLoaded => execTrimsLoaded_keepsForm h
  | .railsRegulated => execRailsRegulated_keepsForm h
  | .crystalQualifyTimeout => execCrystalQualifyTimeout_keepsForm h
  | .dramTrainingDone .. => execDramTrainingDone_keepsForm h
  | .startupZeroingDone => execStartupZeroingDone_keepsForm h
  | .railFault => execRailFault_keepsForm h
  | .reset .. => execReset_keepsForm h
  | .resetN => execResetN_keepsForm h
  | .perstN => execPerstN_keepsForm h
  | .undervoltage => execUndervoltage_keepsForm h
  | .assign .. => execAssign_keepsForm h
  | .unassign .. => execUnassign_keepsForm h
  | .pointer .. => execPointer_keepsForm h
  | .read => execRead_keepsForm h
  | .write .. => execWrite_keepsForm h
  | .status => execStatus_keepsForm h
  | .wake => execWake_keepsForm h
  | .alertResponse => execAlertResponse_keepsForm h
  | .stuckSda => execStuckSda_keepsForm h
  | .sclTimeout => execSclTimeout_keepsForm h
  | .mirrorRefresh => execMirrorRefresh_keepsForm h
  | .localBusPoll .. => execLocalBusPoll_keepsForm h
  | .snapshotRead _ _ _ _ wide => execSnapshotRead_keepsForm (wide := wide) h
  | .registerWrite .. => execRegisterWrite_keepsForm h
  | .syncMarkAccept .. => execSyncMarkAccept_keepsForm h
  | .failedFrame .. => execFailedFrame_keepsForm h
  | .retrainSignal .. => execRetrainSignal_keepsForm h
  | .pcieLinkDown => execPcieLinkDown_keepsForm h
  | .cplTimeout .. => execCplTimeout_keepsForm h
  | .pfFlr => execPfFlr_keepsForm
  | .perstNRelease => execPerstNRelease_keepsForm h
  | .entropyHealthy => execEntropyHealthy_keepsForm h
  | .errAliveStop .. => execErrAliveStop_keepsForm h
  | .badCommand .. => execBadCommand_keepsForm h
  | .busClear => execBusClear_keepsForm h

/-- Settles O36: the step runs the instruction,
  and each instruction's meaning is made of operations that keep the form. -/
theorem stepKeepsMemoryForm : Obligations.StepKeepsMemoryForm := by
  unfold Obligations.StepKeepsMemoryForm
  intro c rest m s' hd hh e
  obtain ⟨hd', hh'⟩ := exec_keepsForm (s := ⟨m, rest⟩) ⟨hd, hh⟩ c s' e
  exact ⟨hd', hh'⟩

end Sys2Proof.Machine
end

