-- ==== Sys2Proof/Proofs/Reset.lean ====
section
/-! The state after reset. -/

namespace Sys2Proof.Machine

/-- Settles O6: every table of the reset state is empty, so each read falls back to its default. -/
theorem resetState : Obligations.ResetState := by
  unfold Obligations.ResetState
  exact ⟨fun _ _ _ => rfl, fun _ => rfl, fun _ => rfl, rfl, rfl, fun _ => rfl, fun _ => rfl, rfl, rfl, rfl⟩

end Sys2Proof.Machine
end

