-- ==== Sys2Proof/Proofs/CommandRules.lean ====
section
/-! What a command that runs on the module leaves, and the arithmetic of fields and pairs. -/

namespace Sys2Proof.Machine

/-! ### Commands that run on the module -/

/-- A command that runs a meaning on the module leaves what the meaning makes of it. -/
theorem yields_of_run {c : Instr} {s : State} {f : Module → Module} {m : Module} (hc : exec c s = s.run f)
    (hm : f s.mod = m) : Yields c s m := by
  unfold Yields
  rw [hc, State.run_eq, hm]

theorem completes_of_yields {c : Instr} {s : State} {m : Module} {P : Module → Prop} (h : Yields c s m)
    (hP : P m.settle) : Completes c s P := ⟨_, h, rfl, hP⟩

/-! ### Registers beside those that are written -/

theorem RegsKept.of_regs {m m' : Module} {refs : List RegRef} (h : m'.regs = m.regs) : RegsKept m m' refs := by
  intro r i j _ _ _
  simp only [Module.reg, h]

theorem OtherRegsKept.setReg {m : Module} {r : RegId} {i j : ℕ} (v : Word64) (hi : i < 2 ^ 24) (hj : j < 2 ^ 16) :
    OtherRegsKept m (m.setReg r i j v) [r] := by
  intro r' i' j' hi' hj' hn
  exact m.reg_setReg_ne v hi hj hi' hj' fun ⟨h, _⟩ => hn (by simp [h])

theorem RegsKept.setFld {m : Module} {f : Field} {i j : ℕ} (v : ℕ) (hi : i < 2 ^ 24) (hj : j < 2 ^ 16) :
    RegsKept m (m.setFld f i j v) [(f.reg, i, j)] :=
  RegsKept.setReg m _ hi hj (List.mem_singleton.2 rfl)

/-- A counter that has room rises by what is added. -/
theorem Module.fld_addFld_self {m : Module} {f : Field} (hf : f.fits) {i j n : ℕ} (h : m.fld f i j + n < 2 ^ f.width) :
    (m.addFld f i j n).fld f i j = m.fld f i j + n := by
  have : satAdd (2 ^ f.width - 1) (m.fld f i j) n = m.fld f i j + n := by
    unfold satAdd
    omega
  unfold Module.addFld
  rw [m.fld_setFld_self hf, this, Nat.mod_eq_of_lt h]

/-! ### Paired words (R7) -/

theorem pairWord_toNat (v : ℕ) : (pairWord v).toNat = v % 2 ^ 32 + (2 ^ 32 - 1 - v % 2 ^ 32) * 2 ^ 32 := by
  unfold pairWord
  rw [BitVec.toNat_ofNat, Nat.mod_eq_of_lt]
  omega

theorem pairWord_low (v : ℕ) : (pairWord v).toNat % 2 ^ 32 = v % 2 ^ 32 := by
  rw [pairWord_toNat]
  omega

@[simp] theorem pairOk_pairWord (v : ℕ) : pairOk (pairWord v) = true := by
  have h : ∀ n, n % 2 ^ 32 = v % 2 ^ 32 → pairWord n = pairWord v := by
    intro n hn
    unfold pairWord
    rw [hn]
  simp [pairOk, h _ (pairWord_low v)]

theorem bitsAt_mod {v lo w n : ℕ} (h : lo + w ≤ n) : bitsAt (v % 2 ^ n) lo w = bitsAt v lo w := by
  obtain ⟨k, rfl⟩ := Nat.exists_eq_add_of_le h
  unfold bitsAt
  rw [Nat.pow_add, Nat.pow_add, Nat.mul_assoc, Nat.mod_mul_right_div_self, Nat.mod_mul_right_mod]

theorem testBit_bitsAt (v lo w k : ℕ) : (bitsAt v lo w).testBit k = (decide (k < w) && v.testBit (lo + k)) := by
  unfold bitsAt
  rw [Nat.testBit_mod_two_pow, Nat.testBit_div_two_pow, Nat.add_comm]

/-- A field that lies inside a mask is not changed by it. -/
theorem bitsAt_and {v mask lo w : ℕ} (h : bitsAt mask lo w = 2 ^ w - 1) : bitsAt (v &&& mask) lo w = bitsAt v lo w := by
  apply Nat.eq_of_testBit_eq
  intro k
  have hk := congrArg (·.testBit k) h
  simp only [testBit_bitsAt, Nat.testBit_two_pow_sub_one] at hk
  rw [testBit_bitsAt, testBit_bitsAt, Nat.testBit_and]
  cases hd : decide (k < w) <;> simp_all

/-- What a paired register stores of a field of its value half. -/
theorem bitsAt_pairValue {r : RegId} {v : Word64} {lo w : ℕ} (hw : lo + w ≤ 32)
    (hm : bitsAt (r.maskOf .pw) lo w = 2 ^ w - 1) : bitsAt (r.pairValue v).toNat lo w = bitsAt v.toNat lo w := by
  unfold RegId.pairValue
  rw [← bitsAt_mod hw, pairWord_low, bitsAt_mod hw, bitsAt_and hm, bitsAt_mod hw]

@[simp] theorem pairOk_pairValue (r : RegId) (v : Word64) : pairOk (r.pairValue v) = true := pairOk_pairWord _

theorem bitsAt_one_eq (v lo : ℕ) : (bitsAt v lo 1 == 1) = v.testBit lo := by
  rw [Nat.testBit_eq_decide_div_mod_eq]
  unfold bitsAt
  rw [Nat.pow_one]
  rfl

/-! ### Guards of the tenancy and armed injections -/

theorem Module.guardTen_of_mayAct {m : Module} {f : Func} {t : Ten} (h : m.mayAct f t = true) (act : Module → Module) :
    m.guardTen f t act = act m := by
  simp [Module.guardTen, h]

end Sys2Proof.Machine
end

