-- ==== Sys2Proof/Proofs/Translation.lean ====
section
/-! Frame allocation, free, scrub, invalidation and the translation root (O39). -/

namespace Sys2Proof.Machine

/-! ### Allocation (R266) -/

theorem xltAllocReq_yields {f : Func} {ten : Ten} {s : State} {value : Word} (ht : ten ≠ house) (ha : s.mod.mayAct f ten = true)
    (hs : bitsAt value.toNat 0 2 = 0) (hn : bitsAt value.toNat 2 1 = 0) :
    Yields (.xltAllocReq f ten value) s (match s.mod.allocFrame ten.val none with
        | some (n, m) => m.setReg .XLT_TEN_ALLOC_RESULT ten.val 0 (BitVec.ofNat 64 (2 ^ 63 + n))
        | none => s.mod.setReg .XLT_TEN_ALLOC_RESULT ten.val 0 (BitVec.ofNat 64 (2 ^ 63 + 2 ^ 62))) := by
  refine yields_of_run (f := fun m => m.askFrames f ten value) rfl ?_
  simp only [Module.askFrames, if_neg ht, Module.guardTen_of_mayAct ha]
  unfold Module.allocRequest
  simp [hs, hn, sizeFrames] <;> rfl

/-! ### Frees (R269, R270) -/

/-- A free by a tenancy that may act, with no check of the translation to be injected, frees the frames of its range. -/
theorem xltFree_yields {f : Func} {ten : Ten} {s : State} {value : Word64} {m : Module} (ht : ten ≠ house)
    (ha : s.mod.mayAct f ten = true) (hm : (match sizeFrames (bitsAt value.toNat 23 2) with
      | none => s.mod.raise Kind.XLT_BAD_FREE ten.val (bitsAt value.toNat 0 23)
      | some n => (List.range n).foldl (fun m k => m.freeOne ten.val (bitsAt value.toNat 0 23 + k)) s.mod) = m) :
    Yields (.xltFree f ten value) s m := by
  refine yields_of_run (f := fun m => m.xltFree f ten value) rfl ?_
  simp only [Module.xltFree, if_neg ht, Module.guardTen_of_mayAct ha]
  exact hm

theorem xltFree_yields_reserved {f : Func} {ten : Ten} {s : State} {value : Word64} (ht : ten ≠ house)
    (ha : s.mod.mayAct f ten = true) (hs : bitsAt value.toNat 23 2 = 3) :
    Yields (.xltFree f ten value) s (s.mod.raise Kind.XLT_BAD_FREE ten.val (bitsAt value.toNat 0 23)) :=
  xltFree_yields ht ha (by rw [hs]; rfl)

theorem xltFree_yields_one {f : Func} {ten : Ten} {s : State} {value : Word64} {m : Module} (ht : ten ≠ house)
    (ha : s.mod.mayAct f ten = true) (hs : bitsAt value.toNat 23 2 = 0)
    (hm : s.mod.freeOne ten.val (bitsAt value.toNat 0 23) = m) : Yields (.xltFree f ten value) s m :=
  xltFree_yields ht ha (by rw [hs]; exact hm)

section FreeOne
variable {m : Module} {ten f : ℕ}

theorem Module.freeOne_pair (hi : m.reg .ERR_INJECT_INV Block.xlt.group = 0) (hw : tagOk (m.tag f) = false) :
    m.freeOne ten f = (m.raise Kind.XLT_PAIR ten f).quarantine f := by
  unfold Module.freeOne
  simp only [m.probe_calm (k := Kind.XLT_PAIR) hi, hw]
  rfl

theorem Module.freeOne_unowned (hi : m.reg .ERR_INJECT_INV Block.xlt.group = 0) (hw : tagOk (m.tag f) = true)
    (ha : tagAlloc (m.tag f) = false) : m.freeOne ten f = m.raise Kind.XLT_UNOWNED_FREE ten f := by
  unfold Module.freeOne
  simp only [m.probe_calm (k := Kind.XLT_PAIR) hi, hw, ha]
  rfl

theorem Module.freeOne_own (hi : m.reg .ERR_INJECT_INV Block.xlt.group = 0) (hw : tagOk (m.tag f) = true)
    (ha : tagAlloc (m.tag f) = true) (ho : m.ownsFrame ten f = true) :
    m.freeOne ten f = ((m.abandonFrame f).captureFree ten f).freeFrame f := by
  unfold Module.freeOne
  simp only [m.probe_calm (k := Kind.XLT_PAIR) hi, hw, ha, ho]
  rfl

theorem Module.freeOne_foreign (hi : m.reg .ERR_INJECT_INV Block.xlt.group = 0) (hw : tagOk (m.tag f) = true)
    (ha : tagAlloc (m.tag f) = true) (ho : m.ownsFrame ten f = false) :
    m.freeOne ten f = (m.violation ten .xlt).raise Kind.XLT_FOREIGN_FREE ten f := by
  unfold Module.freeOne
  simp only [m.probe_calm (k := Kind.XLT_PAIR) hi, hw, ha, ho]
  rfl

end FreeOne

/-! ### What a free of one's own frame leaves -/

theorem Module.abandonFrame_eq_self {m : Module} (h : ∀ p ∈ m.routes, p.2.migrations = []) (f : ℕ) : m.abandonFrame f = m := by
  unfold Module.abandonFrame
  refine List.foldlRecOn (motive := fun m' => m' = m) _ _ rfl fun m' hm p hp => ?_
  rw [h p hp, hm]
  rfl

theorem Module.captureFree_eq_self {m : Module} {ten : ℕ} (h : Map.get? m.captures ten = none) (f : ℕ) :
    m.captureFree ten f = m := by
  unfold Module.captureFree
  rw [h]

/-- The tag of a frame that is to be scrubbed: neither ALLOC nor the upper bits, the rest as it was. -/
theorem Module.tag_freeFrame (m : Module) (f k : ℕ) :
    (m.freeFrame f).tag k = if f = k then tagWord (0x4000 + (m.tag f).toNat % 0x4000) else m.tag k :=
  Map.get_set freeTag m.tags f k _

theorem Module.dram_freeFrame (m : Module) (f : ℕ) : (m.freeFrame f).dram = m.dram := rfl

theorem tagWord_toNat (v : ℕ) : (tagWord v).toNat = v % 65536 + (65535 - v % 65536) * 65536 := by
  unfold tagWord
  rw [BitVec.toNat_ofNat, Nat.mod_eq_of_lt]
  omega

@[simp] theorem tagOk_tagWord (v : ℕ) : tagOk (tagWord v) = true := by
  have h : ∀ n, n % 65536 = v % 65536 → tagWord n = tagWord v := by
    intro n hn
    unfold tagWord
    rw [hn]
  have hl : (tagWord v).toNat % 65536 = v % 65536 := by
    rw [tagWord_toNat]
    omega
  simp [tagOk, h _ hl]

/-- The low half of a tag word holds the tag. -/
theorem getLsbD_tagWord {v k : ℕ} (hk : k < 16) : (tagWord v).getLsbD k = v.testBit k := by
  have e : (tagWord v).toNat % 2 ^ 16 = v % 2 ^ 16 := by
    rw [tagWord_toNat]
    omega
  have := congrArg (·.testBit k) e
  rw [← BitVec.testBit_toNat]
  simpa only [Nat.testBit_mod_two_pow, hk, decide_true, Bool.true_and] using this

theorem tagTen_tagWord (v : ℕ) : tagTen (tagWord v) = bitsAt v 0 7 := by
  unfold tagTen bitsAt
  rw [tagWord_toNat]
  omega

theorem tagScrub_freed (w : ℕ) : tagScrub (tagWord (0x4000 + w % 0x4000)) = true := by
  unfold tagScrub
  rw [getLsbD_tagWord (by decide), Nat.testBit_eq_decide_div_mod_eq]
  simp only [decide_eq_true_eq]
  omega

theorem tagAlloc_freed (w : ℕ) : tagAlloc (tagWord (0x4000 + w % 0x4000)) = false := by
  unfold tagAlloc
  rw [getLsbD_tagWord (by decide), Nat.testBit_eq_decide_div_mod_eq]
  simp only [decide_eq_false_iff_not]
  omega

theorem tagTen_freed (w : Word) : tagTen (tagWord (0x4000 + w.toNat % 0x4000)) = tagTen w := by
  rw [tagTen_tagWord]
  unfold tagTen bitsAt
  omega

/-! ### The scrub (R270) -/

theorem Module.tag_zeroFrame_self (m : Module) (f : ℕ) : (m.zeroFrame f).tag f = freeTag := by
  have h : (m.zeroFrame f).tag f = (Map.get? (Map.erase m.tags f) f).getD freeTag := rfl
  rw [h, Map.get?_erase, if_pos rfl]
  rfl

theorem Module.bill_regs (m : Module) (ten : ℕ) (g : Ledger → Ledger) : (m.bill ten g).regs = m.regs := by
  unfold Module.bill
  split <;> rfl

theorem Module.bill_hold (m : Module) (ten : ℕ) (g : Ledger → Ledger) : (m.bill ten g).hold = m.hold := by
  unfold Module.bill
  split <;> rfl

theorem Module.bill_tiles (m : Module) (ten : ℕ) (g : Ledger → Ledger) : (m.bill ten g).tiles = m.tiles := by
  unfold Module.bill
  split <;> rfl

theorem Module.zeroFrame_regs (m : Module) (f : ℕ) : (m.zeroFrame f).regs = m.regs := m.bill_regs 0 _

theorem Module.scrubFrame_of_none {m : Module} (h : m.patchDue = []) (f : ℕ) :
    m.scrubFrame f = (m.zeroFrame f).addFld Fld.XLT_POOL_FREE_FRAMES 0 0 := by
  have hp : (m.zeroFrame f).patchDue = m.patchDue := by
    unfold Module.zeroFrame Module.bill
    split <;> rfl
  unfold Module.scrubFrame
  simp only [hp, h]
  rfl

theorem frameScrubDone_scrubs {frame : BitVec 23} {s : State} (hw : tagOk (s.mod.tag frame.toNat) = true)
    (hs : tagScrub (s.mod.tag frame.toNat) = true) (ha : tagAlloc (s.mod.tag frame.toNat) = false) (hp : s.mod.patchDue = []) :
    Yields (.frameScrubDone frame) s ((s.mod.zeroFrame frame.toNat).addFld Fld.XLT_POOL_FREE_FRAMES 0 0) := by
  refine yields_of_run (f := fun m => if tagOk (m.tag frame.toNat) && tagScrub (m.tag frame.toNat)
    && !tagAlloc (m.tag frame.toNat) then m.scrubFrame frame.toNat else m) rfl ?_
  simp [hw, hs, ha, Module.scrubFrame_of_none hp]

theorem frameScrubDone_idle {frame : BitVec 23} {s : State} (hs : tagScrub (s.mod.tag frame.toNat) = false) :
    NoEffect (.frameScrubDone frame) s := by
  refine yields_of_run (f := fun m => if tagOk (m.tag frame.toNat) && tagScrub (m.tag frame.toNat)
    && !tagAlloc (m.tag frame.toNat) then m.scrubFrame frame.toNat else m) rfl ?_
  simp [hs]

/-- What the scrub of a frame leaves. -/
theorem scrubbed_frame (m : Module) (f : ℕ) :
    let m' := (m.zeroFrame f).addFld Fld.XLT_POOL_FREE_FRAMES 0 0
    m'.tag f = freeTag
      ∧ (∀ b, Mem.byte m'.dram b = if f * frameBytes ≤ b ∧ b < (f + 1) * frameBytes then 0 else Mem.byte m.dram b)
      ∧ (m.fld Fld.XLT_POOL_FREE_FRAMES < 2 ^ Fld.XLT_POOL_FREE_FRAMES.width - 1 →
          m'.fld Fld.XLT_POOL_FREE_FRAMES = m.fld Fld.XLT_POOL_FREE_FRAMES + 1)
      ∧ RegsKept m m' [(.XLT_POOL_FREE, 0, 0)] ∧ m'.hold = m.hold ∧ m'.tiles = m.tiles := by
  have hr : RegsKept m (m.zeroFrame f) [(.XLT_POOL_FREE, 0, 0)] := RegsKept.of_regs (m.zeroFrame_regs f)
  refine ⟨m.tag_zeroFrame_self f, fun b => ?_, fun h => ?_, hr.trans (RegsKept.setFld _ (by decide) (by decide)),
    m.bill_hold 0 _, m.bill_tiles 0 _⟩
  · have hz := Mem.byte_zero m.dram (f * frameBytes) frameBytes b
    rw [← Nat.succ_mul] at hz
    exact hz
  · have hf : (m.zeroFrame f).fld Fld.XLT_POOL_FREE_FRAMES = m.fld Fld.XLT_POOL_FREE_FRAMES := by
      simp only [Module.fld, Module.reg, m.zeroFrame_regs f]
    rw [Module.fld_addFld_self (by decide), hf]
    rw [hf]
    omega

/-! ### Invalidation (R264) -/

theorem Module.mem_uncachePages (m : Module) (ten page n : ℕ) (p : ℕ × Word64) :
    p ∈ (m.uncachePages ten page n).xcache
      ↔ p ∈ m.xcache ∧ ¬ (p.1 / 2 ^ 32 % 256 = ten ∧ page ≤ p.1 % 2 ^ 32 ∧ p.1 % 2 ^ 32 < page + n) := by
  unfold Module.uncachePages
  rw [List.mem_filter]
  simp
  omega

/-- The module after an invalidation, but for its count. -/
def Module.invalidated (m : Module) (ten n page : ℕ) : Module :=
  if n = 0 then m.uncachePages ten 0 (2 ^ 32) else m.uncachePages ten page n

theorem Module.invalidated_regs (m : Module) (ten n page : ℕ) : (m.invalidated ten n page).regs = m.regs := by
  unfold Module.invalidated
  split <;> rfl

theorem Module.invalidated_dram (m : Module) (ten n page : ℕ) : (m.invalidated ten n page).dram = m.dram := by
  unfold Module.invalidated
  split <;> rfl

theorem Module.mem_invalidated (m : Module) (ten n page : ℕ) (p : ℕ × Word64) :
    p ∈ (m.invalidated ten n page).xcache
      ↔ p ∈ m.xcache ∧ ¬ (p.1 / 2 ^ 32 % 256 = ten ∧ (n = 0 ∨ (page ≤ p.1 % 2 ^ 32 ∧ p.1 % 2 ^ 32 < page + n))) := by
  have hp : p.1 % 2 ^ 32 < 0 + 2 ^ 32 := by omega
  unfold Module.invalidated
  split
  · next h => simp only [Module.mem_uncachePages, h, hp, Nat.zero_le, true_or, and_true]
  · next h => simp only [Module.mem_uncachePages, h, false_or]

theorem xltInval_yields {f : Func} {ten : Ten} {s : State} {value : Word64} (ht : ten ≠ house) (ha : s.mod.mayAct f ten = true) :
    Yields (.xltInval f ten value) s
      ((s.mod.invalidated ten.val (bitsAt value.toNat 48 16) (bitsAt value.toNat 16 32)).setFld
        Fld.XLT_TEN_INVAL_DONE_COUNT ten.val 0 (s.mod.fld Fld.XLT_TEN_INVAL_DONE_COUNT ten.val + 1)) := by
  refine yields_of_run (f := fun m => m.xltInval f ten value) rfl ?_
  have hf : (s.mod.invalidated ten.val (bitsAt value.toNat 48 16) (bitsAt value.toNat 16 32)).fld
      Fld.XLT_TEN_INVAL_DONE_COUNT ten.val = s.mod.fld Fld.XLT_TEN_INVAL_DONE_COUNT ten.val := by
    simp only [Module.fld, Module.reg, Module.invalidated_regs]
  rw [← hf]
  simp only [Module.xltInval, if_neg ht, Module.guardTen_of_mayAct ha]
  rfl

theorem ten_lt (t : Ten) : t.val < 2 ^ 24 := by omega

/-- What an invalidation leaves. -/
theorem invalidated_cache (m : Module) (ten : Ten) (n page : ℕ) :
    let m' := (m.invalidated ten.val n page).setFld Fld.XLT_TEN_INVAL_DONE_COUNT ten.val 0
      (m.fld Fld.XLT_TEN_INVAL_DONE_COUNT ten.val + 1)
    (∀ p, p ∈ m'.xcache ↔ p ∈ m.xcache ∧ ¬ (p.1 / 2 ^ 32 % 256 = ten.val ∧ (n = 0
          ∨ (page ≤ p.1 % 2 ^ 32 ∧ p.1 % 2 ^ 32 < page + n))))
      ∧ RegsKept m m' [(.XLT_TEN_INVAL_DONE, ten.val, 0)] ∧ m'.dram = m.dram
      ∧ m'.fld Fld.XLT_TEN_INVAL_DONE_COUNT ten.val =
          (m.fld Fld.XLT_TEN_INVAL_DONE_COUNT ten.val + 1) % 2 ^ Fld.XLT_TEN_INVAL_DONE_COUNT.width := by
  have hr : RegsKept m (m.invalidated ten.val n page) [(.XLT_TEN_INVAL_DONE, ten.val, 0)] :=
    RegsKept.of_regs (m.invalidated_regs ten.val n page)
  exact ⟨m.mem_invalidated ten.val n page, hr.trans (RegsKept.setFld _ (ten_lt ten) (by decide)),
    m.invalidated_dram ten.val n page, Module.fld_setFld_self _ (by decide) _ _ _⟩

/-! ### The root (R7, R265) -/

theorem xltTenRootWrite_yields {f : Func} {ten : Ten} {s : State} {value : Word64} (ht : ten ≠ house)
    (ha : s.mod.mayAct f ten = true) :
    Yields (.xltTenRootWrite f ten value) s (s.mod.writePair .XLT_TEN_ROOT Kind.XLT_PAIR ten.val ten.val 0 value) := by
  refine yields_of_run (f := fun m => m.writeRoot f ten value) rfl ?_
  simp only [Module.writeRoot, if_neg ht, Module.guardTen_of_mayAct ha]

theorem Module.writePair_ok {m : Module} {r : RegId} {k : Kind} {ten i j : ℕ} {v : Word64} (h : pairOk v = true) :
    m.writePair r k ten i j v = m.setReg r i j (r.pairValue v) := by
  simp [Module.writePair, h]

theorem Module.writePair_bad {m : Module} {r : RegId} {k : Kind} {ten i j : ℕ} {v : Word64} (h : pairOk v = false) :
    m.writePair r k ten i j v = m.raise k ten i := by
  simp [Module.writePair, h]

/-- What an accepted root reads as. -/
theorem root_written (m : Module) (ten : Ten) (value : Word64) :
    let m' := m.setReg .XLT_TEN_ROOT ten.val 0 (RegId.XLT_TEN_ROOT.pairValue value)
    pairOk (m'.reg .XLT_TEN_ROOT ten.val) = true
      ∧ m'.fld Fld.XLT_TEN_ROOT_FRAME ten.val = bitsAt value.toNat 0 23
      ∧ m'.flag Fld.XLT_TEN_ROOT_ENABLE ten.val = value.getLsbD 31
      ∧ OtherRegsKept m m' [.XLT_TEN_ROOT] := by
  have hr : (m.setReg .XLT_TEN_ROOT ten.val 0 (RegId.XLT_TEN_ROOT.pairValue value)).reg .XLT_TEN_ROOT ten.val
      = RegId.XLT_TEN_ROOT.pairValue value := m.reg_setReg_self _ _ _ _
  refine ⟨?_, ?_, ?_, OtherRegsKept.setReg _ (ten_lt ten) (by decide)⟩
  · rw [hr, pairOk_pairValue]
  · exact (congrArg (fun w => bitsAt w.toNat 0 23) hr).trans (bitsAt_pairValue (by decide) (by decide))
  · rw [← BitVec.testBit_toNat, ← bitsAt_one_eq, ← bitsAt_pairValue (r := .XLT_TEN_ROOT) (by decide) (by decide)]
    exact congrArg (fun w => bitsAt w.toNat 31 1 == 1) hr

/-- Settles O39: each command runs one operation on the module, whose cases are the clauses. -/
theorem translationCommands : Obligations.TranslationCommands := by
  unfold Obligations.TranslationCommands
  intro f ten s ht ha
  refine ⟨fun _ hs hn => xltAllocReq_yields ht ha hs hn, fun value hi => ⟨xltFree_yields_reserved ht ha, fun hz => ?_⟩,
    fun frame => ⟨fun hw hs hal hp => ⟨_, frameScrubDone_scrubs hw hs hal hp, scrubbed_frame s.mod frame.toNat⟩,
      frameScrubDone_idle⟩,
    fun value => ⟨_, xltInval_yields ht ha, invalidated_cache s.mod ten _ _⟩, fun value => ⟨fun hp => ?_, fun hp => ?_⟩⟩
  · refine ⟨fun hw => ?_, fun hw hal => ?_, fun hw hal h1 h2 => ?_, fun hw hal h1 => ?_, fun hw hal h1 => ?_⟩
    · exact xltFree_yields_one ht ha hz (Module.freeOne_pair hi hw)
    · exact xltFree_yields_one ht ha hz (Module.freeOne_unowned hi hw hal)
    · have ho : s.mod.ownsFrame ten.val (bitsAt value.toNat 0 23) = true := by simp [Module.ownsFrame, hw, hal, h1, h2]
      have hy := xltFree_yields_one ht ha hz (Module.freeOne_own hi hw hal ho)
      refine ⟨hy, fun hm hc => completes_of_yields hy ?_⟩
      rw [Module.abandonFrame_eq_self hm, Module.captureFree_eq_self hc]
      have e := fun k => s.mod.tag_freeFrame (bitsAt value.toNat 0 23) k
      have e' := (e (bitsAt value.toNat 0 23)).trans (if_pos rfl)
      change tagScrub ((s.mod.freeFrame _).tag _) = true ∧ tagAlloc ((s.mod.freeFrame _).tag _) = false
        ∧ tagOk ((s.mod.freeFrame _).tag _) = true ∧ tagTen ((s.mod.freeFrame _).tag _) = ten.val ∧ _
      rw [e']
      exact ⟨tagScrub_freed _, tagAlloc_freed _, tagOk_tagWord _, (tagTen_freed _).trans h1,
        fun k hk => (e k).trans (if_neg hk.symm), rfl⟩
    · exact xltFree_yields_one ht ha hz (Module.freeOne_foreign hi hw hal (by
        simp [Module.ownsFrame, Option.isNone_eq_false_iff.2 h1]))
    · exact xltFree_yields_one ht ha hz (Module.freeOne_foreign hi hw hal (by simp [Module.ownsFrame, h1]))
  · have hy := xltTenRootWrite_yields (value := value) ht ha
    rw [Module.writePair_ok hp] at hy
    exact ⟨hy, completes_of_yields hy (root_written s.mod ten value)⟩
  · have hy := xltTenRootWrite_yields (value := value) ht ha
    rw [Module.writePair_bad hp] at hy
    exact hy

end Sys2Proof.Machine
end

