-- ==== Sys2Proof/Proofs/ErrorEvents.lean ====
section
/-! What an error event leaves of the status registers of the groups. -/

namespace Sys2Proof.Machine

/-! ### The status bits that an event sets (R402) -/

/-- The status registers of the error groups read as before. -/
def StatusKept (m m' : Module) : Prop := ∀ g, g < 2 ^ 24 → m'.reg .ERR_STATUS g = m.reg .ERR_STATUS g

theorem StatusKept.refl (m : Module) : StatusKept m m := fun _ _ => rfl

theorem StatusKept.trans {m m' m'' : Module} (h : StatusKept m m') (h' : StatusKept m' m'') : StatusKept m m'' :=
  fun g hg => (h' g hg).trans (h g hg)

theorem StatusKept.ite {m a b : Module} {c : Prop} [Decidable c] (ha : StatusKept m a) (hb : StatusKept m b) :
    StatusKept m (if c then a else b) := by split <;> assumption

theorem StatusKept.of_regs {m m' : Module} (h : m'.regs = m.regs) : StatusKept m m' := by
  intro g _
  simp only [Module.reg, h]

theorem StatusKept.setReg (m : Module) {r : RegId} {i j : ℕ} (v : Word64) (hr : r ≠ .ERR_STATUS) (hi : i < 2 ^ 24)
    (hj : j < 2 ^ 16) : StatusKept m (m.setReg r i j v) :=
  fun _ hg => m.reg_setReg_ne v hi hj hg (by decide) fun ⟨e, _⟩ => hr e.symm

theorem StatusKept.setFld (m : Module) {f : Field} {i j : ℕ} (v : ℕ) (hr : f.reg ≠ .ERR_STATUS) (hi : i < 2 ^ 24)
    (hj : j < 2 ^ 16) : StatusKept m (m.setFld f i j v) := StatusKept.setReg m _ hr hi hj

theorem StatusKept.drawn (m : Module) : StatusKept m m.drawn := StatusKept.of_regs rfl

theorem StatusKept.pfVector (m : Module) (vec : ℕ) : StatusKept m (m.pfVector vec) :=
  StatusKept.ite ((StatusKept.of_regs rfl).trans (StatusKept.setFld (m.send _) _ (by decide) (by decide) (by decide)))
    (StatusKept.of_regs rfl)

theorem StatusKept.addFld (m : Module) {f : Field} {i j n : ℕ} (hr : f.reg ≠ .ERR_STATUS) (hi : i < 2 ^ 24)
    (hj : j < 2 ^ 16) : StatusKept m (m.addFld f i j n) := by
  unfold Module.addFld
  exact StatusKept.setFld m _ hr hi hj

theorem StatusKept.pushSig (m : Module) (sig : List Byte) : StatusKept m (m.pushSig sig) := by
  have h : StatusKept m { m with sigs := m.sigs ++ [sig] } := StatusKept.of_regs rfl
  exact StatusKept.ite (h.trans (StatusKept.setFld _ _ (by decide) (by decide) (by decide)))
    (StatusKept.addFld m (by decide) (by decide) (by decide))

theorem StatusKept.latchFirst (m : Module) (k : Kind) (ten loc : ℕ) (inj : Bool) :
    StatusKept m (m.latchFirst k ten loc inj) := by
  have set : ∀ (m : Module) (f : Field) (v : ℕ), f.reg ≠ .ERR_STATUS → StatusKept m (m.setFld f k.block.group 0 v) :=
    fun m f v hr => StatusKept.setFld m v hr (Block.group_lt _) (by decide)
  unfold Module.latchFirst
  exact ((((((set _ _ _ (by decide)).trans (set _ _ _ (by decide))).trans (set _ _ _ (by decide))).trans
    (set _ _ _ (by decide))).trans (set _ _ _ (by decide))).trans (set _ _ _ (by decide))).trans (StatusKept.drawn _)

theorem StatusKept.countEvent (m : Module) (b : Block) : StatusKept m (m.countEvent b.group) :=
  StatusKept.ite (StatusKept.setFld m _ (by decide) (Block.group_lt b) (by decide))
    (StatusKept.setFld m _ (by decide) (Block.group_lt b) (by decide))

theorem StatusKept.makeSevere (m : Module) (k : Kind) : StatusKept m (m.makeSevere k) := by
  have h := StatusKept.setReg m (r := .ERR_SEVERE) (j := 0) (setBit (m.reg .ERR_SEVERE k.block.group) k.bit) (by decide)
    (Block.group_lt k.block) (by decide)
  unfold Module.makeSevere
  exact StatusKept.ite h (StatusKept.ite (StatusKept.trans (StatusKept.trans h (StatusKept.of_regs rfl)) (StatusKept.pfVector _ _))
    (StatusKept.trans h (StatusKept.of_regs rfl)))

theorem StatusKept.classify (m : Module) (k : Kind) : StatusKept m (m.classify k) :=
  StatusKept.ite (StatusKept.refl m) (StatusKept.ite (StatusKept.trans (StatusKept.of_regs rfl) (StatusKept.makeSevere _ k))
    (StatusKept.of_regs rfl))

/-- Recording an event sets its bit in its group and no other status bit. -/
theorem Module.status_record (m : Module) (k : Kind) (ten loc site : ℕ) (inj : Bool) {g : ℕ} (hg : g < 2 ^ 24) :
    (m.record k ten loc site inj).reg .ERR_STATUS g
      = if g = k.block.group then setBit (m.reg .ERR_STATUS g) k.bit else m.reg .ERR_STATUS g := by
  have hs : (m.setReg .ERR_STATUS k.block.group 0 (setBit (m.reg .ERR_STATUS k.block.group) k.bit)).reg .ERR_STATUS g
      = if g = k.block.group then setBit (m.reg .ERR_STATUS g) k.bit else m.reg .ERR_STATUS g := by
    split
    · next e => rw [e, Module.reg_setReg_self]
    · next e => exact m.reg_setReg_ne _ (Block.group_lt _) (by decide) hg (by decide) fun ⟨_, h, _⟩ => e h
  rw [← hs]
  unfold Module.record
  simp only
  generalize m.setReg .ERR_STATUS k.block.group 0 (setBit (m.reg .ERR_STATUS k.block.group) k.bit) = m1
  have h1 : StatusKept m1 (if (!m1.flag Fld.ERR_FIRST_INFO0_VALID k.block.group) = true then m1.latchFirst k ten loc inj
      else m1) := StatusKept.ite (StatusKept.latchFirst _ _ _ _ _) (StatusKept.refl _)
  generalize (if (!m1.flag Fld.ERR_FIRST_INFO0_VALID k.block.group) = true then m1.latchFirst k ten loc inj
      else m1) = m2 at h1 ⊢
  have h2 : StatusKept m2 (if (!m1.flag Fld.ERR_FIRST_INFO0_VALID k.block.group && !k.refusal) = true then
      (m2.pushSig (m2.liveSig k loc site)).drawn else m2) :=
    StatusKept.ite ((StatusKept.pushSig _ _).trans (StatusKept.drawn _)) (StatusKept.refl _)
  generalize (if (!m1.flag Fld.ERR_FIRST_INFO0_VALID k.block.group && !k.refusal) = true then
      (m2.pushSig (m2.liveSig k loc site)).drawn else m2) = m3 at h2 ⊢
  have h3 := (h1.trans h2).trans (StatusKept.countEvent m3 k.block)
  exact StatusKept.ite (h3.trans (StatusKept.pfVector _ _)) h3 g hg

/-- An event sets its bit in its group and no other status bit. -/
theorem Module.status_raise1 (m : Module) (k : Kind) (ten loc site : ℕ) {g : ℕ} (hg : g < 2 ^ 24) :
    (m.raise1 k ten loc site).reg .ERR_STATUS g
      = if g = k.block.group then setBit (m.reg .ERR_STATUS g) k.bit else m.reg .ERR_STATUS g :=
  (StatusKept.classify _ k g hg).trans (m.status_record k ten loc site false hg)

theorem setBit_getLsbD (w : Word64) {k b : ℕ} (hk : k < 64) : (setBit w k).getLsbD b = (w.getLsbD b || decide (b = k)) := by
  unfold setBit
  rw [BitVec.getLsbD_or, BitVec.getLsbD_ofNat, Nat.testBit_two_pow]
  by_cases h : b = k
  · simp [h, hk]
  · simp [h, Ne.symm h]

/-- A status bit that is set stays set when an event is raised. -/
theorem Module.status_raise1_mono {m : Module} {k : Kind} {ten loc site g b : ℕ} (hg : g < 2 ^ 24) (hk : k.bit < 64)
    (h : (m.reg .ERR_STATUS g).getLsbD b = true) : ((m.raise1 k ten loc site).reg .ERR_STATUS g).getLsbD b = true := by
  rw [m.status_raise1 k ten loc site hg]
  split
  · rw [setBit_getLsbD _ hk, h, Bool.true_or]
  · exact h

theorem Module.status_raiseLost_mono {m : Module} {g b : ℕ} (hg : g < 2 ^ 24) (h : (m.reg .ERR_STATUS g).getLsbD b = true) :
    (m.raiseLost.reg .ERR_STATUS g).getLsbD b = true := by
  have h1 := m.status_raise1_mono (k := Kind.INT_SIG_LOST) (ten := 0) (loc := 0) (site := 0) hg (by decide) h
  unfold Module.raiseLost
  simp only
  split
  · exact Module.status_raise1_mono hg (by decide) h1
  · exact h1

theorem Module.status_raise_mono {m : Module} {k : Kind} {ten loc site g b : ℕ} (hg : g < 2 ^ 24) (hk : k.bit < 64)
    (h : (m.reg .ERR_STATUS g).getLsbD b = true) : ((m.raise k ten loc site).reg .ERR_STATUS g).getLsbD b = true := by
  have h1 := m.status_raise1_mono (ten := ten) (loc := loc) (site := site) hg hk h
  unfold Module.raise
  simp only
  split
  · exact Module.status_raiseLost_mono hg h1
  · exact h1

/-- The bit of an event is set in its group. -/
theorem Module.status_raise {m : Module} {k : Kind} {ten loc site : ℕ} (hk : k.bit < 64) :
    ((m.raise k ten loc site).reg .ERR_STATUS k.block.group).getLsbD k.bit = true := by
  have h1 : ((m.raise1 k ten loc site).reg .ERR_STATUS k.block.group).getLsbD k.bit = true := by
    rw [m.status_raise1 k ten loc site (Block.group_lt _), if_pos rfl, setBit_getLsbD _ hk]
    simp
  unfold Module.raise
  simp only
  split
  · exact Module.status_raiseLost_mono (Block.group_lt _) h1
  · exact h1

theorem Block.group_ne_int {b : Block} (h : b ≠ .int) : b.group ≠ Block.int.group := by
  cases b with
  | fab c =>
    have h32 : Block.int.group < 32 := by decide
    have hc : (Block.fab c).group = 32 + c.val := rfl
    omega
  | int => exact absurd rfl h
  | _ => decide

/-- Of a group other than that of the integrity block only the bit of the event changes. -/
theorem Module.status_raise_others {m : Module} {k : Kind} {ten loc site b : ℕ} (hk : k.bit < 64) (hb : b ≠ k.bit)
    (hi : k.block ≠ .int) : ((m.raise k ten loc site).reg .ERR_STATUS k.block.group).getLsbD b
      = (m.reg .ERR_STATUS k.block.group).getLsbD b := by
  have hg := Block.group_lt k.block
  have hn : k.block.group ≠ Kind.INT_SIG_LOST.block.group := Block.group_ne_int hi
  have h1 : ((m.raise1 k ten loc site).reg .ERR_STATUS k.block.group).getLsbD b
      = (m.reg .ERR_STATUS k.block.group).getLsbD b := by
    rw [m.status_raise1 k ten loc site hg, if_pos rfl, setBit_getLsbD _ hk]
    simp [hb]
  have hl : ∀ m' : Module, m'.raiseLost.reg .ERR_STATUS k.block.group = m'.reg .ERR_STATUS k.block.group := by
    intro m'
    have e : ∀ m' : Module, (m'.raise1 Kind.INT_SIG_LOST 0 0).reg .ERR_STATUS k.block.group
        = m'.reg .ERR_STATUS k.block.group := fun m' => (m'.status_raise1 _ 0 0 0 hg).trans (if_neg hn)
    unfold Module.raiseLost
    simp only
    split
    · rw [e, e]
    · rw [e]
  unfold Module.raise
  simp only
  split
  · rw [hl, h1]
  · exact h1

/-- A command that raises an event and does nothing else has recorded it. -/
theorem recorded_of_yields {c : Instr} {s : State} {k : Kind} {ten loc site : ℕ} {but : List RegRef} (hk : k.bit < 64)
    (h : Yields c s (s.mod.raise k ten loc site)) : ∃ s', exec c s = .next s' ∧ Recorded s s' k but := by
  have he := EventOnly.raise s.mod k ten loc site
  refine ⟨_, h, ⟨rfl, Module.status_raise hk, fun b _ hb hi => Module.status_raise_others hk hb hi, ?_, ?_⟩⟩
  · exact congrArg Module.settle he.rest
  · exact he.regs.mono fun _ hx => List.mem_append_left _ hx

end Sys2Proof.Machine
end

