-- ==== Sys2Proof/Proofs/StartUp.lean ====
section
/-! The fields beside those that are written, and the steps of start-up. -/

namespace Sys2Proof.Machine

/-! ### Fields beside those that are written -/

theorem bitsAt_self_mod (v lo w : ℕ) : bitsAt v lo w % 2 ^ w = bitsAt v lo w := Nat.mod_eq_of_lt (bitsAt_lt v lo w)

theorem Module.reg_of_regs {m m' : Module} (h : m'.regs = m.regs) (r : RegId) (i j : ℕ) : m'.reg r i j = m.reg r i j := by
  unfold Module.reg
  rw [h]

theorem Module.fld_of_regs {m m' : Module} (h : m'.regs = m.regs) (f : Field) (i j : ℕ) : m'.fld f i j = m.fld f i j := by
  unfold Module.fld
  rw [Module.reg_of_regs h]

theorem Module.flag_of_regs {m m' : Module} (h : m'.regs = m.regs) (f : Field) (i j : ℕ) : m'.flag f i j = m.flag f i j := by
  unfold Module.flag
  rw [Module.fld_of_regs h]

theorem Module.fld_lt (m : Module) (f : Field) (i j : ℕ) : m.fld f i j < 2 ^ f.width := bitsAt_lt _ _ _

/-- A field of another register of the module, at its first index. -/
theorem Module.fld_setFld_other (m : Module) {f g : Field} (v : ℕ) (h : g.reg ≠ f.reg) :
    (m.setFld f 0 0 v).fld g = m.fld g :=
  m.fld_setFld_ne f g v (by decide) (by decide) (by decide) (by decide) fun ⟨e, _⟩ => h e

theorem Module.flag_setFlag_beside (m : Module) {f g : Field} (hf : f.fits) (i j : ℕ) (v : Bool) (hr : g.reg = f.reg)
    (hd : f.hi < g.lo ∨ g.hi < f.lo) (hg : g.fits) : (m.setFlag f i j v).flag g i j = m.flag g i j := by
  unfold Module.flag Module.setFlag
  rw [m.fld_setFld_beside hf i j _ hr hd hg]

/-! ### Power-on (R469) -/

/-- What a P reset leaves where the calendar was not lost, before the calendar and the straps are put back. -/
def Module.pBlank (m : Module) : Module :=
  { m.blank with
    regs := []
    repairRecords := m.keptRecords
    eraseRecords := []
    board := { Board.reset with
        boot := 1, eepromBad := m.board.eepromBad, railBad := m.board.railBad,
        testEn := m.board.testEn, perst := m.board.perst, resetLow := m.board.resetLow, refclkLost := m.board.refclkLost,
        refMode := m.board.refMode, separateRef := m.board.refMode } }

theorem Module.pReset_kept {m : Module} (h : m.board.calendarLost = false) :
    m.pReset = ((((m.pBlank.setFld Fld.RTC_SECONDS_SECONDS 0 0 (m.fld Fld.RTC_SECONDS_SECONDS)).setFld
      Fld.RTC_FRAC_FRAC 0 0 (m.fld Fld.RTC_FRAC_FRAC)).setFld Fld.RTC_STATUS_VALID 0 0 (m.fld Fld.RTC_STATUS_VALID)).setFlag
      Fld.RTC_STATUS_ON_BATTERY 0 0 true).setFlag Fld.GLB_STATUS_TEST_MODE 0 0 m.board.testEn := by
  unfold Module.pReset
  simp only [h]
  rfl

theorem powerOn_yields {s : State} (h : s.mod.board.boot = 0) : Yields .powerOn s s.mod.pReset :=
  yields_of_run (f := fun m => if m.board.boot = 0 then m.pReset else m) rfl (if_pos h)

theorem powerOn_idle {s : State} (h : s.mod.board.boot ≠ 0) : NoEffect .powerOn s :=
  yields_of_run (f := fun m => if m.board.boot = 0 then m.pReset else m) rfl (if_neg h)

/-- Power-on keeps the calendar, and every other register takes its reset value. -/
theorem pReset_registers {m : Module} (h : m.board.calendarLost = false) :
    m.pReset.fld Fld.RTC_SECONDS_SECONDS = m.fld Fld.RTC_SECONDS_SECONDS
      ∧ m.pReset.fld Fld.RTC_FRAC_FRAC = m.fld Fld.RTC_FRAC_FRAC
      ∧ ∀ r i j, i < 2 ^ 24 → j < 2 ^ 16 → r ∉ [RegId.RTC_SECONDS, RegId.RTC_FRAC, RegId.RTC_STATUS, RegId.GLB_STATUS] →
          m.pReset.reg r i j = r.resetValue i := by
  rw [Module.pReset_kept h]
  refine ⟨?_, ?_, fun r i j hi hj hr => ?_⟩
  · rw [Module.setFlag, Module.setFlag, Module.fld_setFld_other _ _ (by decide), Module.fld_setFld_other _ _ (by decide),
      Module.fld_setFld_other _ _ (by decide), Module.fld_setFld_other _ _ (by decide), Module.fld_setFld_self _ (by decide),
      Nat.mod_eq_of_lt (m.fld_lt _ 0 0)]
  · rw [Module.setFlag, Module.setFlag, Module.fld_setFld_other _ _ (by decide), Module.fld_setFld_other _ _ (by decide),
      Module.fld_setFld_other _ _ (by decide), Module.fld_setFld_self _ (by decide), Nat.mod_eq_of_lt (m.fld_lt _ 0 0)]
  · have hne : ∀ (m : Module) (f : Field) (v : ℕ), f.reg ∈ [RegId.RTC_SECONDS, RegId.RTC_FRAC, RegId.RTC_STATUS, RegId.GLB_STATUS] →
        (m.setFld f 0 0 v).reg r i j = m.reg r i j := fun m f v hf =>
      m.reg_setFld_ne f v (by decide) (by decide) hi hj fun ⟨e, _⟩ => hr (e ▸ hf)
    rw [Module.setFlag, Module.setFlag, hne _ _ _ (by decide), hne _ _ _ (by decide), hne _ _ _ (by decide),
      hne _ _ _ (by decide), hne _ _ _ (by decide)]
    rfl

/-! ### Trims and rails (R469, R470) -/

theorem trimsLoaded_yields {s : State} (h : s.mod.board.boot = 1) :
    Yields .trimsLoaded s (({ s.mod with board := { s.mod.board with boot := 2 } } : Module).when s.mod.board.eepromBad
      fun m => m.eepromFails) :=
  yields_of_run (f := fun m => if m.board.boot ≠ 1 then m
    else ({ m with board := { m.board with boot := 2 } } : Module).when m.board.eepromBad fun m => m.eepromFails) rfl
    (if_neg (not_not.2 h))

theorem trimsLoaded_idle {s : State} (h : s.mod.board.boot ≠ 1) : NoEffect .trimsLoaded s :=
  yields_of_run (f := fun m => if m.board.boot ≠ 1 then m
    else ({ m with board := { m.board with boot := 2 } } : Module).when m.board.eepromBad fun m => m.eepromFails) rfl
    (if_pos h)

theorem StatusKept.getLsbD {m m' : Module} (h : StatusKept m m') {g b : ℕ} (hg : g < 2 ^ 24)
    (hb : (m.reg .ERR_STATUS g).getLsbD b = true) : (m'.reg .ERR_STATUS g).getLsbD b = true := by rw [h g hg, hb]

/-- An EEPROM that fails is recorded, and the board is as it was. -/
theorem Module.eepromFails_recorded (m : Module) :
    (m.eepromFails.reg .ERR_STATUS Block.glb.group).getLsbD Kind.GLB_EEPROM.bit = true ∧ m.eepromFails.board = m.board := by
  have hs : ((m.raise Kind.GLB_EEPROM 0 0).reg .ERR_STATUS Block.glb.group).getLsbD Kind.GLB_EEPROM.bit = true :=
    Module.status_raise (by decide)
  have hb : (m.raise Kind.GLB_EEPROM 0 0).board = m.board := by
    rw [(EventOnly.raise m Kind.GLB_EEPROM 0 0 0).rest]
    rfl
  unfold Module.eepromFails
  generalize m.raise Kind.GLB_EEPROM 0 0 = m1 at hs hb ⊢
  simp only
  split
  · have hk : StatusKept m1 ((m1.drawn.addFld Fld.SBD_LOCAL_STATUS_RETRIES 0 0).setFld Fld.SBD_LOCAL_STATUS_DEVICE 0 0 0x50) :=
      ((StatusKept.drawn m1).trans (StatusKept.addFld _ (by decide) (by decide) (by decide))).trans
        (StatusKept.setFld _ _ (by decide) (by decide) (by decide))
    refine ⟨Module.status_raise_mono (by decide) (by decide) (hk.getLsbD (by decide) hs), ?_⟩
    rw [(EventOnly.raise _ Kind.SBD_LOCAL_BUS 0 0x50 0).rest, ← hb]
    rfl
  · exact ⟨hs, hb⟩

theorem railsRegulated_idle {s : State} (h : s.mod.board.boot ≠ 2) : NoEffect .railsRegulated s :=
  yields_of_run (f := fun m => if m.board.boot ≠ 2 then m else if m.board.railBad then m.failStartup
    else ({ m with board := { m.board with boot := 3, windows := 0, badRun := 0 } } : Module).setPhase phase.clocks) rfl
    (if_pos h)

theorem railsRegulated_yields {s : State} (h : s.mod.board.boot = 2) :
    Yields .railsRegulated s (if s.mod.board.railBad then s.mod.failStartup
      else ({ s.mod with board := { s.mod.board with boot := 3, windows := 0, badRun := 0 } } : Module).setPhase phase.clocks) :=
  yields_of_run (f := fun m => if m.board.boot ≠ 2 then m else if m.board.railBad then m.failStartup
    else ({ m with board := { m.board with boot := 3, windows := 0, badRun := 0 } } : Module).setPhase phase.clocks) rfl
    (if_neg (not_not.2 h))

theorem Module.setPhase_kept (m : Module) (v : ℕ) : RegsKept m (m.setPhase v) [(.GLB_STATUS, 0, 0)] :=
  RegsKept.setFld v (by decide) (by decide)

theorem Module.fld_setPhase (m : Module) {v : ℕ} (hv : v < 2 ^ Fld.GLB_STATUS_PHASE.width) :
    (m.setPhase v).fld Fld.GLB_STATUS_PHASE = v := by
  unfold Module.setPhase
  rw [m.fld_setFld_self (by decide), Nat.mod_eq_of_lt hv]

theorem Module.failStartup_kept (m : Module) : RegsKept m m.failStartup [(.GLB_STATUS, 0, 0)] :=
  (RegsKept.of_regs rfl : RegsKept m { m with board := { m.board with boot := 7 } } _).trans (Module.setPhase_kept _ _)

/-! ### DRAM training (R470) -/

/-- The module with the failed rounds of each channel so far. -/
def Module.withRetries (m : Module) (a : Map ℕ) : Module := { m with board := { m.board with retries := a } }

/-- The failed rounds once a round ends in which the channels of a list fail. -/
def Module.roundOf (m : Module) (f : List (Fin 384)) : Map ℕ := (f.eraseDups.map (·.val)).foldl failRound m.board.retries

/-- A round of training ends. -/
def Module.trained (m : Module) (f : List (Fin 384)) : Module :=
  if f.any (fun c => decide (Map.get 0 (m.roundOf f) c.val < 3)) then m.withRetries (m.roundOf f)
  else (m.withRetries (m.roundOf f)).endTraining

theorem execDramTrainingDone_eq (f : List (Fin 384)) (s : State) : exec (.dramTrainingDone f) s
    = s.run fun m => if m.board.boot ≠ 4 || !m.clocked || m.board.resetLow then m else m.trained f := rfl

/-- Training runs: start-up is at its step, the tile clock runs and RESET_N is high. -/
theorem dramTrainingDone_yields {s : State} {f : List (Fin 384)} (h : s.mod.board.boot = 4) (hc : s.mod.clocked = true)
    (hr : s.mod.board.resetLow = false) : Yields (.dramTrainingDone f) s (s.mod.trained f) :=
  yields_of_run (execDramTrainingDone_eq f s) (if_neg (by simp [h, hc, hr]))

theorem dramTrainingDone_idle {s : State} (h : s.mod.board.boot ≠ 4 ∨ s.mod.clocked = false ∨ s.mod.board.resetLow = true)
    (f : List (Fin 384)) : NoEffect (.dramTrainingDone f) s := by
  refine yields_of_run (execDramTrainingDone_eq f s) (if_pos ?_)
  rcases h with h | h | h <;> simp [h]

/-- Some channel that failed has a round left. -/
theorem Module.trained_again {m : Module} {f : List (Fin 384)} {c : Fin 384} (hc : c ∈ f)
    (h : Map.get 0 (m.roundOf f) c.val < 3) : m.trained f = m.withRetries (m.roundOf f) :=
  if_pos (List.any_eq_true.2 ⟨c, hc, decide_eq_true h⟩)

/-- No channel that failed has a round left. -/
theorem Module.trained_last {m : Module} {f : List (Fin 384)} (h : ∀ c ∈ f, 3 ≤ Map.get 0 (m.roundOf f) c.val) :
    m.trained f = (m.withRetries (m.roundOf f)).endTraining :=
  if_neg fun ha => by
    obtain ⟨c, hc, hlt⟩ := List.any_eq_true.1 ha
    exact absurd (of_decide_eq_true hlt) (not_lt.2 (h c hc))

theorem Map.get_failRound (a : Map ℕ) {c : ℕ} (h : Map.get 0 a c < 2) : Map.get 0 (failRound a c) c = Map.get 0 a c + 1 := by
  unfold failRound
  rw [Map.get_insert, if_pos rfl]
  omega

/-- Training that no channel failed ends, with no repair record to load. -/
theorem Module.endTraining_clean {m : Module} (hr : m.board.retries = []) (he : m.board.eepromBad = true) :
    m.endTraining = { m with board := { m.board with boot := 5 } } := by
  have hb : (List.range 384).filter (fun c => Map.get 0 m.board.retries c == 3) = [] := by
    rw [hr, List.filter_eq_nil_iff]
    exact fun _ _ => Bool.false_ne_true
  have hm : ({ m with board := { m.board with retries := [] } } : Module) = m := by rw [← hr]
  have hl : m.loadRecords = m := by
    unfold Module.loadRecords
    rw [he]
    rfl
  unfold Module.endTraining
  simp only [hb, hm, List.filter_nil, List.length_nil, Nat.not_lt_zero, decide_false, List.filter_false, List.isEmpty_nil,
    Bool.not_true, Bool.false_eq_true, if_false, List.foldl_nil, hl]

/-! ### The end of start-up (R469) -/

theorem Module.flag_setPhase_ready (m : Module) (v : ℕ) :
    (m.setPhase v).flag Fld.GLB_STATUS_READY = m.flag Fld.GLB_STATUS_READY := by
  unfold Module.setPhase Module.flag
  rw [m.fld_setFld_beside (f := Fld.GLB_STATUS_PHASE) (g := Fld.GLB_STATUS_READY) (by decide) 0 0 v rfl (by decide) (by decide)]

theorem Module.flag_setPhase_other (m : Module) {g : Field} (h : g.reg ≠ .GLB_STATUS) (v : ℕ) :
    (m.setPhase v).flag g = m.flag g := by
  unfold Module.setPhase Module.flag
  rw [m.fld_setFld_other v h]

theorem Module.flag_setFlag_other (m : Module) {f g : Field} (v : Bool) (h : g.reg ≠ f.reg) :
    (m.setFlag f 0 0 v).flag g = m.flag g := by
  unfold Module.setFlag Module.flag
  rw [m.fld_setFld_other _ h]

/-- HEALTHY and READY as start-up ends. -/
def Module.readied (m : Module) (healthy : Bool) : Module :=
  (m.setFlag Fld.RNG_ENTROPY_STATUS_HEALTHY 0 0 healthy).setFlag Fld.GLB_STATUS_READY 0 0 true

theorem Module.readied_registers (m : Module) (healthy : Bool) :
    let m' := (m.readied healthy).setPhase phase.ready
    m'.flag Fld.GLB_STATUS_READY = true ∧ m'.fld Fld.GLB_STATUS_PHASE = 3
      ∧ m'.flag Fld.RNG_ENTROPY_STATUS_HEALTHY = healthy := by
  unfold Module.readied
  refine ⟨?_, Module.fld_setPhase _ (by decide), ?_⟩
  · rw [Module.flag_setPhase_ready, Module.flag_setFlag_self _ (by decide)]
  · rw [Module.flag_setPhase_other _ (by decide), Module.flag_setFlag_other _ _ (by decide),
      Module.flag_setFlag_self _ (by decide)]

/-- The pool as start-up ends. -/
def Module.pooled (m : Module) : Module :=
  let m := { m with aliveDriven := true, board := { m.board with boot := 6 } }
  (m.setReg .HLD_FREE_BANKS 0 0 m.countFreeBanks).setFld Fld.XLT_POOL_FREE_FRAMES 0 0 m.poolFrames

/-- The module as start-up ends, before its first LTR message. -/
def Module.started (m : Module) : Module :=
  let m := m.pooled.readied (!m.board.entropyBad)
  ({ m.setPhase phase.ready with ledgerEnergy := m.fld Fld.LDG_MEASURED_MJ } : Module).openLedger 0

theorem Module.started_ledger (m : Module) : (Map.get? m.started.sendLtr.settle.ledgers 0).isSome = true :=
  congrArg Option.isSome (Map.get?_insert_self m.ledgers 0 _)

theorem startupZeroingDone_idle {s : State} (h : s.mod.board.boot ≠ 5 ∨ s.mod.clocked = false) :
    NoEffect .startupZeroingDone s := by
  have e : exec .startupZeroingDone s = s.run fun m => if m.board.boot ≠ 5 || !m.clocked then m else m.started.sendLtr := rfl
  refine yields_of_run e (if_pos ?_)
  rcases h with h | h <;> simp [h]

theorem startupZeroingDone_yields {s : State} (h : s.mod.board.boot = 5) (hc : s.mod.clocked = true) :
    Yields .startupZeroingDone s s.mod.started.sendLtr := by
  have e : exec .startupZeroingDone s = s.run fun m => if m.board.boot ≠ 5 || !m.clocked then m else m.started.sendLtr := rfl
  refine yields_of_run e (if_neg ?_)
  simp [h, hc]

/-! ### Rails that fail, and undervoltage (R470, R489) -/

theorem railFault_yields {s : State} {m : Module} (h : (if s.mod.board.boot = 6 then s.mod.raise Kind.GLB_RAIL 0 0
    else if 2 ≤ s.mod.board.boot ∧ s.mod.board.boot ≤ 5 then s.mod.failStartup else s.mod) = m) : Yields .railFault s m :=
  yields_of_run (f := fun m => if m.board.boot = 6 then m.raise Kind.GLB_RAIL 0 0
    else if 2 ≤ m.board.boot ∧ m.board.boot ≤ 5 then m.failStartup else m) rfl h

/-- The module whose rails are off. -/
def Module.unpowered (m : Module) : Module :=
  ({ m with aliveDriven := false, aliveHold := false, board := { m.board with boot := 0 } } : Module).setFlag
    Fld.GLB_STATUS_READY 0 0 false

theorem undervoltage_yields (s : State) : Yields .undervoltage s (s.mod.unpowered.setPhase phase.power) :=
  yields_of_run (f := fun m => m.unpowered.setPhase phase.power) rfl rfl

theorem Module.unpowered_registers (m : Module) :
    (m.unpowered.setPhase phase.power).flag Fld.GLB_STATUS_READY = false
      ∧ (m.unpowered.setPhase phase.power).fld Fld.GLB_STATUS_PHASE = 0 := by
  refine ⟨?_, m.unpowered.fld_setPhase (by decide)⟩
  rw [Module.flag_setPhase_ready]
  exact Module.flag_setFlag_self _ (by decide) 0 0 false

/-- The pin does not run where it is not driven. -/
theorem Module.settle_running {m : Module} (h : m.aliveDriven = false) : m.settle.pins.running = false := by
  have e : m.settle.pins.running = (m.aliveDriven && !m.aliveStopped) := rfl
  rw [e, h]
  rfl

/-! ### Start-up -/

theorem startUpSteps : StartUpSteps := by
  intro s
  refine ⟨powerOn_yields, powerOn_idle, fun h hl => ?_, trimsLoaded_idle, fun h he => ?_, fun h he => ?_,
    railsRegulated_idle, fun h => ?_, dramTrainingDone_idle, fun h hc hr c hlt => ?_, fun h hc hr hn he => ?_,
    fun h hc hr f hf => ?_, startupZeroingDone_idle, fun h hc => ?_, fun h => ?_, fun h2 h5 => ?_, fun h => ?_, ?_⟩
  · obtain ⟨hs, hf, hr⟩ := pReset_registers hl
    have hy := powerOn_yields h
    refine ⟨_, hy, ?_⟩
    have e := Module.pReset_kept hl
    refine ⟨?_, ?_, ?_, ?_, ?_, ?_, hs, hf, hr⟩ <;> rw [e] <;> rfl
  · have hy := trimsLoaded_yields h
    rw [he] at hy
    exact ⟨hy, completes_of_yields hy ⟨rfl, rfl⟩⟩
  · have hy := trimsLoaded_yields h
    rw [he] at hy
    obtain ⟨hs, hb⟩ := Module.eepromFails_recorded { s.mod with board := { s.mod.board with boot := 2 } }
    exact ⟨_, hy, congrArg Board.boot hb, hs⟩
  · have hy := railsRegulated_yields h
    refine ⟨_, hy, ?_⟩
    by_cases hb : s.mod.board.railBad = true
    · rw [if_pos hb]
      exact ⟨⟨rfl, rfl, s.mod.failStartup_kept⟩, fun _ => ⟨rfl, Module.fld_setPhase _ (by decide)⟩, fun h' => absurd hb (by simp [h'])⟩
    · rw [if_neg hb]
      exact ⟨⟨rfl, rfl, Module.setPhase_kept _ _⟩, fun h' => absurd h' hb, fun _ => ⟨rfl, Module.fld_setPhase _ (by decide)⟩⟩
  · have hg := Map.get_failRound _ hlt
    have hy := dramTrainingDone_yields (f := [c]) h hc hr
    rw [Module.trained_again (List.mem_singleton.2 rfl) (show Map.get 0 (failRound s.mod.board.retries c.val) c.val < 3 by omega)] at hy
    exact ⟨hy, completes_of_yields hy ⟨h, hg⟩⟩
  · have e : (s.mod.withRetries (s.mod.roundOf [])).endTraining = _ := Module.endTraining_clean hn he
    have hy := dramTrainingDone_yields (f := []) h hc hr
    rw [Module.trained_last (List.forall_mem_nil _), e] at hy
    exact ⟨hy, completes_of_yields hy ⟨rfl, rfl⟩⟩
  · have hy := dramTrainingDone_yields (f := f) h hc hr
    rw [Module.trained_last hf] at hy
    exact hy
  · obtain ⟨ready, ph, healthy⟩ := s.mod.pooled.readied_registers (!s.mod.board.entropyBad)
    have hr : s.mod.started.sendLtr.settle.regs
      = ((s.mod.pooled.readied (!s.mod.board.entropyBad)).setPhase phase.ready).regs := rfl
    exact ⟨_, startupZeroingDone_yields h hc, rfl, rfl, (Module.flag_of_regs hr _ 0 0).trans ready,
      (Module.fld_of_regs hr _ 0 0).trans ph, (Module.flag_of_regs hr _ 0 0).trans healthy, s.mod.started_ledger⟩
  · have hy : Yields .railFault s (s.mod.raise Kind.GLB_RAIL 0 0) := railFault_yields (if_pos h)
    exact ⟨hy, recorded_of_yields (by decide) hy⟩
  · have hy : Yields .railFault s s.mod.failStartup := railFault_yields (by rw [if_neg (by omega), if_pos ⟨h2, h5⟩])
    exact ⟨hy, completes_of_yields hy ⟨rfl, Module.fld_setPhase _ (by decide), s.mod.failStartup_kept⟩⟩
  · exact railFault_yields (by rw [if_neg (by omega), if_neg (by omega)])
  · obtain ⟨ready, ph⟩ := s.mod.unpowered_registers
    exact ⟨_, undervoltage_yields s, rfl, (Module.flag_settle _ _ 0 0).trans ready, rfl, Module.settle_running rfl,
      (Module.fld_settle _ _ 0 0).trans ph⟩

end Sys2Proof.Machine
end

