-- ==== Sys2Proof/Proofs/ModuleReset.lean ====
section
/-! The registers at a reset, and the M reset (O54). -/

namespace Sys2Proof.Machine

/-! ### Registers at a reset (R10) -/

theorem Map.get?_map_values {α β : Type} (g : ℕ → α → β) (m : Map α) (k : ℕ) :
    Map.get? (m.map fun p => (p.1, g p.1 p.2)) k = (Map.get? m k).map (g k) := by
  induction m with
  | nil => rfl
  | cons p m ih =>
    simp only [List.map_cons, Map.get?]
    split
    · next e => simp [e]
    · exact ih

theorem RegId.ofNat_regKey {r : RegId} {i j : ℕ} (hi : i < 2 ^ 24) (hj : j < 2 ^ 16) :
    RegId.ofNat (regKey r i j / 2 ^ 40) = r ∧ regKey r i j / 2 ^ 16 % 2 ^ 24 = i := by
  have e : regKey r i j / 2 ^ 40 = r.ctorIdx := by
    unfold regKey
    omega
  refine ⟨by rw [e, RegId.ofNat_ctorIdx], ?_⟩
  unfold regKey
  omega

/-- A register at a reset of every register. -/
theorem Module.reg_resetRegs (m : Module) (k : ResetKind) {r : RegId} {i j : ℕ} (hi : i < 2 ^ 24) (hj : j < 2 ^ 16) :
    (m.resetRegs k fun _ _ => true).reg r i j
      = ((Map.get? m.regs (regKey r i j)).map (r.afterReset k i)).getD (r.resetValue i) := by
  obtain ⟨hr, hix⟩ := RegId.ofNat_regKey (r := r) hi hj
  have h := Map.get?_map_values (fun n v => (RegId.ofNat (n / 2 ^ 40)).afterReset k (n / 2 ^ 16 % 2 ^ 24) v) m.regs
    (regKey r i j)
  rw [hr, hix] at h
  exact congrArg (·.getD (r.resetValue i)) h

/-- A register none of whose fields the reset takes is as it was. -/
theorem Module.reg_resetRegs_kept (m : Module) {k : ResetKind} {r : RegId} {i j : ℕ} (hk : ∀ f ∈ r.fields, f.kinds.contains k = false)
    (hi : i < 2 ^ 24) (hj : j < 2 ^ 16) : (m.resetRegs k fun _ _ => true).reg r i j = m.reg r i j := by
  have h : ∀ v : Word64, r.afterReset k i v = v := by
    intro v
    have hf : ∀ (l : List Field) (acc : ℕ), (∀ f ∈ l, f.kinds.contains k = false) → l.foldl (fun acc f =>
        if f.kinds.contains k then putBits acc f.lo f.width (bitsAt (r.resetValue i).toNat f.lo f.width) else acc) acc = acc := by
      intro l
      induction l with
      | nil => exact fun _ _ => rfl
      | cons f l ih =>
        intro acc hl
        rw [List.foldl_cons, hl f (List.mem_cons_self ..)]
        exact ih acc fun g hg => hl g (List.mem_cons_of_mem _ hg)
    unfold RegId.afterReset
    rw [hf _ _ hk, BitVec.ofNat_toNat, BitVec.setWidth_eq]
  rw [m.reg_resetRegs k hi hj]
  unfold Module.reg
  cases Map.get? m.regs (regKey r i j) with
  | none => rfl
  | some v => exact h v

/-- The other fields of a register that a field shares no bit with. -/
abbrev Field.Apart (f : Field) : Prop := ∀ g ∈ f.reg.fields, g = f ∨ (g.fits ∧ (g.hi < f.lo ∨ f.hi < g.lo))

/-- A field that the reset takes reads its reset value. -/
theorem Module.fld_resetRegs (m : Module) {k : ResetKind} {f : Field} {i j : ℕ} (hm : f ∈ f.reg.fields) (ha : f.Apart)
    (hf : f.fits) (hk : f.kinds.contains k = true) (hi : i < 2 ^ 24) (hj : j < 2 ^ 16) :
    (m.resetRegs k fun _ _ => true).fld f i j = bitsAt (f.reg.resetValue i).toNat f.lo f.width := by
  have fold : ∀ (l : List Field) (acc : ℕ),
      (∀ g ∈ l, g = f ∨ (g.fits ∧ (g.hi < f.lo ∨ f.hi < g.lo))) →
      f ∈ l ∨ bitsAt acc f.lo f.width = bitsAt (f.reg.resetValue i).toNat f.lo f.width →
      bitsAt (l.foldl (fun acc g => if g.kinds.contains k then
        putBits acc g.lo g.width (bitsAt (f.reg.resetValue i).toNat g.lo g.width) else acc) acc) f.lo f.width
        = bitsAt (f.reg.resetValue i).toNat f.lo f.width := by
    intro l
    induction l with
    | nil => exact fun acc _ h => h.resolve_left (List.not_mem_nil)
    | cons g l ih =>
      intro acc hd h
      rw [List.foldl_cons]
      refine ih _ (fun g' hg => hd g' (List.mem_cons_of_mem _ hg)) ?_
      rcases hd g (List.mem_cons_self ..) with rfl | ⟨hg, hdis⟩
      · right
        rw [if_pos hk, bitsAt_putBits, bitsAt_self_mod]
      · refine h.imp (fun hmem => ?_) fun hacc => ?_
        · rcases List.mem_cons.1 hmem with rfl | hmem
          · unfold Field.fits at hf
            omega
          · exact hmem
        · split
          · rw [bitsAt_putBits_disjoint _ _ _ _ _ _ (by unfold Field.fits at hf hg; unfold Field.width; omega), hacc]
          · exact hacc
  unfold Module.fld
  rw [m.reg_resetRegs k hi hj]
  cases Map.get? m.regs (regKey f.reg i j) with
  | none => rfl
  | some v =>
    change bitsAt (f.reg.afterReset k i v).toNat f.lo f.width = _
    unfold RegId.afterReset
    rw [BitVec.toNat_ofNat, bitsAt_mod hf.le]
    exact fold f.reg.fields v.toNat ha (Or.inl hm)

/-! ### The M reset (R10, R471) -/

/-- Nothing is in progress and the memories are empty; host memory is as it was. -/
def Module.Blanked (m m' : Module) : Prop :=
  m'.cmds = [] ∧ m'.routes = [] ∧ m'.rings = [] ∧ m'.tiles = [] ∧ m'.dram = [] ∧ m'.hold = [] ∧ m'.hostMem = m.hostMem

/-- Start-up after an M reset: the steps that it repeats, where it has come so far. -/
def Module.mBoot (m : Module) : ℕ := if 4 ≤ m.board.boot ∧ m.board.boot ≤ 6 then 4 else m.board.boot

/-- The module at an M reset, before its phase, straps and cause are put in. -/
def Module.mBlank (m : Module) : Module :=
  { m.blank with
    regs := (m.resetRegs .m (fun _ _ => true)).regs
    pins := { Pins.reset with stops := m.pins.stops }
    side := { m.side with mirror := [], writes := [], alertAt := none }
    board := { m.board with
        boot := m.mBoot, retries := [], cool := 0, entropyBad := false,
        target := none, leaving := false, savedTiles := false, stepDown := none } }

/-- The module at an M reset with its phase and straps. -/
def Module.mPhased (m : Module) : Module :=
  (m.mBlank.setPhase (if m.mBoot = 4 then phase.memory else m.fld Fld.GLB_STATUS_PHASE)).setFld Fld.GLB_STATUS_TEST_MODE 0 0
    (m.fld Fld.GLB_STATUS_TEST_MODE)

/-- The module at an M reset with its cause. -/
def Module.mCaused (m : Module) (cause : Field) : Module := (m.mPhased.setReg .GLB_RESET_CAUSE 0 0 0).setFlag cause 0 0 true

theorem Module.mReset_eq (m : Module) (cause : Field) :
    m.mReset cause = if m.board.tripped then (m.mCaused cause).raise Kind.PWR_TRIP 0 0 else m.mCaused cause := rfl

theorem Module.mReset_calm {m : Module} (h : m.board.tripped = false) (cause : Field) : m.mReset cause = m.mCaused cause := by
  rw [Module.mReset_eq, h]
  rfl

/-- An event leaves nothing in progress. -/
theorem EventOnly.blanked {m m' m'' : Module} {refs : List RegRef} (h : EventOnly m' m'' refs) (hb : m.Blanked m') :
    m.Blanked m'' := by
  rw [h.rest]
  exact hb

theorem Module.mCaused_blanked (m : Module) (cause : Field) : m.Blanked (m.mCaused cause) :=
  ⟨rfl, rfl, rfl, rfl, rfl, rfl, rfl⟩

theorem Module.mReset_blanked (m : Module) (cause : Field) : m.Blanked (m.mReset cause) := by
  rw [Module.mReset_eq]
  split
  · exact (EventOnly.raise _ _ 0 0 0).blanked (m.mCaused_blanked cause)
  · exact m.mCaused_blanked cause

/-- The board at an M reset. -/
theorem Module.mReset_board (m : Module) (cause : Field) : (m.mReset cause).board = m.mBlank.board := by
  rw [Module.mReset_eq]
  split
  · rw [(EventOnly.raise (m.mCaused cause) Kind.PWR_TRIP 0 0 0).rest]
    rfl
  · rfl

/-- The causes of an M reset. -/
def resetCauses : List Field := [Fld.GLB_RESET_CAUSE_REGISTER, Fld.GLB_RESET_CAUSE_PIN, Fld.GLB_RESET_CAUSE_PF_FLR]

theorem resetCauses_reg {cause : Field} (h : cause ∈ resetCauses) : cause.reg = .GLB_RESET_CAUSE ∧ cause.fits := by
  fin_cases h <;> exact ⟨rfl, by decide⟩

theorem Module.mCaused_cause (m : Module) {cause : Field} (h : cause ∈ resetCauses) : (m.mCaused cause).flag cause = true :=
  Module.flag_setFlag_self _ (resetCauses_reg h).2 0 0 true

/-- The cause is recorded, be the module tripped or not. -/
theorem Module.mReset_cause (m : Module) {cause : Field} (h : cause ∈ resetCauses) : (m.mReset cause).flag cause = true := by
  rw [Module.mReset_eq]
  split
  · have hr : ((m.mCaused cause).raise Kind.PWR_TRIP 0 0).reg cause.reg = (m.mCaused cause).reg cause.reg :=
      (EventOnly.raise (m.mCaused cause) Kind.PWR_TRIP 0 0 0).regs cause.reg 0 0 (by decide) (by decide) (by
        rw [(resetCauses_reg h).1]
        decide)
    unfold Module.flag Module.fld
    rw [hr]
    exact m.mCaused_cause h
  · exact m.mCaused_cause h

/-- A register beside the status and the cause is the reset's. -/
theorem Module.reg_mCaused (m : Module) {cause : Field} (h : cause ∈ resetCauses) {r : RegId} {i j : ℕ} (hi : i < 2 ^ 24)
    (hj : j < 2 ^ 16) (hs : r ≠ .GLB_STATUS) (hc : r ≠ .GLB_RESET_CAUSE) :
    (m.mCaused cause).reg r i j = (m.resetRegs .m fun _ _ => true).reg r i j := by
  have hcr := (resetCauses_reg h).1
  unfold Module.mCaused Module.mPhased Module.setPhase Module.setFlag
  rw [Module.reg_setFld_ne _ _ _ (by decide) (by decide) hi hj fun ⟨e, _⟩ => hc (e.trans hcr),
    Module.reg_setReg_ne _ _ (by decide) (by decide) hi hj fun ⟨e, _⟩ => hc e,
    Module.reg_setFld_ne _ _ _ (by decide) (by decide) hi hj fun ⟨e, _⟩ => hs e,
    Module.reg_setFld_ne _ _ _ (by decide) (by decide) hi hj fun ⟨e, _⟩ => hs e]
  rfl

theorem Module.fld_mCaused (m : Module) {cause : Field} (h : cause ∈ resetCauses) {f : Field} {i j : ℕ} (hi : i < 2 ^ 24)
    (hj : j < 2 ^ 16) (hs : f.reg ≠ .GLB_STATUS) (hc : f.reg ≠ .GLB_RESET_CAUSE) :
    (m.mCaused cause).fld f i j = (m.resetRegs .m fun _ _ => true).fld f i j := by
  unfold Module.fld
  rw [m.reg_mCaused h hi hj hs hc]

/-- The status at an M reset, past the cause. -/
theorem Module.fld_mCaused_status (m : Module) {cause : Field} (h : cause ∈ resetCauses) {f : Field} (hf : f.reg = .GLB_STATUS) :
    (m.mCaused cause).fld f = m.mPhased.fld f := by
  have hr : (m.mCaused cause).reg f.reg = m.mPhased.reg f.reg := by
    unfold Module.mCaused Module.setFlag
    rw [Module.reg_setFld_ne _ _ _ (by decide) (by decide) (by decide) (by decide) fun ⟨e, _⟩ => by
        rw [hf, (resetCauses_reg h).1] at e; exact absurd e (by decide),
      Module.reg_setReg_ne _ _ (by decide) (by decide) (by decide) (by decide) fun ⟨e, _⟩ => by
        rw [hf] at e; exact absurd e (by decide)]
  unfold Module.fld
  rw [hr]

theorem Module.mPhased_phase {m : Module} (h : m.mBoot = 4) : m.mPhased.fld Fld.GLB_STATUS_PHASE = 2 := by
  unfold Module.mPhased
  rw [h, if_pos rfl, Module.fld_setFld_beside _ (f := Fld.GLB_STATUS_TEST_MODE) (g := Fld.GLB_STATUS_PHASE) (by decide) 0 0 _ rfl
    (by decide) (by decide)]
  exact Module.fld_setPhase _ (by decide)

theorem Module.mPhased_ready (m : Module) : m.mPhased.flag Fld.GLB_STATUS_READY = false := by
  have hr : (m.resetRegs .m fun _ _ => true).fld Fld.GLB_STATUS_READY = 0 :=
    m.fld_resetRegs (by decide) (by decide) (by decide) (by decide) (by decide) (by decide)
  have hb : m.mBlank.flag Fld.GLB_STATUS_READY = false := by
    unfold Module.flag
    rw [Module.fld_of_regs (show m.mBlank.regs = (m.resetRegs .m fun _ _ => true).regs from rfl), hr]
    rfl
  unfold Module.mPhased Module.flag
  rw [Module.fld_setFld_beside _ (f := Fld.GLB_STATUS_TEST_MODE) (g := Fld.GLB_STATUS_READY) (by decide) 0 0 _ rfl
    (by decide) (by decide)]
  exact (Module.flag_setPhase_ready _ _).trans hb

/-! ### The host link trains again -/

theorem Module.trainLink_rest (m : Module) :
    m.trainLink = { m with regs := m.trainLink.regs, freeIx := m.trainLink.freeIx } := by
  unfold Module.trainLink
  split <;> rfl

theorem Module.trainLink_kept (m : Module) : RegsKept m m.trainLink [(.HIF_LINK_STATUS, 0, 0)] := by
  unfold Module.trainLink
  split
  · exact RegsKept.refl m _
  · exact (RegsKept.of_regs rfl : RegsKept m m.drawn.drawn.drawn _).trans
      (RegsKept.setReg _ _ (by decide) (by decide) (List.mem_singleton.2 rfl))

theorem Module.Blanked.trainLink {m m' : Module} (h : m.Blanked m') : m.Blanked m'.trainLink := by
  rw [m'.trainLink_rest]
  exact h

theorem Module.flag_trainLink (m : Module) {cause : Field} (h : cause ∈ resetCauses) : m.trainLink.flag cause = m.flag cause := by
  unfold Module.flag Module.fld
  rw [m.trainLink_kept cause.reg 0 0 (by decide) (by decide) (by
    rw [(resetCauses_reg h).1]
    decide)]

/-- What a command leaves that resets the module and trains the link. -/
theorem Module.mReset_trained (m : Module) {cause : Field} (h : cause ∈ resetCauses) :
    m.Blanked (m.mReset cause).trainLink.settle ∧ (m.mReset cause).trainLink.settle.flag cause = true := by
  refine ⟨(m.mReset_blanked cause).trainLink, ?_⟩
  rw [Module.flag_settle, Module.flag_trainLink _ h, m.mReset_cause h]

/-! ### The commands that are an M reset -/

theorem reset_yields {s : State} {value : Word} (h0 : value.getLsbD 0 = true) (hk : bitsAt value.toNat 16 16 = 0xA5C3) :
    Yields (.reset value) s (s.mod.mReset Fld.GLB_RESET_CAUSE_REGISTER).trainLink := by
  refine yields_of_run (f := fun m => m.registerReset value) rfl ?_
  simp [Module.registerReset, h0, hk]

theorem reset_idle {s : State} {value : Word} (h : value.getLsbD 0 = false ∨ bitsAt value.toNat 16 16 ≠ 0xA5C3) :
    NoEffect (.reset value) s := by
  refine yields_of_run (f := fun m => m.registerReset value) rfl (if_neg ?_)
  rcases h with h | h
  · rw [h, Bool.false_and]
    exact Bool.false_ne_true
  · rw [beq_false_of_ne h, Bool.and_false]
    exact Bool.false_ne_true

theorem resetN_yields {s : State} {m : Module} (h : (if 4 ≤ s.mod.board.boot then
    (({ s.mod with board := { s.mod.board with resetLow := false } } : Module).mReset Fld.GLB_RESET_CAUSE_PIN).trainLink
    else { s.mod with board := { s.mod.board with resetLow := false } }) = m) : Yields .resetN s m :=
  yields_of_run (f := fun m => if 4 ≤ m.board.boot then
    (({ m with board := { m.board with resetLow := false } } : Module).mReset Fld.GLB_RESET_CAUSE_PIN).trainLink
    else { m with board := { m.board with resetLow := false } }) rfl h

theorem perstN_yields {s : State} {m : Module} (h : (if s.mod.flag Fld.GLB_STATUS_READY then
    ({ s.mod with board := { s.mod.board with perst := true } } : Module).mReset Fld.GLB_RESET_CAUSE_PF_FLR
    else { s.mod with board := { s.mod.board with perst := true } }) = m) : Yields .perstN s m :=
  yields_of_run (f := fun m => if m.flag Fld.GLB_STATUS_READY then
    ({ m with board := { m.board with perst := true } } : Module).mReset Fld.GLB_RESET_CAUSE_PF_FLR
    else { m with board := { m.board with perst := true } }) rfl h

theorem pfFlr_yields (s : State) : Yields .pfFlr s (s.mod.mReset Fld.GLB_RESET_CAUSE_PF_FLR).trainLink :=
  yields_of_run (f := fun m => (m.mReset Fld.GLB_RESET_CAUSE_PF_FLR).trainLink) rfl rfl

/-- What an M reset leaves of an untripped module. -/
theorem mReset_leaves {m : Module} {cause : Field} (hc : cause ∈ resetCauses) (ht : m.board.tripped = false) :
    let m' := m.mReset cause
    m'.dram = [] ∧ m'.hold = [] ∧ m'.tiles = [] ∧ m'.routes = [] ∧ m'.rings = [] ∧ m'.cmds = [] ∧ m'.waybills = [] ∧ m'.ports = []
      ∧ m'.repairRecords = m.allRecords ∧ m'.flag cause = true
      ∧ (4 ≤ m.board.boot → m.board.boot ≤ 6 → m'.board.boot = 4 ∧ m'.fld Fld.GLB_STATUS_PHASE = 2)
      ∧ m'.flag Fld.GLB_STATUS_READY = false
      ∧ m'.reg .RTC_SECONDS = m.reg .RTC_SECONDS ∧ m'.reg .RTC_FRAC = m.reg .RTC_FRAC
      ∧ (∀ i, i < 100 → m'.flag Fld.FAB_CL_ASSIGN_VALID i = false ∧ m'.fld Fld.FAB_CL_ASSIGN_TENANCY i = 0)
      ∧ (∀ i, i < 132 → (m'.reg .ERR_STATUS i).setWidth 32 = (0 : Word)) := by
  have zero : ∀ {f : Field} {i : ℕ}, f ∈ f.reg.fields → f.Apart → f.fits → f.kinds.contains .m = true → f.reg ≠ .GLB_STATUS →
      f.reg ≠ .GLB_RESET_CAUSE → f.reg.resetValue i = f.reg.resetValue 0 →
      bitsAt (f.reg.resetValue 0).toNat f.lo f.width = 0 → i < 2 ^ 24 → (m.mCaused cause).fld f i = 0 :=
    fun hm ha hf hk hs hr hv h0 hi => by
      rw [m.fld_mCaused hc hi (by decide) hs hr, m.fld_resetRegs hm ha hf hk hi (by decide), hv, h0]
  intro m'
  have e : m' = m.mCaused cause := Module.mReset_calm ht cause
  clear_value m'
  subst e
  refine ⟨rfl, rfl, rfl, rfl, rfl, rfl, rfl, rfl, rfl, m.mCaused_cause hc, fun h4 h6 => ?_, ?_, ?_, ?_, fun i hi => ⟨?_, ?_⟩,
    fun i hi => ?_⟩
  · have hb : m.mBoot = 4 := if_pos ⟨h4, h6⟩
    exact ⟨hb, (m.fld_mCaused_status hc rfl).trans (Module.mPhased_phase hb)⟩
  · unfold Module.flag
    rw [m.fld_mCaused_status hc rfl]
    exact m.mPhased_ready
  · rw [m.reg_mCaused hc (by decide) (by decide) (by decide) (by decide),
      m.reg_resetRegs_kept (by decide) (by decide) (by decide)]
  · rw [m.reg_mCaused hc (by decide) (by decide) (by decide) (by decide),
      m.reg_resetRegs_kept (by decide) (by decide) (by decide)]
  · have hv : (m.mCaused cause).fld Fld.FAB_CL_ASSIGN_VALID i = 0 :=
      zero (by decide) (by decide) (by decide) (by decide) (by decide) (by decide) rfl (by decide) (by omega)
    unfold Module.flag
    rw [hv]
    rfl
  · exact zero (by decide) (by decide) (by decide) (by decide) (by decide) (by decide) rfl (by decide) (by omega)
  · have hz : (m.mCaused cause).fld Fld.ERR_STATUS_KINDS i = 0 :=
      zero (by decide) (by decide) (by decide) (by decide) (by decide) (by decide) rfl (by decide) (by omega)
    apply BitVec.eq_of_toNat_eq
    rw [BitVec.toNat_setWidth]
    exact (congrArg (· % 2 ^ 32) (Nat.div_one _).symm).trans hz

theorem moduleResets : ModuleResets := by
  refine ⟨fun m cause hc ht => mReset_leaves hc ht, fun s => ⟨fun value => ⟨fun h0 hk => ?_, reset_idle⟩, ⟨fun h => ?_, fun h => ?_⟩,
    ⟨fun h => ?_, fun h => ?_⟩, pfFlr_yields s, completes_of_yields (pfFlr_yields s) (s.mod.mReset_trained (by decide))⟩⟩
  · exact ⟨reset_yields h0 hk, completes_of_yields (reset_yields h0 hk) (s.mod.mReset_trained (by decide))⟩
  · have hy : Yields .resetN s _ := resetN_yields (if_pos h)
    obtain ⟨hb, hf⟩ := ({ s.mod with board := { s.mod.board with resetLow := false } } : Module).mReset_trained
      (cause := Fld.GLB_RESET_CAUSE_PIN) (by decide)
    refine ⟨hy, completes_of_yields hy ⟨hb, hf, ?_⟩⟩
    rw [Module.settle_board, Module.trainLink_rest]
    exact congrArg Board.resetLow (Module.mReset_board _ _)
  · have hy : Yields .resetN s _ := resetN_yields (if_neg (by omega))
    exact ⟨hy, completes_of_yields hy ⟨rfl, rfl⟩⟩
  · have hy : Yields .perstN s _ := perstN_yields (if_pos h)
    refine ⟨hy, completes_of_yields hy ⟨Module.mReset_blanked _ _, ?_, ?_⟩⟩
    · rw [Module.flag_settle, Module.mReset_cause _ (by decide)]
    · rw [Module.settle_board, Module.mReset_board]
      rfl
  · have hy : Yields .perstN s _ := perstN_yields (if_neg (by simp [h]))
    exact ⟨hy, completes_of_yields hy ⟨rfl, rfl⟩⟩

/-- Settles O54: the steps of start-up one by one, then the M reset by the registers it takes and by what it blanks. -/
theorem startUpAndResets : Obligations.StartUpAndResets := ⟨startUpSteps, moduleResets⟩

end Sys2Proof.Machine
end

