-- ==== Sys2Proof/Proofs/Packets.lean ====
section
/-! The bytes of a packet, and packets that are forwarded and delivered. -/

namespace Sys2Proof.Machine

/-! ### The bytes of a packet (R301) -/

theorem fieldAt_append_left {a : List Byte} (b : List Byte) {n : ℕ} (h : a.length = n) : fieldAt (a ++ b) 0 n = leNat a := by
  unfold fieldAt
  rw [List.drop_zero, List.take_left' h]

theorem fieldAt_append_right {a : List Byte} (b : List Byte) {l : ℕ} (o n : ℕ) (h : a.length = l) :
    fieldAt (a ++ b) (l + o) n = fieldAt b o n := by
  unfold fieldAt
  rw [← h, List.drop_length_add_append]

/-- A field of `w` bits reads back from bytes that hold them. -/
theorem ofNat_leNat_leBytes {w n : ℕ} (v : BitVec w) (h : 2 ^ w ≤ 256 ^ n) : BitVec.ofNat w (leNat (leBytes n v.toNat)) = v := by
  rw [leNat_leBytes, Nat.mod_eq_of_lt (v.isLt.trans_le h), BitVec.ofNat_toNat, BitVec.setWidth_eq]

theorem byteOf_fieldAt_head (b : Byte) (bs : List Byte) : byteOf (fieldAt (b :: bs) 0 1) = b := by
  simp [fieldAt, leNat, byteOf]

theorem fieldAt_cons (b : Byte) (bs : List Byte) (o n : ℕ) : fieldAt (b :: bs) (o + 1) n = fieldAt bs o n := rfl

/-- The bytes of a packet, each field in front of what follows it. -/
theorem packetBytes_eq (k : Packet) : packetBytes k = leBytes 2 k.dst.toNat ++ (leBytes 2 k.src.toNat ++ (leBytes 3 k.jobId.toNat
    ++ (k.kind :: k.hops :: k.flags :: 0 :: 0 :: (leBytes 4 k.payload.length ++ (leBytes 16 k.spec.toNat ++ k.payload))))) := by
  simp [packetBytes]

theorem packetOf_packetBytes (k : Packet) (h : k.payload.length < 2 ^ 32) : packetOf (packetBytes k) = k := by
  have skip := fun (n v : ℕ) (b : List Byte) (o w : ℕ) => fieldAt_append_right b o w (length_leBytes n v)
  have here := fun (n v : ℕ) (b : List Byte) => fieldAt_append_left b (length_leBytes n v)
  have late : ∀ o w, fieldAt (packetBytes k) (7 + o) w = fieldAt (k.kind :: k.hops :: k.flags :: 0 :: 0 ::
      (leBytes 4 k.payload.length ++ (leBytes 16 k.spec.toNat ++ k.payload))) o w := by
    intro o w
    rw [packetBytes_eq, show 7 + o = 2 + (2 + (3 + o)) by omega, skip, skip, skip]
  have dst : fieldAt (packetBytes k) 0 2 = leNat (leBytes 2 k.dst.toNat) := by rw [packetBytes_eq, here]
  have src : fieldAt (packetBytes k) 2 2 = leNat (leBytes 2 k.src.toNat) := by
    rw [packetBytes_eq]
    exact (skip 2 _ _ 0 2).trans (here ..)
  have job : fieldAt (packetBytes k) 4 3 = leNat (leBytes 3 k.jobId.toNat) := by
    rw [packetBytes_eq]
    exact (skip 2 _ _ 2 3).trans ((skip 2 _ _ 0 3).trans (here ..))
  have len : fieldAt (packetBytes k) 12 4 = k.payload.length := by
    refine ((late 5 4).trans (here ..)).trans ?_
    rw [leNat_leBytes]
    exact Nat.mod_eq_of_lt h
  have spec : fieldAt (packetBytes k) 16 16 = leNat (leBytes 16 k.spec.toNat) :=
    (late 9 16).trans ((skip 4 k.payload.length _ 0 16).trans (here ..))
  have pay : (packetBytes k).drop 32 = k.payload := by
    rw [packetBytes_eq]
    simp [List.drop_append, List.drop_eq_nil_of_le]
  unfold packetOf
  rw [dst, src, job, len, spec, pay, List.take_length, ofNat_leNat_leBytes _ (by decide), ofNat_leNat_leBytes _ (by decide),
    ofNat_leNat_leBytes _ (by decide), ofNat_leNat_leBytes _ (by decide), late 0 1, late 1 1, late 2 1]
  rw [fieldAt_cons, fieldAt_cons, fieldAt_cons, byteOf_fieldAt_head, byteOf_fieldAt_head, byteOf_fieldAt_head]

/-! ### What an event leaves of the ports, the inbox and the group operations -/

theorem EventOnly.ports {m m' : Module} {refs : List RegRef} (h : EventOnly m m' refs) : m'.ports = m.ports := by
  rw [h.rest]
  rfl

theorem EventOnly.inbox {m m' : Module} {refs : List RegRef} (h : EventOnly m m' refs) : m'.inbox = m.inbox := by
  rw [h.rest]
  rfl

/-- The references of an event and the armed injection of its group. -/
abbrev probeRefs (k : Kind) : List RegRef := (RegId.ERR_INJECT_INV, k.block.group, 0) :: errRefs k.block

theorem HasEvent.cons {refs : List RegRef} {b : Block} (h : HasEvent refs b) (x : RegRef) : HasEvent (x :: refs) b where
  status := .tail _ h.status
  info0 := .tail _ h.info0
  info1 := .tail _ h.info1
  count := .tail _ h.count
  severe := .tail _ h.severe
  sigs := .tail _ h.sigs
  nmi := .tail _ h.nmi

/-- Everything that a check whose injection is armed can change. -/
theorem EventOnly.probe (m : Module) (k : Kind) (ten loc : ℕ) : EventOnly m (m.probe k ten loc) (probeRefs k) := by
  unfold Module.probe
  simp only
  split
  · have h1 := (EventOnly.record m k ten loc 0 true ((hasEvent_errRefs k.block).cons (RegId.ERR_INJECT_INV, k.block.group, 0))).trans
      (EventOnly.setReg _ (m.reg .ERR_INJECT_INV k.block.group &&& ~~~ BitVec.ofNat 64 (2 ^ k.bit)) (Block.group_lt _) (by decide)
        (List.mem_cons_self ..))
    split
    · exact h1.trans (EventOnly.raiseLost _ ((hasEvent_errRefs_int k.block).cons _))
    · exact h1
  · exact EventOnly.refl m _

/-! ### Packets that are forwarded (R303, R304) -/

theorem Module.port_setPort (m : Module) (p q : ℕ) (x : Port) : (m.setPort p x).port q = if p = q then x else m.port q := by
  unfold Module.port Module.setPort
  rw [Map.get?_insert]
  split <;> rfl

theorem Module.popRx_some {m : Module} {p : ℕ} {ok : Packet → Bool} {x : ℕ × Packet}
    (h : (m.port p).rxq.find? (fun x => ok x.2) = some x) :
    m.popRx p ok = (some x.2, m.setPort p { m.port p with rxq := (m.port p).rxq.erase x }) := by
  unfold Module.popRx
  simp only
  rw [h]

theorem Module.popRx_none {m : Module} {p : ℕ} {ok : Packet → Bool} (h : (m.port p).rxq.find? (fun x => ok x.2) = none) :
    m.popRx p ok = (none, m) := by
  unfold Module.popRx
  simp only
  rw [h]

/-- The port of a packet does not depend on what a port has received. -/
theorem Module.choosePort_setPort (m : Module) (k : Packet) {p : ℕ} {x : Port} (h : x.conflict = (m.port p).conflict) :
    (m.setPort p x).choosePort k = m.choosePort k := by
  have hu : (m.setPort p x).usable = m.usable := by
    funext q hk
    have hc : ((m.setPort p x).port q).conflict = (m.port q).conflict := by
      rw [Module.port_setPort]
      split
      · next e => rw [h, e]
      · rfl
    unfold Module.usable
    rw [hc]
    rfl
  unfold Module.choosePort Module.routePort
  rw [hu]
  rfl

/-- A packet that is lost leaves the ports and what waits for its tenancy, and is recorded. -/
theorem Module.losePacket_recorded (m : Module) (p : ℕ) :
    (m.losePacket p).ports = m.ports ∧ (m.losePacket p).inbox = m.inbox
      ∧ ((m.losePacket p).reg .ERR_STATUS Block.via.group).getLsbD Kind.VIA_HOP_LIMIT.bit = true :=
  have h := EventOnly.raise (m.addFld Fld.VIA_LOST_COUNT 0 0) Kind.VIA_HOP_LIMIT 0 p 0
  ⟨h.ports, h.inbox, Module.status_raise (by decide)⟩

/-- A packet at its hop limit, or with no usable port, is lost. -/
theorem Module.forward_lost {m : Module} {k : Packet}
    (h : m.fld Fld.VIA_ROUTE_CTL_HOP_LIMIT ≤ k.hops.toNat ∨ m.choosePort k = none) (came : Option ℕ) :
    m.forward k came = m.losePacket (came.getD 0) := by
  unfold Module.forward
  split
  · rfl
  · next hl => rw [h.resolve_left hl]

/-- The module once a port has given a received packet up. -/
def Module.without (m : Module) (p : ℕ) (x : ℕ × Packet) : Module :=
  m.setPort p { m.port p with rxq := (m.port p).rxq.erase x }

theorem Module.choosePort_without (m : Module) (p : ℕ) (x : ℕ × Packet) (k : Packet) : (m.without p x).choosePort k = m.choosePort k :=
  m.choosePort_setPort k rfl

theorem Module.rxq_of_without {m m' : Module} {p : ℕ} {x : ℕ × Packet} (h : m'.ports = (m.without p x).ports) :
    (m'.port p).rxq = (m.port p).rxq.erase x := by
  have e : m'.port p = (m.without p x).port p := by
    unfold Module.port
    rw [h]
  rw [e, Module.without, Module.port_setPort, if_pos rfl]

theorem packetForward_idle {p : Fin 6} {s : State} (h : (s.mod.port p.val).rxq.find? (fun x => !s.mod.isSelf x.2.dst) = none) :
    NoEffect (.packetForward p) s := by
  refine yields_of_run (show execPacketForward p s = s.run _ from rfl) ?_
  rw [Module.popRx_none (ok := fun k => !s.mod.isSelf k.dst) h]

theorem packetDeliver_idle {p : Fin 6} {s : State} (h : (s.mod.port p.val).rxq.find? (fun x => s.mod.isSelf x.2.dst) = none) :
    NoEffect (.packetDeliver p) s := by
  refine yields_of_run (show execPacketDeliver p s = s.run _ from rfl) ?_
  rw [Module.popRx_none (ok := fun k => s.mod.isSelf k.dst) h]

theorem packetForward_yields {p : Fin 6} {s : State} {x : ℕ × Packet}
    (h : (s.mod.port p.val).rxq.find? (fun x => !s.mod.isSelf x.2.dst) = some x) :
    Yields (.packetForward p) s ((s.mod.without p.val x).forward x.2 (some p.val)) := by
  refine yields_of_run (show execPacketForward p s = s.run _ from rfl) ?_
  rw [Module.popRx_some (ok := fun k => !s.mod.isSelf k.dst) h]
  rfl

theorem packetDeliver_yields {p : Fin 6} {s : State} {x : ℕ × Packet}
    (h : (s.mod.port p.val).rxq.find? (fun x => s.mod.isSelf x.2.dst) = some x) :
    Yields (.packetDeliver p) s ((s.mod.without p.val x).deliver p.val x.2) := by
  refine yields_of_run (show execPacketDeliver p s = s.run _ from rfl) ?_
  rw [Module.popRx_some (ok := fun k => s.mod.isSelf k.dst) h]
  rfl

/-- A packet that no port may carry on is lost and recorded. -/
theorem packetForward_lost {p : Fin 6} {s : State} {x : ℕ × Packet}
    (h : (s.mod.port p.val).rxq.find? (fun x => !s.mod.isSelf x.2.dst) = some x)
    (hl : s.mod.fld Fld.VIA_ROUTE_CTL_HOP_LIMIT ≤ x.2.hops.toNat ∨ s.mod.choosePort x.2 = none) :
    Completes (.packetForward p) s (fun m => (m.port p.val).rxq = (s.mod.port p.val).rxq.erase x ∧ m.inbox = s.mod.inbox
      ∧ (m.reg .ERR_STATUS Block.via.group).getLsbD Kind.VIA_HOP_LIMIT.bit = true) := by
  refine completes_of_yields (packetForward_yields h) ?_
  have hl' : (s.mod.without p.val x).fld Fld.VIA_ROUTE_CTL_HOP_LIMIT ≤ x.2.hops.toNat ∨ (s.mod.without p.val x).choosePort x.2 = none :=
    hl.imp id fun e => (s.mod.choosePort_without p.val x x.2).trans e
  rw [Module.forward_lost hl']
  obtain ⟨hp, hi, hs⟩ := Module.losePacket_recorded (s.mod.without p.val x) p.val
  exact ⟨Module.rxq_of_without hp, hi, hs⟩

/-! ### Packets that are delivered (R307, R308) -/

/-- A packet that the filter refuses leaves the ports and what waits, and is recorded. -/
theorem Module.filterDrop_recorded (m : Module) (p : ℕ) :
    (m.filterDrop p).inbox = m.inbox
      ∧ ((m.filterDrop p).reg .ERR_STATUS Block.via.group).getLsbD Kind.VIA_JOB_FILTER.bit = true := by
  have hv : ∀ m : Module, (m.violation 0 .via).inbox = m.inbox := fun m => (EventOnly.raise _ Kind.TEN_VIOLATION 0 _ 0).inbox
  exact ⟨(EventOnly.raise _ Kind.VIA_JOB_FILTER 0 p 0).inbox.trans (hv _), Module.status_raise (by decide)⟩

/-- A packet that names no job, or one whose registration disagrees with its complement, is refused. -/
theorem Module.deliver_unlisted {m : Module} {k : Packet} (hj : k.jobId.toNat ≠ 0) (hk : k.kind ≠ 0)
    (he : m.jobEntry k.jobId.toNat = none ∨ ∃ t, m.jobEntry k.jobId.toNat = some (t, false)) (p : ℕ) :
    (m.deliver p k).inbox = m.inbox
      ∧ ((m.deliver p k).reg .ERR_STATUS Block.via.group).getLsbD Kind.VIA_JOB_FILTER.bit = true := by
  unfold Module.deliver
  simp only [hj, decide_false, bne_self_eq_false, Bool.false_eq_true, if_false, beq_eq_false_iff_ne.2 hk]
  obtain he | ⟨t, he⟩ := he
  · rw [he]
    exact m.filterDrop_recorded p
  · rw [he]
    obtain ⟨hi, hs⟩ := (m.raise Kind.VIA_PAIR t.val p).filterDrop_recorded p
    exact ⟨hi.trans (EventOnly.raise m Kind.VIA_PAIR t.val p 0).inbox, hs⟩

/-- A packet whose job and kind do not go together is refused. -/
theorem Module.deliver_mixed {m : Module} {k : Packet} (h : k.jobId.toNat = 0 ↔ k.kind ≠ 0) (p : ℕ) :
    m.deliver p k = m.filterDrop p := by
  unfold Module.deliver
  refine if_pos ?_
  by_cases hk : k.kind = 0
  · simp [hk, mt h.1 (not_not.2 hk)]
  · simp [h.2 hk]
    exact hk

theorem Module.bill_rest (m : Module) (t : ℕ) (f : Ledger → Ledger) :
    (m.bill t f).inbox = m.inbox ∧ (m.bill t f).ports = m.ports := by
  unfold Module.bill
  split <;> exact ⟨rfl, rfl⟩

/-- A packet of a registered job waits to act on its tenancy. -/
theorem Module.deliver_listed {m : Module} {k : Packet} {t : Ten} (hj : k.jobId.toNat ≠ 0) (hk : k.kind ≠ 0)
    (he : m.jobEntry k.jobId.toNat = some (t, true)) (p : ℕ) :
    (m.deliver p k).inbox = m.inbox ++ [(t, k)] ∧ (m.deliver p k).ports = m.ports := by
  have hp := EventOnly.probe m Kind.VIA_PAIR t.val p
  unfold Module.deliver
  simp only [hj, decide_false, bne_self_eq_false, Bool.false_eq_true, if_false, beq_eq_false_iff_ne.2 hk, he]
  obtain ⟨hi, hq⟩ := Module.bill_rest { m.probe Kind.VIA_PAIR t.val p with
    inbox := (m.probe Kind.VIA_PAIR t.val p).inbox ++ [(t, k)] } t.val (fun l => { l with link := l.link + k.payload.length })
  exact ⟨hi.trans (congrArg (· ++ [(t, k)]) hp.inbox), hq.trans hp.ports⟩

theorem packetsHandled : PacketsHandled := by
  refine ⟨packetOf_packetBytes, fun p s => ⟨packetForward_idle, packetDeliver_idle, fun x h => ⟨packetForward_yields h,
    packetForward_lost h⟩, fun x h => ⟨packetDeliver_yields h, fun t hj hk he => ?_, fun hm => ?_, fun hj hk he => ?_⟩⟩⟩
  · refine completes_of_yields (packetDeliver_yields h) ?_
    obtain ⟨hi, hp⟩ := Module.deliver_listed (m := s.mod.without p.val x) hj hk he p.val
    exact ⟨hi, Module.rxq_of_without hp⟩
  · refine completes_of_yields (packetDeliver_yields h) ?_
    rw [Module.deliver_mixed hm]
    exact Module.filterDrop_recorded (s.mod.without p.val x) p.val
  · refine completes_of_yields (packetDeliver_yields h) ?_
    exact Module.deliver_unlisted (m := s.mod.without p.val x) hj hk he p.val

end Sys2Proof.Machine
end

