-- ==== Sys2Proof/Proofs/PeersAndJobs.lean ====
section
/-! Sync-plane messages, discovery and job registrations (O43). -/

namespace Sys2Proof.Machine

/-! ### Sync-plane messages (R314) -/

theorem EventOnly.groupOps {m m' : Module} {refs : List RegRef} (h : EventOnly m m' refs) : m'.groupOps = m.groupOps := by
  rw [h.rest]
  rfl

/-- What a module takes of the two copies of a message. -/
def Module.takeCopies (m : Module) (p : ℕ) (a b : List Byte) : Module :=
  if syncOk a then (m.probe Kind.SYN_CRC 0 p).takeSync p false a
  else if syncOk b then (m.probe Kind.SYN_CRC 0 p).takeSync p false b
  else (m.raise Kind.SYN_CRC 0 p).send (.syncResend p)

theorem syncMessage_idle {p : Fin 6} {s : State} (a b : BitVec 256)
    (h : s.mod.portUp p.val = false ∨ s.mod.fld Fld.VIA_PORT_STATUS_SYNC_LANES p.val = 0) :
    NoEffect (.syncMessageReceive p a b) s := by
  refine yields_of_run (show execSyncMessageReceive p a b s = s.run _ from rfl) (if_pos ?_)
  rcases h with h | h
  · rw [h]
    rfl
  · simp [h]

theorem syncMessage_yields {p : Fin 6} {s : State} (a b : BitVec 256) (hu : s.mod.portUp p.val = true)
    (hl : s.mod.fld Fld.VIA_PORT_STATUS_SYNC_LANES p.val ≠ 0) :
    Yields (.syncMessageReceive p a b) s (s.mod.takeCopies p.val (leBytes 32 a.toNat) (leBytes 32 b.toNat)) := by
  refine yields_of_run (show execSyncMessageReceive p a b s = s.run _ from rfl) ((if_neg ?_).trans rfl)
  simp [hu, hl]

theorem syncMessages : SyncMessages := by
  intro p s laneA laneB
  refine ⟨syncMessage_idle _ _, fun hu hl => ?_⟩
  have hy := syncMessage_yields laneA laneB hu hl
  unfold Module.takeCopies at hy
  refine ⟨fun ha => ?_, fun ha hb => ?_, fun ha hb => ?_⟩
  · rwa [if_pos ha] at hy
  · rwa [if_neg (Bool.eq_false_iff.1 ha), if_pos hb] at hy
  · rw [if_neg (Bool.eq_false_iff.1 ha), if_neg (Bool.eq_false_iff.1 hb)] at hy
    refine ⟨hy, completes_of_yields hy ⟨Module.status_raise (by decide), ?_, _, rfl⟩⟩
    exact (EventOnly.raise s.mod Kind.SYN_CRC 0 p.val 0).groupOps

/-! ### Discovery (R309, R310) -/

/-- The port of the peer is not the one that the torus gives. -/
def miswired (p peer : Fin 6) : Bool := peer.val / 2 != p.val / 2 || peer.val == p.val

theorem miswired_iff {p peer : Fin 6} : miswired p peer = true ↔ peer.val / 2 ≠ p.val / 2 ∨ peer = p := by
  simp [miswired, Fin.ext_iff]

/-- What VIA_PORT_PEER holds of a peer: its port and module, whether it is miswired and of Fuboin's make, and its serial. -/
def peerWord (p peer : Fin 6) (module : ℕ) (fub : Bool) (serial : Word) : Word64 :=
  BitVec.ofNat 64 (2 ^ 63 + (if miswired p peer then 2 ^ 62 else 0) + (if fub then 2 ^ 61 else 0)
    + module * 2 ^ 48 + peer.val * 2 ^ 32 + serial.toNat)

/-- The parts of the word do not reach into each other. -/
theorem peerWord_toNat (p peer : Fin 6) {module : ℕ} (h : module < 2 ^ 13) (fub : Bool) (serial : Word) :
    ∃ low, low < 2 ^ 48 ∧ (peerWord p peer module fub serial).toNat
      = 2 ^ 63 + (if miswired p peer then 2 ^ 62 else 0) + (if fub then 2 ^ 61 else 0) + module * 2 ^ 48 + low := by
  have hs := serial.isLt
  refine ⟨peer.val * 2 ^ 32 + serial.toNat, by omega, ?_⟩
  unfold peerWord
  rw [BitVec.toNat_ofNat, Nat.mod_eq_of_lt]
  · omega
  · split <;> split <;> omega

theorem peerWord_shift (p peer : Fin 6) {module : ℕ} (h : module < 2 ^ 13) (fub : Bool) (serial : Word) :
    peerWord p peer module fub serial >>> 62 = if peer.val / 2 ≠ p.val / 2 ∨ peer = p then 3 else 2 := by
  obtain ⟨low, hl, e⟩ := peerWord_toNat p peer h fub serial
  apply BitVec.eq_of_toNat_eq
  rw [BitVec.toNat_ushiftRight, Nat.shiftRight_eq_div_pow, e]
  simp only [← miswired_iff]
  cases miswired p peer <;> cases fub <;> simp <;> omega

theorem peerWord_module (p peer : Fin 6) {module : ℕ} (h : module < 2 ^ 13) (fub : Bool) (serial : Word) :
    bitsAt (peerWord p peer module fub serial).toNat 48 13 = module := by
  obtain ⟨low, hl, e⟩ := peerWord_toNat p peer h fub serial
  rw [e]
  unfold bitsAt
  cases miswired p peer <;> cases fub <;> simp <;> omega

theorem peerWord_miswire {p peer : Fin 6} (hm : miswired p peer = true) {module : ℕ} (h : module < 2 ^ 13) (fub : Bool) (serial : Word) :
    bitsAt (peerWord p peer module fub serial).toNat 62 1 = 1 := by
  obtain ⟨low, hl, e⟩ := peerWord_toNat p peer h fub serial
  rw [e, hm]
  unfold bitsAt
  cases fub <;> simp <;> omega

/-- What a module does once it has kept what a flit says of the peer at a port. -/
def Module.meetPeer (m : Module) (p peer : Fin 6) (x y z : ℕ) : Module :=
  let cx := m.stepFrom p.val 0 x
  let cy := m.stepFrom p.val 1 y
  let cz := m.stepFrom p.val 2 z
  if miswired p peer then m.raise Kind.VIA_MISWIRE 0 p.val
  else if !m.flag Fld.VIA_DISC_STATUS_DONE then m.setCoord cx cy cz
  else if m.coord 0 == cx && m.coord 1 == cy && m.coord 2 == cz then m
  else ((m.setPort p.val { m.port p.val with conflict := true }).setFlag Fld.VIA_DISC_STATUS_CONFLICT 0 0 true).raise
    Kind.VIA_DISC_CONFLICT 0 p.val

theorem discovery_idle {p peer : Fin 6} {x y : BitVec 4} {z : BitVec 5} {dims : BitVec 13} {s : State}
    (h : s.mod.linkUp p.val = false) : NoEffect (.discoveryLinkFlit p peer x y z dims) s := by
  refine yields_of_run (show execDiscoveryLinkFlit p peer x y z dims s = s.run _ from rfl) (if_pos ?_)
  rw [h]
  rfl

/-- A port that carries packets keeps what a flit says of its peer, and the module acts on it. -/
theorem discovery_yields {p peer : Fin 6} {x y : BitVec 4} {z : BitVec 5} {dims : BitVec 13} {s : State}
    (h : s.mod.linkUp p.val = true) :
    ∃ w : Word64, (w >>> 62 = if peer.val / 2 ≠ p.val / 2 ∨ peer = p then 3 else 2)
      ∧ bitsAt w.toNat 48 13 = z.toNat * 256 + y.toNat * 16 + x.toNat ∧ (miswired p peer = true → bitsAt w.toNat 62 1 = 1)
      ∧ Yields (.discoveryLinkFlit p peer x y z dims) s
        ((s.mod.setReg .VIA_PORT_PEER p.val 0 w).drawn.meetPeer p peer x.toNat y.toNat z.toNat) := by
  have hm : z.toNat * 256 + y.toNat * 16 + x.toNat < 2 ^ 13 := by omega
  refine ⟨peerWord p peer _ (s.mod.fld Fld.VIA_PORT_STATUS_VLP p.val == 0x22 && Config.freeBool s.mod.freeIx)
    (Config.freeWord s.mod.freeIx), peerWord_shift p peer hm _ _, peerWord_module p peer hm _ _,
    fun hb => peerWord_miswire hb hm _ _, ?_⟩
  refine yields_of_run (show execDiscoveryLinkFlit p peer x y z dims s = s.run _ from rfl) ((if_neg ?_).trans rfl)
  rw [h]
  decide

/-- A port whose peer is miswired carries nothing. -/
theorem portUp_miswired {m : Module} {p : ℕ} (h : bitsAt (m.reg .VIA_PORT_PEER p).toNat 62 1 = 1) : m.portUp p = false := by
  have hf : m.flag Fld.VIA_PORT_PEER_MISWIRE p = true := by
    unfold Module.flag
    exact beq_iff_eq.2 h
  simp [Module.portUp, hf]

theorem Module.dim_pos (m : Module) (d : ℕ) : 0 < m.dim d := by
  unfold Module.dim
  omega

theorem Module.stepFrom_lt (m : Module) (p d : ℕ) {c n : ℕ} (hc : c < n) (hd : m.dim d ≤ n) : m.stepFrom p d c < n := by
  unfold Module.stepFrom
  split
  · exact hc
  · split <;> exact (Nat.mod_lt _ (m.dim_pos d)).trans_le hd

theorem Module.dim_le (m : Module) : m.dim 0 ≤ 16 ∧ m.dim 1 ≤ 16 ∧ m.dim 2 ≤ 32 := by
  have hx := m.fld_lt Fld.VIA_DISC_CTL_DIM_X_M1 0 0
  have hy := m.fld_lt Fld.VIA_DISC_CTL_DIM_Y_M1 0 0
  have hz := m.fld_lt Fld.VIA_DISC_CTL_DIM_Z_M1 0 0
  rw [show Fld.VIA_DISC_CTL_DIM_X_M1.width = 4 from rfl] at hx
  rw [show Fld.VIA_DISC_CTL_DIM_Y_M1.width = 4 from rfl] at hy
  rw [show Fld.VIA_DISC_CTL_DIM_Z_M1.width = 5 from rfl] at hz
  exact ⟨(Nat.add_comm 1 _).trans_le hx, (Nat.add_comm 1 _).trans_le hy, (Nat.add_comm 1 _).trans_le hz⟩

/-- The top bit of a number that just fits. -/
theorem bitsAt_top {n v : ℕ} (h : v < 2 ^ n) : bitsAt (2 ^ n + v) n 1 = 1 := by
  unfold bitsAt
  rw [Nat.add_div_left _ (Nat.two_pow_pos n), Nat.div_eq_of_lt h]
  rfl

theorem Module.announce_regs (m : Module) (p : ℕ) : (m.announce p).regs = m.regs := by
  unfold Module.announce Module.sendLinkFlit Module.putFlit
  simp only
  split
  · split <;> rfl
  · rfl

/-- A module that takes a coordinate has one. -/
theorem Module.flag_setCoord (m : Module) {x y z : ℕ} (hx : x < 16) (hy : y < 16) (hz : z < 32) :
    (m.setCoord x y z).flag Fld.VIA_DISC_STATUS_DONE = true := by
  have hc := m.fld_lt Fld.VIA_DISC_STATUS_CONFLICT 0 0
  rw [show Fld.VIA_DISC_STATUS_CONFLICT.width = 1 from rfl] at hc
  generalize hcv : m.fld Fld.VIA_DISC_STATUS_CONFLICT = c at hc
  have keep : ∀ (l : List ℕ) (m : Module), (l.foldl (fun m p => m.announce p) m).regs = m.regs := fun l m =>
    List.foldlRecOn (motive := fun m' : Module => m'.regs = m.regs) l _ rfl fun m' h p _ => (m'.announce_regs p).trans h
  unfold Module.setCoord
  simp only [hcv]
  rw [Module.flag_of_regs (keep _ _)]
  unfold Module.flag Module.fld
  rw [Module.reg_setReg_ne _ _ (by decide) (by decide) (by decide) (by decide) (by decide)]
  rw [show Fld.VIA_DISC_STATUS_DONE.reg = .VIA_DISC_STATUS from rfl, Module.reg_setReg_self,
    BitVec.toNat_ofNat, Nat.mod_eq_of_lt (by omega)]
  rw [show 2 ^ 31 + c * 2 ^ 30 + z * 2 ^ 24 + y * 2 ^ 20 + x * 2 ^ 16 + (z * 256 + y * 16 + x)
    = 2 ^ 31 + (c * 2 ^ 30 + z * 2 ^ 24 + y * 2 ^ 20 + x * 2 ^ 16 + (z * 256 + y * 16 + x)) by omega]
  exact beq_iff_eq.2 (bitsAt_top (by omega))

theorem discovery : Discovery := by
  intro p peer x y z dims s
  refine ⟨discovery_idle, fun hl => ?_⟩
  obtain ⟨w, hs, hn, hw, hy⟩ := discovery_yields (p := p) (peer := peer) (x := x) (y := y) (z := z) (dims := dims) hl
  refine ⟨w, hs, hn, ?_⟩
  have hreg : (s.mod.setReg .VIA_PORT_PEER p.val 0 w).drawn.reg .VIA_PORT_PEER p.val = w := Module.reg_setReg_self ..
  generalize (s.mod.setReg .VIA_PORT_PEER p.val 0 w).drawn = m at hy hreg ⊢
  obtain ⟨dx, dy, dz⟩ := m.dim_le
  refine ⟨fun hm => ?_, fun hp hne => ?_⟩
  · have hm' := miswired_iff.2 hm
    have hy : Yields (.discoveryLinkFlit p peer x y z dims) s (m.raise Kind.VIA_MISWIRE 0 p.val) := by rwa [Module.meetPeer, if_pos hm'] at hy
    refine ⟨hy, completes_of_yields hy (portUp_miswired ?_)⟩
    rw [Module.reg_settle, (EventOnly.raise m Kind.VIA_MISWIRE 0 p.val 0).regs .VIA_PORT_PEER p.val 0 (by omega) (by decide)
      (by simp [errRefs]), hreg]
    exact hw hm'
  · have hm' : miswired p peer = false := by simp [miswired, hp, Fin.val_ne_of_ne hne]
    simp only [Module.meetPeer, hm', Bool.false_eq_true, if_false] at hy
    refine ⟨fun hd => ?_, fun hd hc => ?_, fun hd hc => ?_⟩
    · simp only [hd, Bool.not_false, if_true] at hy
      exact ⟨hy, completes_of_yields hy ((Module.flag_settle _ _ 0 0).trans (Module.flag_setCoord m
        (m.stepFrom_lt p.val 0 x.isLt dx) (m.stepFrom_lt p.val 1 y.isLt dy) (m.stepFrom_lt p.val 2 z.isLt dz)))⟩
    · obtain ⟨h0, h1, h2⟩ := hc
      simp only [hd, h0, h1, h2, Bool.not_true, Bool.false_eq_true, if_false, beq_self_eq_true, Bool.and_self, if_true] at hy
      exact hy
    · simp only [hd, Bool.not_true, Bool.false_eq_true, if_false] at hy
      rw [if_neg (by simpa [and_assoc] using hc)] at hy
      exact hy

/-! ### A register that is read as before -/

/-- Every element of a register reads as before. -/
def RegKept (r : RegId) (m m' : Module) : Prop := ∀ i j, i < 2 ^ 24 → j < 2 ^ 16 → m'.reg r i j = m.reg r i j

theorem RegKept.refl (r : RegId) (m : Module) : RegKept r m m := fun _ _ _ _ => rfl

theorem RegKept.trans {r : RegId} {m m' m'' : Module} (h : RegKept r m m') (h' : RegKept r m' m'') : RegKept r m m'' :=
  fun i j hi hj => (h' i j hi hj).trans (h i j hi hj)

theorem RegKept.of_regs {r : RegId} {m m' : Module} (h : m'.regs = m.regs) : RegKept r m m' :=
  fun i j _ _ => Module.reg_of_regs h r i j

theorem RegKept.setFld {r : RegId} (m : Module) {f : Field} {i j : ℕ} (v : ℕ) (hr : r ≠ f.reg) (hi : i < 2 ^ 24)
    (hj : j < 2 ^ 16) : RegKept r m (m.setFld f i j v) :=
  fun _ _ hi' hj' => m.reg_setFld_ne f v hi hj hi' hj' fun ⟨e, _⟩ => hr e

theorem RegKept.foldl {α : Type} {r : RegId} {f : Module → α → Module} (hf : ∀ m a, RegKept r m (f m a)) (l : List α) (m : Module) :
    RegKept r m (l.foldl f m) :=
  List.foldlRecOn (motive := fun m' : Module => RegKept r m m') l _ (RegKept.refl r m) fun _ h a _ => h.trans (hf _ a)

theorem RegKept.ite {r : RegId} {m a b : Module} {c : Prop} [Decidable c] (ha : RegKept r m a) (hb : RegKept r m b) :
    RegKept r m (if c then a else b) := by split <;> assumption

/-! ### A job registration (R306, R336) -/

theorem RegKept.mirrorKeys (m : Module) {ten : ℕ} (ht : ten < 2 ^ 24) : RegKept .VIA_JOB m (m.mirrorKeys ten) :=
  RegKept.setFld m (f := Fld.MEM_TEN_KEYS_IN_USE) _ (by decide) ht (by decide)

theorem RegKept.freeFrame (m : Module) (f : ℕ) : RegKept .VIA_JOB m (m.freeFrame f) := by
  have ht : tagTen (m.tag f) < 2 ^ 24 := (bitsAt_lt _ _ _).trans (by decide)
  exact ((RegKept.of_regs (m := m) (m' := m.setTag f (0x4000 + (m.tag f).toNat % 0x4000)) rfl).trans
    (RegKept.setFld _ (f := Fld.XLT_TEN_FRAMES_FRAMES) _ (by decide) ht (by decide))).trans
    ((RegKept.mirrorKeys _ ht).trans (RegKept.of_regs rfl))

theorem RegKept.scrubFrame (m : Module) (f : ℕ) : RegKept .VIA_JOB m (m.scrubFrame f) := by
  unfold Module.scrubFrame
  simp only
  split
  · exact RegKept.of_regs (m.zeroFrame_regs f)
  · exact (RegKept.of_regs (m.zeroFrame_regs f)).trans (RegKept.setFld _ _ (by decide) (by decide) (by decide))

theorem RegKept.releaseFrames (m : Module) (ten : ℕ) (fs : List ℕ) : RegKept .VIA_JOB m (m.releaseFrames ten fs) :=
  RegKept.foldl (fun m f => RegKept.ite ((RegKept.freeFrame m f).trans (RegKept.scrubFrame _ f)) (RegKept.refl _ m)) fs m

theorem RegKept.mirrorCol (m : Module) (t : Ten) : RegKept .VIA_JOB m (m.mirrorCol t) :=
  (RegKept.setFld m _ (by decide) (by omega) (by decide)).trans (RegKept.setFld _ _ (by decide) (by omega) (by decide))

theorem RegKept.dropInst (m : Module) (x : Inst) : RegKept .VIA_JOB m (m.dropInst x) :=
  ((RegKept.of_regs (m' := { m with insts := m.insts.filter (fun y => !x.same y) }) rfl).trans
    (RegKept.releaseFrames _ x.ten.val x.frames)).trans (RegKept.mirrorCol _ x.ten)

theorem RegKept.finish (m : Module) (r : RegId) (id status detail : ℕ) : RegKept r m (m.finish id status detail) := by
  unfold Module.finish
  split
  · exact RegKept.refl r m
  · exact RegKept.of_regs rfl

/-- Cancelling the collectives of a tenancy leaves its registration. -/
theorem RegKept.cancelCols (m : Module) (t : Ten) (abort : Bool) : RegKept .VIA_JOB m (m.cancelCols t abort) := by
  refine RegKept.foldl (fun m x => (RegKept.dropInst m x).trans ?_) _ m
  split
  · exact RegKept.ite (RegKept.finish _ _ _ _ _) (RegKept.refl _ _)
  · exact RegKept.refl _ _

theorem jobWrite_yields (ten : Ten) (value : Word64) (s : State) : Yields (.viaJobWrite ten value) s (s.mod.writeJob ten value) :=
  yields_of_run (show execViaJobWrite ten value s = s.run _ from rfl) rfl

/-- Another tenancy holds the job. -/
def Module.jobTaken (m : Module) (ten : Ten) (job : ℕ) : Bool :=
  (List.finRange 101).any fun u => u != ten && u != house && m.flag Fld.VIA_JOB_VALID u.val && m.fld Fld.VIA_JOB_JOB_ID u.val == job

theorem Module.jobTaken_iff {m : Module} {ten : Ten} {job : ℕ} : m.jobTaken ten job = true
    ↔ ∃ u : Ten, u ≠ ten ∧ u ≠ house ∧ m.flag Fld.VIA_JOB_VALID u.val = true ∧ m.fld Fld.VIA_JOB_JOB_ID u.val = job := by
  simp [Module.jobTaken, and_assoc]

/-- The module once a job is registered, or a registration cleared. -/
def Module.registered (m : Module) (ten : Ten) (value : Word64) : Module :=
  let m' := m.setReg .VIA_JOB ten.val 0 (RegId.VIA_JOB.pairValue value)
  if (m.jobOf ten.val).isSome && m'.jobOf ten.val != m.jobOf ten.val then m'.cancelCols ten true else m'

theorem Module.writeJob_eq {m : Module} {ten : Ten} {value : Word64} (ht : ten ≠ house) :
    m.writeJob ten value =
      if !pairOk value then m.raise Kind.VIA_PAIR ten.val ten.val
      else if value.getLsbD 31 && bitsAt value.toNat 0 24 = 0 then m
      else if value.getLsbD 31 && m.jobTaken ten (bitsAt value.toNat 0 24) then m.raise Kind.VIA_JOB_DUP ten.val ten.val
      else m.registered ten value := by
  unfold Module.writeJob
  exact if_neg ht

theorem Module.reg_registered (m : Module) (ten : Ten) (value : Word64) :
    (m.registered ten value).reg .VIA_JOB ten.val = RegId.VIA_JOB.pairValue value := by
  have h : RegKept .VIA_JOB (m.setReg .VIA_JOB ten.val 0 (RegId.VIA_JOB.pairValue value)) (m.registered ten value) :=
    RegKept.ite (RegKept.cancelCols _ _ _) (RegKept.refl _ _)
  rw [h ten.val 0 (by omega) (by decide), Module.reg_setReg_self]

theorem jobWrites : JobWrites := by
  intro ten value s ht
  have hy := jobWrite_yields ten value s
  rw [Module.writeJob_eq ht] at hy
  refine ⟨fun hp => ?_, fun hp hv hj => ?_, fun hp hv hj hd => ?_, fun hp hv => ?_⟩
  · rw [hp] at hy
    exact recorded_of_yields (by decide) hy
  · simp only [hp, hv, hj] at hy
    exact hy
  · rw [hp, hv] at hy
    simp only [Bool.not_true, Bool.false_eq_true, if_false, Bool.true_and, hj, decide_false, Module.jobTaken_iff.2 hd, if_true] at hy
    exact recorded_of_yields (by decide) hy
  · have hy : Yields (.viaJobWrite ten value) s (s.mod.registered ten value) := by
      rw [hp] at hy
      cases hv31 : value.getLsbD 31 with
      | false =>
        rw [hv31] at hy
        exact hy
      | true =>
        obtain ⟨hj, hd⟩ := hv hv31
        rw [hv31] at hy
        simpa [hj, mt Module.jobTaken_iff.1 hd] using hy
    have hr := s.mod.reg_registered ten value
    refine ⟨completes_of_yields hy ⟨?_, ?_, ?_⟩, fun hn => ?_⟩
    · rw [Module.flag_settle, Module.flag, Module.fld, show Fld.VIA_JOB_VALID.reg = .VIA_JOB from rfl, hr,
        bitsAt_pairValue (by decide) (by decide)]
      exact (bitsAt_one_eq _ _).trans (BitVec.testBit_toNat ..)
    · rw [Module.fld_settle, Module.fld, show Fld.VIA_JOB_JOB_ID.reg = .VIA_JOB from rfl, hr,
        bitsAt_pairValue (by decide) (by decide)]
      rfl
    · rw [Module.reg_settle, hr, pairOk_pairValue]
    · rw [Module.registered, hn] at hy
      exact hy

/-- Settles O43: packets by the field that each byte stands for and by the branches of forwarding and delivery, registrations by
the register that the cancelling leaves, discovery by the bits of the word that it keeps, and messages by their two copies. -/
theorem linkPackets : Obligations.LinkPackets := ⟨packetsHandled, jobWrites, discovery, syncMessages⟩

end Sys2Proof.Machine
end

