-- ==== Sys2Proof/Proofs/ErrorGroups.lean ====
section
/-! The commands of the error groups. -/

namespace Sys2Proof.Machine

/-! ### The error groups (R403, R405, R407, R415) -/

/-- A module with other registers, brought in line, differs in them alone. -/
theorem onlyRegs_of_eq {s : State} {m : Module} {but : List RegRef} (hm : m = { s.mod with regs := m.regs })
    (hr : RegsKept s.mod m but) : OnlyRegs s { s with mod := m.settle } but := ⟨rfl, congrArg Module.settle hm, hr⟩

theorem windowExpire_closes (s : State) (b : Block) (kind : Fin 32) :
    ∃ s', exec (.errClassWindowExpire b kind) s = .next s' ∧ s'.pending = s.pending
      ∧ s'.mod = ({ s.mod with errWin := s'.mod.errWin }).settle
      ∧ Map.get? s'.mod.errWin (winKey b.group kind.val) = none
      ∧ (∀ k, k ≠ winKey b.group kind.val → Map.get? s'.mod.errWin k = Map.get? s.mod.errWin k) := by
  refine ⟨_, rfl, rfl, rfl, ?_, fun k hk => ?_⟩
  · exact (Map.get?_erase _ _ _).trans (if_pos rfl)
  · exact (Map.get?_erase _ _ _).trans (if_neg hk.symm)

/-- The severe bits of a group once a write has cleared what it may. -/
theorem clearSevere_bit (w : Word64) (v stuck : ℕ) {i : ℕ} (hi : i < 32) :
    (BitVec.ofNat 64 (w.toNat &&& (2 ^ 32 - 1 - (w.toNat &&& v &&& (2 ^ 32 - 1 - stuck))))).getLsbD i
      = (w.getLsbD i && !(v.testBit i && (2 ^ 32 - 1 - stuck).testBit i)) := by
  have hg : w.toNat &&& v &&& (2 ^ 32 - 1 - stuck) < 2 ^ 32 := Nat.and_lt_two_pow _ (by omega)
  rw [BitVec.getLsbD_ofNat, Nat.testBit_and, Nat.sub_sub, Nat.add_comm 1, Nat.testBit_two_pow_sub_succ hg, Nat.testBit_and,
    Nat.testBit_and, BitVec.testBit_toNat]
  have h64 : i < 64 := by omega
  cases w.getLsbD i <;> simp [hi, h64]

theorem severeClear_yields (s : State) (b : Block) (value : Word) :
    Yields (.errSevereClear b value) s (s.mod.clearSevere b value.toNat) := rfl

theorem Module.clearSevere_rest (m : Module) (b : Block) (v : ℕ) :
    m.clearSevere b v = { m with regs := (m.clearSevere b v).regs, errWin := (m.clearSevere b v).errWin } := rfl

theorem Module.reg_clearSevere (m : Module) (b : Block) (v : ℕ) :
    (m.clearSevere b v).reg .ERR_SEVERE b.group = BitVec.ofNat 64 ((m.reg .ERR_SEVERE b.group).toNat
      &&& (2 ^ 32 - 1 - ((m.reg .ERR_SEVERE b.group).toNat &&& v &&& (2 ^ 32 - 1 - m.stuckSevere b)))) :=
  Module.reg_setReg_self ..

theorem severeClear_bits (s : State) (b : Block) (value : Word) (h : b ≠ Block.pwr ∨ s.mod.board.tripped = false) :
    ∃ s', exec (.errSevereClear b value) s = .next s' ∧ s'.pending = s.pending
      ∧ s'.mod = ({ s.mod with regs := s'.mod.regs, errWin := s'.mod.errWin }).settle
      ∧ RegsKept s.mod s'.mod [(.ERR_SEVERE, b.group, 0)]
      ∧ ∀ i, i < 32 → (s'.mod.reg .ERR_SEVERE b.group).getLsbD i
          = ((s.mod.reg .ERR_SEVERE b.group).getLsbD i && !value.getLsbD i) := by
  refine ⟨_, severeClear_yields s b value, rfl, congrArg Module.settle (s.mod.clearSevere_rest b _), ?_, fun i hi => ?_⟩
  · exact RegsKept.setReg s.mod _ (Block.group_lt b) (by decide) (List.mem_singleton.2 rfl)
  · have hs : s.mod.stuckSevere b = 0 := by
      refine if_neg ?_
      rcases h with h | h <;> simp [h]
    rw [Module.reg_settle, Module.reg_clearSevere, clearSevere_bit _ _ _ hi, hs]
    rw [Nat.sub_zero, Nat.testBit_two_pow_sub_one, BitVec.testBit_toNat, decide_eq_true hi, Bool.and_true]

theorem severeClear_trip (s : State) (value : Word) (ht : s.mod.board.tripped = true)
    (hb : (s.mod.reg .ERR_SEVERE Block.pwr.group).getLsbD Kind.PWR_TRIP.bit = true) :
    ∃ s', exec (.errSevereClear Block.pwr value) s = .next s'
      ∧ (s'.mod.reg .ERR_SEVERE Block.pwr.group).getLsbD Kind.PWR_TRIP.bit = true := by
  have hs : s.mod.stuckSevere Block.pwr = 2 ^ Kind.PWR_TRIP.bit := if_pos (by rw [ht]; rfl)
  refine ⟨_, severeClear_yields s _ value, ?_⟩
  rw [Module.reg_settle, Module.reg_clearSevere, clearSevere_bit _ _ _ (by decide), hs, hb]
  have hm : (2 ^ 32 - 1 - 2 ^ Kind.PWR_TRIP.bit).testBit Kind.PWR_TRIP.bit = false := by decide
  rw [hm]
  simp

/-- The module once ERR_CLEAR unfreezes the first-error record of a group, where FIRST is set. -/
def Module.unfrozen (m : Module) (b : Block) (first : Bool) : Module :=
  if first then m.setFlag Fld.ERR_FIRST_INFO0_VALID b.group 0 false else m

/-- The module once ERR_CLEAR zeroes the count of a group, where COUNT is set. -/
def Module.uncounted (m : Module) (b : Block) (count : Bool) : Module :=
  if count then (m.setFld Fld.ERR_COUNT_COUNT b.group 0 0).setFlag Fld.ERR_COUNT_OVERFLOW b.group 0 false else m

theorem errClear_yields (s : State) (b : Block) (value : Word) :
    Yields (.errClear b value) s ((s.mod.unfrozen b (value.getLsbD 0)).uncounted b (value.getLsbD 1)) := rfl

theorem Module.unfrozen_rest (m : Module) (b : Block) (first : Bool) :
    m.unfrozen b first = { m with regs := (m.unfrozen b first).regs } ∧ RegsKept m (m.unfrozen b first) [(.ERR_FIRST_INFO0, b.group, 0)]
      ∧ (m.unfrozen b first).flag Fld.ERR_FIRST_INFO0_VALID b.group = (m.flag Fld.ERR_FIRST_INFO0_VALID b.group && !first) := by
  cases first with
  | false => exact ⟨rfl, RegsKept.refl m _, (Bool.and_true _).symm⟩
  | true =>
    exact ⟨rfl, RegsKept.setFld (f := Fld.ERR_FIRST_INFO0_VALID) _ (Block.group_lt b) (by decide),
      (Module.flag_setFlag_self m (by decide) _ _ _).trans (Bool.and_false _).symm⟩

theorem Module.uncounted_rest (m : Module) (b : Block) (count : Bool) :
    m.uncounted b count = { m with regs := (m.uncounted b count).regs } ∧ RegsKept m (m.uncounted b count) [(.ERR_COUNT, b.group, 0)]
      ∧ (count = true → (m.uncounted b count).fld Fld.ERR_COUNT_COUNT b.group = 0
          ∧ (m.uncounted b count).flag Fld.ERR_COUNT_OVERFLOW b.group = false) := by
  cases count with
  | false => exact ⟨rfl, RegsKept.refl m _, fun h => absurd h Bool.false_ne_true⟩
  | true =>
    refine ⟨rfl, (RegsKept.setFld (f := Fld.ERR_COUNT_COUNT) 0 (Block.group_lt b) (by decide)).trans
      (RegsKept.setFld (f := Fld.ERR_COUNT_OVERFLOW) _ (Block.group_lt b) (by decide)), fun _ => ⟨?_, ?_⟩⟩
    · refine (Module.fld_setFld_beside _ (f := Fld.ERR_COUNT_OVERFLOW) (g := Fld.ERR_COUNT_COUNT) (by decide) _ _ _ rfl (by decide)
        (by decide)).trans ?_
      rw [Module.fld_setFld_self _ (by decide), Nat.zero_mod]
    · exact Module.flag_setFlag_self _ (by decide) _ _ _

theorem errClear_clears (s : State) (b : Block) (value : Word) : ∃ s', exec (.errClear b value) s = .next s'
    ∧ OnlyRegs s s' [(.ERR_FIRST_INFO0, b.group, 0), (.ERR_COUNT, b.group, 0)]
    ∧ s'.mod.flag Fld.ERR_FIRST_INFO0_VALID b.group = (s.mod.flag Fld.ERR_FIRST_INFO0_VALID b.group && !value.getLsbD 0)
    ∧ (value.getLsbD 1 = true → s'.mod.fld Fld.ERR_COUNT_COUNT b.group = 0
        ∧ s'.mod.flag Fld.ERR_COUNT_OVERFLOW b.group = false)
    ∧ (value.getLsbD 1 = false → s'.mod.reg .ERR_COUNT b.group = s.mod.reg .ERR_COUNT b.group) := by
  obtain ⟨e1, r1, f1⟩ := s.mod.unfrozen_rest b (value.getLsbD 0)
  obtain ⟨e2, r2, f2⟩ := (s.mod.unfrozen b (value.getLsbD 0)).uncounted_rest b (value.getLsbD 1)
  have hy := errClear_yields s b value
  generalize s.mod.unfrozen b (value.getLsbD 0) = m1 at e1 r1 f1 e2 r2 f2 hy
  refine ⟨_, hy, onlyRegs_of_eq (e2.trans ?_) ((r1.mono ?_).trans (r2.mono ?_)), ?_, f2, fun h => ?_⟩
  · rw [e1]
  · exact fun x hx => List.mem_cons.2 (Or.inl (List.mem_singleton.1 hx))
  · exact fun x hx => List.mem_cons_of_mem _ hx
  · rw [Module.flag_settle, ← f1]
    unfold Module.flag Module.fld
    rw [r2 _ _ _ (Block.group_lt b) (by decide) (by simp [Fld.ERR_FIRST_INFO0_VALID])]
  · rw [Module.reg_settle, h]
    exact r1 _ _ _ (Block.group_lt b) (by decide) (by simp)

theorem errorGroups : ErrorGroups := by
  intro s
  refine ⟨windowExpire_closes s, severeClear_bits s, severeClear_trip s, errClear_clears s, fun b value => ⟨?_, ?_⟩, fun value => ?_⟩
  · exact ⟨_, rfl, onlyRegs_of_eq rfl (RegsKept.setReg _ _ (Block.group_lt b) (by decide) (List.mem_singleton.2 rfl)),
      Module.reg_setReg_self ..⟩
  · exact ⟨_, rfl, onlyRegs_of_eq rfl (RegsKept.setReg _ _ (Block.group_lt b) (by decide) (List.mem_singleton.2 rfl)),
      Module.reg_setReg_self ..⟩
  · have hf := s.mod.flag_setFlag_self (f := Fld.ALV_CTL_FORCE_STOP) (by decide) 0 0 value
    refine ⟨_, rfl, onlyRegs_of_eq rfl (RegsKept.setFld (f := Fld.ALV_CTL_FORCE_STOP) _ (by decide) (by decide)),
      (Module.flag_settle _ _ 0 0).trans hf, ?_⟩
    rintro rfl
    have hr : ∀ m : Module, m.flag Fld.ALV_CTL_FORCE_STOP = true → m.settle.pins.running = false := by
      intro m h
      change m.aliveRuns = false
      simp [Module.aliveRuns, Module.aliveStopped, h]
    exact hr _ hf

end Sys2Proof.Machine
end

