-- ==== Sys2Proof/Proofs/ScrubsAndTwins.lean ====
section
/-! The complement scrub, twin execution and the signature buffer. -/

namespace Sys2Proof.Machine

/-! ### Registers and status bits that an event leaves -/

theorem EventOnly.regKept {m m' : Module} {refs : List RegRef} {r : RegId} (h : EventOnly m m' refs) (hr : ∀ x ∈ refs, x.1 ≠ r) :
    RegKept r m m' := fun i j hi hj => h.regs r i j hi hj fun hx => hr _ hx rfl

/-- The registers that events write, whatever their group. -/
abbrev eventRegs : List RegId := [.ERR_STATUS, .ERR_FIRST_INFO0, .ERR_FIRST_INFO1, .ERR_COUNT, .ERR_SEVERE, .INT_SIG_COUNT,
  .HIF_NMI_STATUS, .ERR_INJECT_INV]

theorem errRefs_reg {b : Block} {x : RegRef} (h : x ∈ errRefs b) : x.1 ∈ eventRegs := by
  have hm : x.1 ∈ [RegId.ERR_STATUS, .ERR_FIRST_INFO0, .ERR_FIRST_INFO1, .ERR_COUNT, .ERR_SEVERE, .INT_SIG_COUNT, .HIF_NMI_STATUS,
      .ERR_STATUS, .ERR_FIRST_INFO0, .ERR_FIRST_INFO1, .ERR_COUNT, .ERR_SEVERE] := List.mem_map_of_mem h
  exact (by decide : ∀ r ∈ [RegId.ERR_STATUS, .ERR_FIRST_INFO0, .ERR_FIRST_INFO1, .ERR_COUNT, .ERR_SEVERE, .INT_SIG_COUNT,
    .HIF_NMI_STATUS, .ERR_STATUS, .ERR_FIRST_INFO0, .ERR_FIRST_INFO1, .ERR_COUNT, .ERR_SEVERE], r ∈ eventRegs) _ hm

theorem Module.raise_regKept (m : Module) (k : Kind) (ten loc site : ℕ) {r : RegId} (hr : r ∉ eventRegs) :
    RegKept r m (m.raise k ten loc site) :=
  (EventOnly.raise m k ten loc site).regKept fun _ hx e => hr (e ▸ errRefs_reg hx)

theorem Module.probe_regKept (m : Module) (k : Kind) (ten loc : ℕ) {r : RegId} (hr : r ∉ eventRegs) :
    RegKept r m (m.probe k ten loc) := by
  refine (EventOnly.probe m k ten loc).regKept fun x hx e => hr ?_
  rcases List.mem_cons.1 hx with rfl | hx
  · exact e ▸ (by decide : RegId.ERR_INJECT_INV ∈ eventRegs)
  · exact e ▸ errRefs_reg hx

/-- A status bit that is set stays set where a check is injected. -/
theorem Module.status_probe_mono {m : Module} {k : Kind} {ten loc g b : ℕ} (hg : g < 2 ^ 24) (hk : k.bit < 64)
    (h : (m.reg .ERR_STATUS g).getLsbD b = true) : ((m.probe k ten loc).reg .ERR_STATUS g).getLsbD b = true := by
  have h1 : ((m.record k ten loc 0 true).reg .ERR_STATUS g).getLsbD b = true := by
    rw [m.status_record k ten loc 0 true hg]
    split
    · rw [setBit_getLsbD _ hk, h, Bool.true_or]
    · exact h
  have h2 := (StatusKept.setReg (m.record k ten loc 0 true) (r := .ERR_INJECT_INV) (j := 0)
    (m.reg .ERR_INJECT_INV k.block.group &&& ~~~ BitVec.ofNat 64 (2 ^ k.bit)) (by decide) (Block.group_lt k.block) (by decide)).getLsbD
    hg h1
  unfold Module.probe
  simp only
  split
  · split
    · exact Module.status_raiseLost_mono hg h2
    · exact h2
  · exact h

/-! ### What the scrub leaves (R401) -/

/-- The memories, the tiles, the waybills and the roots are as before, and the status bits that were set still are. -/
structure Undisturbed (m m' : Module) : Prop where
  dram : m'.dram = m.dram
  hold : m'.hold = m.hold
  tiles : m'.tiles = m.tiles
  waybills : m'.waybills = m.waybills
  root : RegKept .XLT_TEN_ROOT m m'
  status : ∀ g b, g < 2 ^ 24 → (m.reg .ERR_STATUS g).getLsbD b = true → (m'.reg .ERR_STATUS g).getLsbD b = true

theorem Undisturbed.refl (m : Module) : Undisturbed m m := ⟨rfl, rfl, rfl, rfl, RegKept.refl _ m, fun _ _ _ h => h⟩

theorem Undisturbed.trans {m m' m'' : Module} (h : Undisturbed m m') (h' : Undisturbed m' m'') : Undisturbed m m'' where
  dram := h'.dram.trans h.dram
  hold := h'.hold.trans h.hold
  tiles := h'.tiles.trans h.tiles
  waybills := h'.waybills.trans h.waybills
  root := h.root.trans h'.root
  status := fun g b hg hb => h'.status g b hg (h.status g b hg hb)

theorem EventOnly.undisturbed {m m' : Module} {refs : List RegRef} (h : EventOnly m m' refs) (hr : RegKept .XLT_TEN_ROOT m m')
    (hs : ∀ g b, g < 2 ^ 24 → (m.reg .ERR_STATUS g).getLsbD b = true → (m'.reg .ERR_STATUS g).getLsbD b = true) :
    Undisturbed m m' := by
  have e := h.rest
  constructor
  · rw [e]
    rfl
  · rw [e]
    rfl
  · rw [e]
    rfl
  · rw [e]
    rfl
  · exact hr
  · exact hs

theorem Undisturbed.raise (m : Module) {k : Kind} (hk : k.bit < 64) (ten loc site : ℕ) : Undisturbed m (m.raise k ten loc site) :=
  (EventOnly.raise m k ten loc site).undisturbed (m.raise_regKept k ten loc site (by decide))
    fun _ _ hg hb => Module.status_raise_mono hg hk hb

theorem Undisturbed.probe (m : Module) {k : Kind} (hk : k.bit < 64) (ten loc : ℕ) : Undisturbed m (m.probe k ten loc) :=
  (EventOnly.probe m k ten loc).undisturbed (m.probe_regKept k ten loc (by decide))
    fun _ _ hg hb => Module.status_probe_mono hg hk hb

theorem Undisturbed.setReg (m : Module) {r : RegId} {i j : ℕ} (v : Word64) (hr : r ∉ [RegId.XLT_TEN_ROOT, .ERR_STATUS])
    (hi : i < 2 ^ 24) (hj : j < 2 ^ 16) : Undisturbed m (m.setReg r i j v) where
  dram := rfl
  hold := rfl
  tiles := rfl
  waybills := rfl
  root := fun _ _ hi' hj' => m.reg_setReg_ne v hi hj hi' hj' fun ⟨e, _⟩ => hr (e ▸ by decide)
  status := fun g b hg hb => by
    rwa [m.reg_setReg_ne v hi hj hg (by decide) fun ⟨e, _⟩ => hr (e ▸ by decide)]

theorem Undisturbed.setCl (m : Module) (c : ℕ) (x : Cl) : Undisturbed m (m.setCl c x) :=
  ⟨rfl, rfl, rfl, rfl, RegKept.of_regs rfl, fun _ _ _ h => h⟩

/-- What a check leaves undisturbed, the assignments besides. -/
structure Unassigned (m m' : Module) : Prop extends Undisturbed m m' where
  assign : RegKept .FAB_CL_ASSIGN m m'

theorem Unassigned.refl (m : Module) : Unassigned m m := ⟨Undisturbed.refl m, RegKept.refl _ m⟩

theorem Unassigned.trans {m m' m'' : Module} (h : Unassigned m m') (h' : Unassigned m' m'') : Unassigned m m'' :=
  ⟨h.toUndisturbed.trans h'.toUndisturbed, h.assign.trans h'.assign⟩

theorem Unassigned.ite {m a b : Module} {c : Prop} [Decidable c] (ha : Unassigned m a) (hb : Unassigned m b) :
    Unassigned m (if c then a else b) := by split <;> assumption

theorem Unassigned.foldl {α : Type} {f : Module → α → Module} (hf : ∀ m a, Unassigned m (f m a)) (l : List α) (m : Module) :
    Unassigned m (l.foldl f m) :=
  List.foldlRecOn (motive := fun m' : Module => Unassigned m m') l _ (Unassigned.refl m) fun _ h a _ => h.trans (hf _ a)

theorem Unassigned.raise (m : Module) {k : Kind} (hk : k.bit < 64) (ten loc site : ℕ) : Unassigned m (m.raise k ten loc site) :=
  ⟨Undisturbed.raise m hk ten loc site, m.raise_regKept k ten loc site (by decide)⟩

theorem Unassigned.probe (m : Module) {k : Kind} (hk : k.bit < 64) (ten loc : ℕ) : Unassigned m (m.probe k ten loc) :=
  ⟨Undisturbed.probe m hk ten loc, m.probe_regKept k ten loc (by decide)⟩

theorem Unassigned.scrubHold (m : Module) : Unassigned m m.scrubHold :=
  ((Unassigned.probe m (by decide) 0 0).trans (Unassigned.foldl (fun m _ => Unassigned.raise m (by decide) _ _ _) _ _)).trans
    (Unassigned.foldl (fun m _ => Unassigned.foldl (fun m _ => Unassigned.ite (Unassigned.refl m)
      (Unassigned.raise m (by decide) _ _ _)) _ m) _ _)

theorem Unassigned.scrubReg (m : Module) (r : RegId) {k : Kind} (hk : k.bit < 64) (t : ℕ) : Unassigned m (m.scrubReg r k t) :=
  Unassigned.ite (Unassigned.probe m hk t t) (Unassigned.raise m hk t t 0)

theorem Unassigned.useEntry (m : Module) (t : Ten) : Unassigned m (m.useEntry t).2 := by
  unfold Module.useEntry
  split
  · exact Unassigned.refl m
  · split
    · exact Unassigned.probe m (by decide) _ _
    · have h : Unassigned m (m.setFlag Fld.TEN_STATUS_FROZEN t.val 0 true) :=
        ⟨Undisturbed.setReg m _ (by decide) (ten_lt t) (by decide), RegKept.setFld m _ (by decide) (ten_lt t) (by decide)⟩
      exact h.trans (Unassigned.raise _ (by decide) _ _ _)

/-- The scrub of the registers of one tenancy. -/
def Module.scrubTen (m : Module) (t : Ten) : Module :=
  if t = house then m
  else ((m.useEntry t).2.scrubReg .VIA_JOB Kind.VIA_PAIR t.val).scrubReg .XLT_TEN_ROOT Kind.XLT_PAIR t.val

theorem Unassigned.scrubTen (m : Module) (t : Ten) : Unassigned m (m.scrubTen t) :=
  Unassigned.ite (Unassigned.refl m) (((Unassigned.useEntry m t).trans (Unassigned.scrubReg _ _ (by decide) _)).trans
    (Unassigned.scrubReg _ _ (by decide) _))

/-- A root that disagrees with its complement is found. -/
theorem Module.scrubTen_finds {m : Module} {t : Ten} (ht : t ≠ house) (h : pairOk (m.reg .XLT_TEN_ROOT t.val) = false) :
    ((m.scrubTen t).reg .ERR_STATUS Block.xlt.group).getLsbD Kind.XLT_PAIR.bit = true := by
  unfold Module.scrubTen
  rw [if_neg ht]
  have hk := ((Unassigned.useEntry m t).trans (Unassigned.scrubReg (m.useEntry t).2 .VIA_JOB (k := Kind.VIA_PAIR) (by decide) t.val)).root
    t.val 0 (ten_lt t) (by decide)
  generalize (m.useEntry t).2.scrubReg .VIA_JOB Kind.VIA_PAIR t.val = m1 at hk ⊢
  rw [← hk] at h
  unfold Module.scrubReg
  rw [h]
  exact Module.status_raise (by decide)

/-- What one round of a fold brings about, and every round keeps, holds after it. -/
theorem foldl_reaches {α : Type} {f : Module → α → Module} {I Q : Module → Prop} {a : α} {l : List α} (ha : a ∈ l)
    (hI : ∀ m b, I m → I (f m b)) (hQ : ∀ m b, Q m → Q (f m b)) (hset : ∀ m, I m → Q (f m a)) {m : Module} (h : I m) :
    Q (l.foldl f m) := by
  induction l generalizing m with
  | nil => cases ha
  | cons b l ih =>
    rw [List.foldl_cons]
    rcases List.mem_cons.1 ha with rfl | ha
    · exact List.foldlRecOn (motive := Q) l _ (hset m h) fun m hm b _ => hQ m b hm
    · exact ih ha (hI m b h)

/-- Without a live waybill there is none to check. -/
theorem Module.scrubWaybills_idle {m : Module} (h : ∀ p ∈ m.waybills, p.2.live = false) : m.scrubWaybills = m := by
  unfold Module.scrubWaybills
  rw [List.filter_eq_nil_iff.2 fun p hp => by rw [h p hp]; exact Bool.false_ne_true]
  rfl

/-! ### Assignments (R11, R158) -/

theorem Module.cl_setCl_ne (m : Module) {c d : ℕ} (h : d ≠ c) (x : Cl) : (m.setCl c x).cl d = m.cl d := by
  unfold Module.cl Module.setCl
  rw [Map.get?_insert_ne _ h.symm]

theorem EventOnly.cl {m m' : Module} {refs : List RegRef} (h : EventOnly m m' refs) (c : ℕ) : m'.cl c = m.cl c := by
  unfold Module.cl
  rw [h.rest]
  rfl

/-- What a check of one assignment leaves. -/
structure AssignChecked (m m' : Module) (c : ℕ) : Prop extends Undisturbed m m' where
  here : m'.reg .FAB_CL_ASSIGN c = if pairOk (m.reg .FAB_CL_ASSIGN c) then m.reg .FAB_CL_ASSIGN c else (m.cl c).assignRecord
  others : ∀ d, d < 2 ^ 24 → d ≠ c → m'.reg .FAB_CL_ASSIGN d = m.reg .FAB_CL_ASSIGN d
  cls : ∀ d, d ≠ c → m'.cl d = m.cl d

theorem AssignChecked.probe {m : Module} {c : ℕ} {k : Kind} (hk : k.bit < 64) (hc : c < 2 ^ 24)
    (hp : pairOk (m.reg .FAB_CL_ASSIGN c) = true) (ten loc : ℕ) : AssignChecked m (m.probe k ten loc) c := by
  have hu := Unassigned.probe m hk ten loc
  refine ⟨hu.toUndisturbed, ?_, fun d hd _ => hu.assign d 0 hd (by decide), fun d _ => (EventOnly.probe m k ten loc).cl d⟩
  rw [hp, if_pos rfl]
  exact hu.assign c 0 hc (by decide)

/-- The module once an assignment that disagrees has been found and rewritten from Waymaster's record. -/
def Module.rewriteAssign (m : Module) (c : ℕ) : Module :=
  let m' := m.raise (Kind.FAB_PAIR (Fin.ofNat 100 c)) 0 c
  let m'' := m'.setReg .FAB_CL_ASSIGN c 0 (m'.cl c).assignRecord
  (m''.setCl c { m'.cl c with rewritten := true }).raise Kind.PLC_ASSIGN_REWRITE (m''.fld Fld.FAB_CL_ASSIGN_TENANCY c) c

theorem AssignChecked.rewrite {m : Module} {c : ℕ} (hc : c < 2 ^ 24) (hp : pairOk (m.reg .FAB_CL_ASSIGN c) = false) :
    AssignChecked m (m.rewriteAssign c) c := by
  have h1 := Unassigned.raise m (k := Kind.FAB_PAIR (Fin.ofNat 100 c)) (by simp [Kind.FAB_PAIR]) 0 c 0
  have c1 := (EventOnly.raise m (Kind.FAB_PAIR (Fin.ofNat 100 c)) 0 c 0).cl
  unfold Module.rewriteAssign
  simp only
  generalize m.raise (Kind.FAB_PAIR (Fin.ofNat 100 c)) 0 c = m1 at h1 c1 ⊢
  have h2 := Undisturbed.setReg m1 (r := .FAB_CL_ASSIGN) (j := 0) (m1.cl c).assignRecord (by decide) hc (by decide)
  have r2 : (m1.setReg .FAB_CL_ASSIGN c 0 (m1.cl c).assignRecord).reg .FAB_CL_ASSIGN c = (m1.cl c).assignRecord :=
    Module.reg_setReg_self ..
  have o2 : ∀ d, d < 2 ^ 24 → d ≠ c → (m1.setReg .FAB_CL_ASSIGN c 0 (m1.cl c).assignRecord).reg .FAB_CL_ASSIGN d
      = m1.reg .FAB_CL_ASSIGN d := fun d hd hne =>
    m1.reg_setReg_ne _ hc (by decide) hd (by decide) fun ⟨_, e, _⟩ => hne e
  have c2 : ∀ d, (m1.setReg .FAB_CL_ASSIGN c 0 (m1.cl c).assignRecord).cl d = m1.cl d := fun _ => rfl
  generalize m1.setReg .FAB_CL_ASSIGN c 0 (m1.cl c).assignRecord = m2 at h2 r2 o2 c2 ⊢
  have h3 := Unassigned.raise (m2.setCl c { m1.cl c with rewritten := true }) (k := Kind.PLC_ASSIGN_REWRITE) (by decide)
    (m2.fld Fld.FAB_CL_ASSIGN_TENANCY c) c 0
  have c3 := (EventOnly.raise (m2.setCl c { m1.cl c with rewritten := true }) Kind.PLC_ASSIGN_REWRITE
    (m2.fld Fld.FAB_CL_ASSIGN_TENANCY c) c 0).cl
  refine ⟨((h1.toUndisturbed.trans h2).trans (Undisturbed.setCl m2 c _)).trans h3.toUndisturbed, ?_, fun d hd hne => ?_,
    fun d hne => ?_⟩
  · rw [hp, if_neg Bool.false_ne_true]
    exact (h3.assign c 0 hc (by decide)).trans (r2.trans (congrArg Cl.assignRecord (c1 c)))
  · exact (h3.assign d 0 hd (by decide)).trans ((o2 d hd hne).trans (h1.assign d 0 hd (by decide)))
  · rw [c3 d, Module.cl_setCl_ne _ hne, c2, c1]

theorem Module.checkAssign_checked {m : Module} {c : ℕ} (hc : c < 2 ^ 24)
    (h : pairOk (m.reg .FAB_CL_ASSIGN c) = true ∨ (m.cl c).rewritten = false) : AssignChecked m (m.checkAssign c) c := by
  unfold Module.checkAssign
  cases hp : pairOk (m.reg .FAB_CL_ASSIGN c) with
  | true => exact AssignChecked.probe (by simp [Kind.FAB_PAIR]) hc hp _ _
  | false =>
    have hw : ((m.raise (Kind.FAB_PAIR (Fin.ofNat 100 c)) 0 c).cl c).rewritten = false := by
      rw [(EventOnly.raise m (Kind.FAB_PAIR (Fin.ofNat 100 c)) 0 c 0).cl c]
      exact h.resolve_left (by simp [hp])
    rw [if_neg Bool.false_ne_true]
    simp only [hw, Bool.not_false, if_true]
    exact AssignChecked.rewrite hc hp

/-- The assignments of the first clusters once they have been checked. -/
structure AssignsChecked (m m' : Module) (n : ℕ) : Prop extends Undisturbed m m' where
  assign : ∀ c, c < 100 → m'.reg .FAB_CL_ASSIGN c
    = if c < n ∧ pairOk (m.reg .FAB_CL_ASSIGN c) = false then (m.cl c).assignRecord else m.reg .FAB_CL_ASSIGN c
  cls : ∀ c, n ≤ c → m'.cl c = m.cl c

theorem Module.checkAssigns_checked {m : Module} (h : ∀ c, c < 100 → pairOk (m.reg .FAB_CL_ASSIGN c) = true ∨ (m.cl c).rewritten = false)
    {n : ℕ} (hn : n ≤ 100) : AssignsChecked m ((List.range n).foldl (fun m c => m.checkAssign c) m) n := by
  induction n with
  | zero => exact ⟨Undisturbed.refl m, fun c _ => (if_neg fun ⟨hc, _⟩ => Nat.not_lt_zero c hc).symm, fun _ _ => rfl⟩
  | succ n ih =>
    have ih := ih (by omega)
    rw [List.range_succ, List.foldl_append]
    generalize (List.range n).foldl (fun m c => m.checkAssign c) m = m1 at ih ⊢
    have hr : m1.reg .FAB_CL_ASSIGN n = m.reg .FAB_CL_ASSIGN n := (ih.assign n hn).trans (if_neg fun ⟨hc, _⟩ => Nat.lt_irrefl n hc)
    have hc : m1.cl n = m.cl n := ih.cls n (Nat.le_refl n)
    have hs : AssignChecked m1 (m1.checkAssign n) n := Module.checkAssign_checked (by omega) (by rw [hr, hc]; exact h n hn)
    refine ⟨ih.toUndisturbed.trans hs.toUndisturbed, fun c hc100 => ?_, fun c hle => ?_⟩
    · by_cases e : c = n
      · subst e
        refine hs.here.trans ?_
        rw [hr, hc]
        cases pairOk (m.reg .FAB_CL_ASSIGN c) <;> simp
      · refine (hs.others c (by omega) e).trans ((ih.assign c hc100).trans ?_)
        simp only [show (c < n + 1) = (c < n) from propext (by omega)]
    · exact (hs.cls c (by omega)).trans (ih.cls c (by omega))

/-! ### The complement scrub (R401) -/

theorem complementScrub_idle {s : State} (h : s.mod.flag Fld.INT_CTL_SCRUB_EN = false) : NoEffect .complementScrub s := by
  refine yields_of_run (show execComplementScrub s = s.run _ from rfl) (if_pos ?_)
  rw [h]
  rfl

/-- The whole scrub. -/
def Module.scrubAll (m : Module) : Module :=
  ((List.finRange 101).foldl (fun m t => m.scrubTen t) ((List.range 100).foldl (fun m c => m.checkAssign c) m).scrubHold).scrubWaybills

theorem complementScrub_yields {s : State} (h : s.mod.flag Fld.INT_CTL_SCRUB_EN = true) :
    Yields .complementScrub s s.mod.scrubAll := by
  refine yields_of_run (show execComplementScrub s = s.run _ from rfl) ((if_neg ?_).trans rfl)
  rw [h]
  exact Bool.false_ne_true

/-- What the scrub leaves where no waybill is live and no assignment disagrees a second time. -/
theorem Module.scrubAll_leaves {m : Module} (hw : ∀ p ∈ m.waybills, p.2.live = false)
    (h : ∀ c, c < 100 → pairOk (m.reg .FAB_CL_ASSIGN c) = true ∨ (m.cl c).rewritten = false) :
    Undisturbed m m.scrubAll
      ∧ (∀ c, c < 100 → m.scrubAll.reg .FAB_CL_ASSIGN c
          = if pairOk (m.reg .FAB_CL_ASSIGN c) then m.reg .FAB_CL_ASSIGN c else (m.cl c).assignRecord)
      ∧ ∀ t : Ten, t ≠ house → pairOk (m.reg .XLT_TEN_ROOT t.val) = false →
          (m.scrubAll.reg .ERR_STATUS Block.xlt.group).getLsbD Kind.XLT_PAIR.bit = true := by
  have h1 := Module.checkAssigns_checked h (Nat.le_refl 100)
  unfold Module.scrubAll
  generalize (List.range 100).foldl (fun m c => m.checkAssign c) m = m1 at h1 ⊢
  have h2 := Unassigned.scrubHold m1
  generalize m1.scrubHold = m2 at h2 ⊢
  have h3 := Unassigned.foldl Unassigned.scrubTen (List.finRange 101) m2
  have hu := (h1.toUndisturbed.trans h2.toUndisturbed).trans h3.toUndisturbed
  rw [Module.scrubWaybills_idle fun p hp => hw p (hu.waybills ▸ hp)]
  refine ⟨hu, fun c hc => ?_, fun t ht hp => ?_⟩
  · refine ((h2.trans h3).assign c 0 (by omega) (by decide)).trans ((h1.assign c hc).trans ?_)
    cases pairOk (m.reg .FAB_CL_ASSIGN c) <;> simp [hc]
  · refine foldl_reaches (I := fun m' => m'.reg .XLT_TEN_ROOT t.val = m.reg .XLT_TEN_ROOT t.val)
      (Q := fun m' => (m'.reg .ERR_STATUS Block.xlt.group).getLsbD Kind.XLT_PAIR.bit = true) (List.mem_finRange t)
      (fun m' u hm => ((Unassigned.scrubTen m' u).root t.val 0 (ten_lt t) (by decide)).trans hm)
      (fun m' u hm => (Unassigned.scrubTen m' u).status _ _ (by decide) hm) (fun m' hm => Module.scrubTen_finds ht (hm ▸ hp)) ?_
    exact (h1.toUndisturbed.trans h2.toUndisturbed).root t.val 0 (ten_lt t) (by decide)

/-! ### Twin execution (R412) -/

theorem twinWrite_yields (ten : Ten) (value : Word) (s : State) : Yields (.intTwinWrite ten value) s (s.mod.writeTwin ten value) := rfl

theorem twinWrite_cases (ten : Ten) (value : Word) (s : State) :
    (ten = house → NoEffect (.intTwinWrite ten value) s)
    ∧ (ten ≠ house → s.mod.routesOf ten = [] →
      Yields (.intTwinWrite ten value) s (s.mod.setFlag Fld.INT_TWIN_EN ten.val 0 (value.getLsbD 0))
      ∧ ∃ s', exec (.intTwinWrite ten value) s = .next s' ∧ OnlyRegs s s' [(.INT_TWIN, ten.val, 0)]
        ∧ s'.mod.flag Fld.INT_TWIN_EN ten.val = value.getLsbD 0)
    ∧ (ten ≠ house → s.mod.routesOf ten ≠ [] →
      Yields (.intTwinWrite ten value) s (s.mod.raise Kind.INT_CONFIG ten.val ten.val)
      ∧ ∃ s', exec (.intTwinWrite ten value) s = .next s' ∧ Recorded s s' Kind.INT_CONFIG []) := by
  have hy := twinWrite_yields ten value s
  unfold Module.writeTwin at hy
  refine ⟨fun h => ?_, fun h hr => ?_, fun h hr => ?_⟩
  · rwa [if_pos h] at hy
  · rw [if_neg h, hr, List.isEmpty_nil, if_pos rfl] at hy
    refine ⟨hy, _, hy, onlyRegs_of_eq rfl (RegsKept.setFld (f := Fld.INT_TWIN_EN) _ (ten_lt ten) (by decide)), ?_⟩
    exact (Module.flag_settle _ _ _ 0).trans (Module.flag_setFlag_self _ (by decide) _ _ _)
  · rw [if_neg h, if_neg (by simpa using hr)] at hy
    exact ⟨hy, recorded_of_yields (by decide) hy⟩

/-! ### The signature buffer (R421) -/

theorem leNat_lt (l : List Byte) : leNat l < 256 ^ l.length := by
  induction l with
  | nil => exact Nat.one_pos
  | cons b l ih =>
    have hb := b.isLt
    simp only [leNat, List.length_cons, Nat.pow_succ]
    omega

theorem fieldAt_lt (bs : List Byte) (o n : ℕ) : fieldAt bs o n < 256 ^ n :=
  (leNat_lt _).trans_le (Nat.pow_le_pow_right (by decide) (List.length_take_le ..))

/-- A register after the elements of a list of it are written. -/
theorem Module.reg_foldl_setReg (m : Module) (r : RegId) (f : ℕ → Word64) (l : List ℕ) (hl : ∀ i ∈ l, i < 2 ^ 24) {j : ℕ} (hj : j < 2 ^ 24) :
    (l.foldl (fun m i => m.setReg r i 0 (f i)) m).reg r j = if j ∈ l then f j else m.reg r j := by
  induction l generalizing m with
  | nil => rfl
  | cons i l ih =>
    rw [List.foldl_cons, ih _ fun k hk => hl k (List.mem_cons_of_mem _ hk)]
    by_cases hm : j ∈ l
    · simp [hm]
    · by_cases e : j = i
      · simp [e]
      · rw [if_neg hm, if_neg (by simp [hm, e]), m.reg_setReg_ne _ (hl i (List.mem_cons_self ..)) (by decide) hj (by decide)
          fun ⟨_, h, _⟩ => e h]

theorem Module.latchSig_rest (m : Module) :
    m.latchSig.sigs = m.sigs ∧ m.latchSig.fld Fld.INT_SIG_SEL_INDEX = m.fld Fld.INT_SIG_SEL_INDEX := by
  unfold Module.latchSig
  split
  · exact ⟨rfl, rfl⟩
  · refine List.foldlRecOn (motive := fun m' : Module => m'.sigs = m.sigs ∧ m'.fld Fld.INT_SIG_SEL_INDEX = m.fld Fld.INT_SIG_SEL_INDEX)
      _ _ ⟨rfl, rfl⟩ fun m' hm i hi => ⟨hm.1, ?_⟩
    refine Eq.trans ?_ hm.2
    unfold Module.fld
    rw [m'.reg_setReg_ne _ ((List.mem_range.1 hi).trans (by decide)) (by decide) (by decide) (by decide) fun ⟨e, _⟩ => absurd e (by decide)]

theorem Module.latchSig_data {m : Module} {b : List Byte} (h : m.sigs[m.fld Fld.INT_SIG_SEL_INDEX]? = some b) {i : ℕ} (hi : i < 16) :
    (m.latchSig.reg .INT_SIG_DATA i).toNat = fieldAt b (8 * i) 8 := by
  unfold Module.latchSig
  simp only [h]
  rw [Module.reg_foldl_setReg _ _ _ _ (fun i hi => (List.mem_range.1 hi).trans (by decide)) (hi.trans (by decide)),
    if_pos (List.mem_range.2 hi), BitVec.toNat_ofNat]
  exact Nat.mod_eq_of_lt (fieldAt_lt b _ 8)

theorem sigPop_yields (value : Word) (s : State) : Yields (.sigPop value) s (s.mod.writeSigSel value.toNat) := rfl

/-- The module once INDEX is written and, with POP, the oldest signature is gone. -/
def Module.sigSelected (m : Module) (v : ℕ) : Module :=
  let m' := m.setFld Fld.INT_SIG_SEL_INDEX 0 0 (v % 64)
  if bitsAt v 31 1 = 1 then ({ m' with sigs := m'.sigs.tail } : Module).setFld Fld.INT_SIG_COUNT_HELD 0 0 m'.sigs.tail.length else m'

theorem Module.writeSigSel_eq (m : Module) (v : ℕ) : m.writeSigSel v = (m.sigSelected v).latchSig := rfl

theorem Module.sigSelected_leaves (m : Module) (v : Word) :
    (m.sigSelected v.toNat).sigs = (if v.getLsbD 31 then m.sigs.tail else m.sigs)
      ∧ (m.sigSelected v.toNat).fld Fld.INT_SIG_SEL_INDEX = v.toNat % 64 := by
  have hi : (m.setFld Fld.INT_SIG_SEL_INDEX 0 0 (v.toNat % 64)).fld Fld.INT_SIG_SEL_INDEX = v.toNat % 64 :=
    (m.fld_setFld_self (f := Fld.INT_SIG_SEL_INDEX) (by decide) 0 0 _).trans (Nat.mod_mod _ _)
  have hb : bitsAt v.toNat 31 1 = 1 ↔ v.getLsbD 31 = true := by
    rw [← BitVec.testBit_toNat, ← bitsAt_one_eq]
    exact beq_iff_eq.symm
  unfold Module.sigSelected
  simp only
  split
  · next h =>
    rw [if_pos (hb.1 h)]
    refine ⟨rfl, Eq.trans ?_ hi⟩
    exact Module.fld_setFld_other _ _ (by decide)
  · next h =>
    rw [if_neg (mt hb.2 h)]
    exact ⟨rfl, hi⟩

theorem sigPop_latches (value : Word) (s : State) : ∃ s', exec (.sigPop value) s = .next s' ∧ s'.pending = s.pending
    ∧ (let left := if value.getLsbD 31 then s.mod.sigs.tail else s.mod.sigs
       s'.mod.sigs = left ∧ s'.mod.fld Fld.INT_SIG_SEL_INDEX = value.toNat % 64
       ∧ (∀ b, left[value.toNat % 64]? = some b → ∀ i, i < 16 →
           (s'.mod.reg .INT_SIG_DATA i).toNat = fieldAt b (8 * i) 8)) := by
  obtain ⟨hs, hi⟩ := s.mod.sigSelected_leaves value
  obtain ⟨ks, ki⟩ := (s.mod.sigSelected value.toNat).latchSig_rest
  refine ⟨_, sigPop_yields value s, rfl, ks.trans hs, (Module.fld_settle _ _ 0 0).trans (ki.trans hi), fun b hb i h16 => ?_⟩
  rw [← hs, ← hi] at hb
  exact Module.latchSig_data hb h16

theorem scrubsAndTwins : ScrubsAndTwins := by
  intro s
  refine ⟨complementScrub_idle, fun he hw ha => ?_, fun ten value => twinWrite_cases ten value s,
    fun value => sigPop_latches value s⟩
  obtain ⟨hu, hassign, hroot⟩ := Module.scrubAll_leaves hw ha
  have hy := complementScrub_yields he
  generalize s.mod.scrubAll = m at hu hassign hroot hy
  exact ⟨_, hy, rfl, (Module.settle_dram m).trans hu.dram, (Module.settle_hold m).trans hu.hold,
    (Module.settle_tiles m).trans hu.tiles, fun c hc => (Module.reg_settle ..).trans (hassign c hc),
    fun t ht hp => (congrArg (BitVec.getLsbD · _) (Module.reg_settle ..)).trans (hroot t ht hp)⟩

end Sys2Proof.Machine
end

