-- ==== Sys2Proof/Proofs/CommandStands.lean ====
section
/-! A command that stays in the table while others end, and how it passes through branches, folds and events. -/

namespace Sys2Proof.Machine

/-! ### A command that stays in the table -/

/-- What is watched of a module: a command but for its phase, the next sequence number, and the tiles. -/
structure Watched where
  id : ℕ
  cmd : Cmd
  seq : ℕ
  tiles : Map Tile

/-- The command is in the table, at some phase, and the sequence number and the tiles are those watched. -/
structure CmdStands (cmds : Map Cmd) (seq : ℕ) (tiles : Map Tile) (watched : Watched) : Prop where
  here : ∃ ph, Map.get? cmds watched.id = some { watched.cmd with phase := ph }
  seq : seq = watched.seq
  tiles : tiles = watched.tiles

/-- The tiles where they are looked at, and none where they are not. -/
def tilesIf : Bool → Map Tile → Map Tile
  | true, x => x
  | false, _ => []

/-- What is watched stands in the module; the tiles are looked at or not. -/
@[reducible] def Module.Stands (m : Module) (look : Bool) (watched : Watched) : Prop :=
  CmdStands m.cmds m.nextSeq (tilesIf look m.tiles) watched

variable {m : Module} {look : Bool} {watched : Watched}

@[simp] theorem stands_ite {c : Prop} [Decidable c] {a b : Module} (ha : a.Stands look watched) (hb : b.Stands look watched) :
    (if c then a else b).Stands look watched := by split <;> assumption

@[simp] theorem stands_ite_snd {α : Type} {c : Prop} [Decidable c] {p q : α × Module} (hp : p.2.Stands look watched)
    (hq : q.2.Stands look watched) : (if c then p else q).2.Stands look watched := by split <;> assumption

/-- A fold whose every round keeps what is watched keeps it. -/
@[simp] theorem stands_foldl {α : Type} {f : Module → α → Module} {l : List α}
    (hf : ∀ m a, m.Stands look watched → (f m a).Stands look watched) (h : m.Stands look watched) : (l.foldl f m).Stands look watched :=
  List.foldlRecOn l f h fun m hm a _ => hf m a hm

/-- A fold over pairs whose every round keeps what is watched keeps it. -/
@[simp] theorem stands_foldl_snd {α β : Type} {f : β × Module → α → β × Module} {l : List α} {p : β × Module}
    (hf : ∀ p a, p.2.Stands look watched → (f p a).2.Stands look watched) (h : p.2.Stands look watched) :
    (l.foldl f p).2.Stands look watched :=
  List.foldlRecOn (motive := fun p => p.2.Stands look watched) l f h fun p hp a _ => hf p a hp

/-- The module of an answer whose meaning keeps what is watched. -/
theorem CmdStands.of_eq {α : Type} {p : α × Module} {a : α} {m' : Module}
    (hp : CmdStands p.2.cmds p.2.nextSeq (tilesIf look p.2.tiles) watched) (e : p = (a, m')) : m'.Stands look watched := by
  subst e
  exact hp

theorem EventOnly.stands {m' : Module} {refs : List RegRef} (e : EventOnly m m' refs) (h : m.Stands look watched) :
    m'.Stands look watched := by
  rw [e.rest]
  exact h

end Sys2Proof.Machine
end

