-- ==== Sys2Proof/Proofs/StandsOps.lean ====
section
/-! A command stands through the shared operations of registers, memories, rings, routes, weights and caravans. -/

namespace Sys2Proof.Machine

variable {m : Module} {look : Bool} {watched : Watched}

/-! ### Ops.lean -/

@[simp] theorem Module.setReg_stands {r : RegId} {i j : ℕ} {v : Word64} (h : m.Stands look watched) :
    (m.setReg r i j v).Stands look watched := h

@[simp] theorem Module.setFld_stands {f : Field} {i j v : ℕ} (h : m.Stands look watched) :
    (m.setFld f i j v).Stands look watched := h

@[simp] theorem Module.setFlag_stands {f : Field} {i j : ℕ} {v : Bool} (h : m.Stands look watched) :
    (m.setFlag f i j v).Stands look watched := h

@[simp] theorem Module.addFld_stands {f : Field} {i j n : ℕ} (h : m.Stands look watched) :
    (m.addFld f i j n).Stands look watched := h

@[simp] theorem Module.subFld_stands {f : Field} {i j n : ℕ} (h : m.Stands look watched) :
    (m.subFld f i j n).Stands look watched := h

@[simp] theorem Module.drawn_stands (h : m.Stands look watched) : m.drawn.Stands look watched := h

@[simp] theorem Module.count_stands {ev ten n : ℕ} (h : m.Stands look watched) :
    (m.count ev ten n).Stands look watched := by
  unfold Module.count
  grind [stands_foldl, Module.addFld_stands]

@[simp] theorem Module.bill_stands {ten : ℕ} {f : Ledger → Ledger} (h : m.Stands look watched) :
    (m.bill ten f).Stands look watched := by
  unfold Module.bill
  split <;> simp [h]

@[simp] theorem Module.send_stands {x : OutMsg} (h : m.Stands look watched) : (m.send x).Stands look watched := h

@[simp] theorem Module.pfVector_stands {vec : ℕ} (h : m.Stands look watched) :
    (m.pfVector vec).Stands look watched := by
  unfold Module.pfVector
  split <;> simp [h]

@[simp] theorem Module.raise_stands {k : Kind} {ten loc site : ℕ} (h : m.Stands look watched) :
    (m.raise k ten loc site).Stands look watched := (EventOnly.raise m k ten loc site).stands h

@[simp] theorem Module.probe_stands {k : Kind} {ten loc : ℕ} (h : m.Stands look watched) :
    (m.probe k ten loc).Stands look watched := (EventOnly.probe m k ten loc).stands h

@[simp] theorem Module.violation_stands {ten : ℕ} {b : Block} (h : m.Stands look watched) :
    (m.violation ten b).Stands look watched := by
  unfold Module.violation
  grind [Module.addFld_stands, Module.setFld_stands, Module.raise_stands]

@[simp] theorem Module.when_stands {b : Bool} {f : Module → Module} (hf : ∀ m, m.Stands look watched →
    (f m).Stands look watched) (h : m.Stands look watched) :
    (m.when b f).Stands look watched := by
  unfold Module.when
  simp [h, hf]

/-! ### MemOps.lean -/

@[simp] theorem Module.setHost_stands {a : ℕ} {x : List Byte} (h : m.Stands false watched) :
    (m.setHost a x).Stands false watched := by
  induction x generalizing m a with
  | nil => exact h
  | cons a l ih =>
    unfold Module.setHost
    grind []

@[simp] theorem Module.setTag_stands {f v : ℕ} (h : m.Stands look watched) : (m.setTag f v).Stands look watched := h

@[simp] theorem Module.quarantine_stands {f : ℕ} (h : m.Stands look watched) :
    (m.quarantine f).Stands look watched := by
  unfold Module.quarantine
  grind [Module.raise_stands, Module.setTag_stands, Module.when_stands, Module.subFld_stands]

@[simp] theorem Module.withdraw_stands {ch need : ℕ} (h : m.Stands look watched) :
    (m.withdraw ch need).2.Stands look watched := h

@[simp] theorem Module.formPatches_stands {ch : ℕ} (h : m.Stands look watched) :
    (m.formPatches ch).2.Stands look watched := h

@[simp] theorem Module.mapOut_stands {ch : ℕ} (h : m.Stands look watched) : (m.mapOut ch).Stands look watched := by
  unfold Module.mapOut
  grind [Module.raise_stands, Module.setFld_stands, Module.formPatches_stands]

@[simp] theorem Module.readUnit_stands {ten u ch : ℕ} (h : m.Stands look watched) :
    (m.readUnit ten u ch).Stands look watched := by
  unfold Module.readUnit
  grind [Module.probe_stands, Module.raise_stands, Module.addFld_stands, Module.mapOut_stands]

@[simp] theorem Module.mirrorKeys_stands {ten : ℕ} (h : m.Stands false watched) :
    (m.mirrorKeys ten).Stands false watched := h

@[simp] theorem Module.uncacheFrame_stands {f : ℕ} (h : m.Stands false watched) :
    (m.uncacheFrame f).Stands false watched := h

@[simp] theorem Module.uncachePages_stands {ten page n : ℕ} (h : m.Stands false watched) :
    (m.uncachePages ten page n).Stands false watched := h

@[simp] theorem Module.freeFrame_stands {f : ℕ} (h : m.Stands false watched) :
    (m.freeFrame f).Stands false watched := h

@[simp] theorem Module.zeroFrame_stands {f : ℕ} (h : m.Stands false watched) : (m.zeroFrame f).Stands false watched :=
  Module.bill_stands (ten := 0) (f := fun l => { l with dram := l.dram + frameBytes }) h

@[simp] theorem Module.scrubFrame_stands {f : ℕ} (h : m.Stands false watched) :
    (m.scrubFrame f).Stands false watched := by
  unfold Module.scrubFrame
  grind [Module.zeroFrame_stands, Module.addFld_stands]

@[simp] theorem Module.releaseFrames_stands {ten : ℕ} {fs : List ℕ} (h : m.Stands false watched) :
    (m.releaseFrames ten fs).Stands false watched := by
  unfold Module.releaseFrames
  grind [stands_foldl, Module.scrubFrame_stands, Module.freeFrame_stands]

@[simp] theorem Module.readEntries_stands {ten va : ℕ} (h : m.Stands look watched) :
    (m.readEntries ten va).2.Stands look watched := by
  unfold Module.readEntries
  grind [stands_foldl, Module.readUnit_stands]

@[simp] theorem Module.fillCache_stands {b : Block} {ten va : ℕ} {e : Word64} (h : m.Stands look watched) :
    (m.fillCache b ten va e).Stands look watched := by
  unfold Module.fillCache
  split <;> simp [h]

@[simp] theorem Module.recordWalk_stands {ten va : ℕ} {w : WalkFail} (h : m.Stands look watched) :
    (m.recordWalk ten va w).Stands look watched := by
  unfold Module.recordWalk
  grind [Module.setFld_stands, Module.raise_stands, Module.quarantine_stands, Module.violation_stands]

@[simp] theorem Module.translate_stands {b : Block} {ten va : ℕ} {write : Bool} (h : m.Stands look watched) :
    (m.translate b ten va write).2.Stands look watched := by
  unfold Module.translate
  split
  · exact Module.drawn_stands h
  · extract_lets m1 m2
    have h1 : m1.Stands look watched := stands_ite h (Module.probe_stands h)
    have h2 : m2.Stands look watched := stands_ite h1 (Module.count_stands h1)
    have hr := Module.readEntries_stands (ten := ten) (va := va) h2
    split
    · next e => exact CmdStands.of_eq hr e
    · next e =>
      have hm := CmdStands.of_eq hr e
      split
      · exact stands_ite hm (Module.fillCache_stands hm)
      · exact Module.recordWalk_stands hm

@[simp] theorem Module.translateAll_stands {b : Block} {ten : ℕ} {write : Bool} {x : List (ℕ × ℕ)}
    (h : m.Stands look watched) : (m.translateAll b ten write x).2.Stands look watched := by
  induction x generalizing m b ten write with
  | nil => exact h
  | cons a l ih =>
    unfold Module.translateAll
    grind [Module.translate_stands]

@[simp] theorem Module.writeEntry_stands {ea e : ℕ} (h : m.Stands false watched) :
    (m.writeEntry ea e).Stands false watched := h

@[simp] theorem Module.unmapPage_stands {ten va : ℕ} (h : m.Stands false watched) :
    (m.unmapPage ten va).Stands false watched := by
  unfold Module.unmapPage
  grind [Module.uncachePages_stands, Module.writeEntry_stands]

@[simp] theorem Module.takeTokens_stands {ten ch n : ℕ} (h : m.Stands look watched) :
    (m.takeTokens ten ch n).Stands look watched := by
  unfold Module.takeTokens
  grind [Module.drawn_stands, Module.count_stands, Module.addFld_stands]

@[simp] theorem Module.countDram_stands {ten a n : ℕ} (h : m.Stands look watched) :
    (m.countDram ten a n).Stands look watched := by
  unfold Module.countDram
  grind [stands_foldl, Module.bill_stands, Module.takeTokens_stands, Module.count_stands, Module.addFld_stands]

@[simp] theorem Module.readLoc_stands {ten : ℕ} {x : Loc × ℕ} (h : m.Stands look watched) :
    (m.readLoc ten x).2.Stands look watched := by
  unfold Module.readLoc
  grind [stands_foldl, Module.bill_stands, Module.addFld_stands, Module.readUnit_stands, Module.countDram_stands]

@[simp] theorem Module.readLocs_stands {ten : ℕ} {x : List (Loc × ℕ)} (h : m.Stands look watched) :
    (m.readLocs ten x).2.Stands look watched := by
  induction x generalizing m ten with
  | nil => exact h
  | cons a l ih =>
    unfold Module.readLocs
    grind [Module.readLoc_stands]

@[simp] theorem Module.writeLoc_stands {ten : ℕ} {l : Loc} {bs : List Byte} (h : m.Stands false watched) :
    (m.writeLoc ten l bs).Stands false watched := by
  unfold Module.writeLoc
  split
  · exact Module.addFld_stands (Module.bill_stands (Module.setHost_stands h))
  · exact Module.countDram_stands h

@[simp] theorem Module.writeLocs_stands {ten : ℕ} {x : List (Loc × ℕ)} {x1 : List Byte} (h : m.Stands false watched) :
    (m.writeLocs ten x x1).Stands false watched := by
  induction x generalizing m ten x1 with
  | nil => exact h
  | cons a l ih =>
    unfold Module.writeLocs
    grind [Module.writeLoc_stands]

@[simp] theorem Module.pathCheck_stands {b : Block} {ten : ℕ} (h : m.Stands look watched) :
    (m.pathCheck b ten).2.Stands look watched := by
  unfold Module.pathCheck
  grind [Module.probe_stands, Module.raise_stands]

@[simp] theorem Module.countSkew_stands {ten va n : ℕ} {ls : List (Loc × ℕ)} (h : m.Stands look watched) :
    (m.countSkew ten va n ls).Stands look watched := by
  unfold Module.countSkew
  simp [h]

@[simp] theorem Module.readVA_stands {b : Block} {ten va n : ℕ} (h : m.Stands look watched) :
    (m.readVA b ten va n).2.Stands look watched := by
  unfold Module.readVA
  grind [Module.translateAll_stands, Module.pathCheck_stands, Module.readLocs_stands, Module.countSkew_stands]

@[simp] theorem Module.writeVA_stands {b : Block} {ten va : ℕ} {bs : List Byte} (h : m.Stands false watched) :
    (m.writeVA b ten va bs).2.Stands false watched := by
  unfold Module.writeVA
  grind [Module.translateAll_stands, Module.writeLocs_stands, Module.countSkew_stands]

@[simp] theorem Module.mapped_stands {b : Block} {ten va n : ℕ} {write : Bool} (h : m.Stands look watched) :
    (m.mapped b ten va n write).2.Stands look watched := by
  unfold Module.mapped
  grind [Module.translateAll_stands]

@[simp] theorem Module.holdRefuse_stands {ten h : ℕ} {x : HoldFail} (hm : m.Stands false watched) :
    (m.holdRefuse ten h x).2.Stands false watched := by
  unfold Module.holdRefuse
  split <;> simp [hm]

@[simp] theorem Module.countBank_stands {p : ℕ} {free : Bool} (h : m.Stands false watched) :
    (m.countBank p free).Stands false watched := h

@[simp] theorem Module.takeBank_stands {p e : ℕ} (h : m.Stands false watched) :
    (m.takeBank p e).Stands false watched := h

@[simp] theorem Module.copyBank_stands {p q : ℕ} (h : m.Stands false watched) :
    (m.copyBank p q).Stands false watched := h

@[simp] theorem Module.retireBank_stands {p : ℕ} (h : m.Stands false watched) :
    (m.retireBank p).Stands false watched := by
  unfold Module.retireBank
  simp only
  split
  · exact Module.raise_stands (Module.countBank_stands h)
  · split
    · exact Module.raise_stands h
    · next q _ =>
      have ht : ((m.drawn.copyBank p q).takeBank q (m.bank p).entry.toNat).Stands false watched :=
        Module.takeBank_stands (Module.copyBank_stands (Module.drawn_stands h))
      exact Module.raise_stands ht

@[simp] theorem Module.writeHoldLocs_stands {x : List (ℕ × ℕ)} {x1 : List Byte} (h : m.Stands false watched) :
    (m.writeHoldLocs x x1).Stands false watched := by
  induction x generalizing m x1 with
  | nil => exact h
  | cons a l ih => exact ih h

@[simp] theorem Module.countHold_stands {ten n : ℕ} (h : m.Stands false watched) :
    (m.countHold ten n).Stands false watched := by
  unfold Module.countHold
  split <;> simp [h]

@[simp] theorem Module.writeHold_stands {ten h : ℕ} {bs : List Byte} (hm : m.Stands false watched) :
    (m.writeHold ten h bs).2.Stands false watched := by
  unfold Module.writeHold
  grind [Module.probe_stands, Module.holdRefuse_stands, Module.writeHoldLocs_stands, Module.countHold_stands]

/-! ### HostOps.lean -/

@[simp] theorem Module.setRing_stands {g : ℕ} {r : Ring} (h : m.Stands false watched) :
    (m.setRing g r).Stands false watched := h

@[simp] theorem Module.ringFail_stands {g : ℕ} (h : m.Stands false watched) :
    (m.ringFail g).Stands false watched := by
  unfold Module.ringFail
  simp [h]

@[simp] theorem Module.writePointer_stands {g v : ℕ} {act : Module → Module} (hact : ∀ m, m.Stands false watched →
    (act m).Stands false watched)
    (h : m.Stands false watched) : (m.writePointer g v act).2.Stands false watched := by
  unfold Module.writePointer
  grind [Module.writeVA_stands, Module.ringFail_stands]

@[simp] theorem Module.fireArm_stands {g : ℕ} (h : m.Stands false watched) : (m.fireArm g).Stands false watched := by
  unfold Module.fireArm
  grind [Module.setRing_stands, Module.pfVector_stands, Module.send_stands]

@[simp] theorem Module.postEntry_stands {g : ℕ} {bs : List Byte} (h : m.Stands false watched) :
    (m.postEntry g bs).Stands false watched := by
  unfold Module.postEntry
  grind [Module.writeVA_stands, Module.ringFail_stands, Module.writePointer_stands, Module.fireArm_stands,
    Module.setFld_stands]

@[simp] theorem Module.unreserve_stands {g n : ℕ} (h : m.Stands false watched) :
    (m.unreserve g n).Stands false watched := h

/-- A command whose phase alone is written stands. -/
theorem Module.setCmd_stands {id : ℕ} {c : Cmd} (hc : m.cmd id = some c) (ph : CmdPhase) (h : m.Stands look watched) :
    (m.setCmd id { c with phase := ph }).Stands look watched := by
  obtain ⟨⟨q, hq⟩, hs, ht⟩ := h
  refine ⟨?_, hs, ht⟩
  have e := Map.get?_insert m.cmds id watched.id { c with phase := ph }
  by_cases hi : id = watched.id
  · have hcw : c = { watched.cmd with phase := q } := Option.some.inj (hc.symm.trans (hi ▸ hq))
    exact ⟨ph, e.trans ((if_pos hi).trans (by rw [hcw]))⟩
  · exact ⟨q, e.trans ((if_neg hi).trans hq)⟩

@[simp] theorem Module.finish_stands {id status detail : ℕ} (h : m.Stands look watched) :
    (m.finish id status detail).Stands look watched := by
  unfold Module.finish
  split
  · exact h
  · next c hc => exact Module.setCmd_stands hc _ h

@[simp] theorem Module.finishFail_stands {id : ℕ} {e : Fail} (h : m.Stands false watched) :
    (m.finishFail id e).Stands false watched := by
  unfold Module.finishFail
  simp [h]

@[simp] theorem Module.commitCmd_stands {id : ℕ} (h : m.Stands look watched) :
    (m.commitCmd id).Stands look watched := by
  unfold Module.commitCmd
  split
  · exact h
  · next c hc => exact Module.setCmd_stands hc _ h

/-! ### RouteOps.lean -/

@[simp] theorem Module.setTileAt_stands {k : ℕ} {x : Tile} (h : m.Stands false watched) :
    (m.setTileAt k x).Stands false watched := h

@[simp] theorem Module.mapTiles_stands {c : ℕ} {f : Tile → Tile} (h : m.Stands false watched) :
    (m.mapTiles c f).Stands false watched := by
  unfold Module.mapTiles
  simp +contextual [h]

@[simp] theorem Module.setCl_stands {c : ℕ} {x : Cl} (h : m.Stands false watched) :
    (m.setCl c x).Stands false watched := h

@[simp] theorem Module.setRoute_stands {n : ℕ} {f : Route → Route} (h : m.Stands false watched) :
    (m.setRoute n f).Stands false watched := by
  unfold Module.setRoute
  split <;> simp [h]

@[simp] theorem Module.setStage_stands {n i : ℕ} {f : Stage → Stage} (h : m.Stands false watched) :
    (m.setStage n i f).Stands false watched := by
  unfold Module.setStage
  simp [h]

@[simp] theorem Module.mirrorRoute_stands {n : ℕ} (h : m.Stands false watched) :
    (m.mirrorRoute n).Stands false watched := h

@[simp] theorem Module.mirrorTen_stands {t : Ten} (h : m.Stands false watched) :
    (m.mirrorTen t).Stands false watched := h

@[simp] theorem Module.setClState_stands {c v : ℕ} (h : m.Stands false watched) :
    (m.setClState c v).Stands false watched := by
  unfold Module.setClState
  simp [h]

@[simp] theorem Module.wipeCluster_stands {c : ℕ} (h : m.Stands false watched) :
    (m.wipeCluster c).Stands false watched := by
  unfold Module.wipeCluster
  simp [h]

@[simp] theorem Module.idleCluster_stands {c : ℕ} (h : m.Stands false watched) :
    (m.idleCluster c).Stands false watched := by
  unfold Module.idleCluster
  extract_lets m1 cl m2 m3 m4 m5 twin m6
  have h5 : m5.Stands false watched := Module.setFlag_stands (Module.setFld_stands (Module.setFld_stands
    (Module.setCl_stands (Module.wipeCluster_stands h))))
  have h6 : m6.Stands false watched := Module.setClState_stands h5
  clear_value m6 twin
  split
  · exact Module.setClState_stands (Module.setCl_stands h6)
  · exact h6

@[simp] theorem Module.setAssign_stands {c : ℕ} {valid : Bool} {ten logical : ℕ} (h : m.Stands false watched) :
    (m.setAssign c valid ten logical).Stands false watched := h

@[simp] theorem Module.countBusy_stands {ten n i : ℕ} {step : Word64} {busy : ℕ} (h : m.Stands false watched) :
    (m.countBusy ten n i step busy).Stands false watched := by
  unfold Module.countBusy
  simp [h]

@[simp] theorem Module.restState_stands {c : ℕ} (h : m.Stands false watched) :
    (m.restState c).Stands false watched := by
  unfold Module.restState
  simp [h]

@[simp] theorem Module.assignSkew_stands (h : m.Stands false watched) : m.assignSkew.Stands false watched := h

@[simp] theorem Module.abandonMigration_stands {n b : ℕ} (h : m.Stands false watched) :
    (m.abandonMigration n b).Stands false watched := by
  unfold Module.abandonMigration
  grind [stands_foldl, Module.scrubFrame_stands, Module.setRoute_stands, Module.raise_stands,
    Module.mirrorKeys_stands]

@[simp] theorem Module.abandonAll_stands {n : ℕ} (h : m.Stands false watched) :
    (m.abandonAll n).Stands false watched := by
  unfold Module.abandonAll
  grind [stands_foldl, Module.abandonMigration_stands]

@[simp] theorem Module.recountBarriers_stands {n : ℕ} (h : m.Stands false watched) :
    (m.recountBarriers n).Stands false watched := by
  unfold Module.recountBarriers
  simp [h]

@[simp] theorem Module.atBoundary_stands {n c : ℕ} (h : m.Stands false watched) :
    (m.atBoundary n c).Stands false watched := by
  unfold Module.atBoundary
  simp [h]

@[simp] theorem Module.changedRoute_stands {n : ℕ} (h : m.Stands false watched) :
    (m.changedRoute n).Stands false watched := by
  unfold Module.changedRoute
  simp [h]

/-! ### WeightOps.lean -/

@[simp] theorem Module.mirrorWeights_stands {ten : ℕ} (h : m.Stands false watched) :
    (m.mirrorWeights ten).Stands false watched := by
  unfold Module.mirrorWeights
  grind [Module.setReg_stands]

@[simp] theorem Module.setWrec_stands {ten : ℕ} {w : WRecord} (h : m.Stands false watched) :
    (m.setWrec ten w).Stands false watched := by
  unfold Module.setWrec
  simp [h]

@[simp] theorem Module.takeSettings_stands {ten : ℕ} (h : m.Stands false watched) :
    (m.takeSettings ten).Stands false watched := by
  unfold Module.takeSettings
  split <;> simp [h]

@[simp] theorem Module.trimBerths_stands {ten : ℕ} (h : m.Stands false watched) :
    (m.trimBerths ten).Stands false watched := by
  unfold Module.trimBerths
  split <;> simp [h]

@[simp] theorem Module.weightRerun_stands {n : ℕ} (h : m.Stands false watched) :
    (m.weightRerun n).Stands false watched := by
  unfold Module.weightRerun
  grind [Module.setWrec_stands]

@[simp] theorem Module.weightCommit_stands {n i : ℕ} (h : m.Stands false watched) :
    (m.weightCommit n i).Stands false watched := by
  unfold Module.weightCommit
  grind [Module.trimBerths_stands, Module.takeSettings_stands, Module.setWrec_stands]

@[simp] theorem Module.weightUnload_stands {n : ℕ} {r : Route} (h : m.Stands false watched) :
    (m.weightUnload n r).Stands false watched := by
  unfold Module.weightUnload
  grind [Module.trimBerths_stands, Module.setWrec_stands]

/-! ### CaravanOps.lean -/

@[simp] theorem Module.mirrorFill_stands {t : Ten} (h : m.Stands false watched) :
    (m.mirrorFill t).Stands false watched := h

@[simp] theorem Module.setCaravan_stands {k : ℕ} {c : Caravan} (h : m.Stands false watched) :
    (m.setCaravan k c).Stands false watched := by
  unfold Module.setCaravan
  split <;> simp [h]

@[simp] theorem Module.starve_stands {k : ℕ} (h : m.Stands false watched) : (m.starve k).Stands false watched := by
  unfold Module.starve
  split <;> simp [h]

@[simp] theorem Module.cvnReturn_stands {k n : ℕ} (h : m.Stands false watched) :
    (m.cvnReturn k n).Stands false watched := h

@[simp] theorem Module.cvnFault_stands {k status : ℕ} (h : m.Stands false watched) :
    (m.cvnFault k status).Stands false watched := by
  unfold Module.cvnFault
  simp [h]

@[simp] theorem Module.writeSlots_stands {ten : ℕ} {c : Caravan} {s : ℕ} {x : List (List Byte)}
    (h : m.Stands false watched) : (m.writeSlots ten c s x).2.Stands false watched := by
  induction x generalizing m ten c s with
  | nil => exact h
  | cons a l ih =>
    unfold Module.writeSlots
    grind [Module.writeVA_stands]

@[simp] theorem Module.cvnAppend_stands {t : Ten} {k : ℕ} {slots : List (List Byte)} (h : m.Stands false watched) :
    (m.cvnAppend t k slots).2.Stands false watched := by
  unfold Module.cvnAppend
  grind [Module.writeSlots_stands, Module.cvnFault_stands, Module.count_stands]

@[simp] theorem Module.cvnPublish_stands {t : Ten} {k : ℕ} (h : m.Stands false watched) :
    (m.cvnPublish t k).Stands false watched := by
  unfold Module.cvnPublish
  grind [Module.setCaravan_stands, Module.writeVA_stands, Module.mirrorFill_stands, Module.cvnFault_stands,
    Module.setFld_stands]

@[simp] theorem Module.cvnUnpin_stands {k id : ℕ} (h : m.Stands false watched) :
    (m.cvnUnpin k id).Stands false watched := by
  unfold Module.cvnUnpin
  split <;> simp [h]

@[simp] theorem Module.cvnEnded_stands {t : Ten} {k : ℕ} {q : CSeq} (h : m.Stands false watched) :
    (m.cvnEnded t k q).Stands false watched := by
  unfold Module.cvnEnded
  grind [Module.addFld_stands, Module.setCaravan_stands]

@[simp] theorem Module.untakeSeqs_stands {t : Ten} (h : m.Stands false watched) :
    (m.untakeSeqs t).Stands false watched := by
  unfold Module.untakeSeqs
  simp [h]

/-! ### CkpOps.lean -/

@[simp] theorem Module.mirrorCkp_stands {t : Ten} (h : m.Stands false watched) :
    (m.mirrorCkp t).Stands false watched := h

@[simp] theorem Module.setCapture_stands {t : Ten} {c : Capture} (h : m.Stands false watched) :
    (m.setCapture t c).Stands false watched := by
  unfold Module.setCapture
  simp [h]

@[simp] theorem Module.captureUnload_stands {t : Ten} {routeId : ℕ} (h : m.Stands false watched) :
    (m.captureUnload t routeId).Stands false watched := by
  unfold Module.captureUnload
  grind [Module.finish_stands, Module.setCapture_stands]

@[simp] theorem Module.captureBoundary_stands {n : ℕ} (h : m.Stands false watched) :
    (m.captureBoundary n).Stands false watched := by
  unfold Module.captureBoundary
  grind [Module.setCapture_stands, Module.addFld_stands]

end Sys2Proof.Machine
end

