-- ==== Sys2Proof/Proofs/StandsRoutes.lean ====
section
/-! A command stands through what generation, learning and the collectives do as a route stops. -/

namespace Sys2Proof.Machine

variable {m : Module} {look : Bool} {watched : Watched}

/-! ### GenOps.lean -/

@[simp] theorem Module.mirrorWaybills_stands {t : Ten} (h : m.Stands false watched) :
    (m.mirrorWaybills t).Stands false watched := h

@[simp] theorem Module.setWaybill_stands {id : ℕ} {w : Waybill} (h : m.Stands false watched) :
    (m.setWaybill id w).Stands false watched := h

@[simp] theorem Module.dropPages_stands {ten : ℕ} {pages : List (ℕ × ℕ)} (h : m.Stands false watched) :
    (m.dropPages ten pages).Stands false watched := by
  unfold Module.dropPages
  grind [stands_foldl, Module.releaseFrames_stands, Module.unmapPage_stands]

@[simp] theorem Module.keepPages_stands {t : Ten} {base : ℕ} {pages : List (ℕ × ℕ)} (h : m.Stands false watched) :
    (m.keepPages t base pages).Stands false watched := by
  unfold Module.keepPages
  simp [h]

@[simp] theorem Module.postWaybill_stands {g : ℕ} {bs : List Byte} (h : m.Stands false watched) :
    (m.postWaybill g bs).Stands false watched := by
  unfold Module.postWaybill
  grind [Module.unreserve_stands, Module.postEntry_stands]

@[simp] theorem Module.releaseWindow_stands {id : ℕ} {w : Waybill} (h : m.Stands false watched) :
    (m.releaseWindow id w).Stands false watched := by
  unfold Module.releaseWindow
  grind [Module.dropPages_stands]

@[simp] theorem Module.freeWaybill_stands {id : ℕ} {t : Ten} (h : m.Stands false watched) :
    (m.freeWaybill id t).Stands false watched := h

@[simp] theorem Module.completeWaybill_stands {id : ℕ} {w : Waybill} {status state cause : ℕ}
    (h : m.Stands false watched) : (m.completeWaybill id w status state cause).Stands false watched := by
  unfold Module.completeWaybill
  grind [Module.postWaybill_stands, Module.freeWaybill_stands, Module.releaseWindow_stands]

@[simp] theorem Module.returnRoom_stands {w : Waybill} (h : m.Stands false watched) :
    (m.returnRoom w).Stands false watched := by
  unfold Module.returnRoom
  split <;> simp [h]

@[simp] theorem Module.unpin_stands {id : ℕ} {w : Waybill} (h : m.Stands false watched) :
    (m.unpin id w).Stands false watched := by
  unfold Module.unpin
  grind [Module.cvnUnpin_stands, Module.cvnPublish_stands]

@[simp] theorem Module.writeSeqEnd_stands {id : ℕ} {w : Waybill} {cause : ℕ} {version : BitVec 16}
    (h : m.Stands false watched) : (m.writeSeqEnd id w cause version).Stands false watched := by
  unfold Module.writeSeqEnd
  grind [Module.unpin_stands, Module.cvnAppend_stands, Module.cvnEnded_stands]

@[simp] theorem Module.settleEnding_stands {id : ℕ} (h : m.Stands false watched) :
    (m.settleEnding id).Stands false watched := by
  unfold Module.settleEnding
  split
  · exact h
  · split
    · exact h
    · simp only
      split
      · exact Module.completeWaybill_stands (Module.unpin_stands h)
      · split
        · exact Module.starve_stands h
        · exact Module.completeWaybill_stands (Module.cvnPublish_stands (Module.writeSeqEnd_stands h))

@[simp] theorem Module.endOutside_stands {id : ℕ} {w : Waybill} {c status : ℕ} (h : m.Stands false watched) :
    (m.endOutside id w c status).Stands false watched := by
  unfold Module.endOutside
  simp [h]

@[simp] theorem Module.endSilent_stands {id : ℕ} {w : Waybill} {c status : ℕ} (h : m.Stands false watched) :
    (m.endSilent id w c status).Stands false watched := by
  unfold Module.endSilent
  simp [h]

@[simp] theorem Module.checkPairs_stands {id : ℕ} {w : Waybill} (h : m.Stands false watched) :
    (m.checkPairs id w).2.Stands false watched := by
  unfold Module.checkPairs
  grind [Module.probe_stands, Module.raise_stands, Module.endSilent_stands, Module.returnRoom_stands]

@[simp] theorem Module.pauseWaybill_stands {id : ℕ} {w : Waybill} {keep : Bool} {c : ℕ} (h : m.Stands false watched) :
    (m.pauseWaybill id w keep c).Stands false watched := by
  have hw := fun bs => Module.writeVA_stands (b := .wbl) (ten := w.ten.val) (va := w.window + 0x200000) (bs := bs) h
  unfold Module.pauseWaybill
  simp only
  split
  · next e => exact Module.endOutside_stands ((hw _).of_eq e)
  · next e =>
    have hu := Module.unpin_stands (id := id) (w := w) ((hw _).of_eq e)
    exact Module.freeWaybill_stands (Module.postWaybill_stands
      (stands_ite (Module.keepPages_stands hu) (Module.releaseWindow_stands hu)))

@[simp] theorem Module.applyAction_stands {id : ℕ} {w : Waybill} {a : ℕ} (h : m.Stands false watched) :
    (m.applyAction id w a).Stands false watched := by
  unfold Module.applyAction
  split <;> simp [h]

@[simp] theorem Module.leaveStep_stands {id : ℕ} {w : Waybill} (h : m.Stands false watched) :
    (m.leaveStep id w).Stands false watched := by
  unfold Module.leaveStep
  grind [Module.returnRoom_stands, Module.setWaybill_stands, Module.checkPairs_stands, Module.applyAction_stands]

@[simp] theorem Module.dropSlots_stands {r : Route} (h : m.Stands false watched) :
    (m.dropSlots r).Stands false watched := by
  unfold Module.dropSlots
  grind [stands_foldl, Module.leaveStep_stands, Module.mirrorFill_stands]

/-! ### LearnOps.lean -/

@[simp] theorem Module.learnStart_stands {n : ℕ} {r : Route} (h : m.Stands false watched) :
    (m.learnStart n r).2.Stands false watched := by
  unfold Module.learnStart
  grind [Module.readVA_stands]

@[simp] theorem Module.learnRerun_stands {n : ℕ} (h : m.Stands false watched) :
    (m.learnRerun n).Stands false watched := by
  unfold Module.learnRerun
  simp [h]

@[simp] theorem Module.dropSeqs_stands {t : Ten} {gone : ℕ → CSeq → Bool} (h : m.Stands false watched) :
    (m.dropSeqs t gone).Stands false watched := by
  unfold Module.dropSeqs
  grind [stands_foldl, Module.cvnPublish_stands, Module.setCaravan_stands]

@[simp] theorem Module.consumeBatch_stands {n : ℕ} (h : m.Stands false watched) :
    (m.consumeBatch n).Stands false watched := by
  unfold Module.consumeBatch
  grind [Module.dropSeqs_stands, Module.setFld_stands, Module.setRoute_stands]

/-! ### ColOps.lean -/

@[simp] theorem Module.writeDst_stands {t : Ten} {c : ColSpec} {off : ℕ} {bs : List Byte}
    (h : m.Stands false watched) : (m.writeDst t c off bs).2.Stands false watched := by
  unfold Module.writeDst
  simp [h]

@[simp] theorem Module.writeRuns_stands {t : Ten} {c : ColSpec} {x : List (ℕ × List Byte)}
    (h : m.Stands false watched) : (m.writeRuns t c x).2.Stands false watched := by
  induction x generalizing m with
  | nil => exact h
  | cons a l ih =>
    have hd := Module.writeDst_stands (t := t) (c := c) (off := a.1) (bs := a.2) h
    unfold Module.writeRuns
    split
    · next e => exact ih (by rw [e] at hd; exact hd)
    · exact hd

@[simp] theorem Module.putSlot_stands {t : Ten} {k : ℕ} {b : BoundSlot} (h : m.Stands false watched) :
    (m.putSlot t k b).Stands false watched := h

@[simp] theorem Module.mirrorCol_stands {t : Ten} (h : m.Stands false watched) :
    (m.mirrorCol t).Stands false watched := h

@[simp] theorem Module.dropInst_stands {x : Inst} (h : m.Stands false watched) :
    (m.dropInst x).Stands false watched := by
  unfold Module.dropInst
  simp [h]

@[simp] theorem Module.freeSlot_stands {t : Ten} {k : ℕ} (h : m.Stands false watched) :
    (m.freeSlot t k).Stands false watched := by
  unfold Module.freeSlot
  grind [Module.mirrorCol_stands, Module.releaseFrames_stands, Module.finish_stands]

@[simp] theorem Module.checkUnbind_stands {t : Ten} {k : ℕ} (h : m.Stands false watched) :
    (m.checkUnbind t k).Stands false watched := by
  unfold Module.checkUnbind
  split <;> simp [h]

@[simp] theorem Module.unbindSlots_stands {t : Ten} {route : Option ℕ} (h : m.Stands false watched) :
    (m.unbindSlots t route).Stands false watched := by
  unfold Module.unbindSlots
  grind [stands_foldl, Module.dropInst_stands, Module.finish_stands, Module.freeSlot_stands]

@[simp] theorem Module.loseDst_stands {t : Ten} {b : BoundSlot} (h : m.Stands false watched) :
    (m.loseDst t b).Stands false watched := by
  unfold Module.loseDst
  grind [Module.writeRuns_stands, Module.drawn_stands]

@[simp] theorem Module.colKill_stands {n : ℕ} (h : m.Stands false watched) : (m.colKill n).Stands false watched := by
  unfold Module.colKill
  grind [stands_foldl, Module.loseDst_stands, Module.checkUnbind_stands, Module.mirrorCol_stands,
    Module.putSlot_stands]

/-! ### RouteHooks.lean -/

@[simp] theorem Module.afterCommit_stands {n stage : ℕ} {_step : Word64} (h : m.Stands false watched) :
    (m.afterCommit n stage _step).Stands false watched := by
  unfold Module.afterCommit
  grind [Module.captureBoundary_stands, Module.consumeBatch_stands, Module.weightCommit_stands]

@[simp] theorem Module.afterKill_stands {n : ℕ} (h : m.Stands false watched) :
    (m.afterKill n).Stands false watched := by
  unfold Module.afterKill
  grind [Module.colKill_stands, Module.learnRerun_stands, Module.weightRerun_stands]

@[simp] theorem Module.afterStop_stands {_n : ℕ} (h : m.Stands false watched) :
    (m.afterStop _n).Stands false watched := h

@[simp] theorem Module.afterUnload_stands {n : ℕ} {r : Route} (h : m.Stands false watched) :
    (m.afterUnload n r).Stands false watched := by
  unfold Module.afterUnload
  grind [Module.untakeSeqs_stands, Module.captureUnload_stands, Module.unbindSlots_stands,
    Module.weightUnload_stands, Module.dropSlots_stands]

@[simp] theorem Module.afterStart_stands {n : ℕ} (h : m.Stands false watched) :
    (m.afterStart n).Stands false watched := by
  unfold Module.afterStart
  grind [Module.setRoute_stands, Module.takeSettings_stands, Module.assignSkew_stands, Module.weightRerun_stands]

@[simp] theorem Module.startCheck_stands {n : ℕ} (h : m.Stands false watched) :
    (m.startCheck n).2.Stands false watched := by
  unfold Module.startCheck
  grind only [Module.learnStart_stands, Module.setRoute_stands]

end Sys2Proof.Machine
end

