-- ==== Sys2Proof/Proofs/StandsFabric.lean ====
section
/-! A command stands through the clusters' commits, kills, repairs and retirements, and through the targets of a pack. -/

namespace Sys2Proof.Machine

variable {m : Module} {look : Bool} {watched : Watched}

/-! ### FabricOps.lean -/

@[simp] theorem Module.publish_stands {k : Cluster} {ten : ℕ} {x : Staged} (h : m.Stands false watched) :
    (m.publish k ten x).2.Stands false watched := by
  unfold Module.publish
  grind [Module.writeHold_stands, Module.writeVA_stands]

@[simp] theorem Module.publishAll_stands {k : Cluster} {ten : ℕ} {x : List Staged} (h : m.Stands false watched) :
    (m.publishAll k ten x).2.Stands false watched := by
  induction x generalizing m k ten with
  | nil => exact h
  | cons a l ih =>
    unfold Module.publishAll
    grind [Module.publish_stands]

@[simp] theorem Module.mirrorTwin_stands {c : ℕ} (h : m.Stands false watched) :
    (m.mirrorTwin c).Stands false watched := by
  unfold Module.mirrorTwin
  split <;> simp [h]

@[simp] theorem Module.busyStep_stands {ten c n i : ℕ} {step : Word64} (h : m.Stands false watched) :
    (m.busyStep ten c n i step).Stands false watched := by
  unfold Module.busyStep
  extract_lets add
  have ha : ∀ (m : Module) (d : ℕ), m.Stands false watched → (add m d).2.Stands false watched := fun m d hm =>
    Module.bill_stands (Module.drawn_stands (Module.setFld_stands hm))
  clear_value add
  have hb := Module.countBusy_stands (ten := ten) (n := n) (i := i) (step := step) (busy := (add m c).1) (ha m c h)
  simp only
  split
  · exact hb
  · exact Module.count_stands (ha _ _ hb)

@[simp] theorem Module.commitCluster_stands {c : ℕ} (h : m.Stands false watched) :
    (m.commitCluster c).2.Stands false watched := by
  unfold Module.commitCluster
  split
  · exact h
  · next n r sg hs =>
    extract_lets cl staged
    split
    next fail m1 e =>
    have h1 : m1.Stands false watched := CmdStands.of_eq (Module.publishAll_stands h) e
    extract_lets m2 m3 m4 m5 m6 m7 m8 m9
    have h2 : m2.Stands false watched := Module.mapTiles_stands h1
    have h3 : m3.Stands false watched := by
      unfold m3
      split
      · exact Module.mapTiles_stands h2
      · exact h2
    have h5 : m5.Stands false watched := Module.setFlag_stands (Module.setFld_stands h3)
    have h7 : m7.Stands false watched :=
      Module.atBoundary_stands (Module.mirrorTwin_stands (Module.busyStep_stands (Module.setStage_stands h5)))
    exact Module.afterCommit_stands (_step := cl.step) (Module.count_stands (Module.setCl_stands h7))

@[simp] theorem Module.killCluster_stands {c : ℕ} (h : m.Stands false watched) :
    (m.killCluster c).Stands false watched := by
  unfold Module.killCluster
  grind [Module.mapTiles_stands, Module.setFlag_stands, Module.setCl_stands]

@[simp] theorem Module.finishArrived_stands {n : ℕ} (h : m.Stands false watched) :
    (m.finishArrived n).2.Stands false watched := by
  unfold Module.finishArrived
  refine stands_foldl_snd (fun p c hp => ?_) h
  grind [Module.commitCluster_stands]

@[simp] theorem Module.dropPackets_stands {cs : List ℕ} (h : m.Stands false watched) :
    (m.dropPackets cs).Stands false watched := h

@[simp] theorem Module.killSteps_stands {n : ℕ} (h : m.Stands false watched) :
    (m.killSteps n).2.Stands false watched := by
  unfold Module.killSteps
  grind [stands_foldl, Module.finishArrived_stands, Module.dropPackets_stands, Module.killCluster_stands,
    Module.setRoute_stands, Module.afterKill_stands, Module.recountBarriers_stands]

@[simp] theorem Module.endStart_stands {n status detail : ℕ} (h : m.Stands false watched) :
    (m.endStart n status detail).Stands false watched := by
  unfold Module.endStart
  grind [Module.setRoute_stands, Module.finish_stands]

@[simp] theorem Module.startCluster_stands {fresh : Bool} {c : ℕ} (h : m.Stands false watched) :
    (m.startCluster fresh c).Stands false watched := by
  unfold Module.startCluster
  grind [Module.mapTiles_stands, Module.setCl_stands, Module.setClState_stands]

@[simp] theorem Module.startRoute_stands {n id : ℕ} (h : m.Stands false watched) :
    (m.startRoute n id).Stands false watched := by
  unfold Module.startRoute
  split
  · exact Module.finish_stands h
  · have hc := Module.startCheck_stands (n := n) h
    split
    · next e => exact Module.finishFail_stands (CmdStands.of_eq hc e)
    · next e =>
      exact Module.afterStart_stands (Module.mirrorRoute_stands (Module.commitCmd_stands (Module.setRoute_stands
        (stands_foldl (fun _ _ hm => Module.startCluster_stands hm) (CmdStands.of_eq hc e)))))

@[simp] theorem Module.beginStart_stands {n id : ℕ} (h : m.Stands false watched) :
    (m.beginStart n id).Stands false watched := by
  unfold Module.beginStart
  simp [h]

@[simp] theorem Module.unloadRoute_stands {n : ℕ} (h : m.Stands false watched) :
    (m.unloadRoute n).Stands false watched := by
  unfold Module.unloadRoute
  split
  · exact h
  · extract_lets cs m1 m2 m3 m4 m5 m6
    have h2 : m2.Stands false watched := stands_foldl (fun _ _ hm => Module.idleCluster_stands hm)
      (Module.abandonAll_stands h)
    have h3 : m3.Stands false watched := by
      refine stands_foldl (fun m c hm => ?_) h2
      split
      · exact stands_ite (Module.restState_stands (Module.setCl_stands hm)) hm
      · exact hm
    have h6 : m6.Stands false watched := Module.releaseFrames_stands h3
    exact Module.mirrorTen_stands (Module.mirrorRoute_stands (Module.afterUnload_stands h6))

@[simp] theorem Module.stopped_stands {n : ℕ} (h : m.Stands false watched) : (m.stopped n).Stands false watched := by
  unfold Module.stopped
  split
  · exact h
  · extract_lets m1 m2 m3 m4 m5 m6 m7
    have h1 : m1.Stands false watched := stands_foldl (fun _ _ hm => Module.setClState_stands (Module.setCl_stands
      hm)) h
    have h3 : m3.Stands false watched := stands_foldl (fun _ _ hm => Module.finish_stands hm) (Module.endStart_stands
      h1)
    have h6 : m6.Stands false watched := Module.mirrorRoute_stands (Module.afterStop_stands (Module.setRoute_stands
      h3))
    clear_value m6
    exact stands_ite (Module.unloadRoute_stands (stands_foldl (fun _ _ hm => Module.finish_stands hm) h6))
      (stands_foldl (fun _ _ hm => Module.beginStart_stands hm) h6)

@[simp] theorem Module.checkStopped_stands {n : ℕ} (h : m.Stands false watched) :
    (m.checkStopped n).Stands false watched := by
  unfold Module.checkStopped
  split <;> simp [h]

@[simp] theorem Module.stopNow_stands {n : ℕ} (h : m.Stands false watched) : (m.stopNow n).Stands false watched := by
  unfold Module.stopNow
  simp [h]

@[simp] theorem Module.stopKill_stands {n status detail : ℕ} (h : m.Stands false watched) :
    (m.stopKill n status detail).Stands false watched := by
  unfold Module.stopKill
  grind [Module.endStart_stands, Module.killSteps_stands, Module.stopNow_stands]

@[simp] theorem Module.killRoute_stands {n : ℕ} (h : m.Stands false watched) :
    (m.killRoute n).Stands false watched := by
  unfold Module.killRoute
  grind [Module.killSteps_stands, Module.stopNow_stands, Module.endStart_stands]

/-! ### MoveOps.lean -/

@[simp] theorem Module.setRowMap_stands {c r v : ℕ} (h : m.Stands false watched) :
    (m.setRowMap c r v).Stands false watched := h

@[simp] theorem Module.editRowMap_stands {c r lo w v : ℕ} (h : m.Stands false watched) :
    (m.editRowMap c r lo w v).Stands false watched := h

@[simp] theorem Module.countSpares_stands {c : ℕ} (h : m.Stands false watched) :
    (m.countSpares c).Stands false watched := h

@[simp] theorem Module.toRecord_stands {c r off : ℕ} (h : m.Stands false watched) :
    (m.toRecord c r off).Stands false watched := h

@[simp] theorem Module.replaceCluster_stands {t : Ten} {n i logical : ℕ} {twin : Option ℕ} {save : Map Mem}
    (h : m.Stands false watched) : (m.replaceCluster t n i logical twin save).Stands false watched := by
  unfold Module.replaceCluster
  grind [Module.setCl_stands, Module.setClState_stands, Module.changedRoute_stands, Module.stopKill_stands]

@[simp] theorem Module.abandonMove_stands {c : ℕ} (h : m.Stands false watched) :
    (m.abandonMove c).Stands false watched := by
  unfold Module.abandonMove
  split <;> simp [h]

@[simp] theorem Module.abandonTo_stands {c : ℕ} (h : m.Stands false watched) :
    (m.abandonTo c).Stands false watched := by
  unfold Module.abandonTo
  grind [stands_foldl, Module.abandonMove_stands, Module.setCl_stands, Module.restState_stands]

@[simp] theorem Module.retarget_stands {c d : ℕ} {old : ℕ → Tile} (h : m.Stands false watched) :
    (m.retarget c d old).Stands false watched := by
  unfold Module.retarget
  refine stands_foldl (fun _ _ hm => Module.setTileAt_stands hm) ?_
  exact h

@[simp] theorem Module.orphanShares_stands {c : ℕ} (h : m.Stands false watched) :
    (m.orphanShares c).Stands false watched := by
  unfold Module.orphanShares
  split <;> simp [h]

@[simp] theorem Module.retireCluster_stands {c : ℕ} (h : m.Stands false watched) :
    (m.retireCluster c).Stands false watched := by
  unfold Module.retireCluster
  extract_lets cl logical t valid m1 twin save old m2 m3 m4 m5 src m6 m7
  have h1 : m1.Stands false watched := Module.abandonTo_stands (Module.abandonMove_stands (Module.orphanShares_stands
    h))
  have h4 : m4.Stands false watched := Module.wipeCluster_stands (Module.setFlag_stands (Module.setFld_stands h1))
  have h6 : m6.Stands false watched := Module.setCl_stands (Module.setAssign_stands h4)
  have h7 : m7.Stands false watched := stands_ite (Module.mirrorTen_stands h6) h6
  clear_value m7 old save twin
  split
  · exact Module.replaceCluster_stands h7
  · exact h7
  · extract_lets m8 heir m9 m10
    have h8 : m8.Stands false watched := Module.replaceCluster_stands h7
    clear_value heir
    have h9 : m9.Stands false watched := by
      unfold m9
      split
      · exact Module.retarget_stands h8
      · exact h8
    have h10 : m10.Stands false watched := by
      unfold m10
      split
      · exact Module.setCl_stands h9
      · exact Module.idleCluster_stands h9
      · exact h9
    exact Module.changedRoute_stands h10

@[simp] theorem Module.countEpochs_stands (h : m.Stands false watched) : m.countEpochs.Stands false watched := h

@[simp] theorem Module.recordEpoch_stands {e : Epoch} {status : ℕ} (h : m.Stands false watched) :
    (m.recordEpoch e status).Stands false watched := h

@[simp] theorem Module.setEpoch_stands {n : ℕ} {f : Epoch → Option Epoch} (h : m.Stands false watched) :
    (m.setEpoch n f).Stands false watched := h

@[simp] theorem Module.doubleFault_stands {n : ℕ} (h : m.Stands false watched) :
    (m.doubleFault n).Stands false watched := by
  unfold Module.doubleFault
  grind [stands_foldl, Module.recordEpoch_stands, Module.setEpoch_stands, Module.stopKill_stands, Module.raise_stands]

@[simp] theorem Module.checkEpochBuddy_stands {n : ℕ} (h : m.Stands false watched) :
    (m.checkEpochBuddy n).Stands false watched := by
  unfold Module.checkEpochBuddy
  grind [Module.doubleFault_stands]

@[simp] theorem Module.closeEpoch_stands {n : ℕ} (h : m.Stands false watched) :
    (m.closeEpoch n).Stands false watched := by
  unfold Module.closeEpoch
  grind [stands_foldl, Module.recordEpoch_stands, Module.setEpoch_stands, Module.checkStopped_stands]

@[simp] theorem Module.releaseEpochs_stands {c : ℕ} (h : m.Stands false watched) :
    (m.releaseEpochs c).Stands false watched := by
  unfold Module.releaseEpochs
  simp +contextual [h]

@[simp] theorem Module.beginRepair_stands {c r off : ℕ} (h : m.Stands false watched) :
    (m.beginRepair c r off).Stands false watched := by
  unfold Module.beginRepair
  grind [Module.setFld_stands, Module.mapTiles_stands, Module.editRowMap_stands, Module.setCl_stands]

@[simp] theorem Module.restartEpoch_stands {n : ℕ} {e : Epoch} {more : List ℕ} (h : m.Stands false watched) :
    (m.restartEpoch n e more).Stands false watched := by
  unfold Module.restartEpoch
  split <;> simp [h]

@[simp] theorem Module.openEpoch_stands {c : ℕ} {declared : Bool} (h : m.Stands false watched) :
    (m.openEpoch c declared).Stands false watched := by
  unfold Module.openEpoch
  grind [Module.killRoute_stands, Module.checkEpochBuddy_stands, Module.raise_stands, Module.countEpochs_stands,
    Module.restartEpoch_stands]

@[simp] theorem Module.retireInEpoch_stands {c : ℕ} (h : m.Stands false watched) :
    (m.retireInEpoch c).Stands false watched := by
  unfold Module.retireInEpoch
  simp [h]

@[simp] theorem Module.markSecond_stands {c r off : ℕ} (h : m.Stands false watched) :
    (m.markSecond c r off).Stands false watched := h

@[simp] theorem Module.markSpareBad_stands {c r : ℕ} (h : m.Stands false watched) :
    (m.markSpareBad c r).Stands false watched := h

@[simp] theorem Module.secondFault_stands {c r off : ℕ} {declared : Bool} (h : m.Stands false watched) :
    (m.secondFault c r off declared).Stands false watched := by
  unfold Module.secondFault
  grind [Module.retireInEpoch_stands, Module.openEpoch_stands, Module.markSecond_stands]

@[simp] theorem Module.spareFault_stands {c r : ℕ} (h : m.Stands false watched) :
    (m.spareFault c r).Stands false watched := by
  unfold Module.spareFault
  grind [Module.markSecond_stands, Module.editRowMap_stands, Module.doubleFault_stands, Module.retireInEpoch_stands]

@[simp] theorem Module.siteFault_stands {c r off : ℕ} {bypass declared : Bool} (h : m.Stands false watched) :
    (m.siteFault c r off bypass declared).Stands false watched := by
  unfold Module.siteFault
  grind [Module.retireInEpoch_stands, Module.openEpoch_stands, Module.spareFault_stands, Module.markSpareBad_stands,
    Module.beginRepair_stands, Module.secondFault_stands]

/-! ### Fabric.lean -/

@[simp] theorem Module.noteSite_stands {c : Cluster} {row off : ℕ} {kind : SiteFault} (h : m.Stands false watched) :
    (m.noteSite c row off kind).Stands false watched := h

@[simp] theorem Module.recordSite_stands {c : Cluster} {row off : ℕ} {kind : SiteFault} (h : m.Stands false watched) :
    (m.recordSite c row off kind).Stands false watched := by
  unfold Module.recordSite
  split <;> simp [h]

@[simp] theorem Module.failSite_stands {c : Cluster} {row : BitVec 4} {offset : BitVec 5}
    (h : m.Stands false watched) : (m.failSite c row offset).Stands false watched := by
  unfold Module.failSite
  grind [Module.setCl_stands, Module.markSpareBad_stands, Module.siteFault_stands, Module.recordSite_stands]

/-! ### Patterns.lean -/

@[simp] theorem Module.repairUnit_stands {t : Target} {u : TestUnit} (h : m.Stands false watched) :
    (m.repairUnit t u).Stands false watched := by
  unfold Module.repairUnit
  split <;> simp [h]

@[simp] theorem Module.putSig_stands {va max' : ℕ} {u : TestUnit} {p : Pattern} {w : ℕ} (h : m.Stands false watched) :
    (m.putSig va max' u p w).2.Stands false watched := by
  unfold Module.putSig
  grind [Module.writeVA_stands, Module.drawn_stands]

@[simp] theorem Module.march_stands {t : Target} {p : Pattern} (h : m.Stands false watched) :
    (m.march t p).Stands false watched := by
  unfold Module.march
  extract_lets bytes
  clear_value bytes
  split
  · exact ⟨h.here, h.seq, h.tiles⟩
  · exact ⟨h.here, h.seq, h.tiles⟩
  · exact h

@[simp] theorem Module.runTarget_stands {ps : List Pattern} {va max' : ℕ} {repair : Bool} {a : Tally} {t : Target}
    (h : m.Stands false watched) : (m.runTarget ps va max' repair a t).2.Stands false watched := by
  unfold Module.runTarget
  split
  · exact h
  · extract_lets m1
    have h1 : m1.Stands false watched := stands_foldl (fun _ _ hm => Module.march_stands hm) h
    clear_value m1
    split
    next bad w m2 e =>
    have h2 : (bad, w, m2).2.2.Stands false watched := by
      rw [← e]
      refine List.foldlRecOn (motive := fun (x : Bool × ℕ × Module) => x.2.2.Stands false watched) _ _ h1 fun x hx u
        _ => ?_
      dsimp only
      split
      · exact Module.drawn_stands hx
      · have hd := Module.drawn_stands hx
        exact stands_ite (Module.repairUnit_stands (Module.putSig_stands hd)) (Module.putSig_stands hd)
    exact stands_ite (Module.raise_stands h2) h2

@[simp] theorem Module.runTargets_stands {ps : List Pattern} {va max' : ℕ} {repair : Bool} {a : Tally}
    {x : List Target} (h : m.Stands false watched) : (m.runTargets ps va max' repair a x).2.Stands false watched := by
  induction x generalizing m ps va max' repair a with
  | nil => exact h
  | cons a l ih =>
    unfold Module.runTargets
    grind [Module.runTarget_stands]

end Sys2Proof.Machine
end

