-- ==== Sys2Proof/Proofs/PatternPacks.lean ====
section
/-! Pattern packs (O50). -/

namespace Sys2Proof.Machine

/-! ### The command of a pattern pack (R417 to R419) -/

theorem Module.withCmd_ready {m : Module} {id op : ℕ} {c : Cmd} (h : CmdReady m id op c) (f : Cmd → Module → Module) :
    m.withCmd id op f = f { c with phase := .started } (m.begun id c) := by
  unfold Module.withCmd
  simp [h.here, h.taken, h.opcode, h.may, h.header, Module.begun]

/-- A module in which a command stands and nothing else is asked of the tiles. -/
theorem Module.Stands.blind {m : Module} {look : Bool} {watched : Watched} (h : m.Stands look watched) :
    m.Stands false { watched with tiles := [] } := ⟨h.here, h.seq, rfl⟩

/-- A command that is in the table ends with a status. -/
theorem Module.finish_done {m : Module} {look : Bool} {watched : Watched} (h : m.Stands look watched) (status detail : ℕ) :
    ∃ d, (m.finish watched.id status detail).cmd watched.id = some { watched.cmd with phase := .done status d } := by
  obtain ⟨ph, hc⟩ := h.here
  have hc : m.cmd watched.id = some { watched.cmd with phase := ph } := hc
  unfold Module.finish
  rw [hc]
  exact ⟨if status = st.ok ∧ !m.hcpAtLeast watched.cmd.func 3 1 then 0 else detail, (Map.get?_insert ..).trans (if_pos rfl)⟩

/-- A meaning that finishes the command that stands has ended it. -/
theorem ends_of_finish {i : Instr} {s : State} {m : Module} {look : Bool} {watched : Watched} {status detail : ℕ}
    {more : Module → Prop} (hy : Yields i s (m.finish watched.id status detail)) (h : m.Stands look watched)
    (hm : ∀ m' : Module, m'.Stands look watched → more m') : Ends i s watched.id watched.cmd status more := by
  obtain ⟨d, hd⟩ := Module.finish_done h status detail
  have hf : (m.finish watched.id status detail).Stands look watched := Module.finish_stands h
  exact ⟨d, completes_of_yields hy ⟨hd, hm _ hf⟩⟩

/-- What a well-formed pack does once it is read: it runs on its targets, if its signatures can be written. -/
def Module.runGoodPack (m : Module) (id : ℕ) (c : Cmd) (b : List Byte) : Module :=
  match m.mapped .int 0 (c.field 24 8) (128 * c.field 32 4) true with
  | (.error e, m) => m.finishFail id e
  | (.ok _, m) =>
    let all := m.targets (c.field 20 1)
    let ts := if c.field 22 2 = 0 then all else all.take (c.field 22 2)
    let (a, m) := m.runTargets (packPatterns b) (c.field 24 8) (c.field 32 4) (c.field 21 1 == 1) ⟨0, 0, 0⟩ ts
    m.finish id st.ok (a.tested % 2 ^ 32 * 2 ^ 32 + min 65535 a.failing * 2 ^ 16 + min 65535 a.written)

/-- What a pack does once its command has passed its commit point. -/
def Module.runPack (m : Module) (id : ℕ) (c : Cmd) : Module :=
  match m.readVA .int 0 (c.field 8 8) (c.field 16 4) with
  | (.error e, m) => m.finishFail id e
  | (.ok b, m) =>
    if !packVersion b then m.finish id st.unsupported
    else if !packGood b then m.finish id st.check
    else m.runGoodPack id c b

theorem patternRun_yields {s : State} {id : ℕ} {c : Cmd} (h : CmdReady s.mod id 0x50 c) :
    Yields (.patternRun id) s (((s.mod.begun id c).commitCmd id).runPack id c) :=
  yields_of_run (show execPatternRun id s = s.run _ from rfl) ((Module.withCmd_ready h _).trans rfl)

/-! ### The counts of a run (R419) -/

theorem Module.putSig_le {m : Module} {va max' : ℕ} {u : TestUnit} {p : Pattern} {w : ℕ} (h : w ≤ max') :
    (m.putSig va max' u p w).1 ≤ max' := by
  unfold Module.putSig
  split
  · exact h
  · split
    · omega
    · exact h

/-- A run counts no more failing targets than tested ones, and writes no more signatures than it may. -/
structure Tally.Within (a : Tally) (targets max' : ℕ) : Prop where
  failing : a.failing ≤ a.tested
  tested : a.tested ≤ targets
  written : a.written ≤ max'

/-- A count beside a fold that every round keeps at most at a bound. -/
theorem foldl_written_le {α β γ : Type} {f : β × ℕ × γ → α → β × ℕ × γ} {k : ℕ} (hf : ∀ x a, x.2.1 ≤ k → (f x a).2.1 ≤ k)
    {l : List α} {x : β × ℕ × γ} (h : x.2.1 ≤ k) : (l.foldl f x).2.1 ≤ k :=
  List.foldlRecOn (motive := fun x => x.2.1 ≤ k) l f h fun x hx a _ => hf x a hx

theorem Module.runTarget_within {m : Module} {ps : List Pattern} {va max' n : ℕ} {repair : Bool} {a : Tally} {t : Target}
    (h : a.Within n max') : (m.runTarget ps va max' repair a t).1.Within (n + 1) max' := by
  obtain ⟨hf, ht, hw⟩ := h
  unfold Module.runTarget
  split
  · exact ⟨hf, Nat.le_succ_of_le ht, hw⟩
  · extract_lets m1
    clear_value m1
    split
    next bad w m2 e =>
    have h2 : (bad, w, m2).2.1 ≤ max' := by
      rw [← e]
      refine foldl_written_le (fun x u hx => ?_) hw
      dsimp only
      split
      · exact hx
      · dsimp only
        exact Module.putSig_le hx
    refine ⟨?_, ?_, h2⟩
    · cases bad
      · exact Nat.le_succ_of_le hf
      · exact Nat.succ_le_succ hf
    · exact Nat.succ_le_succ ht

theorem Module.runTargets_within {m : Module} {ps : List Pattern} {va max' n : ℕ} {repair : Bool} {a : Tally} {ts : List Target}
    (h : a.Within n max') : (m.runTargets ps va max' repair a ts).1.Within (n + ts.length) max' := by
  induction ts generalizing m a n with
  | nil => exact h
  | cons t ts ih =>
    have hr := ih (m := (m.runTarget ps va max' repair a t).2) (Module.runTarget_within (m := m) (ps := ps) (va := va) (repair := repair) (t := t) h)
    rw [Nat.add_assoc, Nat.add_comm 1] at hr
    exact hr

/-! ### Pattern packs -/

/-- The counts with which a run ends. -/
abbrev Tally.detail (a : Tally) : ℕ := a.tested % 2 ^ 32 * 2 ^ 32 + min 65535 a.failing * 2 ^ 16 + min 65535 a.written

/-- A run whose signatures can be written counts what it finds, and its command ends. -/
theorem Module.runGoodPack_runs {m m2 : Module} {id : ℕ} {c : Cmd} {b : List Byte} {ts : List Target}
    (hm : m.mapped .int 0 (c.field 24 8) (128 * c.field 32 4) true = (.ok (), m2))
    (ht : ts = if c.field 22 2 = 0 then m2.targets (c.field 20 1) else (m2.targets (c.field 20 1)).take (c.field 22 2)) {r : Tally × Module}
    (hr : m2.runTargets (packPatterns b) (c.field 24 8) (c.field 32 4) (c.field 21 1 == 1) ⟨0, 0, 0⟩ ts = r) :
    m.runGoodPack id c b = r.2.finish id st.ok r.1.detail := by
  unfold Module.runGoodPack
  rw [hm]
  simp only
  rw [← ht, hr]

theorem patternPacks : PatternPacks := by
  intro s id c hready
  have hy := patternRun_yields hready
  have h0 : ((s.mod.begun id c).commitCmd id).Stands true ⟨id, c, s.mod.nextSeq, s.mod.tiles⟩ :=
    Module.commitCmd_stands (Module.setCmd_stands hready.here _ ⟨⟨c.phase, hready.here⟩, rfl, rfl⟩)
  generalize (s.mod.begun id c).commitCmd id = m at hy h0 ⊢
  have hread := Module.readVA_stands (b := .int) (ten := 0) (va := c.field 8 8) (n := c.field 16 4) h0
  have tiles : ∀ m' : Module, m'.Stands true ⟨id, c, s.mod.nextSeq, s.mod.tiles⟩ → m'.tiles = s.mod.tiles := fun m' h => h.tiles
  unfold Module.runPack at hy
  refine ⟨fun e m1 hr => ?_, fun b m1 hr => ?_⟩
  · rw [hr] at hy hread
    exact ⟨hy, ends_of_finish hy hread tiles⟩
  · rw [hr] at hy hread
    simp only at hy
    refine ⟨fun hv => ?_, fun hv hg => ?_, fun hv hg => ⟨fun e m2 hm => ?_, fun m2 hm ts ht => ?_⟩⟩
    · rw [hv] at hy
      exact ⟨hy, ends_of_finish hy hread tiles⟩
    · rw [hv, hg] at hy
      exact ⟨hy, ends_of_finish hy hread tiles⟩
    · rw [hv, hg] at hy
      unfold Module.runGoodPack at hy
      rw [hm] at hy
      exact hy
    · have hm2 : m2.Stands true ⟨id, c, s.mod.nextSeq, s.mod.tiles⟩ := CmdStands.of_eq (Module.mapped_stands hread) hm
      have hrun := Module.runTargets_stands (ps := packPatterns b) (va := c.field 24 8) (max' := c.field 32 4)
        (repair := c.field 21 1 == 1) (a := ⟨0, 0, 0⟩) (x := ts) hm2.blind
      obtain ⟨hf, htest, hw⟩ := Module.runTargets_within (m := m2) (ps := packPatterns b) (va := c.field 24 8)
        (repair := c.field 21 1 == 1) (ts := ts) (max' := c.field 32 4) (n := 0) (a := ⟨0, 0, 0⟩)
        ⟨Nat.le_refl 0, Nat.le_refl 0, Nat.zero_le _⟩
      rw [hv, hg] at hy
      have hy : Yields (.patternRun id) s (m1.runGoodPack id c b) := hy
      generalize hr : m2.runTargets (packPatterns b) (c.field 24 8) (c.field 32 4) (c.field 21 1 == 1) ⟨0, 0, 0⟩ ts = r at *
      rw [Module.runGoodPack_runs hm ht hr] at hy
      obtain ⟨a, m3⟩ := r
      exact ⟨hy, hf, (Nat.zero_add ts.length).subst htest, hw, ends_of_finish hy hrun fun m' h => h.seq⟩

/-- Settles O50: the error groups by the bits that a write clears, the scrub by what each check leaves undisturbed, and the pattern
packs by a command that stands in the table through every read, every test and every repair. -/
theorem integrity : Obligations.Integrity := ⟨errorGroups, scrubsAndTwins, patternPacks⟩

end Sys2Proof.Machine
end

