-- ==== Sys2Proof/Proofs/Transfers.lean ====
section
/-! How the transfers of a tile complete, and the rendezvous of a broadcast (O17). -/

namespace Sys2Proof.Machine

variable {m m' : Module} {t u : TileId} {n : ℕ} {r : Route} {p : Prog} {k : Transfer} {hold : Bool} {a : ℕ} {bs : List Byte}

/-- The transfer leaves the engine of the tile. -/
def Tile.endXfer (x : Tile) (k : Transfer) : Tile := { x with xfers := x.xfers.erase k }

/-- The transfer leaves the engine of its tile. -/
def Module.endXfer (m : Module) (t : TileId) (k : Transfer) : Module := m.setTile t ((m.tile t).endXfer k)

@[simp] theorem Module.tile_endXfer_self : (m.endXfer t k).tile t = (m.tile t).endXfer k := m.tile_setTile_self t _

theorem Module.tile_endXfer_ne (h : u ≠ t) : (m.endXfer t k).tile u = m.tile u := m.tile_setTile_ne h _

@[simp] theorem Module.isTwin_endXfer : (m.endXfer t k).isTwin u = m.isTwin u := rfl

/-- The path of a block does not depend on the tiles. -/
theorem Module.pathClear_endXfer {b : Block} (h : m.pathClear b) : (m.endXfer t k).pathClear b := by
  obtain ⟨calm, clear⟩ := h
  exact ⟨calm, clear⟩

/-! ### Stores (R16, R87, R413) -/

/-- The path of a block with no latent error and no injection passes its check (R400, R415). -/
theorem Module.pathCheck_clear {b : Block} (h : m.pathClear b) (ten : ℕ) : m.pathCheck b ten = (false, m) := by
  obtain ⟨calm, clear⟩ := h
  unfold Module.pathCheck
  rw [Module.probe_calm (k := Kind.INT_PATH_PARITY) calm]
  simp only [clear, Bool.false_eq_true, if_false]

theorem Module.storePath_clear (h : m.pathClear (if hold then .hld else .mem)) (t : TileId) (ten : ℕ) :
    m.storePath t ten hold = (false, m) := by
  unfold Module.storePath
  rw [Module.pathCheck_clear h]
  rfl

theorem Module.applyStore_twin (ht : m.isTwin u = true) : m.applyStore u n r p hold a bs = m := by
  unfold Module.applyStore
  simp [ht]

theorem Module.applyStore_staged (ht : m.isTwin u = false) (hs : r.staged hold a bs.length = true)
    (hl : (m.tile u).stagedBytes + bs.length ≤ p.stageLen) :
    m.applyStore u n r p hold a bs = m.setTile u { m.tile u with
      staged := (m.tile u).staged ++ [⟨hold, a, bs⟩], stagedBytes := (m.tile u).stagedBytes + bs.length } := by
  unfold Module.applyStore
  simp [ht, hs, Nat.not_lt.2 hl]

theorem Module.applyStore_overflow (ht : m.isTwin u = false) (hs : r.staged hold a bs.length = true)
    (hl : p.stageLen < (m.tile u).stagedBytes + bs.length) :
    m.applyStore u n r p hold a bs = m.failRoute n ⟨st.resource, 0, a⟩ := by
  unfold Module.applyStore
  simp [ht, hs, hl]

theorem Module.applyStore_hold (ht : m.isTwin u = false) (hs : r.staged true a bs.length = false)
    (hw : m.writeHold r.ten.val a bs = (.ok (), m')) : m.applyStore u n r p true a bs = m' := by
  unfold Module.applyStore
  simp [ht, hs, hw]

theorem Module.applyStore_memory (ht : m.isTwin u = false) (hs : r.staged false a bs.length = false)
    (hw : m.writeVA (.fab u.cl) r.ten.val a bs = (.ok (), m')) : m.applyStore u n r p false a bs = m' := by
  unfold Module.applyStore
  simp [ht, hs, hw]

/-! ### A transfer completes (R100, R117) -/

/-- A store on a clear path takes its bytes from the bay. -/
theorem Module.completeTransfer_store (hk : k.kind = if hold then .hst else .xst)
    (hc : m.pathClear (if hold then .hld else .mem)) :
    m.completeTransfer t n r p k = (m.endXfer t k).applyStore t n r p hold k.addr
      (Mem.bytes ((m.tile t).endXfer k).bay k.bay k.len) := by
  have hp : (m.endXfer t k).storePath t r.ten.val hold = (false, m.endXfer t k) :=
    Module.storePath_clear (Module.pathClear_endXfer hc) t _
  have hx := Module.tile_endXfer_self (m := m) (t := t) (k := k)
  unfold Module.endXfer Tile.endXfer at *
  unfold Module.completeTransfer
  cases hold <;> simp only [hk, Bool.false_eq_true, if_false, if_true, hp, hx]

/-- A load from the Hold gives what it reads to the bay, or to a weight set. -/
theorem Module.completeTransfer_readHold (hk : k.kind = .hld ∨ k.isWld = true)
    (hr : (m.endXfer t k).readHold (.fab t.cl) r.ten.val k.addr k.len = (.ok bs, m')) :
    m.completeTransfer t n r p k = m'.setTile t (((m.endXfer t k).tile t).takeLoad k bs) := by
  unfold Module.endXfer Tile.endXfer at hr ⊢
  unfold Module.completeTransfer
  unfold Transfer.isWld at hk
  simp only
  split
  · simp_all
  · simp_all
  · simp_all
  · rw [hr]

/-- A load from translated memory gives what it reads to the bay. -/
theorem Module.completeTransfer_readVA (hk : k.kind = .xld)
    (hr : (m.endXfer t k).readVA (.fab t.cl) r.ten.val k.addr k.len = (.ok bs, m')) :
    m.completeTransfer t n r p k = m'.setTile t (((m.endXfer t k).tile t).takeLoad k bs) := by
  unfold Module.endXfer Tile.endXfer at hr ⊢
  unfold Module.completeTransfer
  simp only [hk, hr]

theorem transferComplete_yields {s : State} {tag : BitVec 4} {sg : Stage} (hs : s.mod.stageOf t.cl.val = some (n, r, sg))
    (ho : (s.mod.tile t).oldest tag = [k]) : Yields (.transferComplete t tag) s (s.mod.completeTransfer t n r sg.prog k) :=
  yields_of_run (show execTransferComplete t tag s = s.run _ from rfl) (by simp only [hs, ho])

/-- The kind of a store says where it goes. -/
theorem Transfer.kind_of_store (h : k.kind = .hst ∨ k.kind = .xst) : k.kind = if k.kind == .hst then .hst else .xst := by
  rcases h with h | h <;> simp [h]

theorem Transfer.isWld_hld (h : k.kind = .hld) : k.isWld = false := by simp [Transfer.isWld, h]

theorem Transfer.isWld_xld (h : k.kind = .xld) : k.isWld = false := by simp [Transfer.isWld, h]

theorem Transfer.isWld_wld {scales set : Bool} {tag : BitVec 16} (h : k.kind = .wld scales set tag) : k.isWld = true := by
  simp [Transfer.isWld, h]

/-- Every load but a WLD goes to the bay. -/
theorem Tile.takeLoad_bay {x : Tile} (h : k.isWld = false) : x.takeLoad k bs = x.deliver k.bay bs := by
  unfold Tile.takeLoad Transfer.isWld at *
  split
  · simp_all
  · rfl

theorem Tile.takeLoad_wld {x : Tile} {scales set : Bool} {tag : BitVec 16} (h : k.kind = .wld scales set tag) :
    x.takeLoad k bs = x.loadWeights set scales tag bs := by
  unfold Tile.takeLoad
  simp only [h]

/-- The transfer leaves its engine; then its kind says where its bytes go, and for a store the twin and the buffer. -/
theorem transferCompletion : TransferCompletion := by
  intro t tag s n r sg k hs ho hc x m src
  have hx : x = (s.mod.tile t).endXfer k := rfl
  have hm : m = s.mod.endXfer t k := rfl
  have hsrc : src = Mem.bytes x.bay k.bay k.len := rfl
  clear_value src m x
  subst hx hm
  have hlen : src.length = k.len := hsrc ▸ Mem.length_bytes ..
  have hy := transferComplete_yields hs ho
  have store : ∀ hold, (k.kind = if hold then .hst else .xst) →
      Yields (.transferComplete t tag) s ((s.mod.endXfer t k).applyStore t n r sg.prog hold k.addr src) := by
    intro hold hk
    have hc : s.mod.pathClear (if hold then .hld else .mem) := by
      cases hold <;> simpa [hk] using hc
    rw [Module.completeTransfer_store hk hc, ← hsrc] at hy
    exact hy
  have load : ∀ bs m', (k.kind = .hld ∨ k.isWld = true) →
      (s.mod.endXfer t k).readHold (.fab t.cl) r.ten.val k.addr k.len = (.ok bs, m') →
      Yields (.transferComplete t tag) s (m'.setTile t (((s.mod.endXfer t k).tile t).takeLoad k bs)) :=
    fun bs m' hk hr => Module.completeTransfer_readHold hk hr ▸ hy
  have fetch : ∀ bs m', k.kind = .xld →
      (s.mod.endXfer t k).readVA (.fab t.cl) r.ten.val k.addr k.len = (.ok bs, m') →
      Yields (.transferComplete t tag) s (m'.setTile t (((s.mod.endXfer t k).tile t).takeLoad k bs)) :=
    fun bs m' hk hr => Module.completeTransfer_readVA hk hr ▸ hy
  have htile := Module.tile_endXfer_self (m := s.mod) (t := t) (k := k)
  rw [← Module.isTwin_endXfer (t := t) (k := k)]
  generalize s.mod.endXfer t k = m at *
  generalize (s.mod.tile t).endXfer k = x at *
  subst htile
  refine ⟨fun hk ht => ?twin, fun hk ht hst hl => ?staged, fun hk ht hst hl => ?overflow, fun hk ht hst m' hw => ?hold,
    fun hk ht hst m' hw => ?memory, fun hk bs m' hr => ?hld, fun scales set tag' hk bs m' hr => ?wld,
    fun hk bs m' hr => ?xld⟩
  case twin =>
    exact Module.applyStore_twin ht ▸ store _ (Transfer.kind_of_store hk)
  case staged =>
    rw [← hlen] at hst hl ⊢
    exact Module.applyStore_staged ht hst hl ▸ store _ (Transfer.kind_of_store hk)
  case overflow =>
    rw [← hlen] at hst hl
    exact Module.applyStore_overflow ht hst hl ▸ store _ (Transfer.kind_of_store hk)
  case hold =>
    rw [← hlen] at hst
    exact Module.applyStore_hold ht hst hw ▸ store true hk
  case memory =>
    rw [← hlen] at hst
    exact Module.applyStore_memory ht hst hw ▸ store false hk
  case hld =>
    have := load bs m' (.inl hk) hr
    rw [Tile.takeLoad_bay (Transfer.isWld_hld hk)] at this
    exact this
  case wld => exact Tile.takeLoad_wld hk ▸ load bs m' (.inr (Transfer.isWld_wld hk)) hr
  case xld =>
    have := fetch bs m' hk hr
    rw [Tile.takeLoad_bay (Transfer.isWld_xld hk)] at this
    exact this

/-! ### The rendezvous of a broadcast (R35, R101) -/

/-- The tiles that a mask names are all different. -/
theorem maskTiles_nodup (c : Cluster) (row : Fin 16) (mask : BitVec 16) : (maskTiles c row mask).Nodup :=
  ((List.nodup_finRange 16).filter _).map fun _ _ h => congrArg TileId.col h

/-- Two folds over different tiles that change each its own tile alone agree where they agree on tiles that are as at first. -/
theorem foldl_tiles_congr {f g : Module → TileId → Module} {us : List TileId} (hn : us.Nodup)
    (hf : ∀ m' : Module, ∀ u ∈ us, m'.tile u = m.tile u → f m' u = g m' u)
    (hg : ∀ (m' : Module) (u v : TileId), v ≠ u → (g m' u).tile v = m'.tile v) : us.foldl f m = us.foldl g m := by
  induction us generalizing m with
  | nil => rfl
  | cons u us ih =>
    obtain ⟨hu, hn⟩ := List.nodup_cons.1 hn
    rw [List.foldl_cons, List.foldl_cons, hf m u List.mem_cons_self rfl]
    refine ih hn fun m' v hv h => hf m' v (List.mem_cons_of_mem _ hv) (h.trans (hg m u v ?_))
    exact fun e => hu (e ▸ hv)

/-- Every tile of the list has issued its HLD of the mask, as the oldest transfer of its tag. -/
def Module.Meets (m : Module) (mask : BitVec 16) (us : List TileId) (k : TileId → Transfer) : Prop :=
  ∀ u ∈ us, (m.tile u).bcast mask false = some (k u)

theorem Module.Meets.bcastKind {mask : BitVec 16} {us : List TileId} {k : TileId → Transfer} (h : m.Meets mask us k) :
    m.bcastKind us mask = some false := by
  have : us.all (fun u => ((m.tile u).bcast mask false).isSome) = true :=
    List.all_eq_true.2 fun u hu => by simp [h u hu]
  unfold Module.bcastKind
  simp only [List.find?_cons, this]

/-- What the tiles of a rendezvous take: their own transfers, at the length of the lowest column. -/
theorem Module.Meets.taken {mask : BitVec 16} {us : List TileId} {k : TileId → Transfer} (h : m.Meets mask us k) (len : ℕ) :
    us.filterMap (fun u => ((m.tile u).bcast mask false).map (fun j => (u, { j with len := len })))
      = us.map (fun u => (u, { k u with len := len })) := by
  rw [← List.filterMap_eq_map]
  exact List.filterMap_congr fun u hu => by simp [h u hu]

theorem transferFault_none {bay len : ℕ} (h : bay + len ≤ 0x10000) : transferFault bay len = none := by
  unfold transferFault
  rw [if_neg (by omega), if_neg (by omega)]

/-- Each tile of the mask gives up its own transfer and takes the bytes of the one read at its own bay address. -/
theorem broadcastRendezvous : BroadcastRendezvous := by
  intro c row mask s n r sg k u0 rest hs hus hk free
  have hfree : free = (u0 :: rest).foldl (fun m u => m.endXfer u (k u)) s.mod := rfl
  clear_value free
  have hn : (u0 :: rest).Nodup := hus ▸ maskTiles_nodup c row mask
  have meets : s.mod.Meets mask (u0 :: rest) k := fun u hu => (hk u hu).1
  have fits : ((u0 :: rest).any fun u => (transferFault (k u).bay (k u0).len).isSome) = false := by
    refine List.any_eq_false.2 fun u hu => ?_
    obtain ⟨-, -, hbay⟩ := hk u hu
    simp [transferFault_none hbay]
  have hy : Yields (.hldBcastRendezvous c row mask) s _ :=
    yields_of_run (show execHldBcastRendezvous c row mask s = s.run _ from rfl) rfl
  simp only [hs, hus, meets.bcastKind, meets u0 List.mem_cons_self, meets.taken, List.any_map, Function.comp_def, fits,
    Bool.false_eq_true, if_false, List.foldl_map] at hy
  rw [foldl_tiles_congr (g := fun m u => m.endXfer u (k u)) hn (fun m' u hu h => by rw [h, meets u hu, ← h]; rfl)
    (fun m' u v h => Module.tile_endXfer_ne h), ← hfree] at hy
  refine ⟨fun h0 => ?empty, fun bs m' h0 hr => ?read⟩
  case empty =>
    rw [if_pos h0] at hy
    exact hy
  case read =>
    simp only [if_neg h0, hr] at hy
    have deliver : ∀ (m : Module), ∀ u ∈ u0 :: rest, m.setTile u ((m.tile u).takeLoad { k u with len := (k u0).len } bs)
        = m.setTile u ((m.tile u).deliver (k u).bay bs) := by
      intro m u hu
      obtain ⟨-, hkind, -⟩ := hk u hu
      exact congrArg (m.setTile u) (Tile.takeLoad_bay (Transfer.isWld_hld (k := { k u with len := (k u0).len }) hkind))
    rw [List.foldl_ext _ _ _ deliver] at hy
    exact hy

/-- Settles O17: a transfer by where its kind reads or stores, and the rendezvous by the tiles of the mask, which are all
different, so that each is as it was when its own turn comes. -/
theorem transferEnds : Obligations.TransferEnds := ⟨transferCompletion, broadcastRendezvous⟩

end Sys2Proof.Machine
end

