-- ==== Sys2Proof/Proofs/Contents.lean ====
section
/-! What reads, checks and events leave of the commands, the weight records, the tiles and the bytes of memory. -/

namespace Sys2Proof.Machine

variable {m m' : Module}

/-- The commands and the weight records of a module. -/
abbrev Module.records (m : Module) : Map Cmd × Map WRecord := (m.cmds, m.weights)

/-- What an access leaves as it was: commands and weight records, tiles, and the bytes of DRAM and Hold. -/
structure Contents where
  records : Map Cmd × Map WRecord
  tiles : Map Tile
  dram : Mem
  hold : Mem

def Module.contents (m : Module) : Contents := ⟨m.records, m.tiles, m.dram, m.hold⟩

theorem records_of_contents (h : m'.contents = m.contents) : m'.records = m.records := congrArg Contents.records h

theorem weights_of_contents (h : m'.contents = m.contents) : m'.weights = m.weights := congrArg (·.records.2) h

/-- A fold whose every round keeps the contents keeps them. -/
theorem foldl_contents {α : Type} {f : Module → α → Module} {l : List α} (hf : ∀ m a, (f m a).contents = m.contents) :
    (l.foldl f m).contents = m.contents :=
  List.foldlRecOn (motive := fun m' => m'.contents = m.contents) l f rfl fun m' h a _ => (hf m' a).trans h

theorem contents_ite {c : Prop} [Decidable c] {a b : Module} (ha : a.contents = m.contents) (hb : b.contents = m.contents) :
    (if c then a else b).contents = m.contents := by split <;> assumption

theorem EventOnly.contents {refs : List RegRef} (e : EventOnly m m' refs) : m'.contents = m.contents := by
  rw [e.rest]
  rfl

/-! ### Registers, counters and events -/

@[simp] theorem Module.setFld_contents {f : Field} {i j v : ℕ} : (m.setFld f i j v).contents = m.contents := rfl

@[simp] theorem Module.addFld_contents {f : Field} {i j n : ℕ} : (m.addFld f i j n).contents = m.contents := rfl

@[simp] theorem Module.drawn_contents : m.drawn.contents = m.contents := rfl

@[simp] theorem Module.count_contents {ev ten n : ℕ} : (m.count ev ten n).contents = m.contents := by
  unfold Module.count
  split
  · rfl
  · exact foldl_contents fun m i => contents_ite rfl rfl

@[simp] theorem Module.bill_contents {ten : ℕ} {f : Ledger → Ledger} : (m.bill ten f).contents = m.contents := by
  unfold Module.bill
  split <;> rfl

@[simp] theorem Module.raise_contents {k : Kind} {ten loc site : ℕ} : (m.raise k ten loc site).contents = m.contents :=
  (EventOnly.raise m k ten loc site).contents

@[simp] theorem Module.probe_contents {k : Kind} {ten loc : ℕ} : (m.probe k ten loc).contents = m.contents :=
  (EventOnly.probe m k ten loc).contents

@[simp] theorem Module.violation_contents {ten : ℕ} {b : Block} : (m.violation ten b).contents = m.contents :=
  Module.raise_contents

/-! ### Translation (R261 to R264) -/

@[simp] theorem Module.mapOut_contents {ch : ℕ} : (m.mapOut ch).contents = m.contents := by
  unfold Module.mapOut
  split
  · rfl
  · split
    · exact Module.raise_contents
    · simp only
      split
      · rfl
      · exact Module.raise_contents

@[simp] theorem Module.readUnit_contents {ten u ch : ℕ} : (m.readUnit ten u ch).contents = m.contents := by
  have hp : ((m.probe Kind.MEM_CE ten ch).probe Kind.MEM_UE ten ch).contents = m.contents := by simp
  unfold Module.readUnit
  simp only
  generalize (m.probe Kind.MEM_CE ten ch).probe Kind.MEM_UE ten ch = m1 at hp ⊢
  rw [← hp]
  split
  · rfl
  · exact Module.raise_contents
  · split
    · rw [Module.mapOut_contents]
      exact Module.raise_contents
    · exact Module.raise_contents

@[simp] theorem Module.readEntries_contents {ten va : ℕ} : (m.readEntries ten va).2.contents = m.contents := by
  unfold Module.readEntries
  split
  · rfl
  · exact foldl_contents fun m u => Module.readUnit_contents

@[simp] theorem Module.fillCache_contents {b : Block} {ten va : ℕ} {e : Word64} :
    (m.fillCache b ten va e).contents = m.contents := by
  unfold Module.fillCache
  split <;> rfl

@[simp] theorem Module.quarantine_contents {f : ℕ} : (m.quarantine f).contents = m.contents := by
  unfold Module.quarantine
  rw [Module.raise_contents]
  unfold Module.when
  split <;> rfl

@[simp] theorem Module.recordWalk_contents {ten va : ℕ} {w : WalkFail} : (m.recordWalk ten va w).contents = m.contents := by
  unfold Module.recordWalk
  split <;> simp

@[simp] theorem Module.translate_contents {b : Block} {ten va : ℕ} {write : Bool} :
    (m.translate b ten va write).2.contents = m.contents := by
  unfold Module.translate
  grind [Module.drawn_contents, Module.probe_contents, Module.count_contents, Module.readEntries_contents,
    Module.fillCache_contents, Module.recordWalk_contents]

@[simp] theorem Module.translateAll_contents {b : Block} {ten : ℕ} {write : Bool} {ps : List (ℕ × ℕ)} :
    (m.translateAll b ten write ps).2.contents = m.contents := by
  induction ps generalizing m with
  | nil => rfl
  | cons q qs ih =>
    unfold Module.translateAll
    grind [Module.translate_contents]

@[simp] theorem Module.mapped_contents {b : Block} {ten va n : ℕ} {write : Bool} :
    (m.mapped b ten va n write).2.contents = m.contents := by
  unfold Module.mapped
  grind [Module.translateAll_contents]

/-! ### Reads of translated memory (R247) -/

@[simp] theorem Module.takeTokens_contents {ten ch n : ℕ} : (m.takeTokens ten ch n).contents = m.contents := by
  unfold Module.takeTokens
  exact Module.count_contents

@[simp] theorem Module.countDram_contents {ten a n : ℕ} : (m.countDram ten a n).contents = m.contents := by
  unfold Module.countDram
  grind [foldl_contents, Module.bill_contents, Module.takeTokens_contents, Module.count_contents, Module.addFld_contents]

@[simp] theorem Module.readLoc_contents {ten : ℕ} {l : Loc × ℕ} : (m.readLoc ten l).2.contents = m.contents := by
  unfold Module.readLoc
  grind [foldl_contents, Module.bill_contents, Module.addFld_contents, Module.readUnit_contents, Module.countDram_contents]

@[simp] theorem Module.readLocs_contents {ten : ℕ} {ls : List (Loc × ℕ)} : (m.readLocs ten ls).2.contents = m.contents := by
  induction ls generalizing m with
  | nil => rfl
  | cons l ls ih =>
    unfold Module.readLocs
    grind [Module.readLoc_contents]

@[simp] theorem Module.pathCheck_contents {b : Block} {ten : ℕ} : (m.pathCheck b ten).2.contents = m.contents := by
  unfold Module.pathCheck
  simp only
  split
  · exact Module.raise_contents.trans Module.probe_contents
  · exact Module.probe_contents

@[simp] theorem Module.countSkew_contents {ten va n : ℕ} {ls : List (Loc × ℕ)} :
    (m.countSkew ten va n ls).contents = m.contents := by
  unfold Module.countSkew
  split <;> rfl

@[simp] theorem Module.readVA_contents {b : Block} {ten va n : ℕ} : (m.readVA b ten va n).2.contents = m.contents := by
  unfold Module.readVA
  grind [Module.translateAll_contents, Module.pathCheck_contents, Module.readLocs_contents, Module.countSkew_contents]

/-! ### Writes of the Hold (R258) -/

@[simp] theorem Module.writeHoldLocs_records {ps : List (ℕ × ℕ)} {bs : List Byte} :
    (m.writeHoldLocs ps bs).records = m.records := by
  induction ps generalizing m bs with
  | nil => rfl
  | cons q qs ih => exact ih

@[simp] theorem Module.countHold_contents {ten n : ℕ} : (m.countHold ten n).contents = m.contents := by
  unfold Module.countHold
  split <;> simp

@[simp] theorem Module.holdRefuse_contents {ten h : ℕ} {e : HoldFail} : (m.holdRefuse ten h e).2.contents = m.contents := by
  cases e <;> simp [Module.holdRefuse]

/-- A write of the Hold leaves the commands and the weight records. -/
theorem Module.writeHold_records {ten h : ℕ} {bs : List Byte} : (m.writeHold ten h bs).2.records = m.records := by
  refine Eq.trans ?_ (records_of_contents (Module.probe_contents (k := Kind.HLD_PAIR) (ten := ten) (loc := h)))
  unfold Module.writeHold
  simp only
  split
  · exact records_of_contents Module.holdRefuse_contents
  · exact Module.writeHoldLocs_records.trans (records_of_contents Module.countHold_contents)

end Sys2Proof.Machine
end

