-- ==== Sys2Proof/Proofs/WeightRecords.lean ====
section
/-! The end of a command, the weight record, and the copies of slices into berths. -/

namespace Sys2Proof.Machine

variable {m m' : Module} {id t l b : ℕ} {w w' : WRecord} {c : Cmd} {s : State}

/-! ### The end of a command (R358) -/

theorem Module.finish_rest {status detail : ℕ} :
    m.finish id status detail = { m with cmds := (m.finish id status detail).cmds } := by
  unfold Module.finish
  split <;> rfl

@[simp] theorem Module.finish_weights {status detail : ℕ} : (m.finish id status detail).weights = m.weights := by
  rw [Module.finish_rest]

@[simp] theorem Module.finish_regs {status detail : ℕ} : (m.finish id status detail).regs = m.regs := by
  rw [Module.finish_rest]

@[simp] theorem Module.finish_hold {status detail : ℕ} : (m.finish id status detail).hold = m.hold := by
  rw [Module.finish_rest]

/-- A command that is in the table ends with the status. -/
theorem Module.finish_ended {status detail : ℕ} (h : (m.cmd id).isSome = true) :
    ∃ k d, (m.finish id status detail).cmd id = some k ∧ k.phase = .done status d := by
  obtain ⟨k, hk⟩ := Option.isSome_iff_exists.1 h
  have stands : m.Stands false ⟨id, k, m.nextSeq, []⟩ := ⟨⟨k.phase, hk⟩, rfl, rfl⟩
  obtain ⟨d, hd⟩ := Module.finish_done stands status detail
  exact ⟨_, d, hd, rfl⟩

/-- A meaning that finishes the command that has begun, and has left the commands alone until then, has ended it. -/
theorem ends_of_begun {i : Instr} {status detail : ℕ} {more : Module → Prop} (hy : Yields i s (m.finish id status detail))
    (hc : m.cmds = (s.mod.begun id c).cmds) (hm : more (m.finish id status detail).settle) : Ends i s id c status more := by
  have stands : m.Stands false ⟨id, c, m.nextSeq, []⟩ := ⟨⟨.started, hc ▸ Map.get?_insert_self ..⟩, rfl, rfl⟩
  obtain ⟨d, hd⟩ := Module.finish_done stands status detail
  exact ⟨d, completes_of_yields hy ⟨hd, hm⟩⟩

theorem Module.commitCmd_rest : m.commitCmd id = { m with cmds := (m.commitCmd id).cmds } := by
  unfold Module.commitCmd
  split <;> rfl

theorem Module.cmd_commitCmd_self (h : m.cmd id = some c) :
    (m.commitCmd id).cmd id = some { c with phase := .committed } := by
  unfold Module.commitCmd
  rw [h]
  exact Map.get?_insert_self ..

/-! ### The weight record (R162) -/

theorem wrec_of_weights (h : m'.weights = m.weights) : m'.wrec t = m.wrec t := by
  unfold Module.wrec
  rw [h]

theorem Module.mirrorWeights_rest : m.mirrorWeights t = { m with regs := (m.mirrorWeights t).regs } := by
  unfold Module.mirrorWeights
  split
  · rfl
  · simp only
    split <;> rfl

theorem Module.setWrec_rest :
    m.setWrec t w = { m with regs := (m.setWrec t w).regs, weights := Map.insert m.weights t w } := by
  unfold Module.setWrec
  rw [Module.mirrorWeights_rest]

theorem Module.dropWrec_rest :
    m.dropWrec t = { m with regs := (m.dropWrec t).regs, weights := Map.erase m.weights t } := by
  unfold Module.dropWrec
  rw [Module.mirrorWeights_rest]

@[simp] theorem Module.wrec_setWrec_self : (m.setWrec t w).wrec t = some w := by
  rw [Module.setWrec_rest]
  exact Map.get?_insert_self ..

@[simp] theorem Module.wrec_dropWrec_self : (m.dropWrec t).wrec t = none := by
  rw [Module.dropWrec_rest]
  exact (Map.get?_erase ..).trans (if_pos rfl)

@[simp] theorem Module.cmd_setWrec {j : ℕ} : (m.setWrec t w).cmd j = m.cmd j := by
  rw [Module.setWrec_rest]
  rfl

@[simp] theorem Module.cmd_dropWrec {j : ℕ} : (m.dropWrec t).cmd j = m.cmd j := by
  rw [Module.dropWrec_rest]
  rfl

@[simp] theorem Module.cmd_begun : (m.begun id c).cmd id = some { c with phase := .started } := Map.get?_insert_self ..

/-! ### Checks of slices (R170, R171, R173) -/

@[simp] theorem Module.slicesMapped_contents {src : ℕ} {ls : List Layer} :
    (m.slicesMapped t src ls).2.contents = m.contents := by
  induction ls generalizing m with
  | nil => rfl
  | cons x xs ih =>
    unfold Module.slicesMapped
    grind [Module.mapped_contents]

/-! ### Copies of slices (R174, R181) -/

/-- A command of the table stays in it, and the weight records are as they were. -/
structure KeepsCmd (id : ℕ) (m m' : Module) : Prop where
  cmd : (m.cmd id).isSome = true → (m'.cmd id).isSome = true
  weights : m'.weights = m.weights

theorem KeepsCmd.refl : KeepsCmd id m m := ⟨fun h => h, rfl⟩

theorem KeepsCmd.trans {m'' : Module} (h : KeepsCmd id m m') (h' : KeepsCmd id m' m'') : KeepsCmd id m m'' :=
  ⟨fun hc => h'.cmd (h.cmd hc), h'.weights.trans h.weights⟩

theorem KeepsCmd.of_records (h : m'.records = m.records) : KeepsCmd id m m' := by
  obtain ⟨hc, hw⟩ := Prod.mk.inj h
  exact ⟨fun h => by unfold Module.cmd at *; rwa [hc], hw⟩

theorem KeepsCmd.of_contents (h : m'.contents = m.contents) : KeepsCmd id m m' := .of_records (records_of_contents h)

/-- The module of an answer. -/
theorem KeepsCmd.of_eq {α : Type} {p : α × Module} {a : α} (h : KeepsCmd id m p.2) (e : p = (a, m')) : KeepsCmd id m m' := by
  subst e
  exact h

theorem Module.clearSrcErrs_keeps {src : Option ℕ} : KeepsCmd id m (m.clearSrcErrs src) := by
  unfold Module.clearSrcErrs
  split
  · refine ⟨fun h => ?_, rfl⟩
    unfold Module.cmd Module.setCmd at *
    rw [Map.get?_insert]
    split
    · rfl
    · exact h
  · exact .refl

theorem Module.slicesMapped_keeps {src : ℕ} {ls : List Layer} : KeepsCmd id m (m.slicesMapped t src ls).2 :=
  .of_contents Module.slicesMapped_contents

theorem Module.readVA_keeps {ten va n : ℕ} {bl : Block} : KeepsCmd id m (m.readVA bl ten va n).2 :=
  .of_contents Module.readVA_contents

theorem Module.raise_keeps {k : Kind} {ten loc site : ℕ} : KeepsCmd id m (m.raise k ten loc site) :=
  .of_contents Module.raise_contents

theorem Module.readTwice_keeps {src : Option ℕ} {ten va n : ℕ} : KeepsCmd id m (m.readTwice src ten va n).2 := by
  refine Module.clearSrcErrs_keeps.trans (m' := m.clearSrcErrs src) ?_
  unfold Module.readTwice
  extract_lets bus m1 again
  have hagain : ∀ m, KeepsCmd id m (again m).2 := by
    intro m
    have hr := Module.readVA_keeps (id := id) (m := m) (bl := .wgt) (ten := ten) (va := va) (n := n)
    simp only [again]
    split
    · next e => exact hr.of_eq e
    · next e => exact (hr.of_eq e).trans Module.raise_keeps
  have hr := Module.readVA_keeps (id := id) (m := m1) (bl := .wgt) (ten := ten) (va := va) (n := n)
  split
  · exact Module.raise_keeps
  · split
    · exact hagain m1
    · split
      · next e => exact hr.of_eq e
      · next e => exact (hr.of_eq e).trans (hagain _)

theorem Module.writeHold_keeps {ten h : ℕ} {bs : List Byte} : KeepsCmd id m (m.writeHold ten h bs).2 :=
  .of_records Module.writeHold_records

theorem Module.copySlice_keeps {src : Option ℕ} {ten : ℕ} {v : BitVec 16} :
    KeepsCmd id m (m.copySlice src ten w l v b).2 := by
  unfold Module.copySlice
  split
  · exact .refl
  · next x _ =>
    have hr := Module.readTwice_keeps (id := id) (m := m) (src := src) (ten := ten) (va := w.sourceOf v + x.offset) (n := x.bytes)
    split
    · next e => exact hr.of_eq e
    · next bs m1 e =>
      have hw := Module.writeHold_keeps (id := id) (m := m1) (ten := ten) (h := w.berthAddr b) (bs := bs)
      split
      · next e' => exact (hr.of_eq e).trans (hw.of_eq e')
      · next e' => exact ((hr.of_eq e).trans (hw.of_eq e')).trans (.of_contents Module.addFld_contents)

/-! ### Resident layers (R161, R170) -/

/-- The record with the layers of a list in the berths from one on, all at the active version. -/
structure WRecord.StagedFrom (w w' : WRecord) (ls : List ℕ) (b : ℕ) : Prop where
  rest : w' = { w with berths := w'.berths }
  staged : ∀ k (h : k < ls.length), Map.get? w'.berths (b + k) = some ⟨ls[k], w.active, true⟩
  others : ∀ k, k < b ∨ b + ls.length ≤ k → Map.get? w'.berths k = Map.get? w.berths k

theorem Module.stageResidents_staged {ls : List ℕ} (h : m.stageResidents id t w ls b = (true, w', m')) :
    w.StagedFrom w' ls b := by
  induction ls generalizing m w b with
  | nil =>
    unfold Module.stageResidents at h
    obtain ⟨-, rfl, -⟩ := h
    exact ⟨rfl, nofun, fun _ _ => rfl⟩
  | cons l ls ih =>
    unfold Module.stageResidents at h
    split at h
    · cases h
    · obtain ⟨rest, staged, others⟩ := ih h
      refine ⟨rest, fun k hk => ?_, fun k hk => ?_⟩
      · cases k with
        | zero => exact (others b (.inl (Nat.lt_succ_self b))).trans (Map.get?_insert_self ..)
        | succ k =>
          have := staged k (Nat.lt_of_succ_lt_succ hk)
          rw [Nat.add_right_comm] at this
          exact this
      · rw [List.length_cons] at hk
        exact (others k (by omega)).trans (Map.get?_insert_ne _ (by omega) _)

theorem Module.stageResidents_keeps {ls : List ℕ} : KeepsCmd id m (m.stageResidents id t w ls b).2.2 := by
  induction ls generalizing m w b with
  | nil => exact .refl
  | cons l ls ih =>
    have hc := Module.copySlice_keeps (id := id) (m := m) (src := some id) (ten := t) (w := w) (l := l) (v := w.active) (b := b)
    unfold Module.stageResidents
    split
    · next e => exact hc.of_eq e
    · next e => exact (hc.of_eq e).trans ih

end Sys2Proof.Machine
end

