-- ==== Sys2Proof/Proofs/WeightCommands.lean ====
section
/-! WEIGHT_LOAD, WEIGHT_SWAP and LEAN_BUILD (O29). -/

namespace Sys2Proof.Machine

variable {m m' : Module} {id t l : ℕ} {w w' : WRecord} {c : Cmd} {s : State}

/-! ### WEIGHT_LOAD (R160, R161, R170) -/

/-- WEIGHT_LOAD is refused: the house, a tenancy whose generation route has been started, a swap that travels or is queued. -/
def Module.barsLoad (m : Module) (t : Ten) : Prop :=
  t = house ∨ m.generates t = true ∨ ∃ w, m.wrec t.val = some w ∧ (w.travel.isSome || w.queued.isSome) = true

theorem Module.barsLoad_iff {t : Ten} : m.barsLoad t ↔ (t = house ∨ m.generates t
    ∨ ((m.wrec t.val).map (fun w => w.travel.isSome || w.queued.isSome)).getD false) := by
  unfold Module.barsLoad
  cases m.wrec t.val <;> simp

theorem weightLoad_barred (h : CmdReady s.mod id 0x10 c) (hb : (s.mod.begun id c).barsLoad c.ten) :
    Yields (.weightLoad id) s ((s.mod.begun id c).finish id st.resource) :=
  yields_of_run (show execWeightLoad id s = s.run _ from rfl)
    ((Module.withCmd_ready h _).trans (if_pos (Module.barsLoad_iff.1 hb)))

theorem weightLoad_loads (h : CmdReady s.mod id 0x10 c) (hb : ¬ (s.mod.begun id c).barsLoad c.ten) :
    Yields (.weightLoad id) s ((s.mod.begun id c).loadWeights id c) :=
  yields_of_run (show execWeightLoad id s = s.run _ from rfl)
    ((Module.withCmd_ready h _).trans ((if_neg fun hp => hb (Module.barsLoad_iff.2 hp)).trans rfl))

/-- The numbers of a load that are out of form (R160, R161). -/
theorem load_outOfForm_iff {n count base size : ℕ} :
    (n = 0 ∨ 1024 < n ∨ count = 0 ∨ 4094 < count ∨ base % 4096 ≠ 0 ∨ size = 0 ∨ size % 4096 ≠ 0)
      ↔ ¬ (0 < n ∧ n ≤ 1024 ∧ 0 < count ∧ count ≤ 4094 ∧ base % 4096 = 0 ∧ 0 < size ∧ size % 4096 = 0) := by
  omega

/-- The table is not sound where an entry is out of range or regions overlap (R160, R170). -/
theorem load_unsound_iff {a b : Bool} : (!a || !b) = true ↔ ¬ (a = true ∧ b = true) := by
  rw [← Bool.not_and, Bool.not_eq_true', Bool.and_eq_false_iff]
  simp [Classical.or_iff_not_imp_left]

/-- The berths have no room for the resident layers and a window of streamed ones (R170). -/
theorem load_full_iff {res n count depth : ℕ} : (count < res + 1 ∨ (res < n ∧ count < res + depth))
    ↔ ¬ (res + 1 ≤ count ∧ (res < n → res + depth ≤ count)) := by
  omega

/-- The command stands in the table through the reading of the layer table, the check of the slices and the staging. -/
theorem load_keeps {m1 m2 m3 : Module} {va n src b : ℕ} {bs : List Byte} {layers : List Layer} {ls : List ℕ} {ok : Bool}
    (hread : m.readVA .wgt t va n = (.ok bs, m1)) (hmap : m1.slicesMapped t src layers = (.ok (), m2))
    (hstage : m2.stageResidents id t w ls b = (ok, w', m3)) : KeepsCmd id m m3 := by
  have hkeep := Module.stageResidents_keeps (id := id) (m := m2) (t := t) (w := w) (b := b) (ls := ls)
  rw [hstage] at hkeep
  exact ((Module.readVA_keeps.of_eq hread).trans (Module.slicesMapped_keeps.of_eq hmap)).trans hkeep

/-- The checks of a load in their order, and what the staging of the resident layers leaves. -/
theorem weightLoads : WeightLoads := by
  intro id s c hready m t n count base size barred inForm
  refine ⟨fun hb => ?barred, fun hb hform => ?outOfForm, fun hb hform => ?inForm⟩
  case barred =>
    exact ends_of_begun (weightLoad_barred hready hb) rfl ⟨Module.finish_weights, Module.finish_regs⟩
  all_goals
    have hy := weightLoad_loads hready hb
    unfold Module.loadWeights at hy
    simp only at hy
  case outOfForm =>
    rw [if_pos (load_outOfForm_iff.2 hform)] at hy
    refine ends_of_begun hy (by rw [Module.dropWrec_rest]) ?_
    exact (wrec_of_weights Module.finish_weights).trans Module.wrec_dropWrec_self
  case inForm =>
    rw [if_neg fun h => load_outOfForm_iff.1 h hform] at hy
    refine ⟨fun e m1 hr => ?unread, fun bs m1 hr => ?read⟩
    · rw [hr] at hy
      exact hy
    rw [hr] at hy
    simp only at hy
    intro w sound room
    refine ⟨fun hs => ?unsound, fun hs hroom => ?full, fun hs hroom hg => ?foreign, fun hs hroom hg => ?granted⟩
    case unsound =>
      rw [if_pos (load_unsound_iff.2 hs)] at hy
      exact hy
    all_goals rw [if_neg fun h => load_unsound_iff.1 h hs] at hy
    case full =>
      rw [if_pos (load_full_iff.2 hroom)] at hy
      exact hy
    all_goals rw [if_neg fun h => load_full_iff.1 h hroom] at hy
    case foreign =>
      rw [if_pos ?refused] at hy
      · exact hy
      · exact congrArg not hg
    case granted =>
      rw [if_neg ?notForeign] at hy
      case notForeign => simpa using hg
      refine ⟨fun e m2 hm => ?unmapped, fun m2 hm ok w' m3 he => ?mapped⟩
      · rw [hm] at hy
        exact hy
      rw [hm] at hy
      simp only at hy
      rw [he] at hy
      refine ⟨fun hok => ?_, fun hok => ?_, fun hok => ?_⟩ <;> subst hok
      · exact hy
      · exact hy
      · obtain ⟨rest, staged, others⟩ := Module.stageResidents_staged he
        refine completes_of_yields hy ⟨Module.finish_ended ?_, w', ?_, ?_⟩
        · rw [Module.cmd_setWrec]
          exact (load_keeps hr hm he).cmd (by simp [m])
        · exact (wrec_of_weights Module.finish_weights).trans Module.wrec_setWrec_self
        · refine ⟨congrArg (·.layers) rest, congrArg (·.active) rest, congrArg (·.source) rest, congrArg (·.travel) rest,
            congrArg (·.queued) rest, fun l => congrArg (Map.get? ·.lean l) rest, fun k hk => ?_, fun k hk => ?_⟩
          · rw [← staged k hk, Nat.zero_add]
          · exact others k (.inr (by omega))

/-! ### WEIGHT_SWAP (R20, R173) -/

theorem Cmd.field_phase {ph : CmdPhase} {o n : ℕ} : ({ c with phase := ph } : Cmd).field o n = c.field o n := rfl

/-- A check that has left the weight record as it was ends the command with the record as it was. -/
theorem ends_with_wrec {i : Instr} {status : ℕ} (hy : Yields i s (m.finish id status))
    (hc : m.contents = (s.mod.begun id c).contents) (hw : (s.mod.begun id c).wrec t = some w) :
    Ends i s id c status (fun m' => m'.wrec t = some w) :=
  ends_of_begun hy (congrArg (·.records.1) hc)
    ((wrec_of_weights (Module.finish_weights.trans (weights_of_contents hc))).trans hw)

/-- A swap is refused where more than one route carries layers, or where resident layers find no free berth (R20, R173). -/
theorem swap_full_iff {routes free : ℕ} {ls : List ℕ} :
    (1 < routes ∨ ((!ls.isEmpty) = true ∧ free = 0)) ↔ (1 < routes ∨ (ls ≠ [] ∧ free = 0)) := by
  cases ls <;> simp

/-- The checks of a swap in their order; none of them writes a record, a tile or a memory. -/
theorem weightSwaps : WeightSwaps := by
  intro id s c hready m t v group
  have hy : Yields (.weightSwap id) s _ :=
    yields_of_run (show execWeightSwap id s = s.run _ from rfl) (Module.withCmd_ready hready _)
  simp only [Cmd.field_phase, swap_full_iff] at hy
  refine ⟨fun hw => ?none, fun w hw => ?some⟩
  case none =>
    rw [hw] at hy
    exact ends_of_begun hy rfl ⟨Module.finish_weights, Module.finish_regs⟩
  rw [hw] at hy
  simp only at hy
  refine ⟨fun hq => ?queued, fun hq hg => ?noGroup, fun hq hg hgroup hj => ?noJob, fun hq hg hj => ?checked⟩
  case queued =>
    rw [if_pos hq] at hy
    exact ends_with_wrec hy rfl hw
  all_goals rw [if_neg (by simp [hq])] at hy
  case noGroup =>
    rw [if_pos ?refused] at hy
    · exact ends_with_wrec hy rfl hw
    · exact congrArg not hg
  all_goals rw [if_neg (by simpa using hg)] at hy
  case noJob =>
    rw [if_pos ⟨hgroup, congrArg Option.isNone hj⟩] at hy
    exact hy
  rw [if_neg ?job] at hy
  case job =>
    rintro ⟨hgroup, hnone⟩
    exact hj.elim hgroup fun h => Option.isSome_iff_ne_none.1 h (Option.isNone_iff_eq_none.1 hnone)
  refine ⟨fun hv => ?version, fun hv => ⟨fun e m1 hm => ?unmapped, fun m1 hm => ?mapped⟩⟩
  case version =>
    rw [if_pos hv] at hy
    exact ends_with_wrec hy rfl hw
  all_goals rw [if_neg (not_not.2 hv), hm] at hy
  case unmapped => exact hy
  case mapped =>
    simp only at hy
    have hcontents : m1.contents = m.contents := (congrArg (·.2.contents) hm).symm.trans Module.slicesMapped_contents
    refine ⟨fun hf => ?full, fun hroutes hfree => ?accepted⟩
    case full =>
      rw [if_pos hf] at hy
      exact ends_with_wrec hy hcontents hw
    case accepted =>
      rw [if_neg ?free] at hy
      case free =>
        rintro (h | ⟨hne, h0⟩)
        · exact Nat.not_lt.2 hroutes h
        · exact hfree.elim hne fun h => Nat.ne_of_gt h h0
      refine completes_of_yields hy ⟨?_, ?_, ?_, ?_, ?_⟩
      · rw [Module.commitCmd_rest]
        exact Module.wrec_setWrec_self
      · refine Module.cmd_commitCmd_self (c := { c with phase := .started }) ?_
        rw [Module.cmd_setWrec]
        exact (congrArg (fun x : Contents => Map.get? x.records.1 id) hcontents).trans Module.cmd_begun
      all_goals rw [Module.commitCmd_rest, Module.setWrec_rest]
      · exact congrArg (·.tiles) hcontents
      · exact congrArg (·.dram) hcontents
      · exact congrArg (·.hold) hcontents

/-! ### LEAN_BUILD (R168, R171) -/

/-- Copy one lean slice: its tag is cleared, and set again once the slice is read and stored; answers whether it was. -/
def Module.copyLean (m : Module) (id t src : ℕ) (v : BitVec 16) (e : ℕ × Layer × ℕ) : Bool × Module :=
  match (m.setLean t e.1 none).readTwice (some id) t (src + e.2.1.leanOff * 4096) e.2.1.leanBytes with
  | (.error _, m) => (false, m)
  | (.ok bs, m) =>
    match m.writeHold t e.2.2 bs with
    | (.error _, m) => (false, m)
    | (.ok _, m) => (true, m.setLean t e.1 (some v))

variable {src : ℕ} {v : BitVec 16} {e : ℕ × Layer × ℕ} {ls : List (ℕ × Layer × ℕ)}

theorem Module.buildLean_cons : m.buildLean id t src v (e :: ls) =
    ((m.copyLean id t src v e).1 && ((m.copyLean id t src v e).2.buildLean id t src v ls).1,
      ((m.copyLean id t src v e).2.buildLean id t src v ls).2) := rfl

/-- The record with the tag of a layer set or cleared. -/
def WRecord.withLean (w : WRecord) (l : ℕ) (v : Option (BitVec 16)) : WRecord :=
  { w with lean := match v with
      | some v => Map.insert w.lean l v
      | none => Map.erase w.lean l }

theorem WRecord.lean_retagged {j : ℕ} :
    Map.get? ((w.withLean l none).withLean l (some v)).lean j = if l = j then some v else Map.get? w.lean j := by
  refine (Map.get?_insert ..).trans ?_
  split
  · rfl
  · next h => exact (Map.get?_erase ..).trans (if_neg h)

theorem Module.wrec_setLean {v : Option (BitVec 16)} (h : m.wrec t = some w) :
    (m.setLean t l v).wrec t = some (w.withLean l v) := by
  unfold Module.setLean
  rw [h]
  exact Module.wrec_setWrec_self

theorem Module.cmd_setLean {v : Option (BitVec 16)} {j : ℕ} : (m.setLean t l v).cmd j = m.cmd j := by
  unfold Module.setLean
  split
  · rfl
  · exact Module.cmd_setWrec

theorem Module.leanMapped_contents : (m.leanMapped t src ls).2.contents = m.contents := by
  induction ls generalizing m with
  | nil => rfl
  | cons e ls ih =>
    unfold Module.leanMapped
    grind [Module.mapped_contents]

/-- A copy ends with the tag cleared, or set again. -/
theorem Module.copyLean_cases : ∃ m0, KeepsCmd id (m.setLean t e.1 none) m0
    ∧ (m.copyLean id t src v e = (false, m0) ∨ m.copyLean id t src v e = (true, m0.setLean t e.1 (some v))) := by
  have hr := Module.readTwice_keeps (id := id) (m := m.setLean t e.1 none) (src := some id) (ten := t)
    (va := src + e.2.1.leanOff * 4096) (n := e.2.1.leanBytes)
  unfold Module.copyLean
  split
  · next hread => exact ⟨_, hr.of_eq hread, .inl rfl⟩
  · next bs m1 hread =>
    have hw := Module.writeHold_keeps (id := id) (m := m1) (ten := t) (h := e.2.2) (bs := bs)
    split
    · next hwrite => exact ⟨_, (hr.of_eq hread).trans (hw.of_eq hwrite), .inl rfl⟩
    · next hwrite => exact ⟨_, (hr.of_eq hread).trans (hw.of_eq hwrite), .inr rfl⟩

theorem Module.copyLean_cmd (h : (m.cmd id).isSome = true) : ((m.copyLean id t src v e).2.cmd id).isSome = true := by
  obtain ⟨m0, hkeep, hc⟩ := Module.copyLean_cases (id := id) (m := m) (t := t) (src := src) (v := v) (e := e)
  have h0 : (m0.cmd id).isSome = true := hkeep.cmd (by rwa [Module.cmd_setLean])
  obtain hc | hc := hc <;> rw [hc]
  · exact h0
  · rwa [Module.cmd_setLean]

theorem Module.copyLean_wrec (hw : m.wrec t = some w) (hok : (m.copyLean id t src v e).1 = true) :
    (m.copyLean id t src v e).2.wrec t = some ((w.withLean e.1 none).withLean e.1 (some v)) := by
  obtain ⟨m0, hkeep, hc⟩ := Module.copyLean_cases (id := id) (m := m) (t := t) (src := src) (v := v) (e := e)
  obtain hc | hc := hc <;> rw [hc] at hok ⊢
  · cases hok
  · exact Module.wrec_setLean ((wrec_of_weights hkeep.weights).trans (Module.wrec_setLean hw))

theorem Module.buildLean_cmd (h : (m.cmd id).isSome = true) : ((m.buildLean id t src v ls).2.cmd id).isSome = true := by
  induction ls generalizing m with
  | nil => exact h
  | cons e ls ih =>
    rw [Module.buildLean_cons]
    exact ih (Module.copyLean_cmd h)

/-- The record with the layers of a list tagged with a version, and nothing else changed. -/
structure WRecord.Tagged (w w' : WRecord) (ls : List (ℕ × Layer × ℕ)) (v : BitVec 16) : Prop where
  rest : w' = { w with lean := w'.lean }
  tags : ∀ l, Map.get? w'.lean l = if l ∈ ls.map (·.1) then some v else Map.get? w.lean l

theorem Module.buildLean_wrec (hw : m.wrec t = some w) (hok : (m.buildLean id t src v ls).1 = true) :
    ∃ w', (m.buildLean id t src v ls).2.wrec t = some w' ∧ w.Tagged w' ls v := by
  induction ls generalizing m w with
  | nil => exact ⟨w, hw, rfl, fun _ => rfl⟩
  | cons e ls ih =>
    rw [Module.buildLean_cons] at hok ⊢
    obtain ⟨hcopy, hbuild⟩ := Bool.and_eq_true_iff.1 hok
    obtain ⟨w', hw', rest, tags⟩ := ih (Module.copyLean_wrec hw hcopy) hbuild
    refine ⟨w', hw', rest, fun l => ?_⟩
    rw [tags l, WRecord.lean_retagged, List.map_cons]
    grind

/-- A build copies slice by slice, and a slice that is copied has its tag. -/
theorem leanBuilds : LeanBuilds := by
  intro id s c hready m t v
  have hy : Yields (.leanBuild id) s _ :=
    yields_of_run (show execLeanBuild id s = s.run _ from rfl) (Module.withCmd_ready hready _)
  simp only [Cmd.field_phase] at hy
  refine ⟨fun hw => ?none, fun w hw => ?some⟩
  case none =>
    rw [hw] at hy
    exact ends_of_begun hy rfl Module.finish_weights
  rw [hw] at hy
  simp only at hy
  refine ⟨fun hl => ?nothing, fun e m1 hm => ?unmapped, fun m1 hm ok m2 hb => ?mapped⟩
  case nothing =>
    rw [hl] at hy
    exact ends_of_begun hy rfl ⟨(wrec_of_weights Module.finish_weights).trans hw, Module.finish_hold⟩
  all_goals rw [hm] at hy
  case unmapped => exact hy
  case mapped =>
    have hy : Yields (.leanBuild id) s (m2.finish id (if ok then st.ok else st.data)) := by
      obtain ⟨rfl, rfl⟩ := Prod.ext_iff.1 hb
      exact hy
    refine ⟨hy, fun hok => ?_⟩
    subst hok
    have hcontents : m1.contents = m.contents := (congrArg (·.2.contents) hm).symm.trans Module.leanMapped_contents
    have hcmd : (m2.cmd id).isSome = true := by
      have h1 : (m1.cmd id).isSome = true := (KeepsCmd.of_contents hcontents).cmd (by simp [m])
      have h2 := Module.buildLean_cmd (t := t) (src := c.field 8 8) (v := v) (ls := w.leanLayers) h1
      rwa [hb] at h2
    obtain ⟨w', hw', rest, tags⟩ := Module.buildLean_wrec ((wrec_of_weights (weights_of_contents hcontents)).trans hw)
      (congrArg Prod.fst hb)
    rw [hb] at hw'
    refine completes_of_yields hy ⟨Module.finish_ended hcmd, w', (wrec_of_weights Module.finish_weights).trans hw',
      fun p hp => ?_, congrArg (·.layers) rest, congrArg (·.active) rest, congrArg (·.berths) rest⟩
    exact (tags p.1).trans (if_pos (List.mem_map_of_mem hp))

/-- Settles O29: each command by the checks in their order, which leave the commands and the weight records as they were, and by
what the copies of slices leave: the command in the table, and a record that differs in its berths or its lean tags alone. -/
theorem weightCommands : Obligations.WeightCommands := ⟨weightLoads, weightSwaps, leanBuilds⟩

end Sys2Proof.Machine
end

