-- ==== Sys2Proof/Proofs/DeckTraffic.lean ====
section
/-! The arrival of Deck packets, and the segments of packets that bear one number (O25). -/

namespace Sys2Proof.Machine

variable {m : Module} {k : DeckPkt}

/-! ### Arrival (R37 to R39, R44, R56) -/

/-- A packet that leaves the Deck touches the reservations alone. -/
theorem Module.leaveDeck_rest : m.leaveDeck k = { m with xres := (m.leaveDeck k).xres } := by
  unfold Module.leaveDeck
  simp only
  split <;> rfl

theorem Module.reg_leaveDeck {r : RegId} {i j : ℕ} : (m.leaveDeck k).reg r i j = m.reg r i j := by
  rw [Module.leaveDeck_rest]
  rfl

theorem Module.pathErr_leaveDeck : (m.leaveDeck k).pathErr = m.pathErr := by
  rw [Module.leaveDeck_rest]

/-- A packet arrives where its turn has come, its buffer has room, and no injection or parity error stands at the Deck. -/
theorem deckArrival : DeckArrival := by
  intro n s k hk calm room m m' same
  have hm : ({ s.mod with deck := s.mod.deck.eraseIdx n } : Module).leaveDeck k = m := rfl
  have hm' : m.checkAssign k.dst.cl.val = m' := rfl
  have credit : s.mod.probe Kind.DCK_CREDIT k.ten.val k.src.cl.val = s.mod := Module.probe_calm (k := Kind.DCK_CREDIT) calm _ _
  have parity : m.probe Kind.DCK_PARITY k.ten.val k.src.cl.val = m :=
    Module.probe_calm (k := Kind.DCK_PARITY) (hm ▸ Module.reg_leaveDeck.trans calm) _ _
  have fits : (decide (k.port = 4) && decide (16 < s.mod.xBuffered k.dst k.vc)) = false := by
    simpa using room
  clear_value m m'
  refine ⟨fun turn => ?waits, fun turn path sound => ⟨fun own => ?delivered, fun other => ?isolated⟩,
    fun turn path lost => ?lost⟩
  case waits => exact yields_of_run (show execDeckPacketArrive n s = s.run _ from rfl) (by simp [hk, turn])
  all_goals
    have path : m.pathErr.contains .dck = false := by rw [← hm, Module.pathErr_leaveDeck]; exact path
    refine yields_of_run (show execDeckPacketArrive n s = s.run _ from rfl) ?_
    simp only [hk, turn, credit, Module.when, fits, hm, parity, path, Bool.not_true, Bool.false_eq_true, if_false]
  case lost => simp only [lost, if_true]
  case delivered => simp [sound, hm', own.1, own.2]
  case isolated =>
    have isolated : (m'.flag Fld.FAB_CL_ASSIGN_VALID k.dst.cl.val
        && m'.fld Fld.FAB_CL_ASSIGN_TENANCY k.dst.cl.val == k.ten.val) = false := by
      simpa [same] using other
    simp [sound, hm', isolated]

/-! ### Segments (R42) -/

/-- The first tile of cluster 0. -/
def cornerTile : TileId := ⟨0, 0, 0⟩

/-- An X packet of one byte more than a segment of 16 flits holds. -/
def longPacket : DeckPkt := ⟨0, cornerTile, cornerTile, 4, 0, .data, 0, List.replicate 1025 0, true⟩

/-- A send buffer in which two packets bear one number, the first on channel 0 and the second on channel 1; the tile holds the
receive buffer that the first goes to. -/
def repeatedNumber : State :=
  ⟨(Module.reset.setTile cornerTile { Tile.reset with sendX := [longPacket, { longPacket with vc := 1 }] }).setXr cornerTile 0
    ⟨some (tileKey cornerTile), 0⟩, []⟩

/-- The channels of the packets in the tile's send buffer after a command. -/
def channelsAfter : Host.Outcome State Fault Refusal → List (BitVec 4)
  | .next s => (s.mod.tile cornerTile).sendX.map DeckPkt.vc
  | _ => []

theorem channelsAfter_inject : channelsAfter (exec (.xSegmentInject cornerTile 0) repeatedNumber) = [0, 1] := by decide +kernel

/-- Refutes O25: as a segment of a packet leaves the send buffer, every packet there with its number is cut, each under its own
header, where the statement gives all of them the header of the first. In `repeatedNumber` the second keeps its channel 1. The
statement does not ask that the numbers of a send buffer differ; what it says of arrivals holds (`deckArrival`). -/
theorem not_deckTraffic : ¬ Obligations.DeckTraffic := by
  unfold Obligations.DeckTraffic
  rintro ⟨-, flow⟩
  obtain ⟨-, segment, -, -⟩ := flow cornerTile 0 repeatedNumber
  have inject := (segment longPacket (by decide +kernel) (by decide +kernel)).2 (by decide +kernel)
  unfold Yields at inject
  have stated := channelsAfter_inject.symm.trans (congrArg channelsAfter inject)
  revert stated
  decide +kernel

end Sys2Proof.Machine
end

