-- ==== Sys2Proof/Proofs/Receives.lean ====
section
/-! What a span does with the packets that it receives (O19). -/

namespace Sys2Proof.Machine

variable {m : Module} {cx : Ctx} {x : Tile} {w : Fields} {port vc status : ℕ} {ten : Ten} {u : TileId}

/-! ### Spans that wait -/

/-- A span that waits on a word. -/
theorem Module.waitOn_waits {s : State} {op : Byte} : SpanWaits s ⟨(s.mod.waitOn cx op w).settle, s.pending⟩ cx op w := by
  refine ⟨rfl, ?_, fun u => Module.tile_mapSpan ..⟩
  show (s.mod.mapSpan _ _).settle = _
  rw [Module.mapSpan_rest]
  rfl

/-! ### The packet at the front (R45, R104) -/

/-- A marker at the front of the port and channel passes its check. -/
def Tile.FrontSound (x : Tile) (port vc : ℕ) : Prop :=
  ∀ k, x.nextPacket port vc = some k → k.kind = .marker → (readMarker k.data).isSome = true

theorem Module.dropBadMarkers_sound (calm : m.reg .ERR_INJECT_INV Block.dck.group = 0) (h : (m.tile u).FrontSound port vc)
    (n : ℕ) : m.dropBadMarkers ten u port vc n = m := by
  cases n with
  | zero => rfl
  | succ n =>
    unfold Module.dropBadMarkers
    split
    case h_2 => rfl
    case h_1 k hk =>
      rw [if_neg (by have := h k hk; simp only [Bool.and_eq_true, beq_iff_eq, Option.isNone_iff_eq_none]; grind),
        Module.probe_calm (k := Kind.DCK_PAIR) calm, ite_self]

/-- Where every front marker of the span passes its check, none is dropped. -/
theorem Module.foldl_dropBadMarkers_sound (calm : m.reg .ERR_INJECT_INV Block.dck.group = 0) {us : List TileId}
    (h : ∀ u ∈ us, (m.tile u).FrontSound port vc) :
    us.foldl (fun m u => m.dropBadMarkers ten u port vc (m.tile u).recv.length) m = m := by
  induction us with
  | nil => rfl
  | cons u us ih =>
    rw [List.foldl_cons, Module.dropBadMarkers_sound calm (h u List.mem_cons_self)]
    exact ih fun v hv => h v (List.mem_cons_of_mem _ hv)

/-- A receive has what it needs: it polls, or every tile of the span has a packet. -/
def Module.Fed (m : Module) (cx : Ctx) (w : Fields) : Prop :=
  8 ≤ w.mod.toNat ∨ ∀ u ∈ m.spanTiles cx.o, (m.tile u).nextPacket (w.mod.toNat % 8) (immBits w 0 4) ≠ none

section Received

variable {op : Byte} {put : Tile → List Byte → Except Misuse (Tile × ℕ)}
  (calm : m.reg .ERR_INJECT_INV Block.dck.group = 0)
  (sound : ∀ u ∈ m.spanTiles cx.o, (m.tile u).FrontSound (w.mod.toNat % 8) (immBits w 0 4))
include calm sound

theorem Module.recvAll_waits (hw : w.mod.toNat < 8)
    (h : ∃ u ∈ m.spanTiles cx.o, (m.tile u).nextPacket (w.mod.toNat % 8) (immBits w 0 4) = none) :
    m.recvAll cx op w status put = .ok (m.waitOn cx op w) := by
  unfold Module.recvAll
  simp only [Module.foldl_dropBadMarkers_sound calm sound]
  rw [if_pos (by simpa [hw] using h)]

theorem Module.recvAll_fed (h : m.Fed cx w) :
    m.recvAll cx op w status put
      = m.eachE cx fun _ x => x.takePacket (w.mod.toNat % 8) (immBits w 0 4) status put := by
  unfold Module.recvAll
  simp only [Module.foldl_dropBadMarkers_sound calm sound]
  rw [if_neg ?_]
  rcases h with h | h
  · simp [Nat.not_lt.2 h]
  · simp only [Bool.and_eq_true, List.any_eq_true, Option.isNone_iff_eq_none, not_and, not_exists]
    exact fun _ u hu => h u hu

end Received

/-! ### What a tile takes (R104) -/

/-- What a tile becomes by a receive: a status of EMPTY, the marker in the latch, or the payload where `put` writes it. -/
def Tile.received (x : Tile) (port vc status : ℕ) (put : Tile → List Byte → Tile × ℕ) : Tile :=
  match x.nextPacket port vc with
  | none => x.setS status (recvStatus false false true 0)
  | some k =>
    let y : Tile := { x with recv := x.recv.erase k }
    match k.kind, readMarker k.data with
    | .marker, some mr => ({ y with marker := some mr } : Tile).setS status (recvStatus true false false mr.version.toNat)
    | _, _ => (put y k.data).1.setS status (recvStatus false (decide ((put y k.data).2 < k.data.length)) false (put y k.data).2)

/-- A tile whose front marker passes its check, and whose payload can be written, receives its packet. -/
theorem Tile.takePacket_received {put : Tile → List Byte → Except Misuse (Tile × ℕ)}
    {put' : Tile → List Byte → Tile × ℕ}
    (sound : x.FrontSound port vc)
    (hput : ∀ k, x.nextPacket port vc = some k → k.kind ≠ .marker →
      put { x with recv := x.recv.erase k } k.data = .ok (put' { x with recv := x.recv.erase k } k.data)) :
    x.takePacket port vc status put = .ok (x.received port vc status put') := by
  unfold Tile.takePacket Tile.received
  cases hk : x.nextPacket port vc with
  | none => rfl
  | some k =>
    simp only
    by_cases hm : k.kind = .marker
    · obtain ⟨mr, hmr⟩ := Option.isSome_iff_exists.1 (sound k hk hm)
      simp [hm, hmr]
    · rw [if_neg (by simpa using hm), hput k hk hm]
      split
      · next hmark _ => exact absurd hmark hm
      · rfl

/-- A payload whose write faults is a misuse. -/
theorem Tile.takePacket_error {put : Tile → List Byte → Except Misuse (Tile × ℕ)} {k : RecvPkt} {e : Misuse}
    (hk : x.nextPacket port vc = some k) (hm : k.kind ≠ .marker)
    (hput : put { x with recv := x.recv.erase k } k.data = .error e) :
    x.takePacket port vc status put = .error e := by
  unfold Tile.takePacket
  simp only [hk]
  rw [if_neg (by simpa using hm), hput]
  rfl

/-- The write of a payload leaves the control state of a tile. -/
def PutKeepsControl (put : Tile → List Byte → Tile × ℕ) : Prop :=
  ∀ x bs, (put x bs).1.pc = x.pc ∧ (put x bs).1.loops = x.loops

theorem Tile.received_keepsControl {put : Tile → List Byte → Tile × ℕ} (h : PutKeepsControl put) :
    KeepsControl fun _ x => x.received port vc status put := by
  intro _ x
  simp only [Tile.received]
  split
  · simp
  · split
    · simp
    · simpa using h _ _

/-- A span one of whose tiles faults. -/
theorem Module.eachE_error {f : TileId → Tile → Except Misuse Tile} {e : Misuse} (hu : m.spanTiles cx.o = [u])
    (hf : f u (m.tile u) = .error e) : m.eachE cx f = .error e := by
  unfold Module.eachE
  simp only [hu, List.foldlM_cons, hf]
  rfl

/-- The command is a receive of a word, which gives each payload to `put`. -/
def ReceiveOf (c : Instr) (t : TileId) (op : Byte) (w : Fields) (form : Form) (status : ℕ)
    (put : Tile → List Byte → Except Misuse (Tile × ℕ)) : Prop :=
  ∀ s, exec c s = s.tileOp t op w form fun cx m =>
    match streamIllegal cx.sg.prog.skq2 w with
    | some k => .ok (m.haltTile cx.o k)
    | none => m.recvAll cx op w status put

section ReceiveOf

variable {c : Instr} {t : TileId} {op : Byte} {form : Form} {put : Tile → List Byte → Except Misuse (Tile × ℕ)}
  (hc : ReceiveOf c t op w form status put)
include hc

theorem ReceiveOf.exec_eq {s : State} (hi : Issues s t op w (form.bad w) cx) (legal : streamIllegal cx.sg.prog.skq2 w = none) :
    exec c s = .next ⟨(s.mod.orUndefined cx.r.ten (s.mod.recvAll cx op w status put)).settle, s.pending⟩ := by
  rw [hc s, State.tileOp_issues rfl hi]
  simp only [legal]

theorem ReceiveOf.receives {put' : Tile → List Byte → Tile × ℕ} {ok : Tile → List Byte → Prop}
    (hput : ∀ (x : Tile) (k : RecvPkt), ok x k.data →
      put { x with recv := x.recv.erase k } k.data = .ok (put' { x with recv := x.recv.erase k } k.data))
    (hkeep : PutKeepsControl put') : Receives c t op w (form.bad w) status put' ok := by
  intro s cx hi legal calm next us sound
  rw [hc.exec_eq hi legal]
  refine ⟨fun hw empty => ?waits, fun fed fits inside => ?takes⟩
  case waits =>
    rw [Module.recvAll_waits calm sound hw empty]
    exact ⟨_, rfl, Module.waitOn_waits⟩
  case takes =>
    rw [Module.recvAll_fed calm sound fed, Module.eachE_ok (g := fun _ x => x.received _ _ status put') fun u hu =>
      Tile.takePacket_received (sound u hu) fun k hk hm => hput _ k (fits u hu k hk hm)]
    exact ⟨_, rfl, Module.each_did (Tile.received_keepsControl hkeep) inside⟩

/-- The one tile of a span cannot write its packet. -/
theorem ReceiveOf.misuse {s : State} {k : RecvPkt} {e : Misuse} (hi : Issues s t op w (form.bad w) cx)
    (legal : streamIllegal cx.sg.prog.skq2 w = none) (calm : s.mod.reg .ERR_INJECT_INV Block.dck.group = 0)
    (hu : s.mod.spanTiles cx.o = [u]) (hk : (s.mod.tile u).nextPacket (w.mod.toNat % 8) (immBits w 0 4) = some k)
    (hm : k.kind ≠ .marker)
    (hput : put { s.mod.tile u with recv := (s.mod.tile u).recv.erase k } k.data = .error e) :
    Yields c s (s.mod.undefined cx.r.ten) := by
  have only : ∀ v ∈ s.mod.spanTiles cx.o, v = u := by simp [hu]
  have sound : ∀ v ∈ s.mod.spanTiles cx.o, (s.mod.tile v).FrontSound (w.mod.toNat % 8) (immBits w 0 4) := by
    intro v hv j hj hmark
    rw [only v hv, hk] at hj
    exact absurd (Option.some.inj hj ▸ hmark) hm
  have fed : s.mod.Fed cx w := .inr fun v hv => by simp [only v hv, hk]
  unfold Yields
  rw [hc.exec_eq hi legal, Module.recvAll_fed calm sound fed, Module.eachE_error hu (Tile.takePacket_error hk hm hput)]
  rfl

end ReceiveOf

/-! ### Payloads -/

/-- What RECV does with a payload: the bay takes it, cut to the length asked for. -/
def recvPut (w : Fields) (x : Tile) (bs : List Byte) : Except Misuse (Tile × ℕ) := do
  let bs := bs.take (x.sreg w.b.toNat).toNat
  let y ← x.bayWrite (x.sreg w.a.toNat).toNat bs
  return (y, bs.length)

/-- The end of the range of the bay that the payload would take. -/
def recvEnd (w : Fields) (x : Tile) (bs : List Byte) : ℕ :=
  (x.sreg w.a.toNat).toNat + (bs.take (x.sreg w.b.toNat).toNat).length

theorem recv_receiveOf (t : TileId) (w : Fields) : ReceiveOf (.recv t w) t 0x32 w formRecv w.d.toNat (recvPut w) := fun _ => rfl

theorem recvPut_fits {bs : List Byte} (h : recvEnd w x bs ≤ 0x10000) :
    recvPut w x bs = .ok (x.deliver (x.sreg w.a.toNat).toNat (bs.take (x.sreg w.b.toNat).toNat),
      (bs.take (x.sreg w.b.toNat).toNat).length) := by
  unfold recvEnd at h
  unfold recvPut Tile.bayWrite
  simp only
  rw [if_neg (Nat.not_lt.2 h)]
  rfl

theorem recvPut_range {bs : List Byte} (h : 0x10000 < recvEnd w x bs) : recvPut w x bs = .error .bayRange := by
  unfold recvEnd at h
  unfold recvPut Tile.bayWrite
  simp only
  rw [if_pos h]
  rfl

theorem foldl_setLane_control {i : ℕ} {f : ℕ → Word} {ls : List ℕ} :
    (ls.foldl (fun x l => x.setLane i l (f l)) x).pc = x.pc ∧ (ls.foldl (fun x l => x.setLane i l (f l)) x).loops = x.loops :=
  List.foldlRecOn (motive := fun (y : Tile) => y.pc = x.pc ∧ y.loops = x.loops) ls _ ⟨rfl, rfl⟩ fun _ h _ _ => h

/-- Settles O19: a receive by its body, which drops no marker here and waits or takes a packet in each tile; RECV by what the bay
takes, RECVV by what the lanes take. -/
theorem receivingInstructions : Obligations.ReceivingInstructions := by
  intro t w
  refine ⟨(recv_receiveOf t w).receives (fun _ _ fits => recvPut_fits fits) fun _ _ => ⟨rfl, rfl⟩, ?lanes, ?misuse⟩
  case lanes =>
    exact ReceiveOf.receives (fun _ => rfl) (fun _ _ _ => rfl) fun _ _ => foldl_setLane_control
  case misuse =>
    intro s cx hi legal calm u k hu hk hm range
    exact (recv_receiveOf t w).misuse hi legal calm hu hk hm (recvPut_range range)

end Sys2Proof.Machine
end

