-- ==== Sys2Proof/Proofs/Sends.lean ====
section
/-! What the tiles of a span send, and in what order (O18). -/

namespace Sys2Proof.Machine

variable {m m' : Module} {cx : Ctx} {x : Tile} {w : Fields} {ten : Ten} {u v : TileId} {port : ℕ} {dest : Word} {vc : BitVec 4}
  {kind : DeckKind} {bs : List Byte}

/-! ### Spans that retire -/

/-- A span whose tiles alone have changed moves past its instruction. -/
theorem Module.retire_did {s : State} {base : Module} {f : TileId → Tile → Tile} (hk : KeepsControl f) (inside : Inside base cx)
    (rest : m = { base with tiles := m.tiles })
    (tiles : ∀ u, m.tile u = if u ∈ base.spanTiles cx.o then f u (base.tile u) else base.tile u) :
    SpanDid base s ⟨(m.retire cx).settle, s.pending⟩ cx f := by
  have span : m.spanTiles cx.o = base.spanTiles cx.o := by rw [rest]; rfl
  have origin : m.tile cx.o = f cx.o (base.tile cx.o) := by rw [tiles, if_pos (base.self_mem_spanTiles cx.o)]
  obtain ⟨hpc, hloops⟩ := hk cx.o (base.tile cx.o)
  have retired : m.retire cx = m.control cx (loopEnd (base.tile cx.o).pc (base.tile cx.o).loops).1
      (loopEnd (base.tile cx.o).pc (base.tile cx.o).loops).2 := by
    rw [Module.retire_inside (by rw [origin, hpc, hloops]; exact inside), origin, hpc, hloops]
  refine ⟨rfl, ?_, fun u => ?_⟩
  · show (m.retire cx).settle = _
    rw [retired, Module.control, Module.mapSpan_rest, rest]
    rfl
  · show (m.retire cx).tile u = _
    rw [retired, Module.control, Module.tile_mapSpan, span, tiles]
    split <;> rfl

/-! ### What a send leaves as it was -/

theorem Module.tile_of_contents (h : m'.contents = m.contents) : m'.tile u = m.tile u := by
  unfold Module.tile Module.tileAt
  rw [show m'.tiles = m.tiles from congrArg Contents.tiles h]

/-- The tile, which takes bytes into its digest where its tenancy runs twins (R413). -/
def Tile.notedIf (x : Tile) (twins : Bool) (bs : List Byte) : Tile := if twins then x.note bs else x

theorem Module.tile_noteTile : (m.noteTile ten.val u bs).tile v
    = Function.update m.tile u ((m.tile u).notedIf (m.twinned ten.val) bs) v := by
  unfold Module.noteTile Tile.notedIf
  by_cases hv : v = u
  · subst hv
    split <;> simp
  · rw [Function.update_of_ne hv]
    split
    · exact m.tile_setTile_ne hv _
    · rfl

theorem Module.noteTile_rest : m.noteTile ten.val u bs = { m with tiles := (m.noteTile ten.val u bs).tiles } := by
  unfold Module.noteTile
  split <;> rfl

/-- A send leaves every other tile as it was. -/
theorem Module.tile_sendPacket_ne (h : v ≠ u) : (m.sendPacket ten u port dest vc kind bs).tile v = m.tile v := by
  unfold Module.sendPacket
  generalize (if kind == .flag then flagNote dest bs else sendNote port vc.toNat (if port = 4 then dest else 0) bs) = note
  have noted : (m.noteTile ten.val u note).tile v = m.tile v := by rw [Module.tile_noteTile, Function.update_of_ne h]
  rw [← noted]
  generalize m.noteTile ten.val u note = m
  simp only
  split
  · rfl
  · split <;> split
    · exact Module.tile_of_contents Module.raise_contents
    · exact Module.tile_setTile_ne _ h _
    · exact Module.tile_of_contents Module.raise_contents
    · rfl

/-! ### What a send does (R40 to R42) -/

/-- `m'` is `m` but for its tiles and the Deck. -/
def Module.DeckOnly (m m' : Module) : Prop := m' = { m with tiles := m'.tiles, deck := m'.deck, deckSeq := m'.deckSeq }

/-- `m'` is `m` with packets that joined the Deck, the count of packets sent risen by `n`, and the tiles that `g` says. -/
structure Module.Posted (m m' : Module) (n : ℕ) (ks : List DeckPkt) (g : TileId → Tile) : Prop where
  rest : m' = { m with tiles := m'.tiles, deck := m.deck ++ ks, deckSeq := m.deckSeq + n }
  tiles : ∀ v, m'.tile v = g v

theorem Module.DeckOnly.trans {m1 m2 : Module} (h1 : m.DeckOnly m1) (h2 : m1.DeckOnly m2) : m.DeckOnly m2 := by
  unfold Module.DeckOnly at *
  rw [h2, h1]

theorem Module.Posted.deckOnly {n : ℕ} {ks : List DeckPkt} {g : TileId → Tile} (h : m.Posted m' n ks g) : m.DeckOnly m' := by
  unfold Module.DeckOnly
  rw [h.rest]

theorem Module.Posted.deckSeq {n : ℕ} {ks : List DeckPkt} {g : TileId → Tile} (h : m.Posted m' n ks g) :
    m'.deckSeq = m.deckSeq + n := by rw [h.rest]

theorem Module.Posted.deck {n : ℕ} {ks : List DeckPkt} {g : TileId → Tile} (h : m.Posted m' n ks g) :
    m'.deck = m.deck ++ ks := by rw [h.rest]

/-- What a tile's digest takes as the tile sends a packet. -/
def Module.sentTile (m : Module) (ten : Ten) (u : TileId) (port : ℕ) (dest : Word) (vc : BitVec 4) (bs : List Byte) : Tile :=
  (m.tile u).notedIf (m.twinned ten.val) (sendNote port vc.toNat (if port = 4 then dest else 0) bs)

section Packet

variable (hk : kind ≠ .flag)
include hk

/-- What the tile of a twin sends goes nowhere (R413). -/
theorem Module.sendPacket_twin (ht : m.isTwin u = true) :
    m.Posted (m.sendPacket ten u port dest vc kind bs) 0 [] (Function.update m.tile u (m.sentTile ten u port dest vc bs)) := by
  unfold Module.sendPacket
  simp only [beq_iff_eq, if_neg hk]
  have rest := Module.noteTile_rest (m := m) (ten := ten) (u := u)
    (bs := sendNote port vc.toNat (if port = 4 then dest else 0) bs)
  rw [if_pos (by rw [rest]; exact ht)]
  exact ⟨by simpa using rest, fun v => Module.tile_noteTile⟩

section Sends

variable (ht : m.isTwin u = false)
include ht

/-- A packet to a neighbour enters the Deck (R40). -/
theorem Module.sendPacket_neighbour (hp : port ≠ 4) (hv : neighbour u port = some v) :
    m.Posted (m.sendPacket ten u port dest vc kind bs) 1
      [⟨m.deckSeq, u, v, opposite port, vc, kind, ten, bs, true⟩]
      (Function.update m.tile u (m.sentTile ten u port dest vc bs)) := by
  unfold Module.sendPacket
  simp only [beq_iff_eq, if_neg hk]
  have rest := Module.noteTile_rest (m := m) (ten := ten) (u := u)
    (bs := sendNote port vc.toNat (if port = 4 then dest else 0) bs)
  rw [if_neg (by rw [rest]; exact Bool.eq_false_iff.1 ht), if_neg hp]
  simp only [hv]
  refine ⟨?_, fun v => Module.tile_noteTile⟩
  rw [rest]

/-- A packet to a tile address enters the send buffer of its tile (R41, R42). -/
theorem Module.sendPacket_address (hv : m.tileAddr ten dest = some v) :
    m.Posted (m.sendPacket ten u 4 dest vc kind bs) 1 []
      (Function.update m.tile u { m.sentTile ten u 4 dest vc bs with
        sendX := (m.tile u).sendX ++ [⟨m.deckSeq, u, v, 4, vc, kind, ten, bs, true⟩] }) := by
  unfold Module.sendPacket
  simp only [beq_iff_eq, if_neg hk, if_true]
  have rest := Module.noteTile_rest (m := m) (ten := ten) (u := u) (bs := sendNote 4 vc.toNat dest bs)
  have tile : ∀ v, (m.noteTile ten.val u (sendNote 4 vc.toNat dest bs)).tile v
      = Function.update m.tile u (m.sentTile ten u 4 dest vc bs) v := fun v => Module.tile_noteTile
  generalize m.noteTile ten.val u (sendNote 4 vc.toNat dest bs) = m1 at *
  have addr : m1.tileAddr ten dest = some v := by rw [rest]; exact hv
  have seq : m1.deckSeq = m.deckSeq := by rw [rest]
  rw [if_neg (by rw [rest]; exact Bool.eq_false_iff.1 ht)]
  simp only [addr, seq]
  refine ⟨?_, fun j => ?_⟩
  · rw [rest]
    simp [Module.setTile, Module.setTileAt]
  · by_cases hj : j = u
    · subst hj
      rw [Module.tile_setTile_self, Function.update_self, tile, Function.update_self]
      unfold Module.sentTile Tile.notedIf
      split <;> rfl
    · rw [Module.tile_setTile_ne _ hj, Function.update_of_ne hj]
      exact (tile j).trans (Function.update_of_ne hj ..)

end Sends
end Packet

section Untwinned

variable (ht : m.isTwin u = false) (hn : m.twinned ten.val = false)
include ht hn

/-- A packet sent over the edge of the cluster is discarded (R40). -/
theorem Module.sendPacket_edge (hp : port ≠ 4) (hv : neighbour u port = none) :
    m.sendPacket ten u port dest vc kind bs = m.dropEdge ten.val u.cl.val := by
  unfold Module.sendPacket Module.noteTile
  simp [hn, ht, hp, hv]

/-- A packet sent to an unassigned logical cluster is discarded (R41). -/
theorem Module.sendPacket_unassigned (hv : m.tileAddr ten dest = none) :
    m.sendPacket ten u 4 dest vc kind bs = m.dropAddress ten.val u.cl.val := by
  unfold Module.sendPacket Module.noteTile
  simp [hn, ht, hv]

end Untwinned

/-! ### What the tiles of a list send, one after another -/

/-- Packets that join the Deck after others. -/
theorem Module.Posted.trans {m1 m2 : Module} {n1 n2 : ℕ} {k1 k2 : List DeckPkt} {g1 g2 : TileId → Tile}
    (h1 : m.Posted m1 n1 k1 g1) (h2 : m1.Posted m2 n2 k2 g2) : m.Posted m2 (n1 + n2) (k1 ++ k2) g2 := by
  refine ⟨?_, h2.tiles⟩
  rw [h2.rest, h1.deck, h1.deckSeq, h1.rest]
  simp [Nat.add_assoc]

/-- Where each tile in its turn posts its packet under the next number, the tile at position `i` does so under the number `c * i`
after the first; `c` is 0 where nothing is counted. -/
theorem Module.foldl_posted {f : Module → TileId → Module} {c : ℕ} {put : TileId → ℕ → Tile → Tile}
    {pkt : TileId → ℕ → Option DeckPkt} {us : List TileId} (hn : us.Nodup)
    (hf : ∀ m', m.DeckOnly m' → ∀ u ∈ us, m'.tile u = m.tile u →
      m'.Posted (f m' u) c (pkt u m'.deckSeq).toList (Function.update m'.tile u (put u m'.deckSeq (m'.tile u)))) :
    m.Posted (us.foldl f m) (c * us.length) (us.filterMap fun u => pkt u (m.deckSeq + c * us.idxOf u))
      (fun v => if v ∈ us then put v (m.deckSeq + c * us.idxOf v) (m.tile v) else m.tile v) := by
  induction us generalizing m with
  | nil => exact ⟨by simp, fun _ => rfl⟩
  | cons a us ih =>
    obtain ⟨ha, hn⟩ := List.nodup_cons.1 hn
    have head := hf m rfl a List.mem_cons_self rfl
    have ne : ∀ u ∈ us, u ≠ a := fun u hu e => ha (e ▸ hu)
    have turn : ∀ u ∈ us, (f m a).deckSeq + c * us.idxOf u = m.deckSeq + c * (a :: us).idxOf u := by
      intro u hu
      rw [head.deckSeq, List.idxOf_cons_ne _ (ne u hu).symm, Nat.mul_succ]
      omega
    have tail := ih hn fun m' hm' u hu e => hf m' (head.deckOnly.trans hm') u (List.mem_cons_of_mem _ hu)
      (e.trans ((head.tiles u).trans (Function.update_of_ne (ne u hu) ..)))
    have both := head.trans tail
    refine ⟨?_, fun v => ?_⟩
    · rw [List.filterMap_congr fun u hu => by rw [turn u hu]] at both
      have pkts : (pkt a m.deckSeq).toList ++ us.filterMap (fun u => pkt u (m.deckSeq + c * (a :: us).idxOf u))
          = (a :: us).filterMap fun u => pkt u (m.deckSeq + c * (a :: us).idxOf u) := by
        rw [List.filterMap_cons, List.idxOf_cons_self, Nat.mul_zero, Nat.add_zero]
        cases pkt a m.deckSeq <;> rfl
      rw [← pkts, List.length_cons, Nat.mul_succ, Nat.add_comm (c * us.length)]
      exact both.rest
    · rw [List.foldl_cons, tail.tiles v, head.tiles v]
      by_cases hv : v = a
      · subst hv
        rw [if_neg ha, if_pos List.mem_cons_self, Function.update_self, List.idxOf_cons_self, Nat.mul_zero, Nat.add_zero]
      · rw [Function.update_of_ne hv]
        by_cases hu : v ∈ us
        · rw [if_pos hu, if_pos (List.mem_cons_of_mem _ hu), turn v hu]
        · rw [if_neg hu, if_neg (by simp [hv, hu])]

/-! ### The turns of a sending instruction (R103) -/

section Turns

variable {op : Byte} {payload : Tile → Option (List Byte)}

/-- The turn of a tile: it sends its payload, if it has one, to where `m0` has it. -/
def Module.sendTurn (m0 : Module) (cx : Ctx) (w : Fields) (kind : DeckKind) (payload : Tile → Option (List Byte)) (m : Module)
    (u : TileId) : Module :=
  match payload (m.tile u) with
  | some bs => m.sendPacket cx.r.ten u w.mod.toNat ((m0.tile u).sreg (spec3 w)) (BitVec.ofNat 4 (immBits w 0 4)) kind bs
  | none => m

/-- What the tiles of the span leave, each after its turn. -/
def Module.sendTurns (m : Module) (cx : Ctx) (w : Fields) (kind : DeckKind) (payload : Tile → Option (List Byte)) : Module :=
  (m.spanTiles cx.o).foldl (m.sendTurn cx w kind payload) m

/-- Channel 0 is used where it may not be. -/
theorem Module.sendAll_misuse (h : ∃ u ∈ m.spanTiles cx.o, (payload (m.tile u)).isSome = true
      ∧ m.spanMisuse cx u w.mod.toNat ((m.tile u).sreg (spec3 w)) (immBits w 0 4) = true) :
    m.sendAll cx op w kind payload = .error .spanChannel := by
  unfold Module.sendAll
  exact if_pos (by simpa using h)

section Allowed

variable (allowed : ∀ u ∈ m.spanTiles cx.o, (payload (m.tile u)).isSome = true →
  m.spanMisuse cx u w.mod.toNat ((m.tile u).sreg (spec3 w)) (immBits w 0 4) = false)
include allowed

theorem Module.sendAll_stalls (h : ∃ u ∈ m.spanTiles cx.o, ∃ bs, payload (m.tile u) = some bs
      ∧ 64 < m.sendBuffered u w.mod.toNat + flitsOf bs.length) :
    m.sendAll cx op w kind payload = .ok (m.waitOn cx op w) := by
  unfold Module.sendAll
  obtain ⟨u, hu, bs, hbs, full⟩ := h
  refine (if_neg (by simpa using allowed)).trans (if_pos ?_)
  exact List.any_eq_true.2 ⟨u, hu, by simpa [hbs] using full⟩

theorem Module.sendAll_sends (room : ∀ u ∈ m.spanTiles cx.o, ∀ bs, payload (m.tile u) = some bs →
      m.sendBuffered u w.mod.toNat + flitsOf bs.length ≤ 64) :
    m.sendAll cx op w kind payload = .ok ((m.sendTurns cx w kind payload).retire cx) := by
  unfold Module.sendAll
  refine (if_neg (by simpa using allowed)).trans (if_neg ?_)
  refine Bool.eq_false_iff.1 (List.any_eq_false.2 fun u hu => ?_)
  cases hbs : payload (m.tile u) with
  | none => simp
  | some bs => simpa using room u hu bs hbs

end Allowed

theorem mem_senders : u ∈ senders m cx payload ↔ u ∈ m.spanTiles cx.o ∧ (payload (m.tile u)).isSome = true :=
  List.mem_filter

/-- A tile that has nothing to send leaves the module as it is, so that the turns are those of the senders. -/
theorem Module.sendTurns_senders :
    m.sendTurns cx w kind payload = (senders m cx payload).foldl (m.sendTurn cx w kind payload) m := by
  unfold Module.sendTurns senders
  rw [List.foldl_filter]
  refine foldl_tiles_congr (m.spanTiles_nodup cx.o) (fun m' u _ same => ?_) fun m' u v hv => ?_
  · unfold Module.sendTurn
    rw [same]
    cases payload (m.tile u) <;> rfl
  · split
    · unfold Module.sendTurn
      split
      · exact Module.tile_sendPacket_ne hv
      · rfl
    · rfl

/-- The turn of a sender, at a time when others have had theirs. -/
theorem Module.sendTurn_some (same : m'.tile u = m.tile u) (hbs : payload (m.tile u) = some bs) :
    m.sendTurn cx w kind payload m' u
      = m'.sendPacket cx.r.ten u w.mod.toNat ((m.tile u).sreg (spec3 w)) (BitVec.ofNat 4 (immBits w 0 4)) kind bs := by
  unfold Module.sendTurn
  rw [same, hbs]

/-- What a tile becomes by what its digest takes of its payload. -/
def Module.noted (m : Module) (cx : Ctx) (w : Fields) (payload : Tile → Option (List Byte)) : Tile → Tile :=
  sentNote m cx payload fun x => sendNote w.mod.toNat (immBits w 0 4) (if w.mod.toNat = 4 then x.sreg (spec3 w) else 0)

theorem Module.noted_none (h : payload x = none) : m.noted cx w payload x = x := by
  unfold Module.noted sentNote
  rw [h]

theorem Module.noted_keepsControl : KeepsControl fun _ x => m.noted cx w payload x := by
  intro _ x
  simp only [Module.noted, sentNote]
  split
  · split <;> exact ⟨rfl, rfl⟩
  · exact ⟨rfl, rfl⟩

/-- The digest of a sender takes its payload whenever its turn comes. -/
theorem Module.sentTile_noted (hm : m.DeckOnly m') (same : m'.tile u = m.tile u) (hbs : payload (m.tile u) = some bs) :
    m'.sentTile cx.r.ten u w.mod.toNat ((m.tile u).sreg (spec3 w)) (BitVec.ofNat 4 (immBits w 0 4)) bs
      = m.noted cx w payload (m'.tile u) := by
  have twins : m'.twinned cx.r.ten.val = m.twinned cx.r.ten.val := by rw [hm]; rfl
  have channel : (BitVec.ofNat 4 (immBits w 0 4)).toNat = immBits w 0 4 :=
    (BitVec.toNat_ofNat ..).trans (Nat.mod_eq_of_lt (bitsAt_lt ..))
  unfold Module.sentTile Module.noted sentNote Tile.notedIf
  rw [same, hbs, twins, channel]

/-- The tiles of a span belong to a twin together (R413). -/
theorem Module.isTwin_span (hm : m.DeckOnly m') (hu : u ∈ m.spanTiles cx.o) : m'.isTwin u = m.isTwin cx.o := by
  obtain ⟨cluster, -, -⟩ := (m.mem_spanTiles cx.o u).1 hu
  rw [hm]
  unfold Module.isTwin
  rw [cluster]
  rfl

/-- What a tile puts into its send buffer under the number `q`. -/
def Module.putX (m : Module) (cx : Ctx) (w : Fields) (kind : DeckKind) (payload : Tile → Option (List Byte)) (u : TileId)
    (q : ℕ) (x : Tile) : Tile :=
  match payload x, m.tileAddr cx.r.ten (x.sreg (spec3 w)) with
  | some bs, some v => { m.noted cx w payload x with
      sendX := x.sendX ++ [⟨q, u, v, 4, BitVec.ofNat 4 (immBits w 0 4), kind, cx.r.ten, bs, true⟩] }
  | _, _ => x

/-- What a tile puts on the Deck under the number `q`. -/
def Module.postTo (m : Module) (cx : Ctx) (w : Fields) (kind : DeckKind) (payload : Tile → Option (List Byte)) (u : TileId)
    (q : ℕ) : Option DeckPkt :=
  match payload (m.tile u), neighbour u w.mod.toNat with
  | some bs, some v => some ⟨q, u, v, opposite w.mod.toNat, BitVec.ofNat 4 (immBits w 0 4), kind, cx.r.ten, bs, true⟩
  | _, _ => none

theorem Module.putX_none {q : ℕ} (h : payload x = none) : m.putX cx w kind payload u q x = x := by
  unfold Module.putX
  rw [h]

theorem Module.putX_keepsControl {q : TileId → ℕ} : KeepsControl fun u x => m.putX cx w kind payload u (q u) x := by
  intro u x
  simp only [Module.putX]
  split
  · exact m.noted_keepsControl u x
  · exact ⟨rfl, rfl⟩

theorem Module.onDeck_nil : m.onDeck [] = m := by
  unfold Module.onDeck
  rw [List.append_nil]

theorem senders_nodup : (senders m cx payload).Nodup := (m.spanTiles_nodup cx.o).filter _

/-- A sender is a tile of the span with a payload. -/
theorem payload_of_sender (hu : u ∈ senders m cx payload) : ∃ bs, payload (m.tile u) = some bs :=
  Option.isSome_iff_exists.1 (mem_senders.1 hu).2

theorem payload_of_not_sender (hu : u ∈ m.spanTiles cx.o) (h : u ∉ senders m cx payload) : payload (m.tile u) = none := by
  simpa [mem_senders, hu] using h

section Kind

variable (hk : kind ≠ .flag)
include hk

/-- The turns of the tiles of a twin change digests alone (R413). -/
theorem Module.sendTurns_twin (ht : m.isTwin cx.o = true) :
    m.Posted (m.sendTurns cx w kind payload) 0 []
      (fun v => if v ∈ senders m cx payload then m.noted cx w payload (m.tile v) else m.tile v) := by
  rw [Module.sendTurns_senders]
  have h := Module.foldl_posted (m := m) (f := m.sendTurn cx w kind payload) (c := 0)
    (put := fun _ _ x => m.noted cx w payload x) (pkt := fun _ _ => none)
    (senders_nodup (m := m) (payload := payload) (cx := cx)) ?turn
  · simpa using h
  intro m' hm u hu same
  obtain ⟨bs, hbs⟩ := payload_of_sender hu
  rw [Module.sendTurn_some same hbs, ← Module.sentTile_noted hm same hbs]
  exact Module.sendPacket_twin hk ((Module.isTwin_span hm (mem_senders.1 hu).1).trans ht)

section Sends

variable (ht : m.isTwin cx.o = false)
include ht

/-- The turns of a sending instruction through N, E, S or W, where each sender has a neighbour there (R40). -/
theorem Module.sendTurns_neighbour (hp : w.mod.toNat < 4)
    (hv : ∀ u ∈ senders m cx payload, (neighbour u w.mod.toNat).isSome = true) :
    m.Posted (m.sendTurns cx w kind payload) (senders m cx payload).length
      ((senders m cx payload).filterMap fun u => m.postTo cx w kind payload u (m.deckSeq + (senders m cx payload).idxOf u))
      (fun v => if v ∈ senders m cx payload then m.noted cx w payload (m.tile v) else m.tile v) := by
  rw [Module.sendTurns_senders]
  have h := Module.foldl_posted (m := m) (f := m.sendTurn cx w kind payload) (c := 1)
    (put := fun _ _ x => m.noted cx w payload x) (pkt := m.postTo cx w kind payload)
    (senders_nodup (m := m) (payload := payload) (cx := cx)) ?turn
  · simpa only [Nat.one_mul] using h
  intro m' hm u hu same
  obtain ⟨bs, hbs⟩ := payload_of_sender hu
  obtain ⟨v, hv⟩ := Option.isSome_iff_exists.1 (hv u hu)
  have post := Module.sendPacket_neighbour (ten := cx.r.ten) (dest := (m.tile u).sreg (spec3 w))
    (vc := BitVec.ofNat 4 (immBits w 0 4)) (bs := bs) hk ((Module.isTwin_span hm (mem_senders.1 hu).1).trans ht)
    (by omega) hv
  rw [Module.sendTurn_some same hbs, ← Module.sentTile_noted hm same hbs]
  simpa only [Module.postTo, hbs, hv, Option.toList_some] using post

/-- The turns of a sending instruction through X, where each sender names a tile (R41, R42). -/
theorem Module.sendTurns_address (hp : w.mod.toNat = 4)
    (hv : ∀ u ∈ senders m cx payload, (m.tileAddr cx.r.ten ((m.tile u).sreg (spec3 w))).isSome = true) :
    m.Posted (m.sendTurns cx w kind payload) (senders m cx payload).length []
      (fun v => if v ∈ senders m cx payload
        then m.putX cx w kind payload v (m.deckSeq + (senders m cx payload).idxOf v) (m.tile v) else m.tile v) := by
  rw [Module.sendTurns_senders]
  have h := Module.foldl_posted (m := m) (f := m.sendTurn cx w kind payload) (c := 1)
    (put := m.putX cx w kind payload) (pkt := fun _ _ => none) (senders_nodup (m := m) (payload := payload) (cx := cx)) ?turn
  · simpa only [Nat.one_mul, List.filterMap_none] using h
  intro m' hm u hu same
  obtain ⟨bs, hbs⟩ := payload_of_sender hu
  obtain ⟨v, hv⟩ := Option.isSome_iff_exists.1 (hv u hu)
  have addr : m'.tileAddr cx.r.ten ((m.tile u).sreg (spec3 w)) = some v := by rw [hm]; exact hv
  have post := Module.sendPacket_address (vc := BitVec.ofNat 4 (immBits w 0 4)) (bs := bs) hk
    ((Module.isTwin_span hm (mem_senders.1 hu).1).trans ht) addr
  have noted := Module.sentTile_noted (cx := cx) (w := w) hm same hbs
  rw [hp] at noted
  rw [noted] at post
  rw [Module.sendTurn_some same hbs, hp]
  simpa only [Module.putX, same, hbs, hv, Option.toList_none] using post

end Sends
end Kind

/-- The packets of the senders are posted, and the span moves past its instruction. -/
theorem Module.Posted.did {s : State} {n : ℕ} {ks : List DeckPkt} {put : TileId → Tile → Tile} (hput : KeepsControl put)
    (inside : Inside s.mod cx)
    (h : s.mod.Posted m n ks fun v => if v ∈ senders s.mod cx payload then put v (s.mod.tile v) else s.mod.tile v)
    (none : ∀ u x, payload x = none → put u x = x) :
    SpanDid { s.mod.onDeck ks with deckSeq := s.mod.deckSeq + n } s ⟨(m.retire cx).settle, s.pending⟩ cx put := by
  refine Module.retire_did hput inside h.rest fun u => (h.tiles u).trans ?_
  by_cases hu : u ∈ s.mod.spanTiles cx.o
  · refine Eq.trans ?_ (if_pos hu).symm
    split
    · rfl
    · next hs => exact (none u _ (payload_of_not_sender hu hs)).symm
  · exact (if_neg fun hs => hu (mem_senders.1 hs).1).trans (if_neg hu).symm

/-- The turns of a span of one sender are its one turn. -/
theorem Module.sendTurns_one (hu : m.spanTiles cx.o = [u]) (hs : senders m cx payload = [u]) :
    ∃ bs, m.sendTurns cx w kind payload
      = m.sendPacket cx.r.ten u w.mod.toNat ((m.tile u).sreg (spec3 w)) (BitVec.ofNat 4 (immBits w 0 4)) kind bs := by
  obtain ⟨bs, hbs⟩ := payload_of_sender (m := m) (cx := cx) (payload := payload) (u := u) (by simp [hs])
  refine ⟨bs, ?_⟩
  unfold Module.sendTurns
  rw [hu]
  exact Module.sendTurn_some rfl hbs

/-- The command sends a payload on the channel and port of its word: it halts where these are illegal, and otherwise runs the
body of a sending instruction in a module whose tiles are in order. -/
structure SendOf (c : Instr) (t : TileId) (op : Byte) (w : Fields) (bad : Bool → Option ℕ) (kind : DeckKind)
    (payload : Tile → Option (List Byte)) (ok : Tile → Prop) : Prop where
  halts : ∀ s cx k, Issues s t op w bad cx → streamIllegal cx.sg.prog.skq2 w = some k → Halts c s cx k
  runs : ∀ s cx, Issues s t op w bad cx → streamIllegal cx.sg.prog.skq2 w = none →
    (∀ u ∈ s.mod.spanTiles cx.o, ok (s.mod.tile u)) →
    exec c s = .next ⟨(s.mod.orUndefined cx.r.ten (s.mod.sendAll cx op w kind payload)).settle, s.pending⟩

theorem SendOf.sends {c : Instr} {t : TileId} {bad : Bool → Option ℕ} {ok : Tile → Prop}
    (h : SendOf c t op w bad kind payload ok) (hk : kind ≠ .flag) : Sends c t op w bad kind payload ok := by
  intro s cx hi port vc us sent noted
  refine ⟨fun k illegal => h.halts s cx k hi illegal, fun legal order => ⟨fun misuse => ?misuse, fun allowed =>
    ⟨fun full => ?stalls, fun room inside => ?sends⟩⟩⟩
  all_goals have run := h.runs s cx hi legal order
  case misuse =>
    unfold Yields
    rw [run, Module.sendAll_misuse misuse]
    rfl
  case stalls =>
    rw [run, Module.sendAll_stalls allowed full]
    exact ⟨_, rfl, Module.waitOn_waits⟩
  case sends =>
    rw [Module.sendAll_sends allowed room, Module.orUndefined_ok] at run
    unfold Yields
    rw [run]
    refine ⟨fun twin => ⟨_, rfl, ?twin⟩, fun plain hp hv => ⟨_, rfl, ?neighbour⟩, fun u hu hs plain single hp hv => ?edge,
      fun u hu hs plain single hp hv => ?unassigned, fun plain hp hv => ⟨_, rfl, ?address⟩⟩
    case twin =>
      have did := (Module.sendTurns_twin (w := w) (payload := payload) hk twin).did
        Module.noted_keepsControl inside fun _ _ => Module.noted_none
      rw [Module.onDeck_nil] at did
      exact did
    case neighbour =>
      exact (Module.sendTurns_neighbour hk plain hp hv).did Module.noted_keepsControl inside fun _ _ => Module.noted_none
    case edge =>
      obtain ⟨bs, turn⟩ := Module.sendTurns_one (w := w) (kind := kind) hu hs
      rw [turn, Module.sendPacket_edge plain single (by omega) hv]
    case unassigned =>
      obtain ⟨bs, turn⟩ := Module.sendTurns_one (w := w) (kind := kind) hu hs
      rw [turn, show w.mod.toNat = 4 from hp, Module.sendPacket_unassigned plain single hv]
    case address =>
      have did := (Module.sendTurns_address hk plain hp hv).did (put := fun u x => s.mod.putX cx w kind payload u _ x)
        Module.putX_keepsControl inside fun _ _ => Module.putX_none
      rw [Module.onDeck_nil] at did
      exact did

end Turns

/-! ### SEND, SENDV and MARK -/

/-- A tile instruction that checks its port and channel, and whose body is then that of a sending instruction. -/
theorem SendOf.of_body {c : Instr} {t : TileId} {op : Byte} {form : Form} {payload : Tile → Option (List Byte)}
    {ok : Tile → Prop} {body : Ctx → Module → Except Misuse Module}
    (hexec : ∀ s, exec c s = s.tileOp t op w form fun cx m =>
      match streamIllegal cx.sg.prog.skq2 w with
      | some k => .ok (m.haltTile cx.o k)
      | none => body cx m)
    (hbody : ∀ m cx, (∀ u ∈ m.spanTiles cx.o, ok (m.tile u)) → body cx m = m.sendAll cx op w kind payload) :
    SendOf c t op w (form.bad w) kind payload ok := by
  constructor
  case halts =>
    intro s cx k hi illegal
    unfold Halts
    rw [hexec, State.tileOp_issues rfl hi]
    simp only [illegal, Module.orUndefined_ok]
  case runs =>
    intro s cx hi legal order
    rw [hexec, State.tileOp_issues rfl hi]
    simp only [legal, hbody s.mod cx order]

section Instructions

variable (t : TileId) (w : Fields)

/-- What SEND sends of a tile: its range, where that is not empty. -/
def sendPayload (w : Fields) (x : Tile) : Option (List Byte) :=
  if (x.sendRange w).2 = 0 then none else some (Mem.bytes x.bay (x.sendRange w).1 (x.sendRange w).2)

/-- The misuse cases of SEND in a tile: a length above 4,096 bytes, a range that passes the end of the bay. -/
def sendFault (w : Fields) (x : Tile) : Option Misuse :=
  if 4096 < (x.sreg w.b.toNat).toNat then some .lengthRange
  else if 0x10000 < (x.sendRange w).1 + (x.sendRange w).2 then some .bayRange
  else none

/-- The body of SEND: a fault of any tile is the span's. -/
def Module.sendBody (w : Fields) (cx : Ctx) (m : Module) : Except Misuse Module :=
  match (m.spanTiles cx.o).findSome? fun u => sendFault w (m.tile u) with
  | some f => .error f
  | none => m.sendAll cx 0x30 w .data (sendPayload w)

theorem send_sendOf : SendOf (.send t w) t 0x30 w ((sendForm formSend w).bad w) .data (sendPayload w)
    fun x => (x.sreg w.b.toNat).toNat ≤ 4096 ∧ (x.sendRange w).1 + (x.sendRange w).2 ≤ 0x10000 := by
  refine .of_body (body := Module.sendBody w) (fun _ => rfl) fun m cx fits => ?_
  have sound : (m.spanTiles cx.o).findSome? (fun u => sendFault w (m.tile u)) = none := by
    refine List.findSome?_eq_none_iff.2 fun u hu => ?_
    obtain ⟨len, range⟩ := fits u hu
    exact (if_neg (Nat.not_lt.2 len)).trans (if_neg (Nat.not_lt.2 range))
  unfold Module.sendBody
  rw [sound]

theorem sendv_sendOf : SendOf (.sendv t w) t 0x31 w ((sendForm formSendv w).bad w) .data (fun x => some (x.vecBytes w.b.toNat))
    fun _ => True :=
  .of_body (body := fun cx m => m.sendAll cx 0x31 w .data _) (fun _ => rfl) fun _ _ _ => rfl

theorem mark_sendOf : SendOf (.mark t w) t 0x34 w ((sendForm formMark w).bad w) (markKind w)
    (fun x => x.marker.map fun k => markerBytes k.version.toNat k.step.toNat ((x.sreg w.b.toNat).toNat % 65536)) fun _ => True :=
  .of_body (body := fun cx m => m.sendAll cx 0x34 w (markKind w) _) (fun _ => rfl) fun _ _ _ => rfl

theorem markKind_ne_flag : markKind w ≠ .flag := by
  unfold markKind
  split <;> decide

/-- Settles O18: the turns of the tiles that have something to send, each in the module that the turns before it left, which differs
in the Deck, in the count of packets sent and in the tiles that have had their turn. -/
theorem sendingInstructions : Obligations.SendingInstructions := fun t w =>
  ⟨(send_sendOf t w).sends (by decide), (sendv_sendOf t w).sends (by decide), (mark_sendOf t w).sends (markKind_ne_flag w)⟩

end Instructions

end Sys2Proof.Machine
end

