-- ==== Sys2Proof/Proofs/Vectors.lean ====
section
/-! The vector and random instructions, and masked writes of a vector register (O12). -/

namespace Sys2Proof.Machine

/-! ### Writes that leave the control state of a tile -/

theorem Tile.setLanesF_control (x : Tile) (i : ℕ) (mask : Word) (f : ℕ → Word × AFlags) :
    (x.setLanesF i mask f).pc = x.pc ∧ (x.setLanesF i mask f).loops = x.loops := by
  unfold Tile.setLanesF
  rw [Tile.flag_pc, Tile.flag_loops]
  exact x.setLanes_control ..

theorem Tile.setS_control (x : Tile) (i : ℕ) (v : Word) : (x.setS i v).pc = x.pc ∧ (x.setS i v).loops = x.loops :=
  ⟨x.setS_pc i v, x.setS_loops i v⟩

theorem Tile.setP_control (x : Tile) (i : ℕ) (v : Word) : (x.setP i v).pc = x.pc ∧ (x.setP i v).loops = x.loops :=
  ⟨x.setP_pc i v, x.setP_loops i v⟩

/-! ### Instructions that change each tile of their span -/

/-- An instruction whose body changes each tile, and leaves its control state, computes that change. -/
theorem computes_of_each {c : Instr} {t : TileId} {op : Byte} {w : Fields} {bad : Bool → Option ℕ}
    {f : Module → Ctx → TileId → Tile → Tile}
    (hc : ∀ s, exec c s = s.tileOpBy t op w bad fun cx m => .ok (m.each cx (f m cx)))
    (hk : ∀ m cx, KeepsControl (f m cx)) : Computes c t op w bad f := by
  intro s cx issues inside
  rw [hc]
  exact State.tileOpBy_did issues inside rfl (hk s.mod cx)

theorem vectorInstructions : VectorInstructions := by
  intro t w
  refine ⟨?vfop, ?vfma, ?viop, ?vfun, ?vcmp, ?vsel, ?vcvt, ?pack8, ?vred, ?vsplat, ?vget, ?vput, ?vperm, ?viota, ?rnu, ?rnb⟩
  case vfop => exact computes_of_each (fun _ => rfl) fun _ _ _ _ => Tile.setLanesF_control ..
  case vfma => exact computes_of_each (fun _ => rfl) fun _ _ _ _ => Tile.setLanesF_control ..
  case viop => exact computes_of_each (fun _ => rfl) fun _ _ _ _ => Tile.setLanes_control ..
  case vfun => exact computes_of_each (fun _ => rfl) fun _ _ _ _ => Tile.setLanesF_control ..
  case vcmp => exact computes_of_each (fun _ => rfl) fun _ _ _ _ => Tile.setP_control ..
  case vsel => exact computes_of_each (fun _ => rfl) fun _ _ _ _ => Tile.setLanes_control ..
  case vcvt =>
    refine fun other => computes_of_each (fun s => ?_) fun _ _ _ _ => Tile.setLanesF_control ..
    exact (show _ = execVcvt t w s from rfl).trans (by simp only [execVcvt, if_neg other])
  case pack8 =>
    refine fun pack => computes_of_each (fun s => ?_) fun _ _ _ _ => Tile.setLanesF_control ..
    exact (show _ = execVcvt t w s from rfl).trans (by simp only [execVcvt, if_pos pack])
  case vred => exact computes_of_each (fun _ => rfl) fun _ _ _ _ => Tile.setS_control ..
  case vsplat => exact computes_of_each (fun _ => rfl) fun _ _ _ _ => Tile.setLanes_control ..
  case vget => exact computes_of_each (fun _ => rfl) fun _ _ _ _ => Tile.setS_control ..
  case vput => exact computes_of_each (fun _ => rfl) fun _ _ _ _ => ⟨rfl, rfl⟩
  case vperm => exact computes_of_each (fun _ => rfl) fun _ _ _ _ => Tile.setLanes_control ..
  case viota => exact computes_of_each (fun _ => rfl) fun _ _ _ _ => Tile.setLanes_control ..
  case rnu => exact computes_of_each (fun _ => rfl) fun _ _ _ _ => Tile.setLanes_control ..
  case rnb =>
    refine computes_of_each (fun _ => rfl) fun _ _ _ _ => ?_
    split
    · exact Tile.setP_control ..
    · exact Tile.setLanes_control ..

/-- Settles O12: each instruction changes every tile of its span by its own lane function, and a masked write is a fold over the
lanes, each written once. -/
theorem vectorArithmetic : Obligations.VectorArithmetic :=
  ⟨vectorInstructions, fun x r mask f r' l hl => x.lane_setLanes r mask f r' l hl⟩

end Sys2Proof.Machine
end

