-- ==== Sys2Proof/Proofs/Drains.lean ====
section
/-! QSCAN, QCVT and ADRAIN: scales, quantised rows and narrowed home blocks (O15). -/

namespace Sys2Proof.Machine

variable {t : TileId} {w : Fields} {s s' : State} {cx : Ctx} {x y : Tile} {f : Fmt} {i n : ℕ}

/-! ### Folds none of whose rounds faults -/

theorem foldlM_ok {ε α β : Type} {f : β → α → Except ε β} {g : β → α → β} {l : List α} (h : ∀ b, ∀ a ∈ l, f b a = .ok (g b a))
    (b : β) : l.foldlM f b = .ok (l.foldl g b) := by
  induction l generalizing b with
  | nil => rfl
  | cons a l ih =>
    rw [List.foldlM_cons, h b a (List.mem_cons_self ..)]
    exact ih (fun b a ha => h b a (List.mem_cons_of_mem _ ha)) (g b a)

theorem mapM_ok {ε α β : Type} {f : α → Except ε β} {g : α → β} {l : List α} (h : ∀ a ∈ l, f a = .ok (g a)) :
    l.mapM f = .ok (l.map g) := by
  induction l with
  | nil => rfl
  | cons a l ih =>
    rw [List.mapM_cons, h a (List.mem_cons_self ..), ih fun a ha => h a (List.mem_cons_of_mem _ ha)]
    rfl

theorem bind_of_ok {ε α β : Type} {e : Except ε α} {a : α} (h : e = .ok a) (k : α → Except ε β) : (e >>= k) = k a := by
  rw [h]
  rfl

/-! ### Spans whose tiles are read as the next state has them -/

theorem SpanDid.congr {base : Module} {f g : TileId → Tile → Tile} (h : SpanDid base s s' cx f)
    (e : ∀ u ∈ base.spanTiles cx.o, f u (base.tile u) = g u (base.tile u)) : SpanDid base s s' cx g := by
  obtain ⟨pending, rest, tiles⟩ := h
  refine ⟨pending, rest, fun u => (tiles u).trans ?_⟩
  split
  · next hu => rw [e u hu]
  · rfl

theorem SpanDid.tile_eq {base : Module} {f : TileId → Tile → Tile} (h : SpanDid base s s' cx f) {u : TileId}
    (hu : u ∈ base.spanTiles cx.o) : s'.mod.tile u = (f u (base.tile u)).moveOn (base.tile cx.o) :=
  (h.tiles u).trans (if_pos hu)

/-- A word whose opcode has no other row is that of its form. -/
theorem State.tileOp_eq {op : Byte} {form : Form} {body : Ctx → Module → Except Misuse Module} :
    s.tileOp t op w form body = s.tileOpBy t op w (form.bad w) body := rfl

/-- A body that changes each tile of the span, none of which faults. -/
theorem State.eachE_did {op : Byte} {bad : Bool → Option ℕ} {body : Ctx → Module → Except Misuse Module}
    {f : Tile → Except Misuse Tile} {g : Tile → Tile} (issues : Issues s t op w bad cx) (inside : Inside s.mod cx)
    (hb : body cx s.mod = s.mod.eachE cx fun _ => f) (hk : KeepsControl fun _ => g)
    (sound : ∀ u ∈ s.mod.spanTiles cx.o, f (s.mod.tile u) = .ok (g (s.mod.tile u))) :
    ∃ s', s.tileOpBy t op w bad body = .next s' ∧ SpanDid s.mod s s' cx fun _ => g :=
  State.tileOpBy_did issues inside (hb.trans (Module.eachE_ok sound)) hk

/-! ### Rows of FP32 elements (R67, R123) -/

theorem Mem.drop_bytes (m : Mem) (a n k : ℕ) : (Mem.bytes m a n).drop k = Mem.bytes m (a + k) (n - k) := by
  induction k generalizing a n with
  | zero => rfl
  | succ k ih =>
    cases n with
    | zero => simp [Mem.bytes]
    | succ n => rw [Mem.bytes, List.drop_succ_cons, ih, Nat.add_right_comm, Nat.add_assoc, Nat.add_sub_add_right]

theorem Mem.take_bytes (m : Mem) (a : ℕ) {n k : ℕ} (h : k ≤ n) : (Mem.bytes m a n).take k = Mem.bytes m a k := by
  induction k generalizing a n with
  | zero => rfl
  | succ k ih =>
    obtain ⟨n, rfl⟩ := Nat.exists_eq_add_of_le' h
    rw [← Nat.add_assoc, Mem.bytes, List.take_succ_cons, ih _ (Nat.le_add_left k n), Mem.bytes]

theorem Mem.fieldAt_bytes (m : Mem) (a : ℕ) {n o k : ℕ} (h : o + k ≤ n) :
    fieldAt (Mem.bytes m a n) o k = Mem.read m (a + o) k := by
  unfold fieldAt Mem.read
  rw [Mem.drop_bytes, Mem.take_bytes _ _ (by omega)]

/-- The FP32 elements of a row that lies in the bay. -/
def Tile.rowElems (x : Tile) (w : Fields) (i n : ℕ) : List Word :=
  (List.range n).map fun k => BitVec.ofNat 32 (Mem.read x.bay (x.rowAddr w i + 4 * k) 4)

theorem Tile.rowWords_ok (h : x.rowAddr w i + 4 * n ≤ 0x10000) : x.rowWords w i n = .ok (x.rowElems w i n) := by
  unfold Tile.rowWords Tile.bayRead
  rw [if_neg (Nat.not_lt.2 h)]
  refine congrArg Except.ok (List.map_congr_left fun k hk => ?_)
  rw [List.mem_range] at hk
  rw [Mem.fieldAt_bytes _ _ (by omega)]

/-- The entries of a table below `n`, each given its own value in turn. -/
theorem Map.get_foldl_set (f : ℕ → Word) (a : Map Word) {n k : ℕ} (h : k < n) :
    Map.get 0 ((List.range n).foldl (fun a i => Map.set 0 a i (f i)) a) k = f k := by
  induction n with
  | zero => omega
  | succ n ih =>
    rw [List.range_succ, List.foldl_append, List.foldl_cons, List.foldl_nil, Map.get_set]
    split
    · next e => rw [e]
    · next e => exact ih (by omega)

/-- The token scales after a scan: the absolute maximum of each row, from 0 or from the scale before (R67, R123). -/
def Tile.scanned (x : Tile) (w : Fields) : Map Word :=
  (List.range 16).foldl (fun a i => Map.set 0 a i (absMax (if w.mod.toNat = 0 then 0 else Map.get 0 x.ts i)
    (x.rowElems w i (32 * immBits w 16 10)))) x.ts

theorem qscan_scans (issues : Issues s t 0x48 w (fun k => qscanBad k w) cx) (inside : Inside s.mod cx) (scan : w.mod.toNat ≠ 2)
    (rows : ∀ u ∈ s.mod.spanTiles cx.o, ∀ i, i < 16 → (s.mod.tile u).rowAddr w i + 128 * immBits w 16 10 ≤ 0x10000) :
    ∃ s', exec (.qscan t w) s = .next s' ∧ SpanDid s.mod s s' cx fun _ x => { x with ts := x.scanned w } := by
  show ∃ s', execQscan t w s = _ ∧ _
  unfold execQscan
  refine State.eachE_did issues inside (if_neg scan) (fun _ _ => ⟨rfl, rfl⟩) fun u hu => ?_
  have round : ∀ a : Map Word, ∀ i ∈ List.range 16, (do
      let xs ← (s.mod.tile u).rowWords w i (32 * immBits w 16 10)
      return Map.set 0 a i (absMax (if w.mod.toNat = 0 then 0 else Map.get 0 (s.mod.tile u).ts i) xs) : Except Misuse (Map Word))
      = .ok (Map.set 0 a i (absMax (if w.mod.toNat = 0 then 0 else Map.get 0 (s.mod.tile u).ts i)
        ((s.mod.tile u).rowElems w i (32 * immBits w 16 10)))) := by
    intro a i hi
    have := rows u hu i (List.mem_range.1 hi)
    rw [Tile.rowWords_ok (by omega)]
    rfl
  rw [foldlM_ok round]
  rfl

/-! ### Writes of ranges that lie in the bay (R27) -/

/-- The tile after a write of bytes at an address of its bay. -/
def Tile.wrote (x : Tile) (p : ℕ × List Byte) : Tile :=
  { x with bay := Mem.setBytes x.bay p.1 p.2, dirty := markDirty x.dirty p.1 p.2.length }

theorem Tile.bayWrite_ok {p : ℕ × List Byte} (h : p.1 + p.2.length ≤ 0x10000) : x.bayWrite p.1 p.2 = .ok (x.wrote p) :=
  if_neg (Nat.not_lt.2 h)

theorem Tile.foldl_wrote (ps : List (ℕ × List Byte)) : ps.foldl Tile.wrote x =
    { x with bay := ps.foldl (fun b p => Mem.setBytes b p.1 p.2) x.bay
             dirty := ps.foldl (fun d p => markDirty d p.1 p.2.length) x.dirty } := by
  induction ps generalizing x with
  | nil => rfl
  | cons p ps ih => exact ih

theorem Tile.bayWrites_ok {ps : List (ℕ × List Byte)} (h : ∀ p ∈ ps, p.1 + p.2.length ≤ 0x10000) :
    ps.foldlM (fun (y : Tile) p => y.bayWrite p.1 p.2) x = .ok (ps.foldl Tile.wrote x) :=
  foldlM_ok (fun _ p hp => Tile.bayWrite_ok (h p hp)) x

/-- The tile after writes of its bay whose flags join its own. -/
def Tile.stored (x : Tile) (ps : List (ℕ × List Byte)) (fs : AFlags) : Tile := (ps.foldl Tile.wrote x).flag fs

theorem Tile.stored_eq (ps : List (ℕ × List Byte)) (fs : AFlags) : x.stored ps fs =
    { x with bay := (x.stored ps fs).bay, dirty := (x.stored ps fs).dirty, aflags := (x.stored ps fs).aflags } := by
  unfold Tile.stored
  rw [Tile.foldl_wrote]
  rfl

theorem Tile.stored_bay (ps : List (ℕ × List Byte)) (fs : AFlags) :
    (x.stored ps fs).bay = ps.foldl (fun b p => Mem.setBytes b p.1 p.2) x.bay := by
  unfold Tile.stored
  rw [Tile.foldl_wrote]
  rfl

theorem Tile.stored_keepsControl {ps : Tile → List (ℕ × List Byte)} {fs : Tile → AFlags} :
    KeepsControl fun _ x => x.stored (ps x) (fs x) := by
  intro _ x
  simp only [Tile.stored, Tile.foldl_wrote]
  exact ⟨rfl, rfl⟩

/-- A span that stores leaves the bays, the records of what is dirty, and the flags, and nothing else changed. -/
theorem SpanDid.stored {ps : Tile → List (ℕ × List Byte)} {fs : Tile → AFlags}
    (h : SpanDid s.mod s s' cx fun _ x => x.stored (ps x) (fs x)) :
    SpanDid s.mod s s' cx (fun u x => { x with
      bay := (s'.mod.tile u).bay, dirty := (s'.mod.tile u).dirty, aflags := (s'.mod.tile u).aflags })
    ∧ ∀ u ∈ s.mod.spanTiles cx.o, (s'.mod.tile u).bay
      = (ps (s.mod.tile u)).foldl (fun b p => Mem.setBytes b p.1 p.2) (s.mod.tile u).bay := by
  refine ⟨h.congr fun u hu => ?_, fun u hu => ?_⟩
  · rw [h.tile_eq hu]
    exact Tile.stored_eq ..
  · rw [h.tile_eq hu]
    exact Tile.stored_bay _ (fs (s.mod.tile u))

/-! ### Packed elements (R61) -/

theorem length_packBytes (f : Fmt) (vs : List ℕ) : (packBytes f vs).length = vs.length * f.bits / 8 := by
  have sum : ∀ k, (vs.flatMap fun v => leBytes k v).length = vs.length * k := fun k => by
    simp [List.length_flatMap]
  unfold packBytes
  cases f <;> simp [Fmt.bits, sum] <;> omega

/-! ### QCVT (R68, R124) -/

/-- The chunks of a row that lies in the bay, and its flags. -/
def Tile.quantised (x : Tile) (w : Fields) (f : Fmt) (n i : ℕ) : List (ℕ × List Byte) × AFlags :=
  let wd := if immBits w 4 1 = 1 then 32 else 16
  let e := chunkElems f (immBits w 4 1 == 1)
  let qs := (x.rowElems w i n).map (quantise f (Map.get 0 x.ts i))
  ((List.range (n / e)).map (fun k => ((x.sreg (spec3 w)).toNat + 16 * wd * k + wd * i,
    packBytes f (((qs.drop (e * k)).take e).map (·.1)))), joinAll (qs.map (·.2)))

theorem Tile.qcvtRow_ok (h : x.rowAddr w i + 4 * n ≤ 0x10000) : x.qcvtRow w f i n = .ok (x.quantised w f n i) := by
  unfold Tile.qcvtRow
  rw [Tile.rowWords_ok h]
  rfl

/-- The rows of a QCVT word. -/
def Tile.quantisedRows (x : Tile) (w : Fields) (f : Fmt) : List (List (ℕ × List Byte) × AFlags) :=
  (List.range 16).map (x.quantised w f (32 * immBits w 16 10))

theorem quantFmt_bits {k : ℕ} (h : quantFmt k = some f) : f.bits = 8 ∨ f.bits = 4 := by
  unfold quantFmt at h
  split at h <;> cases h <;> decide

/-- The chunks of the rows lie in the range that the destination register names. -/
theorem Tile.quantised_fits {k : ℕ} (hf : quantFmt k = some f) (hi : i < 16) {p : ℕ × List Byte} (hp : p ∈ (x.quantised w f n i).1) :
    p.1 + p.2.length ≤ (x.sreg (spec3 w)).toNat + 16 * n := by
  obtain ⟨j, hj, rfl⟩ := List.mem_map.1 hp
  rw [List.mem_range] at hj
  have elems : chunkElems f (immBits w 4 1 == 1) = (if immBits w 4 1 = 1 then 32 else 16) * 8 / f.bits := by
    simp [chunkElems]
  have wide : (if immBits w 4 1 = 1 then 32 else 16) ≤ chunkElems f (immBits w 4 1 == 1)
      ∧ chunkElems f (immBits w 4 1 == 1) * f.bits / 8 = (if immBits w 4 1 = 1 then 32 else 16) := by
    rw [elems]
    rcases quantFmt_bits hf with h | h <;> rw [h] <;> split <;> decide
  simp only [length_packBytes, List.length_map, List.length_take]
  generalize (if immBits w 4 1 = 1 then 32 else 16) = wd at *
  generalize chunkElems f (immBits w 4 1 == 1) = e at *
  obtain ⟨hw, he⟩ := wide
  have len : ∀ a, min e a * f.bits / 8 ≤ wd := fun a =>
    he ▸ Nat.div_le_div_right (Nat.mul_le_mul_right _ (Nat.min_le_left e a))
  have slot : wd * (j + 1) ≤ n := calc
    wd * (j + 1) ≤ e * (n / e) := Nat.mul_le_mul hw hj
    _ ≤ n := Nat.mul_div_le n e
  have row : wd * (i + 1) ≤ wd * 16 := Nat.mul_le_mul_left _ hi
  have := len ((List.map (quantise f (Map.get 0 x.ts i)) (x.rowElems w i n)).drop (e * j)).length
  rw [Nat.mul_assoc]
  rw [Nat.mul_add_one] at slot row
  omega

theorem qcvt_stores (hf : quantFmt (immBits w 0 4) = some f) (issues : Issues s t 0x49 w (fun k => qcvtBad k w) cx)
    (inside : Inside s.mod cx)
    (rows : ∀ u ∈ s.mod.spanTiles cx.o, ∀ i, i < 16 → (s.mod.tile u).rowAddr w i + 128 * immBits w 16 10 ≤ 0x10000)
    (dest : ∀ u ∈ s.mod.spanTiles cx.o, ((s.mod.tile u).sreg (spec3 w)).toNat + 512 * immBits w 16 10 ≤ 0x10000) :
    ∃ s', exec (.qcvt t w) s = .next s' ∧ SpanDid s.mod s s' cx fun _ x =>
      x.stored ((x.quantisedRows w f).flatMap (·.1)) (joinAll ((x.quantisedRows w f).map (·.2))) := by
  show ∃ s', execQcvt t w s = _ ∧ _
  unfold execQcvt
  refine State.eachE_did issues inside (by simp only [hf]; rfl) Tile.stored_keepsControl fun u hu => ?_
  have quantises : ∀ i ∈ List.range 16, (s.mod.tile u).qcvtRow w f i (32 * immBits w 16 10)
      = .ok ((s.mod.tile u).quantised w f (32 * immBits w 16 10) i) := fun i hi => by
    have := rows u hu i (List.mem_range.1 hi)
    exact Tile.qcvtRow_ok (by omega)
  have fits : ∀ p ∈ ((s.mod.tile u).quantisedRows w f).flatMap (·.1), p.1 + p.2.length ≤ 0x10000 := fun p hp => by
    obtain ⟨r, hr, hp⟩ := List.mem_flatMap.1 hp
    obtain ⟨i, hi, rfl⟩ := List.mem_map.1 hr
    have := Tile.quantised_fits hf (List.mem_range.1 hi) hp
    have := dest u hu
    omega
  exact (bind_of_ok (mapM_ok quantises) _).trans (bind_of_ok (Tile.bayWrites_ok fits) _)

/-! ### ADRAIN (R69, R125) -/

/-- The elements of a row of the home block, narrowed. -/
def Tile.drainRow (x : Tile) (w : Fields) (f : Fmt) (i : ℕ) : List (ℕ × AFlags) :=
  (List.range 16).map (x.drainElem (w.mod.getLsbD 0) (immBits w 4 1 == 1) f i)

/-- The rows that ADRAIN writes, each at its address. -/
def Tile.drained (x : Tile) (w : Fields) (f : Fmt) : List (ℕ × List Byte) :=
  (List.range 16).map fun i => (x.rowAddr w i, packBytes f ((x.drainRow w f i).map (·.1)))

theorem Tile.drained_fits (rows : ∀ i, i < 16 → x.rowAddr w i + 2 * f.bits ≤ 0x10000) {p : ℕ × List Byte} (hp : p ∈ x.drained w f) :
    p.1 + p.2.length ≤ 0x10000 := by
  obtain ⟨i, hi, rfl⟩ := List.mem_map.1 hp
  have := rows i (List.mem_range.1 hi)
  simp only [length_packBytes, Tile.drainRow, List.length_map, List.length_range]
  omega

theorem adrain_stores (hf : drainFmt (immBits w 0 4) (immBits w 4 1 == 1) = some f) (issues : Issues s t 0x4B w (formAdrain.bad w) cx)
    (inside : Inside s.mod cx)
    (rows : ∀ u ∈ s.mod.spanTiles cx.o, ∀ i, i < 16 → (s.mod.tile u).rowAddr w i + 2 * f.bits ≤ 0x10000) :
    ∃ s', exec (.adrain t w) s = .next s' ∧ SpanDid s.mod s s' cx fun _ x =>
      x.stored (x.drained w f) (joinAll (((List.range 16).map (x.drainRow w f)).flatMap fun r => r.map (·.2))) := by
  show ∃ s', execAdrain t w s = _ ∧ _
  unfold execAdrain
  rw [State.tileOp_eq]
  refine State.eachE_did issues inside (by simp only [hf]; rfl) Tile.stored_keepsControl fun u hu => ?_
  have writes : (List.range 16).foldlM (fun (y : Tile) i => y.bayWrite ((s.mod.tile u).rowAddr w i)
      (packBytes f ((((List.range 16).map ((s.mod.tile u).drainRow w f)).getD i []).map (·.1)))) (s.mod.tile u)
      = .ok (((s.mod.tile u).drained w f).foldl Tile.wrote (s.mod.tile u)) := by
    rw [Tile.drained, List.foldl_map]
    refine foldlM_ok (fun y i hi => ?_) _
    rw [List.mem_range] at hi
    rw [List.getD_eq_getElem _ _ (by simpa using hi), List.getElem_map, List.getElem_range]
    exact Tile.bayWrite_ok (p := (_, _)) (Tile.drained_fits (rows u hu) (List.mem_map.2 ⟨i, List.mem_range.2 hi, rfl⟩))
  exact bind_of_ok writes _

/-- Settles O15: every tile of the span scans, quantises or drains by its own registers, in ranges of its bay, so that none faults. -/
theorem quantiseAndDrain : Obligations.QuantiseAndDrain := by
  intro t w s cx inside
  refine ⟨?finish, ?scan, ?qcvt, ?adrain⟩
  case finish =>
    intro issues finish
    show ∃ s', execQscan t w s = _ ∧ _
    unfold execQscan
    exact State.tileOpBy_did issues inside (if_pos finish) fun _ _ => ⟨rfl, rfl⟩
  case scan =>
    intro issues scan rows
    obtain ⟨s', next, did⟩ := qscan_scans issues inside scan rows
    refine ⟨s', next, did.congr fun u hu => ?_, fun u hu i hi => ?_⟩
    · rw [did.tile_eq hu]
      rfl
    · rw [did.tile_eq hu]
      exact Map.get_foldl_set _ _ hi
  case qcvt =>
    intro f hf issues rows dest
    obtain ⟨s', next, did⟩ := qcvt_stores hf issues inside rows dest
    obtain ⟨kept, bays⟩ := did.stored
    refine ⟨s', next, kept, fun u hu => (bays u hu).trans ?_⟩
    rw [Tile.quantisedRows, List.flatMap_map]
    refine congrArg (List.foldl _ _) (List.flatMap_congr fun i hi => ?_)
    have := rows u hu i (List.mem_range.1 hi)
    rw [Tile.qcvtRow_ok (by omega)]
  case adrain =>
    intro f hf issues rows
    obtain ⟨s', next, did⟩ := adrain_stores hf issues inside rows
    obtain ⟨kept, bays⟩ := did.stored
    refine ⟨s', next, kept, fun u hu => (bays u hu).trans ?_⟩
    rw [Tile.drained, List.foldl_map]
    simp only [Tile.drainRow, List.map_map]
    rfl

end Sys2Proof.Machine
end

