-- ==== Sys2Proof/Proofs/MatrixMultiply.lean ====
section
/-! MMA: the home blocks of a span, and the partial sums that pass down its columns (O14). -/

namespace Sys2Proof.Machine

variable {m m' : Module} {t u : TileId} {w : Fields} {s : State} {cx : Ctx} {q : Mma} {i j : ℕ}

/-! ### The tiles of a span by row and column (R32) -/

/-- The tile of a row and a column of the span. -/
def Ctx.cell (cx : Ctx) (i j : ℕ) : TileId := ⟨cx.o.cl, Fin.ofNat 16 (cx.o.row.val + i), Fin.ofNat 16 (cx.o.col.val + j)⟩

/-- Rows and columns up to the side of the span stay inside the cluster. -/
structure SpanFits (m : Module) (cx : Ctx) : Prop where
  origin : m.origin cx.o = cx.o
  row : ∀ i, i < m.spanSide cx.o.cl.val → cx.o.row.val + i < 16
  col : ∀ j, j < m.spanSide cx.o.cl.val → cx.o.col.val + j < 16

theorem Module.origin_row (m : Module) (t : TileId) : (m.origin t).row.val = t.row.val / m.spanSide t.cl.val * m.spanSide t.cl.val :=
  Nat.mod_eq_of_lt (Nat.lt_of_le_of_lt (Nat.div_mul_le_self ..) t.row.isLt)

theorem Module.origin_col (m : Module) (t : TileId) : (m.origin t).col.val = t.col.val / m.spanSide t.cl.val * m.spanSide t.cl.val :=
  Nat.mod_eq_of_lt (Nat.lt_of_le_of_lt (Nat.div_mul_le_self ..) t.col.isLt)

theorem Module.spanFits_origin {m : Module} {t : TileId} (h : cx.o = m.origin t) : SpanFits m cx := by
  have cl : cx.o.cl = t.cl := by rw [h]; rfl
  have pos : 0 < m.spanSide t.cl.val := by rcases m.spanSide_cases t.cl.val with h | h | h | h | h <;> omega
  refine ⟨?_, fun i hi => ?_, fun j hj => ?_⟩
  · have row : (m.origin cx.o).row = cx.o.row := Fin.ext (by
      rw [Module.origin_row, cl, h, Module.origin_row, Nat.mul_div_cancel _ pos])
    have col : (m.origin cx.o).col = cx.o.col := Fin.ext (by
      rw [Module.origin_col, cl, h, Module.origin_col, Nat.mul_div_cancel _ pos])
    rw [show m.origin cx.o = ⟨cx.o.cl, (m.origin cx.o).row, (m.origin cx.o).col⟩ from rfl, row, col]
  · rw [cl] at hi
    rw [h, Module.origin_row]
    exact m.span_bound _ _ i t.row.isLt hi
  · rw [cl] at hj
    rw [h, Module.origin_col]
    exact m.span_bound _ _ j t.col.isLt hj

theorem SpanFits.cell_row (fits : SpanFits m cx) (hi : i < m.spanSide cx.o.cl.val) : (cx.cell i j).row.val = cx.o.row.val + i :=
  Nat.mod_eq_of_lt (fits.row i hi)

theorem SpanFits.cell_inj (fits : SpanFits m cx) {i' j' : ℕ} (hi : i < m.spanSide cx.o.cl.val) (hi' : i' < m.spanSide cx.o.cl.val)
    (hj : j < m.spanSide cx.o.cl.val) (hj' : j' < m.spanSide cx.o.cl.val) (h : cx.cell i j = cx.cell i' j') : i = i' ∧ j = j' := by
  have hr := congrArg (fun t => t.row.val) h
  have hc := congrArg (fun t => t.col.val) h
  simp only [Ctx.cell, Fin.val_ofNat, Nat.mod_eq_of_lt (fits.row _ hi), Nat.mod_eq_of_lt (fits.row _ hi'),
    Nat.mod_eq_of_lt (fits.col _ hj), Nat.mod_eq_of_lt (fits.col _ hj')] at hr hc
  omega

theorem SpanFits.mem_span (fits : SpanFits m cx) : u ∈ m.spanTiles cx.o ↔
    ∃ i < m.spanSide cx.o.cl.val, ∃ j < m.spanSide cx.o.cl.val, cx.cell i j = u := by
  unfold Module.spanTiles
  simp only [fits.origin, List.mem_flatMap, List.mem_map, List.mem_range]
  rfl

/-- A column of the span, from its first row down. -/
def Module.spanColumn (m : Module) (cx : Ctx) (j : ℕ) : List TileId := (List.range (m.spanSide cx.o.cl.val)).map fun i => cx.cell i j

theorem Module.spanColumns_eq : m.spanColumns cx = (List.range (m.spanSide cx.o.cl.val)).map (m.spanColumn cx) := rfl

theorem Module.columnOf_cell : columnOf m cx (cx.cell i j) = (m.spanColumn cx j).map m.tile := by
  unfold columnOf Module.spanColumn
  rw [List.map_map]
  rfl

theorem SpanFits.column_nodup (fits : SpanFits m cx) (hj : j < m.spanSide cx.o.cl.val) : (m.spanColumn cx j).Nodup :=
  List.Nodup.map_on (fun _ hi _ hi' h => (fits.cell_inj (List.mem_range.1 hi) (List.mem_range.1 hi') hj hj h).1) List.nodup_range

theorem Module.getElem?_spanColumn (hi : i < m.spanSide cx.o.cl.val) : (m.spanColumn cx j)[i]? = some (cx.cell i j) := by
  simp [Module.spanColumn, hi]

theorem Module.mem_spanColumn : u ∈ m.spanColumn cx j ↔ ∃ i < m.spanSide cx.o.cl.val, cx.cell i j = u := by
  simp [Module.spanColumn]

/-! ### What MMA makes of one tile (R114, R120) -/

@[simp] theorem Tile.setBank_pc (x : Tile) (bank float : Bool) (vs : List (ℕ × Word)) : (x.setBank bank float vs).pc = x.pc := by
  unfold Tile.setBank
  split <;> rfl

@[simp] theorem Tile.setBank_loops (x : Tile) (bank float : Bool) (vs : List (ℕ × Word)) :
    (x.setBank bank float vs).loops = x.loops := by
  unfold Tile.setBank
  split <;> rfl

/-- The home blocks of the tiles of a column. -/
def homeBlocks (q : Mma) (w : Fields) (column : List Tile) : List (List (ℕ × Word × List AFlags)) :=
  (List.range column.length).map fun r => homeBlock q w ((column[r]?).getD .reset) r column

/-- The tile with its home block, and the flags that its additions for every home block of the column raise. -/
def Tile.multiplied (x : Tile) (q : Mma) (w : Fields) (column : List Tile) (r : ℕ) : Tile :=
  (x.setBank q.bank (!q.int) ((homeBlock q w ((column[r]?).getD .reset) r column).map fun v => (v.1, v.2.1))).flag
    (joinAll ((homeBlocks q w column).flatMap fun b => b.map fun v => (v.2.2[r]?).getD .none))

/-- What MMA makes of a tile of the span. -/
def Module.mmaTile (m : Module) (cx : Ctx) (q : Mma) (w : Fields) (u : TileId) (x : Tile) : Tile :=
  x.multiplied q w (columnOf m cx u) (u.row.val - cx.o.row.val)

theorem Tile.multiplied_eq {x : Tile} {column : List Tile} {r : ℕ} : x.multiplied q w column r =
    if q.bank then { x with acc1 := (x.multiplied q w column r).acc1, float1 := !q.int, aflags := (x.multiplied q w column r).aflags }
    else { x with acc0 := (x.multiplied q w column r).acc0, float0 := !q.int, aflags := (x.multiplied q w column r).aflags } := by
  have put : ∀ bank float vs fs, (x.setBank bank float vs).flag fs =
      if bank then { x with acc1 := ((x.setBank bank float vs).flag fs).acc1, float1 := float
                            aflags := ((x.setBank bank float vs).flag fs).aflags }
      else { x with acc0 := ((x.setBank bank float vs).flag fs).acc0, float0 := float
                    aflags := ((x.setBank bank float vs).flag fs).aflags } := by
    intro bank float vs fs
    cases bank <;> rfl
  exact put ..

theorem Module.mmaTile_keepsControl : KeepsControl (m.mmaTile cx q w) := fun _ x =>
  ⟨x.setBank_pc .., x.setBank_loops ..⟩

theorem Tile.multiplied_acc {x : Tile} {column : List Tile} {r : ℕ} (hx : column[r]? = some x) (hi : i < 16) (hj : j < 16) :
    (x.multiplied q w column r).acc q.bank i j =
      (passRows q w (16 * r + i) j column (if q.zero then mmaIdentity q.mode q.int else x.acc q.bank i j)).1 := by
  have bank : ∀ bank float vs fs, ((x.setBank bank float vs).flag fs).acc bank i j =
      Map.get 0 (vs.foldl (fun a v => Map.set 0 a v.1 v.2) (if bank then x.acc1 else x.acc0)) (16 * i + j) := by
    intro bank float vs fs
    cases bank <;> rfl
  unfold Tile.multiplied
  rw [bank, hx, Option.getD_some, homeBlock, List.map_map, List.foldl_map]
  refine (Map.get_foldl_set _ _ (by omega)).trans ?_
  simp only [Function.comp_apply, show (16 * i + j) / 16 = i by omega, show (16 * i + j) % 16 = j by omega]

/-! ### The columns of a span, one after the other -/

theorem SpanFits.mmaColumn_eq (fits : SpanFits m cx) : m.mmaColumn q w (m.spanColumn cx j) =
    (m.spanColumn cx j).foldl (fun m' u => m'.setTile u (m.mmaTile cx q w u (m'.tile u))) m := by
  have len : (m.spanColumn cx j).length = m.spanSide cx.o.cl.val := by simp [Module.spanColumn]
  unfold Module.mmaColumn
  rw [len]
  conv_rhs => rw [Module.spanColumn, List.foldl_map]
  refine List.foldl_ext _ _ _ fun m' r hr => ?_
  rw [List.mem_range] at hr
  unfold Module.mmaTile
  rw [Module.getElem?_spanColumn hr, fits.cell_row hr, Nat.add_sub_cancel_left, Module.columnOf_cell, List.getElem?_map,
    List.getElem?_range hr]
  simp only [Tile.multiplied, homeBlocks, List.length_map, len, Option.map_some]

/-- The module differs in its tiles alone. -/
def Module.TilesOnly (m m' : Module) : Prop := m' = { m with tiles := m'.tiles }

theorem Module.TilesOnly.spanSide (h : m.TilesOnly m') (c : ℕ) : m'.spanSide c = m.spanSide c := by
  rw [h]
  rfl

theorem Module.TilesOnly.spanFits (h : m.TilesOnly m') (fits : SpanFits m cx) : SpanFits m' cx := by
  rw [h]
  exact ⟨fits.origin, fits.row, fits.col⟩

theorem Module.TilesOnly.spanColumn (h : m.TilesOnly m') : m'.spanColumn cx j = m.spanColumn cx j := by
  rw [h]
  rfl

theorem Module.TilesOnly.foldl_setTile (h : m.TilesOnly m') (us : List TileId) (f : TileId → Tile → Tile) :
    m.TilesOnly (us.foldl (fun m u => m.setTile u (f u (m.tile u))) m') := by
  unfold Module.TilesOnly at *
  rw [foldl_setTile_rest, h]

/-- A column that is as it was at first is multiplied as it would have been at first, and no other tile changes. -/
theorem SpanFits.tile_mmaColumn (fits : SpanFits m cx) (hj : j < m.spanSide cx.o.cl.val) (h : m.TilesOnly m')
    (same : ∀ u ∈ m.spanColumn cx j, m'.tile u = m.tile u) : m.TilesOnly (m'.mmaColumn q w (m.spanColumn cx j))
    ∧ ∀ u, (m'.mmaColumn q w (m.spanColumn cx j)).tile u
      = if u ∈ m.spanColumn cx j then m.mmaTile cx q w u (m.tile u) else m'.tile u := by
  have eq := (h.spanFits fits).mmaColumn_eq (q := q) (w := w) (j := j)
  rw [h.spanColumn] at eq
  rw [eq]
  refine ⟨h.foldl_setTile _ _, fun u => (foldl_setTile _ (fits.column_nodup hj) _ m' u).trans ?_⟩
  split
  · next hu =>
    rw [same u hu]
    obtain ⟨i, -, rfl⟩ := Module.mem_spanColumn.1 hu
    unfold Module.mmaTile
    rw [Module.columnOf_cell, Module.columnOf_cell, h.spanColumn, List.map_congr_left same]
  · rfl

/-- The columns of a list are multiplied, each from the tiles as they were at first. -/
theorem SpanFits.tile_mmaColumns (fits : SpanFits m cx) {js : List ℕ} (hn : js.Nodup) (hjs : ∀ j ∈ js, j < m.spanSide cx.o.cl.val)
    (h : m.TilesOnly m') (same : ∀ j ∈ js, ∀ u ∈ m.spanColumn cx j, m'.tile u = m.tile u) :
    m.TilesOnly ((js.map (m.spanColumn cx)).foldl (fun m us => m.mmaColumn q w us) m')
    ∧ ∀ u, ((js.map (m.spanColumn cx)).foldl (fun m us => m.mmaColumn q w us) m').tile u
      = if ∃ j ∈ js, u ∈ m.spanColumn cx j then m.mmaTile cx q w u (m.tile u) else m'.tile u := by
  induction js generalizing m' with
  | nil => exact ⟨h, fun u => by simp⟩
  | cons j js ih =>
    obtain ⟨hj, hn⟩ := List.nodup_cons.1 hn
    have hlt := fun k hk => hjs k (List.mem_cons_of_mem j hk)
    obtain ⟨h1, tiles⟩ := fits.tile_mmaColumn (q := q) (w := w) (hjs j (List.mem_cons_self ..)) h (same j (List.mem_cons_self ..))
    have apart : ∀ k ∈ js, ∀ u ∈ m.spanColumn cx k, u ∉ m.spanColumn cx j := by
      intro k hk u hu hu'
      obtain ⟨i, hi, rfl⟩ := Module.mem_spanColumn.1 hu
      obtain ⟨i', hi', e⟩ := Module.mem_spanColumn.1 hu'
      exact hj ((fits.cell_inj hi' hi (hjs j (List.mem_cons_self ..)) (hlt k hk) e).2 ▸ hk)
    obtain ⟨h2, rest⟩ := ih hn hlt h1 fun k hk u hu => by
      rw [tiles, if_neg (apart k hk u hu)]
      exact same k (List.mem_cons_of_mem _ hk) u hu
    refine ⟨h2, fun u => (rest u).trans ?_⟩
    rw [tiles]
    by_cases hu : u ∈ m.spanColumn cx j <;> simp [hu]

/-- Every tile of the span is multiplied, each from the tiles as they were at first. -/
theorem SpanFits.tile_mma (fits : SpanFits m cx) : m.TilesOnly ((m.spanColumns cx).foldl (fun m us => m.mmaColumn q w us) m)
    ∧ ∀ u, ((m.spanColumns cx).foldl (fun m us => m.mmaColumn q w us) m).tile u
      = if u ∈ m.spanTiles cx.o then m.mmaTile cx q w u (m.tile u) else m.tile u := by
  obtain ⟨h, tiles⟩ := fits.tile_mmaColumns (q := q) (w := w) List.nodup_range (fun _ => List.mem_range.1) (m' := m) rfl fun _ _ _ _ => rfl
  refine ⟨h, fun u => (tiles u).trans (if_congr ?_ rfl rfl)⟩
  simp only [fits.mem_span, Module.mem_spanColumn, List.mem_range]
  exact ⟨fun ⟨j, hj, i, hi, e⟩ => ⟨i, hi, j, hj, e⟩, fun ⟨i, hi, j, hj, e⟩ => ⟨j, hj, i, hi, e⟩⟩

/-! ### The instruction -/

theorem Tile.cmpmax_control (x : Tile) : (x.cmpmax q w).pc = x.pc ∧ (x.cmpmax q w).loops = x.loops := by
  unfold Tile.cmpmax
  simp only [Tile.flag_pc, Tile.flag_loops, Tile.setBank_pc, Tile.setBank_loops, and_self]

/-- Settles O14: the columns one after the other, each of which reads and changes its own tiles alone. -/
theorem matrixMultiply : Obligations.MatrixMultiply := by
  intro t w s cx q issues inside formats fits
  have sound : ((s.mod.spanTiles cx.o).any fun u => decide (0x10000 < ((s.mod.tile u).sreg w.a.toNat).toNat
      + if q.mode = 5 then 4096 else 16 * s.mod.spanSide cx.o.cl.val * rowBytes q.tok q.wgt)) = false := by
    simp only [List.any_eq_false, decide_eq_true_eq, Nat.not_lt]
    exact fits
  have runs : exec (.mma t w) s = .next ⟨(if q.mode = 5 then s.mod.each cx fun _ x => x.cmpmax q w
      else ((s.mod.spanColumns cx).foldl (fun m us => m.mmaColumn q w us) s.mod).retire cx).settle, s.pending⟩ := by
    show execMma t w s = _
    unfold execMma
    rw [State.tileOpBy_issues issues]
    simp only [formats, sound, Bool.false_eq_true, if_false]
    split <;> rfl
  rw [runs]
  refine ⟨fun alone => ?_, fun joint => ?_⟩
  · rw [if_pos alone]
    exact ⟨_, rfl, Module.each_did (fun _ x => x.cmpmax_control) inside⟩
  · rw [if_neg joint]
    have span := Module.spanFits_origin (Module.issueCtx_origin issues.issue)
    obtain ⟨rest, tiles⟩ := span.tile_mma (q := q) (w := w)
    have did := Module.retire_did (s := s) Module.mmaTile_keepsControl inside rest tiles
    refine ⟨_, rfl, did.congr fun u hu => ?_, fun u hu i j hi hj => ?_⟩
    · rw [did.tile_eq hu]
      exact Tile.multiplied_eq
    · rw [did.tile_eq hu]
      obtain ⟨i', hi', j', hj', rfl⟩ := span.mem_span.1 hu
      refine Tile.multiplied_acc ?_ hi hj
      rw [span.cell_row hi', Nat.add_sub_cancel_left, Module.columnOf_cell, List.getElem?_map, Module.getElem?_spanColumn hi']
      rfl

end Sys2Proof.Machine
end

