-- ==== Sys2Proof/Proofs/CollectivesKept.lean ====
section
/-! What reads of memory, packets and releases of frames leave of the collectives: their instances and bound slots. -/

namespace Sys2Proof.Machine

variable {m m' : Module}

/-- The instances of collectives and the bound slots of a module. -/
def Module.collectives (m : Module) : List Inst × Map BoundSlot := (m.insts, m.slots)

theorem insts_of_collectives (h : m'.collectives = m.collectives) : m'.insts = m.insts := congrArg Prod.fst h

theorem slot?_of_collectives (h : m'.collectives = m.collectives) (t : Ten) (k : ℕ) : m'.slot? t k = m.slot? t k := by
  unfold Module.slot?
  rw [show m'.slots = m.slots from congrArg Prod.snd h]

/-- A fold whose every round keeps the collectives keeps them. -/
theorem foldl_collectives {α : Type} {f : Module → α → Module} {l : List α} (hf : ∀ m a, (f m a).collectives = m.collectives) :
    (l.foldl f m).collectives = m.collectives :=
  List.foldlRecOn (motive := fun m' => m'.collectives = m.collectives) l f rfl fun m' h a _ => (hf m' a).trans h

theorem EventOnly.collectives {refs : List RegRef} (e : EventOnly m m' refs) : m'.collectives = m.collectives := by
  rw [e.rest]
  rfl

/-! ### Registers, counters and events -/

@[simp] theorem Module.setFld_collectives {f : Field} {i j v : ℕ} : (m.setFld f i j v).collectives = m.collectives := rfl

@[simp] theorem Module.addFld_collectives {f : Field} {i j n : ℕ} : (m.addFld f i j n).collectives = m.collectives := rfl

@[simp] theorem Module.drawn_collectives : m.drawn.collectives = m.collectives := rfl

theorem collectives_ite {c : Prop} [Decidable c] {a b : Module} (ha : a.collectives = m.collectives)
    (hb : b.collectives = m.collectives) : (if c then a else b).collectives = m.collectives := by split <;> assumption

@[simp] theorem Module.count_collectives {ev ten n : ℕ} : (m.count ev ten n).collectives = m.collectives :=
  collectives_ite rfl (foldl_collectives fun _ _ => collectives_ite rfl rfl)

@[simp] theorem Module.bill_collectives {ten : ℕ} {f : Ledger → Ledger} : (m.bill ten f).collectives = m.collectives := by
  unfold Module.bill
  split <;> rfl

@[simp] theorem Module.raise_collectives {k : Kind} {ten loc site : ℕ} : (m.raise k ten loc site).collectives = m.collectives :=
  (EventOnly.raise m k ten loc site).collectives

@[simp] theorem Module.probe_collectives {k : Kind} {ten loc : ℕ} : (m.probe k ten loc).collectives = m.collectives :=
  (EventOnly.probe m k ten loc).collectives

@[simp] theorem Module.violation_collectives {ten : ℕ} {b : Block} : (m.violation ten b).collectives = m.collectives :=
  Module.raise_collectives

/-! ### Reads of translated memory (R247, R261 to R264) -/

@[simp] theorem Module.mapOut_collectives {ch : ℕ} : (m.mapOut ch).collectives = m.collectives :=
  collectives_ite rfl (collectives_ite Module.raise_collectives (collectives_ite rfl Module.raise_collectives))

@[simp] theorem Module.readUnit_collectives {ten u ch : ℕ} : (m.readUnit ten u ch).collectives = m.collectives := by
  refine Eq.trans ?_ (show ((m.probe Kind.MEM_CE ten ch).probe Kind.MEM_UE ten ch).collectives = m.collectives by simp)
  unfold Module.readUnit
  simp only
  generalize (m.probe Kind.MEM_CE ten ch).probe Kind.MEM_UE ten ch = m1
  split
  · rfl
  · exact Module.raise_collectives
  · exact collectives_ite (Module.mapOut_collectives.trans Module.raise_collectives) Module.raise_collectives

@[simp] theorem Module.readEntries_collectives {ten va : ℕ} : (m.readEntries ten va).2.collectives = m.collectives := by
  unfold Module.readEntries
  split
  · rfl
  · exact foldl_collectives fun _ _ => Module.readUnit_collectives

@[simp] theorem Module.fillCache_collectives {b : Block} {ten va : ℕ} {e : Word64} :
    (m.fillCache b ten va e).collectives = m.collectives := by
  unfold Module.fillCache
  split <;> rfl

@[simp] theorem Module.quarantine_collectives {f : ℕ} : (m.quarantine f).collectives = m.collectives := by
  unfold Module.quarantine Module.when
  rw [Module.raise_collectives]
  split <;> rfl

@[simp] theorem Module.recordWalk_collectives {ten va : ℕ} {w : WalkFail} :
    (m.recordWalk ten va w).collectives = m.collectives := by
  unfold Module.recordWalk
  split <;> simp

@[simp] theorem Module.translate_collectives {b : Block} {ten va : ℕ} {write : Bool} :
    (m.translate b ten va write).2.collectives = m.collectives := by
  unfold Module.translate
  grind [Module.drawn_collectives, Module.probe_collectives, Module.count_collectives, Module.readEntries_collectives,
    Module.fillCache_collectives, Module.recordWalk_collectives]

@[simp] theorem Module.translateAll_collectives {b : Block} {ten : ℕ} {write : Bool} {ps : List (ℕ × ℕ)} :
    (m.translateAll b ten write ps).2.collectives = m.collectives := by
  induction ps generalizing m with
  | nil => rfl
  | cons p ps ih =>
    unfold Module.translateAll
    grind [Module.translate_collectives]

@[simp] theorem Module.takeTokens_collectives {ten ch n : ℕ} : (m.takeTokens ten ch n).collectives = m.collectives := by
  unfold Module.takeTokens
  exact Module.count_collectives

@[simp] theorem Module.countDram_collectives {ten a n : ℕ} : (m.countDram ten a n).collectives = m.collectives :=
  collectives_ite Module.bill_collectives (Module.count_collectives.trans
    ((foldl_collectives fun _ _ => Module.takeTokens_collectives).trans Module.bill_collectives))

@[simp] theorem Module.readLoc_collectives {ten : ℕ} {l : Loc × ℕ} : (m.readLoc ten l).2.collectives = m.collectives := by
  unfold Module.readLoc
  grind [foldl_collectives, Module.bill_collectives, Module.addFld_collectives, Module.readUnit_collectives,
    Module.countDram_collectives]

@[simp] theorem Module.readLocs_collectives {ten : ℕ} {ls : List (Loc × ℕ)} :
    (m.readLocs ten ls).2.collectives = m.collectives := by
  induction ls generalizing m with
  | nil => rfl
  | cons l ls ih =>
    unfold Module.readLocs
    grind [Module.readLoc_collectives]

@[simp] theorem Module.pathCheck_collectives {b : Block} {ten : ℕ} : (m.pathCheck b ten).2.collectives = m.collectives := by
  unfold Module.pathCheck
  simp only
  split
  · exact Module.raise_collectives.trans Module.probe_collectives
  · exact Module.probe_collectives

@[simp] theorem Module.countSkew_collectives {ten va n : ℕ} {ls : List (Loc × ℕ)} :
    (m.countSkew ten va n ls).collectives = m.collectives :=
  collectives_ite rfl rfl

@[simp] theorem Module.readVA_collectives {b : Block} {ten va n : ℕ} : (m.readVA b ten va n).2.collectives = m.collectives := by
  unfold Module.readVA
  grind [Module.translateAll_collectives, Module.pathCheck_collectives, Module.readLocs_collectives,
    Module.countSkew_collectives]

/-! ### Reads of the Hold (R258, R260) -/

@[simp] theorem Module.readHoldWord_collectives {ten u : ℕ} : (m.readHoldWord ten u).collectives = m.collectives := by
  refine Eq.trans ?_ (show ((m.probe Kind.HLD_CE ten (u * 8 / bankBytes)).probe Kind.HLD_UE ten
    (u * 8 / bankBytes)).collectives = m.collectives by simp)
  unfold Module.readHoldWord
  simp only
  split
  · rfl
  · exact Module.raise_collectives
  · exact Module.raise_collectives

@[simp] theorem Module.retireBank_collectives {p : ℕ} : (m.retireBank p).collectives = m.collectives := by
  unfold Module.retireBank
  simp only
  split
  · exact Module.raise_collectives
  · split <;> exact Module.raise_collectives

@[simp] theorem Module.checkBank_collectives {p : ℕ} : (m.checkBank p).collectives = m.collectives :=
  collectives_ite Module.retireBank_collectives rfl

@[simp] theorem Module.readHoldLocs_collectives {ten : ℕ} {ps : List (ℕ × ℕ)} :
    (m.readHoldLocs ten ps).2.collectives = m.collectives := by
  induction ps generalizing m with
  | nil => rfl
  | cons p ps ih =>
    have words : ((wordsOf p.1 p.2).foldl (fun m u => m.readHoldWord ten u) m).collectives = m.collectives :=
      foldl_collectives fun _ _ => Module.readHoldWord_collectives
    unfold Module.readHoldLocs
    grind [Module.checkBank_collectives]

@[simp] theorem Module.countHold_collectives {ten n : ℕ} : (m.countHold ten n).collectives = m.collectives :=
  collectives_ite Module.bill_collectives (Module.count_collectives.trans Module.bill_collectives)

@[simp] theorem Module.holdRefuse_collectives {ten h : ℕ} {e : HoldFail} : (m.holdRefuse ten h e).2.collectives = m.collectives := by
  cases e <;> simp [Module.holdRefuse]

@[simp] theorem Module.readHold_collectives {b : Block} {ten h n : ℕ} : (m.readHold b ten h n).2.collectives = m.collectives := by
  unfold Module.readHold
  grind [Module.probe_collectives, Module.holdRefuse_collectives, Module.pathCheck_collectives, Module.readHoldLocs_collectives,
    Module.countHold_collectives]

/-- A read of a source (R324). -/
@[simp] theorem Module.readSrc_collectives {t : Ten} {c : ColSpec} {off n : ℕ} :
    (m.readSrc t c off n).2.collectives = m.collectives := by
  unfold Module.readSrc
  split <;> simp

/-! ### Packets (R301 to R308) -/

@[simp] theorem Module.putFlit_collectives {p : ℕ} {x : OutMsg} : (m.putFlit p x).collectives = m.collectives :=
  collectives_ite (a := m.send _) rfl rfl

theorem Module.emitFlits_collectives {p k : ℕ} {x : TxPkt} : (m.emitFlits p k x).collectives = m.collectives :=
  foldl_collectives fun _ _ => collectives_ite rfl Module.putFlit_collectives

theorem Module.startTx_collectives {p : ℕ} {x : TxPkt} : (m.startTx p x).collectives = m.collectives :=
  Module.emitFlits_collectives.trans (collectives_ite rfl rfl)

theorem Module.pumpTx_collectives {p n : ℕ} : (m.pumpTx p n).collectives = m.collectives := by
  induction n generalizing m with
  | zero => rfl
  | succ n ih =>
    unfold Module.pumpTx
    refine collectives_ite rfl ?_
    split
    · rfl
    · exact collectives_ite rfl (ih.trans Module.startTx_collectives)

theorem Module.losePacket_collectives {p : ℕ} : (m.losePacket p).collectives = m.collectives := Module.raise_collectives

@[simp] theorem Module.forward_collectives {k : Packet} {came : Option ℕ} : (m.forward k came).collectives = m.collectives := by
  unfold Module.forward
  refine collectives_ite Module.losePacket_collectives ?_
  split
  · exact Module.losePacket_collectives
  · exact Module.pumpTx_collectives.trans (collectives_ite (Module.bill_collectives.trans (collectives_ite rfl rfl)) (collectives_ite rfl rfl))

theorem Module.filterDrop_collectives {p : ℕ} : (m.filterDrop p).collectives = m.collectives :=
  Module.raise_collectives.trans Module.violation_collectives

@[simp] theorem Module.deliver_collectives {p : ℕ} {k : Packet} : (m.deliver p k).collectives = m.collectives := by
  unfold Module.deliver
  refine collectives_ite Module.filterDrop_collectives (collectives_ite rfl ?_)
  split
  · exact Module.filterDrop_collectives
  · exact Module.filterDrop_collectives.trans Module.raise_collectives
  · exact Module.bill_collectives.trans Module.probe_collectives

@[simp] theorem Module.sendLink_collectives {ten dst kind spec : ℕ} {payload : List Byte} :
    (m.sendLink ten dst kind spec payload).collectives = m.collectives := by
  unfold Module.sendLink
  split
  · rfl
  · exact collectives_ite (Module.deliver_collectives.trans Module.bill_collectives)
      (Module.forward_collectives.trans Module.bill_collectives)

@[simp] theorem Module.sendChunk_collectives {t : Ten} {c : ColSpec} {step : Word64} {q : ℕ} {k : Chunk} :
    (m.sendChunk t c step q k).collectives = m.collectives :=
  Module.sendLink_collectives.trans Module.count_collectives

@[simp] theorem Module.sendAsk_collectives {t : Ten} {c : ColSpec} {step : Word64} {q offset first last : ℕ} :
    (m.sendAsk t c step q offset first last).collectives = m.collectives :=
  Module.sendLink_collectives

@[simp] theorem Module.sendParts_collectives {x : Inst} {image : List Byte} : (m.sendParts x image).collectives = m.collectives :=
  foldl_collectives fun _ _ => foldl_collectives fun _ _ => Module.sendChunk_collectives

/-! ### The end of an instance (R25, R333) -/

@[simp] theorem Module.mirrorCol_collectives {t : Ten} : (m.mirrorCol t).collectives = m.collectives := rfl

theorem Module.scrubFrame_collectives {f : ℕ} : (m.scrubFrame f).collectives = m.collectives := by
  have zeroed : (m.zeroFrame f).collectives = m.collectives := Module.bill_collectives (m := m)
  unfold Module.scrubFrame
  simp only
  split <;> exact zeroed

@[simp] theorem Module.releaseFrames_collectives {ten : ℕ} {fs : List ℕ} :
    (m.releaseFrames ten fs).collectives = m.collectives :=
  foldl_collectives fun _ _ => collectives_ite Module.scrubFrame_collectives rfl

/-- The instance that is over is forgotten, and no other. -/
theorem Module.dropInst_insts {x : Inst} : (m.dropInst x).insts = m.insts.filter fun y => !x.same y :=
  insts_of_collectives (m := { m with insts := m.insts.filter fun y => !x.same y }) Module.releaseFrames_collectives

end Sys2Proof.Machine
end

