-- ==== Sys2Proof/Proofs/GroupOperations.lean ====
section
/-! The completion of group operations, the combining of elements, and the time-out of an instance (O45). -/

namespace Sys2Proof.Machine

variable {m : Module} {s : State} {n : ℕ} {o : GroupOp}

/-! ### Combining (R59, R325) -/

/-- The operand whose value the result is gives its code. -/
theorem ColSpec.pick_left {c : ColSpec} {x y : ℕ} {r : Ex} (h : r = c.fmt.decode x) (hn : c.fmt.decode x ≠ .nan) :
    c.pick x y r = x := by
  unfold ColSpec.pick
  rw [if_neg (h ▸ hn), if_pos h]

theorem combining : Combining := by
  intro c x y
  refine ⟨fun h => ?_, fun h hx hn => ?_, fun h hx hn => ?_, fun h hx => ?_⟩ <;> unfold ColSpec.join <;> simp only [h]
  · exact ColSpec.pick_left hx hn
  · exact ColSpec.pick_left hx hn
  · unfold ColSpec.pick
    rw [if_pos hx, hx]

/-! ### The time-out (R335) -/

theorem colTimeouts : ColTimeouts := by
  intro n i s hi
  constructor
  · intro h
    have hy : Yields (.colTimeoutExpire n) s (s.mod.raise Kind.COL_WAIT i.ten.val (i.late.getD (s.mod.myRank i.spec))) :=
      yields_of_run (execColTimeoutExpire.eq_1 n s) (by simp only [hi, if_neg h])
    exact ⟨hy, recorded_of_yields (by decide) hy⟩
  · intro h
    exact yields_of_run (execColTimeoutExpire.eq_1 n s) (by simp only [hi, if_pos h])

/-! ### The completion of a group operation (R313) -/

/-- The module from which the completion of a group operation that stands at its end goes on. -/
def Module.opOver (m : Module) (o : GroupOp) : Module :=
  let a := m.putOp o
  (({ a with groupOps := a.groupOps.filter (fun x => !o.same x) } : Module).addFld Fld.SYN_GROUP_OPS_COUNT 0 0).countOps o.ten

/-- An operation at its last stage passes no stage more. -/
theorem Module.advanceOp_done (h : o.stage = 3) (k : ℕ) : m.advanceOp o k = (o, m) := by
  cases k with
  | zero => rfl
  | succ k => simp [Module.advanceOp, h]

theorem Module.putOp_rest : m.putOp o = { m with groupOps := (m.putOp o).groupOps } := by
  unfold Module.putOp
  split <;> rfl

theorem Module.opOver_rest : m.opOver o = { m with groupOps := (m.opOver o).groupOps, regs := (m.opOver o).regs } := by
  unfold Module.opOver
  rw [Module.putOp_rest]
  rfl

theorem Module.opOver_cmd {id : ℕ} : (m.opOver o).cmd id = m.cmd id := by
  rw [Module.opOver_rest]
  rfl

theorem Module.opOver_wrec {t : ℕ} : (m.opOver o).wrec t = m.wrec t := by
  rw [Module.opOver_rest]
  rfl

theorem Module.opOver_route {k : ℕ} : (m.opOver o).route k = m.route k := by
  rw [Module.opOver_rest]
  rfl

theorem Module.opOver_routesOf {t : Ten} : (m.opOver o).routesOf t = m.routesOf t := by
  rw [Module.opOver_rest]
  rfl

theorem Module.opOver_collectives : (m.opOver o).collectives = m.collectives := by
  rw [Module.opOver_rest]
  rfl

theorem Module.opOver_groupOps {y : GroupOp} (h : y ∈ (m.opOver o).groupOps) : o.same y = false := by
  have hy := List.of_mem_filter (show y ∈ (m.putOp o).groupOps.filter (fun x => !o.same x) from h)
  simpa using hy

/-- The kinds of group operation, by OP. -/
theorem groupOpComplete_yields (ho : s.mod.groupOps[n]? = some o) (hown : o.own.isSome = true) (hst : o.stage = 3) {m' : Module}
    (h : (match o.op with
      | 1 => (s.mod.opOver o).arriveDone o
      | 2 => (s.mod.opOver o).maxDone o
      | 3 => (s.mod.opOver o).orDone o
      | _ => s.mod.opOver o) = m') : Yields (.groupOpComplete n) s m' := by
  refine yields_of_run (execGroupOpComplete.eq_1 n s) ?_
  simp only [ho, Module.advanceOp_done hst]
  rw [if_neg (by simp [hst, Option.isNone_eq_false_iff.2 hown])]
  exact h
/-! ### An ARRIVE that ends a BIND (R330) -/

theorem Module.arriveDone_bind {key id : ℕ} {b : BoundSlot} (hbar : m.namedBarrier o = none)
    (hinst : m.insts.find? (fun (x : Inst) => x.ten == o.ten && x.cmd.isSome && !x.sent && x.spec.name == o.name
      && m.subBox x.spec == o.group) = none)
    (hslot : m.slots.find? (fun (p : Nat × BoundSlot) => p.1 / 256 == o.ten.val && p.2.cmd.isSome && p.2.spec.name == o.name
      && m.subBox p.2.spec == o.group) = some (key, b)) (hid : b.cmd = some id) :
    m.arriveDone o = ({ m with slots := Map.insert m.slots key { b with cmd := none } } : Module).finish id st.ok := by
  unfold Module.arriveDone
  simp only [hbar, hinst, hslot, hid]

/-- A meaning that finishes a command has ended it, where the commands were those of the state until then. -/
theorem ends_of_cmds {i : Instr} {id status detail : ℕ} {k : Cmd} {more : Module → Prop}
    (hy : Yields i s (m.finish id status detail)) (hc : m.cmd id = some k)
    (hm : more (m.finish id status detail).settle) : Ends i s id k status more := by
  have stands : m.Stands false ⟨id, k, m.nextSeq, []⟩ := ⟨⟨k.phase, hc⟩, rfl, rfl⟩
  obtain ⟨d, hd⟩ := Module.finish_done stands status detail
  exact ⟨d, completes_of_yields hy ⟨hd, hm⟩⟩

/-! ### A MAX64 fixes the front step (R178) -/

variable {t : ℕ} {w : WRecord} {x : WSwap} {v : Word64}

theorem Module.trimBerths_travel (h : m.wrec t = some w) : ∃ w', (m.trimBerths t).wrec t = some w' ∧ w'.travel = w.travel := by
  unfold Module.trimBerths
  rw [h]
  exact ⟨_, Module.wrec_setWrec_self, rfl⟩

theorem Module.fixFront_travel (h : m.wrec t = some w) (hx : w.travel = some x) :
    ∃ w', (m.fixFront t v).wrec t = some w' ∧ w'.travel = some { x with front := some v } := by
  have hset : (m.setTravel t fun x => { x with front := some v }).wrec t
      = some { w with travel := w.travel.map fun x => { x with front := some v } } := by
    unfold Module.setTravel
    rw [h]
    exact Module.wrec_setWrec_self
  obtain ⟨w', hw, ht⟩ := Module.trimBerths_travel hset
  exact ⟨w', hw, ht.trans (by simp [hx])⟩

theorem Module.fixFront_groupOps : (m.fixFront t v).groupOps = m.groupOps := by
  have htrim : ∀ a : Module, (a.trimBerths t).groupOps = a.groupOps := by
    intro a
    unfold Module.trimBerths
    split
    · rfl
    · rw [Module.setWrec_rest]
  unfold Module.fixFront Module.setTravel
  rw [htrim]
  split
  · rfl
  · rw [Module.setWrec_rest]

theorem Module.maxDone_front (h : m.wrec o.ten.val = some w) (hx : w.travel = some x) (hp : x.proposal.isSome = true)
    (hf : x.front = none) (hv : x.version.toNat = o.name) (hg : x.group = o.group) :
    m.maxDone o = m.fixFront o.ten.val o.value := by
  unfold Module.maxDone
  simp [h, hx, hp, hf, hv, hg]

/-! ### An OR64 tells a step of LEAN (R167) -/

/-- A generation slot to which the group's indication is told where the operation is that of its step. -/
def GroupOp.tell (o : GroupOp) (x : GenSlot) : GenSlot :=
  if x.sent && x.lean.isNone && x.step.toNat % 2 ^ 32 == o.name && x.step.toNat / 2 ^ 32 % 65536 == o.phase
  then { x with lean := some (o.value != 0) } else x

/-- A route whose slots are told, where it generates in the operation's box. -/
def GroupOp.tellRoute (o : GroupOp) (r : Route) : Route :=
  if r.gen.group != o.group then r else { r with slots := r.slots.map o.tell }

/-- A step is told once. -/
theorem GroupOp.tell_idem (x : GenSlot) : o.tell (o.tell x) = o.tell x := by
  unfold GroupOp.tell
  split <;> simp_all

theorem GroupOp.tellRoute_idem (r : Route) : o.tellRoute (o.tellRoute r) = o.tellRoute r := by
  unfold GroupOp.tellRoute
  split
  · simp_all
  · simp only [List.map_map, Function.comp_def, GroupOp.tell_idem]

theorem Module.route_setRoute {k : ℕ} {f : Route → Route} :
    (m.setRoute n f).route k = if n = k then (m.route k).map f else m.route k := by
  unfold Module.setRoute
  split
  · next h => split <;> simp_all
  · next r h =>
    unfold Module.route at h ⊢
    rw [Map.get?_insert]
    split <;> simp_all

/-- A change that is the same when it is made again, made to a list of routes. -/
theorem Module.route_foldl_setRoute {f : Route → Route} (hf : ∀ r, f (f r) = f r) {l : List ℕ} {k : ℕ} :
    (l.foldl (fun m n => m.setRoute n f) m).route k = if k ∈ l then (m.route k).map f else m.route k := by
  induction l generalizing m with
  | nil => simp
  | cons a l ih =>
    rw [List.foldl_cons, ih, Module.route_setRoute]
    by_cases ha : a = k <;> by_cases hk : k ∈ l <;> simp [ha, hk, Ne.symm, Function.comp_def, hf]

theorem Module.orDone_lean (hi : m.insts = []) (hs : m.slots = []) :
    m.orDone o = (m.routesOf o.ten).foldl (fun m n => m.setRoute n o.tellRoute) m := by
  unfold Module.orDone Module.abortSlot
  simp only [hi, hs, List.find?_nil, Option.map_none]
  rfl

/-- The routes of the operation's box have been told, where no collective is in flight or bound. -/
theorem Module.orDone_told {k : ℕ} {r : Route} (hc : m.collectives = ([], [])) (hk : k ∈ m.routesOf o.ten)
    (hr : m.route k = some r) : (m.orDone o).route k = some (o.tellRoute r) := by
  obtain ⟨hi, hs⟩ := Prod.mk.inj hc
  rw [Module.orDone_lean hi hs, Module.route_foldl_setRoute GroupOp.tellRoute_idem, if_pos hk, hr]
  rfl

/-! ### The obligation's part -/

theorem groupOpsDone : GroupOpsDone := by
  intro s n
  constructor
  · intro h
    exact yields_of_run (execGroupOpComplete.eq_1 n s) (by simp only [h])
  intro o ho hown hst
  have completed := fun m' h => groupOpComplete_yields ho hown hst (m' := m') h
  have arrive : o.op = 1 → Yields (.groupOpComplete n) s ((s.mod.opOver o).arriveDone o) := fun h => completed _ (by simp only [h])
  have max : o.op = 2 → Yields (.groupOpComplete n) s ((s.mod.opOver o).maxDone o) := fun h => completed _ (by simp only [h])
  have or : o.op = 3 → Yields (.groupOpComplete n) s ((s.mod.opOver o).orDone o) := fun h => completed _ (by simp only [h])
  refine ⟨arrive, ?_, max, ?_, or, ?_⟩
  · intro h hbar hinst key b id k hslot hid hk
    have hend := Module.arriveDone_bind (m := s.mod.opOver o) hbar hinst hslot hid ▸ arrive h
    refine ends_of_cmds hend (Module.opOver_cmd.trans hk) ?_
    rw [Module.finish_rest]
    exact Map.get?_insert_self ..
  · intro h w x hw hx hp hf hv hg
    have hw : (s.mod.opOver o).wrec o.ten.val = some w := Module.opOver_wrec.trans hw
    obtain ⟨w', hw', ht⟩ := Module.fixFront_travel (v := o.value) hw hx
    exact completes_of_yields (Module.maxDone_front hw hx hp hf hv hg ▸ max h)
      ⟨w', hw', ht, fun y hy => Module.opOver_groupOps (Module.fixFront_groupOps (m := s.mod.opOver o) ▸ hy)⟩
  · intro h hi hs
    have hc : (s.mod.opOver o).collectives = ([], []) := Module.opOver_collectives.trans (Prod.mk.injEq .. ▸ ⟨hi, hs⟩)
    refine completes_of_yields (or h) fun k r hk hr hg => ⟨o.tellRoute r, ?_, ?_⟩
    · exact Module.orDone_told hc (Module.opOver_routesOf (m := s.mod) ▸ hk) (Module.opOver_route.trans hr)
    · unfold GroupOp.tellRoute
      simp only [hg, bne_self_eq_false, Bool.false_eq_true, if_false]
      rfl

end Sys2Proof.Machine
end

