-- ==== Sys2Proof/Proofs/Chunks.lean ====
section
/-! Chunks that are received, and chunks that are asked for again (O45). -/

namespace Sys2Proof.Machine

variable {m : Module} {s : State} {t : Ten} {k : Packet} {e : Ten × Packet} {i : Inst}

/-! ### Packets that wait, and instances that are listed -/

theorem Module.takeIn_found {kind : ℕ} {f : Ten → Module → Module}
    (h : m.inbox.find? (fun (e : Ten × Packet) => e.2 == k && k.kind.toNat == kind) = some e) :
    m.takeIn k kind f = f e.1 { m with inbox := m.inbox.erase e } := by
  unfold Module.takeIn
  rw [h]

/-- An instance that is put is listed. -/
theorem Module.mem_putInst {x : Inst} : x ∈ (m.putInst x).insts := by
  unfold Module.putInst
  split
  · next h =>
    obtain ⟨y, hy, hs⟩ := List.any_eq_true.1 h
    exact List.mem_map.2 ⟨y, hy, if_pos hs⟩
  · exact List.mem_append_right _ (List.mem_singleton_self x)

/-! ### A chunk that is received (R328, R331, R332) -/

/-- What a chunk of a tenancy does once it is taken from those that wait. -/
def Module.takeChunk (m : Module) (t : Ten) (k : Packet) : Module :=
  let x := chunkOf k
  match m.findInst t k.src.toNat x with
  | none => m.raise Kind.COL_STRAY t.val k.src.toNat
  | some i =>
    if !hasData k then (m.raise Kind.COL_RESEND_LOST t.val k.src.toNat).endInst i ⟨st.aborted, 0, 0⟩
    else
      let m := m.probe Kind.COL_CRC t.val k.src.toNat
      if !x.crcOk then
        let m := (m.addFld Fld.COL_CRC_FAILS_COUNT 0 0).raise Kind.COL_CRC t.val k.src.toNat
        let key := (x.first, x.last, x.offset)
        if m.flag Fld.COL_CTL_RESEND_EN && !i.asked.contains key then
          (m.putInst { i with asked := i.asked ++ [key] }).sendAsk t i.spec i.step ((m.rankOf i.spec k.src.toNat).getD 0)
            x.offset x.first x.last
        else m.abortInst i
      else if x.digest != i.spec.digest then (m.abortInst i).raise Kind.COL_DIGEST t.val k.src.toNat
      else if i.holds x then m
      else if i.overflows x then m.abortInst i
      else m.putInst { i with got := i.got ++ [⟨x.first, x.last, x.offset, x.data⟩], late := some x.late }

theorem chunkReceive_yields (hd : hasData k = true ∨ (chunkOf k).offset = offsetLost)
    (he : s.mod.inbox.find? (fun (e : Ten × Packet) => e.2 == k && k.kind.toNat == 2) = some e) :
    Yields (.chunkReceive k) s (({ s.mod with inbox := s.mod.inbox.erase e } : Module).takeChunk e.1 k) := by
  refine yields_of_run (execChunkReceive.eq_1 k s) ?_
  simp only
  rw [if_neg (by rcases hd with h | h <;> simp [h]), Module.takeIn_found he]
  rfl

theorem Module.takeChunk_stray (h : m.findInst t k.src.toNat (chunkOf k) = none) :
    m.takeChunk t k = m.raise Kind.COL_STRAY t.val k.src.toNat := by
  unfold Module.takeChunk
  simp only [h]

theorem Module.takeChunk_lost (h : m.findInst t k.src.toNat (chunkOf k) = some i) (hd : hasData k = false) :
    m.takeChunk t k = (m.raise Kind.COL_RESEND_LOST t.val k.src.toNat).endInst i ⟨st.aborted, 0, 0⟩ := by
  unfold Module.takeChunk
  simp only [h, hd, Bool.not_false, if_true]

section
variable (h : m.findInst t k.src.toNat (chunkOf k) = some i) (hd : hasData k = true)
  (calm : m.reg .ERR_INJECT_INV Block.col.group = 0)
include h hd calm

/-- A chunk whose CRC fails is asked for once more, or ends the instance. -/
theorem Module.takeChunk_badCrc (hc : (chunkOf k).crcOk = false) :
    m.takeChunk t k =
      (let x := chunkOf k
       let m1 := (m.addFld Fld.COL_CRC_FAILS_COUNT 0 0).raise Kind.COL_CRC t.val k.src.toNat
       let key := (x.first, x.last, x.offset)
       if m1.flag Fld.COL_CTL_RESEND_EN && !i.asked.contains key then
         (m1.putInst { i with asked := i.asked ++ [key] }).sendAsk t i.spec i.step ((m1.rankOf i.spec k.src.toNat).getD 0)
           x.offset x.first x.last
       else m1.abortInst i) := by
  unfold Module.takeChunk
  simp only [h, hd, Module.probe_calm (k := Kind.COL_CRC) calm, hc, Bool.not_true, Bool.not_false, Bool.false_eq_true, if_false,
    if_true]

/-- A chunk that passed its CRC ends the instance where its DIGEST disagrees, and is held, once. -/
theorem Module.takeChunk_goodCrc (hc : (chunkOf k).crcOk = true) :
    m.takeChunk t k =
      (let x := chunkOf k
       if x.digest ≠ i.spec.digest then (m.abortInst i).raise Kind.COL_DIGEST t.val k.src.toNat
       else if i.holds x then m
       else if i.overflows x then m.abortInst i
       else m.putInst { i with got := i.got ++ [⟨x.first, x.last, x.offset, x.data⟩], late := some x.late }) := by
  unfold Module.takeChunk
  simp only [h, hd, Module.probe_calm (k := Kind.COL_CRC) calm, hc, Bool.not_true, Bool.false_eq_true, if_false, bne_iff_ne]

end

theorem chunksTaken : ChunksTaken := by
  intro k e s _ he calm
  refine ⟨fun hd => ?_, fun hd hoff => ?_, fun hd hoff => ?_⟩
  · have took := chunkReceive_yields (.inl hd) he
    refine ⟨fun hi => ?_, fun i hi => ⟨fun hc => ?_, fun hc => ?_⟩⟩
    · rw [Module.takeChunk_stray hi] at took
      refine ⟨took, completes_of_yields took ⟨(EventOnly.raise ..).inbox, insts_of_collectives Module.raise_collectives, ?_⟩⟩
      exact Module.status_raise (k := Kind.COL_STRAY) (by decide)
    · rw [Module.takeChunk_badCrc hi hd calm hc] at took
      refine ⟨fun hen hkey => ?_, fun hnot => ?_⟩
      · simp only at took
        rw [if_pos (by simp [hen, hkey])] at took
        refine ⟨took, completes_of_yields took ⟨{ i with asked := i.asked ++ [_] }, ?_, rfl, rfl, rfl⟩⟩
        exact (insts_of_collectives Module.sendAsk_collectives).symm ▸ Module.mem_putInst
      · simp only at took
        rwa [if_neg (by rcases hnot with h | h <;> simp [h])] at took
    · rw [Module.takeChunk_goodCrc hi hd calm hc] at took
      refine ⟨fun hg => ?_, fun hg hh => ?_, fun hg hh ho => ?_, fun hg hh ho => ?_⟩
      · simpa only [if_pos hg] using took
      · simpa only [hg, ne_eq, not_true_eq_false, if_false, hh, if_true] using took
      · simpa only [hg, ne_eq, not_true_eq_false, if_false, hh, ho, Bool.false_eq_true, if_true] using took
      · simp only [hg, ne_eq, not_true_eq_false, if_false, hh, ho, Bool.false_eq_true] at took
        exact ⟨took, completes_of_yields took Module.mem_putInst⟩
  · have took := chunkReceive_yields (.inr hoff) he
    refine ⟨fun hi => ?_, fun i hi => ?_⟩
    · exact Module.takeChunk_stray hi ▸ took
    · exact Module.takeChunk_lost hi hd ▸ took
  · exact yields_of_run (execChunkReceive.eq_1 k s) (if_pos (by simp [hd, hoff]))

/-! ### A request for chunks again (R332, R334) -/

theorem resendsServed : ResendsServed := by
  intro k e s _ hd hoff he
  have run : ∀ {m'}, _ → Yields (.resendRequest k) s m' := fun h => yields_of_run (execResendRequest.eq_1 k s)
    ((if_neg (by simp [hd, hoff])).trans ((Module.takeIn_found he).trans h))
  refine ⟨fun hi => ?_, fun i hi => ⟨fun image m1 hs => ?_, fun m1 hs => ⟨fun hearly => ?_, fun hearly => ?_⟩⟩⟩
  · have took : Yields (.resendRequest k) s (({ s.mod with inbox := s.mod.inbox.erase e } : Module).raise Kind.COL_STRAY
      e.1.val k.src.toNat) := run (by simp only [hi])
    refine ⟨took, completes_of_yields took ⟨(EventOnly.raise ..).inbox, insts_of_collectives Module.raise_collectives, ?_⟩⟩
    exact Module.status_raise (k := Kind.COL_STRAY) (by decide)
  · exact run (by simp only [hi, hs])
  · exact run (by simp only [hi, hs]; exact if_pos hearly)
  · exact run (by simp only [hi, hs]; exact if_neg (by simpa using hearly))

end Sys2Proof.Machine
end

