-- ==== Sys2Proof/Proofs/Instances.lean ====
section
/-! The start and the end of an instance of a collective, and the obligation on collectives (O45). -/

namespace Sys2Proof.Machine

variable {m m1 : Module} {s : State} {t : Ten} {x : Inst} {k : ℕ} {b : BoundSlot} {step : Word64} {image : List Byte}

/-! ### The start of an instance (R329, R330) -/

/-- The instance once this member, of rank `r`, has read and sent its contribution. -/
def Inst.afterSend (x : Inst) (r : ℕ) (image : List Byte) : Inst :=
  { x with started := true, sent := true
           got := x.got ++ cutChunks r ((image.drop (x.spec.part r).1).take (x.spec.part r).2) }

/-- The slot with the source contents of a step retained (R334). -/
def BoundSlot.retain (b : BoundSlot) (step : Word64) (image : List Byte) : BoundSlot :=
  { b with retained := (b.retained.filter (fun (p : Word64 × List Byte) => p.1 != step && decide (step ≤ p.1 + 1)))
      ++ [(step, image)] }

theorem BoundSlot.mem_retain : (step, image) ∈ (b.retain step image).retained :=
  List.mem_append_right _ (List.mem_singleton_self _)

theorem Module.slot?_putSlot : (m.putSlot t k b).slot? t k = some b := Map.get?_insert_self ..

theorem Module.slot?_putInst {u : Ten} : (m.putInst x).slot? u k = m.slot? u k := by
  unfold Module.putInst
  split <;> rfl

/-- A bound instance whose source can be read is listed, and its slot retains what was sent. -/
theorem Module.runInst_bound (hr : m.readSrc x.ten x.spec 0 (x.spec.srcBytes (m.subSize x.spec)) = (.ok image, m1))
    (hcmd : x.cmd = none) (hslot : x.slot = some k) (hb : m.slot? x.ten k = some b) :
    m.runInst x = (none, (((m1.putInst (x.afterSend (m1.myRank x.spec) image)).mirrorCol x.ten).putSlot x.ten k
      (b.retain x.step image)).sendParts (x.afterSend (m1.myRank x.spec) image) image) := by
  have hread : m1.collectives = m.collectives := by
    simpa only [hr] using Module.readSrc_collectives (m := m) (t := x.ten) (c := x.spec) (off := 0)
      (n := x.spec.srcBytes (m.subSize x.spec))
  have hb' : ((m1.putInst (x.afterSend (m1.myRank x.spec) image)).mirrorCol x.ten).slot? x.ten k = some b := by
    rw [slot?_of_collectives Module.mirrorCol_collectives, Module.slot?_putInst, slot?_of_collectives hread, hb]
  obtain ⟨ten, cmd, slot, step, spec, started, sent, got, asked, late, frames⟩ := x
  obtain rfl : cmd = none := hcmd
  obtain rfl : slot = some k := hslot
  unfold Inst.afterSend at hb'
  unfold Module.runInst
  simp only [hr, hb']
  rfl

/-- An instance that may send starts to run, and goes on where its source can be read. -/
theorem Module.startInst_runs (hmay : x.spec.group = 0 ∨ m.maySend x.ten.val = true) (hrun : m.runInst x = (none, m1)) :
    m.startInst x = m1 := by
  unfold Module.startInst
  rw [if_neg (by rcases hmay with h | h <;> simp [h]), hrun]

/-! ### A bound instance (R330, R334) -/

theorem slotBusy_iff : m.insts.any (fun (x : Inst) => x.ten == t && x.slot == some k && x.started
      && decide (x.step.toNat % 2 = step.toNat % 2)) = true
    ↔ ∃ x ∈ m.insts, x.ten = t ∧ x.slot = some k ∧ x.started = true ∧ x.step.toNat % 2 = step.toNat % 2 := by
  simp only [List.any_eq_true, Bool.and_eq_true, beq_iff_eq, decide_eq_true_eq, and_assoc]

/-- The instance of a slot of which nothing has come yet. -/
theorem Module.slotInst_fresh (h : m.insts = []) :
    m.slotInst t k b step = ⟨t, none, some k, step, b.spec, false, false, [], [], none, []⟩ := by
  unfold Module.slotInst
  simp only [h, List.find?_nil, Option.getD_none]

/-- What the first start of a bound step leaves: the instance runs and has sent, and its slot retains the source. -/
theorem Module.startInst_bound (hr : m.readSrc t b.spec 0 (b.spec.srcBytes (m.subSize b.spec)) = (.ok image, m1))
    (hmay : b.spec.group = 0 ∨ m.maySend t.val = true) (hi : m.insts = []) {b' : BoundSlot}
    (hb : m.slot? t k = some b') :
    (∃ i ∈ (m.startInst (m.slotInst t k b step)).insts, i.ten = t ∧ i.slot = some k ∧ i.step = step ∧ i.started = true
      ∧ i.sent = true)
    ∧ (m.startInst (m.slotInst t k b step)).slot? t k = some (b'.retain step image) := by
  rw [Module.slotInst_fresh hi, Module.startInst_runs hmay (Module.runInst_bound hr rfl rfl hb),
    insts_of_collectives Module.sendParts_collectives, slot?_of_collectives Module.sendParts_collectives]
  exact ⟨⟨_, Module.mem_putInst, rfl, rfl, rfl, rfl, rfl⟩, Module.slot?_putSlot⟩

theorem boundStarts : BoundStarts := by
  intro ten slot step s
  refine ⟨fun h => yields_of_run (execBoundInstanceStart.eq_1 ten slot step s) (by simp only [h]), fun b hb => ⟨fun h => ?_,
    fun hdue hfree h hh hle => ?_, fun hdue hfree hnew => ?_⟩⟩
  · refine yields_of_run (execBoundInstanceStart.eq_1 ten slot step s) ?_
    simp only [hb]
    refine if_pos ?_
    rcases h with h | h
    · simp [h]
    · rw [slotBusy_iff.2 h, Bool.or_true]
  · refine yields_of_run (execBoundInstanceStart.eq_1 ten slot step s) ?_
    simp only [hb]
    rw [if_neg (by simp [hdue, mt slotBusy_iff.1 hfree])]
    simp only [hh, decide_eq_true hle, if_true]
  · have start : Yields (.boundInstanceStart ten slot step) s
        ((s.mod.putSlot ten slot.toNat { b with due := b.due.erase step, last := some step, high := some step }).startInst
          ((s.mod.putSlot ten slot.toNat { b with due := b.due.erase step, last := some step, high := some step }).slotInst ten
            slot.toNat b step)) := by
      refine yields_of_run (execBoundInstanceStart.eq_1 ten slot step s) ?_
      simp only [hb]
      rw [if_neg (by simp [hdue, mt slotBusy_iff.1 hfree])]
      cases hh : b.high with
      | none => rfl
      | some h => simp only [decide_eq_false (BitVec.not_le.2 (hnew h hh)), Bool.false_eq_true, if_false]
    refine ⟨start, fun image m1 hmay hi hr => completes_of_yields start ?_⟩
    obtain ⟨hrun, hslot⟩ := Module.startInst_bound (step := step) hr hmay hi Module.slot?_putSlot
    exact ⟨hrun, _, hslot, rfl, BoundSlot.mem_retain⟩

/-! ### An instance that is over (R333, R337) -/

/-- An instance that is over is counted and forgotten. -/
def Module.instOver (m : Module) (x : Inst) : Module :=
  ((m.addFld Fld.COL_INSTANCES_COUNT 0 0).addFld Fld.COL_TEN_INSTANCES_COUNT x.ten.val 0).dropInst x

theorem Module.same_of_mem_instOver {y : Inst} (h : y ∈ (m.instOver x).insts) : x.same y = false := by
  unfold Module.instOver at h
  rw [Module.dropInst_insts] at h
  simpa using List.of_mem_filter h

/-- A command stands while the destination is written and the slowest member recorded. -/
theorem Module.instOver_stands {watched : Watched} {bad : Bool} {c : ColSpec} {runs : List (ℕ × List Byte)} {m1 m2 : Module}
    {slow : ℕ} {u : Unit} (hw : (if bad then m.drawn else m).writeRuns t c runs = (.ok u, m1))
    (hslow : m1.recordSlowest x = (slow, m2)) (h : m.Stands false watched) : (m2.instOver x).Stands false watched := by
  have hdrawn : (if bad then m.drawn else m).Stands false watched := stands_ite (Module.drawn_stands h) h
  have hwrote : m1.Stands false watched := (Module.writeRuns_stands hdrawn).of_eq hw
  have hrecorded : (m1.recordSlowest x).2.Stands false watched :=
    Module.addFld_stands (Module.setReg_stands (Module.drawn_stands hwrote))
  exact Module.dropInst_stands (Module.addFld_stands (Module.addFld_stands (hrecorded.of_eq hslow)))

theorem instancesDone : InstancesDone := by
  intro n i s hi
  have run := fun m' h => yields_of_run (c := .instanceComplete n) (execInstanceComplete.eq_1 n s) (m := m') h
  constructor
  · intro h
    refine run _ ?_
    simp only [hi]
    split
    · rfl
    · next hs =>
      rw [h.resolve_left (by simpa using hs)]
  intro runs hstart hres
  simp only
  refine ⟨fun e m1 hw => run _ ?_, fun m1 slow m2 hw hslow => ⟨fun id hid => ?_, fun k b hcmd hslot hb => run _ ?_⟩⟩
  · simp only [hi, hstart, hres, hw, Bool.not_true, Bool.false_eq_true, if_false]
  · have ended : Yields (.instanceComplete n) s ((m2.instOver i).finish id st.ok slow) := run _ <| by
      simp only [hi, hstart, hres, hw, hslow, hid, Bool.not_true, Bool.false_eq_true, if_false]
      rfl
    refine ⟨ended, fun k hk => ?_⟩
    have stands : s.mod.Stands false ⟨id, k, s.mod.nextSeq, []⟩ := ⟨⟨k.phase, hk⟩, rfl, rfl⟩
    obtain ⟨d, hd⟩ := Module.finish_done (Module.instOver_stands hw hslow stands) st.ok slow
    refine ⟨d, completes_of_yields ended ⟨hd, fun j hj => Module.same_of_mem_instOver (m := m2) ?_⟩⟩
    rwa [Module.finish_rest] at hj
  · simp only [hi, hstart, hres, hw, hslow, hcmd, hslot, hb, Bool.not_true, Bool.false_eq_true, if_false]

/-- Settles O45: each command's meaning is followed down the branch that its hypotheses choose; what a read of the source, a
packet or an event leaves of the instances and slots gives the effect that each part states. -/
theorem collectiveProgress : Obligations.CollectiveProgress :=
  ⟨groupOpsDone, boundStarts, chunksTaken, resendsServed, instancesDone, colTimeouts, combining⟩

end Sys2Proof.Machine
end

