-- ==== Sys2Proof/Proofs/SpanRules.lean ====
section
/-! What the tile instructions share: legal words, rows of one opcode, and spans that change without retiring. -/

namespace Sys2Proof.Machine

variable {t : TileId} {w : Fields} {s : State} {cx : Ctx} {m : Module}

/-! ### Words that share their opcode -/

/-- A legal word has a mod of its form (R83). -/
theorem Form.mod_of_legal {form : Form} {skq2 : Bool} (h : form.bad w skq2 = none) : w.mod.toNat ∈ form.mods := by
  unfold Form.bad Form.illegal at h
  split at h
  · cases h
  · split at h
    · cases h
    · next listed => simpa using listed

/-- An instruction whose row is one of several of its opcode, and whose body changes each tile, computes that change. -/
theorem computes_of_row {c : Instr} {op : Byte} {form : Form} {others : List ℕ} {f : Module → Ctx → TileId → Tile → Tile}
    (hc : ∀ s, exec c s = s.tileOp t op w form (fun cx m => .ok (m.each cx (f m cx))) others)
    (own : w.mod.toNat ∈ form.mods → others.contains w.mod.toNat = false) (hk : ∀ m cx, KeepsControl (f m cx)) :
    Computes c t op w (form.bad w) f := by
  intro s cx issues inside
  rw [hc]
  exact State.tileOp_did issues inside (own (Form.mod_of_legal issues.legal)) rfl (hk s.mod cx)

/-! ### Spans that change and do not retire -/

/-- A span whose tiles change, with nothing else. -/
theorem Module.mapSpan_became {f : TileId → Tile → Tile} :
    SpanBecame s.mod s ⟨(s.mod.mapSpan cx.o f).settle, s.pending⟩ cx f := by
  refine ⟨rfl, ?_, fun u => Module.tile_mapSpan ..⟩
  show (s.mod.mapSpan _ _).settle = _
  rw [Module.mapSpan_rest]
  rfl

/-- Two changes of a span, one after the other, are one. -/
theorem Module.mapSpan_mapSpan_became {f g : TileId → Tile → Tile} :
    SpanBecame s.mod s ⟨((s.mod.mapSpan cx.o f).mapSpan cx.o g).settle, s.pending⟩ cx fun u x => g u (f u x) := by
  refine ⟨rfl, ?_, fun u => ?_⟩
  · show ((s.mod.mapSpan _ _).mapSpan _ _).settle = _
    rw [Module.mapSpan_rest, Module.mapSpan_rest]
    rfl
  · show ((s.mod.mapSpan _ _).mapSpan _ _).tile u = _
    rw [Module.tile_mapSpan, Module.spanTiles_mapSpan, Module.tile_mapSpan]
    split <;> rfl

/-- A span that only retires inside the code. -/
theorem Module.retire_only (inside : Inside s.mod cx) :
    SpanDid s.mod s ⟨(s.mod.retire cx).settle, s.pending⟩ cx fun _ x => x :=
  Module.retire_did (fun _ _ => ⟨rfl, rfl⟩) inside rfl fun _ => (ite_self _).symm

/-- An instruction whose word issues, and whose body faults in no tile, leaves what its body makes. -/
theorem exec_runs {c : Instr} {op : Byte} {form : Form} {body : Ctx → Module → Except Misuse Module} {m' : Module}
    (hc : exec c s = s.tileOp t op w form body) (issues : Issues s t op w (form.bad w) cx) (hb : body cx s.mod = .ok m') :
    exec c s = .next ⟨m'.settle, s.pending⟩ := by
  rw [hc, State.tileOp_issues rfl issues, hb]
  rfl

end Sys2Proof.Machine
end

