-- ==== Sys2Proof/Proofs/Scalars.lean ====
section
/-! The scalar, address and predicate-move instructions, and the reads of special registers (O7, O8). -/

namespace Sys2Proof.Machine

variable {t : TileId} {w : Fields} {s : State} {cx : Ctx} {x y : Word}

/-! ### ALU, ALUI and MUL (R97) -/

theorem toInt_bounds (x : Word) : -2 ^ 31 ≤ x.toInt ∧ x.toInt < 2 ^ 31 :=
  ⟨BitVec.le_toInt x, BitVec.toInt_lt⟩

theorem toInt_ite {c : Prop} [Decidable c] : (if c then x else y).toInt = if c then x.toInt else y.toInt := apply_ite ..

theorem toNat_ite {c : Prop} [Decidable c] : (if c then x else y).toNat = if c then x.toNat else y.toNat := apply_ite ..

/-- The high half of a signed product. -/
theorem toInt_mulHigh : (mulOp 1 x y).toInt = x.toInt * y.toInt / 2 ^ 32 := by
  obtain ⟨hx, hx'⟩ := toInt_bounds x
  obtain ⟨hy, hy'⟩ := toInt_bounds y
  have size : |x.toInt * y.toInt| ≤ 2 ^ 31 * 2 ^ 31 := by
    rw [abs_mul]
    exact mul_le_mul (abs_le.2 ⟨hx, hx'.le⟩) (abs_le.2 ⟨hy, hy'.le⟩) (abs_nonneg _) (by norm_num)
  obtain ⟨low, high⟩ := abs_le.1 size
  show (BitVec.ofInt 32 _).toInt = _
  rw [BitVec.toInt_ofInt, Int.bmod_eq_of_le] <;> omega

/-- The high half of an unsigned product. -/
theorem toNat_mulHighU : (mulOp 2 x y).toNat = x.toNat * y.toNat / 2 ^ 32 := by
  have product : x.toNat * y.toNat < 2 ^ 32 * 2 ^ 32 := Nat.mul_lt_mul'' x.isLt y.isLt
  show (BitVec.ofNat 32 _).toNat = _
  rw [BitVec.toNat_ofNat, Nat.mod_eq_of_lt (Nat.div_lt_of_lt_mul product)]

theorem aluOperations : AluOperations := by
  intro x y
  refine ⟨?add, ?sub, ?and, ?or, ?xor, ?shl, ?shr, ?sar, ?min, ?max, ?minu, ?maxu, ?slt, ?sltu, rfl, rfl, ?mul, toInt_mulHigh,
    toNat_mulHighU⟩
  case add => exact BitVec.toNat_add x y
  case sub => exact BitVec.toInt_sub
  case and => exact fun i _ => BitVec.getLsbD_and
  case or => exact fun i _ => BitVec.getLsbD_or
  case xor => exact fun i _ => BitVec.getLsbD_xor
  case shl => exact (BitVec.toNat_shiftLeft ..).trans (by rw [Nat.shiftLeft_eq])
  case shr => exact (BitVec.toNat_ushiftRight ..).trans (Nat.shiftRight_eq_div_pow ..)
  case sar => exact BitVec.toInt_sshiftRight.trans (Int.shiftRight_eq_div_pow ..)
  case min =>
    show (if BitVec.slt y x then y else x).toInt = _
    simp only [toInt_ite, min_def, BitVec.slt_iff_toInt_lt]
    split <;> split <;> omega
  case max =>
    show (if BitVec.slt x y then y else x).toInt = _
    simp only [toInt_ite, max_def, BitVec.slt_iff_toInt_lt]
    split <;> split <;> omega
  case minu =>
    show (if BitVec.ult y x then y else x).toNat = _
    simp only [toNat_ite, min_def, BitVec.ult_iff_lt, BitVec.lt_def]
    split <;> split <;> omega
  case maxu =>
    show (if BitVec.ult x y then y else x).toNat = _
    simp only [toNat_ite, max_def, BitVec.ult_iff_lt, BitVec.lt_def]
    split <;> split <;> omega
  case slt => exact if_congr BitVec.slt_iff_toInt_lt rfl rfl
  case sltu => exact if_congr (BitVec.ult_iff_lt.trans BitVec.lt_def) rfl rfl
  case mul => exact BitVec.toNat_mul x y

/-! ### DIV, DIVU, REM and REMU (R98) -/

/-- The quotient, rounded toward zero, is that of a signed division. -/
theorem ofInt_tdiv : BitVec.ofInt 32 (Int.tdiv x.toInt y.toInt) = x.sdiv y :=
  BitVec.eq_of_toInt_eq (by rw [BitVec.toInt_ofInt, BitVec.toInt_sdiv])

theorem ofInt_tmod : BitVec.ofInt 32 (Int.tmod x.toInt y.toInt) = x.srem y := by
  rw [← BitVec.toInt_srem, BitVec.ofInt_toInt]

theorem divisionResults : DivisionResults := by
  intro x y
  refine ⟨fun zero => ?zero, fun ne proper => ?signed, fun ne => ?unsigned, by decide, by decide⟩
  case zero =>
    subst zero
    exact ⟨rfl, rfl, rfl, rfl⟩
  case signed =>
    have inside : x ≠ BitVec.intMin 32 ∨ y ≠ -1#32 := by
      by_contra h
      push Not at h
      exact proper ⟨h.1.trans (by decide), h.2.trans (by decide)⟩
    simp only [divOp, if_neg ne]
    rw [ofInt_tdiv, ofInt_tmod]
    exact ⟨BitVec.toInt_sdiv_of_ne_or_ne x y inside, BitVec.toInt_srem x y⟩
  case unsigned =>
    simp only [divOp, if_neg ne, BitVec.toNat_ofNat]
    exact ⟨Nat.mod_eq_of_lt (Nat.lt_of_le_of_lt (Nat.div_le_self ..) x.isLt),
      Nat.mod_eq_of_lt (Nat.lt_of_le_of_lt (Nat.mod_le ..) x.isLt)⟩

/-! ### The instructions (R80, R97, R98) -/

theorem scalarWords : ScalarWords := by
  intro t w
  refine ⟨?alu, ?alui, ?movi, ?mul, ?div, ?aadd, ?aaddi, ?aset, ?alo, ?ahi, ?ptos, ?stop, ?fixed⟩
  case alu => exact computes_of_each (fun _ => rfl) fun _ _ _ _ => Tile.setS_control ..
  case alui => exact computes_of_each (fun _ => rfl) fun _ _ _ _ => Tile.setS_control ..
  case movi => exact computes_of_each (fun _ => rfl) fun _ _ _ _ => Tile.setS_control ..
  case mul =>
    intro low
    exact computes_of_row (fun _ => rfl) (fun _ => by simp; omega) fun _ _ _ _ => Tile.setS_control ..
  case div =>
    intro high
    exact computes_of_row (fun _ => rfl) (fun _ => by simp; omega) fun _ _ _ _ => Tile.setS_control ..
  case aadd =>
    exact computes_of_row (fun _ => rfl) ((by decide : ∀ n ∈ formAadd.mods, [1, 2, 3, 4].contains n = false) _) fun _ _ _ _ =>
      ⟨rfl, rfl⟩
  case aaddi =>
    exact computes_of_row (fun _ => rfl) ((by decide : ∀ n ∈ formAaddi.mods, [0, 2, 3, 4].contains n = false) _) fun _ _ _ _ =>
      ⟨rfl, rfl⟩
  case aset =>
    exact computes_of_row (fun _ => rfl) ((by decide : ∀ n ∈ formAset.mods, [0, 1, 3, 4].contains n = false) _) fun _ _ _ _ =>
      ⟨rfl, rfl⟩
  case alo =>
    exact computes_of_row (fun _ => rfl) ((by decide : ∀ n ∈ formAlo.mods, [0, 1, 2, 4].contains n = false) _) fun _ _ _ _ =>
      Tile.setS_control ..
  case ahi =>
    exact computes_of_row (fun _ => rfl) ((by decide : ∀ n ∈ formAhi.mods, [0, 1, 2, 3].contains n = false) _) fun _ _ _ _ =>
      Tile.setS_control ..
  case ptos =>
    exact computes_of_row (fun _ => rfl) ((by decide : ∀ n ∈ formPtos.mods, [1].contains n = false) _) fun _ _ _ _ =>
      Tile.setS_control ..
  case stop =>
    exact computes_of_row (fun _ => rfl) ((by decide : ∀ n ∈ formStop.mods, [0].contains n = false) _) fun _ _ _ _ =>
      Tile.setP_control ..
  case fixed => exact fun _ _ _ => ⟨rfl, rfl, rfl, rfl⟩

/-- Settles O7: the operations by what bit vectors do, and the instructions by the register that each writes in every tile. -/
theorem scalarInstructions : Obligations.ScalarInstructions := ⟨aluOperations, divisionResults, scalarWords⟩

/-! ### SRD (R81) -/

/-- Every special register but CYCLE_LO reads the same whatever the cycle. -/
theorem Module.special_cycle {m : Module} {u : TileId} {x : Tile} {i : ℕ} {cycle : Word64} (h : i ≠ 8) :
    m.special cx u x i cycle = m.special cx u x i 0 := by
  unfold Module.special
  split
  case h_9 => exact absurd rfl h
  all_goals grind

/-- What a read of CYCLE_LO leaves: the low half of the cycle, and the high half latched. -/
def Tile.readCycle (x : Tile) (d : ℕ) (cycle : Word64) : Tile :=
  ({ x with cycleHi := (cycle >>> 32).setWidth 32 } : Tile).setS d (cycle.setWidth 32)

theorem Tile.readCycle_keepsControl {d : ℕ} {cycle : Word64} : KeepsControl fun _ x => x.readCycle d cycle :=
  fun _ _ => Tile.setS_control ..

/-- Settles O8: a listed index by the value that it names, CYCLE_LO by the free value drawn, an unlisted one by its halt. -/
theorem specialRegisterReads : Obligations.SpecialRegisterReads := by
  intro t w s cx issues inside
  refine ⟨fun listed other => ?listed, fun cycle => ?cycle, fun unlisted => ?unlisted⟩
  case listed =>
    refine ⟨_, exec_runs (execSrd.eq_1 t w s) issues ?_, Module.each_did (fun _ _ => Tile.setS_control ..) inside⟩
    simp only [listed, if_neg other, Bool.not_true, Bool.false_eq_true, if_false]
    simp only [Module.special_cycle (cycle := s.mod.free64) other]
  case cycle =>
    have did := Module.each_did (s := ⟨s.mod.drawn, s.pending⟩) (cx := cx) (f := fun _ x => x.readCycle w.d.toNat s.mod.free64)
      Tile.readCycle_keepsControl inside
    refine ⟨_, s.mod.free64, exec_runs (execSrd.eq_1 t w s) issues ?_, did.pending, did.rest, did.tiles⟩
    have listed : specialListed cx.sg.prog.skq2 8 = true := rfl
    simp only [cycle, listed, Bool.not_true, Bool.false_eq_true, if_false, if_true]
    rfl
  case unlisted =>
    refine exec_runs (execSrd.eq_1 t w s) issues ?_
    simp only [unlisted, Bool.not_false, if_true]

end Sys2Proof.Machine
end

