-- ==== Sys2Proof/Proofs/Control.lean ====
section
/-! Branches, calls, HALT and hardware loops (O10), and CMT and CMT.STEP (O21). -/

namespace Sys2Proof.Machine

variable {t : TileId} {w : Fields} {s : State} {cx : Ctx} {m : Module}

/-! ### Branches (R95) -/

theorem target_eq_some {pc len k : ℕ} {off : Word} : target pc off len = some k ↔ (k : Int) = pc + off.toInt ∧ k < len := by
  unfold target
  simp only
  split
  · simp only [reduceCtorEq, false_iff]
    omega
  · rw [Option.some.injEq]
    omega

theorem branchMeaning : BranchMeaning := by
  refine ⟨fun _ _ _ _ => target_eq_some, fun x y => ⟨?eq, ?ne, ?lt, ?ge, ?ltu, ?geu⟩⟩
  case eq => exact Bool.beq_eq_decide_eq x y
  case ne => exact (congrArg (!·) (Bool.beq_eq_decide_eq x y)).trans (decide_not ..).symm
  case lt => exact BitVec.slt_eq_decide ..
  case ge =>
    show (!BitVec.slt x y) = _
    rw [BitVec.slt_eq_decide, ← decide_not, decide_eq_decide, not_lt]
  case ltu => exact BitVec.ult_eq_decide ..
  case geu =>
    show (!BitVec.ult x y) = _
    rw [BitVec.ult_eq_decide, ← decide_not, decide_eq_decide, not_lt]

/-- A branch to an index of the code takes the span there. -/
theorem Module.branchTo_went {pc : ℕ} {ends : Bool} : SpanWent s ⟨(s.mod.branchTo cx (some pc) ends).settle, s.pending⟩ cx pc
    (if ends then endLoops pc (s.mod.tile cx.o).loops else (s.mod.tile cx.o).loops) id :=
  Module.mapSpan_became

/-- CALL writes the index after its own in every tile, and goes to its target with the loops that were active. -/
theorem Module.callTo_went {pc r : ℕ} {v : Word} :
    SpanWent s ⟨((s.mod.mapSpan cx.o fun _ x => x.setS r v).branchTo cx (some pc) false).settle, s.pending⟩ cx pc
      (s.mod.tile cx.o).loops fun x => x.setS r v := by
  have loops : ((s.mod.mapSpan cx.o fun _ x => x.setS r v).tile cx.o).loops = (s.mod.tile cx.o).loops := by
    rw [Module.tile_mapSpan, if_pos (s.mod.self_mem_spanTiles cx.o), Tile.setS_loops]
  unfold SpanWent
  rw [← loops]
  exact Module.mapSpan_mapSpan_became

/-- An instruction whose body branches to a target or halts with PC_RANGE. -/
theorem branches_of_body {c : Instr} {op : Byte} {form : Form} {body : Ctx → Module → Except Misuse Module} {goal : Option ℕ}
    {ends : Bool} (hc : exec c s = s.tileOp t op w form body) (issues : Issues s t op w (form.bad w) cx)
    (hb : body cx s.mod = .ok (s.mod.branchTo cx goal ends)) :
    (∀ pc, goal = some pc → ∃ s', exec c s = .next s' ∧ SpanWent s s' cx pc
      (if ends then endLoops pc (s.mod.tile cx.o).loops else (s.mod.tile cx.o).loops) id)
    ∧ (goal = none → Halts c s cx 5) := by
  have run := exec_runs hc issues hb
  refine ⟨fun pc h => ⟨_, run, ?_⟩, fun h => run.trans ?_⟩
  · subst h
    exact Module.branchTo_went
  · subst h
    rfl

theorem branchInstructions : BranchInstructions := by
  intro t w s cx
  refine ⟨?nop, fun issues => branches_of_body (c := .br t w) (execBr.eq_1 t w s) issues rfl,
    fun issues => ⟨fun taken => ?taken, fun not inside => ?not⟩,
    fun issues => ⟨fun pc inside => ?call, fun outside => ?out⟩, fun issues => ⟨fun inside => ?jr, fun outside => ?jrOut⟩⟩
  case nop =>
    intro s cx issues inside
    obtain ⟨issue, -, legal⟩ := issues
    refine ⟨_, (execNop.eq_1 t 0x01 w s).trans ?_, Module.retire_only inside⟩
    have legal : formNop.illegal cx.sg.prog.skq2 w = none := legal
    simp only [State.run_eq, issue, if_true, legal]
  case taken =>
    refine branches_of_body (execBCc.eq_1 t w s) issues (ends := true) ?_
    simp only [taken, if_true]
  case not =>
    refine ⟨_, exec_runs (execBCc.eq_1 t w s) issues ?_, Module.retire_only inside⟩
    simp only [not, Bool.false_eq_true, if_false]
  case call =>
    refine ⟨_, exec_runs (execCall.eq_1 t w s) issues ?_, Module.callTo_went⟩
    simp only [inside]
  case out =>
    refine exec_runs (execCall.eq_1 t w s) issues ?_
    simp only [outside]
  case jr =>
    obtain ⟨went, -⟩ := branches_of_body (c := .jr t w) (execJr.eq_1 t w s) issues (ends := false) rfl
    exact went _ (if_pos inside)
  case jrOut =>
    obtain ⟨-, halts⟩ := branches_of_body (c := .jr t w) (execJr.eq_1 t w s) issues (ends := false) rfl
    exact halts (if_neg (Nat.not_lt.2 outside))

/-! ### Arrival at the step boundary (R90, R95) -/

theorem haltInstruction : HaltInstruction := by
  intro t w s cx
  refine ⟨fun issues zero free => ?arrives, fun issues zero busy => ?waits, fun issues code => ?stops⟩
  case arrives =>
    refine ⟨_, exec_runs (execHalt.eq_1 t w s) issues ?_, Module.mapSpan_became⟩
    simp only [zero, free, if_true, Bool.false_eq_true, if_false]
    rfl
  case waits =>
    refine ⟨_, exec_runs (execHalt.eq_1 t w s) issues ?_, Module.waitOn_waits⟩
    simp only [zero, busy, if_true]
  case stops => exact exec_runs (execHalt.eq_1 t w s) issues (if_neg code)

/-! ### Hardware loops (R96) -/

/-- LOOP names a body that is not empty, with a level free, inside the enclosing body. -/
def LoopOk (cx : Ctx) (o : Tile) (body : ℕ) : Prop :=
  0 < body ∧ o.loops.length < loopLevels cx.sg.prog ∧ ∀ l ∈ o.loops.head?, o.pc + body ≤ l.stop

theorem loopOk_iff {o : Tile} {body : ℕ} : LoopOk cx o body ↔ ¬ (body = 0 ∨ loopLevels cx.sg.prog ≤ o.loops.length
    ∨ (match o.loops with | [] => false | l :: _ => decide (l.stop < o.pc + body)) = true) := by
  unfold LoopOk
  cases o.loops with
  | nil => simp; omega
  | cons l ls => simp; omega

theorem loopEntry : LoopEntry := by
  intro t w s cx issues o body n ok
  have hok : ok ↔ _ := loopOk_iff
  refine ⟨fun bad => ?halts, fun good zero inside => ?skips, fun good count inside => ?pushes⟩
  case halts => exact exec_runs (execLoop.eq_1 t w s) issues (if_pos (not_not.1 (mt hok.2 bad)))
  case skips =>
    refine ⟨_, exec_runs (execLoop.eq_1 t w s) issues ?_, Module.mapSpan_became⟩
    refine (if_neg (hok.1 good)).trans ((if_pos zero).trans ?_)
    exact congrArg Except.ok (if_neg (Nat.not_le.2 inside))
  case pushes =>
    refine ⟨_, exec_runs (execLoop.eq_1 t w s) issues ?_, Module.mapSpan_became⟩
    refine (if_neg (hok.1 good)).trans ((if_neg count).trans ?_)
    exact congrArg Except.ok (if_neg (Nat.not_le.2 inside))

theorem loopEnds : LoopEnds := by
  intro pc l rest
  refine ⟨fun other => if_neg other, fun here more => (if_pos here).trans (if_neg more),
    fun here last => (if_pos here).trans (if_pos last), rfl⟩

theorem Loop.holds_iff {l : Loop} {pc : ℕ} : l.holds pc = true ↔ l.start ≤ pc ∧ pc ≤ l.stop := by
  simp [Loop.holds]

theorem loopsEnded : LoopsEnded := by
  refine ⟨fun _ => rfl, fun pc l rest low high => if_pos ?_, fun pc l rest k out => ?_, fun p h => ?_⟩
  · exact Loop.holds_iff.2 ⟨low, high⟩
  · have left : l.holds pc = false := Bool.eq_false_iff.2 fun h => by have := Loop.holds_iff.1 h; omega
    have ended : endLoops pc (l :: rest) = rest.filter fun l => l.holds pc := by
      unfold endLoops
      simp [left]
    rw [ended, List.mem_filter, Loop.holds_iff]
  · unfold loopLevels
    rw [h]
    rfl

/-- Settles O10: each instruction by the index that its span goes to and the loops that stay active there, or by its halt. -/
theorem controlFlow : Obligations.ControlFlow :=
  ⟨branchMeaning, branchInstructions, haltInstruction, loopEntry, loopEnds, loopsEnded⟩

/-! ### CMT and CMT.STEP (R89, R90, R94, R108) -/

theorem Module.cmtStep_busy (busy : m.spanBusy cx = true) : m.cmtStep cx w = m.waitOn cx 0x3B w := if_pos busy

/-- CMT.STEP arrives at the boundary once no transfer is outstanding. -/
theorem Module.cmtStep_arrives (free : s.mod.spanBusy cx = false) :
    SpanBecame s.mod s ⟨(s.mod.cmtStep cx w).settle, s.pending⟩ cx
      fun _ x => { x.moveOn (s.mod.tile cx.o) with core := .arrived } := by
  unfold Module.cmtStep
  rw [if_neg (Bool.eq_false_iff.1 free)]
  exact Module.mapSpan_became

/-- A legal word of opcode 0x3B is a CMT or a CMT.STEP. -/
theorem cmt_or_step {skq2 : Bool} (h : formCmt.bad w skq2 = none) : w.mod.toNat = 0 ∨ w.mod.toNat = 1 := by
  simpa [formCmt] using Form.mod_of_legal h

/-- What a CMT makes of the outcome of its publication (R94, R500). -/
def Ctx.afterPublish (cx : Ctx) : Option Fail × Module → Module
  | (some e, m) => m.failRoute cx.n e
  | (none, m) => m.retire cx

section Commit

variable (issues : Issues s t 0x3B w (formCmt.bad w) cx)
include issues

/-- A CMT.STEP, and a CMT of a Skaesque 2 program, step. -/
theorem exec_cmtStep (h : w.mod.toNat = 0 ∧ cx.sg.prog.skq2 = true ∨ w.mod.toNat = 1) :
    exec (if w.mod.toNat = 1 then .cmtStep t w else .cmt t w) s = .next ⟨(s.mod.cmtStep cx w).settle, s.pending⟩ := by
  rcases h with ⟨zero, skq2⟩ | one
  · rw [if_neg (by omega)]
    refine exec_runs (execCmt.eq_1 t w s) issues ?_
    simp [zero, skq2]
  · rw [if_pos one]
    refine exec_runs (execCmtStep.eq_1 t w s) issues ?_
    simp [one]

/-- With a transfer outstanding either of them waits. -/
theorem exec_commit_busy (busy : s.mod.spanBusy cx = true) :
    exec (if w.mod.toNat = 1 then .cmtStep t w else .cmt t w) s = .next ⟨(s.mod.waitOn cx 0x3B w).settle, s.pending⟩ := by
  rw [← Module.cmtStep_busy busy]
  rcases cmt_or_step issues.legal with zero | one
  · cases skq2 : cx.sg.prog.skq2 with
    | true => exact exec_cmtStep issues (.inl ⟨zero, skq2⟩)
    | false =>
      rw [if_neg (by omega), Module.cmtStep_busy busy]
      refine exec_runs (execCmt.eq_1 t w s) issues ?_
      simp [zero, skq2, busy]
  · exact exec_cmtStep issues (.inr one)

/-- A CMT of a MIDSTEP_CMT program publishes the staged stores of its span. -/
theorem cmt_publishes (zero : w.mod.toNat = 0) (skq3 : cx.sg.prog.skq2 = false) (free : s.mod.spanBusy cx = false)
    (mid : cx.sg.prog.midCmt = true) :
    Yields (.cmt t w) s (cx.afterPublish ((s.mod.mapSpan cx.o fun _ x => { x with staged := [], midCmt := true }).publishAll cx.o.cl
      cx.r.ten.val ((s.mod.spanTiles cx.o).flatMap fun u => (s.mod.tile u).staged))) := by
  refine exec_runs (execCmt.eq_1 t w s) issues ?_
  simp only [zero, skq3, free, mid, zero_ne_one, Bool.false_eq_true, if_false, Bool.not_true]
  generalize Module.publishAll _ _ _ _ = r
  obtain ⟨_ | e, m'⟩ := r <;> rfl

end Commit

/-- Settles O21: with a transfer outstanding the span waits; otherwise a CMT retires, with the staged stores published where the
program has MIDSTEP_CMT, and a CMT.STEP arrives. -/
theorem commitInstructions : Obligations.CommitInstructions := by
  intro t w s cx issues
  refine ⟨fun zero skq3 free plain inside => ?fence, fun zero skq3 free mid => ?publish, fun h free => ?arrives,
    fun busy => ⟨_, exec_commit_busy issues busy, Module.waitOn_waits⟩⟩
  case fence =>
    refine ⟨_, exec_runs (execCmt.eq_1 t w s) issues ?_, Module.retire_only inside⟩
    simp [zero, skq3, free, plain]
  case publish =>
    intro staged m
    have yields : Yields (.cmt t w) s (cx.afterPublish (m.publishAll cx.o.cl cx.r.ten.val staged)) :=
      cmt_publishes issues zero skq3 free mid
    refine ⟨fun m' published => ?_, fun e m' failed => ?_⟩
    · rwa [published] at yields
    · rwa [failed] at yields
  case arrives => exact ⟨_, exec_cmtStep issues h, Module.cmtStep_arrives free⟩

end Sys2Proof.Machine
end

