-- ==== Sys2Proof/Proofs/Boundaries.lean ====
section
/-! The boundary copies of a bay: what a commit saves and a kill restores (O22). -/

namespace Sys2Proof.Machine

variable {x : Tile} {p : Prog} {b k : ℕ}

/-! ### Blocks of the bay (R91) -/

theorem byte_copyBlock {src dst : Mem} : Mem.byte (copyBlock src dst k) b = if b / 128 = k then Mem.byte src b else Mem.byte dst b := by
  unfold copyBlock
  rw [Mem.byte_setBytes, Mem.length_bytes]
  by_cases h : b / 128 = k
  · rw [if_pos h, if_pos (by omega), Mem.getElem?_bytes _ _ _ _ (by omega), Option.getD_some]
    congr 1
    omega
  · rw [if_neg h, if_neg (by omega)]

/-- The byte of an address in the copy that the selector of its block names. -/
def Tile.savedByte (x : Tile) (b : ℕ) : Byte := Mem.byte (if Map.get false x.sel (b / 128) then x.save1 else x.save0) b

@[simp] theorem Tile.saveBlock_bay : (x.saveBlock k).bay = x.bay := by
  unfold Tile.saveBlock
  split <;> rfl

/-- A block that is saved stands in the copy that its selector names then; the others stand where they stood. -/
theorem Tile.savedByte_saveBlock : (x.saveBlock k).savedByte b = if b / 128 = k then Mem.byte x.bay b else x.savedByte b := by
  unfold Tile.saveBlock Tile.savedByte
  by_cases h : b / 128 = k
  · subst h
    split <;> simp [Map.get_set_self, byte_copyBlock]
  · split
    all_goals
      simp only [Map.get_set_ne _ _ (Ne.symm h)]
      split <;> simp [byte_copyBlock, h]

theorem Tile.savedBlocks_bay {ks : List ℕ} : (ks.foldl Tile.saveBlock x).bay = x.bay :=
  List.foldlRecOn (motive := fun y : Tile => y.bay = x.bay) ks _ rfl fun _ h _ _ => Tile.saveBlock_bay.trans h

theorem Tile.savedByte_savedBlocks {ks : List ℕ} :
    (ks.foldl Tile.saveBlock x).savedByte b = if b / 128 ∈ ks then Mem.byte x.bay b else x.savedByte b := by
  induction ks generalizing x with
  | nil => simp
  | cons k ks ih =>
    rw [List.foldl_cons, ih, Tile.saveBlock_bay, Tile.savedByte_saveBlock]
    by_cases h : b / 128 = k <;> simp [h]

/-- A block that is restored holds its saved bytes; the others hold what they held. -/
theorem Tile.byte_restoredBlocks {ks : List ℕ} :
    Mem.byte (ks.foldl Tile.restoreBlock x).bay b = if b / 128 ∈ ks then x.savedByte b else Mem.byte x.bay b := by
  induction ks generalizing x with
  | nil => simp
  | cons k ks ih =>
    have saved : (x.restoreBlock k).savedByte b = x.savedByte b := rfl
    have bay : Mem.byte (x.restoreBlock k).bay b = if b / 128 = k then x.savedByte b else Mem.byte x.bay b := by
      refine byte_copyBlock.trans ?_
      split
      · next h => rw [← h]; rfl
      · rfl
    rw [List.foldl_cons, ih, saved, bay]
    by_cases h : b / 128 = k <;> simp [h]

theorem byte_zeroScratch {bay : Mem} : Mem.byte (zeroScratch p bay) b = if inScratch p (b / 128) then 0 else Mem.byte bay b := by
  have iff : (p.scratchBase * 128 ≤ b ∧ b < p.scratchBase * 128 + p.scratchLen * 128) ↔ inScratch p (b / 128) = true := by
    unfold inScratch
    simp only [Bool.and_eq_true, decide_eq_true_eq]
    omega
  unfold zeroScratch
  rw [Mem.byte_zero]
  exact if_congr iff rfl rfl

/-! ### Commit and kill (R91, R92) -/

/-- The blocks that a step has written outside the scratch region. -/
def Tile.written (x : Tile) (p : Prog) : List ℕ := x.dirty.filter fun b => !inScratch p b

theorem Tile.mem_written : k ∈ x.written p ↔ k ∈ x.dirty ∧ inScratch p k = false := by simp [Tile.written]

theorem Tile.commit_bay : (x.commit p).bay = x.bay := Tile.savedBlocks_bay

theorem Tile.savedByte_commit : (x.commit p).savedByte b = if b / 128 ∈ x.written p then Mem.byte x.bay b else x.savedByte b :=
  Tile.savedByte_savedBlocks

theorem Tile.byte_kill : Mem.byte (x.kill p).bay b = if inScratch p (b / 128) then 0
    else if b / 128 ∈ x.written p then x.savedByte b else Mem.byte x.bay b := by
  refine Eq.trans (byte_zeroScratch (bay := ((x.written p).foldl Tile.restoreBlock x).bay)) ?_
  rw [Tile.byte_restoredBlocks]

/-- Settles O22: of each address, whether its block lies in the scratch region, and whether the step has written it. -/
theorem boundaryCopies : Obligations.BoundaryCopies := by
  intro p x kept
  have kept : ∀ b, inScratch p (b / 128) = false → b / 128 ∉ x.dirty → x.savedByte b = Mem.byte x.bay b := kept
  refine ⟨⟨Tile.commit_bay, rfl, rfl, fun b outside _ => ?_⟩, fun b => ?_, rfl, rfl, rfl, rfl, rfl, rfl, rfl, rfl, rfl⟩
  · refine Tile.savedByte_commit.trans ?_
    rw [Tile.commit_bay]
    split
    · rfl
    · next clean => exact kept b outside fun dirty => clean (Tile.mem_written.2 ⟨dirty, outside⟩)
  · refine Tile.byte_kill.trans ?_
    cases scratch : inScratch p (b / 128) with
    | true => rfl
    | false =>
      simp only [Bool.false_eq_true, if_false]
      split
      · rfl
      · next clean => exact (kept b scratch fun dirty => clean (Tile.mem_written.2 ⟨dirty, scratch⟩)).symm

end Sys2Proof.Machine
end

