-- ==== Sys2Proof/Proofs/Bays.lean ====
section
/-! Loads and stores of the bay, and the reach of a misuse (O9). -/

namespace Sys2Proof.Machine

variable {m : Module} {t u : TileId} {w : Fields} {s s' : State} {cx : Ctx} {x : Tile} {a n size : ℕ}

/-! ### Addresses and extensions (R99) -/

theorem Tile.bayAddr_eq : x.bayAddr w size = ((x.sreg w.a.toNat).toNat + w.imm.toNat) % 2 ^ 32 / size * size := by
  unfold Tile.bayAddr
  rw [BitVec.toNat_add]

theorem toInt_signExtend_byte {v : ℕ} (h : v < 256) :
    ((BitVec.ofNat 8 v).signExtend 32).toInt = if v < 128 then (v : Int) else v - 256 := by
  rw [BitVec.toInt_signExtend_of_le (by decide), BitVec.toInt_eq_toNat_cond, BitVec.toNat_ofNat, Nat.mod_eq_of_lt h]
  split <;> split <;> omega

theorem toInt_signExtend_half {v : ℕ} (h : v < 65536) :
    ((BitVec.ofNat 16 v).signExtend 32).toInt = if v < 32768 then (v : Int) else v - 65536 := by
  rw [BitVec.toInt_signExtend_of_le (by decide), BitVec.toInt_eq_toNat_cond, BitVec.toNat_ofNat, Nat.mod_eq_of_lt h]
  split <;> split <;> omega

theorem bayForms : BayForms := by
  have plain : ∀ v : ℕ, v < 2 ^ 32 → (BitVec.ofNat 32 v).toNat = v :=
    fun v h => (BitVec.toNat_ofNat ..).trans (Nat.mod_eq_of_lt h)
  refine ⟨fun _ _ _ => Tile.bayAddr_eq, rfl, rfl, rfl, rfl, rfl, rfl, rfl, rfl,
    fun v => ⟨fun h => ?byte, fun h => ?half, plain v⟩⟩
  case byte => exact ⟨plain v (by omega), toInt_signExtend_byte h⟩
  case half => exact ⟨plain v (by omega), toInt_signExtend_half h⟩

/-- An aligned access that begins in the bay ends in it. -/
theorem Tile.bayAddr_fits (hs : size ∣ 0x10000) (h : x.bayAddr w size < 0x10000) : x.bayAddr w size + size ≤ 0x10000 := by
  obtain ⟨k, hk⟩ := hs
  unfold Tile.bayAddr at *
  generalize (x.sreg w.a.toNat + w.imm).toNat / size = q at *
  rw [hk, Nat.mul_comm size k] at h ⊢
  rw [← Nat.succ_mul]
  exact Nat.mul_le_mul_right _ (Nat.lt_of_mul_lt_mul_right h)

theorem Tile.bayRead_fits (h : a + n ≤ 0x10000) : x.bayRead a n = .ok (Mem.bytes x.bay a n) := if_neg (Nat.not_lt.2 h)

theorem Tile.bayRead_range (h : 0x10000 < a + n) : x.bayRead a n = .error .bayRange := if_pos h

theorem Tile.bayWrite_range {bs : List Byte} (h : 0x10000 < a + bs.length) : x.bayWrite a bs = .error .bayRange := if_pos h

/-! ### Spans one of whose tiles faults -/

/-- A span of which some tile faults is a misuse as a whole. -/
theorem Module.eachE_fault {f : TileId → Tile → Except Misuse Tile} {e : Misuse} (hu : u ∈ m.spanTiles cx.o)
    (hf : f u (m.tile u) = .error e) : ∃ e', m.eachE cx f = .error e' := by
  have key : ∀ us : List TileId, us.Nodup → u ∈ us → ∀ m' : Module, m'.tile u = m.tile u →
      ∃ e', us.foldlM (fun m v => do let x ← f v (m.tile v); return m.setTile v x) m' = (.error e' : Except Misuse Module) := by
    intro us
    induction us with
    | nil => exact fun _ h => absurd h List.not_mem_nil
    | cons v us ih =>
      intro hn hmem m' same
      obtain ⟨hv, hn⟩ := List.nodup_cons.1 hn
      rw [List.foldlM_cons]
      by_cases hvu : v = u
      · subst hvu
        rw [same, hf]
        exact ⟨e, rfl⟩
      · cases hx : f v (m'.tile v) with
        | error e' => exact ⟨e', rfl⟩
        | ok x =>
          exact ih hn ((List.mem_cons.1 hmem).resolve_left (Ne.symm hvu)) (m'.setTile v x)
            ((m'.tile_setTile_ne (Ne.symm hvu) x).trans same)
  obtain ⟨e', he⟩ := key _ (m.spanTiles_nodup cx.o) hu m rfl
  exact ⟨e', by unfold Module.eachE; simp only [he]⟩

/-! ### The instructions that reach the bay -/

/-- The command does `f` in every tile of its span: what `g` makes of the tile where the access, aligned to `size`, lies in the
bay, and a misuse where it does not. -/
structure BayOp (c : Instr) (t : TileId) (op : Byte) (w : Fields) (form : Form) (size : ℕ) (f : Tile → Except Misuse Tile)
    (g : Tile → Tile) : Prop where
  runs : ∀ s, exec c s = s.tileOp t op w form fun cx m => m.eachE cx fun _ => f
  aligned : size ∣ 0x10000
  fits : ∀ x : Tile, x.bayAddr w size + size ≤ 0x10000 → f x = .ok (g x)
  range : ∀ x : Tile, 0x10000 < x.bayAddr w size + size → f x = .error .bayRange
  control : KeepsControl fun _ => g

section BayOp

variable {c : Instr} {op : Byte} {form : Form} {f : Tile → Except Misuse Tile} {g : Tile → Tile} (h : BayOp c t op w form size f g)
  (issues : Issues s t op w (form.bad w) cx)
include h issues

theorem BayOp.did (inside : Inside s.mod cx) (low : ∀ u ∈ s.mod.spanTiles cx.o, (s.mod.tile u).bayAddr w size < 0x10000) :
    ∃ s', exec c s = .next s' ∧ SpanDid s.mod s s' cx fun _ => g := by
  rw [h.runs, State.tileOp_eq]
  exact State.eachE_did (f := f) issues inside rfl h.control fun u hu => h.fits _ (Tile.bayAddr_fits h.aligned (low u hu))

theorem BayOp.misuse (high : ∃ u ∈ s.mod.spanTiles cx.o, 0x10000 ≤ (s.mod.tile u).bayAddr w size) :
    Yields c s (s.mod.undefined cx.r.ten) := by
  obtain ⟨u, hu, high⟩ := high
  have pos : 0 < size := Nat.pos_of_dvd_of_pos h.aligned (by decide)
  obtain ⟨e, fault⟩ := Module.eachE_fault hu (f := fun _ => f) (h.range (s.mod.tile u) (by omega))
  unfold Yields
  rw [h.runs, State.tileOp_issues rfl issues, fault, Module.orUndefined_error]

end BayOp

/-! ### Loads -/

/-- A tile that gives the bytes of its access to `put`. -/
def loadWith (w : Fields) (size : ℕ) (put : Tile → List Byte → Tile) (x : Tile) : Except Misuse Tile := do
  let bs ← x.bayRead (x.bayAddr w size) size
  return put x bs

theorem BayOp.load {c : Instr} {op : Byte} {form : Form} {put : Tile → List Byte → Tile}
    (runs : ∀ s, exec c s = s.tileOp t op w form fun cx m => m.eachE cx fun _ => loadWith w size put)
    (aligned : size ∣ 0x10000) (control : ∀ bs, KeepsControl fun _ x => put x bs) :
    BayOp c t op w form size (loadWith w size put) fun x => put x (Mem.bytes x.bay (x.bayAddr w size) size) where
  runs := runs
  aligned := aligned
  fits x h := by
    unfold loadWith
    rw [Tile.bayRead_fits h]
    rfl
  range x h := by
    unfold loadWith
    rw [Tile.bayRead_range h]
    rfl
  control u x := control _ u x

theorem ldSize_dvd : ldSize n ∣ 0x10000 := by
  unfold ldSize
  split
  · decide
  · split <;> decide

/-- The registers that LD, LDA and LDV write with the bytes they read. -/
def putLd (w : Fields) (x : Tile) (bs : List Byte) : Tile := x.setS w.d.toNat (ldExtend w.mod.toNat (leNat bs))
def putLda (w : Fields) (x : Tile) (bs : List Byte) : Tile := x.setA w.d.toNat (BitVec.ofNat 64 (leNat bs))
def putLdv (w : Fields) (x : Tile) (bs : List Byte) : Tile := x.setLanes w.d.toNat (x.preg w.mod.toNat) (wordAt bs)

theorem ld_bayOp (t : TileId) (w : Fields) : BayOp (.ld t w) t 0x20 w formLd (ldSize w.mod.toNat)
    (loadWith w (ldSize w.mod.toNat) (putLd w)) fun x =>
      putLd w x (Mem.bytes x.bay (x.bayAddr w (ldSize w.mod.toNat)) (ldSize w.mod.toNat)) :=
  .load (execLd.eq_1 t w) ldSize_dvd fun _ _ _ => Tile.setS_control ..

theorem lda_bayOp (t : TileId) (w : Fields) : BayOp (.lda t w) t 0x22 w formLda 8 (loadWith w 8 (putLda w)) fun x =>
    putLda w x (Mem.bytes x.bay (x.bayAddr w 8) 8) :=
  .load (execLda.eq_1 t w) (by decide) fun _ _ _ => ⟨rfl, rfl⟩

theorem ldv_bayOp (t : TileId) (w : Fields) : BayOp (.ldv t w) t 0x24 w formLdv 128 (loadWith w 128 (putLdv w)) fun x =>
    putLdv w x (Mem.bytes x.bay (x.bayAddr w 128) 128) :=
  .load (execLdv.eq_1 t w) (by decide) fun _ _ _ => Tile.setLanes_control ..

theorem bayLoads : BayLoads := fun t w _ _ =>
  ⟨(ld_bayOp t w).did, (lda_bayOp t w).did, (ldv_bayOp t w).did, (ld_bayOp t w).misuse, (lda_bayOp t w).misuse,
    (ldv_bayOp t w).misuse⟩

/-! ### Stores -/

theorem getElem?_leBytes {v k : ℕ} (h : k < n) : (leBytes n v)[k]? = some (BitVec.ofNat 8 (v / 256 ^ k)) := by
  induction n generalizing v k with
  | zero => omega
  | succ n ih =>
    cases k with
    | zero => simp [leBytes]
    | succ k =>
      rw [leBytes, List.getElem?_cons_succ, ih (by omega), Nat.div_div_eq_div_mul, Nat.pow_succ, Nat.mul_comm]

/-- The bytes of a bay after a number is laid out in it. -/
theorem Mem.byte_setBytes_leBytes {bay : Mem} {v b : ℕ} : Mem.byte (Mem.setBytes bay a (leBytes n v)) b =
    if a ≤ b ∧ b < a + n then BitVec.ofNat 8 (v / 256 ^ (b - a)) else Mem.byte bay b := by
  rw [Mem.byte_setBytes, length_leBytes]
  split
  · rw [getElem?_leBytes (by omega), Option.getD_some]
  · rfl

/-- What changes of each tile is its bay, and the record of the blocks written. -/
theorem SpanDid.bayStored {g : Tile → Tile} {addr : Tile → ℕ} {byte : Tile → ℕ → Option Byte}
    (did : SpanDid s.mod s s' cx fun _ => g) (rest : ∀ x, g x = { x with bay := (g x).bay, dirty := (g x).dirty })
    (bytes : ∀ x b, Mem.byte (g x).bay b = if addr x ≤ b ∧ b < addr x + size
      then (byte x (b - addr x)).getD (Mem.byte x.bay b) else Mem.byte x.bay b) :
    BayStored s s' cx addr size byte := by
  refine ⟨did.congr fun u hu => ?_, fun u hu b => ?_⟩
  · rw [did.tile_eq hu]
    exact rest _
  · rw [did.tile_eq hu]
    exact bytes _ b

/-- A tile that lays a number out in its bay. -/
def storeWith (w : Fields) (size : ℕ) (value : Tile → ℕ) (x : Tile) : Except Misuse Tile :=
  x.bayWrite (x.bayAddr w size) (leBytes size (value x))

theorem BayOp.store {c : Instr} {op : Byte} {form : Form} {value : Tile → ℕ}
    (runs : ∀ s, exec c s = s.tileOp t op w form fun cx m => m.eachE cx fun _ => storeWith w size value)
    (aligned : size ∣ 0x10000) :
    BayOp c t op w form size (storeWith w size value) fun x => x.wrote (x.bayAddr w size, leBytes size (value x)) where
  runs := runs
  aligned := aligned
  fits x h := Tile.bayWrite_ok (p := (_, _)) (by rwa [length_leBytes])
  range x h := Tile.bayWrite_range (by rwa [length_leBytes])
  control _ _ := ⟨rfl, rfl⟩

theorem stSize_dvd : stSize n ∣ 0x10000 := by
  unfold stSize
  split
  · decide
  · split <;> decide

theorem st_bayOp (t : TileId) (w : Fields) : BayOp (.st t w) t 0x21 w formSt (stSize w.mod.toNat)
    (storeWith w (stSize w.mod.toNat) fun x => (x.sreg w.b.toNat).toNat) fun x =>
      x.wrote (x.bayAddr w (stSize w.mod.toNat), leBytes (stSize w.mod.toNat) (x.sreg w.b.toNat).toNat) :=
  .store (execSt.eq_1 t w) stSize_dvd

theorem sta_bayOp (t : TileId) (w : Fields) : BayOp (.sta t w) t 0x23 w formSta 8
    (storeWith w 8 fun x => (x.areg w.b.toNat).toNat) fun x =>
      x.wrote (x.bayAddr w 8, leBytes 8 (x.areg w.b.toNat).toNat) :=
  .store (execSta.eq_1 t w) (by decide)

/-- The bytes of a tile that has laid a number out in its bay. -/
theorem Tile.byte_wrote {v b : ℕ} : Mem.byte (x.wrote (a, leBytes n v)).bay b = if a ≤ b ∧ b < a + n
    then (some (BitVec.ofNat 8 (v / 256 ^ (b - a)))).getD (Mem.byte x.bay b) else Mem.byte x.bay b :=
  Mem.byte_setBytes_leBytes

/-! ### STV -/

/-- The tile after the words of its first `n` predicated lanes are stored. -/
def Tile.storedLanes (x : Tile) (a r : ℕ) (mask : Word) (n : ℕ) : Tile :=
  (List.range n).foldl (fun y l => if mask.getLsbD l then y.wrote (a + 4 * l, leBytes 4 (y.lane r l).toNat) else y) x

variable {r : ℕ} {mask : Word}

theorem Tile.storedLanes_succ : x.storedLanes a r mask (n + 1) =
    if mask.getLsbD n then (x.storedLanes a r mask n).wrote (a + 4 * n, leBytes 4 ((x.storedLanes a r mask n).lane r n).toNat)
    else x.storedLanes a r mask n := by
  unfold Tile.storedLanes
  rw [List.range_succ, List.foldl_append]
  rfl

theorem Tile.storedLanes_rest : x.storedLanes a r mask n =
    { x with bay := (x.storedLanes a r mask n).bay, dirty := (x.storedLanes a r mask n).dirty } := by
  induction n with
  | zero => rfl
  | succ n ih =>
    rw [Tile.storedLanes_succ]
    split
    · unfold Tile.wrote
      rw [ih]
    · exact ih

theorem Tile.storedLanes_control : (x.storedLanes a r mask n).pc = x.pc ∧ (x.storedLanes a r mask n).loops = x.loops := by
  rw [Tile.storedLanes_rest]
  exact ⟨rfl, rfl⟩

theorem Tile.storedLanes_lane {i l : ℕ} : (x.storedLanes a r mask n).lane i l = x.lane i l := by
  rw [Tile.storedLanes_rest]
  rfl

/-- Each byte of the range comes from its lane, where the predicate includes that. -/
theorem Tile.byte_storedLanes {b : ℕ} : Mem.byte (x.storedLanes a r mask n).bay b =
    if a ≤ b ∧ b < a + 4 * n then
      (if mask.getLsbD ((b - a) / 4) then some (BitVec.ofNat 8 ((x.lane r ((b - a) / 4)).toNat / 256 ^ ((b - a) % 4)))
        else none).getD (Mem.byte x.bay b)
    else Mem.byte x.bay b := by
  induction n with
  | zero => exact (if_neg (by omega)).symm
  | succ n ih =>
    have last : (Mem.byte (x.storedLanes a r mask (n + 1)).bay b) =
        if mask.getLsbD n ∧ a + 4 * n ≤ b ∧ b < a + 4 * n + 4 then BitVec.ofNat 8 ((x.lane r n).toNat / 256 ^ (b - (a + 4 * n)))
        else Mem.byte (x.storedLanes a r mask n).bay b := by
      rw [Tile.storedLanes_succ, Tile.storedLanes_lane]
      split
      · next h => simp only [h, true_and]; exact Mem.byte_setBytes_leBytes
      · next h => simp only [h, false_and, Bool.false_eq_true, if_false]
    rw [last, ih]
    by_cases here : a + 4 * n ≤ b ∧ b < a + 4 * n + 4
    · have lane : (b - a) / 4 = n := by omega
      have rem : (b - a) % 4 = b - (a + 4 * n) := by omega
      rw [lane, rem, if_pos (show a ≤ b ∧ b < a + 4 * (n + 1) by omega), if_neg (show ¬ (a ≤ b ∧ b < a + 4 * n) by omega)]
      by_cases hm : mask.getLsbD n = true <;> simp [hm, here]
    · rw [if_neg fun h => here h.2]
      exact if_congr (by omega) rfl rfl

theorem Tile.storeLanes_ok (h : a + 128 ≤ 0x10000) : x.storeLanes a r mask = .ok (x.storedLanes a r mask 32) := by
  refine foldlM_ok (fun y l hl => ?_) x
  rw [List.mem_range] at hl
  split
  · have fits : a + 4 * l + (leBytes 4 (y.lane r l).toNat).length ≤ 0x10000 := by rw [length_leBytes]; omega
    exact Tile.bayWrite_ok (p := (_, _)) fits
  · rfl

/-- What STV does in a tile. -/
def storeV (w : Fields) (x : Tile) : Except Misuse Tile :=
  if 0x10000 < x.bayAddr w 128 + 128 then .error .bayRange else x.storeLanes (x.bayAddr w 128) w.b.toNat (x.preg w.mod.toNat)

theorem stv_bayOp (t : TileId) (w : Fields) : BayOp (.stv t w) t 0x25 w formStv 128 (storeV w)
    fun x => x.storedLanes (x.bayAddr w 128) w.b.toNat (x.preg w.mod.toNat) 32 where
  runs _ := rfl
  aligned := by decide
  fits _ h := (if_neg (Nat.not_lt.2 h)).trans (Tile.storeLanes_ok h)
  range _ h := if_pos h
  control _ _ := Tile.storedLanes_control

theorem bayStores : BayStores := by
  intro t w s cx
  refine ⟨fun issues inside low => ?st, fun issues inside low => ?sta, fun issues inside low => ?stv, (st_bayOp t w).misuse,
    (sta_bayOp t w).misuse, (stv_bayOp t w).misuse⟩
  case st =>
    obtain ⟨s', next, did⟩ := (st_bayOp t w).did issues inside low
    exact ⟨s', next, did.bayStored (fun _ => rfl) fun _ _ => Tile.byte_wrote⟩
  case sta =>
    obtain ⟨s', next, did⟩ := (sta_bayOp t w).did issues inside low
    exact ⟨s', next, did.bayStored (fun _ => rfl) fun _ _ => Tile.byte_wrote⟩
  case stv =>
    obtain ⟨s', next, did⟩ := (stv_bayOp t w).did issues inside low
    exact ⟨s', next, did.bayStored (fun _ => Tile.storedLanes_rest) fun _ _ => Tile.byte_storedLanes⟩

/-! ### What undefined behaviour leaves as it was (R2) -/

theorem tileKey_cluster (u : TileId) : tileKey u / 256 = u.cl.val := by
  unfold tileKey
  omega

theorem Module.tileAt_setTileAt_ne {k j : ℕ} (h : j ≠ k) : (m.setTileAt j x).tileAt k = m.tileAt k := by
  unfold Module.tileAt Module.setTileAt
  rw [Map.get?_insert_ne _ h]

/-- The module with free values in the tiles of a cluster. -/
def Module.undefineTiles (m : Module) (ix c : ℕ) : Module :=
  (List.range 256).foldl (fun m k => m.setTileAt (c * 256 + k) ((m.tileAt (c * 256 + k)).undefined ix (c * 256 + k))) m

/-- A frame or a bank of free values. -/
def fillUnit (i size : ℕ) (mem : Mem) (b : ℕ) : Mem :=
  Mem.setBytes mem (b * size) ((List.range size).map fun j => Config.undefinedByte i (b * size + j))

theorem Module.undefineTiles_rest {ix c : ℕ} : m.undefineTiles ix c = { m with tiles := (m.undefineTiles ix c).tiles } :=
  List.foldlRecOn (motive := fun (m' : Module) => m' = { m with tiles := m'.tiles }) (List.range 256) _ rfl fun _ h _ _ => by
    rw [h]; rfl

theorem Module.undefineTiles_tile {ix c : ℕ} (h : u.cl.val ≠ c) : (m.undefineTiles ix c).tile u = m.tile u :=
  List.foldlRecOn (motive := fun (m' : Module) => m'.tile u = m.tile u) (List.range 256) _ rfl fun _ same k hk => by
    rw [List.mem_range] at hk
    refine (Module.tileAt_setTileAt_ne fun e => h ?_).trans same
    rw [← tileKey_cluster u, ← e]
    omega

theorem Module.undefinedTiles_rest {ix : ℕ} {cs : List ℕ} : cs.foldl (fun m c => m.undefineTiles ix c) m =
    { m with tiles := (cs.foldl (fun m c => m.undefineTiles ix c) m).tiles } :=
  List.foldlRecOn (motive := fun (m' : Module) => m' = { m with tiles := m'.tiles }) cs _ rfl fun _ h _ _ => by
    rw [Module.undefineTiles_rest, h]

theorem Module.undefinedTiles_tile {ix : ℕ} {cs : List ℕ} (h : u.cl.val ∉ cs) :
    (cs.foldl (fun m c => m.undefineTiles ix c) m).tile u = m.tile u :=
  List.foldlRecOn (motive := fun (m' : Module) => m'.tile u = m.tile u) cs _ rfl fun _ same _ hc =>
    (Module.undefineTiles_tile fun e => h (e ▸ hc)).trans same

/-- Free values in some units leave the bytes of every other. -/
theorem byte_fillUnits {i b : ℕ} {us : List ℕ} {mem : Mem} (h : b / size ∉ us) :
    Mem.byte (us.foldl (fillUnit i size) mem) b = Mem.byte mem b :=
  List.foldlRecOn (motive := fun (mem' : Mem) => Mem.byte mem' b = Mem.byte mem b) us _ rfl fun _ same u hu => by
    unfold fillUnit
    rw [Mem.byte_setBytes, List.length_map, List.length_range, if_neg, same]
    rintro ⟨low, high⟩
    refine h ?_
    rwa [Nat.div_eq_of_lt_le (by omega) (by rw [Nat.succ_mul]; omega)]

/-- The DRAM frames that a misuse of the tenancy fills, and the Hold banks. -/
def Module.ownFrames (m : Module) (t : Ten) : List ℕ := (m.tags.map (·.1)).filter fun f => m.ownsFrame t.val f

def Module.ownBanks (m : Module) (t : Ten) : List ℕ :=
  if m.flag Fld.HLD_TEN_EXT_RUN_VALID t.val 0 then (List.range (m.fld Fld.HLD_TEN_EXT_COUNT t.val 0)).map fun k =>
    bitsAt (m.mapEntry (m.holdEntry t.val 0 (m.fld Fld.HLD_TEN_EXT_TBANK_FIRST t.val 0 + k))).toNat 0 15
  else []

/-- The module with free values in every tile of the tenancy. -/
def Module.undefinedTiles (m : Module) (t : Ten) : Module := (m.assigned t).foldl (fun m' c => m'.undefineTiles m.freeIx c) m

/-- The module `m'` with free values in the frames and the banks that the tenancy owns in `m`. -/
def Module.undefineMems (m' m : Module) (t : Ten) : Module :=
  { m' with
    freeIx := m.freeIx + 3
    dram := (m.ownFrames t).foldl (fillUnit (m.freeIx + 1) frameBytes) m'.dram
    hold := (m.ownBanks t).foldl (fillUnit (m.freeIx + 2) bankBytes) m'.hold }

theorem Module.undefined_eq {t : Ten} :
    m.undefined t = ({ m with tiles := (m.undefinedTiles t).tiles } : Module).undefineMems m t := by
  have rest : m.undefinedTiles t = { m with tiles := (m.undefinedTiles t).tiles } := Module.undefinedTiles_rest
  calc m.undefined t = (m.undefinedTiles t).undefineMems m t := rfl
    _ = _ := congrArg (·.undefineMems m t) rest

theorem undefinedConfined : UndefinedConfined := by
  intro m t
  rw [Module.undefined_eq]
  refine ⟨fun _ _ _ => rfl, fun u other => Module.undefinedTiles_tile other, fun a foreign => byte_fillUnits fun own => ?_,
    fun none => ?_, rfl, rfl, rfl, rfl, rfl⟩
  · have owned := (List.mem_filter.1 own).2
    rw [foreign] at owned
    cases owned
  · show (m.ownBanks t).foldl _ m.hold = m.hold
    unfold Module.ownBanks
    rw [none]
    rfl

/-- Settles O9: an access that lies in the bay reads or writes there in every tile, one that does not is a misuse of the span, and a
misuse fills what is the tenancy's own. -/
theorem bayAccess : Obligations.BayAccess := ⟨bayForms, bayLoads, bayStores, undefinedConfined⟩

end Sys2Proof.Machine
end

