-- ==== Sys2Proof/Proofs/Flags.lean ====
section
/-! FLAG, FLAGW, and the delivery of FLAG packets (O24). -/

namespace Sys2Proof.Machine

variable {m m' : Module} {t u v : TileId} {w : Fields} {s : State} {cx : Ctx} {x : Tile} {ten : Ten} {dest : Word} {vc : BitVec 4}
  {bs : List Byte}

/-! ### What FLAG sends (R36, R41, R106) -/

/-- What the digest of a tile takes of a FLAG, where its tenancy runs twins (R413). -/
def Module.flagged (m : Module) (ten : Ten) (dest : Word) (bs : List Byte) (x : Tile) : Tile :=
  x.notedIf (m.twinned ten.val) (flagNote dest bs)

/-- The FLAG of a twin goes into its digest alone. -/
theorem Module.sendFlag_twin (ht : m.isTwin u = true) :
    m.Posted (m.sendPacket ten u 4 dest vc .flag bs) 0 [] (Function.update m.tile u (m.flagged ten dest bs (m.tile u))) := by
  have rest := Module.noteTile_rest (m := m) (ten := ten) (u := u) (bs := flagNote dest bs)
  have sent : m.sendPacket ten u 4 dest vc .flag bs = m.noteTile ten.val u (flagNote dest bs) :=
    if_pos (show (m.noteTile ten.val u (flagNote dest bs)).isTwin u = true by rw [rest]; exact ht)
  rw [sent]
  exact ⟨by simpa using rest, fun v => Module.tile_noteTile⟩

/-- A FLAG enters the send buffer of its tile. -/
theorem Module.sendFlag_queued (ht : m.isTwin u = false) (hv : m.tileAddr ten dest = some v) :
    m.Posted (m.sendPacket ten u 4 dest vc .flag bs) 1 [] (Function.update m.tile u { m.flagged ten dest bs (m.tile u) with
      sendX := (m.tile u).sendX ++ [⟨m.deckSeq, u, v, 4, vc, .flag, ten, bs, true⟩] }) := by
  have rest := Module.noteTile_rest (m := m) (ten := ten) (u := u) (bs := flagNote dest bs)
  have tile : ∀ v, (m.noteTile ten.val u (flagNote dest bs)).tile v
      = Function.update m.tile u (m.flagged ten dest bs (m.tile u)) v := fun v => Module.tile_noteTile
  unfold Module.sendPacket
  simp only [beq_self_eq_true, if_true]
  generalize m.noteTile ten.val u (flagNote dest bs) = m1 at *
  have addr : m1.tileAddr ten dest = some v := by rw [rest]; exact hv
  have seq : m1.deckSeq = m.deckSeq := by rw [rest]
  have plain : m1.isTwin u = false := by rw [rest]; exact ht
  have buffer : (m.flagged ten dest bs (m.tile u)).sendX = (m.tile u).sendX := by
    unfold Module.flagged Tile.notedIf
    split <;> rfl
  simp only [plain, addr, seq, Bool.false_eq_true, if_false]
  refine ⟨?_, fun j => ?_⟩
  · rw [rest]
    simp [Module.setTile, Module.setTileAt]
  · by_cases hj : j = u
    · subst hj
      rw [Module.tile_setTile_self, Function.update_self, tile, Function.update_self, buffer]
    · rw [Module.tile_setTile_ne _ hj, Function.update_of_ne hj]
      exact (tile j).trans (Function.update_of_ne hj ..)

/-- The increment and the number of the counter that a FLAG word names. -/
def flagData (w : Fields) : List Byte := leBytes 2 (immBits w 6 16) ++ leBytes 2 (immBits w 0 6)

/-- The turn of a tile. -/
def Module.flagTurn (cx : Ctx) (w : Fields) (m : Module) (u : TileId) : Module :=
  m.sendPacket cx.r.ten u 4 ((m.tile u).sreg w.a.toNat) 14 .flag (flagData w)

/-- What the digest of a tile takes of the FLAG word. -/
def Module.flagNoted (m : Module) (cx : Ctx) (w : Fields) (x : Tile) : Tile :=
  m.flagged cx.r.ten (x.sreg w.a.toNat) (flagData w) x

/-- A tile with its FLAG of number `q` in its send buffer. -/
def Module.putFlag (m : Module) (cx : Ctx) (w : Fields) (u : TileId) (q : ℕ) (x : Tile) : Tile :=
  match m.tileAddr cx.r.ten (x.sreg w.a.toNat) with
  | some v => { m.flagNoted cx w x with sendX := x.sendX ++ [⟨q, u, v, 4, 14, .flag, cx.r.ten, flagData w, true⟩] }
  | none => x

theorem Module.flagged_control : (m.flagged ten dest bs x).pc = x.pc ∧ (m.flagged ten dest bs x).loops = x.loops := by
  unfold Module.flagged Tile.notedIf
  split <;> exact ⟨rfl, rfl⟩

theorem Module.putFlag_keepsControl {q : TileId → ℕ} : KeepsControl fun u x => m.putFlag cx w u (q u) x := by
  intro u x
  simp only [Module.putFlag]
  split
  · exact Module.flagged_control
  · exact ⟨rfl, rfl⟩

/-- Modules that differ in tiles and Deck note a FLAG alike. -/
theorem Module.DeckOnly.flagNoted (h : m.DeckOnly m') : m'.flagNoted cx w x = m.flagNoted cx w x := by
  rw [h]
  rfl

/-- The turns of the tiles of a twin change digests alone. -/
theorem Module.flagTurns_twin (ht : m.isTwin cx.o = true) :
    m.Posted ((m.spanTiles cx.o).foldl (Module.flagTurn cx w) m) 0 []
      (fun v => if v ∈ m.spanTiles cx.o then m.flagNoted cx w (m.tile v) else m.tile v) := by
  have h := Module.foldl_posted (m := m) (f := Module.flagTurn cx w) (c := 0) (put := fun _ _ x => m.flagNoted cx w x)
    (pkt := fun _ _ => none) (m.spanTiles_nodup cx.o) fun m' hm u hu _ => by
      rw [← hm.flagNoted]
      exact Module.sendFlag_twin ((Module.isTwin_span hm hu).trans ht)
  simpa using h

/-- The turns of the other tiles each queue a FLAG, in the order of the span. -/
theorem Module.flagTurns_queued (ht : m.isTwin cx.o = false)
    (hv : ∀ u ∈ m.spanTiles cx.o, (m.tileAddr cx.r.ten ((m.tile u).sreg w.a.toNat)).isSome = true) :
    m.Posted ((m.spanTiles cx.o).foldl (Module.flagTurn cx w) m) (m.spanTiles cx.o).length []
      (fun v => if v ∈ m.spanTiles cx.o
        then m.putFlag cx w v (m.deckSeq + (m.spanTiles cx.o).idxOf v) (m.tile v) else m.tile v) := by
  have h := Module.foldl_posted (m := m) (f := Module.flagTurn cx w) (c := 1) (put := m.putFlag cx w)
    (pkt := fun _ _ => none) (m.spanTiles_nodup cx.o) ?turn
  · simpa only [Nat.one_mul, List.filterMap_none] using h
  intro m' hm u hu same
  obtain ⟨v, hv⟩ := Option.isSome_iff_exists.1 (hv u hu)
  have addr : m'.tileAddr cx.r.ten ((m'.tile u).sreg w.a.toNat) = some v := by rw [same, hm]; exact hv
  have post := Module.sendFlag_queued (vc := 14) (bs := flagData w) ((Module.isTwin_span hm hu).trans ht) addr
  unfold Module.flagTurn Module.putFlag
  rw [same] at post ⊢
  rw [hv, ← hm.flagNoted]
  exact post

theorem flag_runs (issues : Issues s t 0x39 w (formFlag.bad w) cx) :
    exec (.flag t w) s = .next ⟨(((s.mod.spanTiles cx.o).foldl (Module.flagTurn cx w) s.mod).retire cx).settle, s.pending⟩ :=
  exec_runs (execFlag.eq_1 t w s) issues rfl

/-! ### FLAGW (R106) -/

/-- A tile that takes an amount from a counter, which stops at zero, and writes the value from before. -/
def Tile.takeFlag (x : Tile) (f amount d : ℕ) : Tile :=
  ({ x with flags := Map.set 0 x.flags f (BitVec.ofNat 16 ((Map.get 0 x.flags f).toNat - amount)) } : Tile).setS d
    (BitVec.ofNat 32 (Map.get 0 x.flags f).toNat)

theorem flagInstructions : FlagInstructions := by
  intro t w s cx inside
  refine ⟨fun issues named => ?flag, fun issues => ⟨fun few => ?waits, fun enough => ?takes⟩⟩
  case flag =>
    intro us data noted
    refine ⟨fun twin => ?twin, fun plain => ?queued⟩
    case twin =>
      have turns := Module.flagTurns_twin (w := w) twin
      refine ⟨_, flag_runs issues, Module.retire_did (base := s.mod) (fun _ _ => Module.flagged_control) inside ?_ turns.tiles⟩
      simpa using turns.rest
    case queued =>
      have turns := Module.flagTurns_queued (w := w) plain named
      refine ⟨_, flag_runs issues, Module.retire_did (base := { s.mod with deckSeq := s.mod.deckSeq + us.length })
        (f := fun u x => s.mod.putFlag cx w u (s.mod.deckSeq + us.idxOf u) x) Module.putFlag_keepsControl inside ?_ turns.tiles⟩
      simpa using turns.rest
  case waits => exact ⟨_, exec_runs (execFlagw.eq_1 t w s) issues (if_pos few), Module.waitOn_waits⟩
  case takes =>
    exact ⟨_, exec_runs (execFlagw.eq_1 t w s) issues (if_neg (Nat.not_lt.2 enough)),
      Module.each_did (f := fun _ x => x.takeFlag (immBits w 0 6) (immBits w 6 16) w.d.toNat)
        (fun _ _ => Tile.setS_control ..) inside⟩

/-! ### Delivery (R106, R413) -/

/-- A packet is taken by its tile, and by that tile's twin. -/
theorem Module.tile_deliverPacket {k : DeckPkt} (apart : ∀ u, m.twinTile k.dst = some u → u ≠ k.dst) :
    (m.deliverPacket k).tile u = if u = k.dst ∨ m.twinTile k.dst = some u then (m.tile u).takeDeck k else m.tile u := by
  have twin : (m.setTile k.dst ((m.tile k.dst).takeDeck k)).twinTile k.dst = m.twinTile k.dst := rfl
  unfold Module.deliverPacket
  simp only [twin]
  by_cases hu : u = k.dst
  · subst hu
    rw [if_pos (.inl rfl)]
    split
    · next v hv => rw [Module.tile_setTile_ne _ (apart v hv).symm, Module.tile_setTile_self]
    · rw [Module.tile_setTile_self]
  · split
    · next v hv =>
      by_cases hvu : v = u
      · subst hvu
        rw [Module.tile_setTile_self, Module.tile_setTile_ne _ hu, if_pos (.inr hv)]
      · rw [Module.tile_setTile_ne _ (Ne.symm hvu), Module.tile_setTile_ne _ hu, if_neg (by simp [hu, hv, hvu])]
    · next hv => rw [Module.tile_setTile_ne _ hu, if_neg (by simp [hu, hv])]

theorem Tile.takeDeck_flag {k : DeckPkt} (h : k.kind = .flag) : x.takeDeck k = x.addFlag (fieldAt k.data 2 2) (fieldAt k.data 0 2) :=
  if_pos (by simp [h])

theorem Tile.addFlag_flags {f n g : ℕ} : Map.get 0 (x.addFlag f n).flags g =
    if f = g then BitVec.ofNat 16 (min 65535 ((Map.get 0 x.flags f).toNat + n)) else Map.get 0 x.flags g := Map.get_set ..

theorem flagDelivery : FlagDelivery := by
  intro m k flag apart f sum
  have own : (m.deliverPacket k).tile k.dst = (m.tile k.dst).addFlag f (fieldAt k.data 0 2) := by
    rw [Module.tile_deliverPacket apart, if_pos (.inl rfl), Tile.takeDeck_flag flag]
  refine ⟨?_, fun g other => ?_, fun u other untwinned => ?_, fun u twin => ?_⟩
  · rw [own, Tile.addFlag_flags, if_pos rfl, BitVec.toNat_ofNat, Nat.mod_eq_of_lt (by omega)]
  · rw [own, Tile.addFlag_flags, if_neg (Ne.symm other)]
  · rw [Module.tile_deliverPacket apart, if_neg (by simp [other, untwinned])]
  · rw [Module.tile_deliverPacket apart, if_pos (.inr twin), Tile.takeDeck_flag flag]

/-- Settles O24: the tiles of a span queue their FLAG packets in turn, FLAGW waits or takes the amount in every tile, and a packet
adds to one counter of its tile and of the twin. -/
theorem flags : Obligations.Flags := ⟨flagInstructions, flagDelivery⟩

end Sys2Proof.Machine
end

