-- ==== Sys2Proof/Proofs/Transfers.lean ====
section
/-! Transfers of a span: the checks keep its shape, and each tile's transfer joins its engine (O16). -/

namespace Sys2Proof.Machine

variable {m m' : Module} {t u : TileId} {w : Fields} {s : State} {cx : Ctx} {x : Tile}

/-! ### Registers that a translation keeps -/

theorem RegKept.addFld {r : RegId} (m : Module) {f : Field} {i j : ℕ} (n : ℕ) (hr : r ≠ f.reg) (hi : i < 2 ^ 24)
    (hj : j < 2 ^ 16) : RegKept r m (m.addFld f i j n) := RegKept.setFld m _ hr hi hj

theorem RegKept.count {r : RegId} (m : Module) (ev ten n : ℕ) (hr : r ≠ .PMC_CNT) : RegKept r m (m.count ev ten n) := by
  unfold Module.count
  refine RegKept.ite (RegKept.refl r m) ?_
  refine List.foldlRecOn (motive := fun m' : Module => RegKept r m m') _ _ (RegKept.refl r m) fun m' kept i hi => kept.trans ?_
  have hi : i < 256 := List.mem_range.1 hi
  exact RegKept.ite (RegKept.addFld m' n hr (by omega) (by decide)) (RegKept.refl r m')

/-- A channel is one of 12 stacks of 32 (R244). -/
theorem channelAt_lt (w0 w1 frame off : ℕ) : channelAt w0 w1 frame off < 384 := by
  unfold channelAt
  simp only
  have low : ∀ a b : ℕ, a < 32 → b < 32 → a ^^^ b < 32 := fun a b ha hb => Nat.xor_lt_two_pow (n := 5) ha hb
  have key : (if off / 256 % 256 / 32 < 6 then bitsAt w0 (5 * (off / 256 % 256 / 32)) 5
      else bitsAt w1 (5 * (off / 256 % 256 / 32 - 6)) 5) < 32 := by
    unfold bitsAt
    split <;> omega
  have := low (off / 256 % 256 % 32) _ (by omega) key
  omega

theorem Module.channelOf_lt (m : Module) (pa : ℕ) : m.channelOf pa < 2 ^ 24 :=
  (channelAt_lt ..).trans (by decide)

theorem RegKept.raise_status (m : Module) (k : Kind) (ten loc : ℕ) : RegKept .FAB_CL_STATUS m (m.raise k ten loc) :=
  m.raise_regKept k ten loc 0 (by decide)

theorem RegKept.probe_status (m : Module) (k : Kind) (ten loc : ℕ) : RegKept .FAB_CL_STATUS m (m.probe k ten loc) :=
  m.probe_regKept k ten loc (by decide)

theorem RegKept.subFld {r : RegId} (m : Module) {f : Field} {i j : ℕ} (n : ℕ) (hr : r ≠ f.reg) (hi : i < 2 ^ 24)
    (hj : j < 2 ^ 16) : RegKept r m (m.subFld f i j n) := RegKept.setFld m _ hr hi hj

theorem RegKept.withdraw (m : Module) (ch need : ℕ) : RegKept .FAB_CL_STATUS m (m.withdraw ch need).2 := by
  unfold Module.withdraw
  exact RegKept.trans (RegKept.of_regs rfl) (RegKept.subFld (Module.drawn _) (f := Fld.XLT_POOL_FREE_FRAMES) (i := 0) (j := 0) _
    (by decide) (by decide) (by decide))

theorem RegKept.formPatches (m : Module) (ch : ℕ) : RegKept .FAB_CL_STATUS m (m.formPatches ch).2 := by
  unfold Module.formPatches
  exact RegKept.trans (RegKept.of_regs rfl) (RegKept.withdraw _ _ _)

theorem RegKept.mapOut (m : Module) {ch : ℕ} (hch : ch < 2 ^ 24) : RegKept .FAB_CL_STATUS m (m.mapOut ch) := by
  have formed := (RegKept.setFld m (f := Fld.MEM_CH_STATUS_STATE) 1 (by decide) hch (by decide)).trans
    (RegKept.formPatches (m.setFld Fld.MEM_CH_STATUS_STATE ch 0 1) ch)
  unfold Module.mapOut
  refine RegKept.ite (RegKept.refl _ m) (RegKept.ite (RegKept.raise_status _ _ _ _) ?_)
  extract_lets started
  split
  next short m1 e =>
    rw [e] at formed
    have noted : RegKept .FAB_CL_STATUS m1 { m1 with patchDue := Map.set 0 m1.patchDue (patchKey ch) short } := RegKept.of_regs rfl
    exact RegKept.ite formed ((formed.trans noted).trans (RegKept.raise_status _ _ _ _))

theorem RegKept.readUnit (m : Module) (ten v : ℕ) {ch : ℕ} (hch : ch < 2 ^ 24) :
    RegKept .FAB_CL_STATUS m (m.readUnit ten v ch) := by
  have probed := (RegKept.probe_status m Kind.MEM_CE ten ch).trans (RegKept.probe_status _ Kind.MEM_UE ten ch)
  have counted : ∀ (m1 m2 : Module) {f : Field} (k : Kind), m2.regs = m1.regs → f.reg = .MEM_CH_STATUS →
      RegKept .FAB_CL_STATUS m1 ((m2.addFld f ch 0).raise k ten ch) := fun m1 m2 f k same hf =>
    ((RegKept.of_regs same).trans (RegKept.addFld m2 1 (by rw [hf]; decide) hch (by decide))).trans (RegKept.raise_status _ _ _ _)
  unfold Module.readUnit
  simp only
  generalize (m.probe Kind.MEM_CE ten ch).probe Kind.MEM_UE ten ch = m1 at probed ⊢
  refine probed.trans ?_
  split
  · exact RegKept.refl _ m1
  · exact counted _ _ _ rfl rfl
  · have raised := counted m1 { m1 with dramEcc := Map.erase m1.dramEcc v, poison := Map.set false m1.poison v true }
      (f := Fld.MEM_CH_STATUS_UE) Kind.MEM_UE rfl rfl
    exact RegKept.ite (raised.trans (RegKept.mapOut _ hch)) raised

theorem RegKept.readEntries (m : Module) (ten va : ℕ) : RegKept .FAB_CL_STATUS m (m.readEntries ten va).2 := by
  unfold Module.readEntries
  split
  · exact RegKept.refl _ m
  · exact RegKept.foldl (fun m v => RegKept.readUnit m ten v (Module.channelOf_lt ..)) _ m

theorem RegKept.fillCache {r : RegId} (m : Module) (b : Block) (ten va : ℕ) (e : Word64) :
    RegKept r m (m.fillCache b ten va e) := by
  unfold Module.fillCache
  split
  · exact RegKept.refl _ m
  · exact RegKept.of_regs rfl

theorem RegKept.translate {b : Block} {ten va : ℕ} {write : Bool} {l : Loc} (h : m.translate b ten va write = (.ok l, m')) :
    RegKept .FAB_CL_STATUS m m' := by
  unfold Module.translate at h
  split at h
  · cases h
    exact RegKept.of_regs rfl
  · extract_lets m1 m2 at h
    have probed : RegKept .FAB_CL_STATUS m m1 := RegKept.ite (RegKept.refl _ m) (RegKept.probe_status _ _ _ _)
    have counted : RegKept .FAB_CL_STATUS m m2 := probed.trans (RegKept.ite (RegKept.refl _ m1) (RegKept.count _ _ _ _ (by decide)))
    have read := counted.trans (RegKept.readEntries m2 ten va)
    split at h
    · cases h
    · next m3 e =>
      rw [e] at read
      split at h
      · cases h
        exact read.trans (RegKept.ite (RegKept.refl _ _) (RegKept.fillCache _ _ _ _ _))
      · cases h

theorem RegKept.translateAll {b : Block} {ten : ℕ} {write : Bool} {ps : List (ℕ × ℕ)} {ls : List (Loc × ℕ)}
    (h : m.translateAll b ten write ps = (.ok ls, m')) : RegKept .FAB_CL_STATUS m m' := by
  induction ps generalizing m ls with
  | nil =>
    cases h
    exact RegKept.refl _ _
  | cons p ps ih =>
    unfold Module.translateAll at h
    split at h
    · cases h
    · next e =>
      have first := RegKept.translate e
      split at h
      · cases h
      · next e =>
        cases h
        exact first.trans (ih e)

theorem RegKept.mapped {b : Block} {ten va n : ℕ} {write : Bool} {r : Unit} (h : m.mapped b ten va n write = (.ok r, m')) :
    RegKept .FAB_CL_STATUS m m' := by
  unfold Module.mapped at h
  split at h
  · cases h
  · next e =>
    cases h
    exact RegKept.translateAll e

/-! ### The checks of a span's transfers (R102) -/

/-- Checks that pass keep the tiles, and the shape of the spans. -/
theorem Module.checkTransfers_keeps {k : Cluster} {ten : ℕ} {write hold : Bool} {rs : List (ℕ × ℕ)}
    (h : m.checkTransfers k ten write hold rs = (none, m')) : m'.contents = m.contents ∧ RegKept .FAB_CL_STATUS m m' := by
  induction rs generalizing m with
  | nil =>
    cases h
    exact ⟨rfl, RegKept.refl _ _⟩
  | cons r rs ih =>
    obtain ⟨a, n⟩ := r
    unfold Module.checkTransfers at h
    split at h
    · exact ih h
    · split at h
      · split at h
        · cases h
        · exact ih h
      · split at h
        · cases h
        · next m1 e =>
          obtain ⟨contents, status⟩ := ih h
          have same : m1.contents = m.contents := by
            have := Module.mapped_contents (m := m) (b := .fab k) (ten := ten) (va := a) (n := n) (write := write)
            rwa [e] at this
          exact ⟨contents.trans same, (RegKept.mapped e).trans status⟩

/-- Modules that agree in FAB_CL_STATUS have the same spans. -/
theorem RegKept.spanTiles (h : RegKept .FAB_CL_STATUS m m') (o : TileId) : m'.spanTiles o = m.spanTiles o := by
  have side : m'.spanSide o.cl.val = m.spanSide o.cl.val := by
    have reg : m'.reg Fld.FAB_CL_STATUS_SPAN_SHAPE.reg o.cl.val = m.reg Fld.FAB_CL_STATUS_SPAN_SHAPE.reg o.cl.val :=
      h o.cl.val 0 (by omega) (by decide)
    unfold Module.spanSide Module.fld
    rw [reg]
  unfold Module.spanTiles Module.origin
  rw [side]

/-! ### Issue (R100, R413) -/

/-- A tile as its transfer joins the end of its engine's list; a length of 0 moves nothing. -/
def Tile.joined (x : Tile) (k : Transfer) : Tile := if k.len = 0 then x else { x with xfers := x.xfers ++ [k] }

/-- What the tile of a span becomes as its own transfer issues. -/
def Tile.issued (x : Tile) (digests hold : Bool) (k : Transfer) : Tile :=
  if digests then (x.joined k).noteStore hold k else x.joined k

theorem Tile.issued_control {digests hold : Bool} {k : Transfer} :
    (x.issued digests hold k).pc = x.pc ∧ (x.issued digests hold k).loops = x.loops := by
  unfold Tile.issued Tile.noteStore Tile.joined
  split <;> split <;> exact ⟨rfl, rfl⟩

theorem Tile.issueTransfer_ok {k : Transfer} (h : transferFault k.bay k.len = none) : x.issueTransfer k = .ok (x.joined k) := by
  unfold Tile.issueTransfer
  rw [h]
  rfl

section Issue

variable {op : Byte} {kind : XferKind} {write hold : Bool} {addr : Tile → ℕ}

/-- The transfer that a tile of the module issues by its own registers. -/
abbrev Module.ownTransfer (m : Module) (kind : XferKind) (w : Fields) (addr : Tile → ℕ) (u : TileId) : Transfer :=
  (m.tile u).transfer kind w (addr (m.tile u)) none

/-- The transfers of the tiles of a span, by address and length. -/
def Module.transferRanges (m : Module) (cx : Ctx) (w : Fields) (kind : XferKind) (addr : Tile → ℕ) : List (ℕ × ℕ) :=
  (m.spanTiles cx.o).map fun u => ((m.ownTransfer kind w addr u).addr, (m.ownTransfer kind w addr u).len)

/-- With a full engine the span waits. -/
theorem Module.issueTransfers_full (full : m.transfersFull cx = true) :
    m.issueTransfers cx op w kind write hold addr = .ok (m.waitOn cx op w) := if_pos full

/-- The ranges of the tiles of a span lie in their bays. -/
theorem Module.transfersSound (sound : ∀ u ∈ m.spanTiles cx.o, transferFault (m.ownTransfer kind w addr u).bay
    (m.ownTransfer kind w addr u).len = none) :
    (((m.spanTiles cx.o).map fun u => m.ownTransfer kind w addr u).findSome? fun k => transferFault k.bay k.len) = none := by
  rw [List.findSome?_eq_none_iff]
  intro k hk
  obtain ⟨u, hu, rfl⟩ := List.mem_map.1 hk
  exact sound u hu

section Room

variable (room : m.transfersFull cx = false)
include room

/-- A broken range of any tile is a misuse. -/
theorem Module.issueTransfers_fault (hu : u ∈ m.spanTiles cx.o)
    (broken : (transferFault (m.ownTransfer kind w addr u).bay (m.ownTransfer kind w addr u).len).isSome = true) :
    ∃ f, m.issueTransfers cx op w kind write hold addr = .error f := by
  unfold Module.issueTransfers
  rw [if_neg (Bool.eq_false_iff.1 room)]
  simp only
  split
  · next f _ => exact ⟨f, rfl⟩
  · next none =>
    rw [List.findSome?_eq_none_iff] at none
    rw [none _ (List.mem_map_of_mem hu)] at broken
    cases broken

variable (sound : ∀ u ∈ m.spanTiles cx.o, transferFault (m.ownTransfer kind w addr u).bay
  (m.ownTransfer kind w addr u).len = none)
include sound

/-- With room and with every range in the bay, the first refused address ends the route's command. -/
theorem Module.issueTransfers_refused {e : Fail}
    (checked : m.checkTransfers cx.o.cl cx.r.ten.val write hold (m.transferRanges cx w kind addr) = (some e, m')) :
    m.issueTransfers cx op w kind write hold addr = .ok (m'.failRoute cx.n e) := by
  unfold Module.issueTransfers
  rw [if_neg (Bool.eq_false_iff.1 room)]
  have checked' : m.checkTransfers cx.o.cl cx.r.ten.val write hold
      (((m.spanTiles cx.o).map fun u => m.ownTransfer kind w addr u).map fun k => (k.addr, k.len))
      = (some e, m') := by rwa [List.map_map]
  simp only [Module.transfersSound sound, checked']

/-- Where no address is refused, every tile's transfer joins. -/
theorem Module.issueTransfers_passed
    (checked : m.checkTransfers cx.o.cl cx.r.ten.val write hold (m.transferRanges cx w kind addr) = (none, m')) :
    m.issueTransfers cx op w kind write hold addr =
      .ok (m'.each cx fun _ x => x.issued (write && m'.twinned cx.r.ten.val) hold (x.transfer kind w (addr x) none)) := by
  obtain ⟨contents, status⟩ := Module.checkTransfers_keeps checked
  unfold Module.issueTransfers
  rw [if_neg (Bool.eq_false_iff.1 room)]
  have checked' : m.checkTransfers cx.o.cl cx.r.ten.val write hold
      (((m.spanTiles cx.o).map fun u => m.ownTransfer kind w addr u).map fun k => (k.addr, k.len))
      = (none, m') := by rwa [List.map_map]
  simp only [Module.transfersSound sound, checked']
  refine Module.eachE_ok fun u hu => ?_
  rw [status.spanTiles] at hu
  have issue : (m'.tile u).issueTransfer ((m'.tile u).transfer kind w (addr (m'.tile u)) none) = _ :=
    Tile.issueTransfer_ok (by rw [Module.tile_of_contents contents]; exact sound u hu)
  simp only [issue]
  rfl

end Room

end Issue

/-- A transfer instruction whose body issues the transfers of its span. -/
theorem transferIssues_of_body {c : Instr} {form : Form} {op : Byte} {kind : XferKind} {write hold : Bool} {addr : Tile → ℕ}
    {body : Ctx → Module → Except Misuse Module} (hc : ∀ s, exec c s = s.tileOp t op w form body)
    (hb : ∀ cx m, body cx m = m.issueTransfers cx op w kind write hold addr) :
    TransferIssues c t op w (form.bad w) kind write hold addr := by
  intro s cx issues
  refine ⟨fun full => ?_, fun room ⟨u, hu, broken⟩ => ?_, fun room sound => ⟨fun e m refused => ?_, fun m passed inside => ?_⟩⟩
  · exact ⟨_, exec_runs (hc s) issues ((hb ..).trans (Module.issueTransfers_full full)), Module.waitOn_waits⟩
  · obtain ⟨f, fault⟩ := Module.issueTransfers_fault (op := op) (write := write) (hold := hold) room hu broken
    unfold Yields
    rw [hc, State.tileOp_issues rfl issues, hb, fault, Module.orUndefined_error]
  · exact exec_runs (hc s) issues ((hb ..).trans (Module.issueTransfers_refused room sound refused))
  · obtain ⟨contents, -⟩ := Module.checkTransfers_keeps passed
    have inside : Inside m cx := by
      unfold Inside
      rwa [Module.tile_of_contents contents]
    have did := Module.each_did (s := ⟨m, s.pending⟩) (f := fun _ x => x.issued (write && m.twinned cx.r.ten.val) hold
      (x.transfer kind w (addr x) none)) (fun _ _ => Tile.issued_control) inside
    exact ⟨_, exec_runs (hc s) issues ((hb ..).trans (Module.issueTransfers_passed room sound passed)),
      did.pending, did.rest, did.tiles⟩

/-! ### HLD with BCAST, and WAITT (R101, R109) -/

theorem bcastMask_toNat : (BitVec.ofNat 16 (immBits w 10 16)).toNat = immBits w 10 16 := by
  rw [BitVec.toNat_ofNat]
  exact Nat.mod_eq_of_lt (Nat.mod_lt _ (by decide))

theorem hld_issues (plain : w.mod.getLsbD 4 = false) (bare : immBits w 10 16 = 0) :
    TransferIssues (.hld t w) t 0x28 w (formHld.bad w) .hld false true (fun x => x.holdAddr w) := by
  refine transferIssues_of_body (execHld.eq_1 t w) fun cx m => ?_
  rw [plain, bare]
  rfl

/-- Settles O16: in the order of the checks, a full engine, a broken range, a refused address, and the transfers that join. -/
theorem transferInstructions : Obligations.TransferInstructions := by
  intro t w
  refine ⟨hld_issues, fun plain masked s cx issues => ?masked, fun bcast s cx issues room => ?bcast,
    fun bcast s cx issues full => ?full,
    transferIssues_of_body (execHst.eq_1 t w) fun _ _ => rfl, transferIssues_of_body (execXld.eq_1 t w) fun _ _ => rfl,
    transferIssues_of_body (execXst.eq_1 t w) fun _ _ => rfl, fun s cx issues => ⟨fun out => ?waits, fun clear inside => ?done⟩⟩
  case masked =>
    have mask : BitVec.ofNat 16 (immBits w 10 16) ≠ 0 := fun e => masked (by rw [← bcastMask_toNat, e]; rfl)
    refine exec_runs (execHld.eq_1 t w s) issues ?_
    rw [plain]
    exact if_pos mask
  case bcast =>
    intro mask tr inside
    refine ⟨_, exec_runs (execHld.eq_1 t w s) issues ?_, Module.each_did (f := fun u x => if mask.getLsbD u.col.val
      then { x with xfers := x.xfers ++ [tr x] } else x) (fun u x => ?_) inside⟩
    · rw [bcast]
      exact if_neg (Bool.eq_false_iff.1 room)
    · simp only
      split <;> exact ⟨rfl, rfl⟩
  case full =>
    refine ⟨_, exec_runs (execHld.eq_1 t w s) issues ?_, Module.waitOn_waits⟩
    rw [bcast]
    exact if_pos full
  case waits => exact ⟨_, exec_runs (execWaitt.eq_1 t w s) issues (if_pos (List.any_eq_true.2 out)), Module.waitOn_waits⟩
  case done =>
    refine ⟨_, exec_runs (execWaitt.eq_1 t w s) issues (if_neg ?_), Module.retire_only inside⟩
    simpa using clear

end Sys2Proof.Machine
end

