-- ==== Sys2Proof/Proofs/ClusterRules.lean ====
section
/-! Rules of the operations on clusters and routes: the tiles of a cluster, its record and flags, and what a route's books take. -/

namespace Sys2Proof.Machine

variable {m m' m'' : Module} {n c d : ℕ} {u : TileId} {x : Cl}

/-! ### Registers that are kept -/

theorem OtherRegsKept.of_kept {but : List RegId} (h : ∀ r, r ∉ but → RegKept r m m') : OtherRegsKept m m' but :=
  fun r i j hi hj hr => h r hr i j hi hj

theorem RegKept.fld {f : Field} {i j : ℕ} (h : RegKept f.reg m m') (hi : i < 2 ^ 24) (hj : j < 2 ^ 16) :
    m'.fld f i j = m.fld f i j := by
  unfold Module.fld
  rw [h i j hi hj]

/-- A cluster is released as its bit of FAB_CL_STATUS says. -/
theorem RegKept.released (h : RegKept .FAB_CL_STATUS m m') (hc : c < 2 ^ 24) : m'.released c = m.released c := by
  unfold Module.released Module.flag
  rw [RegKept.fld (f := Fld.FAB_CL_STATUS_AT_BOUNDARY) h hc (by decide)]

theorem Module.released_setFlag {v : Bool} : (m.setFlag Fld.FAB_CL_STATUS_AT_BOUNDARY c 0 v).released c = !v :=
  congrArg (!·) (m.flag_setFlag_self (f := Fld.FAB_CL_STATUS_AT_BOUNDARY) (by decide) c 0 v)

theorem Module.released_setFlag_ne {v : Bool} (hc : c < 2 ^ 24) (hd : d < 2 ^ 24) (h : d ≠ c) :
    (m.setFlag Fld.FAB_CL_STATUS_AT_BOUNDARY c 0 v).released d = m.released d := by
  unfold Module.released Module.flag Module.setFlag
  rw [m.fld_setFld_ne _ _ _ hc (by decide) hd (by decide) fun h' => h h'.2.1]

theorem RegKept.setBoundary {r : RegId} {v : Bool} (hr : r ≠ .FAB_CL_STATUS) (hc : c < 2 ^ 24) :
    RegKept r m (m.setFlag Fld.FAB_CL_STATUS_AT_BOUNDARY c 0 v) :=
  RegKept.setFld m (f := Fld.FAB_CL_STATUS_AT_BOUNDARY) _ hr hc (by decide)

/-! ### The record of a cluster -/

@[simp] theorem Module.cl_setCl_self : (m.setCl c x).cl c = x := by
  unfold Module.cl Module.setCl
  rw [Map.get?_insert_self]
  rfl

theorem Module.tile_setCl : (m.setCl c x).tile u = m.tile u := rfl

theorem Module.released_setCl : (m.setCl c x).released d = m.released d := rfl

theorem RegKept.setCl {r : RegId} : RegKept r m (m.setCl c x) := RegKept.of_regs rfl

theorem Module.cl_of_cls (h : m'.cls = m.cls) : m'.cl c = m.cl c := by
  unfold Module.cl
  rw [h]

theorem Module.route_of_routes (h : m'.routes = m.routes) : m'.route n = m.route n := by
  unfold Module.route
  rw [h]

theorem Module.tile_of_tiles (h : m'.tiles = m.tiles) : m'.tile u = m.tile u := by
  unfold Module.tile Module.tileAt
  rw [h]

/-- The stage of a cluster, by its record and its route. -/
theorem Module.stageOf_eq_some {r : Route} {sg : Stage} : m.stageOf c = some (n, r, sg) ↔
    (m.cl c).route = some n ∧ m.route n = some r ∧ r.stages[(m.cl c).stage]? = some sg := by
  unfold Module.stageOf
  constructor
  · intro h
    split at h
    · cases h
    · next k hk =>
      split at h
      · cases h
      · next r' hr =>
        split at h
        · cases h
        · next sg' hs =>
          cases h
          exact ⟨hk, hr, hs⟩
  · rintro ⟨hk, hr, hs⟩
    simp only [hk, hr, hs]

/-! ### The tiles of a cluster -/

theorem Module.tileAt_setTileAt_self {k : ℕ} {y : Tile} : (m.setTileAt k y).tileAt k = y := by
  unfold Module.tileAt Module.setTileAt
  rw [Map.get?_insert_self]
  rfl

theorem Module.tileAt_mapTilesIn {f : Tile → Tile} {ks : List ℕ} (distinct : ks.Nodup) {j : ℕ} :
    (ks.foldl (fun m k => m.setTileAt (c * 256 + k) (f (m.tileAt (c * 256 + k)))) m).tileAt (c * 256 + j) =
      if j ∈ ks then f (m.tileAt (c * 256 + j)) else m.tileAt (c * 256 + j) := by
  induction ks generalizing m with
  | nil => rfl
  | cons k ks ih =>
    obtain ⟨fresh, distinct⟩ := List.nodup_cons.1 distinct
    rw [List.foldl_cons, ih distinct]
    by_cases h : j = k
    · subst h
      simp [fresh, Module.tileAt_setTileAt_self]
    · simp [h, Module.tileAt_setTileAt_ne (show c * 256 + k ≠ c * 256 + j by omega)]

theorem Module.tileAt_mapTiles_ne {f : Tile → Tile} {j : ℕ} (h : j / 256 ≠ c) : (m.mapTiles c f).tileAt j = m.tileAt j :=
  List.foldlRecOn (motive := fun (m' : Module) => m'.tileAt j = m.tileAt j) (List.range 256) _ rfl fun _ same k hk => by
    rw [List.mem_range] at hk
    exact (Module.tileAt_setTileAt_ne (by omega)).trans same

/-- A change of the tiles of a cluster. -/
theorem Module.tile_mapTiles {f : Tile → Tile} : (m.mapTiles c f).tile u = if u.cl.val = c then f (m.tile u) else m.tile u := by
  have cluster := tileKey_cluster u
  unfold Module.tile
  split
  · next h =>
    obtain ⟨j, hj, key⟩ : ∃ j < 256, tileKey u = c * 256 + j := ⟨tileKey u % 256, by omega, by omega⟩
    rw [key]
    exact (Module.tileAt_mapTilesIn List.nodup_range).trans (if_pos (List.mem_range.2 hj))
  · next h => exact Module.tileAt_mapTiles_ne (by omega)

theorem Module.mapTiles_rest {f : Tile → Tile} : m.mapTiles c f = { m with tiles := (m.mapTiles c f).tiles } :=
  List.foldlRecOn (motive := fun (m' : Module) => m' = { m with tiles := m'.tiles }) (List.range 256) _ rfl fun _ h _ _ => by
    rw [h]; rfl

theorem Module.mapTiles_regs {f : Tile → Tile} : (m.mapTiles c f).regs = m.regs := by
  have regs := congrArg Module.regs (Module.mapTiles_rest (m := m) (c := c) (f := f))
  exact regs

theorem Module.mapTiles_cls {f : Tile → Tile} : (m.mapTiles c f).cls = m.cls := by
  have cls := congrArg Module.cls (Module.mapTiles_rest (m := m) (c := c) (f := f))
  exact cls

/-- Every tile of a cluster has a key of the cluster. -/
theorem exists_tileKey {k : Cluster} {j : ℕ} (hj : j < 256) : ∃ u : TileId, u.cl = k ∧ tileKey u = k.val * 256 + j := by
  refine ⟨⟨k, Fin.ofNat 16 (j / 16), Fin.ofNat 16 j⟩, rfl, ?_⟩
  simp only [tileKey, Fin.val_ofNat]
  omega

/-- The module after a change of the tiles of a cluster, which then stands at its boundary or does not. -/
def Module.tilesAt (m : Module) (c : ℕ) (f : Tile → Tile) (boundary : Bool) : Module :=
  (m.mapTiles c f).setFlag Fld.FAB_CL_STATUS_AT_BOUNDARY c 0 boundary

section TilesAt

variable {f : Tile → Tile} {boundary : Bool}

theorem Module.tilesAt_rest : m.tilesAt c f boundary =
    { m with tiles := (m.tilesAt c f boundary).tiles, regs := (m.tilesAt c f boundary).regs } := by
  have rest := Module.mapTiles_rest (m := m) (c := c) (f := f)
  unfold Module.tilesAt
  generalize m.mapTiles c f = m1 at rest ⊢
  rw [rest]
  rfl

theorem Module.tilesAt_cls : (m.tilesAt c f boundary).cls = m.cls := by
  have cls := congrArg Module.cls (Module.tilesAt_rest (m := m) (c := c) (f := f) (boundary := boundary))
  exact cls

theorem Module.tilesAt_routes : (m.tilesAt c f boundary).routes = m.routes := by
  have routes := congrArg Module.routes (Module.tilesAt_rest (m := m) (c := c) (f := f) (boundary := boundary))
  exact routes

theorem Module.tile_tilesAt : (m.tilesAt c f boundary).tile u = if u.cl.val = c then f (m.tile u) else m.tile u := by
  have tiles : (m.tilesAt c f boundary).tiles = (m.mapTiles c f).tiles := by
    unfold Module.tilesAt
    rw [Module.setFlag_tiles]
  rw [Module.tile_of_tiles tiles, Module.tile_mapTiles]

theorem Module.tilesAt_regKept {r : RegId} (hc : c < 2 ^ 24) (hr : r ≠ .FAB_CL_STATUS) : RegKept r m (m.tilesAt c f boundary) := by
  have mapped : RegKept r m (m.mapTiles c f) := RegKept.of_regs Module.mapTiles_regs
  exact mapped.trans (RegKept.setBoundary hr hc)

theorem Module.released_tilesAt : (m.tilesAt c f boundary).released c = !boundary := Module.released_setFlag

theorem Module.released_tilesAt_ne (hc : c < 2 ^ 24) (hd : d < 2 ^ 24) (h : d ≠ c) :
    (m.tilesAt c f boundary).released d = m.released d :=
  (Module.released_setFlag_ne hc hd h).trans (RegKept.released (RegKept.of_regs Module.mapTiles_regs) hd)

end TilesAt

/-! ### Changes of a route -/

theorem Module.setRoute_rest {f : Route → Route} : m.setRoute n f = { m with routes := (m.setRoute n f).routes } := by
  unfold Module.setRoute
  split <;> rfl

theorem Module.setRoute_regs {f : Route → Route} : (m.setRoute n f).regs = m.regs := by
  have regs := congrArg Module.regs (Module.setRoute_rest (m := m) (n := n) (f := f))
  exact regs

theorem Module.setRoute_slots {f : Route → Route} : (m.setRoute n f).slots = m.slots := by
  have slots := congrArg Module.slots (Module.setRoute_rest (m := m) (n := n) (f := f))
  exact slots

theorem Module.wrec_setRoute {f : Route → Route} {ten : ℕ} : (m.setRoute n f).wrec ten = m.wrec ten := by
  have weights := congrArg Module.weights (Module.setRoute_rest (m := m) (n := n) (f := f))
  exact congrArg (Map.get? · ten) weights

/-- A change of a route after other changes of routes. -/
theorem Module.setRoute_routes {f : Route → Route} (h : m' = { m with routes := m'.routes }) :
    m'.setRoute n f = { m with routes := (m'.setRoute n f).routes } := by
  have rest := Module.setRoute_rest (m := m') (n := n) (f := f)
  generalize m'.setRoute n f = m1 at rest ⊢
  rw [h] at rest
  exact rest

/-! ### What a route's books take -/

/-- The module but for the registers of busy cycles and counters, the routes, the free values and the ledgers. -/
structure Module.Booked (n : ℕ) (m m' : Module) : Prop where
  rest : m' = { m with regs := m'.regs, routes := m'.routes, freeIx := m'.freeIx, ledgers := m'.ledgers }
  regs : ∀ r, r ∉ [RegId.FAB_CL_BUSY, .PMC_CNT] → RegKept r m m'
  route : ∀ r, m.route n = some r → ∃ r', m'.route n = some r' ∧ r'.ten = r.ten ∧ r'.state = r.state ∧ r'.batches = r.batches

namespace Module.Booked

theorem refl (n : ℕ) (m : Module) : Booked n m m := ⟨rfl, fun r _ => RegKept.refl r m, fun r h => ⟨r, h, rfl, rfl, rfl⟩⟩

theorem trans (h : Booked n m m') (h' : Booked n m' m'') : Booked n m m'' := by
  refine ⟨?_, fun r hr => (h.regs r hr).trans (h'.regs r hr), fun r hr => ?_⟩
  · have rest := h'.rest
    rw [h.rest] at rest
    exact rest
  · obtain ⟨r', hr', ten', state', batches'⟩ := h.route r hr
    obtain ⟨r'', hr'', ten'', state'', batches''⟩ := h'.route r' hr'
    exact ⟨r'', hr'', ten''.trans ten', state''.trans state', batches''.trans batches'⟩

theorem tile (h : Booked n m m') : m'.tile u = m.tile u := Module.tile_of_tiles (by rw [h.rest])

theorem cl (h : Booked n m m') : m'.cl c = m.cl c := Module.cl_of_cls (by rw [h.rest])

theorem released (h : Booked n m m') (hc : c < 2 ^ 24) : m'.released c = m.released c :=
  (h.regs .FAB_CL_STATUS (by decide)).released hc

theorem setRoute {f : Route → Route} (m : Module)
    (hf : ∀ r, (f r).ten = r.ten ∧ (f r).state = r.state ∧ (f r).batches = r.batches) : Booked n m (m.setRoute n f) := by
  refine ⟨?_, fun r _ => ?_, fun r hr => ⟨f r, ?_, hf r⟩⟩
  · rw [Module.setRoute_rest]
  · exact RegKept.of_regs Module.setRoute_regs
  · rw [Module.route_setRoute, if_pos rfl, hr]
    rfl

theorem of_regs (h : ∀ r, r ∉ [RegId.FAB_CL_BUSY, .PMC_CNT] → RegKept r m m')
    (rest : m' = { m with regs := m'.regs, freeIx := m'.freeIx, ledgers := m'.ledgers }) : Booked n m m' :=
  ⟨by rw [rest], h, fun r hr => ⟨r, by rw [rest]; exact hr, rfl, rfl, rfl⟩⟩

theorem count (m : Module) (ev ten k : ℕ) : Booked n m (m.count ev ten k) := by
  refine of_regs (fun r hr => RegKept.count m ev ten k fun h => hr (by simp [h])) ?_
  unfold Module.count
  split
  · rfl
  · refine List.foldlRecOn (motive := fun m' : Module => m' = { m with regs := m'.regs, freeIx := m'.freeIx, ledgers := m'.ledgers })
      _ _ rfl fun m' h i _ => ?_
    refine iteInduction (motive := fun m' : Module => m' = { m with regs := m'.regs, freeIx := m'.freeIx, ledgers := m'.ledgers })
      (fun _ => ?_) fun _ => h
    rw [h]
    rfl

theorem bill (m : Module) (ten : ℕ) (f : Ledger → Ledger) : Booked n m (m.bill ten f) := by
  refine of_regs (fun r _ => ?_) ?_
  · unfold Module.bill
    split
    · exact RegKept.of_regs rfl
    · exact RegKept.refl r m
  · unfold Module.bill
    split <;> rfl

theorem setStage {i : ℕ} {f : Stage → Stage} (m : Module) : Booked n m (m.setStage n i f) :=
  setRoute m fun _ => ⟨rfl, rfl, rfl⟩

theorem countBusy {ten i busy : ℕ} {step : Word64} (m : Module) : Booked n m (m.countBusy ten n i step busy) := by
  unfold Module.countBusy
  exact (setStage m).trans (count _ _ _ _)

/-- The busy cycles of a step, of a cluster that has no twin. -/
theorem busyStep {ten i : ℕ} {step : Word64} (hc : c < 2 ^ 24) (alone : m.twinOf c = none) :
    Booked n m (m.busyStep ten c n i step) := by
  have measured : Booked n m (m.setFld Fld.FAB_CL_BUSY_BUSY c 0 (m.fld Fld.FAB_CL_BUSY_BUSY c + Config.freeNat m.freeIx)).drawn :=
    of_regs (fun r hr => RegKept.setFld m (f := Fld.FAB_CL_BUSY_BUSY) _ (fun h => hr (by rw [h]; decide)) hc (by decide)) rfl
  have booked := (measured.trans (bill _ ten fun l => { l with busy := l.busy + Config.freeNat m.freeIx })).trans
    (countBusy (ten := ten) (i := i) (busy := Config.freeNat m.freeIx) (step := step) _)
  unfold Module.busyStep
  simp only
  generalize Module.countBusy _ _ _ _ _ _ = m1 at booked ⊢
  have twin : m1.twinOf c = none := by
    unfold Module.twinOf
    simp only [booked.cl]
    exact alone
  rw [twin]
  exact booked

end Module.Booked

end Sys2Proof.Machine
end

