-- ==== Sys2Proof/Proofs/ClusterCommits.lean ====
section
/-! The commit of a cluster (R90, R91). -/

namespace Sys2Proof.Machine

variable {m m' : Module} {n i : ℕ} {c : Cluster} {u : TileId} {r : Route} {sg : Stage} {s : State} {step : Word64}

/-! ### Clusters without a twin, routes without weights, collectives, captures or batches -/

theorem Module.twinOf_congr {d : ℕ} (h : ∀ e, (m'.cl e).twinOf = (m.cl e).twinOf) : m'.twinOf d = m.twinOf d := by
  unfold Module.twinOf
  simp only [h]

theorem Module.twinOf_of_cls {d : ℕ} (h : m'.cls = m.cls) : m'.twinOf d = m.twinOf d :=
  Module.twinOf_congr fun _ => congrArg Cl.twinOf (Module.cl_of_cls h)

theorem Module.mirrorTwin_none {d : ℕ} (alone : m.twinOf d = none) : m.mirrorTwin d = m := by
  unfold Module.mirrorTwin
  rw [alone]

theorem Module.weightCommit_none (hr : m.route n = some r) (h : m.wrec r.ten.val = none) : m.weightCommit n i = m := by
  unfold Module.weightCommit
  simp only [hr, h]

theorem Module.consumeBatch_none (hr : m.route n = some r) (h : r.batches = []) : m.consumeBatch n = m := by
  unfold Module.consumeBatch
  simp only [hr, h, List.head?_nil]

theorem Module.captureBoundary_none (hr : m.route n = some r) (h : m.capture r.ten = none) : m.captureBoundary n = m := by
  unfold Module.captureBoundary
  simp only [hr, h]

theorem Module.afterCommit_plain (hr : m.route n = some r) (weights : m.wrec r.ten.val = none) (batches : r.batches = [])
    (capture : m.capture r.ten = none) : m.afterCommit n i step = m := by
  unfold Module.afterCommit
  rw [Module.weightCommit_none hr weights, Module.consumeBatch_none hr batches, Module.captureBoundary_none hr capture]

theorem cluster_lt (c : Cluster) : c.val < 2 ^ 24 := c.isLt.trans (by decide)

/-! ### The commit of a cluster (R90, R91) -/

/-- The record of a cluster whose step has committed. -/
def Cl.nextStep (x : Cl) (step : Word64) : Cl :=
  { x with committedAny := true, nextKind := 1, step := step + 1, mismatched := false, itemsLeft := 0 }

/-- The tiles have committed, and the cluster stands at the boundary of its step. -/
def Module.stepTaken (m : Module) (c : Cluster) (sg : Stage) (step : Word64) : Module :=
  ((m.mapTiles c.val (Tile.commit sg.prog)).setFld Fld.FAB_CL_STEP_STEP c.val 0 step.toNat).setFlag
    Fld.FAB_CL_STATUS_AT_BOUNDARY c.val 0 true

theorem Module.stepTaken_rest : m.stepTaken c sg step =
    { m with tiles := (m.stepTaken c sg step).tiles, regs := (m.stepTaken c sg step).regs } := by
  have rest := Module.mapTiles_rest (m := m) (c := c.val) (f := Tile.commit sg.prog)
  unfold Module.stepTaken
  generalize m.mapTiles c.val (Tile.commit sg.prog) = m1 at rest ⊢
  rw [rest]
  rfl

theorem Module.stepTaken_cls : (m.stepTaken c sg step).cls = m.cls := by
  have cls := congrArg Module.cls (Module.stepTaken_rest (m := m) (c := c) (sg := sg) (step := step))
  exact cls

theorem Module.stepTaken_tile : (m.stepTaken c sg step).tile u = if u.cl = c then (m.tile u).commit sg.prog else m.tile u := by
  have tiles : (m.stepTaken c sg step).tiles = (m.mapTiles c.val (Tile.commit sg.prog)).tiles := by
    unfold Module.stepTaken
    rw [Module.setFlag_tiles, Module.setFld_tiles]
  rw [Module.tile_of_tiles tiles, Module.tile_mapTiles]
  exact if_congr Fin.ext_iff.symm rfl rfl

theorem Module.stepTaken_regKept {r : RegId} (hr : r ∉ [RegId.FAB_CL_STEP, .FAB_CL_STATUS]) :
    RegKept r m (m.stepTaken c sg step) := by
  simp only [List.mem_cons, List.not_mem_nil, or_false, not_or] at hr
  obtain ⟨notStep, notStatus⟩ := hr
  have tiles : RegKept r m (m.mapTiles c.val (Tile.commit sg.prog)) := RegKept.of_regs Module.mapTiles_regs
  exact (tiles.trans (RegKept.setFld _ _ notStep (cluster_lt c) (by decide))).trans
    (RegKept.setBoundary notStatus (cluster_lt c))

theorem Module.stepTaken_step : (m.stepTaken c sg step).fld Fld.FAB_CL_STEP_STEP c.val = step.toNat := by
  have beside := RegKept.fld (f := Fld.FAB_CL_STEP_STEP) (RegKept.setBoundary (v := true)
    (m := (m.mapTiles c.val (Tile.commit sg.prog)).setFld Fld.FAB_CL_STEP_STEP c.val 0 step.toNat) (by decide) (cluster_lt c))
    (cluster_lt c) (j := 0) (by decide)
  exact beside.trans ((Module.fld_setFld_self _ (by decide) ..).trans (Nat.mod_eq_of_lt step.isLt))

/-- What the books of a route take of a commit. -/
def Module.stepNoted (m : Module) (c : Cluster) (n : ℕ) (ten : ℕ) (i : ℕ) (step : Word64) : Module :=
  (((m.setStage n i fun sg => sg.reach step).busyStep ten c.val n i step).mirrorTwin c.val).atBoundary n c.val

theorem Module.Booked.stepNoted {ten : ℕ} (alone : m.twinOf c.val = none) : Module.Booked n m (m.stepNoted c n ten i step) := by
  have reached : Module.Booked n m (m.setStage n i fun sg => sg.reach step) := Module.Booked.setStage m
  have busy := reached.trans (Module.Booked.busyStep (ten := ten) (i := i) (step := step) (cluster_lt c)
    ((Module.twinOf_of_cls (congrArg Module.cls reached.rest)).trans alone))
  unfold Module.stepNoted
  rw [Module.mirrorTwin_none ((Module.twinOf_of_cls (congrArg Module.cls busy.rest)).trans alone)]
  exact busy.trans (Module.Booked.setRoute _ fun _ => ⟨rfl, rfl, rfl⟩)

/-- The record of the cluster goes on to the next step, and the step is counted. -/
def Module.stepClosed (m : Module) (c : Cluster) (step : Word64) (ten : ℕ) : Module :=
  (m.setCl c.val ((m.cl c.val).nextStep step)).count 0x2002 ten 1

/-- What the commit of a cluster leaves. -/
structure StepCommitted (m m' : Module) (c : Cluster) (n : ℕ) (r : Route) (sg : Stage) : Prop where
  rest : m' = { m with
    regs := m'.regs
    routes := m'.routes
    freeIx := m'.freeIx
    ledgers := m'.ledgers
    tiles := m'.tiles
    cls := m'.cls }
  regs : ∀ r, r ∉ [RegId.FAB_CL_STEP, .FAB_CL_STATUS, .FAB_CL_BUSY, .PMC_CNT] → RegKept r m m'
  boundary : m'.released c.val = false
  step : m'.fld Fld.FAB_CL_STEP_STEP c.val = (m.cl c.val).step.toNat
  cl : m'.cl c.val = (m.cl c.val).nextStep (m.cl c.val).step
  tile : ∀ u, m'.tile u = if u.cl = c then (m.tile u).commit sg.prog else m.tile u
  route : ∃ r', m'.route n = some r' ∧ r'.ten = r.ten ∧ r'.state = r.state ∧ r'.batches = r.batches

/-- A commit in its parts: what the step takes, what the books note, and the record that closes it. -/
theorem StepCommitted.of_parts {m1 m2 : Module} (hr : m.route n = some r)
    (rest : m1 = { m with tiles := m1.tiles, regs := m1.regs })
    (regs : ∀ r, r ∉ [RegId.FAB_CL_STEP, .FAB_CL_STATUS] → RegKept r m m1) (boundary : m1.released c.val = false)
    (step : m1.fld Fld.FAB_CL_STEP_STEP c.val = (m.cl c.val).step.toNat)
    (tile : ∀ u, m1.tile u = if u.cl = c then (m.tile u).commit sg.prog else m.tile u) (noted : Module.Booked n m1 m2)
    (closed : Module.Booked n (m2.setCl c.val ((m.cl c.val).nextStep (m.cl c.val).step)) m') : StepCommitted m m' c n r sg := by
  have routes := congrArg Module.routes rest
  obtain ⟨r2, hr2, ten2, state2, batches2⟩ := noted.route r ((Module.route_of_routes routes).trans hr)
  obtain ⟨r3, hr3, ten3, state3, batches3⟩ := closed.route r2 hr2
  have status := ((noted.regs .FAB_CL_STEP (by decide)).trans (RegKept.of_regs rfl)).trans (closed.regs .FAB_CL_STEP (by decide))
  refine ⟨?_, fun r hr => ?_, ?_, ?_, ?_, fun u => ?_, r3, hr3, ten3.trans ten2, state3.trans state2, batches3.trans batches2⟩
  · have all := closed.rest
    unfold Module.setCl at all
    rw [noted.rest, rest] at all
    rw [all]
  · simp only [List.mem_cons, List.not_mem_nil, or_false, not_or] at hr
    obtain ⟨notStep, notStatus, notBusy, notCount⟩ := hr
    have own : r ∉ [RegId.FAB_CL_STEP, .FAB_CL_STATUS] := by simp [notStep, notStatus]
    have books : r ∉ [RegId.FAB_CL_BUSY, .PMC_CNT] := by simp [notBusy, notCount]
    exact (((regs r own).trans (noted.regs r books)).trans (RegKept.of_regs rfl)).trans (closed.regs r books)
  · exact (closed.released (cluster_lt c)).trans ((noted.released (cluster_lt c)).trans boundary)
  · exact (RegKept.fld (f := Fld.FAB_CL_STEP_STEP) status (cluster_lt c) (by decide)).trans step
  · exact closed.cl.trans Module.cl_setCl_self
  · exact closed.tile.trans ((noted.tile (u := u)).trans (tile u))

theorem Module.staged_nil (unstaged : ∀ u : TileId, u.cl = c → (m.tile u).staged = []) :
    ((List.range 256).flatMap fun k => (m.tileAt (c.val * 256 + k)).staged) = [] := by
  rw [List.flatMap_eq_nil_iff]
  intro k hk
  obtain ⟨u, hu, key⟩ := exists_tileKey (k := c) (List.mem_range.1 hk)
  rw [← key]
  exact unstaged u hu

/-- The module after the step of a cluster, before what follows a commit. -/
def Module.stepMade (m : Module) (c : Cluster) (n : ℕ) (r : Route) (sg : Stage) : Module :=
  ((m.stepTaken c sg (m.cl c.val).step).stepNoted c n r.ten.val (m.cl c.val).stage (m.cl c.val).step).stepClosed c
    (m.cl c.val).step r.ten.val

theorem Module.stepMade_committed (hr : m.route n = some r) (alone : m.twinOf c.val = none) :
    StepCommitted m (m.stepMade c n r sg) c n r sg := by
  have noted := Module.Booked.stepNoted (m := m.stepTaken c sg (m.cl c.val).step) (c := c) (n := n) (ten := r.ten.val)
    (i := (m.cl c.val).stage) (step := (m.cl c.val).step) ((Module.twinOf_of_cls Module.stepTaken_cls).trans alone)
  have closed : Module.Booked n _ (m.stepMade c n r sg) := Module.Booked.count _ _ _ _
  rw [noted.cl, Module.cl_of_cls Module.stepTaken_cls] at closed
  exact StepCommitted.of_parts hr Module.stepTaken_rest (fun r => Module.stepTaken_regKept) Module.released_setFlag
    Module.stepTaken_step (fun u => Module.stepTaken_tile) noted closed

/-- Nothing follows a commit in a plain route. -/
theorem StepCommitted.afterCommit (h : StepCommitted m m' c n r sg) (plain : PlainRoute m r) : m'.afterCommit n i step = m' := by
  obtain ⟨weights, capture, batches, -⟩ := plain
  obtain ⟨r', hr', ten, -, same⟩ := h.route
  have weightsKept := congrArg Module.weights h.rest
  have capturesKept := congrArg Module.captures h.rest
  refine Module.afterCommit_plain hr' ?_ (same.trans batches) ?_
  · rw [ten]
    exact (congrArg (Map.get? · r.ten.val) weightsKept).trans weights
  · rw [ten]
    exact (congrArg (Map.get? · r.ten.val) capturesKept).trans capture

/-- A commit with no staged store and no twin. -/
theorem Module.commitCluster_eq (stage : m.stageOf c.val = some (n, r, sg)) (alone : m.twinOf c.val = none)
    (unstaged : ∀ u : TileId, u.cl = c → (m.tile u).staged = []) : m.commitCluster c.val =
      (none, (m.stepMade c n r sg).afterCommit n (m.cl c.val).stage (m.cl c.val).step) := by
  have lone : (m.mapTiles c.val (Tile.commit sg.prog)).twinOf c.val = none :=
    (Module.twinOf_of_cls Module.mapTiles_cls).trans alone
  unfold Module.commitCluster
  rw [stage]
  simp only [Module.staged_nil unstaged, Module.publishAll, lone]
  rfl

theorem Module.commitCluster_plain (stage : m.stageOf c.val = some (n, r, sg)) (plain : PlainRoute m r)
    (alone : m.twinOf c.val = none) (unstaged : ∀ u : TileId, u.cl = c → (m.tile u).staged = []) :
    ∃ m', m.commitCluster c.val = (none, m') ∧ StepCommitted m m' c n r sg := by
  obtain ⟨-, hr, -⟩ := Module.stageOf_eq_some.1 stage
  have committed := Module.stepMade_committed (sg := sg) hr alone
  refine ⟨m.stepMade c n r sg, ?_, committed⟩
  rw [Module.commitCluster_eq stage alone unstaged, committed.afterCommit plain]

/-! ### What follows a commit -/

theorem Module.rngBoundary_none {d : ℕ} (h : m.rngBad = []) : m.rngBoundary d = m := by
  have same : ({ m with rngBad := [] } : Module) = m := by
    rw [← h]
  unfold Module.rngBoundary
  rw [h]
  exact same

theorem Module.unhold_none {d : ℕ} (h : (m.cl d).move = none) : m.unhold d = m := by
  unfold Module.unhold
  simp only [h]

theorem Module.checkStopped_running (hr : m.route n = some r) (running : r.state = .running) : m.checkStopped n = m := by
  unfold Module.checkStopped
  simp only [hr, running]
  rfl

/-- A tenancy that takes work is the house, or its queue is open. -/
theorem Module.open_of_takes {t : Ten} (takes : m.takes t = true) : t = house ∨ m.fld Fld.QUE_TEN_STATE_STATE t.val = 0 := by
  unfold Module.takes at takes
  simp only [Bool.or_eq_true, Bool.and_eq_true, beq_iff_eq] at takes
  rcases takes with h | ⟨⟨-, h⟩, -⟩
  · exact .inl h
  · exact .inr h

theorem Module.checkSuspended_open {t : Ten} (h : t = house ∨ m.fld Fld.QUE_TEN_STATE_STATE t.val = 0) :
    m.checkSuspended t = m := by
  unfold Module.checkSuspended
  refine if_pos ?_
  rcases h with h | h <;> simp [h]

theorem Module.stepDone_alone {d : ℕ} (released : m.released d = true) (arrived : m.allArrived d = true)
    (alone : m.twinOf d = none) : m.stepDone d = true := by
  unfold Module.stepDone
  simp only [released, arrived, alone, Bool.and_self]

theorem Module.stepDone_false {d : ℕ} (h : m.released d = false ∨ m.allArrived d = false) : m.stepDone d = false := by
  unfold Module.stepDone
  rcases h with h | h <;> simp [h]

theorem Module.digestsAgree_alone {d : ℕ} (alone : m.twinOf d = none) : m.digestsAgree d = true := by
  unfold Module.digestsAgree
  simp only [alone]

theorem Module.mem_clustersOf : c.val ∈ m.clustersOf n ↔ (m.cl c.val).route = some n ∧ (m.cl c.val).twinOf = none := by
  unfold Module.clustersOf
  simp [List.mem_filter]

/-- A cluster one of whose tiles runs on is not halted. -/
theorem Module.allHalted_false (hu : u.cl = c) (core : (m.tile u).core ≠ .halted) : m.allHalted c.val = false := by
  rw [Bool.eq_false_iff]
  intro all
  have cluster := tileKey_cluster u
  have key : c.val * 256 + tileKey u % 256 = tileKey u := by rw [← hu]; omega
  have halted := List.all_eq_true.1 all (tileKey u % 256) (List.mem_range.2 (by omega))
  rw [key] at halted
  exact core (by simpa [Module.tile] using halted)

theorem Tile.commit_core {p : Prog} {x : Tile} (h : x.haltReq = false) : (x.commit p).core = x.core := by
  unfold Tile.commit
  simp [h]

section Committed

variable (stage : s.mod.stageOf c.val = some (n, r, sg))
include stage

/-- A commit of a step that is done: the boundary, unless the cluster is to retire there. -/
theorem clusterCommit_boundary (own : (s.mod.cl c.val).twinOf = none) (still : (s.mod.cl c.val).move = none)
    (done : s.mod.stepDone c.val = true) (stays : s.mod.draining c.val r = false) (agree : s.mod.digestsAgree c.val = true)
    (keeps : ((s.mod.commitBoundary c.val).cl c.val).retirePending = false) (rng : (s.mod.commitBoundary c.val).rngBad = []) :
    Yields (.clusterCommit c) s (s.mod.commitBoundary c.val) := by
  refine yields_of_run (execClusterCommit.eq_1 c s) ?_
  simp [stage, own, done, Module.unhold_none still, stays, agree, Module.rngBoundary_none rng, keeps]

theorem clusterCommit_waits (h : s.mod.stepDone c.val = false) : NoEffect (.clusterCommit c) s := by
  refine yields_of_run (execClusterCommit.eq_1 c s) ?_
  simp [stage, h]

end Committed

theorem commitsHeld : CommitsHeld := by
  intro c s n r sg stage
  refine ⟨fun own still done stays agree _ => clusterCommit_boundary stage own still done stays agree,
    fun h => clusterCommit_waits stage (Module.stepDone_false h), fun own still done drains due => ?_,
    fun own still done stays differ => ?_⟩
  · refine yields_of_run (execClusterCommit.eq_1 c s) ?_
    simp [stage, own, done, Module.unhold_none still, drains, due]
  · refine yields_of_run (execClusterCommit.eq_1 c s) ?_
    simp [stage, own, done, Module.unhold_none still, stays, differ]

theorem clusterCommits : ClusterCommits := by
  intro c s n r sg stage plain running takes state released arrived own alone still keeps rng unstaged ⟨u, hu, core, goes⟩
  obtain ⟨m', commit, left⟩ := Module.commitCluster_plain stage plain alone unstaged
  obtain ⟨hn, -, -⟩ := Module.stageOf_eq_some.1 stage
  obtain ⟨r', hr', -, state', -⟩ := left.route
  have record := left.cl
  have member : c.val ∈ m'.clustersOf n := Module.mem_clustersOf.2 (by rw [record]; exact ⟨hn, own⟩)
  have runs : (m'.clustersOf n).all (fun c => m'.allHalted c) = false := by
    refine List.all_eq_false.2 ⟨c.val, member, Bool.eq_false_iff.1 (Module.allHalted_false hu ?_)⟩
    rw [left.tile u, if_pos hu, Tile.commit_core goes, core]
    decide
  have opened : r.ten = house ∨ m'.fld Fld.QUE_TEN_STATE_STATE r.ten.val = 0 := by
    rw [RegKept.fld (f := Fld.QUE_TEN_STATE_STATE) (left.regs _ (by decide)) (ten_lt r.ten) (by decide)]
    exact Module.open_of_takes takes
  have boundary : s.mod.commitBoundary c.val = m' := by
    unfold Module.commitBoundary
    simp only [stage, commit, runs, Bool.false_eq_true, if_false]
    rw [Module.checkStopped_running hr' (state'.trans running), Module.checkSuspended_open opened]
  have stays : s.mod.draining c.val r = false := by
    unfold Module.draining
    simp [state, running, takes, keeps]
  have yields := clusterCommit_boundary stage own still (Module.stepDone_alone released arrived alone) stays
    (Module.digestsAgree_alone alone) (by rw [boundary, record]; exact keeps)
    (by rw [boundary]; exact (congrArg Module.rngBad left.rest).trans rng)
  rw [boundary] at yields
  have next := congrArg Cl.step record
  have kind := congrArg Cl.nextKind record
  have any := congrArg Cl.committedAny record
  have dram := congrArg Module.dram left.rest
  have hold := congrArg Module.hold left.rest
  exact ⟨_, yields, rfl, left.boundary, left.step, next, kind, any, left.tile, dram, hold, OtherRegsKept.of_kept left.regs⟩

end Sys2Proof.Machine
end

