-- ==== Sys2Proof/Proofs/ClusterReleases.lean ====
section
/-! The release of a cluster, and where its tiles go on (R79, R90). -/

namespace Sys2Proof.Machine

variable {m m' : Module} {n i : ℕ} {c : Cluster} {r : Route} {sg : Stage} {step : Word64}

/-! ### The release of a cluster (R79, R90) -/

theorem Module.releaseMarker_none (hr : m.route n = some r) (h : m.wrec r.ten.val = none) : m.releaseMarker n i step = none := by
  unfold Module.releaseMarker
  simp only [hr, h]

theorem Module.divisionOf_rest : (m.divisionOf n i r sg step).2 = { m with routes := (m.divisionOf n i r sg step).2.routes } := by
  unfold Module.divisionOf
  split
  · rfl
  · exact Module.setRoute_rest

/-- An entry that is sound is used, where no check of it is injected. -/
theorem Module.useEntry_calm {t : Ten} (sound : m.entryOk t = true) (calm : m.reg .ERR_INJECT_INV Block.ten.group = 0) :
    m.useEntry t = (true, m) := by
  unfold Module.useEntry
  rw [sound, if_pos rfl, Module.probe_calm (k := Kind.TEN_PAIR) calm, ite_self]

/-- What the release of a cluster leaves. -/
structure Released (m m' : Module) (c : Cluster) (sg : Stage) : Prop where
  rest : m' = { m with regs := m'.regs, routes := m'.routes, tiles := m'.tiles, cls := m'.cls }
  regs : ∀ r, r ∉ [RegId.FAB_CL_STATUS] → RegKept r m m'
  left : m'.released c.val = true
  tile : ∀ u, m'.tile u = if u.cl = c then (m.tile u).release sg.prog (m.cl c.val).nextKind else m.tile u
  step : (m'.cl c.val).step = (m.cl c.val).step

/-- A release in its parts: the tiles and the boundary, the route, and the record of the cluster. -/
theorem Released.of_parts {m1 m2 : Module} {x : Cl} (alone : m.twinOf c.val = none)
    (rest : m1 = { m with tiles := m1.tiles, regs := m1.regs }) (regs : ∀ r, r ∉ [RegId.FAB_CL_STATUS] → RegKept r m m1)
    (left : m1.released c.val = true)
    (tile : ∀ u, m1.tile u = if u.cl = c then (m.tile u).release sg.prog (m.cl c.val).nextKind else m.tile u)
    (routes : m2 = { m1 with routes := m2.routes }) (step : x.step = (m.cl c.val).step)
    (twin : x.twinOf = (m.cl c.val).twinOf) : Released m ((m2.setCl c.val x).mirrorTwin c.val) c sg := by
  rw [rest] at routes
  have same := congrArg Module.regs routes
  have cls := congrArg Module.cls routes
  have tiles := congrArg Module.tiles routes
  have lone : (m2.setCl c.val x).twinOf c.val = none := by
    refine (Module.twinOf_congr fun d => ?_).trans alone
    by_cases h : d = c.val
    · rw [h, Module.cl_setCl_self, twin]
    · rw [Module.cl_setCl_ne _ h]
      exact congrArg Cl.twinOf (Module.cl_of_cls cls)
  rw [Module.mirrorTwin_none lone]
  refine ⟨?_, fun r hr => (regs r hr).trans (RegKept.of_regs same), ?_, fun u => ?_, ?_⟩
  · unfold Module.setCl
    rw [routes]
  · exact (RegKept.released (m := m1) (RegKept.of_regs same) (cluster_lt c)).trans left
  · rw [← tile u]
    exact Module.tile_of_tiles tiles
  · rw [Module.cl_setCl_self, step]

/-- A release of a cluster with no twin, in a route with no weights. -/
theorem Module.releaseCluster_plain (stage : m.stageOf c.val = some (n, r, sg)) (weights : m.wrec r.ten.val = none)
    (alone : m.twinOf c.val = none) : Released m (m.releaseCluster c.val) c sg := by
  obtain ⟨-, hr, -⟩ := Module.stageOf_eq_some.1 stage
  have lone : (m.mapTiles c.val fun x => x.release sg.prog (m.cl c.val).nextKind).twinOf c.val = none :=
    (Module.twinOf_of_cls Module.mapTiles_cls).trans alone
  unfold Module.releaseCluster
  rw [stage]
  simp only [Module.releaseMarker_none hr weights, lone]
  exact Released.of_parts (m1 := m.tilesAt c.val (fun x => x.release sg.prog (m.cl c.val).nextKind) false) alone
    Module.tilesAt_rest (fun r hr => Module.tilesAt_regKept (cluster_lt c) (by simpa using hr)) Module.released_tilesAt
    (fun u => Module.tile_tilesAt.trans (if_congr Fin.ext_iff.symm rfl rfl)) (Module.setRoute_routes Module.divisionOf_rest) rfl rfl

theorem clusterReleases : ClusterReleases := by
  intro c s n r sg stage
  refine ⟨fun held still keeps rng may alone weights sound calm => ?_, fun rng still keeps holds => ?_⟩
  · obtain ⟨rest, regs, left, tile, step⟩ := Module.releaseCluster_plain stage weights alone
    have yields : Yields (.clusterRelease c) s (s.mod.releaseCluster c.val) := by
      refine yields_of_run (execClusterRelease.eq_1 c s) ?_
      simp only [held, Module.rngBoundary_none rng, Module.unhold_none still, keeps, may, Module.useEntry_calm sound calm,
        Bool.false_and, Bool.false_eq_true, if_false, if_true]
    have dram := congrArg Module.dram rest
    have hold := congrArg Module.hold rest
    exact ⟨_, yields, rfl, left, tile, step, dram, hold, OtherRegsKept.of_kept regs⟩
  · refine yields_of_run (execClusterRelease.eq_1 c s) ?_
    simp [Module.rngBoundary_none rng, Module.unhold_none still, keeps, holds]

/-! ### Where a tile goes on (R79) -/

theorem tileReleases : TileReleases := by
  intro p kind x goes
  have core : (x.core == .halted) = false := by simpa using goes
  unfold Tile.release
  by_cases survives : kind = 1
  · subst survives
    simp [core, byte_zeroScratch]
  · simp [survives, Tile.clear, core, byte_zeroScratch]
    exact ⟨rfl, rfl, rfl, rfl, rfl, rfl⟩

end Sys2Proof.Machine
end

