-- ==== Sys2Proof/Proofs/StepKills.lean ====
section
/-! The kill of a route's steps (R92, R93), and the statement about step boundaries (O23). -/

namespace Sys2Proof.Machine

variable {m m1 m2 : Module} {n d e : ℕ} {u : TileId} {r : Route} {sg : Stage} {cs : List ℕ}

/-! ### The kill of one cluster (R91, R92) -/

/-- The record of a cluster whose step is killed. -/
def Cl.killed (x : Cl) : Cl :=
  { x with nextKind := if x.committedAny then 2 else 0, itemsLeft := 0, pass := 0, ended := [], sched := [], digestBad := false }

/-- The cluster is killed: its tiles stand at the boundary, and so does the cluster. -/
structure ClusterKilled (m m' : Module) (d : ℕ) (sg : Stage) : Prop where
  boundary : m'.released d = false
  cl : m'.cl d = (m.cl d).killed
  tile : ∀ u : TileId, u.cl.val = d → m'.tile u = (m.tile u).kill sg.prog

/-- The cluster, its tiles and the routes are as they were. -/
structure ClusterKept (m m' : Module) (d : ℕ) : Prop where
  released : m'.released d = m.released d
  cl : m'.cl d = m.cl d
  tile : ∀ u : TileId, u.cl.val = d → m'.tile u = m.tile u
  routes : m'.routes = m.routes

theorem ClusterKept.refl (m : Module) (d : ℕ) : ClusterKept m m d := ⟨rfl, rfl, fun _ _ => rfl, rfl⟩

theorem ClusterKept.trans (h : ClusterKept m m1 d) (h' : ClusterKept m1 m2 d) : ClusterKept m m2 d :=
  ⟨h'.released.trans h.released, h'.cl.trans h.cl, fun u hu => (h'.tile u hu).trans (h.tile u hu), h'.routes.trans h.routes⟩

theorem ClusterKept.stageOf (h : ClusterKept m m1 d) : m1.stageOf d = m.stageOf d := by
  unfold Module.stageOf
  simp only [h.cl, Module.route_of_routes h.routes]

theorem ClusterKilled.of_kept (h : ClusterKept m m1 d) (h' : ClusterKilled m1 m2 d sg) : ClusterKilled m m2 d sg :=
  ⟨h'.boundary, by rw [h'.cl, h.cl], fun u hu => by rw [h'.tile u hu, h.tile u hu]⟩

theorem ClusterKilled.then_kept (h : ClusterKilled m m1 d sg) (h' : ClusterKept m1 m2 d) : ClusterKilled m m2 d sg :=
  ⟨h'.released.trans h.boundary, h'.cl.trans h.cl, fun u hu => (h'.tile u hu).trans (h.tile u hu)⟩

theorem Module.killCluster_none (h : m.stageOf d = none) : m.killCluster d = m := by
  unfold Module.killCluster
  rw [h]

theorem Module.killCluster_some (h : m.stageOf d = some (n, r, sg)) :
    m.killCluster d = (m.tilesAt d (Tile.kill sg.prog) true).setCl d (m.cl d).killed := by
  have same : (m.tilesAt d (Tile.kill sg.prog) true).cl d = m.cl d := Module.cl_of_cls Module.tilesAt_cls
  unfold Module.killCluster
  rw [h, ← same]
  rfl

theorem Module.killCluster_rest : m.killCluster d =
    { m with tiles := (m.killCluster d).tiles, regs := (m.killCluster d).regs, cls := (m.killCluster d).cls } := by
  cases h : m.stageOf d with
  | none => rw [Module.killCluster_none h]
  | some x =>
    obtain ⟨n, r, sg⟩ := x
    have rest := Module.tilesAt_rest (m := m) (c := d) (f := Tile.kill sg.prog) (boundary := true)
    rw [Module.killCluster_some h]
    generalize m.tilesAt d (Tile.kill sg.prog) true = m1 at rest ⊢
    rw [rest]
    rfl

theorem Module.killCluster_regKept {r : RegId} (hd : d < 2 ^ 24) (hr : r ≠ .FAB_CL_STATUS) : RegKept r m (m.killCluster d) := by
  cases h : m.stageOf d with
  | none => rw [Module.killCluster_none h]; exact RegKept.refl r m
  | some x =>
    rw [Module.killCluster_some h]
    exact (Module.tilesAt_regKept hd hr).trans RegKept.setCl

theorem Module.killCluster_killed (h : m.stageOf d = some (n, r, sg)) : ClusterKilled m (m.killCluster d) d sg := by
  rw [Module.killCluster_some h]
  exact ⟨Module.released_setCl.trans Module.released_tilesAt, Module.cl_setCl_self,
    fun u hu => Module.tile_setCl.trans (Module.tile_tilesAt.trans (if_pos hu))⟩

theorem Module.killCluster_kept (hd : d < 2 ^ 24) (he : e < 2 ^ 24) (other : e ≠ d) : ClusterKept m (m.killCluster d) e := by
  cases h : m.stageOf d with
  | none => rw [Module.killCluster_none h]; exact ClusterKept.refl m e
  | some x =>
    rw [Module.killCluster_some h]
    exact ⟨Module.released_setCl.trans (Module.released_tilesAt_ne hd he other),
      (Module.cl_setCl_ne _ other _).trans (Module.cl_of_cls Module.tilesAt_cls),
      fun u hu => Module.tile_setCl.trans (Module.tile_tilesAt.trans (if_neg (by omega))),
      (Module.setCl_routes ..).trans Module.tilesAt_routes⟩

/-! ### The kill of several clusters -/

section Kills

variable (small : ∀ d ∈ cs, d < 100)
include small

theorem Module.kills_kept (he : e < 2 ^ 24) (other : e ∉ cs) : ClusterKept m (cs.foldl Module.killCluster m) e :=
  List.foldlRecOn (motive := fun m' : Module => ClusterKept m m' e) cs _ (ClusterKept.refl m e) fun _ kept d hd =>
    kept.trans (Module.killCluster_kept ((small d hd).trans (by decide)) he fun h => other (h ▸ hd))

theorem Module.kills_regKept {r : RegId} (hr : r ≠ .FAB_CL_STATUS) : RegKept r m (cs.foldl Module.killCluster m) :=
  List.foldlRecOn (motive := fun m' : Module => RegKept r m m') cs _ (RegKept.refl r m) fun _ kept d hd =>
    kept.trans (Module.killCluster_regKept ((small d hd).trans (by decide)) hr)

theorem Module.kills_killed (distinct : cs.Nodup) (hd : d ∈ cs) (stage : m.stageOf d = some (n, r, sg)) :
    ClusterKilled m (cs.foldl Module.killCluster m) d sg := by
  induction cs generalizing m with
  | nil => cases hd
  | cons e cs ih =>
    obtain ⟨fresh, distinct⟩ := List.nodup_cons.1 distinct
    have rest : ∀ d ∈ cs, d < 100 := fun d hd => small d (List.mem_cons_of_mem _ hd)
    have hlt : d < 2 ^ 24 := (small d hd).trans (by decide)
    have elt : e < 2 ^ 24 := (small e List.mem_cons_self).trans (by decide)
    rw [List.foldl_cons]
    rcases List.mem_cons.1 hd with rfl | later
    · exact (Module.killCluster_killed stage).then_kept (Module.kills_kept rest hlt fresh)
    · have kept : ClusterKept m (m.killCluster e) d := Module.killCluster_kept elt hlt fun h => fresh (h ▸ later)
      exact ClusterKilled.of_kept kept (ih rest distinct later (kept.stageOf.trans stage))

end Kills

theorem Module.kills_rest : cs.foldl Module.killCluster m =
    { m with
      tiles := (cs.foldl Module.killCluster m).tiles
      regs := (cs.foldl Module.killCluster m).regs
      cls := (cs.foldl Module.killCluster m).cls } :=
  List.foldlRecOn (motive := fun m' : Module => m' = { m with tiles := m'.tiles, regs := m'.regs, cls := m'.cls }) cs _ rfl
    fun _ h _ _ => by rw [Module.killCluster_rest, h]

/-! ### The kill of a route's steps (R92, R93) -/

theorem Module.weightRerun_none (hr : m.route n = some r) (h : m.wrec r.ten.val = none) : m.weightRerun n = m := by
  unfold Module.weightRerun
  simp only [hr, h]

theorem Module.colKill_none (h : m.slots = []) : m.colKill n = m := by
  unfold Module.colKill
  rw [h]
  rfl

theorem Module.mem_allClusters : d ∈ m.allClusters n ↔ d < 100 ∧ (m.cl d).route = some n := by
  unfold Module.allClusters
  simp [List.mem_filter]

theorem Module.allClusters_nodup : (m.allClusters n).Nodup := List.nodup_range.filter _

/-- Where no step of the route is done, none commits as it stops. -/
theorem Module.finishArrived_none (open' : ∀ d ∈ m.clustersOf n, m.stepDone d = false) : m.finishArrived n = (none, m) := by
  refine List.foldlRecOn (motive := fun a : Option Fail × Module => a = (none, m)) _ _ rfl fun a h d hd => ?_
  subst h
  simp [open' d hd]

/-- Barriers of a route that forget who has arrived. -/
def Route.unarrived (r : Route) : Route := { r with barriers := r.barriers.map fun b => { b with arrived := [], inGroup := false } }

/-- The module with the clusters of a route killed, and their packets gone. -/
def Module.clustersKilled (m : Module) (n : ℕ) : Module :=
  ((m.allClusters n).foldl Module.killCluster m).dropPackets (m.allClusters n)

theorem Module.setRoute_plain {f : Route → Route} (ten : ∀ r, (f r).ten = r.ten) (hr : m.route n = some r) :
    ∃ r', (m.setRoute n f).route n = some r' ∧ r'.ten = r.ten :=
  ⟨f r, by rw [Module.route_setRoute, if_pos rfl, hr]; rfl, ten r⟩

theorem Module.clustersKilled_rest : m.clustersKilled n =
    { m with
      tiles := (m.clustersKilled n).tiles
      regs := (m.clustersKilled n).regs
      cls := (m.clustersKilled n).cls
      deck := (m.clustersKilled n).deck
      xres := (m.clustersKilled n).xres } := by
  have rest := Module.kills_rest (m := m) (cs := m.allClusters n)
  unfold Module.clustersKilled
  generalize (m.allClusters n).foldl Module.killCluster m = m1 at rest ⊢
  rw [rest]
  rfl

theorem Module.small_of_allClusters : ∀ d ∈ m.allClusters n, d < 100 := fun _ hd => (Module.mem_allClusters.1 hd).1

theorem Module.clustersKilled_killed (hd : d < 100) (stage : m.stageOf d = some (n, r, sg)) :
    ClusterKilled m (m.clustersKilled n) d sg := by
  obtain ⟨route, -, -⟩ := Module.stageOf_eq_some.1 stage
  have killed := Module.kills_killed Module.small_of_allClusters Module.allClusters_nodup (Module.mem_allClusters.2 ⟨hd, route⟩) stage
  unfold Module.clustersKilled
  generalize (m.allClusters n).foldl Module.killCluster m = m1 at killed ⊢
  exact ⟨killed.boundary, killed.cl, killed.tile⟩

theorem Module.clustersKilled_tile (other : (m.cl u.cl.val).route ≠ some n) : (m.clustersKilled n).tile u = m.tile u := by
  have kept := Module.kills_kept (m := m) Module.small_of_allClusters (cluster_lt u.cl) fun h => other (Module.mem_allClusters.1 h).2
  unfold Module.clustersKilled
  generalize (m.allClusters n).foldl Module.killCluster m = m1 at kept ⊢
  exact kept.tile u rfl

theorem Module.clustersKilled_regKept {r : RegId} (hr : r ≠ .FAB_CL_STATUS) : RegKept r m (m.clustersKilled n) := by
  have kept := Module.kills_regKept (m := m) (cs := m.allClusters n) Module.small_of_allClusters hr
  unfold Module.clustersKilled
  generalize (m.allClusters n).foldl Module.killCluster m = m1 at kept ⊢
  exact kept.trans (RegKept.of_regs rfl)

/-- No packet of a killed cluster is in flight. -/
theorem Module.clustersKilled_deck {k : DeckPkt} (hk : k ∈ (m.clustersKilled n).deck) : (m.cl k.src.cl.val).route ≠ some n := by
  intro route
  obtain ⟨-, gone⟩ := List.mem_filter.1 hk
  simp [Module.mem_allClusters, route, k.src.cl.isLt] at gone

/-- What follows a kill, in a route with no weights where no collective is bound. -/
theorem Module.afterKill_plain (hr : m.route n = some r) (weights : m.wrec r.ten.val = none) (slots : m.slots = []) :
    m.afterKill n = m.learnRerun n := by
  unfold Module.afterKill
  rw [Module.weightRerun_none hr weights]
  exact Module.colKill_none (Module.setRoute_slots.trans slots)

/-- The barriers of a killed route, counted anew. -/
def Module.barriersKilled (m : Module) (n : ℕ) : Module := (m.setRoute n Route.unarrived).recountBarriers n

/-- A kill where no step is done changes the clusters of the route, its packets, and the route. -/
theorem Module.killSteps_plain (hr : m.route n = some r) (plain : PlainRoute m r) (runs : r.state = .running ∨ r.state = .stopping)
    (open' : ∀ d ∈ m.clustersOf n, m.stepDone d = false) :
    ∃ m', m.killSteps n = (none, m') ∧ m' = { m.clustersKilled n with routes := m'.routes } := by
  obtain ⟨weights, -, -, slots⟩ := plain
  have killed := Module.clustersKilled_rest (m := m) (n := n)
  have routes := congrArg Module.routes killed
  have weightsKept := congrArg Module.weights killed
  have slotsKept := congrArg Module.slots killed
  obtain ⟨r1, hr1, ten1⟩ := Module.setRoute_plain (m := m.clustersKilled n) (f := Route.unarrived) (fun _ => rfl)
    ((Module.route_of_routes routes).trans hr)
  obtain ⟨r2, hr2, ten2⟩ := Module.setRoute_plain (f := fun r => { r with
    barriers := r.barriers.map (((m.clustersKilled n).setRoute n Route.unarrived).recountBarrier n) }) (fun _ => rfl) hr1
  have counted : (m.clustersKilled n).barriersKilled n =
      { m.clustersKilled n with routes := ((m.clustersKilled n).barriersKilled n).routes } :=
    Module.setRoute_routes Module.setRoute_rest
  have after : ((m.clustersKilled n).barriersKilled n).afterKill n = ((m.clustersKilled n).barriersKilled n).learnRerun n := by
    have noWeights : (m.clustersKilled n).wrec r.ten.val = none := (congrArg (Map.get? · r.ten.val) weightsKept).trans weights
    have noSlots : (m.clustersKilled n).slots = [] := slotsKept.trans slots
    refine Module.afterKill_plain hr2 ?_ (Module.setRoute_slots.trans (Module.setRoute_slots.trans noSlots))
    rw [ten2, ten1]
    exact Module.wrec_setRoute.trans (Module.wrec_setRoute.trans noWeights)
  have run : m.killSteps n = (none, ((m.clustersKilled n).barriersKilled n).afterKill n) := by
    have going : (r.state != .running && r.state != .stopping) = false := by rcases runs with h | h <;> simp [h]
    unfold Module.killSteps
    rw [hr]
    simp only [going, Module.finishArrived_none open']
    rfl
  rw [after] at run
  exact ⟨_, run, Module.setRoute_routes counted⟩

/-- A route that does not run has no step to kill. -/
theorem Module.killSteps_idle (hr : m.route n = some r) (idle : r.state = .loaded ∨ r.state = .stopped) :
    m.killSteps n = (none, m) := by
  have rests : (r.state != .running && r.state != .stopping) = true := by rcases idle with h | h <;> simp [h]
  unfold Module.killSteps
  rw [hr]
  exact if_pos rests

theorem Module.killRoute_none (h : m.killSteps n = (none, m')) : m.killRoute n = m' := by
  unfold Module.killRoute
  rw [h]

theorem stepKills : StepKills := by
  intro route s r hr
  refine ⟨fun plain runs open' staged => ?kills, fun idle => ?idle, yields_of_run (execStepKill.eq_1 route s) rfl⟩
  case idle => exact yields_of_run (execStepKill.eq_1 route s) (Module.killRoute_none (Module.killSteps_idle hr idle))
  case kills =>
    obtain ⟨m', kill, rest⟩ := Module.killSteps_plain hr plain runs open'
    have tiles := congrArg Module.tiles rest
    have cls := congrArg Module.cls rest
    have regs := congrArg Module.regs rest
    have deck := congrArg Module.deck rest
    rw [Module.clustersKilled_rest] at rest
    have dram := congrArg Module.dram rest
    have hold := congrArg Module.hold rest
    refine ⟨_, yields_of_run (execStepKill.eq_1 route s) (Module.killRoute_none kill), rfl,
      fun c sg own stage => ?_, fun u other => ?_, fun k hk => ?_, dram, hold, OtherRegsKept.of_kept fun r hr => ?_⟩
    · have killed := Module.clustersKilled_killed c.isLt (Module.stageOf_eq_some.2 ⟨own, hr, stage⟩)
      have bit := (RegKept.released (RegKept.of_regs regs) (cluster_lt c)).trans killed.boundary
      have record := (Module.cl_of_cls cls).trans killed.cl
      have kind := congrArg Cl.nextKind record
      have step := congrArg Cl.step record
      exact ⟨bit, kind, step, fun u hu => (Module.tile_of_tiles tiles).trans (killed.tile u (congrArg Fin.val hu))⟩
    · exact (Module.tile_of_tiles tiles).trans (Module.clustersKilled_tile other)
    · have hk : k ∈ m'.deck := hk
      rw [deck] at hk
      exact Module.clustersKilled_deck hk
    · exact (Module.clustersKilled_regKept (by simpa using hr)).trans (RegKept.of_regs regs)

/-- Settles O23: what a commit, a release and a kill change is listed part by part: the tiles, the boundary bit, the record of the
cluster, and the route's own books. -/
theorem stepBoundaries : Obligations.StepBoundaries := ⟨clusterCommits, commitsHeld, clusterReleases, tileReleases, stepKills⟩

end Sys2Proof.Machine
end

