-- ==== Sys2Proof/Proofs/ArrayMoves.lean ====
section
/-! The words that move weights, tags, scales and flags of the array (O13). -/

namespace Sys2Proof.Machine

variable {m : Module} {t u : TileId} {w : Fields} {s : State} {cx : Ctx} {x : Tile}

/-! ### WLD (R110, R117) -/

/-- The bytes that a WLD takes: a weight block, and with SCALES the channel scales behind it (R117). -/
abbrev wldLen (w : Fields) : ℕ := if w.mod.getLsbD 2 then 320 else 256

/-- A tile that takes the bytes of a WLD into its shadow set. -/
def Tile.wldTakes (w : Fields) (x : Tile) (bs : List Byte) : Tile :=
  x.loadWeights (!x.active) (w.mod.getLsbD 2) ((x.sreg w.b.toNat).setWidth 16) bs

/-- A WLD of one tile from its own bay: a misuse where the block does not end in the bay. -/
def Tile.wldFromBay (w : Fields) (x : Tile) : Except Misuse Tile := do
  let bs ← x.bayRead (x.sreg w.a.toNat).toNat (wldLen w)
  return x.wldTakes w bs

theorem Tile.wldTakes_control {bs : List Byte} : (x.wldTakes w bs).pc = x.pc ∧ (x.wldTakes w bs).loops = x.loops := by
  unfold Tile.wldTakes Tile.loadWeights
  simp only
  split <;> exact ⟨rfl, rfl⟩

theorem Tile.wldFromBay_fits (h : (x.sreg w.a.toNat).toNat + wldLen w ≤ 0x10000) :
    x.wldFromBay w = .ok (x.wldTakes w (Mem.bytes x.bay (x.sreg w.a.toNat).toNat (wldLen w))) := by
  unfold Tile.wldFromBay
  rw [Tile.bayRead_fits h]
  rfl

theorem Tile.wldFromBay_range (h : 0x10000 < (x.sreg w.a.toNat).toNat + wldLen w) :
    x.wldFromBay w = .error .bayRange := by
  unfold Tile.wldFromBay
  rw [Tile.bayRead_range h]
  rfl

section Wld

variable (issues : Issues s t 0x40 w ((formWld w).bad w) cx)
include issues

/-- While a WLD of the span has not completed, the next one waits (R110). -/
theorem wld_waits (busy : s.mod.wldBusy cx = true) : ∃ s', exec (.wld t w) s = .next s' ∧ SpanWaits s s' cx 0x40 w :=
  ⟨_, exec_runs (execWld.eq_1 t w s) issues (if_pos busy), Module.waitOn_waits⟩

variable (free : s.mod.wldBusy cx = false)
include free

/-- A WLD from the bay does in every tile what that tile's bay and registers give. -/
theorem exec_wldBay (bay : w.mod.getLsbD 0 = false) : exec (.wld t w) s
    = .next ⟨(s.mod.orUndefined cx.r.ten (s.mod.eachE cx fun _ x => x.wldFromBay w)).settle, s.pending⟩ := by
  rw [show exec (.wld t w) s = _ from execWld.eq_1 t w s, State.tileOp_issues rfl issues]
  simp only [free, bay, Bool.false_eq_true, Bool.not_false, if_false, if_true]
  rfl

theorem wldBay_did (inside : Inside s.mod cx) (bay : w.mod.getLsbD 0 = false)
    (low : ∀ u ∈ s.mod.spanTiles cx.o, ((s.mod.tile u).sreg w.a.toNat).toNat + wldLen w ≤ 0x10000) :
    ∃ s', exec (.wld t w) s = .next s' ∧ SpanDid s.mod s s' cx
      fun _ x => x.wldTakes w (Mem.bytes x.bay (x.sreg w.a.toNat).toNat (wldLen w)) := by
  rw [exec_wldBay issues free bay, Module.eachE_ok
    (g := fun _ x => x.wldTakes w (Mem.bytes x.bay (x.sreg w.a.toNat).toNat (wldLen w))) fun u hu => Tile.wldFromBay_fits (low u hu)]
  exact ⟨_, rfl, Module.each_did (fun _ _ => Tile.wldTakes_control) inside⟩

theorem wldBay_misuse (bay : w.mod.getLsbD 0 = false)
    (high : ∃ u ∈ s.mod.spanTiles cx.o, 0x10000 < ((s.mod.tile u).sreg w.a.toNat).toNat + wldLen w) :
    Yields (.wld t w) s (s.mod.undefined cx.r.ten) := by
  obtain ⟨u, hu, high⟩ := high
  obtain ⟨e, fault⟩ := Module.eachE_fault (f := fun _ x => x.wldFromBay w) hu (Tile.wldFromBay_range high)
  unfold Yields
  rw [exec_wldBay issues free bay, fault, Module.orUndefined_error]

variable (hold : w.mod.getLsbD 0 = true)
include hold

/-- A broadcast joins its rendezvous in the columns that the mask names (R101). -/
theorem wldBroadcast_did (inside : Inside s.mod cx) (bcast : w.mod.getLsbD 1 = true) :
    ∃ s', exec (.wld t w) s = .next s' ∧ SpanDid s.mod s s' cx fun u x =>
      if (BitVec.ofNat 16 (immBits w 10 16)).getLsbD u.col.val then { x with xfers := x.xfers ++ [x.wldTransfer w] } else x := by
  refine ⟨_, exec_runs (execWld.eq_1 t w s) issues ?joins, Module.each_did (fun u x => ?control) inside⟩
  case joins =>
    simp only [free, hold, bcast, Bool.false_eq_true, Bool.not_true, if_false, if_true]
    rfl
  case control =>
    split <;> exact ⟨rfl, rfl⟩

/-- The ranges of Hold that the tiles of a span load from. -/
abbrev Module.wldRanges (m : Module) (cx : Ctx) (w : Fields) : List (ℕ × ℕ) :=
  (m.spanTiles cx.o).map fun u => (((m.tile u).wldTransfer w).addr, ((m.tile u).wldTransfer w).len)

variable (own : w.mod.getLsbD 1 = false)
include own

theorem wldHold_refused {e : Fail}
    (check : s.mod.checkTransfers cx.o.cl cx.r.ten.val false true (s.mod.wldRanges cx w) = (some e, m)) :
    Yields (.wld t w) s (m.failRoute cx.n e) := by
  refine exec_runs (execWld.eq_1 t w s) issues ?_
  simp only [free, hold, own, Bool.false_eq_true, Bool.not_true, if_false, check]

theorem wldHold_did (inside : Inside s.mod cx)
    (check : s.mod.checkTransfers cx.o.cl cx.r.ten.val false true (s.mod.wldRanges cx w) = (none, m)) :
    ∃ s', exec (.wld t w) s = .next s' ∧
      SpanDid m s s' cx fun _ x => { x with xfers := x.xfers ++ [x.wldTransfer w] } := by
  obtain ⟨contents, -⟩ := Module.checkTransfers_keeps check
  have inside : Inside m cx := by
    unfold Inside
    rwa [Module.tile_of_contents contents]
  have did := Module.each_did (s := ⟨m, s.pending⟩) (cx := cx) (f := fun _ x => { x with xfers := x.xfers ++ [x.wldTransfer w] })
    (fun _ _ => ⟨rfl, rfl⟩) inside
  refine ⟨_, exec_runs (execWld.eq_1 t w s) issues ?_, did.pending, did.rest, did.tiles⟩
  simp only [free, hold, own, Bool.false_eq_true, Bool.not_true, if_false, check]

end Wld

/-! ### WFLIP (R118) -/

section Wflip

variable (issues : Issues s t 0x41 w (formWflip.bad w) cx)
include issues

theorem wflip_waits (busy : s.mod.wldBusy cx = true) : ∃ s', exec (.wflip t w) s = .next s' ∧ SpanWaits s s' cx 0x41 w :=
  ⟨_, exec_runs (execWflip.eq_1 t w s) issues (if_pos busy), Module.waitOn_waits⟩

variable (free : s.mod.wldBusy cx = false)
include free

theorem wflipPlain_did (inside : Inside s.mod cx) (plain : w.mod.toNat = 1) :
    ∃ s', exec (.wflip t w) s = .next s' ∧ SpanDid s.mod s s' cx fun _ x => { x with active := !x.active } := by
  refine ⟨_, exec_runs (execWflip.eq_1 t w s) issues ?_, Module.each_did (fun _ _ => ⟨rfl, rfl⟩) inside⟩
  simp only [free, plain, Bool.false_eq_true, if_false, if_true]
  rfl

variable (marked : w.mod.toNat = 0)
include marked

theorem wflip_noMarker (none : (s.mod.tile cx.o).marker = none) : Halts (.wflip t w) s cx 11 := by
  refine exec_runs (execWflip.eq_1 t w s) issues ?_
  simp only [free, marked, none, Bool.false_eq_true, Nat.zero_ne_one, if_false]

variable {k : Marker} (latched : (s.mod.tile cx.o).marker = some k)
include latched

theorem wflipMarker_did (inside : Inside s.mod cx)
    (same : ∀ u ∈ s.mod.spanTiles cx.o, k.version = (s.mod.tile u).shadowSet.tag) :
    ∃ s', exec (.wflip t w) s = .next s' ∧ SpanDid s.mod s s' cx fun _ x => { x with active := !x.active, marker := none } := by
  refine ⟨_, exec_runs (execWflip.eq_1 t w s) issues ?_, Module.each_did (fun _ _ => ⟨rfl, rfl⟩) inside⟩
  have all : ((s.mod.spanTiles cx.o).all fun u => k.version == (s.mod.tile u).shadowSet.tag) = true :=
    List.all_eq_true.2 fun u hu => beq_iff_eq.2 (same u hu)
  simp only [free, marked, latched, all, Bool.false_eq_true, Nat.zero_ne_one, if_false, if_true]
  rfl

theorem wflipMarker_mismatch (other : ∃ u ∈ s.mod.spanTiles cx.o, k.version ≠ (s.mod.tile u).shadowSet.tag) :
    Yields (.wflip t w) s (s.mod.failRoute cx.n ⟨st.version, 0, 0⟩) := by
  refine exec_runs (execWflip.eq_1 t w s) issues ?_
  obtain ⟨u, hu, ne⟩ := other
  have all : ((s.mod.spanTiles cx.o).all fun u => k.version == (s.mod.tile u).shadowSet.tag) = false :=
    List.all_eq_false.2 ⟨u, hu, fun h => ne (beq_iff_eq.1 h)⟩
  simp only [free, marked, latched, all, Bool.false_eq_true, Nat.zero_ne_one, if_false]

end Wflip

/-! ### VERS SETS (R119) -/

section VersSets

variable (issues : Issues s t 0x42 w (fun k => (formVers k w).illegal k w) cx) (sets : w.mod.toNat = 0)
include issues sets

theorem exec_versSets : exec (.vers t w) s = .next ⟨(if s.mod.wldBusy cx then s.mod.waitOn cx 0x42 w
    else s.mod.each cx fun _ x => x.setS w.d.toNat (x.shadowSet.tag ++ x.activeSet.tag)).settle, s.pending⟩ := by
  rw [show exec (.vers t w) s = _ from execVers.eq_1 t w s, State.tileOpBy_issues issues]
  simp only [sets, if_true]
  split <;> rfl

theorem versSets_did (inside : Inside s.mod cx) (free : s.mod.wldBusy cx = false) : ∃ s', exec (.vers t w) s = .next s' ∧
    SpanDid s.mod s s' cx fun _ x => x.setS w.d.toNat (x.shadowSet.tag ++ x.activeSet.tag) := by
  rw [exec_versSets issues sets, free]
  exact ⟨_, rfl, Module.each_did (fun _ _ => Tile.setS_control ..) inside⟩

theorem versSets_waits (busy : s.mod.wldBusy cx = true) :
    ∃ s', exec (.vers t w) s = .next s' ∧ SpanWaits s s' cx 0x42 w := by
  rw [exec_versSets issues sets, busy]
  exact ⟨_, rfl, Module.waitOn_waits⟩

end VersSets

/-! ### TSMV and AFL (R75, R126) -/

/-- What a TSMV makes of a tile, by its mod (R126). -/
def Tile.tsmv (w : Fields) (x : Tile) : Tile :=
  if w.mod.toNat = 0 then { x with ts := (List.range 16).foldl (fun a i => Map.set 0 a i (x.lane w.a.toNat i)) x.ts }
  else x.setLanes w.d.toNat 0xFFFFFFFF#32 fun l =>
    if l < 16 then Map.get 0 (if w.mod.toNat = 1 then x.ts else x.activeSet.scales) l else 0

/-- What an AFL makes of a tile (R126). -/
def Tile.afl (w : Fields) (x : Tile) : Tile :=
  if w.mod.toNat = 1 then { x.setS w.d.toNat (BitVec.ofNat 32 x.aflags.bits) with aflags := .none }
  else x.setS w.d.toNat (BitVec.ofNat 32 x.aflags.bits)

theorem Tile.tsmv_control : (x.tsmv w).pc = x.pc ∧ (x.tsmv w).loops = x.loops := by
  unfold Tile.tsmv
  split
  · exact ⟨rfl, rfl⟩
  · exact x.setLanes_control ..

theorem Tile.afl_control : (x.afl w).pc = x.pc ∧ (x.afl w).loops = x.loops := by
  unfold Tile.afl
  split <;> exact Tile.setS_control ..

theorem tsmv_computes : Computes (.tsmv t w) t 0x4A w ((formTsmv w).bad w) fun _ _ _ x => x.tsmv w :=
  computes_of_each (fun _ => rfl) fun _ _ _ _ => Tile.tsmv_control

theorem afl_computes : Computes (.afl t w) t 0x4C w (formAfl.bad w) fun _ _ _ x => x.afl w :=
  computes_of_each (fun _ => rfl) fun _ _ _ _ => Tile.afl_control

/-- Settles O13: each word by its source, its mod and what its span waits for, tile by tile. -/
theorem arrayMoves : Obligations.ArrayMoves := by
  intro t w s cx
  refine ⟨fun issues inside free bay => wldBay_did issues free inside bay, wldBay_misuse,
    fun issues inside free hold own => ⟨fun e m => wldHold_refused issues free hold own,
      fun m => wldHold_did issues free hold own inside⟩,
    fun issues inside free hold => wldBroadcast_did issues free hold inside, wld_waits, wflip_waits,
    fun issues inside free => ⟨wflipPlain_did issues free inside,
      fun marked k latched => wflipMarker_did issues free marked latched inside,
      fun marked k => wflipMarker_mismatch issues free marked, wflip_noMarker issues free⟩,
    fun sets issues inside => ⟨versSets_did issues sets inside, versSets_waits issues sets⟩,
    fun own => ?load, fun own => ?tokens, fun own => ?channels, fun read => ?read, fun clear => ?clear⟩
  case load => simpa only [Tile.tsmv, own, if_true] using tsmv_computes (t := t) (w := w)
  case tokens => simpa only [Tile.tsmv, own, Nat.one_ne_zero, if_false, if_true] using tsmv_computes (t := t) (w := w)
  case channels => simpa only [Tile.tsmv, own, OfNat.ofNat_ne_zero, OfNat.ofNat_ne_one, if_false] using tsmv_computes (t := t) (w := w)
  case read => simpa only [Tile.afl, read, Nat.zero_ne_one, if_false] using afl_computes (t := t) (w := w)
  case clear => simpa only [Tile.afl, clear, if_true] using afl_computes (t := t) (w := w)

end Sys2Proof.Machine
end

