-- ==== Sys2Proof/Proofs/StagingFrame.lean ====
section
/-! What the staging of a slice leaves as it was: every part of the module that it does not write, by one walk through the reads
of memory and the writes of the Hold (O31). -/

namespace Sys2Proof.Machine

variable {m : Module} {β : Type} {g : Module → β} {ten : ℕ}

/-- The module but for what the staging of a slice writes: what an event writes; counts, caches, error records and patches of the
memories; the Hold; the commands and the weight records. -/
def Module.exceptStaging (m m' : Module) : Module :=
  { m.exceptEvent m' with
    ledgers := m'.ledgers, tokens := m'.tokens, skew := m'.skew, xcache := m'.xcache, tags := m'.tags, pathErr := m'.pathErr
    dramEcc := m'.dramEcc, poison := m'.poison, patches := m'.patches, patchDue := m'.patchDue, mapOrder := m'.mapOrder
    hold := m'.hold, holdEcc := m'.holdEcc, holdPoison := m'.holdPoison
    cmds := m'.cmds, weights := m'.weights }

/-- The observation looks at nothing that the staging of a slice writes. -/
def StagingBlind (g : Module → β) : Prop := ∀ m m', g (m.exceptStaging m') = g m

/-- A fold whose every round is not seen is not seen. -/
theorem foldl_unseen {α : Type} {f : Module → α → Module} {l : List α} (hf : ∀ m a, g (f m a) = g m) : g (l.foldl f m) = g m :=
  List.foldlRecOn (motive := fun m' => g m' = g m) l f rfl fun m' h a _ => (hf m' a).trans h

theorem ite_unseen {c : Prop} [Decidable c] {a b : Module} (ha : g a = g m) (hb : g b = g m) : g (if c then a else b) = g m := by
  split <;> assumption

namespace StagingBlind

variable (blind : StagingBlind g)
include blind

/-! ### Registers, counters and events -/

theorem rest {m' : Module} (h : m' = m.exceptStaging m') : g m' = g m := by
  rw [h]
  exact blind m m'

theorem event {m' : Module} {refs : List RegRef} (e : EventOnly m m' refs) : g m' = g m := by
  rw [e.rest]
  exact blind m (m.exceptEvent m')

theorem setFld {f : Field} {i j v : ℕ} : g (m.setFld f i j v) = g m := blind m (m.setFld f i j v)

theorem addFld {f : Field} {i j n : ℕ} : g (m.addFld f i j n) = g m := blind m (m.addFld f i j n)

theorem drawn : g m.drawn = g m := blind m m.drawn

theorem raise {k : Kind} {loc site : ℕ} : g (m.raise k ten loc site) = g m := blind.event (EventOnly.raise m k ten loc site)

theorem probe {k : Kind} {loc : ℕ} : g (m.probe k ten loc) = g m := blind.event (EventOnly.probe m k ten loc)

theorem violation {b : Block} : g (m.violation ten b) = g m := blind.raise.trans (blind.setFld.trans blind.addFld)

theorem count {ev n : ℕ} : g (m.count ev ten n) = g m :=
  ite_unseen rfl (foldl_unseen fun _ _ => ite_unseen blind.addFld rfl)

theorem bill {f : Ledger → Ledger} : g (m.bill ten f) = g m := by
  unfold Module.bill
  split
  · exact blind.rest rfl
  · rfl

/-! ### Translation (R261 to R264) -/

theorem mapOut {ch : ℕ} : g (m.mapOut ch) = g m := by
  refine ite_unseen rfl (ite_unseen blind.raise ?_)
  exact ite_unseen (blind.rest rfl) (blind.raise.trans (blind.rest rfl))

theorem readUnit {u ch : ℕ} : g (m.readUnit ten u ch) = g m := by
  have probed : g ((m.probe Kind.MEM_CE ten ch).probe Kind.MEM_UE ten ch) = g m := blind.probe.trans blind.probe
  unfold Module.readUnit
  simp only
  generalize (m.probe Kind.MEM_CE ten ch).probe Kind.MEM_UE ten ch = m1 at probed ⊢
  rw [← probed]
  split
  · rfl
  · exact blind.raise.trans (blind.rest rfl)
  · exact ite_unseen (blind.mapOut.trans (blind.raise.trans (blind.rest rfl))) (blind.raise.trans (blind.rest rfl))

theorem readEntries {va : ℕ} : g (m.readEntries ten va).2 = g m := by
  unfold Module.readEntries
  split
  · rfl
  · exact foldl_unseen fun _ _ => blind.readUnit

theorem fillCache {b : Block} {va : ℕ} {e : Word64} : g (m.fillCache b ten va e) = g m := by
  unfold Module.fillCache
  split
  · rfl
  · exact blind.rest rfl

theorem quarantine {f : ℕ} : g (m.quarantine f) = g m := by
  refine blind.raise.trans ?_
  unfold Module.when
  split <;> exact blind.rest rfl

theorem recordWalk {va : ℕ} {w : WalkFail} : g (m.recordWalk ten va w) = g m := by
  have noted : g ((m.setFld Fld.XLT_TEN_FAULT_KIND ten 0 w.kind).setFld Fld.XLT_TEN_FAULT_VA ten 0 va) = g m :=
    blind.setFld.trans blind.setFld
  unfold Module.recordWalk
  simp only
  split
  · exact noted
  · exact blind.raise.trans noted
  · exact blind.quarantine.trans (blind.raise.trans noted)
  · exact blind.raise.trans (blind.violation.trans noted)

theorem translate {b : Block} {va : ℕ} {write : Bool} : g (m.translate b ten va write).2 = g m := by
  unfold Module.translate
  split
  · exact blind.drawn
  · extract_lets m1 m2
    have counted : g m2 = g m := (ite_unseen rfl blind.count).trans (ite_unseen rfl blind.probe)
    have read : g (m2.readEntries ten va).2 = g m := blind.readEntries.trans counted
    split
    · next e => rwa [e] at read
    · next e =>
      rw [e] at read
      split
      · exact (ite_unseen rfl blind.fillCache).trans read
      · exact blind.recordWalk.trans read

theorem translateAll {b : Block} {write : Bool} {ps : List (ℕ × ℕ)} : g (m.translateAll b ten write ps).2 = g m := by
  induction ps generalizing m with
  | nil => rfl
  | cons p ps ih =>
    have first := blind.translate (m := m) (ten := ten) (b := b) (va := p.1) (write := write)
    unfold Module.translateAll
    split
    · next e => rwa [e] at first
    · next m1 e =>
      rw [e] at first
      have rest := ih (m := m1)
      split <;> next e => rw [e] at rest; exact rest.trans first

/-! ### Reads of translated memory (R247) -/

theorem takeTokens {ch n : ℕ} : g (m.takeTokens ten ch n) = g m := by
  unfold Module.takeTokens
  extract_lets key full held level m1 borrowed wait left m2
  have counted : g m2 = g m := blind.drawn.trans (blind.count.trans (blind.addFld.trans blind.drawn))
  exact (blind.rest (m := m2) rfl).trans counted

theorem countDram {a n : ℕ} : g (m.countDram ten a n) = g m :=
  ite_unseen blind.bill (blind.count.trans (blind.addFld.trans ((foldl_unseen fun _ _ => blind.takeTokens).trans blind.bill)))

theorem readLoc {l : Loc × ℕ} : g (m.readLoc ten l).2 = g m := by
  unfold Module.readLoc
  split
  · exact blind.addFld.trans blind.bill
  · simp only
    split <;> exact blind.countDram.trans (foldl_unseen fun _ _ => blind.readUnit)

theorem readLocs {ls : List (Loc × ℕ)} : g (m.readLocs ten ls).2 = g m := by
  induction ls generalizing m with
  | nil => rfl
  | cons l ls ih =>
    have first := blind.readLoc (m := m) (ten := ten) (l := l)
    unfold Module.readLocs
    split
    · next e => rwa [e] at first
    · next m1 e =>
      rw [e] at first
      have rest := ih (m := m1)
      split <;> next e => rw [e] at rest; exact rest.trans first

theorem pathCheck {b : Block} : g (m.pathCheck b ten).2 = g m := by
  unfold Module.pathCheck
  simp only
  split
  · exact blind.raise.trans ((blind.rest (m := m.probe Kind.INT_PATH_PARITY ten b.base) rfl).trans blind.probe)
  · exact blind.probe

theorem countSkew {va n : ℕ} {ls : List (Loc × ℕ)} : g (m.countSkew ten va n ls) = g m :=
  ite_unseen rfl (blind.rest rfl)

theorem readVA {b : Block} {va n : ℕ} : g (m.readVA b ten va n).2 = g m := by
  have located := blind.translateAll (m := m) (ten := ten) (b := b) (write := false) (ps := piecesOf va n)
  unfold Module.readVA
  split
  · next e => rwa [e] at located
  · next m1 e =>
    rw [e] at located
    have checked := blind.pathCheck (m := m1) (ten := ten) (b := b)
    split
    · next e => rw [e] at checked; exact checked.trans located
    · next e => rw [e] at checked; exact blind.readLocs.trans (blind.countSkew.trans (checked.trans located))

/-! ### Writes of the Hold (R258) -/

theorem writeHoldLocs {ps : List (ℕ × ℕ)} {bs : List Byte} : g (m.writeHoldLocs ps bs) = g m := by
  induction ps generalizing m bs with
  | nil => rfl
  | cons p ps ih => exact ih.trans (blind.rest rfl)

theorem countHold {n : ℕ} : g (m.countHold ten n) = g m := ite_unseen blind.bill (blind.count.trans blind.bill)

theorem writeHold {h : ℕ} {bs : List Byte} : g (m.writeHold ten h bs).2 = g m := by
  unfold Module.writeHold
  simp only
  split
  · next e _ =>
    cases e with
    | isolation => exact blind.raise.trans (blind.violation.trans blind.probe)
    | pair => exact blind.raise.trans blind.probe
  · exact blind.writeHoldLocs.trans (blind.countHold.trans blind.probe)

/-! ### Staging (R174, R181) -/

theorem setWrec {w : WRecord} : g (m.setWrec ten w) = g m := by
  rw [Module.setWrec_rest]
  exact blind.rest rfl

theorem clearSrcErrs {src : Option ℕ} : g (m.clearSrcErrs src) = g m := by
  unfold Module.clearSrcErrs
  split
  · exact blind.rest rfl
  · rfl

theorem readTwice {src : Option ℕ} {va n : ℕ} : g (m.readTwice src ten va n).2 = g m := by
  unfold Module.readTwice
  extract_lets bus m1 again
  have cleared : g m1 = g m := blind.clearSrcErrs
  have hagain : ∀ m', g (again m').2 = g m' := by
    intro m'
    have read := blind.readVA (m := m') (ten := ten) (b := .wgt) (va := va) (n := n)
    simp only [again]
    split
    · next e => rwa [e] at read
    · next e => rw [e] at read; exact blind.raise.trans read
  have read := blind.readVA (m := m1) (ten := ten) (b := .wgt) (va := va) (n := n)
  split
  · exact blind.raise.trans cleared
  · split
    · exact (hagain m1).trans cleared
    · split
      · next e => rw [e] at read; exact read.trans cleared
      · next e => rw [e] at read; exact (hagain _).trans (read.trans cleared)

theorem copySlice {src : Option ℕ} {w : WRecord} {l b : ℕ} {v : BitVec 16} : g (m.copySlice src ten w l v b).2 = g m := by
  unfold Module.copySlice
  split
  · rfl
  · next x _ =>
    have read := blind.readTwice (m := m) (ten := ten) (src := src) (va := w.sourceOf v + x.offset) (n := x.bytes)
    split
    · next e => rwa [e] at read
    · next bs m1 e =>
      rw [e] at read
      have wrote := blind.writeHold (m := m1) (ten := ten) (h := w.berthAddr b) (bs := bs)
      split
      · next e => rw [e] at wrote; exact wrote.trans read
      · next e => rw [e] at wrote; exact blind.addFld.trans (wrote.trans read)

theorem stageLayer {l : ℕ} {v : BitVec 16} {m' : Module} (h : m.stageLayer ten l v = some m') : g m' = g m := by
  unfold Module.stageLayer at h
  split at h
  · cases h
  · simp only at h
    split at h
    · cases h
    · cases h
      exact blind.setWrec.trans (blind.copySlice.trans (ite_unseen blind.drawn rfl))

end StagingBlind

theorem Module.stageLayer_epochs {l : ℕ} {v : BitVec 16} {m' : Module} (h : m.stageLayer ten l v = some m') :
    m'.epochs = m.epochs := StagingBlind.stageLayer (g := Module.epochs) (fun _ _ => rfl) h

end Sys2Proof.Machine
end

