-- ==== Sys2Proof/Proofs/WeightRecordRules.lean ====
section
/-! What the operations on the weight record leave: the record that stands after each, and the registers that mirror it (O31). -/

namespace Sys2Proof.Machine

variable {m m' : Module} {t l : ℕ} {w : WRecord} {x : WSwap} {v : BitVec 16}

/-! ### Tables -/

theorem Map.mem_of_get? {α : Type} {a : Map α} {k : ℕ} {y : α} (h : Map.get? a k = some y) : (k, y) ∈ a := by
  induction a with
  | nil => cases h
  | cons p a ih =>
    unfold Map.get? at h
    split at h
    · next e =>
      cases e
      cases h
      exact List.mem_cons_self ..
    · exact List.mem_cons_of_mem _ (ih h)

theorem Map.key_of_get? {α : Type} {a : Map α} {k : ℕ} (h : (Map.get? a k).isSome = true) : k ∈ a.map (·.1) := by
  obtain ⟨y, hy⟩ := Option.isSome_iff_exists.1 h
  exact List.mem_map_of_mem (Map.mem_of_get? hy)

theorem firstFrom_isSome {ok : ℕ → Bool} {n a b : ℕ} (low : a ≤ b) (high : b < a + n) (hb : ok b = true) :
    (firstFrom ok 1 n a).isSome = true := by
  induction n generalizing a with
  | zero => omega
  | succ n ih =>
    unfold firstFrom
    split
    · rfl
    · next no => exact ih (Nat.lt_of_le_of_ne low fun e => no (e ▸ hb)) (by omega)

/-! ### The record after each operation (R162) -/

theorem Module.trimBerths_wrec (h : m.wrec t = some w) : ∃ bs, (m.trimBerths t).wrec t = some { w with berths := bs } := by
  unfold Module.trimBerths
  rw [h]
  exact ⟨_, Module.wrec_setWrec_self⟩

theorem Module.setTravel_eq (h : m.wrec t = some w) (f : WSwap → WSwap) :
    m.setTravel t f = m.setWrec t { w with travel := w.travel.map f } := by
  unfold Module.setTravel
  rw [h]

/-- A record that no operation changed but in its berths and its broken layers. -/
abbrev WRecord.Restaged (w w' : WRecord) : Prop := w' = { w with berths := w'.berths, broken := w'.broken }

/-! ### Berths and staging (R161, R174, R181) -/

/-- With fewer occupied berths than there are, one is free. -/
theorem WRecord.exists_isFree (h : 0 < w.freeCount) : ∃ b, b < w.count ∧ w.isFree b = true := by
  by_contra none
  push Not at none
  have occupied : List.range w.count ⊆ w.berths.map (·.1) := by
    intro b hb
    have hb := List.mem_range.1 hb
    refine Map.key_of_get? (Option.ne_none_iff_isSome.1 fun e => none b hb ?_)
    simp [WRecord.isFree, hb, e]
  have := (List.nodup_range.subperm occupied).length_le
  rw [List.length_range, List.length_map] at this
  unfold WRecord.freeCount at h
  omega

theorem Module.pickBerth_isSome (h : 0 < w.freeCount) : (m.pickBerth w).isSome = true := by
  obtain ⟨b, hb, free⟩ := WRecord.exists_isFree h
  unfold Module.pickBerth pick
  split
  · rfl
  · exact firstFrom_isSome (Nat.zero_le b) (by omega) free

/-- With a free berth, a layer is staged or found BROKEN. -/
theorem Module.stageLayer_isSome (hw : m.wrec t = some w) (free : 0 < w.freeCount) : ∃ m', m.stageLayer t l v = some m' := by
  obtain ⟨b, hb⟩ := Option.isSome_iff_exists.1 (Module.pickBerth_isSome (m := m) free)
  unfold Module.stageLayer
  rw [hw]
  simp only
  split
  · next none =>
    rw [hb] at none
    cases own : w.berthOf l v <;> simp [own] at none
  · exact ⟨_, rfl⟩

theorem WRecord.isReady_insert {b : ℕ} :
    ({ w with berths := Map.insert w.berths b ⟨l, v, true⟩ } : WRecord).isReady l v = true :=
  List.any_eq_true.2 ⟨_, Map.mem_of_get? (Map.get?_insert_self ..), by simp⟩

theorem WRecord.isBroken_append {bs : Map Berth} :
    ({ w with berths := bs, broken := w.broken ++ [(l, v)] } : WRecord).isBroken l v = true := by
  simp [WRecord.isBroken]

/-- The layer is then in a berth, or BROKEN, and nothing but that changes in the record. -/
theorem Module.stageLayer_wrec (hw : m.wrec t = some w) (h : m.stageLayer t l v = some m') :
    ∃ w', m'.wrec t = some w' ∧ w.Restaged w' ∧ (w'.isReady l v = true ∨ w'.isBroken l v = true) := by
  unfold Module.stageLayer at h
  rw [hw] at h
  simp only at h
  split at h
  · cases h
  · cases h
    refine ⟨_, Module.wrec_setWrec_self, ?_⟩
    split
    · exact ⟨rfl, .inl WRecord.isReady_insert⟩
    · exact ⟨rfl, .inr WRecord.isBroken_append⟩

/-! ### The registers that mirror a record -/

/-- The registers that mirror a record. -/
abbrev weightRegs : List RegId := [.WGT_TEN_VERSION, .WGT_TEN_FRONT_STEP, .WGT_TEN_STATUS]

theorem RegKept.setReg {r r' : RegId} {i j : ℕ} (m : Module) (y : Word64) (hr : r ≠ r') (hi : i < 2 ^ 24) (hj : j < 2 ^ 16) :
    RegKept r m (m.setReg r' i j y) :=
  fun _ _ hi' hj' => m.reg_setReg_ne y hi hj hi' hj' fun ⟨e, _⟩ => hr e

theorem RegKept.mirrorWeights {r : RegId} (m : Module) (hr : r ∉ weightRegs) (ht : t < 2 ^ 24) :
    RegKept r m (m.mirrorWeights t) := by
  simp only [List.mem_cons, List.not_mem_nil, or_false, not_or] at hr
  obtain ⟨version, front, status⟩ := hr
  have put : ∀ (m : Module) (r' : RegId) (y : Word64), r ≠ r' → RegKept r m (m.setReg r' t 0 y) :=
    fun m _ y hr => RegKept.setReg m y hr ht (by decide)
  unfold Module.mirrorWeights
  split
  · exact (put _ _ _ version).trans (put _ _ _ status)
  · simp only
    split
    · exact ((put _ _ _ version).trans (put _ _ _ front)).trans (put _ _ _ status)
    · exact (put _ _ _ version).trans (put _ _ _ status)

theorem RegKept.setWrec {r : RegId} (m : Module) (w : WRecord) (hr : r ∉ weightRegs) (ht : t < 2 ^ 24) :
    RegKept r m (m.setWrec t w) := by
  have stored : RegKept r m { m with weights := Map.insert m.weights t w } := RegKept.of_regs rfl
  exact stored.trans (RegKept.mirrorWeights _ hr ht)

theorem RegKept.trimBerths {r : RegId} (m : Module) (hr : r ∉ weightRegs) (ht : t < 2 ^ 24) : RegKept r m (m.trimBerths t) := by
  unfold Module.trimBerths
  split
  · exact RegKept.refl r m
  · exact RegKept.setWrec m _ hr ht

/-- Where a front step is fixed, WGT_TEN_FRONT_STEP holds it. -/
theorem Module.frontStep_setWrec {front : Word64} (ht : t < 2 ^ 24) (h : w.travel.bind (fun x => x.front) = some front) :
    (m.setWrec t w).reg .WGT_TEN_FRONT_STEP t = front := by
  have stored : ({ m with weights := Map.insert m.weights t w } : Module).wrec t = some w := Map.get?_insert_self ..
  unfold Module.setWrec Module.mirrorWeights
  rw [stored]
  simp only [h]
  rw [Module.reg_setReg_ne _ _ ht (by decide) ht (by decide) (by simp), Module.reg_setReg_self]

theorem Module.frontStep_trimBerths {front : Word64} (ht : t < 2 ^ 24) (hw : m.wrec t = some w)
    (h : w.travel.bind (fun x => x.front) = some front) : (m.trimBerths t).reg .WGT_TEN_FRONT_STEP t = front := by
  unfold Module.trimBerths
  rw [hw]
  exact Module.frontStep_setWrec ht h

theorem Module.setWrec_tiles : (m.setWrec t w).tiles = m.tiles := by rw [Module.setWrec_rest]

theorem Module.trimBerths_tiles : (m.trimBerths t).tiles = m.tiles := by
  unfold Module.trimBerths
  split
  · rfl
  · exact Module.setWrec_tiles

end Sys2Proof.Machine
end

