-- ==== Sys2Proof/Proofs/Staging.lean ====
section
/-! Staging, fetching, the swap front, the end of a swap and the deadline of a layer (O31). -/

namespace Sys2Proof.Machine

variable {m m' : Module} {s : State} {ten : Ten} {t l n i : ℕ} {w w' : WRecord} {x y : WSwap} {v : BitVec 16} {layer : BitVec 10}

/-! ### The staging of a layer (R165, R174, R181) -/

section Staged

variable (hw : s.mod.wrec ten.val = some w)
include hw

/-- A layer to be staged again is staged at its version, before any layer of a swap. -/
theorem restage_yields (again : w.restage.find? (fun p => p.1 == layer.toNat) = some (layer.toNat, v))
    (h : (s.mod.setWrec ten.val { w with restage := w.restage.erase (layer.toNat, v) }).stageLayer ten.val layer.toNat v = some m) :
    Yields (.layerStaged ten false layer) s m := by
  refine yields_of_run (execLayerStaged.eq_1 ten false layer s) ?_
  simp only [hw, again, h, Bool.false_eq_true, if_false]

/-- What the staging of a swap's layer does, where no layer is to be staged again. -/
theorem swapLayer_yields (fresh : w.restage.find? (fun p => p.1 == layer.toNat) = none) (travels : w.travel = some x) :
    Yields (.layerStaged ten false layer) s (s.mod.stageNext ten.val w false x layer.toNat) := by
  refine yields_of_run (execLayerStaged.eq_1 ten false layer s) ?_
  simp only [hw, fresh, travels, Bool.not_false, if_true]

theorem queuedLayer_yields (fresh : w.restage.find? (fun p => p.1 == layer.toNat) = none) (travels : w.travel = some x)
    (waits : w.queued = some y) (done : w.nextLayer x = none) :
    Yields (.layerStaged ten true layer) s (s.mod.stageNext ten.val w true y layer.toNat) := by
  refine yields_of_run (execLayerStaged.eq_1 ten true layer s) ?_
  simp only [hw, fresh, travels, waits, done, Bool.not_true, Bool.false_eq_true, if_false, Option.isNone_none, if_true]

end Staged

/-- The berths that the staging of a swap's layer needs free: its own, one for every fetch, and one for every streaming stage. -/
abbrev Module.berthsNeeded (m : Module) (t : ℕ) (w : WRecord) : ℕ := 1 + (m.fetches t w).length + m.streamStages t w

theorem Module.stageNext_full {queued : Bool} (full : w.freeCount < m.berthsNeeded t w) : m.stageNext t w queued x l = m :=
  if_pos (by simp [full])

theorem Module.stageNext_room {queued : Bool} (next : w.nextLayer x = some l) (room : m.berthsNeeded t w ≤ w.freeCount)
    (h : m.stageLayer t l x.version = some m') : m.stageNext t w queued x l = (m'.markStaged t queued l).trimBerths t := by
  unfold Module.stageNext
  rw [if_neg (by simp [next, room]), h]

/-- The swap that a staging serves takes the layer into its list, the record keeps the rest but its berths and broken layers. -/
theorem Module.stageNext_wrec {queued : Bool} (hw : m.wrec t = some w) (next : w.nextLayer x = some l)
    (room : m.berthsNeeded t w ≤ w.freeCount) : ∃ w', (m.stageNext t w queued x l).wrec t = some w' ∧ w'.active = w.active
      ∧ w'.travel = (if queued then w.travel else w.travel.map fun x => { x with staged := x.staged ++ [l] })
      ∧ w'.queued = if queued then w.queued.map fun x => { x with staged := x.staged ++ [l] } else w.queued := by
  have free : 0 < w.freeCount := by
    unfold Module.berthsNeeded at room
    omega
  obtain ⟨m1, h⟩ := Module.stageLayer_isSome (l := l) (v := x.version) hw free
  obtain ⟨w1, hw1, rest, -⟩ := Module.stageLayer_wrec hw h
  rw [Module.stageNext_room next room h]
  have marked : (m1.markStaged t queued l).wrec t = some (if queued
      then { w1 with queued := w1.queued.map fun x => { x with staged := x.staged ++ [l] } }
      else { w1 with travel := w1.travel.map fun x => { x with staged := x.staged ++ [l] } }) := by
    unfold Module.markStaged
    rw [hw1]
    exact Module.wrec_setWrec_self
  obtain ⟨bs, trimmed⟩ := Module.trimBerths_wrec marked
  refine ⟨_, trimmed, ?_⟩
  rw [rest]
  cases queued <;> exact ⟨rfl, rfl, rfl⟩

/-! ### The fetch of a streamed layer (R165, R181) -/

/-- The first use of a window that no berth serves and that is not BROKEN. -/
abbrev WRecord.firstMissing (w : WRecord) (u : List (ℕ × BitVec 16)) : Option (ℕ × BitVec 16) :=
  u.find? fun p => !w.isReady p.1 p.2 && !w.isBroken p.1 p.2

/-- A search finds an answer that some element gives, where no element gives another. -/
theorem findSome?_eq_of_unique {α β : Type} {us : List α} {f : α → Option β} {b : β} (found : ∃ u ∈ us, f u = some b)
    (unique : ∀ u ∈ us, ∀ b', f u = some b' → b' = b) : us.findSome? f = some b := by
  cases e : us.findSome? f with
  | none =>
    obtain ⟨u, hu, hb⟩ := found
    rw [List.findSome?_eq_none_iff.1 e u hu] at hb
    cases hb
  | some b' =>
    obtain ⟨u, hu, hb⟩ := List.exists_of_findSome?_eq_some e
    rw [unique u hu b' hb]

/-- With no epoch open, an error in data of a route restarts none (R410). -/
theorem Module.epochData_none (none : m.epochs = []) : m.epochData n = m := by
  unfold Module.epochData Module.epochOf
  rw [none]
  rfl

theorem fetch_yields (hw : s.mod.wrec ten.val = some w)
    (missing : ∃ u ∈ s.mod.windows ten.val w, w.firstMissing u = some (layer.toNat, v))
    (one : ∀ u ∈ s.mod.windows ten.val w, ∀ p, w.firstMissing u = some p → p.1 = layer.toNat → p.2 = v)
    (calm : s.mod.epochs = []) (h : s.mod.stageLayer ten.val layer.toNat v = some m) :
    Yields (.streamFetchComplete ten layer) s m := by
  refine yields_of_run (execStreamFetchComplete.eq_1 ten layer s) ?_
  have quiet : m.epochs = [] := (Module.stageLayer_epochs h).trans calm
  simp only [hw]
  rw [findSome?_eq_of_unique (b := (layer.toNat, v)) ?found ?unique]
  case found =>
    obtain ⟨u, hu, e⟩ := missing
    exact ⟨u, hu, by simp only [e, if_true]⟩
  case unique =>
    intro u hu p hp
    split at hp
    · next k e =>
      split at hp
      · next hk =>
        cases hp
        exact Prod.ext hk (one u hu _ e hk)
      · cases hp
    · cases hp
  simp only [h, Option.getD_some]
  refine ite_eq_right_iff.2 fun _ => ?_
  exact List.foldlRecOn (motive := fun m' => m' = m) _ _ rfl fun m' e _ _ => by rw [e]; exact Module.epochData_none quiet

theorem staging : Staging := by
  intro ten s w layer hw
  refine ⟨fun v again free => ?again, fun x fresh travels next => ⟨fun full => ?full, fun room => ⟨fun m h => ?next, ?staged⟩⟩,
    fun x y fresh travels waits done next room => ?queued, fun v missing one calm free => ⟨fun m h => ?fetch, ?fetched⟩⟩
  case again =>
    have record : (s.mod.setWrec ten.val { w with restage := w.restage.erase (layer.toNat, v) }).wrec ten.val = some _ :=
      Module.wrec_setWrec_self
    obtain ⟨m1, h⟩ := Module.stageLayer_isSome (l := layer.toNat) (v := v) record free
    obtain ⟨w1, hw1, rest, staged⟩ := Module.stageLayer_wrec record h
    refine ⟨fun m h => restage_yields hw again h, completes_of_yields (restage_yields hw again h) ⟨w1, hw1, ?_, staged, ?_, ?_⟩⟩
    all_goals rw [rest]
  case full =>
    have h := swapLayer_yields hw fresh travels
    rwa [Module.stageNext_full full] at h
  case next =>
    have h' := swapLayer_yields hw fresh travels
    rwa [Module.stageNext_room next room h] at h'
  case staged =>
    obtain ⟨w1, hw1, active, travel, queued⟩ := Module.stageNext_wrec (queued := false) hw next room
    exact completes_of_yields (swapLayer_yields hw fresh travels) ⟨w1, hw1, by rw [travel, travels]; rfl, queued, active⟩
  case queued =>
    obtain ⟨w1, hw1, active, travel, queued⟩ := Module.stageNext_wrec (queued := true) hw next room
    exact completes_of_yields (queuedLayer_yields hw fresh travels waits done)
      ⟨w1, hw1, by rw [queued, waits]; rfl, travel, active⟩
  case fetch => exact fetch_yields hw missing one calm h
  case fetched =>
    obtain ⟨m1, h⟩ := Module.stageLayer_isSome (l := layer.toNat) (v := v) hw free
    obtain ⟨w1, hw1, rest, staged⟩ := Module.stageLayer_wrec hw h
    refine completes_of_yields (fetch_yields hw missing one calm h) ⟨w1, hw1, staged, ?_, ?_⟩
    all_goals rw [rest]

/-! ### The swap front (R175, R178, R179) -/

/-- Once S is fixed, the travelling swap holds it, and so does WGT_TEN_FRONT_STEP. -/
theorem Module.fixFront_fixed {front : Word64} (ht : t < 2 ^ 24) (hw : m.wrec t = some w) (hx : w.travel = some x) :
    (∃ bs, (m.fixFront t front).wrec t = some { w with travel := some { x with front := some front }, berths := bs })
      ∧ (m.fixFront t front).reg .WGT_TEN_FRONT_STEP t = front := by
  unfold Module.fixFront
  rw [Module.setTravel_eq hw, hx]
  exact ⟨Module.trimBerths_wrec Module.wrec_setWrec_self, Module.frontStep_trimBerths ht Module.wrec_setWrec_self rfl⟩

section FrontFix

variable {r : Route} {h : ℕ} (hw : s.mod.wrec ten.val = some w) (travels : w.travel = some x) (unfixed : x.front = none)
  (route : s.mod.genRoute ten.val = some (n, r)) (head : r.headStage = some h) (alone : x.proposal = none)
include hw travels route head

theorem frontFix_early (early : s.mod.prestaged ten.val w x = false) : NoEffect (.swapFrontFix ten) s := by
  refine yields_of_run (execSwapFrontFix.eq_1 ten s) ?_
  simp only [hw, route, travels, head, early, Bool.not_false, Bool.or_true, if_true]

include unfixed alone

theorem frontFix_fixes (staged : s.mod.prestaged ten.val w x = true) (single : x.group = 0) :
    Yields (.swapFrontFix ten) s (s.mod.fixFront ten.val (r.nextHead h)) := by
  refine yields_of_run (execSwapFrontFix.eq_1 ten s) ?_
  simp [hw, route, travels, head, staged, unfixed, alone, single]

theorem frontFix_proposes (staged : s.mod.prestaged ten.val w x = true) (grouped : x.group ≠ 0) :
    Yields (.swapFrontFix ten) s ((s.mod.setTravel ten.val (fun x => { x with
      proposal := some (r.nextHead h + BitVec.ofNat 64 (s.mod.wgtNow ten.val w).lead) })).startGroup ten x.group 2 x.version.toNat 0
        (r.nextHead h + BitVec.ofNat 64 (s.mod.wgtNow ten.val w).lead)) := by
  refine yields_of_run (execSwapFrontFix.eq_1 ten s) ?_
  simp [hw, route, travels, head, staged, unfixed, alone, grouped]

end FrontFix

theorem frontFixing : FrontFixing := by
  intro ten s w x hw travels unfixed
  refine ⟨fun n r h route head alone => ⟨fun early => ?early, fun staged single => ⟨?fixes, ?fixed⟩, fun staged grouped => ?proposes⟩,
    fun proposed timed => ?late, fun quiet => ?quiet⟩
  case early => exact frontFix_early hw travels route head early
  case fixes => exact frontFix_fixes hw travels unfixed route head alone staged single
  case fixed =>
    obtain ⟨⟨bs, record⟩, register⟩ := Module.fixFront_fixed (front := r.nextHead h) (ten_lt ten) hw travels
    exact completes_of_yields (frontFix_fixes hw travels unfixed route head alone staged single) ⟨_, record, rfl, rfl, rfl, register⟩
  case proposes => exact frontFix_proposes hw travels unfixed route head alone staged grouped
  case late =>
    have raised : Yields (.swapTimeout ten) s (s.mod.raise Kind.WGT_SWAP_WAIT ten.val x.version.toNat) := by
      refine yields_of_run (execSwapTimeout.eq_1 ten s) ?_
      simp [hw, travels, proposed, unfixed, timed]
    exact ⟨raised, recorded_of_yields (by decide) raised⟩
  case quiet =>
    refine yields_of_run (execSwapTimeout.eq_1 ten s) ?_
    rcases quiet with h | h <;> simp [hw, travels, h]

/-! ### The end of a swap (R176, R180) -/

theorem Module.cmd_trimBerths {j : ℕ} : (m.trimBerths t).cmd j = m.cmd j := by
  unfold Module.trimBerths
  split
  · rfl
  · exact Module.cmd_setWrec

theorem Module.finish_cmd {id status detail : ℕ} {c : Cmd} (h : m.cmd id = some c) :
    ∃ d, (m.finish id status detail).cmd id = some { c with phase := .done status d } :=
  Module.finish_done (look := false) (watched := ⟨id, c, m.nextSeq, []⟩) ⟨⟨c.phase, h⟩, rfl, rfl⟩ status detail

theorem Module.completeSwap_wrec : ∃ w', (m.completeSwap t w x).wrec t = some w' ∧ w'.active = x.version ∧ w'.source = x.source
    ∧ w'.travel = w.queued ∧ w'.queued = none := by
  unfold Module.completeSwap
  extract_lets bad keep w1 m1
  obtain ⟨bs, trimmed⟩ := Module.trimBerths_wrec (Module.wrec_setWrec_self (m := m) (t := t) (w := w1))
  exact ⟨_, (wrec_of_weights Module.finish_weights).trans trimmed, rfl, rfl, rfl, rfl⟩

theorem Module.completeSwap_cmd {c : Cmd} (h : m.cmd x.cmd = some c) : ∃ detail, (m.completeSwap t w x).cmd x.cmd = some { c with
    phase := .done (if (List.range w.layers.length).any (fun l => w.isBroken l x.version) then st.data else st.ok) detail } := by
  unfold Module.completeSwap
  extract_lets bad keep w1 m1
  exact Module.finish_cmd (Module.cmd_trimBerths.trans (Module.cmd_setWrec.trans h))

theorem swapCompletion : SwapCompletion := by
  intro ten s w x hw travels done past
  have run : Yields (.swapComplete ten) s (s.mod.completeSwap ten.val w x) := by
    refine yields_of_run (execSwapComplete.eq_1 ten s) ?_
    simp only [hw, travels, done, Option.isNone_none, Bool.true_and]
    refine if_pos (List.all_eq_true.2 fun p hp => ?_)
    obtain ⟨f, front, committed⟩ := past p hp
    rw [front]
    exact List.all_eq_true.2 committed
  exact ⟨_, run, rfl, Module.completeSwap_wrec, fun c hc => Module.completeSwap_cmd hc⟩

/-! ### The deadline of a streamed layer (R166, R167) -/

/-- A miss of a layer is counted and recorded (R166). -/
def Module.countMiss (m : Module) (t l : ℕ) : Module := (m.addFld Fld.WGT_TEN_MISSES_COUNT t 0).raise Kind.WGT_MISS t l

/-- A record is left, the MISS bit of the weights is set, and the tiles and the memories are as they were. -/
structure Module.Missed (m m' : Module) (t : ℕ) (w : WRecord) : Prop where
  wrec : m'.wrec t = some w
  status : (m'.reg .ERR_STATUS Block.wgt.group).getLsbD Kind.WGT_MISS.bit = true
  tiles : m'.tiles = m.tiles
  dram : m'.dram = m.dram
  hold : m'.hold = m.hold

theorem Module.countMiss_missed (ht : t < 2 ^ 24) : m.Missed ((m.countMiss t l).setWrec t w) t w := by
  have contents : (m.countMiss t l).contents = m.contents := Module.raise_contents.trans Module.addFld_contents
  have kept : RegKept .ERR_STATUS (m.countMiss t l) ((m.countMiss t l).setWrec t w) := RegKept.setWrec _ w (by decide) ht
  refine ⟨Module.wrec_setWrec_self, ?_, ?_, ?_, ?_⟩
  · rw [kept Block.wgt.group 0 (by decide) (by decide)]
    exact Module.status_raise (k := Kind.WGT_MISS) (by decide)
  all_goals rw [Module.setWrec_rest]
  · exact congrArg (·.tiles) contents
  · exact congrArg (·.dram) contents
  · exact congrArg (·.hold) contents

/-- A further event leaves all of that. -/
theorem Module.Missed.raise {k : Kind} {loc site : ℕ} (h : m.Missed m' t w) (hk : k.bit < 64) :
    m.Missed (m'.raise k t loc site) t w := by
  have contents : (m'.raise k t loc site).contents = m'.contents := Module.raise_contents
  exact ⟨(wrec_of_weights (weights_of_contents contents)).trans h.wrec, Module.status_raise_mono (by decide) hk h.status,
    (congrArg (·.tiles) contents).trans h.tiles, (congrArg (·.dram) contents).trans h.dram, (congrArg (·.hold) contents).trans h.hold⟩

/-- So does a count in a register of the weights. -/
theorem Module.Missed.addFld {f : Field} {n : ℕ} (h : m.Missed m' t w) (hf : f.reg ≠ .ERR_STATUS) (ht : t < 2 ^ 24) :
    m.Missed (m'.addFld f t 0 n) t w := by
  refine ⟨h.wrec, ?_, h.tiles, h.dram, h.hold⟩
  rw [StatusKept.addFld m' hf ht (by decide) _ (by decide)]
  exact h.status

/-- The layer is streamed, in a step that reads it and that no berth serves, and its deadline in the step is still open (R166). -/
def Module.MissDue (m : Module) (w : WRecord) (r : Route) (sg : Stage) (key : ℕ × ℕ × Word64) : Prop :=
  r.learning = false ∧ sg.carriesLayer key.2.1 = true ∧ w.isStreamed key.2.1 = true ∧ (m.wgtNow r.ten.val w).deadline ≠ 0
    ∧ w.isReady key.2.1 (w.version key.2.2) = false ∧ w.isBroken key.2.1 (w.version key.2.2) = false ∧ key ∉ w.missed
    ∧ w.answers.any (fun a => a.1 == key.1 && a.2.1 == key.2.1 && a.2.2.1 == key.2.2) = false

/-- The record after a miss; with `lean` the lean copy is decided for the step (R166, R167). -/
def WRecord.withMiss (w : WRecord) (key : ℕ × ℕ × Word64) (lean : Bool) : WRecord :=
  if lean then { w with
    missed := w.missed ++ [key], decided := w.decided ++ [key]
    leanSteps := if w.leanSteps.contains key.2.2 then w.leanSteps else w.leanSteps ++ [key.2.2] }
  else { w with missed := w.missed ++ [key] }

section Deadline

variable {route : Fin 256} {stage : Fin 64} {r : Route} {sg : Stage} {step : Word64} (hr : s.mod.route route.val = some r)
  (hsg : r.stages[stage.val]? = some sg) (hw : s.mod.wrec r.ten.val = some w)
  (hstep : s.mod.dueStep w route.val stage.val sg layer.toNat = some step)
include hr hsg hw hstep

theorem deadline_early (early : ¬ s.mod.MissDue w r sg (stageKey route.val stage.val, layer.toNat, step)) :
    NoEffect (.layerDeadlineExpire route stage layer) s := by
  refine yields_of_run (execLayerDeadlineExpire.eq_1 route stage layer s) ?_
  simp only [hr, hsg, hw, hstep]
  refine if_pos (by_contra fun open' => early ?_)
  simp only [Bool.or_eq_true, not_or, Bool.not_eq_true] at open'
  obtain ⟨⟨⟨⟨⟨⟨⟨learns, carries⟩, streamed⟩, timed⟩, notReady⟩, notBroken⟩, notMissed⟩, unanswered⟩ := open'
  exact ⟨learns, by simpa using carries, by simpa using streamed, by simpa using timed, notReady, notBroken,
    by simpa using notMissed, unanswered⟩

theorem deadline_misses (due : s.mod.MissDue w r sg (stageKey route.val stage.val, layer.toNat, step)) :
    ∃ m, Yields (.layerDeadlineExpire route stage layer) s m ∧ s.mod.Missed m r.ten.val
      (w.withMiss (stageKey route.val stage.val, layer.toNat, step)
        ((s.mod.wgtNow r.ten.val w).lean && Map.get? w.lean layer.toNat == some (w.version step))) := by
  have recorded := fun w' => Module.countMiss_missed (m := s.mod) (l := layer.toNat) (w := w') (ten_lt r.ten)
  obtain ⟨learns, carries, streamed, timed, notReady, notBroken, notMissed, unanswered⟩ := due
  simp only at carries streamed notReady notBroken unanswered
  refine ⟨_, yields_of_run (execLayerDeadlineExpire.eq_1 route stage layer s) rfl, ?_⟩
  simp only [hr, hsg, hw, hstep, learns, carries, streamed, notReady, notBroken, unanswered]
  rw [if_neg (by simp [timed, notMissed])]
  unfold WRecord.withMiss
  cases lean : (s.mod.wgtNow r.ten.val w).lean && Map.get? w.lean layer.toNat == some (w.version step) with
  | true => exact (recorded _).addFld (by decide) (ten_lt r.ten)
  | false =>
    unfold Module.when
    simp only [Bool.false_eq_true, if_false]
    split
    · exact (recorded _).raise (by decide)
    · exact recorded _

end Deadline

theorem layerDeadlines : LayerDeadlines := by
  intro route stage layer s r sg w step hr hsg hw hstep
  refine ⟨fun early => deadline_early hr hsg hw hstep early, fun due => ?_⟩
  obtain ⟨m, run, missed⟩ := deadline_misses hr hsg hw hstep due
  refine completes_of_yields run ⟨⟨_, missed.wrec, ?_⟩, missed.status, missed.tiles, missed.dram, missed.hold⟩
  unfold WRecord.withMiss
  simp only [Bool.and_eq_true, beq_iff_eq]
  split <;> exact ⟨rfl, rfl, rfl⟩

end Sys2Proof.Machine
end

