-- ==== Sys2Proof/Proofs/Toll.lean ====
section
/-! The words that VERS answers, and the delivery of the results for which a span waits (O31). -/

namespace Sys2Proof.Machine

variable {m m' base : Module} {s : State} {t u : TileId} {w : Fields} {cx : Ctx} {rec : WRecord} {ten : ℕ}

/-! ### The words (R119) -/

section Word

variable {b : ℕ} {broken lean : Bool} {v : BitVec 16} (hb : b < 4096)
include hb

theorem versWord_toNat : (versWord b broken lean v).toNat
    = b * 2 ^ 20 + (if broken then 2 ^ 18 else 0) + (if lean then 2 ^ 17 else 0) + 2 ^ 16 + v.toNat := by
  have := v.isLt
  unfold versWord
  rw [BitVec.toNat_ofNat, Nat.mod_eq_of_lt]
  split <;> split <;> omega

/-- The parts of a VERS word. -/
theorem versWord_parts : (versWord b broken lean v).toNat / 2 ^ 20 = b ∧ (versWord b broken lean v).getLsbD 18 = broken
    ∧ (versWord b broken lean v).getLsbD 17 = lean ∧ (versWord b broken lean v).getLsbD 16 = true
    ∧ (versWord b broken lean v).toNat % 2 ^ 16 = v.toNat := by
  have := v.isLt
  have bit : ∀ k, (versWord b broken lean v).getLsbD k = decide ((versWord b broken lean v).toNat / 2 ^ k % 2 = 1) :=
    fun k => Nat.testBit_eq_decide_div_mod_eq
  rw [bit, bit, bit, versWord_toNat hb]
  cases broken <;> cases lean <;> simp only [if_true, if_false, Bool.false_eq_true, decide_eq_true_eq, decide_eq_false_iff_not] <;> omega

end Word

theorem tollWords : TollWords := by
  intro rec key sg step l
  refine ⟨fun past => ?past, fun inside foreign => ?foreign, fun inside carried => ⟨fun a given => ?given, fun none =>
    ⟨fun decided => ?decided, fun undecided b ready berth => ?ready, fun undecided waits broken => ?broken,
      fun undecided waits whole => ?waits⟩⟩, fun b broken lean hb => versWord_parts hb⟩
  all_goals unfold WRecord.versAnswer
  case past => exact if_pos past
  all_goals simp only [if_neg (Nat.not_le.2 inside)]
  case foreign => simp [foreign]
  all_goals simp only [carried, Bool.not_true, Bool.false_eq_true, if_false]
  case given => rw [given]
  all_goals rw [none]
  case decided => simp [decided]
  all_goals simp only [List.contains_iff_mem, undecided, if_false]
  case ready => simp [ready, berth]
  case broken => simp [waits, broken]
  case waits => simp [waits, whole]

/-! ### What a request leaves (R165, R174) -/

/-- The tiles, and the register that says how the clusters are divided and which are released, are as they were. -/
structure Module.SpansKept (m m' : Module) : Prop where
  tiles : m'.tiles = m.tiles
  status : RegKept .FAB_CL_STATUS m m'

theorem Module.SpansKept.refl (m : Module) : m.SpansKept m := ⟨rfl, RegKept.refl _ m⟩

theorem Module.SpansKept.trans {m'' : Module} (h : m.SpansKept m') (h' : m'.SpansKept m'') : m.SpansKept m'' :=
  ⟨h'.tiles.trans h.tiles, h.status.trans h'.status⟩

theorem Module.SpansKept.foldl {α : Type} {f : Module → α → Module} (hf : ∀ (m : Module) a, m.SpansKept (f m a)) (l : List α) (m : Module) :
    m.SpansKept (l.foldl f m) :=
  List.foldlRecOn (motive := m.SpansKept) l f (.refl m) fun m' h a _ => h.trans (hf m' a)

theorem Module.SpansKept.setWrec (m : Module) (rec : WRecord) (ht : ten < 2 ^ 24) : m.SpansKept (m.setWrec ten rec) :=
  ⟨Module.setWrec_tiles, RegKept.setWrec m rec (by decide) ht⟩

theorem Module.SpansKept.trimBerths (m : Module) (ht : ten < 2 ^ 24) : m.SpansKept (m.trimBerths ten) :=
  ⟨Module.trimBerths_tiles, RegKept.trimBerths m (by decide) ht⟩

theorem Module.SpansKept.askLayer (m : Module) {c key l : ℕ} {sg : Stage} {step : Word64} (ht : ten < 2 ^ 24) :
    m.SpansKept (m.askLayer ten c key sg step l) := by
  unfold Module.askLayer
  split
  · exact .refl m
  · split
    · exact .refl m
    · extract_lets v old staging lost w1 m1
      have asked : m.SpansKept m1 := (setWrec m w1 ht).trans (trimBerths _ ht)
      split
      · exact asked
      · split
        · exact asked
        · split
          · exact asked
          · exact asked.trans (setWrec m1 _ ht)

theorem Module.SpansKept.countToll (m : Module) (cx : Ctx) : m.SpansKept (m.countToll cx) := by
  unfold Module.countToll
  split
  · refine ⟨?_, RegKept.trans (RegKept.trans (RegKept.of_regs rfl) (RegKept.addFld m.drawn _ (by decide) (ten_lt _) (by decide)))
      (RegKept.count _ _ _ _ (by decide))⟩
    exact congrArg (·.tiles) (Module.count_contents.trans (Module.addFld_contents.trans Module.drawn_contents))
  · exact .refl m

theorem Module.SpansKept.tile (h : m.SpansKept m') (u : TileId) : m'.tile u = m.tile u := Module.tile_of_tiles h.tiles

theorem Module.SpansKept.spanTiles (h : m.SpansKept m') (o : TileId) : m'.spanTiles o = m.spanTiles o := h.status.spanTiles o

/-! ### VERS with ROUTE (R163) -/

/-- The module once the tiles of a span have asked for their layers. -/
abbrev Module.askedBy (m : Module) (cx : Ctx) (w : Fields) : Module :=
  (m.spanTiles cx.o).foldl (fun m' u => m'.askLayer cx.r.ten.val cx.o.cl.val (stageKey cx.n (m.cl cx.o.cl.val).stage) cx.sg
    (m.cl cx.o.cl.val).step ((m'.tile u).versLayer w)) m

theorem Module.askedBy_kept : m.SpansKept (m.askedBy cx w) :=
  Module.SpansKept.foldl (fun m' _ => Module.SpansKept.askLayer m' (ten_lt _)) _ m

/-- A learning route, and a tenancy with no weight record, read zero. -/
theorem Module.versRoute_zero (h : cx.r.learning = true ∨ m.wrec cx.r.ten.val = none) :
    m.versRoute cx w = m.each cx fun _ x => x.setS w.d.toNat 0 :=
  if_pos (by rcases h with h | h <;> simp [h])

/-- The word that a tile of the span reads for its own layer. -/
def Module.tollWord (m : Module) (cx : Ctx) (rec : WRecord) (w : Fields) (x : Tile) : Option Word :=
  rec.versAnswer (stageKey cx.n (m.cl cx.o.cl.val).stage) cx.sg (m.cl cx.o.cl.val).step (x.versLayer w)

/-- Every tile of the span can be answered. -/
def Module.tollKnown (m : Module) (cx : Ctx) (rec : WRecord) (w : Fields) : Bool :=
  (m.spanTiles cx.o).all fun u => (m.tollWord cx rec w (m.tile u)).isSome

section Asks

variable (learns : cx.r.learning = false) (record : m.wrec cx.r.ten.val ≠ none)
  (asked : (m.askedBy cx w).wrec cx.r.ten.val = some rec)
include learns record asked

/-- The span waits or is answered by the record as it stands once all of its tiles have asked. -/
theorem Module.versRoute_asks : m.versRoute cx w = if m.tollKnown cx rec w
    then ((m.askedBy cx w).countToll cx).each cx fun _ x => x.setS w.d.toNat ((m.tollWord cx rec w x).getD 0)
    else (m.askedBy cx w).waitOn cx 0x42 w := by
  have known : ((m.askedBy cx w).spanTiles cx.o).all (fun u => (m.tollWord cx rec w ((m.askedBy cx w).tile u)).isSome)
      = m.tollKnown cx rec w := by
    rw [Module.askedBy_kept.spanTiles]
    simp only [Module.askedBy_kept.tile]
    rfl
  have some' : (m.wrec cx.r.ten.val).isNone = false := Option.isNone_eq_false_iff.2 (Option.ne_none_iff_isSome.1 record)
  unfold Module.versRoute
  simp only [learns, some', Bool.or_self, Bool.false_eq_true, if_false]
  rw [show Module.wrec _ cx.r.ten.val = some rec from asked, ← known]
  rfl

end Asks

/-! ### The release of a toll (R163) -/

/-- The span of a tile, where the tile is its origin and waits for the layer, is served. -/
def Module.tollRound (m : Module) (c layer : ℕ) (t : TileId) : Module :=
  if m.origin t != t || !m.released c then m
  else
    match m.stageOf c, (m.tile t).waitsToll layer with
    | some (n, r, sg), some w => m.versRoute ⟨n, r, sg, t⟩ w
    | _, _ => m

theorem exec_tollRelease (route : Fin 256) (stage : Fin 64) (layer : BitVec 16) :
    exec (.tollRelease route stage layer) s = s.run fun m => (m.stageClusters route.val stage.val).foldl (fun m c =>
      (List.range 256).foldl (fun m k => m.tollRound c layer.toNat (tileOfKey (c * 256 + k))) m) m := rfl

/-- No span has this tile as its origin and waits for the layer. -/
def Module.TollQuiet (m : Module) (layer : ℕ) (u : TileId) : Prop := m.origin u = u → (m.tile u).waitsToll layer = none

theorem Module.tollRound_quiet {c layer : ℕ} (quiet : m.TollQuiet layer u) : m.tollRound c layer u = m := by
  unfold Module.tollRound
  split
  · rfl
  · next h =>
    have origin : m.origin u = u := by
      simp only [Bool.or_eq_true, not_or, bne_iff_ne, ne_eq, not_not] at h
      exact h.1
    rw [quiet origin]
    split
    · next none => cases none
    · rfl

/-- A fold in which one element of a list without repeats acts, before and after which every other element changes nothing. -/
theorem foldl_eq_of_one {α β : Type} {l : List α} {f : β → α → β} {a : α} {b b' : β} (hn : l.Nodup) (ha : a ∈ l)
    (acts : f b a = b') (before : ∀ k ∈ l, k ≠ a → f b k = b) (after : ∀ k ∈ l, k ≠ a → f b' k = b') : l.foldl f b = b' := by
  induction l with
  | nil => cases ha
  | cons k l ih =>
    obtain ⟨hk, hn⟩ := List.nodup_cons.1 hn
    rw [List.foldl_cons]
    by_cases e : k = a
    · subst e
      rw [acts]
      exact List.foldlRecOn (motive := (· = b')) l f rfl fun b'' h i hi =>
        (congrArg (f · i) h).trans (after i (List.mem_cons_of_mem _ hi) fun e => hk (e ▸ hi))
    · rw [before k (List.mem_cons_self ..) e]
      exact ih hn ((List.mem_cons.1 ha).resolve_left (Ne.symm e)) (fun i hi => before i (List.mem_cons_of_mem _ hi))
        fun i hi => after i (List.mem_cons_of_mem _ hi)

theorem tileOfKey_tileKey : tileOfKey (tileKey t) = t := by
  obtain ⟨⟨c, hc⟩, ⟨r, hr⟩, ⟨k, hk⟩⟩ := t
  simp only [tileOfKey, tileKey, TileId.mk.injEq, Fin.ext_iff, Fin.val_ofNat]
  omega

theorem tileOfKey_cl {c : Cluster} {k : ℕ} (hk : k < 256) : (tileOfKey (c.val * 256 + k)).cl = c := by
  have := c.isLt
  simp only [tileOfKey, Fin.ext_iff, Fin.val_ofNat]
  omega

theorem tileKey_tileOfKey {c : Cluster} {k : ℕ} (hk : k < 256) : tileKey (tileOfKey (c.val * 256 + k)) = c.val * 256 + k := by
  have := c.isLt
  simp only [tileOfKey, tileKey, Fin.val_ofNat]
  omega

/-- Two origins of one span are one tile. -/
theorem Module.origin_eq_of_mem (h : u ∈ m.spanTiles t) : m.origin u = m.origin t := by
  obtain ⟨cl, row, col⟩ := (m.mem_spanTiles t u).1 h
  unfold Module.origin
  rw [cl]
  simp only [row, col]

theorem RegKept.origin (h : RegKept .FAB_CL_STATUS m m') : m'.origin u = m.origin u := by
  have side : m'.spanSide u.cl.val = m.spanSide u.cl.val := by
    unfold Module.spanSide
    rw [RegKept.fld (f := Fld.FAB_CL_STATUS_SPAN_SHAPE) h (cluster_lt u.cl) (by decide)]
  unfold Module.origin
  rw [side]

/-- What a span became does not depend on the state it began in, but for the queue. -/
theorem SpanBecame.of_pending {s0 s' : State} {f : TileId → Tile → Tile} (h : SpanBecame base s0 s' cx f)
    (same : s0.pending = s.pending) : SpanBecame base s s' cx f := ⟨h.pending.trans same, h.rest, h.tiles⟩

section Release

variable {route : Fin 256} {stage : Fin 64} {layer : BitVec 16} {f : TileId → Tile → Tile}
  (stageOf : s.mod.stageOf cx.o.cl.val = some (cx.n, cx.r, cx.sg)) (one : s.mod.stageClusters route.val stage.val = [cx.o.cl.val])
  (released : s.mod.released cx.o.cl.val = true) (origin : s.mod.origin cx.o = cx.o)
  (waits : (s.mod.tile cx.o).waitsToll layer.toNat = some w)
  (others : ∀ u : TileId, u.cl = cx.o.cl → u ≠ cx.o → s.mod.TollQuiet layer.toNat u)
include stageOf one released origin waits others

/-- Where one span of one cluster waits for the layer, the release of the toll is what VERS now does for that span. -/
theorem tollRelease_yields (kept : s.mod.SpansKept base) (became : SpanBecame base s ⟨m'.settle, s.pending⟩ cx f)
    (vers : s.mod.versRoute cx w = m') : Yields (.tollRelease route stage layer) s m' := by
  have round : s.mod.tollRound cx.o.cl.val layer.toNat cx.o = m' := by
    unfold Module.tollRound
    rw [stageOf, waits, if_neg (by simp [origin, released])]
    exact vers
  have regs := congrArg Module.regs became.rest
  have status : RegKept .FAB_CL_STATUS s.mod m' := kept.status.trans (RegKept.of_regs regs)
  have quiet : ∀ u : TileId, u.cl = cx.o.cl → u ≠ cx.o → m'.TollQuiet layer.toNat u := by
    intro u cl ne atOrigin
    rw [status.origin] at atOrigin
    have outside : u ∉ base.spanTiles cx.o := by
      rw [kept.spanTiles]
      exact fun inside => ne (atOrigin.symm.trans ((Module.origin_eq_of_mem inside).trans origin))
    have tile : m'.tile u = s.mod.tile u := ((became.tiles u).trans (if_neg outside)).trans (kept.tile u)
    rw [tile]
    exact others u cl ne atOrigin
  have key : cx.o.row.val * 16 + cx.o.col.val < 256 := by omega
  have here : tileOfKey (cx.o.cl.val * 256 + (cx.o.row.val * 16 + cx.o.col.val)) = cx.o := by
    rw [← Nat.add_assoc]
    exact tileOfKey_tileKey
  have apart : ∀ k ∈ List.range 256, k ≠ cx.o.row.val * 16 + cx.o.col.val → tileOfKey (cx.o.cl.val * 256 + k) ≠ cx.o := by
    intro k hk ne e
    have := tileKey_tileOfKey (c := cx.o.cl) (List.mem_range.1 hk)
    rw [e] at this
    unfold tileKey at this
    omega
  refine yields_of_run (exec_tollRelease route stage layer) ?_
  rw [one, List.foldl_cons, List.foldl_nil]
  refine foldl_eq_of_one List.nodup_range (List.mem_range.2 key) (by rw [here]; exact round) (fun k hk ne => ?_) fun k hk ne => ?_
  · exact Module.tollRound_quiet (others _ (tileOfKey_cl (List.mem_range.1 hk)) (apart k hk ne))
  · exact Module.tollRound_quiet (quiet _ (tileOfKey_cl (List.mem_range.1 hk)) (apart k hk ne))

end Release

theorem vers_routes (route : w.mod.toNat = 1) (issues : Issues s t 0x42 w (fun k => (formVers k w).illegal k w) cx) :
    Yields (.vers t w) s (s.mod.versRoute cx w) := by
  unfold Yields
  rw [show exec (.vers t w) s = _ from execVers.eq_1 t w s, State.tileOpBy_issues issues]
  simp only [route, Nat.one_ne_zero, if_false]
  rfl

theorem tollResults : TollResults := by
  intro s t w cx
  refine ⟨fun route issues => ⟨vers_routes route issues, fun inside zero => ?zero⟩, fun o stageOf learns record => ?_⟩
  case zero =>
    refine ⟨_, (vers_routes route issues).trans (by rw [Module.versRoute_zero zero]), ?_⟩
    exact Module.each_did (fun _ _ => Tile.setS_control ..) inside
  subst o
  intro i step m1 route stage layer rec asked one released origin waits others
  have asks := Module.versRoute_asks (w := w) learns record asked
  have quiet : ∀ u : TileId, u.cl = cx.o.cl → u ≠ cx.o → s.mod.TollQuiet layer.toNat u := others
  refine ⟨fun unknown => ?unknown, fun known inside => ?known⟩
  case unknown =>
    have waited := Module.waitOn_waits (s := ⟨s.mod.askedBy cx w, s.pending⟩) (cx := cx) (w := w) (op := 0x42)
    exact tollRelease_yields stageOf one released origin waits quiet Module.askedBy_kept
      (SpanBecame.of_pending waited rfl) (asks.trans (if_neg (Bool.eq_false_iff.1 unknown)))
  case known =>
    have kept : s.mod.SpansKept ((s.mod.askedBy cx w).countToll cx) := Module.askedBy_kept.trans (.countToll _ cx)
    have inside : Inside ((s.mod.askedBy cx w).countToll cx) cx := by
      unfold Inside
      rwa [kept.tile]
    have did := Module.each_did (s := ⟨(s.mod.askedBy cx w).countToll cx, s.pending⟩) (cx := cx)
      (f := fun _ x => x.setS w.d.toNat ((s.mod.tollWord cx rec w x).getD 0)) (fun _ _ => Tile.setS_control ..) inside
    have became := SpanBecame.of_pending (s := s) did rfl
    exact ⟨_, tollRelease_yields stageOf one released origin waits quiet kept became (asks.trans (if_pos known)), became⟩

/-- Settles O31: staging, fetching, the front, the end of a swap and the deadline by what they leave of the weight record; the toll by
the words of the record, and by the one span that a release serves. -/
theorem swapsAndStaging : Obligations.SwapsAndStaging :=
  ⟨staging, frontFixing, swapCompletion, layerDeadlines, tollResults, tollWords⟩

end Sys2Proof.Machine
end
